-- ==== Sys2Proof/Word.lean ====
section
/-!
DEFINITION. The word types of the module: a register is 32 bits wide (00_scope.md, Register conventions), memory is
addressed in bytes, and 64-bit values are held in two adjacent registers (R11).
-/
namespace Sys2Proof

/-- One register of BAR0. -/
abbrev Word := BitVec 32

/-- One byte of HBM, of a scratchpad or of a packet. -/
abbrev Byte := BitVec 8

end Sys2Proof
end

