-- ==== Sys2Proof/Syntax.lean ====
section
/-!
DEFINITION. The commands of the module: one constructor of Instr for each row of spec/opcode_table.json, in the table's
order, with the operands the row's event carries (the table gives no bits). A write with a row of its own carries the
accessing function, the instance and the whole 32-bit value written; an event carries what the outside world delivers
with it. Where a rule names the winner of two happenings of one cycle, the command carries the other happening.
-/
namespace Sys2Proof

/-- Who makes a host access: the physical function, the virtual function of a tenant (R233), the management path (R13, R416), or
another module through the proxy window, as a physical-function access (R199). The last is no operand of a command: a
proxy packet carries it. -/
inductive Func where
  | pf
  | vf (n : Fin 8)
  | mgmt
  | px
deriving DecidableEq, Repr

/-- A hardware fault that strikes one command: a Tithe comparison that fails (R63), a scratchpad error found by a port
(R85), a corrected or an uncorrectable HBM error with its controller and address (R106, R162, R236, R448). -/
inductive HwFault where
  | none
  | tithe (stage tile array quad : Nat)
  | spadCe (bank row : Nat)
  | spadUe (port bank row : Nat)
  | hbmCe (mc : Fin 16) (addr : Nat)
  | hbmUe (mc : Fin 16) (addr : Nat)
deriving DecidableEq, Repr

/-- A unit that runs commands of the queues. -/
inductive CmdUnit where
  | engine (e : Fin 6)
  | porter (p : Fin 16)
deriving DecidableEq, Repr

/-- A barrier of Tally (R208): central TB0 to TB255, or tree barrier k of engine e. -/
inductive BarId where
  | central (n : Fin 256)
  | tree (e : Fin 6) (k : Fin 64)
deriving DecidableEq, Repr

/-- A sideband word of a control slot (R172): its contents by kind. -/
inductive SbWord where
  | timesync (count : BitVec 64)
  | echo (reply : Bool) (stamp : BitVec 64)
  | lbArrival (k : Fin 16) (src : Fin 64) (gen : BitVec 16) (locked : Bool)
  | lbRelease (k : Fin 16) (gen : BitVec 16) (status : Nat) (count : BitVec 64)
  | abort (tenant : Fin 8) (epoch : BitVec 4) (origin : Fin 64) (code : Nat)
  | abortDone (tenant : Fin 8) (src : Fin 64)
  | epochs (word : Word)
deriving DecidableEq, Repr

/-- The operation of a Faleg packet (R174). -/
inductive PktOp where
  | write | writeAck | error | arrive | proxyRead | proxyReadData | proxyWrite | proxyWriteAck
deriving DecidableEq, Repr

/-- A packet (R173, R174), whole: header fields and data bytes. `space` is 0 HBM, 1 to 6 scratchpad, 7 registers. -/
structure Packet where
  dest : Nat
  src : Nat
  tenant : Nat
  vc : Nat
  epoch : Nat
  hops : Nat
  op : PktOp
  space : Nat
  tag : Nat
  addr : Nat
  data : List Byte
deriving DecidableEq, Repr

/-- A data slot as received (R172, R173, R175, R176): the wrong bytes of its even and of its odd interleave, whether the CRC-32 holds
after FEC, the LINK field (acknowledged sequence number; per channel the flits whose buffers have come free since the port is
UP), the 64-bit flit header and the 256 bytes of payload, decrypted. -/
structure DataSlot where
  fec : Nat × Nat
  crcOk : Bool
  ack : BitVec 12
  freed : List Nat
  hdr : BitVec 64
  payload : List Byte
deriving DecidableEq, Repr

/-- A control slot as received (R172, R175, R177, R179): the wrong bytes of its two interleaves, CRC and seal tag as checked, the flit a
NAK names, the sequence numbers of acknowledged sideband words, and its sideband words with their sequence numbers. -/
structure CtlSlot where
  fec : Nat × Nat
  crcOk : Bool
  tagOk : Bool
  nak : Option (BitVec 12)
  sbAcks : List Nat
  words : List (Nat × SbWord)
deriving DecidableEq, Repr

/-- A frame on a CAN bus (R375): identifier format, remote and FD bits, bit-rate switch, error state indicator, length
code and data bytes. -/
structure CanFrame where
  ide : Bool
  rtr : Bool
  fdf : Bool
  brs : Bool
  esi : Bool
  id : BitVec 29
  dlc : BitVec 4
  data : List Byte
deriving DecidableEq, Repr

/-- Kinds of bus error (R377), in the order of LEC. -/
inductive CanErr where
  | stuff | form | ack | bit1 | bit0 | crc
deriving DecidableEq, Repr

/-- What the ECC finds in a CSI-2 packet header (R333): no error, a single-bit error, which is corrected, or an uncorrectable one. -/
inductive HeaderEcc where
  | clean | fixed | bad
deriving DecidableEq, Repr

/-- One picture that Caravan's decoder finishes (R343): its planes as decoded, as NV12 or P010 samples (Y, then interleaved U and V), the side
in luma samples of its coding units (macroblocks or coding tree units), the units of lost slices by number in raster order, how many further units
predict from concealed or substituted data, whether the bitstream breaks the syntax, its order and RTP timestamp. -/
structure Picture where
  width : Nat
  height : Nat
  tenBit : Bool
  luma : List Nat
  chroma : List Nat
  unit : Nat
  lost : List Nat
  predicted : Nat
  syntaxBad : Bool
  order : Nat
  rtpTime : Word
deriving DecidableEq, Repr

/-- One RTP packet of a video stream (R342): header fields, and its payload, the compressed data. -/
structure RtpPacket where
  port : Fin 4
  udpPort : BitVec 16
  payloadType : BitVec 7
  ssrc : Word
  seq : BitVec 16
  time : Word
  marker : Bool
  payload : List Byte
deriving DecidableEq, Repr

/-- How an I2C transfer ended on the wire (R383): the bytes read, or the fault met. -/
inductive I2cEnd where
  | ok (bytes : List Byte) (pec : Byte)
  | nackAddr
  | nackData
  | arbLost
deriving DecidableEq, Repr

/-- What the boot ROM meets (R429, R432): whether each slot's image verifies, and whether the increment of BOOT_TRIES stays without success for
100 ms. -/
structure BootVerify where
  slotA : Bool
  slotB : Bool
  triesFailed : Bool
deriving DecidableEq, Repr

/-- The input whose samples stay out (R418). -/
inductive StaleInput where
  | thermal (n : Fin 32)
  | regulator (n : Fin 8)
  | holdup
deriving DecidableEq, Repr

/-- What a read of a Ledger row finds of its two copies' cells (R434): whether copy A, and copy B, has lost its CRC. -/
structure RowFault where
  row : Fin 256
  a : Bool
  b : Bool
deriving DecidableEq, Repr

/-- The commands, one constructor for each row of the table. -/
inductive Instr where
  | registerWrite (f : Func) (addr width : Nat) (v hwSet : Word)
  | lowWordRead (f : Func) (addr width : Nat)
  | matmul (e : Fin 6) (hw : HwFault)
  | convDense (e : Fin 6) (hw : HwFault)
  | convDiagonal (e : Fin 6) (hw : HwFault)
  | convFrequency (e : Fin 6) (hw : HwFault)
  | attnForwardDense (e : Fin 6) (hw : HwFault)
  | attnForwardRetrieval (e : Fin 6) (hw : HwFault)
  | attnBackward (e : Fin 6) (hw : HwFault)
  | rnnStep (e : Fin 6) (hw : HwFault)
  | vectorMap (e : Fin 6) (hw : HwFault)
  | sumFp32 (e : Fin 6) (hw : HwFault)
  | sumGranary (e : Fin 6) (hw : HwFault)
  | vectorMax (e : Fin 6) (hw : HwFault)
  | vectorMin (e : Fin 6) (hw : HwFault)
  | poolMax (e : Fin 6) (hw : HwFault)
  | poolAvg (e : Fin 6) (hw : HwFault)
  | digest (e : Fin 6) (hw : HwFault)
  | copy (p : Fin 16)
  | porterDescriptor (p : Fin 16) (hw : HwFault)
  | arrive (q : Fin 32)
  | wait (q : Fin 32)
  | waybillWait (q : Fin 32)
  | fence (q : Fin 32)
  | fenceCompletion (q : Fin 32)
  | commandCompletion (u : CmdUnit)
  | recipeCacheFill (e : Fin 6) (hw : HwFault)
  | queueFetch (q : Fin 32) (hw : HwFault)
  | recInv (f : Func) (e : Fin 6) (v : Word)
  | partWrite (f : Func) (e : Fin 6) (t : Fin 8) (v : Word)
  | resWrite (f : Func) (e : Fin 6) (t : Fin 8) (k : Fin 4) (v : Word)
  | ceClr (f : Func) (e : Fin 6) (v : Word)
  | repairWrite (f : Func) (e : Fin 6) (i : Fin 128) (v : Word)
  | spadClearDone (e : Fin 6)
  | tlbInv (f : Func) (e : Fin 6) (v : Word)
  | invTn (f : Func) (e : Fin 6) (v : Word)
  | retrain (f : Func) (p : Fin 8) (v : Word)
  | portTrainingDone (p : Fin 8) (locks : BitVec 4) (partner : BitVec 6)
  | wiringRetry (p : Fin 8)
  | authDone (p : Fin 8) (keyHash : List Word) (signatureOk : Bool)
  | epochExchange (p : Fin 8) (epochs : Word)
  | laneLockLoss (p : Fin 8) (lanes : BitVec 4)
  | dataSlot (p : Fin 8) (d : DataSlot)
  | controlSlot (p : Fin 8) (c : CtlSlot)
  | escWaitExpiry (p : Fin 8) (vc : Fin 2)
  | packetForward (p : Fin 8) (vc : Fin 4)
  | writePacket (p : Fin 8) (vc : Fin 4)
  | writeAcknowledgement (p : Fin 8) (vc : Fin 4)
  | errorResponse (p : Fin 8) (vc : Fin 4)
  | arrivePacket (p : Fin 8) (vc : Fin 4)
  | proxyAccess (f : Func) (addr : Nat) (w : Option Word)
  | proxyRead (p : Fin 8) (vc : Fin 4)
  | proxyWrite (p : Fin 8) (vc : Fin 4)
  | proxyReadData (p : Fin 8) (vc : Fin 4)
  | proxyWriteAcknowledgement (p : Fin 8) (vc : Fin 4)
  | proxyTimeout (m : Fin 64)
  | timesyncSend
  | timesync (p : Fin 8) (count : BitVec 64)
  | echoSend
  | echo (p : Fin 8) (roundTrip : Nat)
  | fcHoldover
  | masterWrite (f : Func) (v : Word)
  | launchCount (q : Fin 32)
  | lbArrival (k : Fin 16) (src : Fin 64) (gen : BitVec 16) (locked : Bool)
  | lbTimeout (k : Fin 16)
  | lbRelease (k : Fin 16) (gen : BitVec 16) (status : Nat) (count : BitVec 64)
  | lbSelfRelease (k : Fin 16)
  | lbFire (k : Fin 16)
  | lbCfgWrite (f : Func) (k : Fin 16) (v : Word)
  | abort (f : Func) (v : Word)
  | abortReceipt (p : Fin 8) (t : Fin 8) (epoch : BitVec 4) (origin : Fin 64) (code : Nat)
  | abortDone (t : Fin 8) (src : Fin 64)
  | tallyArrival (also : Nat)
  | carryRelease (b : BarId)
  | barrierTimeout (b : BarId) (also : Nat)
  | tallyTimeout (q : Fin 32) (also : Nat)
  | tallyConfigWrite (f : Func) (b : BarId) (part : Bool) (v : Word) (busy : Bool)
  | enable (f : Func) (t : Fin 8) (v : Word)
  | restart (f : Func) (t : Fin 8) (v : Word)
  | release (f : Func) (t : Fin 8) (v : Word)
  | scrubDone (t : Fin 8)
  | qTailWrite (f : Func) (t : Fin 8) (q : Fin 4) (v : Word)
  | qCfgWrite (f : Func) (t : Fin 8) (q : Fin 4) (v : Word)
  | tnResWrite (f : Func) (t : Fin 8) (v : Word)
  | runLimit (u : CmdUnit)
  | close (f : Func) (t : Fin 8) (v : Word)
  | mergedClose (t : Fin 8)
  | manAck (f : Func) (t : Fin 8) (v : Word)
  | powerWindowEnd
  | pgEnable (f : Func) (g : Fin 4) (v : Word)
  | kWrite (f : Func) (g : Fin 4) (v : Word)
  | pgAdj (f : Func) (g : Fin 4) (v : Word)
  | timebaseChange
  | zcEdge (falling : Bool) (held : Nat)
  | zcTimeout (g : Fin 4) (edge : Bool)
  | srcLost (g : Fin 4)
  | waybillCrossing (g : Fin 4)
  | wbLate
  | strobeEnd (c : Fin 16)
  | queueStart
  | tallyArrive
  | wardenDeadline (freshNow : Bool)
  | engineWindow
  | manifestClose
  | wbSelWrite (f : Func) (v : Word)
  | commit (f : Func) (v : Word)
  | wbWaitTimeout (q : Fin 32) (firing : Bool)
  | addendWrite (f : Func) (v : Word)
  | set (f : Func) (v : Word)
  | step (f : Func) (v : Word)
  | announce (port : Fin 4) (gmLo gmHi : Word)
  | pdelayReq (port : Fin 4) (seqId : BitVec 16) (linkDelay : Word)
  | tsNsRead (f : Func)
  | txtsInfoRead (f : Func) (port : Fin 4)
  | launchTime (port : Fin 4) (q : Fin 8)
  | axEnable (f : Func) (a : Fin 48) (v : Word)
  | disable (f : Func) (a : Fin 48) (v : Word)
  | lawCommit (f : Func) (a : Fin 48) (v : Word)
  | axisCompute (a : Fin 48) (disagree : Bool)
  | driverLatch (d : Fin 4)
  | periodLost (d : Fin 4)
  | mbCommit (d : Fin 4)
  | currentDecision (a : Fin 48)
  | bandAdapt (a : Fin 48)
  | currentLost (a : Fin 48)
  | upstreamFrame (al : Fin 12) (frame : BitVec 40)
  | downstreamFrame (al : Fin 12)
  | encoderEdge (n : Fin 48) (a b : Bool)
  | encoderIndex (n : Fin 48)
  | tStopExpiry (n : Fin 48) (edge : Bool)
  | signalFault (n : Fin 48)
  | ssiTransferEnd (n : Fin 48) (bits : Word) (parityBit : Bool)
  | monoTimeout (n : Fin 48) (returned : Bool)
  | safeReq (f : Func) (al : Fin 12) (v : Word)
  | stopTimeExpiry (al : Fin 12)
  | brakeDelayExpiry (al : Fin 12)
  | groupReset (f : Func) (al : Fin 12) (v : Word)
  | stoFbErr (al : Fin 12) (stoA stoB brake : Bool)
  | csi2FrameStart (c : Fin 16) (vc : BitVec 2) (ecc : HeaderEcc) (frame : BitVec 16)
  | csi2Line (c : Fin 16) (vc : BitVec 2) (ecc : HeaderEcc) (dt : BitVec 6) (crcOk overflow : Bool) (codes : List Nat)
  | csi2EmbeddedData (c : Fin 16) (vc : BitVec 2) (ecc : HeaderEcc) (crcOk : Bool) (bytes : List Byte)
  | csi2FrameEnd (c : Fin 16) (vc : BitVec 2) (ecc : HeaderEcc)
  | frameTimeout (c : Fin 16) (ended : Bool)
  | camSilent (c : Fin 16) (started : Bool)
  | thSet (f : Func) (c : Fin 16) (v : Word)
  | roiCommit (c : Fin 16)
  | srcEnable (f : Func) (src : Fin 96) (v : Word)
  | sampleForward (src : Fin 96)
  | rtpPacket (p : RtpPacket)
  | jitterExpiry (vs : Fin 80)
  | pictureDecoded (vs : Fin 80) (pic : Picture)
  | stalled (vs : Fin 80)
  | probeRead (f : Func) (high : Bool)
  | gleanStart (f : Func) (v : Word)
  | gleanDone
  | ethFrameReceived (port : Fin 4) (fcsOk : Bool) (frame : List Byte)
  | queuePoll (port : Fin 4)
  | ethFrameBoundary (port : Fin 4)
  | ethTxDone (port : Fin 4)
  | linkDown (port : Fin 4)
  | linkUp (port : Fin 4)
  | silent (port : Fin 4) (arrived : Bool)
  | queueRestart (f : Func) (port : Fin 4) (tx : Bool) (q : Fin 8) (v : Word)
  | blkEnable (f : Func) (page : Nat) (v : Word) (sdaHigh : List Bool)
  | canInit (f : Func) (n : Fin 8) (v : Word)
  | canNormal (f : Func) (n : Fin 8) (v : Word)
  | canListen (f : Func) (n : Fin 8) (v : Word)
  | canSleep (f : Func) (n : Fin 8) (v : Word)
  | canWake (n : Fin 8) (frame : Option (CanFrame × Nat))
  | txbReq (f : Func) (n : Fin 8) (v : Word)
  | txbAbort (f : Func) (n : Fin 8) (v : Word)
  | txfPush (f : Func) (n : Fin 8) (v : Word)
  | txfFlush (f : Func) (n : Fin 8) (v : Word)
  | rxPop (f : Func) (n : Fin 8) (v : Word) (arriving : Option (CanFrame × Nat))
  | rxhIdRead (f : Func) (n : Fin 8)
  | recover (f : Func) (n : Fin 8) (v : Word)
  | canArbitration (n : Fin 8)
  | canFrameSent (n : Fin 8) (delay : Nat)
  | canFrameReceived (n : Fin 8) (frame : CanFrame) (age : Nat)
  | canError (n : Fin 8) (kind : CanErr) (transmitting outsideArbitration : Bool) (tecAdd recAdd : Nat)
  | busOffRecovery (n : Fin 8)
  | txTimeout (n : Fin 8) (slot : Fin 32)
  | rxTimeout (n : Fin 8) (flt : Fin 32)
  | busDominant (n : Fin 8)
  | i2cStart (f : Func) (n : Fin 2) (v : Word) (sdaHigh : List Bool)
  | i2cTransferDone (n : Fin 2) (clear : List Bool) (r : I2cEnd)
  | sclLowTimeout (n : Fin 2) (released : Bool)
  | i2cUnfence (f : Func) (n : Fin 2) (v : Word) (sdaHigh : List Bool)
  | smbalert (status : List (Nat × Word))
  | wdHoldExpired (slot : Fin 64) (freshNow : Bool)
  | stopClr (f : Func) (slot : Fin 64) (v : Word)
  | wdLockstep
  | ctrlMonitor (voltage : Bool)
  | diagRun (f : Func) (v : Word)
  | startupRunDone (fails : BitVec 16) (inst micros : Nat) (epochFailed : Bool) (rows : List RowFault)
  | regionWrite (f : Func) (e : Fin 128) (reg : Fin 3) (v : Word)
  | attStart (f : Func) (v : Word)
  | attestationDone
  | getInfo
  | logRead
  | fwErase (flashErr : Bool)
  | fwWrite (flashErr : Bool)
  | fwVerify
  | fwActivate
  | fwConfirm
  | ledgerWrite
  | rosterSet
  | mgmtRead
  | mgmtWrite
  | mailboxFence
  | unfence
  | sensorRead
  | mailboxTimeout
  | fenceLift (page : Nat)
  | drainStall (page : Nat) (cls : Fin 2)
  | stateCompare (page : Nat) (clockOff running : Bool)
  | thermalSample (n : Fin 32) (temp : Int)
  | sensorStale (input : StaleInput) (sample : Bool)
  | railSample (n : Fin 12) (mv : Nat)
  | pmbusPoll (n : Fin 8) (vout iout : Nat) (temp : Int) (status : BitVec 16)
  | holdupSample (code : BitVec 12)
  | droop
  | droopRecovery
  | dvfsTick (margin : Nat)
  | voltageSettled
  | logPageWritten
  | ledgerDequeue
  | ledgerWriteDone (failed : Bool)
  | ledgerScan (a b : Bool)
  | trialTimeout
  | ostlerWdt
  | faultAck (f : Func) (page : Nat) (v : Word) (arriving : List (Nat × Word))
  | softReset (f : Func) (page : Nat) (v : Word)
  | moduleReset (f : Func) (v : Word)
  | lock (f : Func) (page : Nat) (v : Word)
  | errinjWrite (f : Func) (page : Nat) (v : Word)
  | irqPendWrite (f : Func) (page : Nat) (v : Word) (arriving : Word)
  | irqEnWrite (f : Func) (page : Nat) (v : Word)
  | irqForce (f : Func) (page : Nat) (v : Word)
  | irqRouteWrite (f : Func) (i : Fin 256) (v : Word)
  | porNAssert
  | porNRelease (samples : List (BitVec 6))
  | firmwareChosen (r : BootVerify)
  | tensorRailsUp
  | hbmTrainingDone (failed : BitVec 4)
  | hostRelease
  | perstNAssert
  | vfFunctionLevelReset (t : Fin 8)
  | pfFunctionLevelReset
  | refclkLoss
  | perstNRelease
  | busStuck (n : Fin 2)
  | busRecessive (n : Fin 8)
deriving DecidableEq, Repr

end Sys2Proof
end

