-- ==== Sys2Proof/Decode.lean ====
section
/-!
DEFINITION. Words and commands. spec/opcode_table.json gives every row an empty list of fields: no command of this block has an
encoding, so no word spells one.
-/
namespace Sys2Proof

/-- The command a word spells by the table's bits: none, since no row has bits. -/
def decodeTableWord (_nbits _w : Nat) : Option Instr := none

end Sys2Proof
end

