-- ==== Sys2Proof/Config.lean ====
section
/-!
DEFINITION. What the spec leaves open: the free values. Each is an opaque constant without a body, so no proof can see
its value; a claim that uses one holds for every value of it. The assumption log names each (entries 4, 9, 10, 11, 12).
-/
namespace Sys2Proof.Config

/-- Contents of HBM after a reset that leaves it undefined (R472), one list for each such reset. Log 4. -/
opaque freeHbm : Nat → List (Nat × Byte)

/-- The code of a logged event to which the spec gives no code (R425), by the model's number of the event. Log 14. -/
opaque eventCode : Nat → Nat

/-- A free 32-bit value, named by the counter State.fresh. Log 1. -/
opaque freeWord : Nat → Word

/-- What a product with a NaN or an infinity adds to its Granary (R43), by the anchor, the operands and the scales. Log 1. -/
opaque poisonTerm : List Int → Int

/-- The table value of exp, log, rsqrt and reciprocal, before the bound of R65 is applied: how many units in the last
place the table lies above or below the correctly rounded value. Log 9. -/
opaque expUlp : Word → Int
opaque logUlp : Word → Int
opaque rsqrtUlp : Word → Int
opaque recipUlp : Word → Int

/-- The fixed tables of sine and cosine (R301, R304): FP32 of an angle in FP32 radians, and of a 32-bit phase. Log 10. -/
opaque sinTable : Word → Word
opaque cosTable : Word → Word
opaque cosPhase : Word → Word
opaque sinPhase : Word → Word

/-- What the FP32 FFTs of frequency mode give (R126), before Fft.lean holds them to the exact transform: by log2 F and the samples or
bins; and whether the outputs of a tile are the last samples of its inverse transform. Log 11. -/
opaque forwardFft : Nat → List Word → List (Word × Word)
opaque inverseFft : Nat → Nat → Nat → List (Word × Word) → List Word
opaque fftTail : Bool

/-- Energy in microjoule of a piece of work: fixed per-part coefficients (R250), by opcode, run time in ns and bytes
moved. Log 13. -/
opaque energy : Nat → Nat → Nat → Nat

/-- The board power in milliwatt estimated from activity while PMBus telemetry is stale (R418, R422). Log 13. -/
opaque activityPower : Nat → Nat

/-- SHA-384 (48 bytes) of a byte string; ECDSA P-384 verification of a hash under a public key with r and s; ECDSA
signature by the attestation key. Standards named by the spec and not defined there. Log 12. -/
opaque sha384 : List Byte → List Byte
opaque ecdsaVerify : List Byte → List Byte → List Byte → Bool
opaque attestSign : List Byte → Nat → List Byte

/-- Faleg links: the AES-256 key of a direction that a key exchange yields (R178); AES-256-GCM (R179) as the byte that byte i of a run
becomes under key and IV, and as the bytes of the tag over additional data and plaintext: standards named by the spec and not
defined there. Log 12. -/
opaque linkKey : Nat → BitVec 256
opaque gcmByte : BitVec 256 → BitVec 96 → Nat → Byte → Byte
opaque gcmTag : BitVec 256 → BitVec 96 → List Byte → List Byte → Nat → Byte

/-- Parts of a Faleg slot whose layout the spec does not give (R172, R175): the frame marker and frame number, the LINK field by
acknowledged number and freed flits, the NAK, a sideband word with its number, and the RS(140, 136) parity of an interleave, whose
field polynomial and generator it does not name. Log 52. -/
opaque frameByte : Nat → Nat → Byte
opaque linkByte : Nat → List Nat → Nat → Byte
opaque nakByte : Option Nat → Nat → Byte
opaque sidebandByte : Nat → SbWord → Nat → Byte
opaque rsParity : List Byte → Nat → Byte

/-- The fused V/F entry of a frequency in MHz, in mV (R423). Log 5. -/
opaque fusedMillivolt : Nat → Nat

/-- How GET_INFO packs the states of the two firmware slots into RESP0, and how SENSOR_READ lays out the samples: the spec
gives no layout. Log 19. -/
opaque slotStates : Nat → Nat → Word
opaque sensorImage : List (Nat × Int) → List Byte

/-- How the log record of a management override packs the offset and the value (R416): the spec gives no layout. Log 19. -/
opaque mgmtInfo : Nat → Nat → Nat

/-- Lens shading (R335): where in a pixel its place on the grid is taken, by the frame's side and the pixel's number, and how an interpolated
gain is rounded, by its exact value: the spec fixes neither. Log 30. -/
opaque lscPlace : Nat → Nat → Nat
opaque lscRound : Nat → Nat

/-- The YUV-to-RGB matrix of a YUV422 frame and that frame's statistics (R335): the spec gives neither. Log 30. -/
opaque yuvRgb : Nat → Nat → Nat → Nat × Nat × Nat
opaque yuvHist : List (List Nat) → List Nat
opaque yuvZones : List (List Nat) → List Nat
opaque yuvMeans : List (List Nat) → Nat × Nat × Nat

/-- The mean over no pixel (R335, R338): a zone or an output pixel that spans none. Log 30. -/
opaque emptyMean : Nat → Nat

end Sys2Proof.Config
end

