-- ==== Sys2Proof/Machine/Map.lean ====
section
/-!
DEFINITION. Sparse storage in one canonical form: a list of key and value pairs with strictly rising keys and no pair
equal to what an unlisted key reads as. HBM, the scratchpads, the registers and every table of like units are held so.
-/
namespace Sys2Proof.Machine

/-- The value at key `k`; `d` gives what an unlisted key reads as. -/
def mapGet {α : Type} (d : Nat → α) : List (Nat × α) → Nat → α
  | [], k => d k
  | (k', v) :: r, k => if k = k' then v else mapGet d r k

/-- Store `v` at key `k`, keeping the canonical form: storing the unlisted value removes the pair. -/
def mapSet {α : Type} [DecidableEq α] (d : Nat → α) : List (Nat × α) → Nat → α → List (Nat × α)
  | [], k, v => if v = d k then [] else [(k, v)]
  | (k', v') :: r, k, v =>
    if k < k' then (if v = d k then (k', v') :: r else (k, v) :: (k', v') :: r)
    else if k = k' then (if v = d k then r else (k, v) :: r)
    else (k', v') :: mapSet d r k v

/-- Every listed key lies above `lo` (none: no bound), keys rise strictly, no listed value is the unlisted one. -/
def mapWfFrom {α : Type} [DecidableEq α] (d : Nat → α) : Option Nat → List (Nat × α) → Bool
  | _, [] => true
  | none, (k, v) :: r => decide (v ≠ d k) && mapWfFrom d (some k) r
  | some lo, (k, v) :: r => decide (lo < k) && decide (v ≠ d k) && mapWfFrom d (some k) r

/-- The canonical form. -/
def mapWf {α : Type} [DecidableEq α] (d : Nat → α) (m : List (Nat × α)) : Bool := mapWfFrom d none m

/-- Apply `f` to the value at one key. -/
def mapUpd {α : Type} [DecidableEq α] (d : Nat → α) (m : List (Nat × α)) (k : Nat) (f : α → α) : List (Nat × α) :=
  mapSet d m k (f (mapGet d m k))

/-- Drop every pair whose key satisfies `p`: those keys read as unlisted. -/
def mapDrop {α : Type} (m : List (Nat × α)) (p : Nat → Bool) : List (Nat × α) :=
  m.filter (fun c => !p c.1)

end Sys2Proof.Machine
end

