-- ==== Sys2Proof/Machine/Bits.lean ====
section
/-!
DEFINITION. Bit fields of registers, little-endian byte strings (R7), signed readings, saturating counters and the
checksums the spec names: CRC-32 (IEEE 802.3), the SMBus PEC, the CRC-8 of the Axis link, FNV-1a and the mix of R67.
-/
namespace Sys2Proof.Machine

/-- The mask of bits [hi:lo]. -/
def fm (hi lo : Nat) : Nat := 2 ^ (hi + 1) - 2 ^ lo

/-- Bits [hi:lo] of a number. -/
def nfld (n hi lo : Nat) : Nat := n / 2 ^ lo % 2 ^ (hi + 1 - lo)

/-- Bits [hi:lo] of a register. -/
def fld (w : Word) (hi lo : Nat) : Nat := nfld w.toNat hi lo

/-- Bit i of a register. -/
def tbit (w : Word) (i : Nat) : Bool := nfld w.toNat i i == 1

/-- Put v into bits [hi:lo] of a register. -/
def setFld (w : Word) (hi lo v : Nat) : Word :=
  BitVec.ofNat 32 (w.toNat - ((nfld w.toNat hi lo) <<< lo) + ((v % 2 ^ (hi + 1 - lo)) <<< lo))

/-- Put a truth value into bit i. -/
def setBit (w : Word) (i : Nat) (b : Bool) : Word := setFld w i i (if b then 1 else 0)

/-- A register word of a number. -/
def w32 (n : Nat) : Word := BitVec.ofNat 32 n

def b2n (b : Bool) : Nat := if b then 1 else 0

/-- A saturating increment. -/
def satInc (n max : Nat) : Nat := if n < max then n + 1 else max

/-- The signed value of an n-bit two's-complement number. -/
def toS (n v : Nat) : Int :=
  let x := v % 2 ^ n
  if x < 2 ^ (n - 1) then (x : Int) else (x : Int) - (2 ^ n : Nat)

/-- The n-bit two's-complement pattern of a signed value. -/
def ofS (n : Nat) (i : Int) : Nat := (i % ((2 ^ n : Nat) : Int)).toNat

/-- Clamp a signed value. -/
def clampI (lo hi x : Int) : Int := if x < lo then lo else if hi < x then hi else x

/-- The number a little-endian byte string spells (R7). -/
def leNat : List Byte → Nat
  | [] => 0
  | b :: r => b.toNat + 256 * leNat r

/-- The little-endian byte string of n bytes that spells v (R7). -/
def natLe : Nat → Nat → List Byte
  | 0, _ => []
  | n + 1, v => BitVec.ofNat 8 v :: natLe n (v / 256)

/-- Big-endian bytes. -/
def natBe (n v : Nat) : List Byte := (natLe n v).reverse

/-- n zero bytes. -/
def zeros (n : Nat) : List Byte := List.replicate n 0

/-- Take n bytes from offset o, zero-filled. -/
def bslice (bs : List Byte) (o n : Nat) : List Byte :=
  let t := (bs.drop o).take n
  t ++ zeros (n - t.length)

/-- The number spelled by n bytes at offset o. -/
def beAt (bs : List Byte) (o n : Nat) : Nat := leNat (bslice bs o n).reverse
def leAt (bs : List Byte) (o n : Nat) : Nat := leNat (bslice bs o n)

/-- One bit step of a reflected CRC. -/
def crcStepR (poly : Nat) : Nat → Nat → Nat
  | 0, c => c
  | n + 1, c => crcStepR poly n (if c % 2 == 1 then (c / 2) ^^^ poly else c / 2)

/-- CRC-32 with the IEEE 802.3 polynomial (R79, R425, R434): reflected, initial and final value all ones. -/
def crc32 (bs : List Byte) : Nat :=
  (bs.foldl (fun c b => crcStepR 0xEDB88320 8 (c ^^^ b.toNat)) 0xFFFFFFFF) ^^^ 0xFFFFFFFF

/-- One bit step of a CRC-8, most significant bit first. -/
def crcStepM (poly : Nat) : Nat → Nat → Nat
  | 0, c => c
  | n + 1, c => crcStepM poly n (if c ≥ 128 then ((c * 2) % 256) ^^^ poly else c * 2)

/-- A CRC-8 over bytes, most significant bit first, initial value 0. -/
def crc8 (poly : Nat) (bs : List Byte) : Nat :=
  bs.foldl (fun c b => crcStepM poly 8 (c ^^^ b.toNat)) 0

/-- The SMBus PEC (R383): x^8 + x^2 + x + 1. -/
def smbusPec (bs : List Byte) : Nat := crc8 0x07 bs

/-- FNV-1a, 32 bit (R353). -/
def fnv1a (bs : List Byte) : Nat :=
  bs.foldl (fun h b => ((h ^^^ b.toNat) * 0x01000193) % 2 ^ 32) 0x811C9DC5

/-- Number of set bits. -/
def popcount : Nat → Nat → Nat
  | 0, _ => 0
  | n + 1, v => v % 2 + popcount n (v / 2)

/-- Round to nearest even of n / 2^s. -/
def rneShr (n s : Nat) : Nat :=
  let q := n >>> s
  let r := n % 2 ^ s
  if s = 0 then n else if 2 * r > 2 ^ s then q + 1 else if 2 * r = 2 ^ s then q + q % 2 else q

/-- Round to nearest even of n / d for d > 0. -/
def rneDiv (n d : Nat) : Nat :=
  let q := n / d
  let r := n % d
  if 2 * r > d then q + 1 else if 2 * r = d then q + q % 2 else q

/-- Round to nearest even of a signed quotient. -/
def rneDivI (n : Int) (d : Nat) : Int :=
  if n < 0 then -((rneDiv n.natAbs d : Nat) : Int) else ((rneDiv n.natAbs d : Nat) : Int)

end Sys2Proof.Machine
end

