-- ==== Sys2Proof/Machine/RegMap.lean ====
section
/-!
DEFINITION. The page map of BAR0 (R447, R448), the common header (R449 to R458) and the rows of every block's register
tables: which bits software writes, how (R13), and what they hold after reset. A register that only shows other state
is written here with no writable bit; RegView.lean computes it.
-/
namespace Sys2Proof.Machine

/-- The blocks of R447. -/
inductive Block where
  | top | ostler | ledger | power | sensors | warden | security | innkeeper | tally | sheaf | porter | hbmc | hostel
  | faleg | eth | can | i2c | milepost | waybill | drover | axis | encoder | axisLink | thresher | caravan | glean
  | augment
deriving DecidableEq, Repr

/-- A page of BAR0: its block, the instance, the page within the instance, and its source number if it carries one. -/
structure PageId where
  block : Block
  inst : Nat
  sub : Nat
  src : Option Nat
deriving DecidableEq, Repr

/-- One row of the page map: first page number, pages per instance, instances, block, first source number. -/
structure PageRow where
  page : Nat
  per : Nat
  count : Nat
  block : Block
  src : Nat

/-- The page map of R447, in 4 KiB page numbers. -/
def pageRows : List PageRow :=
  [⟨0, 1, 1, .top, 0⟩, ⟨1, 1, 1, .ostler, 1⟩, ⟨2, 4, 1, .ledger, 2⟩, ⟨6, 1, 1, .power, 3⟩, ⟨7, 1, 1, .sensors, 4⟩,
   ⟨8, 1, 1, .warden, 5⟩, ⟨9, 1, 1, .security, 6⟩, ⟨0x10, 16, 1, .innkeeper, 7⟩, ⟨0x20, 4, 1, .tally, 16⟩,
   ⟨0x100, 16, 6, .sheaf, 17⟩, ⟨0x200, 1, 16, .porter, 24⟩, ⟨0x210, 1, 16, .hbmc, 40⟩, ⟨0x220, 1, 6, .hostel, 56⟩,
   ⟨0x300, 1, 8, .faleg, 64⟩, ⟨0x310, 1, 4, .eth, 72⟩, ⟨0x320, 1, 8, .can, 76⟩, ⟨0x330, 1, 2, .i2c, 84⟩,
   ⟨0x400, 1, 1, .milepost, 88⟩, ⟨0x401, 4, 1, .waybill, 89⟩, ⟨0x410, 1, 4, .drover, 92⟩, ⟨0x420, 1, 48, .axis, 96⟩,
   ⟨0x450, 1, 48, .encoder, 144⟩, ⟨0x480, 1, 12, .axisLink, 192⟩, ⟨0x500, 1, 16, .thresher, 208⟩,
   ⟨0x510, 8, 1, .caravan, 224⟩, ⟨0x520, 1, 1, .glean, 232⟩, ⟨0x530, 1, 1, .augment, 233⟩]

/-- The page with a number, if a block occupies it (R448). Tenant pages 1 to 8 of INNKEEPER carry sources 8 to 15, and the
eight pages of CARAVAN one source each. Pages 9 to 15 of INNKEEPER and 8 to 15 of SHn read zero (R232, R252). -/
def pageId (p : Nat) : Option PageId :=
  match pageRows.find? (fun r => decide (r.page ≤ p ∧ p < r.page + r.per * r.count)) with
  | none => none
  | some r =>
    let k := p - r.page
    let inst := k / r.per
    let sub := k % r.per
    let src := if r.block = .innkeeper then (if sub ≤ 8 then some (7 + sub) else none)
      else if r.block = .caravan then some (r.src + sub)
      else if sub = 0 then some (r.src + inst) else none
    if (r.block = .innkeeper ∧ 8 < sub) ∨ (r.block = .sheaf ∧ 8 ≤ sub) then none else some ⟨r.block, inst, sub, src⟩

/-- The first page of an instance of a block. -/
def pageOf (b : Block) (inst : Nat) : Nat :=
  match pageRows.find? (fun r => r.block == b) with
  | none => 0
  | some r => r.page + r.per * inst

/-- The BAR0 byte address of a register. -/
def rga (page off : Nat) : Nat := page * 4096 + off

/-- BLK_ID [31:16] (R447). -/
def Block.code : Block → Nat
  | .top => 1 | .ostler => 2 | .ledger => 3 | .power => 4 | .sensors => 5 | .warden => 6 | .security => 7
  | .innkeeper => 0x10 | .tally => 0x11 | .sheaf => 0x20 | .porter => 0x21 | .hbmc => 0x22 | .hostel => 0x23
  | .faleg => 0x30 | .eth => 0x31 | .can => 0x32 | .i2c => 0x33 | .milepost => 0x40 | .waybill => 0x41
  | .drover => 0x42 | .axis => 0x43 | .encoder => 0x44 | .axisLink => 0x45 | .thresher => 0x50 | .caravan => 0x51
  | .glean => 0x52 | .augment => 0x53

/-- The page that carries a source number of R447. -/
def srcPage (src : Nat) : Option Nat :=
  match pageRows.find? (fun r => decide (r.src ≤ src ∧ src < r.src + (if r.block = .innkeeper then 9 else if r.block = .caravan then 8 else r.count))) with
  | none => none
  | some r => some (r.page + (if r.block = .innkeeper ∨ r.block = .caravan then src - r.src else (src - r.src) * r.per))

/-- BLK_ID (R449): the instance is the engine number for SHn and HOSTEL, the page number within a multi-page block. -/
def blkId (i : PageId) : Word := w32 (i.block.code * 65536 + i.inst * 256 + i.sub)

/-- Blocks of the control domain (R20). -/
def Block.control : Block → Bool
  | .warden | .can | .milepost | .waybill | .drover | .axis | .encoder | .axisLink => true
  | _ => false

/-- Blocks of the management domain (R20); TOP is counted here, since Ostler keeps it. -/
def Block.management : Block → Bool
  | .top | .ostler | .ledger | .power | .sensors | .security | .i2c => true
  | _ => false

/-- Blocks of the tensor, fabric, memory and SerDes domains: the units a fence can isolate (R420, R437, R452). -/
def Block.tensorSide (b : Block) : Bool := !b.control && !b.management

/-- A row of a register table: first offset, stride and count of an array of registers, and the masks of its bits by
access code (R13). `reset` is the value of every member after reset. -/
structure RegRow where
  off : Nat
  stride : Nat := 4
  count : Nat := 1
  rw : Nat := 0
  w1c : Nat := 0
  rwl : Nat := 0
  rwp : Nat := 0
  mo : Nat := 0
  reset : Nat := 0
deriving DecidableEq, Repr

def allBits : Nat := 0xFFFFFFFF

/-- TOP (R459). -/
def topRows : List RegRow :=
  [{off := 0x050}, {off := 0x058, w1c := fm 31 31}, {off := 0x05C, rw := allBits},
   {off := 0x400, count := 256, rw := fm 31 31 + fm 27 24 + fm 21 16, reset := 0x8F000000}]

/-- OSTLER mailbox (R441): registers, request buffer, response buffer. -/
def ostlerRows : List RegRow :=
  [{off := 0x040, rw := fm 31 24 + fm 10 0}, {off := 0x044, count := 4, rw := allBits}, {off := 0x054},
   {off := 0x058, w1c := fm 31 31 + fm 29 29}, {off := 0x060, count := 4}, {off := 0x100, count := 256, rw := allBits},
   {off := 0x500, count := 256}]

/-- LEDGER (R442). -/
def ledgerRows : Nat → List RegRow
  | 0 => [{off := 0x040, rw := fm 11 0}, {off := 0x048, w1c := fm 31 30}, {off := 0x050}]
  | 1 => [{off := 0x040, count := 1008, rwp := allBits}]
  | 2 => [{off := 0x040, count := 784, rwp := allBits}]
  | _ => []

/-- POWER (R443). PW_STAT shows VCORE at the fused VSAFE and FCUR 1,600 MHz after reset. -/
def powerRows : List RegRow :=
  [{off := 0x040, rw := fm 11 0, reset := 0x320}, {off := 0x044, rw := fm 11 0, reset := 0x640},
   {off := 0x048, rw := fm 9 0, reset := 0x28A}, {off := 0x04C, w1c := fm 31 31, reset := 0x2EE640},
   {off := 0x054}, {off := 0x058, mo := allBits}, {off := 0x05C}, {off := 0x060, rwp := allBits, reset := 0x08000000},
   {off := 0x064, rwp := allBits}, {off := 0x068, reset := 0x80000000},
   {off := 0x080, count := 8, rw := fm 31 31 + fm 22 16 + fm 3 0}]

/-- SENSORS (R444). -/
def sensorRows : List RegRow :=
  [{off := 0x040, count := 32}, {off := 0x0C0, count := 12}, {off := 0x100, count := 8},
   {off := 0x140, rw := allBits, reset := 0x06E00640}, {off := 0x144, rw := allBits, reset := 0x064005A0},
   {off := 0x148, rw := fm 15 0, reset := 0x06E0}, {off := 0x14C}]

/-- WARDEN (R412). -/
def wardenRows : List RegRow :=
  [{off := 0x044, w1c := fm 28 28 + fm 26 26}, {off := 0x050, count := 4, rwl := fm 31 31 + fm 29 28 + fm 11 0, reset := 0x10000000},
   {off := 0x060}, {off := 0x064}, {off := 0x068},
   {off := 0x100, stride := 16, count := 64, rwl := fm 31 29 + fm 23 12 + fm 7 0},
   {off := 0x104, stride := 16, count := 64, rwl := fm 23 0, reset := 0x4E20}, {off := 0x108, stride := 16, count := 64}]

/-- SECURITY (R413). -/
def securityRows : List RegRow :=
  [{off := 0x044, w1c := fm 4 0}, {off := 0x080, count := 9}, {off := 0x0C0}, {off := 0x100, count := 8, rw := allBits},
   {off := 0x120, count := 2, rw := allBits}, {off := 0x12C, w1c := fm 31 31 + fm 29 29},
   {off := 0x400, stride := 16, count := 128, rw := fm 31 30 + fm 23 20}, {off := 0x404, stride := 16, count := 128, rw := fm 18 0},
   {off := 0x408, stride := 16, count := 128, rw := fm 18 0}, {off := 0x40C, stride := 16, count := 128}]

/-- INNKEEPER page 0 (R252) and tenant pages (R253). -/
def innkeeperRows (sub : Nat) : List RegRow :=
  if sub = 0 then
    [{off := 0x040, count := 6, rw := fm 11 8, reset := 0xF0F}, {off := 0x060, count := 6, mo := allBits},
     {off := 0x080, w1c := fm 0 0}]
  else if sub ≤ 8 then
    [{off := 0x044, w1c := fm 8 8}, {off := 0x048, mo := fm 1 0, reset := 3},
     {off := 0x04C, rw := fm 31 31 + fm 23 8}, {off := 0x050, rw := fm 15 0, reset := 0x3E8},
     {off := 0x080, stride := 0x20, count := 4, rw := fm 31 12}, {off := 0x084, stride := 0x20, count := 4, rw := fm 7 0},
     {off := 0x088, stride := 0x20, count := 4, rw := fm 31 31 + fm 26 16 + fm 12 8, reset := 0x00010600},
     {off := 0x08C, stride := 0x20, count := 4, rw := allBits}, {off := 0x090, stride := 0x20, count := 4},
     {off := 0x094, stride := 0x20, count := 4}, {off := 0x098, stride := 0x20, count := 4, w1c := fm 29 28},
     {off := 0x180, rw := fm 31 29 + fm 23 4}, {off := 0x184, rw := fm 11 0},
     {off := 0x188, stride := 8, count := 3, rw := fm 31 6}, {off := 0x18C, stride := 8, count := 3, rw := allBits},
     {off := 0x1B8}]
  else []

/-- TALLY (R230, R231). -/
def tallyRows : Nat → List RegRow
  | 0 => [{off := 0x044, w1c := fm 10 8}, {off := 0x048}]
  | 1 => [{off := 0x040, count := 256, rw := fm 31 23 + fm 21 0}, {off := 0x440, count := 256, rw := fm 31 16 + fm 11 0}]
  | _ => []

/-- SHn (R107 to R111, R232). -/
def sheafRows : Nat → List RegRow
  | 0 => [{off := 0x040, rw := fm 2 2}, {off := 0x048, mo := allBits}]
  | 1 => [{off := 0x040, count := 8, rw := fm 31 31 + fm 19 0}, {off := 0x080, count := 32, rw := fm 31 31 + fm 25 24 + fm 19 0},
          {off := 0x100, w1c := fm 11 8}]
  | 2 => [{off := 0x040, stride := 8, count := 8, rw := fm 31 14}, {off := 0x044, stride := 8, count := 8, rw := fm 31 24 + fm 7 0}]
  | 3 => [{off := 0x040, count := 96}, {off := 0x1C0, w1c := fm 31 31}]
  | 4 => [{off := 0x040, count := 128, rwp := fm 31 31 + fm 22 16 + fm 9 0}, {off := 0x240, w1c := fm 2 0}, {off := 0x300, count := 96}]
  | 5 => [{off := 0x040, count := 64, rw := fm 31 24 + fm 21 0}, {off := 0x140, count := 64, rw := fm 31 16 + fm 11 0}]
  | _ => []

/-- PDn (R112). -/
def porterRows : List RegRow := [{off := 0x040}, {off := 0x048}, {off := 0x04C}, {off := 0x050}, {off := 0x054}, {off := 0x058, mo := allBits}, {off := 0x05C, mo := allBits}]

/-- MCn (R448). -/
def hbmcRows : List RegRow := [{off := 0x040}, {off := 0x044}, {off := 0x048}, {off := 0x04C}]

/-- HOSTEL (R167). -/
def hostelRows : List RegRow :=
  [{off := 0x040, rw := fm 7 4}, {off := 0x048, mo := allBits}, {off := 0x04C, mo := allBits}, {off := 0x050}, {off := 0x054}, {off := 0x058}]

/-- FALEG ports (R206) and, on page 0, the Field registers (R207). -/
def falegRows (inst : Nat) : List RegRow :=
  [{off := 0x040, rwp := fm 3 1}, {off := 0x044, w1c := fm 7 4}, {off := 0x048}, {off := 0x04C}, {off := 0x050},
   {off := 0x054}, {off := 0x058}, {off := 0x05C}] ++
  (if inst = 0 then
    [{off := 0x200, rwp := fm 21 8}, {off := 0x204, rwp := fm 5 0}, {off := 0x208, rw := fm 15 0, reset := 0xC8},
     {off := 0x210, rwp := fm 5 0}, {off := 0x214, w1c := fm 2 2}, {off := 0x220},
     {off := 0x300, stride := 16, count := 16, rwl := allBits}, {off := 0x304, stride := 16, count := 16, rwl := allBits},
     {off := 0x308, stride := 16, count := 16, rwl := allBits}, {off := 0x30C, stride := 16, count := 16}, {off := 0x400},
     {off := 0x410, rw := fm 9 0, reset := 0x000}, {off := 0x414, rw := fm 9 0, reset := 0x001},
     {off := 0x418, rw := fm 9 0, reset := 0x002}, {off := 0x41C, rw := fm 9 0, reset := 0x010},
     {off := 0x420, rw := fm 9 0, reset := 0x020}, {off := 0x424, rw := fm 9 0, reset := 0x021},
     {off := 0x428, rw := fm 9 0, reset := 0x022}, {off := 0x42C, rw := fm 9 0, reset := 0x030},
     {off := 0x430, rw := fm 9 0, reset := 0x040}, {off := 0x434, rw := fm 9 0, reset := 0x041},
     {off := 0x438, rw := fm 9 0, reset := 0x042}, {off := 0x43C, rw := fm 9 0, reset := 0x050},
     {off := 0x440, rw := fm 15 0, reset := 0x28}, {off := 0x444, w1c := fm 31 31}, {off := 0x480}, {off := 0x484},
     {off := 0x488}, {off := 0x48C}, {off := 0x490, rw := fm 3 0}]
   else [])

/-- ETHn (R367). -/
def ethRows : List RegRow :=
  [{off := 0x040, rw := fm 31 25 + fm 23 18 + fm 13 0, w1c := fm 24 24, reset := 0x00E005EE}, {off := 0x044, rw := fm 11 0, reset := 1},
   {off := 0x048, rw := fm 23 0, reset := 0xFAC688}, {off := 0x04C, rwp := allBits}, {off := 0x050, rwp := fm 15 0},
   {off := 0x054}, {off := 0x058, rw := fm 15 0}, {off := 0x080, stride := 16, count := 16, rw := fm 31 30 + fm 23 20 + fm 4 0, w1c := fm 29 29, reset := 0x00800006},
   {off := 0x084, stride := 16, count := 16, rw := allBits}, {off := 0x088, stride := 16, count := 16, rw := allBits},
   {off := 0x08C, stride := 16, count := 16}, {off := 0x180}, {off := 0x184}, {off := 0x188}, {off := 0x18C},
   {off := 0x200, count := 128, rw := allBits}]

/-- CFn (R380, R375). -/
def canRows : List RegRow :=
  [{off := 0x040, rw := fm 31 24 + fm 7 0, w1c := fm 9 8, reset := 5}, {off := 0x044, rw := fm 31 5}, {off := 0x048, rw := fm 31 6},
   {off := 0x04C}, {off := 0x054, w1c := fm 11 11}, {off := 0x058, rw := allBits, reset := 0x03E803E8}, {off := 0x05C}, {off := 0x060}, {off := 0x064},
   {off := 0x068}, {off := 0x06C}, {off := 0x070}, {off := 0x074}, {off := 0x080, rw := fm 31 31 + fm 28 0},
   {off := 0x084, rw := fm 31 31 + fm 28 0}, {off := 0x088, count := 4, rw := allBits},
   {off := 0x100, stride := 0x80, count := 4, rw := fm 31 29 + fm 28 0}, {off := 0x104, stride := 0x80, count := 4, rw := fm 31 31 + fm 3 0},
   {off := 0x110, count := 16, rw := allBits}, {off := 0x190, count := 16, rw := allBits}, {off := 0x210, count := 16, rw := allBits},
   {off := 0x290, count := 16, rw := allBits}, {off := 0x400, stride := 16, count := 32, rw := fm 31 30 + fm 28 0},
   {off := 0x404, stride := 16, count := 32, rw := fm 28 0}, {off := 0x408, stride := 16, count := 32, rw := fm 15 0},
   {off := 0x40C, stride := 16, count := 32, w1c := fm 31 31}]

/-- ICn (R386). -/
def i2cRows : List RegRow :=
  [{off := 0x040, rw := fm 31 30 + fm 7 0, reset := 0x4000001E}, {off := 0x044, rw := fm 31 23 + fm 17 0},
   {off := 0x04C, w1c := fm 31 31}, {off := 0x050}, {off := 0x200, count := 64, rw := allBits}, {off := 0x300, count := 64}]

/-- MILEPOST (R284). -/
def milepostRows : List RegRow :=
  [{off := 0x040, stride := 0x20, count := 4, rw := fm 31 28 + fm 21 0, reset := 0x32}, {off := 0x044, stride := 0x20, count := 4, rw := allBits},
   {off := 0x048, stride := 0x20, count := 4, rw := allBits}, {off := 0x04C, stride := 0x20, count := 4, rw := allBits},
   {off := 0x058, stride := 0x20, count := 4, w1c := fm 6 5}, {off := 0x0C0, rw := fm 31 16 + fm 0 0, reset := 0x07D00000},
   {off := 0x0C4, rw := allBits, reset := 0x00E4E1C0}, {off := 0x0C8, rw := allBits, reset := 0x015752A0}, {off := 0x0CC},
   {off := 0x104}, {off := 0x108}, {off := 0x10C, rw := allBits}, {off := 0x110, rw := allBits, reset := 1},
   {off := 0x114, rw := fm 29 0}, {off := 0x118, rw := allBits}, {off := 0x11C, rw := fm 15 0}, {off := 0x120, rw := allBits},
   {off := 0x128, w1c := fm 4 1, reset := 0x80000000}, {off := 0x12C, mo := allBits, reset := 0x000F4240},
   {off := 0x130, rw := fm 31 30 + fm 26 24 + fm 15 8}, {off := 0x134}, {off := 0x138},
   {off := 0x140, stride := 0x20, count := 4, rw := allBits}, {off := 0x144, stride := 0x20, count := 4, rw := allBits, reset := 0x1388},
   {off := 0x148, stride := 0x20, count := 4}, {off := 0x14C, stride := 0x20, count := 4}, {off := 0x150, stride := 0x20, count := 4},
   {off := 0x154, stride := 0x20, count := 4}, {off := 0x158, stride := 0x20, count := 4}]

/-- WAYBILL (R285). -/
def waybillRows : Nat → List RegRow
  | 0 => [{off := 0x040, rw := fm 9 0}, {off := 0x044, rw := allBits}, {off := 0x048, rw := fm 31 29 + fm 27 18 + fm 15 0}, {off := 0x04C, rw := allBits},
          {off := 0x050, rw := allBits}, {off := 0x054, rw := allBits}, {off := 0x060, w1c := fm 2 0}, {off := 0x064}]
  | 2 => [{off := 0x040, count := 32, w1c := allBits}]
  | _ => []

/-- DROVER (R328). -/
def droverRows : List RegRow :=
  [{off := 0x040, rw := fm 31 31 + fm 27 24 + fm 15 0, reset := 0x03000258}, {off := 0x044, rw := fm 15 0, reset := 0x3E8},
   {off := 0x048, w1c := fm 31 31}, {off := 0x04C}, {off := 0x080, rw := fm 31 31 + fm 27 16}, {off := 0x084, rw := fm 31 13},
   {off := 0x088, rw := fm 7 0}, {off := 0x08C}, {off := 0x090, w1c := fm 3 0}, {off := 0x0A0, rw := fm 31 31 + fm 27 24 + fm 4 0, reset := 6},
   {off := 0x0A4, rw := allBits}, {off := 0x0A8, rw := allBits}, {off := 0x0AC}]

/-- AXn (R329). -/
def axisRows : List RegRow :=
  [{off := 0x044, w1c := fm 15 14 + fm 12 7, reset := 3}, {off := 0x048}, {off := 0x04C}, {off := 0x050}, {off := 0x054}, {off := 0x058},
   {off := 0x05C}, {off := 0x060}, {off := 0x064, rw := allBits}, {off := 0x080, count := 3, rwp := allBits},
   {off := 0x090, count := 3, rwp := allBits}, {off := 0x100, count := 32, rw := allBits}, {off := 0x180, count := 32}]

/-- ENn (R330). -/
def encoderRows : List RegRow :=
  [{off := 0x040, rw := fm 31 25 + fm 23 0, reset := 0x0008304F}, {off := 0x044, rw := fm 29 0, reset := 0x1A140014},
   {off := 0x048, rw := allBits, reset := 0x1000}, {off := 0x04C, rw := fm 15 0, reset := 2}, {off := 0x050}, {off := 0x054},
   {off := 0x058}, {off := 0x05C, w1c := fm 7 4}, {off := 0x060}, {off := 0x064, rwp := allBits}]

/-- ALn (R331). -/
def axisLinkRows : List RegRow :=
  [{off := 0x040, rw := fm 31 24 + fm 0 0, reset := 0x03000000}, {off := 0x048, w1c := fm 11 11, reset := 8},
   {off := 0x04C, rw := allBits, reset := 0x00C807D0}, {off := 0x050}, {off := 0x054}]

/-- The eight registers of a sample source (R354), from a base offset. -/
def srcRows (base stride count : Nat) : List RegRow :=
  [{off := base, stride := stride, count := count, rw := fm 31 16 + fm 11 0},
   {off := base + 4, stride := stride, count := count, rw := allBits}, {off := base + 8, stride := stride, count := count, rw := allBits},
   {off := base + 0xC, stride := stride, count := count, rw := allBits, reset := 0x00020001},
   {off := base + 0x10, stride := stride, count := count, rw := allBits}, {off := base + 0x14, stride := stride, count := count, rw := allBits},
   {off := base + 0x18, stride := stride, count := count}, {off := base + 0x1C, stride := stride, count := count, w1c := fm 1 1}]

/-- The augmentation registers (R356). -/
def augRows (base stride count : Nat) : List RegRow :=
  [{off := base, stride := stride, count := count, rw := allBits}, {off := base + 4, stride := stride, count := count, rw := allBits},
   {off := base + 8, stride := stride, count := count, rw := allBits}, {off := base + 0xC, stride := stride, count := count, rw := fm 0 0}]

/-- THn (R354, R355, R356). -/
def thresherRows : List RegRow :=
  srcRows 0x040 4 1 ++
  [{off := 0x060, rw := fm 31 20, reset := 0x8AC00000}, {off := 0x064, rw := allBits}, {off := 0x068, rw := allBits}, {off := 0x06C, rw := fm 0 0},
   {off := 0x070, count := 2, rw := allBits}, {off := 0x078, rw := allBits, reset := 0x4000},
   {off := 0x07C, count := 2, rw := allBits, reset := 0x10001000}, {off := 0x084, stride := 8, count := 3, rw := allBits, reset := 0x1000},
   {off := 0x088, stride := 8, count := 3, rw := allBits}, {off := 0x0A0, count := 6, rw := allBits},
   {off := 0x0B8, rw := fm 31 31 + fm 23 16}, {off := 0x0BC, rw := fm 31 23 + fm 19 16}, {off := 0x0C0, count := 8, rw := fm 31 12 + fm 7 0},
   {off := 0x0E4, count := 2, rwp := allBits}, {off := 0x0EC, rwp := fm 15 0}, {off := 0x0F0, rw := fm 3 0, reset := 3}, {off := 0x0F4}, {off := 0x0F8},
   {off := 0x100, rw := allBits, reset := 0x006400C8}, {off := 0x104}, {off := 0x108}, {off := 0x10C}] ++
  augRows 0x110 4 1

/-- CARAVAN (R354, R356, R357). -/
def caravanRows : List RegRow :=
  srcRows 0x040 0x40 10 ++
  [{off := 0x060, stride := 0x40, count := 10, rw := fm 31 25 + fm 22 0, reset := 0x00600000}, {off := 0x064, stride := 0x40, count := 10, rw := allBits},
   {off := 0x068, stride := 0x40, count := 10, rw := allBits, reset := 0x00C801F4}, {off := 0x06C, stride := 0x40, count := 10}] ++
  augRows 0x070 0x40 10

/-- GLEAN and AUGMENT (R358). -/
def gleanRows : List RegRow :=
  [{off := 0x040, count := 8, rw := allBits}, {off := 0x060, rw := fm 20 16}, {off := 0x064, rw := allBits}, {off := 0x068, rw := fm 7 4},
   {off := 0x06C, w1c := fm 31 31 + fm 29 27}, {off := 0x070}]
def augmentRows : List RegRow :=
  [{off := 0x040, stride := 16, count := 8, rw := fm 31 31 + fm 20 16 + fm 1 0, reset := 0x00060000}, {off := 0x044, stride := 16, count := 8, rw := allBits},
   {off := 0x048, stride := 16, count := 8, rw := allBits}, {off := 0x04C, stride := 16, count := 8, rw := allBits}, {off := 0x0C0, count := 8},
   {off := 0x100, count := 4, rw := allBits}]

/-- The register rows of a page beyond the common header. -/
def bodyRows (i : PageId) : List RegRow :=
  match i.block with
  | .top => topRows | .ostler => ostlerRows | .ledger => ledgerRows i.sub | .power => powerRows | .sensors => sensorRows
  | .warden => wardenRows | .security => securityRows | .innkeeper => innkeeperRows i.sub | .tally => tallyRows i.sub
  | .sheaf => sheafRows i.sub | .porter => porterRows | .hbmc => hbmcRows | .hostel => hostelRows | .faleg => falegRows i.inst
  | .eth => ethRows | .can => canRows | .i2c => i2cRows | .milepost => milepostRows | .waybill => waybillRows i.sub
  | .drover => droverRows | .axis => axisRows | .encoder => encoderRows | .axisLink => axisLinkRows
  | .thresher => thresherRows | .caravan => caravanRows | .glean => gleanRows | .augment => augmentRows

/-- ENABLE of BLK_CTL is writable on ETH, CAN and I2C pages (R451). -/
def hasEnable : Block → Bool
  | .eth | .can | .i2c => true
  | _ => false

/-- The common header (R449 to R458). BLK_ID, BLK_REV and IRQ_PEND are computed on a read; BLK_CTL shows OWNER and, on the
pages without a port, ENABLE 1; BLK_STAT starts in RESET. -/
def headerRows (i : PageId) : List RegRow :=
  [{off := 0x08, reset := (if i.block = .innkeeper ∧ 1 ≤ i.sub ∧ i.sub ≤ 8 then (i.sub - 1) * 256 else 0xF00) + (if hasEnable i.block then 0 else 1)},
   {off := 0x0C, reset := 1}, {off := 0x10}, {off := 0x14, rw := allBits}, {off := 0x20}, {off := 0x24}, {off := 0x28}, {off := 0x2C}]

/-- Whether offset `o` is a member of a row. -/
def RegRow.has (r : RegRow) (o : Nat) : Bool :=
  decide (r.off ≤ o) && decide ((o - r.off) % r.stride = 0) && decide ((o - r.off) / r.stride < r.count)

/-- The row of a BAR0 address (none: reserved, R12, R448). -/
def regRow (addr : Nat) : Option RegRow :=
  match pageId (addr / 4096) with
  | none => none
  | some i => if addr % 4096 < 0x40 then (headerRows i).find? (·.has (addr % 4096)) else (bodyRows i).find? (·.has (addr % 4096))

/-- What a register holds after reset. IRQ_ROUTE entries of reserved sources read zero (R459). -/
def resetReg (addr : Nat) : Word :=
  match regRow addr with
  | none => 0
  | some r =>
    if 0x400 ≤ addr ∧ addr < 0x800 then (match srcPage ((addr - 0x400) / 4) with | none => 0 | some _ => w32 r.reset)
    else w32 r.reset

end Sys2Proof.Machine
end

