-- ==== Sys2Proof/Machine/State.lean ====
section
/-!
DEFINITION. The state of the module: everything the spec gives it, as plain data. `regs` is the one home of every value a
register of BAR0 shows, unless RegView.lean computes the register from the tables of like units below. A table of units
is a canonical sparse map whose unlisted entries are the unit after reset.
-/
namespace Sys2Proof.Machine

/-- Why the block stops. Nothing in the spec stops the block: every fault it describes is a next state. -/
inductive Fault where
  /-- Raised by no meaning of this model. It is kept so that the type has a name to give. Safe. -/
  | none
deriving DecidableEq, Repr

/-- Why a command has no meaning. -/
inductive Refusal where
  /-- Raised by an arm of exec whose command has no meaning yet, with the command's mnemonic. Safe. -/
  | notModelled (mnemonic : String)
deriving DecidableEq, Repr

/-- What manufacture and the board fix (R2, R91, R185, R401, R421, R423). No command writes it. Log 5. -/
structure Fuses where
  m64 : Bool := false
  stepMajor : Nat := 0
  stepMinor : Nat := 0
  fieldId : Nat := 0
  vsafe : Nat := 750
  fmax : Nat := 1750
  otpOk : Bool := true
  uid : Nat := 0
  attPub : List Byte := []
  fwKeyHash : List Byte := []
  repairs : List (Nat × Nat) := []
deriving DecidableEq, Repr, Inhabited

/-- The pins the module drives or reads as levels (R324, R467, R473, R475). In stoA, stoB and brake a 0 bit requests. -/
structure Pins where
  porN : Bool := false
  perstN : Bool := false
  stoA : BitVec 12 := 0
  stoB : BitVec 12 := 0
  brake : BitVec 12 := 0
  strobe : BitVec 16 := 0
  canStb : BitVec 8 := 0xFF
deriving DecidableEq, Repr, Inhabited

/-- The free-running clocks: TIME_CLK ticks since power-on, the Field counter with its addend in 2^-32 ns (R190), the PTP
clock (R273) in seconds, nanoseconds and 2^-32 ns, the tick at which the power window began (R250). -/
structure Clock where
  tick : Nat := 0
  field : BitVec 64 := 0
  fieldFrac : Nat := 0
  fieldAddend : Nat := 4294967296
  fcRun : Nat := 0
  fcFirst : Bool := true
  sec : Nat := 0
  ns : Nat := 0
  frac : Nat := 0
  addend : Nat := 4294967296
  winTick : Nat := 0
deriving DecidableEq, Repr, Inhabited

/-- One record of the event log (R425), or the LOST_EVENTS record. -/
inductive LogRec where
  | event (time : Nat) (ptpSec code block info cls inst tenant : Nat)
  | lost (time : Nat) (counts : List Nat)
deriving DecidableEq, Repr

/-- The event log (R425 to R427): the page being programmed, FIFO of 128, counts of coalesced events by class, the records held on the xSPI device,
oldest first, and the sequence number of the next record. -/
structure EventLog where
  page : List LogRec := []
  fifo : List LogRec := []
  counts : List Nat := [0, 0, 0, 0, 0, 0, 0]
  lostTime : Nat := 0
  flash : List LogRec := []
  nextSeq : Nat := 0
deriving DecidableEq, Repr, Inhabited

/-- One copy of a Ledger row (R434): 16 words, the wear count, and by how much the stored CRC differs from the right one
(0: the CRC is good). -/
structure LCopy where
  words : List (Nat × Word) := []
  wear : Nat := 0
  crcErr : Word := 0
deriving DecidableEq, Repr, Inhabited

structure LRow where
  a : LCopy := {}
  b : LCopy := {}
deriving DecidableEq, Repr, Inhabited

/-- A write in the Ledger queue (R432). -/
structure LWrite where
  word : Nat
  value : Word
  exempt : Bool
deriving DecidableEq, Repr, Inhabited

/-- The Ledger (R431 to R436): rows, the RAM-backed copies of the words, write queue, the accepted write being programmed,
the row of the next scan. -/
structure Ledger where
  rows : List (Nat × LRow) := []
  ram : List (Nat × Word) := []
  queue : List LWrite := []
  prog : Option LWrite := none
  scan : Nat := 0
deriving DecidableEq, Repr, Inhabited

/-- A fence of a unit (R437, R438): the ticks of its fences, whether it must stay FENCED, whether it is in force. -/
structure Fence where
  times : List Nat := []
  sticky : Bool := false
  active : Bool := false
deriving DecidableEq, Repr, Inhabited

/-- Units of 2 MiB that a region's owner left, first and last, with the key slot and the release count under which their bytes were
encrypted (R402, R403). -/
structure Sealed where
  first : Nat
  last : Nat
  slot : Nat
  gen : Nat
deriving DecidableEq, Repr, Inhabited

/-- A PMBus command that Ostler has sent to a regulator of RG_CFG (R419): the regulator, the command code and the data written. -/
structure PmCmd where
  regulator : Nat
  code : Nat
  data : Nat
deriving DecidableEq, Repr, Inhabited

/-- Ostler (R414 to R430, R437 to R439): the mailbox command running, the two firmware slots (unlisted bytes erased, 0xFF),
whether the inactive slot is verified, the slot that runs (2: none), samples of the sensors, DVFS, fences, disagreements; which
domains are held in reset, whether the start is a power-on (`cold`), whether the ROM has chosen its firmware; and, of the security block, the
regions left by their owners, newest first; the sensor conditions that hold at present, the PMBus commands sent, oldest first, and whether the
increment of BOOT_TRIES has failed (R418, R419, R432). -/
structure Ostler where
  cmd : Option Nat := none
  slotA : List (Nat × Byte) := []
  slotB : List (Nat × Byte) := []
  verified : Bool := false
  running : Nat := 2
  trialOn : Bool := false
  samples : List (Nat × List Int) := []
  loopOn : Bool := false
  rising : Option Nat := none
  droopPrev : Option Nat := none
  powerMw : Nat := 0
  fences : List (Nat × Fence) := []
  mismatch : List (Nat × Bool) := []
  ctrlHeld : Bool := true
  pcieHeld : Bool := true
  cold : Bool := true
  firmware : Bool := false
  diagOnDemand : Bool := false
  lastRunPass : Bool := false
  fieldIdBad : Bool := false
  left : List Sealed := []
  alarms : List (Nat × Bool) := []
  pmbus : List PmCmd := []
  triesFailed : Bool := false
deriving DecidableEq, Repr, Inhabited

/-- A descriptor fetched from a queue ring (R93, R237): its queue (0 to 31), sequence number and sixteen words. -/
structure Cmd where
  q : Nat
  seq : Word
  words : List Word
deriving DecidableEq, Repr, Inhabited

/-- A command that runs (R97): the tick it was dispatched, its status bits TRUNCZ, OUTSAT, NONFINITE, and its recipe. -/
structure Run where
  cmd : Cmd
  start : Nat
  astat : Nat
  done : Bool
deriving DecidableEq, Repr, Inhabited

/-- A translation of the Hostel TLB (R160): tenant, page-table address and logical page, and the page address. -/
structure Tlb where
  tenant : Nat
  table : Nat
  lpage : Nat
  page : Nat
deriving DecidableEq, Repr, Inhabited

/-- A cached recipe (R78). -/
structure RecipeEntry where
  tenant : Nat
  index : Nat
  words : List Word
deriving DecidableEq, Repr, Inhabited

/-- A Sheaf engine: the picked command and the running one, the tenant it last ran, tenants whose partition is being
zeroed (8: the whole scratchpad), round-robin pointers by class (R241), recipe cache, TLB (most recent first), repairs as
applied at the last reset (R92). -/
structure Engine where
  sel : Option Cmd := none
  run : Option Run := none
  last : Option Nat := none
  clearing : List Nat := []
  rr : List (Nat × Nat) := []
  recipes : List RecipeEntry := []
  tlb : List Tlb := []
  repaired : List (Nat × Nat) := []
deriving DecidableEq, Repr, Inhabited

/-- A Porter engine (R99 to R101, R189): the picked COPY, the running one with the index of its next descriptor, remote
writes without acknowledgement, round-robin pointers. -/
structure Porter where
  sel : Option Cmd := none
  run : Option Run := none
  index : Nat := 0
  lastRemote : Option Nat := none
  faulted : Bool := false
  rr : List (Nat × Nat) := []
deriving DecidableEq, Repr, Inhabited

/-- What a registered wait waits for (R210, R215, R216, R222, R193, R271). -/
inductive WaitOn where
  | gen (b : BarId) (gen : Nat)
  | pipe (b : BarId) (epoch item : Nat) (producer : Bool)
  | count (launch : Nat)
  | fires (entry fires : Nat)
deriving DecidableEq, Repr

/-- A registered wait (R218, R220): the command that waits; a WAIT completes by it, a WAIT_START only may start. -/
structure WaitReg where
  on : WaitOn
  cmd : Cmd
  start : Bool
  timeout : Nat
deriving DecidableEq, Repr

/-- A queue of Innkeeper (R236 to R241): fetched descriptors not yet started, sequence numbers in flight, sequence numbers
completed out of order, deficit, registered wait, whether the head's WAIT_START is satisfied, the FENCE that waits with
the commands of the other queues it waits for. -/
structure Queue where
  fetched : List Cmd := []
  flight : List Word := []
  deficit : Int := 0
  wait : Option WaitReg := none
  waitMet : Bool := false
  fence : Option Cmd := none
  fenceFor : List (Nat × Word) := []
deriving DecidableEq, Repr, Inhabited

/-- A manifest slot (R247). -/
structure ManSlot where
  status : Nat := 0
  overwrites : Nat := 0
  sample : Nat := 0xFFFFFFFF
deriving DecidableEq, Repr, Inhabited

/-- A tenant beyond its page: a held Function Level Reset (R473), scrub in progress, manifest (R247 to R249), accounting
counters in management units (R250) and the energy at the start of the power window, input-queue sequence (R349). -/
structure Tenant where
  flr : Bool := false
  scrubbing : Bool := false
  slots : List (Nat × ManSlot) := []
  step : Nat := 0
  acked : Nat := 0
  closing : Bool := false
  merged : Option (Nat × Nat) := none
  time : Nat := 0
  hbm : Nat := 0
  link : Nat := 0
  energy : Nat := 0
  energyAt : Nat := 0
  power : Nat := 0
  inSeq : Nat := 0
deriving DecidableEq, Repr, Inhabited

/-- A barrier's state (R212, R221): open and carried bitmaps, counters, the unit (page) of each counted arrival, open and
carried. `due` is a carry generation opened complete (R214). -/
structure Barrier where
  gen : Nat := 0
  open_ : Nat := 0
  carry : Nat := 0
  filled : Nat := 0
  drained : Nat := 0
  last : Nat := 0
  units : List Nat := []
  cunits : List Nat := []
  due : Bool := false
deriving DecidableEq, Repr, Inhabited

/-- An arrival on its way to Tally (R209): who arrives, for which tenant (none: Waybill), the pipe epoch and item, the
CMDSEQ field of R228 and the unit it left. -/
structure Arrival where
  bar : BarId
  part : Nat
  tenant : Option Nat
  pipe : Option (Nat × Nat)
  seq : Nat
  unit : Nat
deriving DecidableEq, Repr

/-- An event of the Waybill event line on its way to its receiver (R24, R263): the action code, its argument word, the
owner and the entry. -/
structure LineEvent where
  action : Nat
  arg : Word
  owner : Nat
  entry : Nat
deriving DecidableEq, Repr, Inhabited

/-- One flit (R173): its header and its BYTES bytes of payload. -/
structure Flit where
  hdr : BitVec 64
  data : List Byte
deriving DecidableEq, Repr, Inhabited

/-- A packet a port holds until its last flit is acknowledged (R176, R183): its channel on the link, the receive buffer its flits
come from (port and channel; none: this module's own packet), the flits not yet sent, whether its LAST flit is there, whether its
first flit has left, the tick since which it waits, the link sequence number of its LAST flit once sent, and its header. -/
structure TxPkt where
  vc : Nat
  src : Option (Nat × Nat)
  flits : List Flit
  whole : Bool
  begun : Bool
  since : Nat
  last : Option Nat
  pkt : Packet
deriving DecidableEq, Repr

/-- Where the later flits of a packet being received go: they wait with it, follow it out of port q, or are dropped. -/
inductive RxFate where
  | wait
  | through (q : Nat)
  | drop
deriving DecidableEq, Repr, Inhabited

/-- A packet in a channel's receive buffer (R181, R183): its flits, whether LAST has come, where later flits go, whether its flits still
hold credits of the sender. -/
structure RxPkt where
  flits : List Flit
  whole : Bool
  fate : RxFate
  counted : Bool
deriving DecidableEq, Repr, Inhabited

/-- The seal of one direction (R178, R179): key, salt, run counter. -/
structure Seal where
  key : BitVec 256 := 0
  salt : Word := 0
  run : BitVec 64 := 0
deriving DecidableEq, Repr, Inhabited

/-- The receiving half of a Faleg port (R172 to R183): the flits of the open seal run, whether the run is bad, its first flit, the next
expected flit, failures of the run in a row, tag failures in a row, the NAK to send, packets received by channel, flits freed by
channel since the port is UP, the seal. -/
structure Rx where
  held : List Flit := []
  runBad : Bool := false
  runFirst : Nat := 0
  expect : Nat := 0
  replays : Nat := 0
  sealFails : Nat := 0
  nakOut : Option Nat := none
  freed : List (Nat × Nat) := []
  crypt : Seal := {}
deriving DecidableEq, Repr, Inhabited

/-- The sending half (R172 to R184): the replay buffer with how much of it has gone out since the last NAK, the next link sequence
number, flits sent and flits the partner has freed by channel, the number of the next slot, additional data and plaintext of the open
run, grants of class 3, the share window with the bytes of each tenant in it, the run the partner names in its NAKs with their count,
the seal, the last slot sent as its four lanes. -/
structure Tx where
  replay : List Flit := []
  next : Nat := 0
  seq : Nat := 0
  out : List (Nat × Nat) := []
  freed : List (Nat × Nat) := []
  slot : Nat := 0
  aad : List Byte := []
  plain : List Byte := []
  grants : Nat := 0
  window : Nat := 0
  used : List (Nat × Nat) := []
  nakFirst : Nat := 0
  nakCount : Nat := 0
  crypt : Seal := {}
  lanes : List (List Byte) := []
deriving DecidableEq, Repr, Inhabited

/-- A Faleg port (R170 to R184): its two halves, packets received by channel, packets held for sending, sideband words sent and not
acknowledged, the number of the next one, sideband numbers seen, numbers to acknowledge, words received and not yet carried out,
and why the port is DOWN (0 no failure, 1 WIRING, 2 AUTH_FAIL). -/
structure Port where
  rxs : Rx := {}
  txs : Tx := {}
  rx : List (Nat × List RxPkt) := []
  tx : List TxPkt := []
  sbOut : List (Nat × SbWord) := []
  sbNext : Nat := 0
  sbSeen : List Nat := []
  sbAck : List Nat := []
  sbIn : List SbWord := []
  why : Nat := 0
deriving DecidableEq, Repr, Inhabited

/-- A request of a job sent to another module (R171, R186, R188, R189): its tag, Porter engine, tenant, command, remote
address, descriptor index and destination. -/
structure Req where
  tag : Nat
  pd : Nat
  tenant : Nat
  q : Nat
  seq : Word
  addr : Nat
  desc : Nat
  dest : Nat
deriving DecidableEq, Repr, Inhabited

/-- A proxy access outstanding (R199): tag, remote module, remote address, window address, the value of a write, whether it
has been sent and by which port. -/
structure Proxy where
  tag : Nat
  dest : Nat
  addr : Nat
  window : Nat
  value : Option Word
  sent : Bool
  port : Nat
deriving DecidableEq, Repr, Inhabited

/-- A link barrier (R194 to R197): at the root the arrivals counted, whether one came twice or unlocked; at a participant
the actions (entry, action, argument) held until the release, and those released with the count they wait for. -/
structure LinkBar where
  arrived : Nat := 0
  dup : Bool := false
  unlocked : Bool := false
  held : List (Nat × Nat × Word) := []
  fire : List (Nat × List (Nat × Nat × Word)) := []
deriving DecidableEq, Repr, Inhabited

/-- The Faleg and Field state beyond the registers: ports, round-robin port of data packets by direction, next request tag, remote
writes outstanding, arrivals sent, proxy accesses outstanding, link barriers, abort words already forwarded as tenant and origin
(R201). -/
structure FieldSt where
  ports : List (Nat × Port) := []
  rr : List (Nat × Nat) := []
  nextTag : Nat := 0
  reqs : List Req := []
  arrs : List Req := []
  proxies : List Proxy := []
  lbs : List (Nat × LinkBar) := []
  seen : List (Nat × Nat) := []
deriving DecidableEq, Repr, Inhabited

/-- A change to the PTP clock or to a generator that waits for its 64 ticks (R256): ADDEND, an offset in 2^-32 ns, the K or an
ADJ of a free-running generator. -/
inductive Change where
  | addend (v : Nat)
  | clock (offset : Int)
  | k (g : Nat) (v : Int)
  | adj (g : Nat) (v : Int)
deriving DecidableEq, Repr

/-- A phase generator of Milepost (R254 to R261). `acc` is its phase: whole nanoseconds for the time source, 32.16 for the
mains source, 32.32 for the others; `off` is how far a shaft phase has run past its last count. The source and encoder
are those of the ENABLE. -/
structure Gen where
  src : Nat := 0
  enc : Nat := 0
  acc : Nat := 0
  off : Int := 0
  k : Int := 0
  inc : Int := 0
  pavg : Nat := 0
  periods : List Nat := []
  lastEdge : Option Nat := none
  fracHeld : Option Word := none
deriving DecidableEq, Repr, Inhabited

/-- A Waybill entry (R262): PHASE, WB_CFG with VALID, ARG, HYST, STRIDE, FIRES, and the armed states of its sub-points as
bitmaps. -/
structure WbEntry where
  phase : Word := 0
  cfg : Word := 0
  arg : Word := 0
  hyst : Word := 0
  stride : Word := 0
  fires : Nat := 0
  fwd : Nat := 0
  rev : Nat := 0
deriving DecidableEq, Repr, Inhabited

/-- A transmit timestamp (R279). -/
structure TxStamp where
  msg : Nat
  seq : Nat
  ns : Nat
  sec : Nat
deriving DecidableEq, Repr

/-- A crossing whose action is not yet issued (R270): generator, entry, the tick of issue, whether the limit of 8 per tick has carried it
there. -/
structure Due where
  gen : Nat
  entry : Nat
  tick : Nat
  carried : Bool
deriving DecidableEq, Repr, Inhabited

/-- Milepost and Waybill beyond their registers. `due` holds the crossings not yet issued, in order; `sched` the number of actions that
issue on each of the ticks to come (R270). -/
structure MileSt where
  gens : List (Nat × Gen) := []
  changes : List Change := []
  entries : List (Nat × WbEntry) := []
  due : List Due := []
  sched : List (Nat × Nat) := []
  stamps : List (Nat × List TxStamp) := []
  answers : List (Nat × Nat) := []
deriving DecidableEq, Repr, Inhabited

/-- An encoder interface (R307 to R311): levels, count, edge ticks of the run (newest first), first index count since
ENABLE, ticks of recent illegal transitions; the running SSI transfer, last good sample with its tick, refusals in a row. -/
structure Enc where
  a : Bool := false
  b : Bool := false
  count : Int := 0
  edges : List Nat := []
  index : Option Int := none
  illegal : List Nat := []
  ssi : Option Nat := none
  good : Option (Int × Nat) := none
  ssiSpeed : Option (Int × Nat) := none
  refused : Nat := 0
deriving DecidableEq, Repr, Inhabited

/-- A trajectory segment (R297). `id` names the segment: 16 times the SEQ of the buffer that brought it, plus its place in the list. -/
structure Seg where
  id : Nat
  start : Nat
  span : Nat
  c0 : Int
  c1 : Word
  c2 : Word
  c3 : Word
  deadline : Nat
deriving DecidableEq, Repr

/-- The segments of one axis in a mailbox buffer (R296). -/
structure AxTraj where
  gen : Nat
  segs : List Seg
deriving DecidableEq, Repr

/-- A control datapath: tick of its last accepted sample, length of its last period, whether a latch is due, the active
mailbox copy by axis, mailbox releases not yet fetched (R289, R291, R295). -/
structure Datapath where
  last : Option Nat := none
  latchDue : Bool := false
  traj : List (Nat × Option AxTraj) := []
  fetches : Nat := 0
deriving DecidableEq, Repr, Inhabited

/-- The inputs an axis latched at its sample tick (R290): position in counts, speed, flags, the phase currents, step dt in ticks, Field
counter, whether a transfer of this period brings the position, the axis's part of the active mailbox buffer, phase of its generator and that
generator's rate. No law reads the flags and the phase currents. -/
structure AxIn where
  pos : Int
  vel : Word
  flags : Word
  amps : List Word
  traj : Option AxTraj
  ticks : Nat
  time : Nat
  ssi : Bool
  ph : Nat
  m : Nat
  rateN : Int
  rateD : Nat
deriving DecidableEq, Repr

structure Notch where
  s1 : Word := 0
  s2 : Word := 0
  ready : Bool := false
deriving DecidableEq, Repr, Inhabited

/-- One phase of an axis slice (R303 to R305): its half-bridge (0 OFF, 1 LOW, 2 HIGH), the state held back by the dead time
with the frames left, dwell, the bits of the stream since the filter started (newest first, at most 48) with their validity, the ones of its
first window of 16, the last sample. `next` is the state of the law. -/
structure Phase where
  out : Nat := 0
  next : Nat := 0
  dead : Nat := 0
  dwell : Nat := 255
  bits : List (Bool × Bool) := []
  pre : Option Nat := none
  amps : Word := 0
  valid : Bool := false
deriving DecidableEq, Repr, Inhabited

/-- An axis beyond its registers (R288 to R306, R318 to R323): ENABLE waiting, the words in force until the next executed period after a commit, executed-period
counter, last executed tick, latched inputs, result waiting for its latch, withheld result, loop and observer state, running
segment, misses in a row, pending set, slices, adaptation window, form of the running stop (0 none, 1 controlled stop,
2 brake-and-hold, 3 fallback), its ramp and hold position. -/
structure Axis where
  enPend : Bool := false
  lawOld : Option (List Word) := none
  periods : Nat := 0
  prev : Option Nat := none
  inp : Option AxIn := none
  executed : Bool := false
  res : Option Word := none
  iqPrev : Word := 0
  ip : Word := 0
  iv : Word := 0
  n1 : Notch := {}
  n2 : Notch := {}
  op : Word := 0
  ov : Word := 0
  od : Word := 0
  first : Bool := true
  pl : Nat := 0
  posChg : Option Int := none
  fw : Word := 0
  fs : Word := 0
  fdz : Word := 0
  fn : Nat := 0
  seg : Option Seg := none
  pref : Int := 0
  expired : Bool := false
  miss : Nat := 0
  pend : Option Word := none
  phases : List (Nat × Phase) := []
  changes : Nat := 0
  form : Nat := 0
  ramp : Word := 0
  hold : Int := 0
  ended : Bool := false
deriving DecidableEq, Repr, Inhabited

/-- An Axis-link port beyond its registers (R312 to R316): good superframes in a row, validity of the headers of the last 32
frames, bad frames in a row, the superframe being received (frames and whether all passed), its STATUS bits; the two
scramblers, the number of the next downstream frame, its records and the last frame sent. -/
structure ALink where
  good : Nat := 0
  heads : List Bool := []
  bad : Nat := 0
  seq : Nat := 0
  clean : Bool := false
  stat : Nat := 0
  rxScr : Nat := 0
  txScr : Nat := 0
  txSeq : Nat := 0
  recs : List (Nat × Word) := []
  cmd : Nat := 0
  sent : BitVec 40 := 0
deriving DecidableEq, Repr, Inhabited

/-- Drover, the encoders and the Axis link beyond their registers; the STO request and brake of each group as Drover holds
them (bit set: request, applied), the STO_B requests of Warden, the override of Ostler that forces every output (R398); by
Warden slot whether a fresh result came, and STOP_CLR was written, since its stop request began (R397). -/
structure DroverSt where
  dps : List (Nat × Datapath) := []
  axes : List (Nat × Axis) := []
  encs : List (Nat × Enc) := []
  links : List (Nat × ALink) := []
  sto : BitVec 12 := 0xFFF
  brake : BitVec 12 := 0xFFF
  stoB : BitVec 12 := 0
  forced : Bool := false
  seen : BitVec 64 := 0
  clr : BitVec 64 := 0
deriving DecidableEq, Repr, Inhabited

/-- A set of sensor settings being sent (R340): exposure, gain, the frame at whose end it left, its delays, I2C port and
address, and the register writes still to come (register, bytes, value). -/
structure ThSend where
  exp : Nat
  gain : Nat
  frame : Nat
  delayE : Nat
  delayG : Nat
  port : Nat
  addr : Nat
  left : List (Nat × Nat × Nat)
deriving DecidableEq, Repr, Inhabited

/-- A Thresher pipeline (R334 to R340): the open frame, the number of frame starts since ENABLE, the open frame's CSI-2 number and
stamps, whether it is CORRUPT or its data is discarded, its latched parameters (offsets 0x060 to 0x0BC) and tables, its lines and embedded data;
exposure and gain in force, settings on their way as (frame, exposure or not, value), the staged set, the set being sent, frames
marked SET_LATE, smoothed means, the ROI buffer in use and the commits not yet carried out. -/
structure Thresher where
  opened : Bool := false
  frames : Nat := 0
  num : Nat := 0
  start : Nat := 0
  sec : Nat := 0
  ns : Nat := 0
  corrupt : Bool := false
  discard : Bool := false
  par : List Word := []
  lsc : List Byte := []
  gamma : List Byte := []
  roi : List Byte := []
  lines : List (List Nat) := []
  embed : List Byte := []
  exp : Nat := 0
  gain : Nat := 0
  effects : List (Nat × Bool × Nat) := []
  staged : Option (Nat × Nat) := none
  sending : Option ThSend := none
  late : List Nat := []
  smean : Option (Nat × Nat × Nat) := none
  roiSel : Bool := false
  roiDue : Nat := 0
deriving DecidableEq, Repr, Inhabited

/-- A view of a sample (R338): width, height, source position, and its values (16 bits each for RGB, bytes for NV12 and P010). -/
structure View where
  w : Nat
  h : Nat
  x : Nat
  y : Nat
  vals : List Nat
deriving DecidableEq, Repr, Inhabited

/-- A complete sample that waits to be forwarded (R348): FMT, FRAME, stamps, PTP field, exposure and gain, CU_COUNT, flags, the model's
number of its frame, views, embedded data, histogram, zones. -/
structure Sample where
  fmt : Nat
  frame : Nat
  tStart : Nat
  tEnd : Nat
  ptpLo : Nat
  ptpHi : Nat
  exp : Nat
  gain : Nat
  cu : Nat
  flags : Nat
  index : Nat
  views : List (Option View)
  embed : List Byte
  hist : List Nat
  zones : List Nat
deriving DecidableEq, Repr, Inhabited

/-- A Caravan stream (R342, R343): extended sequence number of the next packet, packets held behind a gap, numbers of packets lost to a full
buffer; the packets delivered of the picture that has not ended, each with its arrival count, and those of ended pictures not yet decoded; late and
duplicate packets, whether STALLED; the most recent correctly decoded picture. -/
structure Stream where
  next : Option Nat := none
  held : List (Nat × Nat × RtpPacket) := []
  spilled : List Nat := []
  got : List (Nat × RtpPacket) := []
  ended : List (List (Nat × RtpPacket)) := []
  dups : Nat := 0
  stalled : Bool := false
  good : Option Picture := none
deriving DecidableEq, Repr, Inhabited

/-- The perception inputs: pipelines, streams, samples waiting by source code (R247), the request Glean runs. -/
structure PercSt where
  ths : List (Nat × Thresher) := []
  streams : List (Nat × Stream) := []
  samples : List (Nat × List Sample) := []
  glean : Option (List Word) := none
deriving DecidableEq, Repr, Inhabited

/-- The head of an Ethernet transmit queue (R362): its descriptor's address, its frame, launch time in PTP ns (none: no launch
time), whether its queue was gated and ETH_LAUNCH fired. -/
structure EthHead where
  desc : Nat
  frame : List Byte
  launch : Option Nat
  gated : Bool
  fired : Bool
deriving DecidableEq, Repr, Inhabited

/-- A PTP message in a forwarding FIFO (R365): ingress stamp in ns, link delay of the ingress port, frame. -/
structure EthFwd where
  stamp : Nat
  delay : Nat
  frame : List Byte
deriving DecidableEq, Repr, Inhabited

/-- An Ethernet port (R359 to R366): heads of its transmit queues, forwarding FIFO, and the frame on the wire, padded and with its
FCS, with its queue (none: forwarded), descriptor and the PTP time it left at. -/
structure EthPort where
  heads : List (Nat × EthHead) := []
  fwd : List EthFwd := []
  wire : Option (Option Nat × Nat × Nat × List Byte) := none
deriving DecidableEq, Repr, Inhabited

/-- A stored CAN frame (R373, R375): ECHO, FILTER, LOST_BEFORE, PTP stamp. -/
structure CanRx where
  frame : CanFrame
  echo : Bool
  filter : Nat
  lost : Bool
  sec : Nat
  ns : Nat
deriving DecidableEq, Repr

/-- A CAN controller (R368 to R379): transmit FIFO, whether its head or a buffer (0 to 2) is on the bus, aborts waiting for the end
of a frame, receive FIFO with its shadow entry, whether the head is locked, RX_OVERRUN at the last pop, error counters, bus-off
recovery counting, transmission suspended, the ticks of same-identifier errors with their identifier, the PTP time at which the frame on the bus
began, and the transmitter delay measured last with the secondary sample point it gives, both in protocol clocks (R370). -/
structure CanNode where
  fifo : List CanFrame := []
  busy : Option Nat := none
  aborts : List Nat := []
  rx : List CanRx := []
  shadow : Option CanRx := none
  locked : Bool := false
  overMark : Nat := 0
  tec : Nat := 0
  rec_ : Nat := 0
  off : Bool := false
  counting : Bool := false
  suspended : Bool := false
  same : List Nat := []
  sameId : Nat := 0
  sof : Nat := 0
  delay : Nat := 0
  ssp : Nat := 0
deriving DecidableEq, Repr, Inhabited

/-- Who runs an I2C transfer (R382): a pipeline's sensor send or the host. -/
inductive I2cOwner where
  | sensor (c : Nat)
  | host
deriving DecidableEq, Repr

/-- An I2C port (R381 to R385): the transfer that runs, a host transfer that waits, its IC_XFER and written bytes as started, and
whether SCL is still watched after a TIMEOUT. -/
structure I2cPort where
  run : Option I2cOwner := none
  hostWaits : Bool := false
  xfer : Word := 0
  out : List Byte := []
  watch : Bool := false
deriving DecidableEq, Repr, Inhabited

/-- The whole machine. `pending` is the queue of waiting commands; `fresh` is the model's own counter that names the next
free value (log 1); `latch` holds the latched high words of 64-bit pairs by their address (R11); `rdata` is the value the last host read returned; `msix` lists the MSI-X messages sent as function
(0 to 7, 15 physical) and vector (R462). -/
structure State where
  pending : List Instr := []
  fresh : Nat := 0
  fuses : Fuses := {}
  pins : Pins := {}
  clock : Clock := {}
  hbm : List Host.Cell := []
  spad : List Host.Cell := []
  regs : List (Nat × Word) := []
  latch : List (Nat × Option Word) := []
  rdata : Word := 0
  msix : List (Nat × Nat) := []
  log : EventLog := {}
  ledger : Ledger := {}
  ost : Ostler := {}
  eng : List (Nat × Engine) := []
  por : List (Nat × Porter) := []
  queues : List (Nat × Queue) := []
  tn : List (Nat × Tenant) := []
  bars : List (Nat × Barrier) := []
  arrQ : List Arrival := []
  evQ : List LineEvent := []
  field : FieldSt := {}
  mile : MileSt := {}
  drv : DroverSt := {}
  perc : PercSt := {}
  eth : List (Nat × EthPort) := []
  can : List (Nat × CanNode) := []
  i2c : List (Nat × I2cPort) := []
deriving DecidableEq, Repr, Inhabited

/-- Rows of the Ledger of a new module (R431, R443): slot A ACTIVE (log 8), TRIAL_TIME 600 s, HU_DIV 0x0800; the rest zero. -/
def newLedger : Ledger :=
  let row (w : List (Nat × Word)) : LRow := ⟨⟨w, 0, 0⟩, ⟨w, 0, 0⟩⟩
  { rows := [(0, row [(1, 3), (5, 600)]), (0x59, row [(3, 0x08000000)])], ram := [(1, 3), (5, 600), (0x593, 0x08000000)] }

/-- The machine right after reset: power just applied, POR_N low, a new module (R466, R467, R472). Every register reads its reset
value. -/
def State.reset : State := { ledger := newLedger }

end Sys2Proof.Machine
end

