-- ==== Sys2Proof/Machine/Flits.lean ====
section
/-!
DEFINITION. Flits and packets (R173, R174): the fields of a flit header, the flits of a packet, the packet that flits spell.
-/
namespace Sys2Proof.Machine

/-! ### The flit header (R173) -/

def Flit.dest (f : Flit) : Nat := nfld f.hdr.toNat 63 58
def Flit.src (f : Flit) : Nat := nfld f.hdr.toNat 57 52
def Flit.tenant (f : Flit) : Nat := nfld f.hdr.toNat 51 48
def Flit.vc (f : Flit) : Nat := nfld f.hdr.toNat 47 46
def Flit.first (f : Flit) : Bool := nfld f.hdr.toNat 45 45 == 1
def Flit.last (f : Flit) : Bool := nfld f.hdr.toNat 44 44 == 1
def Flit.seq (f : Flit) : Nat := nfld f.hdr.toNat 43 32
def Flit.epoch (f : Flit) : Nat := nfld f.hdr.toNat 31 28
def Flit.hops (f : Flit) : Nat := nfld f.hdr.toNat 27 22
def Flit.bytes (f : Flit) : Nat := nfld f.hdr.toNat 12 0

/-- A header word from its fields; bits [21:13] are zero. -/
def flitHdr (dest src tenant vc : Nat) (first last : Bool) (seq epoch hops bytes : Nat) : BitVec 64 :=
  BitVec.ofNat 64 (dest % 64 * 2 ^ 58 + src % 64 * 2 ^ 52 + tenant % 16 * 2 ^ 48 + vc % 4 * 2 ^ 46 + b2n first * 2 ^ 45 + b2n last * 2 ^ 44 +
    seq % 4096 * 2 ^ 32 + epoch % 16 * 2 ^ 28 + hops % 64 * 2 ^ 22 + bytes % 8192)

/-- A flit that carries something a sender may send: bits [21:13] zero, 1 to 256 bytes. Another one is discarded (log 52). -/
def Flit.ok (f : Flit) : Bool := nfld f.hdr.toNat 21 13 == 0 && decide (1 ≤ f.bytes ∧ f.bytes ≤ 256)

/-- The same flit with another sequence number. -/
def Flit.withSeq (f : Flit) (n : Nat) : Flit :=
  { f with hdr := flitHdr f.dest f.src f.tenant f.vc f.first f.last n f.epoch f.hops f.bytes }

/-- The same flit one hop further, on another channel (R186). -/
def Flit.onward (f : Flit) (vc hops : Nat) : Flit :=
  { f with hdr := flitHdr f.dest f.src f.tenant vc f.first f.last f.seq f.epoch hops f.bytes }

/-- A filler: a sequence number that carries nothing, in place of a purged flit (log 52). -/
def Flit.filler (f : Flit) : Flit := ⟨flitHdr 0 0 0 f.vc false false f.seq 0 0 0, []⟩

/-! ### The packet header (R174) -/

def opCode : PktOp → Nat
  | .write => 1
  | .writeAck => 2
  | .error => 3
  | .arrive => 4
  | .proxyRead => 5
  | .proxyReadData => 6
  | .proxyWrite => 7
  | .proxyWriteAck => 8

def opOf : Nat → Option PktOp
  | 1 => some .write
  | 2 => some .writeAck
  | 3 => some .error
  | 4 => some .arrive
  | 5 => some .proxyRead
  | 6 => some .proxyReadData
  | 7 => some .proxyWrite
  | 8 => some .proxyWriteAck
  | _ => none

/-- Packets of proxy accesses belong to no job (R173). -/
def isProxyOp : PktOp → Bool
  | .proxyRead | .proxyReadData | .proxyWrite | .proxyWriteAck => true
  | _ => false

/-- A request of a job or of a proxy access (R174). -/
def isRequest : PktOp → Bool
  | .write | .arrive | .proxyRead | .proxyWrite => true
  | _ => false

/-- The bytes of a packet: its header, then its data. -/
def packetBytes (k : Packet) : List Byte :=
  natLe 1 (opCode k.op) ++ natLe 1 k.space ++ natLe 2 k.tag ++ natLe 4 k.data.length ++ natLe 8 k.addr ++ k.data

/-- The flits of a packet from its bytes, `first` of them being its first one. The link gives each its sequence number. -/
def chopFlits (k : Packet) : Nat → Bool → List Byte → List Flit
  | 0, _, _ => []
  | n + 1, first, bs =>
    let d := bs.take 256
    let last := decide (bs.length ≤ 256)
    ⟨flitHdr k.dest k.src k.tenant k.vc first last 0 k.epoch k.hops d.length, d⟩ :: (if last then [] else chopFlits k n false (bs.drop 256))

/-- The flits of a packet (R174), at most 64. -/
def packetFlits (k : Packet) : List Flit := chopFlits k 64 true (packetBytes k)

/-- The packet that flits spell, from its first one on (R174): none where they hold no header or an OP without a meaning. -/
def packetOf (fs : List Flit) : Option Packet :=
  match fs with
  | [] => none
  | f :: _ =>
    let bs := fs.flatMap (·.data)
    if bs.length < 16 then none else
    (opOf (leAt bs 0 1)).map (fun op =>
      { dest := f.dest, src := f.src, tenant := f.tenant, vc := f.vc, epoch := f.epoch, hops := f.hops, op := op, space := leAt bs 1 1,
        tag := leAt bs 2 2, addr := leAt bs 8 8, data := (bs.drop 16).take (leAt bs 4 4) })

end Sys2Proof.Machine
end

