-- ==== Sys2Proof/Machine/Ops.lean ====
section
/-!
DEFINITION. The named operations over registers, HBM, scratchpads and unit tables; the region check (R405); interrupts
(R455, R462, R463), fault codes (R456) and the event log (R425, R426).
-/
namespace Sys2Proof.Machine

/-! ### Registers -/

/-- The stored value of the register at a BAR0 byte address. -/
def State.rd (s : State) (a : Nat) : Word := mapGet resetReg s.regs a

/-- Store a register value. -/
def State.wr (s : State) (a : Nat) (v : Word) : State := { s with regs := mapSet resetReg s.regs a v }

/-- Bits [hi:lo] of a register. -/
def State.rf (s : State) (a hi lo : Nat) : Nat := fld (s.rd a) hi lo

/-- Put v into bits [hi:lo] of a register. -/
def State.pf (s : State) (a hi lo v : Nat) : State := s.wr a (setFld (s.rd a) hi lo v)

/-- One bit of a register. -/
def State.rb (s : State) (a i : Nat) : Bool := tbit (s.rd a) i

/-- Put a truth value into one bit. -/
def State.wb (s : State) (a i : Nat) (b : Bool) : State := s.wr a (setBit (s.rd a) i b)

/-- Add one to a counter field, saturating at all ones. -/
def State.incSat (s : State) (a hi lo : Nat) : State :=
  s.pf a hi lo (satInc (s.rf a hi lo) (2 ^ (hi + 1 - lo) - 1))

/-- Add n to a 32-bit counter register, saturating. -/
def State.addSat (s : State) (a n : Nat) : State := s.wr a (w32 (min (s.rd a |>.toNat |> (· + n)) 0xFFFFFFFF))

/-- A 64-bit value in two registers, low word first (R11). -/
def State.rd64 (s : State) (lo : Nat) : Nat := (s.rd lo).toNat + 2 ^ 32 * (s.rd (lo + 4)).toNat
def State.wr64 (s : State) (lo v : Nat) : State := (s.wr lo (w32 v)).wr (lo + 4) (w32 (v / 2 ^ 32))

/-- Put registers back to their reset value: every address of a page that satisfies p. -/
def State.resetRegs (s : State) (p : Nat → Bool) : State := { s with regs := mapDrop s.regs p }

/-! ### HBM and scratchpads -/

/-- What an unlisted byte of HBM reads as: 0. DESIGN CHOICE, log 3. -/
def hbmDflt : Nat → Byte := fun _ => 0

/-- A zeroed scratchpad (R90) lists nothing. -/
def spadDflt : Nat → Byte := fun _ => 0

def State.hbmByte (s : State) (a : Nat) : Byte := mapGet hbmDflt s.hbm a
def State.hbmPut (s : State) (a : Nat) (b : Byte) : State := { s with hbm := mapSet hbmDflt s.hbm a b }

/-- n bytes of HBM from address a. -/
def State.hbmRead (s : State) (a : Nat) : Nat → List Byte
  | 0 => []
  | n + 1 => s.hbmByte a :: s.hbmRead (a + 1) n

/-- Bytes of a memory list, first at address a. -/
def putBytes (m : List Host.Cell) (a : Nat) : List Byte → List Host.Cell
  | [] => m
  | b :: r => putBytes (mapSet hbmDflt m a b) (a + 1) r

/-- Write bytes to HBM from address a. -/
def State.hbmWrite (s : State) (a : Nat) (bs : List Byte) : State := { s with hbm := putBytes s.hbm a bs }

/-- The scratchpads of the six engines share one list: engine e's byte a has the key e × 2^26 + a (R81). -/
def spadKey (e a : Nat) : Nat := e * 2 ^ 26 + a

/-- Bytes per granule (R81) and the size of a scratchpad. -/
def granule : Nat := 49152
def spadSize : Nat := 0x3000000

/-- Bank, row and 64-byte column of a scratchpad address (R81), and the first address of a bank's block in a row and column. -/
def spadBank (a : Nat) : Nat := 6 * (a / 384 % 16) + a % 384 / 64
def spadRow (a : Nat) : Nat := a / 384 / 16 / 8
def spadCol (a : Nat) : Nat := a / 384 / 16 % 8
def spadBlock (bank row col : Nat) : Nat := 384 * (128 * row + 16 * col + bank / 6) + 64 * (bank % 6)

/-- Whether bytes [lo, hi) reach row `row` of bank `bank`. -/
def spadReaches (lo hi bank row : Nat) : Bool :=
  decide (bank < 96 ∧ row < 1024) &&
    (List.range 8).any (fun k => decide (lo < spadBlock bank row k + 64 ∧ spadBlock bank row k < hi))

/-- A byte of engine e's scratchpad; beyond its end nothing is held. -/
def State.spByte (s : State) (e a : Nat) : Byte := if a < spadSize then mapGet spadDflt s.spad (spadKey e a) else 0

/-- n bytes of engine e's scratchpad from address a. -/
def State.spRead (s : State) (e a : Nat) : Nat → List Byte
  | 0 => []
  | n + 1 => s.spByte e a :: s.spRead e (a + 1) n

def State.spWrite (s : State) (e a : Nat) (bs : List Byte) : State := { s with spad := putBytes s.spad (spadKey e a) bs }

/-- Zero bytes [lo, hi) of engine e's scratchpad (R90). -/
def State.spZero (s : State) (e lo hi : Nat) : State :=
  { s with spad := mapDrop s.spad (fun k => decide (spadKey e lo ≤ k ∧ k < spadKey e hi)) }

/-- Zero bytes [lo, hi) of HBM (R406). -/
def State.hbmZero (s : State) (lo hi : Nat) : State :=
  { s with hbm := mapDrop s.hbm (fun k => decide (lo ≤ k ∧ k < hi)) }

/-! ### Unit tables -/

def dflt {α : Type} [Inhabited α] : Nat → α := fun _ => default

def State.engine (s : State) (e : Nat) : Engine := mapGet dflt s.eng e
def State.setEngine (s : State) (e : Nat) (x : Engine) : State := { s with eng := mapSet dflt s.eng e x }
def State.porter (s : State) (p : Nat) : Porter := mapGet dflt s.por p
def State.setPorter (s : State) (p : Nat) (x : Porter) : State := { s with por := mapSet dflt s.por p x }
def State.queue (s : State) (q : Nat) : Queue := mapGet dflt s.queues q
def State.setQueue (s : State) (q : Nat) (x : Queue) : State := { s with queues := mapSet dflt s.queues q x }
def State.tenant (s : State) (t : Nat) : Tenant := mapGet dflt s.tn t
def State.setTenant (s : State) (t : Nat) (x : Tenant) : State := { s with tn := mapSet dflt s.tn t x }

/-- The key of a barrier: TB0 to TB255, then 64 for each engine. -/
def barKey : BarId → Nat
  | .central n => n.val
  | .tree e k => 256 + 64 * e.val + k.val

def State.bar (s : State) (b : BarId) : Barrier := mapGet dflt s.bars (barKey b)
def State.setBar (s : State) (b : BarId) (x : Barrier) : State := { s with bars := mapSet dflt s.bars (barKey b) x }
def State.port (s : State) (p : Nat) : Port := mapGet dflt s.field.ports p
def State.setPort (s : State) (p : Nat) (x : Port) : State :=
  { s with field := { s.field with ports := mapSet dflt s.field.ports p x } }
def State.lb (s : State) (k : Nat) : LinkBar := mapGet dflt s.field.lbs k
def State.setLb (s : State) (k : Nat) (x : LinkBar) : State :=
  { s with field := { s.field with lbs := mapSet dflt s.field.lbs k x } }

/-- The tenant page of INNKEEPER (R252), its state field (R234). -/
def tnPage (t : Nat) : Nat := 0x11 + t
def State.tnState (s : State) (t : Nat) : Nat := s.rf (rga (tnPage t) 0x44) 2 0
def State.setTnState (s : State) (t v : Nat) : State := s.pf (rga (tnPage t) 0x44) 2 0 v

/-- Tenants in ACTIVE, ABORTING, STOPPED or RELEASING are not FREE. -/
def State.tnFree (s : State) (t : Nat) : Bool := s.tnState t == 0

/-- Whether a tenant's accounting runs: from the moment it leaves FREE until its RELEASE (R250). -/
def State.accounts (s : State) (t : Nat) : Bool := s.tnState t == 1 || s.tnState t == 2 || s.tnState t == 3

/-- Count bytes moved for a tenant in HBM and over Faleg, and engine time (R250). -/
def State.chargeHbm (s : State) (t n : Nat) : State :=
  if s.accounts t then s.setTenant t { s.tenant t with hbm := (s.tenant t).hbm + n } else s
def State.chargeLink (s : State) (t n : Nat) : State :=
  if s.accounts t then s.setTenant t { s.tenant t with link := (s.tenant t).link + n } else s
def State.chargeTime (s : State) (t ns : Nat) : State :=
  if s.accounts t then s.setTenant t { s.tenant t with time := (s.tenant t).time + ns } else s

/-- The page of queue q's registers and the offset of its block (R253). -/
def qReg (q off : Nat) : Nat := rga (tnPage (q / 4)) (0x80 + 0x20 * (q % 4) + off)

/-- The present value of the Field counter, and its truncation to a microsecond (R97, R407). -/
def State.now (s : State) : Nat := s.clock.field.toNat
def State.nowUs (s : State) : Nat := s.now / 1000 * 1000

/-- Take a fresh free value: its number, and the state with the counter advanced. -/
def State.take (s : State) : Nat × State := (s.fresh, { s with fresh := s.fresh + 1 })

/-- Take n fresh free values. -/
def State.takeMany (s : State) (n : Nat) : State := { s with fresh := s.fresh + n }

/-! ### Interrupts -/

/-- Offsets of the common header (R449 to R458). -/
def oCtl : Nat := 0x08
def oStat : Nat := 0x0C
def oRaw : Nat := 0x10
def oEn : Nat := 0x14
def oPend : Nat := 0x18
def oForce : Nat := 0x1C
def oCode : Nat := 0x20
def oInfo : Nat := 0x24
def oInj : Nat := 0x28
def oLock : Nat := 0x2C

def State.irqPend (s : State) (page : Nat) : Word := s.rd (rga page oRaw) &&& s.rd (rga page oEn)

/-- Send an MSI-X message. -/
def State.sendMsix (s : State) (f v : Nat) : State := { s with msix := s.msix ++ [(f, v)] }

/-- The pending bits 0 to 5 of a tenant page go to vectors 0 to 5 of its virtual function while the tenant is not FREE
(R462, R463). -/
def State.sendTenantBits (s : State) (n : Nat) (pend : Word) : Nat → State
  | 0 => s
  | k + 1 =>
    let s := s.sendTenantBits n pend k
    if tbit pend k && !s.tnFree n then s.sendMsix n k else s

/-- Deliver the route entry of a source (R462). -/
def State.sendRoute (s : State) (src : Nat) : State :=
  let r := s.rd (rga 0 (0x400 + 4 * src))
  let f := fld r 27 24
  if !tbit r 31 then s
  else if f = 15 then s.sendMsix 15 (fld r 21 16)
  else if f < 8 && !s.tnFree f then s.sendMsix f (fld r 21 16)
  else s

/-- The interrupt request of a page (R455, R462, R463). -/
def State.requestIrq (s : State) (page : Nat) : State :=
  match (pageId page).bind (·.src) with
  | none => s
  | some src =>
    let s := if 8 ≤ src ∧ src ≤ 15 then s.sendTenantBits (src - 8) (s.irqPend page) 6 else s
    s.sendRoute src

/-- Events set bits of IRQ_RAW; the page requests when IRQ_PEND goes from zero to non-zero (R455). -/
def State.raiseBits (s : State) (page : Nat) (m : Word) : State :=
  let was := s.irqPend page
  let s := s.wr (rga page oRaw) (s.rd (rga page oRaw) ||| m)
  if was = 0 ∧ s.irqPend page ≠ 0 then s.requestIrq page else s

def State.raise (s : State) (page bit : Nat) : State := s.raiseBits page (w32 (2 ^ bit))

/-! ### The event log -/

/-- Add an event to the log (R425, R426): Ostler idle begins a page with it; a full FIFO counts it by class. -/
def State.logPush (s : State) (cls : Nat) (r : LogRec) : State :=
  let g := s.log
  let g' : EventLog :=
    if g.page.isEmpty ∧ g.fifo.isEmpty then { g with page := [r] }
    else if g.fifo.length < 128 then { g with fifo := g.fifo ++ [r] }
    else
      { g with counts := g.counts.set cls (satInc (g.counts.getD cls 0) 0xFFFF),
               lostTime := if g.counts.all (· == 0) then s.now else g.lostTime }
  { s with log := g' }

/-- Log an event of a page (R425): code, class, argument, tenant (255: none). -/
def State.logEvent (s : State) (page code cls info tenant : Nat) : State :=
  let (b, i) := match pageId page with
    | none => (0, 0)
    | some p => (p.block.code, p.inst)
  s.logPush cls (.event s.now (s.clock.sec % 2 ^ 32) code b info cls i tenant)

/-- Events to which the spec gives no code, by the model's number (log 14). -/
def evPortState : Nat := 1
def evWiring : Nat := 2
def evAuthFail : Nat := 3
def evSealFail : Nat := 4
def evRetrain : Nat := 5
def evLbRelease : Nat := 6
def evLbStray : Nat := 7
def evMgmt : Nat := 8
def evInject : Nat := 9
def evLedgerRefused : Nat := 10
def evLedgerRepair : Nat := 11
def evLedgerLost : Nat := 12
def evWearWarn : Nat := 13
def evFwRevert : Nat := 14
def evShutdown : Nat := 15
def evBoot : Nat := 16
def evHbmTrain : Nat := 17
def evOstlerWdt : Nat := 18
def evFieldId : Nat := 19
def evSensor : Nat := 20
def evRail : Nat := 21
def evOvertemp : Nat := 22
def evModuleReset : Nat := 23
def evCorrupt : Nat := 24
def evPort : Nat := 25
def evTimebase : Nat := 26
def evWaybill : Nat := 27
def evSafe : Nat := 28
def evFence : Nat := 29
def evHostReset : Nat := 30

/-- Log an event without a code of its own. -/
def State.logNamed (s : State) (page ev cls info tenant : Nat) : State :=
  s.logEvent page (Config.eventCode ev) cls info tenant

/-! ### Fault codes -/

/-- Whether some source has FAULT_CODE ≠ 0 (R459). -/
def State.anyFault (s : State) : Bool :=
  s.regs.any (fun c => decide (c.1 % 4096 = oCode) && decide (fld c.2 15 0 ≠ 0))

/-- Record a fault or event of a page (R456): the first fills CODE and FAULT_INFO, the others count in EXTRA. The first of
the module raises bit 2 of TOP (R459). -/
def State.recordFault (s : State) (page code info : Nat) : State :=
  let c := rga page oCode
  if s.rf c 15 0 = 0 then
    let was := s.anyFault
    let s := (s.pf c 15 0 code).wr (rga page oInfo) (w32 info)
    if was then s else s.raise 0 2
  else s.incSat c 31 24

/-! ### The region table -/

/-- Region registers of entry e (R413). -/
def regCfg (e : Nat) : Nat := rga 9 (0x400 + 16 * e)
def regBase (e : Nat) : Nat := rga 9 (0x404 + 16 * e)
def regSize (e : Nat) : Nat := rga 9 (0x408 + 16 * e)
def regStat (e : Nat) : Nat := rga 9 (0x40C + 16 * e)

/-- Whether the valid entry e covers the 2 MiB unit u. -/
def State.regHas (s : State) (u e : Nat) : Bool :=
  s.rb (regCfg e) 31 && decide ((s.rd (regBase e)).toNat ≤ u) && decide (u ≤ (s.rd (regBase e)).toNat + (s.rd (regSize e)).toNat)

/-- The entries that match a 2 MiB unit. Entries are whole 2 MiB units, so the data units of one such unit match alike. -/
def State.regMatch (s : State) (u : Nat) : List Nat := (List.range 128).filter (s.regHas u)

/-- The verdict of the region table on an access (R405). -/
inductive Access where
  | ok
  | bounds (addr : Nat)
  | conflict (entry : Nat)
deriving DecidableEq, Repr

/-- Judge n consecutive 2 MiB units from u for a tenant (8: physical function); `a` is the access's first byte. -/
def State.regJudge (s : State) (t : Nat) (write : Bool) (a u : Nat) : Nat → Access
  | 0 => .ok
  | n + 1 =>
    match s.regMatch u with
    | [] => (match s.regJudge t write a (u + 1) n with | .conflict e => .conflict e | _ => .bounds (max a (u * 2 ^ 21)))
    | [e] =>
      if s.rf (regCfg e) 23 20 = t ∧ (!write || s.rb (regCfg e) 30) then s.regJudge t write a (u + 1) n
      else (match s.regJudge t write a (u + 1) n with | .conflict e' => .conflict e' | _ => .bounds (max a (u * 2 ^ 21)))
    | e :: _ => .conflict e

/-- Judge the access of `len` bytes at `a` (R405): a conflict anywhere in it prevails. -/
def State.regCheck (s : State) (t : Nat) (write : Bool) (a len : Nat) : Access :=
  if len = 0 then .ok else s.regJudge t write a (a / 2 ^ 21) ((a + len - 1) / 2 ^ 21 - a / 2 ^ 21 + 1)

def Access.isOk : Access → Bool
  | .ok => true
  | _ => false

/-! ### Scratchpad partitions -/

/-- PART_TNn and RES_TNn_k of engine e (R108). -/
def partReg (e t : Nat) : Nat := rga (0x100 + 16 * e + 1) (0x40 + 4 * t)
def resReg (e t k : Nat) : Nat := rga (0x100 + 16 * e + 1) (0x80 + 16 * t + 4 * k)

/-- First granule and number of granules of a partition or region register, if valid. -/
def granulesOf (w : Word) : Option (Nat × Nat) := if tbit w 31 then some (fld w 9 0, fld w 19 10 + 1) else none

/-- The byte range [lo, hi) of a tenant's partition on engine e. -/
def State.partition (s : State) (e t : Nat) : Option (Nat × Nat) :=
  (granulesOf (s.rd (partReg e t))).map (fun g => (g.1 * granule, (g.1 + g.2) * granule))

/-- Whether bytes [a, a + len) lie inside the tenant's partition on engine e (R87). -/
def State.inPart (s : State) (e t a len : Nat) : Bool :=
  match s.partition e t with
  | none => decide (len = 0)
  | some (lo, hi) => decide (lo ≤ a ∧ a + len ≤ hi)

/-- The first page of engine e, of Porter engine p, of Faleg port p. -/
def engPage (e : Nat) : Nat := 0x100 + 16 * e
def porPage (p : Nat) : Nat := 0x200 + p
def falPage (p : Nat) : Nat := 0x300 + p

/-! ### Sources of samples and Ethernet queues -/

/-- The page and the registers of a source: 0 to 15 for TH0 to TH15, 16 to 95 for VS0 to VS79 (R247, R354). -/
def srcPg (src : Nat) : Nat := if src < 16 then 0x500 + src else 0x510 + (src - 16) / 10
def srcReg (src off : Nat) : Nat := rga (srcPg src) (0x40 + (if src < 16 then 0 else 0x40 * ((src - 16) % 10)) + off)

def State.srcOn (s : State) (src : Nat) : Bool := s.rb (srcReg src 0x1C) 0
def State.srcOwner (s : State) (src : Nat) : Nat := s.rf (srcReg src 0) 27 24

/-- The tenants that a source works for at present (R33): its owner, while the source runs or samples of it wait. -/
def State.sourceTenant (s : State) (src : Nat) : List Nat :=
  if s.srcOn src || !(mapGet dflt s.perc.samples src).isEmpty then [s.srcOwner src] else []

/-- The owners of the transmit queues whose head an Ethernet port holds (R33, R362). -/
def State.ethTenants (s : State) (p : Nat) : List Nat :=
  (mapGet dflt s.eth p).heads.map (fun h => s.rf (rga (0x310 + p) (0x80 + 0x10 * h.1)) 23 20)

/-- Count a hardware error where its registers stand (R85, R110, R448): engine e's bank counters, or the HBM controller's. -/
def State.hwNote (s : State) (e : Nat) (hw : HwFault) : State :=
  match hw with
  | .spadCe b r => (s.incSat (rga (engPage e + 3) (0x40 + 4 * (b % 96))) 31 16).pf (rga (engPage e + 3) (0x40 + 4 * (b % 96))) 9 0 r
  | .spadUe _ b r =>
    let a := rga (engPage e + 3) 0x1C0
    if s.rb a 31 then s else s.wr a (w32 (2 ^ 31 + b % 128 * 65536 + r % 1024))
  | .hbmCe mc a => (s.addSat (rga (0x210 + mc.val) 0x40) 1).wr64 (rga (0x210 + mc.val) 0x48) a
  | .hbmUe mc a => (s.addSat (rga (0x210 + mc.val) 0x44) 1).wr64 (rga (0x210 + mc.val) 0x48) a
  | _ => s

def isHbmUe : HwFault → Bool
  | .hbmUe _ _ => true
  | _ => false

/-- Errors of HBM that strike a fetch are counted; the other faults strike none (R448). -/
def State.hbmNote (s : State) (hw : HwFault) : State :=
  match hw with
  | .hbmCe _ _ => s.hwNote 0 hw
  | .hbmUe _ _ => s.hwNote 0 hw
  | _ => s

/-- Whether an HBM error strikes a read of n bytes from address a (R448). -/
def hbmHits (hw : HwFault) (a n : Nat) : Bool :=
  match hw with
  | .hbmCe _ x => decide (a ≤ x ∧ x < a + n)
  | .hbmUe _ x => decide (a ≤ x ∧ x < a + n)
  | _ => false

/-- FAULT_INFO of SPAD_UE (R106). -/
def spadUeInfo (port b r : Nat) : Nat := port % 16 * 2 ^ 28 + b % 128 * 65536 + r % 1024

/-- This module's Field ID (R185). -/
def State.me (s : State) : Nat := s.fuses.fieldId

/-- The Field registers of page 0 of FALEG (R207). -/
def fdReg (off : Nat) : Nat := rga 0x300 off
def flReg (p off : Nat) : Nat := rga (falPage p) off

/-- A port's link state (R170) and whether it is UP. -/
def State.lstate (s : State) (p : Nat) : Nat := s.rf (rga (falPage p) 0x44) 2 0
def State.setLstate (s : State) (p v : Nat) : State := s.pf (rga (falPage p) 0x44) 2 0 v
def State.portUp (s : State) (p : Nat) : Bool := s.lstate p == 3
def upPorts (s : State) : List Nat := (List.range 8).filter s.portUp

/-- Put a sideband word into a port's buffer (R177). -/
def State.sendSb (s : State) (w : SbWord) (p : Nat) : State :=
  let x := s.port p
  s.setPort p { x with sbOut := x.sbOut ++ [(x.sbNext, w)], sbNext := x.sbNext + 1 }

/-- Flood a sideband word on every UP port but one (8: none left out) (R201). -/
def State.flood (s : State) (w : SbWord) (except : Nat) : State :=
  ((upPorts s).filter (· != except)).foldl (fun s p => s.sendSb w p) s

end Sys2Proof.Machine
end

