-- ==== Sys2Proof/Machine/Route.lean ====
section
/-!
DEFINITION. The Field's topology and routes (R169, R181, R185, R186): neighbours, directions, distances, credits, the port that carries
a packet.
-/
namespace Sys2Proof.Machine

/-- FD_TOPO and its fields (R207). -/
def aTopo : Nat := rga 0x300 0x200
def State.topo (s : State) : Nat := s.rf aTopo 9 8
def State.torusX (s : State) : Nat := s.rf aTopo 18 16 + 1
def State.torusY (s : State) : Nat := s.rf aTopo 21 19 + 1

/-- The Field size N (R169). -/
def State.fieldSize (s : State) : Nat :=
  match s.topo with
  | 0 => 1
  | 3 => s.torusX * s.torusY
  | _ => s.rf aTopo 15 10 + 1

/-- The collector of aborts (FD_HOST) and the Field-counter master (FC_CTL). -/
def State.collector (s : State) : Nat := s.rf (rga 0x300 0x204) 5 0
def State.master (s : State) : Nat := s.rf (rga 0x300 0x210) 5 0

/-- The DIR of a port (R206): 1 east or +X, 2 west or −X, 3 +Y, 4 −Y. -/
def State.dir (s : State) (p : Nat) : Nat := s.rf (rga (falPage p) 0x40) 3 1

/-- The ring rule: direction 1 when the forward distance is at most half (R185). -/
def ringDir (f d n : Nat) : Nat := if (d + n - f) % n ≤ n / 2 then 1 else 2
def ringDist (f d n : Nat) : Nat := min ((d + n - f) % n) ((f + n - d) % n)

/-- The direction of the route from f to d (R185); 0: no way. -/
def State.routeDir (s : State) (f d : Nat) : Nat :=
  if f = d then 0 else
  match s.topo with
  | 0 => 0
  | 1 => if f < d then 1 else 2
  | 2 => ringDir f d s.fieldSize
  | _ =>
    let x := s.torusX
    if f % x ≠ d % x then ringDir (f % x) (d % x) x
    else (if ringDir (f / x) (d / x) s.torusY = 1 then 3 else 4)

/-- The length of the route from f to d in hops (R185). -/
def State.hops (s : State) (f d : Nat) : Nat :=
  match s.topo with
  | 0 => 0
  | 1 => if f < d then d - f else f - d
  | 2 => ringDist f d s.fieldSize
  | _ => ringDist (f % s.torusX) (d % s.torusX) s.torusX + ringDist (f / s.torusX) (d / s.torusX) s.torusY

/-- The neighbour of module f in a direction (R169); none: that direction has none. -/
def State.neighbourOf (s : State) (f dir : Nat) : Option Nat :=
  let n := s.fieldSize
  match s.topo, dir with
  | 1, 1 => if f + 1 < n then some (f + 1) else none
  | 1, 2 => if f = 0 then none else some (f - 1)
  | 2, 1 => some ((f + 1) % n)
  | 2, 2 => some ((f + n - 1) % n)
  | 3, 1 => some (f / s.torusX * s.torusX + (f % s.torusX + 1) % s.torusX)
  | 3, 2 => some (f / s.torusX * s.torusX + (f % s.torusX + s.torusX - 1) % s.torusX)
  | 3, 3 => some ((f / s.torusX + 1) % s.torusY * s.torusX + f % s.torusX)
  | 3, 4 => some ((f / s.torusX + s.torusY - 1) % s.torusY * s.torusX + f % s.torusX)
  | _, _ => none

def State.neighbour (s : State) (dir : Nat) : Option Nat := s.neighbourOf s.me dir

/-- The modules on the route from f to d, f left out (R185), at most n of them. -/
def State.routeFrom (s : State) (d : Nat) : Nat → Nat → List Nat
  | 0, _ => []
  | n + 1, f =>
    match s.neighbourOf f (s.routeDir f d) with
    | none => []
    | some g => g :: s.routeFrom d n g

/-- The lowest-numbered UP port of the bundle toward d: the port of proxy packets and sideband words (R186, R191). -/
def State.firstPort (s : State) (d : Nat) : Option Nat :=
  let dir := s.routeDir s.me d
  if dir = 0 then none else (upPorts s).find? (fun p => s.dir p == dir)

/-! ### Credits (R181) -/

def noCount : Nat → Nat := fun _ => 0

/-- Flits of a channel's receive buffer. -/
def vcDepth (vc : Nat) : Nat := if vc < 2 then 128 else 32

/-- The credits a port holds for a channel of its partner's receiver. -/
def Port.credit (x : Port) (vc : Nat) : Nat := vcDepth vc + mapGet noCount x.txs.freed vc - mapGet noCount x.txs.out vc

/-- n flits leave the receive buffer of channel vc: their credits go back in the LINK fields. -/
def Port.giveBack (x : Port) (vc n : Nat) : Port :=
  { x with rxs := { x.rxs with freed := mapUpd noCount x.rxs.freed vc (· + n) } }
def State.giveBack (s : State) (p vc n : Nat) : State := s.setPort p ((s.port p).giveBack vc n)

/-! ### The port of a packet (R186) -/

/-- The port of a data packet on channel vc: round robin over the UP ports of the bundle that hold a credit; where none holds one, over
those that are UP. -/
def State.dataPort (s : State) (d vc : Nat) : Option Nat :=
  let dir := s.routeDir s.me d
  if dir = 0 then none else
  let ps := (upPorts s).filter (fun p => s.dir p == dir)
  let next := mapGet noCount s.field.rr dir
  let ps := ps.filter (fun p => decide (next ≤ p)) ++ ps.filter (fun p => decide (p < next))
  match ps.find? (fun p => decide (0 < (s.port p).credit vc)) with
  | some p => some p
  | none => ps.head?

/-- The port a data packet toward d is held at: one that is UP, else the first of the bundle, which carries it once it is UP
(R171). -/
def State.holdPort (s : State) (d vc : Nat) : Option Nat :=
  match s.dataPort d vc with
  | some p => some p
  | none => let dir := s.routeDir s.me d
    if dir = 0 then none else (List.range 8).find? (fun p => s.dir p == dir)

/-- Whether a packet toward d that leaves by the present module crosses the dateline of its dimension (R182). -/
def State.crossesDateline (s : State) (d : Nat) : Bool :=
  let f := s.me
  let dir := s.routeDir f d
  match s.topo with
  | 2 => (dir == 1 && f + 1 == s.fieldSize) || (dir == 2 && f == 0)
  | 3 => (dir == 1 && f % s.torusX + 1 == s.torusX) || (dir == 2 && f % s.torusX == 0)
      || (dir == 3 && f / s.torusX + 1 == s.torusY) || (dir == 4 && f / s.torusX == 0)
  | _ => false

/-- Add a packet to those a port holds; a data packet moves the pointer of its direction on (R186). -/
def State.pushTx (s : State) (p : Nat) (t : TxPkt) : State :=
  let s := s.setPort p { s.port p with tx := (s.port p).tx ++ [t] }
  if isProxyOp t.pkt.op then s else { s with field := { s.field with rr := mapSet noCount s.field.rr (s.dir p) (p + 1) } }

/-- Hold a packet of this module at a port for sending on a channel, as flits (R174). -/
def State.enqueue (s : State) (p vc : Nat) (k : Packet) : State :=
  let k := { k with vc := vc }
  s.pushTx p ⟨vc, none, packetFlits k, true, false, s.clock.tick, none, { k with data := [] }⟩

end Sys2Proof.Machine
end

