-- ==== Sys2Proof/Machine/Pick.lean ====
section
/-!
DEFINITION. Innkeeper's choice of the next command (R239, R241, R242, R244): which queue heads are candidates at a command
boundary of a Sheaf or Porter engine, the pick by class and deficit round robin, and the tenant switch.
-/
namespace Sys2Proof.Machine

/-! ### Fields of a descriptor (R93, R95, R96) -/

def Cmd.w (c : Cmd) (n : Nat) : Word := c.words.getD n 0
def Cmd.f (c : Cmd) (n hi lo : Nat) : Nat := fld (c.w n) hi lo
def Cmd.op (c : Cmd) : Nat := c.f 0 7 0
def Cmd.ten (c : Cmd) : Nat := c.f 0 11 8
def Cmd.crit (c : Cmd) : Nat := c.f 0 15 12
def Cmd.recipe (c : Cmd) : Nat := c.f 0 31 24
def Cmd.irq (c : Cmd) : Bool := tbit (c.w 0) 16
def Cmd.cpl (c : Cmd) : Bool := tbit (c.w 0) 17
def Cmd.arrive (c : Cmd) : Bool := tbit (c.w 0) 18 && c.op != 7 && c.op != 8
/-- ARRIVE and WAIT ignore WAIT_START and ARRIVE_DONE (R95). -/
def Cmd.waitStart (c : Cmd) : Bool := tbit (c.w 0) 19 && c.op != 7 && c.op != 8
def Cmd.serial (c : Cmd) : Bool := tbit (c.w 0) 20
/-- The tenant of the command's queue (R236). -/
def Cmd.owner (c : Cmd) : Nat := c.q / 4

/-- Commands that run on no engine: ARRIVE, WAIT, WAYBILL_WAIT, FENCE (R239). An unknown opcode is presented to the queue's
Sheaf engine, which refuses it (R94, R98). -/
def engineless (op : Nat) : Bool := op == 7 || op == 8 || op == 9 || op == 0xB
def sheafClass (op : Nat) : Bool := !engineless op && op != 6

/-- The engine a queue is bound to, its weight (R239, R253). -/
def State.qEngine (s : State) (q : Nat) : Nat := s.rf (qReg q 8) 26 24
def State.qWeight (s : State) (q : Nat) : Nat := max 1 (s.rf (qReg q 8) 23 16)

/-- STOPPED and STALLED of Q_STAT. -/
def State.qStopped (s : State) (q : Nat) : Bool := s.rb (qReg q 0x18) 31

/-- A head may start: its tenant ACTIVE, the queue valid and not stopped, fewer than 4 commands in flight (R239), no FENCE
waiting, WAIT_START satisfied, SERIAL met (R95). -/
def State.headReady (s : State) (q : Nat) : Option Cmd :=
  let x := s.queue q
  match x.fetched with
  | [] => none
  | c :: _ =>
    if s.tnState (q / 4) = 1 ∧ s.rb (qReg q 8) 31 ∧ !s.qStopped q ∧ x.flight.length < 4 ∧ x.fence.isNone
        ∧ x.wait.isNone ∧ (!c.waitStart || x.waitMet) ∧ (!c.serial || x.flight.isEmpty)
    then some c else none

/-- The window mask of engine e (R242): bit 0 is always set. -/
def State.window (s : State) (e : Nat) : Nat := s.rf (rga 0x10 (0x40 + 4 * e)) 3 0 ||| 1

/-- A tree barrier of the engine's last tenant is open: the boundary is not clean (R224). -/
def State.treeOpen (s : State) (e t : Nat) : Bool :=
  (List.range 64).any (fun k =>
    let b := mapGet dflt s.bars (256 + 64 * e + k)
    let cfg := s.rd (rga (engPage e + 5) (0x40 + 4 * k))
    fld cfg 27 24 == t &&
      (if fld cfg 30 28 = 2 then b.filled != 0 || b.drained != 0 else b.open_ != 0 || b.carry != 0))

def State.clean (s : State) (e : Nat) : Bool :=
  match (s.engine e).last with
  | none => true
  | some t => !s.treeOpen e t

/-- Whether the head of queue q is a candidate of engine e (R241). An invalid class is presented to be refused. -/
def State.isCand (s : State) (e q : Nat) : Option Cmd :=
  match s.headReady q with
  | none => none
  | some c =>
    let eng := s.engine e
    if sheafClass c.op ∧ s.qEngine q = e ∧ (c.crit ≥ 4 ∨ (s.window e >>> c.crit) % 2 = 1)
        ∧ !(eng.clearing.contains (q / 4) || eng.clearing.contains 8)
        ∧ (s.clean e ∨ eng.last = some (q / 4))
    then some c else none

/-- Whether the head of queue q is a COPY for Porter engine p (R99, R239). -/
def State.isCopyCand (s : State) (p q : Nat) : Option Cmd :=
  match s.headReady q with
  | none => none
  | some c => if c.op = 6 ∧ c.f 7 19 16 = p then some c else none

/-- Rounds of refill until candidate q has a positive deficit. -/
def State.refillRounds (s : State) (q : Nat) : Nat :=
  let d := (s.queue q).deficit
  if 0 < d then 0 else (-d).toNat / (s.qWeight q * 1000) + 1

def listMax (l : List Nat) : Nat := l.foldl max 0

def listMin : List Nat → Nat
  | [] => 0
  | [a] => a
  | a :: r => min a (listMin r)

/-- Refill the candidates until one is positive (the endless loop of R241, in closed form). -/
def State.refill (s : State) (qs : List Nat) : State :=
  let k := listMin (qs.map s.refillRounds)
  if k = 0 then s else
  qs.foldl (fun s q =>
    let x := s.queue q
    s.setQueue q { x with deficit := x.deficit + ((k * s.qWeight q * 1000 : Nat) : Int) }) s

/-- The first of the queues in round-robin order after `last` with a positive deficit. -/
def State.rrPick (s : State) (last : Nat) (qs : List Nat) : Option Nat :=
  (List.range 32).findSome? (fun i =>
    let q := (last + i + 1) % 32
    if qs.contains q && decide (0 < (s.queue q).deficit) then some q else none)

/-- The pick of R241 among candidates (queue, class): refill, choose. `rr` holds the last served queue by class. -/
def State.choose (s : State) (rr : List (Nat × Nat)) (cands : List (Nat × Nat)) : Option (Nat × Nat × State) :=
  match cands with
  | [] => none
  | _ =>
    let c := listMin (cands.map (·.2))
    let qs := (cands.filter (fun x => x.2 == c)).map (·.1)
    let s := s.refill qs
    match s.rrPick (mapGet (fun _ => 0) rr c) qs with
    | none => none
    | some q => some (q, c, s)

/-- Take the head of a queue for dispatch: it is in flight from now on (R237, R239). -/
def State.takeHead (s : State) (q : Nat) : State :=
  let x := s.queue q
  match x.fetched with
  | [] => s
  | c :: r => s.setQueue q { x with fetched := r, flight := x.flight ++ [c.seq], waitMet := false }

/-- A barrier with its state cleared: counts, bitmaps and GEN are zero, LAST_STATUS stays (R226). -/
def clearedBar (b : Barrier) : Barrier := { last := b.last }

/-- Whether a registered wait is one of Tally (R226): on a barrier. -/
def WaitOn.onBar : WaitOn → Bool
  | .gen _ _ => true
  | .pipe _ _ _ _ => true
  | _ => false

/-- Whether it is on a tree barrier of engine e. -/
def WaitOn.onTree (w : WaitOn) (e : Nat) : Bool :=
  let own (b : BarId) : Bool := match b with | .tree e' _ => e'.val == e | _ => false
  match w with
  | .gen b _ => own b
  | .pipe b _ _ _ => own b
  | _ => false

/-- Drop the wait that queue q has registered on engine e: that of a queue bound to the engine, or on one of its tree
barriers. The queue's head registers it again when it is evaluated (R226). -/
def State.dropWaitOn (s : State) (e q : Nat) : State :=
  match (s.queue q).wait with
  | some w =>
    if w.on.onTree e || (s.qEngine q == e && w.on.onBar) then (s.setQueue q { s.queue q with wait := none }).wb (qReg q 0x18) 30 false else s
  | none => s

/-- Reset the state of the outgoing tenant's tree barriers on an engine, and drop its waits there (R226, R244). -/
def State.clearTree (s : State) (e t : Nat) : State :=
  let bars := (List.range 64).foldl (fun m k =>
    if s.rf (rga (engPage e + 5) (0x40 + 4 * k)) 27 24 = t then mapUpd dflt m (256 + 64 * e + k) clearedBar else m) s.bars
  let s := { s with bars := bars }
  (List.range 4).foldl (fun s i => s.dropWaitOn e (4 * t + i)) s

/-- The tenant switch of engine e to tenant t (R244): 2 µs charged to the incoming tenant, SWITCH_n counts. -/
def State.switchTo (s : State) (e t : Nat) : State :=
  let x := s.engine e
  match x.last with
  | some o =>
    if o = t then s else
    let s := s.clearTree e o
    let s := s.wr (rga 0x10 (0x60 + 4 * e)) (s.rd (rga 0x10 (0x60 + 4 * e)) + 1)
    let s := s.chargeTime t 2000
    s.setEngine e { s.engine e with last := some t }
  | none => s.setEngine e { x with last := some t }

/-- A queue that is not a candidate at a boundary keeps no positive deficit (R241). -/
def State.cutDeficit (s : State) (q : Nat) : State :=
  let y := s.queue q
  if 0 < y.deficit then s.setQueue q { y with deficit := 0 } else s

/-- The command boundary of engine e (R241): a bound queue that is not a candidate loses its positive deficit; an idle engine
picks, switches tenant if the pick names another, and holds the picked command for its checks. -/
def State.boundary (s : State) (e : Nat) : State :=
  let x := s.engine e
  if x.sel.isSome ∨ x.run.isSome then s else
  let cands := (List.range 32).filterMap (fun q => (s.isCand e q).map (fun c => (q, c.crit)))
  let s := ((List.range 32).filter (fun q => s.qEngine q == e && !(cands.any (fun z => z.1 == q)))).foldl (fun s q => s.cutDeficit q) s
  match s.choose x.rr cands with
  | none => s
  | some (q, c, s1) =>
    let cmd := (s1.queue q).fetched.head?
    let s2 := (s1.takeHead q).switchTo e (q / 4)
    let y := s2.engine e
    s2.setEngine e { y with sel := cmd, rr := mapSet (fun _ => 0) y.rr c q }

/-- Whether the head of queue q is a COPY that names Porter engine p, ready or not. -/
def State.namesPorter (s : State) (p q : Nat) : Bool :=
  match (s.queue q).fetched with
  | [] => false
  | c :: _ => c.op == 6 && c.f 7 19 16 == p

/-- Porter engines choose among COPY commands by the same rule, without windows (R241). A Porter engine has no bound queues: those
whose head names it and is no candidate lose their positive deficit (DEDUCED, log 51). -/
def State.copyBoundary (s : State) (p : Nat) : State :=
  let x := s.porter p
  if x.sel.isSome ∨ x.run.isSome then s else
  let cands := (List.range 32).filterMap (fun q => (s.isCopyCand p q).map (fun c => (q, c.crit)))
  let s := ((List.range 32).filter (fun q => s.namesPorter p q && !(cands.any (fun z => z.1 == q)))).foldl (fun s q => s.cutDeficit q) s
  match s.choose x.rr cands with
  | none => s
  | some (q, c, s1) =>
    let cmd := (s1.queue q).fetched.head?
    let s2 := s1.takeHead q
    let y := s2.porter p
    s2.setPorter p { y with sel := cmd, rr := mapSet (fun _ => 0) y.rr c q }

/-- Every idle engine looks for its next command. -/
def State.kick (s : State) : State :=
  let s := (List.range 6).foldl (fun s e => s.boundary e) s
  (List.range 16).foldl (fun s p => s.copyBoundary p) s

end Sys2Proof.Machine
end

