-- ==== Sys2Proof/Machine/Abort.lean ====
section
/-!
DEFINITION. Job faults and the abort of a job (R201 to R204), completion records (R97), the release of a tenant (R406) and a
conflict of the region table (R405).
-/
namespace Sys2Proof.Machine

/-! ### Completion records -/

/-- The page of a tenant's INNKEEPER registers takes the stop and completion bits (R253). -/
def State.raiseQueueDone (s : State) (q : Nat) : State := s.raise (tnPage (q / 4)) (q % 4)

/-- The sixteen bytes of a completion record (R97). -/
def recordBytes (s : State) (c : Cmd) (status astat eng : Nat) : List Byte :=
  natLe 4 c.seq.toNat ++ natLe 2 status ++ natLe 1 astat ++ natLe 1 eng ++ natLe 8 s.nowUs

/-- Write the completion record of a command that has CPL set, if its address lies in the tenant's regions (R97, R405), and
raise its queue's completion interrupt when IRQ is set (R95). A record whose address lies outside the tenant's regions, or in a
unit that two entries match, is not written and raises no fault: the spec names none for it (DESIGN CHOICE, log 50). -/
def State.writeRecord (s : State) (c : Cmd) (status astat eng : Nat) : State :=
  let a := (c.w 1).toNat + 2 ^ 32 * (c.w 2).toNat
  let s := if c.cpl ∧ (s.regCheck c.owner true a 16).isOk then (s.hbmWrite a (recordBytes s c status astat eng)).chargeHbm c.owner 16 else s
  if c.irq then s.raiseQueueDone c.q else s

/-- Retire a sequence number of queue q: Q_DONE is the lowest one not completed (R237): of a command in flight, else of the FENCE
that waits, else of the next one fetched. -/
def State.retire (s : State) (q : Nat) (seq : Word) : State :=
  let x := s.queue q
  let fl := x.flight.filter (· != seq)
  let s := s.setQueue q { x with flight := fl }
  let d := match fl, x.fence, x.fetched with
    | a :: _, _, _ => a
    | [], some c, _ => c.seq
    | [], none, c :: _ => c.seq
    | [], none, [] => s.rd (qReg q 0x10)
  s.wr (qReg q 0x14) d

/-! ### Abort -/

def aEpoch : Nat := rga 0x300 0x480
def aAbtInfo : Nat := rga 0x300 0x484
def aAbtDone : Nat := rga 0x300 0x488

/-- A tenant's job epoch (R201, R203). -/
def State.epoch (s : State) (t : Nat) : Nat := s.rf aEpoch (4 * t + 3) (4 * t)

/-- Stop queue q with a code: counters to Q_TAIL, STOPPED, STOP_CODE, nothing fetched or waiting (R251). -/
def State.stopQueue (s : State) (code q : Nat) : State :=
  let tail := s.rd (qReg q 0xC)
  let s := (s.wr (qReg q 0x10) tail).wr (qReg q 0x14) tail
  let s := ((s.wb (qReg q 0x18) 31 true).wb (qReg q 0x18) 30 false).pf (qReg q 0x18) 15 0 code
  s.setQueue q default

/-- Stop a tenant's commands on every engine and Porter engine and zero the round-robin pointers (R202, R241). -/
def State.stopRuns (s : State) (t : Nat) : State :=
  let mine (o : Option Cmd) : Bool := match o with | some c => c.owner == t | none => false
  let mineR (o : Option Run) : Bool := match o with | some r => r.cmd.owner == t | none => false
  let s := (List.range 6).foldl (fun s e =>
    let x := s.engine e
    s.setEngine e { x with sel := if mine x.sel then none else x.sel, run := if mineR x.run then none else x.run, rr := [] }) s
  (List.range 16).foldl (fun s p =>
    let x := s.porter p
    if mine x.sel || mineR x.run then s.setPorter p { x with sel := none, run := none, index := 0, lastRemote := none, rr := [] }
    else s.setPorter p { x with rr := [] }) s

/-- A packet that a port holds is given up: the receive buffer its flits stood in is free, and flits of it still to come are dropped. -/
def State.cutSource (s : State) (t : TxPkt) : State :=
  match t.src with
  | none => s
  | some (p, vc) =>
    let x := (s.port p).giveBack vc t.flits.length
    s.setPort p (if t.whole then x else
      { x with rx := mapUpd (fun _ => []) x.rx vc (fun l => l.map (fun r => if r.fate = .wait then r else { r with fate := .drop })) })

/-- A flit of the tenant with another epoch; proxy packets, which are of one flit, belong to no tenant. -/
def staleFlit (t epoch : Nat) (f : Flit) : Bool :=
  f.tenant == t && f.epoch != epoch && !(f.first && (match packetOf [f] with | some k => isProxyOp k.op | none => false))

/-- What a purge leaves of a packet being received: nothing, or, where flits are still to come, a packet that drops them. -/
def RxPkt.purged (r : RxPkt) (stale : Flit → Bool) : Option RxPkt :=
  if r.flits.any stale then (if r.whole then none else some { r with flits := [], fate := .drop }) else some r

/-- Flits of other modules that stand in a channel's buffer under credit and are purged. -/
def purgedFlits (me : Nat) (l : List RxPkt) (stale : Flit → Bool) : Nat :=
  (l.map (fun r => if r.counted && r.flits.any stale && r.flits.any (fun f => f.dest != me) then r.flits.length else 0)).sum

/-- Purge one port (R202): of the replay buffer the flits turn into fillers, which keep its numbers in sequence. -/
def Port.purge (x : Port) (me : Nat) (stale : Flit → Bool) (dead : Packet → Bool) : Port :=
  let back (vc : Nat) : Nat := purgedFlits me (mapGet (fun _ => []) x.rx vc) stale + (x.rxs.held.filter (fun f => stale f && f.vc == vc)).length
  let y := { x with tx := x.tx.filter (fun k => !dead k.pkt), rx := x.rx.map (fun (v : Nat × List RxPkt) => (v.1, v.2.filterMap (fun (r : RxPkt) => r.purged stale))),
                    txs := { x.txs with replay := x.txs.replay.map (fun f => if stale f then f.filler else f) },
                    rxs := { x.rxs with held := x.rxs.held.filter (fun f => !stale f) } }
  (List.range 4).foldl (fun y vc => y.giveBack vc (back vc)) { y with rx := y.rx.filter (fun (v : Nat × List RxPkt) => !v.2.isEmpty) }

/-- Purge a tenant's packets of other epochs from the port and replay buffers (R202), and forget its requests. -/
def State.purge (s : State) (t epoch : Nat) : State :=
  let dead (k : Packet) : Bool := k.tenant == t && !isProxyOp k.op && k.epoch != epoch
  let s := (List.range 8).foldl (fun s p =>
    let x := s.port p
    (x.tx.filter (fun k => dead k.pkt)).foldl State.cutSource (s.setPort p (x.purge s.me (staleFlit t epoch) dead))) s
  { s with field := { s.field with reqs := s.field.reqs.filter (fun r => r.tenant != t), arrs := s.field.arrs.filter (fun r => r.tenant != t) } }

/-- Clear a tenant's Tally state, configuration kept (R226): barriers it owns, arrivals on their way. -/
def State.clearTally (s : State) (t : Nat) : State :=
  let owner (k : Nat) : Nat :=
    if k < 256 then s.rf (rga 0x21 (0x40 + 4 * k)) 27 24
    else s.rf (rga (engPage ((k - 256) / 64) + 5) (0x40 + 4 * ((k - 256) % 64))) 27 24
  { s with bars := s.bars.foldl (fun m c => if owner c.1 = t then mapUpd dflt m c.1 clearedBar else m) s.bars, arrQ := s.arrQ.filter (fun a => a.tenant != some t) }

/-- Zero a tenant's partitions and drop its translations (R90, R160): the zeroing is in progress until SPAD_CLEAR_DONE. -/
def State.zeroParts (s : State) (t : Nat) : State :=
  (List.range 6).foldl (fun s e =>
    let x := s.engine e
    let x := { x with tlb := x.tlb.filter (fun i => i.tenant != t) }
    match s.partition e t with
    | none => s.setEngine e x
    | some (lo, hi) =>
      (s.setEngine e { x with clearing := if x.clearing.contains t then x.clearing else x.clearing ++ [t] }).spZero e lo hi) s

/-- Whether some engine still zeroes the tenant's partition. -/
def State.zeroing (s : State) (t : Nat) : Bool := (List.range 6).any (fun e => (s.engine e).clearing.contains t)

/-- An ABORT_DONE of module src counts at the collector, which raises ABORT_COMPLETE once every module it can reach has
reported (R204). -/
def State.countDone (s : State) (src : Nat) : State :=
  let m := (s.rd aAbtDone).toNat + 2 ^ 32 * (s.rd (aAbtDone + 4)).toNat
  let m := m ||| 2 ^ src
  let s := s.wr64 aAbtDone m
  let need := (List.range s.fieldSize).filter (fun d => d == s.me || (s.firstPort d).isSome)
  if need.all (fun d => (m >>> d) % 2 == 1) then s.raise 0x300 0 else s

/-- Send ABORT_DONE to the collector (R202 step 5). -/
def State.reportDone (s : State) (t : Nat) : State :=
  if s.collector = s.me then s.countDone s.me
  else match s.firstPort s.collector with
    | some p => s.sendSb (.abortDone (Fin.ofNat 8 t) (Fin.ofNat 64 s.me)) p
    | none => s

/-- The regions a tenant owns. -/
def State.ownRegions (s : State) (t : Nat) : List Nat :=
  (List.range 128).filter (fun e => s.rb (regCfg e) 31 && s.rf (regCfg e) 23 20 == t)

/-- The queue of a released tenant stops: its wait is dropped and no longer STALLED (R234, R253). -/
def State.haltQueue (s : State) (q : Nat) : State :=
  (s.setQueue q { s.queue q with wait := none }).wb (qReg q 0x18) 30 false

/-- A tenant's picked commands that no unit has started are not dispatched (R234). -/
def State.dropPicked (s : State) (t : Nat) : State :=
  let keep (o : Option Cmd) : Option Cmd := match o with | some c => if c.owner = t then none else some c | none => none
  let s := (List.range 6).foldl (fun s e => s.setEngine e { s.engine e with sel := keep (s.engine e).sel }) s
  (List.range 16).foldl (fun s p => s.setPorter p { s.porter p with sel := keep (s.porter p).sel }) s

/-- RELEASE of a tenant (R406): dispatch stops, the slot's release count rises with the new key, its regions wait for the
scrub, accounting freezes. -/
def State.startRelease (s : State) (t : Nat) : State :=
  let s := s.setTnState t 4
  let s := s.wr (rga 9 (0x80 + 4 * t)) (s.rd (rga 9 (0x80 + 4 * t)) + 1)
  let s := (s.ownRegions t).foldl (fun s e => s.wb (regStat e) 0 true) s
  let s := (s.pf (rga 9 0xC0) 31 28 t).pf (rga 9 0xC0) 6 0 0
  let s := (List.range 4).foldl (fun s i => s.haltQueue (4 * t + i)) (s.dropPicked t)
  s.setTenant t { s.tenant t with scrubbing := true, flr := false }

/-- The end of the steps of R202: the tenant is STOPPED, ABORT_DONE goes out, a held Function Level Reset runs (R473). -/
def State.finishAbort (s : State) (t : Nat) : State :=
  let s := (s.setTnState t 3).reportDone t
  if (s.tenant t).flr then s.startRelease t else s

/-- The steps of R202 on this module for an abort of tenant t with the new epoch, its origin and code. -/
def State.localAbort (s : State) (t epoch origin code : Nat) : State :=
  let s := s.setTnState t 2
  let s := (List.range 4).foldl (fun s i => s.stopQueue code (4 * t + i)) s
  let s := s.stopRuns t
  let s := s.raise (tnPage t) 4
  let s := s.pf aEpoch (4 * t + 3) (4 * t) epoch
  let s := s.purge t epoch
  let s := s.wr aAbtInfo (w32 (t * 2 ^ 28 + origin * 2 ^ 22 + code))
  let s := s.wr64 aAbtDone 0
  let s := s.raise 0x300 1
  let s := (s.zeroParts t).clearTally t
  let s := if s.zeroing t then s else s.finishAbort t
  s.kick

/-- Abort the job of an ACTIVE tenant (R201): the epoch rises, ABORT floods, the local steps run. A tenant already aborted
or released takes no new abort (R202). -/
def State.abortJob (s : State) (t code : Nat) : State :=
  if s.tnState t = 1 then
    let e := (s.epoch t + 1) % 16
    let s := s.flood (.abort (Fin.ofNat 8 t) (BitVec.ofNat 4 e) (Fin.ofNat 64 s.me) code) 8
    s.localAbort t e s.me code
  else s

/-- A fault of a job (R201, R456): the page records it, the log takes it, the job is aborted. -/
def State.jobFault (s : State) (page code info t : Nat) : State :=
  ((s.recordFault page code info).logEvent page code 0 info t).abortJob t code

/-- Abort the job of every non-FREE tenant (R405, R420, R471, R473). -/
def State.abortAll (s : State) (code : Nat) : State :=
  (List.range 8).foldl (fun s t => s.abortJob t code) s

/-- A data unit matched by two entries (R405): REGION_CONFLICT is recorded and logged, every job is aborted, and the module
requires a diagnostic run. -/
def State.regionConflict (s : State) (t entry : Nat) : State :=
  let info := entry * 2 ^ 16 + t
  let s := s.recordFault 9 0x0D04 info
  let s := (s.pf (rga 9 0x44) 22 16 entry).wb (rga 9 0x44) 0 true
  let s := (s.raise 9 0).logEvent 9 0x0D04 1 info t
  (s.abortAll 0x0D04).wb (rga 8 0x44) 30 true

/-- A command that is refused or faults: its record is written with the code (R97), then the job takes the fault. -/
def State.failCmd (s : State) (page code info : Nat) (c : Cmd) (eng astat : Nat) : State :=
  (s.writeRecord c code astat eng).jobFault page code info c.owner

/-- The low 16 bits of a command's sequence number, as FAULT_INFO names it. -/
def Cmd.seqLow (c : Cmd) : Nat := c.seq.toNat % 65536

end Sys2Proof.Machine
end

