-- ==== Sys2Proof/Machine/Tally.lean ====
section
/-!
DEFINITION. Tally (07_synchronisation.md): barrier configuration, waits and their registration, releases, pipes, arrivals.
-/
namespace Sys2Proof.Machine

/-! ### Configuration (R231, R232) -/

def barCfgReg : BarId → Nat
  | .central n => rga 0x21 (0x40 + 4 * n.val)
  | .tree e k => rga (engPage e.val + 5) (0x40 + 4 * k.val)

def barPartReg : BarId → Nat
  | .central n => rga 0x21 (0x440 + 4 * n.val)
  | .tree e k => rga (engPage e.val + 5) (0x140 + 4 * k.val)

def State.bCfg (s : State) (b : BarId) (hi lo : Nat) : Nat := s.rf (barCfgReg b) hi lo
def State.bValid (s : State) (b : BarId) : Bool := s.bCfg b 31 31 == 1
def State.bMode (s : State) (b : BarId) : Nat := s.bCfg b 30 28
def State.bOwner (s : State) (b : BarId) : Nat := s.bCfg b 27 24
def State.bExpect (s : State) (b : BarId) : Nat := s.bCfg b 21 16 + 1
def State.bPbase (s : State) (b : BarId) : Nat := s.rf (barPartReg b) 11 0
def State.bEpochLen (s : State) (b : BarId) : Nat := s.rf (barPartReg b) 31 16

/-- Tier, number and page of a barrier (R228). -/
def barTier : BarId → Nat | .central _ => 1 | .tree _ _ => 0
def barNum : BarId → Nat | .central n => n.val | .tree _ k => k.val
def barPage : BarId → Nat | .central _ => 0x20 | .tree e _ => engPage e.val

/-- FAULT_INFO of the Tally codes (R228). -/
def tallyInfo (b : BarId) (part seq : Nat) : Nat :=
  barNum b * 2 ^ 24 + part % 4096 * 2 ^ 12 + barTier b * 2 ^ 10 + seq % 1024

/-- The barrier named by word 3 of a command (R96): tier 0 on the engine of its queue. -/
def State.namedBar (s : State) (c : Cmd) : Option BarId :=
  let n := c.f 3 31 24
  match c.f 3 11 10 with
  | 0 => if n < 64 then some (.tree (Fin.ofNat 6 (s.qEngine c.q)) (Fin.ofNat 64 n)) else none
  | 1 => some (.central (Fin.ofNat 256 n))
  | _ => none

def Cmd.part (c : Cmd) : Nat := c.f 3 23 12

/-! ### Checks 1 to 4 of R98 -/

/-- MAX_CRIT of a tenant (R28). -/
def State.maxCrit (s : State) (t : Nat) : Nat := s.rf (rga (tnPage t) 0x48) 1 0

/-- Whether FLAGS, word 3 and the completion address are valid (R95, R96, R211). R211 refuses ARRIVE_DONE with tier 2 on any
opcode, so also on a WAIT, which otherwise ignores the flag (DEDUCED, log 28). -/
def flagsOk (c : Cmd) : Bool :=
  let w3 := (c.w 3).toNat
  let named := c.op == 7 || c.op == 8
  let used := named || tbit (c.w 0) 19 || tbit (c.w 0) 18
  c.f 0 23 21 == 0 && (!c.cpl || c.f 1 3 0 == 0) &&
  (if used then
    c.f 3 9 0 == 0 && c.f 3 11 10 != 3 && !(c.f 3 11 10 == 0 && decide (63 < c.f 3 31 24)) && !(c.f 3 11 10 == 2 && (c.op != 8 || tbit (c.w 0) 18))
   else w3 == 0)

/-- The page on which the checks of a command report: Innkeeper's for the class checks, else page 0 of its queue's engine. -/
def State.cmdPage (s : State) (c : Cmd) : Nat := engPage (s.qEngine c.q % 6)

/-- FAULT_INFO of Innkeeper's faults (R251). -/
def inkInfo (c : Cmd) : Nat := (c.q % 4) * 2 ^ 16 + c.seqLow

/-- The first of checks 1 to 4 that fails: page, code, FAULT_INFO (R98). -/
def State.baseCheck (s : State) (c : Cmd) : Option (Nat × Nat × Nat) :=
  if c.op = 0 ∨ 0xB < c.op then some (s.cmdPage c, 0x0201, c.seqLow)
  else if c.ten ≠ c.owner then some (s.cmdPage c, 0x0202, c.seqLow)
  else if 4 ≤ c.crit then some (tnPage c.owner, 0x0801, inkInfo c)
  else if c.crit < s.maxCrit c.owner then some (tnPage c.owner, 0x0802, inkInfo c)
  else if !flagsOk c then some (s.cmdPage c, 0x0207, c.seqLow)
  else none

/-! ### Completing waits -/

/-- The granules of a partition that lie in no resident region of the tenant, filled with 0xA5 (R89). -/
def State.deadFill (s : State) (e t : Nat) : State :=
  match granulesOf (s.rd (partReg e t)) with
  | none => s
  | some (b, n) =>
    (List.range n).foldl (fun s i =>
      let g := b + i
      let resident := (List.range 4).any (fun k => match granulesOf (s.rd (resReg e t k)) with
        | some (b', n') => decide (b' ≤ g ∧ g < b' + n')
        | none => false)
      if resident then s else s.spWrite e (g * granule) (List.replicate granule 0xA5)) s

/-- After every command of a tenant, each engine with DEAD_FILL set fills what the tenant does not hold resident there (R89): after a
command of any class, on whichever unit it ran (DEDUCED, log 50). -/
def State.deadFills (s : State) (t : Nat) : State :=
  (List.range 6).foldl (fun s e => if s.rb (rga (engPage e) 0x40) 2 then s.deadFill e t else s) s

/-- The head of queue q, a WAIT, completes: its record, Q_DONE, no stall (R211, R97). -/
def State.endWait (s : State) (q : Nat) (c : Cmd) : State :=
  let s := s.writeRecord c 0 0 7
  let x := s.queue q
  let s := s.setQueue q { x with wait := none, fetched := x.fetched.drop 1, waitMet := false }
  ((s.wb (qReg q 0x18) 30 false).retire q c.seq).deadFills c.owner

/-- The wait of queue q is satisfied: a WAIT completes, a WAIT_START lets its command start (R211, R216). -/
def State.satisfy (s : State) (q : Nat) : State :=
  let x := s.queue q
  match x.wait with
  | none => s
  | some w =>
    if w.start then (s.setQueue q { x with wait := none, waitMet := true }).wb (qReg q 0x18) 30 false
    else s.endWait q w.cmd

/-- Register a wait of queue q and stall it (R218, R220). -/
def State.register (s : State) (q : Nat) (w : WaitReg) : State :=
  (s.setQueue q { s.queue q with wait := some w }).wb (qReg q 0x18) 30 true

/-- A Tally fault against a tenant's job (R228). -/
def State.tallyFault (s : State) (b : BarId) (code part seq t : Nat) : State :=
  s.jobFault (barPage b) code (tallyInfo b part seq) t

/-- A command refused by Tally: its record with the code, then the fault of its job. -/
def State.tallyRefuse (s : State) (b : BarId) (code : Nat) (c : Cmd) : State :=
  (s.writeRecord c code 0 7).tallyFault b code c.part c.seq.toNat c.owner

/-- The verdict on a pipe wait (R222). -/
inductive Verdict where
  | now | later | invalid
deriving DecidableEq, Repr

def State.pipeVerdict (s : State) (b : BarId) (epoch item : Nat) (producer : Bool) : Verdict :=
  let x := s.bar b
  if s.bEpochLen b ≤ item then .invalid
  else if epoch = x.gen % 16 then
    (if producer then (if item < x.drained + s.bExpect b then .now else .later)
     else (if item < x.filled then .now else .later))
  else if epoch = (x.gen + 1) % 16 then .later
  else if epoch = (x.gen + 15) % 16 then .now
  else .invalid

/-- The verdict on a wait for generation g (R215). -/
def State.genVerdict (s : State) (b : BarId) (g : Nat) : Verdict :=
  let d := toS 16 (g + 65536 - (s.bar b).gen % 65536)
  if d < 0 then .now else if d ≤ 1 then .later else .invalid

/-- WAIT_START at the head of queue q (R211, R216): it waits for the generation its participant's latest arrival joined: that of
the carry bitmap if its bit is set there, since a carried arrival is the later one. A command that checks 1 to 4 of R98 refuse
waits for nothing: its unit refuses it. An earlier arrival of the participant that is still on its way to
the barrier is awaited (log 28). -/
def State.evalHead (s : State) (q : Nat) : State :=
  let x := s.queue q
  match x.fetched with
  | [] => s
  | c :: _ =>
    if !c.waitStart || x.waitMet || x.wait.isSome || s.tnState (q / 4) != 1 || s.qStopped q then s else
    let met := s.setQueue q { x with waitMet := true }
    if (s.baseCheck c).isSome then met else
    match s.namedBar c with
    | none => met
    | some b =>
      if s.bOwner b ≠ q / 4 then s.tallyRefuse b 0x0705 c
      else if !s.bValid b || s.bMode b == 2 || c.part == 0 then s.tallyRefuse b 0x0704 c
      else if s.arrQ.any (fun a => a.bar == b && a.part == c.part && a.tenant == some (q / 4)) then s
      else
        let y := s.bar b
        let j := c.part - s.bPbase b
        let inRange := decide (s.bPbase b ≤ c.part) && decide (j < s.bExpect b)
        if inRange && (y.carry >>> j) % 2 == 1 then s.register q ⟨.gen b ((y.gen + 1) % 65536), c, true, s.bCfg b 15 0⟩
        else if inRange && (y.open_ >>> j) % 2 == 1 then s.register q ⟨.gen b y.gen, c, true, s.bCfg b 15 0⟩
        else met

/-- Evaluate every queue head, then let idle engines pick. -/
def State.advance (s : State) : State :=
  ((List.range 32).foldl (fun s q => s.evalHead q) s).kick

/-! ### Releases -/

/-- Whether a registered wait is on generation g of barrier b. -/
def waitsGen (b : BarId) (g : Nat) (w : WaitReg) : Bool :=
  match w.on with
  | .gen b' g' => b' == b && g' == g
  | _ => false

def waitsPipe (b : BarId) (w : WaitReg) : Bool :=
  match w.on with
  | .pipe b' _ _ _ => b' == b
  | _ => false

def queuesWaiting (s : State) (p : WaitReg → Bool) : List Nat :=
  (List.range 32).filter (fun q => match (s.queue q).wait with | some w => p w | none => false)

/-- The open generation gives way to the next (R212, R214): carried arrivals become its own. -/
def nextGen (expect status : Nat) (x : Barrier) : Barrier :=
  { x with gen := (x.gen + 1) % 65536, open_ := x.carry, carry := 0, last := status, units := x.cunits, cunits := [],
           due := popcount 64 x.carry == expect }

/-- A datapath of Drover. -/
def State.dp (s : State) (d : Nat) : Datapath := mapGet dflt s.drv.dps d
def State.setDp (s : State) (d : Nat) (x : Datapath) : State := { s with drv := { s.drv with dps := mapSet dflt s.drv.dps d x } }

/-- A Thresher pipeline. -/
def State.th (s : State) (c : Nat) : Thresher := mapGet dflt s.perc.ths c
def State.setTh (s : State) (c : Nat) (x : Thresher) : State := { s with perc := { s.perc with ths := mapSet dflt s.perc.ths c x } }

/-- Each release of the central barrier named by a pipeline's ROI_TB commits its spare ROI buffer while it runs (R339). -/
def State.roiRelease (s : State) (n : Nat) : State :=
  (List.range 16).foldl (fun s c =>
    let r := s.rd (rga (0x500 + c) 0xB8)
    if s.rb (rga (0x500 + c) 0x5C) 0 && tbit r 31 && fld r 23 16 == n then s.setTh c { s.th c with roiDue := (s.th c).roiDue + 1 } else s) s

/-- Each release of the central barrier named by a mailbox commits its next buffer: the fetch begins (R295). -/
def State.mailboxRelease (s : State) (b : BarId) : State :=
  match b with
  | .tree _ _ => s
  | .central n =>
    (List.range 4).foldl (fun (s : State) d =>
      let r := s.rd (rga (0x410 + d) 0x80)
      if tbit r 31 && fld r 23 16 == n.val then s.setDp d { s.dp d with fetches := (s.dp d).fetches + 1 } else s) (s.roiRelease n.val)

/-- Release of the open generation with status OK (R212): its waiters complete. -/
def State.releaseOk (s : State) (b : BarId) : State :=
  let x := s.bar b
  let s := s.mailboxRelease b
  let s := s.setBar b (nextGen (s.bExpect b) 0 x)
  (queuesWaiting s (waitsGen b x.gen)).foldl (fun s q => s.satisfy q) s

/-- The fault code of a release status (R217, R228). -/
def statusCode : Nat → Nat
  | 1 => 0x0701
  | 2 => 0x0702
  | 3 => 0x0706
  | _ => 0x0703

/-- Waits that a bad release ends: each completes with the fault code (R217). -/
def State.failWaits (s : State) (code : Nat) (p : WaitReg → Bool) : State :=
  (queuesWaiting s p).foldl (fun s q =>
    match (s.queue q).wait with
    | some w => s.writeRecord w.cmd code 0 7
    | none => s) s

/-- Release of the open generation with a status other than OK: its waits fail (R217). -/
def State.endGen (s : State) (b : BarId) (status : Nat) : State :=
  let x := s.bar b
  let s := s.mailboxRelease b
  let s := s.setBar b (nextGen (s.bExpect b) status x)
  s.failWaits (statusCode status) (waitsGen b x.gen)

/-- Such a release with its fault, which the owner's job takes (R217). -/
def State.releaseBad (s : State) (b : BarId) (status part seq : Nat) : State :=
  (s.endGen b status).tallyFault b (statusCode status) part seq (s.bOwner b)

/-- A pipe ends its waits with a status, its counters left as they were (R223, R225). -/
def State.endPipe (s : State) (b : BarId) (status : Nat) : State :=
  (s.setBar b { s.bar b with last := status }).failWaits (statusCode status) (waitsPipe b)

def State.pipeBad (s : State) (b : BarId) (status part seq : Nat) : State :=
  (s.endPipe b status).tallyFault b (statusCode status) part seq (s.bOwner b)

/-- Evaluate the waits registered on a pipe (R222). -/
def State.evalPipe (s : State) (b : BarId) : State :=
  (queuesWaiting s (waitsPipe b)).foldl (fun s q =>
    match (s.queue q).wait with
    | some ⟨.pipe b' e i p, _, _, _⟩ => if s.pipeVerdict b' e i p = .now then s.satisfy q else s
    | _ => s) s

/-! ### Arrivals -/

/-- What an arrival does at its barrier, before its effect is carried out (R212, R213, R221). -/
inductive ArrKind where
  | denied | invalid | drift | dup
  | count (j : Nat) | carry (j : Nat)
  | filled | drained
deriving DecidableEq, Repr

/-- Judge an arrival (R209, R211, R212, R213, R221). -/
def State.judge (s : State) (a : Arrival) : ArrKind :=
  let b := a.bar
  let x := s.bar b
  let pb := s.bPbase b
  if a.tenant ≠ none ∧ a.tenant ≠ some (s.bOwner b) then .denied
  else if !s.bValid b || a.part == 0 then .invalid
  else if s.bMode b = 2 then
    match a.pipe with
    | none => .invalid
    | some (e, i) =>
      if s.bEpochLen b ≤ i then .invalid
      else if a.part = pb then (if e = x.gen % 16 ∧ i = x.filled then .filled else .drift)
      else if a.part = pb + 1 then (if e = x.gen % 16 ∧ i = x.drained then .drained else .drift)
      else .invalid
  else if a.part < pb ∨ pb + s.bExpect b ≤ a.part then .invalid
  else
    let j := a.part - pb
    if (x.open_ >>> j) % 2 = 0 then .count j
    else if s.bMode b = 1 ∧ (x.carry >>> j) % 2 = 0 then .carry j
    else .dup

/-- Both pipe counters at N realign the pipe in one step (R223). -/
def realign (n : Nat) (x : Barrier) : Barrier :=
  if x.filled = n ∧ x.drained = n then { x with filled := 0, drained := 0, gen := (x.gen + 1) % 65536, units := [] } else x

/-- Carry out an arrival (R212 to R214, R217, R221, R223). -/
def State.arrive (s : State) (a : Arrival) : State :=
  let b := a.bar
  let x := s.bar b
  match s.judge a with
  | .denied => s.tallyFault b 0x0705 a.part a.seq (a.tenant.getD 0)
  | .invalid => s.tallyFault b 0x0704 a.part a.seq (s.bOwner b)
  | .drift => s.pipeBad b 4 a.part a.seq
  | .dup => s.releaseBad b 2 a.part a.seq
  | .count j =>
    let s := s.setBar b { x with open_ := x.open_ ||| 2 ^ j, units := x.units ++ [a.unit] }
    if popcount 64 (x.open_ ||| 2 ^ j) = s.bExpect b then s.releaseOk b else s
  | .carry j => s.setBar b { x with carry := x.carry ||| 2 ^ j, cunits := x.cunits ++ [a.unit] }
  | .filled =>
    (s.setBar b (realign (s.bEpochLen b) { x with filled := x.filled + 1, units := x.units ++ [a.unit] })).evalPipe b
  | .drained =>
    (s.setBar b (realign (s.bEpochLen b) { x with drained := x.drained + 1, units := x.units ++ [a.unit] })).evalPipe b

/-- Send an arrival toward Tally. -/
def State.sendArrival (s : State) (a : Arrival) : State := { s with arrQ := s.arrQ ++ [a] }

/-! ### The commands of the chapter -/

/-- An arrival on its way is counted, unless the abort of its job has dropped it. An arrival of the manifest ends that close
(R248). -/
def State.countArrival (s : State) (a : Arrival) : State :=
  if s.arrQ.contains a then
    let s := { s with arrQ := s.arrQ.erase a }
    let s := match a.tenant with
      | some t => if a.unit = tnPage t ∧ a.seq = 0x3FF then s.setTenant t { s.tenant t with closing := false } else s
      | none => s
    s.arrive a
  else s

/-- Whether an arrival would end its generation as a duplicate. -/
def State.isDup (s : State) (a : Arrival) : Bool :=
  match s.judge a with
  | .dup => true
  | _ => false

/-- The oldest n arrivals on their way are counted in one cycle: a duplicate wins over the completing arrival of another
participant (R219). -/
def State.countArrivals (s : State) (n : Nat) : State :=
  let l := s.arrQ.take n
  (l.filter s.isDup ++ l.filter (fun a => !s.isDup a)).foldl (fun s a => s.countArrival a) s

/-- TALLY_ARRIVAL (R212, R219): the oldest arrival on its way is counted, and `also` more in the same cycle. -/
def execTallyArrival (also : Nat) (s : State) : Host.Outcome State Fault Refusal :=
  if s.arrQ.isEmpty then .next s else .next (s.countArrivals (also + 1)).advance

/-- CARRY_RELEASE (R214): a generation opened complete is released at the next opportunity. -/
def execCarryRelease (b : BarId) (s : State) : Host.Outcome State Fault Refusal :=
  if (s.bar b).due then .next (s.releaseOk b).advance else .next s

/-- BARRIER_TIMEOUT (R218, R219): the open generation of a strict or carry barrier has an arrival and is incomplete. The
PARTICIPANT and the CMDSEQ bits that FAULT_INFO reports for it are free values (log 28). `also` arrivals are counted in the same
cycle: the last arrival of the generation wins over the timeout. -/
def execBarrierTimeout (b : BarId) (also : Nat) (s : State) : Host.Outcome State Fault Refusal :=
  let g := (s.bar b).gen
  let s := if also = 0 then s else (s.countArrivals also).advance
  let x := s.bar b
  if x.gen ≠ g then .next s else
  if s.bValid b && s.bMode b != 2 && x.open_ != 0 && !x.due then
    let (k, s) := s.take
    .next (s.releaseBad b 1 (Config.freeWord k).toNat ((Config.freeWord k).toNat / 4096)).advance
  else .next s

/-- TALLY_TIMEOUT (R218, R219, R228): a registered wait expires; the barrier is left as it is. A tier 2 wait is reported on the
tenant's page with tier 2. `also` arrivals are counted in the same cycle: the release of the awaited generation wins. -/
def execTallyTimeout (q : Fin 32) (also : Nat) (s : State) : Host.Outcome State Fault Refusal :=
  let was := (s.queue q.val).wait
  let s := if also = 0 then s else (s.countArrivals also).advance
  match (s.queue q.val).wait with
  | none => .next s
  | some w =>
    if was ≠ some w then .next s else
    let s1 := s.writeRecord w.cmd 0x0701 0 7
    match w.on with
    | .gen b _ => .next (s1.tallyFault b 0x0701 w.cmd.part w.cmd.seq.toNat w.cmd.owner)
    | .pipe b _ _ _ => .next (s1.tallyFault b 0x0701 w.cmd.part w.cmd.seq.toNat w.cmd.owner)
    | .count _ =>
      if w.timeout = 0 then .next s
      else .next (s1.jobFault (tnPage w.cmd.owner) 0x0701 (2 * 2 ^ 10 + w.cmd.seq.toNat % 1024) w.cmd.owner)
    | .fires _ _ => .next s

/-- Whether a barrier is in use (R229): a count, a pipe counter or a registered wait. -/
def State.barBusy (s : State) (b : BarId) : Bool :=
  let x := s.bar b
  x.open_ != 0 || x.carry != 0 || x.filled != 0 || x.drained != 0 ||
  (queuesWaiting s (fun w => match w.on with
    | .gen b' _ => b' == b
    | .pipe b' _ _ _ => b' == b
    | _ => false)).any (fun _ => true)

/-- The values a valid configuration may not have (R229). -/
def cfgInvalid (cfg part : Word) : Bool :=
  let mode := fld cfg 30 28
  let n := fld cfg 21 16 + 1
  let pb := fld part 11 0
  tbit cfg 31 && (decide (3 ≤ mode) || pb == 0 || (if mode = 2 then decide (4095 < pb + 1) || fld part 31 16 == 0 else decide (4095 < pb + n - 1)))

/-- A refused configuration write sets a bit of TALLY_ERR and names the barrier (R230, R232). -/
def State.tallyErr (s : State) (b : BarId) (bit : Nat) : State :=
  let a := rga 0x20 0x44
  let scope := match b with | .central _ => 0 | .tree e _ => e.val + 1
  ((s.wb a bit true).pf a 14 12 scope).pf a 7 0 (barNum b)

/-- The tenant of an accessing function; the physical function and the management path belong to none. -/
def vfOf : Func → Option Nat
  | .vf n => some n.val
  | _ => none

/-- A write of a barrier's CFG or PART register (R229): rights, use, values. `coll` is the other happening of R219: an
arrival of the same cycle makes the barrier busy. OWNER is written only from the physical function; a virtual function's
write keeps it. -/
def State.tallyCfg (s : State) (f : Func) (b : BarId) (part : Bool) (v : Word) (coll : Bool) : State :=
  let owner := s.bOwner b
  let old := s.rd (barCfgReg b)
  let oldP := s.rd (barPartReg b)
  let keep := match b with | .central _ => fm 31 23 + fm 21 0 | .tree _ _ => fm 31 24 + fm 21 0
  let v1 := if part then v &&& w32 (fm 31 16 + fm 11 0) else v &&& w32 keep
  match vfOf f with
  | some t =>
    if owner ≠ t then s.tallyErr b 8
    else if coll || s.barBusy b then s.tallyErr b 9
    else
      let v2 := if part then v1 else setFld v1 27 24 owner
      if (if part then cfgInvalid old v2 else cfgInvalid v2 oldP) then s.tallyErr b 10
      else s.wr (if part then barPartReg b else barCfgReg b) v2
  | none =>
    if coll || s.barBusy b then s.tallyErr b 9
    else if (if part then cfgInvalid old v1 else cfgInvalid v1 oldP) then s.tallyErr b 10
    else s.wr (if part then barPartReg b else barCfgReg b) v1

end Sys2Proof.Machine
end

