-- ==== Sys2Proof/Machine/Access.lean ====
section
/-!
DEFINITION. Who may reach which page (R13, R14, R446, R460), and the plain store of a register by its access codes (R10,
R12, R13).
-/
namespace Sys2Proof.Machine

/-- TOP_READY (R459). -/
def aReady : Nat := rga 0 0x4C
def State.ready (s : State) : Bool := s.rb aReady 31
def State.stage (s : State) : Nat := s.rf aReady 3 0
def State.tensorOff (s : State) : Bool := s.rb aReady 29
def State.safeHold (s : State) : Bool := s.rb (rga 8 0x44) 31
def State.diagRequired (s : State) : Bool := s.rb (rga 8 0x44) 30

/-- Pages that answer the host before READY (R460). -/
def earlyBlock : Block → Bool
  | .top | .ostler | .ledger | .warden | .security => true
  | _ => false

/-- Whether the PCIe link can carry host accesses (R467, R468, R473). -/
def State.linkUp (s : State) : Bool := s.pins.porN && s.pins.perstN && !s.ost.pcieHeld

/-- Whether a host access of function f reaches the page at all (R446, R460): over the link, every page once READY and some
before; a proxy access needs no PCIe link here; the management path always. -/
def State.reaches (s : State) (f : Func) (i : PageId) : Bool :=
  match f with
  | .mgmt => true
  | .px => s.ready || earlyBlock i.block
  | _ => s.linkUp && (s.ready || earlyBlock i.block)

/-- Whether a virtual function may write this register (R446): its own INNKEEPER page under R252 and R253, the configuration of
barriers under R229 and R232, HST_CTL of HOSTEL under R167. Never BLK_CTL or LOCK, nor TN_LIMIT (R253). -/
def vfMayWrite (n : Nat) (i : PageId) (off : Nat) : Bool :=
  off != oCtl && off != oLock &&
  match i.block with
  | .innkeeper => i.sub == n + 1 && off != 0x50
  | .tally => i.sub == 1 && decide (0x40 ≤ off)
  | .sheaf => i.sub == 5 && decide (0x40 ≤ off)
  | .hostel => off == 0x40
  | _ => false

/-- Whether a write of function f at an address takes place at all. -/
def State.mayWrite (s : State) (f : Func) (a : Nat) : Bool :=
  match pageId (a / 4096) with
  | none => false
  | some i => s.reaches f i && (match f with | .vf n => vfMayWrite n.val i (a % 4096) | _ => true)

/-- Carry out a write if function f may write the address (R446, R460). -/
def State.guarded (s : State) (f : Func) (a : Nat) (k : State → State) : State :=
  if s.mayWrite f a then k s else s

def isMgmt : Func → Bool
  | .mgmt => true
  | _ => false

def isVf : Func → Bool
  | .vf _ => true
  | _ => false

/-- LOCK of a page (R458). -/
def State.locked (s : State) (page : Nat) : Bool := s.rb (rga page oLock) 0

/-- The bits of a register that a plain write by f changes (R13, R14). -/
def State.writable (s : State) (f : Func) (a : Nat) (r : RegRow) : Word :=
  w32 r.rw ||| (if s.locked (a / 4096) then 0 else w32 r.rwl) ||| (if isMgmt f then w32 r.mo else 0)

/-- The plain store (R10, R12, R13): writable bits take the value, bits written 1 among W1C clear unless the hardware sets
them in the same cycle (`hwSet`). -/
def State.store (s : State) (f : Func) (a : Nat) (v hwSet : Word) : State :=
  match regRow a with
  | none => s
  | some r =>
    let m := s.writable f a r
    let old := s.rd a
    let w := (old &&& ~~~ m) ||| (v &&& m)
    s.wr a ((w &&& ~~~ (v &&& w32 r.w1c)) ||| (hwSet &&& w32 r.w1c))

end Sys2Proof.Machine
end

