-- ==== Sys2Proof/Machine/Fp.lean ====
section
/-!
DEFINITION. Floating-point numbers (R42, R55, R65): decoding of the formats, rounding to nearest even, FP32 arithmetic,
and the table functions of the vector units.
-/
namespace Sys2Proof.Machine

/-- A decoded value: a NaN with its code, an infinity, or a finite ±m × 2^e. -/
inductive Fv where
  | nan (code : Nat)
  | inf (neg : Bool)
  | fin (neg : Bool) (m : Nat) (e : Int)
deriving DecidableEq, Repr

/-- A binary format: exponent bits, fraction bits, bias, code of the largest finite magnitude, whether the all-ones exponent
holds infinities (R42). -/
structure FpFmt where
  ebits : Nat
  fbits : Nat
  bias : Nat
  maxCode : Nat
  hasInf : Bool

def e4m3 : FpFmt := ⟨4, 3, 7, 0x7E, false⟩
def e5m2 : FpFmt := ⟨5, 2, 15, 0x7B, true⟩
def bf16 : FpFmt := ⟨8, 7, 127, 0x7F7F, true⟩
def fp32 : FpFmt := ⟨8, 23, 127, 0x7F7FFFFF, true⟩

/-- The exponent of the unit of a format's subnormals. -/
def FpFmt.emin (f : FpFmt) : Int := 1 - (f.bias : Int) - f.fbits

/-- Decode a code of a format (R42). -/
def fpDecode (f : FpFmt) (c : Nat) : Fv :=
  let neg := (c >>> (f.ebits + f.fbits)) % 2 == 1
  let ex := (c >>> f.fbits) % 2 ^ f.ebits
  let fr := c % 2 ^ f.fbits
  if c % 2 ^ (f.ebits + f.fbits) > f.maxCode then (if f.hasInf ∧ fr = 0 then .inf neg else .nan c)
  else if ex = 0 then .fin neg fr f.emin
  else .fin neg (2 ^ f.fbits + fr) (f.emin + ex - 1)

/-- Length of a number in bits. -/
def bitLen (n : Nat) : Nat := if n = 0 then 0 else Nat.log2 n + 1

/-- Shift a number by a signed count and round to nearest even. -/
def rneScale (m : Nat) (s : Int) : Nat := if s ≥ 0 then m <<< s.toNat else rneShr m (-s).toNat

/-- The magnitude code of m × 2^e rounded to nearest even in a format's precision with an unbounded exponent (R55). -/
def roundMag (f : FpFmt) (m : Nat) (e : Int) : Nat :=
  if m = 0 then 0 else
  let lsb := max f.emin ((bitLen m : Int) + e - (f.fbits + 1))
  let q := rneScale m (e - lsb)
  ((lsb - f.emin).toNat <<< f.fbits) + q

def signCode (f : FpFmt) (neg : Bool) : Nat := if neg then 2 ^ (f.ebits + f.fbits) else 0

/-- Rounding of the outputs (R55): a magnitude beyond the largest finite value saturates; the flag is OUTSAT. -/
def roundSat (f : FpFmt) (neg : Bool) (m : Nat) (e : Int) : Nat × Bool :=
  let c := roundMag f m e
  if c > f.maxCode then (signCode f neg + f.maxCode, true) else (signCode f neg + c, false)

/-! ### FP32 arithmetic (R65) -/

def f32NaN : Word := 0x7FC00000
def f32Inf (neg : Bool) : Word := if neg then 0xFF800000 else 0x7F800000
def f32Zero (neg : Bool) : Word := if neg then 0x80000000 else 0

/-- Round ±m × 2^e to FP32; overflow gives an infinity, as IEEE 754 has it. -/
def f32Round (neg : Bool) (m : Nat) (e : Int) : Word :=
  let c := roundMag fp32 m e
  if c > fp32.maxCode then f32Inf neg else w32 (signCode fp32 neg + c)

def f32Dec (a : Word) : Fv := fpDecode fp32 a.toNat

def isNaN (a : Word) : Bool := match f32Dec a with | .nan _ => true | _ => false

/-- Round a signed m × 2^e; an exact zero is +0. -/
def f32OfI (m : Int) (e : Int) : Word := f32Round (m < 0) m.natAbs e

/-- The FP32 nearest an integer, and nearest n / d. -/
def f32Int (n : Int) : Word := f32OfI n 0
def f32Ratio (n : Int) (d : Nat) : Word :=
  if d = 0 then (if n = 0 then f32NaN else f32Inf (n < 0)) else
  let k := 40 + bitLen d
  let num := n.natAbs <<< k
  let q := num / d
  f32Round (n < 0) (2 * q + (if num % d = 0 then 0 else 1)) (-(k : Int) - 1)

/-- Align two finite values to the smaller exponent. -/
def alignI (n1 : Bool) (m1 : Nat) (e1 : Int) (n2 : Bool) (m2 : Nat) (e2 : Int) : Int × Int × Int :=
  let e := min e1 e2
  let a : Int := ((m1 <<< (e1 - e).toNat : Nat) : Int)
  let b : Int := ((m2 <<< (e2 - e).toNat : Nat) : Int)
  (if n1 then -a else a, if n2 then -b else b, e)

def fadd (a b : Word) : Word :=
  match f32Dec a, f32Dec b with
  | .nan _, _ => f32NaN
  | _, .nan _ => f32NaN
  | .inf x, .inf y => if x = y then f32Inf x else f32NaN
  | .inf x, _ => f32Inf x
  | _, .inf y => f32Inf y
  | .fin n1 m1 e1, .fin n2 m2 e2 =>
    let (x, y, e) := alignI n1 m1 e1 n2 m2 e2
    if x + y = 0 then f32Zero (n1 && n2) else f32OfI (x + y) e

def fneg (a : Word) : Word := if isNaN a then f32NaN else a ^^^ 0x80000000
def fabs (a : Word) : Word := if isNaN a then f32NaN else a &&& 0x7FFFFFFF
def fsub (a b : Word) : Word := fadd a (fneg b)

def fmul (a b : Word) : Word :=
  match f32Dec a, f32Dec b with
  | .nan _, _ => f32NaN
  | _, .nan _ => f32NaN
  | .inf x, .inf y => f32Inf (x != y)
  | .inf x, .fin n m _ => if m = 0 then f32NaN else f32Inf (x != n)
  | .fin n m _, .inf y => if m = 0 then f32NaN else f32Inf (n != y)
  | .fin n1 m1 e1, .fin n2 m2 e2 => f32Round (n1 != n2) (m1 * m2) (e1 + e2)

def fdiv (a b : Word) : Word :=
  match f32Dec a, f32Dec b with
  | .nan _, _ => f32NaN
  | _, .nan _ => f32NaN
  | .inf _, .inf _ => f32NaN
  | .inf x, .fin n _ _ => f32Inf (x != n)
  | .fin n _ _, .inf y => f32Zero (n != y)
  | .fin n1 m1 e1, .fin n2 m2 e2 =>
    if m2 = 0 then (if m1 = 0 then f32NaN else f32Inf (n1 != n2))
    else
      let num := m1 <<< 60
      f32Round (n1 != n2) (2 * (num / m2) + (if num % m2 = 0 then 0 else 1)) (e1 - e2 - 61)

/-- Order of FP32 values; false when an operand is NaN. -/
def flt (a b : Word) : Bool :=
  match f32Dec a, f32Dec b with
  | .nan _, _ => false
  | _, .nan _ => false
  | .inf x, .inf y => x && !y
  | .inf x, _ => x
  | _, .inf y => !y
  | .fin n1 m1 e1, .fin n2 m2 e2 => let (x, y, _) := alignI n1 m1 e1 n2 m2 e2; decide (x < y)

def fge (a b : Word) : Bool := !isNaN a && !isNaN b && !flt a b
def feq (a b : Word) : Bool := !isNaN a && !isNaN b && !flt a b && !flt b a
def fposi (a : Word) : Bool := flt 0 a
def isFinite (a : Word) : Bool := match f32Dec a with | .fin _ _ _ => true | _ => false
def signOf (a : Word) : Bool := a.toNat ≥ 2 ^ 31

/-- Maximum and minimum of R65: NaN wins, +0 is greater than −0. -/
def fmax (a b : Word) : Word :=
  if isNaN a || isNaN b then f32NaN
  else if flt a b then b else if flt b a then a else if signOf a then b else a
def fmin (a b : Word) : Word :=
  if isNaN a || isNaN b then f32NaN
  else if flt a b then a else if flt b a then b else if signOf a then a else b

/-- Clamp in the C code of the manual: below the lower limit the lower, above the upper the upper. -/
def fclamp (x lo hi : Word) : Word := if flt x lo then lo else if flt hi x then hi else x

/-- The nearest integer, ties to even, of a finite FP32 value times 2^s; 0 for a value that is not finite. -/
def f32RoundI (a : Word) (s : Int) : Int :=
  match f32Dec a with
  | .fin n m e => let q := rneScale m (e + s); if n then -(q : Int) else q
  | _ => 0

/-- 2^k as FP32 (−126 ≤ k ≤ 127), one, two, a half. -/
def f32Pow2 (k : Int) : Word := f32Round false 1 k
def f32One : Word := 0x3F800000
def f32Two : Word := 0x40000000
def f32Half : Word := 0x3F000000

/-! ### Sums (R65) -/

/-- One level of the tree: adjacent pairs added, an odd last value moved up. -/
def treeLevel : List Word → List Word
  | a :: b :: r => fadd a b :: treeLevel r
  | l => l

def treePass : Nat → List Word → Word
  | _, [] => 0
  | _, [a] => a
  | 0, a :: _ => a
  | n + 1, l => treePass n (treeLevel l)

/-- The passes of 64 values, added in ascending order. -/
def treePasses : Nat → List Word → Option Word → Word
  | 0, _, acc => acc.getD 0
  | n + 1, l, acc =>
    match l with
    | [] => acc.getD 0
    | _ =>
      let t := treePass 7 (l.take 64)
      treePasses n (l.drop 64) (some (match acc with | none => t | some s => fadd s t))

/-- The fixed tree sum of FP32 values (R65). -/
def fsum (l : List Word) : Word := treePasses (l.length / 64 + 1) l none

/-! ### Table functions (R65) -/

/-- Move a magnitude code by a bounded number of units in the last place (log 9). -/
def nudge (w : Word) (ulp bound : Int) : Word :=
  let d := clampI (-bound) bound ulp
  let s := w.toNat / 2 ^ 31 * 2 ^ 31
  let m : Int := ((w.toNat % 2 ^ 31 : Nat) : Int) + d
  w32 (s + (clampI 0 0x7F800000 m).toNat)

/-- Working precision of exp and log: 128 fractional bits. -/
def fxOne : Nat := 2 ^ 128
/-- ln 2 × 2^128. -/
def ln2Fx : Nat := 235865763225513294137944142764154484399

/-- Sum of r^k / k! from a term on, in fixed point. -/
def expSeries (r : Int) : Nat → Nat → Int → Int
  | 0, _, _ => 0
  | n + 1, k, t => t + expSeries r n (k + 1) (t * r / (fxOne : Int) / ((k + 1 : Nat) : Int))

/-- exp rounded to nearest from 128 fractional bits, for a finite argument of moderate size. -/
def expNear (neg : Bool) (m : Nat) (e : Int) : Word :=
  let x : Int := ((rneScale m (e + 128) : Nat) : Int)
  let x := if neg then -x else x
  let n := x / (ln2Fx : Int)
  let r := x - n * ln2Fx
  let s := expSeries r 60 0 fxOne
  f32Round false s.toNat (n - 128)

/-- exp (R65): within 2 ulp. -/
def fexp (a : Word) : Word :=
  match f32Dec a with
  | .nan _ => f32NaN
  | .inf n => if n then 0 else f32Inf false
  | .fin n m e =>
    if m = 0 then nudge f32One (Config.expUlp a) 2
    else if flt a 0xC2DC0000 then nudge 0 (Config.expUlp a) 2          -- below −110
    else if flt 0x42B40000 a then f32Inf false                          -- above 90
    else nudge (expNear n m e) (Config.expUlp a) 2

/-- Sum of z^(2k+1) / (2k+1), in fixed point. -/
def atanhSeries (z2 : Int) : Nat → Nat → Int → Int
  | 0, _, _ => 0
  | n + 1, k, t => t / ((2 * k + 1 : Nat) : Int) + atanhSeries z2 n (k + 1) (t * z2 / (fxOne : Int))

/-- log of m × 2^e for m > 0, rounded to nearest from 128 fractional bits. -/
def logNear (m : Nat) (e : Int) : Word :=
  let l := bitLen m - 1
  let one := 2 ^ l
  let z : Int := ((((m - one) <<< 128) / (m + one) : Nat) : Int)
  let z2 := z * z / (fxOne : Int)
  let v := 2 * atanhSeries z2 50 0 z + (e + l) * ln2Fx
  f32OfI v (-128)

/-- log (R65): within 2 ulp; log of zero and of a negative number as IEEE 754 has them. -/
def flog (a : Word) : Word :=
  match f32Dec a with
  | .nan _ => f32NaN
  | .inf n => if n then f32NaN else f32Inf false
  | .fin n m e => if m = 0 then f32Inf true else if n then f32NaN else nudge (logNear m e) (Config.logUlp a) 2

/-- Integer square root by bits. -/
def isqrtBits (n : Nat) : Nat → Nat → Nat
  | 0, r => r
  | k + 1, r => let r' := r + 2 ^ k; isqrtBits n k (if r' * r' ≤ n then r' else r)

/-- Reciprocal square root (R65): within 1 ulp. -/
def frsqrt (a : Word) : Word :=
  match f32Dec a with
  | .nan _ => f32NaN
  | .inf n => if n then f32NaN else 0
  | .fin n m e =>
    if m = 0 then f32Inf n
    else if n then f32NaN
    else
      let odd := e % 2 = 1
      let m' := if odd then 2 * m else m
      let e' := (if odd then e - 1 else e) / 2
      let q := 2 ^ 120 / m'
      let r := isqrtBits q 61 0
      nudge (f32Round false (2 * r + (if r * r * m' = 2 ^ 120 then 0 else 1)) (-61 - e')) (Config.rsqrtUlp a) 1

/-- Reciprocal (R65): within 1 ulp. -/
def frecip (a : Word) : Word :=
  match f32Dec a with
  | .nan _ => f32NaN
  | .inf n => f32Zero n
  | .fin n m _ => if m = 0 then f32Inf n else nudge (fdiv f32One a) (Config.recipUlp a) 1

end Sys2Proof.Machine
end

