-- ==== Sys2Proof/Machine/Groups.lean ====
section
/-!
DEFINITION. Axis groups (R286 to R288, R322 to R325): the STO and brake outputs, safe actions with their forms and ranking,
torque off; the events of R327; and the part of Warden that other blocks reach (R394 to R398): fresh results, hold timers,
active requests.
-/
namespace Sys2Proof.Machine

/-! ### Pages and registers -/

def axPage (a : Nat) : Nat := 0x420 + a
def encPage (n : Nat) : Nat := 0x450 + n
def alPage (g : Nat) : Nat := 0x480 + g
def dvPage (d : Nat) : Nat := 0x410 + d
def axReg (a off : Nat) : Nat := rga (axPage a) off
def aAxStat (a : Nat) : Nat := axReg a 0x44
def aAlStat (g : Nat) : Nat := rga (alPage g) 0x48
def aEncStat (n : Nat) : Nat := rga (encPage n) 0x5C

/-- The four axes of a group (R286). -/
def groupAxes (g : Nat) : List Nat := (List.range 4).map (fun i => 4 * g + i)

def State.axis (s : State) (a : Nat) : Axis := mapGet dflt s.drv.axes a
def State.setAxis (s : State) (a : Nat) (x : Axis) : State := { s with drv := { s.drv with axes := mapSet dflt s.drv.axes a x } }
def State.enc (s : State) (n : Nat) : Enc := mapGet dflt s.drv.encs n
def State.setEnc (s : State) (n : Nat) (x : Enc) : State := { s with drv := { s.drv with encs := mapSet dflt s.drv.encs n x } }
def State.alink (s : State) (g : Nat) : ALink := mapGet dflt s.drv.links g
def State.setAlink (s : State) (g : Nat) (x : ALink) : State := { s with drv := { s.drv with links := mapSet dflt s.drv.links g x } }

/-- State of an axis (R287): 0 DISABLED, 1 RUNNING, 2 STOPPING, 3 SAFE. -/
def State.axState (s : State) (a : Nat) : Nat := s.rf (aAxStat a) 1 0
def State.setAxState (s : State) (a v : Nat) : State := s.pf (aAxStat a) 1 0 v
def State.inLoop (s : State) (a : Nat) : Bool := s.axState a == 1 || s.axState a == 2

/-- Whether a group is SAFE, and whether it is DISABLED or SAFE. -/
def State.groupSafe (s : State) (g : Nat) : Bool := s.rb (aAlStat g) 3
def State.groupIdle (s : State) (g : Nat) : Bool := (groupAxes g).all (fun a => !s.inLoop a)
def State.allSafe (s : State) : Bool := (List.range 12).all s.groupSafe
def State.allIdle (s : State) : Bool := (List.range 12).all s.groupIdle

/-- Word w of the law in force (R293): after a commit the words before it, but for words 20 and 21, until the next executed
period. -/
def State.lawW (s : State) (a w : Nat) : Word :=
  match (s.axis a).lawOld with
  | some ws => if w = 20 ∨ w = 21 then s.rd (axReg a (0x180 + 4 * w)) else ws.getD w 0
  | none => s.rd (axReg a (0x180 + 4 * w))

/-! ### Outputs -/

/-- The levels of the STO and brake pins (R324, R388, R398), and their readback. -/
def State.updPins (s : State) : State :=
  let force : BitVec 12 := if s.drv.forced then 0xFFF else 0
  let a := ~~~ (s.drv.sto ||| force)
  let b := ~~~ (s.drv.sto ||| s.drv.stoB ||| force)
  let k := ~~~ (s.drv.brake ||| force)
  let s := { s with pins := { s.pins with stoA := a, stoB := b, brake := k } }
  (List.range 12).foldl (fun s g =>
    s.pf (aAlStat g) 10 8 (b2n (a.getLsbD g) + 2 * b2n (b.getLsbD g) + 4 * b2n (k.getLsbD g))) s

def bit12 (g : Nat) : BitVec 12 := BitVec.ofNat 12 (2 ^ g)

/-- Set or clear a group's STO request and brake. -/
def State.setSto (s : State) (g : Nat) (b : Bool) : State :=
  ({ s with drv := { s.drv with sto := if b then s.drv.sto ||| bit12 g else s.drv.sto &&& ~~~ bit12 g } } : State).updPins
def State.setBrake (s : State) (g : Nat) (b : Bool) : State :=
  ({ s with drv := { s.drv with brake := if b then s.drv.brake ||| bit12 g else s.drv.brake &&& ~~~ bit12 g } } : State).updPins

/-- Warden's own STO_B request (R398), and Ostler's override of every output (R398, R418). -/
def State.forceStoB (s : State) (m : BitVec 12) : State := ({ s with drv := { s.drv with stoB := s.drv.stoB ||| m } } : State).updPins
def State.forceAll (s : State) : State := ({ s with drv := { s.drv with forced := true } } : State).updPins

/-! ### Events (R327) -/

/-- An event of the control path: FAULT_CODE of its page and the log. The spec gives its FAULT_INFO no layout: a free value. -/
def State.drvEvent (s : State) (page code : Nat) : State :=
  let (n, s) := s.take
  let info := (Config.freeWord n).toNat
  (s.recordFault page code info).logEvent page code 1 info 255

/-! ### Safe actions (R322, R323) -/

/-- All half-bridges of an axis OFF, whatever the dwell (R305). -/
def bridgesOff (x : Axis) : Axis :=
  { x with phases := x.phases.map (fun p => (p.1, { p.2 with out := 0, next := 0, dead := 0 })) }

/-- FORM of a group: the strongest running form of its axes (R331). -/
def State.showForm (s : State) (g : Nat) : State :=
  s.pf (aAlStat g) 5 4 ((groupAxes g).foldl (fun m a => max m (s.axis a).form) 0)

/-- Torque off of a group (R322): bridges OFF, STO requested, brake applied, SAFE. -/
def State.torqueOff (s : State) (g : Nat) : State :=
  let s := (groupAxes g).foldl (fun s a =>
    (s.setAxis a (bridgesOff { s.axis a with form := 0, enPend := false, ended := false })).setAxState a 3) s
  let s := (s.setSto g true).setBrake g true
  (s.wb (aAlStat g) 3 true).showForm g

/-- The position an axis's encoder holds, in counts (R307), and its speed, 0 while SPEED_VALID is 0 (R300). -/
def State.encPos (s : State) (n : Nat) : Int :=
  toS 48 ((s.rd (rga (encPage n) 0x50)).toNat + 2 ^ 32 * (s.rd (rga (encPage n) 0x54)).toNat)
def State.encVel (s : State) (n : Nat) : Word := if s.rb (aEncStat n) 0 then s.rd (rga (encPage n) 0x58) else 0

/-- Start a form on an axis: 1 controlled stop, 2 brake-and-hold, 3 fallback. -/
def State.startForm (s : State) (a f : Nat) : State :=
  let s := if 2 ≤ f then s.setBrake (a / 4) true else s
  let x := s.axis a
  (s.setAxis a { x with form := f, ramp := s.encVel a, hold := s.encPos a * 65536, ended := false }).setAxState a 2

/-- The form an axis takes for a wanted action (R322, R323, R329); 4 is torque off. -/
def State.formOf (s : State) (want : Nat) (own : Nat → Bool) (a : Nat) : Nat :=
  let f := if want ≠ 4 ∧ own a then 3 else want
  if f = 1 ∧ !flt 0 (s.rd (axReg a 0x64)) then 4 else f

/-- A trigger on a group that asks for a form (1, 2 or 4); `own` says whose own feedback or datapath fails (R322, R323). A
form no stronger than the running one is recorded only. -/
def State.trigger (s : State) (g want : Nat) (own : Nat → Bool) : State :=
  let live := (groupAxes g).filter s.inLoop
  let forms := live.map (fun a => (a, s.formOf want own a))
  if want = 4 ∨ forms.any (fun p => p.2 == 4) then s.torqueOff g
  else (forms.foldl (fun s p => if (s.axis p.1).form < p.2 then s.startForm p.1 p.2 else s) s).showForm g

def noAxis : Nat → Bool := fun _ => false
def allAxes : Nat → Bool := fun _ => true

/-- The form of a group's SAFE_ACTION (R322). -/
def State.safeAction (s : State) (g : Nat) : Nat :=
  match s.rf (rga (alPage g) 0x40) 31 30 with
  | 0 => 4
  | n => n

/-- An axis ends its action; the group takes torque off once every stopping axis has ended (R322). -/
def State.endForm (s : State) (p : Nat → Bool) (g : Nat) : State :=
  let s := (groupAxes g).foldl (fun s a =>
    if s.axState a = 2 ∧ p a then s.setAxis a (bridgesOff { s.axis a with ended := true }) else s) s
  let live := (groupAxes g).filter (fun a => s.axState a == 2)
  if !live.isEmpty ∧ live.all (fun a => (s.axis a).ended) then s.torqueOff g else s

/-! ### Warden as other blocks reach it -/

def slotCfg (i : Nat) : Nat := rga 8 (0x100 + 16 * i)
def slotHold (i : Nat) : Nat := rga 8 (0x104 + 16 * i)
def slotStat (i : Nat) : Nat := rga 8 (0x108 + 16 * i)

def State.slotValid (s : State) (i : Nat) : Bool := s.rb (slotCfg i) 31
def State.slotType (s : State) (i : Nat) : Nat := s.rf (slotCfg i) 30 29
def State.slotTarget (s : State) (i : Nat) : Nat := s.rf (slotCfg i) 7 0
def State.slotGroups (s : State) (i : Nat) : Nat := s.rf (slotCfg i) 23 12

/-- Slot i binds this output stage (R394, R412). -/
def State.slotBinds (s : State) (i ty : Nat) (target : Nat) : Bool :=
  s.slotValid i && s.slotType i == ty &&
  (match ty with
   | 0 => s.slotTarget i % 4 == target
   | 1 => s.slotTarget i % 16 == target
   | _ => s.slotTarget i / 16 % 4 == target / 16 && s.slotTarget i % 8 == target % 8)

/-- The request of slot i ends once a fresh result came and STOP_CLR was written (R397). -/
def State.slotEnd (s : State) (i : Nat) : State :=
  if s.drv.seen.getLsbD i && s.drv.clr.getLsbD i then s.wb (slotStat i) 1 false else s

/-- Slot i takes a fresh result. -/
def State.slotFresh (s : State) (i : Nat) : State :=
  let s := (s.wb (slotStat i) 0 true).wb (slotStat i) 2 false
  ({ s with drv := { s.drv with seen := s.drv.seen ||| BitVec.ofNat 64 (2 ^ i) } } : State).slotEnd i

/-- A fresh result at an output stage (R394, R395): the slot is fresh and its hold timer stops. TYPE 2 targets hold the port
in bits [5:4] and the queue in [2:0]. -/
def State.wardenFresh (s : State) (ty target : Nat) : State :=
  (List.range 64).foldl (fun s i =>
    if s.slotBinds i ty target then s.slotFresh i else s) s

/-- TRAJ_EXPIRED of an axis starts the hold timer of its datapath's TYPE 0 slots (R398). -/
def State.wardenExpired (s : State) (dv : Nat) : State :=
  (List.range 64).foldl (fun s i => if s.slotBinds i 0 dv then s.wb (slotStat i) 2 true else s) s

/-- State of a phase generator (R255). -/
def State.pgState (s : State) (g : Nat) : Nat := s.rf (rga 0x400 (0x58 + 0x20 * g)) 2 0

/-- Whether Warden holds an active request on a group (R397, R398, R412). -/
def State.wardenReq (s : State) (g : Nat) : Bool :=
  s.rb (rga 8 0x44) 27 ||
  (List.range 64).any (fun i => s.rb (slotStat i) 1 && (s.slotGroups i >>> g) % 2 == 1) ||
  (List.range 4).any (fun k => let r := s.rd (rga 8 (0x50 + 4 * k)); tbit r 31 && s.pgState k == 4 && (fld r 11 0 >>> g) % 2 == 1)

/-- A generator enters LOST (R283, R398): event, and Warden's reaction on the groups of WD_SRC_g. FORM codes are those of
WD_SRC_g. -/
def State.srcLost (s : State) (g : Nat) : State :=
  let s := (s.pf (rga 0x400 (0x58 + 0x20 * g)) 2 0 4).raise 0x400 2
  let s := s.logNamed 0x400 evTimebase 6 g 255
  let r := s.rd (rga 8 (0x50 + 4 * g))
  if tbit r 31 then
    let want := match fld r 29 28 with | 0 => 4 | n => n
    (List.range 12).foldl (fun s k => if (fld r 11 0 >>> k) % 2 = 1 then s.trigger k want noAxis else s) s
  else s

/-- STO or brake readback differs (R317, R398): Warden requests STO_B, the group takes torque off. -/
def State.stoFbErr (s : State) (g : Nat) : State :=
  ((s.drvEvent (alPage g) 0x0A09).forceStoB (bit12 g)).torqueOff g

/-- LOCKSTEP and PERIOD_LOST take every group of the datapath to its safe action in the fallback form (R289, R323). -/
def State.dpFallback (s : State) (d : Nat) : State :=
  (List.range 3).foldl (fun s i => s.trigger (3 * d + i) (s.safeAction (3 * d + i)) allAxes) s

end Sys2Proof.Machine
end

