-- ==== Sys2Proof/Machine/Milepost.lean ====
section
/-!
DEFINITION. Milepost (R254 to R261, R273 to R280): phase generators, the zero-crossing input, the PTP clock; and the
evaluation of Waybill's sub-points on every move of a generator (R265 to R270).
-/
namespace Sys2Proof.Machine

/-! ### Registers -/

def pgReg (g off : Nat) : Nat := rga 0x400 (0x40 + 0x20 * g + off)
def mpReg (off : Nat) : Nat := rga 0x400 off

def State.gen (s : State) (g : Nat) : Gen := mapGet dflt s.mile.gens g
def State.setGen (s : State) (g : Nat) (x : Gen) : State := { s with mile := { s.mile with gens := mapSet dflt s.mile.gens g x } }
def State.wbEntry (s : State) (e : Nat) : WbEntry := mapGet dflt s.mile.entries e
def State.setWbEntry (s : State) (e : Nat) (x : WbEntry) : State :=
  { s with mile := { s.mile with entries := mapSet dflt s.mile.entries e x } }

/-- The source named by the configuration: the running one, or PG_CFG while OFF. -/
def State.pgSrc (s : State) (g : Nat) : Nat := if s.pgState g = 0 then s.rf (pgReg g 0) 29 28 else (s.gen g).src

/-- The size m of a generator's cycle (R254). -/
def State.pgMod (s : State) (g : Nat) : Nat := if s.pgSrc g = 0 then (s.rd (pgReg g 4)).toNat else 2 ^ 32

/-- The phase of a generator in whole units. -/
def genPhase (x : Gen) : Nat :=
  match x.src with
  | 0 => x.acc
  | 2 => x.acc / 2 ^ 16 % 2 ^ 32
  | _ => (((x.acc : Int) + x.off) % ((2 ^ 64 : Nat) : Int)).toNat / 2 ^ 32
def State.pgPhase (s : State) (g : Nat) : Nat := genPhase (s.gen g)

/-- The signed distance (x − y) mod m taken into [−m ÷ 2, m ÷ 2) (R266). -/
def phDist (m x y : Nat) : Int :=
  if m = 0 then 0 else
  let r := (x % m + m - y % m) % m
  if 2 * r < m then (r : Int) else (r : Int) - m

/-- The PTP time in whole nanoseconds (R254). -/
def State.ptpNs (s : State) : Nat := s.clock.sec * 1000000000 + s.clock.ns

/-! ### Waybill entries as the crossings see them -/

def WbEntry.valid (x : WbEntry) : Bool := tbit x.cfg 31
def WbEntry.bidir (x : WbEntry) : Bool := tbit x.cfg 30
def WbEntry.link (x : WbEntry) : Bool := tbit x.cfg 29
def WbEntry.action (x : WbEntry) : Nat := fld x.cfg 27 24
def WbEntry.gen (x : WbEntry) : Nat := fld x.cfg 23 22
def WbEntry.lb (x : WbEntry) : Nat := fld x.cfg 21 18
def WbEntry.owner (x : WbEntry) : Nat := fld x.cfg 15 12
def WbEntry.subs (x : WbEntry) : Nat := fld x.cfg 11 0 + 1
def WbEntry.point (x : WbEntry) (m k : Nat) : Nat := if m = 0 then 0 else (x.phase.toNat + k * x.stride.toNat) % m

def bitOf (n k : Nat) : Bool := (n >>> k) % 2 == 1
def putBit (n k : Nat) (b : Bool) : Nat := if b then n ||| 2 ^ k else if bitOf n k then n - 2 ^ k else n

/-- The start rule (R269). -/
def WbEntry.start (x : WbEntry) (m phase : Nat) : WbEntry :=
  (List.range x.subs).foldl (fun y k =>
    let d := phDist m phase (x.point m k)
    { y with fwd := putBit y.fwd k (d < 0), rev := putBit y.rev k (decide (d ≥ 0)) }) { x with fwd := 0, rev := 0 }

/-- Re-arm every sub-point of a generator by the start rule. -/
def State.rearm (s : State) (g : Nat) : State :=
  s.mile.entries.foldl (fun t c =>
    if c.2.valid ∧ c.2.gen = g then t.setWbEntry c.1 (c.2.start (s.pgMod g) (s.pgPhase g)) else t) s

/-- One sub-point on a move from a to b by delta (R268): the entry after it, and whether it fires. A quiet move, that of a backward clock
change, fires nothing (R277). -/
def WbEntry.cross (x : WbEntry) (m a b : Nat) (delta : Int) (quiet : Bool) (k : Nat) : WbEntry × Bool :=
  let p := x.point m k
  let d0 := phDist m a p
  let d1 := d0 + delta
  let fwdFire := decide (0 < delta) && decide (d0 < 0) && decide (0 ≤ d1) && bitOf x.fwd k
  let revFire := !fwdFire && decide (delta < 0) && decide (0 ≤ d0) && decide (d1 < 0) && x.bidir && bitOf x.rev k && !quiet
  let f := if fwdFire then putBit x.fwd k false else x.fwd
  let r := if revFire then putBit x.rev k false else x.rev
  let db := phDist m b p
  let f := if db ≤ -(x.hyst.toNat : Int) then putBit f k true else f
  let r := if x.bidir ∧ (x.hyst.toNat : Int) ≤ db then putBit r k true else r
  ({ x with fwd := f, rev := r }, fwdFire || revFire)

/-- All sub-points of an entry: the entry after the move and the keys (distance, sub-point) of those that fire. -/
def WbEntry.moveAll (x : WbEntry) (m a b : Nat) (delta : Int) (quiet : Bool) : WbEntry × List (Nat × Nat) :=
  (List.range x.subs).foldl (fun (y : WbEntry × List (Nat × Nat)) k =>
    let (z, fire) := y.1.cross m a b delta quiet k
    (z, if fire then y.2 ++ [((phDist m a (x.point m k)).natAbs, k)] else y.2)) (x, [])

/-- Insert by key, lower first. -/
def insKey (x : Nat × Nat) : List (Nat × Nat) → List (Nat × Nat)
  | [] => [x]
  | y :: r => if x.1 < y.1 then x :: y :: r else y :: insKey x r

/-- Set an entry's bit in WB_LATE and count it (R270, R283). -/
def State.markLate (s : State) (e : Nat) : State :=
  let a := rga 0x403 (0x40 + 4 * (e / 32))
  ((((s.wb a (e % 32) true).addSat (rga 0x401 0x64) 1).raise 0x400 4)).logNamed 0x400 evWaybill 6 e 255

/-- The first tick from t on, of n, on which fewer than 8 actions are to issue. -/
def roomFrom (sched : List (Nat × Nat)) : Nat → Nat → Nat
  | 0, t => t
  | n + 1, t => if mapGet (fun _ => 0) sched t < 8 then t else roomFrom sched n (t + 1)

/-- Queue a crossing for issue, on its tick for the sources Waybill sees ahead and 64 ticks later for shaft and mains (R256). Where that
tick has its 8 actions it is carried to a following one, and is late (R270). -/
def State.pushDue (s : State) (g e : Nat) (late : Bool) : State :=
  let t0 := s.clock.tick + (if s.pgSrc g = 1 ∨ s.pgSrc g = 2 then 64 else 0)
  let sched := mapDrop s.mile.sched (fun t => decide (t < s.clock.tick))
  let t := roomFrom sched (sched.length + 1) t0
  let s := if t ≠ t0 || late then s.markLate e else s
  { s with mile := { s.mile with due := s.mile.due ++ [⟨g, e, t, t ≠ t0⟩], sched := mapUpd (fun _ => 0) sched t (· + 1) } }

/-- The entries of generator g after a move of its phase from a to b, and the crossings in their order (R268, R270). -/
def State.moveEntries (s : State) (g m a b : Nat) (quiet : Bool) : State × List (Nat × Nat) :=
  s.mile.entries.foldl (fun (t : State × List (Nat × Nat)) c =>
    if c.2.valid ∧ c.2.gen = g then
      let (x, ks) := c.2.moveAll m a b (phDist m b a) quiet
      (t.1.setWbEntry c.1 x, ks.foldl (fun l k => insKey (k.1 * 2 ^ 24 + c.1 * 4096 + k.2, c.1) l) t.2)
    else t) (s, [])

/-- A move of a generator: its length in whole units, its sign (a move may be shorter than a unit), whether it is that of a clock step or an
ADJ (R270, R277). -/
structure Move where
  far : Int
  sign : Int
  step : Bool := false
  clock : Bool := false
deriving Repr

/-- The phase register and the direction bit after a move (R284). -/
def State.showMove (s : State) (g b : Nat) (sign : Int) : State :=
  let s := s.wr (pgReg g 0x14) (w32 b)
  if sign = 0 then s else s.wb (pgReg g 0x18) 4 (sign < 0)

/-- A generator moves from a to b; `far` decides a slip (R267 to R270). The entries passed by a forward step are late; a backward clock
change fires nothing (R277). -/
def State.pgMove (s : State) (g a b : Nat) (v : Move) : State :=
  let m := s.pgMod g
  let far := v.far
  let s := s.showMove g b v.sign
  if s.pgState g ≠ 2 ∧ s.pgState g ≠ 3 then s
  else if 4 * far.natAbs ≥ m ∧ far ≠ 0 then
    (((s.wb (pgReg g 0x18) 5 true).raise 0x400 3).logNamed 0x400 evTimebase 6 g 255).rearm g
  else
    let r := s.moveEntries g m a b (v.clock && decide (far < 0))
    r.2.foldl (fun t k => t.pushDue g k.2 (v.step && decide (0 < far))) r.1

/-- Store a generator whose phase has moved, and evaluate the move. -/
def State.moveTo (s : State) (g : Nat) (x : Gen) (v : Move) : State :=
  let a := s.pgPhase g
  (s.setGen g x).pgMove g a (genPhase x) v

/-! ### The sources -/

/-- A generator enters RUNNING: the start rule applies (R269). -/
def State.startGen (s : State) (g : Nat) : State :=
  ((s.pf (pgReg g 0x18) 2 0 2).wr (pgReg g 0x14) (w32 (s.pgPhase g))).rearm g

/-- Generators that follow encoder n and run. -/
def State.shaftGens (s : State) (n : Nat) : List Nat :=
  (List.range 4).filter (fun g => (s.gen g).src == 1 && (s.gen g).enc == n && s.pgState g == 2)

/-- K as the registers hold it: signed 32.32 (R254). -/
def State.pgK (s : State) (g : Nat) : Int := toS 64 ((s.rd (pgReg g 4)).toNat * 2 ^ 32 + (s.rd (pgReg g 8)).toNat)

/-- INVERT of a shaft generator (R258). -/
def State.pgInvert (s : State) (g : Nat) : Bool := s.rb (pgReg g 0) 30

/-- Encoder n moved by c counts: its generators follow (R258). -/
def State.shaftMove (s : State) (n : Nat) (c : Int) : State :=
  (s.shaftGens n).foldl (fun s g =>
    let x := s.gen g
    let d := (if s.pgInvert g then -c else c) * x.k
    s.moveTo g { x with acc := (((x.acc : Int) + d) % ((2 ^ 64 : Nat) : Int)).toNat, off := 0 } ⟨(d - x.off) / 2 ^ 32, d - x.off, false, false⟩) s

/-- FEEDBACK_LOST of encoder n: its generators are LOST, their phase frozen (R258). -/
def State.shaftLost (s : State) (n : Nat) : State := (s.shaftGens n).foldl (fun s g => s.srcLost g) s

/-- The speed of encoder n in counts per ns, exactly: (numerator, denominator), 0 while SPEED_VALID is 0 (R308, R310). -/
def State.encRate (s : State) (n : Nat) : Int × Nat :=
  if !s.rb (aEncStat n) 0 then (0, 1) else
  let x := s.enc n
  if s.rf (rga (encPage n) 0x40) 31 30 = 2 then (match x.ssiSpeed with | some (d, t) => (d, max t 1) | none => (0, 1))
  else
    let w := s.rf (rga (encPage n) 0x40) 15 12 + 1
    let k := min x.edges.length w
    let t1 := x.edges.getD 0 0
    let t0 := x.edges.getD (k - 1) 0
    let v : Int := ((k - 1 : Nat) : Int)
    (if s.rb (aEncStat n) 3 then -v else v, max (t1 - t0) 1)

/-- The phase rate of a generator in units per second, as a fraction (R299). -/
def State.pgRate (s : State) (g : Nat) : Int × Nat :=
  let x := s.gen g
  match x.src with
  | 0 => (1000000000, 1)
  | 1 => let (v, d) := s.encRate x.enc; ((if s.pgInvert g then -v else v) * x.k * 1000000000, d * 2 ^ 32)
  | 2 => (x.inc * 1000000000, 2 ^ 16)
  | _ => (x.k * 1000000000, 2 ^ 32)

/-- One tick of a generator (R257, R258, R260, R261). `ns` is by how much the PTP time advanced. -/
def State.tickGen (s : State) (g : Nat) (ns : Nat) : State :=
  let x := s.gen g
  let st := s.pgState g
  if st ≠ 2 ∧ st ≠ 3 then s else
  match x.src with
  | 0 =>
    let m := s.pgMod g
    s.moveTo g { x with acc := if m = 0 then 0 else (x.acc + ns) % m } ⟨ns, ns, false, false⟩
  | 1 =>
    let (v, d) := s.encRate x.enc
    let dir : Int := if s.rb (aEncStat x.enc) 3 then -1 else 1
    let kk := (if s.pgInvert g then -x.k else x.k)
    let lim := max 0 (((kk.natAbs : Nat) : Int) - 2 ^ 32)
    let off := if v = 0 then x.off else clampI (-lim) lim (x.off + (v * kk) / (d : Int))
    let off := if (dir * kk) * off < 0 then 0 else off
    s.moveTo g { x with off := off } ⟨(off - x.off) / 2 ^ 32, off - x.off, false, false⟩
  | 2 => s.moveTo g { x with acc := (((x.acc : Int) + x.inc) % ((2 ^ 48 : Nat) : Int)).toNat } ⟨x.inc / 2 ^ 16, x.inc, false, false⟩
  | _ => s.moveTo g { x with acc := (((x.acc : Int) + x.k) % ((2 ^ 64 : Nat) : Int)).toNat } ⟨x.k / 2 ^ 32, x.k, false, false⟩

/-- The PTP clock after adding n units of 2^-32 ns (R273). -/
def addPtp (c : Clock) (n : Nat) : Clock :=
  let f := c.frac + n
  let ns := c.ns + f / 2 ^ 32
  { c with frac := f % 2 ^ 32, ns := ns % 1000000000, sec := (c.sec + ns / 1000000000) % 2 ^ 48 }

/-- The PTP time in units of 2^-32 ns (R273). -/
def finePtp (c : Clock) : Nat := (c.sec * 1000000000 + c.ns) * 2 ^ 32 + c.frac

/-- The PTP clock moved by a signed number of 2^-32 ns. -/
def stepPtp (c : Clock) (off : Int) : Clock :=
  let t := (((finePtp c : Nat) : Int) + off) % ((2 ^ 80 * 1000000000 : Nat) : Int)
  let ns := t.toNat / 2 ^ 32
  { c with sec := ns / 1000000000, ns := ns % 1000000000, frac := t.toNat % 2 ^ 32 }

/-- One TIME_CLK tick of the PTP clock and the generators (R257, R273). -/
def State.tickMile (s : State) : State :=
  let before := s.ptpNs
  let s := { s with clock := addPtp s.clock s.clock.addend }
  let ns := s.ptpNs - before
  (List.range 4).foldl (fun s g => s.tickGen g ns) s

/-- Carry out a change of the timebase (R256, R261, R277). -/
def State.applyChange (s : State) (c : Change) : State :=
  match c with
  | .addend v => { s with clock := { s.clock with addend := v } }
  | .clock off =>
    let far : Int := (((finePtp s.clock : Nat) : Int) + off) / 2 ^ 32 - (s.ptpNs : Int)
    let s := { s with clock := stepPtp s.clock off }
    (List.range 4).foldl (fun s g =>
      let x := s.gen g
      let m := s.pgMod g
      if x.src = 0 ∧ s.pgState g = 2 ∧ 0 < m then
        s.moveTo g { x with acc := (((x.acc : Int) + far) % (m : Int)).toNat } ⟨far, far, true, true⟩
      else s) s
  | .k g v => s.setGen g { s.gen g with k := v }
  | .adj g v =>
    let x := s.gen g
    if x.src = 3 ∧ s.pgState g = 2 then
      s.moveTo g { x with acc := (((x.acc : Int) + v * 2 ^ 32) % ((2 ^ 64 : Nat) : Int)).toNat } ⟨v, v, true, false⟩
    else s

/-- TIMEBASE_CHANGE (R256): the 64 ticks of the oldest accepted change are over. -/
def execTimebaseChange (s : State) : Host.Outcome State Fault Refusal :=
  match s.mile.changes with
  | [] => .next s
  | c :: r => .next (({ s with mile := { s.mile with changes := r } } : State).applyChange c)

def State.addChange (s : State) (c : Change) : State := { s with mile := { s.mile with changes := s.mile.changes ++ [c] } }

/-! ### Configuration of the generators (R255, R261) -/

def kMax : Int := 4294967 * 2 ^ 32

/-- Whether the configuration of generator g is valid for an ENABLE (R255, R259). -/
def State.pgValid (s : State) (g src enc : Nat) : Bool :=
  let per := (s.rd (pgReg g 4)).toNat
  let pmin := (s.rd (mpReg 0xC4)).toNat
  match src with
  | 0 => decide (1000 ≤ per) && decide ((s.rd (pgReg g 0xC)).toNat < per)
  | 1 => decide (enc < 48)
  | 2 => decide (10000 ≤ pmin) && decide (pmin < (s.rd (mpReg 0xC8)).toNat)
  | _ => decide (-kMax ≤ s.pgK g) && decide (s.pgK g ≤ kMax)

/-- At an ENABLE of a time generator, entries that break R265 under the new PERIOD become invalid. -/
def State.dropEntries (s : State) (g : Nat) : State :=
  let m := s.pgMod g
  s.mile.entries.foldl (fun t c =>
    if c.2.valid ∧ c.2.gen = g ∧ (m < c.2.subs * c.2.stride.toNat ∨ m < 4 * c.2.hyst.toNat) then
      ((t.setWbEntry c.1 { c.2 with cfg := setBit c.2.cfg 31 false }).wb (rga 0x401 0x60) 1 true).pf (rga 0x401 0x60) 25 16 c.1
    else t) s

/-- ENABLE of a generator (R255, R257 to R261). -/
def State.pgStart (s : State) (g : Nat) : State :=
  let cfg := s.rd (pgReg g 0)
  let src := fld cfg 29 28
  let enc := fld cfg 21 16
  if !s.pgValid g src enc then (s.wb (pgReg g 0x18) 6 true).wb (pgReg g 0) 31 false else
  let per := (s.rd (pgReg g 4)).toNat
  let off := (s.rd (pgReg g 0xC)).toNat
  let k := s.pgK g
  let x : Gen := { src := src, enc := enc, k := k, fracHeld := (s.gen g).fracHeld }
  match src with
  | 0 =>
    let s := s.setGen g { x with acc := ((((s.ptpNs : Int) - off) % ((max per 1 : Nat) : Int))).toNat }
    (s.dropEntries g).startGen g
  | 1 =>
    let p := (s.encPos enc - toS 32 off) * k
    let s := (s.setGen g { x with acc := (p % ((2 ^ 64 : Nat) : Int)).toNat }).startGen g
    if s.rb (aEncStat enc) 5 then s.srcLost g else s
  | 2 => ((s.setGen g x).pf (pgReg g 0x18) 2 0 1).wr (pgReg g 0x14) 0
  | _ => (s.setGen g x).startGen g

/-- A write of PG_CFG (R255). -/
def State.wrPgCfg (s : State) (f : Func) (g : Nat) (v : Word) : State :=
  let s := s.store f (pgReg g 0) v 0
  if tbit v 31 ∧ s.pgState g = 0 then s.pgStart g
  else if !tbit v 31 then s.pf (pgReg g 0x18) 2 0 0
  else s

/-- A write of PG_PARAM (R255, R261): a held PG_FRAC goes with it. -/
def State.wrPgParam (s : State) (f : Func) (g : Nat) (v : Word) : State :=
  if s.pgState g ≠ 0 ∧ s.pgSrc g ≠ 3 then s.wb (pgReg g 0x18) 6 true else
  let frac := (s.gen g).fracHeld.getD (s.rd (pgReg g 8))
  let k := toS 64 (v.toNat * 2 ^ 32 + frac.toNat)
  if s.pgState g ≠ 0 ∧ ¬(-kMax ≤ k ∧ k ≤ kMax) then s.wb (pgReg g 0x18) 6 true else
  let s := ((s.store f (pgReg g 4) v 0).wr (pgReg g 8) frac).setGen g { s.gen g with fracHeld := none }
  if s.pgState g ≠ 0 then s.addChange (.k g k) else s

/-- A write of PG_FRAC: for the free-running source it is held until PG_PARAM is written (R261). -/
def State.wrPgFrac (s : State) (f : Func) (g : Nat) (v : Word) : State :=
  if s.pgSrc g = 3 then s.setGen g { s.gen g with fracHeld := some v }
  else if s.pgState g ≠ 0 then s.wb (pgReg g 0x18) 6 true
  else s.store f (pgReg g 8) v 0

/-- A write of PG_OFFSET: only while OFF (R255). -/
def State.wrPgOffset (s : State) (f : Func) (g : Nat) (v : Word) : State :=
  if s.pgState g ≠ 0 then s.wb (pgReg g 0x18) 6 true else s.store f (pgReg g 0xC) v 0

/-- A write of PG_ADJ (R261). -/
def State.wrPgAdj (s : State) (g : Nat) (v : Word) : State :=
  let a := toS 32 v.toNat
  if 2 ^ 30 ≤ a.natAbs then s.wb (pgReg g 0x18) 6 true
  else if s.pgSrc g = 3 ∧ s.pgState g = 2 then s.addChange (.adj g a)
  else s

/-! ### The zero-crossing input (R259, R260) -/

/-- The mean of the accepted periods, truncated. -/
def meanPeriod (l : List Nat) : Nat := l.sum / max l.length 1

/-- The correction of R260 at an edge `held` ns ago. -/
def zcCorrect (x : Gen) (zc held : Nat) : Gen :=
  let at_ := ((((x.acc : Int) - x.inc * (held : Int)) % ((2 ^ 48 : Nat) : Int)).toNat) / 2 ^ 16
  let e := phDist (2 ^ 32) at_ zc
  { x with inc := (2 ^ 48 - e * 65536) / ((max x.pavg 1 : Nat) : Int) }

/-- Add a period to the history of four. -/
def addPeriod (l : List Nat) (p : Nat) : List Nat := let l := l ++ [p]; l.drop (l.length - 4)

/-- A filtered edge at tick t for mains generator g (R259, R260). -/
def State.zcEdge (s : State) (g t held : Nat) : State :=
  let x := s.gen g
  let pmin := (s.rd (mpReg 0xC4)).toNat
  let pmax := (s.rd (mpReg 0xC8)).toNat
  let zc := (s.rd (pgReg g 0xC)).toNat
  let glitch := s.incSat (mpReg 0xCC) 31 16
  match s.pgState g with
  | 1 =>
    (match x.lastEdge with
    | none => s.setGen g { x with lastEdge := some t }
    | some t0 =>
      if t - t0 < pmin then glitch
      else if pmax < t - t0 then s.setGen g { x with lastEdge := some t, periods := [] }
      else
        let ps := x.periods ++ [t - t0]
        if ps.length < 4 then s.setGen g { x with lastEdge := some t, periods := ps }
        else
          let pavg := meanPeriod ps
          let inc : Int := ((2 ^ 48 / max pavg 1 : Nat) : Int)
          let acc := (zc * 2 ^ 16 + inc.toNat * held) % 2 ^ 48
          (s.setGen g { x with lastEdge := some t, periods := ps, pavg := pavg, inc := inc, acc := acc }).startGen g)
  | 2 =>
    let p := t - x.lastEdge.getD t
    if p < pmin ∨ pmax < p then glitch
    else
      let ps := addPeriod x.periods p
      s.setGen g (zcCorrect { x with lastEdge := some t, periods := ps, pavg := meanPeriod ps } zc held)
  | 3 =>
    let at_ := ((((x.acc : Int) - x.inc * (held : Int)) % ((2 ^ 48 : Nat) : Int)).toNat) / 2 ^ 16
    if 2 ^ 29 < (phDist (2 ^ 32) at_ zc).natAbs then glitch
    else (s.setGen g (zcCorrect { x with lastEdge := some t } zc held)).startGen g
  | _ => s

/-- ZC_EDGE (R259): an edge whose new level has held for `held` ns. -/
def execZcEdge (falling : Bool) (held : Nat) (s : State) : Host.Outcome State Fault Refusal :=
  if falling ≠ s.rb (mpReg 0xC0) 0 ∨ held < s.rf (mpReg 0xC0) 31 16 then .next s else
  .next ((List.range 4).foldl (fun s g => if (s.gen g).src = 2 then s.zcEdge g (s.clock.tick - held) held else s) s)

/-- ZC_TIMEOUT (R259): ZC_PMAX passes; an edge on that very tick wins. -/
def execZcTimeout (g : Fin 4) (edge : Bool) (s : State) : Host.Outcome State Fault Refusal :=
  if (s.gen g.val).src = 2 ∧ s.pgState g.val = 2 ∧ !edge then
    .next ((s.pf (pgReg g.val 0x18) 2 0 3).incSat (mpReg 0xCC) 15 0)
  else .next s

/-- SRC_LOST (R259): HOLD_CYCLES cycles have passed in HOLDOVER. -/
def execSrcLost (g : Fin 4) (s : State) : Host.Outcome State Fault Refusal :=
  if s.pgState g.val = 3 then .next (s.srcLost g.val) else .next s

/-! ### The PTP clock (R274 to R276) -/

/-- The ADDEND last accepted. -/
def State.lastAddend (s : State) : Nat := s.mile.changes.foldl (fun m c => match c with | .addend a => a | _ => m) s.clock.addend

/-- A write of ADDEND_HI commits the pair, or discards it whole (R274). -/
def State.wrAddendHi (s : State) (f : Func) (v : Word) : State :=
  let a := v.toNat * 2 ^ 32 + (s.rd (mpReg 0x10C)).toNat
  if 4292819813 ≤ a ∧ a ≤ 4297114779 then (s.store f (mpReg 0x110) v 0).addChange (.addend a)
  else (((s.wr (mpReg 0x10C) (w32 s.lastAddend)).wb (mpReg 0x128) 2 true).raise 0x400 7).logNamed 0x400 evTimebase 6 7 255

/-- A write of TS_CTL (R275). The current time that a SET's offset is taken from includes its fraction. -/
def State.wrTsCtl (s : State) (f : Func) (v : Word) : State :=
  let set := tbit v 0
  let stp := tbit v 1
  let force := tbit v 2 && isMgmt f
  if (set && stp) || (force && !set && !stp) then s.wb (mpReg 0x128) 4 true
  else if !set && !stp then s
  else
    let staged : Nat := (s.rf (mpReg 0x11C) 15 0 * 2 ^ 32 + (s.rd (mpReg 0x118)).toNat) * 1000000000 + s.rf (mpReg 0x114) 29 0
    let off : Int := if set then ((staged * 2 ^ 32 : Nat) : Int) - ((finePtp s.clock : Nat) : Int) else toS 32 (s.rd (mpReg 0x120)).toNat * 2 ^ 32
    if s.rb (mpReg 0x128) 31 || force || decide (off.natAbs ≤ (s.rd (mpReg 0x12C)).toNat * 2 ^ 32) then
      let s := (s.wb (mpReg 0x128) 31 false).addChange (.clock off)
      if force then s.logNamed 0x400 evMgmt 4 (ofS 32 (off / 2 ^ 32)) 255 else s
    else ((s.wb (mpReg 0x128) 1 true).raise 0x400 0).logNamed 0x400 evTimebase 6 0 255

/-- ANNOUNCE (R276): the grandmaster identity of a message on the slave port. -/
def execAnnounce (port : Fin 4) (gmLo gmHi : Word) (s : State) : Host.Outcome State Fault Refusal :=
  let c := s.rd (mpReg 0x130)
  if !tbit c 26 ∨ fld c 25 24 ≠ port.val then .next s
  else if s.rd (mpReg 0x134) = gmLo ∧ s.rd (mpReg 0x138) = gmHi then .next s
  else
    .next (((((s.wr (mpReg 0x134) gmLo).wr (mpReg 0x138) gmHi).wb (mpReg 0x128) 3 true).raise 0x400 1).logNamed 0x400 evTimebase 6 1 255)

/-- PDELAY_REQ (R280): in P2P mode the module answers and holds the measured link delay. -/
def execPdelayReq (port : Fin 4) (seqId : BitVec 16) (linkDelay : Word) (s : State) : Host.Outcome State Fault Refusal :=
  let c := s.rd (mpReg 0x130)
  if tbit c 31 ∧ tbit c 30 then
    let s := s.wr (mpReg (0x14C + 0x20 * port.val)) linkDelay
    .next { s with mile := { s.mile with answers := s.mile.answers ++ [(port.val, seqId.toNat)] } }
  else .next s

/-- Add a transmit stamp to a port's FIFO of 16 (R279). -/
def State.pushStamp (s : State) (port : Nat) (x : TxStamp) : State :=
  let l := mapGet (fun _ => []) s.mile.stamps port
  let full := decide (16 ≤ l.length)
  let l' := (if full then l.drop 1 else l) ++ [x]
  let s := { s with mile := { s.mile with stamps := mapSet (fun _ => []) s.mile.stamps port l' } }
  let s := if full then s.incSat (mpReg (0x150 + 0x20 * port)) 23 16 else s
  (s.raise 0x400 5).logNamed 0x400 evTimebase 6 5 255

/-- TS_NS_READ (R284): the nanoseconds; the seconds are latched. -/
def State.readTsNs (s : State) : State :=
  { ((s.wr (mpReg 0x104) (w32 s.clock.sec)).wr (mpReg 0x108) (w32 (s.clock.sec / 2 ^ 32 % 65536))) with rdata := w32 s.clock.ns }

/-- TXTS_INFO_READ (R284): the FIFO head moves into TXTS_NS and TXTS_SEC. -/
def State.readTxts (s : State) (port : Nat) : State :=
  let b := 0x20 * port
  let ovf := s.rf (mpReg (0x150 + b)) 23 16
  match mapGet (fun _ => []) s.mile.stamps port with
  | [] => { s with rdata := w32 (ovf * 65536) }
  | x :: r =>
    let s := { s with mile := { s.mile with stamps := mapSet (fun _ => []) s.mile.stamps port r } }
    let s := (s.wr (mpReg (0x154 + b)) (w32 x.ns)).wr (mpReg (0x158 + b)) (w32 x.sec)
    { s with rdata := w32 (2 ^ 31 + x.msg % 16 * 2 ^ 24 + ovf * 65536 + x.seq % 65536) }

/-! ### The rows of register accesses -/

def execPgEnable (f : Func) (g : Fin 4) (v : Word) (s : State) : Host.Outcome State Fault Refusal :=
  .next (s.guarded f (pgReg g.val 0) (fun s => s.wrPgCfg f g.val v))
def execKWrite (f : Func) (g : Fin 4) (v : Word) (s : State) : Host.Outcome State Fault Refusal :=
  .next (s.guarded f (pgReg g.val 4) (fun s => s.wrPgParam f g.val v))
def execPgAdj (f : Func) (g : Fin 4) (v : Word) (s : State) : Host.Outcome State Fault Refusal :=
  .next (s.guarded f (pgReg g.val 0x10) (fun s => s.wrPgAdj g.val v))
def execAddendWrite (f : Func) (v : Word) (s : State) : Host.Outcome State Fault Refusal :=
  .next (s.guarded f (mpReg 0x110) (fun s => s.wrAddendHi f v))
def execSet (f : Func) (v : Word) (s : State) : Host.Outcome State Fault Refusal :=
  .next (s.guarded f (mpReg 0x124) (fun s => s.wrTsCtl f v))
def execStep (f : Func) (v : Word) (s : State) : Host.Outcome State Fault Refusal :=
  .next (s.guarded f (mpReg 0x124) (fun s => s.wrTsCtl f v))

/-- Whether a read of function f reaches a page that virtual functions do not see (R446, R460). -/
def State.mayRead (s : State) (f : Func) (a : Nat) : Bool :=
  match pageId (a / 4096) with
  | none => false
  | some i => s.reaches f i && !isVf f

def execTsNsRead (f : Func) (s : State) : Host.Outcome State Fault Refusal :=
  if s.mayRead f (mpReg 0x100) then .next s.readTsNs else .next { s with rdata := 0 }
def execTxtsInfoRead (f : Func) (port : Fin 4) (s : State) : Host.Outcome State Fault Refusal :=
  if s.mayRead f (mpReg (0x150 + 0x20 * port.val)) then .next (s.readTxts port.val) else .next { s with rdata := 0 }

end Sys2Proof.Machine
end

