-- ==== Sys2Proof/Machine/Encoder.lean ====
section
/-!
DEFINITION. The encoder interfaces (R307 to R311, R317, R320): incremental counting, speed, the index, SSI transfers and loss
of feedback.
-/
namespace Sys2Proof.Machine

def encReg (n off : Nat) : Nat := rga (encPage n) off
def State.encMode (s : State) (n : Nat) : Nat := s.rf (encReg n 0x40) 31 30

/-- Show the position of a count in ENC_POS: the count plus ENC_OFFSET, 48 bits (R307). -/
def State.showPos (s : State) (n : Nat) (count : Int) : State :=
  let p := ofS 48 (count + toS 32 (s.rd (encReg n 0x64)).toNat)
  (s.wr (encReg n 0x50) (w32 p)).wr (encReg n 0x54) (w32 (p / 2 ^ 32))

/-- The position follows a count or an offset (R307), and the shaft generators follow the position (R258). -/
def State.setPos (s : State) (n : Nat) (count : Int) : State :=
  let old := s.encPos n
  let s := s.showPos n count
  s.shaftMove n (s.encPos n - old)

/-- FEEDBACK_LOST on an encoder's axis (R320): the closed loop triggers the group's safe action, the axis itself in the
fallback form (R323). -/
def State.axisLost (s : State) (a : Nat) : State :=
  let s := (s.wb (aAxStat a) 8 true).drvEvent (axPage a) 0x0A02
  if s.inLoop a then s.trigger (a / 4) (s.safeAction (a / 4)) (fun b => b == a) else s

def State.encLost (s : State) (n : Nat) : State := ((s.wb (aEncStat n) 5 true).shaftLost n).axisLost n

/-- A signal fault of an encoder (R317): SIGNAL_FAULT and FEEDBACK_LOST. -/
def State.signalFault (s : State) (n : Nat) : State :=
  ((s.wb (aEncStat n) 6 true).drvEvent (encPage n) 0x0A0D).encLost n

/-- The speed at tick t (R308): the estimate, capped by the time since the last edge. -/
def State.speedAt (s : State) (n t : Nat) : Word :=
  let (v, d) := s.encRate n
  if v = 0 then 0
  else if s.encMode n = 2 then f32Ratio (v * 1000000000) d
  else
    let gap := t - (s.enc n).edges.getD 0 t
    let est := f32Ratio (v * 1000000000) d
    let cap := f32Ratio (if v < 0 then -1000000000 else 1000000000) gap
    if gap = 0 then est else if flt (fabs cap) (fabs est) then cap else est

/-- Store the speed at tick t in ENC_SPEED. -/
def State.showSpeed (s : State) (n t : Nat) : State := s.wr (encReg n 0x58) (s.speedAt n t)

/-- An encoder has no valid speed. -/
def State.noSpeed (s : State) (n : Nat) : State := (s.wb (aEncStat n) 0 false).wr (encReg n 0x58) 0

/-- A counted edge in a direction (R307 to R309). -/
def State.countEdge (s : State) (n : Nat) (back : Bool) : State :=
  let t := s.clock.tick
  let x := s.enc n
  let neg := back != s.rb (encReg n 0x40) 29
  let count := x.count + (if neg then -1 else 1)
  let dir := s.rb (aEncStat n) 3
  let s := (s.wr (encReg n 0x60) (w32 t)).wb (aEncStat n) 1 false
  let s :=
    if x.edges.isEmpty then
      ((s.setEnc n { x with count := count, edges := [t] }).wb (aEncStat n) 3 neg).noSpeed n
    else if dir ≠ neg then
      (((s.setEnc n { x with count := count, edges := [t] }).wb (aEncStat n) 3 neg).wb (aEncStat n) 2 true).noSpeed n
    else
      let s := s.setEnc n { x with count := count, edges := (t :: x.edges).take 16 }
      ((s.wb (aEncStat n) 0 true).wb (aEncStat n) 2 false).showSpeed n t
  s.setPos n count

/-- An illegal transition (R307, R317): no count; four within 1 ms are a signal fault. -/
def State.illegalEdge (s : State) (n : Nat) : State :=
  let t := s.clock.tick
  let x := s.enc n
  let l := (t :: x.illegal).filter (fun u => decide (t - u < 1000000))
  let s := ((s.setEnc n { x with edges := [], illegal := l.take 4 }).incSat (aEncStat n) 31 16).noSpeed n
  if 4 ≤ l.length then s.signalFault n else s

/-- ENCODER_EDGE (R307): the filtered levels of A and B after an edge. A leading B counts up. -/
def execEncoderEdge (n : Fin 48) (a b : Bool) (s : State) : Host.Outcome State Fault Refusal :=
  let x := s.enc n.val
  let s1 := s.setEnc n.val { x with a := a, b := b }
  if s.encMode n.val ≠ 1 then .next s1
  else if x.a ≠ a ∧ x.b ≠ b then .next (s1.illegalEdge n.val)
  else if x.a = a ∧ x.b = b then .next s1
  else
    let back := if x.a ≠ a then a == b else a != b
    .next (s1.countEdge n.val back)

/-- ENCODER_INDEX (R307): the count modulo COUNTS_PER_REV against its value at the first index edge since ENABLE. -/
def execEncoderIndex (n : Fin 48) (s : State) : Host.Outcome State Fault Refusal :=
  let cpr := (s.lawW n.val 17).toNat
  if s.encMode n.val ≠ 1 ∨ !s.rb (encReg n.val 0x40) 28 ∨ cpr = 0 then .next s else
  let x := s.enc n.val
  let c := x.count % (cpr : Int)
  match x.index with
  | none => .next (s.setEnc n.val { x with index := some c })
  | some f =>
    let d := (c - f) % (cpr : Int)
    let d := min d ((cpr : Int) - d)
    if d ≤ (s.rf (encReg n.val 0x4C) 15 0 : Int) then .next s
    else .next ((s.wb (aEncStat n.val) 7 true).signalFault n.val)

/-- T_STOP_EXPIRY (R309): standstill; an edge in the same tick wins. -/
def execTStopExpiry (n : Fin 48) (edge : Bool) (s : State) : Host.Outcome State Fault Refusal :=
  if edge ∨ s.encMode n.val ≠ 1 then .next s
  else .next (((s.setEnc n.val { s.enc n.val with edges := [] }).wb (aEncStat n.val) 1 true).noSpeed n.val)

/-- SIGNAL_FAULT (R317): an open or shorted differential pair. -/
def execSignalFault (n : Fin 48) (s : State) : Host.Outcome State Fault Refusal := .next (s.signalFault n.val)

/-! ### SSI (R310, R311) -/

/-- Gray to binary of an n-bit code. -/
def grayDecode : Nat → Nat → Nat
  | 0, g => g
  | n + 1, g => g ^^^ grayDecode n (g / 2)

/-- A refused or missed transfer: the second in a row loses the feedback (R310, R311). -/
def State.ssiRefuse (s : State) (n : Nat) : State :=
  let x := s.enc n
  let s := (s.setEnc n { x with refused := x.refused + 1 }).wb (aEncStat n) 4 true
  if 2 ≤ x.refused + 1 then s.encLost n else s

/-- A sample tick starts a transfer, unless the previous one still runs (R310). -/
def State.ssiStart (s : State) (n : Nat) : State :=
  let x := s.enc n
  match x.ssi with
  | some _ => s.ssiRefuse n
  | none => s.setEnc n { x with ssi := some s.clock.tick }

/-- A good sample at tick t (R310): position, speed from the second sample on. -/
def State.ssiGood (s : State) (n : Nat) (p : Int) (t : Nat) : State :=
  let x := s.enc n
  let sp := match x.good with | some (p0, t0) => some (p - p0, t - t0) | none => none
  let s := s.setEnc n { x with ssi := none, good := some (p, t), ssiSpeed := sp, refused := 0, count := p }
  let s := if sp.isSome then ((s.wb (aEncStat n) 0 true).wb (aEncStat n) 3 (match sp with | some (d, _) => d < 0 | none => false)).showSpeed n t
    else s.noSpeed n
  s.setPos n p

/-- SSI_TRANSFER_END (R310, R311): data bits and the parity bit as received. -/
def execSsiTransferEnd (n : Fin 48) (bits : Word) (parityBit : Bool) (s : State) : Host.Outcome State Fault Refusal :=
  let x := s.enc n.val
  match x.ssi with
  | none => .next s
  | some t =>
    let cfg := s.rd (encReg n.val 0x40)
    let w := s.rf (encReg n.val 0x44) 29 24
    let raw := bits.toNat % 2 ^ w
    let ones := popcount 32 raw + b2n parityBit
    let parOk : Bool := match fld cfg 26 25 with | 1 => ones % 2 == 0 | 2 => ones % 2 == 1 | _ => true
    let v := if tbit cfg 27 then grayDecode 32 raw % 2 ^ w else raw
    let p : Int := if tbit cfg 29 then -(v : Int) else v
    let jump : Bool := match x.good with | some (p0, _) => decide ((s.rd (encReg n.val 0x48)).toNat < (p - p0).natAbs) | none => false
    if !parOk ∨ jump then .next ((s.setEnc n.val { x with ssi := none }).ssiRefuse n.val)
    else .next (s.ssiGood n.val p t)

/-- MONO_TIMEOUT (R311): the data line is not high before the first clock, or does not return within MONO; a return in the
same tick wins. -/
def execMonoTimeout (n : Fin 48) (returned : Bool) (s : State) : Host.Outcome State Fault Refusal :=
  if returned ∨ s.encMode n.val ≠ 2 then .next s
  else .next ((s.setEnc n.val { s.enc n.val with ssi := none }).encLost n.val)

/-- A write of ENC_CFG (R330): only while the axis is DISABLED or SAFE; MODE 3 is discarded. -/
def State.wrEncCfg (s : State) (f : Func) (n : Nat) (v : Word) : State :=
  if s.inLoop n ∨ fld v 31 30 = 3 then s else s.store f (encReg n 0x40) v 0

end Sys2Proof.Machine
end

