-- ==== Sys2Proof/Machine/Drover.lean ====
section
/-!
DEFINITION. The control datapaths (R286 to R302, R318 to R326): law descriptors, the trajectory mailbox, control periods,
the loops, notches and observer, latches and telemetry.
-/
namespace Sys2Proof.Machine

/-! ### The law descriptor (R293, R294) -/

def fgt0 (a : Word) : Bool := isFinite a && flt 0 a
def fge0 (a : Word) : Bool := isFinite a && !flt a 0
def fin01 (a lo hi : Word) : Bool := isFinite a && !flt a lo && !flt hi a
def fle (a b : Word) : Bool := !flt b a

/-- The execution rate fs of an axis in Hz, in FP32 (R294). -/
def lawFs (w0 : Word) : Word := f32Ratio 1000000000 (31250 * (fld w0 23 20 + 1))

/-- F0 is at most 0.45 × fs, exactly: F0 × 31,250 × (DIV_M1 + 1) ≤ 0.45 × 10^9 (R294). -/
def notchMax (w0 f0 : Word) : Bool :=
  match f32Dec f0 with
  | .fin _ m e =>
    let n := m * (31250 * (fld w0 23 20 + 1))
    if 0 ≤ e then decide (n * 2 ^ e.toNat ≤ 450000000) else decide (n ≤ 450000000 * 2 ^ (-e).toNat)
  | _ => false

/-- A notch's three words are in range (R294). -/
def notchOk (w0 f0 q depth : Word) (k : Nat) : Bool :=
  match k with
  | 0 => fgt0 f0 && notchMax w0 f0
  | 1 => fin01 q f32Half 0x42480000
  | _ => fin01 depth 0 f32One

/-- Whether word i of a staged descriptor is in range (R294). -/
def lawWordOk (w : Nat → Word) (i : Nat) : Bool :=
  let w0 := w 0
  let nn := fld w0 27 26
  match i with
  | 0 => fld w0 31 30 != 3 && nn != 3 && fld w0 19 12 != 0 && fld w0 11 0 == 0
  | 1 | 2 | 4 | 5 => fge0 (w i)
  | 3 | 7 | 24 | 25 | 29 | 31 => fgt0 (w i)
  | 6 => fgt0 (w 6) && flt (w 6) (w 24)
  | 8 => fin01 (w 8) 0 f32Two
  | 9 => isFinite (w 9)
  | 10 | 11 | 12 => nn == 0 || notchOk w0 (w 10) (w 11) (w 12) (i - 10)
  | 13 | 14 | 15 => decide (nn < 2) || notchOk w0 (w 13) (w 14) (w 15) (i - 13)
  | 16 => decide (1 ≤ (w 16).toNat ∧ (w 16).toNat ≤ 64)
  | 17 => decide (4 ≤ (w 17).toNat ∧ (w 17).toNat ≤ 2 ^ 31)
  | 19 => isFinite (w 19) && fle (fabs (w 19)) (w 6)
  | 20 => fgt0 (w 20)
  | 21 => isFinite (w 21) && fle (w 20) (w 21)
  | 22 => fin01 (w 22) 0x42C80000 0x47C35000
  | 23 => fld (w 23) 31 24 != 0 && fld (w 23) 23 2 == 0
  | 26 | 27 | 28 => fin01 (w i) 0 f32One
  | 30 => fld (w 30) 31 24 != 0 && fld (w 30) 23 16 != 0 && fld (w 30) 15 0 != 0
  | _ => true

/-- Words that may change only on a DISABLED axis: LOOP and MOTOR in word 0, POLE_PAIRS, COUNTS_PER_REV (R293). -/
def lawFixed (old new : Nat → Word) (i : Nat) : Bool :=
  match i with
  | 0 => fld (old 0) 31 30 == fld (new 0) 31 30 && fld (old 0) 25 25 == fld (new 0) 25 25
  | 16 => old 16 == new 16
  | 17 => old 17 == new 17
  | _ => true

def State.staged (s : State) (a w : Nat) : Word := s.rd (axReg a (0x100 + 4 * w))

/-- The first failing word of a commit (R293). -/
def State.lawBad (s : State) (a : Nat) : Option Nat :=
  (List.range 32).find? (fun i => !lawWordOk (s.staged a) i || (s.axState a != 0 && !lawFixed (s.lawW a) (s.staged a) i))

/-- The band within its limits (R306). -/
def State.bandClamp (s : State) (a : Nat) : State :=
  s.wr (axReg a 0x58) (if tbit (s.lawW a 0) 24 then fclamp (s.rd (axReg a 0x58)) (s.lawW a 20) (s.lawW a 21) else s.lawW a 20)

/-- The active words come into force; a notch whose words change starts afresh, and the band follows ADAPT_EN (R293, R302, R306). -/
def State.activate (s : State) (a : Nat) : State :=
  let x := s.axis a
  let w (i : Nat) : Word := s.rd (axReg a (0x180 + 4 * i))
  let same (b : Nat) : Bool := (List.range 3).all (fun i => s.lawW a (b + i) == w (b + i))
  let used (k : Nat) : Bool := decide (k < fld (s.lawW a 0) 27 26)
  let s := s.setAxis a { x with lawOld := none,
                                n1 := if same 10 && used 0 then x.n1 else { x.n1 with ready := false },
                                n2 := if same 13 && used 1 then x.n2 else { x.n2 with ready := false } }
  if s.inLoop a then s.bandClamp a else s

/-- The staged words become the active ones; those before them stay in force. -/
def State.copyLaw (s : State) (a : Nat) : State :=
  let old := (List.range 32).map (s.lawW a)
  let ws := (List.range 32).map (s.staged a)
  let s := (List.range 32).foldl (fun (s : State) i => s.wr (axReg a (0x180 + 4 * i)) (ws.getD i 0)) s
  s.setAxis a { s.axis a with lawOld := some old }

/-- LAW_COMMIT (R293): the staged words become the active ones. Words 20 and 21 are in force at once, the others at the next
executed period; all at once on an axis that executes none. -/
def State.lawCommit (s : State) (a : Nat) : State :=
  match s.lawBad a with
  | some i => (s.wb (aAxStat a) 15 true).pf (aAxStat a) 23 16 i
  | none =>
    let s := (s.wb (aAxStat a) 6 true).copyLaw a
    if s.inLoop a then s.bandClamp a else s.activate a

/-! ### ENABLE and DISABLE (R287, R288) -/

def State.axEnable (s : State) (a : Nat) : State :=
  let g := a / 4
  if s.axState a = 0 ∧ !s.groupSafe g ∧ s.rb (aAxStat a) 6 ∧ s.encMode a ≠ 0 ∧ !s.rb (aEncStat a) 5 ∧ s.rf (aAlStat g) 1 0 = 2
      ∧ !s.safeHold then s.setAxis a { s.axis a with enPend := true }
  else s.wb (aAxStat a) 14 true

/-- DISABLE leaves RUNNING for DISABLED with the bridges OFF (R287). -/
def State.axDisable (s : State) (a : Nat) : State :=
  let s := s.setAxis a { s.axis a with enPend := false }
  if s.axState a = 1 then (s.setAxis a (bridgesOff (s.axis a))).setAxState a 0 else s

/-- A write of AX_CTL (R329). -/
def State.wrAxCtl (s : State) (a : Nat) (v : Word) : State :=
  let s := if tbit v 2 then s.lawCommit a else s
  let s := if tbit v 1 then s.axDisable a else s
  if tbit v 0 then s.axEnable a else s

/-- The enabling period (R288, R306, R307, R318, R321): an incremental encoder's speed run starts anew, so the observer's speed is 0. What
an SSI encoder gives comes with the period's transfer (State.firstUse). -/
def State.enabling (s : State) (a : Nat) : State :=
  let x := s.axis a
  let pos := s.encPos a
  let x := { x with enPend := false, periods := 0, prev := none, ip := 0, iv := 0, iqPrev := 0, res := none, pend := none,
                    n1 := {}, n2 := {}, op := f32Ratio pos 1, ov := 0, od := 0, first := true, pl := 0, posChg := none,
                    fw := 0, fs := 0, fdz := 0, fn := 0, seg := none, pref := pos * 65536, expired := false, miss := 0, changes := 0,
                    form := 0, ended := false, phases := [] }
  let s := s.setAxis a x
  let e := s.enc a
  let s := s.setEnc a { e with edges := [], index := none }
  let s := if s.encMode a = 1 then s.noSpeed a else s
  let s := (s.setAxState a 1).wb (aAxStat a) 13 false
  let s := s.setBrake (a / 4) false
  let mid := fdiv (fadd (s.lawW a 20) (s.lawW a 21)) f32Two
  s.wr (axReg a 0x58) (if tbit (s.lawW a 0) 24 then mid else s.lawW a 20)

/-! ### The trajectory mailbox (R295 to R297) -/

def dvReg (d off : Nat) : Nat := rga (dvPage d) off

/-- Signed 64 bits and words of a byte string. -/
def sleAt (bs : List Byte) (o : Nat) : Int := toS 64 (leAt bs o 8)
def wAt (bs : List Byte) (o : Nat) : Word := w32 (leAt bs o 4)

/-- A segment (R297): SPAN from 1 to 2^31, finite coefficients. -/
def segAt (bs : List Byte) (o id : Nat) : Option Seg :=
  let span := leAt bs (o + 4) 4
  let c1 := wAt bs (o + 16)
  let c2 := wAt bs (o + 20)
  let c3 := wAt bs (o + 24)
  if 1 ≤ span ∧ span ≤ 2 ^ 31 ∧ isFinite c1 ∧ isFinite c2 ∧ isFinite c3 then
    some ⟨id, leAt bs o 4, span, sleAt bs (o + 8), c1, c2, c3, leAt bs (o + 28) 4⟩
  else none

/-- All of a list of options, or none. -/
def allSome {α : Type} : List (Option α) → Option (List α)
  | [] => some []
  | none :: _ => none
  | some x :: r => (allSome r).map (x :: ·)

/-- The segments of axis a of the buffer with this SEQ (R296). -/
def trajAt (bs : List Byte) (seq a : Nat) : Option AxTraj :=
  let b := leAt bs (8 + a) 1
  let n := b % 32
  if b ≥ 128 ∨ 16 < n then none
  else (allSome ((List.range n).map (fun j => segAt bs (64 + 512 * a + 32 * j) (16 * seq + j)))).map (fun l => ⟨b / 32 % 4, l⟩)

/-- The bit of MB_ERR a buffer fails with (R295, R328), or the copy it holds: SEQ, AXIS_MASK and the updated axes. -/
def mailboxParse (bs : List Byte) (d : Nat) (seq : Nat) : Nat ⊕ List (Nat × AxTraj) :=
  if leAt bs 60 4 ≠ crc32 (bs.take 60 ++ bs.drop 64) then .inl 2
  else if leAt bs 4 4 ≠ (seq + 1) % 2 ^ 32 then .inl 1
  else
    let mask := leAt bs 2 2
    if leAt bs 0 1 ≠ 1 ∨ leAt bs 1 1 ≠ d ∨ 4096 ≤ mask ∨ !((bs.drop 20).take 40).all (· == 0) then .inl 3
    else
      let axes := (List.range 12).filter (fun a => bitOf mask a)
      match allSome (axes.map (fun a => (trajAt bs (leAt bs 4 4) a).map (fun t => (a, t)))) with
      | none => .inl 3
      | some l => .inr l

/-- A rejected buffer (R295): MB_REJECT with the failing check. -/
def State.mbReject (s : State) (d bit : Nat) : State := (s.wb (dvReg d 0x90) bit true).drvEvent (dvPage d) 0x0A0C

/-- MB_COMMIT (R295): the fetched buffer is checked; a good one becomes the active copy in one step, a bad one is rejected.
A buffer matched by two region entries is a REGION_CONFLICT and no bounds fault (R405). -/
def execMbCommit (d : Fin 4) (s : State) : Host.Outcome State Fault Refusal :=
  let x := s.dp d.val
  if x.fetches = 0 then .next s else
  let s := s.setDp d.val { x with fetches := x.fetches - 1 }
  let seq := (s.rd (dvReg d.val 0x8C)).toNat
  let owner := s.rf (dvReg d.val 0x80) 27 24
  let base := 2 ^ 13 * s.rf (dvReg d.val 0x84) 31 13 + 2 ^ 32 * s.rf (dvReg d.val 0x88) 7 0
  let a := base + 8192 * ((seq + 1) % 2)
  match s.regCheck owner false a 6208 with
  | .conflict e => .next (s.regionConflict owner e)
  | .bounds _ => .next (s.mbReject d.val 0)
  | .ok =>
    match mailboxParse (s.hbmRead a 6208) d.val seq with
    | .inl bit => .next (s.mbReject d.val bit)
    | .inr l =>
      let y := s.dp d.val
      let s := s.setDp d.val { y with traj := l.foldl (fun m p => mapSet (fun _ => none) m p.1 (some p.2)) y.traj }
      .next ((s.wr (dvReg d.val 0x8C) (w32 (seq + 1))).wardenFresh 0 d.val)

/-! ### Telemetry (R326) -/

/-- One record of an executed period. -/
def tmRecord (s : State) (a : Nat) (i : AxIn) (period : Nat) : List Byte :=
  natLe 8 i.time ++ natLe 8 (ofS 64 (i.pos * 65536)) ++ natLe 8 (ofS 64 (s.axis a).pref) ++ natLe 4 i.vel.toNat ++
  natLe 4 (s.axis a).iqPrev.toNat ++ natLe 4 (s.rd (axReg a 0x54)).toNat ++ natLe 4 (s.rd (axReg a 0x58)).toNat ++
  natLe 2 (s.rf (aAxStat a) 15 0) ++ natLe 1 a ++ natLe 1 (s.axState a) ++ natLe 4 period ++ zeros 16

/-- Write a telemetry record to the owner's ring, if the ring header and the record lie in the owner's regions (R405). The module never
waits. -/
def State.telemetry (s : State) (d a : Nat) (i : AxIn) : State :=
  let cfg := s.rd (dvReg d 0xA0)
  let n := fld cfg 4 0
  if !tbit cfg 31 ∨ n < 6 ∨ 16 < n then s else
  let base := s.rd64 (dvReg d 0xA4)
  let t := fld cfg 27 24
  match s.regCheck t true base 16 with
  | .conflict e => s.regionConflict t e
  | .bounds _ => s
  | .ok =>
    let w := leNat (s.hbmRead base 8)
    let r := leNat (s.hbmRead (base + 8) 8)
    let p := base + 64 + 64 * (w % 2 ^ n)
    match s.regCheck t true p 64 with
    | .conflict e => s.regionConflict t e
    | .bounds _ => s
    | .ok =>
      let s := if r + 2 ^ n ≤ w then s.addSat (dvReg d 0xAC) 1 else s
      let s := s.hbmWrite p (tmRecord s a i ((s.axis a).periods - 1))
      s.hbmWrite base (natLe 8 (w + 1))

/-! ### A control period (R289, R290) -/

/-- Whether the axis executes in this period (R289). -/
def State.executes (s : State) (a : Nat) : Bool := (s.axis a).periods % (fld (s.lawW a 0) 23 20 + 1) == 0

/-- One axis at the sample tick: its SSI transfer or the cap on its speed, commit words, ENABLE, inputs (R288 to R290, R293, R308, R310). -/
def State.sampleAxis (s : State) (d a : Nat) (plen : Nat) : State :=
  let ssi := s.encMode a = 2 ∧ (s.enc a).ssi.isNone
  let s := if s.encMode a = 2 then s.ssiStart a else s
  let s := if (s.axis a).enPend then s.enabling a else s
  let s := if s.encMode a = 1 ∧ s.rb (aEncStat a) 0 then s.showSpeed a s.clock.tick else s
  if !s.inLoop a then s.setAxis a { s.axis a with inp := none, executed := false } else
  let exe := s.executes a
  let x := s.axis a
  let s := s.setAxis a { x with periods := x.periods + 1, executed := exe }
  if !exe then s else
  let s := if (s.axis a).lawOld.isSome then s.activate a else s
  let x := s.axis a
  let t := s.clock.tick
  let ticks := match x.prev with
    | none => (fld (s.lawW a 0) 23 20 + 1) * plen
    | some p => t - p
  let traj := mapGet (fun _ => none) (s.dp d).traj (a % 12)
  let g := match traj with | some tr => tr.gen | none => 0
  let amps := (List.range 3).map (fun k => (mapGet dflt x.phases k).amps)
  let (rn, rd) := s.pgRate g
  s.setAxis a { x with prev := some t, res := none,
                       inp := some ⟨s.encPos a, s.encVel a, s.rd (aEncStat a), amps, traj, ticks, s.now, ssi, s.pgPhase g, s.pgMod g, rn, rd⟩ }

/-- The latch of one axis (R291, R292, R316, R324): a finished result goes to the slice or to the pending set; an executed
axis without one keeps its output. -/
def State.latchAxis (s : State) (d a : Nat) : State :=
  let x := s.axis a
  if !x.executed then s else
  match x.res with
  | some iq =>
    let pend := s.rb (rga (alPage (a / 4)) 0x40) 29
    let s := s.setAxis a { x with executed := false, res := none, miss := 0, pend := if pend then some iq else x.pend }
    if pend then s else s.wr (axReg a 0x48) iq
  | none =>
    let n := x.miss + 1
    let ovf := decide (s.rf (dvReg d 0x40) 27 24 ≤ n)
    let s := match x.inp with | some i => s.telemetry d a i | none => s
    let s := s.setAxis a { x with executed := false, inp := none, iqPrev := s.rd (axReg a 0x48), miss := if ovf then 0 else n }
    let s := ((s.addSat (axReg a 0x60) 1).wb (aAxStat a) 7 true).drvEvent (axPage a) 0x0A01
    if ovf then s.trigger (a / 4) (s.safeAction (a / 4)) noAxis else s

/-- The latch of a datapath: with LATCH_SRC 0 a port that took a new result is a fresh output stage (R394). -/
def State.latchDp (s : State) (d : Nat) : State :=
  let x := s.dp d
  if !x.latchDue then s else
  let s := s.setDp d { x with latchDue := false }
  (List.range 3).foldl (fun s i =>
    let g := 3 * d + i
    let fresh := (groupAxes g).any (fun a => (s.axis a).executed && (s.axis a).res.isSome)
    let s := (groupAxes g).foldl (fun s a => s.latchAxis d a) s
    if fresh ∧ !s.rb (rga (alPage g) 0x40) 29 then s.wardenFresh 1 g else s) s

/-- DRIVER_LATCH (R291). -/
def execDriverLatch (d : Fin 4) (s : State) : Host.Outcome State Fault Refusal := .next (s.latchDp d.val)

/-- AXIS_SAMPLE (R289): a period begins, unless it comes too early; in compatibility mode the last period's outputs latch
first (R291). -/
def State.axisSample (s : State) (d : Nat) : State :=
  let x := s.dp d
  let t := s.clock.tick
  let short := match x.last with | some p => decide (t - p < 31218) | none => false
  if short then s.incSat (dvReg d 0x48) 15 0 else
  let s := if s.rb (dvReg d 0x40) 31 then s.latchDp d else s
  let s := match x.last with | some p => s.wr (dvReg d 0x4C) (w32 (t - p)) | none => s
  let plen := let n := (s.rd (dvReg d 0x4C)).toNat; if n = 0 then 31250 else n
  let s := s.setDp d { s.dp d with last := some t, latchDue := true }
  (List.range 12).foldl (fun s i => s.sampleAxis d (12 * d + i) plen) s

/-- PERIOD_LOST (R289): the datapath's groups take the fallback form. -/
def execPeriodLost (d : Fin 4) (s : State) : Host.Outcome State Fault Refusal :=
  .next ((s.drvEvent (dvPage d.val) 0x0A0B).dpFallback d.val)

/-! ### The reference (R298, R299) -/

/-- The last segment, in list order, whose start lies in the half-cycle behind the phase. -/
def pickSeg (m ph : Nat) (l : List Seg) : Option Seg :=
  l.foldl (fun r g => if 0 ≤ phDist m ph g.start then some g else r) none

def f32K (n : Int) : Word := f32Int n

/-- u of R298. A segment kept from an earlier copy may lie ahead of the phase: u is 0 there. -/
def segU (m ph : Nat) (g : Seg) : Word :=
  let d := phDist m ph g.start
  if d < 0 then 0 else fmin (fdiv (f32K d) (f32K g.span)) f32One

/-- pref, vff, aff of a segment (R299). -/
def segRef (g : Seg) (u q : Word) : Int × Word × Word :=
  let poly := fmul u (fadd g.c1 (fmul u (fadd g.c2 (fmul u g.c3))))
  let pref := g.c0 + f32RoundI (fmul (f32Pow2 16) poly) 0
  if u = f32One then (pref, 0, 0) else
  let t := fadd (fmul f32Two g.c2) (fmul (fmul (f32K 3) u) g.c3)
  let vff := fmul (fadd g.c1 (fmul u t)) q
  let t2 := fadd (fmul f32Two g.c2) (fmul (fmul (f32K 6) u) g.c3)
  (pref, vff, fmul t2 (fmul q q))

/-- The reference of an executed period (R298, R299): the state after it, pref, vff and aff. An expired segment stays expired until
another one becomes active. -/
def State.reference (s : State) (d a : Nat) (i : AxIn) : State × Int × Word × Word :=
  let x := s.axis a
  let found := match i.traj with
    | some tr => pickSeg i.m i.ph tr.segs
    | none => none
  let seg := match found with | some g => some g | none => x.seg
  match seg with
  | none => (s, x.pref, 0, 0)
  | some g =>
    let newSeg := decide (some g ≠ x.seg)
    let x := if newSeg then { x with seg := some g, expired := false } else x
    let s := if newSeg then (s.setAxis a x).wb (aAxStat a) 13 false else s
    if x.expired ∨ 0 ≤ phDist i.m i.ph g.deadline then
      let s := if x.expired then s else
        (((s.setAxis a { x with expired := true }).wb (aAxStat a) 13 true).drvEvent (axPage a) 0x0A07).wardenExpired d
      (s, x.pref, 0, 0)
    else
      let q := fdiv (f32Ratio i.rateN i.rateD) (f32K g.span)
      let (p, v, acc) := segRef g (segU i.m i.ph g) q
      (s, p, v, acc)

/-! ### Loops, notches, observer (R300 to R302, R318 to R321) -/

/-- Coefficients of a notch (R301): b0, b1, b2, a1, a2. -/
def notchCoef (fs f0 q depth : Word) : Word × Word × Word × Word × Word :=
  let w0 := fdiv (fmul (fmul f32Two 0x40490FDB) f0) fs
  let al := fdiv (Config.sinTable w0) (fmul f32Two q)
  let a0 := fadd f32One al
  let c := fneg (fmul f32Two (Config.cosTable w0))
  (fdiv (fadd f32One (fmul al depth)) a0, fdiv c a0, fdiv (fsub f32One (fmul al depth)) a0, fdiv c a0, fdiv (fsub f32One al) a0)

/-- One input of a notch (R301, R302): the first gives an equal output and the steady state of a constant input. -/
def notchRun (c : Word × Word × Word × Word × Word) (n : Notch) (x : Word) : Notch × Word :=
  let (b0, b1, b2, a1, a2) := c
  if n.ready then
    let y := fadd (fmul b0 x) n.s1
    (⟨fadd (fsub (fmul b1 x) (fmul a1 y)) n.s2, fsub (fmul b2 x) (fmul a2 y), true⟩, y)
  else
    let s2 := fsub (fmul b2 x) (fmul a2 x)
    (⟨fadd (fsub (fmul b1 x) (fmul a1 x)) s2, s2, true⟩, x)

/-- The observer (R318): op, ov, od and the residual. -/
def observe (x : Axis) (ka l1 l2 l3 dt : Word) (pos : Int) : Axis × Word :=
  if x.first then (x, 0) else
  let a := fsub (fmul ka x.iqPrev) x.od
  let pp := fadd (fadd x.op (fmul x.ov dt)) (fmul (fmul (fmul f32Half a) dt) dt)
  let vp := fadd x.ov (fmul a dt)
  let r := match f32Dec pp with
    | .fin n m e =>
      let (u, v, e') := alignI (pos < 0) pos.natAbs 0 n m e
      f32OfI (u - v) e'
    | _ => f32NaN
  ({ x with op := fadd pp (fmul l1 r), ov := fadd vp (fdiv (fmul l2 r) dt), od := fsub x.od (fdiv (fmul l3 r) (fmul dt dt)) }, r)

/-- Frozen-feedback supervision (R321) with the period's new Iq: the axis and whether FEEDBACK_FROZEN is set. -/
def frozen (x : Axis) (w : Nat → Word) (dt iq : Word) (pos : Int) : Axis × Bool :=
  if x.posChg ≠ some (pos * 65536) then ({ x with posChg := some (pos * 65536), fw := x.ov, fs := 0, fdz := x.od, fn := 0 }, false)
  else
    let fw := fadd x.fw (fmul (fsub (fmul (w 25) iq) x.fdz) dt)
    let fs := fadd x.fs (fmul (fabs fw) dt)
    let n := if flt (w 31) (fabs iq) && flt (f32K (fld (w 30) 15 0)) fs then x.fn + 1 else 0
    ({ x with fw := fw, fs := fs, fn := n }, decide (fld (w 30) 23 16 ≤ n))

/-- Position loop (R300): the axis and the velocity command. -/
def posLoop (x : Axis) (w : Nat → Word) (dt ep vff : Word) : Axis × Word :=
  let vc := fadd (fmul (w 1) ep) (fmul (w 8) vff)
  if tbit (w 0) 29 then
    let ipn := fadd x.ip (fmul (fmul (w 2) ep) dt)
    let vt := fadd vc ipn
    let x := if flt (fabs vt) (w 3) || (flt 0 vt != flt 0 ep) then { x with ip := ipn } else x
    (x, fadd vc x.ip)
  else (x, vc)

/-- Velocity loop (R300): the axis and u before the notches. -/
def velLoop (x : Axis) (w : Nat → Word) (dt vc vel aff : Word) : Axis × Word :=
  let vc := fclamp vc (fneg (w 3)) (w 3)
  let ev := fsub vc vel
  let ivn := fadd x.iv (fmul (fmul (w 5) ev) dt)
  let ff := fmul (w 9) aff
  let ut := fadd (fadd (fmul (w 4) ev) ivn) ff
  let x := if flt (fabs ut) (w 6) || (flt 0 ut != flt 0 ev) then { x with iv := ivn } else x
  (x, fadd (fadd (fmul (w 4) ev) x.iv) ff)

/-- Notches and limits (R300): the axis and Iq. -/
def limitLoop (x : Axis) (w : Nat → Word) (u : Word) : Axis × Word :=
  let fs := lawFs (w 0)
  let n := fld (w 0) 27 26
  let (x, u) := if 1 ≤ n then let (k, y) := notchRun (notchCoef fs (w 10) (w 11) (w 12)) x.n1 u; ({ x with n1 := k }, y) else (x, u)
  let (x, u) := if n = 2 then let (k, y) := notchRun (notchCoef fs (w 13) (w 14) (w 15)) x.n2 u; ({ x with n2 := k }, y) else (x, u)
  let u := fclamp u (fneg (w 6)) (w 6)
  (x, fclamp u (fsub x.iqPrev (w 7)) (fadd x.iqPrev (w 7)))

/-- The exact difference of two 48.16 numbers, or one of them, in FP32 (R300). -/
def f4816 (d : Int) : Word := f32Ratio d 65536

/-- The Iq of a running law: `loop` is LOOP, or the mode a stop imposes (R300, R322). -/
def lawIq (x : Axis) (w : Nat → Word) (loop : Nat) (dt : Word) (pos : Int) (vel : Word) (pref : Int) (vff aff : Word) : Axis × Word :=
  if loop = 2 then limitLoop x w (f4816 pref)
  else
    let (x, vc) := if loop = 0 then posLoop x w dt (f4816 (pref - pos * 65536)) vff else (x, vff)
    let (x, u) := velLoop x w dt vc vel aff
    limitLoop x w u

/-- The controlled-stop ramp after dt at AX_DECEL (R322). -/
def rampDown (v dec dt : Word) : Word :=
  let step := fmul dec dt
  if fle (fabs v) step then 0 else if flt v 0 then fadd v step else fsub v step

/-- The Iq of a STOPPING axis (R322, R323): controlled stop, brake-and-hold, or the last Iq of the fallback form. -/
def State.stopIq (s : State) (a : Nat) (x : Axis) (w : Nat → Word) (dt : Word) (pos : Int) (vel : Word) : Axis × Word :=
  if x.ended then (x, 0) else
  match x.form with
  | 1 =>
    let r := rampDown x.ramp (s.rd (axReg a 0x64)) dt
    lawIq { x with ramp := r } w 1 dt pos vel 0 r 0
  | 2 => lawIq x w 0 dt pos vel x.hold 0 0
  | _ => (x, x.iqPrev)

/-! ### AXIS_COMPUTE (R300) -/

/-- A feedback fault of R319 or R321: flag, event, safe action with the axis itself in the fallback form. -/
def State.feedbackFault (s : State) (a bit code : Nat) : State :=
  let s := (s.wb (aAxStat a) bit true).drvEvent (axPage a) code
  s.trigger (a / 4) (s.safeAction (a / 4)) (fun b => b == a)

/-- The pair of an axis disagrees (R324, R327, R454): the results of its three axes are withheld, the datapath's groups take
the fallback form, the DROVER page is in FAULT. -/
def State.lockstep (s : State) (a : Nat) : State :=
  let d := a / 12
  let s := (List.range 3).foldl (fun s i =>
    let b := a / 3 * 3 + i
    let x := s.axis b
    let s := match x.inp with | some i => s.telemetry d b i | none => s
    s.setAxis b { x with inp := none, res := none, executed := false, iqPrev := s.rd (axReg b 0x48) }) s
  let s := (s.drvEvent (dvPage d) 0x0A0A).pf (rga (dvPage d) oStat) 2 0 5
  s.dpFallback d

/-- What an axis computes in a period from its reference (R298 to R302): the axis after it, the current, the innovation and whether feedback
looks frozen. -/
def State.axisLaw (s : State) (a : Nat) (i : AxIn) (running : Bool) (pref : Int) (vff aff : Word) : Axis × Word × Word × Bool :=
  let w := s.lawW a
  let dt := f32Ratio i.ticks 1000000000
  let x := { s.axis a with pref := pref }
  let obs := tbit (w 0) 28
  let (x, r) := if obs then observe x (w 25) (w 26) (w 27) (w 28) dt i.pos else (x, 0)
  let pl := if obs && flt (w 29) (fabs r) then x.pl + 1 else 0
  let x := { x with pl := pl }
  let (x, iq) := if running then lawIq x w (fld (w 0) 31 30) dt i.pos i.vel pref vff aff else s.stopIq a x w dt i.pos i.vel
  let (x, fz) := if obs then frozen x w dt iq i.pos else (x, false)
  ({ x with first := false, iqPrev := iq, res := some iq, inp := none }, iq, r, fz)

/-- One executed period of an axis with the given inputs. -/
def State.computeAxis (s : State) (a : Nat) (i : AxIn) : State :=
  let d := a / 12
  let w := s.lawW a
  let running := s.axState a == 1
  let ref := if running then s.reference d a i else (s, (s.axis a).pref, 0, 0)
  let s := ref.1
  let pref := ref.2.1
  let v := s.axisLaw a i running pref ref.2.2.1 ref.2.2.2
  let s := s.setAxis a v.1
  let s := ((s.wr (axReg a 0x4C) (w32 (ofS 64 pref))).wr (axReg a 0x50) (w32 (ofS 64 pref / 2 ^ 32))).wr (axReg a 0x54) v.2.2.1
  let s := s.telemetry d a i
  if !s.inLoop a then s else
  let s := if tbit (w 0) 28 ∧ fld (w 30) 31 24 ≤ v.1.pl then s.feedbackFault a 10 0x0A04 else s
  let s := if v.2.2.2 then s.feedbackFault a 9 0x0A03 else s
  if v.1.form = 1 ∧ !v.1.ended ∧ v.1.ramp = 0 ∧ s.axState a = 2 then s.endForm (fun b => b == a) (a / 4) else s

/-- The enabling period of an axis on an SSI encoder: the reference holds, and the observer starts from, what its transfer brought (R288,
R318). -/
def State.firstUse (s : State) (a : Nat) (i : AxIn) : State :=
  let x := s.axis a
  if x.first && i.ssi then s.setAxis a { x with pref := i.pos * 65536, op := f32Ratio i.pos 1, ov := i.vel } else s

/-- AXIS_COMPUTE (R290, R300): the inputs of an executed axis are ready and its pair computes. -/
def execAxisCompute (a : Fin 48) (disagree : Bool) (s : State) : Host.Outcome State Fault Refusal :=
  match (s.axis a.val).inp with
  | none => .next s
  | some i =>
    if i.ssi ∧ (s.enc a.val).ssi.isSome then .next s
    else if disagree then .next (s.lockstep a.val)
    else
      let i := if i.ssi then { i with pos := s.encPos a.val, vel := s.encVel a.val, flags := s.rd (aEncStat a.val) } else i
      .next ((s.firstUse a.val i).computeAxis a.val i)

/-! ### Register writes -/

/-- DV_CFG and DV_PTO (R328). -/
def State.wrDvCfg (s : State) (f : Func) (d : Nat) (v : Word) : State :=
  let idle := (List.range 12).all (fun i => !s.inLoop (12 * d + i))
  if idle ∧ 1 ≤ fld v 27 24 ∧ 100 ≤ fld v 15 0 ∧ fld v 15 0 ≤ 3124 then s.store f (dvReg d 0x40) v 0
  else s.wb (dvReg d 0x48) 31 true
def State.wrDvPto (s : State) (f : Func) (d : Nat) (v : Word) : State :=
  if 40 ≤ fld v 15 0 then s.store f (dvReg d 0x44) v 0 else s.wb (dvReg d 0x48) 31 true

/-- TM_CFG (R326, R328). -/
def State.wrTmCfg (s : State) (f : Func) (d : Nat) (v : Word) : State :=
  if 6 ≤ fld v 4 0 ∧ fld v 4 0 ≤ 16 then s.store f (dvReg d 0xA0) v 0 else s.wb (dvReg d 0x48) 31 true

def execAxEnable (f : Func) (a : Fin 48) (v : Word) (s : State) : Host.Outcome State Fault Refusal :=
  .next (s.guarded f (axReg a.val 0x40) (fun s => s.wrAxCtl a.val v))
def execDisable (f : Func) (a : Fin 48) (v : Word) (s : State) : Host.Outcome State Fault Refusal :=
  .next (s.guarded f (axReg a.val 0x40) (fun s => s.wrAxCtl a.val v))
def execLawCommit (f : Func) (a : Fin 48) (v : Word) (s : State) : Host.Outcome State Fault Refusal :=
  .next (s.guarded f (axReg a.val 0x40) (fun s => s.wrAxCtl a.val v))

end Sys2Proof.Machine
end

