-- ==== Sys2Proof/Machine/AxisLink.lean ====
section
/-!
DEFINITION. The Axis link and the axis slices (R303 to R306, R312 to R317), and the group commands (R322, R325).
-/
namespace Sys2Proof.Machine

def alReg (g off : Nat) : Nat := rga (alPage g) off
def State.alMode (s : State) (g : Nat) : Bool := s.rb (alReg g 0x40) 28
def State.alLink (s : State) (g : Nat) : Nat := s.rf (aAlStat g) 1 0

/-- A phase of an axis. -/
def Axis.phase (x : Axis) (k : Nat) : Phase := mapGet dflt x.phases k
def Axis.setPhase (x : Axis) (k : Nat) (p : Phase) : Axis := { x with phases := mapSet dflt x.phases k p }

/-! ### The current law (R303 to R306) -/

/-- Impulse response of a third-order sinc filter with decimation 16 at lag j: the number of ways to write j as a sum of
three numbers below 16. -/
def sincTap (j : Nat) : Nat :=
  if j < 16 then (j + 1) * (j + 2) / 2
  else if j < 32 then (j + 1) * (j + 2) / 2 - 3 * ((j - 15) * (j - 14) / 2)
  else (47 - j) * (46 - j) / 2

/-- The filter's output in units of 1 / 65,536, missing bits standing at the density of the first window (R303). -/
def sincSum (pre : Nat) (bits : List (Bool × Bool)) : Nat :=
  ((List.range 46).map (fun j => sincTap j * (match bits.drop j with | (b, _) :: _ => 16 * b2n b | [] => pre))).sum

/-- A new sinc sample of a phase: the phase, the density in units of 1 / 65,536, and its validity. -/
def sincSample (p : Phase) : Option (Phase × Nat × Bool) :=
  if p.bits.length < 16 then none else
  match p.pre with
  | none =>
    let w := p.bits.take 16
    let ones := (w.map (fun b => b2n b.1)).sum
    some ({ p with pre := some ones }, ones * 4096, w.all (·.2))
  | some pre => some (p, sincSum pre p.bits, (p.bits.take 46).all (·.2))

/-- Phases that take decisions: three, or two of a DC motor (R304). -/
def activePhases (w0 : Word) : List Nat := if tbit w0 25 then [0, 1] else [0, 1, 2]

/-- The phase references (R304) at encoder position pos. -/
def phaseRef (w : Nat → Word) (iq : Word) (pos : Int) (k : Nat) : Word :=
  if tbit (w 0) 25 then (if k = 0 then iq else fneg iq)
  else
    let th := (pos * (w 16).toNat * 2 ^ 32) / (((w 17).toNat : Nat) : Int) + (w 18).toNat - (k * 2 ^ 32 / 3 : Nat)
    let t := w32 (ofS 32 th)
    fsub (fmul (w 19) (Config.cosPhase t)) (fmul iq (Config.sinPhase t))

/-- The hysteretic decision of one phase (R305): the phase and whether its state changed. -/
def decide1 (p : Phase) (iref band : Word) (w23 : Word) : Phase × Bool :=
  let e := fsub iref p.amps
  let h := fmul f32Half band
  let want := if p.valid && flt h e then 2 else if p.valid && flt e (fneg h) then 1 else p.next
  if want ≠ p.next ∧ fld w23 31 24 ≤ p.dwell then
    let dead := if p.next = 0 then 0 else fld w23 1 0
    ({ p with next := want, dwell := 0, dead := dead }, true)
  else ({ p with dwell := satInc p.dwell 255 }, false)

/-- A new sample of one phase of an axis: stored with its current (R303). -/
def State.takeSample (s : State) (a k : Nat) : State :=
  let x := s.axis a
  match sincSample (x.phase k) with
  | none => s
  | some (p, n, ok) =>
    let v := f32Ratio (2 * (n : Int) - 65536) 65536
    let i := fadd (fmul v (s.rd (axReg a (0x80 + 4 * k)))) (s.rd (axReg a (0x90 + 4 * k)))
    s.setAxis a (x.setPhase k { p with amps := i, valid := ok })

/-- OVERCURRENT and CURRENT_LOST (R317): bridges OFF at once, then torque off of the group. -/
def State.currentTrip (s : State) (a bit code : Nat) : State :=
  let s := (s.setAxis a (bridgesOff (s.axis a))).wb (aAxStat a) bit true
  (s.drvEvent (axPage a) code).trigger (a / 4) 4 noAxis

/-- CURRENT_DECISION (R303 to R305, R317). In reference mode the drive switches, and an axis whose
action has ended stays OFF: only the check is made. -/
def execCurrentDecision (a : Fin 48) (s : State) : Host.Outcome State Fault Refusal :=
  let a := a.val
  if !s.inLoop a then .next s else
  let w := s.lawW a
  let ks := activePhases (w 0)
  let s := ks.foldl (fun s k => s.takeSample a k) s
  let ovf := ks.any (fun k => let p := (s.axis a).phase k; p.valid && flt (w 24) (fabs p.amps))
  if ovf then .next (s.currentTrip a 11 0x0A05)
  else if s.alMode (a / 4) ∨ (s.axis a).ended then .next s
  else
    let iq := s.rd (axReg a 0x48)
    let band := s.rd (axReg a 0x58)
    let pos := s.encPos a
    .next (ks.foldl (fun s k =>
      let x := s.axis a
      let (p, ch) := decide1 (x.phase k) (phaseRef w iq pos k) band (w 23)
      s.setAxis a { x.setPhase k p with changes := x.changes + b2n ch }) s)

/-- BAND_ADAPT (R306). -/
def execBandAdapt (a : Fin 48) (s : State) : Host.Outcome State Fault Refusal :=
  let a := a.val
  let w := s.lawW a
  if !tbit (w 0) 24 ∨ !s.inLoop a then .next s else
  let x := s.axis a
  let p := f32K (activePhases (w 0)).length
  let win := f32K (125 * fld (w 0) 19 12)
  let f := fdiv (f32K x.changes) (fmul (fmul (fmul f32Two p) win) (f32Ratio 800 1000000000))
  let band := fmul (s.rd (axReg a 0x58)) (fclamp (fdiv f (w 22)) f32Half f32Two)
  .next (((s.setAxis a { x with changes := 0 }).wr (axReg a 0x5C) f).wr (axReg a 0x58) (fclamp band (w 20) (w 21)))

/-- CURRENT_LOST (R317): 48 equal bits in a row. -/
def execCurrentLost (a : Fin 48) (s : State) : Host.Outcome State Fault Refusal :=
  if s.inLoop a.val then .next (s.currentTrip a.val 12 0x0A06) else .next s

/-! ### Frames (R312 to R315) -/

/-- The CRC-8 of a frame over bits [39:10], seeded with 0xFF, most significant bit first (R312). -/
def frameCrc : Nat → Nat → Nat → Nat
  | 0, _, c => c
  | n + 1, v, c =>
    let b := (v >>> n) % 2
    let t := (c / 128 + b) % 2
    frameCrc n v (if t = 1 then ((c * 2) % 256) ^^^ 0x2F else (c * 2) % 256)

/-- The self-synchronous scrambler x^58 + x^39 + 1 (R312) over n bits, first bit lowest: output bits and the new register. -/
def scramble : Nat → Nat → Nat → Nat × Nat
  | 0, _, r => (0, r)
  | n + 1, v, r =>
    let o := (v + (r >>> 38) + (r >>> 57)) % 2
    let (t, r') := scramble n (v / 2) ((r * 2 + o) % 2 ^ 58)
    (o + 2 * t, r')

def descramble : Nat → Nat → Nat → Nat × Nat
  | 0, _, r => (0, r)
  | n + 1, v, r =>
    let o := (v + (r >>> 38) + (r >>> 57)) % 2
    let (t, r') := descramble n (v / 2) ((r * 2 + v % 2) % 2 ^ 58)
    (o + 2 * t, r')

/-- The port loses its feedback (R317, R320): the four axes, each in the fallback form. -/
def State.portLost (s : State) (g : Nat) : State :=
  let s := (groupAxes g).foldl (fun s a => (s.wb (aAxStat a) 8 true).drvEvent (axPage a) 0x0A02) s
  if s.groupIdle g then s else s.trigger g (s.safeAction g) allAxes

/-- STATUS of a good superframe (R313, R317): FAULT, or READY clear on a RUNNING axis, leads to torque off. -/
def State.takeStatus (s : State) (g st : Nat) : State :=
  let s := s.pf (aAlStat g) 31 12 st
  let bad := (List.range 4).any (fun i =>
    let a := 4 * g + i
    (s.inLoop a && bitOf st (4 * i + 1)) || (s.axState a == 1 && !bitOf st (4 * i)))
  if bad then (s.drvEvent (alPage g) 0x0A08).trigger g 4 noAxis else s

/-- Feed the two bits of each stream of an upstream frame (R303, R313). -/
def State.feedBits (s : State) (g sd : Nat) (ok : Bool) : State :=
  (List.range 12).foldl (fun s i =>
    let a := 4 * g + i / 3
    let x := s.axis a
    let p := x.phase (i % 3)
    let b := [(bitOf sd (2 * i + 1), ok), (bitOf sd (2 * i), ok)]
    s.setAxis a (x.setPhase (i % 3) { p with bits := (b ++ p.bits).take 48 })) s

/-- The filters of a port's axes start anew (R303). -/
def State.resync (s : State) (g : Nat) : State :=
  (groupAxes g).foldl (fun s a =>
    let x := s.axis a
    s.setAxis a { x with phases := x.phases.map (fun p => (p.1, { p.2 with bits := [], pre := none })) }) s

/-- What an upstream frame says (R313, R315): its payload bits, whether it passed, the port after it, whether the port hunts or comes up, the
bits of STATUS so far and whether they are complete. -/
structure UpFrame where
  body : Nat
  ok : Bool
  next : ALink
  hunt : Bool
  rise : Bool
  stat : Nat
  whole : Bool

def upFrame (x : ALink) (up : Bool) (frame : Nat) : UpFrame :=
  let head := frame % 4
  let (body, scr) := descramble 38 (frame / 4) x.rxScr
  let seq := if !up && head == 2 then 0 else x.seq
  let headOk := head == (if seq = 0 then 2 else 1)
  let ok := headOk && body % 256 == frameCrc 30 (body / 256) 0xFF && body / 2 ^ 10 % 16 == seq
  let heads := (headOk :: x.heads).take 32
  let hunt := up && decide (8 ≤ (heads.filter (fun h => !h)).length)
  let clean := if seq = 0 then ok else x.clean && ok
  let stat := (if seq = 0 then 0 else x.stat) + (body / 2 ^ 8 % 4) * 2 ^ (2 * seq)
  let good := if seq = 9 then (if clean then x.good + 1 else 0) else if ok then x.good else 0
  let rise := !up && decide (4 ≤ good)
  { body := body
    ok := ok
    next := { x with rxScr := scr, heads := if hunt then [] else heads, seq := (seq + 1) % 10, clean := clean, stat := stat,
                     good := if hunt then 0 else min good 4, bad := if ok then 0 else x.bad + 1 }
    hunt := hunt
    rise := rise
    stat := stat
    whole := seq == 9 && clean && (up || rise) && !hunt }

/-- UPSTREAM_FRAME (R312, R313, R315, R317). -/
def execUpstreamFrame (al : Fin 12) (frame : BitVec 40) (s : State) : Host.Outcome State Fault Refusal :=
  let g := al.val
  if !s.rb (alReg g 0x40) 0 then .next s else
  let up := s.alLink g == 2
  let r := upFrame (s.alink g) up frame.toNat
  let s := s.setAlink g r.next
  let s := if r.ok then s else s.addSat (alReg g 0x50) 1
  let s := if up && !r.hunt then s.feedBits g (r.body / 2 ^ 14) r.ok else s
  let s := if r.hunt then s.pf (aAlStat g) 1 0 1 else if r.rise then (s.pf (aAlStat g) 1 0 2).resync g else s
  let s := if r.hunt || (up && r.next.bad == s.rf (alReg g 0x40) 27 24) then s.portLost g else s
  .next (if r.whole then s.takeStatus g r.stat else s)

/-- The next state of a phase on the wire: OFF while the dead time runs (R305). -/
def phaseOut (p : Phase) : Phase := if p.dead = 0 then { p with out := p.next } else { p with out := 0, dead := p.dead - 1 }

/-- Whether an axis's power stage is driven: its action has not ended (R287, R322). -/
def State.driven (s : State) (a : Nat) : Bool := s.inLoop a && !(s.axis a).ended

/-- DOWNSTREAM_FRAME (R314): records and CMD enter at a superframe start, and ENABLE falls in the next frame of an axis that is driven no more
(R322). When FAULT_RESET is sent is not stated: its bits are free. -/
def execDownstreamFrame (al : Fin 12) (s : State) : Host.Outcome State Fault Refusal :=
  let g := al.val
  if !s.rb (alReg g 0x40) 0 then .next s else
  let k := (s.alink g).txSeq
  let ref := s.alMode g
  let (n, s) := s.take
  let x := s.alink g
  let en := (List.range 4).map (fun i => b2n (s.driven (4 * g + i)))
  let cmd := ((List.range 4).map (fun i => en.getD i 0 * 2 ^ (2 * i) + fld (Config.freeWord n) i i * 2 ^ (2 * i + 1))).sum + b2n ref * 256
  let x := if k = 0 then
      { x with cmd := cmd, recs := (List.range 4).map (fun i => (en.getD i 0, s.rd (axReg (4 * g + i) 0x48))) }
    else x
  let s := if ref then s else (groupAxes g).foldl (fun s a =>
    let y := s.axis a
    s.setAxis a { y with phases := y.phases.map (fun p => (p.1, phaseOut p.2)) }) s
  let sw := ((List.range 12).map (fun i =>
    let a := 4 * g + i / 3
    (if s.inLoop a then ((s.axis a).phase (i % 3)).out else 0) * 2 ^ (2 * i))).sum
  let (e0, iq) := x.recs.getD (k / 2) (0, 0)
  let r := (e0 * en.getD (k / 2) 0, iq)
  let word := if k < 4 ∧ en.getD k 0 = 0 then x.cmd / 2 ^ (2 * k) % 4 / 2 * 2 else x.cmd / 2 ^ (2 * k) % 4
  let part := if k ≥ 8 then 0 else (r.2.toNat + r.1 * 2 ^ 32) / 2 ^ (24 * (k % 2)) % 2 ^ 24
  let hi := (if ref then part else sw) * 64 + k * 4 + word
  let (body, scr) := scramble 38 (hi * 256 + frameCrc 30 hi 0xFF) x.txScr
  .next (s.setAlink g { x with txScr := scr, txSeq := (k + 1) % 10, sent := BitVec.ofNat 40 (body * 4 + (if k = 0 then 2 else 1)) })

/-- OUTPUT_LATCH of a port (R316, R394): the pending set is applied; without a newer result PEND_STALE counts. -/
def State.outputLatch (s : State) (g : Nat) : State :=
  if !s.rb (alReg g 0x40) 29 then s else
  let fresh := (groupAxes g).any (fun a => (s.axis a).pend.isSome)
  let s := (groupAxes g).foldl (fun s a =>
    match (s.axis a).pend with
    | some iq => (s.setAxis a { s.axis a with pend := none }).wr (axReg a 0x48) iq
    | none => s) s
  if fresh then s.wardenFresh 1 g else s.addSat (alReg g 0x54) 1

/-! ### Group commands -/

/-- Whether a trigger is still present on a group (R325). Every group stays SAFE in SAFE_HOLD (R392) and during a start-up run (R391). -/
def State.triggerPresent (s : State) (g : Nat) : Bool :=
  s.rb (rga 8 0x44) 29 || s.alLink g != 2 || s.wardenReq g || s.safeHold ||
  (List.range 4).any (fun i => s.rb (aAlStat g) (12 + 4 * i + 1)) ||
  (groupAxes g).any (fun a => s.rf (aAxStat a) 10 8 != 0 || s.rb (aEncStat a) 5)

/-- Both STO outputs of a group are released (R324, R325): Drover's request and the one that Warden drives after an STO_FB_ERR (R398). -/
def State.releaseSto (s : State) (g : Nat) : State :=
  ({ s with drv := { s.drv with stoB := s.drv.stoB &&& ~~~ bit12 g } } : State).setSto g false

/-- GROUP_RESET (R325, R392): a SAFE group becomes DISABLED, its STO outputs released, the brake applied. -/
def State.groupReset (s : State) (g : Nat) : State :=
  if !s.groupSafe g then s
  else if s.triggerPresent g then s.wb (aAlStat g) 11 true
  else
    let s := (groupAxes g).foldl (fun s a => s.setAxState a 0) s
    (s.wb (aAlStat g) 3 false).releaseSto g

/-- A write of AL_CTL (R331). -/
def State.wrAlCtl (s : State) (g : Nat) (v : Word) : State :=
  let s := if tbit v 1 then s.groupReset g else s
  if tbit v 0 then s.trigger g (s.safeAction g) noAxis else s

/-- A write of AL_CFG (R331, R315): only while the group is DISABLED or SAFE. -/
def State.wrAlCfg (s : State) (f : Func) (g : Nat) (v : Word) : State :=
  if !s.groupIdle g ∨ fld v 31 30 = 3 ∨ fld v 27 24 = 0 ∨ 8 < fld v 27 24 then s else
  let was := s.rb (alReg g 0x40) 0
  let s := s.store f (alReg g 0x40) v 0
  if was = tbit v 0 then s
  else (s.setAlink g default).pf (aAlStat g) 1 0 (b2n (tbit v 0))

def execSafeReq (f : Func) (al : Fin 12) (v : Word) (s : State) : Host.Outcome State Fault Refusal :=
  .next (s.guarded f (alReg al.val 0x44) (fun s => s.wrAlCtl al.val v))
def execGroupReset (f : Func) (al : Fin 12) (v : Word) (s : State) : Host.Outcome State Fault Refusal :=
  .next (s.guarded f (alReg al.val 0x44) (fun s => s.wrAlCtl al.val v))

/-- STOP_TIME_EXPIRY and BRAKE_DELAY_EXPIRY (R322, R323). -/
def execStopTimeExpiry (al : Fin 12) (s : State) : Host.Outcome State Fault Refusal :=
  .next (s.endForm (fun a => (s.axis a).form == 1) al.val)
def execBrakeDelayExpiry (al : Fin 12) (s : State) : Host.Outcome State Fault Refusal :=
  .next (s.endForm (fun a => (s.axis a).form == 2 || (s.axis a).form == 3) al.val)

/-- STO_FB_ERR (R317): the readback levels after 1 µs. -/
def execStoFbErr (al : Fin 12) (stoA stoB brake : Bool) (s : State) : Host.Outcome State Fault Refusal :=
  let g := al.val
  let differ := stoA != s.pins.stoA.getLsbD g || stoB != s.pins.stoB.getLsbD g || brake != s.pins.brake.getLsbD g
  let s := if differ then s.stoFbErr g else s
  .next (s.pf (aAlStat g) 10 8 (b2n stoA + 2 * b2n stoB + 4 * b2n brake))

end Sys2Proof.Machine
end

