-- ==== Sys2Proof/Machine/Actions.lean ====
section
/-!
DEFINITION. The pin actions of Waybill entries that may act through a link barrier (R263, R264): STROBE, AXIS_SAMPLE and
OUTPUT_LATCH.
-/
namespace Sys2Proof.Machine

/-- STROBE (R263): the strobe pin of each named camera goes high, and its pulse ends the width of this action from now. -/
def State.strobe (s : State) (cams : Nat) : State :=
  { s with pins := { s.pins with strobe := s.pins.strobe ||| BitVec.ofNat 16 cams } }

/-- STROBE_END (R263): the pulse of the camera's latest STROBE ends. -/
def execStrobeEnd (c : Fin 16) (s : State) : Host.Outcome State Fault Refusal :=
  .next { s with pins := { s.pins with strobe := s.pins.strobe &&& ~~~ BitVec.ofNat 16 (2 ^ c.val) } }

/-- Carry out STROBE, AXIS_SAMPLE or OUTPUT_LATCH on its tick (R263). -/
def State.pinAction (s : State) (action : Nat) (arg : Word) : State :=
  match action with
  | 1 => s.strobe (fld arg 31 16)
  | 2 => ((List.range 4).filter (fun d => tbit arg d)).foldl (fun s d => s.axisSample d) s
  | 3 => ((List.range 12).filter (fun g => tbit arg g)).foldl (fun s g => s.outputLatch g) s
  | _ => s

end Sys2Proof.Machine
end

