-- ==== Sys2Proof/Machine/Operands.lean ====
section
/-!
DEFINITION. Operands of the tensor and vector commands: the formats of R37 and R38, their values (R40 to R42), the pairings of
R39, the scale entries of R44, and reading and writing elements of a scratchpad.
-/
namespace Sys2Proof.Machine

/-- Bits of one element of a format (R37). -/
def fmtBits (f : Nat) : Nat :=
  match f with
  | 2 | 3 => 4
  | 6 => 16
  | 7 => 32
  | 8 => 256
  | _ => 8

/-- Bytes that n elements of a format take. -/
def fmtBytes (f n : Nat) : Nat := (n * fmtBits f + 7) / 8

/-- The alignment of an operand of a format (R113): its element size, at least a byte. -/
def fmtAlign (f : Nat) : Nat := max 1 (fmtBits f / 8)

def isIntFmt (f : Nat) : Bool := decide (f < 4)
def isInt8 (f : Nat) : Bool := decide (f < 2)
def isInt4 (f : Nat) : Bool := f == 2 || f == 3
def isFp8 (f : Nat) : Bool := f == 4 || f == 5

/-- The binary format of a floating-point code. -/
def fpOf (f : Nat) : FpFmt :=
  match f with
  | 4 => e4m3
  | 5 => e5m2
  | 6 => bf16
  | _ => fp32

/-- How a pairing forms its terms (R39, R49). -/
inductive Kind where
  | int | fp8 | bf | bfInt
deriving DecidableEq, Repr

/-- The permitted pairings (R39). -/
def kindOf (a w : Nat) : Option Kind :=
  if isIntFmt a && isIntFmt w then some .int
  else if isFp8 a && isFp8 w then some .fp8
  else if a == 6 && w == 6 then some .bf
  else if a == 6 && isIntFmt w then some .bfInt
  else none

/-- The integer a code stands for (R37). -/
def intOf (f c : Nat) : Int :=
  match f with
  | 0 => ((c % 256 : Nat) : Int)
  | 1 => toS 8 c
  | 2 => ((c % 16 : Nat) : Int)
  | _ => toS 4 c

/-- The zero point of a scale entry for a format (R41, R44). -/
def zpOf (f : Nat) (ent : Word) : Int :=
  match f with
  | 0 => ((fld ent 23 16 : Nat) : Int)
  | 1 => toS 8 (fld ent 23 16)
  | 2 => ((fld ent 19 16 : Nat) : Int)
  | _ => toS 4 (fld ent 19 16)

/-- An integer as an exact value. -/
def fvInt (i : Int) : Fv := .fin (decide (i < 0)) i.natAbs 0

/-- The value of an operand code under its scale entry (R40, R42): the difference from the zero point, or the decoded value. -/
def operand (f : Nat) (ent : Word) (c : Nat) : Fv :=
  if isIntFmt f then fvInt (intOf f c - zpOf f ent) else fpDecode (fpOf f) c

/-- SE of a scale entry, whether the entry is invalid (R45), and its scale as m × 2^e (R44). -/
def entSe (w : Word) : Nat := fld w 15 8
def entBad (w : Word) : Bool := entSe w == 255
def entScale (w : Word) : Nat × Int :=
  if entSe w = 0 then (0, 0) else (256 + fld w 7 0, (entSe w : Int) - 135)

/-! ### Elements in a scratchpad -/

/-- A little-endian 32-bit word of engine e's scratchpad. -/
def State.spWord (s : State) (e a : Nat) : Word := w32 (leNat (s.spRead e a 4))
def State.spWords (s : State) (e a n : Nat) : List Word := (List.range n).map (fun i => s.spWord e (a + 4 * i))

/-- Element i of a format from address a (R38). -/
def State.code (s : State) (e f a i : Nat) : Nat :=
  if fmtBits f = 4 then (let b := (s.spByte e (a + i / 2)).toNat; if i % 2 = 0 then b % 16 else b / 16)
  else leNat (s.spRead e (a + i * (fmtBits f / 8)) (fmtBits f / 8))

/-- Pairs of 4-bit codes as bytes (R38); after an odd count the upper half of the last byte is kept. -/
def packNibbles (keep : Nat) : List Nat → List Byte
  | [] => []
  | [a] => [BitVec.ofNat 8 (a % 16 + 16 * keep)]
  | a :: b :: r => BitVec.ofNat 8 (a % 16 + 16 * (b % 16)) :: packNibbles keep r

/-- Write elements of a format from address a, the first at an even index. -/
def State.putCodes (s : State) (e f a : Nat) (cs : List Nat) : State :=
  if fmtBits f = 4 then s.spWrite e a (packNibbles ((s.spByte e (a + cs.length / 2)).toNat / 16) cs)
  else s.spWrite e a (cs.flatMap (fun c => natLe (fmtBits f / 8) c))

/-- Write one element of a format at index i from address a. -/
def State.putCode (s : State) (e f a i c : Nat) : State :=
  if fmtBits f = 4 then
    let b := (s.spByte e (a + i / 2)).toNat
    s.spWrite e (a + i / 2) [BitVec.ofNat 8 (if i % 2 = 0 then c % 16 + b / 16 * 16 else b % 16 + 16 * (c % 16))]
  else s.spWrite e (a + i * (fmtBits f / 8)) (natLe (fmtBits f / 8) c)

end Sys2Proof.Machine
end

