-- ==== Sys2Proof/Machine/Granary.lean ====
section
/-!
DEFINITION. The Granary (R43, R45, R47 to R54, R58, R59): group sums, terms, exact addition with saturation, raw records.
-/
namespace Sys2Proof.Machine

/-- A Granary while it is summed: its content in units of its least bit, POISON, SAT and TRUNCZ, its term count, and whether it
saturated in the present command (GRANARY_SAT). -/
structure Gran where
  acc : Int := 0
  poison : Bool := false
  sat : Bool := false
  trz : Bool := false
  count : Nat := 0
  ovf : Bool := false
deriving DecidableEq, Repr, Inhabited

/-- A term of stage 4: ±m × 2^e, or one poisoned by a NaN or an infinity (R43), with the operands and scales it was formed
from. -/
inductive Term where
  | poison (key : List Int)
  | val (neg : Bool) (m : Nat) (e : Int)
deriving DecidableEq, Repr

def Term.isVal : Term → Bool
  | .val _ _ _ => true
  | .poison _ => false

/-- Shift a magnitude, dropping the bits below (R51). -/
def shiftTrunc (m : Nat) (s : Int) : Nat := if s ≥ 0 then m <<< s.toNat else m >>> (-s).toNat

/-- The largest magnitude of a term and of the Granary, in units of its least bit (R52). -/
def termMax : Nat := 2 ^ 167 - 1
def granMax : Int := 2 ^ 191 - 1
def granMin : Int := -(2 ^ 191)

/-- A decoded value as a list of numbers, and a pair of them. -/
def Fv.key : Fv → List Int
  | .nan c => [0, (c : Int)]
  | .inf n => [1, if n then 1 else 0]
  | .fin n m e => [2, if n then 1 else 0, (m : Int), e]

def pairKey (p : Fv × Fv) : List Int := p.1.key ++ p.2.key

/-- Add a term (R51 to R54). A poisoned term sets POISON; the spec states no value for it, so what it adds to ACC is free, one
value for each operands, scales and anchor, so that R71 and R72 hold of the record (log 1). -/
def Gran.add (anchor : Int) (g : Gran) (t : Term) : Gran :=
  let g := { g with count := g.count + 1 }
  match t with
  | .poison key =>
    let sum := g.acc + clampI (-(termMax : Int)) termMax (Config.poisonTerm (anchor :: key))
    let acc := clampI granMin granMax sum
    { g with acc := acc, poison := true, sat := g.sat || decide (acc ≠ sum), ovf := g.ovf || decide (acc ≠ sum) }
  | .val neg m e =>
    let t := shiftTrunc m (e - (anchor - 191))
    let big := decide (termMax < t)
    let t := min t termMax
    let sum : Int := if neg then g.acc - (t : Int) else g.acc + (t : Int)
    let acc := clampI granMin granMax sum
    let ovf := big || decide (acc ≠ sum)
    { g with acc := acc, sat := g.sat || ovf, ovf := g.ovf || ovf, trz := g.trz || (t == 0 && m != 0) }

def Gran.addAll (anchor : Int) (g : Gran) (ts : List Term) : Gran := ts.foldl (Gran.add anchor) g

/-- The product of two values times a scale sm × 2^se as a term (R49). -/
def prodTerm (a w : Fv) (sm : Nat) (se : Int) : Term :=
  match a, w with
  | .fin n1 m1 e1, .fin n2 m2 e2 => .val (n1 != n2) (m1 * m2 * sm) (e1 + e2 + se)
  | _, _ => .poison (pairKey (a, w) ++ [(sm : Int), se])

/-- A value as a term (R66). -/
def valTerm (a : Fv) : Term :=
  match a with
  | .fin n m e => .val n m e
  | _ => .poison a.key

def signI (n : Bool) (m : Nat) : Int := if n then -(m : Int) else (m : Int)

/-- The exact sum of an integer group (R47). -/
def intSum : List (Fv × Fv) → Int
  | [] => 0
  | (.fin n1 m1 _, .fin n2 m2 _) :: r => signI (n1 != n2) (m1 * m2) + intSum r
  | _ :: r => intSum r

/-- Whether every pair of a group is finite. -/
def pairsFinite (l : List (Fv × Fv)) : Bool :=
  l.all (fun p => match p.1, p.2 with | .fin _ _ _, .fin _ _ _ => true | _, _ => false)

/-- The largest exponent among the non-zero products of a group (R48). -/
def fp8Tmax : List (Fv × Fv) → Option Int
  | [] => none
  | (.fin _ m1 e1, .fin _ m2 e2) :: r =>
    let t := fp8Tmax r
    if m1 * m2 = 0 then t else some (match t with | none => e1 + e2 | some x => max x (e1 + e2))
  | _ :: r => fp8Tmax r

/-- The group accumulator of an FP8 group, aligned to tmax (R48). -/
def fp8Sum (tmax : Int) : List (Fv × Fv) → Int
  | [] => 0
  | (.fin n1 m1 e1, .fin n2 m2 e2) :: r => signI (n1 != n2) (shiftTrunc (m1 * m2) (e1 + e2 - tmax + 32)) + fp8Sum tmax r
  | _ :: r => fp8Sum tmax r

/-- The terms of one group of a pairing under its two scale entries (R43, R47 to R49). -/
def groupTerms (k : Kind) (ps : List (Fv × Fv)) (ea ew : Word) : List Term :=
  let (ma, xa) := entScale ea
  let (mw, xw) := entScale ew
  match k with
  | .int => let s := intSum ps; [.val (decide (s < 0)) (s.natAbs * ma * mw) (xa + xw)]
  | .fp8 =>
    if !pairsFinite ps then [.poison (ps.flatMap pairKey ++ [(ma : Int), xa, (mw : Int), xw])]
    else match fp8Tmax ps with
      | none => [.val false 0 0]
      | some t => let s := fp8Sum t ps; [.val (decide (s < 0)) (s.natAbs * ma * mw) (t - 32 + xa + xw)]
  | .bf => ps.map (fun p => prodTerm p.1 p.2 1 0)
  | .bfInt => ps.map (fun p => prodTerm p.1 p.2 mw xw)

/-- Which of the two scale entries of a group a pairing reads (R39), and whether one read is invalid (R45). -/
def usesEa (k : Kind) : Bool := k == .int || k == .fp8
def usesEw (k : Kind) : Bool := k != .bf
def groupScaleBad (k : Kind) (ea ew : Word) : Bool := (usesEa k && entBad ea) || (usesEw k && entBad ew)

/-- The term count of an element with reduction length n (R119, R482). -/
def termCount (k : Kind) (n g : Nat) : Nat := if usesEa k then n / g else n

/-- One group of an element's reduction: its pairs of values and the two scale entries. -/
structure Group where
  pairs : List (Fv × Fv)
  ea : Word := 0
  ew : Word := 0
deriving Repr

/-! ### Raw records (R58, R59) -/

/-- The Tithe residue of a Granary: its value modulo 7 (R63). -/
def residue (acc : Int) : Nat := (acc % 7).toNat

/-- The record of a Granary, as a 256-bit number (R58). -/
def Gran.record (anchor : Int) (g : Gran) : Nat :=
  ofS 192 g.acc + ofS 16 anchor * 2 ^ 192
    + (residue g.acc + b2n g.poison * 8 + b2n g.sat * 16 + b2n g.trz * 32) * 2 ^ 208 + g.count % 2 ^ 32 * 2 ^ 224

/-- A Granary that starts from a record (R59), with the fault its load meets: the load of one record sees all of them at once, so
the lowest code is recorded (R69). -/
def granLoad (anchor : Int) (own : Nat) (r : Nat) : Gran × List Nat :=
  let acc := toS 192 r
  let g : Gran := { acc := acc, poison := nfld r 211 211 == 1, sat := nfld r 212 212 == 1, trz := nfld r 213 213 == 1, count := nfld r 255 224 }
  (g, if nfld r 210 208 ≠ residue acc then [0x0101]
    else if toS 16 (nfld r 207 192) ≠ anchor then [0x0103]
    else if 2 ^ 24 < g.count + own then [0x0104] else [])

/-- The Granary of one element: its start (zero or a record), then every group's terms in ascending order; and the faults met.
An element whose record fails is not computed. -/
def elemGran (anchor : Int) (k : Kind) (start : Gran × List Nat) (gs : List Group) : Gran × List Nat :=
  if !start.2.isEmpty then start else
  let g := gs.foldl (fun g x => g.addAll anchor (groupTerms k x.pairs x.ea x.ew)) start.1
  (g, (if gs.any (fun x => groupScaleBad k x.ea x.ew) then [0x0106] else []) ++ (if g.ovf then [0x0102] else []))

end Sys2Proof.Machine
end

