-- ==== Sys2Proof/Machine/Flags.lean ====
section
/-!
DEFINITION. Output rounding and the status bits of ASTAT (R54 to R57, R62, R481): TRUNCZ, OUTSAT, NONFINITE, and the post
operations of R80.
-/
namespace Sys2Proof.Machine

/-- An element as stored: its code, its ASTAT bits (1 TRUNCZ, 2 OUTSAT, 4 NONFINITE) and the codes of the faults it raises. -/
structure Elem where
  code : Nat
  astat : Nat := 0
  faults : List Nat := []
deriving DecidableEq, Repr, Inhabited

/-- The range of codes of an integer format. -/
def intLo (f : Nat) : Int := match f with | 1 => -128 | 3 => -8 | _ => 0
def intHi (f : Nat) : Int := match f with | 0 => 255 | 1 => 127 | 2 => 15 | _ => 7

/-- The canonical NaN of a format (R57). -/
def canonNaN (f : Nat) : Nat :=
  match f with
  | 6 => 0x7FC0
  | 7 => 0x7FC00000
  | _ => 0x7F

/-- The output descriptor (R114): OUT_EXP, and OUT_ZP in the format of the output. -/
def odExp (od : Word) : Int := toS 10 (fld od 25 16)
def odZp (f : Nat) (od : Word) : Int := intOf f (fld od 15 8)

/-- Store ±m × 2^e as an integer (R56). -/
def intStore (f : Nat) (od : Word) (neg : Bool) (m : Nat) (e : Int) : Elem :=
  let q := signI neg (rneScale m (e - odExp od)) + odZp f od
  let c := clampI (intLo f) (intHi f) q
  { code := ofS (fmtBits f) c, astat := if c = q then 0 else 2 }

/-- Store a value that is no number (R57, R481). -/
def nanStore (f : Nat) : Elem := if isIntFmt f then { code := 0, faults := [0x0107] } else { code := canonNaN f, astat := 4 }

/-- Store ±m × 2^e in a format other than GRANARY (R55, R56). -/
def finStore (f : Nat) (od : Word) (neg : Bool) (m : Nat) (e : Int) : Elem :=
  if isIntFmt f then intStore f od neg m e
  else let r := roundSat (fpOf f) neg m e; { code := r.1, astat := if r.2 then 2 else 0 }

/-- Store an FP32 value of the vector units (R481). -/
def f32Store (f : Nat) (od : Word) (w : Word) : Elem :=
  match f32Dec w with
  | .nan _ => nanStore f
  | .inf n => if isIntFmt f then nanStore f else { code := signCode (fpOf f) n + (fpOf f).maxCode, astat := 6 }
  | .fin n m e => finStore f od n m e

/-- An FP32 value rounded to a BF16 operand: nearest even, beyond the range an infinity (R65). -/
def bfRne (w : Word) : Nat :=
  match f32Dec w with
  | .nan _ => 0x7FC0
  | .inf n => if n then 0xFF80 else 0x7F80
  | .fin n m e => let c := roundMag bf16 m e; signCode bf16 n + min c 0x7F80

/-- Round a Granary to an output format (R55 to R58). -/
def Gran.out (anchor : Int) (f : Nat) (od : Word) (g : Gran) : Elem :=
  let r : Elem :=
    if f = 8 then { code := g.record anchor, astat := if g.poison then 4 else 0 }
    else if g.poison then nanStore f
    else finStore f od (decide (g.acc < 0)) g.acc.natAbs (anchor - 191)
  { r with astat := r.astat ||| b2n g.trz }

/-- A Granary rounded once to FP32, as the later steps of a command use it. -/
def Gran.f32 (anchor : Int) (g : Gran) : Word :=
  if g.poison then f32NaN else w32 (roundSat fp32 (decide (g.acc < 0)) g.acc.natAbs (anchor - 191)).1

/-- ASTAT of a Granary rounded to FP32. -/
def Gran.astat (anchor : Int) (g : Gran) : Nat :=
  b2n g.trz ||| (if g.poison then 4 else if (roundSat fp32 (decide (g.acc < 0)) g.acc.natAbs (anchor - 191)).2 then 2 else 0)

/-! ### Post operations (R80) -/

/-- A BF16 code as FP32. -/
def bfWord (c : Nat) : Word := w32 (c % 65536 * 65536)

/-- σ(x) and tanh(x) (R135). -/
def fsigma (x : Word) : Word := frecip (fadd f32One (fexp (fneg x)))
def ftanh (x : Word) : Word := fsub (fmul f32Two (frecip (fadd f32One (fexp (fmul 0xC0000000 x))))) f32One

/-- One post operation on x; `v` is the entry of its vector for this column. -/
def postOp (op : Word) (v : Word) (x : Word) : Word :=
  let imm := bfWord (fld op 15 0)
  match fld op 31 24 with
  | 1 => fadd x v
  | 2 => fmul x v
  | 3 => fadd x imm
  | 4 => fmul x imm
  | 5 => fmax x imm
  | 6 => fmin x imm
  | 7 => fmax x 0
  | 8 => fmul x (fsigma x)
  | 9 =>
    let c := fmul (fmul (fmul 0x3D372713 x) x) x
    fmul x (frecip (fadd f32One (fexp (fmul 0xBFCC422A (fadd x c)))))
  | 10 => fexp x
  | 11 => frecip x
  | _ => frsqrt x

/-- The chain on x (R80). -/
def postChain (ops : List Word) (v x : Word) : Word := ops.foldl (fun x op => postOp op v x) x

/-- Whether a chain reads a vector. -/
def readsVec (ops : List Word) : Bool := ops.any (fun o => fld o 31 24 == 1 || fld o 31 24 == 2)

/-- The stored element of a Granary: rounded, and through the post chain where there is one (R80). -/
def Gran.emit (anchor : Int) (f : Nat) (ops : List Word) (post : Nat) (od v : Word) (g : Gran) : Elem :=
  if ops.isEmpty then g.out anchor f od
  else
    let r := f32Store post od (postChain ops v (g.f32 anchor))
    { r with astat := r.astat ||| g.astat anchor }

/-- The union of status bits and of fault codes of elements. -/
def astatOf (l : List Elem) : Nat := l.foldl (fun a x => a ||| x.astat) 0
def faultsOf (l : List Elem) : List Nat := l.flatMap (·.faults)

end Sys2Proof.Machine
end

