-- ==== Sys2Proof/Machine/Held.lean ====
section
/-!
DEFINITION. Packets of this module, the faults of its remote requests, proxy accesses in flight, and a port that leaves UP
(R171, R173, R186, R188, R199, R200, R205).
-/
namespace Sys2Proof.Machine

/-- Hold a packet of this module for sending (R173, R186): channel 0 for requests, 1 for responses. A packet of a tenant
counts as link bytes (R250). -/
def State.sendPacket (s : State) (k : Packet) : State :=
  let vc := if isRequest k.op then 0 else 1
  let p := if isProxyOp k.op then (match s.firstPort k.dest with | some p => some p | none => s.holdPort k.dest vc) else s.holdPort k.dest vc
  match p with
  | none => s
  | some p =>
    let s := if isProxyOp k.op then s else s.chargeLink k.tenant k.data.length
    s.enqueue p vc k

/-- The answer to a request (R174): its tag and tenant go back, under this module's epoch of the tenant. -/
def State.answer (s : State) (k : Packet) (op : PktOp) (addr : Nat) (data : List Byte) : State :=
  s.sendPacket { dest := k.src, src := s.me, tenant := k.tenant, vc := 1, epoch := if isProxyOp k.op then 0 else s.epoch k.tenant,
                 hops := 63, op := op, space := k.space, tag := k.tag, addr := addr, data := data }

/-! ### Faults of remote requests -/

/-- FAULT_INFO of a Porter fault (R106). -/
def porInfo (desc : Nat) (seq : Word) : Nat := desc % 65536 * 65536 + seq.toNat % 65536

/-- A Porter fault (R106, R112): the address in PD_ERR, the record of the COPY, the fault of its job. -/
def State.porterFault (s : State) (p code info addr : Nat) (c : Cmd) : State :=
  (s.wr64 (rga (porPage p) 0x50) addr).failCmd (porPage p) code info c 7 0

/-- A remote write ends with a fault (R171, R186, R188): PORTER_BOUNDS with the remote address, or the code of a link fault. -/
def State.failReq (s : State) (r : Req) (code info : Nat) : State :=
  let s := { s with field := { s.field with reqs := s.field.reqs.filter (fun x => x.tag != r.tag) } }
  match (s.porter r.pd).run with
  | some run =>
    if run.cmd.q = r.q ∧ run.cmd.seq = r.seq then
      (if code = 0x0303 then s.porterFault r.pd code (porInfo r.desc r.seq) r.addr run.cmd
       else s.failCmd (porPage r.pd) code info run.cmd 7 0)
    else s
  | none => s

/-- PX_ERR of a failed proxy access (R200, R207): cause 1 timeout, 2 unreachable, 3 refused, 4 port down. -/
def State.pxErr (s : State) (cause : Nat) (dest window : Nat) : State :=
  (s.wr (fdReg 0x444) (w32 (2 ^ 31 + cause * 2 ^ 28 + dest * 2 ^ 22 + window % 65536))).raise 0x300 2

/-- The packet of a proxy access (R174, R199). -/
def proxyPacket (me : Nat) (x : Proxy) : Packet :=
  { dest := x.dest, src := me, tenant := 0, vc := 0, epoch := 0, hops := 63, op := if x.value.isSome then .proxyWrite else .proxyRead,
    space := 7, tag := x.tag, addr := x.addr, data := match x.value with | some v => natLe 4 v.toNat | none => [] }

/-- Send one waiting proxy access, if its module serves none and fewer than 16 modules are served (R199). -/
def State.sendProxy (s : State) (x : Proxy) : State :=
  let busy := s.field.proxies.any (fun y => y.dest == x.dest && y.sent)
  let count := ((s.field.proxies.filter (·.sent)).map (·.dest)).eraseDups.length
  if x.sent ∨ busy ∨ 16 ≤ count then s else
  match s.firstPort x.dest with
  | none => s
  | some p =>
    let l := s.field.proxies.map (fun (y : Proxy) => if y.tag = x.tag then { y with sent := true, port := p } else y)
    ({ s with field := { s.field with proxies := l } } : State).sendPacket (proxyPacket s.me x)

/-- Send the waiting proxy accesses, the oldest of each remote module first (R199). -/
def State.sendProxies (s : State) : State := s.field.proxies.foldl (fun s x => s.sendProxy x) s

/-- A proxy access fails (R200): its cause is recorded, a read returns all ones. -/
def State.failProxy (s : State) (x : Proxy) (cause : Nat) : State :=
  let s := { s with field := { s.field with proxies := s.field.proxies.filter (fun y => y.tag != x.tag) } }
  let s := s.pxErr cause x.dest x.window
  let s := if x.value.isNone then { s with rdata := 0xFFFFFFFF } else s
  s.sendProxies

/-- A proxy access ends well. -/
def State.endProxy (s : State) (x : Proxy) : State :=
  ({ s with field := { s.field with proxies := s.field.proxies.filter (fun y => y.tag != x.tag) } } : State).sendProxies

/-! ### Port states (R170, R171) -/

def State.logPort (s : State) (ev p : Nat) : State := s.logNamed (falPage p) ev 2 p 255

/-- Every change of LSTATE raises PORT_STATE (R205). -/
def State.toState (s : State) (p v : Nat) : State :=
  if s.lstate p = v then s else (s.setLstate p v).raise 0x300 4

/-- FAULT_INFO of FL_LINK_DOWN (R205). -/
def downInfo (m p seq : Nat) : Nat := m * 2 ^ 26 + p * 2 ^ 16 + seq % 65536

/-- An arrival sent to another module did not get there (R171, R186): its job takes the fault at the Porter page. -/
def State.failArrival (s : State) (r : Req) (code info : Nat) : State :=
  ({ s with field := { s.field with arrs := s.field.arrs.filter (fun x => x.tag != r.tag) } } : State).jobFault (porPage r.pd) code info r.tenant

/-- A packet that port p held when it left UP is lost (R171, R205): a request of another module is answered with an error, the job of
an own one takes FL_LINK_DOWN where it was issued, a proxy access fails; a lost response is a fault of its tenant's job here. -/
def State.loseTx (p : Nat) (s : State) (t : TxPkt) : State :=
  let k := t.pkt
  let s := s.cutSource t
  if !isRequest k.op then
    (if !isProxyOp k.op ∧ k.tenant < 8 ∧ s.tnState k.tenant = 1 then s.jobFault 0x300 0x0601 (downInfo s.me p 0) k.tenant else s)
  else if k.src ≠ s.me then s.answer k .error (0x0601 + p * 65536) []
  else if isProxyOp k.op then
    (match s.field.proxies.find? (fun y => y.tag == k.tag && y.sent) with | some y => s.failProxy y 4 | none => s)
  else match s.field.reqs.find? (fun r => r.tag == k.tag), s.field.arrs.find? (fun r => r.tag == k.tag) with
    | some r, _ => s.failReq r 0x0601 (downInfo s.me p r.seq.toNat)
    | none, some r => s.failArrival r 0x0601 (downInfo s.me p r.seq.toNat)
    | none, none => s

/-- What a port keeps when it leaves UP: packets received whole, which hold no credit of the next session, and sideband words. -/
def Port.down (x : Port) : Port :=
  { rx := (x.rx.map (fun (v : Nat × List RxPkt) => (v.1, (v.2.filter (·.whole)).map (fun r => { r with counted := false })))).filter (fun (v : Nat × List RxPkt) => !v.2.isEmpty)
    sbOut := x.sbOut, sbNext := x.sbNext, sbSeen := x.sbSeen, sbIn := x.sbIn }

/-- Packets that came in by port p and go out by others: those not received whole are given up, the others owe p no credit. -/
def State.cutThrough (s : State) (p : Nat) : State :=
  let from_ (t : TxPkt) : Bool := match t.src with | some x => x.1 == p | none => false
  (List.range 8).foldl (fun s q =>
    let x := s.port q
    s.setPort q { x with tx := (x.tx.filter (fun t => !(from_ t && !t.whole))).map (fun t => if from_ t then { t with src := none } else t) }) s

/-- A port leaves UP (R171): everything it holds for sending is lost; its channels, replay buffer and seals start anew. -/
def State.leaveUp (s : State) (p : Nat) : State :=
  if !s.portUp p then s else
  let x := s.port p
  (x.tx.foldl (State.loseTx p) (((s.setPort p x.down).cutThrough p).toState p 0))

/-- A port that its DIR keeps DOWN: UP or training ends, its lanes are powered off (R169, R206). -/
def State.powerOff (s : State) (p : Nat) : State := ((s.leaveUp p).toState p 0).pf (flReg p 0x44) 19 16 0

end Sys2Proof.Machine
end

