-- ==== Sys2Proof/Machine/Ledger.lean ====
section
/-!
DEFINITION. The Ledger (R431 to R436): words and their registers, the write queue with the hold-up check, rows with two
copies, and the event log (R425 to R427).
-/
namespace Sys2Proof.Machine

def dfltW : Nat → Word := fun _ => 0

/-! ### Words and registers (R431, R442) -/

/-- The Ledger word that a persistent register shows (R431, R442). -/
def rwpWord (addr : Nat) : Option Nat :=
  match pageId (addr / 4096) with
  | none => none
  | some i =>
    let o := addr % 4096
    match i.block with
    | .sheaf => if i.sub = 4 ∧ 0x40 ≤ o ∧ o < 0x240 then some (0x100 + 128 * i.inst + (o - 0x40) / 4) else none
    | .axis =>
      if 0x80 ≤ o ∧ o < 0x8C then some (0x400 + 3 * i.inst + (o - 0x80) / 4)
      else if 0x90 ≤ o ∧ o < 0x9C then some (0x490 + 3 * i.inst + (o - 0x90) / 4) else none
    | .encoder => if o = 0x64 then some (0x520 + i.inst) else none
    | .thresher => if o = 0xE4 then some (0x550 + i.inst) else if o = 0xE8 then some (0x560 + i.inst)
        else if o = 0xEC then some (0x570 + i.inst) else none
    | .eth => if o = 0x4C then some (0x580 + 2 * i.inst) else if o = 0x50 then some (0x581 + 2 * i.inst) else none
    | .faleg => if o = 0x40 then some (0x588 + i.inst)
        else if i.inst ≠ 0 then none
        else if o = 0x200 then some 0x590 else if o = 0x204 then some 0x591 else if o = 0x210 then some 0x592 else none
    | .power => if o = 0x60 then some 0x593 else if o = 0x64 then some 0x594 else none
    | .ledger => if i.sub = 1 ∧ 0x40 ≤ o then some (0x900 + (o - 0x40) / 4)
        else if i.sub = 2 ∧ 0x40 ≤ o ∧ o < 0xC80 then some (0x900 + 1008 + (o - 0x40) / 4) else none
    | _ => none

/-- The register that shows a Ledger word, if one does. -/
def wordReg (w : Nat) : Option Nat :=
  if 0x100 ≤ w ∧ w < 0x400 then some (rga (0x104 + 16 * ((w - 0x100) / 128)) (0x40 + 4 * ((w - 0x100) % 128)))
  else if 0x400 ≤ w ∧ w < 0x490 then some (axReg ((w - 0x400) / 3) (0x80 + 4 * ((w - 0x400) % 3)))
  else if 0x490 ≤ w ∧ w < 0x520 then some (axReg ((w - 0x490) / 3) (0x90 + 4 * ((w - 0x490) % 3)))
  else if 0x520 ≤ w ∧ w < 0x550 then some (encReg (w - 0x520) 0x64)
  else if 0x550 ≤ w ∧ w < 0x560 then some (rga (0x500 + (w - 0x550)) 0xE4)
  else if 0x560 ≤ w ∧ w < 0x570 then some (rga (0x500 + (w - 0x560)) 0xE8)
  else if 0x570 ≤ w ∧ w < 0x580 then some (rga (0x500 + (w - 0x570)) 0xEC)
  else if 0x580 ≤ w ∧ w < 0x588 then some (rga (0x310 + (w - 0x580) / 2) (0x4C + 4 * ((w - 0x580) % 2)))
  else if 0x588 ≤ w ∧ w < 0x590 then some (rga (falPage (w - 0x588)) 0x40)
  else if w = 0x590 then some (rga 0x300 0x200) else if w = 0x591 then some (rga 0x300 0x204)
  else if w = 0x592 then some (rga 0x300 0x210) else if w = 0x593 then some (rga 6 0x60)
  else if w = 0x594 then some (rga 6 0x64)
  else if 0x900 ≤ w ∧ w < 0x900 + 1008 then some (rga 3 (0x40 + 4 * (w - 0x900)))
  else if 0x900 + 1008 ≤ w ∧ w < 0x1000 then some (rga 4 (0x40 + 4 * (w - 0x900 - 1008)))
  else none

/-- The value in force of a Ledger word. -/
def State.ledVal (s : State) (w : Nat) : Word := mapGet dfltW s.ledger.ram w

/-- A read of a Ledger word (R432): the last write still in the queue, else the value in force. -/
def State.ledRead (s : State) (w : Nat) : Word :=
  match (s.ledger.queue.filter (fun x => x.word == w)).getLast? with
  | some x => x.value
  | none => (match s.ledger.prog with | some x => if x.word = w then x.value else s.ledVal w | none => s.ledVal w)

def setLedger (s : State) (l : Ledger) : State := { s with ledger := l }

/-- The block that follows a value in force: an encoder's position its offset (R307); a Faleg port goes DOWN with a DIR that keeps it so
(R169, R206). -/
def State.inForce (s : State) (w : Nat) : State :=
  if 0x520 ≤ w ∧ w < 0x550 then s.setPos (w - 0x520) (s.enc (w - 0x520)).count
  else if 0x588 ≤ w ∧ w < 0x590 ∧ !(decide (1 ≤ s.dir (w - 0x588) ∧ s.dir (w - 0x588) ≤ 4)) ∧ s.lstate (w - 0x588) ≠ 0 then s.powerOff (w - 0x588)
  else s

/-- A value comes into force: the RAM copy and the register that shows it. The binding of FIELD_ID bits stays computed. -/
def State.force (s : State) (w : Nat) (v : Word) : State :=
  let s := setLedger s { s.ledger with ram := mapSet dfltW s.ledger.ram w v }
  match wordReg w with
  | some a => (s.wr a v).inForce w
  | none => s

/-! ### The log device (R425 to R427) -/

/-- The 32 bytes of a record with its sequence number (R425). -/
def logBytes (r : LogRec) (seq : Nat) : List Byte :=
  let b := match r with
    | .event t ps code blk info cls inst ten =>
      natLe 8 t ++ natLe 4 ps ++ natLe 2 code ++ natLe 2 blk ++ natLe 4 info ++ natLe 1 cls ++ natLe 1 inst ++ natLe 1 ten ++ zeros 1 ++ natLe 4 seq
    | .lost t c =>
      let n (k : Nat) : Nat := c.getD k 0
      natLe 8 t ++ natLe 2 (n 0) ++ zeros 2 ++ natLe 2 (n 1) ++ natLe 2 (n 2) ++ natLe 2 (n 3) ++ natLe 2 (n 4) ++
        natLe 2 (n 5) ++ natLe 2 (n 6) ++ natLe 4 seq
  b ++ natLe 4 (crc32 b)

/-- Put records on the device (R427): a new sector drops the oldest held one beyond 222 full sectors. -/
def putLog (g : EventLog) : List LogRec → EventLog
  | [] => g
  | r :: t =>
    let f := if g.nextSeq % 2048 = 0 then g.flash.drop (g.flash.length - 222 * 2048) else g.flash
    putLog { g with flash := f ++ [r], nextSeq := g.nextSeq + 1 } t

/-- The page is programmed (R426): up to eight records follow from the FIFO, then LOST_EVENTS takes the freed entry. -/
def EventLog.written (g : EventLog) : EventLog :=
  let g := putLog g g.page
  let g := { g with page := g.fifo.take 8, fifo := g.fifo.drop 8 }
  if g.counts.all (· == 0) then g
  else
    let r := LogRec.lost g.lostTime g.counts
    if g.page.isEmpty then { g with page := [r], counts := [0, 0, 0, 0, 0, 0, 0] }
    else { g with fifo := g.fifo ++ [r], counts := [0, 0, 0, 0, 0, 0, 0] }

/-- LOG_PAGE_WRITTEN (R426). -/
def execLogPageWritten (s : State) : Host.Outcome State Fault Refusal := .next { s with log := s.log.written }

/-- Program pages until the FIFO is empty (R471). -/
def drainLog : Nat → EventLog → EventLog
  | 0, g => g
  | n + 1, g => if g.page.isEmpty ∧ g.fifo.isEmpty then g else drainLog n g.written

/-! ### Hold-up (R432, R433) -/

/-- The hold-up time in µs of a HOLDUP_SENSE code (R433). -/
def State.holdupOf (s : State) (code : Nat) : Nat :=
  let c1 := s.rd (rga 6 0x60)
  let c2 := s.rd (rga 6 0x64)
  let n := code * 18 * fld c1 31 16
  let d := 10 * 4096 * 256
  let vm := fld c2 15 0
  let load := fld c2 31 16
  if load = 0 ∨ vm = 0 ∨ fld c1 15 0 = 0 ∨ n * 1000 ≤ vm * d then 0
  else fld c1 15 0 * 10 * (n * n * 1000000 - vm * vm * d * d) / (2 * load * d * d * 1000000)

/-- The hold-up time that the Ledger reads: 0 while the input is invalid or stale (R418). -/
def State.holdup (s : State) : Nat :=
  if s.rb (rga 6 0x68) 31 then 0
  else match mapGet (fun _ => []) s.ost.samples 100 with
    | [] => 0
    | c :: r => s.holdupOf (r.foldl (fun m x => min m x) c).toNat

/-! ### Programming (R434, R435) -/

def State.lrow (s : State) (r : Nat) : LRow := mapGet dflt s.ledger.rows r
def LCopy.good (c : LCopy) : Bool := c.crcErr == 0

/-- What a read of a row finds (R434): the copy used, whether a copy is rewritten, whether the row is lost. -/
inductive RowRead where
  | used (c : LCopy)
  | repair (c : LCopy)
  | lost
deriving DecidableEq, Repr

def readRow (r : LRow) : RowRead :=
  match r.a.good, r.b.good with
  | true, true =>
    if r.a.words = r.b.words then .used (if r.a.wear < r.b.wear then r.b else r.a)
    else if r.a.wear < r.b.wear then .repair r.b else .repair r.a
  | true, false => .repair r.a
  | false, true => .repair r.b
  | false, false => .lost

/-- Log and count a copy repair (R434, R442). -/
def State.noteRepair (s : State) (row : Nat) : State :=
  ((((s.wb (rga 2 0x48) 30 true).incSat (rga 2 0x50) 31 16).pf (rga 2 0x50) 7 0 row)).logNamed 2 evLedgerRepair 5 row 255

/-- A write of MASTER comes into force (R192): the master is always LOCKED, so the module that ceases to be it leaves that state only by
what it then meets. -/
def State.newMaster (s : State) (w : Nat) (v : Word) : State :=
  if w = 0x592 ∧ s.rf (rga 0x300 0x210) 5 0 = s.me ∧ fld v 5 0 ≠ s.me then s.pf (rga 0x300 0x214) 1 0 1 else s

/-- An accepted write programs copy A and then copy B of its row from the values in force, with the wear count incremented;
the value comes into force (R432, R434, R435). -/
def State.program (s : State) (x : LWrite) : State :=
  let row := x.word / 16
  let s := (s.newMaster x.word x.value).force x.word x.value
  let old := s.lrow row
  let wear := (match readRow old with | .used c => c.wear | .repair c => c.wear | .lost => max old.a.wear old.b.wear) + 1
  let words := (List.range 16).foldl (fun m k => mapSet dfltW m k (s.ledVal (16 * row + k))) []
  let c : LCopy := ⟨words, wear, 0⟩
  let s := setLedger s { s.ledger with rows := mapSet dflt s.ledger.rows row ⟨c, c⟩ }
  if wear = 900000 then s.logNamed 2 evWearWarn 5 row 255 else s

/-- A refused write (R91, R432): HOLDUP is set, on the repair page too, and the refusal logged. -/
def State.refuseWrite (s : State) (w : Nat) : State :=
  let s := if 0x100 ≤ w ∧ w < 0x400 then s.wb (rga (engPage ((w - 0x100) / 128) + 4) 0x240) 2 true else s
  (s.wb (rga 2 0x48) 31 true).logNamed 2 evLedgerRefused 5 w 255

/-- A write leaves the queue (R432): accepted with 200 µs of hold-up or when exempt, otherwise refused. -/
def State.dequeue (s : State) : State :=
  if s.ledger.prog.isSome then s else
  match s.ledger.queue with
  | [] => s
  | x :: r =>
    let s := setLedger s { s.ledger with queue := r }
    if x.exempt ∨ 200 ≤ s.holdup then setLedger s { s.ledger with prog := some x } else s.refuseWrite x.word

/-- The copies of a row as a power loss within an exempt write leaves them, with too little hold-up to finish (R432, R434): the old row, copy A
cut off, copy A new, or copy B cut off. The point of the cut is a free value. Either the old or the new value stands after the next read. -/
def State.cutWrite (s : State) (x : LWrite) : State :=
  let (k, s) := (setLedger s { s.ledger with prog := none }).take
  let row := x.word / 16
  let old := s.lrow row
  let cur := match readRow old with | .used c => c | .repair c => c | .lost => default
  let c : LCopy := ⟨mapSet dfltW cur.words (x.word % 16) x.value, cur.wear + 1, 0⟩
  let cut : LCopy := { c with crcErr := 1 }
  let n := (Config.freeWord k).toNat % 4
  let r := if n = 0 then old else if n = 1 then { old with a := cut } else if n = 2 then { old with a := c } else ⟨c, cut⟩
  setLedger s { s.ledger with rows := mapSet dflt s.ledger.rows row r }

/-- A read finds that copies of a row have lost their CRC (R434). -/
def State.spoil (s : State) (row : Nat) (a b : Bool) : State :=
  if !a && !b then s else
  let r := s.lrow row
  let hit (c : LCopy) (x : Bool) : LCopy := if x then { c with crcErr := 1 } else c
  setLedger s { s.ledger with rows := mapSet dflt s.ledger.rows row ⟨hit r.a a, hit r.b b⟩ }

/-- The write being programmed completes. -/
def State.writeDone (s : State) : State :=
  match s.ledger.prog with
  | none => s
  | some x => (setLedger s { s.ledger with prog := none }).program x

/-- LEDGER_DEQUEUE (R432). -/
def execLedgerDequeue (s : State) : Host.Outcome State Fault Refusal := .next s.dequeue

/-- LEDGER_WRITE_DONE (R432, R434). An exempt write, which of the queue's only HU_CFG1 and HU_CFG2 have, is read back and repeated; `failed` says that
it has not succeeded within 100 ms: it is abandoned with HOLDUP set. -/
def execLedgerWriteDone (failed : Bool) (s : State) : Host.Outcome State Fault Refusal :=
  match s.ledger.prog with
  | some x => if failed ∧ x.exempt then .next ((setLedger s { s.ledger with prog := none }).wb (rga 2 0x48) 31 true) else .next s.writeDone
  | none => .next s

/-- Drain the queue (R471). -/
def State.drainLedger (s : State) : Nat → State
  | 0 => s.writeDone
  | n + 1 => (s.writeDone.dequeue).drainLedger n

/-- Enter a write in the queue (R432); a full queue holds the writer until an entry frees. -/
def State.ledgerPush (s : State) (w : Nat) (v : Word) : State :=
  let s := if 16 ≤ s.ledger.queue.length then s.writeDone.dequeue else s
  setLedger s { s.ledger with queue := s.ledger.queue ++ [⟨w, v, w == 0x593 || w == 0x594⟩] }

/-- A write by Ostler: behind the queued writes it is accepted and programmed, or refused (R430, R432). -/
def State.ledgerNow (s : State) (w : Nat) (v : Word) (exempt : Bool) : State × Bool :=
  let s := s.drainLedger 16
  if exempt ∨ 200 ≤ s.holdup then (s.program ⟨w, v, exempt⟩, true) else (s.refuseWrite w, false)

/-- Several words, all or none: the hold-up check is the same for each. -/
def State.ledgerAll (s : State) (l : List (Nat × Word)) : State × Bool :=
  let s := s.drainLedger 16
  if l.isEmpty ∨ 200 ≤ s.holdup then (l.foldl (fun s x => s.program ⟨x.1, x.2, false⟩) s, true)
  else (s.refuseWrite ((l.map (·.1)).headD 0), false)

/-- LEDGER_SCAN (R436): the next row is read and repaired; a LOST row is logged and the values in force stand. `a` and `b`: the read finds that copy
A, copy B, has lost its CRC. -/
def execLedgerScan (a b : Bool) (s : State) : Host.Outcome State Fault Refusal :=
  let row := s.ledger.scan
  let s := (setLedger s { s.ledger with scan := (row + 1) % 256 }).spoil row a b
  match readRow (s.lrow row) with
  | .used _ => .next s
  | .repair c => .next ((setLedger s { s.ledger with rows := mapSet dflt s.ledger.rows row ⟨c, c⟩ }).noteRepair row)
  | .lost => .next (s.logNamed 2 evLedgerLost 5 row 255)

/-- The words of a row come into force. -/
def State.forceRow (s : State) (row : Nat) (c : LCopy) : State :=
  (List.range 16).foldl (fun s k => s.force (16 * row + k) (mapGet dfltW c.words k)) s

/-- Both copies of a row. -/
def State.setRow (s : State) (row : Nat) (c : LCopy) : State := setLedger s { s.ledger with rows := mapSet dflt s.ledger.rows row ⟨c, c⟩ }

/-- Read every row at a start (R436): repairs, LOST rows, RAM copies and registers. -/
def State.loadRow (s : State) (row : Nat) : State :=
  match readRow (s.lrow row) with
  | .used c => s.forceRow row c
  | .repair c => ((s.setRow row c).forceRow row c).noteRepair row
  | .lost => (s.forceRow row default).logNamed 2 evLedgerLost 5 row 255
def State.loadLedger (s : State) : State := (List.range 256).foldl State.loadRow s

/-- The first LOST row outside the USER class (R436). -/
def State.lostRow (s : State) : Option Nat := (List.range 0x90).find? (fun r => readRow (s.lrow r) == .lost)

/-- A write of a persistent register (R13): its writable bits enter the queue. -/
def State.wrRwp (s : State) (a : Nat) (v : Word) : State :=
  match rwpWord a, regRow a with
  | some w, some r => s.ledgerPush w (v &&& w32 r.rwp)
  | _, _ => s

end Sys2Proof.Machine
end

