-- ==== Sys2Proof/Machine/Innkeeper.lean ====
section
/-!
DEFINITION. Innkeeper (08_scheduling_tenants.md): the checks every command passes, the commands that run on no engine, queue
fetch and completion, tenants, manifests and accounting.
-/
namespace Sys2Proof.Machine

/-- Refuse a command: record, fault of the job, abort. -/
def State.refuse (s : State) (c : Cmd) (eng : Nat) (r : Nat × Nat × Nat) : State := s.failCmd r.1 r.2.1 r.2.2 c eng 0

/-- Complete the head of queue q, which runs on no engine (R97, R237). -/
def State.endHead (s : State) (q : Nat) (c : Cmd) : State :=
  let s := s.writeRecord c 0 0 7
  let x := s.queue q
  ((s.setQueue q { x with fetched := x.fetched.drop 1, waitMet := false }).retire q c.seq).deadFills c.owner

/-- ARRIVE (R210, R211): it counts once every earlier command of its queue has completed. An arrival that its barrier refuses at
presentation refuses the command (R97, R209, R212); one that duplicates another or drifts does not. -/
def execArrive (q : Fin 32) (s : State) : Host.Outcome State Fault Refusal :=
  match s.headReady q.val with
  | none => .next s
  | some c =>
    if c.op ≠ 7 ∨ !(s.queue q.val).flight.isEmpty then .next s else
    match s.baseCheck c with
    | some r => .next (s.refuse c 7 r)
    | none =>
      match s.namedBar c with
      | none => .next (s.refuse c 7 (s.cmdPage c, 0x0207, c.seqLow))
      | some b =>
        let a : Arrival := ⟨b, c.part, some c.owner, some (c.f 5 31 28, c.f 5 15 0), c.seq.toNat % 1024, 0x10⟩
        match s.judge a with
        | .denied => .next (s.tallyRefuse b 0x0705 c)
        | .invalid => .next (s.tallyRefuse b 0x0704 c)
        | _ => .next ((s.endHead q.val c).sendArrival a).advance

/-- FC_STAT STATE (R192): 0 ACQUIRING, 1 LOCKED, 2 HOLDOVER. The master is always LOCKED. -/
def State.fcState (s : State) : Nat := if s.master = s.me then 1 else s.rf (rga 0x300 0x214) 1 0

/-- The launch count of a tier 2 WAIT (R210). -/
def Cmd.launch (c : Cmd) : Nat := (c.w 7).toNat + 2 ^ 32 * (c.w 8).toNat

/-- WAIT at tier 2 (R193, R211): refused while ACQUIRING; a count already passed counts in FC_LATE. -/
def State.waitCount (s : State) (q : Nat) (c : Cmd) : State :=
  if s.fcState = 0 then s.refuse c 7 (tnPage c.owner, 0x0603, c.seqLow)
  else if c.launch ≤ s.now then
    let s := if c.launch < s.now then s.addSat (rga 0x300 0x220) 1 else s
    (s.endWait q c).advance
  else s.register q ⟨.count c.launch, c, false, c.f 6 15 0⟩

/-- WAIT on a barrier generation or a pipe item (R210, R215, R222). -/
def State.waitBar (s : State) (q : Nat) (c : Cmd) (b : BarId) : State :=
  if s.bOwner b ≠ c.owner then s.tallyRefuse b 0x0705 c
  else if !s.bValid b || c.part == 0 then s.tallyRefuse b 0x0704 c
  else
    let lim := if c.f 6 15 0 = 0 then s.bCfg b 15 0 else c.f 6 15 0
    let pipe := s.bMode b == 2
    let producer := c.part == s.bPbase b
    if pipe && !producer && c.part != s.bPbase b + 1 then s.tallyRefuse b 0x0704 c
    else
      let v := if pipe then s.pipeVerdict b (c.f 5 31 28) (c.f 5 15 0) producer else s.genVerdict b (c.f 5 15 0)
      match v with
      | .now => (s.endWait q c).advance
      | .invalid => s.tallyRefuse b 0x0704 c
      | .later =>
        if pipe then s.register q ⟨.pipe b (c.f 5 31 28) (c.f 5 15 0) producer, c, false, lim⟩
        else s.register q ⟨.gen b (c.f 5 15 0), c, false, lim⟩

/-- WAIT (R210): a satisfied wait completes at once, another is registered and stalls its queue. -/
def execWait (q : Fin 32) (s : State) : Host.Outcome State Fault Refusal :=
  match s.headReady q.val with
  | none => .next s
  | some c =>
    if c.op ≠ 8 then .next s else
    match s.baseCheck c with
    | some r => .next (s.refuse c 7 r)
    | none =>
      match s.namedBar c with
      | none => .next (s.waitCount q.val c)
      | some b => .next (s.waitBar q.val c b)

/-- LAUNCH_COUNT (R193): once the Field counter has reached the count a tier 2 WAIT waits for, it completes; a module that is
ACQUIRING by then refuses it. -/
def execLaunchCount (q : Fin 32) (s : State) : Host.Outcome State Fault Refusal :=
  match (s.queue q.val).wait with
  | some w => (match w.on with
    | .count n =>
      if s.now < n then .next s
      else if s.fcState = 0 then .next (s.refuse w.cmd 7 (tnPage w.cmd.owner, 0x0603, w.cmd.seqLow))
      else .next (s.satisfy q.val).advance
    | _ => .next s)
  | none => .next s

/-- The words of a FENCE are valid (R240): its must-be-zero bits, and no ENGINE of 6 or 7. -/
def fenceOk (c : Cmd) : Bool :=
  decide (c.f 5 2 0 < 6) && c.f 5 29 3 == 0 && (List.range 10).all (fun k => c.w (6 + k) == 0)

/-- The commands of queue q that have been fetched and not completed (R240). -/
def State.openSeqs (s : State) (q : Nat) : List Word :=
  let x := s.queue q
  x.flight ++ (match x.fence with | some f => [f.seq] | none => []) ++ x.fetched.map (fun d => d.seq)

/-- FENCE (R240): it waits for the earlier commands of its queue and, with ALL_QUEUES, for the commands the tenant's other
queues had fetched when it reached the head. -/
def execFence (q : Fin 32) (s : State) : Host.Outcome State Fault Refusal :=
  match s.headReady q.val with
  | none => .next s
  | some c =>
    if c.op ≠ 0xB then .next s else
    match s.baseCheck c with
    | some r => .next (s.refuse c 7 r)
    | none =>
      if !fenceOk c then .next (s.refuse c 7 (tnPage c.owner, 0x0806, inkInfo c)) else
      let others := if tbit (c.w 5) 31 then
          (List.range 4).flatMap (fun i =>
            let q' := 4 * c.owner + i
            if q' = q.val then [] else (s.openSeqs q').map (fun n => (q', n)))
        else []
      let x := s.queue q.val
      .next (s.setQueue q.val { x with fence := some c, fenceFor := others, fetched := x.fetched.drop 1, waitMet := false })

/-- Whether a sequence number of a queue has not completed. -/
def State.isOpen (s : State) (q : Nat) (seq : Word) : Bool := (s.openSeqs q).contains seq

/-- FENCE_COMPLETION (R240): once nothing it waits for is open, the FENCE completes and REBIND moves its queue. -/
def execFenceCompletion (q : Fin 32) (s : State) : Host.Outcome State Fault Refusal :=
  let x := s.queue q.val
  match x.fence with
  | none => .next s
  | some c =>
    if !x.flight.isEmpty ∨ x.fenceFor.any (fun o => s.isOpen o.1 o.2) then .next s else
    let s := s.writeRecord c 0 0 7
    let s := s.setQueue q.val { s.queue q.val with fence := none, fenceFor := [] }
    let s := (s.retire q.val c.seq).deadFills c.owner
    let s := if tbit (c.w 5) 30 then s.pf (qReg q.val 8) 26 24 (c.f 5 2 0) else s
    let s := if c.arrive then (match s.namedBar c with
      | some b => s.sendArrival ⟨b, c.part, some c.owner, none, c.seq.toNat % 1024, 0x10⟩
      | none => s) else s
    .next s.advance

/-! ### Fetch and completion -/

/-- Fetch n descriptors of queue q from sequence number `head` (R236, R237). -/
def State.fetch (s : State) (q : Nat) (hw : HwFault) : Nat → Word → State
  | 0, _ => s
  | n + 1, head =>
    let base := s.rd64 (qReg q 0)
    let size := 2 ^ s.rf (qReg q 8) 12 8
    let a := base + 64 * (head.toNat % size)
    let info := (q % 4) * 2 ^ 16 + head.toNat % 65536
    match s.regCheck (q / 4) false a 64 with
    | .bounds _ => s.jobFault (tnPage (q / 4)) 0x0804 info (q / 4)
    | .conflict e => s.regionConflict (q / 4) e
    | .ok =>
      let s := if hbmHits hw a 64 then s.hbmNote hw else s
      if isHbmUe hw && hbmHits hw a 64 then s.jobFault (tnPage (q / 4)) 0x0805 info (q / 4) else
      let bs := s.hbmRead a 64
      let c : Cmd := ⟨q, head, (List.range 16).map (fun i => w32 (leAt bs (4 * i) 4))⟩
      let x := s.queue q
      let s := (s.setQueue q { x with fetched := x.fetched ++ [c] }).wr (qReg q 0x10) (head + 1)
      s.fetch q hw n (head + 1)

/-- QUEUE_FETCH (R236): the descriptors between Q_HEAD and Q_TAIL of a valid queue of an ACTIVE tenant; then idle engines
pick. -/
def execQueueFetch (q : Fin 32) (hw : HwFault) (s : State) : Host.Outcome State Fault Refusal :=
  if s.tnState (q.val / 4) = 1 ∧ s.rb (qReg q.val 8) 31 ∧ !s.qStopped q.val then
    let head := s.rd (qReg q.val 0x10)
    let n := (s.rd (qReg q.val 0xC) - head).toNat
    .next (s.fetch q.val hw n head).advance
  else .next s

/-- Charge a finished command (R241, R250): engine time, deficit, energy. -/
def State.charge (s : State) (c : Cmd) (ns : Nat) : State :=
  let x := s.queue c.q
  let s := (s.setQueue c.q { x with deficit := x.deficit - (ns : Int) }).chargeTime c.owner ns
  let t := s.tenant c.owner
  if s.accounts c.owner then s.setTenant c.owner { t with energy := t.energy + Config.energy c.op ns 0 } else s

/-- ARRIVE_DONE of a finished command (R95, R211): the arrival leaves its unit once its writes are visible. -/
def State.arriveDone (s : State) (c : Cmd) (unit : Nat) : State :=
  if c.arrive then
    match s.namedBar c with
    | some b => s.sendArrival ⟨b, c.part, some c.owner, none, c.seq.toNat % 1024, unit⟩
    | none => s
  else s

/-- COMMAND_COMPLETION of a Sheaf engine's command (R97, R89, R241, R244). -/
def State.completeEngine (s : State) (e : Nat) : State :=
  match (s.engine e).run with
  | none => s
  | some r =>
    if !r.done then s else
    let s := (s.writeRecord r.cmd 0 r.astat e).charge r.cmd (s.clock.tick - r.start)
    let s := s.setEngine e { s.engine e with run := none }
    (((s.retire r.cmd.q r.cmd.seq).deadFills r.cmd.owner).arriveDone r.cmd (engPage e)).advance

/-- Whether a COPY of Porter engine p still waits for the acknowledgement of a remote write (R189). -/
def State.porterWaits (s : State) (p : Nat) : Bool := s.field.reqs.any (fun r => r.pd == p)

/-- COMMAND_COMPLETION of a COPY (R97, R101): its list is done and every remote write acknowledged. A COPY whose last
descriptor wrote to another module has arrived there (R189). PD_STATUS keeps the TENANT, DIMS, DESC_INDEX and walk bits of the
last descriptor: R112 gives them for a running COPY only (DESIGN CHOICE, log 50). -/
def State.completePorter (s : State) (p : Nat) : State :=
  match (s.porter p).run with
  | none => s
  | some r =>
    if !r.done || s.porterWaits p then s else
    let s := (s.writeRecord r.cmd 0 0 7).charge r.cmd (s.clock.tick - r.start)
    let remote := (s.porter p).lastRemote.isSome
    let s := s.setPorter p { s.porter p with run := none, index := 0, lastRemote := none }
    let s := (s.retire r.cmd.q r.cmd.seq).deadFills r.cmd.owner
    (if remote then s else s.arriveDone r.cmd (porPage p)).advance

/-- COMMAND_COMPLETION (R97). -/
def execCommandCompletion (u : CmdUnit) (s : State) : Host.Outcome State Fault Refusal :=
  match u with
  | .engine e => .next (s.completeEngine e.val)
  | .porter p => .next (s.completePorter p.val)

/-- RUN_LIMIT (R243, R251): the command that runs, or the span between clean boundaries of the tenant last run. The spec
names no CMDSEQ for a span without a command: that field is a free value. The abort stops the command (R243), and R202 lets no
record be written after the stop: so none is, though R97 has a faulted command write one (DEDUCED, log 50). -/
def execRunLimit (u : CmdUnit) (s : State) : Host.Outcome State Fault Refusal :=
  let run := match u with
    | .engine e => (s.engine e.val).run
    | .porter p => (s.porter p.val).run
  match run with
  | some r => .next (s.jobFault (tnPage r.cmd.owner) 0x0803 (inkInfo r.cmd) r.cmd.owner)
  | none =>
    match u with
    | .engine e =>
      (match (s.engine e.val).last with
      | some t =>
        if s.treeOpen e.val t then
          let (n, s) := s.take
          .next (s.jobFault (tnPage t) 0x0803 ((Config.freeWord n).toNat % 2 ^ 18) t)
        else .next s
      | none => .next s)
    | .porter _ => .next s

/-! ### Register writes of the tenant pages -/

/-- Q_TAIL (R238). -/
def State.wrQTail (s : State) (q : Nat) (v : Word) : State :=
  if s.tnState (q / 4) = 2 then s else
  let old := s.rd (qReg q 0xC)
  let done := s.rd (qReg q 0x14)
  if (v - done).toNat ≤ 2 ^ s.rf (qReg q 8) 12 8 ∧ (v - old).toNat < 2 ^ 31 then s.wr (qReg q 0xC) v
  else s.wb (qReg q 0x18) 29 true

/-- Q_CFG (R239, R253). -/
def State.wrQCfg (s : State) (q : Nat) (v : Word) : State :=
  let ok := (s.rd (qReg q 0xC) == s.rd (qReg q 0x14) || s.tnState (q / 4) != 1)
    && decide (fld v 26 24 < 6) && fld v 23 16 != 0 && decide (6 ≤ fld v 12 8 ∧ fld v 12 8 ≤ 21)
  if ok then s.store .pf (qReg q 8) v 0 else s.wb (qReg q 0x18) 28 true

/-- The sum of a share field over the tenants that are not FREE, tenant t counted with the given value (R235, R246). -/
def State.shareSum (s : State) (t hi lo v : Nat) : Nat :=
  ((List.range 8).map (fun n => if n = t then v else if s.tnFree n then 0 else s.rf (rga (tnPage n) 0x4C) hi lo)).sum

/-- TN_RES (R246): only the physical function and the management path write it. -/
def State.wrTnRes (s : State) (f : Func) (t : Nat) (v : Word) : State :=
  if isVf f then s
  else if s.tnFree t ∨ (s.shareSum t 23 16 (fld v 23 16) ≤ 256 ∧ s.shareSum t 15 8 (fld v 15 8) ≤ 256) then
    s.store f (rga (tnPage t) 0x4C) v 0
  else s.wb (rga 0x10 0x80) 0 true

/-- A request for the interrupts that waited for a tenant to leave FREE (R462, R463). -/
def State.sendHeldIrqs (s : State) (t : Nat) : State :=
  let s := s.sendTenantBits t (s.irqPend (tnPage t)) 6
  (List.range 256).foldl (fun s src =>
    match srcPage src with
    | some p => if s.rf (rga 0 (0x400 + 4 * src)) 27 24 = t ∧ s.irqPend p ≠ 0 then s.sendRoute src else s
    | none => s) s

/-- ENABLE of a FREE tenant (R235, R250, R392, R405, R469): counters start at zero, the manifest at step 0. -/
def State.enableTenant (s : State) (t : Nat) : State :=
  if !s.tnFree t || s.safeHold || s.diagRequired || s.tensorOff then s else
  let r := s.rd (rga (tnPage t) 0x4C)
  if (!tbit r 31 && fld r 23 16 == 0) || decide (256 < s.shareSum t 23 16 (fld r 23 16)) || decide (256 < s.shareSum t 15 8 (fld r 15 8)) then
    s.wb (rga (tnPage t) 0x44) 8 true
  else
    let s := s.setTnState t 1
    let s := s.setTenant t default
    let s := (List.range 4).foldl (fun s i => s.wb (qReg (4 * t + i) 0x18) 31 false) s
    (s.sendHeldIrqs t).advance

/-- RESTART of a STOPPED tenant (R234, R235): its queues run again, the manifest starts at step 0. -/
def State.restartTenant (s : State) (t : Nat) : State :=
  if s.tnState t ≠ 3 ∨ s.safeHold ∨ s.diagRequired then s else
  let s := s.setTnState t 1
  let x := s.tenant t
  let s := s.setTenant t { x with step := 0, acked := 0, slots := [], closing := false, merged := none }
  let s := (List.range 4).foldl (fun s i => s.wb (qReg (4 * t + i) 0x18) 31 false) s
  s.advance

/-- RELEASE from ACTIVE or STOPPED (R234, R406). -/
def State.releaseTenant (s : State) (t : Nat) : State :=
  if s.tnState t = 1 ∨ s.tnState t = 3 then s.startRelease t else s

/-- TN_CTL (R253): ENABLE and RELEASE belong to the physical function; a virtual function may RESTART. -/
def State.wrTnCtl (s : State) (f : Func) (t : Nat) (v : Word) : State :=
  let s := if tbit v 0 && !isVf f then s.enableTenant t else s
  let s := if tbit v 1 then s.restartTenant t else s
  if tbit v 2 && !isVf f then s.releaseTenant t else s

/-- Whether a command of the tenant still runs (R406 step 1). -/
def State.hasRun (s : State) (t : Nat) : Bool :=
  (List.range 6).any (fun e => match (s.engine e).run with | some r => r.cmd.owner == t | none => false) ||
  (List.range 16).any (fun p => match (s.porter p).run with | some r => r.cmd.owner == t | none => false)

/-- Zero the regions of a tenant under its new key, and end the wait of each (R406 step 3). -/
def State.scrubRegions (s : State) (t : Nat) : State :=
  (s.ownRegions t).foldl (fun s e =>
    let b := (s.rd (regBase e)).toNat
    (s.hbmZero (b * 2 ^ 21) ((b + (s.rd (regSize e)).toNat + 1) * 2 ^ 21)).wb (regStat e) 0 false) s

/-- Clear a released tenant's Tally state and configuration (R226): only OWNER of its tree barriers stays. -/
def State.releaseTally (s : State) (t : Nat) : State :=
  let s := s.clearTally t
  let s := (List.range 256).foldl (fun s n =>
    if s.rf (rga 0x21 (0x40 + 4 * n)) 27 24 = t then (s.wr (rga 0x21 (0x40 + 4 * n)) 0).wr (rga 0x21 (0x440 + 4 * n)) 0 else s) s
  (List.range 384).foldl (fun s i =>
    let a := rga (engPage (i / 64) + 5) (0x40 + 4 * (i % 64))
    if s.rf a 27 24 = t then (s.wr a (w32 (t * 2 ^ 24))).wr (rga (engPage (i / 64) + 5) (0x140 + 4 * (i % 64))) 0 else s) s

/-- SCRUB_DONE (R406): the regions read zero, partitions and Tally state are cleared, queues are empty, the tenant is FREE. -/
def execScrubDone (t : Fin 8) (s : State) : Host.Outcome State Fault Refusal :=
  if s.tnState t.val ≠ 4 ∨ s.hasRun t.val then .next s else
  let s := s.scrubRegions t.val
  let s := (s.zeroParts t.val).releaseTally t.val
  let s := (List.range 4).foldl (fun s i =>
    let q := 4 * t.val + i
    ((s.wr (qReg q 0x10) (s.rd (qReg q 0xC))).wr (qReg q 0x14) (s.rd (qReg q 0xC))).haltQueue q |>.setQueue q default) s
  let s := (s.pf (rga 9 0xC0) 6 0 100).setTenant t.val { s.tenant t.val with scrubbing := false }
  .next ((s.raise 9 1).setTnState t.val 0)

/-! ### Manifests -/

def manReg (t off : Nat) : Nat := rga (tnPage t) off

/-- Slots of a tenant's manifest (R247). -/
def State.manSlots (s : State) (t : Nat) : Nat := s.rf (manReg t 0x180) 15 8 + 1
def State.manSlot (s : State) (t i : Nat) : ManSlot := mapGet dflt (s.tenant t).slots i

/-- The 64-byte head and the slot entries of the manifest record (R249); `time` is the Field counter at the trigger, as CLOSE_TIME
holds it. -/
def manRecord (s : State) (t step trig time : Nat) : List Byte :=
  let n := s.manSlots t
  let map := s.hbmRead (s.rd64 (manReg t 0x190)) n
  let present := (List.range n).filter (fun i => (s.manSlot t i).status == 1)
  let mask := present.foldl (fun m i => m ||| 2 ^ i) 0
  natLe 8 step ++ natLe 8 time ++ natLe 2 n ++ natLe 2 present.length ++ natLe 1 trig ++ zeros 11 ++ natLe 32 mask ++
  (List.range n).flatMap (fun i =>
    let x := s.manSlot t i
    natLe 1 x.status ++ [map.getD i 0] ++ natLe 1 x.overwrites ++ [0] ++ natLe 4 x.sample)

/-- The step table of R248: the master entries, LEN (bytes 8 to 11) zero for every slot that is not PRESENT. -/
def manPatch (s : State) (t : Nat) : List Byte :=
  let a := s.rd64 (manReg t 0x198)
  (List.range (s.manSlots t)).flatMap (fun i =>
    let e := s.hbmRead (a + 32 * i) 32
    if (s.manSlot t i).status = 1 then e else e.take 8 ++ zeros 4 ++ e.drop 12)

/-- The first verdict that is not ok. -/
def firstBad : List Access → Access
  | [] => .ok
  | .ok :: r => firstBad r
  | x :: _ => x

/-- Close a tenant's manifest step (R248, R249): slots frozen, step table patched, record written, arrival sent, bit 5 set,
slots MISSING. An address outside the regions raises MAN_BOUNDS and closes nothing. -/
def State.closeStep (s : State) (t trig time : Nat) : State :=
  let n := s.manSlots t
  let x := s.tenant t
  let ring := 2 ^ s.rf (manReg t 0x180) 7 4
  let ra := s.rd64 (manReg t 0x188) + 2112 * (x.step % ring)
  let patch := s.rb (manReg t 0x180) 29
  let sq := s.rd64 (manReg t 0x198)
  let checks := [s.regCheck t false (s.rd64 (manReg t 0x190)) n, s.regCheck t true ra (64 + 8 * n)] ++
    (if patch then [s.regCheck t false sq (32 * n), s.regCheck t true (sq + 8192) (32 * n)] else [])
  match (match checks.find? (fun c => match c with | .conflict _ => true | _ => false) with
    | some c => c
    | none => firstBad checks) with
  | .conflict e => s.regionConflict t e
  | .bounds _ => s.jobFault (tnPage t) 0x0807 0xFFFF t
  | .ok =>
    let rec_ := manRecord s t x.step trig time
    let s := if patch then s.hbmWrite (sq + 8192) (manPatch s t) else s
    let s := s.hbmWrite ra rec_
    let ovf := decide (ring ≤ x.step) && decide (x.acked ≤ x.step - ring)
    let s := if ovf then s.incSat (manReg t 0x1B8) 31 16 else s
    let s := s.setTenant t { x with slots := [], step := x.step + 1, closing := true, acked := max x.acked (x.step + 1 - ring) }
    let s := s.sendArrival ⟨.central (Fin.ofNat 256 (s.rf (manReg t 0x180) 23 16)), s.rf (manReg t 0x184) 11 0, some t, none, 0x3FF, tnPage t⟩
    s.raise (tnPage t) 5

/-- A trigger of a close at a time (R248, R249): discarded unless the tenant is ACTIVE and its manifest in use; during a close the
first further trigger waits, the others are merged into it and counted. -/
def State.manTriggerAt (s : State) (t trig time : Nat) : State :=
  if s.tnState t ≠ 1 ∨ !s.rb (manReg t 0x180) 31 then s else
  let x := s.tenant t
  if x.closing then
    (match x.merged with
    | none => s.setTenant t { x with merged := some (trig, time) }
    | some _ => s.incSat (manReg t 0x1B8) 15 0)
  else s.closeStep t trig time

/-- A trigger now. -/
def State.manTrigger (s : State) (t trig : Nat) : State := s.manTriggerAt t trig s.nowUs

/-- MERGED_CLOSE (R248): the trigger that arrived during a close is carried out right after it, with the time it came at. -/
def execMergedClose (t : Fin 8) (s : State) : Host.Outcome State Fault Refusal :=
  let x := s.tenant t.val
  match x.merged with
  | none => .next s
  | some (trig, time) =>
    let s := s.setTenant t.val { x with merged := none, closing := false }
    .next (s.manTriggerAt t.val trig time)

/-- MAN_CTL (R253): MAN_ACK acknowledges the oldest unacknowledged record, CLOSE closes the step. -/
def State.wrManCtl (s : State) (t : Nat) (v : Word) : State :=
  let x := s.tenant t
  let s := if tbit v 1 ∧ x.acked < x.step then s.setTenant t { x with acked := x.acked + 1 } else s
  if tbit v 0 then s.manTrigger t 1 else s

/-- The source of each mapped slot takes a sample or a mark (R247): PRESENT wins over the other statuses. -/
def State.manUpdate (s : State) (t src status sample : Nat) : State :=
  if !s.rb (manReg t 0x180) 31 then s else
  let n := s.manSlots t
  let a := s.rd64 (manReg t 0x190)
  if !(s.regCheck t false a n).isOk then s else
  let map := s.hbmRead a n
  let slots := (List.range n).foldl (fun m i =>
    if (map.getD i 0xFF).toNat = src then
      let x : ManSlot := mapGet dflt m i
      let y : ManSlot :=
        if status = 1 then ⟨1, if x.status = 1 then satInc x.overwrites 255 else x.overwrites, sample⟩
        else if x.status = 1 then x else { x with status := status }
      mapSet dflt m i y
    else m) (s.tenant t).slots
  s.setTenant t { s.tenant t with slots := slots }

/-- Whether every slot is PRESENT (R248). -/
def State.manComplete (s : State) (t : Nat) : Bool :=
  (List.range (s.manSlots t)).all (fun i => (s.manSlot t i).status == 1)

/-! ### Accounting (R250) -/

/-- Power of each tenant over a window of `ticks` ns: microjoule over time, in milliwatt. -/
def State.endWindow (s : State) (ticks : Nat) : State :=
  if ticks = 0 then s else
  let s := (List.range 8).foldl (fun s t =>
    let x := s.tenant t
    if s.accounts t then s.setTenant t { x with power := (x.energy - x.energyAt) * 1000000 / ticks, energyAt := x.energy } else s) s
  { s with clock := { s.clock with winTick := s.clock.tick } }

/-- POWER_WINDOW_END (R250, R443): an aligned window of 10 ms ends. -/
def execPowerWindowEnd (s : State) : Host.Outcome State Fault Refusal :=
  .next ((s.endWindow 10000000).pf (rga 6 0x54) 9 0 (s.ost.powerMw / 1000))

/-! ### The rows of register writes -/

def execEnable (f : Func) (t : Fin 8) (v : Word) (s : State) : Host.Outcome State Fault Refusal :=
  .next (s.guarded f (rga (tnPage t.val) 0x40) (fun s => s.wrTnCtl f t.val v))

def execRestart (f : Func) (t : Fin 8) (v : Word) (s : State) : Host.Outcome State Fault Refusal :=
  .next (s.guarded f (rga (tnPage t.val) 0x40) (fun s => s.wrTnCtl f t.val v))

def execRelease (f : Func) (t : Fin 8) (v : Word) (s : State) : Host.Outcome State Fault Refusal :=
  .next (s.guarded f (rga (tnPage t.val) 0x40) (fun s => s.wrTnCtl f t.val v))

def execQTailWrite (f : Func) (t : Fin 8) (q : Fin 4) (v : Word) (s : State) : Host.Outcome State Fault Refusal :=
  .next (s.guarded f (qReg (4 * t.val + q.val) 0xC) (fun s => s.wrQTail (4 * t.val + q.val) v))

def execQCfgWrite (f : Func) (t : Fin 8) (q : Fin 4) (v : Word) (s : State) : Host.Outcome State Fault Refusal :=
  .next (s.guarded f (qReg (4 * t.val + q.val) 8) (fun s => s.wrQCfg (4 * t.val + q.val) v))

def execTnResWrite (f : Func) (t : Fin 8) (v : Word) (s : State) : Host.Outcome State Fault Refusal :=
  .next (s.guarded f (rga (tnPage t.val) 0x4C) (fun s => s.wrTnRes f t.val v))

def execClose (f : Func) (t : Fin 8) (v : Word) (s : State) : Host.Outcome State Fault Refusal :=
  .next (s.guarded f (manReg t.val 0x1A8) (fun s => s.wrManCtl t.val v))

def execManAck (f : Func) (t : Fin 8) (v : Word) (s : State) : Host.Outcome State Fault Refusal :=
  .next (s.guarded f (manReg t.val 0x1A8) (fun s => s.wrManCtl t.val v))

def execTallyConfigWrite (f : Func) (b : BarId) (part : Bool) (v : Word) (busy : Bool) (s : State) : Host.Outcome State Fault Refusal :=
  .next (s.guarded f (if part then barPartReg b else barCfgReg b) (fun s => s.tallyCfg f b part v busy))

end Sys2Proof.Machine
end

