-- ==== Sys2Proof/Machine/LinkField.lean ====
section
/-!
DEFINITION. What the Field builds on sideband words (R190 to R204): the Field counter, link barriers, abort words.
-/
namespace Sys2Proof.Machine

/-- A received sideband word is carried out: it leaves the port that holds it (R177). -/
def State.takeSb (s : State) (w : SbWord) : State :=
  match (List.range 8).find? (fun p => (s.port p).sbIn.contains w) with
  | some p => s.setPort p { s.port p with sbIn := (s.port p).sbIn.erase w }
  | none => s

/-- Send a sideband word along the route toward module d (R185, R191). -/
def State.sbToward (s : State) (w : SbWord) (d : Nat) : State :=
  match s.firstPort d with
  | some p => s.sendSb w p
  | none => s

/-! ### The Field counter -/

/-- A free addend within ±100 ppm of the nominal 2^32 (R192). -/
def State.steer (s : State) : State :=
  let (n, s) := s.take
  { s with clock := { s.clock with fieldAddend := 4294967296 - 429496 + (Config.freeWord n).toNat % 858993 } }

def State.setFc (s : State) (v : Nat) : State := s.pf (fdReg 0x214) 1 0 v

/-- The counter steps, and the power window in progress ends (R192, R250). -/
def State.stepField (s : State) (v : Nat) : State :=
  let s := s.endWindow (s.clock.tick - s.clock.winTick)
  { s with clock := { s.clock with field := BitVec.ofNat 64 v, fcFirst := false } }

/-- The Field-counter machine at a TIMESYNC that reads `v`, off by `off` from the own counter (R192): ACQUIRING steps once and then
steers until 16 words in a row are near, LOCKED steers, HOLDOVER locks again or starts over. -/
def State.fcTrack (s : State) (v : Nat) (off : Int) : State :=
  let near := decide (off.natAbs ≤ 1)
  let s := s.pf (fdReg 0x214) 31 24 (ofS 8 (clampI (-128) 127 off))
  let run := if near then s.clock.fcRun + 1 else 0
  let s := { s with clock := { s.clock with fcRun := run } }
  if s.fcState = 0 then
    let s := if s.clock.fcFirst then s.stepField v else s.steer
    if 16 ≤ run then s.setFc 1 else s
  else if s.fcState = 1 then s.steer
  else
    if near then (s.setFc 1).steer
    else if 1000 < off.natAbs then { (s.setFc 0) with clock := { (s.setFc 0).clock with fcFirst := true, fcRun := 0 } }
    else s.steer

/-- A TIMESYNC word from the upstream port (R191, R192): the received value and the port's one-way latency against the own
counter. -/
def State.timesync (s : State) (p : Nat) (count : BitVec 64) : State :=
  if s.master = s.me ∨ s.firstPort s.master ≠ some p then s else
  let v := (count.toNat + s.rf (rga (falPage p) 0x48) 15 0) % 2 ^ 64
  s.fcTrack v (toS 64 (v + 2 ^ 64 - s.now))

def execTimesync (p : Fin 8) (count : BitVec 64) (s : State) : Host.Outcome State Fault Refusal :=
  .next ((s.takeSb (.timesync count)).timesync p.val count)

/-- TIMESYNC_SEND (R191). -/
def execTimesyncSend (s : State) : Host.Outcome State Fault Refusal := .next (s.flood (.timesync s.clock.field) 8)

/-- ECHO_SEND (R191): the word carries the tick at which it leaves. -/
def execEchoSend (s : State) : Host.Outcome State Fault Refusal :=
  .next (s.flood (.echo false (BitVec.ofNat 64 s.clock.tick)) 8)

/-- LB_DELAY_MIN on the root (R196): the spec gives no formula for it, so each new measurement makes it a free value. -/
def State.freeDelayMin (s : State) : State :=
  if s.master ≠ s.me then s else
  let (n, s) := s.take
  s.wr (fdReg 0x400) (w32 ((Config.freeWord n).toNat % 65536))

/-- ECHO (R191): half the round trip in ticks. -/
def execEcho (p : Fin 8) (roundTrip : Nat) (s : State) : Host.Outcome State Fault Refusal :=
  .next ((s.pf (rga (falPage p.val) 0x48) 15 0 (min (roundTrip / 2) 0xFFFF)).freeDelayMin)

/-- FC_HOLDOVER (R192): 10 µs without an upstream TIMESYNC. -/
def execFcHoldover (s : State) : Host.Outcome State Fault Refusal :=
  if s.master ≠ s.me ∧ s.fcState = 1 then .next { s.setFc 2 with clock := { s.clock with fcRun := 0 } } else .next s

/-- Whether a master lies within 32 hops of every module (R192). -/
def State.masterOk (s : State) (v : Nat) : Bool :=
  (decide (v < s.fieldSize) || v == s.me) && (List.range s.fieldSize).all (fun d => decide (s.hops d v ≤ 32))

/-! ### Link barriers -/

def lbMask (k : Nat) : Nat := fdReg (0x300 + 16 * k)
def lbCfg (k : Nat) : Nat := fdReg (0x308 + 16 * k)
def lbStat (k : Nat) : Nat := fdReg (0x30C + 16 * k)
def State.lbOn (s : State) (k : Nat) : Bool := s.rd64 (lbMask k) != 0 && s.rf (lbCfg k) 31 16 != 0
def State.lbIn (s : State) (k m : Nat) : Bool := (s.rd64 (lbMask k) >>> m) % 2 == 1
def State.lbGen (s : State) (k : Nat) : Nat := s.rf (lbStat k) 31 16

/-- Waits on the FIRES of entry e that its present count satisfies (R271). -/
def State.firesMet (s : State) (e : Nat) : State :=
  let qs := queuesWaiting s (fun w => match w.on with
    | .fires e' t => e' == e && decide (0 ≤ toS 32 ((s.wbEntry e).fires + 2 ^ 32 - t % 2 ^ 32))
    | _ => false)
  if qs.isEmpty then s else (qs.foldl (fun s q => s.satisfy q) s).advance

/-- FIRES of entry e rises by one (R263). -/
def State.countFire (s : State) (e : Nat) : State :=
  s.setWbEntry e { s.wbEntry e with fires := ((s.wbEntry e).fires + 1) % 2 ^ 32 }

/-- A held action of a linked entry (entry, action, argument) fires (R264). -/
def State.fireHeld (s : State) (a : Nat × Nat × Word) : State := ((s.countFire a.1).pinAction a.2.1 a.2.2).firesMet a.1

/-- The release of a generation at this module (R195, R197): an OK release lets its held actions wait for the count, or
fires them at once when the count has passed (LATE); another status drops them. A status other than OK is logged, signalled to
Warden and raises LB_ERROR. -/
def State.lbTake (s : State) (k gen status count : Nat) : State :=
  if gen ≠ s.lbGen k then s else
  let x := s.lb k
  let late := status == 0 && s.rb (lbStat k) 7 && decide (count < s.now)
  let st := if late then 4 else status
  let s := s.wr (lbStat k) (w32 ((gen + 1) % 65536 * 65536 + st % 8 * 256))
  let s := s.setLb k { x with held := [], fire := if status = 0 ∧ !late ∧ !x.held.isEmpty then x.fire ++ [(count, x.held)] else x.fire }
  let s := if late then x.held.foldl (fun s a => s.fireHeld a) s else s
  if st = 0 then s else (s.raise 0x300 3).logNamed 0x300 evLbRelease 1 (k * 256 + st) 255

/-- Where a release goes on from this module: the first hop toward each participant that lies beyond it on its route from
the root (R194). -/
def State.lbNext (s : State) (k : Nat) : List Nat :=
  let root := s.master
  let dsts := (List.range s.fieldSize).filter (fun d => s.lbIn k d && d != s.me &&
    (root == s.me || (s.routeFrom d 64 root).contains s.me))
  (dsts.filterMap s.firstPort).eraseDups

/-- Send a release toward the participants beyond this module, and take it here. -/
def State.lbSend (s : State) (k gen status count : Nat) : State :=
  let s := (s.lbNext k).foldl (fun s p => s.sendSb (.lbRelease (Fin.ofNat 16 k) (BitVec.ofNat 16 gen) status (BitVec.ofNat 64 count)) p) s
  s.lbTake k gen status count

/-- The root releases its open generation (R195, R197): DUP_ARRIVAL before SYNC before the given status. -/
def State.lbRelease (s : State) (k status : Nat) : State :=
  let x := s.lb k
  let st := if x.dup then 2 else if x.unlocked then 3 else status
  let s := s.setLb k { x with arrived := 0, dup := false, unlocked := false }
  s.lbSend k (s.lbGen k) st ((s.now + s.rf (lbCfg k) 15 0) % 2 ^ 64)

/-- The root counts an arrival (R194, R195, R197). -/
def State.lbCount (s : State) (k src gen : Nat) (locked : Bool) : State :=
  if !s.lbOn k then s
  else if !s.lbIn k src ∨ gen ≠ s.lbGen k then s.logNamed 0x300 evLbStray 2 (k * 64 + src) 255
  else
    let x := s.lb k
    let again := (x.arrived >>> src) % 2 == 1
    let x := { x with arrived := x.arrived ||| 2 ^ src, dup := x.dup || again, unlocked := x.unlocked || !locked }
    let s := s.setLb k x
    if x.arrived = s.rd64 (lbMask k) then s.lbRelease k 0 else s

/-- A linked Waybill entry arrives at its barrier for this module, its action held (R264). -/
def State.lbArrive (s : State) (k entry action : Nat) (arg : Word) : State :=
  if !s.lbOn k then s else
  let s := (s.setLb k { s.lb k with held := (s.lb k).held ++ [(entry, action, arg)] }).wb (lbStat k) 7 true
  let gen := s.lbGen k
  let locked := s.fcState == 1
  if s.master = s.me then s.lbCount k s.me gen locked
  else s.sbToward (.lbArrival (Fin.ofNat 16 k) (Fin.ofNat 64 s.me) (BitVec.ofNat 16 gen) locked) s.master

/-- LB_ARRIVAL (R194, R195): the root counts it, another module passes it on. -/
def execLbArrival (k : Fin 16) (src : Fin 64) (gen : BitVec 16) (locked : Bool) (s : State) : Host.Outcome State Fault Refusal :=
  let w := SbWord.lbArrival k src gen locked
  let s := s.takeSb w
  if s.master = s.me then .next (s.lbCount k.val src.val gen.toNat locked) else .next (s.sbToward w s.master)

/-- LB_TIMEOUT (R197): at the root, with the generation begun and incomplete. -/
def execLbTimeout (k : Fin 16) (s : State) : Host.Outcome State Fault Refusal :=
  if s.master = s.me ∧ s.lbOn k.val ∧ (s.lb k.val).arrived ≠ 0 then .next (s.lbRelease k.val 1) else .next s

/-- LB_RELEASE (R195, R197): passed on beyond this module and, by a participant, taken. -/
def execLbRelease (k : Fin 16) (gen : BitVec 16) (status : Nat) (count : BitVec 64) (s : State) : Host.Outcome State Fault Refusal :=
  let s := s.takeSb (.lbRelease k gen status count)
  if s.master = s.me then .next s else .next (s.lbSend k.val gen.toNat status count.toNat)

/-- LB_SELF_RELEASE (R197): no release within 2 × TIMEOUT of the own arrival. -/
def execLbSelfRelease (k : Fin 16) (s : State) : Host.Outcome State Fault Refusal :=
  if s.rb (lbStat k.val) 7 then .next (s.lbTake k.val (s.lbGen k.val) 1 0) else .next s

/-- LB_FIRE (R195): the actions of the oldest held release whose count the Field counter has reached fire. -/
def execLbFire (k : Fin 16) (s : State) : Host.Outcome State Fault Refusal :=
  let l := (s.lb k.val).fire
  match l.find? (fun f => decide (f.1 ≤ s.now)) with
  | none => .next s
  | some f => .next (f.2.foldl (fun s a => s.fireHeld a) (s.setLb k.val { s.lb k.val with fire := l.erase f }))

/-- A write of LB_CFG (R196): DELAY below LB_DELAY_MIN discards it. -/
def State.wrLbCfg (s : State) (f : Func) (k : Nat) (v : Word) : State :=
  if fld v 15 0 < s.rf (fdReg 0x400) 15 0 then s else s.store f (lbCfg k) v 0

/-- A write of LB_MASK (R194, R196). -/
def State.wrLbMask (s : State) (f : Func) (a : Nat) (v : Word) : State := (s.store f a v 0).freeDelayMin

def execLbCfgWrite (f : Func) (k : Fin 16) (v : Word) (s : State) : Host.Outcome State Fault Refusal :=
  .next (s.guarded f (lbCfg k.val) (fun s => s.wrLbCfg f k.val v))

/-! ### Abort words -/

/-- An ABORT word, or the epoch of the end nearer the collector (R201 to R203): the first receipt carries out R202; every
word not seen before goes on to the other UP ports (`port`: where it came from); a lower origin replaces the recorded one. -/
def State.abortWord (s : State) (port t epoch origin code : Nat) : State :=
  let fresh := s.epoch t != epoch
  let old := if fresh then s.field.seen.filter (fun x => x.1 != t) else s.field.seen
  if old.contains (t, origin) ∨ (!fresh ∧ (origin = s.me ∨ (s.rf aAbtInfo 31 28 = t ∧ s.rf aAbtInfo 27 22 = origin))) then s else
  let s := { s with field := { s.field with seen := old ++ [(t, origin)] } }
  let s := s.flood (.abort (Fin.ofNat 8 t) (BitVec.ofNat 4 epoch) (Fin.ofNat 64 origin) code) port
  let info := w32 (t * 2 ^ 28 + origin * 2 ^ 22 + code % 65536)
  if fresh then
    let live := s.tnState t == 1 || s.tnState t == 2 || s.tnState t == 3
    if live then s.localAbort t epoch origin code
    else (((((s.pf aEpoch (4 * t + 3) (4 * t) epoch).purge t epoch).wr aAbtInfo info).wr64 aAbtDone 0).raise 0x300 1).reportDone t
  else if s.rf aAbtInfo 31 28 = t ∧ origin < s.rf aAbtInfo 27 22 then s.wr aAbtInfo info
  else s

def execAbortReceipt (p : Fin 8) (t : Fin 8) (epoch : BitVec 4) (origin : Fin 64) (code : Nat) (s : State) : Host.Outcome State Fault Refusal :=
  .next ((s.takeSb (.abort t epoch origin code)).abortWord p.val t.val epoch.toNat origin.val code)

/-- ABORT_DONE (R202, R204): the collector counts it, another module passes it on. -/
def execAbortDone (t : Fin 8) (src : Fin 64) (s : State) : Host.Outcome State Fault Refusal :=
  let w := SbWord.abortDone t src
  let s := s.takeSb w
  if s.collector = s.me then .next (s.countDone src.val) else .next (s.sbToward w s.collector)

/-- A write of ABT_CTL (R201, R205, R207). -/
def State.wrAbtCtl (s : State) (f : Func) (v : Word) : State :=
  let s := s.store f (fdReg 0x490) v 0
  let t := fld v 3 0
  if tbit v 4 ∧ t < 8 ∧ (s.tnState t = 1 ∨ s.tnState t = 2 ∨ s.tnState t = 3) then s.jobFault 0x300 0x0604 t t else s

def execAbort (f : Func) (v : Word) (s : State) : Host.Outcome State Fault Refusal :=
  .next (s.guarded f (fdReg 0x490) (fun s => s.wrAbtCtl f v))

/-- EPOCH_EXCHANGE (R203): the end farther from the collector, or at equal distance the one with the higher Field ID, takes
the other's epochs. The code of that abort is nowhere given: a free value. -/
def execEpochExchange (p : Fin 8) (epochs : Word) (s : State) : Host.Outcome State Fault Refusal :=
  let s := s.takeSb (.epochs epochs)
  let o := s.rf (rga (falPage p.val) 0x44) 31 26
  let dm := s.hops s.me s.collector
  let dp := s.hops o s.collector
  if dp < dm ∨ (dp = dm ∧ o < s.me) then
    let (n, s) := s.take
    .next ((List.range 8).foldl (fun s t =>
      let e := fld epochs (4 * t + 3) (4 * t)
      if e = s.epoch t then s else s.abortWord p.val t e o ((Config.freeWord n).toNat % 65536)) s)
  else .next s

end Sys2Proof.Machine
end

