-- ==== Sys2Proof/Machine/Links.lean ====
section
/-!
DEFINITION. Faleg ports and packets (R168 to R189, R199, R205): training, slots received, seal runs, forwarding, remote writes,
answers. Slots.lean holds the sending side.
-/
namespace Sys2Proof.Machine

/-! ### Training (R169, R170) -/

/-- Whether a port may train (R169, R206, R392, R420, R476). -/
def State.mayTrain (s : State) (p : Nat) : Bool :=
  decide (1 ≤ s.dir p ∧ s.dir p ≤ 4) && !s.safeHold && !s.ost.fieldIdBad && !s.tensorOff

/-- A port starts to train, or stays DOWN when it may not (R169, R170). -/
def State.startTrain (s : State) (p : Nat) : State :=
  let s := (s.pf (flReg p 0x44) 19 16 0).setPort p { s.port p with why := 0 }
  s.toState p (if s.mayTrain p then 1 else 0)

/-- A retrain (R170, R171). -/
def State.portTrain (s : State) (p : Nat) : State :=
  (((s.leaveUp p).addSat (flReg p 0x58) 1).logPort evRetrain p).startTrain p

/-- A write of FL_CFG (R206): a DIR other than the one last written goes to the Ledger, RETRAIN retrains. -/
def State.wrFlCfg (s : State) (p : Nat) (v : Word) : State :=
  let s := if fld v 3 1 = fld (s.ledRead (0x588 + p)) 3 1 then s else s.wrRwp (flReg p 0x40) v
  if tbit v 0 then s.portTrain p else s

def execRetrain (f : Func) (p : Fin 8) (v : Word) (s : State) : Host.Outcome State Fault Refusal :=
  .next (s.guarded f (flReg p.val 0x40) (fun s => s.wrFlCfg p.val v))

/-- PORT_TRAINING_DONE (R168, R170): with four locked lanes the ends exchange Field IDs; a wrong neighbour is WIRING. -/
def execPortTrainingDone (p : Fin 8) (locks : BitVec 4) (partner : BitVec 6) (s : State) : Host.Outcome State Fault Refusal :=
  if s.lstate p.val ≠ 1 then .next s else
  let s := s.pf (flReg p.val 0x44) 19 16 locks.toNat
  if locks.toNat ≠ 15 then .next s else
  let s := s.pf (flReg p.val 0x44) 31 26 partner.toNat
  if s.neighbour (s.dir p.val) = some partner.toNat then .next (s.toState p.val 2)
  else .next ((((s.wb (flReg p.val 0x44) 7 true).setPort p.val { s.port p.val with why := 1 }).toState p.val 0).logPort evWiring p.val)

/-- WIRING_RETRY (R170): the port, DOWN for WIRING, trains again. One that AUTH_FAIL took down waits for RETRAIN. -/
def execWiringRetry (p : Fin 8) (s : State) : Host.Outcome State Fault Refusal :=
  if s.lstate p.val = 0 ∧ (s.port p.val).why = 1 then .next (s.startTrain p.val) else .next s

/-- The roster word i of entry k (R408, R431). -/
def State.rosterW (s : State) (k i : Nat) : Word := s.ledVal (0x600 + 12 * k + i)

/-- Whether a key hash is on the Field roster (R178, R408). The top bit of the last word holds VALID, so it is not compared. -/
def State.onRoster (s : State) (h : List Word) : Bool :=
  (List.range 64).any (fun k => tbit (s.rosterW k 11) 31 && (List.range 12).all (fun i =>
    let m : Word := if i = 11 then 0x7FFFFFFF else 0xFFFFFFFF
    (s.rosterW k i &&& m) == ((h.getD i 0) &&& m)))

/-- New keys and salts for both directions, which the exchange yields (R178): free values. -/
def State.newSeals (s : State) (p : Nat) : State :=
  let n := s.fresh
  let x := s.port p
  (s.setPort p { x with rxs := { x.rxs with crypt := ⟨Config.linkKey n, Config.freeWord n, 0⟩ },
                        txs := { x.txs with crypt := ⟨Config.linkKey (n + 1), Config.freeWord (n + 1), 0⟩ } }).takeMany 2

/-- AUTH_DONE (R170, R178, R203): UP with new keys, the epochs sent, held packets go on; else DOWN with AUTH_FAIL. -/
def execAuthDone (p : Fin 8) (keyHash : List Word) (signatureOk : Bool) (s : State) : Host.Outcome State Fault Refusal :=
  if s.lstate p.val ≠ 2 then .next s
  else if signatureOk && s.onRoster keyHash then
    .next ((((s.newSeals p.val).toState p.val 3).sendSb (.epochs (s.rd aEpoch)) p.val).freeDelayMin.sendProxies)
  else .next ((((s.wb (flReg p.val 0x44) 6 true).setPort p.val { s.port p.val with why := 2 }).toState p.val 0).logPort evAuthFail p.val)

/-- LANE_LOCK_LOSS (R171). -/
def execLaneLockLoss (p : Fin 8) (lanes : BitVec 4) (s : State) : Host.Outcome State Fault Refusal :=
  if lanes = 0 ∨ s.lstate p.val = 0 then .next s else
  let left := s.rf (flReg p.val 0x44) 19 16 &&& (15 - lanes.toNat)
  let s := if s.portUp p.val then s.portTrain p.val else s.startTrain p.val
  .next (s.pf (flReg p.val 0x44) 19 16 left)

/-! ### Slots received (R172 to R179) -/

/-- Byte errors that FEC corrects: up to two in each interleave (R175). -/
def fecCorrected (e : Nat × Nat) : Nat := (if e.1 ≤ 2 then e.1 else 0) + (if e.2 ≤ 2 then e.2 else 0)

/-- Whether link sequence number n is acknowledged by a: it does not lie ahead of it in the 12-bit circle. -/
def ackedBy (a n : Nat) : Bool := decide ((a + 4096 - n) % 4096 < 2048)

/-- The LINK field of a good slot (R172, R176, R181): acknowledged flits leave the replay buffer, packets sent whole are let go, the
partner's freed flits are credits. -/
def Port.link (x : Port) (a : Nat) (freed : List Nat) : Port :=
  let n := (x.txs.replay.takeWhile (fun f => ackedBy a f.seq)).length
  let cr := (List.range 4).foldl (fun m vc => mapSet noCount m vc (max (mapGet noCount m vc) (freed.getD vc 0))) x.txs.freed
  { x with txs := { x.txs with replay := x.txs.replay.drop n, next := x.txs.next - n, freed := cr }
           tx := x.tx.filter (fun t => !(match t.last with | some l => ackedBy a l | none => false)) }

/-- The open run is given up: later flits are discarded until the run is replayed from its first flit (R176). `replays` counts
its failures in a row. -/
def Rx.bad (x : Rx) : Rx :=
  { x with held := [], runBad := true, expect := x.runFirst, nakOut := some x.runFirst, replays := x.replays + 1 }

/-- The eighth replay of a run has failed too (R176). -/
def State.replayLimit (s : State) (p : Nat) : State :=
  ((s.wb (flReg p 0x44) 4 true).logPort evPort p).portTrain p

def State.setRx (s : State) (p : Nat) (x : Rx) : State := s.setPort p { s.port p with rxs := x }

/-- DATA_SLOT (R172, R173, R175, R176): a flit is held for its run, or the run is dropped. An idle slot carries a header of zero. -/
def execDataSlot (p : Fin 8) (d : DataSlot) (s : State) : Host.Outcome State Fault Refusal :=
  if !s.portUp p.val then .next s else
  let s := s.addSat (flReg p.val 0x4C) (fecCorrected d.fec)
  if !d.crcOk then
    let s := s.addSat (flReg p.val 0x50) 1
    let x := (s.port p.val).rxs
    if x.runBad then .next s
    else if 9 ≤ x.bad.replays then .next ((s.setRx p.val x.bad).replayLimit p.val) else .next (s.setRx p.val x.bad)
  else
    let s := s.setPort p.val ((s.port p.val).link d.ack.toNat d.freed)
    let x := (s.port p.val).rxs
    let f : Flit := ⟨d.hdr, d.payload.take (nfld d.hdr.toNat 12 0)⟩
    if d.hdr = 0 ∨ x.runBad ∨ f.seq ≠ x.expect then .next s
    else .next (s.setRx p.val { x with held := x.held ++ [f], expect := (x.expect + 1) % 4096 })

/-! ### Flits of checked runs (R173, R174, R181, R183, R202) -/

/-- The packets in a channel's receive buffer. -/
def Port.rxOf (x : Port) (vc : Nat) : List RxPkt := mapGet (fun _ => []) x.rx vc
def Port.setRxOf (x : Port) (vc : Nat) (l : List RxPkt) : Port := { x with rx := mapSet (fun _ => []) x.rx vc l }

/-- A packet begins with flit f: it waits; or it is dropped because it holds no header a receiver knows (log 52), or, counted in
EPOCH_DROP, because its epoch is not its tenant's (R202): a request is then answered. The code of that answer is nowhere given: a
free value. A flit for this module leaves the channel's buffer at once, one for another when it goes on. -/
def State.openPacket (s : State) (p : Nat) (f : Flit) : State :=
  let vc := f.vc
  let put (s : State) (fate : RxFate) : State :=
    let r : RxPkt := ⟨if fate = .wait then [f] else [], f.last, fate, true⟩
    let s := if f.last ∧ fate = .drop then s else s.setPort p ((s.port p).setRxOf vc ((s.port p).rxOf vc ++ [r]))
    if fate = .wait ∧ f.dest ≠ s.me then s else s.giveBack p vc 1
  match packetOf [f] with
  | none => put s .drop
  | some k =>
    if !isProxyOp k.op ∧ k.epoch ≠ s.epoch k.tenant then
      let s := put (s.addSat (flReg p 0x5C) 1) .drop
      if isRequest k.op then
        let (n, s) := s.take
        s.answer k .error ((Config.freeWord n).toNat % 65536) []
      else s
    else put s .wait

/-- A further flit of the packet r that channel vc is receiving (R183): it waits with it, follows it on its way, or is dropped, as one
beyond the 64th is (R174). -/
def State.moreFlits (s : State) (p : Nat) (f : Flit) (before : List RxPkt) (r : RxPkt) : State :=
  let vc := f.vc
  let store (s : State) (l : List RxPkt) : State := s.setPort p ((s.port p).setRxOf vc (before ++ l))
  match r.fate with
  | .wait =>
    if 64 ≤ r.flits.length then
      let s := store s (if f.last then [] else [{ r with flits := [], fate := .drop }])
      s.giveBack p vc (if f.dest = s.me then 1 else r.flits.length + 1)
    else
      let s := store s [{ r with flits := r.flits ++ [f], whole := f.last }]
      if f.dest = s.me then s.giveBack p vc 1 else s
  | .through q =>
    let s := store s (if f.last then [] else [r])
    let y := s.port q
    s.setPort q { y with tx := y.tx.map (fun t => if t.src = some (p, vc) ∧ !t.whole then
      { t with flits := t.flits ++ [f.onward t.vc (f.hops - 1)], whole := f.last } else t) }
  | .drop => (store s (if f.last then [] else [r])).giveBack p vc 1

/-- A flit of a checked run (R173, R183). A first flit gives up a packet of its channel that has not come to its end; a later flit of no
packet, and one whose header no sender forms, are discarded. -/
def State.joinFlit (s : State) (p : Nat) (f : Flit) : State :=
  let l := (s.port p).rxOf f.vc
  let before := l.filter (·.whole)
  if !f.ok then s
  else match l.find? (fun r => !r.whole) with
    | none => if f.first then s.openPacket p f else s.giveBack p f.vc 1
    | some r =>
      if !f.first then s.moreFlits p f before r else
      let s := s.setPort p ((s.port p).setRxOf f.vc before)
      let s := match r.fate with
        | .through q => s.setPort q { s.port q with tx := (s.port q).tx.filter (fun t => t.src != some (p, f.vc) || t.whole) }
        | _ => if r.flits.any (fun g => g.dest != s.me) then s.giveBack p f.vc r.flits.length else s
      s.openPacket p f

/-- A sideband word, acknowledged and, if not a duplicate, taken (R177): an ECHO is returned at once, others wait to be carried out. -/
def State.sideband (s : State) (p : Nat) (w : Nat × SbWord) : State :=
  let x := s.port p
  let s := s.setPort p { x with sbAck := x.sbAck ++ [w.1] }
  if x.sbSeen.contains w.1 then s else
  let s := s.setPort p { s.port p with sbSeen := x.sbSeen ++ [w.1] }
  match w.2 with
  | .echo false t => s.sendSb (.echo true t) p
  | v => let x := s.port p; s.setPort p { x with sbIn := x.sbIn ++ [v] }

/-- The end of a seal run (R176, R179). -/
def State.closeRun (s : State) (p : Nat) (tagOk : Bool) : State :=
  let x := (s.port p).rxs
  if x.runBad then s.setRx p { x with runBad := false, held := [], runFirst := x.expect }
  else if tagOk then
    let s := s.setRx p { x with held := [], runFirst := x.expect, sealFails := 0, replays := if x.held.isEmpty then x.replays else 0 }
    x.held.foldl (fun s f => s.joinFlit p f) s
  else
    let s := (s.addSat (flReg p 0x54) 1).logPort evSealFail p
    let y := { x.bad with runBad := false, sealFails := x.sealFails + 1 }
    let s := s.setRx p y
    if 2 ≤ y.sealFails then (s.wb (flReg p 0x44) 5 true).portTrain p
    else if 9 ≤ y.replays then s.replayLimit p else s

/-- A NAK (R176): the sender replays from the named flit; the ninth NAK in a row for one run shows its eighth replay failed. -/
def State.takeNak (s : State) (p n : Nat) : State :=
  let x := s.port p
  let c := if x.txs.nakCount ≠ 0 ∧ x.txs.nakFirst = n then x.txs.nakCount + 1 else 1
  let i := (x.txs.replay.takeWhile (fun f => f.seq != n)).length
  let s := s.setPort p { x with txs := { x.txs with nakFirst := n, nakCount := c, next := if i < x.txs.replay.length then i else x.txs.next } }
  if 9 ≤ c then s.replayLimit p else s

/-- Every control slot ends a run: the run counter goes on (R179). -/
def Rx.nextRun (x : Rx) : Rx := { x with crypt := { x.crypt with run := x.crypt.run + 1 } }

/-- CONTROL_SLOT (R172, R176, R177, R179). A lost one takes the run before it along. -/
def execControlSlot (p : Fin 8) (c : CtlSlot) (s : State) : Host.Outcome State Fault Refusal :=
  if !s.portUp p.val then .next s else
  let s := (s.addSat (flReg p.val 0x4C) (fecCorrected c.fec)).setRx p.val (s.port p.val).rxs.nextRun
  if !c.crcOk then
    let s := s.addSat (flReg p.val 0x50) 1
    let x := (s.port p.val).rxs
    let y := if x.runBad then { x with runBad := false } else { x.bad with runBad := false }
    let s := s.setRx p.val y
    if 9 ≤ y.replays then .next (s.replayLimit p.val) else .next s
  else
    let x := s.port p.val
    let s := s.setPort p.val { x with sbOut := x.sbOut.filter (fun w => !c.sbAcks.contains w.1) }
    let s := c.words.foldl (fun s w => s.sideband p.val w) s
    let s := match c.nak with
      | some n => s.takeNak p.val n.toNat
      | none => s
    if s.portUp p.val then .next (s.closeRun p.val c.tagOk) else .next s

/-! ### Packets -/

/-- The packet at the head of channel vc of port p, as far as its flits spell it. -/
def State.rxHead (s : State) (p vc : Nat) : Option Packet :=
  match (s.port p).rxOf vc with
  | r :: _ => if r.fate = .wait then packetOf r.flits else none
  | [] => none

def State.rxPop (s : State) (p vc : Nat) : State := s.setPort p ((s.port p).setRxOf vc (((s.port p).rxOf vc).drop 1))

/-- The head of channel vc of port p, once whole, if it is for this module and carries the operation. -/
def State.rxFor (s : State) (p vc : Nat) (op : PktOp) : Option Packet :=
  match (s.port p).rxOf vc with
  | r :: _ => if r.whole then
      (match s.rxHead p vc with
      | some k => if k.dest = s.me ∧ k.op = op then some k else none
      | none => none) else none
  | [] => none

/-- The head of channel vc leaves its buffer for good: its flits free their credits, those still to come are dropped, or go out of port q
where one is given. -/
def State.rxLeave (s : State) (p vc : Nat) (fate : RxFate) : State :=
  match (s.port p).rxOf vc with
  | [] => s
  | r :: l =>
    let s := s.setPort p ((s.port p).setRxOf vc (if r.whole then l else { r with flits := [], fate := fate } :: l))
    if fate = .drop ∧ r.counted then s.giveBack p vc r.flits.length else s

/-- The channel of a packet on the link toward d (R182): escape traffic crosses a dateline to VC 3 and turns into Y on VC 2. -/
def State.escVc (s : State) (vc inDir outDir d : Nat) : Nat :=
  if vc < 2 then vc
  else if s.crossesDateline d then 3
  else if inDir ≤ 2 ∧ 3 ≤ outDir then 2 else vc

/-- The flits of the head of channel vc go on toward port q on channel v, each with one hop less (R183, R186). -/
def State.forwardPkt (s : State) (p vc q v : Nat) (k : Packet) : State :=
  match (s.port p).rxOf vc with
  | [] => s
  | r :: _ =>
    (s.rxLeave p vc (.through q)).pushTx q
      ⟨v, if r.counted then some (p, vc) else none, r.flits.map (fun f => f.onward v (k.hops - 1)), r.whole, false, s.clock.tick, none,
        { k with vc := v, hops := k.hops - 1, data := [] }⟩

/-- PACKET_FORWARD (R182, R183, R186). -/
def execPacketForward (p : Fin 8) (vc : Fin 4) (s : State) : Host.Outcome State Fault Refusal :=
  match s.rxHead p.val vc.val with
  | none => .next s
  | some k =>
    if k.dest = s.me then .next s
    else if k.hops = 0 then
      let s := s.rxLeave p.val vc.val .drop
      if isRequest k.op then .next (s.answer k .error 0x0602 []) else .next s
    else
      match (if isProxyOp k.op then s.firstPort k.dest else s.dataPort k.dest vc.val) with
      | none => .next s
      | some q => .next (s.forwardPkt p.val vc.val q (s.escVc vc.val (s.dir p.val) (s.dir q) k.dest) k)

/-- The packet at the head of a sending channel that has not begun to leave: none while another one is on its way (R182, R183). -/
def Port.headOf (x : Port) (vc : Nat) : Option TxPkt :=
  let l := x.tx.filter (fun t => t.vc == vc && t.last.isNone)
  if l.any (·.begun) then none else l.head?

/-- ESC_WAIT_EXPIRY (R182): the head of VC 0 or 1, without a credit, goes over to escape at this hop. -/
def execEscWaitExpiry (p : Fin 8) (vc : Fin 2) (s : State) : Host.Outcome State Fault Refusal :=
  let x := s.port p.val
  match x.headOf vc.val with
  | none => .next s
  | some t =>
    if x.credit vc.val ≠ 0 then .next s else
    let v := if s.crossesDateline t.pkt.dest then 3 else 2
    let moved : TxPkt := { t with vc := v, flits := t.flits.map (fun f => f.onward v f.hops), pkt := { t.pkt with vc := v } }
    .next (s.setPort p.val { x with tx := x.tx.erase t ++ [moved] })

/-- WRITE_PACKET (R87, R188): checked against the tenant's regions or partition here, written and acknowledged. -/
def execWritePacket (p : Fin 8) (vc : Fin 4) (s : State) : Host.Outcome State Fault Refusal :=
  match s.rxFor p.val vc.val .write with
  | none => .next s
  | some k =>
    let s := s.rxPop p.val vc.val
    let n := k.data.length
    if k.space = 0 then
      match s.regCheck k.tenant true k.addr n with
      | .ok => .next (((s.hbmWrite k.addr k.data).chargeHbm k.tenant n).answer k .writeAck k.addr [])
      | .bounds _ => .next (s.answer k .error 0x0303 [])
      | .conflict e => .next ((s.answer k .error 0x0D04 []).regionConflict k.tenant e)
    else if k.space ≤ 6 ∧ s.inPart (k.space - 1) k.tenant k.addr n then
      .next ((s.spWrite (k.space - 1) k.addr k.data).answer k .writeAck k.addr [])
    else .next (s.answer k .error 0x0303 [])

/-- WRITE_ACKNOWLEDGEMENT (R189): the last one of a COPY lets its arrival leave for the remote barrier. -/
def execWriteAcknowledgement (p : Fin 8) (vc : Fin 4) (s : State) : Host.Outcome State Fault Refusal :=
  match s.rxFor p.val vc.val .writeAck with
  | none => .next s
  | some k =>
    let s := s.rxPop p.val vc.val
    match s.field.reqs.find? (fun r => r.tag == k.tag) with
    | none => .next s
    | some r =>
      let s := { s with field := { s.field with reqs := s.field.reqs.filter (fun x => x.tag != r.tag) } }
      match (s.porter r.pd).run, (s.porter r.pd).lastRemote with
      | some run, some d =>
        if run.done ∧ run.cmd.arrive ∧ !s.porterWaits r.pd then
          let s := { s with field := { s.field with arrs := s.field.arrs.filter (fun (x : Req) => x.tag != k.tag) ++ [{ r with dest := d }] } }
          .next (s.sendPacket { dest := d, src := s.me, tenant := run.cmd.owner, vc := 0, epoch := s.epoch run.cmd.owner, hops := 63,
                                op := .arrive, space := 0, tag := k.tag, addr := (run.cmd.w 3).toNat, data := [] })
        else .next s
      | _, _ => .next s

/-- FAULT_INFO of an error response to a request (R205): the module and port that lost it, or the request's destination. -/
def errInfo (k : Packet) (code dest seq : Nat) : Nat :=
  if code = 0x0601 then downInfo k.src (nfld k.addr 18 16) seq else dest * 2 ^ 26 + seq % 65536

/-- ERROR_RESPONSE (R171, R186, R188, R200): the requester takes the fault it carries. -/
def execErrorResponse (p : Fin 8) (vc : Fin 4) (s : State) : Host.Outcome State Fault Refusal :=
  match s.rxFor p.val vc.val .error with
  | none => .next s
  | some k =>
    let s := s.rxPop p.val vc.val
    let code := k.addr % 65536
    match s.field.reqs.find? (fun r => r.tag == k.tag), s.field.arrs.find? (fun r => r.tag == k.tag),
        s.field.proxies.find? (fun x => x.tag == k.tag && x.sent) with
    | some r, _, _ => .next (s.failReq r code (errInfo k code r.dest r.seq.toNat))
    | none, some r, _ => .next (s.failArrival r code (errInfo k code r.dest r.seq.toNat))
    | none, none, some x => .next (s.failProxy x (if code = 0x0602 then 2 else if code = 0x0601 then 4 else 3))
    | none, none, none => .next s

/-- ARRIVE_PACKET (R189, R209): the arrival of another module goes to Tally. -/
def execArrivePacket (p : Fin 8) (vc : Fin 4) (s : State) : Host.Outcome State Fault Refusal :=
  match s.rxFor p.val vc.val .arrive with
  | none => .next s
  | some k =>
    .next ((s.rxPop p.val vc.val).sendArrival
      ⟨.central (Fin.ofNat 256 (nfld k.addr 31 24)), nfld k.addr 23 12, some k.tenant, none, 0x3FF, falPage p.val⟩)

end Sys2Proof.Machine
end

