-- ==== Sys2Proof/Machine/Porter.lean ====
section
/-!
DEFINITION. Porter (R99 to R105, R112, R187 to R189): the COPY command and the descriptors of its list.
-/
namespace Sys2Proof.Machine

def pdReg (p off : Nat) : Nat := rga (porPage p) off

/-- Word n of 64 bytes, as numbers. -/
def wordsAt (bs : List Byte) : List Nat := (List.range (bs.length / 4)).map (fun i => leAt bs (4 * i) 4)

/-- The list address and count of a COPY (R99). -/
def Cmd.listAddr (c : Cmd) : Nat := (c.w 5).toNat + 2 ^ 32 * (c.w 6).toNat
def Cmd.descCount (c : Cmd) : Nat := c.f 7 15 0

/-- A COPY whose last descriptor writes to another module may not arrive at a tree barrier (R189). -/
def State.remoteTree (s : State) (c : Cmd) : Bool :=
  let a := c.listAddr + 64 * (c.descCount - 1)
  c.arrive && c.f 3 11 10 == 0 && (s.regCheck c.owner false a 64).isOk && nfld (leNat (s.hbmRead a 4)) 15 12 == 2

/-- COPY (R98, R99): the checks of the command, then Porter starts its list. -/
def execCopy (p : Fin 16) (s : State) : Host.Outcome State Fault Refusal :=
  match (s.porter p.val).sel with
  | none => .next s
  | some c =>
    let drop := s.setPorter p.val { s.porter p.val with sel := none }
    match s.baseCheck c with
    | some r => .next (drop.refuse c 7 r)
    | none =>
      if c.f 5 5 0 ≠ 0 ∨ c.f 7 31 20 ≠ 0 ∨ (List.range 8).any (fun k => c.w (8 + k) != 0) ∨ c.descCount = 0 then
        .next (drop.porterFault p.val 0x0302 (porInfo 0xFFFF c.seq) c.listAddr c)
      else if s.remoteTree c then .next (drop.refuse c 7 (s.cmdPage c, 0x0207, c.seqLow))
      else
        let s := s.setPorter p.val { s.porter p.val with sel := none, run := some ⟨c, s.clock.tick, 0, false⟩, index := 0, lastRemote := none }
        .next ((s.wr (pdReg p.val 0x40) (w32 (c.owner * 2 ^ 24))).wr64 (pdReg p.val 0x48) c.listAddr)

/-! ### Descriptors (R100) -/

/-- A descriptor with its fields: spaces, engines, remote module, bases, size and the counts and strides within DIMS. -/
structure Desc where
  dims : Nat
  srcSpace : Nat
  dstSpace : Nat
  srcEng : Nat
  dstEng : Nat
  remote : Nat
  src : Nat
  dst : Nat
  size : Nat
  counts : List Nat
  srcStr : List Int
  dstStr : List Int
deriving DecidableEq, Repr

def toDesc (w : List Nat) : Desc :=
  let g (k : Nat) : Nat := w.getD k 0
  let n := nfld (g 0) 2 0
  { dims := n, srcSpace := nfld (g 0) 11 8, dstSpace := nfld (g 0) 15 12, srcEng := nfld (g 0) 18 16, dstEng := nfld (g 0) 21 19,
    remote := nfld (g 0) 27 22, src := g 1 + g 2 * 2 ^ 32, dst := g 3 + g 4 * 2 ^ 32, size := g 5,
    counts := ([nfld (g 6) 15 0, nfld (g 6) 31 16, nfld (g 7) 15 0]).take (n - 1),
    srcStr := ([g 8, g 9, g 10].map (toS 32)).take (n - 1), dstStr := ([g 11, g 12, g 13].map (toS 32)).take (n - 1) }

/-- The bounding interval of a side (R103): lowest byte, and one past the highest. -/
def interval (base size : Nat) (counts : List Nat) (strs : List Int) : Int × Int :=
  let spans := (counts.zip strs).map (fun x => ((x.1 : Int) - 1) * x.2)
  ((base : Int) + (spans.filter (· < 0)).sum, (base : Int) + size + (spans.filter (0 < ·)).sum)

/-- Whether the spaces, engines, counts and reserved fields are valid (R100, R187). -/
def descOk (me n : Nat) (w : List Nat) (d : Desc) : Bool :=
  let g (k : Nat) : Nat := w.getD k 0
  let is := interval d.src d.size d.counts d.srcStr
  let id := interval d.dst d.size d.counts d.dstStr
  let inSpad (i : Int × Int) : Bool := decide (0 ≤ i.1) && decide (i.2 ≤ (spadSize : Nat))
  nfld (g 0) 31 28 == 0 && nfld (g 0) 7 3 == 0 && nfld (g 7) 31 16 == 0 && g 14 == 0 && g 15 == 0 &&
  decide (1 ≤ d.dims ∧ d.dims ≤ 4) && decide (d.srcSpace ≤ 1) && decide (d.dstSpace ≤ 2) && d.size != 0 && d.counts.all (· != 0) &&
  (if d.srcSpace = 1 then decide (d.srcEng < 6) && inSpad is else d.srcEng == 0) &&
  (if d.dstSpace = 1 then decide (d.dstEng < 6) && inSpad id else d.dstEng == 0) &&
  (if d.dstSpace = 2 then d.remote != me && decide (d.remote < n) &&
      (if d.dst < 2 ^ 63 then decide (d.dst < 2 ^ 48)
       else nfld d.dst 62 59 == 0 && nfld d.dst 55 26 == 0 && decide (nfld d.dst 58 56 < 6))
   else d.remote == 0)

/-- The row offsets of the walk (R102, R104), as source and destination: dimension 1 fastest, descending if `rev1`. -/
def rowOffs (counts : List Nat) (ss ds : List Int) (rev1 : Bool) : List (Int × Int) :=
  match counts, ss, ds with
  | c :: cs, a :: ss', b :: ds' =>
    (rowOffs cs ss' ds' false).flatMap (fun o =>
      (List.range c).map (fun i =>
        let k : Int := if rev1 then ((c - 1 - i : Nat) : Int) else (i : Int)
        (o.1 + k * a, o.2 + k * b)))
  | _, _, _ => [(0, 0)]

/-- How Porter walks (R103 to R105): not overlapping, in ascending order; overlapping, with the two orders, or refused. -/
def walkOf (d : Desc) : Option (Bool × Bool) :=
  let is := interval d.src d.size d.counts d.srcStr
  let id := interval d.dst d.size d.counts d.dstStr
  let same := d.srcSpace == d.dstSpace && d.srcEng == d.dstEng
  let delta : Int := (d.dst : Int) - d.src
  if !(same && decide (is.1 < id.2) && decide (id.1 < is.2)) then some (false, false)
  else match d.dims, d.srcStr, d.dstStr with
    | 1, _, _ => some (decide (0 < delta), false)
    | 2, [a], [b] => if a = b ∧ d.size ≤ a.natAbs then some (decide (0 < delta), decide (0 < delta * a)) else none
    | _, _, _ => none

/-- What stops a row (R88, R100, R405): the lowest and the highest address that fail, or a region entry in conflict. -/
inductive RowBad where
  | bad (low high : Nat)
  | conflict (entry : Nat)
deriving DecidableEq, Repr

/-- The granules of the tenant's resident regions on engine e that queue q does not own (R88). -/
def State.foreignRes (s : State) (e t q : Nat) : List (Nat × Nat) :=
  (List.range 4).filterMap (fun k =>
    let r := s.rd (resReg e t k)
    match granulesOf r with
    | some (b, n) => if fld r 25 24 = q then none else some (b * granule, (b + n) * granule)
    | none => none)

/-- The bytes of [a, b) that the COPY of queue q may not reach on engine e, as ranges (R87, R88). -/
def State.spadForbidden (s : State) (e t q : Nat) (write : Bool) (a b : Nat) : List (Nat × Nat) :=
  let (lo, hi) := (s.partition e t).getD (0, 0)
  let cut (x y : Nat) : List (Nat × Nat) := if max a x < min b y then [(max a x, min b y)] else []
  cut 0 lo ++ cut hi b ++ (if write then (s.foreignRes e t q).flatMap (fun r => cut r.1 r.2) else [])

/-- Check bytes [a, a + n) of a side for the COPY of queue q (R100). -/
def State.rowCheck (s : State) (space e : Nat) (t q : Nat) (write : Bool) (a : Int) (n : Nat) : Option RowBad :=
  if space = 2 then none
  else if a < 0 then some (.bad (ofS 64 a) (ofS 64 (min (-1) (a + n - 1))))
  else
    let a := a.toNat
    if space = 0 then
      match s.regCheck t write a n with
      | .ok => none
      | .conflict e => some (.conflict e)
      | .bounds x =>
        let bad := ((List.range ((a + n - 1) / 2 ^ 21 + 1 - x / 2 ^ 21)).map (· + x / 2 ^ 21)).filter (fun u => !(s.regJudge t write a u 1).isOk)
        some (.bad x (min (a + n) ((listMax bad + 1) * 2 ^ 21) - 1))
    else
      match s.spadForbidden e t q write a (a + n) with
      | [] => none
      | l => some (.bad (listMin (l.map (·.1))) (listMax (l.map (·.2)) - 1))

/-- What stops a descriptor: the number of bytes that stand before the failing one in walk order, what fails, and the address
(R101, R112). -/
inductive Stop where
  | bounds (addr : Nat)
  | conflict (entry : Nat)
  | ue (addr : Nat)
deriving DecidableEq, Repr

/-- The first failing byte of a row of n bytes at a, by the direction of its walk. -/
def stopOf (a : Int) (n : Nat) (rev0 : Bool) : RowBad → Nat × Stop
  | .conflict e => (0, .conflict e)
  | .bad lo hi => if rev0 then ((a + n - 1).toNat - hi, .bounds hi) else (lo - a.toNat, .bounds lo)

/-- The walk's first stop of each row's two sides, the source's before the destination's (R100, R102): rows in walk order,
numbered from i. -/
def State.firstStop (s : State) (c : Cmd) (d : Desc) (rev0 : Bool) : Nat → List (Int × Int) → Option (Nat × Stop)
  | _, [] => none
  | i, o :: r =>
    let side (space e : Nat) (write : Bool) (a : Int) : Option (Nat × Stop) :=
      (s.rowCheck space e c.owner (c.q % 4) write a d.size).map (stopOf a d.size rev0)
    match side d.srcSpace d.srcEng false ((d.src : Int) + o.1), side d.dstSpace d.dstEng true ((d.dst : Int) + o.2) with
    | none, none => s.firstStop c d rev0 (i + 1) r
    | some x, none => some (i * d.size + x.1, x.2)
    | none, some y => some (i * d.size + y.1, y.2)
    | some x, some y => if x.1 ≤ y.1 then some (i * d.size + x.1, x.2) else some (i * d.size + y.1, y.2)

/-- Where the walk first reads a byte of [lo, hi): how many bytes come before it, and its address. -/
def firstRead (d : Desc) (rev0 : Bool) (lo hi : Nat) : Nat → List (Int × Int) → Option (Nat × Nat)
  | _, [] => none
  | i, o :: r =>
    let a := ((d.src : Int) + o.1).toNat
    let x := max a lo
    let y := min (a + d.size) hi
    if x < y then some (if rev0 then (i * d.size + (a + d.size - y), y - 1) else (i * d.size + (x - a), x))
    else firstRead d rev0 lo hi (i + 1) r

/-- The uncorrectable error that a source read meets (R106): in HBM at the address the operand names; in a scratchpad in one of
the 64-bit words of the bank's row that the walk reads, which of them is free. -/
def readUe (d : Desc) (rev0 : Bool) (rows : List (Int × Int)) (hw : HwFault) (free : Nat) : Option (Nat × Stop) :=
  match hw with
  | .hbmUe _ a => if d.srcSpace = 0 then (firstRead d rev0 a (a + 1) 0 rows).map (fun x => (x.1, .ue x.2)) else none
  | .spadUe _ b row =>
    if d.srcSpace = 1 ∧ b < 96 ∧ row < 1024 then
      let l := (List.range 64).filterMap (fun k =>
        let w := spadBlock b row (k / 8) + 8 * (k % 8)
        firstRead d rev0 w (w + 8) 0 rows)
      (l[free % max 1 l.length]?).map (fun x => (x.1, .ue x.2))
    else none
  | _ => none

/-- Whether a corrected error lies where the source is read (R85, R448). -/
def readsCe (d : Desc) (rows : List (Int × Int)) (hw : HwFault) : Bool :=
  match hw with
  | .hbmCe _ a => d.srcSpace == 0 && (firstRead d false a (a + 1) 0 rows).isSome
  | .spadCe b row => d.srcSpace == 1 && rows.any (fun o =>
      let a := ((d.src : Int) + o.1).toNat
      spadReaches a (a + d.size) b row)
  | _ => false

/-- Read n bytes of a side. -/
def State.sideRead (s : State) (space e a n : Nat) : List Byte := if space = 0 then s.hbmRead a n else s.spRead e a n

/-- Write bytes of a side. -/
def State.sideWrite (s : State) (space e a : Nat) (bs : List Byte) : State := if space = 0 then s.hbmWrite a bs else s.spWrite e a bs

/-- The rows of a descriptor with their data: destination address and bytes, in walk order. The whole source is read first. -/
def State.readRows (s : State) (d : Desc) (rows : List (Int × Int)) : List (Nat × List Byte) :=
  rows.map (fun o => (((d.dst : Int) + o.2).toNat, s.sideRead d.srcSpace d.srcEng ((d.src : Int) + o.1).toNat d.size))

def State.writeRows (s : State) (d : Desc) (l : List (Nat × List Byte)) : State :=
  l.foldl (fun s x => s.sideWrite d.dstSpace d.dstEng x.1 x.2) s

/-- Split a row into packets of at most 16,368 bytes (R174). -/
def packetsOf : Nat → Nat → List Byte → List (Nat × List Byte)
  | 0, _, _ => []
  | n + 1, a, bs => if bs.isEmpty then [] else (a, bs.take 16368) :: packetsOf n (a + 16368) (bs.drop 16368)

/-- Send one remote write (R186 to R188). -/
def State.sendWrite (s : State) (p : Nat) (c : Cmd) (desc dest space : Nat) (x : Nat × List Byte) : State :=
  let tag := s.field.nextTag % 65536
  let r : Req := ⟨tag, p, c.owner, c.q, c.seq, x.1, desc, dest⟩
  ({ s with field := { s.field with nextTag := s.field.nextTag + 1, reqs := s.field.reqs ++ [r] } } : State).sendPacket
    { dest := dest, src := s.me, tenant := c.owner, vc := 0, epoch := s.epoch c.owner, hops := 63, op := .write, space := space, tag := tag,
      addr := x.1, data := x.2 }

/-- Count the bytes moved (R112, R250). -/
def State.countBytes (s : State) (p : Nat) (t : Nat) (d : Desc) (n : Nat) : State :=
  let s := s.wr64 (pdReg p 0x58) ((s.rd64 (pdReg p 0x58) + n) % 2 ^ 64)
  s.chargeHbm t ((if d.srcSpace = 0 then n else 0) + (if d.dstSpace = 0 then n else 0))

/-- Rows go out: to another module as packets (R187), else to their place here. -/
def State.putRows (s : State) (p : Nat) (c : Cmd) (i : Nat) (d : Desc) (data : List (Nat × List Byte)) : State :=
  if d.dstSpace = 2 then
    let space := if d.dst < 2 ^ 63 then 0 else 1 + nfld d.dst 58 56
    let mask := if d.dst < 2 ^ 63 then 2 ^ 48 else 2 ^ 26
    (data.flatMap (fun x => packetsOf (x.2.length / 16368 + 1) (x.1 % mask) x.2)).foldl (fun s x => s.sendWrite p c i d.remote space x) s
  else s.writeRows d data

/-- The descriptor's bytes move (R101 to R105, R187). -/
def State.moveDesc (s : State) (p : Nat) (c : Cmd) (i : Nat) (d : Desc) (rows : List (Int × Int)) : State :=
  (s.putRows p c i d (s.readRows d rows)).countBytes p c.owner d (d.size * rows.length)

/-- The first j bytes of a row in walk order. -/
def rowPart (rev0 : Bool) (j : Nat) (x : Nat × List Byte) : Nat × List Byte :=
  if rev0 then (x.1 + (x.2.length - j), x.2.drop (x.2.length - j)) else (x.1, x.2.take j)

/-- What a faulting descriptor had already moved stays (R101): of the bytes that come before the failing one in walk order, all of
which passed their checks, a first part, whose length is free; they are counted as moved (R112). -/
def State.partialRows (s : State) (p : Nat) (c : Cmd) (i : Nat) (d : Desc) (rows : List (Int × Int)) (rev0 : Bool) (before : Nat) : State :=
  let (n, s) := s.take
  let (m, s) := s.take
  let moved := ((Config.freeWord n).toNat + 2 ^ 32 * (Config.freeWord m).toNat) % (before + 1)
  let k := moved / d.size
  let data := s.readRows d (rows.take (k + 1))
  let part := (data.drop k).take 1 |>.map (rowPart rev0 (moved % d.size))
  (s.putRows p c i d (data.take k ++ part)).countBytes p c.owner d moved

/-- The descriptor is done: the next one, or the end of the list. -/
def State.nextDesc (s : State) (p : Nat) (r : Run) (d : Desc) : State :=
  let x := s.porter p
  let last := x.index + 1 == r.cmd.descCount
  s.setPorter p { x with index := x.index + 1, run := some { r with done := last },
                         lastRemote := if last ∧ d.dstSpace = 2 then some d.remote else x.lastRemote }

/-- The stop that comes first in the walk; at the same byte the address check's. -/
def earlier (a b : Option (Nat × Stop)) : Option (Nat × Stop) :=
  match a, b with
  | some x, some y => if x.1 ≤ y.1 then some x else some y
  | some x, none => some x
  | none, y => y

/-- An uncorrectable error of a scratchpad source is noted and recorded on its engine's page too (R85, R106). -/
def State.noteUe (s : State) (p : Nat) (c : Cmd) (d : Desc) (hw : HwFault) : State :=
  match hw with
  | .spadUe _ b row =>
    let s := s.hwNote d.srcEng hw
    let ue := spadUeInfo (12 + p % 2) b row
    (s.recordFault (engPage d.srcEng) 0x0206 ue).logEvent (engPage d.srcEng) 0x0206 0 ue c.owner
  | .hbmUe _ _ => s.hwNote 0 hw
  | _ => s

/-- A fetched descriptor is judged and moved (R100 to R105, R85, R106). -/
def State.runDesc (s : State) (p : Nat) (r : Run) (i addr : Nat) (hw : HwFault) : State :=
  let c := r.cmd
  let w := wordsAt (s.hbmRead addr 64)
  let d := toDesc w
  let info := porInfo i c.seq
  let s := s.pf (pdReg p 0x40) 20 16 d.dims
  if !descOk s.me s.fieldSize w d then s.porterFault p 0x0302 info addr c else
  match walkOf d with
  | none => s.porterFault p 0x0301 info addr c
  | some (rev0, rev1) =>
    let s := (s.wb (pdReg p 0x40) 19 rev0).wb (pdReg p 0x40) 20 rev1
    let rows := rowOffs d.counts d.srcStr d.dstStr rev1
    let (n, s) := s.take
    match earlier (s.firstStop c d rev0 0 rows) (readUe d rev0 rows hw (Config.freeWord n).toNat) with
    | some (k, .conflict e) => (s.partialRows p c i d rows rev0 k).regionConflict c.owner e
    | some (k, .bounds a) => (s.partialRows p c i d rows rev0 k).porterFault p 0x0303 info a c
    | some (k, .ue a) => ((s.noteUe p c d hw).partialRows p c i d rows rev0 k).porterFault p 0x0304 info a c
    | none =>
      if d.dstSpace = 2 ∧ (s.dataPort d.remote 0).isNone then s
      else ((if readsCe d rows hw then s.hwNote d.srcEng hw else s).moveDesc p c i d rows).nextDesc p r d

/-- PORTER_DESCRIPTOR (R99 to R101): the next descriptor of the running COPY is fetched. -/
def execPorterDescriptor (p : Fin 16) (hw : HwFault) (s : State) : Host.Outcome State Fault Refusal :=
  match (s.porter p.val).run with
  | none => .next s
  | some r =>
    if r.done then .next s else
    let i := (s.porter p.val).index
    let addr := r.cmd.listAddr + 64 * i
    let s := (s.pf (pdReg p.val 0x40) 15 0 i).wr64 (pdReg p.val 0x48) addr
    let info := porInfo i r.cmd.seq
    match s.regCheck r.cmd.owner false addr 64 with
    | .bounds _ => .next (s.porterFault p.val 0x0303 info addr r.cmd)
    | .conflict e => .next (s.regionConflict r.cmd.owner e)
    | .ok =>
      let s := s.chargeHbm r.cmd.owner 64
      match hw with
      | .hbmUe _ a =>
        if addr ≤ a ∧ a < addr + 64 then .next ((s.hwNote 0 hw).porterFault p.val 0x0304 info addr r.cmd)
        else .next (s.runDesc p.val r i addr hw)
      | .hbmCe _ a =>
        .next ((if addr ≤ a ∧ a < addr + 64 then s.hwNote 0 hw else s).runDesc p.val r i addr (if addr ≤ a ∧ a < addr + 64 then .none else hw))
      | _ => .next (s.runDesc p.val r i addr hw)

end Sys2Proof.Machine
end

