-- ==== Sys2Proof/Machine/Engine.lean ====
section
/-!
DEFINITION. The common part of the commands of a Sheaf engine: the recipe (R77 to R80, R116, R144), checks 5 to 8 of R98 with
the steps of R115, the end of a command and its faults (R69, R70, R85, R106, R140).
-/
namespace Sys2Proof.Machine

/-! ### Word 4 (R61) -/

def Cmd.aFmt (c : Cmd) : Nat := c.f 4 19 16
def Cmd.wFmt (c : Cmd) : Nat := c.f 4 23 20
def Cmd.outFmt (c : Cmd) : Nat := c.f 4 27 24
def Cmd.group (c : Cmd) : Nat := c.f 4 29 28
def Cmd.accIn (c : Cmd) : Bool := tbit (c.w 4) 30
def Cmd.anchor (c : Cmd) : Int := toS 10 (c.f 4 9 0)

/-- The group size; a BF16 × BF16 command takes 32 (R46). -/
def Cmd.g (c : Cmd) : Nat := if c.aFmt = 6 ∧ c.wFmt = 6 then 32 else 32 <<< c.group

def Cmd.vop (c : Cmd) : Nat := c.f 8 31 24
def Cmd.convMode (c : Cmd) : Nat := c.f 13 31 28

/-- Check 5 of R98: the format codes, the pairing, GROUP and the reserved bits of word 4 for its class (R37, R39, R61, R132,
R139, R143). -/
def fmtOk (c : Cmd) : Bool :=
  let res := c.f 4 31 31 == 0 && c.f 4 15 10 == 0
  let pair := (kindOf c.aFmt c.wFmt).isSome && decide (c.outFmt ≤ 8) && c.group != 3
  match c.op with
  | 1 => res && pair
  | 2 => res && decide (c.outFmt ≤ 8) && c.group != 3 &&
      ((kindOf c.aFmt c.wFmt).isSome || (c.convMode == 2 && c.wFmt == 6 && decide (c.aFmt ≤ 6)))
  | 3 => res && c.group != 3 && (c.aFmt == 6 || c.aFmt == 4) && c.wFmt == c.aFmt && (c.outFmt == 6 || c.outFmt == 7 || c.outFmt == 8)
  | 4 => res && c.group == 1 && c.outFmt == 7 && isIntFmt c.wFmt && (tbit (c.w 15) 31 || isIntFmt c.aFmt)
  | 5 => c.vop != 3 || (res && decide (c.outFmt ≤ 8))
  | 0xA => res && decide (c.outFmt ≤ 7)
  | _ => true

/-! ### The recipe (R77 to R80) -/

/-- Where recipe i of tenant t stands in HBM (R77, R109). -/
def State.recipeAddr (s : State) (e t i : Nat) : Nat :=
  2 ^ 14 * s.rf (rga (engPage e + 2) (0x40 + 8 * t)) 31 14 + 2 ^ 32 * s.rf (rga (engPage e + 2) (0x44 + 8 * t)) 7 0 + 64 * i
def State.recipeLimit (s : State) (e t : Nat) : Nat := s.rf (rga (engPage e + 2) (0x44 + 8 * t)) 31 24

/-- The cached recipe of tenant t with index i on engine e (R78). -/
def State.cached (s : State) (e t i : Nat) : Option (List Word) :=
  ((s.engine e).recipes.find? (fun r => r.tenant == t && r.index == i)).map (·.words)

def rw (r : List Word) (n hi lo : Nat) : Nat := fld (r.getD n 0) hi lo
def recTiles (r : List Word) : Nat := rw r 0 11 0
def recArrays (r : List Word) : Nat := rw r 0 23 16
def recQuad (r : List Word) : Bool := rw r 0 13 13 == 1
def recFlow (r : List Word) : Nat := rw r 0 15 14
def recPostFmt (r : List Word) : Nat := rw r 4 7 4
def recPostLen (r : List Word) : Nat := rw r 4 3 0
/-- The post operations of the chain. -/
def recPost (r : List Word) : List Word := (r.drop 5).take (recPostLen r)

def slotOk (n : Nat) : Bool := decide (n ≤ 10) || n == 15

/-- A multiple of 32, or of 16 in quadrant mode, and not zero (R79). -/
def tileOk (quad : Bool) (n : Nat) : Bool := n != 0 && n % (if quad then 16 else 32) == 0

/-- VERSION, CRC, value ranges and slot numbers (R79, R80). `g` is the group size K_TILE must fit (1: none). -/
def recRange (r : List Word) (g : Nat) : Bool :=
  r.length == 16 && rw r 0 31 24 == 1 && r.getD 15 0 == w32 (crc32 ((r.take 15).flatMap (fun w => natLe 4 w.toNat))) &&
  recArrays r != 0 && recFlow r != 3 && rw r 0 12 12 == 0 && recTiles r != 0 &&
  tileOk (recQuad r) (rw r 1 31 16) && tileOk (recQuad r) (rw r 1 15 0) &&
  decide (1 ≤ rw r 2 31 16 ∧ rw r 2 31 16 ≤ 12) && rw r 2 15 0 != 0 && rw r 2 15 0 % g == 0 &&
  slotOk (rw r 3 31 28) && slotOk (rw r 3 27 24) && slotOk (rw r 3 23 20) && rw r 3 19 12 == 0 &&
  slotOk (rw r 3 11 8) && slotOk (rw r 3 7 4) && slotOk (rw r 3 3 0) &&
  rw r 4 31 8 == 0 && decide (recPostFmt r ≤ 7) && decide (recPostLen r ≤ 8) && r.getD 14 0 == 0 &&
  (recPost r).all (fun o => decide (1 ≤ fld o 31 24 ∧ fld o 31 24 ≤ 12) && slotOk (fld o 23 20) && fld o 19 16 == 0)

/-- What a class demands of its recipe, where a VOP that R128 does not list demands an empty chain, so that it is refused with
RECIPE_INVALID where POST_LEN is not zero and with SHAPE_INVALID in word 8 otherwise (DESIGN CHOICE, log 50) (R116, R144): the slots of ROW_EDGE, STATIONARY or COL_EDGE, SC_A, SC_W and OUT (none:
not a class of the table), the AUX slot of its post chain (none: no chain), whether every slot must be unused (ATTN). -/
structure RecRule where
  slots : Option (Nat × Nat × Nat × Nat × Nat) := none
  aux : Option Nat := none
  attn : Bool := false

def recRule (c : Cmd) : RecRule :=
  match c.op with
  | 1 => { slots := some (0, 1, 2, 3, 4), aux := some 10 }
  | 2 => { slots := some (0, 1, 2, 3, 4), aux := some 9 }
  | 3 => { attn := true }
  | 4 => { slots := some (0, 1, 3, 4, 6) }
  | 5 => if c.vop = 1 then { aux := some 2 } else {}
  | _ => {}

/-- The group size that K_TILE must be a multiple of (R46, R75): that of the array commands. In frequency mode it is 32 whatever
A_FMT and GROUP hold: R46 says so of BF16 × BF16 only, and the products of R126 are of BF16 spectra (DEDUCED, log 50). -/
def recG (c : Cmd) : Nat :=
  match c.op with
  | 2 => if c.convMode = 2 then 32 else c.g
  | 5 | 0xA => 1
  | _ => c.g

/-- Check 6 of R98 on the latched recipe (R79, R80, R116, R144). -/
def recOk (c : Cmd) (r : List Word) : Bool :=
  let k := recRule c
  recRange r (recG c) &&
  (match k.slots with
   | some (a, b, sa, sw, o) =>
     rw r 3 3 0 == a && rw r 3 27 24 == sa && rw r 3 31 28 == sw && rw r 3 23 20 == o &&
     (if recFlow r = 1 then rw r 3 7 4 == b && rw r 3 11 8 == 15 else rw r 3 11 8 == b && rw r 3 7 4 == 15)
   | none => true) &&
  (!k.attn || (recFlow r == 1 && r.getD 3 0 == 0xFFF00FFF)) &&
  (match k.aux with
   | some x => (recPost r).all (fun o => !(fld o 31 24 == 1 || fld o 31 24 == 2) || fld o 23 20 == x) &&
       (recPostLen r == 0 || c.op == 5 || c.outFmt == 7)
   | none => recPostLen r == 0)

/-! ### Shape, alias, bounds -/

/-- A scratchpad range [lo, hi) of an operand slot. -/
structure Rng where
  slot : Nat
  lo : Nat
  hi : Nat
deriving DecidableEq, Repr

/-- What a class's checks need (R115): conditions by descriptor word, whether the rules that tie word 4 to the shape hold, the
command's own term count, the ranges it reads and writes, the reads a write may overlap by an exception of the class, and ranges
that may overlap no other. -/
structure Plan where
  shape : List (Nat × Bool)
  fmt : Bool := true
  terms : Nat := 0
  reads : List Rng := []
  writes : List Rng := []
  free : List (Rng × Rng) := []
  apart : List Rng := []

def Rng.meets (a b : Rng) : Bool := decide (a.lo < b.hi ∧ b.lo < a.hi ∧ a.lo < a.hi ∧ b.lo < b.hi)

/-- The first written range that overlaps a read range outside the exceptions, then the first range that must stand apart and does
not (R115, R132): its slot. -/
def Plan.alias (p : Plan) : Option Nat :=
  match p.writes.find? (fun w => p.reads.any (fun r => w.meets r && !p.free.contains (w, r))) with
  | some w => some w.slot
  | none => (p.apart.find? (fun w => (p.reads ++ p.writes).any (fun r => r.slot != w.slot && w.meets r))).map (·.slot)

/-- An address slot (R113): bits [31:26] zero and aligned. -/
def addrOk (c : Cmd) (n align : Nat) : Nat × Bool := (n, c.f n 31 26 == 0 && (c.w n).toNat % align == 0)

/-- The output descriptor (R114) for the stored format. -/
def odOk (c : Cmd) (n f : Nat) : Nat × Bool :=
  (n, if isIntFmt f then c.f n 31 26 == 0 && c.f n 7 0 == 0 &&
        (match f with
         | 2 => c.f n 15 12 == 0
         | 3 => c.f n 15 12 == (if c.f n 11 11 == 1 then 15 else 0)
         | _ => true)
      else c.w n == 0)

/-- The lowest granule of a range outside the partition [lo, hi), if any (R87). -/
def outside (part : Option (Nat × Nat)) (r : Rng) : Option Nat :=
  if r.hi ≤ r.lo then none else
  match part with
  | none => some (min 0x3FF (r.lo / granule))
  | some (lo, hi) =>
    if r.lo < lo then some (min 0x3FF (r.lo / granule))
    else if hi < r.hi then some (min 0x3FF (max hi r.lo / granule)) else none

def minSlot (l : List Rng) : Option Rng :=
  l.foldl (fun o r => match o with | none => some r | some x => if r.slot < x.slot then some r else o) none

/-- Check 7: the first failing range in ascending slot order (R87). -/
def State.boundsFail (s : State) (e : Nat) (c : Cmd) (p : Plan) : Option Nat :=
  let part := s.partition e c.owner
  (minSlot ((p.reads ++ p.writes).filter (fun r => (outside part r).isSome))).bind (outside part)

/-- Check 8: the lowest granule in which the first write range meets another queue's resident region (R88). -/
def State.residentFail (s : State) (e : Nat) (c : Cmd) (p : Plan) : Option Nat :=
  let fr := s.foreignRes e c.owner (c.q % 4)
  let meets (r : Rng) : List Nat := fr.filterMap (fun x => if r.lo < x.2 ∧ x.1 < r.hi then some (max r.lo x.1 / granule) else none)
  (minSlot (p.writes.filter (fun r => !(meets r).isEmpty))).map (fun r => listMin (meets r))

/-- Pick one of the set bits of a mask by a free value. -/
def pickBit (mask width free : Nat) : Nat :=
  let l := (List.range width).filter (fun i => (mask >>> i) % 2 == 1)
  l.getD (free % max 1 l.length) 0

/-- FAULT_INFO of the arithmetic faults (R70). The spec does not say which of its tiles and arrays computes an element: TILE,
ARRAY and, in quadrant mode, QUAD are free among those selected. -/
def State.arithInfo (s : State) (r : List Word) (stage : Nat) (c : Cmd) : Nat × State :=
  let (n, s) := s.take
  let v := (Config.freeWord n).toNat
  let tile := if r.isEmpty then v % 12 else pickBit (recTiles r) 12 v
  let arr := if r.isEmpty then v / 2 ^ 8 % 8 else pickBit (recArrays r) 8 (v / 2 ^ 8)
  (stage * 2 ^ 28 + tile * 2 ^ 24 + arr * 2 ^ 21 + (if recQuad r then v / 2 ^ 16 % 4 * 2 ^ 19 else 0) + c.seqLow, s)

/-- Refuse the selected command of engine e (R98). -/
def State.refuseSel (s : State) (e : Nat) (c : Cmd) (page code info : Nat) : State :=
  (s.setEngine e { s.engine e with sel := none }).failCmd page code info c e 0

/-- Refuse it with a fault of R69. -/
def State.refuseArith (s : State) (e : Nat) (c : Cmd) (r : List Word) (code : Nat) : State :=
  let (i, s) := s.arithInfo r 0xF c
  s.refuseSel e c (engPage e) code i

/-- The checks that follow check 6, in order (R98, R115): the state after the refusal, or none. -/
def State.planFail (s : State) (e : Nat) (c : Cmd) (r : List Word) (p : Plan) : Option State :=
  match p.shape.find? (fun x => !x.2) with
  | some (w, _) => some (s.refuseSel e c (engPage e) 0x0401 (w * 2 ^ 16 + c.seqLow))
  | none =>
    if !p.fmt then some (s.refuseArith e c r 0x0105)
    else if 2 ^ 24 < p.terms then some (s.refuseArith e c r 0x0104)
    else match p.alias with
      | some sl => some (s.refuseSel e c (engPage e) 0x0402 (sl * 2 ^ 16 + c.seqLow))
      | none => match s.boundsFail e c p with
        | some g => some (s.refuseSel e c (engPage e) 0x0204 (g * 2 ^ 16 + c.seqLow))
        | none => match s.residentFail e c p with
          | some g => some (s.refuseSel e c (engPage e) 0x0205 (g * 2 ^ 16 + c.seqLow))
          | none => none

/-! ### Execution -/

/-- What a command computed: the state with its results written, its ASTAT, the faults it met (a code with its FAULT_INFO, or
none where R70 lays the word out), a region entry in conflict (R405), whether ASTAT is open when it faults (the spec gives
no order of the elements), and what the abort of the fault leaves readable (R68): a scratchpad address with its bytes. -/
structure Result where
  out : State
  astat : Nat := 0
  faults : List (Nat × Option Nat) := []
  conflict : Option Nat := none
  open_ : Bool := true
  keep : Option (Nat × List Byte) := none

/-- The faults of elements as those of R69. -/
def arith (l : List Nat) : List (Nat × Option Nat) := l.map (fun x => (x, none))

/-- A command ends in a fault: its record is written, the job is aborted. An open ASTAT is free. -/
def State.faultRun (s : State) (e : Nat) (c : Cmd) (code info : Nat) (openA : Bool := true) : State :=
  let (n, s) := s.take
  (s.setEngine e { s.engine e with sel := none }).failCmd (engPage e) code info c e
    (if openA then (Config.freeWord n).toNat % 8 else 0)

/-- Whether a Tithe comparison of a stage, tile and array is one the command makes (R63, R64): the array classes only, on the
tiles and arrays of its recipe; stage 6 only where records are accumulated in. -/
def titheMade (c : Cmd) (r : List Word) (stage tile array : Nat) : Bool :=
  decide (1 ≤ c.op ∧ c.op ≤ 4 ∧ stage ≤ 6 ∧ tile < 12 ∧ array < 8) && (stage != 6 || (c.accIn && c.op != 4)) &&
    recTiles r / 2 ^ tile % 2 == 1 && recArrays r / 2 ^ array % 2 == 1

/-- Whether port p reads the scratchpad for the command (R85): the port of a tile it runs on, or Hostel's. -/
def portReads (c : Cmd) (r : List Word) (p : Nat) : Bool :=
  (decide (p < 12) && recTiles r / 2 ^ p % 2 == 1) || (p == 14 && c.op == 3)

/-- The hardware fault that strikes a command: one where the command compares or reads nothing strikes nothing (R63, R64, R81,
R85). QUAD is 0 outside quadrant mode (R70). Errors of HBM strike ATTN alone, in the walk (State.walkRead). -/
def struck (c : Cmd) (r : List Word) (p : Plan) (hw : HwFault) : HwFault :=
  let reached (b row : Nat) : Bool := p.reads.any (fun x => spadReaches x.lo x.hi b row)
  match hw with
  | .none => .none
  | .tithe st ti ar qu => if titheMade c r st ti ar then .tithe st ti ar (if recQuad r then qu % 4 else 0) else .none
  | .spadCe b row => if reached b row then hw else .none
  | .spadUe port b row => if portReads c r port && reached b row then hw else .none
  | .hbmCe _ _ => .none
  | .hbmUe _ _ => .none

/-- Bytes that stand after the abort (R68). -/
def State.keepBytes (s : State) (e : Nat) : Option (Nat × List Byte) → State
  | none => s
  | some (a, bs) => s.spWrite e a bs

/-- The end of the execution under the fault that struck it. A command that meets several faults records one of them: no order
of its elements is given, so which one is free. -/
def State.endRun (s : State) (e : Nat) (c : Cmd) (r : List Word) (hw : HwFault) (x : Result) : State :=
  match hw with
  | .tithe st ti ar qu => s.faultRun e c 0x0101 (st * 2 ^ 28 + ti * 2 ^ 24 + ar * 2 ^ 21 + qu * 2 ^ 19 + c.seqLow)
  | .spadUe p b row => (s.hwNote e hw).faultRun e c 0x0206 (spadUeInfo p b row)
  | _ =>
    match x.conflict with
    | some k => (s.setEngine e { s.engine e with sel := none }).regionConflict c.owner k
    | none =>
      if x.faults.isEmpty then
        let s := x.out.hwNote e hw
        s.setEngine e { s.engine e with sel := none, run := some ⟨c, s.clock.tick, x.astat, true⟩ }
      else
        let (n, s) := x.out.take
        match x.faults.getD ((Config.freeWord n).toNat % x.faults.length) (0, none) with
        | (code, some info) => ((s.hwNote e hw).faultRun e c code info x.open_).keepBytes e x.keep
        | (code, none) =>
          let (i, s) := s.arithInfo r (if code = 0x0101 then 6 else 0xF) c
          (s.hwNote e hw).faultRun e c code i x.open_

/-- A command of engine e: if the picked command is one of the row's, its checks in the order of R98, then its execution. A
recipe that the cache does not hold is waited for (RECIPE_CACHE_FILL). -/
def State.command (s : State) (e : Nat) (hw : HwFault) (mine : Cmd → Bool) (plan : Cmd → List Word → Plan)
    (body : Cmd → List Word → Result) : State :=
  match (s.engine e).sel with
  | none => s
  | some c =>
    if !mine c then s else
    match s.baseCheck c with
    | some r => s.refuseSel e c r.1 r.2.1 r.2.2
    | none =>
      if !fmtOk c then s.refuseArith e c [] 0x0105
      else if s.recipeLimit e c.owner < c.recipe then s.refuseSel e c (engPage e) 0x0203 (c.recipe * 2 ^ 16 + c.seqLow)
      else match s.cached e c.owner c.recipe with
        | none => s
        | some r =>
          if !recOk c r then s.refuseSel e c (engPage e) 0x0203 (c.recipe * 2 ^ 16 + c.seqLow)
          else match s.planFail e c r (plan c r) with
            | some t => t
            | none => s.endRun e c r (struck c r (plan c r) hw) (body c r)

/-- Room for one more recipe: of 32 cached ones a free one goes (R78 names no replacement rule). -/
def evict (l : List RecipeEntry) (free : Nat) : List RecipeEntry :=
  if l.length < 32 then l else l.eraseIdx (free % l.length)

/-- The recipe at an HBM address (R78). -/
def State.recipeWords (s : State) (a : Nat) : List Word := (List.range 16).map (fun i => w32 (leNat (s.hbmRead (a + 4 * i) 4)))

/-- A miss of the recipe cache is counted (R107). -/
def State.countMiss (s : State) (e : Nat) : State :=
  let m := rga (engPage e) 0x48
  s.wr m (s.rd m + 1)

/-- The recipe of the picked command enters the cache (R78). -/
def State.fillRecipe (s : State) (e : Nat) (c : Cmd) : State :=
  let (n, s) := s.take
  let x := s.engine e
  let r : RecipeEntry := ⟨c.owner, c.recipe, s.recipeWords (s.recipeAddr e c.owner c.recipe)⟩
  s.setEngine e { x with recipes := evict x.recipes (Config.freeWord n).toNat ++ [r] }

/-- RECIPE_CACHE_FILL (R78): the picked command's recipe is fetched after a miss. -/
def execRecipeCacheFill (e : Fin 6) (hw : HwFault) (s : State) : Host.Outcome State Fault Refusal :=
  match (s.engine e.val).sel with
  | none => .next s
  | some c =>
    if (s.baseCheck c).isSome || !fmtOk c || (s.cached e.val c.owner c.recipe).isSome
        || decide (s.recipeLimit e.val c.owner < c.recipe) then .next s
    else
      let s := s.countMiss e.val
      match s.regCheck c.owner false (s.recipeAddr e.val c.owner c.recipe) 64 with
      | .conflict k => .next ((s.setEngine e.val { s.engine e.val with sel := none }).regionConflict c.owner k)
      | .bounds _ => .next (s.refuseSel e.val c (engPage e.val) 0x0203 (c.recipe * 2 ^ 16 + c.seqLow))
      | .ok =>
        let a := s.recipeAddr e.val c.owner c.recipe
        let s := (if hbmHits hw a 64 then s.hbmNote hw else s).chargeHbm c.owner 64
        if isHbmUe hw && hbmHits hw a 64 then .next (s.refuseSel e.val c (engPage e.val) 0x0203 (c.recipe * 2 ^ 16 + c.seqLow))
        else .next (s.fillRecipe e.val c)

end Sys2Proof.Machine
end

