-- ==== Sys2Proof/Machine/Hostel.lean ====
section
/-!
DEFINITION. The Hostel walker (R155 to R162, R167): page tables, pages, the TLB and its registers.
-/
namespace Sys2Proof.Machine

def hstReg (e off : Nat) : Nat := rga (0x220 + e) off

/-! ### HST_CTL (R161, R167) -/

/-- A write of HST_CTL: INV_TENANT is stored, TLB_INV drops every translation, INV_TN those of INV_TENANT. A virtual function may
only drop its own. -/
def State.wrHstCtl (s : State) (f : Func) (e : Nat) (v : Word) : State :=
  let t := fld v 7 4
  let may := match f with
    | .vf n => tbit v 1 && t == n.val && !tbit v 0
    | _ => true
  if !may then s else
  let s := s.pf (hstReg e 0x40) 7 4 t
  let x := s.engine e
  if tbit v 0 then s.setEngine e { x with tlb := [] }
  else if tbit v 1 then s.setEngine e { x with tlb := x.tlb.filter (fun i => i.tenant != t) }
  else s

/-- A write of TLB_INV (R161). -/
def execTlbInv (f : Func) (e : Fin 6) (v : Word) (s : State) : Host.Outcome State Fault Refusal :=
  .next (s.guarded f (hstReg e.val 0x40) (fun s => s.wrHstCtl f e.val v))

/-- A write of INV_TN (R161, R167). -/
def execInvTn (f : Func) (e : Fin 6) (v : Word) (s : State) : Host.Outcome State Fault Refusal :=
  .next (s.guarded f (hstReg e.val 0x40) (fun s => s.wrHstCtl f e.val v))

/-! ### Pages (R155, R156) -/

/-- What the walker knows of the running ATTN command: its tenant, format of keys, heads, head dimension. -/
structure PageKind where
  tenant : Nat
  fmt : Nat
  nhkv : Nat
  dhb : Nat
deriving Repr

def up64 (n : Nat) : Nat := (n + 63) / 64 * 64
def PageKind.dh (k : PageKind) : Nat := 32 * k.dhb
def PageKind.esz (k : PageKind) : Nat := if k.fmt = 6 then 2 else 1
/-- Offset of the summary keys, of the head blocks, and the size of a page (R155). -/
def PageKind.sumOff (k : PageKind) : Nat := 64 + up64 (8 * k.nhkv)
def PageKind.headOff (k : PageKind) : Nat := k.sumOff + up64 (2 * k.nhkv * k.dh)
def PageKind.size (k : PageKind) : Nat := k.headOff + k.nhkv * 128 * k.dh * k.esz

def State.hbmWord (s : State) (a : Nat) : Word := w32 (leNat (s.hbmRead a 4))

/-- The K and V scale entries of head j of a page. -/
def State.kScale (s : State) (a j : Nat) : Word := s.hbmWord (a + 64 + 8 * j)
def State.vScale (s : State) (a j : Nat) : Word := s.hbmWord (a + 64 + 8 * j + 4)

/-- Element d of a format at offset of a page. -/
def State.pageVal (s : State) (fmt a d : Nat) : Fv :=
  fpDecode (fpOf fmt) (if fmt = 6 then leNat (s.hbmRead (a + 2 * d) 2) else (s.hbmByte (a + d)).toNat)

/-- K and V of head j, slot t, element d; summary key of head j. -/
def State.kVal (s : State) (k : PageKind) (a j t d : Nat) : Fv :=
  s.pageVal k.fmt (a + k.headOff + j * 128 * k.dh * k.esz) (t * k.dh + d)
def State.vVal (s : State) (k : PageKind) (a j t d : Nat) : Fv :=
  s.pageVal k.fmt (a + k.headOff + j * 128 * k.dh * k.esz) ((64 + t) * k.dh + d)
def State.sumVal (s : State) (k : PageKind) (a j d : Nat) : Fv := s.pageVal 6 (a + k.sumOff) (j * k.dh + d)
def State.sealed (s : State) (a : Nat) : Bool := tbit (s.hbmWord (a + 16)) 0

/-- The first of header words 0 to 2 that fails the check of R156, which every page read meets. -/
def State.headerBad (s : State) (k : PageKind) (a lp tag : Nat) : Option Nat :=
  let w (n : Nat) : Word := s.hbmWord (a + 4 * n)
  let t := (w 1).toNat
  if fld (w 0) 31 24 ≠ 1 ∨ fld (w 0) 23 20 ≠ k.fmt ∨ fld (w 0) 15 8 ≠ k.nhkv ∨ fld (w 0) 7 0 ≠ k.dhb then some 0
  else if t ≠ 0 ∧ tag ≠ 0 ∧ t ≠ tag then some 1
  else if (w 2).toNat ≠ lp then some 2
  else none

/-- A visited slot up to `last` lies at or above TOKENS (R156). -/
def State.tokensBad (s : State) (a last : Nat) : Bool := decide (fld (s.hbmWord (a + 12)) 6 0 ≤ last)

/-! ### The walk (R157 to R162) -/

/-- How a walk failed: code, header word, the HBM address and the logical page; or a region conflict. -/
inductive WalkErr where
  | fault (code sub addr lp : Nat)
  | conflict (entry : Nat)
deriving DecidableEq, Repr

/-- Whether the regions allow the walker n bytes from a (R162). -/
def State.walkAllowed (s : State) (t a n lp : Nat) : Option WalkErr :=
  match s.regCheck t false a n with
  | .conflict e => some (.conflict e)
  | .bounds _ => some (.fault 0x0503 0 a lp)
  | .ok => none

/-- Read ranges of HBM (first byte, length) for the entry or page at `at_`: the bytes are charged to the tenant (R250), an HBM
error among them is counted (R448), an uncorrectable one is HOSTEL_UE (R162). -/
def State.walkRead (s : State) (t at_ lp : Nat) (hw : HwFault) (rs : List (Nat × Nat)) : State × Option WalkErr :=
  let hit := rs.any (fun x => hbmHits hw x.1 x.2)
  let s := (if hit then s.hbmNote hw else s).chargeHbm t (rs.foldl (fun n x => n + x.2) 0)
  (s, if hit && isHbmUe hw then some (.fault 0x0505 0 at_ lp) else none)

/-- Move a translation to the front (R160). -/
def tlbTouch (l : List Tlb) (i : Tlb) : List Tlb := (i :: l.filter (· != i)).take 256

/-- Translate logical page lp of the table at pt (R157, R159, R160). -/
def State.translate (s : State) (e : Nat) (k : PageKind) (pt lp : Nat) (hw : HwFault) : State × (WalkErr ⊕ Nat) :=
  let x := s.engine e
  match x.tlb.find? (fun i => i.tenant == k.tenant && i.table == pt && i.lpage == lp) with
  | some i =>
    let s := s.setEngine e { x with tlb := tlbTouch x.tlb i }
    (s.wr (hstReg e 0x48) (s.rd (hstReg e 0x48) + 1), .inr i.page)
  | none =>
    let s := s.wr (hstReg e 0x4C) (s.rd (hstReg e 0x4C) + 1)
    let a := pt + 8 * lp
    match s.walkAllowed k.tenant a 8 lp with
    | some r => (s, .inl r)
    | none =>
    match s.walkRead k.tenant a lp hw [(a, 8)] with
    | (s, some r) => (s, .inl r)
    | (s, none) =>
      let x := s.engine e
      let v := leNat (s.hbmRead a 8)
      if v % 2 = 0 then (s, .inl (.fault 0x0501 0 a lp))
      else
        let p := nfld v 47 6 * 64
        (s.setEngine e { x with tlb := tlbTouch x.tlb ⟨k.tenant, pt, lp, p⟩ }, .inr p)

/-- Translate the pages of a list in order and check their headers: their addresses, or the first failure (R156, R162). -/
def State.walkPages (s : State) (e : Nat) (k : PageKind) (pt tag : Nat) (hw : HwFault) :
    List Nat → State × (WalkErr ⊕ List (Nat × Nat))
  | [] => (s, .inr [])
  | lp :: r =>
    match s.translate e k pt lp hw with
    | (s, .inl x) => (s, .inl x)
    | (s, .inr p) =>
      match s.walkAllowed k.tenant p k.size lp with
      | some x => (s, .inl x)
      | none =>
      match s.walkRead k.tenant p lp hw [(p, 64)] with
      | (s, some x) => (s, .inl x)
      | (s, none) =>
        match s.headerBad k p lp tag with
        | some w => (s, .inl (.fault 0x0502 w p lp))
        | none =>
          match s.walkPages e k pt tag hw r with
          | (s, .inl x) => (s, .inl x)
          | (s, .inr l) => (s, .inr ((lp, p) :: l))

/-- Record a fault of Hostel in its registers (R166, R167). -/
def State.hostelNote (s : State) (e addr seq lp : Nat) : State :=
  (s.wr64 (hstReg e 0x50) addr).wr (hstReg e 0x58) (w32 (seq * 2 ^ 24 + lp % 2 ^ 14))

end Sys2Proof.Machine
end

