-- ==== Sys2Proof/Machine/Matmul.lean ====
section
/-!
DEFINITION. MATMUL (R117 to R120), and what it shares with the other array commands.
-/
namespace Sys2Proof.Machine

/-- The format in which a command's elements are stored (R80, R114). -/
def Cmd.final (c : Cmd) (r : List Word) : Nat := if recPostLen r = 0 then c.outFmt else recPostFmt r

/-- The pairing of a command that passed check 5. -/
def Cmd.kind (c : Cmd) : Kind := (kindOf c.aFmt c.wFmt).getD .bf

/-- The range of a slot from its address. -/
def rng (c : Cmd) (slot len : Nat) : Rng := ⟨slot, (c.w (slot + 5)).toNat, (c.w (slot + 5)).toNat + len⟩

/-- The element of a Granary with its faults, stored. -/
def storeElem (c : Cmd) (r : List Word) (od v : Word) (x : Gran × List Nat) : Elem :=
  let y := x.1.emit c.anchor c.outFmt (recPost r) (recPostFmt r) od v
  if x.2.isEmpty then y else { y with faults := x.2 }

/-- The start of element i: zero, or its record (R59). -/
def State.startOf (s : State) (e : Nat) (c : Cmd) (acc own i : Nat) : Gran × List Nat :=
  if c.accIn then granLoad c.anchor own (s.code e 8 acc i) else ({}, [])

/-! ### MATMUL -/

def mmM (c : Cmd) : Nat := c.f 10 31 16
def mmK (c : Cmd) : Nat := 32 * c.f 10 15 0
def mmN (c : Cmd) : Nat := c.f 11 19 0

/-- The checks of MATMUL (R113, R115, R117 to R120). -/
def matmulPlan (c : Cmd) (r : List Word) : Plan :=
  let k := c.kind
  let f := c.final r
  let (m, kk, n) := (mmM c, mmK c, mmN c)
  let vec := readsVec (recPost r)
  let ald := 64 * c.f 12 15 0
  let old := 64 * c.f 12 31 16
  let ng := kk / c.g
  let o : Rng := rng c 4 ((m - 1) * old + fmtBytes f n)
  let acc := rng c 8 (32 * m * n)
  { shape := [addrOk c 5 (fmtAlign c.aFmt), addrOk c 6 (fmtAlign c.wFmt)] ++
      (if usesEa k then [addrOk c 7 4] else []) ++ (if usesEw k then [addrOk c 8 4] else []) ++
      [addrOk c 9 (if f = 8 then 32 else fmtAlign f), (10, m != 0 && kk != 0),
       (11, c.f 11 31 20 == 0 && decide (32 ≤ n) && n % 32 == 0),
       (12, decide (fmtBytes c.aFmt kk ≤ ald) && decide (fmtBytes f n ≤ old))] ++
      (if c.accIn then [addrOk c 13 32] else []) ++ [odOk c 14 f] ++ (if vec then [addrOk c 15 4] else []),
    fmt := kk % c.g == 0,
    terms := termCount k kk c.g,
    reads := [rng c 0 ((m - 1) * ald + fmtBytes c.aFmt kk), rng c 1 (fmtBytes c.wFmt (kk * n))] ++
      (if usesEa k then [rng c 2 (4 * m * ng)] else []) ++ (if usesEw k then [rng c 3 (4 * n * ng)] else []) ++
      (if c.accIn then [acc] else []) ++ (if vec then [rng c 10 (4 * n)] else []),
    writes := [o],
    free := if acc.lo = o.lo ∧ c.outFmt = 8 then [(o, acc)] else [] }

/-- The groups of element (m, n) (R118). -/
def State.mmGroups (s : State) (e : Nat) (c : Cmd) (m n : Nat) : List Group :=
  let k := c.kind
  let ng := mmK c / c.g
  let a := (c.w 5).toNat + 64 * c.f 12 15 0 * m
  let w := (c.w 6).toNat
  (List.range ng).map (fun g =>
    let ea := if usesEa k then s.spWord e ((c.w 7).toNat + 4 * (m * ng + g)) else 0
    let ew := if usesEw k then s.spWord e ((c.w 8).toNat + 4 * (n * ng + g)) else 0
    let base := (n / 32 * ng + g) * c.g * 32 + n % 32
    { pairs := (List.range c.g).map (fun j =>
        (operand c.aFmt ea (s.code e c.aFmt a (g * c.g + j)), operand c.wFmt ew (s.code e c.wFmt w (base + 32 * j)))),
      ea := ea, ew := ew })

/-- O = A × W (R117 to R120). -/
def State.matmulBody (s : State) (e : Nat) (c : Cmd) (r : List Word) : Result :=
  let f := c.final r
  let k := c.kind
  let (m, n) := (mmM c, mmN c)
  let own := termCount k (mmK c) c.g
  let vec := readsVec (recPost r)
  let rows := (List.range m).map (fun i => (List.range n).map (fun j =>
    let v := if vec then s.spWord e ((c.w 15).toNat + 4 * j) else 0
    storeElem c r (c.w 14) v
      (elemGran c.anchor k (s.startOf e c (c.w 13).toNat own (i * n + j)) (s.mmGroups e c i j))))
  let out := rows.zipIdx.foldl (fun s x => s.putCodes e f ((c.w 9).toNat + 64 * c.f 12 31 16 * x.2) (x.1.map (·.code))) s
  let all := rows.flatten
  { out := out, astat := astatOf all, faults := arith (faultsOf all) }

/-- MATMUL (R117). A command with an unknown opcode is refused here (R94). -/
def execMatmul (e : Fin 6) (hw : HwFault) (s : State) : Host.Outcome State Fault Refusal :=
  .next (s.command e.val hw (fun c => c.op == 1 || c.op == 0 || decide (0xB < c.op)) matmulPlan (s.matmulBody e.val))

end Sys2Proof.Machine
end

