-- ==== Sys2Proof/Machine/Attn.lean ====
section
/-!
DEFINITION. ATTN (R141 to R154, R163 to R166): the parameter, sequence and backward blocks, scores, biases and masks, the two
forward modes and the backward mode.
-/
namespace Sys2Proof.Machine

/-! ### Parameters (R142, R145, R152) -/

/-- Word n of the parameter block, of the backward block. -/
def State.apW (s : State) (e : Nat) (c : Cmd) (n : Nat) : Word := s.spWord e (c.f 13 25 0 + 4 * n)
def State.bwW (s : State) (e : Nat) (c : Cmd) (n : Nat) : Word := s.spWord e (c.f 14 25 0 + 4 * n)

structure AttnP where
  mode : Nat
  causal : Bool
  save : Bool
  maskEn : Bool
  biasEn : Bool
  signed : Bool
  hq : Nat
  hq0 : Nat
  nhkv : Nat
  nhq : Nat
  dhb : Nat
  rows : Nat
  seqs : Nat
  bucket : Nat
  nb : Nat
  elog : Nat
  slog : Nat
  psel : Nat
  nsink : Nat
  nrecent : Nat
  mstr : Nat
  stage : Nat
  kpages : Nat
  klo : Nat
deriving Repr

def State.attnP (s : State) (e : Nat) (c : Cmd) : AttnP :=
  let g (n hi lo : Nat) : Nat := fld (s.apW e c n) hi lo
  { mode := g 0 31 30, causal := g 0 29 29 == 1, save := g 0 28 28 == 1, maskEn := g 0 27 27 == 1, biasEn := g 0 26 26 == 1,
    signed := g 0 25 25 == 1, hq := g 0 15 8, hq0 := g 0 7 0, nhkv := g 1 31 24, nhq := g 1 23 16, dhb := g 1 3 0,
    rows := g 2 31 16, seqs := g 2 15 8 + 1, bucket := g 2 7 4, nb := g 3 31 20, elog := g 3 19 16, slog := g 3 15 12,
    psel := g 4 31 23, nsink := g 4 22 16, nrecent := g 4 15 8, mstr := g 5 23 0, stage := g 6 25 0, kpages := g 7 31 16, klo := g 7 15 0 }

def AttnP.dh (p : AttnP) : Nat := 32 * p.dhb
/-- The KV head of query head h (R142). -/
def AttnP.kv (p : AttnP) (h : Nat) : Nat := h * p.nhkv / p.nhq

/-- A sequence table entry (R145). -/
structure Sq where
  pt : Nat
  len : Nat
  qpos : Nat
  tag : Nat
deriving Repr

def State.attnSeq (s : State) (e : Nat) (c : Cmd) (b : Nat) : Sq :=
  let a := c.f 6 25 0 + 32 * b
  ⟨leNat (s.spRead e a 8), (s.spWord e (a + 8)).toNat, (s.spWord e (a + 12)).toNat, (s.spWord e (a + 16)).toNat⟩

/-- The parameter block is in its ranges (R142). -/
def State.attnPOk (s : State) (e : Nat) (c : Cmd) (p : AttnP) : Bool :=
  let g (n hi lo : Nat) : Nat := fld (s.apW e c n) hi lo
  let z (n : Nat) : Bool := s.apW e c n == 0
  decide (p.mode ≤ 2) && !(p.mode == 2 && p.save) && !(p.mode == 1 && p.maskEn) && g 0 24 16 == 0 && decide (1 ≤ p.hq ∧ p.hq ≤ 128) &&
  decide (1 ≤ p.nhkv ∧ p.nhkv ≤ 128 ∧ 1 ≤ p.nhq ∧ p.nhq ≤ 128) && p.nhq % p.nhkv == 0 && decide (p.hq0 + p.hq ≤ p.nhq) && g 1 15 4 == 0 &&
  decide (1 ≤ p.dhb ∧ p.dhb ≤ 8) && decide (1 ≤ p.rows ∧ p.rows ≤ (if p.mode = 1 then 64 else 4096)) &&
  (if p.mode = 1 then p.bucket == 0 else decide (p.bucket ≤ 9)) && g 2 3 0 == 0 &&
  (if p.biasEn then decide (1 ≤ p.nb) && decide (p.elog ≤ 11) && decide (p.slog ≤ p.elog) && g 3 11 0 == 0 && !(p.signed && p.nb % 2 == 1) else z 3) &&
  (if p.mode = 1 then decide (1 ≤ p.psel ∧ p.psel ≤ 256 ∧ p.nsink ≤ 64 ∧ 1 ≤ p.nrecent ∧ p.nrecent ≤ 64 ∧ p.nsink + p.nrecent ≤ p.psel) && g 4 7 0 == 0
   else z 4) &&
  (if p.maskEn then decide (2 * 2 ^ (p.bucket + 7) ≤ p.mstr) else z 5) &&
  decide (4 * 64 * p.dh * (if c.wFmt = 6 then 2 else 1) ≤ p.stage) && (p.mode == 2 || z 7) &&
  (List.range 8).all (fun i => z (8 + i))

/-- A sequence table entry is valid (R145, R153). -/
def State.attnSqOk (s : State) (e : Nat) (c : Cmd) (p : AttnP) (b : Nat) : Bool :=
  let q := s.attnSeq e c b
  let a := c.f 6 25 0 + 32 * b
  q.len == 0 ||
  (q.pt % 64 == 0 && decide (q.qpos + (p.rows - 1) < 2 ^ 31) && (s.spRead e (a + 20) 12).all (· == 0) &&
   (if p.mode = 1 then decide (q.len ≤ 2 ^ 20)
    else decide (q.len ≤ 2 ^ (p.bucket + 7)) && (p.bucket == 0 || decide (2 ^ (p.bucket + 6) < q.len))) &&
   (p.mode != 2 || decide (p.klo ≤ (q.len - 1) / 64)))

/-- The pages of the backward key window of a sequence (R153). -/
def AttnP.windowPages (p : AttnP) (len : Nat) : List Nat :=
  let last := (len - 1) / 64
  (List.range (last + 1)).filter (fun i => decide (p.klo ≤ i) && (p.kpages == 0 || decide (i < p.klo + p.kpages)))

/-- The last key position of the window, plus one. -/
def AttnP.windowEnd (p : AttnP) (len : Nat) : Nat := if p.kpages = 0 then len else min len (64 * (p.klo + p.kpages))

/-- The addresses of the backward block. -/
def bwOk (s : State) (e : Nat) (c : Cmd) : Bool :=
  let al (n k : Nat) : Bool := fld (s.bwW e c n) 31 26 == 0 && (s.bwW e c n).toNat % k == 0
  let sz := if c.outFmt = 8 then 32 else 4
  al 0 2 && al 1 2 && al 2 sz && al 3 sz && fld (s.bwW e c 4) 31 26 == 0 && (!c.accIn || (al 5 32 && al 6 32)) &&
  (List.range 9).all (fun i => s.bwW e c (7 + i) == 0)

/-- Bytes of dK or dV of all sequences with elements of sz bytes, for a stride per sequence. -/
def State.dkvBytes (s : State) (e : Nat) (c : Cmd) (p : AttnP) (stride sz : Nat) : Nat :=
  (List.range p.seqs).foldl (fun m b =>
    let q := s.attnSeq e c b
    if q.len = 0 then m else max m (b * stride + (p.windowEnd q.len - 64 * p.klo) * p.nhkv * p.dh * sz)) 0

/-- Stride of the records of dK and dV per sequence. DESIGN CHOICE (log entry 50): R152 says of DKV_ACC only 'raw records for dK,
then dV'; the model takes dK's layout with 32 bytes an element, and puts those of dV after those of all sequences' dK. -/
def State.accStride (s : State) (e : Nat) (c : Cmd) : Nat := fld (s.bwW e c 4) 25 0 * 32 / (if c.outFmt = 8 then 32 else 4)

/-- The checks of ATTN (R113, R115, R141 to R145, R152, R153). DESIGN CHOICE (log entry 50): the spec names no element size for
the sequence table and STATS, whose alignment R113 asks; the model takes 4 bytes, their words. -/
def State.attnPlan (s : State) (e : Nat) (c : Cmd) (_ : List Word) : Plan :=
  let p := s.attnP e c
  let n := p.seqs * p.rows * p.hq
  let esz := if c.aFmt = 6 then 2 else 1
  let osz := fmtBits c.outFmt / 8
  let bwd := p.mode == 2
  let at_ (slot n len : Nat) : Rng := ⟨slot, (s.bwW e c n).toNat, (s.bwW e c n).toNat + len⟩
  let stg := rng c 7 p.stage
  let stride := fld (s.bwW e c 4) 25 0
  let dk := s.dkvBytes e c p stride osz
  { shape := [addrOk c 5 esz, (6, c.f 6 31 26 == 0 && c.f 6 1 0 == 0 && (List.range p.seqs).all (s.attnSqOk e c p))] ++
      (if c.aFmt = 4 then [addrOk c 7 4] else []) ++ [addrOk c 8 osz] ++ [addrOk c 9 4] ++
      (if p.biasEn then [addrOk c 10 2] else []) ++ (if p.maskEn then [addrOk c 11 2] else []) ++ [addrOk c 12 esz,
      (13, c.f 13 31 26 == 0 && c.f 13 5 0 == 0 && s.attnPOk e c p)] ++
      (if bwd then [(14, c.f 14 31 26 == 0 && c.f 14 5 0 == 0 && bwOk s e c)] else []),
    fmt := if bwd then c.aFmt == 6 && (c.outFmt == 7 || c.outFmt == 8)
      else (c.outFmt == 6 || c.outFmt == 7) && !c.accIn && (c.aFmt == 6 || (c.group == 1 && p.dh % 64 == 0)),
    terms := 0,
    reads := [rng c 0 (n * p.dh * esz), rng c 1 (32 * p.seqs)] ++ (if c.aFmt = 4 then [rng c 2 (4 * n * (p.dh / 64))] else []) ++
      (if bwd then [rng c 4 (8 * n)] else []) ++ (if p.biasEn then [rng c 5 (2 * p.nhq * p.nb)] else []) ++
      (if p.maskEn then [rng c 6 ((p.seqs * p.rows - 1) * p.mstr + 2 * 2 ^ (p.bucket + 7))] else []) ++ [stg, rng c 8 64] ++
      (if bwd then [rng c 9 64, at_ 9 0 (n * p.dh * 2), at_ 9 1 (n * p.dh * 2)] ++
        (if c.accIn then [at_ 9 5 (32 * n * p.dh), at_ 9 6 (p.seqs * s.accStride e c + s.dkvBytes e c p (s.accStride e c) 32)] else []) else []),
    writes := [rng c 3 (n * p.dh * osz)] ++ (if p.save then [rng c 4 (8 * n)] else []) ++ [stg] ++
      (if bwd then [at_ 9 2 dk, at_ 9 3 dk] else []),
    free := [(stg, stg)] }

/-! ### Scores (R147 to R149) -/

/-- The bucket of a distance (R148). -/
def AttnP.bucketOf (p : AttnP) (d : Int) : Nat :=
  let half := if p.signed then p.nb / 2 else p.nb
  let a := d.natAbs
  let b := if a < 2 ^ p.elog then a
    else
      let n := bitLen a - 1
      2 ^ p.elog + (n - p.elog) * 2 ^ p.slog + a / 2 ^ (n - p.slog) % 2 ^ p.slog
  let b := min b (half - 1)
  if p.signed ∧ d < 0 then b + half else b

/-- A score: its value, whether it poisons the row, the Granary that made it. -/
structure Score where
  s : Word
  bad : Bool
  g : Gran

/-- Query element d of row index n. -/
def State.qVal (s : State) (e : Nat) (c : Cmd) (dh n d : Nat) : Fv :=
  fpDecode (fpOf c.aFmt) (s.code e c.aFmt (c.w 5).toNat (n * dh + d))

def State.qScale (s : State) (e : Nat) (c : Cmd) (dh n g : Nat) : Word := s.spWord e ((c.w 7).toNat + 4 * (n * (dh / 64) + g))

/-- The Granary of q · k for row index n and slot t of the page at a (R147). -/
def State.qk (s : State) (e : Nat) (c : Cmd) (p : AttnP) (k : PageKind) (n j a t : Nat) : Gran :=
  let dh := p.dh
  if c.aFmt = 6 then
    ({} : Gran).addAll c.anchor ((List.range dh).map (fun d => prodTerm (s.qVal e c dh n d) (s.kVal k a j t d) 1 0))
  else
    (List.range (dh / 64)).foldl (fun g q => g.addAll c.anchor (groupTerms .fp8
      ((List.range 64).map (fun d => (s.qVal e c dh n (64 * q + d), s.kVal k a j t (64 * q + d)))) (s.qScale e c dh n q) (s.kScale a j))) {}

/-- The score of key position kp (R147 to R149) for row r of sequence b, head h. DEDUCED (log entry 50): the product of a removed
key raises nothing. -/
def State.score (s : State) (e : Nat) (c : Cmd) (p : AttnP) (k : PageKind) (q : Sq) (b r i : Nat) (a kp : Nat) : Score :=
  let n := (b * p.rows + r) * p.hq + i
  let h := p.hq0 + i
  let pos := q.qpos + r
  let g := s.qk e c p k n (p.kv h) a (kp % 64)
  let x := fmul (g.f32 c.anchor) (c.w 15)
  let d := toS 32 (ofS 32 ((pos : Int) - kp))
  let bias := if p.biasEn then bfWord (leNat (s.spRead e ((c.w 10).toNat + 2 * (h * p.nb + p.bucketOf d)) 2)) else 0
  let mask := if p.maskEn then bfWord (leNat (s.spRead e ((c.w 11).toNat + (b * p.rows + r) * p.mstr + 2 * kp) 2)) else 0
  let x := if p.biasEn then fadd x bias else x
  let x := if p.maskEn then fadd x mask else x
  let gone := (p.causal && decide (pos < kp)) || (p.maskEn && mask == 0xFF800000)
  let evil (w : Word) : Bool := isNaN w || w == 0x7F800000
  if gone then { s := f32Inf true, bad := false, g := {} }
  else { s := x, bad := (p.biasEn && evil bias) || (p.maskEn && evil mask) || isNaN x, g := g }

/-! ### Forward (R150) -/

/-- The running state of one row and head: maximum, sum, outputs, whether poisoned, ASTAT, whether a Granary saturated, whether
a scale entry was invalid. -/
structure Fwd where
  m : Word := 0xFF800000
  l : Word := 0
  o : List Word
  bad : Bool := false
  ast : Nat := 0
  ovf : Bool := false
  scale : Bool := false

/-- The sum of bf16(pr) × v for element d of a page (R150). -/
def State.pv (s : State) (c : Cmd) (k : PageKind) (a j d : Nat) (prs : List Word) : Gran :=
  let (mv, xv) := if k.fmt = 6 then (1, (0 : Int)) else entScale (s.vScale a j)
  ({} : Gran).addAll c.anchor (prs.zipIdx.map (fun x => prodTerm (fpDecode bf16 (bfRne x.1)) (s.vVal k a j x.2 d) mv xv))

/-- One visited page (R150). -/
def State.fwdPage (s : State) (e : Nat) (c : Cmd) (p : AttnP) (k : PageKind) (q : Sq) (b r i : Nat) (x : Fwd) (lp a : Nat) : Fwd :=
  let j := p.kv (p.hq0 + i)
  let sc := (List.range (min 64 (q.len - 64 * lp))).map (fun t => s.score e c p k q b r i a (64 * lp + t))
  let badScale := k.fmt != 6 && (entBad (s.kScale a j) || entBad (s.vScale a j))
  let st := sc.foldl (fun n y => n ||| y.g.astat c.anchor) x.ast
  let ovf := x.ovf || sc.any (fun y => y.g.ovf)
  let x : Fwd := { x with bad := x.bad || sc.any (fun y => y.bad), ast := st, ovf := ovf, scale := x.scale || badScale }
  let bm := sc.foldl (fun m y => fmax m y.s) (f32Inf true)
  if bm = f32Inf true then x
  else
    let mn := fmax x.m bm
    let al := fexp (fsub x.m mn)
    let prs := sc.map (fun y => fexp (fsub y.s mn))
    let gs := (List.range p.dh).map (fun d => s.pv c k a j d prs)
    { x with
      l := fadd (fmul x.l al) (fsum prs)
      o := (x.o.zip gs).map (fun y => fadd (fmul y.1 al) (y.2.f32 c.anchor))
      m := mn
      ast := gs.foldl (fun n g => n ||| g.astat c.anchor) x.ast
      ovf := x.ovf || gs.any (fun g => g.ovf) }

/-- The elements and statistics of one row and head (R149, R150). -/
def fwdEnd (c : Cmd) (x : Fwd) : List Elem × Word × Word :=
  let fs := (if x.scale then [0x0106] else []) ++ (if x.ovf then [0x0102] else [])
  if x.bad then (x.o.map (fun _ => { nanStore c.outFmt with astat := 4 ||| x.ast, faults := fs }), f32NaN, f32NaN)
  else if x.m = f32Inf true then (x.o.map (fun _ => { code := 0, astat := 0, faults := [] }), f32Inf true, f32Inf true)
  else
    let rc := frecip x.l
    (x.o.map (fun o => let y := f32Store c.outFmt 0 (fmul o rc); { y with astat := y.astat ||| x.ast, faults := fs }), x.m, fadd x.m (flog x.l))

/-! ### Retrieval (R163, R164) -/

/-- The summary score of a page. -/
def State.sumScore (s : State) (e : Nat) (c : Cmd) (p : AttnP) (k : PageKind) (n j a : Nat) : Gran :=
  ({} : Gran).addAll c.anchor ((List.range p.dh).map (fun d =>
    let (m, x) := if c.aFmt = 6 then (1, (0 : Int)) else entScale (s.qScale e c p.dh n (d / 64))
    prodTerm (s.qVal e c p.dh n d) (s.sumVal k a j d) m x))

/-- Whether the score of page y goes before that of page x (R163). -/
def beats (y x : Nat × Word) : Bool :=
  if isNaN x.2 then !isNaN y.2 || decide (y.1 < x.1)
  else if isNaN y.2 then false
  else if flt x.2 y.2 then true else if flt y.2 x.2 then false else decide (y.1 < x.1)

/-- What a row and head reads: the pages it visits, the pages it scores, the Granaries of the scores. -/
structure Reach where
  visit : List (Nat × Nat)
  scored : List (Nat × Nat) := []
  gs : List Gran := []

/-- What a row and head reads in mode 1 (R163). -/
def State.visited (s : State) (e : Nat) (c : Cmd) (p : AttnP) (k : PageKind) (q : Sq) (b r i : Nat) (pages : List (Nat × Nat)) : Reach :=
  let n := (b * p.rows + r) * p.hq + i
  let pos := q.qpos + r
  let last := (if p.causal then min pos (q.len - 1) else q.len - 1) / 64
  let ps := pages.filter (fun x => decide (x.1 ≤ last))
  if last + 1 ≤ p.psel then { visit := ps }
  else
    let forced (lp : Nat) : Bool := decide (lp < p.nsink) || decide (last < lp + p.nrecent)
    let cands := ps.filter (fun x => !forced x.1)
    let gs := cands.map (fun x => s.sumScore e c p k n (p.kv (p.hq0 + i)) x.2)
    let scs := (cands.zip gs).map (fun x => (x.1.1, x.2.f32 c.anchor))
    let chosen := scs.filter (fun x => decide ((scs.filter (fun y => beats y x)).length < p.psel - p.nsink - p.nrecent))
    { visit := ps.filter (fun x => forced x.1 || chosen.any (fun y => y.1 == x.1)), scored := cands, gs := gs }

/-- What a row and head reads in the command's mode. -/
def State.reach (s : State) (e : Nat) (c : Cmd) (p : AttnP) (k : PageKind) (q : Sq) (b r i : Nat) (pages : List (Nat × Nat)) : Reach :=
  if p.mode = 1 then s.visited e c p k q b r i pages else { visit := pages }

/-! ### The walk of a command -/

/-- The logical pages a sequence's command reads: the window in mode 2, up to the last page any row sees in mode 1. -/
def AttnP.pagesOf (p : AttnP) (q : Sq) : List Nat :=
  match p.mode with
  | 0 => List.range ((q.len - 1) / 64 + 1)
  | 1 => List.range ((if p.causal then min (q.qpos + (p.rows - 1)) (q.len - 1) else q.len - 1) / 64 + 1)
  | _ => p.windowPages q.len

/-- Walk every present sequence: its pages, or the sequence and its failure. -/
def State.walkAll (s : State) (e : Nat) (c : Cmd) (p : AttnP) (k : PageKind) (hw : HwFault) :
    List Nat → State × ((Nat × WalkErr) ⊕ List (Nat × List (Nat × Nat)))
  | [] => (s, .inr [])
  | b :: r =>
    let q := s.attnSeq e c b
    if q.len = 0 then s.walkAll e c p k hw r else
    match s.walkPages e k q.pt q.tag hw (p.pagesOf q) with
    | (s, .inl x) => (s, .inl (b, x))
    | (s, .inr l) => match s.walkAll e c p k hw r with
      | (s, .inl x) => (s, .inl x)
      | (s, .inr m) => (s, .inr ((b, l) :: m))

/-- The rows and heads of a sequence. -/
def AttnP.rowHeads (p : AttnP) : List (Nat × Nat) :=
  (List.range p.rows).flatMap (fun r => (List.range p.hq).map (fun i => (r, i)))

/-- The parts of a visited page that the command reads: the scale entries and the blocks of its KV heads (R155, R159). -/
def AttnP.slices (p : AttnP) (k : PageKind) (a : Nat) : List (Nat × Nat) :=
  let lo := p.kv p.hq0
  let n := p.kv (p.hq0 + (p.hq - 1)) - lo + 1
  let blk := 128 * k.dh * k.esz
  (if k.fmt = 6 then [] else [(a + 64 + 8 * lo, 8 * n)]) ++ [(a + k.headOff + lo * blk, n * blk)]

/-- Read one page for the rows and heads that reach it: HOSTEL_UE, TOKENS of a visited page, SEALED of a scored one (R156, R162,
R164). `rs` are the sequence's query heads with what each reads. -/
def State.readPage (s : State) (p : AttnP) (k : PageKind) (hw : HwFault) (len : Nat) (rs : List (Nat × Reach)) (x : Nat × Nat) :
    State × Option WalkErr :=
  let visit := rs.any (fun y => y.2.visit.contains x)
  let scorer := rs.find? (fun y => y.2.scored.contains x)
  match s.walkRead k.tenant x.2 x.1 hw ((if visit then p.slices k x.2 else []) ++
      (if scorer.isSome then [(x.2 + k.sumOff, k.headOff - k.sumOff)] else [])) with
  | (s, some r) => (s, some r)
  | (s, none) =>
    (s, if visit && s.tokensBad x.2 (min 63 (len - 1 - 64 * x.1)) then some (.fault 0x0502 3 x.2 x.1)
      else match scorer with
        | some y => if s.sealed x.2 then none else some (.fault 0x0504 y.1 x.2 x.1)
        | none => none)

/-- Read the pages of a sequence in order, up to the first failure. -/
def State.readPages (s : State) (p : AttnP) (k : PageKind) (hw : HwFault) (len : Nat) (rs : List (Nat × Reach)) :
    List (Nat × Nat) → State × Option WalkErr
  | [] => (s, none)
  | x :: l => match s.readPage p k hw len rs x with
    | (s, some r) => (s, some r)
    | (s, none) => s.readPages p k hw len rs l

/-- Read the pages of every sequence in order, up to the first failure and its sequence. -/
def State.readAll (s : State) (e : Nat) (c : Cmd) (p : AttnP) (k : PageKind) (hw : HwFault) :
    List (Nat × List (Nat × Nat)) → State × Option (Nat × WalkErr)
  | [] => (s, none)
  | x :: l =>
    let q := s.attnSeq e c x.1
    match s.readPages p k hw q.len (p.rowHeads.map (fun y => (p.hq0 + y.2, s.reach e c p k q x.1 y.1 y.2 x.2))) x.2 with
    | (s, some r) => (s, some (x.1, r))
    | (s, none) => s.readAll e c p k hw l

/-- The staging area is dead after the command (R159): its bytes are free. -/
def State.deadStage (s : State) (e : Nat) (c : Cmd) (p : AttnP) : State :=
  let n := s.fresh
  (s.spWrite e (c.w 12).toNat ((List.range p.stage).map (fun i => (Config.freeWord (n + i)).setWidth 8))).takeMany p.stage

/-- The scale entries of the queries are valid (R45, R146). -/
def State.qScaleBad (s : State) (e : Nat) (c : Cmd) (p : AttnP) (b : Nat) : Bool :=
  c.aFmt == 4 && (List.range (p.rows * p.hq * (p.dh / 64))).any (fun i =>
    entBad (s.spWord e ((c.w 7).toNat + 4 * (b * p.rows * p.hq * (p.dh / 64) + i))))

/-- One row and head of a forward mode: its elements, its statistics, its further faults. -/
def State.fwdRow (s : State) (e : Nat) (c : Cmd) (p : AttnP) (k : PageKind) (q : Sq) (b r i : Nat) (pages : List (Nat × Nat)) :
    List Elem × Word × Word × List (Nat × Option Nat) × Nat :=
  let y := s.reach e c p k q b r i pages
  let x := y.visit.foldl (fun x y => s.fwdPage e c p k q b r i x y.1 y.2) { o := List.replicate p.dh 0 }
  let (els, m, l) := fwdEnd c x
  (els, m, l, if y.gs.any (·.ovf) then [(0x0102, none)] else [], y.gs.foldl (fun a g => a ||| g.astat c.anchor) 0)

/-- The forward modes (R150, R163). -/
def State.fwdAll (s : State) (e : Nat) (c : Cmd) (p : AttnP) (k : PageKind) (seqs : List (Nat × List (Nat × Nat))) : Result :=
  let rows := seqs.flatMap (fun x => p.rowHeads.map (fun rh =>
    ((x.1 * p.rows + rh.1) * p.hq + rh.2, s.fwdRow e c p k (s.attnSeq e c x.1) x.1 rh.1 rh.2 x.2)))
  let out := rows.foldl (fun t x =>
    let t := t.putCodes e c.outFmt ((c.w 8).toNat + x.1 * p.dh * (fmtBits c.outFmt / 8)) (x.2.1.map (·.code))
    if p.save then t.spWrite e ((c.w 9).toNat + 8 * x.1) (natLe 4 x.2.2.1.toNat ++ natLe 4 x.2.2.2.1.toNat) else t) s
  { out := out.deadStage e c p, astat := rows.foldl (fun a x => a ||| astatOf x.2.1 ||| x.2.2.2.2.2) 0,
    faults := (if seqs.any (fun x => s.qScaleBad e c p x.1) then [(0x0106, none)] else []) ++
      rows.flatMap (fun x => arith (faultsOf (x.2.1.take 1)) ++ x.2.2.2.2.1) }

/-! ### Backward (R152, R153) -/

/-- One key of one row and head: its position, slot page address, bf16(p) and ds. -/
structure BwKey where
  kp : Nat
  page : Nat
  pb : Fv
  ds : Fv

/-- The keys of one row and head in the window, with ASTAT and whether a Granary saturated. -/
def State.bwRow (s : State) (e : Nat) (c : Cmd) (p : AttnP) (k : PageKind) (q : Sq) (b r i : Nat) (pages : List (Nat × Nat)) :
    List BwKey × Nat × Bool :=
  let n := (b * p.rows + r) * p.hq + i
  let dh := p.dh
  let j := p.kv (p.hq0 + i)
  let doA := (s.bwW e c 0).toNat + n * dh * 2
  let ofA := (s.bwW e c 1).toNat + n * dh * 2
  let dsum := fsum ((List.range dh).map (fun d => fmul (bfWord (s.code e 6 doA d)) (bfWord (s.code e 6 ofA d))))
  let lse := s.spWord e ((c.w 9).toNat + 8 * n + 4)
  let ks := pages.flatMap (fun x => (List.range (min 64 (q.len - 64 * x.1))).map (fun t => (64 * x.1 + t, x.2)))
  let one (y : Nat × Nat) : BwKey × Gran × Gran :=
    let sc := s.score e c p k q b r i y.2 y.1
    let sv := if sc.bad then f32NaN else sc.s
    let pr := if lse = f32Inf true then 0 else fexp (fsub sv lse)
    let g := ({} : Gran).addAll c.anchor ((List.range dh).map (fun d => prodTerm (fpDecode bf16 (s.code e 6 doA d)) (s.vVal k y.2 j (y.1 % 64) d) 1 0))
    let ds := fmul (fmul (c.w 15) pr) (fsub (g.f32 c.anchor) dsum)
    (⟨y.1, y.2, fpDecode bf16 (bfRne pr), fpDecode bf16 (bfRne ds)⟩, sc.g, g)
  let l := ks.map one
  (l.map (·.1), l.foldl (fun a x => a ||| x.2.1.astat c.anchor ||| x.2.2.astat c.anchor) 0, l.any (fun x => x.2.1.ovf || x.2.2.ovf))

/-- Store a Granary that may have started from a record, with its faults. -/
def bwStore (c : Cmd) (start : Gran × List Nat) (ts : List Term) : Elem :=
  if !start.2.isEmpty then { code := 0, faults := start.2 } else
  let g := start.1.addAll c.anchor ts
  let y := g.out c.anchor c.outFmt 0
  if g.ovf then { y with faults := [0x0102] } else y

/-- The backward mode (R153). -/
def State.bwAll (s : State) (e : Nat) (c : Cmd) (p : AttnP) (k : PageKind) (seqs : List (Nat × List (Nat × Nat))) : Result :=
  let dh := p.dh
  let sz := fmtBits c.outFmt / 8
  let stride := fld (s.bwW e c 4) 25 0
  let acc := s.accStride e c
  let stats := seqs.flatMap (fun x => p.rowHeads.filterMap (fun rh =>
    let a := (c.w 9).toNat + 8 * ((x.1 * p.rows + rh.1) * p.hq + rh.2)
    let bad (w : Word) : Bool := isNaN w || w == 0x7F800000
    if bad (s.spWord e a) || bad (s.spWord e (a + 4)) then some (0x0506, some (x.1 * 2 ^ 24 + (p.hq0 + rh.2) * 2 ^ 16 + c.seqLow)) else none))
  if !stats.isEmpty then { out := s, faults := stats } else
  let rows := seqs.map (fun x => (x.1, x.2, p.rowHeads.map (fun rh => (rh.1, rh.2, s.bwRow e c p k (s.attnSeq e c x.1) x.1 rh.1 rh.2 x.2))))
  -- dQ: one Granary per row, head and element, ovf the keys
  let dq := rows.flatMap (fun x => x.2.2.flatMap (fun y =>
    let n := (x.1 * p.rows + y.1) * p.hq + y.2.1
    let j := p.kv (p.hq0 + y.2.1)
    (List.range dh).map (fun d =>
      ((c.w 8).toNat + (n * dh + d) * sz,
       (if c.accIn then granLoad c.anchor y.2.2.1.length (s.code e 8 (s.bwW e c 5).toNat (n * dh + d)) else ({}, [])),
       y.2.2.1.map (fun z => prodTerm z.ds (s.kVal k z.page j (z.kp % 64) d) 1 0)))))
  -- dK and dV: one Granary per key, KV head and element, ovf rows and heads
  let dkv := rows.flatMap (fun x =>
    let q := s.attnSeq e c x.1
    let keys := x.2.1.flatMap (fun y => (List.range (min 64 (q.len - 64 * y.1))).map (fun t => 64 * y.1 + t))
    let js := (List.range p.nhkv).filter (fun j => (List.range p.hq).any (fun i => p.kv (p.hq0 + i) == j))
    keys.flatMap (fun kp => js.flatMap (fun j =>
      let mine := x.2.2.filterMap (fun y => if p.kv (p.hq0 + y.2.1) = j then
        (y.2.2.1.find? (fun z => z.kp == kp)).map (fun z => ((x.1 * p.rows + y.1) * p.hq + y.2.1, z)) else none)
      (List.range dh).flatMap (fun d =>
        let o := ((kp - 64 * p.klo) * p.nhkv + j) * dh + d
        let st (base : Nat) : Gran × List Nat :=
          if c.accIn then granLoad c.anchor mine.length (s.code e 8 (base + x.1 * acc) o) else ({}, [])
        let ra := (s.bwW e c 6).toNat
        [((s.bwW e c 2).toNat + x.1 * stride + o * sz, st ra,
          mine.map (fun z => prodTerm z.2.ds (s.qVal e c dh z.1 d) 1 0)),
         ((s.bwW e c 3).toNat + x.1 * stride + o * sz, st (ra + p.seqs * acc),
          mine.map (fun z => prodTerm z.2.pb (fpDecode bf16 (s.code e 6 (s.bwW e c 0).toNat (z.1 * dh + d))) 1 0))]))))
  let els := (dq ++ dkv).map (fun x => (x.1, bwStore c x.2.1 x.2.2))
  let out := els.foldl (fun t x => t.putCodes e c.outFmt x.1 [x.2.code]) s
  { out := out.deadStage e c p,
    astat := rows.foldl (fun a x => x.2.2.foldl (fun a y => a ||| y.2.2.2.1) a) (astatOf (els.map (·.2))),
    faults := arith ((if rows.any (fun x => x.2.2.any (fun y => y.2.2.2.2)) then [0x0102] else []) ++ faultsOf (els.map (·.2))) }

/-! ### The command -/

/-- A failed walk: the fault with its FAULT_INFO, held in the Hostel page (R166, R167); or the region entry in conflict. -/
def State.walkFailed (s : State) (e : Nat) (c : Cmd) (b : Nat) : WalkErr → Result
  | .conflict x => { out := s, conflict := some x }
  | .fault code sub addr lp =>
    { out := s.hostelNote e addr b lp, faults := [(code, some (b * 2 ^ 24 + sub * 2 ^ 16 + c.seqLow))] }

/-- ATTN: Hostel walks the pages of every present sequence, then reads them as the rows reach them, then the mode computes
(R150, R153, R163). -/
def State.attnBody (s : State) (e : Nat) (hw : HwFault) (c : Cmd) (_ : List Word) : Result :=
  let p := s.attnP e c
  let k : PageKind := ⟨c.owner, c.wFmt, p.nhkv, p.dhb⟩
  match s.walkAll e c p k hw (List.range p.seqs) with
  | (t, .inl (b, x)) => t.walkFailed e c b x
  | (t, .inr seqs) => match t.readAll e c p k hw seqs with
    | (t, some (b, x)) => t.walkFailed e c b x
    | (t, none) => if p.mode = 2 then t.bwAll e c p k seqs else t.fwdAll e c p k seqs

/-- The mode an ATTN command asks for. -/
def State.attnMode (s : State) (e : Nat) (c : Cmd) : Nat := fld (s.apW e c 0) 31 30

/-- ATTN forward, dense (R150). A mode that does not exist is refused here (R142). -/
def execAttnForwardDense (e : Fin 6) (hw : HwFault) (s : State) : Host.Outcome State Fault Refusal :=
  .next (s.command e.val hw (fun c => c.op == 3 && s.attnMode e.val c != 1 && s.attnMode e.val c != 2) (s.attnPlan e.val) (s.attnBody e.val hw))

/-- ATTN forward, retrieval (R163). -/
def execAttnForwardRetrieval (e : Fin 6) (hw : HwFault) (s : State) : Host.Outcome State Fault Refusal :=
  .next (s.command e.val hw (fun c => c.op == 3 && s.attnMode e.val c == 1) (s.attnPlan e.val) (s.attnBody e.val hw))

/-- ATTN backward (R153). -/
def execAttnBackward (e : Fin 6) (hw : HwFault) (s : State) : Host.Outcome State Fault Refusal :=
  .next (s.command e.val hw (fun c => c.op == 3 && s.attnMode e.val c == 2) (s.attnPlan e.val) (s.attnBody e.val hw))

end Sys2Proof.Machine
end

