-- ==== Sys2Proof/Machine/Fence.lean ====
section
/-!
DEFINITION. Fences and reclaim (R33, R437 to R440), the reset of a unit and of an engine (R90, R92, R452, R472), and the
tensor-side shutdown (R420).
-/
namespace Sys2Proof.Machine

/-- The pages of an instance: first page, pages per instance. -/
def instPages (page : Nat) : Option (Nat × Nat × PageId) :=
  match pageId page with
  | none => none
  | some i => match pageRows.find? (fun r => r.block == i.block) with
    | none => none
    | some r => some (r.page + r.per * i.inst, r.per, i)

/-- Registers of an instance other than the common header and the persistent ones go to their reset values. -/
def State.resetBody (s : State) (page per : Nat) : State :=
  s.resetRegs (fun a => decide (page ≤ a / 4096 ∧ a / 4096 < page + per) && decide (0x40 ≤ a % 4096) &&
    (match rwpWord a with | none => true | some _ => false))

/-- BLK_STAT STATE and FENCE of a page (R453). -/
def State.setBlk (s : State) (page st : Nat) : State := s.pf (rga page oStat) 2 0 st
def State.blk (s : State) (page : Nat) : Nat := s.rf (rga page oStat) 2 0

/-- The repairs of engine e that its registers ask for, in ascending entry order (R92). -/
def State.repairList (s : State) (e : Nat) : List (Nat × Nat) :=
  (List.range 128).filterMap (fun i =>
    let r := s.rd (rga (engPage e + 4) (0x40 + 4 * i))
    if tbit r 31 then some (fld r 22 16, fld r 9 0) else none)

/-- Drop the waits registered on engine e, and its barriers' state (R226). -/
def State.dropTree (s : State) (e : Nat) : State :=
  let s := (List.range 32).foldl (fun s q => s.dropWaitOn e q) s
  { s with bars := mapDrop s.bars (fun k => decide (256 + 64 * e ≤ k ∧ k < 256 + 64 * e + 64)) }

/-- Engine reset (R90, R92, R472): registers, scratchpad, TLB, recipe cache, tree barriers; repairs take effect. -/
def State.engineReset (s : State) (e : Nat) : State :=
  let s := (s.dropTree e).resetBody (engPage e) 16
  let s := s.setEngine e { (default : Engine) with clearing := [8], repaired := s.repairList e }
  s.spZero e 0 spadSize

/-- The tenants whose packets a Faleg port holds. -/
def State.portTenants (s : State) (p : Nat) : List Nat :=
  let x := s.port p
  let ks : List Packet := x.tx.map (·.pkt) ++ x.rx.flatMap (fun (v : Nat × List RxPkt) => v.2.filterMap (fun r => packetOf r.flits))
  (ks.filter (fun k => !isProxyOp k.op)).map (·.tenant)

/-- Tenants with work outstanding at a unit (R437). -/
def State.workAt (s : State) (i : PageId) : List Nat :=
  let own (o : Option Cmd) : List Nat := match o with | some c => [c.owner] | none => []
  let ownR (o : Option Run) : List Nat := match o with | some r => [r.cmd.owner] | none => []
  let l := match i.block with
    | .sheaf | .hostel => own (s.engine i.inst).sel ++ ownR (s.engine i.inst).run
    | .porter => own (s.porter i.inst).sel ++ ownR (s.porter i.inst).run
    | .hbmc => List.range 8
    | .innkeeper => (List.range 32).filterMap (fun q =>
        let x := s.queue q
        if x.fetched.isEmpty && x.flight.isEmpty && x.fence.isNone then none else some (q / 4))
    | .tally => s.arrQ.filterMap (fun (a : Arrival) => a.tenant) ++ (List.range 32).filterMap (fun q => if (s.queue q).wait.isSome then some (q / 4) else none)
    | .faleg => s.portTenants i.inst
    | .thresher => s.sourceTenant i.inst
    | .caravan => (List.range 80).flatMap (fun v => s.sourceTenant (16 + v))
    | .glean => (match s.perc.glean with | some w => (w.getLast?.map (fun (x : Word) => x.toNat)).toList | none => [])
    | .eth => s.ethTenants i.inst
    | _ => []
  (List.range 8).filter (fun t => l.contains t && !s.tnFree t)

/-- The barrier a key of the table names. -/
def barOf (k : Nat) : BarId :=
  if k < 256 then .central (Fin.ofNat 256 k) else .tree (Fin.ofNat 6 ((k - 256) / 64)) (Fin.ofNat 64 ((k - 256) % 64))

/-- Whether a unit has a registered wait on the open generation of a barrier or on a pipe (R225): an engine those of the queues bound
to it, Innkeeper every one, since it holds them all (DEDUCED, log 28). -/
def State.unitWaits (s : State) (page : Nat) (b : BarId) : Bool :=
  (queuesWaiting s (fun w => waitsGen b (s.bar b).gen w || waitsPipe b w)).any (fun q => page == 0x10 || engPage (s.qEngine q) == page)

/-- The barriers with a counted arrival or a registered wait of the unit. -/
def State.unitBars (s : State) (page : Nat) : List Nat :=
  (List.range 640).filter (fun k =>
    let b := barOf k
    s.bValid b && ((s.bar b).units.contains page || s.unitWaits page b))

/-- A fence releases them FENCED, and a pipe ends its waits so (R225): all at once, then their owners' jobs take the faults. The
unit's own arrivals that are not counted yet are discarded: the fence wins (R219). The PARTICIPANT and the CMDSEQ bits of the
reports are free values (log 28). -/
def State.fenceBarriers (s : State) (page : Nat) : State :=
  let l := (s.unitBars page).map barOf
  let s := { s with arrQ := s.arrQ.filter (fun a => a.unit != page) }
  let s := l.foldl (fun s b => if s.bMode b = 2 then s.endPipe b 3 else s.endGen b 3) s
  l.foldl (fun s b =>
    let (k, s) := s.take
    let part := (Config.freeWord k).toNat
    s.tallyFault b (statusCode 3) part (part / 4096) (s.bOwner b)) s

/-- The unit's scratchpad grants are revoked (R437 step 5). -/
def State.revoke (s : State) (i : PageId) : State :=
  match i.block with
  | .sheaf => (List.range 8).foldl (fun s t => s.wr (partReg i.inst t) 0) s
  | _ => s

/-- The reset of a unit (R437 step 6, R472). Innkeeper's keeps the tenants. -/
def State.unitReset (s : State) (page per : Nat) (i : PageId) : State :=
  match i.block with
  | .sheaf => s.engineReset i.inst
  | .porter => (s.setPorter i.inst default).resetBody page per
  | .hostel => (s.setEngine i.inst { s.engine i.inst with tlb := [] }).resetBody page per
  | .faleg => s.portTrain i.inst
  | .tally => ({ s with bars := [], arrQ := [] } : State).resetBody page per
  | .eth => ({ s with eth := mapSet dflt s.eth i.inst default } : State).resetBody page per
  | .thresher =>
    ({ s with perc := { s.perc with ths := mapSet dflt s.perc.ths i.inst default, samples := mapDrop s.perc.samples (· == i.inst) } } : State).resetBody page per
  | .caravan =>
    ({ s with perc := { s.perc with
      streams := []
      samples := mapDrop s.perc.samples (fun k => decide (16 ≤ k)) } } : State).resetBody page per
  | .innkeeper => s.resetBody page 1
  | .glean => ({ s with perc := { s.perc with glean := none } } : State).resetBody page per
  | _ => s.resetBody page per

/-- The fence count of the unit rises, as a Ledger write (R431). -/
def State.countFence (s : State) (i : PageId) : State :=
  match i.src with
  | none => s
  | some src =>
    let w := 0x80 + src / 2
    let v := s.ledRead w
    let (hi, lo) := if src % 2 = 0 then (15, 0) else (31, 16)
    s.ledgerPush w (setFld v hi lo (satInc (fld v hi lo) 0xFFFF))

/-- Fence of a unit for a cause (R437, R438): `code` is what its jobs take; `must` keeps it FENCED. The third fence within
1 s does so too. A unit that is OFF stays so. -/
def State.unitFence (s : State) (page code : Nat) (must : Bool) : State :=
  match instPages page with
  | none => s
  | some (p, per, i) =>
    let i := { i with sub := 0, src := (pageId p).bind (·.src) }
    let off := s.blk p == 0
    let f : Fence := mapGet dflt s.ost.fences p
    let t := s.clock.tick
    let times := (t :: f.times).filter (fun u => decide (t - u < 1000000000))
    let s := { s with ost := { s.ost with fences := mapSet dflt s.ost.fences p ⟨times.take 3, must || f.sticky || decide (3 ≤ times.length), true⟩ } }
    let s := s.countFence i
    let s := (s.wb (rga p oStat) 9 true).setBlk p 4
    let jobs := s.workAt i
    let s := { s with field := { s.field with reqs := if i.block = Block.porter then s.field.reqs.filter (fun r => r.pd != i.inst) else s.field.reqs } }
    let s := (s.fenceBarriers p).revoke i
    let s := jobs.foldl (fun s t => s.abortJob t code) s
    (s.unitReset p per i).setBlk p (if off then 0 else 1)

/-- FENCE_LIFT (R438): after step 6 the unit becomes READY, unless it stays FENCED. A unit whose rail is off stays OFF (R420). -/
def State.liftFence (s : State) (p : Nat) (always : Bool) : State :=
  let f : Fence := mapGet dflt s.ost.fences p
  if !f.active || s.blk p == 0 then s
  else if f.sticky && !always then s.setBlk p 4
  else
    let s := { s with ost := { s.ost with fences := mapSet dflt s.ost.fences p { f with sticky := false, active := false } } }
    ((s.wb (rga p oStat) 9 false).setBlk p 2).kick

def execFenceLift (page : Nat) (s : State) : Host.Outcome State Fault Refusal :=
  match instPages page with
  | some (p, _, _) => .next (s.liftFence p false)
  | none => .next s

/-- FAULT_INFO of the two fence faults (R440). -/
def fenceInfo (i : PageId) (low : Nat) : Nat := i.inst * 2 ^ 24 + i.block.code % 256 * 2 ^ 16 + low

/-- A fence with a job fault of R440: recorded on the unit's page 0 and logged. -/
def State.faultFence (s : State) (page code low : Nat) : State :=
  match instPages page with
  | none => s
  | some (p, _, i) =>
    if !i.block.tensorSide then s else
    let info := fenceInfo i low
    ((s.recordFault p code info).logEvent p code 0 info 255).unitFence p code false

/-- DRAIN_STALL (R33): an item of class 0 or 1 does not advance. -/
def execDrainStall (page : Nat) (cls : Fin 2) (s : State) : Host.Outcome State Fault Refusal :=
  .next (s.faultFence page 0x0E01 cls.val)

/-- Whether Innkeeper holds work dispatched to a unit. -/
def State.holdsWork (s : State) (i : PageId) : Bool :=
  match i.block with
  | .sheaf => (s.engine i.inst).run.isSome || (s.engine i.inst).sel.isSome
  | .porter => (s.porter i.inst).run.isSome || (s.porter i.inst).sel.isSome
  | _ => false

/-- STATE_COMPARE (R439): the views of Ostler and Innkeeper of one unit at a strobe. `clockOff` is Ostler's clock view,
`running` whether the unit reports RUNNING. The second disagreement in a row fences the unit. -/
def execStateCompare (page : Nat) (clockOff running : Bool) (s : State) : Host.Outcome State Fault Refusal :=
  match instPages page with
  | none => .next s
  | some (p, _, i) =>
    if !i.block.tensorSide then .next s else
    let st := s.blk p
    let work := s.holdsWork i
    let inn := if work || running then 3 else 2
    let bad := (work && (st == 0 || st == 1 || st == 4)) || (running && clockOff) || st == 5
    let was : Bool := mapGet (fun _ => false) s.ost.mismatch p
    let s := { s with ost := { s.ost with mismatch := mapSet (fun _ => false) s.ost.mismatch p (bad && !was) } }
    if bad && was then .next (s.faultFence p 0x0E02 (st * 8 + inn)) else .next s

/-- Every unit of the tensor, fabric, memory and SerDes domains: its first page (R420). -/
def tensorUnits : List Nat :=
  pageRows.flatMap (fun r => if r.block.tensorSide then (List.range r.count).map (fun k => r.page + r.per * k) else [])

/-- Ostler sends a PMBus command to regulator k, if RG_CFG lists it (R419). -/
def State.pmSend (s : State) (k code data : Nat) : State :=
  if s.rb (rga 6 (0x80 + 4 * k)) 31 then { s with ost := { s.ost with pmbus := s.ost.pmbus ++ [⟨k, code, data⟩] } } else s

/-- Send a command to each listed regulator of a rail (R443). -/
def State.pmRail (s : State) (rail code data : Nat) : State :=
  ((List.range 8).filter (fun k => s.rf (rga 6 (0x80 + 4 * k)) 3 0 == rail)).foldl (fun s k => s.pmSend k code data) s

/-- The tensor-side shutdown (R420): units fenced, jobs aborted, the rails of the core, the HBM and the SerDes switched off with OPERATION (R419), the
cause logged. -/
def State.tensorShutdown (s : State) (cause : Nat) : State :=
  if s.tensorOff then s else
  let code := Config.eventCode evShutdown
  let s := tensorUnits.foldl (fun s p => s.unitFence p code true) s
  let s := s.abortAll code
  let s := [0, 3, 4, 5, 6].foldl (fun s r => s.pmRail r 0x01 0) s
  let s := tensorUnits.foldl (fun s p => s.setBlk p 0) s
  let s := (s.wb aReady 29 true).raise 0 3
  (s.raise 7 4).logNamed 1 evShutdown 3 cause 255

end Sys2Proof.Machine
end

