-- ==== Sys2Proof/Machine/Fft.lean ====
section
/-!
DEFINITION. The Fourier transforms of frequency mode (R126). The spec fixes neither the order of the operations nor the constants
of the FP32 butterflies, so each result is free, but near the exact transform: within the error that FP32 butterflies of that depth
can make (DEDUCED, log 11).
-/
namespace Sys2Proof.Machine

/-- 2π in units of 2^-96. -/
def twoPi96 : Nat := 497805226624462170461043889244

/-- The series of the cosine, in units of 2^-96: k terms from the term t of degree n, the square of the angle being x2. -/
def cosSeries : Nat → Nat → Int → Int → Int
  | 0, _, _, _ => 0
  | k + 1, n, x2, t => t + cosSeries k (n + 2) x2 (-(t * x2 / 2 ^ 96) / (((n + 1) * (n + 2) : Nat) : Int))

/-- The cosine and the sine of the angle k / n of a turn, in units of 2^-64. -/
def cosTurn (k n : Nat) : Int :=
  let x : Int := ((twoPi96 * (k % n) / n : Nat) : Int)
  cosSeries 40 0 (x * x / 2 ^ 96) (2 ^ 96) / 2 ^ 32
def sinTurn (k n : Nat) : Int := cosTurn (4 * k + 3 * n) (4 * n)

/-- A finite FP32 value in units of 2^-149. -/
def fixOf (w : Word) : Int :=
  match f32Dec w with
  | .fin n m e => let v : Int := ((m <<< (e + 149).toNat : Nat) : Int); if n then -v else v
  | _ => 0

/-- A result whose exact value is x / 2^s in units of 2^-149: the free word where it lies within the bound, else the exact value
rounded. Beyond the range of FP32 it is free. -/
def nearWord (x : Int) (s : Nat) (bound : Int) (free : Word) : Word :=
  if (2 : Int) ^ (276 + s) ≤ x.natAbs + bound then free
  else if isFinite free && decide (((fixOf free * 2 ^ s - x).natAbs : Int) ≤ bound) then free
  else f32OfI x (-149 - (s : Int))

/-- The error of a transform of depth 2 × lg whose inputs sum to `mag`: a multiple of lg × 2^-18 of the sum. -/
def fftBound (lg s : Nat) (mag : Int) : Int := mag * (lg : Int) * 2 ^ s / 2 ^ 18 + 2 ^ (2 * lg + s)

def sumInt (l : List Int) : Int := l.foldl (· + ·) 0

/-- Forward (R126): of a tile of F × F samples, F = 2^lg, the F × (F ÷ 2 + 1) bins, rows outer. -/
def forwardFft (lg : Nat) (tile : List Word) : List (Word × Word) :=
  let n := 2 ^ lg
  let free := Config.forwardFft lg tile
  let ok := tile.all isFinite
  let xs := tile.map fixOf
  let bound := fftBound lg 64 (sumInt (xs.map (fun x => (x.natAbs : Int))))
  (List.range (n * (n / 2 + 1))).map (fun b =>
    let g := free.getD b (0, 0)
    if !ok then g else
    let u := b / (n / 2 + 1)
    let v := b % (n / 2 + 1)
    let turn (i : Nat) : Nat := u * (i / n) + v * (i % n)
    let re := sumInt (xs.zipIdx.map (fun x => x.1 * cosTurn (turn x.2) n))
    let im := sumInt (xs.zipIdx.map (fun x => -(x.1 * sinTurn (turn x.2) n)))
    (nearWord re 64 bound g.1, nearWord im 64 bound g.2))

/-- Inverse (R126): of the bins of a tile, the (F − KH + 1) × (F − KW + 1) outputs, rows outer. The spec does not say which samples of
the transform they are, since the filter's spectrum decides it: the first ones or the last ones, which is free. -/
def inverseFft (lg kh kw : Nat) (bins : List (Word × Word)) : List Word :=
  let n := 2 ^ lg
  let free := Config.inverseFft lg kh kw bins
  let ok := bins.all (fun b => isFinite b.1 && isFinite b.2)
  let w := n / 2 + 1
  let half := bins.zipIdx.map (fun b =>
    let m : Int := if b.2 % w = 0 ∨ b.2 % w = n / 2 then 1 else 2
    (m * fixOf b.1.1, m * fixOf b.1.2, b.2 / w, b.2 % w))
  let bound := fftBound lg (64 + 2 * lg) (sumInt (half.map (fun b => ((b.1.natAbs + b.2.1.natAbs : Nat) : Int)))) / 2 ^ (2 * lg)
  let oy := if Config.fftTail then kh - 1 else 0
  let ox := if Config.fftTail then kw - 1 else 0
  (List.range ((n - kh + 1) * (n - kw + 1))).map (fun i =>
    let g := free.getD i 0
    if !ok then g else
    let y := i / (n - kw + 1) + oy
    let x := i % (n - kw + 1) + ox
    nearWord (sumInt (half.map (fun b =>
      let t := b.2.2.1 * y + b.2.2.2 * x
      b.1 * cosTurn t n - b.2.1 * sinTurn t n))) (64 + 2 * lg) bound g)

end Sys2Proof.Machine
end

