-- ==== Sys2Proof/Machine/Conv.lean ====
section
/-!
DEFINITION. CONV (R121 to R126, R482): dense, diagonal and frequency mode.
-/
namespace Sys2Proof.Machine

def cvH (c : Cmd) : Nat := c.f 10 31 20
def cvW (c : Cmd) : Nat := c.f 10 19 8
def cvImgs (c : Cmd) : Nat := c.f 10 7 0 + 1
def cvCin (c : Cmd) : Nat := c.f 11 31 16
def cvCout (c : Cmd) : Nat := c.f 11 15 0
def cvGroups (c : Cmd) : Nat := c.f 13 15 0
def cvF (c : Cmd) : Nat := 2 ^ c.f 13 27 24

/-- Input and output channels of one conv group. -/
def cvCg (c : Cmd) : Nat := cvCin c / cvGroups c
def cvNg (c : Cmd) : Nat := cvCout c / cvGroups c

/-- A window word (R121 word 12): KH, KW, SH, SW, PAD_H, PAD_W. -/
structure Win where
  kh : Nat
  kw : Nat
  sh : Nat
  sw : Nat
  ph : Nat
  pw : Nat
deriving Repr

def winOf (w : Word) : Win := ⟨fld w 31 24, fld w 23 16, fld w 15 12, fld w 11 8, fld w 7 4, fld w 3 0⟩
def cvWin (c : Cmd) : Win := winOf (c.w 12)

/-- An output dimension (R122); 0 where the result is below 1. -/
def outDim (n pad k st : Nat) : Nat := if st = 0 ∨ n + 2 * pad < k then 0 else (n + 2 * pad - k) / st + 1

def cvHo (c : Cmd) : Nat := outDim (cvH c) (cvWin c).ph (cvWin c).kh (cvWin c).sh
def cvWo (c : Cmd) : Nat := outDim (cvW c) (cvWin c).pw (cvWin c).kw (cvWin c).sw
def cvTotal (c : Cmd) : Nat := cvImgs c * cvHo c * cvWo c * cvCout c

/-- The reduction length of an output element (R123, R125). -/
def cvK (c : Cmd) : Nat := if c.convMode = 1 then 32 else (cvWin c).kh * (cvWin c).kw * cvCg c

/-- Whether GROUPS divides the channels (R121). -/
def cvGroupsOk (c : Cmd) : Bool := cvGroups c != 0 && cvCin c % cvGroups c == 0 && cvCout c % cvGroups c == 0

/-- The layout rules that belong to a mode (R123, R125, R126), by descriptor word. Those on the channels of a conv group can be
judged only where GROUPS divides the channels. -/
def cvModeShape (c : Cmd) : List (Nat × Bool) :=
  let w := cvWin c
  let g := cvCg c
  let ok := cvGroupsOk c
  match c.convMode with
  | 0 => [(11, !ok || cvNg c % 32 == 0)]
  | 1 => [(11, cvCin c == cvCout c && (!ok || g == 1 || g == 2 || g == 4 || g == 8 || g == 16 || g == 32)),
          (12, (!ok || decide (g * w.kh * w.kw ≤ (if c.wFmt = 6 then 16 else 32))) && decide (w.kh ≤ 5) && decide (w.kw ≤ 5) &&
            decide (w.sh ≤ 2) && decide (w.sw ≤ 2))]
  | 2 => [(12, w.sh == 1 && w.sw == 1)]
  | _ => []

/-- Bytes of the filters (R123, R125, R126). -/
def cvWBytes (c : Cmd) : Nat :=
  match c.convMode with
  | 0 => fmtBytes c.wFmt (cvK c * cvCout c)
  | 1 => cvCout c * (if isInt4 c.wFmt then 16 else 32)
  | _ => cvCin c * cvNg c * 2 * (cvF c * (cvF c / 2 + 1)) * 2

/-- Entries of the two scale tables; 0: the table is not read (R482). -/
def cvSa (c : Cmd) : Nat :=
  match c.convMode with
  | 0 => if usesEa c.kind then cvImgs c * (cvCin c / c.g) else 0
  | 1 => if usesEa c.kind then cvImgs c * cvGroups c else 0
  | _ => if c.aFmt = 6 then 0 else cvImgs c * cvCin c
def cvSw (c : Cmd) : Nat :=
  match c.convMode with
  | 0 => if usesEw c.kind then cvCout c * (cvK c / c.g) else 0
  | 1 => if usesEw c.kind then cvCout c else 0
  | _ => 0

/-- Whether records are read (R482). -/
def cvAcc (c : Cmd) : Bool := c.accIn && c.convMode != 2

/-- The checks of CONV (R113, R115, R121 to R126, R482). -/
def convPlan (c : Cmd) (r : List Word) : Plan :=
  let f := c.final r
  let w := cvWin c
  let vec := readsVec (recPost r)
  let md := c.convMode
  let usesSa := if md = 2 then c.aFmt != 6 else usesEa c.kind
  let usesSw := md != 2 && usesEw c.kind
  let o := rng c 4 (fmtBytes f (cvTotal c))
  let acc := rng c 9 (32 * cvTotal c)
  let okC := cvCin c != 0 && cvCout c != 0
  let okG := cvGroupsOk c
  { shape := [addrOk c 5 (fmtAlign c.aFmt), addrOk c 6 (fmtAlign c.wFmt)] ++
      (if usesSa then [addrOk c 7 4] else []) ++ (if usesSw then [addrOk c 8 4] else []) ++
      [addrOk c 9 (if f = 8 then 32 else fmtAlign f), (10, cvH c != 0 && cvW c != 0), (11, okC)] ++
      (cvModeShape c).filter (fun x => x.1 == 11) ++
      [(12, w.kh != 0 && w.kw != 0 && w.sh != 0 && w.sw != 0 && cvHo c != 0 && cvWo c != 0)] ++
      (cvModeShape c).filter (fun x => x.1 == 12) ++
      [(13, decide (md ≤ 2) && c.f 13 23 16 == 0 && okG &&
        (if md = 2 then decide (4 ≤ c.f 13 27 24 ∧ c.f 13 27 24 ≤ 10) && decide (2 * max w.kh w.kw ≤ cvF c) else c.f 13 27 24 == 0))] ++
      (if c.accIn && vec then [(14, false)] else if cvAcc c then [addrOk c 14 32] else if vec then [addrOk c 14 4] else []) ++ [odOk c 15 f],
    fmt := match md with
      | 0 => cvCg c % c.g == 0
      | 1 => c.group == 0
      | _ => c.wFmt == 6 && c.outFmt != 8,
    terms := if md = 2 then 2 * cvCg c else termCount c.kind (cvK c) c.g,
    reads := [rng c 0 (fmtBytes c.aFmt (cvImgs c * cvH c * cvW c * cvCin c)), rng c 1 (cvWBytes c), rng c 2 (4 * cvSa c), rng c 3 (4 * cvSw c)] ++
      (if cvAcc c then [acc] else if vec then [rng c 9 (4 * cvCout c)] else []),
    writes := [o],
    free := if cvAcc c ∧ acc.lo = o.lo ∧ c.outFmt = 8 then [(o, acc)] else [] }

/-- The activation code at a position, none in the padding (R122). -/
def State.cvIn (s : State) (e : Nat) (c : Cmd) (img y x ch : Nat) (ph pw : Nat) : Option Nat :=
  if ph ≤ y ∧ y - ph < cvH c ∧ pw ≤ x ∧ x - pw < cvW c then
    some (s.code e c.aFmt (c.w 5).toNat (((img * cvH c + (y - ph)) * cvW c + (x - pw)) * cvCin c + ch))
  else none

/-- The activation's value under its entry; the padding is a difference of zero. -/
def cvVal (c : Cmd) (ent : Word) : Option Nat → Fv
  | none => .fin false 0 0
  | some k => operand c.aFmt ent k

/-- The groups of a dense output element (R123): taps outer, channels fastest. -/
def State.denseGroups (s : State) (e : Nat) (c : Cmd) (img y x o : Nat) : List Group :=
  let w := cvWin c
  let k := c.kind
  let q := o / cvNg c
  let ngc := cvCg c / c.g
  let ngk := cvK c / c.g
  let col := o % cvNg c
  (List.range w.kh).flatMap (fun ky => (List.range w.kw).flatMap (fun kx => (List.range ngc).map (fun g =>
    let ea := if usesEa k then s.spWord e ((c.w 7).toNat + 4 * (img * (cvCin c / c.g) + q * ngc + g)) else 0
    let ew := if usesEw k then s.spWord e ((c.w 8).toNat + 4 * (((o * w.kh + ky) * w.kw + kx) * ngc + g)) else 0
    let gi := (ky * w.kw + kx) * ngc + g
    let base := q * cvK c * cvNg c + (col / 32 * ngk + gi) * c.g * 32 + col % 32
    { pairs := (List.range c.g).map (fun j =>
        (cvVal c ea (s.cvIn e c img (y * w.sh + ky) (x * w.sw + kx) (q * cvCg c + g * c.g + j) w.ph w.pw),
         operand c.wFmt ew (s.code e c.wFmt (c.w 6).toNat (base + 32 * j)))),
      ea := ea, ew := ew })))

/-- The one group of a diagonal output element (R125): the taps in the order (ci, ky, kx), padded with zero differences. -/
def State.diagGroup (s : State) (e : Nat) (c : Cmd) (img y x o : Nat) : Group :=
  let w := cvWin c
  let k := c.kind
  let g := cvCg c
  let q := o / g
  let ea := if usesEa k then s.spWord e ((c.w 7).toNat + 4 * (img * cvGroups c + q)) else 0
  let ew := if usesEw k then s.spWord e ((c.w 8).toNat + 4 * o) else 0
  let wa := (c.w 6).toNat + o * (if isInt4 c.wFmt then 16 else 32)
  let taps := g * w.kh * w.kw
  { pairs := ((List.range taps).map (fun t =>
      let ci := t / (w.kh * w.kw)
      let ky := t / w.kw % w.kh
      let kx := t % w.kw
      (cvVal c ea (s.cvIn e c img (y * w.sh + ky) (x * w.sw + kx) (q * g + ci) w.ph w.pw),
       operand c.wFmt ew (s.code e c.wFmt wa t))))
      ++ List.replicate (32 - taps) (.fin false 0 0, .fin false 0 0),
    ea := ea, ew := ew }

/-- The output element with linear index i: image, row, column, channel. -/
def cvPos (c : Cmd) (i : Nat) : Nat × Nat × Nat × Nat :=
  (i / cvCout c / cvWo c / cvHo c, i / cvCout c / cvWo c % cvHo c, i / cvCout c % cvWo c, i % cvCout c)

/-- Dense and diagonal mode (R123, R125, R482). -/
def State.convBody (s : State) (e : Nat) (c : Cmd) (r : List Word) : Result :=
  let k := c.kind
  let own := termCount k (cvK c) c.g
  let vec := readsVec (recPost r)
  let els := (List.range (cvTotal c)).map (fun i =>
    let (img, y, x, o) := cvPos c i
    let gs := if c.convMode = 1 then [s.diagGroup e c img y x o] else s.denseGroups e c img y x o
    let v := if vec then s.spWord e ((c.w 14).toNat + 4 * o) else 0
    storeElem c r (c.w 15) v (elemGran c.anchor k (s.startOf e c (c.w 14).toNat own i) gs))
  { out := s.putCodes e (c.final r) (c.w 9).toNat (els.map (·.code)),
    astat := astatOf els, faults := arith (faultsOf els) }

/-! ### Frequency mode (R126) -/

/-- An input as FP32 (R126). -/
def State.freqIn (s : State) (e : Nat) (c : Cmd) (img ch y x : Nat) : Word :=
  let w := cvWin c
  let ent := if c.aFmt = 6 then 0 else s.spWord e ((c.w 7).toNat + 4 * (img * cvCin c + ch))
  match s.cvIn e c img y x ch w.ph w.pw with
  | none => 0
  | some k => match operand c.aFmt ent k with
    | .nan _ => f32NaN
    | .inf n => f32Inf n
    | .fin n m x => if c.aFmt = 6 then f32Round n m x else f32Round n (m * (entScale ent).1) (x + (entScale ent).2)

/-- The BF16 spectrum of a channel's tile whose first output is (y, x). -/
def State.freqSpec (s : State) (e : Nat) (c : Cmd) (img ch y x : Nat) : List (Fv × Fv) :=
  let n := cvF c
  let t := (List.range (n * n)).map (fun i => s.freqIn e c img ch (y + i / n) (x + i % n))
  (forwardFft (c.f 13 27 24) t).map (fun b => (fpDecode bf16 (bfRne b.1), fpDecode bf16 (bfRne b.2)))

/-- A term with its sign turned. -/
def Term.neg : Term → Term
  | .poison k => .poison ((-1) :: k)
  | .val n m e => .val (!n) m e

/-- The filter bin b of the pair of input channel ci and output channel co of conv group q. -/
def State.freqW (s : State) (e : Nat) (c : Cmd) (q ci co b : Nat) : Fv × Fv :=
  let bins := cvF c * (cvF c / 2 + 1)
  let base := ((q * cvCg c + ci) * cvNg c + co) * 2 * bins
  let a := (c.w 6).toNat
  (fpDecode bf16 (s.code e 6 a (base + b)), fpDecode bf16 (s.code e 6 a (base + bins + b)))

/-- One output bin: the Granaries of its real and its imaginary part. -/
def State.freqBin (s : State) (e : Nat) (c : Cmd) (q co b : Nat) (specs : List (List (Fv × Fv))) : Gran × Gran :=
  specs.zipIdx.foldl (fun g x =>
    let (xr, xi) := x.1.getD b (.fin false 0 0, .fin false 0 0)
    let (wr, wi) := s.freqW e c q x.2 co b
    (g.1.addAll c.anchor [prodTerm xr wr 1 0, (prodTerm xi wi 1 0).neg],
     g.2.addAll c.anchor [prodTerm xr wi 1 0, prodTerm xi wr 1 0])) ({}, {})

/-- The outputs of one tile for one output channel, with the status and the faults of its bins. -/
def State.freqTile (s : State) (e : Nat) (c : Cmd) (img y x o : Nat) : List Word × Nat × List Nat :=
  let q := o / cvNg c
  let specs := (List.range (cvCg c)).map (fun ci => s.freqSpec e c img (q * cvCg c + ci) y x)
  let gs := (List.range (cvF c * (cvF c / 2 + 1))).map (fun b => s.freqBin e c q (o % cvNg c) b specs)
  let w := cvWin c
  (inverseFft (c.f 13 27 24) w.kh w.kw (gs.map (fun g => (g.1.f32 c.anchor, g.2.f32 c.anchor))),
   gs.foldl (fun a g => a ||| g.1.astat c.anchor ||| g.2.astat c.anchor) 0,
   if gs.any (fun g => g.1.ovf || g.2.ovf) then [0x0102] else [])

/-- Frequency mode (R126): every output element from its tile. -/
def State.freqBody (s : State) (e : Nat) (c : Cmd) (r : List Word) : Result :=
  let w := cvWin c
  let th := cvF c - w.kh + 1
  let tw := cvF c - w.kw + 1
  let vec := readsVec (recPost r)
  let els := (List.range (cvTotal c)).map (fun i =>
    let (img, y, x, o) := cvPos c i
    let (outs, st, fs) := s.freqTile e c img (y / th * th) (x / tw * tw) o
    let v := if vec then s.spWord e ((c.w 14).toNat + 4 * o) else 0
    let z := f32Store (c.final r) (c.w 15) (postChain (recPost r) v (outs.getD (y % th * tw + x % tw) 0))
    ({ z with astat := z.astat ||| st, faults := z.faults ++ fs } : Elem))
  let bad := (List.range (cvSa c)).any (fun i => entBad (s.spWord e ((c.w 7).toNat + 4 * i)))
  { out := s.putCodes e (c.final r) (c.w 9).toNat (els.map (·.code)), astat := astatOf els,
    faults := arith ((if bad then [0x0106] else []) ++ faultsOf els) }

/-- CONV in dense mode; a MODE that does not exist is refused here (R121). -/
def execConvDense (e : Fin 6) (hw : HwFault) (s : State) : Host.Outcome State Fault Refusal :=
  .next (s.command e.val hw (fun c => c.op == 2 && c.convMode != 1 && c.convMode != 2) convPlan (s.convBody e.val))

/-- CONV in diagonal mode (R125). -/
def execConvDiagonal (e : Fin 6) (hw : HwFault) (s : State) : Host.Outcome State Fault Refusal :=
  .next (s.command e.val hw (fun c => c.op == 2 && c.convMode == 1) convPlan (s.convBody e.val))

/-- CONV in frequency mode (R126). -/
def execConvFrequency (e : Fin 6) (hw : HwFault) (s : State) : Host.Outcome State Fault Refusal :=
  .next (s.command e.val hw (fun c => c.op == 2 && c.convMode == 2) convPlan (s.freqBody e.val))

end Sys2Proof.Machine
end

