-- ==== Sys2Proof/Machine/Vector.lean ====
section
/-!
DEFINITION. VECTOR (R66, R128 to R131) and DIGEST (R67, R68, R139).
-/
namespace Sys2Proof.Machine

def Cmd.inFmt (c : Cmd) : Nat := c.f 8 23 20
def Cmd.vOut (c : Cmd) : Nat := c.f 8 19 16
def vRows (c : Cmd) : Nat := c.f 9 15 0
def vCols (c : Cmd) : Nat := c.f 10 23 0
def vInStr (c : Cmd) : Nat := c.f 11 23 0
def vOutStr (c : Cmd) : Nat := c.f 12 23 0

/-- A code of a floating-point format as FP32. -/
def f32Of (f c : Nat) : Word :=
  match fpDecode (fpOf f) c with
  | .nan _ => f32NaN
  | .inf n => f32Inf n
  | .fin n m e => f32Round n m e

/-! ### MAP and reductions -/

/-- The format in which a VECTOR command stores (R129 to R131). -/
def vFinal (c : Cmd) (r : List Word) : Nat :=
  match c.vop with
  | 1 => recPostFmt r
  | 2 | 7 => c.vOut
  | 3 => c.outFmt
  | _ => c.inFmt

/-- Whether IN_FMT and OUT_FMT of word 8 suit the operation (R129 to R131). POOL_MAX stores in IN_FMT; R131 does not say what its
OUT_FMT must hold, and it is ignored (DESIGN CHOICE, log 50). -/
def vFmtOk (c : Cmd) : Bool :=
  let fp (f : Nat) : Bool := f == 6 || f == 7
  match c.vop with
  | 1 => fp c.inFmt
  | 2 => fp c.inFmt && fp c.vOut
  | 3 => fp c.inFmt && c.vOut == 0
  | 4 | 5 => decide (c.inFmt ≤ 6) && c.vOut == c.inFmt
  | 6 => decide (c.inFmt ≤ 6)
  | 7 => fp c.inFmt && fp c.vOut
  | _ => false

/-- The checks of MAP and the reductions (R113 to R115, R128 to R130). -/
def vectorPlan (c : Cmd) (r : List Word) : Plan :=
  let f := vFinal c r
  let map := c.vop == 1
  let vec := map && readsVec (recPost r)
  let inR := rng c 0 ((vRows c - 1) * vInStr c + fmtBytes c.inFmt (vCols c))
  let outR := rng c 1 (if map then (vRows c - 1) * vOutStr c + fmtBytes f (vCols c) else fmtBytes f (vRows c))
  { shape := [addrOk c 5 (fmtAlign c.inFmt), addrOk c 6 (if f = 8 then 32 else fmtAlign f)] ++
      (if map then (if vec then [addrOk c 7 4] else []) else [(7, c.w 7 == 0)]) ++
      [(8, c.f 8 15 0 == 0 && vFmtOk c), (9, vRows c != 0), (10, vCols c != 0)] ++
      (if map then [] else [(12, c.w 12 == 0)]) ++ [odOk c 13 f, (14, c.w 14 == 0), (15, c.w 15 == 0)],
    reads := [inR] ++ (if vec then [rng c 2 (4 * vCols c)] else []),
    writes := [outR],
    free := if map ∧ inR.lo = outR.lo ∧ vInStr c = vOutStr c ∧ fmtBits c.inFmt = fmtBits f then [(outR, inR)] else [] }

/-- Row r of the input as codes. -/
def State.vRow (s : State) (e : Nat) (c : Cmd) (r : Nat) : List Nat :=
  (List.range (vCols c)).map (fun j => s.code e c.inFmt ((c.w 5).toNat + r * vInStr c) j)

/-- MAP (R129). -/
def State.mapBody (s : State) (e : Nat) (c : Cmd) (r : List Word) : Result :=
  let f := recPostFmt r
  let vec := readsVec (recPost r)
  let rows := (List.range (vRows c)).map (fun i => (s.vRow e c i).zipIdx.map (fun x =>
    f32Store f (c.w 13) (postChain (recPost r) (if vec then s.spWord e ((c.w 7).toNat + 4 * x.2) else 0) (f32Of c.inFmt x.1))))
  { out := rows.zipIdx.foldl (fun s x => s.putCodes e f ((c.w 6).toNat + vOutStr c * x.2) (x.1.map (·.code))) s,
    astat := astatOf rows.flatten, faults := arith (faultsOf rows.flatten) }

/-- One value per row (R130). -/
def State.rowsBody (s : State) (e : Nat) (c : Cmd) (r : List Word) (one : Nat → List Nat → Elem) : Result :=
  let els := (List.range (vRows c)).map (fun i => one i (s.vRow e c i))
  { out := s.putCodes e (vFinal c r) (c.w 6).toNat (els.map (·.code)), astat := astatOf els,
    faults := arith (faultsOf els) }

/-- SUM_FP32 of a row (R65, R130). -/
def sumFp32 (c : Cmd) (l : List Nat) : Elem := f32Store c.vOut 0 (fsum (l.map (f32Of c.inFmt)))

/-- SUM_GRANARY of a row (R66, R130): a NaN or infinite addend is no term and poisons the sum. -/
def sumGran (c : Cmd) (l : List Nat) : Elem :=
  let ts := l.map (fun x => valTerm (fpDecode (fpOf c.inFmt) x))
  let g := { ({} : Gran).addAll c.anchor (ts.filter Term.isVal) with poison := !ts.all Term.isVal }
  let y := g.out c.anchor c.outFmt (c.w 13)
  if g.ovf then { y with faults := [0x0102] } else y

/-- Whether the value of code x lies below that of code y (R130): −0 lies below +0. -/
def codeBelow (f x y : Nat) : Bool :=
  if isIntFmt f then decide (intOf f x < intOf f y)
  else
    let a := f32Of f x
    let b := f32Of f y
    flt a b || (feq a b && signOf a && !signOf b)

/-- The largest or the smallest code of a list, compared as values; a NaN anywhere gives the canonical one (R130, R131). R65 puts
the store of the result under R481, so an infinite one saturates (log 23). -/
def extreme (f : Nat) (least : Bool) (l : List Nat) : Elem :=
  match l with
  | [] => { code := 0 }
  | a :: r =>
    if !isIntFmt f && l.any (fun x => isNaN (f32Of f x)) then nanStore f
    else
      let x := r.foldl (fun m x => if (if least then codeBelow f x m else codeBelow f m x) then x else m) a
      if isIntFmt f then { code := x } else f32Store f 0 (f32Of f x)

/-! ### Pooling (R131) -/

def plH (c : Cmd) : Nat := c.f 9 31 16
def plW (c : Cmd) : Nat := c.f 9 15 0
def plC (c : Cmd) : Nat := c.f 10 31 16
def plN (c : Cmd) : Nat := c.f 10 15 0
def plWin (c : Cmd) : Win := winOf (c.w 11)
def plHo (c : Cmd) : Nat := outDim (plH c) (plWin c).ph (plWin c).kh (plWin c).sh
def plWo (c : Cmd) : Nat := outDim (plW c) (plWin c).pw (plWin c).kw (plWin c).sw
def plTotal (c : Cmd) : Nat := plN c * plHo c * plWo c * plC c

/-- The checks of pooling. -/
def poolPlan (c : Cmd) (r : List Word) : Plan :=
  let f := vFinal c r
  let w := plWin c
  { shape := [addrOk c 5 (fmtAlign c.inFmt), addrOk c 6 (fmtAlign f), (7, c.w 7 == 0), (8, c.f 8 15 0 == 0 && vFmtOk c),
      (9, plH c != 0 && plW c != 0), (10, plC c != 0 && plN c != 0),
      (11, w.kh != 0 && w.kw != 0 && w.sh != 0 && w.sw != 0 && decide (w.ph < w.kh) && decide (w.pw < w.kw) && plHo c != 0 && plWo c != 0),
      odOk c 13 f, (14, c.w 14 == 0), (15, c.w 15 == 0)],
    reads := [rng c 0 (fmtBytes c.inFmt (plN c * plH c * plW c * plC c))],
    writes := [rng c 1 (fmtBytes f (plTotal c))] }

/-- The codes of the window of output element i that lie inside the input, ky outer, kx inner. Where the channel count of an INT4
tensor is odd, the nibble follows the parity of the linear element index: R38 does not say that a pixel starts on a byte
(DESIGN CHOICE, log 50). -/
def State.window_ (s : State) (e : Nat) (c : Cmd) (i : Nat) : List Nat :=
  let w := plWin c
  let ch := i % plC c
  let x := i / plC c % plWo c
  let y := i / plC c / plWo c % plHo c
  let img := i / plC c / plWo c / plHo c
  (List.range w.kh).flatMap (fun ky => (List.range w.kw).filterMap (fun kx =>
    let py := y * w.sh + ky
    let px := x * w.sw + kx
    if w.ph ≤ py ∧ py - w.ph < plH c ∧ w.pw ≤ px ∧ px - w.pw < plW c then
      some (s.code e c.inFmt (c.w 5).toNat (((img * plH c + (py - w.ph)) * plW c + (px - w.pw)) * plC c + ch))
    else none))

/-- POOL_AVG of a window (R131): the sum in order, times the reciprocal of the count. -/
def poolAvg (c : Cmd) (l : List Nat) : Elem :=
  match l.map (f32Of c.inFmt) with
  | [] => { code := 0 }
  | a :: r =>
    let n := if tbit (c.w 12) 0 then (plWin c).kh * (plWin c).kw else l.length
    f32Store c.vOut 0 (fmul (r.foldl fadd a) (frecip (f32Int n)))

def State.poolBody (s : State) (e : Nat) (c : Cmd) (r : List Word) (one : List Nat → Elem) : Result :=
  let els := (List.range (plTotal c)).map (fun i => one (s.window_ e c i))
  { out := s.putCodes e (vFinal c r) (c.w 6).toNat (els.map (·.code)), astat := astatOf els, faults := arith (faultsOf els) }

/-! ### DIGEST -/

/-- The mix of R67. -/
def mix (i v : Nat) : Nat :=
  let p := 2 ^ 64
  let x := i * 0x8B512E6D34F7A9C3 % p
  let x := x ^^^ (v * 0x5A3D91E7C26B0F4D % p)
  let x := x ^^^ (x >>> 31)
  let x := x * 0xE17C4B2893D56A1B % p
  let x := x ^^^ (x >>> 29)
  let x := x * 0x8B512E6D34F7A9C3 % p
  x ^^^ (x >>> 32)

def dgRows (c : Cmd) : Nat := c.f 7 15 0
def dgCols (c : Cmd) : Nat := c.f 8 23 0
def dgStr (c : Cmd) : Nat := c.f 9 23 0
def dgBase (c : Cmd) : Nat := (c.w 10).toNat + 2 ^ 32 * (c.w 11).toNat
def dgExp (c : Cmd) : Nat := (c.w 13).toNat + 2 ^ 32 * (c.w 14).toNat

def digestPlan (c : Cmd) (_ : List Word) : Plan :=
  let res := rng c 1 8
  { shape := [addrOk c 5 (fmtAlign c.outFmt), addrOk c 6 8, (7, c.f 7 31 16 == 0 && dgRows c != 0), (8, dgCols c != 0)],
    reads := [rng c 0 ((dgRows c - 1) * dgStr c + fmtBytes c.outFmt (dgCols c)), res],
    writes := [res], free := [(res, res)] }

/-- The digest of the elements (R67, R139). -/
def State.digestOf (s : State) (e : Nat) (c : Cmd) : Nat :=
  (List.range (dgRows c)).foldl (fun d r => (List.range (dgCols c)).foldl (fun d k =>
    (d + mix ((dgBase c + r * (c.w 12).toNat + k) % 2 ^ 64)
      (s.code e c.outFmt ((c.w 5).toNat + r * dgStr c) k + c.outFmt * 2 ^ 32)) % 2 ^ 64) d) 0

/-- DIGEST (R68, R139): the result is written before a mismatch is raised. R68 says that the digest can be read at
RESULT_ADDR after the abort, whose zeroing (R90) therefore leaves it. The spec lays out no FAULT_INFO for the fault: free. -/
def State.digestBody (s : State) (e : Nat) (c : Cmd) (_ : List Word) : Result :=
  let a := (c.w 6).toNat
  let d := (s.digestOf e c + (if tbit (c.w 15) 0 then leNat (s.spRead e a 8) else 0)) % 2 ^ 64
  let s := s.spWrite e a (natLe 8 d)
  if tbit (c.w 15) 1 ∧ d ≠ dgExp c then
    let (n, s) := s.take
    { out := s, faults := [(0x0108, some (Config.freeWord n).toNat)], open_ := false, keep := some (a, natLe 8 d) }
  else { out := s }

/-! ### The commands -/

def isVec (v : Nat) (c : Cmd) : Bool := c.op == 5 && c.vop == v

/-- VECTOR MAP (R129); a VOP that does not exist is refused here (R128). -/
def execVectorMap (e : Fin 6) (hw : HwFault) (s : State) : Host.Outcome State Fault Refusal :=
  .next (s.command e.val hw (fun c => c.op == 5 && (c.vop == 1 || c.vop == 0 || decide (7 < c.vop))) vectorPlan (s.mapBody e.val))

/-- VECTOR SUM_FP32 (R130). -/
def execSumFp32 (e : Fin 6) (hw : HwFault) (s : State) : Host.Outcome State Fault Refusal :=
  .next (s.command e.val hw (isVec 2) vectorPlan (fun c r => s.rowsBody e.val c r (fun _ l => sumFp32 c l)))

/-- VECTOR SUM_GRANARY (R66, R130). -/
def execSumGranary (e : Fin 6) (hw : HwFault) (s : State) : Host.Outcome State Fault Refusal :=
  .next (s.command e.val hw (isVec 3) vectorPlan (fun c r => s.rowsBody e.val c r (fun _ l => sumGran c l)))

/-- VECTOR MAX (R130). -/
def execVectorMax (e : Fin 6) (hw : HwFault) (s : State) : Host.Outcome State Fault Refusal :=
  .next (s.command e.val hw (isVec 4) vectorPlan (fun c r => s.rowsBody e.val c r (fun _ l => extreme c.inFmt false l)))

/-- VECTOR MIN (R130). -/
def execVectorMin (e : Fin 6) (hw : HwFault) (s : State) : Host.Outcome State Fault Refusal :=
  .next (s.command e.val hw (isVec 5) vectorPlan (fun c r => s.rowsBody e.val c r (fun _ l => extreme c.inFmt true l)))

/-- VECTOR POOL_MAX (R131). -/
def execPoolMax (e : Fin 6) (hw : HwFault) (s : State) : Host.Outcome State Fault Refusal :=
  .next (s.command e.val hw (isVec 6) poolPlan (fun c r => s.poolBody e.val c r (extreme c.inFmt false)))

/-- VECTOR POOL_AVG (R131). -/
def execPoolAvg (e : Fin 6) (hw : HwFault) (s : State) : Host.Outcome State Fault Refusal :=
  .next (s.command e.val hw (isVec 7) poolPlan (fun c r => s.poolBody e.val c r (poolAvg c)))

/-- DIGEST (R139). -/
def execDigest (e : Fin 6) (hw : HwFault) (s : State) : Host.Outcome State Fault Refusal :=
  .next (s.command e.val hw (fun c => c.op == 0xA) digestPlan (s.digestBody e.val))

end Sys2Proof.Machine
end

