-- ==== Sys2Proof/Machine/Samples.lean ====
section
/-!
DEFINITION. Sample sources (R347 to R352, R354, R356): the source block, the slot ring, the sample layout, augmentation and forwarding.
-/
namespace Sys2Proof.Machine

/-! ### The source block -/

/-- The augmentation registers (R356). -/
def augReg (src off : Nat) : Nat := if src < 16 then rga (srcPg src) (0x110 + off) else srcReg src (0x30 + off)

def State.srcErr (s : State) (src : Nat) : State := s.wb (srcReg src 0x1C) 1 true
def State.srcRing (s : State) (src : Nat) : Nat := s.rd64 (srcReg src 4)
def State.slotCount (s : State) (src : Nat) : Nat := s.rf (srcReg src 0xC) 31 16
def State.slotBytes (s : State) (src : Nat) : Nat := 4096 * s.rf (srcReg src 0xC) 15 0

/-- An access to HBM by a unit that runs no command (R405): whether it may take place, and the state, in which a conflict of the region
table has had its effects. Tenant 8 is the physical function. -/
def State.unitAccess (s : State) (t : Nat) (write : Bool) (a len : Nat) : Bool × State :=
  match s.regCheck t write a len with
  | .ok => (true, s)
  | .bounds _ => (false, s)
  | .conflict e => (false, s.regionConflict t e)

/-- Bytes of one value of a view: by FMT (R348). -/
def valBytes (fmt : Nat) : Nat := if fmt = 1 ∨ fmt = 3 then 2 else 1

/-- The size of the main view of a pipeline in values (R338, R355). -/
def State.thMain (s : State) (c : Nat) : Nat := s.rf (rga (0x500 + c) 0x68) 31 16 * s.rf (rga (0x500 + c) 0x68) 15 0 * 3

/-- Whether the augmentation parameters are within R356, with `out` the OUT_H and OUT_W of a pipeline. The size of a stream's picture is known
only once it is decoded. -/
def augOk (src : Nat) (out size gain noise : Word) : Bool :=
  let w := fld size 15 0
  let h := fld size 31 16
  w != 0 && h != 0 && (16 ≤ src || (decide (w ≤ fld out 15 0) && decide (h ≤ fld out 31 16))) && decide (w * h * 3 ≤ 2 ^ 28) &&
  isFinite gain && fge gain 0 && fge f32One gain && isFinite noise && fge noise 0 && fge 0x437F0000 noise

def State.augOkNow (s : State) (src : Nat) : Bool :=
  augOk src (s.rd (rga (0x500 + src) 0x68)) (s.rd (augReg src 0)) (s.rd (augReg src 4)) (s.rd (augReg src 8))

/-- Bytes of the views that are fixed at ENABLE: main view, augmented or not, and the raw view (R347). -/
def State.fixedBytes (s : State) (src : Nat) (cfg : Word) : Nat :=
  let aug := s.rd (augReg src 0)
  let augN := fld aug 15 0 * fld aug 31 16 * 3
  if src < 16 then
    let b := valBytes (s.rf (rga (0x500 + src) 0x6C) 0 0)
    b * (if tbit cfg 30 then augN + (if tbit cfg 29 then s.thMain src else 0) else s.thMain src)
  else if tbit cfg 30 then augN else 0

/-- Start a source (R337, R339): a pipeline takes its defaults. -/
def State.srcStart (s : State) (src : Nat) : State :=
  let s := s.wb (srcReg src 0x1C) 0 true
  let s := { s with perc := { s.perc with samples := mapSet (fun _ => []) s.perc.samples src [] } }
  if src < 16 then
    let d := s.rd (rga (0x500 + src) 0xE4)
    let rg := s.rd (rga (0x500 + src) 0xE8)
    s.setTh src { (default : Thresher) with
      exp := fld d 15 0
      gain := fld d 31 16
      smean := some (fld rg 31 16, fld rg 15 0, s.rf (rga (0x500 + src) 0xEC) 15 0) }
  else { s with perc := { s.perc with streams := mapSet dflt s.perc.streams (src - 16) default } }

/-- Stop a source: the frame or picture in progress and samples not yet forwarded are dropped. -/
def State.srcStop (s : State) (src : Nat) : State :=
  let s := s.wb (srcReg src 0x1C) 0 false
  let s := { s with perc := { s.perc with samples := mapSet (fun _ => []) s.perc.samples src [] } }
  if src < 16 then s.setTh src { (default : Thresher) with smean := (s.th src).smean }
  else { s with perc := { s.perc with streams := mapSet dflt s.perc.streams (src - 16) default } }

/-- A write of SRC_CFG (R334, R347, R356): ENABLE is checked; while the source runs only a write that clears ENABLE is taken. -/
def State.wrSrcCfg (s : State) (f : Func) (src : Nat) (v : Word) : State :=
  let a := srcReg src 0
  if s.srcOn src then
    if tbit v 31 then s.srcErr src else (s.store f a v 0).srcStop src
  else
    let bad := tbit v 30 && !s.augOkNow src
    if !tbit v 31 then (if bad then s.srcErr src else s.store f a v 0)
    else
      let owner := fld v 27 24
      let n := s.slotCount src
      let shape := decide (owner < 8) && decide (2 ≤ n ∧ n ≤ 1024) && decide (s.slotBytes src ≠ 0) &&
        decide (4096 + s.fixedBytes src v ≤ s.slotBytes src)
      if bad || !shape then s.srcErr src else
      let (ok, s) := s.unitAccess owner true (s.srcRing src) (4096 + n * s.slotBytes src)
      if ok then (s.store f a v 0).srcStart src else s.srcErr src

def execSrcEnable (f : Func) (src : Fin 96) (v : Word) (s : State) : Host.Outcome State Fault Refusal :=
  .next (s.guarded f (srcReg src.val 0) (fun s => s.wrSrcCfg f src.val v))

/-- A write of another register of the source block (R334): discarded with CFG_ERR while the source runs. -/
def State.wrSrcOther (s : State) (f : Func) (src off : Nat) (v : Word) : State :=
  if off = 0x1C then s.store f (srcReg src off) v 0
  else if s.srcOn src then s.srcErr src
  else s.store f (srcReg src off) v 0

/-- A write of an augmentation register (R356): while the source runs with AUG_EN it must keep the limits. -/
def State.wrAug (s : State) (f : Func) (src off : Nat) (v : Word) : State :=
  let g (o : Nat) : Word := if o = off then v else s.rd (augReg src o)
  if s.srcOn src && s.rb (srcReg src 0) 30 && !augOk src (s.rd (rga (0x500 + src) 0x68)) (g 0) (g 4) (g 8) then s.srcErr src
  else s.store f (augReg src off) v 0

/-! ### Samples -/

def State.waiting (s : State) (src : Nat) : List Sample := mapGet (fun _ => []) s.perc.samples src
def State.setWaiting (s : State) (src : Nat) (l : List Sample) : State :=
  { s with perc := { s.perc with samples := mapSet (fun _ => []) s.perc.samples src l } }
def State.addSampleOf (s : State) (src : Nat) (x : Sample) : State := s.setWaiting src (s.waiting src ++ [x])

/-- A sample marked CORRUPT (R350): counted, its manifest slot marked, the event raised and logged. -/
def State.corruptSample (s : State) (src : Nat) : State :=
  let s := s.incSat (srcReg src 0x18) 31 16
  let s := s.manUpdate (s.srcOwner src) src 2 0xFFFFFFFF
  (s.raise (srcPg src) 1).logNamed (srcPg src) evCorrupt 6 src (s.srcOwner src)

/-- A dropped sample (R347). -/
def State.dropSample (s : State) (src : Nat) : State := (s.incSat (srcReg src 0x18) 15 0).raise (srcPg src) 2

/-! ### Augmentation (R351) -/

/-- draw of R351. -/
def draw (seed seq stream idx : Nat) : Nat := mix seed ((seq % 2 ^ 32 * 2 ^ 32) ||| ((stream * 2 ^ 28) ||| idx))

/-- A value of the main view as FP32: a code, or a BF16 value. -/
def viewVal (fmt v : Nat) : Word := if fmt = 1 then bfWord v else f32Int v

/-- One augmented value: v × g + n, rounded to the view's format. A code is the nearest one, ties to even, clamped to 0 to 255. -/
def augValue (fmt seed seq i : Nat) (g noise : Word) (v : Nat) : Nat :=
  let d : Int := (draw seed seq 1 i / 2 ^ 40 : Nat)
  let n := fmul noise (f32OfI (d - 8388608) (-23))
  let r := fadd (fmul (viewVal fmt v) g) n
  if fmt = 1 then bfRne r else (clampI 0 255 (f32RoundI r 0)).toNat

/-- The augmented view of a main view (R351). -/
def augView (fmt seed seq : Nat) (size gain noise : Word) (flipEn : Bool) (m : View) : View :=
  let w := fld size 15 0
  let h := fld size 31 16
  let x0 := draw seed seq 0 0 / 2 ^ 32 * (m.w - w + 1) / 2 ^ 32
  let y0 := draw seed seq 0 1 / 2 ^ 32 * (m.h - h + 1) / 2 ^ 32
  let flip := flipEn && draw seed seq 0 2 / 2 ^ 63 == 1
  let g := fadd f32One (fmul gain (f32OfI (toS 32 (draw seed seq 0 3 / 2 ^ 32)) (-31)))
  { w := w
    h := h
    x := m.x
    y := m.y
    vals := (List.range (w * h * 3)).map (fun i =>
      let c := i % 3
      let x := i / 3 % w
      let y := i / 3 / w
      augValue fmt seed seq i g noise (m.vals.getD (((y0 + y) * m.w + (x0 + (if flip then w - 1 - x else x))) * 3 + c) 0)) }

/-! ### The sample layout (R348) -/

def viewBytes (fmt : Nat) (v : View) : List Byte := v.vals.flatMap (fun x => natLe (valBytes fmt) x)

/-- The view entries of the header, and where the next view would start. -/
def viewEntries (fmt : Nat) : List (Option View) → Nat → List Byte
  | [], _ => []
  | none :: r, o => zeros 12 ++ viewEntries fmt r o
  | some v :: r, o =>
    natLe 4 o ++ natLe 2 v.w ++ natLe 2 v.h ++ natLe 2 v.x ++ natLe 2 v.y ++ viewEntries fmt r (o + (viewBytes fmt v).length)

def viewData (fmt : Nat) (l : List (Option View)) : List Byte := l.flatMap (fun v => match v with | some v => viewBytes fmt v | none => [])

/-- The ROI views that fit in `room` bytes, in order; the others are skipped (R339). -/
def fitViews (fmt : Nat) : Nat → List (Option View) → List (Option View) × Bool
  | _, [] => ([], false)
  | room, none :: r => let (l, b) := fitViews fmt room r; (none :: l, b)
  | room, some v :: r =>
    let n := (viewBytes fmt v).length
    if n ≤ room then (let (l, b) := fitViews fmt (room - n) r; (some v :: l, b))
    else (let (l, _) := fitViews fmt room r; (none :: l, true))

/-- The first 4,096 bytes of a sample with its sequence number (R348). -/
def sampleHead (x : Sample) (src seq flags rawOff : Nat) (views : List (Option View)) : List Byte :=
  let a := natLe 1 1 ++ natLe 1 src ++ natLe 1 flags ++ natLe 1 x.fmt ++ natLe 4 x.frame ++ natLe 8 seq ++ natLe 8 x.tStart ++
    natLe 8 x.tEnd ++ natLe 4 x.ptpLo ++ natLe 4 x.ptpHi ++ natLe 4 x.exp ++ natLe 4 x.gain ++ natLe 4 x.cu ++ natLe 4 rawOff ++ zeros 8 ++
    viewEntries x.fmt views 4096
  bslice a 0 128 ++ bslice x.embed 0 64 ++ zeros 64 ++ bslice (x.hist.flatMap (natLe 4)) 0 1024 ++
    bslice (x.zones.flatMap (natLe 2)) 0 1536 ++ zeros 1280

/-- The input-queue entry of a sample (R349): written while the tenant's queue is in use and lies in its regions. -/
def State.inqAppend (s : State) (t src flags seq slot addr : Nat) : State :=
  let cfg := s.rd (rga 0x530 (0x40 + 16 * t))
  if !tbit cfg 31 then s else
  let base := s.rd64 (rga 0x530 (0x44 + 16 * t))
  let n := 2 ^ fld cfg 20 16
  let (ok, s) := s.unitAccess t true base (64 + 32 * n)
  if !ok then s else
  let wc := leNat (s.hbmRead base 8)
  let rc := leNat (s.hbmRead (base + 8) 8)
  let e := natLe 8 seq ++ natLe 1 src ++ natLe 1 flags ++ zeros 2 ++ natLe 4 slot ++ natLe 8 addr ++ natLe 8 s.nowUs
  let s := (s.hbmWrite (base + 64 + 32 * (wc % n)) e).hbmWrite base (natLe 8 (wc + 1))
  if n ≤ (wc + 2 ^ 64 - rc) % 2 ^ 64 then s.addSat (rga 0x530 (0xC0 + 4 * t)) 1 else s

/-- The steps of R349 for a sample in its slot. A step closes when this sample makes the last slot PRESENT (R248). -/
def State.forwarded (s : State) (src t flags seq slot addr wc : Nat) : State :=
  let s := s.inqAppend t src flags seq slot addr
  let s := s.setTenant t { s.tenant t with inSeq := (seq + 1) % 2 ^ 64 }
  let s := s.hbmWrite (s.srcRing src) (natLe 8 (wc + 1))
  let was := s.manComplete t
  let s := s.manUpdate t src 1 (seq % 2 ^ 32)
  let s := if s.rb (manReg t 0x180) 30 && !was && s.manComplete t then s.manTrigger t 2 else s
  let cfg := s.rd (srcReg src 0)
  let s := if tbit cfg 28 then
      s.sendArrival ⟨.central (Fin.ofNat 256 (fld cfg 23 16)), fld cfg 11 0, some t, none, 0x3FF, srcPg src⟩
    else s
  s.raise (srcPg src) 0

/-- Put a sample into its slot and forward it, or drop it, or mark it CORRUPT when it does not fit (R346, R347, R349, R351). -/
def State.forward (s : State) (src : Nat) (x : Sample) : State :=
  let cfg := s.rd (srcReg src 0)
  let t := s.srcOwner src
  let n := s.slotCount src
  let size := s.slotBytes src
  let ring := s.srcRing src
  let (ok, s) := s.unitAccess t true ring (4096 + n * size)
  if !ok then s.dropSample src else
  let seq := (s.tenant t).inSeq
  let wc := leNat (s.hbmRead ring 8)
  let rc := leNat (s.hbmRead (ring + 8) 8)
  let main := (x.views.headD none).getD default
  let aug := tbit cfg 30 && decide (x.fmt < 2)
  let asz := s.rd (augReg src 0)
  if aug && (decide (main.w < fld asz 15 0) || decide (main.h < fld asz 31 16)) then s.corruptSample src else
  let keep := aug && tbit cfg 29
  let seed := s.rd64 (srcReg src 0x10)
  let view0 := if aug then augView x.fmt seed seq asz (s.rd (augReg src 4)) (s.rd (augReg src 8)) (s.rb (augReg src 0xC) 0) main else main
  let raw := if keep then viewBytes x.fmt main else []
  let used := 4096 + (viewBytes x.fmt view0).length + raw.length
  if size < used then s.corruptSample src else
  if n ≤ (wc + 2 ^ 64 - rc) % 2 ^ 64 then s.dropSample src else
  let (rois, skip) := fitViews x.fmt (size - used) (x.views.drop 1)
  let views := some view0 :: rois
  let data := viewData x.fmt views
  let late := decide (src < 16) && (s.th src).late.contains x.index
  let flags := x.flags ||| b2n aug * 2 ||| b2n late * 4 ||| b2n skip * 8 ||| b2n keep * 16
  let rawOff := if keep then 4096 + data.length else 0
  let slot := wc % n
  let addr := ring + 4096 + slot * size
  (s.hbmWrite addr (sampleHead x src seq flags rawOff views ++ data ++ raw)).forwarded src t flags seq slot addr wc

/-- SAMPLE_FORWARD (R349): the source's oldest waiting sample. -/
def execSampleForward (src : Fin 96) (s : State) : Host.Outcome State Fault Refusal :=
  match s.waiting src.val with
  | [] => .next s
  | x :: r => .next ((s.setWaiting src.val r).forward src.val x)

end Sys2Proof.Machine
end

