-- ==== Sys2Proof/Machine/I2c.lean ====
section
/-!
DEFINITION. I2C and SMBus ports (R381 to R386) and the sensor-setting sends of Thresher (R340).
-/
namespace Sys2Proof.Machine

def icPage (n : Nat) : Nat := 0x330 + n
def icReg (n off : Nat) : Nat := rga (icPage n) off

def State.ic (s : State) (n : Nat) : I2cPort := mapGet dflt s.i2c n
def State.setIc (s : State) (n : Nat) (x : I2cPort) : State := { s with i2c := mapSet dflt s.i2c n x }

/-- ENABLE of a port page (R451), and FENCE (R385). -/
def State.blkOn (s : State) (page : Nat) : Bool := s.rb (rga page oCtl) 0
def State.icFenced (s : State) (n : Nat) : Bool := s.rb (rga (icPage n) oStat) 9

/-! ### Sensor sends (R340) -/

/-- A set takes effect (R340): gain from frame n + 1 + DELAY_G, exposure from n + 1 + DELAY_E; one frame later, and counted in SET_LATE,
when frame n + 1 has started, which is then the skipped frame. -/
def State.setDone (s : State) (c : Nat) (w : ThSend) : State :=
  let x := s.th c
  let isLate := decide (w.frame + 1 ≤ x.frames)
  let n := w.frame + 1 + b2n isLate
  let x := { x with
    sending := none
    effects := x.effects ++ [(n + w.delayE, true, w.exp), (n + w.delayG, false, w.gain)]
    late := if isLate then x.late ++ [w.frame + 1] else x.late }
  let s := s.setTh c x
  if isLate then (s.incSat (rga (0x500 + c) 0x10C) 31 16).raise (0x500 + c) 4 else s

/-- A send that fails is treated as never sent (R383). -/
def State.setFailed (s : State) (c : Nat) : State := s.setTh c { s.th c with sending := none }

/-- The pipelines that wait for port n, in ascending number. -/
def State.sensors (s : State) (n : Nat) : List Nat :=
  (List.range 16).filter (fun c => match (s.th c).sending with | some w => w.port == n | none => false)

/-! ### Transfers -/

/-- A host transfer ends with a status (R386). -/
def State.icEnd (s : State) (n status : Nat) : State :=
  ((s.pf (icReg n 0x4C) 18 16 status).wb (icReg n 0x4C) 31 true).raise (icPage n) 0

/-- A port that can serve no request: each ends as failed or FENCED (R385). -/
def State.icDrop (s : State) (n : Nat) : State :=
  let x := s.ic n
  let host := x.hostWaits || x.run == some I2cOwner.host
  let s := (s.sensors n).foldl (fun s c => s.setFailed c) s
  let s := (s.setIc n { x with run := none, hostWaits := false }).wb (icReg n 0x4C) 30 false
  if host && s.icFenced n then s.icEnd n 6 else s

/-- Serve the next request of an idle port (R382): sensor sends by pipeline, then the host. -/
def State.icServe (s : State) (n : Nat) : State :=
  let x := s.ic n
  if x.run.isSome then s
  else if s.icFenced n || !s.blkOn (icPage n) then s.icDrop n
  else match s.sensors n with
    | c :: _ => s.setIc n { x with run := some (.sensor c) }
    | [] => if x.hostWaits then s.setIc n { x with run := some .host, hostWaits := false } else s

/-- A set begins to be sent at a frame end (R340). One without register writes is finished at once. -/
def State.sendSet (s : State) (c : Nat) (w : ThSend) : State :=
  let s := s.setTh c { s.th c with sending := some w, staged := none }
  if w.left.isEmpty then s.setDone c w else s.icServe w.port

/-- BUS_STUCK (R384, R385): the port is fenced. -/
def State.icStuck (s : State) (n : Nat) : State :=
  let s := ((s.wb (icReg n 0x4C) 29 true).incSat (icReg n 0x50) 15 0).wb (rga (icPage n) oStat) 9 true
  let s := ((s.setBlk (icPage n) 4).raise (icPage n) 1).logNamed (icPage n) evPort 6 1 255
  (s.setIc n { s.ic n with watch := false }).icDrop n

/-- A bus clear (R385): up to nine pulses until a sample of SDA is high. A list of samples without a high one stands for SDA that stays
low. -/
def State.busClear (s : State) (n : Nat) (sdaHigh : List Bool) : State :=
  let s := s.incSat (icReg n 0x50) 31 16
  if (sdaHigh.take 9).any id then s else s.icStuck n

/-- START of a host transfer (R382, R385): it waits for the next boundary, or is discarded with BUSY or FENCED. Where the port finds SDA
low, `sdaHigh` holds the samples of the bus clear. -/
def State.icStart (s : State) (n : Nat) (sdaHigh : List Bool) : State :=
  let x := s.ic n
  if !s.blkOn (icPage n) then s
  else if s.icFenced n then s.icEnd n 6
  else if s.rb (icReg n 0x4C) 30 then s.icEnd n 7
  else
    let xf := s.rd (icReg n 0x44)
    let bytes := (List.range (min (fld xf 17 9) 256)).map (fun i => BitVec.ofNat 8 (s.rf (icReg n (0x200 + i / 4 * 4)) (8 * (i % 4) + 7) (8 * (i % 4))))
    let addr := BitVec.ofNat 8 (fld xf 29 23 * 2)
    let reads := tbit xf 30 || decide (fld xf 8 0 ≠ 0)
    let out := bytes ++ (if tbit xf 31 && !reads then [BitVec.ofNat 8 (smbusPec (addr :: bytes))] else [])
    let s := (s.setIc n { x with hostWaits := true, xfer := xf, out := out }).wb (icReg n 0x4C) 30 true
    let s := if sdaHigh.isEmpty || x.run.isSome then s else s.busClear n sdaHigh
    s.icServe n

/-- UNFENCE (R385): from the management path; a new bus clear starts. -/
def State.icUnfence (s : State) (n : Nat) (sdaHigh : List Bool) : State :=
  if !s.icFenced n then s else
  let s := ((s.wb (rga (icPage n) oStat) 9 false).setBlk (icPage n) 2).wb (icReg n 0x4C) 29 false
  (s.busClear n sdaHigh).icServe n

/-- A write of IC_CTL (R386). -/
def State.wrIcCtl (s : State) (f : Func) (n : Nat) (v : Word) (sdaHigh : List Bool) : State :=
  let s := if tbit v 1 && isMgmt f then s.icUnfence n sdaHigh else s
  if tbit v 0 then s.icStart n (if tbit v 1 && isMgmt f then [] else sdaHigh) else s

def execI2cStart (f : Func) (n : Fin 2) (v : Word) (sdaHigh : List Bool) (s : State) : Host.Outcome State Fault Refusal :=
  .next (s.guarded f (icReg n.val 0x48) (fun s => s.wrIcCtl f n.val v sdaHigh))

def execI2cUnfence (f : Func) (n : Fin 2) (v : Word) (sdaHigh : List Bool) (s : State) : Host.Outcome State Fault Refusal :=
  .next (s.guarded f (icReg n.val 0x48) (fun s => s.wrIcCtl f n.val v sdaHigh))

/-- SPEED 3 is discarded (R386). -/
def State.wrIcCfg (s : State) (f : Func) (n : Nat) (v : Word) : State := if fld v 31 30 = 3 then s else s.store f (icReg n 0x40) v 0

/-- Put the bytes read into the read buffer, four to a register (R386). -/
def State.putRead (s : State) (n : Nat) (bs : List Byte) : State :=
  (List.range ((bs.length + 3) / 4)).foldl (fun s i => s.wr (icReg n (0x300 + 4 * i)) (w32 (leAt bs (4 * i) 4))) s

/-- A host transfer ended as the wire tells (R383): NACK and lost arbitration give their status; a read checks the PEC. -/
def State.hostEnd (s : State) (n : Nat) (r : I2cEnd) : State :=
  let xf := (s.ic n).xfer
  match r with
  | .nackAddr => s.icEnd n 1
  | .nackData => s.icEnd n 2
  | .arbLost => s.icEnd n 3
  | .ok bytes pec =>
    let want := if tbit xf 30 then (bytes.headD 0).toNat + 1 else min (fld xf 8 0) 256
    let bs := bytes.take want
    let s := (s.putRead n bs).pf (icReg n 0x4C) 8 0 bs.length
    let addr := fld xf 29 23 * 2
    let sent := if (s.ic n).out.isEmpty then [] else BitVec.ofNat 8 addr :: (s.ic n).out
    if tbit xf 31 && !bs.isEmpty && smbusPec (sent ++ BitVec.ofNat 8 (addr + 1) :: bs) != pec.toNat then s.icEnd n 5
    else s.icEnd n 0

/-- I2C_TRANSFER_DONE (R383, R385): the transfer that runs ends, and the next request is served. A sensor send goes on to its next register
write; one that fails is treated as never sent. `clear` holds the samples of the bus clear that the transfer began with, if it found SDA low: one
that ends with SDA low fences the port, and nothing else of the transfer happens. -/
def execI2cTransferDone (n : Fin 2) (clear : List Bool) (r : I2cEnd) (s : State) : Host.Outcome State Fault Refusal :=
  if (s.ic n.val).run.isNone then .next s else
  let s := if clear.isEmpty then s else s.busClear n.val clear
  let x := s.ic n.val
  match x.run with
  | none => .next s
  | some .host =>
    let s := s.setIc n.val { x with run := none, watch := false }
    .next (((s.wb (icReg n.val 0x4C) 30 false).hostEnd n.val r).icServe n.val)
  | some (.sensor c) =>
    let s := s.setIc n.val { x with run := none, watch := false }
    match (s.th c).sending, r with
    | none, _ => .next (s.icServe n.val)
    | some w, .ok _ _ =>
      if w.left.length ≤ 1 then .next ((s.setDone c w).icServe n.val)
      else .next ((s.setTh c { s.th c with sending := some { w with left := w.left.drop 1 } }).icServe n.val)
    | some _, _ => .next ((s.setFailed c).icServe n.val)

/-- SCL_LOW_TIMEOUT (R384): the transfer ends with TIMEOUT unless SCL is released in the same tick; both lines are released, and SCL is
watched for a further SCL_LOW_MAX. -/
def execSclLowTimeout (n : Fin 2) (released : Bool) (s : State) : Host.Outcome State Fault Refusal :=
  let x := s.ic n.val
  match x.run with
  | none => .next s
  | some o =>
    if released then .next s else
    let s := s.setIc n.val { x with run := none, watch := true }
    match o with
    | .host => .next (((s.wb (icReg n.val 0x4C) 30 false).icEnd n.val 4).icServe n.val)
    | .sensor c => .next ((s.setFailed c).icServe n.val)

/-- BUS_STUCK (R384): SCL is still low after a further SCL_LOW_MAX. -/
def execBusStuck (n : Fin 2) (s : State) : Host.Outcome State Fault Refusal :=
  if (s.ic n.val).watch then .next (s.icStuck n.val) else .next s

end Sys2Proof.Machine
end

