-- ==== Sys2Proof/Machine/Can.lean ====
section
/-!
DEFINITION. The CAN FD controllers (R368 to R380).
-/
namespace Sys2Proof.Machine

def cfPage (n : Nat) : Nat := 0x320 + n
def cfReg (n off : Nat) : Nat := rga (cfPage n) off

def canDflt : Nat → CanNode := fun _ => default
def State.cf (s : State) (n : Nat) : CanNode := mapGet canDflt s.can n
def State.setCf (s : State) (n : Nat) (x : CanNode) : State := { s with can := mapSet canDflt s.can n x }

/-- MODE, TX_MODE 1 (FIFO), and whether the controller is on. -/
def State.cfMode (s : State) (n : Nat) : Nat := s.rf (cfReg n 0x40) 31 30
def State.cfFifo (s : State) (n : Nat) : Bool := s.rb (cfReg n 0x40) 29
def State.cfOn (s : State) (n : Nat) : Bool := s.blkOn (cfPage n)

/-! ### Frames and buffers (R375) -/

/-- Data bytes of a length code. -/
def dlcLen (fdf : Bool) (d : Nat) : Nat :=
  if d ≤ 8 then d else if !fdf then 8 else
  match d with | 9 => 12 | 10 => 16 | 11 => 20 | 12 => 24 | 13 => 32 | 14 => 48 | _ => 64

/-- The frame in the block of registers at an offset: a transmit buffer or the staging block. -/
def State.blockFrame (s : State) (n off : Nat) : CanFrame :=
  let a := s.rd (cfReg n off)
  let b := s.rd (cfReg n (off + 4))
  let len := dlcLen (tbit a 29) (fld b 3 0)
  { ide := tbit a 31
    rtr := tbit a 30 && !tbit a 29
    fdf := tbit a 29
    brs := tbit b 31
    esi := false
    id := BitVec.ofNat 29 (fld a 28 0)
    dlc := BitVec.ofNat 4 (fld b 3 0)
    data := (List.range len).map (fun i => BitVec.ofNat 8 (s.rf (cfReg n (off + 0x10 + i / 4 * 4)) (8 * (i % 4) + 7) (8 * (i % 4)))) }

/-- The bits of a frame as sent, as far as they decide an arbitration: identifier, control field, data (R371, ISO 11898-1). -/
def sentBits (passive : Bool) (f : CanFrame) : List Bool :=
  let id (hi lo : Nat) : List Bool := ((List.range (hi + 1 - lo)).map (fun i => f.id.getLsbD (hi - i)))
  let rr := !f.fdf && f.rtr
  let head := if f.ide then id 28 18 ++ [true, true] ++ id 17 0 ++ [rr] else id 28 18 ++ [rr, false]
  let ctl := if f.fdf then [true, false, f.brs, passive] else if f.ide then [false, false] else [false]
  head ++ ctl ++ (List.range 4).map (fun i => f.dlc.getLsbD (3 - i)) ++
    (if rr then [] else f.data.flatMap (fun b => (List.range 8).map (fun i => b.getLsbD (7 - i))))

/-- Whether the first bit string wins: dominant (false) at the first difference. -/
def wins : List Bool → List Bool → Bool
  | a :: r, b :: t => if a = b then wins r t else !a
  | _, _ => false

/-! ### Status -/

/-- CF_ERR as the counters stand (R377, R380): a change of state is an event. -/
def State.showErr (s : State) (n : Nat) : State :=
  let x := s.cf n
  let st := if x.off then 2 else if 128 ≤ x.tec ∨ 128 ≤ x.rec_ then 1 else 0
  let a := cfReg n 0x4C
  let was := s.rf a 15 14
  let s := ((s.pf a 31 24 (min x.rec_ 255)).pf a 23 16 (if x.off then 255 else min x.tec 255)).pf a 15 14 st
  if st = was then s else (s.raise (cfPage n) 2).logNamed (cfPage n) evPort 2 st 255

/-- CF_TXSTAT and CF_RXSTAT as the buffers stand. -/
def State.showCan (s : State) (n : Nat) : State :=
  let x := s.cf n
  let fifo := s.cfFifo n
  let s := s.pf (cfReg n 0x54) 21 16 x.fifo.length
  let s := s.pf (cfReg n 0x54) 6 4 (match x.busy with | some k => if fifo then 0 else 2 ^ k | none => 0)
  let s := s.pf (cfReg n 0x5C) 6 0 x.rx.length
  (s.wb (cfReg n 0x5C) 31 x.shadow.isSome).wb (cfReg n 0x5C) 30 x.locked

def State.busyErr (s : State) (n : Nat) : State := s.wb (cfReg n 0x54) 11 true
def State.cfPending (s : State) (n : Nat) : Nat := s.rf (cfReg n 0x54) 10 8
def State.setPending (s : State) (n k : Nat) (b : Bool) : State := s.wb (cfReg n 0x54) (8 + k) b

/-! ### Modes (R369, R376) -/

/-- Whether the timing registers are in the ranges of R369. -/
def State.timingOk (s : State) (n : Nat) : Bool :=
  let a := s.rd (cfReg n 0x44)
  let d := s.rd (cfReg n 0x48)
  let nb := fld a 31 27 + 1
  let n1 := fld a 26 19 + 1
  let n2 := fld a 18 12 + 1
  let nj := fld a 11 5 + 1
  let db := fld d 31 27 + 1
  let d1 := fld d 26 22 + 1
  let d2 := fld d 21 18 + 1
  let dj := fld d 17 14 + 1
  let nq := nb * (1 + n1 + n2)
  let dq := db * (1 + d1 + d2)
  decide (2 ≤ n1) && decide (nj ≤ n2) && decide (dj ≤ d2) && decide (80 ≤ nq) && decide (10 ≤ dq) && decide (dq ≤ nq)

/-- Drop what is on the bus; frames stay pending. -/
def State.leaveBus (s : State) (n : Nat) : State := (s.setCf n { s.cf n with busy := none }).showCan n

/-- A write of CF_MODE (R369, R372, R376): refused for bad timing with CFG_ERR, and SLEEP with SLEEP_ERR while a frame is pending. TX_MODE
changes only in INIT. -/
def State.wrCfMode (s : State) (f : Func) (n : Nat) (v : Word) : State :=
  let a := cfReg n 0x40
  let mode := fld v 31 30
  let old := s.cfMode n
  if mode ≠ 0 ∧ !s.timingOk n then s.wb a 8 true
  else if mode = 3 ∧ (s.cfPending n ≠ 0 ∨ !(s.cf n).fifo.isEmpty) then s.wb a 9 true
  else
    let v := if old = 0 then v else setBit v 29 (s.cfFifo n)
    let s := s.store f a v 0
    let s := if mode = 1 then s else s.leaveBus n
    let stb := decide (mode = 3) && tbit v 26 && !tbit v 25
    { s with pins := { s.pins with canStb := if stb then s.pins.canStb ||| BitVec.ofNat 8 (2 ^ n) else s.pins.canStb &&& ~~~ BitVec.ofNat 8 (2 ^ n) } }

def execCanInit (f : Func) (n : Fin 8) (v : Word) (s : State) : Host.Outcome State Fault Refusal :=
  .next (s.guarded f (cfReg n.val 0x40) (fun s => s.wrCfMode f n.val v))
def execCanNormal (f : Func) (n : Fin 8) (v : Word) (s : State) : Host.Outcome State Fault Refusal :=
  .next (s.guarded f (cfReg n.val 0x40) (fun s => s.wrCfMode f n.val v))
def execCanListen (f : Func) (n : Fin 8) (v : Word) (s : State) : Host.Outcome State Fault Refusal :=
  .next (s.guarded f (cfReg n.val 0x40) (fun s => s.wrCfMode f n.val v))
def execCanSleep (f : Func) (n : Fin 8) (v : Word) (s : State) : Host.Outcome State Fault Refusal :=
  .next (s.guarded f (cfReg n.val 0x40) (fun s => s.wrCfMode f n.val v))

/-- Timing registers change only in INIT (R369). -/
def State.wrCfTiming (s : State) (f : Func) (n off : Nat) (v : Word) : State :=
  if s.cfMode n = 0 then s.store f (cfReg n off) v 0 else s

/-! ### Reception (R373, R374) -/

/-- Whether filter k matches a frame (R373). -/
def State.fltHit (s : State) (n k : Nat) (f : CanFrame) : Bool :=
  let a := s.rd (cfReg n (0x400 + 16 * k))
  let m := s.rf (cfReg n (0x404 + 16 * k)) 28 0
  tbit a 31 && tbit a 30 == f.ide && ((fld a 28 0 ^^^ f.id.toNat) &&& m) == 0

/-- Store a frame in the receive FIFO or the shadow entry (R374). -/
def State.cfStore (s : State) (n : Nat) (r : CanRx) : State :=
  let x := s.cf n
  if x.rx.length < 64 then (s.setCf n { x with rx := x.rx ++ [r] }).showCan n
  else
    let s := if x.shadow.isSome then (s.addSat (cfReg n 0x74) 1).raise (cfPage n) 8 else s
    (s.setCf n { s.cf n with shadow := some r }).showCan n

/-- The FILTER field of a stored frame: the lowest matching filter; free where none matches. -/
def State.fltOf (s : State) (n : Nat) (f : CanFrame) : Nat × Bool × State :=
  match (List.range 32).find? (fun k => s.fltHit n k f) with
  | some k => (k, true, s)
  | none => let (m, s) := s.take; ((Config.freeWord m).toNat % 32, false, s)

/-- The PTP time of the start of frame of a frame that ends now (R373), `age` protocol clocks of 12.5 ns later. -/
def State.sofTime (s : State) (age : Nat) : Nat := (2 * s.ptpNs - 25 * age) / 2

/-- A frame received without error passes the filters (R373, R379): matches are counted and clear TIMED_OUT; an accepted frame is stored
with the PTP time of its start. -/
def State.cfFilter (s : State) (n : Nat) (f : CanFrame) (age : Nat) : State :=
  let s := (List.range 32).foldl (fun s k =>
    if s.fltHit n k f then (s.incSat (cfReg n (0x40C + 16 * k)) 15 0).wb (cfReg n (0x40C + 16 * k)) 31 false else s) s
  let (k, hit, t) := s.fltOf n f
  if hit || s.rb (cfReg n 0x40) 28 then
    (t.cfStore n ⟨f, false, k, false, t.sofTime age / 1000000000, t.sofTime age % 1000000000⟩).raise (cfPage n) 0
  else s

/-- The identifier, format and status words, the stamp and the data of the receive head (R375). -/
def headWords (r : CanRx) : List Word :=
  let f := r.frame
  [w32 (b2n f.ide * 2 ^ 31 + b2n (f.rtr && !f.fdf) * 2 ^ 30 + b2n f.fdf * 2 ^ 29 + f.id.toNat),
   w32 (b2n f.brs * 2 ^ 31 + b2n f.esi * 2 ^ 30 + b2n r.echo * 2 ^ 29 + b2n r.lost * 2 ^ 28 + r.filter % 32 * 2 ^ 16 + f.dlc.toNat),
   w32 r.sec, w32 r.ns] ++ (List.range 16).map (fun i => w32 (leAt f.data (4 * i) 4))

/-- A register of the RX head block: free while the FIFO is empty. -/
def State.canHead (s : State) (n off : Nat) : Word × State :=
  match (s.cf n).rx with
  | r :: _ => ((headWords r).getD ((off - 0x300) / 4) 0, s)
  | [] => let (m, s) := s.take; (Config.freeWord m, s)

/-- The first read of RXH_ID locks the head (R374). -/
def State.lockHead (s : State) (n : Nat) : State :=
  let x := s.cf n
  if x.rx.isEmpty then s else (s.setCf n { x with locked := true }).showCan n

/-- RX_POP (R374): the head goes, the shadow enters the tail, LOST_BEFORE as RX_OVERRUN advanced. -/
def State.cfPop (s : State) (n : Nat) : State :=
  let x := s.cf n
  let ovf := (s.rd (cfReg n 0x74)).toNat
  let tail := match x.shadow with
    | some r => [{ r with lost := decide (x.overMark ≠ ovf) }]
    | none => []
  (s.setCf n { x with
    rx := x.rx.drop 1 ++ tail
    shadow := none
    locked := false
    overMark := ovf }).showCan n

/-! ### Transmission (R371, R372) -/

/-- Push the staging frame into the FIFO (R372). -/
def State.cfPush (s : State) (n : Nat) : State :=
  if !s.cfFifo n then s else
  let x := s.cf n
  if 32 ≤ x.fifo.length then s.busyErr n else (s.setCf n { x with fifo := x.fifo ++ [s.blockFrame n 0x280] }).showCan n

/-- Remove every FIFO frame that is not BUSY (R372). -/
def State.cfFlush (s : State) (n : Nat) : State :=
  if !s.cfFifo n then s else
  let x := s.cf n
  (s.setCf n { x with fifo := if x.busy.isSome then x.fifo.take 1 else [] }).showCan n

/-- TXB_REQ of a buffer (R371). -/
def State.cfReqBuf (s : State) (n k : Nat) : State := if s.cfFifo n then s else s.setPending n k true

/-- TXB_ABORT of a buffer (R371): a pending buffer goes at once, a BUSY one at the end of its frame. -/
def State.cfAbortBuf (s : State) (n k : Nat) : State :=
  if s.cfFifo n then s else
  let x := s.cf n
  if x.busy = some k then s.setCf n { x with aborts := x.aborts ++ [k] } else s.setPending n k false

/-- A write of CF_CTL (R380); `arriving` is a frame that completes in the same cycle as RX_POP, with its age. -/
def State.wrCfCtl (s : State) (n : Nat) (v : Word) (arriving : Option (CanFrame × Nat)) : State :=
  let s := if tbit v 0 then s.cfPop n else s
  let s := match arriving with | some f => s.cfFilter n f.1 f.2 | none => s
  let s := if tbit v 2 then s.cfFlush n else s
  let s := if tbit v 1 then s.cfPush n else s
  let s := if tbit v 3 && (s.cf n).off then s.setCf n { s.cf n with counting := true } else s
  let s := (List.range 3).foldl (fun s k => if tbit v (4 + k) then s.cfReqBuf n k else s) s
  (List.range 3).foldl (fun s k => if tbit v (8 + k) then s.cfAbortBuf n k else s) s

def execTxbReq (f : Func) (n : Fin 8) (v : Word) (s : State) : Host.Outcome State Fault Refusal :=
  .next (s.guarded f (cfReg n.val 0x50) (fun s => s.wrCfCtl n.val v none))
def execTxbAbort (f : Func) (n : Fin 8) (v : Word) (s : State) : Host.Outcome State Fault Refusal :=
  .next (s.guarded f (cfReg n.val 0x50) (fun s => s.wrCfCtl n.val v none))
def execTxfPush (f : Func) (n : Fin 8) (v : Word) (s : State) : Host.Outcome State Fault Refusal :=
  .next (s.guarded f (cfReg n.val 0x50) (fun s => s.wrCfCtl n.val v none))
def execTxfFlush (f : Func) (n : Fin 8) (v : Word) (s : State) : Host.Outcome State Fault Refusal :=
  .next (s.guarded f (cfReg n.val 0x50) (fun s => s.wrCfCtl n.val v none))
def execRxPop (f : Func) (n : Fin 8) (v : Word) (arriving : Option (CanFrame × Nat)) (s : State) : Host.Outcome State Fault Refusal :=
  .next (s.wrCfCtl n.val (if s.mayWrite f (cfReg n.val 0x50) then v else 0) arriving)
def execRecover (f : Func) (n : Fin 8) (v : Word) (s : State) : Host.Outcome State Fault Refusal :=
  .next (s.guarded f (cfReg n.val 0x50) (fun s => s.wrCfCtl n.val v none))

/-- A write to a transmit buffer (R371): discarded with BUSY_ERR while the buffer is BUSY. -/
def State.wrTxb (s : State) (f : Func) (n off : Nat) (v : Word) : State :=
  let k := (off - 0x100) / 0x80
  if k < 3 ∧ !s.cfFifo n ∧ (s.cf n).busy = some k then s.busyErr n else s.store f (cfReg n off) v 0

/-- The frame that stands on the bus. -/
def State.busFrame (s : State) (n : Nat) : Option CanFrame :=
  match (s.cf n).busy with
  | none => none
  | some k => if s.cfFifo n then (s.cf n).fifo.head? else some (s.blockFrame n (0x100 + 0x80 * k))

/-- Whether the controller may send: NORMAL, on, not bus-off, not suspended (R377, R379). -/
def State.cfSends (s : State) (n : Nat) : Bool :=
  s.cfOn n && s.cfMode n == 1 && !(s.cf n).off && !(s.cf n).suspended

/-- CAN_ARBITRATION (R371, R372): the pending buffer whose frame wins goes on the bus, or the head of the FIFO. -/
def execCanArbitration (n : Fin 8) (s : State) : Host.Outcome State Fault Refusal :=
  let x := s.cf n.val
  if !s.cfSends n.val || x.busy.isSome then .next s
  else if s.cfFifo n.val then
    (if x.fifo.isEmpty then .next s else .next ((s.setCf n.val { x with busy := some 0, sof := s.ptpNs }).showCan n.val))
  else
    let passive := decide (128 ≤ x.tec ∨ 128 ≤ x.rec_)
    let bits (k : Nat) : List Bool := sentBits passive (s.blockFrame n.val (0x100 + 0x80 * k))
    let best := (List.range 3).foldl (fun b k =>
      if (s.cfPending n.val >>> k) % 2 = 0 then b else
      match b with
      | none => some k
      | some j => if wins (bits k) (bits j) then some k else some j) (none : Option Nat)
    match best with
    | none => .next s
    | some k => .next ((s.setCf n.val { x with busy := some k, sof := s.ptpNs }).showCan n.val)

/-- The frame on the bus was lost or hit an error: it stays pending unless an abort waits (R371). -/
def State.cfLost (s : State) (n : Nat) : State :=
  let x := s.cf n
  match x.busy with
  | none => s
  | some k =>
    let s := if x.aborts.contains k then s.setPending n k false else s
    (s.setCf n { x with busy := none, aborts := x.aborts.filter (· != k) }).showCan n

/-- Whether delay compensation works on a frame (R370): TDC_EN, and a frame with bit-rate switching. -/
def State.tdcOn (s : State) (n : Nat) (f : CanFrame) : Bool := s.rb (cfReg n 0x48) 13 && f.fdf && f.brs

/-- Store the measured delay and the secondary sample point: the delay plus TDCO data quanta after a bit's start (R370). -/
def State.measure (s : State) (n delay : Nat) : State :=
  let d := s.rd (cfReg n 0x48)
  s.setCf n { s.cf n with delay := delay, ssp := delay + fld d 12 6 * (fld d 31 27 + 1) }

/-- A kind of error is counted, and LEC holds it (R377). -/
def State.cfErrNote (s : State) (n lec off hi lo : Nat) : State := (s.pf (cfReg n 0x4C) 13 11 lec).incSat (cfReg n off) hi lo

/-- The error counters rise by these amounts; above 255 the controller goes bus-off (R377). -/
def State.cfErrCount (s : State) (n tecAdd recAdd : Nat) : State :=
  let x := s.cf n
  let off := decide (255 < x.tec + tecAdd)
  let s := s.setCf n { x with
    tec := x.tec + tecAdd
    rec_ := x.rec_ + recAdd
    off := off
    counting := off && s.rb (cfReg n 0x40) 27 }
  let s := s.showErr n
  if off then s.leaveBus n else s

/-- A measured delay above 2 µs ends the frame with a bit error (R370), and the frame is retransmitted. Whether it is a BIT1 or a BIT0 error is
not stated and free; TEC rises by 8 as ISO 11898-1 has it. -/
def State.tdcFail (s : State) (n : Nat) : State :=
  let (k, s) := s.take
  let s := if (Config.freeWord k).toNat % 2 = 0 then s.cfErrNote n 4 0x68 31 16 else s.cfErrNote n 5 0x68 15 0
  (s.cfLost n).cfErrCount n 8 0

/-- CAN_FRAME_SENT (R370, R371, R373, R377): the buffer or entry is freed, TEC falls; with RX_ALL the frame is stored with ECHO. `delay` is
the transmitter delay measured in it, in protocol clocks. -/
def execCanFrameSent (n : Fin 8) (delay : Nat) (s : State) : Host.Outcome State Fault Refusal :=
  let tdc := match s.busFrame n.val with | some f => s.tdcOn n.val f | none => false
  let s := if tdc then s.measure n.val delay else s
  if tdc && decide (160 < delay) then .next (s.tdcFail n.val) else
  let x := s.cf n.val
  match x.busy, s.busFrame n.val with
  | some k, some f =>
    let fifo := s.cfFifo n.val
    let esi := decide (128 ≤ x.tec ∨ 128 ≤ x.rec_)
    let s := if fifo then s else s.setPending n.val k false
    let s := s.setCf n.val { x with
      busy := none
      aborts := x.aborts.filter (· != k)
      fifo := if fifo then x.fifo.drop 1 else x.fifo
      tec := x.tec - 1 }
    let s := ((s.showCan n.val).showErr n.val).raise (cfPage n.val) 1
    if s.rb (cfReg n.val 0x40) 28 then
      let (k, _, s) := s.fltOf n.val f
      .next (s.cfStore n.val ⟨{ f with esi := esi && f.fdf }, true, k, false, x.sof / 1000000000, x.sof % 1000000000⟩)
    else .next s
  | _, _ => .next s

/-- CAN_FRAME_RECEIVED (R373, R377): in NORMAL and LISTEN; an own frame on the bus has lost arbitration. FD frames need FD_EN. REC falls as
ISO 11898-1 says: from above 127 to a free value of 119 to 127. -/
def execCanFrameReceived (n : Fin 8) (frame : CanFrame) (age : Nat) (s : State) : Host.Outcome State Fault Refusal :=
  let m := s.cfMode n.val
  if !s.cfOn n.val || (m != 1 && m != 2) || (s.cf n.val).off || (frame.fdf && !s.rb (cfReg n.val 0x40) 24) then .next s else
  let s := s.cfLost n.val
  let x := s.cf n.val
  let (k, s) := if 127 < x.rec_ then s.take else (0, s)
  let r := if 127 < x.rec_ then 119 + (Config.freeWord k).toNat % 9 else x.rec_ - 1
  .next (((s.setCf n.val { s.cf n.val with rec_ := r }).showErr n.val).cfFilter n.val frame age)

/-- The counter of a kind of error: offset, bits (R380). -/
def errField (k : CanErr) : Nat × Nat × Nat × Nat :=
  match k with
  | .stuff => (1, 0x6C, 31, 16) | .form => (2, 0x6C, 15, 0) | .ack => (3, 0x70, 15, 0)
  | .bit1 => (4, 0x68, 31, 16) | .bit0 => (5, 0x68, 15, 0) | .crc => (6, 0x70, 31, 16)

/-- A same-identifier error (R378): three on one identifier within 1 s raise SAME_ID_COLLISION. -/
def State.sameIdErr (s : State) (n : Nat) (f : CanFrame) : State :=
  let id := b2n f.ide * 2 ^ 31 + f.id.toNat
  let s := (s.wr (cfReg n 0x60) (w32 id)).addSat (cfReg n 0x64) 1
  let x := s.cf n
  let t := s.clock.tick
  let l := (if x.sameId = id then x.same.filter (fun u => decide (t - u < 1000000000)) else []) ++ [t]
  if 3 ≤ l.length then
    ((s.setCf n { x with same := [], sameId := id }).raise (cfPage n) 3).logNamed (cfPage n) evPort 2 id 255
  else s.setCf n { x with same := l, sameId := id }

/-- CAN_ERROR (R377, R378): LEC, count by type, the counters by the given amounts, bus-off above 255; a transmitted frame is retried. -/
def execCanError (n : Fin 8) (kind : CanErr) (transmitting outsideArbitration : Bool) (tecAdd recAdd : Nat) (s : State) :
    Host.Outcome State Fault Refusal :=
  let m := s.cfMode n.val
  if !s.cfOn n.val || (m != 1 && m != 2) || (s.cf n.val).off then .next s else
  let (lec, off, hi, lo) := errField kind
  let s := s.cfErrNote n.val lec off hi lo
  let s := match transmitting, s.busFrame n.val with
    | true, some f => if kind = CanErr.bit1 ∧ outsideArbitration then s.sameIdErr n.val f else s
    | _, _ => s
  let s := if transmitting then s.cfLost n.val else s
  .next (s.cfErrCount n.val tecAdd recAdd)

/-- BUS_OFF_RECOVERY (R377): 128 occurrences of 11 recessive bits were counted. -/
def execBusOffRecovery (n : Fin 8) (s : State) : Host.Outcome State Fault Refusal :=
  let x := s.cf n.val
  if x.off && x.counting then
    .next ((s.setCf n.val { x with tec := 0, rec_ := 0, off := false, counting := false }).showErr n.val)
  else .next s

/-- TX_TIMEOUT (R372): a pending buffer, or the FIFO entry `slot`, is removed. -/
def execTxTimeout (n : Fin 8) (slot : Fin 32) (s : State) : Host.Outcome State Fault Refusal :=
  let x := s.cf n.val
  let k := slot.val
  if s.cfFifo n.val then
    (if x.fifo.length ≤ k then .next s else
      let y := { x with fifo := x.fifo.take k ++ x.fifo.drop (k + 1), busy := if k = 0 then none else x.busy }
      .next ((((s.setCf n.val y).showCan n.val).raise (cfPage n.val) 6).logNamed (cfPage n.val) evPort 2 6 255))
  else if 3 ≤ k ∨ (s.cfPending n.val >>> k) % 2 = 0 then .next s
  else
    let y := { x with busy := if x.busy = some k then none else x.busy, aborts := x.aborts.filter (· != k) }
    .next (((((s.setPending n.val k false).setCf n.val y).showCan n.val).raise (cfPage n.val) 6).logNamed (cfPage n.val) evPort 2 6 255)

/-- RX_TIMEOUT (R379): a valid filter with a timeout saw no match. -/
def execRxTimeout (n : Fin 8) (flt : Fin 32) (s : State) : Host.Outcome State Fault Refusal :=
  let a := cfReg n.val (0x400 + 16 * flt.val)
  if s.rb a 31 && s.rf (a + 8) 15 0 != 0 then
    .next (((s.wb (a + 0xC) 31 true).raise (cfPage n.val) 5).logNamed (cfPage n.val) evPort 2 5 255)
  else .next s

/-- BUS_DOMINANT and BUS_RECESSIVE (R379): transmission is suspended until the bus is recessive. -/
def execBusDominant (n : Fin 8) (s : State) : Host.Outcome State Fault Refusal :=
  if !s.cfOn n.val || s.cfMode n.val == 0 || s.cfMode n.val == 3 then .next s else
  let s := (s.cfLost n.val).setCf n.val { (s.cfLost n.val).cf n.val with suspended := true }
  .next ((s.raise (cfPage n.val) 7).logNamed (cfPage n.val) evPort 2 7 255)

def execBusRecessive (n : Fin 8) (s : State) : Host.Outcome State Fault Refusal :=
  .next (s.setCf n.val { s.cf n.val with suspended := false })

/-! ### Waking (R376) -/

/-- Whether a frame wakes a controller in WAKE_MODE 1: classical, its identifier and data match. -/
def State.wakeMatch (s : State) (n : Nat) (f : CanFrame) : Bool :=
  let w := s.rd (cfReg n 0x80)
  let m := s.rf (cfReg n 0x84) 28 0
  let d := s.rd64 (cfReg n 0x88)
  let dm := s.rd64 (cfReg n 0x90)
  !f.fdf && tbit w 31 == f.ide && ((fld w 28 0 ^^^ f.id.toNat) &&& m) == 0 && ((leAt f.data 0 8 ^^^ d) &&& dm) == 0

/-- CAN_WAKE (R376): a dominant level in WAKE_MODE 0, a matching frame in WAKE_MODE 1. -/
def execCanWake (n : Fin 8) (frame : Option (CanFrame × Nat)) (s : State) : Host.Outcome State Fault Refusal :=
  if !s.cfOn n.val || s.cfMode n.val != 3 then .next s else
  let wm := s.rb (cfReg n.val 0x40) 25
  let ok := match wm, frame with
    | false, none => true
    | true, some f => s.wakeMatch n.val f.1
    | _, _ => false
  if !ok then .next s else
  let s := s.pf (cfReg n.val 0x40) 31 30 1
  let s := { s with pins := { s.pins with canStb := s.pins.canStb &&& ~~~ BitVec.ofNat 8 (2 ^ n.val) } }
  let s := (s.raise (cfPage n.val) 4).logNamed (cfPage n.val) evPort 2 4 255
  .next (match frame with | some f => s.cfFilter n.val f.1 f.2 | none => s)

end Sys2Proof.Machine
end

