-- ==== Sys2Proof/Machine/Caravan.lean ====
section
/-!
DEFINITION. Caravan (R341 to R346, R357), Glean (R353) and the probe of the augmentation generator (R352).
-/
namespace Sys2Proof.Machine

/-! ### Streams -/

def vsReg (v off : Nat) : Nat := srcReg (16 + v) off
def State.vs (s : State) (v : Nat) : Stream := mapGet dflt s.perc.streams v
def State.setVs (s : State) (v : Nat) (x : Stream) : State := { s with perc := { s.perc with streams := mapSet dflt s.perc.streams v x } }

/-- Whether a packet belongs to stream v (R342). -/
def State.vsTakes (s : State) (v : Nat) (p : RtpPacket) : Bool :=
  let c := s.rd (vsReg v 0x20)
  s.srcOn (16 + v) && fld c 27 26 == p.port.val && fld c 15 0 == p.udpPort.toNat && fld c 22 16 == p.payloadType.toNat &&
  (!tbit c 25 || s.rd (vsReg v 0x24) == p.ssrc)

/-- Packets lost by stream v. -/
def State.vsLost (s : State) (v n : Nat) : State :=
  s.pf (vsReg v 0x2C) 15 0 (min (s.rf (vsReg v 0x2C) 15 0 + n) 0xFFFF)

/-- Compressed data in a stream's buffer (R341). -/
def Stream.fill (x : Stream) : Nat :=
  (x.held.map (fun p => p.2.2.payload.length)).sum + (x.got.map (fun p => p.2.payload.length)).sum +
    (x.ended.map (fun l => (l.map (fun p => p.2.payload.length)).sum)).sum

/-- A packet is delivered (R342): a picture ends before a packet with another RTP timestamp, and at the marker bit. -/
def Stream.deliver (x : Stream) (t : Nat) (p : RtpPacket) : Stream :=
  let x := if x.got.any (fun g => g.2.time != p.time) then { x with ended := x.ended ++ [x.got], got := [] } else x
  if p.marker then { x with ended := x.ended ++ [x.got ++ [(t, p)]], got := [] } else { x with got := x.got ++ [(t, p)] }

/-- Deliver the held packets that follow without a gap. -/
def flushHeld : Nat → Stream → Stream
  | 0, x => x
  | n + 1, x =>
    match x.held, x.next with
    | (e, t, p) :: r, some k => if e = k then flushHeld n (({ x with held := r, next := some (k + 1) } : Stream).deliver t p) else x
    | _, _ => x

/-- Hold a packet by extended sequence number. -/
def insHeld (e t : Nat) (p : RtpPacket) : List (Nat × Nat × RtpPacket) → List (Nat × Nat × RtpPacket)
  | [] => [(e, t, p)]
  | h :: r => if e < h.1 then (e, t, p) :: h :: r else h :: insHeld e t p r

/-- A packet of stream v arrives (R341, R342, R346): older packets and duplicates are discarded and counted, a full buffer loses it. What
it loses is counted at once. -/
def State.vsArrive (s : State) (v : Nat) (p : RtpPacket) : State :=
  let x := { s.vs v with stalled := false }
  let base : Nat := x.next.getD (p.seq.toNat + 65536)
  let d : Int := toS 16 (p.seq.toNat + 65536 - base % 65536)
  let e : Nat := ((base : Int) + d).toNat
  if decide (d < 0) || x.held.any (fun h => h.1 == e) then s.setVs v { x with dups := x.dups + 1 }
  else if 2 ^ 22 < x.fill + p.payload.length then (s.setVs v { x with next := some base, spilled := x.spilled ++ [e] }).vsLost v 1
  else
    let x := { x with next := some base, held := insHeld e s.now p x.held }
    s.setVs v (flushHeld (x.held.length + 1) x)

/-- RTP_PACKET (R342). -/
def execRtpPacket (p : RtpPacket) (s : State) : Host.Outcome State Fault Refusal :=
  .next (((List.range 80).filter (fun v => s.vsTakes v p)).foldl (fun s v => s.vsArrive v p) s)

/-- JITTER_EXPIRY (R342): the gap before the first held packet is declared lost; what a full buffer lost of it is counted already. -/
def execJitterExpiry (vs : Fin 80) (s : State) : Host.Outcome State Fault Refusal :=
  let x := s.vs vs.val
  match x.held, x.next with
  | (e, _, _) :: _, some k =>
    let known := (x.spilled.filter (fun n => decide (k ≤ n ∧ n < e))).length
    let s := s.setVs vs.val (flushHeld (x.held.length + 1) { x with next := some e, spilled := x.spilled.filter (fun n => decide (e < n)) })
    .next (s.vsLost vs.val (e - k - known))
  | _, _ => .next s

/-- STALLED (R346): the event, until the next packet. -/
def execStalled (vs : Fin 80) (s : State) : Host.Outcome State Fault Refusal :=
  let src := 16 + vs.val
  if !s.srcOn src || (s.vs vs.val).stalled then .next s
  else
    let s := s.setVs vs.val { s.vs vs.val with stalled := true }
    .next ((s.raise (srcPg src) 3).logNamed (srcPg src) evPort 6 src (s.srcOwner src))

/-! ### Pictures -/

/-- CU_COUNT of a picture (R343). -/
def cuCount (p : Picture) : Nat := p.lost.length + p.predicted

/-- The coding unit of a luma sample. -/
def unitAt (p : Picture) (x y : Nat) : Nat := y / p.unit * ((p.width + p.unit - 1) / p.unit) + x / p.unit

/-- Mid-grey (R343). -/
def midGrey (tenBit : Bool) : Nat := if tenBit then 512 else 128

/-- What stands in for missing data (R343): the most recent correctly decoded picture of the stream, or mid-grey where none has this
picture's form. -/
def standIn (good : Option Picture) (p : Picture) : Picture :=
  match good with
  | some g =>
    if g.width = p.width ∧ g.height = p.height ∧ g.tenBit = p.tenBit then g
    else { p with luma := p.luma.map (fun _ => midGrey p.tenBit), chroma := p.chroma.map (fun _ => midGrey p.tenBit) }
  | none => { p with luma := p.luma.map (fun _ => midGrey p.tenBit), chroma := p.chroma.map (fun _ => midGrey p.tenBit) }

/-- The units of lost slices take the co-located units of the stand-in (R343). -/
def conceal (good : Option Picture) (p : Picture) : Picture :=
  if p.lost.isEmpty then p else
  let g := standIn good p
  let cw := p.width / 2
  { p with
    luma := (p.luma.zip g.luma).mapIdx (fun k v => if p.lost.contains (unitAt p (k % p.width) (k / p.width)) then v.2 else v.1)
    chroma := (p.chroma.zip g.chroma).mapIdx (fun k v =>
      if p.lost.contains (unitAt p (k / 2 % cw * 2) (k / 2 / cw * 2)) then v.2 else v.1) }

/-- Whether a picture keeps the profile and the level of its codec (R341): 4:2:0 of 8 bits in H.264, of 8 or 10 in H.265; from 128 × 128 up to the
largest picture of level 5.1, which the standards give (log 31). CODEC 2 and 3 have no meaning: the answer is free. -/
def State.pictureOk (s : State) (v : Nat) (p : Picture) : Bool × State :=
  let mb (n : Nat) : Nat := (n + 15) / 16
  let size := decide (128 ≤ p.width ∧ 128 ≤ p.height)
  match s.rf (vsReg v 0x20) 31 30 with
  | 0 => (size && !p.tenBit && decide (mb p.width * mb p.height ≤ 36864 ∧ mb p.width ≤ 543 ∧ mb p.height ≤ 543), s)
  | 1 => (size && decide (p.width * p.height ≤ 8912896 ∧ p.width ≤ 8444 ∧ p.height ≤ 8444), s)
  | _ => let (n, s) := s.take; ((Config.freeWord n).toNat % 2 == 0, s)

/-- RGB of one pixel (R345). -/
def rgbOf (bt601 : Bool) (y u v : Nat) : List Nat :=
  let (a, b, c, d) : Int × Int × Int × Int := if bt601 then (6537, 1605, 3330, 8263) else (7343, 873, 2183, 8652)
  let l : Int := 4769 * ((y : Int) - 16)
  let cl (x : Int) : Nat := (clampI 0 255 ((x + 2048) / 4096)).toNat
  [cl (l + a * ((v : Int) - 128)), cl (l - b * ((u : Int) - 128) - c * ((v : Int) - 128)), cl (l + d * ((u : Int) - 128))]

/-- The view of a picture (R345): NV12, P010, or RGB with chroma repeated and P010 samples rounded to 8 bits first. -/
def picView (out : Nat) (p : Picture) : Nat × View :=
  let to8 (v : Nat) : Nat := if p.tenBit then rneShr v 2 else v
  let cw := (p.width + 1) / 2
  if out = 0 then
    (if p.tenBit then 3 else 2, ⟨p.width, p.height, 0, 0, (p.luma ++ p.chroma).map (fun v => if p.tenBit then v * 64 else v)⟩)
  else
    (0, ⟨p.width, p.height, 0, 0, (List.range p.height).flatMap (fun y => (List.range p.width).flatMap (fun x =>
      let k := 2 * (y / 2 * cw + x / 2)
      rgbOf (out == 2) (to8 (p.luma.getD (y * p.width + x) 0)) (to8 (p.chroma.getD k 0)) (to8 (p.chroma.getD (k + 1) 0))))⟩)

/-- Whether a picture is forwarded (R344). POLICY 3 has no meaning: the choice is free. -/
def State.keepPicture (s : State) (t cu : Nat) : Bool × State :=
  match s.rf (rga 0x530 (0x40 + 16 * t)) 1 0 with
  | 0 => (true, s)
  | 1 => (cu == 0, s)
  | 2 => (cu == 0 || decide (cu ≤ (s.rd (rga 0x530 (0x4C + 16 * t))).toNat), s)
  | _ => let (n, s) := s.take; (cu == 0 || (Config.freeWord n).toNat % 2 == 0, s)

/-- The output form of a stream; VS_CFG OUT 3 has no meaning: the form is free. -/
def State.outForm (s : State) (v : Nat) : Nat × State :=
  let o := s.rf (vsReg v 0x20) 29 28
  if o < 3 then (o, s) else let (n, s) := s.take; ((Config.freeWord n).toNat % 3, s)

/-- Take the first picture with this RTP timestamp out of the ended ones: its packets, and the others. -/
def takePicture (time : Word) : List (List (Nat × RtpPacket)) → List (Nat × RtpPacket) × List (List (Nat × RtpPacket))
  | [] => ([], [])
  | l :: r => if l.any (fun g => g.2.time == time) then (l, r) else (let (m, r) := takePicture time r; (m, l :: r))

/-- A picture leaves the decoder (R343, R344, R350): its packets leave the buffer, missing units are concealed, and one that is correctly
decoded stands in for what later ones miss. -/
def State.picture (s : State) (v : Nat) (p : Picture) : State :=
  let src := 16 + v
  let t := s.srcOwner src
  let x := s.vs v
  let (own, rest) := takePicture p.rtpTime x.ended
  let mine := own.map (·.1)
  let (fits, s) := s.pictureOk v p
  let bad := p.syntaxBad || !fits
  let p := conceal x.good p
  let s := s.setVs v { x with ended := rest, good := if bad || cuCount p != 0 then x.good else some p }
  let s := if cuCount p = 0 then s else s.incSat (vsReg v 0x2C) 31 16
  if bad then s.corruptSample src else
  let (keep, s) := s.keepPicture t (cuCount p)
  if !keep then s.manUpdate t src 3 0xFFFFFFFF else
  let (out, s) := s.outForm v
  let (first, last, s) := match mine with
    | [] => ((Config.freeWord s.fresh).toNat, (Config.freeWord (s.fresh + 1)).toNat, { s with fresh := s.fresh + 2 })
    | a :: r => (a, (a :: r).getLastD a, s)
  let (fmt, view) := picView out p
  s.addSampleOf src
    { fmt := fmt
      frame := p.order
      tStart := first
      tEnd := last
      ptpLo := p.rtpTime.toNat
      ptpHi := 0
      exp := 0
      gain := 0
      cu := cuCount p
      flags := b2n (cuCount p != 0)
      index := 0
      views := [some view, none, none, none, none]
      embed := []
      hist := []
      zones := [] }

/-- PICTURE_DECODED (R343). -/
def execPictureDecoded (vs : Fin 80) (pic : Picture) (s : State) : Host.Outcome State Fault Refusal :=
  if s.srcOn (16 + vs.val) then .next (s.picture vs.val pic) else .next s

/-! ### The probe (R352) -/

/-- draw() for the probe registers. -/
def State.probe (s : State) : Nat :=
  draw (s.rd64 (rga 0x530 0x100)) (s.rd (rga 0x530 0x108)).toNat (s.rf (rga 0x530 0x10C) 31 28) (s.rf (rga 0x530 0x10C) 27 0)


/-! ### Glean (R353) -/

def glReg (off : Nat) : Nat := rga 0x520 off

/-- Slot i of a vocabulary at `voc`: LEN, token, string. -/
def State.vocSlot (s : State) (voc i : Nat) : Nat × Nat × List Byte :=
  let b := s.hbmRead (voc + 48 * i) 48
  (leAt b 0 1, leAt b 4 4, bslice b 8 32)

/-- Probe the table for a string of l bytes, at most n slots from slot t. -/
def State.vocFind (s : State) (voc size : Nat) (str : List Byte) : Nat → Nat → Option Nat
  | 0, _ => none
  | n + 1, t =>
    let (len, tok, x) := s.vocSlot voc t
    if len = 0 then none
    else if len = str.length ∧ x.take len = str then some tok
    else s.vocFind voc size str n ((t + 1) % size)

/-- The longest match at the head of the text: its token and length. -/
def State.longest (s : State) (voc size : Nat) (txt : List Byte) : Nat → Option (Nat × Nat)
  | 0 => none
  | l + 1 =>
    let str := txt.take (l + 1)
    match s.vocFind voc size str 64 (fnv1a str % size) with
    | some tok => some (tok, l + 1)
    | none => s.longest voc size txt l

/-- Greedy longest match of the text (R353), at most `room` tokens: the tokens and whether text was left. -/
def State.tokens (s : State) (voc size base : Nat) : Nat → Nat → List Byte → List Nat × Bool
  | _, _, [] => ([], false)
  | 0, _, _ => ([], false)
  | n + 1, room, b :: r =>
    if room = 0 then ([], true) else
    let (tok, l) := (s.longest voc size (b :: r) (min 32 (r.length + 1))).getD ((base + b.toNat) % 2 ^ 32, 1)
    let (ts, o) := s.tokens voc size base n (room - 1) ((b :: r).drop l)
    (tok :: ts, o)

/-- A write of GL_CTL (R353, R358): TENANT; START begins a request, or sets BUSY_ERR or BOUNDS. -/
def State.wrGlCtl (s : State) (f : Func) (v : Word) : State :=
  if tbit v 0 && s.rb (glReg 0x6C) 30 then s.wb (glReg 0x6C) 27 true else
  let s := s.store f (glReg 0x68) v 0
  if !tbit v 0 then s else
  let t := fld v 7 4
  let r := (List.range 10).map (fun i => s.rd (glReg (0x40 + 4 * i)))
  let vl := s.rf (glReg 0x60) 20 16
  let (a, s) := s.unitAccess t false (s.rd64 (glReg 0x40)) (s.rd (glReg 0x48)).toNat
  let (b, s) := s.unitAccess t true (s.rd64 (glReg 0x4C)) (4 * (s.rd (glReg 0x54)).toNat)
  let (c, s) := s.unitAccess t false (s.rd64 (glReg 0x58)) (48 * 2 ^ vl)
  if a && b && c then ({ s with perc := { s.perc with glean := some (r ++ [w32 t]) } } : State).wb (glReg 0x6C) 30 true
  else s.wb (glReg 0x6C) 28 true

def execGleanStart (f : Func) (v : Word) (s : State) : Host.Outcome State Fault Refusal :=
  .next (s.guarded f (glReg 0x68) (fun s => s.wrGlCtl f v))

/-- GLEAN_DONE (R353): the tokens are written, DONE and the count set; more than MAX tokens sets OVERFLOW. -/
def execGleanDone (s : State) : Host.Outcome State Fault Refusal :=
  match s.perc.glean with
  | none => .next s
  | some r =>
    let w (i : Nat) : Nat := (r.getD i 0).toNat
    let txt := s.hbmRead (w 0 + w 1 * 2 ^ 32) (w 2)
    let (ts, ovf) := s.tokens (w 6 + w 7 * 2 ^ 32) (2 ^ nfld (w 8) 20 16) (w 9) txt.length (w 5) txt
    let s := s.hbmWrite (w 3 + w 4 * 2 ^ 32) (ts.flatMap (natLe 4))
    let s := ({ s with perc := { s.perc with glean := none } } : State).wr (glReg 0x70) (w32 ts.length)
    let s := (s.wb (glReg 0x6C) 30 false).wb (glReg 0x6C) 31 true
    .next (if ovf then s.wb (glReg 0x6C) 29 true else s)

end Sys2Proof.Machine
end

