-- ==== Sys2Proof/Machine/Eth.lean ====
section
/-!
DEFINITION. The Ethernet ports (R278 to R282, R359 to R367): reception and filters, descriptor rings, transmission, launch times, the
transparent clock.
-/
namespace Sys2Proof.Machine

def ethPage (p : Nat) : Nat := 0x310 + p
def ethReg (p off : Nat) : Nat := rga (ethPage p) off
def txqReg (p q off : Nat) : Nat := ethReg p (0x80 + 0x10 * q + off)
def rxqReg (p q off : Nat) : Nat := ethReg p (0x100 + 0x10 * q + off)

def State.ethPort (s : State) (p : Nat) : EthPort := mapGet dflt s.eth p
def State.setEth (s : State) (p : Nat) (x : EthPort) : State := { s with eth := mapSet dflt s.eth p x }
def State.ethHead (s : State) (p q : Nat) : Option EthHead := ((s.ethPort p).heads.find? (fun h => h.1 == q)).map (·.2)
def State.setHead (s : State) (p q : Nat) (h : Option EthHead) : State :=
  let x := s.ethPort p
  let l := x.heads.filter (fun e => e.1 != q)
  s.setEth p { x with heads := match h with | some h => l ++ [(q, h)] | none => l }

/-- ENABLE and link of a port. -/
def State.ethOn (s : State) (p : Nat) : Bool := s.blkOn (ethPage p)
def State.ethUp (s : State) (p : Nat) : Bool := s.ethOn p && s.rb (ethReg p 0x54) 0
def State.ethMax (s : State) (p : Nat) : Nat := s.rf (ethReg p 0x40) 13 0

/-- A frame dropped on a queue, and the drop event (R364, R367). -/
def State.ethDrop (s : State) (p : Nat) : State := s.raise (ethPage p) 4
def State.qDrop (s : State) (p qreg : Nat) : State := (s.addSat (qreg + 0xC) 1).ethDrop p

/-- A ring access outside its owner's regions stops the queue (R362). -/
def State.ethStop (s : State) (p qreg : Nat) : State :=
  ((s.wb qreg 29 true).raise (ethPage p) 2).logNamed (ethPage p) evPort 6 2 255

/-- Whether a queue runs. -/
def State.ethQ (s : State) (qreg : Nat) : Bool := s.rb qreg 31 && !s.rb qreg 29
def State.ethOwner (s : State) (qreg : Nat) : Nat := s.rf qreg 23 20
def State.ethRing (s : State) (qreg : Nat) : Nat := s.rd64 (qreg + 4)
def State.ethSize (s : State) (qreg : Nat) : Nat := 2 ^ s.rf qreg 4 0

/-- The producer and consumer counts of a ring, and the address of the consumer's descriptor, or a stop (R362). -/
def State.ringHead (s : State) (p qreg : Nat) : Option (Nat × Nat × Nat) × State :=
  let base := s.ethRing qreg
  let (ok, s) := s.unitAccess (s.ethOwner qreg) true base 64
  if !ok then (none, s.ethStop p qreg) else
  let prod := leNat (s.hbmRead base 8)
  let cons := leNat (s.hbmRead (base + 8) 8)
  let d := base + 64 + 32 * (cons % s.ethSize qreg)
  let (ok, s) := s.unitAccess (s.ethOwner qreg) true d 32
  if ok then (some (prod, cons, d), s) else (none, s.ethStop p qreg)

/-- The module's count of a ring rises by one. -/
def State.bumpRing (s : State) (qreg cons : Nat) : State := s.hbmWrite (s.ethRing qreg + 8) (natLe 8 (cons + 1))

/-! ### PTP messages (R278 to R280) -/

/-- The offset of the bytes behind the addresses and a tag. -/
def ethType (f : List Byte) : Nat × Nat := if beAt f 12 2 = 0x8100 then (beAt f 16 2, 18) else (beAt f 12 2, 14)

/-- The offset of the PTP message in a frame: over Ethernet, or UDP over IPv4 on port 319 or 320; version 2, minor 0 or 1 (R278). -/
def ptpAt (f : List Byte) : Option Nat :=
  let (ty, o) := ethType f
  let o' :=
    if ty = 0x88F7 then some o
    else if ty = 0x0800 ∧ beAt f o 1 / 16 = 4 ∧ beAt f (o + 9) 1 = 17 then
      (let u := o + beAt f o 1 % 16 * 4
       if beAt f (u + 2) 2 = 319 ∨ beAt f (u + 2) 2 = 320 then some (u + 8) else none)
    else none
  match o' with
  | some k => if k + 34 ≤ f.length ∧ beAt f (k + 1) 1 % 16 = 2 ∧ beAt f (k + 1) 1 / 16 ≤ 1 then some k else none
  | none => none

/-- messageType of the PTP message at k, and whether it is an event message. -/
def ptpType (f : List Byte) (k : Nat) : Nat := beAt f k 1 % 16
def isEvent (ty : Nat) : Bool := decide (ty ≤ 3)

/-- Whether a PTP message is forwarded: Pdelay messages are not in P2P mode, where Delay_Req is not used (R280). -/
def forwards (p2p : Bool) (ty : Nat) : Bool := !(p2p && (ty == 1 || ty == 2 || ty == 3 || ty == 10))

/-- The one's complement sum after a field changes from old to new. -/
def csumStep (c old new : Nat) : Nat :=
  let x := (0xFFFF - c) + (0xFFFF - old) + new
  let x := x % 65536 + x / 65536
  0xFFFF - (x % 65536 + x / 65536)

/-- Put bytes into a frame. -/
def putAt (f : List Byte) (o : Nat) (b : List Byte) : List Byte := f.take o ++ b ++ f.drop (o + b.length)

/-- Add n units of 2^-16 ns to correctionField; the UDP checksum follows (R280). The residence is negative where the clock was set back. -/
def correct (f : List Byte) (k : Nat) (n : Int) : List Byte :=
  let old := beAt f (k + 8) 8
  let new := ofS 64 ((old : Int) + n)
  let g := putAt f (k + 8) (natBe 8 new)
  if (ethType f).1 = 0x0800 ∧ beAt f (k - 2) 2 ≠ 0 then
    let c := (List.range 4).foldl (fun c i => csumStep c (beAt f (k + 8 + 2 * i) 2) (beAt g (k + 8 + 2 * i) 2)) (beAt f (k - 2) 2)
    putAt g (k - 2) (natBe 2 (if c = 0 then 0xFFFF else c))
  else g

/-- The PTP time of a stamp: the clock with the port's latency (R279). -/
def State.rxStamp (s : State) (p : Nat) : Nat := s.ptpNs - s.rf (mpReg (0x140 + 0x20 * p)) 31 16
def State.txStamp (s : State) (p : Nat) : Nat := s.ptpNs + s.rf (mpReg (0x140 + 0x20 * p)) 15 0

/-- Forward a PTP message to every other port whose link is up (R361, R365). -/
def State.ptpForward (s : State) (p stamp : Nat) (f : List Byte) : State :=
  ((List.range 4).filter (fun o => o != p && s.ethUp o)).foldl (fun s o =>
    let x := s.ethPort o
    if x.fwd.length < 16 then
      s.setEth o { x with fwd := x.fwd ++ [⟨stamp, (s.rd (mpReg (0x14C + 0x20 * p))).toNat, f⟩] }
    else (s.incSat (ethReg o 0x18C) 15 0).ethDrop o) s

/-! ### Reception (R361, R364) -/

/-- The port's own address as a number, octet 0 most significant. -/
def State.macAddr (s : State) (p : Nat) : Nat := s.rf (ethReg p 0x50) 15 0 * 2 ^ 32 + (s.rd (ethReg p 0x4C)).toNat

/-- The multicast addresses of PTP over Ethernet and over UDP. -/
def ptpMacs : List Nat := [0x011B19000000, 0x0180C200000E, 0x01005E000181, 0x01005E00006B]

def State.addrOk (s : State) (p dst : Nat) : Bool :=
  let c := s.rd (ethReg p 0x40)
  tbit c 27 || dst == s.macAddr p || dst == 0xFFFFFFFFFFFF || ptpMacs.contains dst || (tbit c 26 && dst / 2 ^ 40 % 2 == 1)

/-- The RTP packet a frame carries, if it is UDP over IPv4 (R341). -/
def rtpOf (p : Nat) (f : List Byte) : Option RtpPacket :=
  let (ty, o) := ethType f
  if ty = 0x0800 ∧ beAt f o 1 / 16 = 4 ∧ beAt f (o + 9) 1 = 17 then
    let u := o + beAt f o 1 % 16 * 4
    let v := beAt f (u + 8) 1
    let head := u + 20 + 4 * (v % 16)
    let head := if v / 16 % 2 = 1 then head + 4 + 4 * beAt f (head + 2) 2 else head
    let stop := u + beAt f (u + 4) 2
    let stop := if v / 32 % 2 = 1 then stop - beAt f (stop - 1) 1 else stop
    some ⟨Fin.ofNat 4 p, BitVec.ofNat 16 (beAt f (u + 2) 2), BitVec.ofNat 7 (beAt f (u + 9) 1), w32 (beAt f (u + 16) 4),
      BitVec.ofNat 16 (beAt f (u + 10) 2), w32 (beAt f (u + 12) 4), beAt f (u + 9) 1 ≥ 128, bslice f head (stop - head)⟩
  else none

/-- Deliver a frame to receive queue q (R362, R364). -/
def State.ethDeliver (s : State) (p q stamp tci flags : Nat) (f : List Byte) : State :=
  let r := rxqReg p q 0
  let noBuf (s : State) : State := (s.incSat (ethReg p 0x188) 31 16).qDrop p r
  if !s.ethQ r then noBuf s else
  match s.ringHead p r with
  | (none, s) => s.qDrop p r
  | (some (prod, cons, d), s) =>
    if prod = cons then noBuf s
    else if leNat (s.hbmRead (d + 8) 2) < f.length then (s.incSat (ethReg p 0x188) 15 0).qDrop p r
    else
      let a := leNat (s.hbmRead d 8)
      let (ok, s) := s.unitAccess (s.ethOwner r) true a f.length
      if !ok then (s.ethStop p r).qDrop p r else
      let s := s.hbmWrite a f
      let s := s.hbmWrite (d + 10) (natLe 2 f.length ++ natLe 1 flags ++ zeros 1 ++ natLe 2 tci ++ natLe 4 (stamp / 1000000000) ++
        natLe 4 (stamp % 1000000000) ++ zeros 8)
      s.bumpRing r cons

/-- The frame classified after the address and VLAN filters (R361 steps 3 to 7). -/
def State.classify (s : State) (p : Nat) (f : List Byte) : State :=
  let c := s.rd (ethReg p 0x40)
  let tagged := beAt f 12 2 == 0x8100
  let tci := if tagged then beAt f 14 2 else fld c 20 18 * 8192 + s.rf (ethReg p 0x44) 11 0
  let vid := tci % 4096
  if (ethType f).1 = 0x8808 then (s.incSat (ethReg p 0x18C) 31 16).ethDrop p
  else if tbit c 25 && tagged && !s.rb (ethReg p (0x200 + 4 * (vid / 32))) (vid % 32) then (s.incSat (ethReg p 0x184) 15 0).ethDrop p
  else if (match rtpOf p f with | some r => (List.range 80).any (fun v => s.vsTakes v r) | none => false) then s
  else
    let stamp := s.rxStamp p
    match ptpAt f with
    | some k =>
      let m := s.rd (mpReg 0x130)
      let fw := tbit m 31 && forwards (tbit m 30) (ptpType f k)
      let s := if fw then s.ptpForward p stamp f else s
      s.ethDeliver p (fld c 23 21) stamp tci (b2n tagged + 2 + b2n fw * 4) f
    | none => s.ethDeliver p (s.rf (ethReg p 0x48) (3 * (tci / 8192) + 2) (3 * (tci / 8192))) stamp tci (b2n tagged) f

/-- ETH_FRAME_RECEIVED (R361): a frame without its FCS. -/
def execEthFrameReceived (port : Fin 4) (fcsOk : Bool) (frame : List Byte) (s : State) : Host.Outcome State Fault Refusal :=
  let p := port.val
  if !s.ethUp p then .next s
  else if !fcsOk then .next ((s.incSat (ethReg p 0x180) 31 16).ethDrop p)
  else if frame.length + 4 < 64 ∨ s.ethMax p < frame.length + 4 then .next ((s.incSat (ethReg p 0x180) 15 0).ethDrop p)
  else if !s.addrOk p (beAt frame 0 6) then .next ((s.incSat (ethReg p 0x184) 31 16).ethDrop p)
  else .next (s.classify p frame)

/-! ### Transmission (R362, R363, R365, R281, R282) -/

/-- Finish a transmit descriptor: STATUS, stamp, and the consumer count. -/
def State.txFinish (s : State) (p q desc status stamp : Nat) : State :=
  let r := txqReg p q 0
  let (a, s) := s.unitAccess (s.ethOwner r) true desc 32
  let (b, s) := s.unitAccess (s.ethOwner r) true (s.ethRing r) 64
  if !(a && b) then s.ethStop p r else
  let s := s.hbmWrite (desc + 11) (natLe 1 status)
  let s := if status = 0 then s.hbmWrite (desc + 20) (natLe 4 (stamp / 1000000000) ++ natLe 4 (stamp % 1000000000)) else s
  let s := s.bumpRing r (leNat (s.hbmRead (s.ethRing r + 8) 8))
  if status = 0 then s else s.qDrop p r

/-- A frame as it goes on the wire (R363): padded with zeros to 60 bytes, the FCS behind it. -/
def wireFrame (f : List Byte) : List Byte :=
  let g := f ++ zeros (60 - f.length)
  g ++ natLe 4 (crc32 g)

/-- Fetch the head of transmit queue q with its frame (R362, R363). A MAC control frame is never sent (R359): which of the STATUS codes of an
unsent frame its descriptor takes is free. -/
def State.txFetch (s : State) (p q : Nat) : State :=
  let r := txqReg p q 0
  let onWire := match (s.ethPort p).wire with | some (some k, _, _, _) => k == q | _ => false
  if !s.ethQ r || (s.ethHead p q).isSome || onWire then s else
  match s.ringHead p r with
  | (none, s) => s
  | (some (prod, cons, d), s) =>
    if prod = cons then s else
    let len := leNat (s.hbmRead (d + 8) 2)
    let a := leNat (s.hbmRead d 8)
    if len < 14 ∨ s.ethMax p < len + 4 then s.txFinish p q d 3 0 else
    let (ok, s) := s.unitAccess (s.ethOwner r) false a len
    if !ok then s.txFinish p q d 2 0
    else if !s.ethUp p then s.txFinish p q d 4 0
    else if 65536 < (((s.ethPort p).heads.map (fun h => h.2.frame.length)).sum + len) then s
    else
      let frame := s.hbmRead a len
      if (ethType frame).1 = 0x8808 then (let (n, s) := s.take; s.txFinish p q d (1 + (Config.freeWord n).toNat % 4) 0) else
      let launch := if tbit (w32 (leNat (s.hbmRead (d + 10) 1))) 0 then
          some (leNat (s.hbmRead (d + 12) 4) * 1000000000 + leNat (s.hbmRead (d + 16) 4) % 2 ^ 30) else none
      s.setHead p q (some ⟨d, frame, launch, s.rb r 30, false⟩)

/-- QUEUE_POLL (R362): the producer counts of the valid queues are read, and free heads are fetched. -/
def execQueuePoll (port : Fin 4) (s : State) : Host.Outcome State Fault Refusal :=
  if s.ethOn port.val then .next ((List.range 8).foldl (fun s q => s.txFetch port.val q) s) else .next s

/-- How late a head is against its launch time, read as the nearest time with those bits (R281). -/
def State.lateness (s : State) (launch : Nat) : Int :=
  let m := 2 ^ 32 * 1000000000
  let d := (s.ptpNs + m - launch % m) % m
  if 2 * d < m then (d : Int) else (d : Int) - m

/-- Whether a head is eligible (R365). -/
def State.eligible (s : State) (h : EthHead) : Bool :=
  if h.gated then h.fired
  else match h.launch with
    | none => true
    | some t => decide (0 ≤ s.lateness t)

/-- Time on the wire in ns of a frame without FCS (R363, R365). -/
def State.wireNs (s : State) (p len : Nat) : Nat :=
  let bits := (max len 60 + 4) * 8
  if s.rf (ethReg p 0x40) 31 30 = 0 then (bits + 24) / 25 else (bits + 9) / 10

/-- Whether the frame of queue q would still be on the wire at the launch time of a higher queue's head (R365). -/
def State.blocked (s : State) (p q len : Nat) : Bool :=
  (s.ethPort p).heads.any (fun h => decide (q < h.1) && !h.2.gated &&
    (match h.2.launch with
     | some t => decide (s.lateness t < 0) && decide (-(s.lateness t) < (s.wireNs p len : Int))
     | none => false))

/-- Choose the next frame of an idle port (R281, R282, R365): a PTP message, else the highest eligible head. A head beyond LATE_LIMIT is
dropped and the choice goes on. -/
def State.ethChoose (s : State) (p : Nat) : Nat → State
  | 0 => s
  | n + 1 =>
    let x := s.ethPort p
    if x.wire.isSome || !s.ethUp p then s else
    match x.fwd with
    | w :: r => s.setEth p { x with fwd := r, wire := some (none, 0, s.txStamp p, (
        let k := (ptpAt w.frame).getD 0
        let ty := ptpType w.frame k
        let res : Int := (s.txStamp p : Int) - w.stamp
        let extra : Nat := if s.rb (mpReg 0x130) 30 ∧ ty = 0 then w.delay else 0
        wireFrame (if ty = 0 ∨ ty = 1 then correct w.frame k ((res + extra) * 65536) else w.frame))) }
    | [] =>
      match ((List.range 8).reverse).find? (fun q => match s.ethHead p q with
        | some h => s.eligible h && !s.blocked p q h.frame.length
        | none => false) with
      | none => s
      | some q =>
        match s.ethHead p q with
        | none => s
        | some h =>
          let late := match h.launch with | some t => decide (((s.rd (mpReg (0x144 + 0x20 * p))).toNat : Int) < s.lateness t) | none => false
          let s := s.setHead p q none
          if late then
            ((((s.addSat (mpReg (0x148 + 0x20 * p)) 1).raise 0x400 6).logNamed 0x400 evTimebase 6 6 255).txFinish p q h.desc 1 0).ethChoose p n
          else s.setEth p { s.ethPort p with wire := some (some q, h.desc, s.txStamp p, wireFrame h.frame) }

/-- ETH_FRAME_BOUNDARY (R365). -/
def execEthFrameBoundary (port : Fin 4) (s : State) : Host.Outcome State Fault Refusal := .next (s.ethChoose port.val 9)

/-- LAUNCH_TIME (R281): a queued head's launch time has come; it is sent when the wire is free, or dropped as late. -/
def execLaunchTime (port : Fin 4) (q : Fin 8) (s : State) : Host.Outcome State Fault Refusal :=
  match s.ethHead port.val q.val with
  | some h => if !h.gated && h.launch.isSome && s.eligible h then .next (s.ethChoose port.val 9) else .next s
  | none => .next s

/-- The ETH_LAUNCH action (R282): the gated frame at the head of the queue is launched at this tick (its port chooses once all launches of
the tick are in: State.launchDue); without one GATE_EMPTY is set. -/
def State.ethLaunch (s : State) (p q entry : Nat) : State :=
  let empty (s : State) : State := (s.wb (rga 0x401 0x60) 2 true).pf (rga 0x401 0x60) 25 16 entry
  match s.ethHead p q with
  | some h =>
    if h.gated then s.setHead p q (some { h with fired := true, launch := some (s.ptpNs % (2 ^ 32 * 1000000000)) })
    else empty s
  | none => empty s

/-- ETH_TX_DONE (R363, R279, R394): the frame on the wire is finished; STATUS 0, its stamp, the stamp FIFO for an event message of the
module's own, and the completion for Warden. -/
def execEthTxDone (port : Fin 4) (s : State) : Host.Outcome State Fault Refusal :=
  let p := port.val
  match (s.ethPort p).wire with
  | none => .next s
  | some (none, _, _, _) => .next (s.setEth p { s.ethPort p with wire := none })
  | some (some q, desc, stamp, f) =>
    let s := (s.setEth p { s.ethPort p with wire := none }).txFinish p q desc 0 stamp
    let s := match ptpAt f with
      | some k => if isEvent (ptpType f k) then
          s.pushStamp p ⟨ptpType f k, beAt f (k + 30) 2, stamp % 1000000000, stamp / 1000000000⟩ else s
      | none => s
    .next (s.wardenFresh 2 (p * 16 + q))

/-- The link of a port is lost: heads and the frame on the wire are dropped with STATUS 4 (R365). -/
def State.ethLose (s : State) (p : Nat) : State :=
  let x := s.ethPort p
  let s := s.setEth p default
  let s := match x.wire with | some (some q, d, _, _) => s.txFinish p q d 4 0 | _ => s
  x.heads.foldl (fun s h => s.txFinish p h.1 h.2.desc 4 0) s

/-- LINK_DOWN (R366). -/
def execLinkDown (port : Fin 4) (s : State) : Host.Outcome State Fault Refusal :=
  let p := port.val
  if !s.ethUp p then .next s
  else .next ((((s.wb (ethReg p 0x54) 0 false).ethLose p).raise (ethPage p) 0).logNamed (ethPage p) evPort 2 0 255)

/-- LINK_UP (R366). -/
def execLinkUp (port : Fin 4) (s : State) : Host.Outcome State Fault Refusal :=
  let p := port.val
  if !s.ethOn p || s.ethUp p then .next s
  else .next (((s.wb (ethReg p 0x54) 0 true).raise (ethPage p) 1).logNamed (ethPage p) evPort 2 1 255)

/-- SILENT (R366): no accepted frame for RX_SILENT ms; a frame of the same tick wins. -/
def execSilent (port : Fin 4) (arrived : Bool) (s : State) : Host.Outcome State Fault Refusal :=
  let p := port.val
  if arrived || !s.ethOn p || s.rf (ethReg p 0x58) 15 0 == 0 then .next s
  else .next ((s.raise (ethPage p) 3).logNamed (ethPage p) evPort 2 3 255)

/-! ### Registers -/

/-- A write of TXQ_CFG or RXQ_CFG (R362, R367): OWNER 9 to 15 is discarded; writing 1 to STOPPED restarts the queue; GATED is of transmit
queues only. -/
def State.wrEthQ (s : State) (f : Func) (p : Nat) (tx : Bool) (q : Nat) (v : Word) : State :=
  if 8 < fld v 23 20 then s else
  let r := if tx then txqReg p q 0 else rxqReg p q 0
  let s := s.store f r (if tx then v else setBit v 30 false) 0
  if tx && !s.ethQ r then s.setHead p q none else s

def execQueueRestart (f : Func) (port : Fin 4) (tx : Bool) (q : Fin 8) (v : Word) (s : State) : Host.Outcome State Fault Refusal :=
  .next (s.guarded f (if tx then txqReg port.val q.val 0 else rxqReg port.val q.val 0) (fun s => s.wrEthQ f port.val tx q.val v))

/-- A write of ETH_CFG (R360): SPEED, FEC and MAX_LEN only while the port is off; impossible values are discarded. -/
def State.wrEthCfg (s : State) (f : Func) (p : Nat) (v : Word) : State :=
  let a := ethReg p 0x40
  let old := s.rd a
  let same := fld v 31 28 == fld old 31 28 && fld v 13 0 == fld old 13 0
  let bad := decide (2 ≤ fld v 31 30) || fld v 29 28 == 3 || (fld v 29 28 == 2 && fld v 31 30 == 1) ||
    decide (fld v 13 0 < 64) || decide (9216 < fld v 13 0)
  if bad || (s.ethOn p && !same) then s.wb a 24 true
  else s.store f a v 0

end Sys2Proof.Machine
end

