-- ==== Sys2Proof/Machine/Warden.lean ====
section
/-!
DEFINITION. Warden (R388 to R398, R411, R412), the start-up run (R391 to R393) and SAFE_HOLD.
-/
namespace Sys2Proof.Machine

def wdPage : Nat := 8
def aWdStat : Nat := rga 8 0x44

/-! ### Deadline slots -/

/-- Warden requests a controlled stop on the groups of slot i (R395, R397). -/
def State.slotStop (s : State) (i : Nat) : State :=
  let m := BitVec.ofNat 64 (2 ^ i)
  let s := { s with drv := { s.drv with seen := s.drv.seen &&& ~~~ m, clr := s.drv.clr &&& ~~~ m } }
  let s := (s.wb (slotStat i) 2 false).wb (slotStat i) 1 true
  let info := s.slotGroups i * 65536 + i
  let s := ((s.recordFault 8 0x0D02 info).raise 8 1).logEvent 8 0x0D02 1 info 255
  ((List.range 12).filter (fun g => (s.slotGroups i >>> g) % 2 == 1)).foldl (fun s g => s.trigger g 1 noAxis) s

/-- A deadline check of slot i (R394 to R396); `freshNow` is a fresh result of the same control cycle. -/
def State.slotCheck (s : State) (i : Nat) (freshNow : Bool) : State :=
  if !s.slotValid i then s else
  let s := if freshNow then s.slotFresh i else s
  if s.rb (slotStat i) 0 then s.wb (slotStat i) 0 false
  else
    let s := (((s.incSat (slotStat i) 31 16).recordFault 8 0x0D01 i).raise 8 0).logEvent 8 0x0D01 1 i 255
    if s.rb (slotStat i) 2 then s
    else if s.rf (slotHold i) 23 0 = 0 then s.slotStop i else s.wb (slotStat i) 2 true

/-- WD_HOLD_EXPIRED (R395, R396); `freshNow` is a fresh result of the same tick. -/
def execWdHoldExpired (slot : Fin 64) (freshNow : Bool) (s : State) : Host.Outcome State Fault Refusal :=
  if !s.rb (slotStat slot.val) 2 then .next s
  else if freshNow then .next (s.slotFresh slot.val) else .next (s.slotStop slot.val)

/-- A write of WD_SLOT_CTL (R397, R412): STOP_CLR is discarded while FRESH is 0 and HOLDING is 1. -/
def State.wrSlotCtl (s : State) (i : Nat) (v : Word) : State :=
  if !tbit v 0 ∨ (!s.rb (slotStat i) 0 ∧ s.rb (slotStat i) 2) ∨ !s.rb (slotStat i) 1 then s
  else ({ s with drv := { s.drv with clr := s.drv.clr ||| BitVec.ofNat 64 (2 ^ i) } } : State).slotEnd i

def execStopClr (f : Func) (slot : Fin 64) (v : Word) (s : State) : Host.Outcome State Fault Refusal :=
  .next (s.guarded f (rga 8 (0x10C + 16 * slot.val)) (fun s => s.wrSlotCtl slot.val v))

/-- A write of WD_SLOT_CFG or WD_SLOT_HOLD (R394, R412): discarded while the slot's timer runs or its request is active; a slot
enabled counts as fresh. -/
def State.wrSlotCfg (s : State) (f : Func) (i off : Nat) (v : Word) : State :=
  if s.rb (slotStat i) 2 ∨ s.rb (slotStat i) 1 then s.wb aWdStat 26 true
  else if off = 0 ∧ fld v 30 29 = 3 then s
  else
    let was := s.slotValid i
    let s := s.store f (slotCfg i + off) v 0
    if off = 0 ∧ !was ∧ s.slotValid i then s.wb (slotStat i) 0 true else s

/-- A write of WD_SRC_g (R412): FORM 3 is discarded. -/
def State.wrWdSrc (s : State) (f : Func) (a : Nat) (v : Word) : State := if fld v 29 28 = 3 then s else s.store f a v 0

/-! ### Warden's own checkers -/

/-- WD_LOCKSTEP (R398, R454): the pair disagrees; torque off on every group through STO_B, until the control domain is reset. -/
def execWdLockstep (s : State) : Host.Outcome State Fault Refusal :=
  let s := ((s.wb aWdStat 27 true).setBlk 8 5).recordFault 8 0x0D03 0
  let s := (s.raise 8 2).logEvent 8 0x0D03 1 0 255
  .next ((List.range 12).foldl (fun s g => s.torqueOff g) (s.forceStoB 0xFFF))

/-! ### The start-up run -/

/-- A write of WD_CTL (R393): DIAG_RUN is accepted with every group SAFE and every tenant FREE or STOPPED. -/
def State.wrWdCtl (s : State) (v : Word) : State :=
  if !tbit v 1 then s
  else if s.allSafe && !s.rb aWdStat 29 && (List.range 8).all (fun t => s.tnState t == 0 || s.tnState t == 3) then
    let s := s.wb aWdStat 29 true
    { s with ost := { s.ost with diagOnDemand := true } }
  else s.wb aWdStat 28 true

def execDiagRun (f : Func) (v : Word) (s : State) : Host.Outcome State Fault Refusal :=
  .next (s.guarded f (rga 8 0x40) (fun s => s.wrWdCtl v))

/-- The stage of the boot timeline, and the time of its last change in ms since power-on (R459, R468). -/
def State.setStage (s : State) (n : Nat) : State :=
  if s.stage = n then s else (s.pf aReady 3 0 n).pf (rga 0 0x50) 15 0 (min (s.clock.tick / 1000000) 0xFFFF)

/-- The module enters SAFE_HOLD (R392): jobs aborted, every port held DOWN, every group SAFE. -/
def State.enterSafeHold (s : State) (checker : Nat) : State :=
  let s := ((s.wb aWdStat 31 true).raise 0 1).recordFault 8 0x0D06 checker
  let s := (s.logEvent 8 0x0D06 1 checker 255).abortAll 0x0D06
  let s := (List.range 8).foldl (fun s p => (s.leaveUp p).toState p 0) s
  (List.range 12).foldl (fun s g => s.torqueOff g) s

/-- The first set bit of a mask of sixteen. -/
def firstBit (m : Nat) : Nat := ((List.range 16).find? (fun i => (m >>> i) % 2 == 1)).getD 0

/-- The Ledger at a start (R402, R436, R472): rows read and repaired, registers loaded, repairs of the engines applied; at a
power-on BOOT_EPOCH increments, unless that stays without success for 100 ms. -/
def State.startLedger (s : State) (epochFailed : Bool) (rows : List RowFault) : State :=
  let s := (rows.foldl (fun s x => s.spoil x.row.val x.a x.b) s).loadLedger
  let s := if s.ost.cold && !epochFailed then (s.ledgerNow 0 (s.ledVal 0 + 1) true).1 else s
  let s := { s with ost := { s.ost with cold := false } }
  -- a stored MASTER that breaks the 32-hop rule sets MASTER_ERR and is used anyway (R192)
  let s := if s.masterOk s.master then s else s.wb (fdReg 0x214) 2 true
  (List.range 6).foldl (fun s e => s.setEngine e { s.engine e with repaired := s.repairList e }) s

/-- The row with which checker 14 fails (R432, R436): a LOST row outside the USER class, or row 0, that of BOOT_EPOCH and BOOT_TRIES, where an increment
has failed. -/
def State.badRow (s : State) (epochFailed : Bool) : Option Nat := if epochFailed || s.ost.triesFailed then some 0 else s.lostRow

/-- STARTUP_RUN_DONE (R391 to R393, R402, R412, R436): the run of every start, with BOOT_EPOCH incremented at power-on and the
Ledger read, or a run on demand, which ends with a reset of the engines. -/
def execStartupRunDone (fails : BitVec 16) (inst micros : Nat) (epochFailed : Bool) (rows : List RowFault) (s : State) : Host.Outcome State Fault Refusal :=
  let demand := s.ost.diagOnDemand
  if !demand ∧ s.stage ≠ 2 then .next s else
  let failed := !demand && s.ost.cold && epochFailed
  let s := if demand then s else s.startLedger epochFailed rows
  let lost := if demand then none else s.badRow failed
  let m := if lost.isSome then fails.toNat ||| 2 ^ 14 else fails.toNat
  let first := firstBit m
  let s := s.wr (rga 8 0x60) (w32 m)
  let s := s.wr (rga 8 0x64) (if m = 0 then 0 else w32 (first * 2 ^ 24 + (if first = 14 then lost.getD inst else inst) % 2 ^ 24))
  let s := (s.incSat (rga 8 0x68) 31 16).pf (rga 8 0x68) 15 0 (min micros 0xFFFF)
  let s := ({ s with ost := { s.ost with lastRunPass := m == 0, diagOnDemand := false } } : State).wb aWdStat 29 false
  let s := s.raise 8 3
  let s := if demand then (List.range 6).foldl (fun s e => ((s.engineReset e).resetRegs (fun a => decide (engPage e ≤ a / 4096 ∧ a / 4096 < engPage e + 16) && a % 4096 == oLock)).setBlk (engPage e) 2) s else s
  if m = 0 then
    let s := s.wb aWdStat 30 false
    .next (if demand then s else s.setStage 3)
  else .next ((s.enterSafeHold first).setStage 6)

end Sys2Proof.Machine
end

