-- ==== Sys2Proof/Machine/Security.lean ====
section
/-!
DEFINITION. The region table as software writes it (R404), attestation (R409) and the SECURITY registers (R413).
-/
namespace Sys2Proof.Machine

/-- The HBM capacity in 2 MiB units (R404). -/
def State.hbmUnits (s : State) : Nat := if s.fuses.m64 then 32768 else 49152

/-- A refused region write: its bit of SEC_ERR and the entry. -/
def State.regRefuse (s : State) (e bit : Nat) : State := (s.wb (rga 9 0x44) bit true).pf (rga 9 0x44) 22 16 e

/-- Whether entry e, with its BASE and SIZE_M1, overlaps a valid entry. -/
def State.regOverlaps (s : State) (e : Nat) : Bool :=
  let b := (s.rd (regBase e)).toNat
  let n := (s.rd (regSize e)).toNat
  (List.range 128).any (fun o => o != e && s.rb (regCfg o) 31 &&
    decide ((s.rd (regBase o)).toNat ≤ b + n) && decide (b ≤ (s.rd (regBase o)).toNat + (s.rd (regSize o)).toNat))

/-! ### Keys (R402, R403) -/

/-- The release count of a key slot. -/
def State.keyGen (s : State) (slot : Nat) : Nat := (s.rd (rga 9 (0x80 + 4 * slot))).toNat

def Sealed.covers (x : Sealed) (u : Nat) : Bool := decide (x.first ≤ u ∧ u ≤ x.last)

/-- Whether a unit was left encrypted under another key than the present one of this slot. -/
def State.stale (s : State) (slot u : Nat) : Bool :=
  match s.ost.left.find? (fun x => x.covers u) with
  | some x => x.slot != slot || x.gen != s.keyGen slot
  | none => false

/-- The owner of entry e leaves it: its bytes stay under the owner's key. -/
def State.leaveRegion (s : State) (e owner : Nat) : State :=
  let x : Sealed := ⟨(s.rd (regBase e)).toNat, (s.rd (regBase e)).toNat + (s.rd (regSize e)).toNat, owner, s.keyGen owner⟩
  { s with ost := { s.ost with left := x :: s.ost.left.filter (fun y => !(x.covers y.first && x.covers y.last)) } }

/-- An owner takes entry e (R403): bytes left there under another key decrypt to values that the spec does not give. -/
def State.takeRegion (s : State) (e owner : Nat) : State :=
  let b := (s.rd (regBase e)).toNat
  let us := ((List.range ((s.rd (regSize e)).toNat + 1)).map (· + b)).filter (fun u => s.stale owner u)
  if us.isEmpty then s else
  let (n, s) := s.take
  let kept := s.hbm.filter (fun c => !us.contains (c.1 / 2 ^ 21))
  let noise := (Config.freeHbm n).filter (fun c => us.contains (c.1 / 2 ^ 21))
  { s with hbm := noise.foldl (fun m c => mapSet hbmDflt m c.1 c.2) kept }

/-- A write of REG_CFG, REG_BASE or REG_SIZE of entry e (R404). -/
def State.wrRegion (s : State) (f : Func) (e reg : Nat) (v : Word) : State :=
  let old := s.rd (regCfg e)
  if reg ≠ 0 then
    (if tbit old 31 then s.regRefuse e 4 else s.store f (regCfg e + 4 * reg) v 0)
  else if 9 ≤ fld v 23 20 then s.regRefuse e 4
  else
    let owner := fld old 23 20
    let change := tbit old 31 && decide (owner < 8) && (!tbit v 31 || fld v 23 20 != owner || tbit v 30 != tbit old 30)
    if change && !s.tnFree owner then s.regRefuse e 2
    else if tbit v 31 && !tbit old 31 && s.regOverlaps e then s.regRefuse e 1
    else if tbit v 31 && !tbit old 31 && decide (s.hbmUnits < (s.rd (regBase e)).toNat + (s.rd (regSize e)).toNat + 1) then s.regRefuse e 3
    else
      let moved := decide (fld v 23 20 ≠ owner)
      let s := if tbit old 31 && (!tbit v 31 || moved) then s.leaveRegion e owner else s
      let s := s.store f (regCfg e) v 0
      if tbit v 31 && (!tbit old 31 || moved) then s.takeRegion e (fld v 23 20) else s

def execRegionWrite (f : Func) (e : Fin 128) (reg : Fin 3) (v : Word) (s : State) : Host.Outcome State Fault Refusal :=
  .next (s.guarded f (regCfg e.val + 4 * reg.val) (fun s => s.wrRegion f e.val reg.val v))

/-! ### Firmware images (R428) -/

def fwDflt : Nat → Byte := fun _ => 0xFF

/-- n bytes of a firmware slot from offset o; slot 0 is A. -/
def State.fwRead (s : State) (slot o n : Nat) : List Byte :=
  let m := if slot = 0 then s.ost.slotA else s.ost.slotB
  (List.range n).map (fun i => mapGet fwDflt m (o + i))

def State.fwWord (s : State) (slot o : Nat) : Nat := leNat (s.fwRead slot o 4)
def State.fwVersion (s : State) (slot : Nat) : Nat := s.fwWord slot 4
def State.fwRollback (s : State) (slot : Nat) : Nat := s.fwWord slot 8
def State.fwSize (s : State) (slot : Nat) : Nat := s.fwWord slot 12

/-- A byte string as long as a hash, or as half a signature. -/
def bytesOf (n : Nat) (l : List Byte) : List Byte := bslice l 0 n

/-- The result code of a verification (R416, R428): 0 verified, 3 signature or hash, 4 rollback. -/
def State.fwCheck (s : State) (slot : Nat) : Nat :=
  let size := s.fwSize slot
  let head := s.fwRead slot 0 161
  let key := s.fwRead slot 64 97
  if s.fwWord slot 0 ≠ 0x30465856 ∨ 1048064 < size ∨ bytesOf 48 (Config.sha384 key) ≠ bytesOf 48 s.fuses.fwKeyHash
      ∨ !Config.ecdsaVerify (bytesOf 48 (Config.sha384 head)) key (s.fwRead slot 161 96)
      ∨ bytesOf 48 (Config.sha384 (s.fwRead slot 512 size)) ≠ s.fwRead slot 16 48 then 3
  else if s.fwRollback slot < (s.ledVal 4).toNat then 4 else 0

/-! ### Attestation (R409) -/

/-- The nonce, the report address. -/
def State.attAddr (s : State) : Nat := s.rd64 (rga 9 0x120)

/-- A write of ATT_CTL (R409). -/
def State.wrAttCtl (s : State) (v : Word) : State :=
  if !tbit v 0 ∨ s.rb (rga 9 0x12C) 30 then s else
  let a := s.attAddr
  if a % 64 ≠ 0 then s.wb (rga 9 0x12C) 29 true else
  match s.regCheck 8 true a 352 with
  | .ok => s.wb (rga 9 0x12C) 30 true
  | .bounds _ => s.wb (rga 9 0x12C) 29 true
  | .conflict e => s.regionConflict 8 e

def execAttStart (f : Func) (v : Word) (s : State) : Host.Outcome State Fault Refusal :=
  .next (s.guarded f (rga 9 0x128) (fun s => s.wrAttCtl v))

/-- Ledger words [lo, lo + n) as bytes. -/
def State.ledBytes (s : State) (lo n : Nat) : List Byte := (List.range n).flatMap (fun i => natLe 4 (s.ledVal (lo + i)).toNat)

/-- Bytes 0 to 255 of the report. -/
def attBody (s : State) : List Byte :=
  let slot := s.ost.running
  let flags := b2n s.safeHold + 2 * b2n s.diagRequired + 4 * b2n s.ost.lastRunPass
  [1, BitVec.ofNat 8 (b2n s.fuses.m64), BitVec.ofNat 8 s.me, BitVec.ofNat 8 flags] ++ natLe 4 (s.fwVersion slot) ++
  natLe 8 s.fuses.uid ++ natLe 8 (s.ledVal 0).toNat ++ natLe 4 (s.ledVal 4).toNat ++ zeros 4 ++
  bytesOf 48 (Config.sha384 (s.fwRead slot 0 (512 + s.fwSize slot))) ++ bytesOf 48 (Config.sha384 (s.ledBytes 0x100 0x800)) ++
  bytesOf 48 (Config.sha384 (s.ledBytes 0x600 0x300)) ++ (List.range 8).flatMap (fun k => natLe 4 (s.rd (rga 9 (0x100 + 4 * k))).toNat) ++ zeros 48

/-- ATTESTATION_DONE (R409): the report is written and DONE set. -/
def execAttestationDone (s : State) : Host.Outcome State Fault Refusal :=
  if !s.rb (rga 9 0x12C) 30 then .next s else
  let (n, s) := s.take
  let b := attBody s
  let s := s.hbmWrite s.attAddr (b ++ bytesOf 96 (Config.attestSign (bytesOf 48 (Config.sha384 b)) n))
  .next (((s.wb (rga 9 0x12C) 30 false).wb (rga 9 0x12C) 31 true).raise 9 2)

end Sys2Proof.Machine
end

