-- ==== Sys2Proof/Machine/Sensors.lean ====
section
/-!
DEFINITION. Sensors and their checks (R417 to R419), adaptive voltage and frequency (R421 to R424).
-/
namespace Sys2Proof.Machine

/-- Samples of a sensor, newest first. Keys: 0 to 31 TS, 40 to 51 VM, 60 to 67 PM voltage, 70 to 77 PM current, 80 to 87 PM
temperature, 100 HOLDUP_SENSE. -/
def State.samples (s : State) (k : Nat) : List Int := mapGet (fun _ => []) s.ost.samples k
def State.addSample (s : State) (k n : Nat) (v : Int) : State :=
  { s with ost := { s.ost with samples := mapSet (fun _ => []) s.ost.samples k ((v :: s.samples k).take n) } }
def State.clearSamples (s : State) (k : Nat) : State :=
  { s with ost := { s.ost with samples := mapSet (fun _ => []) s.ost.samples k [] } }

/-- The mean of samples, truncated toward minus infinity. -/
def meanI (l : List Int) : Int := if l.isEmpty then 0 else l.sum / (l.length : Int)

def tsReg (n : Nat) : Nat := rga 7 (0x40 + 4 * n)
def vmReg (n : Nat) : Nat := rga 7 (0xC0 + 4 * n)
def pmReg (n : Nat) : Nat := rga 7 (0x100 + 4 * n)

/-- Whether a condition of a sensor held before, and the state that holds it as it is now (R418). Keys: 0 to 31 a thermal sensor at its THROTTLE or lost,
32 OVERTEMP, 40 to 51 a rail outside its window, 60 to 67 a regulator's fault. -/
def State.alarm (s : State) (k : Nat) : Bool := mapGet (fun _ => false) s.ost.alarms k
def State.setAlarm (s : State) (k : Nat) (b : Bool) : State :=
  { s with ost := { s.ost with alarms := mapSet (fun _ => false) s.ost.alarms k b } }

/-- Count and report a sensor fault and a rail fault (R418, R444). -/
def State.sensorFault (s : State) (info : Nat) : State := ((s.incSat (rga 7 0x14C) 15 0).raise 7 3).logNamed 7 evSensor 3 info 255
def State.railFault (s : State) (info : Nat) : State := ((s.incSat (rga 7 0x14C) 31 16).raise 7 2).logNamed 7 evRail 3 info 255

/-- A condition holds now or not: its event happens where it did not hold before. -/
def State.onEntry (s : State) (k : Nat) (b : Bool) (event : State → State) : State :=
  let was := s.alarm k
  let s := s.setAlarm k b
  if b && !was then event s else s

/-- CTRL_TRIP, or both control-domain sensors lost (R418): OVERTEMP, every STO and brake output at the request level while it lasts; one log record. -/
def State.overtemp (s : State) (info : Nat) : State :=
  ((s.onEntry 32 true (fun s => s.logNamed 7 evOvertemp 3 info 255)).raise 7 1).forceAll

/-- Whether a thermal sensor shows a valid value, and that value in 1/16 °C. -/
def State.tsOk (s : State) (n : Nat) : Bool := s.rb (tsReg n) 31
def State.tsTemp (s : State) (n : Nat) : Int := toS 16 (s.rf (tsReg n) 15 0)

/-- THROTTLE and TRIP of a tensor-side sensor (R444): HBM stacks TS24 to TS27 have their own. -/
def State.throttle (s : State) (n : Nat) : Int := if 24 ≤ n ∧ n ≤ 27 then toS 16 (s.rf (rga 7 0x144) 15 0) else toS 16 (s.rf (rga 7 0x140) 15 0)
def State.trip (s : State) (n : Nat) : Int := if 24 ≤ n ∧ n ≤ 27 then toS 16 (s.rf (rga 7 0x144) 31 16) else toS 16 (s.rf (rga 7 0x140) 31 16)

/-- The two sensors of the control domain (R418): one invalid or stale is a SENSOR_FAULT event; at CTRL_TRIP, or with both lost, OVERTEMP. -/
def State.judgeCtrl (s : State) (n : Nat) : State :=
  let s := s.onEntry n (!s.tsOk n) (fun s => s.sensorFault n)
  let trip := toS 16 (s.rf (rga 7 0x148) 15 0)
  if [28, 29].any (fun k => s.tsOk k && decide (trip ≤ s.tsTemp k)) || (s.alarm 28 && s.alarm 29) then s.overtemp n else s.setAlarm 32 false

/-- A sensor of the tensor side (R418): an invalid or stale one counts as at its THROTTLE, whose entry raises bit 0 (R444); at TRIP, shutdown. -/
def State.judgeTensor (s : State) (n : Nat) : State :=
  let s := s.onEntry n (!s.tsOk n || decide (s.throttle n ≤ s.tsTemp n)) (fun s => s.raise 7 0)
  if s.tsOk n && decide (s.trip n ≤ s.tsTemp n) then s.tensorShutdown n else s

def State.judgeTs (s : State) (n : Nat) : State := if n = 28 ∨ n = 29 then s.judgeCtrl n else s.judgeTensor n

/-- THERMAL_SAMPLE (R417, R418): a sample in 1/16 °C. One outside the range is invalid, and the mean starts anew after it (log 43). -/
def execThermalSample (n : Fin 32) (temp : Int) (s : State) : Host.Outcome State Fault Refusal :=
  let k := n.val
  if temp < -880 ∨ 2400 < temp then .next (((s.wb (tsReg k) 31 false).clearSamples k).judgeTs k)
  else
    let s := s.addSample k 8 temp
    .next ((s.wr (tsReg k) (w32 (2 ^ 31 + ofS 16 (meanI (s.samples k))))).judgeTs k)

/-- SENSOR_STALE (R418): a sensor's timeout; a valid sample in the same tick wins. -/
def execSensorStale (input : StaleInput) (sample : Bool) (s : State) : Host.Outcome State Fault Refusal :=
  if sample then .next s else
  match input with
  | .thermal n => .next ((((s.wb (tsReg n.val) 31 false).wb (tsReg n.val) 30 true).clearSamples n.val).judgeTs n.val)
  | .regulator n => .next (s.wb (pmReg n.val) 31 true)
  | .holdup => .next ((s.wr (rga 6 0x68) 0x80000000).clearSamples 100)

/-- Nominal voltage of VM5 to VM11 in 10 µV units of the 5 % window (R418, R465): VDD_MGMT, VDDQ, VPP, SerDes 0.9 V and 1.2 V,
I/O 1.8 V and 3.3 V, in mV. -/
def vmNominal : Nat → Nat
  | 5 => 800 | 6 => 1100 | 7 => 1800 | 8 => 900 | 9 => 1200 | 10 => 1800 | _ => 3300

/-- CTRL_MONITOR (R398, R411): cause 1 clock, 2 voltage. -/
def State.ctrlMonitorEvent (s : State) (cause : Nat) : State :=
  (((s.recordFault 8 0x0D05 cause).raise 8 4).logEvent 8 0x0D05 1 cause 255).forceAll

/-- The window of a rail in units of 10 µV, low and high (R418): VDD_CORE about its target, VDD_CTRL fixed, the others ±5 % of nominal. -/
def State.vmWindow (s : State) (k : Nat) : Nat × Nat :=
  let target := s.rf (rga 6 0x4C) 23 12
  if k ≤ 2 then ((target - 50) * 100, (target + 50) * 100)
  else if k ≤ 4 then (76000, 84000)
  else (vmNominal k * 95, vmNominal k * 105)

/-- RAIL_SAMPLE (R417, R418): an ADC sample in mV; the mean of the last four is judged exactly and shown in whole mV. -/
def execRailSample (n : Fin 12) (mv : Nat) (s : State) : Host.Outcome State Fault Refusal :=
  let k := n.val
  let s := s.addSample (40 + k) 4 mv
  let l := s.samples (40 + k)
  let m := (meanI l).toNat
  let sum := l.sum.toNat * 100
  let w := s.vmWindow k
  let low := decide (sum < w.1 * l.length)
  let high := decide (w.2 * l.length < sum)
  let s := s.wr (vmReg k) (w32 (2 ^ 31 + b2n low * 2 ^ 30 + b2n high * 2 ^ 29 + m % 65536))
  if k ≤ 2 then
    let s := s.onEntry (40 + k) high (fun s => s.railFault k)
    .next (if high then s.tensorShutdown (40 + k) else s)
  else if k ≤ 4 then .next (if low || high then s.ctrlMonitorEvent 2 else s)
  else
    let s := s.onEntry (40 + k) (low || high) (fun s => s.railFault k)
    .next (if (low || high) && (k == 6 || k == 7) then s.tensorShutdown (40 + k) else s)

/-- Rail of a regulator (R443) and its commanded voltage in mV: the fixed rails at their nominal value. -/
def State.railTarget (s : State) (n : Nat) : Nat :=
  match s.rf (rga 6 (0x80 + 4 * n)) 3 0 with
  | 0 => s.rf (rga 6 0x4C) 23 12
  | 1 | 2 => 800
  | 3 => 1100 | 4 => 1800 | 5 => 900 | 6 => 1200 | 7 => 1800 | _ => 3300

/-- What a regulator's readings mean (R418, R419): a fault is logged as it begins, one on the VDD_CORE regulator shuts the tensor side down, and
CLEAR_FAULTS follows once the condition has cleared. -/
def State.regulatorFault (s : State) (k : Nat) (bad : Bool) : State :=
  let was := s.alarm (60 + k)
  let s := s.onEntry (60 + k) bad (fun s => s.railFault (16 + k))
  if bad && s.rf (rga 6 (0x80 + 4 * k)) 3 0 == 0 then s.tensorShutdown (60 + k)
  else if was && !bad then s.pmSend k 0x03 0
  else s

/-- PMBUS_POLL (R417 to R419): VOUT in mV, IOUT in mA, temperature in °C, STATUS_WORD of regulator n. -/
def execPmbusPoll (n : Fin 8) (vout iout : Nat) (temp : Int) (status : BitVec 16) (s : State) : Host.Outcome State Fault Refusal :=
  let k := n.val
  if !s.rb (rga 6 (0x80 + 4 * k)) 31 then .next s else
  let s := [0x79, 0x8B, 0x8C, 0x8D].foldl (fun s c => s.pmSend k c 0) s
  let s := ((s.addSample (60 + k) 4 vout).addSample (70 + k) 4 iout).addSample (80 + k) 4 temp
  let i := (meanI (s.samples (70 + k))).toNat
  let t := meanI (s.samples (80 + k))
  let s := s.wr (pmReg k) (w32 (ofS 7 t * 2 ^ 24 + i % 2 ^ 24))
  let power := ((List.range 8).map (fun j =>
    if s.rb (rga 6 (0x80 + 4 * j)) 31 then (meanI (s.samples (60 + j))).toNat * (meanI (s.samples (70 + j))).toNat / 1000 else 0)).sum
  let s := ({ s with ost := { s.ost with powerMw := power } } : State).wr (rga 6 0x58) (w32 power)
  let tgt := s.railTarget k
  let l := s.samples (60 + k)
  let bad := status != 0 || decide (l.sum.toNat * 10 < tgt * 9 * l.length) || decide (tgt * 11 * l.length < l.sum.toNat * 10)
  .next (s.regulatorFault k bad)

/-- SMBALERT (R386, R418): STATUS_WORD of every regulator on IC0 is read. IC_STAT shows the alert while a regulator reports one. -/
def execSmbalert (status : List (Nat × Word)) (s : State) : Host.Outcome State Fault Refusal :=
  let s := (s.wb (rga 0x330 0x4C) 28 (status.any (fun r => r.2 != 0))).raise 0x330 2
  let s := (List.range 8).foldl (fun s k => s.pmSend k 0x79 0) s
  .next (status.foldl (fun s r =>
    let k := r.1 % 8
    if !s.rb (rga 6 (0x80 + 4 * k)) 31 ∨ r.2 = 0 then s else s.regulatorFault k true) s)

/-- HOLDUP_SAMPLE (R417, R418, R433): the minimum of the last four codes; full scale is invalid. -/
def execHoldupSample (code : BitVec 12) (s : State) : Host.Outcome State Fault Refusal :=
  if code.toNat = 4095 then .next ((s.wr (rga 6 0x68) 0x80000000).clearSamples 100)
  else
    let s := (s.addSample 100 4 code.toNat).wr (rga 6 0x68) 0
    .next (s.wr (rga 6 0x68) (w32 (min s.holdup 0xFFFF)))

/-! ### Adaptive voltage and frequency -/

def stepMhz (f : Nat) : Nat := f / 25 * 25
def State.fcur (s : State) : Nat := s.rf (rga 6 0x4C) 11 0
def State.setFcur (s : State) (f : Nat) : State := (s.pf (rga 6 0x4C) 11 0 f)
def State.setLimit (s : State) (l : Nat) : State := s.pf (rga 6 0x4C) 30 28 l

/-- A write of PW_FMIN, PW_FMAX (R421). Frequencies lie from 800 to 1,750 MHz in steps of 25. Before the loop starts, CORE_CLK is at the lower of PW_FMAX
and 1,600 MHz (R423). -/
def mhzOf (v : Nat) : Nat := stepMhz (max 800 (min 1750 v))
def State.wrFmin (s : State) (v : Word) : State :=
  let f := mhzOf (fld v 11 0)
  if s.rf (rga 6 0x44) 11 0 < f then s.wb (rga 6 0x4C) 31 true else s.wr (rga 6 0x40) (w32 f)
def State.wrFmax (s : State) (v : Word) : State :=
  let s' := if s.fuses.fmax < fld v 11 0 then s.wb (rga 6 0x4C) 31 true else s
  let f := mhzOf (min (fld v 11 0) s.fuses.fmax)
  if f < s'.rf (rga 6 0x40) 11 0 then s'.wb (rga 6 0x4C) 31 true
  else
    let s := s'.wr (rga 6 0x44) (w32 f)
    if s.ost.loopOn then s else s.setFcur (min f 1600)

/-- A write of PW_CAP: 200 to 650 W (R443). -/
def State.wrCap (s : State) (v : Word) : State :=
  if 200 ≤ fld v 9 0 ∧ fld v 9 0 ≤ 650 then s.wr (rga 6 0x48) (w32 (fld v 9 0)) else s

/-- A write of TH_DIE, TH_HBM (R444): TRIP of the die at most 115 °C; a THROTTLE at or above its TRIP is discarded. -/
def State.wrTh (s : State) (off : Nat) (v : Word) : State :=
  let trip := toS 16 (fld v 31 16)
  let trip := if off = 0x140 then min trip 1840 else trip
  if trip ≤ toS 16 (fld v 15 0) then s else s.wr (rga 7 off) (setFld v 31 16 (ofS 16 trip))

/-- Whether the PMBus telemetry of the polled regulators is stale. -/
def State.pmStale (s : State) : Bool :=
  (List.range 8).any (fun k => s.rb (rga 6 (0x80 + 4 * k)) 31 && s.rb (pmReg k) 31)

/-- Module power in mW for the loop (R422): PMBus, or the activity estimate while it is stale. -/
def State.loopPower (s : State) : Nat × State :=
  if s.pmStale then let (n, s) := s.take; (Config.activityPower n, s) else (s.ost.powerMw, s)

/-- The hottest die or HBM reading relative to its THROTTLE in 1/16 °C; an invalid or stale sensor counts as at it (R418, R422). -/
def State.hotRel (s : State) : Int :=
  ((List.range 32).filter (fun n => n ≠ 28 ∧ n ≠ 29)).foldl (fun m n =>
    max m (if s.tsOk n then toS 16 (s.rf (tsReg n) 15 0) - s.throttle n else 0)) (-100000)

/-- The voltage target of a frequency (R423): the fused entry plus the monitors' margin, within 650 to 850 mV. -/
def vTarget (f margin : Nat) : Nat := max 650 (min 850 (Config.fusedMillivolt f + margin))

/-- The frequency that the loop works on: CORE_CLK, or during a droop the value to which it returns (R422, R424). -/
def State.loopFreq (s : State) : Nat := s.ost.droopPrev.getD s.fcur
def State.setLoopFreq (s : State) (f : Nat) : State :=
  match s.ost.droopPrev with
  | some _ => { s with ost := { s.ost with droopPrev := some f } }
  | none => s.setFcur f

/-- A new voltage target (R419, R423): VCORE, and VOUT_COMMAND to the regulators of VDD_CORE where it changes. -/
def State.setTarget (s : State) (mv : Nat) : State :=
  let s' := s.pf (rga 6 0x4C) 23 12 mv
  if s.rf (rga 6 0x4C) 23 12 = mv then s' else s'.pmRail 0 0x21 mv

/-- DVFS_TICK (R421 to R423): `margin` is what the path monitors report, in mV. A rise waits for the voltage; a fall is at
once, the voltage afterwards. While Ostler restarts the frequency holds (R474). -/
def execDvfsTick (margin : Nat) (s : State) : Host.Outcome State Fault Refusal :=
  if !s.ost.loopOn || !s.ost.firmware then .next s else
  let (p, s) := s.loopPower
  let cap := s.rf (rga 6 0x48) 9 0 * 1000
  let t := s.hotRel
  let cur := s.loopFreq
  let fmin := s.rf (rga 6 0x40) 11 0
  let fmax := min (s.rf (rga 6 0x44) 11 0) s.fuses.fmax
  let f := if cap < p then cur - 25 else if p * 100 < cap * 95 ∧ t < -80 then cur + 25 else cur
  let f := max fmin (min f fmax)
  let hot := decide (0 ≤ t)
  let g := if hot then max 800 (min f (cur - 25)) else f
  let lim := if s.ost.droopPrev.isSome then 4 else if hot then 3 else if cap < p then 2 else if g = fmin then 5 else if g = fmax then 1 else 0
  let s := s.setLimit lim
  let v := vTarget g margin
  if cur < g then .next { s.setTarget v with ost := { (s.setTarget v).ost with rising := some g } }
  else .next ((({ s with ost := { s.ost with rising := none } } : State).setLoopFreq g).setTarget v)

/-- VOLTAGE_SETTLED (R423): READ_VOUT shows the target, or 500 µs have passed. -/
def execVoltageSettled (s : State) : Host.Outcome State Fault Refusal :=
  match s.ost.rising with
  | some f => .next (({ s with ost := { s.ost with rising := none } } : State).setLoopFreq f)
  | none => .next s

/-- DROOP and its recovery (R424): CORE_CLK halves at once, and returns. -/
def execDroop (s : State) : Host.Outcome State Fault Refusal :=
  let s := (s.addSat (rga 6 0x5C) 1).setLimit 4
  match s.ost.droopPrev with
  | some _ => .next s
  | none => .next (({ s with ost := { s.ost with droopPrev := some s.fcur } } : State).setFcur (s.fcur / 2))
def execDroopRecovery (s : State) : Host.Outcome State Fault Refusal :=
  match s.ost.droopPrev with
  | some f => .next ((({ s with ost := { s.ost with droopPrev := none } } : State).setFcur f).setLimit 0)
  | none => .next s

/-- CTRL_MONITOR (R398): CTRL_CLK or TIME_CLK off by more than 1 %, or VDD_CTRL outside its window. -/
def execCtrlMonitor (voltage : Bool) (s : State) : Host.Outcome State Fault Refusal :=
  .next (s.ctrlMonitorEvent (if voltage then 2 else 1))

end Sys2Proof.Machine
end

