-- ==== Sys2Proof/Machine/Reset.lean ====
section
/-!
DEFINITION. Reset levels and the boot timeline (R466 to R476), firmware choice (R429), resets of the PCIe functions (R473).
-/
namespace Sys2Proof.Machine

/-! ### What the two upper levels leave (R472) -/

/-- HBM after a reset that leaves it undefined: a free memory in canonical form. -/
def freeMem (n : Nat) : List Host.Cell := (Config.freeHbm n).foldl (fun m c => mapSet hbmDflt m c.1 c.2) []

/-- The parts that a power-on or a module reset keeps: fuses, event log, Ledger rows, firmware slots, the level of PERST_N, what
the host has received, the free values taken, the PMBus commands sent. Everything else starts anew: control domain, tensor side, tables, registers. VCORE shows the fused VSAFE (R443), and CORE_CLK is
1,600 MHz, or FUSE_FMAX where that is lower (R421, R423). -/
def State.restart (s : State) (keepHbm : Bool) : State :=
  let (n, s) := s.take
  let r : State :=
    { pending := s.pending
      fresh := s.fresh
      fuses := s.fuses
      pins := { porN := s.pins.porN, perstN := s.pins.perstN }
      hbm := if keepHbm then s.hbm else freeMem n
      rdata := s.rdata
      msix := s.msix
      log := s.log
      ledger := { rows := s.ledger.rows, ram := s.ledger.ram }
      ost := { slotA := s.ost.slotA, slotB := s.ost.slotB, running := s.ost.running, lastRunPass := s.ost.lastRunPass, pmbus := s.ost.pmbus } }
  (r.pf (rga 6 0x4C) 23 12 s.fuses.vsafe).setFcur (min 1600 (stepMhz s.fuses.fmax))

/-- Registers that a module reset keeps or changes otherwise: KS_GEN, incremented for every non-FREE slot (R472). -/
def keyGens (s : State) : List Word :=
  (List.range 9).map (fun n => let v := s.rd (rga 9 (0x80 + 4 * n)); if n < 8 ∧ s.tnFree n then v else v + 1)

/-- Blocks whose domain is up show READY (R454). -/
def State.showReady (s : State) (p : Block → Bool) : State :=
  pageRows.foldl (fun s r => if p r.block then
    (List.range (r.per * r.count)).foldl (fun s k => s.setBlk (r.page + k) 2) s else s) s

/-! ### Power-on -/

/-- POR_N_ASSERT (R467, R471, R472): the row being programmed completes, queued Ledger writes and log records not yet on the
device are lost, outputs request, everything is held in reset. -/
def execPorNAssert (s : State) : Host.Outcome State Fault Refusal :=
  let s := match s.ledger.prog with | some x => if x.exempt ∧ s.holdup < 200 then s.cutWrite x else s.writeDone | none => s
  let s := { s with pins := { s.pins with porN := false } }
  let s := s.restart false
  .next { s with log := { flash := s.log.flash, nextSeq := s.log.nextSeq }, ost := { s.ost with running := 2 } }

/-- POR_N_RELEASE (R468, R476): FIELD_ID is sampled sixteen times and Ostler starts from ROM. -/
def execPorNRelease (samples : List (BitVec 6)) (s : State) : Host.Outcome State Fault Refusal :=
  if s.pins.porN then .next s else
  let s := { s with pins := { s.pins with porN := true } }
  let first := samples.headD 0
  let same := samples.all (· == first)
  let s := if same then { s with fuses := { s.fuses with fieldId := first.toNat } }
    else ({ s with ost := { s.ost with fieldIdBad := true } } : State).logNamed 0 evFieldId 6 0 255
  .next ((s.showReady Block.management).setStage 1)

/-! ### Firmware choice (R429) -/

def State.slotState (s : State) (slot : Nat) : Nat := (s.ledVal (1 + slot)).toNat

/-- The slots in the ROM's order of choice. -/
def State.bootOrder (s : State) : List Nat :=
  let tries := (s.ledVal 3).toNat
  [0, 1].filter (fun k => s.slotState k == 2 && decide (tries < 3)) ++ [0, 1].filter (fun k => s.slotState k == 3) ++
    [0, 1].filter (fun k => s.slotState k == 1)

/-- Try the slots: BOOT_TRIES rises before a TRIAL slot, one that fails verification is marked FAILED, and the ROM takes the next choice. -/
def State.bootTry (s : State) (r : BootVerify) (tried : List Nat) : Nat → State
  | 0 => { s with ost := { s.ost with running := 2 } }
  | n + 1 =>
    match s.bootOrder.find? (fun k => !tried.contains k) with
    | none => { s with ost := { s.ost with running := 2 } }
    | some k =>
      let s := if s.slotState k ≠ 2 then s
        else if r.triesFailed then { s with ost := { s.ost with triesFailed := true } }
        else (s.ledgerNow 3 (s.ledVal 3 + 1) true).1
      if (if k = 0 then r.slotA else r.slotB) then { s with ost := { s.ost with running := k } }
      else (s.ledgerNow (1 + k) 4 false).1.bootTry r (k :: tried) n

/-- FIRMWARE_CHOSEN (R429, R468): the image runs, or none verifies and the module stays in SAFE_HOLD with the ROM. After host release, where Ostler
alone has restarted (R474), the ROM serves and the rest of the module goes on (log 41). -/
def execFirmwareChosen (r : BootVerify) (s : State) : Host.Outcome State Fault Refusal :=
  if s.ost.firmware ∨ !s.pins.porN then .next s else
  let s := s.bootTry r [] 2
  let s := { s with ost := { s.ost with firmware := true } }
  if s.ost.running = 2 ∧ s.stage ≠ 5 then
    let s := { s with ost := { s.ost with pcieHeld := false } }
    .next (((s.wb aWdStat 31 true).raise 0 1).setStage 6)
  else .next { s with ost := { s.ost with trialOn := s.stage == 5 && s.slotState s.ost.running == 2 } }

/-- TENSOR_RAILS_UP (R419, R466, R468): OPERATION has switched the rails on in the order VPP, VDDQ, VDD_CORE, SerDes; VOUT_MODE is read; the control domain and the PCIe controller leave reset, and the start-up run begins. -/
def execTensorRailsUp (s : State) : Host.Outcome State Fault Refusal :=
  if s.stage ≠ 1 ∨ !s.ost.firmware ∨ s.ost.running = 2 then .next s else
  let s := { s with ost := { s.ost with ctrlHeld := false, pcieHeld := false } }
  let s := s.showReady (fun b => b.control || (b.tensorSide && b != .hbmc && b != .faleg))
  -- ENABLE of IC0 is set by Ostler before it polls the regulators, and the bus clear runs (R385, R451)
  let s := [4, 3, 0, 5, 6].foldl (fun s r => s.pmRail r 0x01 0x80) s
  let s := (List.range 8).foldl (fun s k => s.pmSend k 0x20 0) s
  .next (((s.wb (rga 0x330 oCtl) 0 true).incSat (rga 0x330 0x50) 31 16).setStage 2)

/-- Faleg training of every port with a DIR, unless FIELD_ID was unstable (R468, R476). -/
def State.trainAll (s : State) : State :=
  let s := s.showReady (fun b => b == .faleg)
  if s.ost.fieldIdBad then s else (List.range 8).foldl (fun s p => s.startTrain p) s

/-- Host release (R468, R469): READY, the DVFS loop, the BOOT record, the wait of a TRIAL image. -/
def State.release (s : State) : State :=
  let s := (((s.setStage 5).wb aReady 31 true).raise 0 0).logNamed 1 evBoot 5 0 255
  { s with ost := { s.ost with loopOn := true, trialOn := s.slotState s.ost.running == 2 } }

/-- HBM_TRAINING_DONE (R468, R469): a failed stack ends in the tensor-side shutdown and READY with TENSOR_OFF. -/
def execHbmTrainingDone (failed : BitVec 4) (s : State) : Host.Outcome State Fault Refusal :=
  if s.stage ≠ 3 then .next s
  else if failed = 0 then
    let s := s.showReady (fun b => b == .hbmc)
    .next (s.setStage 4).trainAll
  else
    let s := ((List.range 4).filter (fun k => failed.getLsbD k)).foldl (fun s k => s.logNamed 1 evHbmTrain 3 k 255) s
    .next (s.tensorShutdown 3).release

/-- HOST_RELEASE (R468, R469). -/
def execHostRelease (s : State) : Host.Outcome State Fault Refusal :=
  if s.stage = 4 then .next s.release else .next s

/-! ### Module reset (R471, R472) -/

/-- The steps of an accepted module reset. The key slots' release counts of non-FREE tenants rise; the count of start-up runs since
power-on stays. -/
def State.moduleReset (s : State) : State :=
  let s := ((List.range 12).filter (fun g => !s.groupIdle g)).foldl (fun s g => s.torqueOff g) s
  let gens := keyGens s
  let s := s.abortAll (Config.eventCode evModuleReset)
  let s := s.drainLedger 17
  let s := { s with log := drainLog 32 s.log }
  let s := [0, 3, 4, 5, 6].foldl (fun s r => s.pmRail r 0x01 0) s
  let tick := s.clock.tick
  let bad := s.ost.fieldIdBad
  let runs := s.rf (rga 8 0x68) 31 16
  let s := s.restart false
  let s := { s with clock := { s.clock with tick := tick, winTick := tick }, ost := { s.ost with running := 2, cold := false, fieldIdBad := bad } }
  let s := ((List.range 9).foldl (fun s n => s.wr (rga 9 (0x80 + 4 * n)) (gens.getD n 0)) s).pf (rga 8 0x68) 31 16 runs
  (s.showReady Block.management).setStage 1

/-- A write of BLK_CTL of the TOP page (R451, R471): FAULT_ACK is carried out first. A SOFT_RESET needs every group SAFE or
DISABLED, unless it comes by the management path. -/
def State.topReset (s : State) (f : Func) : State :=
  if isMgmt f || s.allIdle then s.moduleReset else s.wb (rga 0 oStat) 12 true

/-! ### PCIe resets (R473) -/

/-- Every non-FREE tenant's job is aborted with HOST_ABORT (R473), recorded as the abort that the host writes (R205). -/
def State.hostReset (s : State) : State :=
  { ((List.range 8).foldl (fun (s : State) t => if s.tnFree t then s else s.jobFault 0x300 0x0604 t t) s) with latch := [] }

def execPerstNAssert (s : State) : Host.Outcome State Fault Refusal :=
  .next { s.hostReset with pins := { s.pins with perstN := false } }

def execPerstNRelease (s : State) : Host.Outcome State Fault Refusal := .next { s with pins := { s.pins with perstN := true } }

def execPfFunctionLevelReset (s : State) : Host.Outcome State Fault Refusal := .next s.hostReset

/-- Function Level Reset of a virtual function (R234, R473): a RELEASE, held while the tenant is ABORTING. -/
def execVfFunctionLevelReset (t : Fin 8) (s : State) : Host.Outcome State Fault Refusal :=
  if s.tnState t.val = 1 ∨ s.tnState t.val = 3 then .next (s.startRelease t.val)
  else if s.tnState t.val = 2 then .next (s.setTenant t.val { s.tenant t.val with flr := true })
  else .next s

/-- REFCLK_LOSS (R420, R476). -/
def execRefclkLoss (s : State) : Host.Outcome State Fault Refusal :=
  .next ((s.ctrlMonitorEvent 1).tensorShutdown 4)

end Sys2Proof.Machine
end

