-- ==== Sys2Proof/Machine/Waybill.lean ====
section
/-!
DEFINITION. Waybill (R262 to R272): staging, commits, waits on FIRES, the issue of actions and the events on the event line.
-/
namespace Sys2Proof.Machine

def wbReg (off : Nat) : Nat := rga 0x401 off

/-- An error of the Waybill page with its entry (R285). -/
def State.wbErr (s : State) (bit e : Nat) : State := (s.wb (wbReg 0x60) bit true).pf (wbReg 0x60) 25 16 e

/-- The bits of ARG that belong to an action (R263); none: the code is refused. -/
def argMask (action : Nat) : Option Word :=
  match action with
  | 1 => some 0xFFFFFFFF | 2 => some 0xF | 3 => some 0xFFF | 4 => some 0 | 5 => some 0xFF000FFF
  | 6 => some 0x37 | 7 => some 0x3F | 8 => some 0x3F0F | 9 => some 7 | _ => none

/-- Whether the staged entry is valid (R262 to R265). -/
def State.stagedOk (s : State) (x : WbEntry) : Bool :=
  let m := s.pgMod x.gen
  (match argMask x.action with | some k => (x.arg &&& ~~~ k) == 0 | none => false) &&
  (x.action != 1 || fld x.arg 15 0 != 0) && (!x.link || decide (x.action ≤ 3)) &&
  decide (x.subs * x.stride.toNat ≤ m) && decide (4 * x.hyst.toNat ≤ m)

/-- A write of WB_SEL loads the staging registers (R266). -/
def State.wrWbSel (s : State) (f : Func) (v : Word) : State :=
  let s := s.store f (wbReg 0x40) v 0
  let x := s.wbEntry (s.rf (wbReg 0x40) 9 0)
  ((((s.wr (wbReg 0x44) x.phase).wr (wbReg 0x48) x.cfg).wr (wbReg 0x4C) x.arg).wr (wbReg 0x50) x.hyst).wr (wbReg 0x54) x.stride

/-- Waits on entry e end with WB_DENIED when it is invalid or belongs to another (R272). -/
def State.denyWaits (s : State) (e : Nat) : State :=
  let x := s.wbEntry e
  (queuesWaiting s (fun w => match w.on with | .fires e' _ => e' == e | _ => false)).foldl (fun s q =>
    match (s.queue q).wait with
    | some w =>
      if x.valid && x.owner == w.cmd.owner then s
      else (s.writeRecord w.cmd 0x0902 0 7).jobFault (tnPage w.cmd.owner) 0x0902 (inkInfo w.cmd) w.cmd.owner
    | none => s) s

/-- COMMIT (R266): the staged entry is checked and installed. Unchanged crossing fields keep the armed states. -/
def State.wbCommit (s : State) : State :=
  let e := s.rf (wbReg 0x40) 9 0
  let old := s.wbEntry e
  let x : WbEntry := { old with
    phase := s.rd (wbReg 0x44)
    cfg := s.rd (wbReg 0x48)
    arg := s.rd (wbReg 0x4C)
    hyst := s.rd (wbReg 0x50)
    stride := s.rd (wbReg 0x54) }
  if !s.stagedOk x then s.wbErr 0 e else
  let same := x.phase == old.phase && x.gen == old.gen && x.subs == old.subs && x.stride == old.stride
  let x := if same then x else x.start (s.pgMod x.gen) (s.pgPhase x.gen)
  (s.setWbEntry e x).denyWaits e

/-- A write of WB_CMD. -/
def State.wrWbCmd (s : State) (v : Word) : State := if tbit v 0 then s.wbCommit else s

def execWbSelWrite (f : Func) (v : Word) (s : State) : Host.Outcome State Fault Refusal :=
  .next (s.guarded f (wbReg 0x40) (fun s => s.wrWbSel f v))
def execCommit (f : Func) (v : Word) (s : State) : Host.Outcome State Fault Refusal :=
  .next (s.guarded f (wbReg 0x58) (fun s => s.wrWbCmd v))

/-! ### Waits (R271, R272) -/

/-- WAYBILL_WAIT at the head of queue q (R271): refused with WB_DENIED, completed when satisfied, else registered. -/
def execWaybillWait (q : Fin 32) (s : State) : Host.Outcome State Fault Refusal :=
  match s.headReady q.val with
  | none => .next s
  | some c =>
    if c.op ≠ 9 then .next s else
    match s.baseCheck c with
    | some r => .next (s.refuse c 7 r)
    | none =>
      let e := c.f 5 9 0
      let x := s.wbEntry e
      if !x.valid || x.owner != c.owner then .next (s.refuse c 7 (tnPage c.owner, 0x0902, inkInfo c))
      else
        let target := if tbit (c.w 5) 31 then (x.fires + 1) % 2 ^ 32 else (c.w 6).toNat
        if 0 ≤ toS 32 (x.fires + 2 ^ 32 - target) then .next (s.endWait q.val c).advance
        else .next (s.register q.val ⟨.fires e target, c, false, c.f 7 15 0⟩)

/-- WB_WAIT_TIMEOUT (R272): a firing of the same strobe wins, one that FIRES shows already as one still to come (`firing`). -/
def execWbWaitTimeout (q : Fin 32) (firing : Bool) (s : State) : Host.Outcome State Fault Refusal :=
  match (s.queue q.val).wait with
  | some ⟨.fires e n, c, _, t⟩ =>
    if t = 0 ∨ firing then .next s
    else if 0 ≤ toS 32 ((s.wbEntry e).fires + 2 ^ 32 - n % 2 ^ 32) then .next (s.firesMet e)
    else .next ((s.writeRecord c 0x0901 0 7).jobFault (tnPage c.owner) 0x0901 (inkInfo c) c.owner)
  | _ => .next s

/-! ### Issue (R256, R263, R264, R270) -/

/-- Put an action on the event line (R24). -/
def State.lineEvent (s : State) (x : WbEntry) (e : Nat) : State := { s with evQ := s.evQ ++ [⟨x.action, x.arg, x.owner, e⟩] }

/-- Issue the action of entry e: a linked one arrives at its barrier, a pin action acts, another goes on the event line. -/
def State.issue (s : State) (e : Nat) : State :=
  let x := s.wbEntry e
  if x.link then s.lbArrive x.lb e x.action x.arg else
  let s := s.countFire e
  match x.action with
  | 4 => s.lineEvent x e
  | 1 | 2 | 3 => (s.pinAction x.action x.arg).firesMet e
  | 6 => (s.ethLaunch (fld x.arg 5 4) (fld x.arg 2 0) e).firesMet e
  | _ => (s.lineEvent x e).firesMet e

/-- Whether an action launches a frame on Ethernet port p. -/
def State.launches (s : State) (p e : Nat) : Bool :=
  let x := s.wbEntry e
  x.action == 6 && !x.link && fld x.arg 5 4 == p

/-- The ports with a launch among the issued actions choose their frame, the highest queue first, once no launch of the same tick is
still to come (R282). -/
def State.launchDue (s : State) (l : List Due) : State :=
  ((List.range 4).filter (fun p => l.any (fun d => s.launches p d.entry &&
    !s.mile.due.any (fun u => u.tick == d.tick && s.launches p u.entry)))).foldl (fun s p => s.ethChoose p 9) s

/-- Issue the due actions that satisfy a test, in order; the others stay due. -/
def State.issueDue (s : State) (f : Due → Bool) : State :=
  let l := s.mile.due.filter f
  (l.foldl (fun (s : State) d => s.issue d.entry) { s with mile := { s.mile with due := s.mile.due.filter (fun d => !f d) } }).launchDue l

/-- WAYBILL_CROSSING (R268, R270): the actions of generator g that its last moves made due and that no limit holds back. -/
def execWaybillCrossing (g : Fin 4) (s : State) : Host.Outcome State Fault Refusal :=
  .next (s.issueDue (fun d => d.gen == g.val && !d.carried))

/-- WB_LATE (R270): the carried actions whose tick has come are issued; no tick is given more than eight in all. -/
def execWbLate (s : State) : Host.Outcome State Fault Refusal :=
  .next (s.issueDue (fun d => d.carried && decide (d.tick ≤ s.clock.tick)))

/-! ### The event line -/

/-- Take the oldest event of an action from the line. -/
def takeEvent (action : Nat) : List LineEvent → Option (LineEvent × List LineEvent)
  | [] => none
  | x :: r => if x.action = action then some (x, r) else (takeEvent action r).map (fun y => (y.1, x :: y.2))

/-- The receiver's end of the event line for an action. -/
def State.onEvent (s : State) (action : Nat) (k : State → LineEvent → State) : State :=
  match takeEvent action s.evQ with
  | none => s
  | some (x, r) => k { s with evQ := r } x

/-- QUEUE_START (R263, R271): satisfied waits on the entry end. -/
def execQueueStart (s : State) : Host.Outcome State Fault Refusal := .next (s.onEvent 4 (fun s x => s.firesMet x.entry))

/-- Whether Tally accepts an arrival of Waybill (R209). -/
def State.wbArrivalOk (s : State) (a : Arrival) : Bool :=
  s.bCfg a.bar 23 23 == 1 && s.bMode a.bar != 2 &&
  (match s.judge a with | .count _ => true | .carry _ => true | _ => false)

/-- TALLY_ARRIVE (R209, R263): accepted as a Waybill arrival, or discarded and counted in TALLY_WBDROP. -/
def execTallyArrive (s : State) : Host.Outcome State Fault Refusal :=
  .next (s.onEvent 5 (fun s x =>
    let a : Arrival := ⟨.central (Fin.ofNat 256 (fld x.arg 31 24)), fld x.arg 11 0, none, none, 0x3FF, 0x401⟩
    if s.wbArrivalOk a then (s.arrive a).advance else s.addSat (rga 0x20 0x48) 1))

/-- WARDEN_DEADLINE (R263, R394 to R396). -/
def execWardenDeadline (freshNow : Bool) (s : State) : Host.Outcome State Fault Refusal :=
  .next (s.onEvent 7 (fun s x => s.slotCheck (fld x.arg 5 0) freshNow))

/-- ENGINE_WINDOW (R242, R263): the window mask of each named engine, bit 0 always set. -/
def execEngineWindow (s : State) : Host.Outcome State Fault Refusal :=
  .next (s.onEvent 8 (fun s x =>
    ((List.range 6).filter (fun e => tbit x.arg (8 + e))).foldl (fun (s : State) e => s.pf (rga 0x10 (0x40 + 4 * e)) 3 0 (fld x.arg 3 0 ||| 1)) s)).kick

/-- MANIFEST_CLOSE (R248, R263). -/
def execManifestClose (s : State) : Host.Outcome State Fault Refusal :=
  .next (s.onEvent 9 (fun s x => s.manTrigger (fld x.arg 2 0) 0))

end Sys2Proof.Machine
end

