-- ==== Sys2Proof/Machine/Header.lean ====
section
/-!
DEFINITION. The common header of a page (R449 to R458), soft resets of the units (R452, R472), and the routing of
interrupts (R462).
-/
namespace Sys2Proof.Machine

/-- Whether a page uses the interrupt and fault registers of its header: it carries a source number (R448). -/
def usesIrq (page : Nat) : Bool := ((pageId page).bind (·.src)).isSome

/-! ### Faults and interrupts -/

/-- FAULT_ACK (R451, R456). -/
def State.ackFault (s : State) (page : Nat) : State :=
  if usesIrq page then (s.wr (rga page oCode) 0).wr (rga page oInfo) 0 else s

/-- A write of IRQ_EN (R455): another request while something is pending. -/
def State.wrIrqEn (s : State) (page : Nat) (v : Word) : State :=
  if !usesIrq page then s else
  let s := s.wr (rga page oEn) v
  if s.irqPend page = 0 then s else s.requestIrq page

/-- A write of IRQ_PEND (R13, R455): bits written 1 clear in IRQ_RAW, events of the same cycle win, and another request follows while
something is pending. -/
def State.wrIrqPend (s : State) (page : Nat) (v arriving : Word) : State :=
  if !usesIrq page then s else
  let s := s.wr (rga page oRaw) ((s.rd (rga page oRaw) &&& ~~~ v) ||| arriving)
  if s.irqPend page = 0 then s else s.requestIrq page

/-- A write of IRQ_FORCE (R455): management only; the bits are set as if the events had occurred. -/
def State.wrIrqForce (s : State) (f : Func) (page : Nat) (v : Word) : State :=
  if isMgmt f && usesIrq page then s.raiseBits page v else s

/-- A write of ERRINJ (R457): management only, logged as a management override (R416). -/
def State.wrErrinj (s : State) (f : Func) (page : Nat) (v : Word) : State :=
  if isMgmt f && usesIrq page then
    (s.wr (rga page oInj) (v &&& 0x00FFFFFF)).logNamed 1 evMgmt 4 (Config.mgmtInfo (rga page oInj) v.toNat) 255
  else s

/-- A write of LOCK (R458): set once, never by a virtual function. -/
def State.wrLock (s : State) (f : Func) (page : Nat) (v : Word) : State :=
  if tbit v 0 && !isVf f then s.wb (rga page oLock) 0 true else s

/-- A write of IRQ_ROUTE_i (R459, R462). Vectors 0 to 5 of a virtual function belong to its tenant page, and tenant pages route copies to
the physical function only. -/
def State.wrRoute (s : State) (f : Func) (i : Nat) (v : Word) : State :=
  match srcPage i with
  | none => s
  | some p =>
    let func := fld v 27 24
    if (func < 8 ∧ fld v 21 16 < 6) ∨ (8 ≤ i ∧ i ≤ 15 ∧ func ≠ 15) then s.wr (rga 0 0x58) (w32 (2 ^ 31 + i))
    else
      let s := s.store f (rga 0 (0x400 + 4 * i)) v 0
      if s.irqPend p = 0 then s else s.sendRoute i

/-! ### Resets of a unit -/

/-- The axis groups that an instance of the control domain serves (R286, R452). -/
def servedGroups (b : Block) (inst : Nat) : List Nat :=
  match b with
  | .drover => [3 * inst, 3 * inst + 1, 3 * inst + 2]
  | .axis | .encoder => [inst / 4]
  | .axisLink => [inst]
  | _ => []

/-- Whether a SOFT_RESET of the page's instance is accepted (R452). -/
def State.resetAllowed (s : State) (b : Block) (inst : Nat) : Bool :=
  match b with
  | .milepost | .waybill | .warden => s.allSafe
  | _ => (servedGroups b inst).all s.groupIdle

/-- What the reset of Drover, an axis, an encoder or an Axis link leaves beyond its registers (R288, R472). -/
def State.resetDrive (s : State) (b : Block) (inst : Nat) : State :=
  let d := s.drv
  match b with
  | .drover => { s with drv := { d with dps := mapSet dflt d.dps inst default } }
  | .axis => { s with drv := { d with axes := mapSet dflt d.axes inst default } }
  | .encoder => { s with drv := { d with encs := mapSet dflt d.encs inst default } }
  | .axisLink => { s with drv := { d with links := mapSet dflt d.links inst default } }
  | _ => s

/-- The reset of Milepost with the PTP clock, or of Waybill (R254, R273, R285, R472). -/
def State.resetMile (s : State) (b : Block) : State :=
  match b with
  | .milepost =>
    { s with
      clock := { s.clock with sec := 0, ns := 0, frac := 0, addend := 4294967296 }
      mile := { s.mile with gens := [], changes := [], stamps := [] } }
  | .waybill => { s with mile := { s.mile with entries := [], due := [], sched := [] } }
  | _ => s

/-- The standby output of a CAN port goes to its idle level (R451, R475). -/
def State.idleStb (s : State) (n : Nat) : State := { s with pins := { s.pins with canStb := s.pins.canStb ||| BitVec.ofNat 8 (2 ^ n) } }

/-- The unit reset of an instance outside the tensor side (R452, R472). Ostler, the Ledger, the security block and Warden keep what they
hold. A group whose drive is reset starts again in SAFE. -/
def State.controlReset (s : State) (p per : Nat) (i : PageId) : State :=
  match i.block with
  | .ostler | .ledger | .security | .warden | .top => s
  | .drover | .axis | .axisLink =>
    let s := ((s.resetDrive i.block i.inst).resetBody p per).setBlk p 2
    (servedGroups i.block i.inst).foldl (fun s g => s.torqueOff g) s
  | .encoder => ((((s.resetDrive .encoder i.inst).setPos i.inst 0).resetBody p per).showPos i.inst 0).setBlk p 2
  | .milepost | .waybill => ((s.resetMile i.block).resetBody p per).setBlk p 2
  | .can => ((({ s with can := mapSet dflt s.can i.inst default } : State).idleStb i.inst).resetBody p per).setBlk p 2
  | .i2c => ((s.icDrop i.inst).setIc i.inst default).resetBody p per
  | _ => (s.resetBody p per).setBlk p 2

/-- SOFT_RESET of a page (R452, R471): units of the tensor side are fenced and reset. A refused one sets CMD_REFUSED. -/
def State.softReset (s : State) (f : Func) (page : Nat) : State :=
  match instPages page with
  | none => s
  | some (p, per, i) =>
    if i.block = .top then s.topReset f
    else if i.block.tensorSide then (if s.tensorOff then s else s.unitFence page (Config.eventCode evFence) false)
    else if s.resetAllowed i.block i.inst then s.controlReset p per i
    else s.wb (rga page oStat) 12 true

/-- A change of ENABLE (R385, R451): a port turned off loses what it was doing; an I2C port turned on clears its bus. -/
def State.setEnable (s : State) (i : PageId) (page : Nat) (on : Bool) (sda : List Bool) : State :=
  let was := s.rb (rga page oCtl) 0
  let s := s.wb (rga page oCtl) 0 on
  if was = on then s else
  match i.block with
  | .eth => if on then s else (s.wb (ethReg i.inst 0x54) 0 false).ethLose i.inst
  | .can => if on then s else (s.leaveBus i.inst).idleStb i.inst
  | .i2c => if on then (s.busClear i.inst sda).icServe i.inst else s.icDrop i.inst
  | _ => s

/-- A write of BLK_CTL (R451, R453): by the physical function or the management path. FAULT_ACK comes first, SOFT_RESET last; `sda` holds
the samples of a bus clear. -/
def State.wrBlkCtl (s : State) (f : Func) (page : Nat) (v : Word) (sda : List Bool) : State :=
  if isVf f then s else
  match pageId page with
  | none => s
  | some i =>
    let s := s.wb (rga page oStat) 12 false
    let s := if tbit v 3 then s.ackFault page else s
    let s := if hasEnable i.block then s.setEnable i page (tbit v 0) sda else s
    if tbit v 1 then s.softReset f page else s

/-! ### The rows -/

/-- The same faults with one of the lowest code in front. -/
def lowFirst : List (Nat × Word) → List (Nat × Word)
  | [] => []
  | x :: r => match lowFirst r with
    | [] => [x]
    | y :: t => if y.1 < x.1 then y :: x :: t else x :: y :: t

/-- FAULT_ACK (R451, R456, R461): faults detected in the same cycle are recorded after the clear, the lowest code first. -/
def execFaultAck (f : Func) (page : Nat) (v : Word) (arriving : List (Nat × Word)) (s : State) : Host.Outcome State Fault Refusal :=
  let s := s.guarded f (rga page oCtl) (fun s => s.wrBlkCtl f page v [true])
  .next (if usesIrq page then (lowFirst arriving).foldl (fun s x => s.recordFault page x.1 x.2.toNat) s else s)

def execSoftReset (f : Func) (page : Nat) (v : Word) (s : State) : Host.Outcome State Fault Refusal :=
  .next (s.guarded f (rga page oCtl) (fun s => s.wrBlkCtl f page v [true]))

/-- MODULE_RESET (R471): a write of BLK_CTL of the TOP page. -/
def execModuleReset (f : Func) (v : Word) (s : State) : Host.Outcome State Fault Refusal :=
  .next (s.guarded f (rga 0 oCtl) (fun s => s.wrBlkCtl f 0 v [true]))

/-- BLK_ENABLE (R451); `sdaHigh` holds the samples of SDA in the pulses of a bus clear. -/
def execBlkEnable (f : Func) (page : Nat) (v : Word) (sdaHigh : List Bool) (s : State) : Host.Outcome State Fault Refusal :=
  .next (s.guarded f (rga page oCtl) (fun s => s.wrBlkCtl f page v sdaHigh))

def execLock (f : Func) (page : Nat) (v : Word) (s : State) : Host.Outcome State Fault Refusal :=
  .next (s.guarded f (rga page oLock) (fun s => s.wrLock f page v))

def execErrinjWrite (f : Func) (page : Nat) (v : Word) (s : State) : Host.Outcome State Fault Refusal :=
  .next (s.guarded f (rga page oInj) (fun s => s.wrErrinj f page v))

/-- IRQ_PEND_WRITE (R455); `arriving` holds the events of the same cycle. -/
def execIrqPendWrite (f : Func) (page : Nat) (v arriving : Word) (s : State) : Host.Outcome State Fault Refusal :=
  if s.mayWrite f (rga page oPend) then .next (s.wrIrqPend page v arriving)
  else if usesIrq page then .next (s.raiseBits page arriving) else .next s

def execIrqEnWrite (f : Func) (page : Nat) (v : Word) (s : State) : Host.Outcome State Fault Refusal :=
  .next (s.guarded f (rga page oEn) (fun s => s.wrIrqEn page v))

def execIrqForce (f : Func) (page : Nat) (v : Word) (s : State) : Host.Outcome State Fault Refusal :=
  .next (s.guarded f (rga page oForce) (fun s => s.wrIrqForce f page v))

def execIrqRouteWrite (f : Func) (i : Fin 256) (v : Word) (s : State) : Host.Outcome State Fault Refusal :=
  .next (s.guarded f (rga 0 (0x400 + 4 * i.val)) (fun s => s.wrRoute f i.val v))

end Sys2Proof.Machine
end

