-- ==== Sys2Proof/Machine/Ostler.lean ====
section
/-!
DEFINITION. The management mailbox (R414 to R416) and the update of the firmware (R428 to R430). MGMT_READ and MGMT_WRITE stand
with the host accesses.
-/
namespace Sys2Proof.Machine

def omStat : Nat := rga 1 0x58
def State.omArg (s : State) (k : Nat) : Nat := (s.rd (rga 1 (0x44 + 4 * k))).toNat
def State.omLen (s : State) : Nat := s.rf (rga 1 0x40) 10 0

/-- The command ends (R414): RESULT, DONE, BUSY clear, the interrupt. -/
def State.omDone (s : State) (result : Nat) : State :=
  let s := ((s.pf omStat 3 0 result).wb omStat 30 false).wb omStat 31 true
  ({ s with ost := { s.ost with cmd := none } } : State).raise 1 0

def State.omResp (s : State) (k : Nat) (v : Word) : State := s.wr (rga 1 (0x60 + 4 * k)) v

/-- Put bytes into the response buffer. -/
def State.omData (s : State) (bs : List Byte) : State :=
  (List.range ((min bs.length 1024 + 3) / 4)).foldl (fun s i => s.wr (rga 1 (0x500 + 4 * i)) (w32 (leAt bs (4 * i) 4))) s

/-- Byte i of the request buffer. -/
def State.omByte (s : State) (i : Nat) : Byte := BitVec.ofNat 8 ((s.rd (rga 1 (0x100 + i / 4 * 4))).toNat / 2 ^ (8 * (i % 4)))

/-- Whether Ostler, or the ROM alone, knows an opcode (R415, R429). -/
def State.omKnown (s : State) (op : Nat) : Bool :=
  if s.ost.running = 2 then op == 1 || (decide (3 ≤ op) && decide (op ≤ 6)) else decide (1 ≤ op ∧ op ≤ 14)

/-- A write of OM_DOORBELL (R414, R415). -/
def State.wrDoorbell (s : State) (v : Word) : State :=
  if !tbit v 0 then s
  else if s.rb omStat 30 then s.wb omStat 29 true
  else
    let op := s.rf (rga 1 0x40) 31 24
    if s.omKnown op then ({ s with ost := { s.ost with cmd := some op } } : State).wb omStat 30 true
    else s.omDone 1

/-- Carry out a command if it is the one that runs. -/
def State.mailbox (s : State) (op : Nat) (k : State → State) : Host.Outcome State Fault Refusal :=
  if s.ost.cmd = some op then .next (k s) else .next s

/-- End with a result that depends on a Ledger write (R416, R430, R432). -/
def endLedger (r : State × Bool) (k : State → State) : State := if r.2 then (k r.1).omDone 0 else r.1.omDone 5

def execGetInfo (s : State) : Host.Outcome State Fault Refusal :=
  s.mailbox 1 (fun s =>
    ((((s.omResp 0 (Config.slotStates (s.slotState 0) (s.slotState 1))).omResp 1 (w32 (s.fwVersion 0))).omResp 2 (w32 (s.fwVersion 1))).omResp 3
      (s.ledVal 4)).omDone 0)

/-- LOG_READ (R415, R427): from the first sequence number asked for, or the oldest held. -/
def execLogRead (s : State) : Host.Outcome State Fault Refusal :=
  s.mailbox 2 (fun s =>
    let n := s.omArg 1
    if n = 0 ∨ 32 < n then s.omDone 2 else
    let fl := s.log.flash
    let oldest := s.log.nextSeq - fl.length
    let first := max (s.omArg 0) oldest
    let recs := (fl.drop (first - oldest)).take n
    let bs := ((List.range recs.length).zip recs).flatMap (fun x => logBytes x.2 (first + x.1))
    (((s.omData bs).omResp 0 (w32 recs.length)).omResp 1 (w32 oldest)).omDone 0)

/-! ### Firmware -/

/-- The slot that does not run (R429, R430); slot A while none runs. -/
def State.idleSlot (s : State) : Nat := if s.ost.running = 0 then 1 else 0
def State.setSlot (s : State) (k : Nat) (m : List (Nat × Byte)) : State :=
  { s with ost := if k = 0 then { s.ost with slotA := m, verified := false } else { s.ost with slotB := m, verified := false } }

/-- FW_ERASE (R415, R430). -/
def execFwErase (flashErr : Bool) (s : State) : Host.Outcome State Fault Refusal :=
  s.mailbox 3 (fun s =>
    let k := s.idleSlot
    if s.slotState k = 3 then s.omDone 6
    else if flashErr then s.omDone 7
    else endLedger (s.ledgerNow (1 + k) 0 false) (fun s => s.setSlot k []))

/-- FW_WRITE (R415, R430). -/
def execFwWrite (flashErr : Bool) (s : State) : Host.Outcome State Fault Refusal :=
  s.mailbox 4 (fun s =>
    let k := s.idleSlot
    let o := s.omArg 0
    let n := s.omLen
    if o % 256 ≠ 0 ∨ n % 256 ≠ 0 ∨ n = 0 ∨ 1024 < n ∨ 2 ^ 20 < o + n then s.omDone 2
    else if s.slotState k = 3 then s.omDone 6
    else if flashErr then s.omDone 7
    else
      let m := if k = 0 then s.ost.slotA else s.ost.slotB
      (s.setSlot k ((List.range n).foldl (fun m i => mapSet fwDflt m (o + i) (s.omByte i)) m)).omDone 0)

/-- FW_VERIFY (R415, R428): a slot that verifies is VALID, unless it is ACTIVE. -/
def execFwVerify (s : State) : Host.Outcome State Fault Refusal :=
  s.mailbox 5 (fun s =>
    let k := s.idleSlot
    let ok (s : State) : State := ({ s with ost := { s.ost with verified := true } } : State).omResp 0 (w32 (s.fwVersion k))
    match s.fwCheck k with
    | 0 => if s.slotState k = 3 then (ok s).omDone 0 else endLedger (s.ledgerNow (1 + k) 1 false) ok
    | r => s.omDone r)

/-- FW_ACTIVATE (R415, R430, R431): the verified slot becomes TRIAL with BOOT_TRIES zero. -/
def execFwActivate (s : State) : Host.Outcome State Fault Refusal :=
  s.mailbox 6 (fun s =>
    let k := s.idleSlot
    if s.slotState k = 3 ∨ !s.ost.verified then s.omDone 6
    else endLedger (s.ledgerAll [(1 + k, 2), (3, 0)]) id)

/-- FW_CONFIRM (R430). -/
def execFwConfirm (s : State) : Host.Outcome State Fault Refusal :=
  s.mailbox 7 (fun s =>
    let k := s.ost.running
    if s.slotState k ≠ 2 then s.omDone 6 else
    let other := 1 - k
    let l := [(1 + k, (3 : Word))] ++ (if s.slotState other = 3 then [(1 + other, (1 : Word))] else []) ++
      (if (s.ledVal 4).toNat < s.fwRollback k then [(4, w32 (s.fwRollback k))] else [])
    endLedger (s.ledgerAll l) (fun s => { s with ost := { s.ost with trialOn := false } }))

/-- TRIAL_TIMEOUT (R430): no FW_CONFIRM within TRIAL_TIME of host release. -/
def execTrialTimeout (s : State) : Host.Outcome State Fault Refusal :=
  if !s.ost.trialOn then .next s else
  let s := { s with ost := { s.ost with trialOn := false } }
  .next ((s.ledgerNow (1 + s.ost.running) 4 false).1.logNamed 1 evFwRevert 5 s.ost.running 255)

/-! ### Ledger, roster, units, sensors -/

/-- The bits a Ledger word holds (R431): those of the register that shows it. -/
def ledgerMask (w : Nat) : Word :=
  match wordReg w with
  | some a => (match regRow a with | some r => w32 r.rwp | none => 0xFFFFFFFF)
  | none => 0xFFFFFFFF

/-- Whether LEDGER_WRITE may write a word (R415, R431). -/
def ledgerWritable (w : Nat) : Bool := decide (0x100 ≤ w ∧ w < 0x595) || decide (0x900 ≤ w ∧ w < 0x1000)

/-- The repair map of engine e as it will stand once every earlier accepted write has taken effect (R91). -/
def State.repairPending (s : State) (e i : Nat) : Word := s.ledRead (0x100 + 128 * e + i)

/-- Manufacturing repairs of a bank (R91, R111). -/
def State.fusedRepairs (s : State) (e b : Nat) : Nat := (s.fuses.repairs.filter (fun r => r.1 == 128 * e + b)).length

/-- The check of a REPAIR write (R91): 0 accepted, 1 FULL, 2 RANGE. -/
def State.repairCheck (s : State) (e i : Nat) (v : Word) : Nat :=
  let b := fld v 22 16
  if 96 ≤ b then 2
  else if !tbit v 31 then 0
  else
    let n := ((List.range 128).filter (fun k => k != i && tbit (s.repairPending e k) 31 && fld (s.repairPending e k) 22 16 == b)).length + 1
    if 8 < n ∨ 24 < n + s.fusedRepairs e b then 1 else 0

/-- LEDGER_WRITE (R415, R431). The limits of R91 and the rule of R192 hold for it too. -/
def execLedgerWrite (s : State) : Host.Outcome State Fault Refusal :=
  s.mailbox 8 (fun s =>
    let w := s.omArg 0
    let v := w32 (s.omArg 1) &&& ledgerMask w
    if !ledgerWritable w ∨ (w < 0x400 ∧ s.repairCheck ((w - 0x100) / 128) ((w - 0x100) % 128) v ≠ 0) ∨ (w = 0x592 ∧ !s.masterOk (fld v 5 0)) then s.omDone 2
    else endLedger (s.ledgerNow w v (w == 0x593 || w == 0x594)) id)

/-- ROSTER_SET (R408, R415, R431). -/
def execRosterSet (s : State) : Host.Outcome State Fault Refusal :=
  s.mailbox 9 (fun s =>
    let e := s.omArg 0
    if 64 ≤ e then s.omDone 2 else
    let word (i : Nat) : Word := s.rd (rga 1 (0x100 + 4 * i))
    let l := (List.range 12).map (fun i => (0x600 + 12 * e + i, if i = 11 then setBit (word 11) 31 (s.omArg 1 % 2 == 1) else word i))
    endLedger (s.ledgerAll l) id)

/-- The page of the unit named by bits [31:8] of its BLK_ID (R415, R449). -/
def unitPage (id : Nat) : Option Nat :=
  match pageRows.find? (fun r => r.block.code == id / 256 && decide (id % 256 < r.count)) with
  | some r => some (r.page + r.per * (id % 256))
  | none => none

/-- FENCE (R415, R437, R438): the unit stays FENCED. A fence never touches the control domain; a unit that is OFF has nothing to fence. -/
def execMailboxFence (s : State) : Host.Outcome State Fault Refusal :=
  s.mailbox 12 (fun s =>
    match unitPage (s.omArg 0) with
    | none => s.omDone 2
    | some p => match pageId p with
      | some i => if !i.block.tensorSide then s.omDone 2 else if s.blk p = 0 then s.omDone 6
        else (s.unitFence p (Config.eventCode evFence) true).omDone 0
      | none => s.omDone 2)

/-- UNFENCE (R415, R438). -/
def execUnfence (s : State) : Host.Outcome State Fault Refusal :=
  s.mailbox 13 (fun s =>
    match unitPage (s.omArg 0) with
    | none => s.omDone 2
    | some p => if s.blk p = 4 then (s.liftFence p true).omDone 0 else s.omDone 6)

/-- SENSOR_READ (R415): the latest sample of every sensor. -/
def execSensorRead (s : State) : Host.Outcome State Fault Refusal :=
  s.mailbox 14 (fun s =>
    (s.omData ((Config.sensorImage (s.ost.samples.map (fun x => (x.1, x.2.headD 0)))).take 1024)).omDone 0)

/-- MAILBOX_TIMEOUT (R414): the command ends with RESULT 8. -/
def execMailboxTimeout (s : State) : Host.Outcome State Fault Refusal :=
  if s.ost.cmd.isSome then .next (s.omDone 8) else .next s

/-- OSTLER_WDT (R474): Ostler alone restarts, and the ROM chooses again. CORE_CLK holds its value until its firmware runs. -/
def execOstlerWdt (s : State) : Host.Outcome State Fault Refusal :=
  let s := s.logNamed 1 evOstlerWdt 5 0 255
  let s := if s.ost.cmd.isSome then s.omDone 8 else s
  .next { s with ost := { s.ost with firmware := false, verified := false, trialOn := false, rising := none } }

end Sys2Proof.Machine
end

