-- ==== Sys2Proof/Machine/Sheaf.lean ====
section
/-!
DEFINITION. The engine registers with rules of their own (R86, R88, R91, R107 to R111) and the end of a zeroing (R90).
-/
namespace Sys2Proof.Machine

/-- A write of ENG_CFG (R78, R107): DEAD_FILL is stored, REC_INV empties the recipe cache. -/
def State.wrEngCfg (s : State) (f : Func) (e : Nat) (v : Word) : State :=
  let s := s.store f (rga (engPage e) 0x40) v 0
  if tbit v 1 then s.setEngine e { s.engine e with recipes := [] } else s

def execRecInv (f : Func) (e : Fin 6) (v : Word) (s : State) : Host.Outcome State Fault Refusal :=
  .next (s.guarded f (rga (engPage e.val) 0x40) (fun s => s.wrEngCfg f e.val v))

/-- Whether tenant t has commands queued or running on engine e (R86). -/
def State.workOn (s : State) (e t : Nat) : Bool :=
  let mine (o : Option Cmd) : Bool := match o with | some c => c.owner == t | none => false
  mine (s.engine e).sel || (match (s.engine e).run with | some r => r.cmd.owner == t | none => false) ||
  (List.range 4).any (fun i => let q := 4 * t + i; s.qEngine q == e && s.rd (qReg q 0xC) != s.rd (qReg q 0x14))

/-- A refused partition or region write: its bits of PART_ERR and the register (R108). -/
def State.partErr (s : State) (e : Nat) (bits : List Nat) (off : Nat) : State :=
  let a := rga (engPage e + 1) 0x100
  (bits.foldl (fun s b => s.wb a b true) s).pf a 5 0 (off / 4 % 64)

/-- A write of PART_TNn of engine e (R86). R88 judges a resident region where its own register is written: one that a new partition
leaves outside stands as it is (DESIGN CHOICE, log 50). -/
def State.wrPart (s : State) (f : Func) (e t : Nat) (v : Word) : State :=
  let lo := fld v 9 0
  let hi := lo + fld v 19 10
  let ovf := tbit v 31 && (List.range 8).any (fun n => n != t && (match granulesOf (s.rd (partReg e n)) with
    | some (b, k) => decide (b ≤ hi ∧ lo < b + k)
    | none => false))
  let range := tbit v 31 && decide (1023 < hi)
  let bad := (if ovf then [8] else []) ++ (if s.workOn e t then [9] else []) ++ (if range then [11] else [])
  if bad.isEmpty then s.store f (partReg e t) v 0 else s.partErr e bad (0x40 + 4 * t)

def execPartWrite (f : Func) (e : Fin 6) (t : Fin 8) (v : Word) (s : State) : Host.Outcome State Fault Refusal :=
  .next (s.guarded f (partReg e.val t.val) (fun s => s.wrPart f e.val t.val v))

/-- A write of RES_TNn_k of engine e (R88). -/
def State.wrRes (s : State) (f : Func) (e t k : Nat) (v : Word) : State :=
  let inside := match granulesOf (s.rd (partReg e t)) with
    | some (b, n) => decide (b ≤ fld v 9 0 ∧ fld v 9 0 + fld v 19 10 < b + n)
    | none => false
  if tbit v 31 && !inside then s.partErr e [10] (0x80 + 16 * t + 4 * k) else s.store f (resReg e t k) v 0

def execResWrite (f : Func) (e : Fin 6) (t : Fin 8) (k : Fin 4) (v : Word) (s : State) : Host.Outcome State Fault Refusal :=
  .next (s.guarded f (resReg e.val t.val k.val) (fun s => s.wrRes f e.val t.val k.val v))

/-- A write of ECC_CTL (R110): CE_CLR. -/
def State.wrEccCtl (s : State) (e : Nat) (v : Word) : State :=
  if tbit v 0 then (List.range 96).foldl (fun s b => s.wr (rga (engPage e + 3) (0x40 + 4 * b)) 0) s else s

def execCeClr (f : Func) (e : Fin 6) (v : Word) (s : State) : Host.Outcome State Fault Refusal :=
  .next (s.guarded f (rga (engPage e.val + 3) 0x1C4) (fun s => s.wrEccCtl e.val v))

/-- A write of REPAIR_i of engine e (R91). -/
def State.wrRepair (s : State) (e i : Nat) (v : Word) : State :=
  let a := rga (engPage e + 4) (0x40 + 4 * i)
  let err := rga (engPage e + 4) 0x240
  match s.repairCheck e i v with
  | 0 => s.wrRwp a v
  | 1 => s.wb err 0 true
  | _ => s.wb err 1 true

def execRepairWrite (f : Func) (e : Fin 6) (i : Fin 128) (v : Word) (s : State) : Host.Outcome State Fault Refusal :=
  .next (s.guarded f (rga (engPage e.val + 4) (0x40 + 4 * i.val)) (fun s => s.wrRepair e.val i.val v))

/-- SPAD_CLEAR_DONE (R90, R202): engine e's zeroing ends; an ABORTING tenant that no engine zeroes any more is STOPPED. -/
def execSpadClearDone (e : Fin 6) (s : State) : Host.Outcome State Fault Refusal :=
  let was := (s.engine e.val).clearing
  let s := s.setEngine e.val { s.engine e.val with clearing := [] }
  let s := (List.range 8).foldl (fun s t =>
    if was.contains t ∧ s.tnState t = 2 ∧ !s.zeroing t then s.finishAbort t else s) s
  .next s.kick

end Sys2Proof.Machine
end

