-- ==== Sys2Proof/Machine/Thresher.lean ====
section
/-!
DEFINITION. Camera ports and Thresher (R332 to R340, R346): packets, the stages, statistics, views, ROI steering, sensor settings.
-/
namespace Sys2Proof.Machine

def thPage (c : Nat) : Nat := 0x500 + c
def thReg (c off : Nat) : Nat := rga (thPage c) off

/-- A latched parameter word by its offset (R334). -/
def Thresher.p (x : Thresher) (off : Nat) : Word := x.par.getD ((off - 0x60) / 4) 0
def Thresher.width (x : Thresher) : Nat := fld (x.p 0x64) 15 0
def Thresher.height (x : Thresher) : Nat := fld (x.p 0x64) 31 16
def Thresher.dt (x : Thresher) : Nat := fld (x.p 0x60) 27 22
def Thresher.cfa (x : Thresher) : Nat := fld (x.p 0x60) 21 20
def Thresher.yuv (x : Thresher) : Bool := x.dt == 0x1E

/-- Bits of a code of a pixel data type (R332); none: not supported. -/
def dtBits (dt : Nat) : Option Nat :=
  match dt with
  | 0x2A => some 8 | 0x2B => some 10 | 0x2C => some 12 | 0x2D => some 14 | 0x1E => some 8
  | _ => none

/-! ### Arithmetic of the stages (R335) -/

/-- Round a product with sh fraction bits, and saturate. -/
def fix (sh : Nat) (x : Int) : Int := (x + 2 ^ (sh - 1)) / 2 ^ sh
def sat16 (x : Int) : Nat := (clampI 0 65535 x).toNat

abbrev Plane := Array (Array Nat)
def Plane.at (p : Plane) (x y : Nat) : Nat := (p.getD y #[]).getD x 0

def planeOf (w h : Nat) (f : Nat → Nat → Nat) : Plane := (Array.range h).map (fun y => (Array.range w).map (fun x => f x y))

/-- A position that leaves the frame mirrors about the border (R336). -/
def mirror (n : Nat) (i : Int) : Nat :=
  if i < 0 then i.natAbs else if (n : Int) ≤ i then (2 * (n : Int) - 2 - i).toNat else i.toNat

def Plane.mir (p : Plane) (w h : Nat) (x y : Int) : Nat := p.at (mirror w x) (mirror h y)

/-- The channel of a site (R335): 0 red, 1 green beside red, 2 green beside blue, 3 blue. -/
def chanAt (cfa x y : Nat) : Nat :=
  let px := (x + (if cfa = 1 ∨ cfa = 3 then 1 else 0)) % 2
  let py := (y + (if cfa = 2 ∨ cfa = 3 then 1 else 0)) % 2
  2 * py + px

/-- A 16-bit half of the latched words: value k of a list that packs two to a word from an offset. -/
def Thresher.half (x : Thresher) (off k : Nat) : Nat :=
  let w := x.p (off + k / 2 * 4)
  if k % 2 = 0 then fld w 15 0 else fld w 31 16

/-- Stage 1. -/
def Thresher.unpack (x : Thresher) : Plane :=
  let b := (dtBits x.dt).getD 8
  (x.lines.map (fun l => (l.map (fun v => v % 2 ^ b * 2 ^ (16 - b))).toArray)).toArray

/-- Stage 2, black level. -/
def Thresher.black (x : Thresher) (p : Plane) : Plane :=
  planeOf x.width x.height (fun i j =>
    let d : Int := (p.at i j : Int) - (x.half 0x70 (chanAt x.cfa i j) : Int)
    sat16 (fix 14 (max d 0 * (fld (x.p 0x78) 15 0 : Int))))

/-- Stage 3, defect pixels: the eight neighbours at distance 2. -/
def Thresher.defect (x : Thresher) (p : Plane) : Plane :=
  let thr := fld (x.p 0x78) 31 16
  if thr = 0 then p else
  planeOf x.width x.height (fun i j =>
    let at_ (dx dy : Int) : Nat := p.mir x.width x.height ((i : Int) + dx) ((j : Int) + dy)
    let ns := [at_ (-2) (-2), at_ 0 (-2), at_ 2 (-2), at_ (-2) 0, at_ 2 0, at_ (-2) 2, at_ 0 2, at_ 2 2]
    let hi := ns.foldl max 0
    let lo := ns.foldl min 65535
    let v := p.at i j
    if hi + thr < v then hi else if v + thr < lo then lo else v)

/-- An entry of the shading grid of a channel: the channels one after another, each row by row, two bytes an entry. -/
def Thresher.lscAt (x : Thresher) (ch gx gy : Nat) : Nat := leAt x.lsc (2 * (1089 * ch + 33 * gy + gx)) 2

/-- The place of pixel i of n on a grid of 33 points, in 1 / 65,536 of a step: inside the pixel's own share of the frame. -/
def lscPos (n i : Nat) : Nat :=
  let lo := i * 2 ^ 21 / n
  let hi := (i + 1) * 2 ^ 21 / n
  lo + Config.lscPlace n i % (hi - lo + 1)

/-- The gain at a pixel (R335): bilinear between the four grid points around it; a gain between two codes is one of them. -/
def Thresher.lscGain (x : Thresher) (ch i j : Nat) : Nat :=
  let px := lscPos x.width i
  let py := lscPos x.height j
  let gx := min (px / 2 ^ 16) 31
  let gy := min (py / 2 ^ 16) 31
  let fx := px - gx * 2 ^ 16
  let fy := py - gy * 2 ^ 16
  let row (y : Nat) : Nat := x.lscAt ch gx y * (2 ^ 16 - fx) + x.lscAt ch (gx + 1) y * fx
  let n := row gy * (2 ^ 16 - fy) + row (gy + 1) * fy
  if n % 2 ^ 32 = 0 then n / 2 ^ 32 else n / 2 ^ 32 + Config.lscRound n % 2

/-- Stage 4, lens shading: an address of 0 means unity. -/
def Thresher.shade (x : Thresher) (p : Plane) : Plane :=
  if x.lsc.isEmpty then p else
  planeOf x.width x.height (fun i j => sat16 (fix 12 ((p.at i j * x.lscGain (chanAt x.cfa i j) i j : Nat) : Int)))

/-- Stage 5, white balance. -/
def Thresher.balance (x : Thresher) (p : Plane) : Plane :=
  planeOf x.width x.height (fun i j => sat16 (fix 12 ((p.at i j * x.half 0x7C (chanAt x.cfa i j) : Nat) : Int)))

/-- Green at a red or blue site (R336). -/
def greenAt (p : Int → Int → Int) (x y : Int) : Int :=
  let ab (a : Int) : Int := (a.natAbs : Int)
  let dh := ab (p (x - 1) y - p (x + 1) y) + ab (2 * p x y - p (x - 2) y - p (x + 2) y)
  let dv := ab (p x (y - 1) - p x (y + 1)) + ab (2 * p x y - p x (y - 2) - p x (y + 2))
  let gh := (2 * (p (x - 1) y + p (x + 1) y) + 2 * p x y - p (x - 2) y - p (x + 2) y + 2) / 4
  let gv := (2 * (p x (y - 1) + p x (y + 1)) + 2 * p x y - p x (y - 2) - p x (y + 2) + 2) / 4
  clampI 0 65535 (if dh < dv then gh else if dv < dh then gv else (gh + gv + 1) / 2)

/-- Stage 6 (R336): red, green and blue of each site. -/
def Thresher.demosaic (x : Thresher) (p : Plane) (i j : Nat) (green : Plane) : Nat × Nat × Nat :=
  let w := x.width
  let h := x.height
  let c (dx dy : Int) : Int := (p.mir w h ((i : Int) + dx) ((j : Int) + dy) : Int)
  let g (dx dy : Int) : Int := (green.mir w h ((i : Int) + dx) ((j : Int) + dy) : Int)
  let d (dx dy : Int) : Int := c dx dy - g dx dy
  let hor := sat16 (g 0 0 + (d (-1) 0 + d 1 0 + 1) / 2)
  let ver := sat16 (g 0 0 + (d 0 (-1) + d 0 1 + 1) / 2)
  let diag := sat16 (g 0 0 + (d (-1) (-1) + d 1 (-1) + d (-1) 1 + d 1 1 + 2) / 4)
  let own := p.at i j
  match chanAt x.cfa i j with
  | 0 => (own, green.at i j, diag)
  | 1 => (hor, own, ver)
  | 2 => (ver, own, hor)
  | _ => (diag, green.at i j, own)

/-- The green plane: measured or estimated. -/
def Thresher.greens (x : Thresher) (p : Plane) : Plane :=
  let q (a b : Int) : Int := (p.mir x.width x.height a b : Int)
  planeOf x.width x.height (fun i j =>
    let k := chanAt x.cfa i j
    if k = 1 ∨ k = 2 then p.at i j else (greenAt q i j).toNat)

/-- Stage 7, colour matrix. -/
def Thresher.matrix (x : Thresher) (v : Nat × Nat × Nat) : Nat × Nat × Nat :=
  let m (k : Nat) : Int := toS 16 (x.half 0x84 k)
  let o (i : Nat) : Nat := sat16 (fix 12 (m (3 * i) * v.1) + fix 12 (m (3 * i + 1) * v.2.1) + fix 12 (m (3 * i + 2) * v.2.2) + m (9 + i))
  (o 0, o 1, o 2)

/-- Stage 8, tone curve of channel k: an address of 0 means identity. -/
def Thresher.tone (x : Thresher) (k v : Nat) : Nat :=
  if x.gamma.isEmpty then v else
  let e (i : Nat) : Int := (leAt x.gamma (2 * (1025 * k + i)) 2 : Int)
  let a := e (v / 64)
  sat16 (a + fix 6 ((e (v / 64 + 1) - a) * (v % 64 : Nat)))

/-- The frame after stage 8, three planes interleaved. -/
structure Rgb where
  r : Plane
  g : Plane
  b : Plane

def Thresher.stage5 (x : Thresher) : Plane := x.balance (x.shade (x.defect (x.black x.unpack)))

/-- Stages 6 to 8 of a raw frame with its stage-5 values. -/
def Thresher.finish (x : Thresher) (f : Nat → Nat → Nat × Nat × Nat) : Rgb :=
  let t := (Array.range x.height).map (fun j => (Array.range x.width).map (fun i =>
    let v := x.matrix (f i j)
    (x.tone 0 v.1, x.tone 1 v.2.1, x.tone 2 v.2.2)))
  ⟨t.map (fun l => l.map (·.1)), t.map (fun l => l.map (·.2.1)), t.map (fun l => l.map (·.2.2))⟩

/-- A YUV422 pixel: luma, and the chroma of its pair (packed U, Y, V, Y). -/
def Thresher.yuvAt (x : Thresher) (p : Plane) (i j : Nat) : Nat × Nat × Nat :=
  let _ := x
  Config.yuvRgb (p.at (2 * i + 1) j) (p.at (i / 2 * 4) j) (p.at (i / 2 * 4 + 2) j)

def Thresher.image (x : Thresher) (p5 : Plane) : Rgb :=
  if x.yuv then x.finish (x.yuvAt p5)
  else (let g := x.greens p5; x.finish (fun i j => x.demosaic p5 i j g))

/-! ### Statistics (R335) -/

/-- The quad at (2i, 2j): red, the sum of the greens, blue. -/
def Thresher.quad (x : Thresher) (p : Plane) (i j : Nat) : Nat × Nat × Nat :=
  let at_ (k : Nat) : Nat := ([(0, 0), (1, 0), (0, 1), (1, 1)].map (fun d => if chanAt x.cfa d.1 d.2 = k then p.at (2 * i + d.1) (2 * j + d.2) else 0)).sum
  (at_ 0, at_ 1 + at_ 2, at_ 3)

def Thresher.quads (x : Thresher) (p : Plane) : Array (Array (Nat × Nat × Nat)) :=
  (Array.range (x.height / 2)).map (fun j => (Array.range (x.width / 2)).map (fun i => x.quad p i j))

/-- Luma of a quad. -/
def quadLuma (q : Nat × Nat × Nat) : Nat := (77 * q.1 + 75 * q.2.1 + 29 * q.2.2 + 128) / 256

def histOf (qs : List (Nat × Nat × Nat)) : List Nat :=
  (qs.foldl (fun (m : Array Nat) q => m.modify (quadLuma q / 256) (· + 1)) (Array.replicate 256 0)).toList

/-- Means of red, green and blue over quads. -/
def meansOf (open_ : Nat) (qs : List (Nat × Nat × Nat)) : List Nat :=
  let n := qs.length
  if n = 0 then [Config.emptyMean open_, Config.emptyMean (open_ + 1), Config.emptyMean (open_ + 2)]
  else [rneDiv (qs.map (·.1)).sum n, rneDiv (qs.map (·.2.1)).sum (2 * n), rneDiv (qs.map (·.2.2)).sum n]

/-- The columns or rows of part i of n (R338). -/
def span (i w n : Nat) : List Nat := (List.range ((i + 1) * w / n - i * w / n)).map (· + i * w / n)

def zonesOf (qw qh : Nat) (qs : Array (Array (Nat × Nat × Nat))) : List Nat :=
  (List.range 256).flatMap (fun z =>
    meansOf (3 * z) ((span (z / 16) qh 16).flatMap (fun j => (span (z % 16) qw 16).map (fun i => (qs.getD j #[]).getD i (0, 0, 0)))))

/-! ### Views (R338, R339) -/

/-- RNE(v ÷ 65,535) as BF16. -/
def bfUnit (v : Nat) : Nat :=
  if v = 0 then 0 else
  let k := 23 - Nat.log2 v
  let k := if 256 * 65535 ≤ v * 2 ^ k then k - 1 else k
  roundMag bf16 (rneDiv (v * 2 ^ k) 65535) (-(k : Int))

/-- Stage 10: a 16-bit value in the output format. -/
def outValue (bf : Bool) (v : Nat) : Nat := if bf then bfUnit v else rneDiv v 257

/-- The mean of an output pixel's input pixels. -/
def areaMean (p : Plane) (xs ys : List Nat) : Nat :=
  let n := xs.length * ys.length
  if n = 0 then Config.emptyMean 0 else rneDiv ((ys.flatMap (fun y => xs.map (fun x => p.at x y))).sum) n

/-- A view of ow × oh pixels over the input window. -/
def makeView (bf : Bool) (m : Rgb) (x y w h ow oh : Nat) : View :=
  { w := ow
    h := oh
    x := x
    y := y
    vals := (List.range oh).flatMap (fun j => (List.range ow).flatMap (fun i =>
      let xs := (span i w ow).map (· + x)
      let ys := (span j h oh).map (· + y)
      [outValue bf (areaMean m.r xs ys), outValue bf (areaMean m.g xs ys), outValue bf (areaMean m.b xs ys)])) }

/-- ROI entry k of the latched buffer (R339): the view, or whether it is skipped. -/
def Thresher.roiView (x : Thresher) (m : Rgb) (k : Nat) : Option View × Bool :=
  let n (o : Nat) : Nat := leAt x.roi (16 * k + o) 2
  if x.roi.isEmpty ∨ leAt x.roi (16 * k + 12) 1 % 2 = 0 then (none, false)
  else if x.width < n 0 + n 4 ∨ x.height < n 2 + n 6 ∨ n 4 < n 8 ∨ 16 * n 8 < n 4 ∨ n 6 < n 10 ∨ 16 * n 10 < n 6 then (none, true)
  else (some (makeView (tbit (x.p 0x6C) 0) m (n 0) (n 2) (n 4) (n 6) (n 8) (n 10)), false)

/-- The sample of a complete frame (R335, R338, R348). -/
def Thresher.sample (x : Thresher) (now : Nat) : Sample :=
  let bf := tbit (x.p 0x6C) 0
  let p5 := if x.yuv then x.unpack else x.stage5
  let m := x.image p5
  let qs := x.quads p5
  let rois := (List.range 4).map (x.roiView m)
  { fmt := b2n bf
    frame := x.num
    tStart := x.start
    tEnd := now
    ptpLo := x.sec % 2 ^ 32
    ptpHi := x.ns
    exp := x.exp
    gain := x.gain
    cu := 0
    flags := b2n (rois.any (·.2)) * 8
    index := x.frames
    views := some (makeView bf m 0 0 x.width x.height (fld (x.p 0x68) 15 0) (fld (x.p 0x68) 31 16)) :: rois.map (·.1)
    embed := x.embed
    hist := if x.yuv then Config.yuvHist x.lines else histOf (qs.toList.flatMap (·.toList))
    zones := if x.yuv then Config.yuvZones x.lines else zonesOf (x.width / 2) (x.height / 2) qs }

/-- The frame's means of red, green and blue (R337). -/
def Thresher.means (x : Thresher) : Nat × Nat × Nat :=
  if x.yuv then Config.yuvMeans x.lines else
  match meansOf 0 ((x.quads x.stage5).toList.flatMap (·.toList)) with
  | [r, g, b] => (r, g, b)
  | _ => (0, 0, 0)

/-- S + ((m − S) >> ALPHA), the shift arithmetic (R337). -/
def smooth (alpha s m : Nat) : Nat := ((s : Int) + ((m : Int) - s) / 2 ^ alpha).toNat

/-! ### Packets -/

/-- Close the open frame as CORRUPT (R346, R350). -/
def State.thCorrupt (s : State) (c : Nat) : State :=
  (s.setTh c { s.th c with opened := false, discard := false, lines := [], embed := [] }).corruptSample c

/-- Mark the open frame CORRUPT. -/
def State.thMark (s : State) (c : Nat) : State := if (s.th c).opened then s.setTh c { s.th c with corrupt := true } else s

/-- Count of one byte of TH_ERR. -/
def State.thErr (s : State) (c hi lo : Nat) : State := s.incSat (thReg c 0x104) hi lo

/-- The header of a packet (R333, R346): whether the packet is the pipeline's. An uncorrectable header is discarded and its frame marked, a
corrected one counted; another virtual channel counts in VC_DROP. -/
def State.csiHead (s : State) (c vc : Nat) (h : HeaderEcc) : Bool × State :=
  if h = .bad then (false, s.thMark c)
  else
    let s := if h = .fixed then s.thErr c 31 24 else s
    if s.rf (thReg c 0x60) 29 28 = vc then (true, s) else (false, s.incSat (thReg c 0x108) 31 16)

/-- A table in the owner's HBM: none where the address is outside its regions; an address of 0 means no table. -/
def State.thTable (s : State) (c a len : Nat) (zeroOff : Bool) : Option (List Byte) × State :=
  if zeroOff ∧ a = 0 then (some [], s) else
  let (ok, s) := s.unitAccess (s.srcOwner c) false a len
  if ok then (some (s.hbmRead a len), s) else (none, s)

/-- The settings in force for frame k (R340). -/
def Thresher.settle (x : Thresher) (k : Nat) : Thresher :=
  let due := x.effects.filter (fun e => decide (e.1 ≤ k))
  let y := due.foldl (fun (y : Thresher) e => if e.2.1 then { y with exp := e.2.2 } else { y with gain := e.2.2 }) x
  { y with effects := x.effects.filter (fun e => decide (k < e.1)) }

/-- A frame-start packet (R334, R346): an open frame becomes CORRUPT; parameters, tables and ROI buffer are latched. A table outside the
owner's regions makes the frame CORRUPT. -/
def State.frameStart (s : State) (c num : Nat) : State :=
  let s := if (s.th c).opened then s.thCorrupt c else s
  let par := (List.range 24).map (fun i => s.rd (thReg c (0x60 + 4 * i)))
  let (lsc, s) := s.thTable c (s.rd64 (thReg c 0xA0)) 8712 true
  let (gam, s) := s.thTable c (s.rd64 (thReg c 0xA8)) 6150 true
  let x := s.th c
  let (roi, s) := if s.rb (thReg c 0xB8) 31 then s.thTable c (s.rd64 (thReg c 0xB0) + (if x.roiSel then 64 else 0)) 64 false else (some [], s)
  let k := x.frames + 1
  s.setTh c { x.settle k with
    opened := true
    frames := k
    num := num
    start := s.now
    sec := s.clock.sec
    ns := s.clock.ns
    corrupt := lsc.isNone || gam.isNone || roi.isNone
    discard := false
    par := par
    lsc := lsc.getD []
    gamma := gam.getD []
    roi := roi.getD []
    lines := []
    embed := []
    late := x.late.filter (fun n => decide (k < n + 8)) }

/-- CSI2_FRAME_START (R334). -/
def execCsi2FrameStart (c : Fin 16) (vc : BitVec 2) (ecc : HeaderEcc) (frame : BitVec 16) (s : State) : Host.Outcome State Fault Refusal :=
  if !s.srcOn c.val then .next s else
  let (own, s) := s.csiHead c.val vc.toNat ecc
  .next (if own then s.frameStart c.val frame.toNat else s)

/-- The data type of the pipeline (R332, R334): the one latched by the open frame. -/
def State.csiType (s : State) (c : Nat) : Nat := if (s.th c).opened then (s.th c).dt else s.rf (thReg c 0x60) 27 22

/-- A line of pixels (R332, R346): data type, overflow, CRC and length in that order. -/
def State.thLine (s : State) (c dt : Nat) (crcOk overflow : Bool) (codes : List Nat) : State :=
  if dt = 2 ∨ dt = 3 then s
  else if dt ≠ s.csiType c ∨ dtBits dt = none then s.incSat (thReg c 0x108) 15 0
  else
    let x := s.th c
    if !x.opened || x.discard then s
    else if overflow then (s.thErr c 15 8).setTh c { x with corrupt := true, discard := true }
    else
      let n := if dt = 0x1E then 2 * x.width else x.width
      if !crcOk then (s.thErr c 23 16).setTh c { x with corrupt := true, lines := x.lines ++ [codes] }
      else s.setTh c { x with corrupt := x.corrupt || codes.length != n, lines := x.lines ++ [codes] }

/-- CSI2_LINE (R333, R335, R346). -/
def execCsi2Line (c : Fin 16) (vc : BitVec 2) (ecc : HeaderEcc) (dt : BitVec 6) (crcOk overflow : Bool) (codes : List Nat) (s : State) :
    Host.Outcome State Fault Refusal :=
  if !s.srcOn c.val then .next s else
  let (own, s) := s.csiHead c.val vc.toNat ecc
  .next (if own then s.thLine c.val dt.toNat crcOk overflow codes else s)

/-- An embedded-data packet (R332, R346): the first 64 bytes of the frame's embedded data are kept; a payload that fails its CRC makes the
frame CORRUPT. -/
def State.thEmbed (s : State) (c : Nat) (crcOk : Bool) (bytes : List Byte) : State :=
  let x := s.th c
  if !x.opened || x.discard then s
  else
    let x := { x with embed := (x.embed ++ bytes).take 64 }
    if crcOk then s.setTh c x else (s.thErr c 23 16).setTh c { x with corrupt := true }

/-- CSI2_EMBEDDED_DATA (R332). -/
def execCsi2EmbeddedData (c : Fin 16) (vc : BitVec 2) (ecc : HeaderEcc) (crcOk : Bool) (bytes : List Byte) (s : State) :
    Host.Outcome State Fault Refusal :=
  if !s.srcOn c.val then .next s else
  let (own, s) := s.csiHead c.val vc.toNat ecc
  .next (if own then s.thEmbed c.val crcOk bytes else s)

/-- The register writes of a set (R340, R355): the TH_TPL entries in order, each exposure or gain shifted right and cut to its bytes. -/
def State.tplWrites (s : State) (c exp gain : Nat) : List (Nat × Nat × Nat) :=
  (List.range 8).filterMap (fun k =>
    let r := s.rd (thReg c (0xC0 + 4 * k))
    let b := fld r 13 12 + 1
    let put (v : Nat) : Option (Nat × Nat × Nat) := some (fld r 31 16, b, v / 2 ^ fld r 7 0 % 2 ^ (8 * b))
    match fld r 15 14 with
    | 1 => put exp
    | 2 => put gain
    | _ => none)

/-- Send the staged set at a frame end (R340). -/
def State.startSend (s : State) (c : Nat) : State :=
  let x := s.th c
  let r := s.rd (thReg c 0xBC)
  match x.staged, x.sending with
  | some (e, g), none =>
    if tbit r 31 then
      s.sendSet c ⟨e, g, x.frames, fld r 19 18, fld r 17 16, fld r 30 30, fld r 29 23, s.tplWrites c e g⟩
    else s
  | _, _ => s

/-- The smoothed means take the frame's means (R337); those of a CORRUPT frame are free. -/
def State.updateMeans (s : State) (c : Nat) : State :=
  let x := s.th c
  let bad := x.corrupt || x.lines.length != x.height
  let m := if bad then ((Config.freeWord s.fresh).toNat % 65536, (Config.freeWord (s.fresh + 1)).toNat % 65536, (Config.freeWord (s.fresh + 2)).toNat % 65536)
    else x.means
  let s := if bad then { s with fresh := s.fresh + 3 } else s
  let a := s.rf (thReg c 0xF0) 3 0
  let o := x.smean.getD (0, 0, 0)
  s.setTh c { x with smean := some (smooth a o.1 m.1, smooth a o.2.1 m.2.1, smooth a o.2.2 m.2.2) }

/-- A frame-end packet (R335, R337, R340, R346, R350). -/
def State.frameEnd (s : State) (c : Nat) : State :=
  if !(s.th c).opened then s else
  let s := s.updateMeans c
  let x := s.th c
  let s :=
    if x.corrupt || x.lines.length != x.height then s.thCorrupt c
    else (s.addSampleOf c (x.sample s.now)).setTh c { x with opened := false, lines := [], embed := [] }
  s.startSend c

/-- CSI2_FRAME_END (R340). -/
def execCsi2FrameEnd (c : Fin 16) (vc : BitVec 2) (ecc : HeaderEcc) (s : State) : Host.Outcome State Fault Refusal :=
  if !s.srcOn c.val then .next s else
  let (own, s) := s.csiHead c.val vc.toNat ecc
  .next (if own then s.frameEnd c.val else s)

/-- FRAME_TIMEOUT (R346): the open frame is CORRUPT, unless its frame end arrives in the same tick. -/
def execFrameTimeout (c : Fin 16) (ended : Bool) (s : State) : Host.Outcome State Fault Refusal :=
  if ended || !s.srcOn c.val || !(s.th c.val).opened then .next s else .next ((s.thErr c.val 7 0).thCorrupt c.val)

/-- CAM_SILENT (R346): the event; the pipeline stays enabled. -/
def execCamSilent (c : Fin 16) (started : Bool) (s : State) : Host.Outcome State Fault Refusal :=
  if started || !s.srcOn c.val then .next s
  else .next ((s.raise (thPage c.val) 3).logNamed (thPage c.val) evPort 6 3 (s.srcOwner c.val))

/-- A write of TH_SET (R340): a set staged before it counts in SET_MERGED. -/
def State.wrThSet (s : State) (c : Nat) (v : Word) : State :=
  let x := s.th c
  let s := if x.staged.isSome then s.incSat (thReg c 0x10C) 15 0 else s
  s.setTh c { x with staged := some (fld v 15 0, fld v 31 16) }

def execThSet (f : Func) (c : Fin 16) (v : Word) (s : State) : Host.Outcome State Fault Refusal :=
  .next (s.guarded f (thReg c.val 0xE0) (fun s => s.wrThSet c.val v))

/-- ROI_COMMIT (R339): a release of ROI_TB commits the spare buffer. -/
def execRoiCommit (c : Fin 16) (s : State) : Host.Outcome State Fault Refusal :=
  let x := s.th c.val
  if x.roiDue = 0 then .next s
  else .next (s.setTh c.val { x with roiDue := x.roiDue - 1, roiSel := !x.roiSel })

/-- A write of TH_OUT (R338, R356): while the source runs with AUG_EN the augmented view must still fit the main view. -/
def State.wrThOut (s : State) (f : Func) (c : Nat) (v : Word) : State :=
  if s.srcOn c && s.rb (srcReg c 0) 30 && !augOk c v (s.rd (augReg c 0)) (s.rd (augReg c 4)) (s.rd (augReg c 8)) then s.srcErr c
  else s.store f (thReg c 0x68) v 0

/-- A write of TH_SIZE (R334): frame geometry is fixed while the pipeline runs. -/
def State.wrThSize (s : State) (f : Func) (c : Nat) (v : Word) : State :=
  if s.srcOn c then s.srcErr c else s.store f (thReg c 0x64) v 0

end Sys2Proof.Machine
end

