-- ==== Sys2Proof/Machine/RegView.lean ====
section
/-!
DEFINITION. Reads of registers: what each register shows (the registers that only show other state are computed here), what a
function may see (R13, R446), and the latch of 64-bit pairs (R11).
-/
namespace Sys2Proof.Machine

/-! ### What registers show -/

/-- The first page of the instance a page belongs to. -/
def unitFirst (page : Nat) : Nat :=
  match instPages page with
  | some (p, _, _) => p
  | none => page

/-- Whether Innkeeper runs a command on a unit (R454). -/
def State.unitRuns (s : State) (i : PageId) : Bool :=
  match i.block with
  | .sheaf => (s.engine i.inst).run.isSome
  | .porter => (s.porter i.inst).run.isSome
  | _ => false

/-- Whether a unit holds work in progress (R453). -/
def State.unitBusy (s : State) (i : PageId) : Bool :=
  match i.block with
  | .sheaf => (s.engine i.inst).run.isSome || !(s.engine i.inst).clearing.isEmpty
  | .porter => (s.porter i.inst).run.isSome
  | .ostler => s.ost.cmd.isSome
  | .ledger => !s.ledger.queue.isEmpty || s.ledger.prog.isSome
  | .warden => s.rb aWdStat 29
  | .security => s.rb (rga 9 0x12C) 30
  | .innkeeper => (List.range 32).any (fun q => !(s.queue q).fetched.isEmpty || !(s.queue q).flight.isEmpty)
  | .tally => !s.arrQ.isEmpty
  | .faleg => !(s.port i.inst).tx.isEmpty
  | .eth => (s.ethPort i.inst).wire.isSome
  | .can => (s.cf i.inst).busy.isSome
  | .i2c => (s.ic i.inst).run.isSome
  | .thresher => (s.th i.inst).opened
  | .glean => s.perc.glean.isSome
  | _ => false

/-- BLK_STAT (R453, R454): STATE, FENCE and BUSY of the unit, CMD_REFUSED and LOCKED of the page. -/
def State.blkStat (s : State) (page : Nat) (i : PageId) : Word :=
  let p := unitFirst page
  let st := s.blk p
  let st := if st = 2 ∧ s.unitRuns i then 3 else st
  w32 (b2n (s.rb (rga page oStat) 12) * 4096 + b2n (s.locked page) * 1024 + b2n (s.rb (rga p oStat) 9) * 512 + b2n (s.unitBusy i) * 256 + st)

/-- The common header (R449 to R458). -/
def State.viewHeader (s : State) (page : Nat) (i : PageId) (o : Nat) : Word :=
  match o with
  | 0x00 => blkId i
  | 0x04 => 0x0100
  | 0x08 => s.rd (rga page oCtl)
  | 0x0C => s.blkStat page i
  | 0x10 => s.rd (rga page oRaw)
  | 0x14 => s.rd (rga page oEn)
  | 0x18 => s.irqPend page
  | 0x20 => s.rd (rga page oCode)
  | 0x24 => s.rd (rga page oInfo)
  | 0x28 => s.rd (rga page oInj)
  | 0x2C => s.rd (rga page oLock)
  | _ => 0

/-- A word with one bit for each of 32 sources from 32 × k. -/
def sourceBits (k : Nat) (p : Nat → Bool) : Word :=
  w32 ((List.range 32).foldl (fun m j => m + (match srcPage (32 * k + j) with | some q => if p q then 2 ^ j else 0 | none => 0)) 0)

def State.faulted (s : State) (page : Nat) : Bool := s.rf (rga page oCode) 15 0 != 0
def State.hasIrq (s : State) (page : Nat) : Bool := s.irqPend page != 0

/-- TOP (R459, R461). -/
def State.viewTop (s : State) (o : Nat) : Word :=
  if o = 0x40 then w32 (0x06400000 + b2n s.fuses.m64 * 256 + (if s.fuses.m64 then 0x40 else 0x60))
  else if o = 0x44 then w32 (s.fuses.stepMajor % 256 * 256 + s.fuses.stepMinor % 256)
  else if o = 0x48 then w32 (s.me % 64)
  else if o = 0x4C then
    w32 (b2n s.ready * 2 ^ 31 + b2n s.safeHold * 2 ^ 30 + b2n s.tensorOff * 2 ^ 29 + ((upPorts s).map (fun p => 2 ^ p)).sum * 256 + s.stage)
  else if o = 0x54 then
    let n := ((List.range 256).filter (fun k => match srcPage k with | some p => s.faulted p | none => false)).length
    w32 (b2n (decide (0 < n)) * 2 ^ 31 + n)
  else if 0x80 ≤ o ∧ o < 0xA0 then sourceBits ((o - 0x80) / 4) s.faulted
  else if 0xA0 ≤ o ∧ o < 0xC0 then sourceBits ((o - 0xA0) / 4) s.hasIrq
  else s.rd (rga 0 o)

/-- LEDGER (R432, R442). -/
def State.viewLedger (s : State) (o : Nat) : Word :=
  let w := s.rf (rga 2 0x40) 11 0
  let row := s.lrow (w / 16)
  let wear := match readRow row with | .used c => c.wear | .repair c => c.wear | .lost => max row.a.wear row.b.wear
  if o = 0x44 then s.ledRead w
  else if o = 0x48 then
    setFld (setBit (setBit (s.rd (rga 2 0x48)) 29 (readRow row == .lost)) 28 (decide (1000000 < wear))) 20 16 s.ledger.queue.length
  else if o = 0x4C then w32 wear
  else s.rd (rga 2 o)

/-- SECURITY (R401, R402, R413): the public key's octets stand in ascending order, four to a register. -/
def State.viewSecurity (s : State) (o : Nat) : Word :=
  if o = 0x40 then
    w32 (b2n s.fuses.otpOk * 2 ^ 31 + b2n (s.rb (rga 9 0x12C) 30) * 2 + b2n ((List.range 8).any (fun t => (s.tenant t).scrubbing)))
  else if o = 0x48 then w32 s.fuses.uid
  else if o = 0x4C then w32 (s.fuses.uid / 2 ^ 32)
  else if o = 0x50 then s.ledRead 0
  else if 0x140 ≤ o ∧ o < 0x1A0 then w32 (leAt s.fuses.attPub (o - 0x140) 4)
  else if o = 0x1A0 then w32 ((List.range 64).filter (fun k => tbit (s.rosterW k 11) 31)).length
  else s.rd (rga 9 o)

/-- STAT, CNT and the two ARR registers of a barrier (R231, R232). -/
def State.barStat (s : State) (b : BarId) : Word :=
  let x := s.bar b
  w32 (x.gen % 65536 * 65536 + x.last % 8 * 256 + popcount 64 x.open_)
def State.barCnt (s : State) (b : BarId) : Word :=
  let x := s.bar b
  w32 (x.filled % 65536 * 65536 + (if s.bMode b = 2 then x.drained % 65536 else popcount 64 x.carry))

/-- TALLY (R230, R231). -/
def State.viewTally (s : State) (sub o : Nat) : Word :=
  let a := rga (0x20 + sub) o
  if sub = 0 ∧ o = 0x40 then
    w32 ((List.range 32).filter (fun q => match (s.queue q).wait with
      | some w => (match w.on with | .gen _ _ | .pipe _ _ _ _ => true | _ => false)
      | none => false)).length
  else if sub = 2 ∧ 0x40 ≤ o ∧ o < 0x440 then s.barStat (.central (Fin.ofNat 256 ((o - 0x40) / 4)))
  else if sub = 2 ∧ 0x440 ≤ o ∧ o < 0x840 then s.barCnt (.central (Fin.ofNat 256 ((o - 0x440) / 4)))
  else if sub = 3 ∧ 0x40 ≤ o ∧ o < 0x840 then
    w32 ((s.bar (.central (Fin.ofNat 256 ((o - 0x40) / 8)))).open_ / (if o % 8 = 0 then 1 else 2 ^ 32))
  else s.rd a

/-- SHn (R107, R111, R232). -/
def State.viewSheaf (s : State) (e sub o : Nat) : Word :=
  let tree (k : Nat) : BarId := .tree (Fin.ofNat 6 e) (Fin.ofNat 64 k)
  if sub = 0 ∧ o = 0x44 then
    let run := match (s.engine e).run with
      | some r => r.cmd.owner * 2 ^ 20 + r.cmd.q % 4 * 2 ^ 18 + 2 ^ 17 + r.cmd.seq.toNat % 65536
      | none => 0
    w32 (run + b2n (!(s.engine e).clearing.isEmpty) * 65536)
  else if sub = 4 ∧ 0x300 ≤ o ∧ o < 0x480 then
    let b := (o - 0x300) / 4
    w32 (((s.engine e).repaired.filter (fun r => r.1 == b)).length % 32 * 256 + s.fusedRepairs e b % 32)
  else if sub = 6 ∧ 0x40 ≤ o ∧ o < 0x140 then s.barStat (tree ((o - 0x40) / 4))
  else if sub = 6 ∧ 0x140 ≤ o ∧ o < 0x240 then s.barCnt (tree ((o - 0x140) / 4))
  else if sub = 7 ∧ 0x40 ≤ o ∧ o < 0x240 then w32 ((s.bar (tree ((o - 0x40) / 8))).open_ / (if o % 8 = 0 then 1 else 2 ^ 32))
  else s.rd (rga (engPage e + sub) o)

/-- The accounting counters of a tenant (R250): k 0 time, 1 HBM, 2 link, 3 energy, 4 power, in management units. -/
def State.account (s : State) (t k : Nat) : Nat :=
  let x := s.tenant t
  match k with
  | 0 => x.time | 1 => x.hbm | 2 => x.link | 3 => x.energy | _ => x.power
def tenantUnit (k : Nat) : Nat := match k with | 0 => 1000 | 1 | 2 => 4096 | 3 => 10000 | _ => 1000

/-- The tenant pages of INNKEEPER (R250, R253). -/
def State.viewTenant (s : State) (t o : Nat) : Word :=
  if 0x100 ≤ o ∧ o < 0x128 then
    let k := (o - 0x100) / 8
    let v := s.account t k / tenantUnit k
    w32 (if k = 4 then v % 65536 * b2n (o % 8 == 0) else v / (if o % 8 = 0 then 1 else 2 ^ 32))
  else if 0x140 ≤ o ∧ o < 0x168 then w32 (s.account t ((o - 0x140) / 8) / (if o % 8 = 0 then 1 else 2 ^ 32))
  else if o = 0x1B0 then w32 (s.tenant t).step
  else if o = 0x1B4 then w32 ((s.tenant t).step / 2 ^ 32)
  else s.rd (rga (tnPage t) o)

/-- FALEG (R206, R207). -/
def State.viewFaleg (s : State) (p o : Nat) : Word :=
  if p = 0 ∧ o = 0x200 then setFld (s.rd (fdReg 0x200)) 5 0 s.me
  else if p = 0 ∧ o = 0x214 then setFld (s.rd (fdReg 0x214)) 1 0 s.fcState
  else if p = 0 ∧ o = 0x218 then w32 s.now
  else if p = 0 ∧ o = 0x21C then w32 (s.now / 2 ^ 32)
  else s.rd (flReg p o)

/-- WAYBILL (R263, R285): the armed state is that of sub-point 0. -/
def State.viewWaybill (s : State) (sub o : Nat) : Word :=
  if sub = 0 ∧ o = 0x5C then w32 (s.wbEntry (s.rf (rga 0x401 0x40) 9 0)).fires
  else if sub = 1 ∧ 0x40 ≤ o ∧ o < 0xC0 then
    w32 ((List.range 32).foldl (fun m j => m + (s.wbEntry (32 * ((o - 0x40) / 4) + j)).fwd % 2 * 2 ^ j) 0)
  else s.rd (rga (0x401 + sub) o)

/-- The smoothed means of a pipeline (R337, R355): the Ledger defaults until ENABLE. -/
def State.viewMeans (s : State) (c o : Nat) : Word :=
  match (s.th c).smean with
  | some (r, g, b) => if o = 0xF4 then w32 (r % 65536 * 65536 + g % 65536) else w32 (b % 65536)
  | none => s.rd (thReg c (if o = 0xF4 then 0xE8 else 0xEC))

/-- A persistent register (R432): its persistent bits show the last queued write. -/
def State.viewRwp (s : State) (a : Nat) (v : Word) : Word :=
  match rwpWord a, regRow a with
  | some w, some r => (v &&& ~~~ w32 r.rwp) ||| (s.ledRead w &&& w32 r.rwp)
  | _, _ => v

/-- What the register at an address of a page's body holds, as its unit sees it. -/
def State.viewBody (s : State) (i : PageId) (page o : Nat) : Word :=
  let a := rga page o
  match i.block with
  | .top => s.viewTop o
  | .ledger => if i.sub = 0 then s.viewLedger o else s.rd a
  | .power => if o = 0x50 then w32 (s.fuses.vsafe % 4096 * 65536 + s.fuses.fmax % 4096) else s.rd a
  | .warden => if o = 0x44 then setFld (s.rd a) 11 0 (((List.range 12).filter s.wardenReq).map (fun g => 2 ^ g)).sum else s.rd a
  | .security => s.viewSecurity o
  | .innkeeper => if 1 ≤ i.sub ∧ i.sub ≤ 8 then s.viewTenant (i.sub - 1) o else s.rd a
  | .tally => s.viewTally i.sub o
  | .sheaf => s.viewSheaf i.inst i.sub o
  | .porter => if o = 0x44 then w32 (b2n (s.porter i.inst).run.isSome) else s.rd a
  | .hostel => if o = 0x44 then w32 (s.engine i.inst).tlb.length else s.rd a
  | .faleg => s.viewFaleg i.inst o
  | .waybill => s.viewWaybill i.sub o
  | .thresher => if o = 0xF4 ∨ o = 0xF8 then s.viewMeans i.inst o else s.rd a
  | .augment => if o = 0x110 then w32 s.probe else if o = 0x114 then w32 (s.probe / 2 ^ 32) else s.rd a
  | _ => s.rd a

/-- What a register of BAR0 shows. Reserved addresses read zero (R12, R448). -/
def State.view (s : State) (a : Nat) : Word :=
  match pageId (a / 4096) with
  | none => 0
  | some i => s.viewRwp a (if a % 4096 < 0x40 then s.viewHeader (a / 4096) i (a % 4096) else s.viewBody i (a / 4096) (a % 4096))

/-! ### Who sees what -/

/-- Registers and fields of the management path only (R13). -/
def moMask (a : Nat) : Word :=
  match pageId (a / 4096), regRow a with
  | some i, some r =>
    w32 r.mo ||| (if a % 4096 = oInj then 0xFFFFFFFF else 0)
      ||| (if i.block = .innkeeper ∧ 1 ≤ i.sub ∧ 0x140 ≤ a % 4096 ∧ a % 4096 < 0x168 then 0xFFFFFFFF else 0)
  | some i, none => if i.block = .innkeeper ∧ 1 ≤ i.sub ∧ i.sub ≤ 8 ∧ 0x140 ≤ a % 4096 ∧ a % 4096 < 0x168 then 0xFFFFFFFF else 0
  | _, _ => 0

/-- What virtual function n may read (R446). -/
def vfMayRead (n : Nat) (i : PageId) (off : Nat) : Bool :=
  match i.block with
  | .top => off == 0x40 || off == 0x44 || off == 0x48 || off == 0x4C
  | .innkeeper => i.sub == n + 1
  | .tally | .hostel => !(decide (0x10 ≤ off) && decide (off ≤ 0x24))
  | .sheaf => decide (i.sub ≤ 7) && !(decide (0x10 ≤ off) && decide (off ≤ 0x24))
  | _ => false

/-- Whether a read of function f at an address sees anything but zero. -/
def State.sees (s : State) (f : Func) (a : Nat) : Bool :=
  match pageId (a / 4096) with
  | none => false
  | some i => s.reaches f i && (match f with | .vf n => vfMayRead n.val i (a % 4096) | _ => true)

/-- A value as function f may see it at an address: other readers than the management path see no field that is MO (R13). -/
def State.filtered (s : State) (f : Func) (a : Nat) (w : Word) : Word :=
  if !s.sees f a then 0 else if isMgmt f then w else w &&& ~~~ moMask a

/-- What a function reads at an address, without the effects of a read. -/
def State.shown (s : State) (f : Func) (a : Nat) : Word := s.filtered f a (s.view a)

/-! ### Reads with their effects -/

/-- The low words of the 64-bit pairs of a page (R11). -/
def pairLow (i : PageId) (o : Nat) : Bool :=
  let at_ (b stride n : Nat) : Bool := decide (b ≤ o) && decide ((o - b) % stride = 0) && decide ((o - b) / stride < n)
  match i.block with
  | .security => o == 0x48 || o == 0x120
  | .innkeeper => decide (1 ≤ i.sub ∧ i.sub ≤ 8) && (at_ 0x100 8 5 || at_ 0x140 8 5 || at_ 0x188 8 3 || o == 0x1B0 || at_ 0x80 0x20 4)
  | .tally => i.sub == 3 && at_ 0x40 8 256
  | .sheaf => (i.sub == 2 && at_ 0x40 8 8) || (i.sub == 7 && at_ 0x40 8 64)
  | .porter => o == 0x48 || o == 0x50 || o == 0x58
  | .hbmc => o == 0x48
  | .hostel => o == 0x50
  | .faleg => i.inst == 0 && (o == 0x218 || o == 0x488 || at_ 0x300 16 16)
  | .eth => at_ 0x84 16 16
  | .can => o == 0x88 || o == 0x90
  | .milepost => o == 0x10C || o == 0x134 || o == 0x118
  | .drover => o == 0x84 || o == 0xA4
  | .axis => o == 0x4C
  | .encoder => o == 0x50
  | .thresher => o == 0x44 || o == 0x50 || at_ 0xA0 8 3
  | .caravan => at_ 0x44 0x40 10 || at_ 0x50 0x40 10
  | .glean => o == 0x40 || o == 0x4C || o == 0x58
  | .augment => at_ 0x44 16 8 || o == 0x100 || o == 0x110
  | _ => false

/-- A read of a register under R11: a low word latches its high word as the unit holds it, a high word returns the latched value once, each
reader seeing of it what R13 and R446 let it see. -/
def State.readPair (s : State) (f : Func) (a : Nat) (i : PageId) : State :=
  let none_ : Nat → Option Word := fun _ => none
  let o := a % 4096
  if pairLow i o then { s with rdata := s.shown f a, latch := mapSet none_ s.latch (a + 4) (some (s.view (a + 4))) }
  else if 4 ≤ o && pairLow i (o - 4) then
    match mapGet none_ s.latch a with
    | some w => { s with rdata := s.filtered f a w, latch := mapSet none_ s.latch a none }
    | none => { s with rdata := s.shown f a }
  else { s with rdata := s.shown f a }

/-- A host or management read of a register of this module, with its effects: TS_NS, TXTS_INFO, the CAN receive head, 64-bit pairs. -/
def State.localRead (s : State) (f : Func) (a : Nat) : State :=
  match pageId (a / 4096) with
  | none => { s with rdata := 0 }
  | some i =>
    let o := a % 4096
    if !s.sees f a then { s with rdata := 0 }
    else if i.block = .milepost ∧ o = 0x100 then s.readTsNs
    else if i.block = .milepost ∧ 0x150 ≤ o ∧ o < 0x1C0 ∧ o % 0x20 = 0x10 then s.readTxts ((o - 0x140) / 0x20)
    else if i.block = .can ∧ 0x300 ≤ o ∧ o < 0x350 then
      let (v, s) := s.canHead i.inst o
      let s := if o = 0x300 then s.lockHead i.inst else s
      { s with rdata := v }
    else s.readPair f a i

/-- PROBE_READ (R11, R352): PR_OUT_LO, or PR_OUT_HI. -/
def execProbeRead (f : Func) (high : Bool) (s : State) : Host.Outcome State Fault Refusal :=
  .next (s.localRead f (rga 0x530 (if high then 0x114 else 0x110)))

/-- RXH_ID_READ (R374, R375). -/
def execRxhIdRead (f : Func) (n : Fin 8) (s : State) : Host.Outcome State Fault Refusal :=
  .next (s.localRead f (cfReg n.val 0x300))

end Sys2Proof.Machine
end

