-- ==== Sys2Proof/Machine/HostWrite.lean ====
section
/-!
DEFINITION. Writes of registers: the dispatch of an address to the rule of its register (R10, R12, R13), FC_CTL MASTER (R192),
and the management override (R416).
-/
namespace Sys2Proof.Machine

/-- A register without a rule of its own: a persistent one goes to the Ledger, the others store (R13). -/
def State.wrPlain (s : State) (f : Func) (a : Nat) (v : Word) : State :=
  if (rwpWord a).isSome then s.wrRwp a v else s.store f a v 0

/-- A write of FC_CTL (R192): a master farther than 32 hops from some module is discarded with MASTER_ERR. -/
def State.wrMaster (s : State) (v : Word) : State :=
  if s.masterOk (fld v 5 0) then s.wrRwp (fdReg 0x210) v else s.wb (fdReg 0x214) 2 true

/-! ### Dispatch -/

/-- Offsets below 0x40: the common header. A bus clear that a plain write starts finds SDA high. -/
def State.wrHeader (s : State) (f : Func) (page o : Nat) (v : Word) : State :=
  match o with
  | 0x08 => s.wrBlkCtl f page v [true]
  | 0x14 => s.wrIrqEn page v
  | 0x18 => s.wrIrqPend page v 0
  | 0x1C => s.wrIrqForce f page v
  | 0x28 => s.wrErrinj f page v
  | 0x2C => s.wrLock f page v
  | _ => s

/-- The blocks of the management domain (R412, R413, R441 to R444, R459). -/
def State.wrManagement (s : State) (f : Func) (i : PageId) (a o : Nat) (v : Word) : State :=
  match i.block with
  | .top => if 0x400 ≤ o ∧ o < 0x800 then s.wrRoute f ((o - 0x400) / 4) v else s.store f a v 0
  | .ostler => if o = 0x54 then s.wrDoorbell v else s.store f a v 0
  | .power => if o = 0x40 then s.wrFmin v else if o = 0x44 then s.wrFmax v else if o = 0x48 then s.wrCap v else s.wrPlain f a v
  | .sensors => if o = 0x140 ∨ o = 0x144 then s.wrTh o v else s.store f a v 0
  | .warden =>
    if o = 0x40 then s.wrWdCtl v
    else if 0x50 ≤ o ∧ o < 0x60 then s.wrWdSrc f a v
    else if 0x100 ≤ o ∧ o < 0x500 then
      let k := (o - 0x100) / 16
      match o % 16 with
      | 0 => s.wrSlotCfg f k 0 v
      | 4 => s.wrSlotCfg f k 4 v
      | 12 => s.wrSlotCtl k v
      | _ => s
    else s.store f a v 0
  | .security =>
    if o = 0x128 then s.wrAttCtl v
    else if 0x400 ≤ o ∧ o < 0xC00 then (if o % 16 < 12 then s.wrRegion f ((o - 0x400) / 16) (o % 16 / 4) v else s)
    else s.store f a v 0
  | _ => s.wrPlain f a v

/-- INNKEEPER and TALLY (R231, R252, R253); bit 0 of a DEFAULT_MASK is always 1. -/
def State.wrInnkeeper (s : State) (f : Func) (i : PageId) (a o : Nat) (v : Word) : State :=
  match i.block with
  | .innkeeper =>
    if i.sub = 0 then s.store f a (if 0x40 ≤ o ∧ o < 0x58 then v ||| 0x100 else v) 0
    else
      let t := i.sub - 1
      if o = 0x40 then s.wrTnCtl f t v
      else if o = 0x4C then s.wrTnRes f t v
      else if o = 0x1A8 then s.wrManCtl t v
      else if 0x80 ≤ o ∧ o < 0x100 ∧ o % 0x20 = 8 then s.wrQCfg (4 * t + (o - 0x80) / 0x20) v
      else if 0x80 ≤ o ∧ o < 0x100 ∧ o % 0x20 = 0xC then s.wrQTail (4 * t + (o - 0x80) / 0x20) v
      else s.store f a v 0
  | _ =>
    if i.sub = 1 ∧ o < 0x440 then s.tallyCfg f (.central (Fin.ofNat 256 ((o - 0x40) / 4))) false v false
    else if i.sub = 1 ∧ o < 0x840 then s.tallyCfg f (.central (Fin.ofNat 256 ((o - 0x440) / 4))) true v false
    else s.store f a v 0

/-- SHn, HOSTEL and FALEG (R107 to R111, R167, R206, R207, R232). -/
def State.wrEngine (s : State) (f : Func) (i : PageId) (a o : Nat) (v : Word) : State :=
  match i.block with
  | .sheaf =>
    let tree (k : Nat) : BarId := .tree (Fin.ofNat 6 i.inst) (Fin.ofNat 64 k)
    match i.sub with
    | 0 => if o = 0x40 then s.wrEngCfg f i.inst v else s.store f a v 0
    | 1 =>
      if o < 0x60 then s.wrPart f i.inst ((o - 0x40) / 4) v
      else if 0x80 ≤ o ∧ o < 0x100 then s.wrRes f i.inst ((o - 0x80) / 16) (o % 16 / 4) v
      else s.store f a v 0
    | 3 => if o = 0x1C4 then s.wrEccCtl i.inst v else s.store f a v 0
    | 4 => if o < 0x240 then s.wrRepair i.inst ((o - 0x40) / 4) v else s.store f a v 0
    | 5 =>
      if o < 0x140 then s.tallyCfg f (tree ((o - 0x40) / 4)) false v false
      else if o < 0x240 then s.tallyCfg f (tree ((o - 0x140) / 4)) true v false
      else s
    | _ => s.store f a v 0
  | .hostel => if o = 0x40 then s.wrHstCtl f i.inst v else s.store f a v 0
  | _ =>
    if o = 0x40 then s.wrFlCfg i.inst v
    else if i.inst = 0 ∧ o = 0x210 then s.wrMaster v
    else if i.inst = 0 ∧ o = 0x490 then s.wrAbtCtl f v
    else if i.inst = 0 ∧ 0x300 ≤ o ∧ o < 0x400 ∧ (o % 16 = 0 ∨ o % 16 = 4) then s.wrLbMask f a v
    else if i.inst = 0 ∧ 0x300 ≤ o ∧ o < 0x400 ∧ o % 16 = 8 then s.wrLbCfg f ((o - 0x300) / 16) v
    else s.wrPlain f a v

/-- ETHn, CFn and ICn (R367, R380, R386). -/
def State.wrPort (s : State) (f : Func) (i : PageId) (a o : Nat) (v : Word) : State :=
  match i.block with
  | .eth =>
    if o = 0x40 then s.wrEthCfg f i.inst v
    else if 0x80 ≤ o ∧ o < 0x180 ∧ o % 16 = 0 then s.wrEthQ f i.inst (decide (o < 0x100)) ((o - 0x80) / 16 % 8) v
    else s.wrPlain f a v
  | .can =>
    if o = 0x40 then s.wrCfMode f i.inst v
    else if o = 0x44 ∨ o = 0x48 then s.wrCfTiming f i.inst o v
    else if o = 0x50 then s.wrCfCtl i.inst v none
    else if 0x100 ≤ o ∧ o < 0x2D0 then s.wrTxb f i.inst o v
    else s.store f a v 0
  | _ =>
    if o = 0x40 then s.wrIcCfg f i.inst v
    else if o = 0x48 then s.wrIcCtl f i.inst v (if tbit v 1 then [true] else [])
    else s.store f a v 0

/-- MILEPOST, WAYBILL, DROVER, AXIS, ENCODER and AXIS-LINK (R284, R285, R328 to R331). -/
def State.wrControl (s : State) (f : Func) (i : PageId) (a o : Nat) (v : Word) : State :=
  match i.block with
  | .milepost =>
    let g := (o - 0x40) / 0x20
    if o = 0x110 then s.wrAddendHi f v
    else if o = 0x124 then s.wrTsCtl f v
    else if o < 0xC0 then
      match o % 0x20 with
      | 0 => s.wrPgCfg f g v
      | 4 => s.wrPgParam f g v
      | 8 => s.wrPgFrac f g v
      | 12 => s.wrPgOffset f g v
      | 16 => s.wrPgAdj g v
      | _ => s.store f a v 0
    else s.store f a v 0
  | .waybill =>
    if i.sub = 0 ∧ o = 0x40 then s.wrWbSel f v
    else if i.sub = 0 ∧ o = 0x58 then s.wrWbCmd v
    else s.store f a v 0
  | .drover => if o = 0x40 then s.wrDvCfg f i.inst v else if o = 0x44 then s.wrDvPto f i.inst v
    else if o = 0xA0 then s.wrTmCfg f i.inst v else s.store f a v 0
  | .axis => if o = 0x40 then s.wrAxCtl i.inst v else s.wrPlain f a v
  | .encoder => if o = 0x40 then s.wrEncCfg f i.inst v else s.wrPlain f a v
  | _ => if o = 0x40 then s.wrAlCfg f i.inst v else if o = 0x44 then s.wrAlCtl i.inst v else s.store f a v 0

/-- A register of a source block, by its offset in the block (R354, R356). -/
def State.wrSource (s : State) (f : Func) (src r : Nat) (v : Word) : State :=
  if r = 0 then s.wrSrcCfg f src v else s.wrSrcOther f src r v

/-- THRESHER, CARAVAN and GLEAN (R354 to R358). -/
def State.wrPerception (s : State) (f : Func) (i : PageId) (a o : Nat) (v : Word) : State :=
  match i.block with
  | .thresher =>
    if o < 0x60 then s.wrSource f i.inst (o - 0x40) v
    else if o = 0x64 then s.wrThSize f i.inst v
    else if o = 0x68 then s.wrThOut f i.inst v
    else if o = 0xE0 then s.wrThSet i.inst v
    else if 0x110 ≤ o ∧ o < 0x120 then s.wrAug f i.inst (o - 0x110) v
    else s.wrPlain f a v
  | .caravan =>
    let src := 16 + 10 * i.sub + (o - 0x40) / 0x40
    let r := o % 0x40
    if 0x2C0 ≤ o then s
    else if r < 0x20 then s.wrSource f src r v
    else if 0x30 ≤ r then s.wrAug f src (r - 0x30) v
    else s.store f a v 0
  | .glean => if o = 0x68 then s.wrGlCtl f v else s.store f a v 0
  | _ => s.store f a v 0

/-- A register of a page's body. -/
def State.wrBody (s : State) (f : Func) (i : PageId) (a o : Nat) (v : Word) : State :=
  match i.block with
  | .top | .ostler | .ledger | .power | .sensors | .warden | .security => s.wrManagement f i a o v
  | .innkeeper | .tally => s.wrInnkeeper f i a o v
  | .sheaf | .hostel | .faleg => s.wrEngine f i a o v
  | .porter | .hbmc | .augment => s.store f a v 0
  | .eth | .can | .i2c => s.wrPort f i a o v
  | .milepost | .waybill | .drover | .axis | .encoder | .axisLink => s.wrControl f i a o v
  | .thresher | .caravan | .glean => s.wrPerception f i a o v

/-- A write of a register of this module by function f (R10 to R14, R446, R460). -/
def State.localWrite (s : State) (f : Func) (a : Nat) (v : Word) : State :=
  s.guarded f a (fun s =>
    match pageId (a / 4096) with
    | none => s
    | some i => if a % 4096 < 0x40 then s.wrHeader f (a / 4096) (a % 4096) v else s.wrBody f i a (a % 4096) v)

/-- Bits that hardware sets in a register in the cycle of a write: the set wins over a clear (R13). -/
def State.hwSet (s : State) (a : Nat) (m : Word) : State :=
  match regRow a with
  | some r => if m &&& w32 r.w1c = 0 then s else s.wr a (s.rd a ||| (m &&& w32 r.w1c))
  | none => s

/-! ### The rows -/

/-- MASTER_WRITE (R192). -/
def execMasterWrite (f : Func) (v : Word) (s : State) : Host.Outcome State Fault Refusal :=
  .next (s.guarded f (fdReg 0x210) (fun s => s.wrMaster v))

/-- Whether the management override takes an offset: aligned and of this module (R10, R416). -/
def mgmtOffset (a : Nat) : Bool := decide (a % 4 = 0) && decide (a < 0x01000000)

/-- Log a use of the management override (R416). -/
def State.logMgmt (s : State) (a : Nat) (v : Word) : State := s.logNamed 1 evMgmt 4 (Config.mgmtInfo a v.toNat) 255

/-- MGMT_READ (R415, R416): any register with management rights. The value a host read returned last stands. -/
def execMgmtRead (s : State) : Host.Outcome State Fault Refusal :=
  s.mailbox 10 (fun s =>
    let a := s.omArg 0
    if !mgmtOffset a then s.omDone 2 else
    let r := s.rdata
    let s := s.localRead .mgmt a
    let v := s.rdata
    ((({ s with rdata := r } : State).logMgmt a v).omResp 0 v).omDone 0)

/-- MGMT_WRITE (R415, R416, R471): any register with management rights. An ERRINJ write is logged where it is carried out; a module reset
leaves no command to end. -/
def execMgmtWrite (s : State) : Host.Outcome State Fault Refusal :=
  s.mailbox 11 (fun s =>
    let a := s.omArg 0
    let v := w32 (s.omArg 1)
    if !mgmtOffset a then s.omDone 2 else
    let s := if a % 4096 = oInj then s else s.logMgmt a v
    let s := s.localWrite .mgmt a v
    if s.ost.cmd = some 11 then s.omDone 0 else s)

end Sys2Proof.Machine
end

