-- ==== Sys2Proof/Machine/Proxy.lean ====
section
/-!
DEFINITION. Host accesses at any address of BAR0 (R10, R11) and the proxy window (R198 to R200, R464).
-/
namespace Sys2Proof.Machine

/-- The window (R198, R447). -/
def inWindow (a : Nat) : Bool := decide (0x01000000 ≤ a) && decide (a < 0x04000000)

/-- Field and remote BAR0 address of a window address (R198). -/
def proxyField (a : Nat) : Nat := (a - 0x01000000) / 2 ^ 16 / 12
def State.proxyRemote (s : State) (a : Nat) : Nat :=
  s.rf (fdReg (0x410 + 4 * ((a - 0x01000000) / 2 ^ 16 % 12))) 9 0 * 2 ^ 16 + a % 2 ^ 16

/-- A read or a write of this module's registers. -/
def State.localAccess (s : State) (f : Func) (a : Nat) (w : Option Word) : State :=
  match w with
  | none => s.localRead f a
  | some v => s.localWrite f a v

/-- An access that comes to nothing: a read returns a value, a write is discarded. -/
def State.noAccess (s : State) (w : Option Word) (v : Word) : State := if w.isNone then { s with rdata := v } else s

/-- An access in the proxy window (R198 to R200, R460, R464): by the physical function alone. The module's own slot reaches its registers;
a field beyond the Field is unreachable; the others wait for their turn in issue order. -/
def State.proxyAccess (s : State) (f : Func) (a : Nat) (w : Option Word) : State :=
  if f ≠ .pf ∨ a % 4 ≠ 0 ∨ !inWindow a ∨ !s.linkUp ∨ !s.ready then s.noAccess w 0
  else
    let d := proxyField a
    let r := s.proxyRemote a
    if d = s.me then s.localAccess .pf r w
    else if s.fieldSize ≤ d then (s.pxErr 2 d a).noAccess w 0xFFFFFFFF
    else
      let x : Proxy := ⟨s.field.nextTag % 65536, d, r, a, w, false, 0⟩
      ({ s with field := { s.field with nextTag := s.field.nextTag + 1, proxies := s.field.proxies ++ [x] } } : State).sendProxies

def execProxyAccess (f : Func) (addr : Nat) (w : Option Word) (s : State) : Host.Outcome State Fault Refusal :=
  .next (s.proxyAccess f addr w)

/-! ### At the remote module -/

/-- PROXY_READ (R199, R464): carried out here as an access of a physical function. What this module's own host read last stands. -/
def execProxyRead (p : Fin 8) (vc : Fin 4) (s : State) : Host.Outcome State Fault Refusal :=
  match s.rxFor p.val vc.val .proxyRead with
  | none => .next s
  | some k =>
    let s := s.rxPop p.val vc.val
    let r := s.rdata
    let s := if k.addr % 4 = 0 then s.localRead .px k.addr else { s with rdata := 0 }
    let v := s.rdata
    .next (({ s with rdata := r } : State).answer k .proxyReadData k.addr (natLe 4 v.toNat))

/-- PROXY_WRITE (R199, R464). -/
def execProxyWrite (p : Fin 8) (vc : Fin 4) (s : State) : Host.Outcome State Fault Refusal :=
  match s.rxFor p.val vc.val .proxyWrite with
  | none => .next s
  | some k =>
    let s := s.rxPop p.val vc.val
    let s := if k.addr % 4 = 0 then s.localWrite .px k.addr (w32 (leNat k.data)) else s
    .next (s.answer k .proxyWriteAck k.addr [])

/-! ### Back at the module that asked -/

/-- The outstanding access that a response answers. -/
def State.proxyFor (s : State) (k : Packet) : Option Proxy := s.field.proxies.find? (fun x => x.tag == k.tag && x.sent && x.dest == k.src)

/-- PROXY_READ_DATA (R199, R200): the value returns to the host, and the next access to that module may leave. A response to nothing is
dropped. -/
def execProxyReadData (p : Fin 8) (vc : Fin 4) (s : State) : Host.Outcome State Fault Refusal :=
  match s.rxFor p.val vc.val .proxyReadData with
  | none => .next s
  | some k =>
    let s := s.rxPop p.val vc.val
    match s.proxyFor k with
    | none => .next s
    | some x => .next (({ s with rdata := w32 (leNat k.data) } : State).endProxy x)

/-- PROXY_WRITE_ACKNOWLEDGEMENT (R199). -/
def execProxyWriteAcknowledgement (p : Fin 8) (vc : Fin 4) (s : State) : Host.Outcome State Fault Refusal :=
  match s.rxFor p.val vc.val .proxyWriteAck with
  | none => .next s
  | some k =>
    let s := s.rxPop p.val vc.val
    match s.proxyFor k with
    | none => .next s
    | some x => .next (s.endProxy x)

/-- PROXY_TIMEOUT (R200): the oldest access to module m gets no response in time. -/
def execProxyTimeout (m : Fin 64) (s : State) : Host.Outcome State Fault Refusal :=
  match s.field.proxies.find? (fun x => x.dest == m.val) with
  | none => .next s
  | some x => .next (s.failProxy x 1)

/-! ### Plain host accesses -/

/-- REGISTER_WRITE (R10, R12, R13): `hwSet` are the bits that hardware sets in the register in the same cycle. -/
def execRegisterWrite (f : Func) (addr width : Nat) (v hwSet : Word) (s : State) : Host.Outcome State Fault Refusal :=
  if width ≠ 4 ∨ addr % 4 ≠ 0 then .next (s.hwSet addr hwSet)
  else if inWindow addr then .next (s.proxyAccess f addr (some v))
  else .next ((s.localWrite f addr v).hwSet addr hwSet)

/-- LOW_WORD_READ (R10, R11): a read of any register; that of a low word latches the high word. -/
def execLowWordRead (f : Func) (addr width : Nat) (s : State) : Host.Outcome State Fault Refusal :=
  if width ≠ 4 ∨ addr % 4 ≠ 0 then .next { s with rdata := 0 }
  else if inWindow addr then .next (s.proxyAccess f addr none)
  else .next (s.localRead f addr)

end Sys2Proof.Machine
end

