-- ==== Sys2Proof/Machine/Rnn.lean ====
section
/-!
DEFINITION. RNN_STEP (R132 to R137).
-/
namespace Sys2Proof.Machine

def rnB (c : Cmd) : Nat := c.f 14 31 24 + 1
def rnHb (c : Cmd) : Nat := c.f 14 23 16
def rnInb (c : Cmd) : Nat := c.f 14 15 8
def rnCell (c : Cmd) : Nat := c.f 14 7 6
def rnK (c : Cmd) : Nat := c.f 14 5 0 + 1
def rnXbf (c : Cmd) : Bool := tbit (c.w 15) 31
def rnH (c : Cmd) : Nat := 64 * rnHb c
def rnIn (c : Cmd) : Nat := 64 * rnInb c

/-- GATES, and the number of bias vectors (R132). -/
def rnGates (c : Cmd) : Nat := match rnCell c with | 0 => 1 | 1 => 3 | _ => 4
def rnBias (c : Cmd) : Nat := match rnCell c with | 0 => 1 | _ => 4

/-- Bytes of a state record of n blocks per row (R133). -/
def recBytes (b n : Nat) : Nat := 2 * b * (64 * n) + 2 * b * n

/-- The checks of RNN_STEP (R113, R115, R132). -/
def rnnPlan (c : Cmd) (_ : List Word) : Plan :=
  let b := rnB c
  let cols := rnGates c * rnH c
  let lstm := rnCell c == 2
  let hin := rng c 5 (recBytes b (rnHb c))
  let hout := rng c 6 (recBytes b (rnHb c))
  let cs := rng c 7 (4 * b * rnH c)
  { shape := [addrOk c 5 (if rnXbf c then 2 else fmtAlign c.aFmt), addrOk c 6 1, addrOk c 7 1] ++
      (if rnXbf c then [] else [addrOk c 8 4]) ++ [addrOk c 9 4, addrOk c 10 2, addrOk c 11 2] ++ (if lstm then [addrOk c 12 4] else []) ++
      [addrOk c 13 1, (14, rnHb c != 0 && rnInb c != 0 && rnCell c != 3), (15, c.f 15 30 26 == 0 && c.f 15 1 0 == 0)],
    terms := (if rnXbf c then 2 * rnInb c else rnInb c) + 2 * rnHb c,
    reads := [rng c 0 (if rnXbf c then recBytes b (rnInb c) else fmtBytes c.aFmt (b * rnIn c)),
        rng c 1 (fmtBytes c.wFmt (rnIn c * cols)), rng c 2 (fmtBytes c.wFmt (rnH c * cols))] ++
      (if rnXbf c then [] else [rng c 3 (4 * b * rnInb c)]) ++ [rng c 4 (4 * cols * (rnInb c + rnHb c)), hin] ++
      (if lstm then [cs] else []) ++ [rng c 8 32, ⟨10, c.f 15 25 0, c.f 15 25 0 + 4 * rnBias c * rnH c⟩],
    writes := [hout] ++ (if lstm then [cs] else []), free := [(cs, cs)], apart := [hin, hout] }

/-! ### State records (R133) -/

/-- Mantissa j of row r, exponent and counter of block (r, b) of a record at address a with n blocks per row. -/
def State.rnMant (s : State) (e a n r j : Nat) : Int := toS 16 (leNat (s.spRead e (a + 2 * (r * (64 * n) + j)) 2))
def State.rnExp (s : State) (e a bt n r b : Nat) : Int := toS 8 (s.spByte e (a + 2 * bt * (64 * n) + r * n + b)).toNat
def State.rnCnt (s : State) (e a bt n r b : Nat) : Nat := (s.spByte e (a + 2 * bt * (64 * n) + bt * n + r * n + b)).toNat

/-- Whether row r is reset (R137). -/
def State.rnReset (s : State) (e : Nat) (c : Cmd) (r : Nat) : Bool :=
  (s.spByte e ((c.w 13).toNat + r / 8)).toNat >>> (r % 8) % 2 == 1

/-- The blocks of a record with an exponent or a counter out of range (R133), as faults. Rows in `skip` are not looked at. -/
def State.rnInvalid (s : State) (e : Nat) (c : Cmd) (a n : Nat) (skip : Nat → Bool) : List (Nat × Option Nat) :=
  (List.range (rnB c)).flatMap (fun r => if skip r then [] else (List.range n).filterMap (fun b =>
    let x := s.rnExp e a (rnB c) n r b
    if x < -126 ∨ 119 < x ∨ 62 < s.rnCnt e a (rnB c) n r b then some (0x0404, some (r * 2 ^ 24 + b * 2 ^ 16 + c.seqLow)) else none))

/-- The two exact passes of a block-float block (R134) against weights at `w`, reduction length 64 × n, column `col`. -/
def State.rnBlock (s : State) (e : Nat) (c : Cmd) (a n r b w : Nat) (ew : Word) (col : Nat) : List Term :=
  let ex := s.rnExp e a (rnB c) n r b
  let base := (col / 32 * n + b) * 64 * 32 + col % 32
  let (mw, xw) := entScale ew
  let pair (sel : Int → Int) : Int := ((List.range 64).map (fun j =>
    sel (s.rnMant e a n r (64 * b + j)) * (intOf c.wFmt (s.code e c.wFmt w (base + 32 * j)) - zpOf c.wFmt ew))).sum
  let hi := pair (fun m => m / 256)
  let lo := pair (fun m => m % 256)
  [.val (decide (hi < 0)) (hi.natAbs * mw) (ex + 8 + xw), .val (decide (lo < 0)) (lo.natAbs * mw) (ex + xw)]

/-- The terms from x of row r and column col (R134), added to a Granary. -/
def State.rnZx (s : State) (e : Nat) (c : Cmd) (r col : Nat) (start : Gran) : Gran :=
  let n := rnInb c
  (List.range n).foldl (fun g b =>
    let ew := s.spWord e ((c.w 9).toNat + 4 * (col * n + b))
    if rnXbf c then g.addAll c.anchor (s.rnBlock e c (c.w 5).toNat n r b (c.w 6).toNat ew col)
    else
      let ea := s.spWord e ((c.w 8).toNat + 4 * (r * n + b))
      let base := (col / 32 * n + b) * 64 * 32 + col % 32
      g.addAll c.anchor (groupTerms .int ((List.range 64).map (fun j =>
        (operand c.aFmt ea (s.code e c.aFmt (c.w 5).toNat (r * rnIn c + 64 * b + j)),
         operand c.wFmt ew (s.code e c.wFmt (c.w 6).toNat (base + 32 * j))))) ea ew)) start

/-- The terms from the state of step t − 1; a reset row has a state of zero (R137). -/
def State.rnZh (s : State) (e : Nat) (c : Cmd) (r col : Nat) (start : Gran) : Gran :=
  let n := rnHb c
  let off := rnGates c * rnH c * rnInb c
  (List.range n).foldl (fun g b =>
    let ew := s.spWord e ((c.w 9).toNat + 4 * (off + col * n + b))
    if s.rnReset e c r then g.addAll c.anchor [.val false 0 0, .val false 0 0]
    else g.addAll c.anchor (s.rnBlock e c (c.w 10).toNat n r b (c.w 7).toNat ew col)) start

/-- The pre-activations of an element, as Granaries (R134, R135): that of each gate sums the terms from x and from h and is rounded
once; the gate n of GRU, which multiplies its two parts apart, has one of x and one of h (DEDUCED, log 24). -/
def State.rnPre (s : State) (e : Nat) (c : Cmd) (r j : Nat) : List Gran :=
  let col (q : Nat) : Nat := q * rnH c + j
  let both (q : Nat) : Gran := s.rnZh e c r (col q) (s.rnZx e c r (col q) {})
  if rnCell c = 1 then [both 0, both 1, s.rnZx e c r (col 2) {}, s.rnZh e c r (col 2) {}]
  else (List.range (rnGates c)).map both

/-- The cell (R135): h and the LSTM's c of row r, element j, from the FP32 pre-activations, their biases, h and c of step t − 1. -/
def rnCellFn (cell : Nat) (z b : Nat → Word) (hp cp : Word) : Word × Word :=
  let zb (i : Nat) : Word := fadd (z i) (b i)
  if cell = 0 then (ftanh (zb 0), 0)
  else if cell = 1 then
    let n := ftanh (fadd (zb 2) (fmul (fsigma (zb 0)) (zb 3)))
    (fadd n (fmul (fsigma (zb 1)) (fsub hp n)), 0)
  else
    let cc := fadd (fmul (fsigma (zb 1)) cp) (fmul (fsigma (zb 0)) (ftanh (zb 2)))
    (fmul (fsigma (zb 3)) (ftanh cc), cc)

/-- One element: h, c, ASTAT and faults. -/
structure RnEl where
  h : Word
  cc : Word
  astat : Nat
  faults : List Nat

def State.rnElem (s : State) (e : Nat) (c : Cmd) (r j : Nat) : RnEl :=
  let h := rnH c
  let gs := s.rnPre e c r j
  let rs := s.rnReset e c r
  let hp := if rs then 0 else f32OfI (s.rnMant e (c.w 10).toNat (rnHb c) r j) (s.rnExp e (c.w 10).toNat (rnB c) (rnHb c) r (j / 64))
  let cp := if rs || rnCell c != 2 then 0 else s.spWord e ((c.w 12).toNat + 4 * (r * h + j))
  let o := rnCellFn (rnCell c) (fun i => (gs.getD i {}).f32 c.anchor) (fun i => s.spWord e (c.f 15 25 0 + 4 * (i * h + j))) hp cp
  let st := f32Store 7 0 o.2
  { h := o.1, cc := w32 st.code,
    astat := gs.foldl (fun a g => a ||| g.astat c.anchor) (if rnCell c = 2 then st.astat else 0),
    faults := (if gs.any (·.ovf) then [0x0102] else []) ++ (if isFinite o.1 then [] else [0x0107]) }

/-! ### Renormalisation (R136) -/

/-- ilogb of a positive finite FP32 value. -/
def ilogb (w : Word) : Int :=
  match f32Dec w with
  | .fin _ m e => (bitLen m : Int) - 1 + e
  | _ => 0

/-- A block as written: exponent, counter, mantissas; none where the exponent would exceed +119. -/
def rnNorm (hs : List Word) (reset : Bool) (ex : Int) (cnt k : Nat) : Option (Int × Nat × List Int) :=
  let mx := hs.foldl (fun m x => fmax m (fabs x)) 0
  let need := reset || decide (k ≤ cnt + 1) || !flt mx (f32Round false 8192 ex)
  let ex' := if need ∧ fposi mx then max (-126) (ilogb mx - 12) else ex
  if need ∧ 119 < ex' ∧ fposi mx then none
  else some (ex', if need then 0 else cnt + 1, hs.map (fun x => f32RoundI x (-ex')))

/-- RNN_STEP (R132 to R137). -/
def State.rnnBody (s : State) (e : Nat) (c : Cmd) (_ : List Word) : Result :=
  let b := rnB c
  let n := rnHb c
  let bad := s.rnInvalid e c (c.w 10).toNat n (s.rnReset e c) ++
    (if rnXbf c then s.rnInvalid e c (c.w 5).toNat (rnInb c) (fun _ => false) else [])
  let cols := rnGates c * rnH c
  let scale := (!rnXbf c && (List.range (b * rnInb c)).any (fun i => entBad (s.spWord e ((c.w 8).toNat + 4 * i)))) ||
    (List.range (cols * (rnInb c + n))).any (fun i => entBad (s.spWord e ((c.w 9).toNat + 4 * i)))
  let pre := bad ++ (if scale then [(0x0106, none)] else [])
  if !pre.isEmpty then { out := s, faults := pre } else
  let els := (List.range b).map (fun r => (List.range (rnH c)).map (fun j => s.rnElem e c r j))
  let fs := arith (els.flatten.flatMap (·.faults))
  if !fs.isEmpty then { out := s, faults := fs } else
  let blocks := (List.range b).flatMap (fun r => (List.range n).map (fun k =>
    let hs := (((els.getD r []).drop (64 * k)).take 64).map (·.h)
    (r, k, rnNorm hs (s.rnReset e c r) (s.rnExp e (c.w 10).toNat b n r k) (s.rnCnt e (c.w 10).toNat b n r k) (rnK c))))
  let ovf := blocks.filterMap (fun x => if x.2.2.isNone then some (0x0403, some (x.1 * 2 ^ 24 + x.2.1 * 2 ^ 16 + c.seqLow)) else none)
  if !ovf.isEmpty then { out := s, faults := ovf } else
  let a := (c.w 11).toNat
  let s := blocks.foldl (fun s x => match x.2.2 with
    | none => s
    | some (ex, cnt, ms) =>
      let i := x.1 * n + x.2.1
      ((s.spWrite e (a + 2 * (64 * i)) (ms.flatMap (fun m => natLe 2 (ofS 16 m)))).spWrite e (a + 2 * b * (64 * n) + i)
        [BitVec.ofNat 8 (ofS 8 ex)]).spWrite e (a + 2 * b * (64 * n) + b * n + i) [BitVec.ofNat 8 cnt]) s
  let s := if rnCell c = 2 then s.spWrite e (c.w 12).toNat (els.flatten.flatMap (fun x => natLe 4 x.cc.toNat)) else s
  { out := s, astat := els.flatten.foldl (fun a x => a ||| x.astat) 0 }

/-- RNN_STEP (R132). -/
def execRnnStep (e : Fin 6) (hw : HwFault) (s : State) : Host.Outcome State Fault Refusal :=
  .next (s.command e.val hw (fun c => c.op == 4) rnnPlan (s.rnnBody e.val))

end Sys2Proof.Machine
end

