-- ==== Sys2Proof/Machine/Dispatch.lean ====
section
/-!
DEFINITION. The meaning of every command: one direct call for each constructor of Instr.
-/
namespace Sys2Proof.Machine

/-- The effect of a command on everything but the queue. -/
def exec (i : Instr) (s : State) : Host.Outcome State Fault Refusal :=
  match i with
  | .registerWrite f addr width v hwSet => Sys2Proof.Machine.execRegisterWrite f addr width v hwSet s
  | .lowWordRead f addr width => Sys2Proof.Machine.execLowWordRead f addr width s
  | .matmul e hw => Sys2Proof.Machine.execMatmul e hw s
  | .convDense e hw => Sys2Proof.Machine.execConvDense e hw s
  | .convDiagonal e hw => Sys2Proof.Machine.execConvDiagonal e hw s
  | .convFrequency e hw => Sys2Proof.Machine.execConvFrequency e hw s
  | .attnForwardDense e hw => Sys2Proof.Machine.execAttnForwardDense e hw s
  | .attnForwardRetrieval e hw => Sys2Proof.Machine.execAttnForwardRetrieval e hw s
  | .attnBackward e hw => Sys2Proof.Machine.execAttnBackward e hw s
  | .rnnStep e hw => Sys2Proof.Machine.execRnnStep e hw s
  | .vectorMap e hw => Sys2Proof.Machine.execVectorMap e hw s
  | .sumFp32 e hw => Sys2Proof.Machine.execSumFp32 e hw s
  | .sumGranary e hw => Sys2Proof.Machine.execSumGranary e hw s
  | .vectorMax e hw => Sys2Proof.Machine.execVectorMax e hw s
  | .vectorMin e hw => Sys2Proof.Machine.execVectorMin e hw s
  | .poolMax e hw => Sys2Proof.Machine.execPoolMax e hw s
  | .poolAvg e hw => Sys2Proof.Machine.execPoolAvg e hw s
  | .digest e hw => Sys2Proof.Machine.execDigest e hw s
  | .copy p => Sys2Proof.Machine.execCopy p s
  | .porterDescriptor p hw => Sys2Proof.Machine.execPorterDescriptor p hw s
  | .arrive q => Sys2Proof.Machine.execArrive q s
  | .wait q => Sys2Proof.Machine.execWait q s
  | .waybillWait q => Sys2Proof.Machine.execWaybillWait q s
  | .fence q => Sys2Proof.Machine.execFence q s
  | .fenceCompletion q => Sys2Proof.Machine.execFenceCompletion q s
  | .commandCompletion u => Sys2Proof.Machine.execCommandCompletion u s
  | .recipeCacheFill e hw => Sys2Proof.Machine.execRecipeCacheFill e hw s
  | .queueFetch q hw => Sys2Proof.Machine.execQueueFetch q hw s
  | .recInv f e v => Sys2Proof.Machine.execRecInv f e v s
  | .partWrite f e t v => Sys2Proof.Machine.execPartWrite f e t v s
  | .resWrite f e t k v => Sys2Proof.Machine.execResWrite f e t k v s
  | .ceClr f e v => Sys2Proof.Machine.execCeClr f e v s
  | .repairWrite f e i0 v => Sys2Proof.Machine.execRepairWrite f e i0 v s
  | .spadClearDone e => Sys2Proof.Machine.execSpadClearDone e s
  | .tlbInv f e v => Sys2Proof.Machine.execTlbInv f e v s
  | .invTn f e v => Sys2Proof.Machine.execInvTn f e v s
  | .retrain f p v => Sys2Proof.Machine.execRetrain f p v s
  | .portTrainingDone p locks partner => Sys2Proof.Machine.execPortTrainingDone p locks partner s
  | .wiringRetry p => Sys2Proof.Machine.execWiringRetry p s
  | .authDone p keyHash signatureOk => Sys2Proof.Machine.execAuthDone p keyHash signatureOk s
  | .epochExchange p epochs => Sys2Proof.Machine.execEpochExchange p epochs s
  | .laneLockLoss p lanes => Sys2Proof.Machine.execLaneLockLoss p lanes s
  | .dataSlot p d => Sys2Proof.Machine.execDataSlot p d s
  | .controlSlot p c => Sys2Proof.Machine.execControlSlot p c s
  | .escWaitExpiry p vc => Sys2Proof.Machine.execEscWaitExpiry p vc s
  | .packetForward p vc => Sys2Proof.Machine.execPacketForward p vc s
  | .writePacket p vc => Sys2Proof.Machine.execWritePacket p vc s
  | .writeAcknowledgement p vc => Sys2Proof.Machine.execWriteAcknowledgement p vc s
  | .errorResponse p vc => Sys2Proof.Machine.execErrorResponse p vc s
  | .arrivePacket p vc => Sys2Proof.Machine.execArrivePacket p vc s
  | .proxyAccess f addr w => Sys2Proof.Machine.execProxyAccess f addr w s
  | .proxyRead p vc => Sys2Proof.Machine.execProxyRead p vc s
  | .proxyWrite p vc => Sys2Proof.Machine.execProxyWrite p vc s
  | .proxyReadData p vc => Sys2Proof.Machine.execProxyReadData p vc s
  | .proxyWriteAcknowledgement p vc => Sys2Proof.Machine.execProxyWriteAcknowledgement p vc s
  | .proxyTimeout m => Sys2Proof.Machine.execProxyTimeout m s
  | .timesyncSend => Sys2Proof.Machine.execTimesyncSend s
  | .timesync p count => Sys2Proof.Machine.execTimesync p count s
  | .echoSend => Sys2Proof.Machine.execEchoSend s
  | .echo p roundTrip => Sys2Proof.Machine.execEcho p roundTrip s
  | .fcHoldover => Sys2Proof.Machine.execFcHoldover s
  | .masterWrite f v => Sys2Proof.Machine.execMasterWrite f v s
  | .launchCount q => Sys2Proof.Machine.execLaunchCount q s
  | .lbArrival k src gen locked => Sys2Proof.Machine.execLbArrival k src gen locked s
  | .lbTimeout k => Sys2Proof.Machine.execLbTimeout k s
  | .lbRelease k gen status count => Sys2Proof.Machine.execLbRelease k gen status count s
  | .lbSelfRelease k => Sys2Proof.Machine.execLbSelfRelease k s
  | .lbFire k => Sys2Proof.Machine.execLbFire k s
  | .lbCfgWrite f k v => Sys2Proof.Machine.execLbCfgWrite f k v s
  | .abort f v => Sys2Proof.Machine.execAbort f v s
  | .abortReceipt p t epoch origin code => Sys2Proof.Machine.execAbortReceipt p t epoch origin code s
  | .abortDone t src => Sys2Proof.Machine.execAbortDone t src s
  | .tallyArrival also => Sys2Proof.Machine.execTallyArrival also s
  | .carryRelease b => Sys2Proof.Machine.execCarryRelease b s
  | .barrierTimeout b also => Sys2Proof.Machine.execBarrierTimeout b also s
  | .tallyTimeout q also => Sys2Proof.Machine.execTallyTimeout q also s
  | .tallyConfigWrite f b part v busy => Sys2Proof.Machine.execTallyConfigWrite f b part v busy s
  | .enable f t v => Sys2Proof.Machine.execEnable f t v s
  | .restart f t v => Sys2Proof.Machine.execRestart f t v s
  | .release f t v => Sys2Proof.Machine.execRelease f t v s
  | .scrubDone t => Sys2Proof.Machine.execScrubDone t s
  | .qTailWrite f t q v => Sys2Proof.Machine.execQTailWrite f t q v s
  | .qCfgWrite f t q v => Sys2Proof.Machine.execQCfgWrite f t q v s
  | .tnResWrite f t v => Sys2Proof.Machine.execTnResWrite f t v s
  | .runLimit u => Sys2Proof.Machine.execRunLimit u s
  | .close f t v => Sys2Proof.Machine.execClose f t v s
  | .mergedClose t => Sys2Proof.Machine.execMergedClose t s
  | .manAck f t v => Sys2Proof.Machine.execManAck f t v s
  | .powerWindowEnd => Sys2Proof.Machine.execPowerWindowEnd s
  | .pgEnable f g v => Sys2Proof.Machine.execPgEnable f g v s
  | .kWrite f g v => Sys2Proof.Machine.execKWrite f g v s
  | .pgAdj f g v => Sys2Proof.Machine.execPgAdj f g v s
  | .timebaseChange => Sys2Proof.Machine.execTimebaseChange s
  | .zcEdge falling held => Sys2Proof.Machine.execZcEdge falling held s
  | .zcTimeout g edge => Sys2Proof.Machine.execZcTimeout g edge s
  | .srcLost g => Sys2Proof.Machine.execSrcLost g s
  | .waybillCrossing g => Sys2Proof.Machine.execWaybillCrossing g s
  | .wbLate => Sys2Proof.Machine.execWbLate s
  | .strobeEnd c => Sys2Proof.Machine.execStrobeEnd c s
  | .queueStart => Sys2Proof.Machine.execQueueStart s
  | .tallyArrive => Sys2Proof.Machine.execTallyArrive s
  | .wardenDeadline freshNow => Sys2Proof.Machine.execWardenDeadline freshNow s
  | .engineWindow => Sys2Proof.Machine.execEngineWindow s
  | .manifestClose => Sys2Proof.Machine.execManifestClose s
  | .wbSelWrite f v => Sys2Proof.Machine.execWbSelWrite f v s
  | .commit f v => Sys2Proof.Machine.execCommit f v s
  | .wbWaitTimeout q firing => Sys2Proof.Machine.execWbWaitTimeout q firing s
  | .addendWrite f v => Sys2Proof.Machine.execAddendWrite f v s
  | .set f v => Sys2Proof.Machine.execSet f v s
  | .step f v => Sys2Proof.Machine.execStep f v s
  | .announce port gmLo gmHi => Sys2Proof.Machine.execAnnounce port gmLo gmHi s
  | .pdelayReq port seqId linkDelay => Sys2Proof.Machine.execPdelayReq port seqId linkDelay s
  | .tsNsRead f => Sys2Proof.Machine.execTsNsRead f s
  | .txtsInfoRead f port => Sys2Proof.Machine.execTxtsInfoRead f port s
  | .launchTime port q => Sys2Proof.Machine.execLaunchTime port q s
  | .axEnable f a v => Sys2Proof.Machine.execAxEnable f a v s
  | .disable f a v => Sys2Proof.Machine.execDisable f a v s
  | .lawCommit f a v => Sys2Proof.Machine.execLawCommit f a v s
  | .axisCompute a disagree => Sys2Proof.Machine.execAxisCompute a disagree s
  | .driverLatch d => Sys2Proof.Machine.execDriverLatch d s
  | .periodLost d => Sys2Proof.Machine.execPeriodLost d s
  | .mbCommit d => Sys2Proof.Machine.execMbCommit d s
  | .currentDecision a => Sys2Proof.Machine.execCurrentDecision a s
  | .bandAdapt a => Sys2Proof.Machine.execBandAdapt a s
  | .currentLost a => Sys2Proof.Machine.execCurrentLost a s
  | .upstreamFrame al frame => Sys2Proof.Machine.execUpstreamFrame al frame s
  | .downstreamFrame al => Sys2Proof.Machine.execDownstreamFrame al s
  | .encoderEdge n a b => Sys2Proof.Machine.execEncoderEdge n a b s
  | .encoderIndex n => Sys2Proof.Machine.execEncoderIndex n s
  | .tStopExpiry n edge => Sys2Proof.Machine.execTStopExpiry n edge s
  | .signalFault n => Sys2Proof.Machine.execSignalFault n s
  | .ssiTransferEnd n bits parityBit => Sys2Proof.Machine.execSsiTransferEnd n bits parityBit s
  | .monoTimeout n returned => Sys2Proof.Machine.execMonoTimeout n returned s
  | .safeReq f al v => Sys2Proof.Machine.execSafeReq f al v s
  | .stopTimeExpiry al => Sys2Proof.Machine.execStopTimeExpiry al s
  | .brakeDelayExpiry al => Sys2Proof.Machine.execBrakeDelayExpiry al s
  | .groupReset f al v => Sys2Proof.Machine.execGroupReset f al v s
  | .stoFbErr al stoA stoB brake => Sys2Proof.Machine.execStoFbErr al stoA stoB brake s
  | .csi2FrameStart c vc ecc frame => Sys2Proof.Machine.execCsi2FrameStart c vc ecc frame s
  | .csi2Line c vc ecc dt crcOk overflow codes => Sys2Proof.Machine.execCsi2Line c vc ecc dt crcOk overflow codes s
  | .csi2EmbeddedData c vc ecc crcOk bytes => Sys2Proof.Machine.execCsi2EmbeddedData c vc ecc crcOk bytes s
  | .csi2FrameEnd c vc ecc => Sys2Proof.Machine.execCsi2FrameEnd c vc ecc s
  | .frameTimeout c ended => Sys2Proof.Machine.execFrameTimeout c ended s
  | .camSilent c started => Sys2Proof.Machine.execCamSilent c started s
  | .thSet f c v => Sys2Proof.Machine.execThSet f c v s
  | .roiCommit c => Sys2Proof.Machine.execRoiCommit c s
  | .srcEnable f src v => Sys2Proof.Machine.execSrcEnable f src v s
  | .sampleForward src => Sys2Proof.Machine.execSampleForward src s
  | .rtpPacket p => Sys2Proof.Machine.execRtpPacket p s
  | .jitterExpiry vs => Sys2Proof.Machine.execJitterExpiry vs s
  | .pictureDecoded vs pic => Sys2Proof.Machine.execPictureDecoded vs pic s
  | .stalled vs => Sys2Proof.Machine.execStalled vs s
  | .probeRead f high => Sys2Proof.Machine.execProbeRead f high s
  | .gleanStart f v => Sys2Proof.Machine.execGleanStart f v s
  | .gleanDone => Sys2Proof.Machine.execGleanDone s
  | .ethFrameReceived port fcsOk frame => Sys2Proof.Machine.execEthFrameReceived port fcsOk frame s
  | .queuePoll port => Sys2Proof.Machine.execQueuePoll port s
  | .ethFrameBoundary port => Sys2Proof.Machine.execEthFrameBoundary port s
  | .ethTxDone port => Sys2Proof.Machine.execEthTxDone port s
  | .linkDown port => Sys2Proof.Machine.execLinkDown port s
  | .linkUp port => Sys2Proof.Machine.execLinkUp port s
  | .silent port arrived => Sys2Proof.Machine.execSilent port arrived s
  | .queueRestart f port tx q v => Sys2Proof.Machine.execQueueRestart f port tx q v s
  | .blkEnable f page v sdaHigh => Sys2Proof.Machine.execBlkEnable f page v sdaHigh s
  | .canInit f n v => Sys2Proof.Machine.execCanInit f n v s
  | .canNormal f n v => Sys2Proof.Machine.execCanNormal f n v s
  | .canListen f n v => Sys2Proof.Machine.execCanListen f n v s
  | .canSleep f n v => Sys2Proof.Machine.execCanSleep f n v s
  | .canWake n frame => Sys2Proof.Machine.execCanWake n frame s
  | .txbReq f n v => Sys2Proof.Machine.execTxbReq f n v s
  | .txbAbort f n v => Sys2Proof.Machine.execTxbAbort f n v s
  | .txfPush f n v => Sys2Proof.Machine.execTxfPush f n v s
  | .txfFlush f n v => Sys2Proof.Machine.execTxfFlush f n v s
  | .rxPop f n v arriving => Sys2Proof.Machine.execRxPop f n v arriving s
  | .rxhIdRead f n => Sys2Proof.Machine.execRxhIdRead f n s
  | .recover f n v => Sys2Proof.Machine.execRecover f n v s
  | .canArbitration n => Sys2Proof.Machine.execCanArbitration n s
  | .canFrameSent n delay => Sys2Proof.Machine.execCanFrameSent n delay s
  | .canFrameReceived n frame age => Sys2Proof.Machine.execCanFrameReceived n frame age s
  | .canError n kind transmitting outsideArbitration tecAdd recAdd => Sys2Proof.Machine.execCanError n kind transmitting outsideArbitration tecAdd recAdd s
  | .busOffRecovery n => Sys2Proof.Machine.execBusOffRecovery n s
  | .txTimeout n slot => Sys2Proof.Machine.execTxTimeout n slot s
  | .rxTimeout n flt => Sys2Proof.Machine.execRxTimeout n flt s
  | .busDominant n => Sys2Proof.Machine.execBusDominant n s
  | .i2cStart f n v sdaHigh => Sys2Proof.Machine.execI2cStart f n v sdaHigh s
  | .i2cTransferDone n clear r => Sys2Proof.Machine.execI2cTransferDone n clear r s
  | .sclLowTimeout n released => Sys2Proof.Machine.execSclLowTimeout n released s
  | .i2cUnfence f n v sdaHigh => Sys2Proof.Machine.execI2cUnfence f n v sdaHigh s
  | .smbalert status => Sys2Proof.Machine.execSmbalert status s
  | .wdHoldExpired slot freshNow => Sys2Proof.Machine.execWdHoldExpired slot freshNow s
  | .stopClr f slot v => Sys2Proof.Machine.execStopClr f slot v s
  | .wdLockstep => Sys2Proof.Machine.execWdLockstep s
  | .ctrlMonitor voltage => Sys2Proof.Machine.execCtrlMonitor voltage s
  | .diagRun f v => Sys2Proof.Machine.execDiagRun f v s
  | .startupRunDone fails inst micros epochFailed rows => Sys2Proof.Machine.execStartupRunDone fails inst micros epochFailed rows s
  | .regionWrite f e reg v => Sys2Proof.Machine.execRegionWrite f e reg v s
  | .attStart f v => Sys2Proof.Machine.execAttStart f v s
  | .attestationDone => Sys2Proof.Machine.execAttestationDone s
  | .getInfo => Sys2Proof.Machine.execGetInfo s
  | .logRead => Sys2Proof.Machine.execLogRead s
  | .fwErase flashErr => Sys2Proof.Machine.execFwErase flashErr s
  | .fwWrite flashErr => Sys2Proof.Machine.execFwWrite flashErr s
  | .fwVerify => Sys2Proof.Machine.execFwVerify s
  | .fwActivate => Sys2Proof.Machine.execFwActivate s
  | .fwConfirm => Sys2Proof.Machine.execFwConfirm s
  | .ledgerWrite => Sys2Proof.Machine.execLedgerWrite s
  | .rosterSet => Sys2Proof.Machine.execRosterSet s
  | .mgmtRead => Sys2Proof.Machine.execMgmtRead s
  | .mgmtWrite => Sys2Proof.Machine.execMgmtWrite s
  | .mailboxFence => Sys2Proof.Machine.execMailboxFence s
  | .unfence => Sys2Proof.Machine.execUnfence s
  | .sensorRead => Sys2Proof.Machine.execSensorRead s
  | .mailboxTimeout => Sys2Proof.Machine.execMailboxTimeout s
  | .fenceLift page => Sys2Proof.Machine.execFenceLift page s
  | .drainStall page cls => Sys2Proof.Machine.execDrainStall page cls s
  | .stateCompare page clockOff running => Sys2Proof.Machine.execStateCompare page clockOff running s
  | .thermalSample n temp => Sys2Proof.Machine.execThermalSample n temp s
  | .sensorStale input sample => Sys2Proof.Machine.execSensorStale input sample s
  | .railSample n mv => Sys2Proof.Machine.execRailSample n mv s
  | .pmbusPoll n vout iout temp status => Sys2Proof.Machine.execPmbusPoll n vout iout temp status s
  | .holdupSample code => Sys2Proof.Machine.execHoldupSample code s
  | .droop => Sys2Proof.Machine.execDroop s
  | .droopRecovery => Sys2Proof.Machine.execDroopRecovery s
  | .dvfsTick margin => Sys2Proof.Machine.execDvfsTick margin s
  | .voltageSettled => Sys2Proof.Machine.execVoltageSettled s
  | .logPageWritten => Sys2Proof.Machine.execLogPageWritten s
  | .ledgerDequeue => Sys2Proof.Machine.execLedgerDequeue s
  | .ledgerWriteDone failed => Sys2Proof.Machine.execLedgerWriteDone failed s
  | .ledgerScan a b => Sys2Proof.Machine.execLedgerScan a b s
  | .trialTimeout => Sys2Proof.Machine.execTrialTimeout s
  | .ostlerWdt => Sys2Proof.Machine.execOstlerWdt s
  | .faultAck f page v arriving => Sys2Proof.Machine.execFaultAck f page v arriving s
  | .softReset f page v => Sys2Proof.Machine.execSoftReset f page v s
  | .moduleReset f v => Sys2Proof.Machine.execModuleReset f v s
  | .lock f page v => Sys2Proof.Machine.execLock f page v s
  | .errinjWrite f page v => Sys2Proof.Machine.execErrinjWrite f page v s
  | .irqPendWrite f page v arriving => Sys2Proof.Machine.execIrqPendWrite f page v arriving s
  | .irqEnWrite f page v => Sys2Proof.Machine.execIrqEnWrite f page v s
  | .irqForce f page v => Sys2Proof.Machine.execIrqForce f page v s
  | .irqRouteWrite f i0 v => Sys2Proof.Machine.execIrqRouteWrite f i0 v s
  | .porNAssert => Sys2Proof.Machine.execPorNAssert s
  | .porNRelease samples => Sys2Proof.Machine.execPorNRelease samples s
  | .firmwareChosen r => Sys2Proof.Machine.execFirmwareChosen r s
  | .tensorRailsUp => Sys2Proof.Machine.execTensorRailsUp s
  | .hbmTrainingDone failed => Sys2Proof.Machine.execHbmTrainingDone failed s
  | .hostRelease => Sys2Proof.Machine.execHostRelease s
  | .perstNAssert => Sys2Proof.Machine.execPerstNAssert s
  | .vfFunctionLevelReset t => Sys2Proof.Machine.execVfFunctionLevelReset t s
  | .pfFunctionLevelReset => Sys2Proof.Machine.execPfFunctionLevelReset s
  | .refclkLoss => Sys2Proof.Machine.execRefclkLoss s
  | .perstNRelease => Sys2Proof.Machine.execPerstNRelease s
  | .busStuck n => Sys2Proof.Machine.execBusStuck n s
  | .busRecessive n => Sys2Proof.Machine.execBusRecessive n s

end Sys2Proof.Machine
end

