-- ==== Sys2Proof/Machine/Slots.lean ====
section
/-!
DEFINITION. The slots a Faleg port sends (R172 to R184): frames of 128, control slots, seal runs, replay, credits, the grant of each slot
by resource class and LINK_SHARE. An UP port sends one slot every 5 ns.
-/
namespace Sys2Proof.Machine

/-! ### The bytes of a slot (R172, R175) -/

/-- The bytes at even or at odd places. -/
def interleave : Nat → List Byte → List Byte
  | _, [] => []
  | i, b :: r => if i % 2 = 0 then b :: interleave (i + 1) r else interleave (i + 1) r

/-- Every fourth byte: byte i of a slot goes on lane i mod 4. -/
def lane (l : Nat) : Nat → List Byte → List Byte
  | _, [] => []
  | i, b :: r => if i % 4 = l then b :: lane l (i + 1) r else lane l (i + 1) r

/-- The four lanes of a slot whose bytes 0 to 267 are given: CRC-32 (IEEE 802.3: PRESUMED, log 52), FEC parity in two interleaves. -/
def slotLanes (body : List Byte) : List (List Byte) :=
  let b := body ++ natLe 4 (crc32 body)
  let parity := (List.range 8).map (fun i => Config.rsParity (interleave (i % 2) b) (i / 2))
  (List.range 4).map (fun l => lane l 0 (b ++ parity))

/-- The IV of a run (R179): the salt, then the run counter. -/
def Seal.iv (x : Seal) : BitVec 96 := BitVec.ofNat 96 (x.salt.toNat * 2 ^ 64 + x.run.toNat)

/-- The LINK field (R172): all runs before the open one are acknowledged, and the flits freed per channel. -/
def Port.linkBytes (x : Port) : List Byte :=
  (List.range 4).map (Config.linkByte ((x.rxs.runFirst + 4095) % 4096) ((List.range 4).map (mapGet noCount x.rxs.freed)))

/-- Send a data slot that carries a flit, or an idle one (R172, R179). -/
def Port.dataSlot (x : Port) (f : Flit) : Port :=
  let hdr := natLe 8 f.hdr.toNat
  let plain := f.data ++ zeros (256 - f.data.length)
  let link := x.linkBytes
  let t := x.txs
  let cipher := plain.zipIdx.map (fun b => Config.gcmByte t.crypt.key t.crypt.iv (t.plain.length + b.2) b.1)
  { x with txs := { t with slot := t.slot + 1, aad := t.aad ++ hdr ++ link, plain := t.plain ++ plain, lanes := slotLanes (hdr ++ cipher ++ link) } }

/-- Send a control slot (R172, R176, R177, R179): the tag of the run it ends, the NAK, up to 16 unacknowledged sideband words. The
acknowledgements of received words go with it. -/
def Port.controlSlot (x : Port) : Port :=
  let t := x.txs
  let tag := (List.range 16).map (Config.gcmTag t.crypt.key t.crypt.iv t.aad t.plain)
  let words := (x.sbOut.take 16).flatMap (fun w => (List.range 8).map (Config.sidebandByte w.1 w.2))
  let body := (List.range 8).map (Config.frameByte (t.slot / 128)) ++ tag ++ (List.range 4).map (Config.nakByte x.rxs.nakOut) ++
    words ++ zeros (128 - words.length) ++ zeros 112
  { x with rxs := { x.rxs with nakOut := none }, sbAck := []
           txs := { t with slot := t.slot + 1, aad := [], plain := [], lanes := slotLanes body
                           crypt := { t.crypt with run := t.crypt.run + 1 } } }

/-! ### Grants (R32, R181, R183, R184, R246) -/

/-- LINK_SHARE and IDLE_ELIG of a tenant. -/
def State.linkShare (s : State) (t : Nat) : Nat := s.rf (rga (tnPage t) 0x4C) 15 8
def State.idleElig (s : State) (t : Nat) : Bool := s.rb (rga (tnPage t) 0x4C) 31

/-- The packets, with their places, whose next flit may leave on channel vc: the one on its way, else those that wait; none without a
credit. -/
def Port.ready (x : Port) (vc : Nat) : List (TxPkt × Nat) :=
  if x.credit vc = 0 then [] else
  let l := x.tx.zipIdx.filter (fun t => t.1.vc == vc && t.1.last.isNone)
  match l.find? (fun t => t.1.begun) with
  | some t => if t.1.flits.isEmpty then [] else [t]
  | none => l

/-- The one that waits longest. -/
def oldest : List (TxPkt × Nat) → Option (TxPkt × Nat)
  | [] => none
  | t :: r => match oldest r with
    | none => some t
    | some u => if u.1.since < t.1.since then some u else some t

/-- Bytes of the window that a tenant has had. -/
def Port.had (x : Port) (t : Nat) : Nat := mapGet noCount x.txs.used t

/-- The packet whose tenant has had least by its share; proxy packets come first. -/
def State.least (s : State) (x : Port) : List (TxPkt × Nat) → Option (TxPkt × Nat)
  | [] => none
  | t :: r => match s.least x r with
    | none => some t
    | some u =>
      let a := x.had t.1.pkt.tenant
      let b := x.had u.1.pkt.tenant
      let ka := s.linkShare t.1.pkt.tenant
      let kb := s.linkShare u.1.pkt.tenant
      if isProxyOp t.1.pkt.op then some t
      else if isProxyOp u.1.pkt.op then some u
      else if (if ka = 0 ∧ kb = 0 then b < a else b * ka < a * kb) then some u else some t

/-- Whether a tenant stays within its share of the 10 µs window with one more flit: n/256 of 500,000 bytes (R246). -/
def State.within (s : State) (x : Port) (t : TxPkt × Nat) : Bool :=
  isProxyOp t.1.pkt.op || decide ((x.had t.1.pkt.tenant + 256) * 256 ≤ s.linkShare t.1.pkt.tenant * 500000)

/-- The flit that is granted the next data slot: class 2 first; of class 3, in every sixteenth grant the longest waiting, else the tenant
furthest below its share, and beyond the shares those with IDLE_ELIG (R32, R184, R246). The spec gives the shares to be kept and no
order of the grants: this one is a DESIGN CHOICE (log 52). -/
def State.grant (s : State) (x : Port) : Option (TxPkt × Nat) :=
  match oldest (x.ready 2 ++ x.ready 3) with
  | some t => some t
  | none =>
    let c := x.ready 0 ++ x.ready 1
    let idle (t : TxPkt × Nat) : Bool := s.idleElig t.1.pkt.tenant
    if x.txs.grants % 16 = 15 then oldest (c.filter (fun t => s.within x t || idle t))
    else match s.least x (c.filter (s.within x)) with
      | some t => some t
      | none => s.least x (c.filter idle)

/-- The share window of the present tick. -/
def Port.window (x : Port) (tick : Nat) : Port :=
  if x.txs.window = tick / 10000 then x else { x with txs := { x.txs with window := tick / 10000, used := [] } }

/-- A new flit leaves: it takes its sequence number and a credit, enters the replay buffer and frees the buffer it came from. -/
def State.sendNew (s : State) (p : Nat) (x : Port) (t : TxPkt) (i : Nat) : State :=
  let f := (t.flits.headD default).withSeq x.txs.seq
  let u : TxPkt := { t with flits := t.flits.drop 1, begun := true, last := if f.last then some x.txs.seq else none }
  let y := { x with tx := x.tx.set i u
                    txs := { x.txs with replay := x.txs.replay ++ [f], next := x.txs.next + 1, seq := (x.txs.seq + 1) % 4096
                                        out := mapUpd noCount x.txs.out t.vc (· + 1)
                                        grants := if t.vc < 2 then x.txs.grants + 1 else x.txs.grants
                                        used := if isProxyOp t.pkt.op || 2 ≤ t.vc then x.txs.used
                                          else mapUpd noCount x.txs.used t.pkt.tenant (· + 256) } }
  let s := s.setPort p (y.dataSlot f)
  match t.src with
  | some (q, vc) => s.giveBack q vc 1
  | none => s

/-- One slot of a port (R172): control slots 0, 43 and 86 of each frame; else a flit to be replayed, or a new one while the replay buffer
holds fewer than 1,024 (R176), or an idle flit. -/
def State.sendSlot (s : State) (p : Nat) : State :=
  let x := (s.port p).window s.clock.tick
  let n := x.txs.slot % 128
  if n = 0 ∨ n = 43 ∨ n = 86 then s.setPort p x.controlSlot
  else match x.txs.replay.drop x.txs.next with
    | f :: _ => s.setPort p (Port.dataSlot { x with txs := { x.txs with next := x.txs.next + 1 } } f)
    | [] =>
      match (if x.txs.replay.length < 1024 then s.grant x else none) with
      | some t => s.sendNew p x t.1 t.2
      | none => s.setPort p (x.dataSlot ⟨0, []⟩)

/-- Every UP port sends one slot in 5 ticks (R172). -/
def State.sendSlots (s : State) : State :=
  if s.clock.tick % 5 = 0 then (upPorts s).foldl State.sendSlot s else s

end Sys2Proof.Machine
end

