-- ==== Sys2Proof/Machine/Time.lean ====
section
/-!
DEFINITION. One TIME_CLK tick (R172, R190, R254, R273): what the block does while no command waits. Log 1.
-/
namespace Sys2Proof.Machine

/-- The Field counter after a tick of an addend (R190). -/
def tickField (addend : Nat) (c : Clock) : Clock :=
  let f := c.fieldFrac + addend
  { c with field := c.field + BitVec.ofNat 64 (f / 2 ^ 32), fieldFrac := f % 2 ^ 32 }

/-- A tick: the count of ticks since power-on, the slots of the Faleg ports (R172), the Field counter, and, once the control domain has left reset, the PTP clock and the phase
generators (R466). While POR_N is low nothing runs. The master's counter runs at the nominal rate (R190). -/
def State.tick (s : State) : State :=
  if !s.pins.porN then s else
  let s := { s with clock := { s.clock with tick := s.clock.tick + 1 } }
  if s.ost.ctrlHeld then s else ({ s with clock := tickField (if s.master = s.me then 4294967296 else s.clock.fieldAddend) s.clock } : State).tickMile.sendSlots

end Sys2Proof.Machine
end

