-- ==== Sys2Proof/WellFormed.lean ====
section
/-!
DEFINITION. Well-formed commands: the operands the outside world can deliver. Every command has a meaning, well-formed or
not; the check says which ones the spec speaks of.
-/
namespace Sys2Proof

open Machine

/-- A host access comes from the host or from the management path; the access of a proxy packet is no operand (R13, R199). -/
def Func.wellFormed : Func → Bool
  | .px => false
  | _ => true

/-- A page that a block occupies (R447, R448). -/
def pageOk (page : Nat) : Bool := (pageId page).isSome

/-- An address of BAR0: 64 MiB (R446). -/
def barOk (addr : Nat) : Bool := decide (addr < 0x04000000)

/-- Data bytes of a CAN frame by its length code: classic and FD (R375). -/
def canBytes (fdf : Bool) (dlc : Nat) : Nat :=
  if dlc ≤ 8 then dlc
  else if fdf then ([12, 16, 20, 24, 32, 48, 64] : List Nat).getD (dlc - 9) 64
  else 8

/-- A CAN frame (R375): remote frames are classic and carry no data, BRS and ESI are of FD frames, a base identifier stands in bits [28:18]. -/
def CanFrame.wellFormed (f : CanFrame) : Bool :=
  decide (f.data.length = if f.rtr then 0 else canBytes f.fdf f.dlc.toNat) && !(f.rtr && f.fdf)
    && (f.fdf || !(f.brs || f.esi)) && (f.ide || decide (f.id.toNat % 2 ^ 18 = 0))

/-- A decoded picture (R341, R343): 4:2:0 with even sides, its planes as large as its sides say; coding units of 16, 32 or 64 samples, each lost
one named once. -/
def Picture.wellFormed (p : Picture) : Bool :=
  decide (p.width % 2 = 0) && decide (p.height % 2 = 0) && decide (p.luma.length = p.width * p.height)
    && decide (p.chroma.length = p.width * p.height / 2) && decide (p.unit = 16 ∨ p.unit = 32 ∨ p.unit = 64) && decide p.lost.Nodup

/-- The fields of a packet have their widths, and its data fit 64 flits (R173, R174). -/
def Packet.wellFormed (k : Packet) : Bool :=
  decide (k.dest < 64 ∧ k.src < 64 ∧ k.tenant < 16 ∧ k.vc < 4 ∧ k.epoch < 16 ∧ k.hops < 64 ∧ k.space < 8 ∧ k.tag < 2 ^ 16 ∧ k.addr < 2 ^ 64 ∧
    k.data.length ≤ 16368)

/-- Wrong bytes of the two interleaves of 140 (R175). -/
def fecOk (e : Nat × Nat) : Bool := decide (e.1 ≤ 140 ∧ e.2 ≤ 140)

/-- A hardware fault as the hardware can name it (R63, R70, R81, R85). -/
def HwFault.wellFormed : HwFault → Bool
  | .tithe st ti ar qu => decide (st ≤ 6 ∧ ti < 12 ∧ ar < 8 ∧ qu < 4)
  | .spadCe b r => decide (b < 96 ∧ r < 1024)
  | .spadUe p b r => decide (p < 15 ∧ b < 96 ∧ r < 1024)
  | _ => true

/-- The Tithe check does not cover the vector units (R64). -/
def HwFault.vector : HwFault → Bool
  | .tithe _ _ _ _ => false
  | h => h.wellFormed

/-- The levels a bus clear samples: one for each of its nine clocks at most (R384). -/
def sdaOk (l : List Bool) : Bool := decide (l.length ≤ 9)

/-- Well-formed commands, one arm for each kind of operand that can be ill-formed. -/
def Instr.wellFormed : Instr → Bool
  | .registerWrite f a _ _ _ => f.wellFormed && barOk a
  | .lowWordRead f a _ => f.wellFormed && barOk a
  | .proxyAccess f a _ => f.wellFormed && decide (0x01000000 ≤ a) && barOk a
  | .faultAck f p _ arriving => f.wellFormed && pageOk p &&
      arriving.all (fun x => decide (1 ≤ x.1) && decide (x.1 < 65536))
  | .softReset f p _ => f.wellFormed && pageOk p
  | .lock f p _ => f.wellFormed && pageOk p
  | .errinjWrite f p _ => f.wellFormed && pageOk p
  | .irqPendWrite f p _ _ => f.wellFormed && pageOk p
  | .irqEnWrite f p _ => f.wellFormed && pageOk p
  | .irqForce f p _ => f.wellFormed && pageOk p
  | .blkEnable f p _ l => f.wellFormed && pageOk p && sdaOk l
  | .fenceLift p => pageOk p
  | .drainStall p _ => pageOk p
  | .stateCompare p _ _ => pageOk p
  | .i2cStart f _ _ l => f.wellFormed && sdaOk l
  | .i2cUnfence f _ _ l => f.wellFormed && sdaOk l
  | .i2cTransferDone _ l _ => sdaOk l
  | .porNRelease l => decide (l.length = 16)
  | .authDone _ k _ => decide (k.length = 12)
  | .dataSlot _ d => fecOk d.fec && decide (d.payload.length = 256 ∧ d.freed.length = 4)
  | .controlSlot _ c => fecOk c.fec && decide (c.words.length ≤ 16)
  | .canWake _ (some f) => f.1.wellFormed
  | .canFrameReceived _ f _ => f.wellFormed
  | .rxPop f _ _ arriving => f.wellFormed && (match arriving with | none => true | some x => x.1.wellFormed)
  | .pictureDecoded _ p => p.wellFormed
  | .matmul _ h | .convDense _ h | .convDiagonal _ h | .convFrequency _ h | .attnForwardDense _ h | .attnForwardRetrieval _ h
  | .attnBackward _ h | .rnnStep _ h => h.wellFormed
  | .vectorMap _ h | .sumFp32 _ h | .sumGranary _ h | .vectorMax _ h | .vectorMin _ h | .poolMax _ h | .poolAvg _ h | .digest _ h
  | .porterDescriptor _ h | .recipeCacheFill _ h | .queueFetch _ h => h.vector
  | .recInv f _ _ | .partWrite f _ _ _ | .resWrite f _ _ _ _ | .ceClr f _ _ | .repairWrite f _ _ _ | .tlbInv f _ _ | .invTn f _ _
  | .retrain f _ _ | .masterWrite f _ | .lbCfgWrite f _ _ | .abort f _ | .tallyConfigWrite f _ _ _ _ | .enable f _ _ | .restart f _ _
  | .release f _ _ | .qTailWrite f _ _ _ | .qCfgWrite f _ _ _ | .tnResWrite f _ _ | .close f _ _ | .manAck f _ _ | .pgEnable f _ _
  | .kWrite f _ _ | .pgAdj f _ _ | .wbSelWrite f _ | .commit f _ | .addendWrite f _ | .set f _ | .step f _ | .tsNsRead f
  | .txtsInfoRead f _ | .axEnable f _ _ | .disable f _ _ | .lawCommit f _ _ | .safeReq f _ _ | .groupReset f _ _ | .thSet f _ _
  | .srcEnable f _ _ | .probeRead f _ | .gleanStart f _ | .queueRestart f _ _ _ _ | .canInit f _ _ | .canNormal f _ _
  | .canListen f _ _ | .canSleep f _ _ | .txbReq f _ _ | .txbAbort f _ _ | .txfPush f _ _ | .txfFlush f _ _ | .rxhIdRead f _
  | .recover f _ _ | .stopClr f _ _ | .diagRun f _ | .regionWrite f _ _ _ | .attStart f _ | .moduleReset f _ | .irqRouteWrite f _ _ => f.wellFormed
  | _ => true

end Sys2Proof
end

