-- ==== Sys2Proof/Safety.lean ====
section
/-!
DEFINITION. What counts as a safe run: a step answers a next state, every sparse table stays in its one canonical form, no queue of R30 overflows, what
manufacture fixed stays fixed, and no power reaches a motor group that is in its safe state.
-/
namespace Sys2Proof.Machine

/-- An outcome that is a next state. -/
def Completes (o : Host.Outcome State Fault Refusal) : Prop := ∃ t, o = .next t

/-- The canonical form of a byte memory: addresses rise strictly, no entry equals what an unlisted address reads as. -/
def Memory.wf (m : List Host.Cell) : Bool := mapWf hbmDflt m

/-- Every top-level sparse table of the state is in canonical form: HBM, scratchpads, registers, engines, Porters, queues,
tenants and barriers. -/
def State.canonical (s : State) : Bool :=
  Memory.wf s.hbm && Memory.wf s.spad && mapWf resetReg s.regs && mapWf dflt s.eng && mapWf dflt s.por && mapWf dflt s.queues
    && mapWf dflt s.tn && mapWf dflt s.bars

/-- What manufacture fixes (R2, R91, R401, R423): the fuses without the Field ID straps, which are read at power-on (R185). -/
def Fuses.made (f : Fuses) : Fuses := { f with fieldId := 0 }

/-- The queues of R30 hold no more than their entries: 128 events for the log (R426), 16 Ledger writes (R432). -/
def State.bounded (s : State) : Bool := decide (s.log.fifo.length ≤ 128) && decide (s.ledger.queue.length ≤ 16)

/-- The invariant of every step: canonical tables, queues within their bounds, and the fuses as made. -/
def State.Inv (made : Fuses) (s : State) : Prop := s.canonical = true ∧ s.bounded = true ∧ s.fuses.made = made

/-- No STO line permits torque and every brake request stands (R319, R467). -/
def State.noTorque (s : State) : Bool := decide (s.pins.stoA = 0) && decide (s.pins.stoB = 0) && decide (s.pins.brake = 0)

/-! ### Frames -/

/-- Nothing but registers differs. -/
def OnlyRegs (s t : State) : Prop := t = { s with regs := t.regs }

/-- Nothing but registers and sent messages differs. -/
def OnlyRegsMsix (s t : State) : Prop := t = { s with regs := t.regs, msix := t.msix }

/-- Nothing but registers, sent messages and the event log differs. -/
def OnlyRegsLog (s t : State) : Prop := t = { s with regs := t.regs, msix := t.msix, log := t.log }

/-- Every register outside `p` reads as before. -/
def RegsBut (p : Nat → Prop) (s t : State) : Prop := ∀ a, ¬ p a → t.rd a = s.rd a

/-- No byte of HBM and of the scratchpads changes. -/
def SameMemory (s t : State) : Prop := (∀ a, t.hbmByte a = s.hbmByte a) ∧ (∀ e a, t.spByte e a = s.spByte e a)

/-- The control domain outside the registers stands: Drover, encoders and Axis link, Milepost and Waybill, the CAN controllers, the pins. -/
def SameControl (s t : State) : Prop := t.drv = s.drv ∧ t.mile = s.mile ∧ t.can = s.can ∧ t.pins = s.pins

/-! ### Commands of an engine -/

/-- The picked command c of engine e passes every check of R98, with the cached recipe r and the plan p of its class (R115). -/
structure State.Accepts (s : State) (e : Nat) (c : Cmd) (r : List Word) (p : Plan) : Prop where
  sel : (s.engine e).sel = some c
  base : s.baseCheck c = none
  fmt : fmtOk c = true
  limit : c.recipe ≤ s.recipeLimit e c.owner
  cached : s.cached e c.owner c.recipe = some r
  recipe : recOk c r = true
  plan : s.planFail e c r p = none

/-- The execution meets no fault and no region conflict. -/
def Result.Clean (x : Result) : Prop := x.conflict = none ∧ x.faults = []

/-- The state after a command that ran to its end: its results are written, it is done and waits for its completion (R97). -/
def Result.ran (x : Result) (e : Nat) (c : Cmd) : State :=
  x.out.setEngine e { x.out.engine e with sel := none, run := some ⟨c, x.out.clock.tick, x.astat, true⟩ }

end Sys2Proof.Machine

namespace Sys2Proof
open Sys2Proof.Machine

/-! ### Rows by what they leave alone -/

/-- Rows that store nothing: no byte of HBM and of the scratchpads changes, whatever the state. Rows that may write the Ledger are not among them: a
word that comes into force with them may take a port down (R206), which ends commands. -/
def Instr.keepsMemory : Instr → Bool
  | .recInv _ _ _ | .partWrite _ _ _ _ | .resWrite _ _ _ _ _ | .ceClr _ _ _ | .spadClearDone _ | .tlbInv _ _ _ | .invTn _ _ _
  | .portTrainingDone _ _ _ | .wiringRetry _ | .authDone _ _ _ | .escWaitExpiry _ _ | .packetForward _ _ | .writeAcknowledgement _ _
  | .arrivePacket _ _ | .proxyRead _ _ | .proxyReadData _ _ | .proxyWriteAcknowledgement _ _ | .proxyTimeout _ | .timesyncSend | .timesync _ _
  | .echoSend | .echo _ _ | .fcHoldover | .lbCfgWrite _ _ _ | .abortDone _ _ | .tallyConfigWrite _ _ _ _ _ | .qTailWrite _ _ _ _
  | .qCfgWrite _ _ _ _ | .tnResWrite _ _ _ | .powerWindowEnd | .pgEnable _ _ _ | .kWrite _ _ _ | .pgAdj _ _ _ | .timebaseChange | .zcEdge _ _
  | .zcTimeout _ _ | .srcLost _ | .strobeEnd _ | .wardenDeadline _ | .engineWindow | .wbSelWrite _ _ | .addendWrite _ _ | .set _ _ | .step _ _
  | .announce _ _ _ | .pdelayReq _ _ _ | .tsNsRead _ | .txtsInfoRead _ _ | .axEnable _ _ _ | .disable _ _ _ | .lawCommit _ _ _ | .periodLost _
  | .currentDecision _ | .bandAdapt _ | .currentLost _ | .upstreamFrame _ _ | .downstreamFrame _ | .encoderEdge _ _ _ | .encoderIndex _
  | .tStopExpiry _ _ | .signalFault _ | .ssiTransferEnd _ _ _ | .monoTimeout _ _ | .safeReq _ _ _ | .stopTimeExpiry _ | .brakeDelayExpiry _
  | .groupReset _ _ _ | .stoFbErr _ _ _ _ | .csi2Line _ _ _ _ _ _ _ | .csi2EmbeddedData _ _ _ _ _ | .csi2FrameEnd _ _ _ | .frameTimeout _ _
  | .camSilent _ _ | .thSet _ _ _ | .roiCommit _ | .rtpPacket _ | .jitterExpiry _ | .pictureDecoded _ _ | .stalled _ | .probeRead _ _ | .linkUp _
  | .silent _ _ | .queueRestart _ _ _ _ _ | .canInit _ _ _ | .canNormal _ _ _ | .canListen _ _ _ | .canSleep _ _ _ | .canWake _ _ | .txbReq _ _ _
  | .txbAbort _ _ _ | .txfPush _ _ _ | .txfFlush _ _ _ | .rxPop _ _ _ _ | .rxhIdRead _ _ | .recover _ _ _ | .canArbitration _ | .canFrameSent _ _
  | .canFrameReceived _ _ _ | .canError _ _ _ _ _ _ | .busOffRecovery _ | .txTimeout _ _ | .rxTimeout _ _ | .busDominant _ | .i2cStart _ _ _ _
  | .i2cTransferDone _ _ _ | .sclLowTimeout _ _ | .i2cUnfence _ _ _ _ | .wdHoldExpired _ _ | .stopClr _ _ _ | .wdLockstep | .ctrlMonitor _
  | .diagRun _ _ | .getInfo | .logRead | .fwWrite _ | .mgmtRead | .unfence | .sensorRead | .mailboxTimeout | .fenceLift _ | .holdupSample _
  | .droop | .droopRecovery | .dvfsTick _ | .voltageSettled | .logPageWritten | .ledgerDequeue | .ledgerScan _ _ | .ostlerWdt | .lock _ _ _
  | .errinjWrite _ _ _ | .irqPendWrite _ _ _ _ | .irqEnWrite _ _ _ | .irqForce _ _ _ | .irqRouteWrite _ _ _ | .porNRelease _ | .tensorRailsUp
  | .hostRelease | .vfFunctionLevelReset _ | .perstNRelease | .busStuck _ | .busRecessive _ => true
  | _ => false

/-- Rows outside the control path: tensor, fabric, link, tenant, perception and management commands (R16, R34, R390). Rows that may write the Ledger
are not among them: a word that comes into force with them may be an encoder's offset, which moves its position (R307). -/
def Instr.keepsControl : Instr → Bool
  | .matmul _ _ | .convDense _ _ | .convDiagonal _ _ | .convFrequency _ _ | .attnForwardDense _ _ | .attnForwardRetrieval _ _ | .attnBackward _ _
  | .rnnStep _ _ | .vectorMap _ _ | .sumFp32 _ _ | .sumGranary _ _ | .vectorMax _ _ | .vectorMin _ _ | .poolMax _ _ | .poolAvg _ _ | .digest _ _
  | .copy _ | .porterDescriptor _ _ | .arrive _ | .wait _ | .waybillWait _ | .fence _ | .fenceCompletion _ | .commandCompletion _
  | .recipeCacheFill _ _ | .queueFetch _ _ | .recInv _ _ _ | .partWrite _ _ _ _ | .resWrite _ _ _ _ _ | .ceClr _ _ _ | .spadClearDone _
  | .tlbInv _ _ _ | .invTn _ _ _ | .portTrainingDone _ _ _ | .wiringRetry _ | .authDone _ _ _ | .epochExchange _ _ | .laneLockLoss _ _
  | .dataSlot _ _ | .controlSlot _ _ | .escWaitExpiry _ _ | .packetForward _ _ | .writePacket _ _ | .writeAcknowledgement _ _ | .errorResponse _ _
  | .arrivePacket _ _ | .proxyReadData _ _ | .proxyWriteAcknowledgement _ _ | .proxyTimeout _ | .timesyncSend | .echoSend | .echo _ _
  | .launchCount _ | .lbCfgWrite _ _ _ | .abort _ _ | .abortReceipt _ _ _ _ _ | .abortDone _ _ | .tallyArrival _ | .carryRelease _
  | .barrierTimeout _ _ | .tallyTimeout _ _ | .tallyConfigWrite _ _ _ _ _ | .enable _ _ _ | .restart _ _ _ | .release _ _ _ | .scrubDone _
  | .qTailWrite _ _ _ _ | .qCfgWrite _ _ _ _ | .tnResWrite _ _ _ | .runLimit _ | .close _ _ _ | .mergedClose _ | .manAck _ _ _ | .zcTimeout _ _
  | .queueStart | .tallyArrive | .engineWindow | .manifestClose | .wbSelWrite _ _ | .wbWaitTimeout _ _ | .announce _ _ _ | .tsNsRead _
  | .launchTime _ _ | .csi2FrameStart _ _ _ _ | .csi2Line _ _ _ _ _ _ _ | .csi2EmbeddedData _ _ _ _ _ | .csi2FrameEnd _ _ _ | .frameTimeout _ _
  | .camSilent _ _ | .thSet _ _ _ | .roiCommit _ | .srcEnable _ _ _ | .sampleForward _ | .rtpPacket _ | .jitterExpiry _ | .pictureDecoded _ _
  | .stalled _ | .gleanStart _ _ | .gleanDone | .ethFrameReceived _ _ _ | .queuePoll _ | .ethFrameBoundary _ | .linkDown _ | .linkUp _
  | .silent _ _ | .queueRestart _ _ _ _ _ | .rxTimeout _ _ | .i2cStart _ _ _ _ | .i2cTransferDone _ _ _ | .sclLowTimeout _ _ | .i2cUnfence _ _ _ _
  | .diagRun _ _ | .regionWrite _ _ _ _ | .attStart _ _ | .attestationDone | .getInfo | .logRead | .fwWrite _ | .unfence | .sensorRead
  | .mailboxTimeout | .fenceLift _ | .holdupSample _ | .droop | .droopRecovery | .dvfsTick _ | .voltageSettled | .logPageWritten | .ledgerDequeue
  | .ledgerScan _ _ | .ostlerWdt | .lock _ _ _ | .errinjWrite _ _ _ | .irqPendWrite _ _ _ _ | .irqEnWrite _ _ _ | .irqForce _ _ _
  | .irqRouteWrite _ _ _ | .tensorRailsUp | .hostRelease | .vfFunctionLevelReset _ | .pfFunctionLevelReset | .busStuck _ => true
  | _ => false

/-- The function and the address of a row that is a write by a host function (R446, R460): the register its effect hangs on. A plain register write
counts where it is one of this module's registers in 32 bits; rows that carry an event of the same cycle, where they carry none. -/
def Instr.hostWrite : Instr → Option (Func × Nat)
  | .registerWrite f a w _ h => if w = 4 ∧ a % 4 = 0 ∧ inWindow a = false ∧ h = 0 then some (f, a) else none
  | .recInv f e _ => some (f, rga (engPage e.val) 0x40)
  | .partWrite f e t _ => some (f, partReg e.val t.val)
  | .resWrite f e t k _ => some (f, resReg e.val t.val k.val)
  | .ceClr f e _ => some (f, rga (engPage e.val + 3) 0x1C4)
  | .repairWrite f e i _ => some (f, rga (engPage e.val + 4) (0x40 + 4 * i.val))
  | .tlbInv f e _ => some (f, hstReg e.val 0x40)
  | .invTn f e _ => some (f, hstReg e.val 0x40)
  | .retrain f p _ => some (f, flReg p.val 0x40)
  | .masterWrite f _ => some (f, fdReg 0x210)
  | .lbCfgWrite f k _ => some (f, lbCfg k.val)
  | .abort f _ => some (f, fdReg 0x490)
  | .tallyConfigWrite f b p _ _ => some (f, if p then barPartReg b else barCfgReg b)
  | .enable f t _ => some (f, rga (tnPage t.val) 0x40)
  | .restart f t _ => some (f, rga (tnPage t.val) 0x40)
  | .release f t _ => some (f, rga (tnPage t.val) 0x40)
  | .qTailWrite f t q _ => some (f, qReg (4 * t.val + q.val) 0xC)
  | .qCfgWrite f t q _ => some (f, qReg (4 * t.val + q.val) 8)
  | .tnResWrite f t _ => some (f, rga (tnPage t.val) 0x4C)
  | .close f t _ => some (f, manReg t.val 0x1A8)
  | .manAck f t _ => some (f, manReg t.val 0x1A8)
  | .pgEnable f g _ => some (f, pgReg g.val 0)
  | .kWrite f g _ => some (f, pgReg g.val 4)
  | .pgAdj f g _ => some (f, pgReg g.val 0x10)
  | .wbSelWrite f _ => some (f, wbReg 0x40)
  | .commit f _ => some (f, wbReg 0x58)
  | .addendWrite f _ => some (f, mpReg 0x110)
  | .set f _ => some (f, mpReg 0x124)
  | .step f _ => some (f, mpReg 0x124)
  | .axEnable f a _ => some (f, axReg a.val 0x40)
  | .disable f a _ => some (f, axReg a.val 0x40)
  | .lawCommit f a _ => some (f, axReg a.val 0x40)
  | .safeReq f g _ => some (f, alReg g.val 0x44)
  | .groupReset f g _ => some (f, alReg g.val 0x44)
  | .thSet f c _ => some (f, thReg c.val 0xE0)
  | .srcEnable f s _ => some (f, srcReg s.val 0)
  | .gleanStart f _ => some (f, glReg 0x68)
  | .queueRestart f p tx q _ => some (f, if tx then txqReg p.val q.val 0 else rxqReg p.val q.val 0)
  | .blkEnable f p _ _ => some (f, rga p oCtl)
  | .canInit f n _ => some (f, cfReg n.val 0x40)
  | .canNormal f n _ => some (f, cfReg n.val 0x40)
  | .canListen f n _ => some (f, cfReg n.val 0x40)
  | .canSleep f n _ => some (f, cfReg n.val 0x40)
  | .txbReq f n _ => some (f, cfReg n.val 0x50)
  | .txbAbort f n _ => some (f, cfReg n.val 0x50)
  | .txfPush f n _ => some (f, cfReg n.val 0x50)
  | .txfFlush f n _ => some (f, cfReg n.val 0x50)
  | .rxPop f n _ none => some (f, cfReg n.val 0x50)
  | .recover f n _ => some (f, cfReg n.val 0x50)
  | .i2cStart f n _ _ => some (f, icReg n.val 0x48)
  | .i2cUnfence f n _ _ => some (f, icReg n.val 0x48)
  | .stopClr f i _ => some (f, rga 8 (0x10C + 16 * i.val))
  | .diagRun f _ => some (f, rga 8 0x40)
  | .regionWrite f e r _ => some (f, regCfg e.val + 4 * r.val)
  | .attStart f _ => some (f, rga 9 0x128)
  | .faultAck f p _ [] => some (f, rga p oCtl)
  | .softReset f p _ => some (f, rga p oCtl)
  | .moduleReset f _ => some (f, rga 0 oCtl)
  | .lock f p _ => some (f, rga p oLock)
  | .errinjWrite f p _ => some (f, rga p oInj)
  | .irqEnWrite f p _ => some (f, rga p oEn)
  | .irqForce f p _ => some (f, rga p oForce)
  | .irqRouteWrite f i _ => some (f, rga 0 (0x400 + 4 * i.val))
  | _ => none

end Sys2Proof
end

