-- ==== Sys2Proof/Certificates/Slice0/Obligations.lean ====
section
/-!
DEFINITION. The statements for the provers. Each says what commands of this block do, by the rules of the spec; a clause that rests on a choice of the
model names the entry of the assumption log.
-/
open Sys2Proof Sys2Proof.Machine

/-- Writes of the common header, FAULT_ACK and IRQ_ROUTE. LOCK, IRQ_EN and IRQ_PEND written by a function that may write them, and IRQ_FORCE and
ERRINJ written over the management path, change exactly the register named (and the messages sent, and the log for ERRINJ); from any other function
IRQ_FORCE and ERRINJ change nothing. FAULT_ACK clears FAULT_CODE and FAULT_INFO (and CMD_REFUSED, as every BLK_CTL write does), and a fault that
arrives in the same cycle is recorded after the clear (model choice, log 16), of two that arrive together the one of the lower code, the other
counting in EXTRA. A valid IRQ_ROUTE write stores its fields; an invalid one sets ROUTE_ERR with the source. Spec: 15_register_map.md, The common
header, 15_register_map.md, Interrupt routing; model choices: log 16. -/
def Obligations.HeaderWrites : Prop :=
  (∀ (s : State) (f : Func) (page : Nat) (v : Word), isVf f = false → usesIrq page = true →
     (s.mayWrite f (rga page oLock) = true → tbit v 0 = true → exec (.lock f page v) s = .next (s.wb (rga page oLock) 0 true)) ∧
     (s.mayWrite f (rga page oEn) = true →
       ∃ m, exec (.irqEnWrite f page v) s = .next { s.wr (rga page oEn) v with msix := m }) ∧
     (∀ arriving : Word, s.mayWrite f (rga page oPend) = true →
       ∃ m, exec (.irqPendWrite f page v arriving) s
         = .next { s.wr (rga page oRaw) ((s.rd (rga page oRaw) &&& ~~~ v) ||| arriving) with msix := m })) ∧
  (∀ (s : State) (page : Nat) (v : Word), usesIrq page = true →
     (∃ m, exec (.irqForce .mgmt page v) s = .next { s.wr (rga page oRaw) (s.rd (rga page oRaw) ||| v) with msix := m }) ∧
     (∃ g, exec (.errinjWrite .mgmt page v) s = .next { s.wr (rga page oInj) (v &&& 0x00FFFFFF) with log := g }) ∧
     (∀ f : Func, f ≠ .mgmt → exec (.irqForce f page v) s = .next s ∧ exec (.errinjWrite f page v) s = .next s)) ∧
  (∀ (s : State) (f : Func) (page : Nat) (i : PageId) (v : Word), s.canonical = true → isVf f = false → usesIrq page = true →
     pageId page = some i → hasEnable i.block = false → s.mayWrite f (rga page oCtl) = true → tbit v 3 = true → tbit v 1 = false →
     exec (.faultAck f page v []) s = .next (((s.wb (rga page oStat) 12 false).wr (rga page oCode) 0).wr (rga page oInfo) 0) ∧
     (∀ (c : Nat) (info : Word), 0 < c → c < 65536 →
       ∃ t, exec (.faultAck f page v [(c, info)]) s = .next t ∧ t.rf (rga page oCode) 15 0 = c ∧ t.rd (rga page oInfo) = info ∧
         OnlyRegsMsix s t) ∧
     (∀ (c d : Nat) (x y : Word) l, 0 < c → c < d → d < 65536 → l = [(c, x), (d, y)] ∨ l = [(d, y), (c, x)] →
       ∃ t, exec (.faultAck f page v l) s = .next t ∧ t.rf (rga page oCode) 15 0 = c ∧ t.rd (rga page oInfo) = x ∧ t.rf (rga page oCode) 31 24 = 1 ∧
         OnlyRegsMsix s t)) ∧
  (∀ (s : State) (f : Func) (i : Fin 256) (p : Nat) (v : Word), srcPage i.val = some p → s.mayWrite f (rga 0 (0x400 + 4 * i.val)) = true →
     (fld v 27 24 < 8 ∧ fld v 21 16 < 6 ∨ 8 ≤ i.val ∧ i.val ≤ 15 ∧ fld v 27 24 ≠ 15 →
       exec (.irqRouteWrite f i v) s = .next (s.wr (rga 0 0x58) (w32 (2 ^ 31 + i.val)))) ∧
     (¬(fld v 27 24 < 8 ∧ fld v 21 16 < 6) → ¬(8 ≤ i.val ∧ i.val ≤ 15 ∧ fld v 27 24 ≠ 15) →
       ∃ m, exec (.irqRouteWrite f i v) s = .next { s.wr (rga 0 (0x400 + 4 * i.val))
         ((s.rd (rga 0 (0x400 + 4 * i.val)) &&& ~~~ w32 0x8F3F0000) ||| (v &&& w32 0x8F3F0000)) with msix := m }))

/-- SOFT_RESET, the module reset and ENABLE through BLK_CTL. SOFT_RESET of a tensor-side unit starts its fence; of a control-side unit that may be
reset it resets the unit; of one that may not it sets CMD_REFUSED, and so does a module reset while a unit works unless the management path writes it.
Setting ENABLE of an Ethernet page that is off sets that bit. Spec: 15_register_map.md, The common header, 16_boot_electrical.md, Reset levels,
14_ostler_ledger_recovery.md, Fence and reclaim; model choices: logs 29, 44. -/
def Obligations.ResetWrites : Prop :=
  ∀ (s : State) (f : Func) (v : Word), isVf f = false →
    (∀ page p per i, s.mayWrite f (rga page oCtl) = true → pageId page = some i → instPages page = some (p, per, i) → hasEnable i.block = false →
      tbit v 3 = false → tbit v 1 = true →
      (i.block.tensorSide = true → (s.wb (rga page oStat) 12 false).tensorOff = false →
        exec (.softReset f page v) s = .next ((s.wb (rga page oStat) 12 false).unitFence page (Config.eventCode evFence) false)) ∧
      (i.block.tensorSide = false → i.block ≠ .top → (s.wb (rga page oStat) 12 false).resetAllowed i.block i.inst = true →
        exec (.softReset f page v) s = .next ((s.wb (rga page oStat) 12 false).controlReset p per i)) ∧
      (i.block.tensorSide = false → i.block ≠ .top → (s.wb (rga page oStat) 12 false).resetAllowed i.block i.inst = false →
        exec (.softReset f page v) s = .next ((s.wb (rga page oStat) 12 false).wb (rga page oStat) 12 true))) ∧
    (s.mayWrite f (rga 0 oCtl) = true → tbit v 3 = false → tbit v 1 = true →
      (isMgmt f = true ∨ (s.wb (rga 0 oStat) 12 false).allIdle = true →
        exec (.moduleReset f v) s = .next (s.wb (rga 0 oStat) 12 false).moduleReset) ∧
      (isMgmt f = false → (s.wb (rga 0 oStat) 12 false).allIdle = false →
        exec (.moduleReset f v) s = .next ((s.wb (rga 0 oStat) 12 false).wb (rga 0 oStat) 12 true))) ∧
    (∀ n : Fin 4, s.canonical = true → s.mayWrite f (rga (0x310 + n.val) oCtl) = true → s.rb (rga (0x310 + n.val) oCtl) 0 = false → v = 1 → ∀ sda,
      exec (.blkEnable f (0x310 + n.val) v sda) s
        = .next ((s.wb (rga (0x310 + n.val) oStat) 12 false).wb (rga (0x310 + n.val) oCtl) 0 true))

/-- Plain register writes and reads: width, alignment, access codes, the latch of 64-bit pairs. A write whose width is not 4 bytes or whose address is
not aligned changes nothing, and such a read returns zero; so do a write and a read that their function may not perform. A permitted write of any
register of a page carries out the rule of its register, and the bits that hardware sets in the same cycle win over a clear; one of a Porter register
stores the writable bits, clears the bits written 1 among W1C, and changes no other register and nothing else. A permitted read of any register
returns the value it shows; that of the low word of a 64-bit pair latches the high word, and the next read of the high word returns it once. Spec:
R10. -/
def Obligations.RegisterAccess : Prop :=
  ∀ (s : State) (f : Func) (a : Nat) (v : Word),
    (∀ width, width ≠ 4 ∨ a % 4 ≠ 0 →
      exec (.registerWrite f a width v 0) s = .next s ∧ (∀ hw, exec (.registerWrite f a width v hw) s = .next (s.hwSet a hw)) ∧
      exec (.lowWordRead f a width) s = .next { s with rdata := 0 }) ∧
    (a % 4 = 0 → a < 0x01000000 →
      (s.mayWrite f a = false → exec (.registerWrite f a 4 v 0) s = .next s) ∧
      (s.sees f a = false → exec (.lowWordRead f a 4) s = .next { s with rdata := 0 })) ∧
    (∀ (i : PageId) (hw : Word), a % 4 = 0 → a < 0x01000000 → pageId (a / 4096) = some i →
      (s.mayWrite f a = true → 0x40 ≤ a % 4096 → exec (.registerWrite f a 4 v hw) s = .next ((s.wrBody f i a (a % 4096) v).hwSet a hw)) ∧
      (s.mayWrite f a = true → a % 4096 < 0x40 → exec (.registerWrite f a 4 v hw) s = .next ((s.wrHeader f (a / 4096) (a % 4096) v).hwSet a hw)) ∧
      (s.sees f a = true → ¬(i.block = .milepost ∧ (a % 4096 = 0x100 ∨ 0x150 ≤ a % 4096 ∧ a % 4096 < 0x1C0 ∧ a % 4096 % 0x20 = 0x10)) →
        ¬(i.block = .can ∧ 0x300 ≤ a % 4096 ∧ a % 4096 < 0x350) →
        (pairLow i (a % 4096) = true → exec (.lowWordRead f a 4) s
          = .next { s with
                    rdata := s.shown f a
                    latch := mapSet (fun _ => none) s.latch (a + 4) (some (s.view (a + 4))) }) ∧
        (pairLow i (a % 4096) = false → a % 4096 < 4 ∨ pairLow i (a % 4096 - 4) = false →
          exec (.lowWordRead f a 4) s = .next { s with rdata := s.shown f a }))) ∧
    (∀ (i : PageId) (r : RegRow) (m : Word), a % 4 = 0 → a < 0x01000000 → pageId (a / 4096) = some i → 0x40 ≤ a % 4096 →
      (i.block = .porter → regRow a = some r → s.mayWrite f a = true → s.canonical = true → m = s.writable f a r →
        ∃ t, exec (.registerWrite f a 4 v 0) s = .next t ∧ OnlyRegs s t ∧
          t.rd a = (((s.rd a &&& ~~~m) ||| (v &&& m)) &&& ~~~(v &&& w32 r.w1c)) ∧ ∀ b, b ≠ a → t.rd b = s.rd b) ∧
      (i.block = .drover → (a % 4096 = 0x84 ∨ a % 4096 = 0xA4) → s.sees f a = true →
        exec (.lowWordRead f a 4) s
          = .next { s with
                    rdata := s.shown f a
                    latch := mapSet (fun _ => none) s.latch (a + 4) (some (s.view (a + 4))) } ∧
        ∀ w, mapGet (fun _ => none) s.latch (a + 4) = some w →
          exec (.lowWordRead f (a + 4) 4) s = .next { s with
                    rdata := s.filtered f (a + 4) w
                    latch := mapSet (fun _ => none) s.latch (a + 4) none }))

/-- Reads that change state: TS_NS, TXTS_INFO, the probe output, RXH_ID. A read of TS_NS captures the seconds; of TXTS_INFO takes the oldest transmit
stamp and shows it; of PR_OUT_LO latches PR_OUT_HI; of RXH_ID returns the head of the receive FIFO and locks it, or a free value while the FIFO is
empty (log 38). Spec: 09_phase_timebase.md, The PTP clock, 09_phase_timebase.md, Timestamps and the transparent clock, 11_perception_inputs.md,
Augmentation, 12_ethernet_can_i2c.md, CAN FD; model choices: logs 1, 38. -/
def Obligations.ReadsWithEffects : Prop :=
  ∀ (s : State) (f : Func), isVf f = false →
    (s.mayRead f (mpReg 0x100) = true →
      exec (.tsNsRead f) s = .next { (s.wr (mpReg 0x104) (w32 s.clock.sec)).wr (mpReg 0x108) (w32 (s.clock.sec / 2 ^ 32 % 65536)) with
        rdata := w32 s.clock.ns }) ∧
    (∀ (port : Fin 4) x r, s.mayRead f (mpReg (0x150 + 0x20 * port.val)) = true → mapGet (fun _ => []) s.mile.stamps port.val = x :: r →
      ∃ t, exec (.txtsInfoRead f port) s = .next t ∧ t.mile.stamps = mapSet (fun _ => []) s.mile.stamps port.val r ∧ tbit t.rdata 31 = true ∧
        fld t.rdata 27 24 = x.msg % 16 ∧ fld t.rdata 15 0 = x.seq % 65536 ∧
        (s.canonical = true → t.rd (mpReg (0x154 + 0x20 * port.val)) = w32 x.ns ∧ t.rd (mpReg (0x158 + 0x20 * port.val)) = w32 x.sec)) ∧
    (s.sees f (rga 0x530 0x110) = true →
      exec (.probeRead f false) s
        = .next { s with
                  rdata := s.shown f (rga 0x530 0x110)
                  latch := mapSet (fun _ => none) s.latch (rga 0x530 0x114) (some (s.view (rga 0x530 0x114))) }) ∧
    (∀ (n : Fin 8) r l, s.sees f (cfReg n.val 0x300) = true → (s.cf n.val).rx = r :: l →
      exec (.rxhIdRead f n) s
        = .next { s.lockHead n.val with
                  rdata := (headWords r).getD 0 0 }) ∧
    (∀ n : Fin 8, s.sees f (cfReg n.val 0x300) = true → (s.cf n.val).rx = [] →
      exec (.rxhIdRead f n) s
        = .next { s with
                  fresh := s.fresh + 1
                  rdata := Config.freeWord s.fresh })

/-- Register proxies: the access, the packets on both sides, the timeout. An access in the proxy window to a module outside the Field fails with cause
2, and one to a module of the Field is queued. A PROXY_READ or PROXY_WRITE packet performs the access and answers it; the answer ends the access it
belongs to; a timeout fails the oldest access to that module with cause 1 (model choice which one, log 18). Spec: 06_field_scale.md, Proxy register
access, 15_register_map.md, The proxy window; model choices: log 18. -/
def Obligations.ProxyRows : Prop :=
  ∀ (s : State),
    (∀ a v, a % 4 = 0 → inWindow a = true → s.linkUp = true → s.ready = true → proxyField a ≠ s.me →
      (s.fieldSize ≤ proxyField a → exec (.proxyAccess .pf a none) s = .next { s.pxErr 2 (proxyField a) a with rdata := 0xFFFFFFFF }) ∧
      (proxyField a < s.fieldSize → exec (.proxyAccess .pf a v) s = .next
        ({ s with field := { s.field with
            nextTag := s.field.nextTag + 1
            proxies := s.field.proxies ++ [⟨s.field.nextTag % 65536, proxyField a, s.proxyRemote a, a, v, false, 0⟩] } } : State).sendProxies)) ∧
    (∀ (p : Fin 8) (vc : Fin 4) k, s.rxFor p.val vc.val .proxyRead = some k → k.addr % 4 = 0 →
      exec (.proxyRead p vc) s = .next (({ (s.rxPop p.val vc.val).localRead .px k.addr with rdata := s.rdata } : State).answer k .proxyReadData k.addr
        (natLe 4 ((s.rxPop p.val vc.val).localRead .px k.addr).rdata.toNat))) ∧
    (∀ (p : Fin 8) (vc : Fin 4) k, s.rxFor p.val vc.val .proxyWrite = some k → k.addr % 4 = 0 →
      exec (.proxyWrite p vc) s = .next (((s.rxPop p.val vc.val).localWrite .px k.addr (w32 (leNat k.data))).answer k .proxyWriteAck k.addr [])) ∧
    (∀ (p : Fin 8) (vc : Fin 4) k x, s.rxFor p.val vc.val .proxyReadData = some k → (s.rxPop p.val vc.val).proxyFor k = some x →
      exec (.proxyReadData p vc) s = .next (({ s.rxPop p.val vc.val with rdata := w32 (leNat k.data) } : State).endProxy x)) ∧
    (∀ (p : Fin 8) (vc : Fin 4) k x, s.rxFor p.val vc.val .proxyWriteAck = some k → (s.rxPop p.val vc.val).proxyFor k = some x →
      exec (.proxyWriteAcknowledgement p vc) s = .next ((s.rxPop p.val vc.val).endProxy x)) ∧
    (∀ (m : Fin 64) x, s.field.proxies.find? (fun x => x.dest == m.val) = some x → exec (.proxyTimeout m) s = .next (s.failProxy x 1))

/-- MATMUL and CONV run to their end. A picked MATMUL, dense, diagonal or frequency-mode CONV command that passes every check and meets no fault
writes its results and is done. Spec: 04_operators.md, MATMUL, 04_operators.md, CONV, 03_sheaf_engines.md, The command descriptor; model choices: logs
11, 22, 23. -/
def Obligations.ArrayCommands : Prop :=
  ∀ (s : State) (e : Fin 6) (c : Cmd) (r : List Word),
    (c.op = 1 → s.Accepts e.val c r (matmulPlan c r) → (s.matmulBody e.val c r).Clean →
      exec (.matmul e .none) s = .next ((s.matmulBody e.val c r).ran e.val c)) ∧
    (c.op = 2 → c.convMode = 0 → s.Accepts e.val c r (convPlan c r) → (s.convBody e.val c r).Clean →
      exec (.convDense e .none) s = .next ((s.convBody e.val c r).ran e.val c)) ∧
    (c.op = 2 → c.convMode = 1 → s.Accepts e.val c r (convPlan c r) → (s.convBody e.val c r).Clean →
      exec (.convDiagonal e .none) s = .next ((s.convBody e.val c r).ran e.val c)) ∧
    (c.op = 2 → c.convMode = 2 → s.Accepts e.val c r (convPlan c r) → (s.freqBody e.val c r).Clean →
      exec (.convFrequency e .none) s = .next ((s.freqBody e.val c r).ran e.val c))

/-- ATTN and RNN run to their end. A picked ATTN command of each mode, or RNN_STEP command, that passes every check and meets no fault writes its
results and is done. Spec: 05_attention_kv.md, The ATTN command, 05_attention_kv.md, Backward recompute, 04_operators.md, RNN_STEP; model choices: log
24. -/
def Obligations.AttentionAndRecurrence : Prop :=
  ∀ (s : State) (e : Fin 6) (c : Cmd) (r : List Word),
    (c.op = 3 → s.attnMode e.val c = 0 → s.Accepts e.val c r (s.attnPlan e.val c r) → (s.attnBody e.val .none c r).Clean →
      exec (.attnForwardDense e .none) s = .next ((s.attnBody e.val .none c r).ran e.val c)) ∧
    (c.op = 3 → s.attnMode e.val c = 1 → s.Accepts e.val c r (s.attnPlan e.val c r) → (s.attnBody e.val .none c r).Clean →
      exec (.attnForwardRetrieval e .none) s = .next ((s.attnBody e.val .none c r).ran e.val c)) ∧
    (c.op = 3 → s.attnMode e.val c = 2 → s.Accepts e.val c r (s.attnPlan e.val c r) → (s.attnBody e.val .none c r).Clean →
      exec (.attnBackward e .none) s = .next ((s.attnBody e.val .none c r).ran e.val c)) ∧
    (c.op = 4 → s.Accepts e.val c r (rnnPlan c r) → (s.rnnBody e.val c r).Clean →
      exec (.rnnStep e .none) s = .next ((s.rnnBody e.val c r).ran e.val c))

/-- VECTOR operations and DIGEST run to their end. A picked VECTOR command of each operation, or DIGEST command, that passes every check and meets no
fault writes its results and is done. Spec: 04_operators.md, VECTOR, 04_operators.md, DIGEST, 02_arithmetic.md, Vector-unit arithmetic,
02_arithmetic.md, Layer digests; model choices: logs 22, 23. -/
def Obligations.VectorCommands : Prop :=
  ∀ (s : State) (e : Fin 6) (c : Cmd) (r : List Word),
    (c.op = 5 → c.vop = 1 → s.Accepts e.val c r (vectorPlan c r) → (s.mapBody e.val c r).Clean →
      exec (.vectorMap e .none) s = .next ((s.mapBody e.val c r).ran e.val c)) ∧
    (c.op = 5 → c.vop = 2 → s.Accepts e.val c r (vectorPlan c r) → (s.rowsBody e.val c r (fun _ l => sumFp32 c l)).Clean →
      exec (.sumFp32 e .none) s = .next ((s.rowsBody e.val c r (fun _ l => sumFp32 c l)).ran e.val c)) ∧
    (c.op = 5 → c.vop = 3 → s.Accepts e.val c r (vectorPlan c r) → (s.rowsBody e.val c r (fun _ l => sumGran c l)).Clean →
      exec (.sumGranary e .none) s = .next ((s.rowsBody e.val c r (fun _ l => sumGran c l)).ran e.val c)) ∧
    (c.op = 5 → c.vop = 4 → s.Accepts e.val c r (vectorPlan c r) → (s.rowsBody e.val c r (fun _ l => extreme c.inFmt false l)).Clean →
      exec (.vectorMax e .none) s = .next ((s.rowsBody e.val c r (fun _ l => extreme c.inFmt false l)).ran e.val c)) ∧
    (c.op = 5 → c.vop = 5 → s.Accepts e.val c r (vectorPlan c r) → (s.rowsBody e.val c r (fun _ l => extreme c.inFmt true l)).Clean →
      exec (.vectorMin e .none) s = .next ((s.rowsBody e.val c r (fun _ l => extreme c.inFmt true l)).ran e.val c)) ∧
    (c.op = 5 → c.vop = 6 → s.Accepts e.val c r (poolPlan c r) → (s.poolBody e.val c r (extreme c.inFmt false)).Clean →
      exec (.poolMax e .none) s = .next ((s.poolBody e.val c r (extreme c.inFmt false)).ran e.val c)) ∧
    (c.op = 5 → c.vop = 7 → s.Accepts e.val c r (poolPlan c r) → (s.poolBody e.val c r (poolAvg c)).Clean →
      exec (.poolAvg e .none) s = .next ((s.poolBody e.val c r (poolAvg c)).ran e.val c)) ∧
    (c.op = 0xA → s.Accepts e.val c r (digestPlan c r) → (s.digestBody e.val c r).Clean →
      exec (.digest e .none) s = .next ((s.digestBody e.val c r).ran e.val c))

/-- Engine registers, the recipe cache and the HOSTEL buffer. REC_INV empties the recipe cache of its engine alone; PART and RES writes store unless
the tenant has work there, which sets PART_ERR; CE_CLR zeroes every CE counter of the engine; a REPAIR write is queued for the Ledger or refused;
TLB_INV and INV_TN drop translations (of one tenant for INV_TN); the end of a clear of scratchpad ranges forgets them; a recipe fetch fills the cache.
Spec: 03_sheaf_engines.md, Engine registers, 03_sheaf_engines.md, Partitions, 03_sheaf_engines.md, Resident regions, 03_sheaf_engines.md, Row repair,
03_sheaf_engines.md, Recipes, 05_attention_kv.md, The Hostel walker and its TLB; model choices: logs 22, 42. -/
def Obligations.EngineRegisters : Prop :=
  (∀ (s : State) (f : Func) (e : Fin 6) (v : Word), isVf f = false →
     (s.mayWrite f (rga (engPage e.val) 0x40) = true → tbit v 1 = true →
       ∃ t, exec (.recInv f e v) s = .next t ∧ (t.engine e.val).recipes = [] ∧ t = { s with
                 regs := t.regs
                 eng := t.eng } ∧
         ∀ e', e' ≠ e.val → t.engine e' = s.engine e') ∧
     (∀ t : Fin 8, s.mayWrite f (partReg e.val t.val) = true → s.workOn e.val t.val = false → tbit v 31 = false →
       exec (.partWrite f e t v) s = .next (s.store f (partReg e.val t.val) v 0)) ∧
     (∀ t : Fin 8, s.mayWrite f (partReg e.val t.val) = true → s.workOn e.val t.val = true → tbit v 31 = false →
       exec (.partWrite f e t v) s = .next ((s.wb (rga (engPage e.val + 1) 0x100) 9 true).pf (rga (engPage e.val + 1) 0x100) 5 0 ((0x40 + 4 * t.val) / 4 % 64))) ∧
     (∀ (t : Fin 8) (k : Fin 4), s.mayWrite f (resReg e.val t.val k.val) = true → tbit v 31 = false →
       exec (.resWrite f e t k v) s = .next (s.store f (resReg e.val t.val k.val) v 0)) ∧
     (s.canonical = true → s.mayWrite f (rga (engPage e.val + 3) 0x1C4) = true → tbit v 0 = true →
       ∃ t, exec (.ceClr f e v) s = .next t ∧ (∀ b : Fin 96, t.rd (rga (engPage e.val + 3) (0x40 + 4 * b.val)) = 0) ∧ OnlyRegs s t) ∧
     (∀ i : Fin 128, s.mayWrite f (rga (engPage e.val + 4) (0x40 + 4 * i.val)) = true →
       (s.repairCheck e.val i.val v = 0 → exec (.repairWrite f e i v) s = .next (s.wrRwp (rga (engPage e.val + 4) (0x40 + 4 * i.val)) v)) ∧
       (s.repairCheck e.val i.val v = 1 → exec (.repairWrite f e i v) s = .next (s.wb (rga (engPage e.val + 4) 0x240) 0 true)) ∧
       (96 ≤ fld v 22 16 → exec (.repairWrite f e i v) s = .next (s.wb (rga (engPage e.val + 4) 0x240) 1 true)))) ∧
  (∀ (s : State) (f : Func) (e : Fin 6) (v : Word),
     (s.mayWrite f (hstReg e.val 0x40) = true → isVf f = false → tbit v 0 = true →
       exec (.tlbInv f e v) s = .next ((s.pf (hstReg e.val 0x40) 7 4 (fld v 7 4)).setEngine e.val { s.engine e.val with tlb := [] })) ∧
     (∀ n : Fin 8, s.mayWrite (.vf n) (hstReg e.val 0x40) = true → tbit v 0 = false → tbit v 1 = true → fld v 7 4 = n.val →
       exec (.invTn (.vf n) e v) s = .next ((s.pf (hstReg e.val 0x40) 7 4 n.val).setEngine e.val
         { s.engine e.val with tlb := (s.engine e.val).tlb.filter (fun i => i.tenant != n.val) })) ∧
     ((∀ t : Fin 8, s.tnState t.val ≠ 2) →
       exec (.spadClearDone e) s = .next (s.setEngine e.val { s.engine e.val with clearing := [] }).kick) ∧
     (∀ c, (s.engine e.val).sel = some c → s.baseCheck c = none → fmtOk c = true → s.cached e.val c.owner c.recipe = none →
       c.recipe ≤ s.recipeLimit e.val c.owner → s.regCheck c.owner false (s.recipeAddr e.val c.owner c.recipe) 64 = .ok →
       exec (.recipeCacheFill e .none) s = .next (((s.countMiss e.val).chargeHbm c.owner 64).fillRecipe e.val c)))

/-- A COPY command starts on a Porter or is refused. A well-formed COPY becomes the running command of its Porter, with its list address and owner
shown; one with a reserved bit set in word 5 is refused. Spec: 03_sheaf_engines.md, Porter, 03_sheaf_engines.md, Porter registers; model choices: log
25. -/
def Obligations.CopyStarts : Prop :=
  ∀ (s : State) (p : Fin 16) (c : Cmd), (s.porter p.val).sel = some c → s.baseCheck c = none →
    (c.f 5 5 0 = 0 → c.f 7 31 20 = 0 → (∀ k : Fin 8, c.w (8 + k.val) = 0) → c.descCount ≠ 0 → s.remoteTree c = false →
      exec (.copy p) s = .next (((s.setPorter p.val { s.porter p.val with
          sel := none
          run := some ⟨c, s.clock.tick, 0, false⟩
          index := 0
          lastRemote := none }).wr (pdReg p.val 0x40) (w32 (c.owner * 2 ^ 24))).wr64 (pdReg p.val 0x48) c.listAddr)) ∧
    (c.f 5 5 0 ≠ 0 → exec (.copy p) s
      = .next ((s.setPorter p.val { s.porter p.val with sel := none }).porterFault p.val 0x0302 (porInfo 0xFFFF c.seq) c.listAddr c))

/-- A one-dimensional HBM-to-HBM descriptor copies exactly its bytes. The bytes at the destination are those that stood at the source, every other
byte of HBM and every scratchpad byte is unchanged, and the Porter goes on to the next descriptor or is done. Spec: 03_sheaf_engines.md, Porter; model
choices: log 25. -/
def Obligations.DescriptorMovesBytes : Prop :=
  ∀ (s : State) (p : Fin 16) (r : Run) (d : Desc) (w : List Nat) (addr : Nat), s.canonical = true →
    (s.porter p.val).run = some r → r.done = false → addr = r.cmd.listAddr + 64 * (s.porter p.val).index →
    w = wordsAt (s.hbmRead addr 64) → d = toDesc w → descOk s.me s.fieldSize w d = true → d.dims = 1 → d.srcSpace = 0 → d.dstSpace = 0 →
    s.regCheck r.cmd.owner false addr 64 = .ok → s.regCheck r.cmd.owner false d.src d.size = .ok → s.regCheck r.cmd.owner true d.dst d.size = .ok →
    ∃ t, exec (.porterDescriptor p .none) s = .next t ∧
      (∀ k, k < d.size → t.hbmByte (d.dst + k) = s.hbmByte (d.src + k)) ∧
      (∀ a, a < d.dst ∨ d.dst + d.size ≤ a → t.hbmByte a = s.hbmByte a) ∧ t.spad = s.spad ∧
      (t.porter p.val).index = (s.porter p.val).index + 1 ∧
      (t.porter p.val).run = some { r with done := (s.porter p.val).index + 1 == r.cmd.descCount }

/-- ARRIVE, WAIT and FENCE at the head of a queue. ARRIVE sends its arrival; WAIT ends at once when the generation has passed, registers when it is
still to come and is refused when it is neither; a FENCE takes its place in its queue, and one that names no engine is refused. Spec:
07_synchronisation.md, Arrive and wait in commands, 03_sheaf_engines.md, The command descriptor, 08_scheduling_tenants.md, Queues; model choices: logs
20, 28. -/
def Obligations.SchedulerCommands : Prop :=
  ∀ (s : State) (q : Fin 32) (c : Cmd), s.headReady q.val = some c → s.baseCheck c = none →
    (∀ b a, c.op = 7 → (s.queue q.val).flight = [] → s.namedBar c = some b →
      a = (⟨b, c.part, some c.owner, some (c.f 5 31 28, c.f 5 15 0), c.seq.toNat % 1024, 0x10⟩ : Arrival) →
      (s.judge a ≠ .denied → s.judge a ≠ .invalid → exec (.arrive q) s = .next ((s.endHead q.val c).sendArrival a).advance) ∧
      (s.judge a = .denied → exec (.arrive q) s = .next (s.tallyRefuse b 0x0705 c)) ∧
      (s.judge a = .invalid → exec (.arrive q) s = .next (s.tallyRefuse b 0x0704 c))) ∧
    (∀ b, c.op = 8 → s.namedBar c = some b → s.bOwner b = c.owner → s.bValid b = true → c.part ≠ 0 → s.bMode b ≠ 2 →
      (s.genVerdict b (c.f 5 15 0) = .now → exec (.wait q) s = .next (s.endWait q.val c).advance) ∧
      (s.genVerdict b (c.f 5 15 0) = .later → exec (.wait q) s = .next (s.register q.val ⟨.gen b (c.f 5 15 0), c, false,
        if c.f 6 15 0 = 0 then s.bCfg b 15 0 else c.f 6 15 0⟩)) ∧
      (s.genVerdict b (c.f 5 15 0) = .invalid → exec (.wait q) s = .next (s.tallyRefuse b 0x0704 c))) ∧
    (c.op = 0xB → c.f 5 2 0 < 6 → c.f 5 29 3 = 0 → (∀ k : Fin 10, c.w (6 + k.val) = 0) → tbit (c.w 5) 31 = false →
      exec (.fence q) s = .next (s.setQueue q.val { s.queue q.val with
        fence := some c
        fenceFor := []
        fetched := (s.queue q.val).fetched.drop 1
        waitMet := false })) ∧
    (c.op = 0xB → 6 ≤ c.f 5 2 0 → exec (.fence q) s = .next (s.refuse c 7 (tnPage c.owner, 0x0806, inkInfo c)))

/-- Queues: registers, fetch, launch, fences and completions. A tail write stores a valid tail and refuses an invalid one; a configuration write is
refused while the queue holds work; a fetch reads the 64 bytes at the head and advances it; a launch count that the Field counter has reached lets its
command go, or refuses it while ACQUIRING (model choice, log 51); a fence with nothing left to wait for retires; a finished engine command writes its
record, is charged and retires. Spec: 08_scheduling_tenants.md, Queues, 08_scheduling_tenants.md, Choosing the next command, 08_scheduling_tenants.md,
Innkeeper registers; model choices: log 20. -/
def Obligations.QueueProgress : Prop :=
  (∀ (s : State),
     (∀ (q : Fin 32) c, (s.queue q.val).fence = some c → (s.queue q.val).flight = [] → (s.queue q.val).fenceFor = [] → tbit (c.w 5) 30 = false →
       c.arrive = false → exec (.fenceCompletion q) s
         = .next ((((s.writeRecord c 0 0 7).setQueue q.val { (s.writeRecord c 0 0 7).queue q.val with
             fence := none
             fenceFor := [] }).retire q.val c.seq).deadFills c.owner |>.advance)) ∧
     (∀ (q : Fin 32), s.tnState (q.val / 4) = 1 → s.rb (qReg q.val 8) 31 = true → s.qStopped q.val = false →
       s.rd (qReg q.val 0xC) = s.rd (qReg q.val 0x10) + 1 →
       s.regCheck (q.val / 4) false (s.rd64 (qReg q.val 0) + 64 * ((s.rd (qReg q.val 0x10)).toNat % 2 ^ s.rf (qReg q.val 8) 12 8)) 64 = .ok →
       exec (.queueFetch q .none) s = .next ((s.setQueue q.val { s.queue q.val with fetched := (s.queue q.val).fetched ++
         [⟨q.val, s.rd (qReg q.val 0x10), (List.range 16).map (fun i => w32 (leAt (s.hbmRead
           (s.rd64 (qReg q.val 0) + 64 * ((s.rd (qReg q.val 0x10)).toNat % 2 ^ s.rf (qReg q.val 8) 12 8)) 64) (4 * i) 4))⟩] }).wr (qReg q.val 0x10)
           (s.rd (qReg q.val 0x10) + 1)).advance) ∧
     (∀ (q : Fin 32) w n, (s.queue q.val).wait = some w → w.on = .count n →
       (n ≤ s.now → s.fcState ≠ 0 → exec (.launchCount q) s = .next (s.satisfy q.val).advance) ∧
       (n ≤ s.now → s.fcState = 0 → exec (.launchCount q) s = .next (s.refuse w.cmd 7 (tnPage w.cmd.owner, 0x0603, w.cmd.seqLow))) ∧
       (s.now < n → exec (.launchCount q) s = .next s)) ∧
     (∀ (e : Fin 6) r u, (s.engine e.val).run = some r → r.done = true →
       u = (s.writeRecord r.cmd 0 r.astat e.val).charge r.cmd (s.clock.tick - r.start) →
       exec (.commandCompletion (.engine e)) s = .next ((((u.setEngine e.val { u.engine e.val with run := none }).retire r.cmd.q r.cmd.seq).deadFills
         r.cmd.owner).arriveDone r.cmd (engPage e.val)).advance)) ∧
  (∀ (s : State) (f : Func) (t : Fin 8) (q : Fin 4) (v : Word),
     (s.mayWrite f (qReg (4 * t.val + q.val) 0xC) = true → s.tnState t.val ≠ 2 →
       ((v - s.rd (qReg (4 * t.val + q.val) 0x14)).toNat ≤ 2 ^ s.rf (qReg (4 * t.val + q.val) 8) 12 8 ∧ (v - s.rd (qReg (4 * t.val + q.val) 0xC)).toNat < 2 ^ 31 →
         exec (.qTailWrite f t q v) s = .next (s.wr (qReg (4 * t.val + q.val) 0xC) v)) ∧
       (2 ^ s.rf (qReg (4 * t.val + q.val) 8) 12 8 < (v - s.rd (qReg (4 * t.val + q.val) 0x14)).toNat →
         exec (.qTailWrite f t q v) s = .next (s.wb (qReg (4 * t.val + q.val) 0x18) 29 true))) ∧
     (s.mayWrite f (qReg (4 * t.val + q.val) 0xC) = true → s.tnState t.val = 2 → exec (.qTailWrite f t q v) s = .next s) ∧
     (s.mayWrite f (qReg (4 * t.val + q.val) 8) = true →
       (s.rd (qReg (4 * t.val + q.val) 0xC) = s.rd (qReg (4 * t.val + q.val) 0x14) → fld v 26 24 < 6 → fld v 23 16 ≠ 0 → 6 ≤ fld v 12 8 → fld v 12 8 ≤ 21 →
         exec (.qCfgWrite f t q v) s = .next (s.store .pf (qReg (4 * t.val + q.val) 8) v 0)) ∧
       (s.rd (qReg (4 * t.val + q.val) 0xC) ≠ s.rd (qReg (4 * t.val + q.val) 0x14) → s.tnState t.val = 1 →
         exec (.qCfgWrite f t q v) s = .next (s.wb (qReg (4 * t.val + q.val) 0x18) 28 true)) ∧
       (6 ≤ fld v 26 24 → exec (.qCfgWrite f t q v) s = .next (s.wb (qReg (4 * t.val + q.val) 0x18) 28 true))) ∧
     (s.mayWrite f (rga (tnPage t.val) 0x4C) = true → isVf f = false →
       (s.tnState t.val = 0 → exec (.tnResWrite f t v) s = .next (s.store f (rga (tnPage t.val) 0x4C) v 0)) ∧
       (s.tnState t.val ≠ 0 → 256 < s.shareSum t.val 23 16 (fld v 23 16) → exec (.tnResWrite f t v) s = .next (s.wb (rga 0x10 0x80) 0 true))))

/-- Tally barriers: arrivals, releases, timeouts, configuration. A counted arrival opens its place and the last one releases the barrier; a timeout of
an open generation releases it as bad; a wait that times out faults its command; configuration writes store, or set TALLY_ERR on a change that arrives
with an arrival (model choice, log 28). Spec: 07_synchronisation.md, Generations, participants and modes, 07_synchronisation.md, Timeouts and
collisions, 07_synchronisation.md, Tally registers; model choices: log 28. -/
def Obligations.TallyRows : Prop :=
  (∀ (s : State),
     (∀ a r j, s.arrQ = a :: r → a.seq ≠ 0x3FF → s.judge a = .count j →
       exec (.tallyArrival 0) s = .next
         (if popcount 64 ((s.bar a.bar).open_ ||| 2 ^ j) = s.bExpect a.bar then
           (({ s with arrQ := r } : State).setBar a.bar { s.bar a.bar with
             open_ := (s.bar a.bar).open_ ||| 2 ^ j
             units := (s.bar a.bar).units ++ [a.unit] }).releaseOk a.bar
         else ({ s with arrQ := r } : State).setBar a.bar { s.bar a.bar with
             open_ := (s.bar a.bar).open_ ||| 2 ^ j
             units := (s.bar a.bar).units ++ [a.unit] }).advance) ∧
     (∀ b, (s.bar b).due = true → exec (.carryRelease b) s = .next (s.releaseOk b).advance) ∧
     (∀ b, s.bValid b = true → s.bMode b ≠ 2 → (s.bar b).open_ ≠ 0 → (s.bar b).due = false →
       exec (.barrierTimeout b 0) s = .next (({ s with fresh := s.fresh + 1 } : State).releaseBad b 1 (Config.freeWord s.fresh).toNat
         ((Config.freeWord s.fresh).toNat / 4096)).advance) ∧
     (∀ (q : Fin 32) w b g, (s.queue q.val).wait = some w → w.on = .gen b g →
       exec (.tallyTimeout q 0) s = .next ((s.writeRecord w.cmd 0x0701 0 7).tallyFault b 0x0701 w.cmd.part w.cmd.seq.toNat w.cmd.owner))) ∧
  (∀ (s : State) (f : Func) (n : Fin 256) (v : Word), vfOf f = none →
     (s.mayWrite f (barCfgReg (.central n)) = true → s.barBusy (.central n) = false →
       cfgInvalid (v &&& 0xFFBFFFFF) (s.rd (barPartReg (.central n))) = false →
       exec (.tallyConfigWrite f (.central n) false v false) s = .next (s.wr (barCfgReg (.central n)) (v &&& 0xFFBFFFFF))) ∧
     (s.mayWrite f (barPartReg (.central n)) = true → s.barBusy (.central n) = false →
       cfgInvalid (s.rd (barCfgReg (.central n))) (v &&& 0xFFFF0FFF) = false →
       exec (.tallyConfigWrite f (.central n) true v false) s = .next (s.wr (barPartReg (.central n)) (v &&& 0xFFFF0FFF))) ∧
     (s.mayWrite f (barCfgReg (.central n)) = true →
       exec (.tallyConfigWrite f (.central n) false v true) s = .next (s.tallyErr (.central n) 9)))

/-- Tenants and manifests: enable, restart, release, scrub, close, acknowledge, limits and the power window. ENABLE of a FREE tenant whose shares fit
makes it RUNNING; RESTART of a stopped tenant makes it RUNNING again; RELEASE starts a release; the scrub ends in FREE; manifest commands close and
acknowledge steps, a close that waited keeping the time of its trigger; a run over its limit faults its job; the power window samples the module power
and the share of each tenant whose counters run. Spec: 08_scheduling_tenants.md, Tenants and functions, 08_scheduling_tenants.md, Continuous batching
and sample manifests, 08_scheduling_tenants.md, Accounting, 13_safety_security.md, Tenant release and scrub; model choices: logs 13, 21. -/
def Obligations.TenantCommands : Prop :=
  (∀ (s : State) (f : Func) (t : Fin 8), isVf f = false → s.mayWrite f (rga (tnPage t.val) 0x40) = true →
     (s.tnState t.val = 0 → s.safeHold = false → s.diagRequired = false → s.tensorOff = false →
       fld (s.rd (rga (tnPage t.val) 0x4C)) 23 16 ≠ 0 →
       s.shareSum t.val 23 16 (fld (s.rd (rga (tnPage t.val) 0x4C)) 23 16) ≤ 256 → s.shareSum t.val 15 8 (fld (s.rd (rga (tnPage t.val) 0x4C)) 15 8) ≤ 256 →
       exec (.enable f t 1) s = .next (((List.range 4).foldl (fun s i => s.wb (qReg (4 * t.val + i) 0x18) 31 false)
         ((s.setTnState t.val 1).setTenant t.val default)).sendHeldIrqs t.val).advance) ∧
     (s.tnState t.val = 3 → s.safeHold = false → s.diagRequired = false →
       exec (.restart f t 2) s = .next ((List.range 4).foldl (fun s i => s.wb (qReg (4 * t.val + i) 0x18) 31 false)
         ((s.setTnState t.val 1).setTenant t.val { s.tenant t.val with
           step := 0
           acked := 0
           slots := []
           closing := false
           merged := none })).advance) ∧
     (s.tnState t.val = 1 ∨ s.tnState t.val = 3 → exec (.release f t 4) s = .next (s.startRelease t.val)) ∧
     (s.tnState t.val = 4 → s.hasRun t.val = false → s.canonical = true →
       ∃ u, exec (.scrubDone t) s = .next u ∧ u.tnState t.val = 0 ∧ (u.tenant t.val).scrubbing = false)) ∧
  (∀ (s : State) (f : Func) (t : Fin 8),
     (s.mayWrite f (manReg t.val 0x1A8) = true → s.tnState t.val = 1 → s.rb (manReg t.val 0x180) 31 = true → (s.tenant t.val).closing = false →
       exec (.close f t 1) s = .next (s.closeStep t.val 1 s.nowUs)) ∧
     (s.mayWrite f (manReg t.val 0x1A8) = true → (s.tenant t.val).acked < (s.tenant t.val).step →
       exec (.manAck f t 2) s = .next (s.setTenant t.val { s.tenant t.val with acked := (s.tenant t.val).acked + 1 })) ∧
     (∀ trig time, (s.tenant t.val).merged = some (trig, time) →
       exec (.mergedClose t) s = .next ((s.setTenant t.val { s.tenant t.val with
         merged := none
         closing := false }).manTriggerAt t.val trig time)) ∧
     (∀ e : Fin 6, ∀ r, (s.engine e.val).run = some r →
       exec (.runLimit (.engine e)) s = .next (s.jobFault (tnPage r.cmd.owner) 0x0803 (inkInfo r.cmd) r.cmd.owner)) ∧
     (∀ p : Fin 16, ∀ r, (s.porter p.val).run = some r →
       exec (.runLimit (.porter p)) s = .next (s.jobFault (tnPage r.cmd.owner) 0x0803 (inkInfo r.cmd) r.cmd.owner)) ∧
     (∃ u, exec .powerWindowEnd s = .next u ∧ u.clock.winTick = s.clock.tick ∧
       (s.canonical = true → u.rf (rga 6 0x54) 9 0 = s.ost.powerMw / 1000 % 1024 ∧
         (u.tenant t.val).power = if s.accounts t.val then ((s.tenant t.val).energy - (s.tenant t.val).energyAt) / 10 else (s.tenant t.val).power)))

/-- Aborts of a job: from software, from the Field, and their completion count. An ABORT of a running tenant faults its job; an abort word of another
epoch is passed on and aborts the local job; ABORT_DONE is counted by the collector and passed on elsewhere. Spec: 06_field_scale.md, Abort and
restart of a job; model choices: log 26. -/
def Obligations.AbortRows : Prop :=
  ∀ (s : State),
    (∀ f v, s.mayWrite f (fdReg 0x490) = true → tbit v 4 = true → fld v 3 0 < 8 → (s.store f (fdReg 0x490) v 0).tnState (fld v 3 0) = 1 →
      exec (.abort f v) s = .next ((s.store f (fdReg 0x490) v 0).jobFault 0x300 0x0604 (fld v 3 0) (fld v 3 0))) ∧
    (∀ f v, s.mayWrite f (fdReg 0x490) = true → tbit v 4 = false → exec (.abort f v) s = .next (s.store f (fdReg 0x490) v 0)) ∧
    (∀ (p t : Fin 8) (ep : BitVec 4) (o : Fin 64) code u, u = s.takeSb (.abort t ep o code) → s.field.seen = [] → s.epoch t.val ≠ ep.toNat →
      s.tnState t.val = 1 →
      exec (.abortReceipt p t ep o code) s = .next ((({ u with field := { u.field with seen := [(t.val, o.val)] } } : State).flood
        (.abort t ep o code) p.val).localAbort t.val ep.toNat o.val code)) ∧
    (∀ (t : Fin 8) (src : Fin 64), s.collector = s.me → exec (.abortDone t src) s = .next ((s.takeSb (.abortDone t src)).countDone src.val)) ∧
    (∀ (t : Fin 8) (src : Fin 64), s.collector ≠ s.me → exec (.abortDone t src) s
      = .next ((s.takeSb (.abortDone t src)).sbToward (.abortDone t src) s.collector))

/-- Port training, authentication and the epoch exchange. RETRAIN starts training; training that finds the neighbour goes to authentication and one
that finds another module leaves the port down with WIRING_ERR, to try again by itself as no other port does; a partner on the roster brings the port
up with new keys and another does not; lane loss lowers the lane mask; an epoch word from the collector side aborts tenants whose epoch differs. Spec:
06_field_scale.md, Ports, bundles and training, 06_field_scale.md, Seals: link encryption, 06_field_scale.md, Abort and restart of a job; model
choices: log 26. -/
def Obligations.PortTraining : Prop :=
  (∀ (s : State) (p : Fin 8),
     (∀ f v, s.mayWrite f (flReg p.val 0x40) = true → fld v 3 1 = fld (s.ledRead (0x588 + p.val)) 3 1 → tbit v 0 = true →
       exec (.retrain f p v) s = .next (s.portTrain p.val)) ∧
     (∀ partner : BitVec 6, s.canonical = true → s.lstate p.val = 1 → s.neighbour (s.dir p.val) = some partner.toNat →
       ∃ t, exec (.portTrainingDone p 15 partner) s = .next t ∧ t.lstate p.val = 2 ∧ t.rf (flReg p.val 0x44) 31 26 = partner.toNat ∧
         t.rf (flReg p.val 0x44) 19 16 = 15 ∧ OnlyRegsMsix s t) ∧
     (∀ partner : BitVec 6, s.canonical = true → s.lstate p.val = 1 → s.neighbour (s.dir p.val) ≠ some partner.toNat →
       ∃ t, exec (.portTrainingDone p 15 partner) s = .next t ∧ t.lstate p.val = 0 ∧ t.rb (flReg p.val 0x44) 7 = true) ∧
     (s.lstate p.val = 0 → (s.port p.val).why = 1 → exec (.wiringRetry p) s = .next (s.startTrain p.val)) ∧
     ((s.port p.val).why ≠ 1 → exec (.wiringRetry p) s = .next s) ∧
     (∀ key, s.lstate p.val = 2 → s.onRoster key = true →
       exec (.authDone p key true) s = .next ((((s.newSeals p.val).toState p.val 3).sendSb (.epochs (s.rd aEpoch)) p.val).freeDelayMin.sendProxies)) ∧
     (∀ key, s.canonical = true → s.lstate p.val = 2 → s.onRoster key = false →
       ∃ t, exec (.authDone p key true) s = .next t ∧ t.lstate p.val = 0 ∧ t.rb (flReg p.val 0x44) 6 = true) ∧
     (∀ lanes : BitVec 4, s.canonical = true → lanes ≠ 0 → s.lstate p.val ≠ 0 → s.lstate p.val ≠ 3 →
       ∃ t, exec (.laneLockLoss p lanes) s = .next t ∧ t.rf (flReg p.val 0x44) 19 16 = s.rf (flReg p.val 0x44) 19 16 &&& (15 - lanes.toNat))) ∧
  (∀ (s : State) (p : Fin 8) (epochs : Word) (u : State), u = s.takeSb (.epochs epochs) → s.hops (s.rf (rga (falPage p.val) 0x44) 31 26) s.collector < s.hops s.me s.collector →
     exec (.epochExchange p epochs) s = .next ((List.range 8).foldl (fun u t =>
       if fld epochs (4 * t + 3) (4 * t) = u.epoch t then u
       else u.abortWord p.val t (fld epochs (4 * t + 3) (4 * t)) (s.rf (rga (falPage p.val) 0x44) 31 26) ((Config.freeWord s.fresh).toNat % 65536)) u.take.2))

/-- Data and control slots of a link. A good flit in sequence is held, with the acknowledgement and the credits of its LINK field taken; a bad slot
starts a bad run and counts, FEC_CORR counting the corrected bytes; a control slot without words closes the run, and a lost one gives it up; an
expired escape wait moves the head of its channel, while it has no credit, to the escape channel. Spec: 06_field_scale.md, Slots, flits and packets,
06_field_scale.md, Error correction and replay, 06_field_scale.md, Channels and freedom from deadlock; model choices: log 26. -/
def Obligations.LinkSlots : Prop :=
  ∀ (s : State) (p : Fin 8), s.canonical = true → s.portUp p.val = true →
    (∀ (d : DataSlot) (f : Flit) (w : State) (x : Rx), d.crcOk = true → d.hdr ≠ 0 → f = ⟨d.hdr, d.payload.take (nfld d.hdr.toNat 12 0)⟩ →
      w = (s.addSat (flReg p.val 0x4C) (fecCorrected d.fec)).setPort p.val ((s.port p.val).link d.ack.toNat d.freed) → x = (w.port p.val).rxs →
      x.runBad = false → f.seq = x.expect →
      exec (.dataSlot p d) s = .next (w.setRx p.val { x with
        held := x.held ++ [f]
        expect := (x.expect + 1) % 4096 })) ∧
    (∀ (d : DataSlot), d.crcOk = false → (s.port p.val).rxs.runBad = false → (s.port p.val).rxs.replays < 8 →
      exec (.dataSlot p d) s = .next (((s.addSat (flReg p.val 0x4C) (fecCorrected d.fec)).addSat (flReg p.val 0x50) 1).setRx p.val
        (s.port p.val).rxs.bad)) ∧
    (∀ (c : CtlSlot) (w : State), w = (s.addSat (flReg p.val 0x4C) (fecCorrected c.fec)).setRx p.val (s.port p.val).rxs.nextRun →
      (c.crcOk = true → c.words = [] → c.nak = none →
        exec (.controlSlot p c) s = .next ((w.setPort p.val { w.port p.val with
          sbOut := (w.port p.val).sbOut.filter (fun a => !c.sbAcks.contains a.1) }).closeRun p.val c.tagOk)) ∧
      (∀ x, c.crcOk = false → x = (w.port p.val).rxs → x.runBad = false → x.replays < 8 →
        exec (.controlSlot p c) s = .next ((w.addSat (flReg p.val 0x50) 1).setRx p.val { x.bad with runBad := false }))) ∧
    (∀ (vc : Fin 2) t v, (s.port p.val).headOf vc.val = some t → v = (if s.crossesDateline t.pkt.dest then 3 else 2) →
      ((s.port p.val).credit vc.val = 0 → exec (.escWaitExpiry p vc) s = .next (s.setPort p.val { s.port p.val with
        tx := (s.port p.val).tx.erase t ++ [{ t with
          vc := v
          flits := t.flits.map (fun f => f.onward v f.hops)
          pkt := { t.pkt with vc := v } }] })) ∧
      ((s.port p.val).credit vc.val ≠ 0 → exec (.escWaitExpiry p vc) s = .next s))

/-- Packets: forwarding, writes, acknowledgements, errors, arrivals. A packet for another module leaves on the route with one hop less, or is answered
with an error when no hop is left; a WRITE stores its data in HBM or a scratchpad and is acknowledged; an acknowledgement ends its request, an error
fails it; an ARRIVE packet is an arrival. Spec: 06_field_scale.md, Slots, flits and packets, 06_field_scale.md, Field IDs and routing,
06_field_scale.md, Remote writes and layer pipelining; model choices: log 26. -/
def Obligations.PacketRows : Prop :=
  ∀ (s : State) (p : Fin 8) (vc : Fin 4) (k : Packet),
    (∀ q v r l, s.rxHead p.val vc.val = some k → k.dest ≠ s.me → k.hops ≠ 0 → isProxyOp k.op = false → s.dataPort k.dest vc.val = some q →
      v = s.escVc vc.val (s.dir p.val) (s.dir q) k.dest → (s.port p.val).rxOf vc.val = r :: l →
      exec (.packetForward p vc) s = .next ((s.rxLeave p.val vc.val (.through q)).pushTx q
        ⟨v, if r.counted then some (p.val, vc.val) else none, r.flits.map (fun f => f.onward v (k.hops - 1)), r.whole, false, s.clock.tick, none,
          { k with
            vc := v
            hops := k.hops - 1
            data := [] }⟩)) ∧
    (s.rxHead p.val vc.val = some k → k.dest ≠ s.me → k.hops = 0 → isRequest k.op = true →
      exec (.packetForward p vc) s = .next ((s.rxLeave p.val vc.val .drop).answer k .error 0x0602 [])) ∧
    (s.rxFor p.val vc.val .write = some k → k.space = 0 → (s.rxPop p.val vc.val).regCheck k.tenant true k.addr k.data.length = .ok →
      exec (.writePacket p vc) s = .next ((((s.rxPop p.val vc.val).hbmWrite k.addr k.data).chargeHbm k.tenant k.data.length).answer k .writeAck k.addr [])) ∧
    (s.rxFor p.val vc.val .write = some k → k.space ≠ 0 → k.space ≤ 6 → (s.rxPop p.val vc.val).inPart (k.space - 1) k.tenant k.addr k.data.length = true →
      exec (.writePacket p vc) s = .next (((s.rxPop p.val vc.val).spWrite (k.space - 1) k.addr k.data).answer k .writeAck k.addr [])) ∧
    (∀ r, s.rxFor p.val vc.val .writeAck = some k → s.field.reqs.find? (fun r => r.tag == k.tag) = some r → (s.porter r.pd).lastRemote = none →
      ∃ t, exec (.writeAcknowledgement p vc) s = .next t ∧ t.field.reqs = s.field.reqs.filter (fun x => x.tag != r.tag)) ∧
    (∀ r, s.rxFor p.val vc.val .error = some k → s.field.reqs.find? (fun r => r.tag == k.tag) = some r → k.addr % 65536 = 0x0303 →
      exec (.errorResponse p vc) s = .next ((s.rxPop p.val vc.val).failReq r 0x0303 (r.dest * 2 ^ 26 + r.seq.toNat % 65536))) ∧
    (s.rxFor p.val vc.val .arrive = some k → exec (.arrivePacket p vc) s = .next ((s.rxPop p.val vc.val).sendArrival
      ⟨.central (Fin.ofNat 256 (nfld k.addr 31 24)), nfld k.addr 23 12, some k.tenant, none, 0x3FF, falPage p.val⟩))

/-- The Field counter: TIMESYNC, ECHO, holdover, the master. TIMESYNC_SEND and ECHO_SEND flood their words; an echo measures the one-way latency; the
first TIMESYNC in ACQUIRING steps the counter to the received value plus the latency; holdover changes the state and not the counter; a MASTER within
32 hops is queued and another sets MASTER_ERR. Spec: 06_field_scale.md, The Field counter; model choices: log 27. -/
def Obligations.FieldCounter : Prop :=
  ∀ (s : State),
    (exec .timesyncSend s = .next (s.flood (.timesync s.clock.field) 8)) ∧
    (exec .echoSend s = .next (s.flood (.echo false (BitVec.ofNat 64 s.clock.tick)) 8)) ∧
    (∀ (p : Fin 8) n, s.canonical = true → s.master ≠ s.me →
      exec (.echo p n) s = .next (s.pf (rga (falPage p.val) 0x48) 15 0 (min (n / 2) 0xFFFF))) ∧
    (∀ (p : Fin 8) (count : BitVec 64), s.canonical = true → s.master ≠ s.me → s.firstPort s.master = some p.val →
      s.rf (rga 0x300 0x214) 1 0 = 0 → s.clock.fcFirst = true →
      ∃ t, exec (.timesync p count) s = .next t ∧
        t.clock.field.toNat = (count.toNat + s.rf (rga (falPage p.val) 0x48) 15 0) % 2 ^ 64 ∧ t.clock.fcFirst = false) ∧
    (s.master ≠ s.me → s.fcState = 1 → s.canonical = true →
      ∃ t, exec .fcHoldover s = .next t ∧ t.fcState = 2 ∧ t.clock.field = s.clock.field) ∧
    (∀ f v, s.mayWrite f (fdReg 0x210) = true →
      (s.masterOk (fld v 5 0) = true → exec (.masterWrite f v) s = .next (s.wrRwp (fdReg 0x210) v)) ∧
      (s.masterOk (fld v 5 0) = false → exec (.masterWrite f v) s = .next (s.wb (fdReg 0x214) 2 true)))

/-- Link barriers: arrivals, timeout, self-release, firing, configuration, release words. An arrival at the root is recorded; a timeout releases with
status 1; a module without its release releases itself; a firing acts on the held entries once the Field counter has reached their count, and not
before; LB_CFG stores a delay not below LB_DELAY_MIN; a release word is passed on. Spec: 06_field_scale.md, The link barrier; model choices: log 27. -/
def Obligations.LinkBarriers : Prop :=
  (∀ (s : State) (k : Fin 16), s.master = s.me →
     (∀ (src : Fin 64) (gen : BitVec 16), s.lbOn k.val = true → s.lbIn k.val src.val = true → gen.toNat = s.lbGen k.val →
       ((s.lb k.val).arrived ||| 2 ^ src.val) ≠ s.rd64 (lbMask k.val) →
       exec (.lbArrival k src gen true) s = .next ((s.takeSb (.lbArrival k src gen true)).setLb k.val { s.lb k.val with
         arrived := (s.lb k.val).arrived ||| 2 ^ src.val
         dup := (s.lb k.val).dup || ((s.lb k.val).arrived >>> src.val) % 2 == 1
         unlocked := (s.lb k.val).unlocked })) ∧
     (s.lbOn k.val = true → (s.lb k.val).arrived ≠ 0 → exec (.lbTimeout k) s = .next (s.lbRelease k.val 1)) ∧
     (s.rb (lbStat k.val) 7 = true → exec (.lbSelfRelease k) s = .next (s.lbTake k.val (s.lbGen k.val) 1 0)) ∧
     (∀ f r, (s.lb k.val).fire = f :: r → f.1 ≤ s.now → exec (.lbFire k) s
       = .next (f.2.foldl (fun s a => s.fireHeld a) (s.setLb k.val { s.lb k.val with fire := r }))) ∧
     ((∀ f ∈ (s.lb k.val).fire, s.now < f.1) → exec (.lbFire k) s = .next s) ∧
     (∀ f v, s.mayWrite f (lbCfg k.val) = true →
       (s.rf (fdReg 0x400) 15 0 ≤ fld v 15 0 → exec (.lbCfgWrite f k v) s = .next (s.store f (lbCfg k.val) v 0)) ∧
       (fld v 15 0 < s.rf (fdReg 0x400) 15 0 → exec (.lbCfgWrite f k v) s = .next s))) ∧
  (∀ (s : State) (k : Fin 16) (gen : BitVec 16) (status : Nat) (count : BitVec 64), s.master ≠ s.me →
     exec (.lbRelease k gen status count) s = .next ((s.takeSb (.lbRelease k gen status count)).lbSend k.val gen.toNat status count.toNat))

/-- Phase generators: enable, steps, changes, and the mains source. Enabling an OFF generator starts it and disabling turns it off; K and ADJ writes
queue a change for the next timebase instant; a zero crossing past the hold-off reaches the mains generators and one inside it does not; a timeout of
the crossing makes the generator COASTING and a lost source ends it. Spec: 09_phase_timebase.md, Phase generators, 09_phase_timebase.md, The zero-
crossing input; model choices: log 32. -/
def Obligations.PhaseGenerators : Prop :=
  (∀ (s : State) (f : Func) (g : Fin 4) (v : Word), s.canonical = true →
     (s.mayWrite f (pgReg g.val 0) = true → tbit v 31 = true → s.pgState g.val = 0 →
       exec (.pgEnable f g v) s = .next ((s.store f (pgReg g.val 0) v 0).pgStart g.val)) ∧
     (s.mayWrite f (pgReg g.val 0) = true → tbit v 31 = false →
       ∃ t, exec (.pgEnable f g v) s = .next t ∧ t.pgState g.val = 0 ∧ OnlyRegs s t) ∧
     (s.mayWrite f (pgReg g.val 4) = true → s.pgState g.val = 2 → (s.gen g.val).src = 3 → (s.gen g.val).fracHeld = some 0 → v.toNat < 4294967 →
       ∃ t, exec (.kWrite f g v) s = .next t ∧ t.mile.changes = s.mile.changes ++ [.k g.val ((v.toNat * 2 ^ 32 : Nat) : Int)] ∧ OnlyRegs { s with mile := t.mile } t) ∧
     (s.mayWrite f (pgReg g.val 0x10) = true → s.pgState g.val = 2 → (s.gen g.val).src = 3 → v.toNat < 2 ^ 30 →
       exec (.pgAdj f g v) s = .next { s with mile := { s.mile with changes := s.mile.changes ++ [.adj g.val v.toNat] } }) ∧
     (∀ c r, s.mile.changes = c :: r →
       exec .timebaseChange s = .next (({ s with mile := { s.mile with changes := r } } : State).applyChange c))) ∧
  (∀ (s : State) (g : Fin 4), s.canonical = true →
     (∀ held, s.rb (mpReg 0xC0) 0 = false → s.rf (mpReg 0xC0) 31 16 ≤ held →
       exec (.zcEdge false held) s = .next ((List.range 4).foldl (fun s g => if (s.gen g).src = 2 then s.zcEdge g (s.clock.tick - held) held else s) s)) ∧
     (∀ held, held < s.rf (mpReg 0xC0) 31 16 → exec (.zcEdge false held) s = .next s) ∧
     ((s.gen g.val).src = 2 → s.pgState g.val = 2 →
       ∃ t, exec (.zcTimeout g false) s = .next t ∧ t.pgState g.val = 3 ∧
         t.rf (mpReg 0xCC) 15 0 = min (s.rf (mpReg 0xCC) 15 0 + 1) 0xFFFF ∧ OnlyRegs s t ∧ exec (.zcTimeout g true) s = .next s) ∧
     (s.pgState g.val = 3 → exec (.srcLost g) s = .next (s.srcLost g.val)))

/-- The PTP clock: addend, SET, STEP, announce and delay requests. An addend inside its range queues a change and one outside sets the error; SET
takes the staged time; STEP within the limit shifts the clock and one beyond it is refused; a changed master identity is noted; a delay request is
answered. Spec: 09_phase_timebase.md, The PTP clock, 09_phase_timebase.md, Timestamps and the transparent clock; model choices: log 32. -/
def Obligations.PtpClock : Prop :=
  ∀ (s : State) (f : Func) (v : Word), s.canonical = true →
    (∀ a, a = v.toNat * 2 ^ 32 + (s.rd (mpReg 0x10C)).toNat → s.mayWrite f (mpReg 0x110) = true →
      (4292819813 ≤ a ∧ a ≤ 4297114779 → exec (.addendWrite f v) s = .next ((s.store f (mpReg 0x110) v 0).addChange (.addend a))) ∧
      (4297114779 < a → exec (.addendWrite f v) s
        = .next ((((s.wr (mpReg 0x10C) (w32 s.lastAddend)).wb (mpReg 0x128) 2 true).raise 0x400 7).logNamed 0x400 evTimebase 6 7 255))) ∧
    (s.mayWrite f (mpReg 0x124) = true → s.rb (mpReg 0x128) 31 = true →
      exec (.set f 1) s = .next ((s.wb (mpReg 0x128) 31 false).addChange (.clock
        (((((s.rf (mpReg 0x11C) 15 0 * 2 ^ 32 + (s.rd (mpReg 0x118)).toNat) * 1000000000 + s.rf (mpReg 0x114) 29 0) * 2 ^ 32 : Nat) : Int) -
          ((finePtp s.clock : Nat) : Int))))) ∧
    (s.mayWrite f (mpReg 0x124) = true → s.rb (mpReg 0x128) 31 = false →
      ((toS 32 (s.rd (mpReg 0x120)).toNat * 2 ^ 32).natAbs ≤ (s.rd (mpReg 0x12C)).toNat * 2 ^ 32 →
        exec (.step f 2) s = .next ((s.wb (mpReg 0x128) 31 false).addChange (.clock (toS 32 (s.rd (mpReg 0x120)).toNat * 2 ^ 32)))) ∧
      ((s.rd (mpReg 0x12C)).toNat * 2 ^ 32 < (toS 32 (s.rd (mpReg 0x120)).toNat * 2 ^ 32).natAbs →
        exec (.step f 2) s = .next (((s.wb (mpReg 0x128) 1 true).raise 0x400 0).logNamed 0x400 evTimebase 6 0 255))) ∧
    (∀ (port : Fin 4) lo hi, tbit (s.rd (mpReg 0x130)) 26 = true → fld (s.rd (mpReg 0x130)) 25 24 = port.val → s.rd (mpReg 0x134) ≠ lo →
      ∃ t, exec (.announce port lo hi) s = .next t ∧ t.rd (mpReg 0x134) = lo ∧ t.rd (mpReg 0x138) = hi ∧ t.rb (mpReg 0x128) 3 = true ∧ OnlyRegsLog s t) ∧
    (∀ (port : Fin 4) (q : BitVec 16) d, tbit (s.rd (mpReg 0x130)) 31 = true → tbit (s.rd (mpReg 0x130)) 30 = true →
      exec (.pdelayReq port q d) s = .next { s.wr (mpReg (0x14C + 0x20 * port.val)) d with
        mile := { s.mile with answers := s.mile.answers ++ [(port.val, q.toNat)] } })

/-- Waybill: selection, commit, waits, crossings and line events. Selecting an entry shows it; a commit of a valid staging stores it and an invalid
one is refused; a wait on FIRES ends, registers or times out, a firing of the same strobe winning over the timeout; a crossing issues its entry, or
holds it for its link barrier, and a carried one is issued once its tick has come; line events act at their receivers. Spec: 09_phase_timebase.md,
Waybill entries, 09_phase_timebase.md, Crossings, 09_phase_timebase.md, Waiting on a phase; model choices: log 33. -/
def Obligations.WaybillEntries : Prop :=
  (∀ (s : State) (f : Func) (v : Word), s.canonical = true →
     (s.mayWrite f (wbReg 0x40) = true →
       ∃ t, exec (.wbSelWrite f v) s = .next t ∧ t.rf (wbReg 0x40) 9 0 = fld v 9 0 ∧ t.rd (wbReg 0x44) = (s.wbEntry (fld v 9 0)).phase ∧
         t.rd (wbReg 0x48) = (s.wbEntry (fld v 9 0)).cfg ∧ t.rd (wbReg 0x4C) = (s.wbEntry (fld v 9 0)).arg ∧ t.rd (wbReg 0x50) = (s.wbEntry (fld v 9 0)).hyst ∧
         t.rd (wbReg 0x54) = (s.wbEntry (fld v 9 0)).stride ∧ OnlyRegs s t) ∧
     (∀ e x, s.mayWrite f (wbReg 0x58) = true → e = s.rf (wbReg 0x40) 9 0 →
       x = { s.wbEntry e with
             phase := s.rd (wbReg 0x44)
             cfg := s.rd (wbReg 0x48)
             arg := s.rd (wbReg 0x4C)
             hyst := s.rd (wbReg 0x50)
             stride := s.rd (wbReg 0x54) } →
       (s.stagedOk x = true → (x.phase ≠ (s.wbEntry e).phase) →
         exec (.commit f 1) s = .next ((s.setWbEntry e (x.start (s.pgMod x.gen) (s.pgPhase x.gen))).denyWaits e)) ∧
       (s.stagedOk x = false → exec (.commit f 1) s = .next ((s.wb (wbReg 0x60) 0 true).pf (wbReg 0x60) 25 16 e))) ∧
     (∀ (q : Fin 32) e tg c st tm, (s.queue q.val).wait = some ⟨.fires e tg, c, st, tm⟩ → tm ≠ 0 →
       (toS 32 ((s.wbEntry e).fires + 2 ^ 32 - tg % 2 ^ 32) < 0 →
         exec (.wbWaitTimeout q false) s = .next ((s.writeRecord c 0x0901 0 7).jobFault (tnPage c.owner) 0x0901 (inkInfo c) c.owner)) ∧
       (0 ≤ toS 32 ((s.wbEntry e).fires + 2 ^ 32 - tg % 2 ^ 32) → exec (.wbWaitTimeout q false) s = .next (s.firesMet e)) ∧
       exec (.wbWaitTimeout q true) s = .next s) ∧
     (∀ (q : Fin 32) c x, s.headReady q.val = some c → c.op = 9 → s.baseCheck c = none → x = s.wbEntry (c.f 5 9 0) → x.valid = true → x.owner = c.owner →
       tbit (c.w 5) 31 = false →
       (0 ≤ toS 32 (x.fires + 2 ^ 32 - (c.w 6).toNat) → exec (.waybillWait q) s = .next (s.endWait q.val c).advance) ∧
       (toS 32 (x.fires + 2 ^ 32 - (c.w 6).toNat) < 0 → exec (.waybillWait q) s
         = .next (s.register q.val ⟨.fires (c.f 5 9 0) (c.w 6).toNat, c, false, c.f 7 15 0⟩)))) ∧
  (∀ (s : State) (x : LineEvent) (r : List LineEvent),
     (∀ (g : Fin 4) e n d, d = (⟨g.val, e, n, false⟩ : Due) → s.mile.due = [d] →
       exec (.waybillCrossing g) s = .next ((({ s with mile := { s.mile with due := [] } } : State).issue e).launchDue [d])) ∧
     (∀ (g : Fin 4) e n d, d = (⟨g.val, e, n, true⟩ : Due) → s.mile.due = [d] →
       (n ≤ s.clock.tick → exec .wbLate s = .next ((({ s with mile := { s.mile with due := [] } } : State).issue e).launchDue [d])) ∧
       (s.clock.tick < n → exec .wbLate s = .next s)) ∧
     (∀ c : Fin 16, exec (.strobeEnd c) s = .next { s with pins := { s.pins with strobe := s.pins.strobe &&& ~~~ BitVec.ofNat 16 (2 ^ c.val) } }) ∧
     (takeEvent 4 s.evQ = some (x, r) → exec .queueStart s = .next (({ s with evQ := r } : State).firesMet x.entry)) ∧
     (∀ a, takeEvent 5 s.evQ = some (x, r) → a = (⟨.central (Fin.ofNat 256 (fld x.arg 31 24)), fld x.arg 11 0, none, none, 0x3FF, 0x401⟩ : Arrival) →
       (({ s with evQ := r } : State).wbArrivalOk a = true → exec .tallyArrive s = .next (({ s with evQ := r } : State).arrive a).advance) ∧
       (({ s with evQ := r } : State).wbArrivalOk a = false → exec .tallyArrive s = .next (({ s with evQ := r } : State).addSat (rga 0x20 0x48) 1))) ∧
     (∀ fresh, takeEvent 7 s.evQ = some (x, r) → exec (.wardenDeadline fresh) s = .next (({ s with evQ := r } : State).slotCheck (fld x.arg 5 0) fresh)) ∧
     (takeEvent 8 s.evQ = some (x, r) → exec .engineWindow s = .next (((List.range 6).filter (fun e => tbit x.arg (8 + e))).foldl
       (fun (u : State) e => u.pf (rga 0x10 (0x40 + 4 * e)) 3 0 (fld x.arg 3 0 ||| 1)) { s with evQ := r }).kick) ∧
     (takeEvent 9 s.evQ = some (x, r) → exec .manifestClose s = .next (({ s with evQ := r } : State).manTrigger (fld x.arg 2 0) 0)))

/-- Axis and group commands: enable, disable, law commit, safe state, group reset, feedback. AX_ENABLE and DISABLE change the axis as its state
allows; a law commit checks and takes the descriptor; SAFE_REQ triggers the group safe action; GROUP_RESET leaves SAFE only with no trigger present;
the delays end their forms; a disagreement of the STO lines forces torque off. Spec: 10_drover_control.md, Datapaths, axes and axis groups,
10_drover_control.md, The law descriptor, 10_drover_control.md, Safe actions; model choices: logs 34, 35. -/
def Obligations.AxisCommands : Prop :=
  (∀ (s : State) (f : Func) (a : Fin 48), s.canonical = true → s.mayWrite f (axReg a.val 0x40) = true →
     (s.axState a.val = 0 → s.groupSafe (a.val / 4) = false → s.rb (aAxStat a.val) 6 = true → s.encMode a.val ≠ 0 → s.rb (aEncStat a.val) 5 = false →
       s.rf (aAlStat (a.val / 4)) 1 0 = 2 → s.safeHold = false →
       exec (.axEnable f a 1) s = .next (s.setAxis a.val { s.axis a.val with enPend := true })) ∧
     (s.axState a.val ≠ 0 → exec (.axEnable f a 1) s = .next (s.wb (aAxStat a.val) 14 true)) ∧
     (s.axState a.val = 1 →
       ∃ t, exec (.disable f a 2) s = .next t ∧ t.axState a.val = 0 ∧ (∀ b, b ≠ a.val → t.axState b = s.axState b) ∧ t.pins = s.pins) ∧
     (∀ i, s.lawBad a.val = some i →
       exec (.lawCommit f a 4) s = .next ((s.wb (aAxStat a.val) 15 true).pf (aAxStat a.val) 23 16 i)) ∧
     (s.lawBad a.val = none →
       ∃ t, exec (.lawCommit f a 4) s = .next t ∧ t.rb (aAxStat a.val) 6 = true ∧
         (∀ w : Fin 32, t.rd (axReg a.val (0x180 + 4 * w.val)) = s.staged a.val w.val) ∧
         (∀ w : Fin 32, s.axState a.val = 0 ∨ w.val = 20 ∨ w.val = 21 → t.lawW a.val w.val = s.staged a.val w.val))) ∧
  (∀ (s : State) (f : Func) (al : Fin 12), s.canonical = true →
     (s.mayWrite f (alReg al.val 0x44) = true → exec (.safeReq f al 1) s = .next (s.trigger al.val (s.safeAction al.val) noAxis)) ∧
     (s.mayWrite f (alReg al.val 0x44) = true → s.groupSafe al.val = true → s.triggerPresent al.val = false →
       ∃ t, exec (.groupReset f al 2) s = .next t ∧ t.groupSafe al.val = false ∧ (∀ i : Fin 4, t.axState (4 * al.val + i.val) = 0) ∧
         t.drv.sto = s.drv.sto &&& ~~~ bit12 al.val ∧ t.drv.stoB = s.drv.stoB &&& ~~~ bit12 al.val ∧ t.drv.brake = s.drv.brake) ∧
     (s.mayWrite f (alReg al.val 0x44) = true → s.groupSafe al.val = true → s.triggerPresent al.val = true →
       exec (.groupReset f al 2) s = .next (s.wb (aAlStat al.val) 11 true)) ∧
     (exec (.stopTimeExpiry al) s = .next (s.endForm (fun a => (s.axis a).form == 1) al.val)) ∧
     (exec (.brakeDelayExpiry al) s = .next (s.endForm (fun a => (s.axis a).form == 2 || (s.axis a).form == 3) al.val)) ∧
     (∀ x y z, x = s.pins.stoA.getLsbD al.val → y = s.pins.stoB.getLsbD al.val → z = s.pins.brake.getLsbD al.val →
       exec (.stoFbErr al x y z) s = .next (s.pf (aAlStat al.val) 10 8 (b2n x + 2 * b2n y + 4 * b2n z)) ∧
       exec (.stoFbErr al (!x) y z) s = .next ((((s.drvEvent (alPage al.val) 0x0A09).forceStoB (bit12 al.val)).torqueOff al.val).pf (aAlStat al.val) 10 8
         (b2n (!x) + 2 * b2n y + 4 * b2n z))))

/-- Control periods, set points, the trajectory mailbox and current decisions. A control period updates its axis from its latched position and the
law, with what its SSI transfer brought once that has ended; a missed set point counts; the current decision compares each phase with its band and
trips beyond the limit; the band adapts within its bounds. Spec: 10_drover_control.md, The control period, 10_drover_control.md, The trajectory
mailbox, 10_drover_control.md, Position and velocity loops, 10_drover_control.md, The current law in the axis slices; model choices: log 34. -/
def Obligations.ControlPeriods : Prop :=
  (∀ (s : State) (d : Fin 4),
     (∀ (a : Fin 48) i, (s.axis a.val).inp = some i → i.ssi = false →
       exec (.axisCompute a false) s = .next (s.computeAxis a.val i) ∧ exec (.axisCompute a true) s = .next (s.lockstep a.val)) ∧
     (∀ (a : Fin 48) i, (s.axis a.val).inp = some i → i.ssi = true →
       ((s.enc a.val).ssi.isSome = true → exec (.axisCompute a false) s = .next s) ∧
       (∀ j, (s.enc a.val).ssi = none → j = { i with
           pos := s.encPos a.val
           vel := s.encVel a.val
           flags := s.rd (aEncStat a.val) } →
         exec (.axisCompute a false) s = .next ((s.firstUse a.val j).computeAxis a.val j))) ∧
     ((s.dp d.val).latchDue = true → exec (.driverLatch d) s = .next (s.latchDp d.val)) ∧
     (exec (.periodLost d) s = .next ((s.drvEvent (dvPage d.val) 0x0A0B).dpFallback d.val)) ∧
     (∀ u a l, (s.dp d.val).fetches ≠ 0 → u = s.setDp d.val { s.dp d.val with fetches := (s.dp d.val).fetches - 1 } →
       a = 2 ^ 13 * s.rf (dvReg d.val 0x84) 31 13 + 2 ^ 32 * s.rf (dvReg d.val 0x88) 7 0 + 8192 * (((s.rd (dvReg d.val 0x8C)).toNat + 1) % 2) →
       s.regCheck (s.rf (dvReg d.val 0x80) 27 24) false a 6208 = .ok →
       (mailboxParse (s.hbmRead a 6208) d.val (s.rd (dvReg d.val 0x8C)).toNat = .inr l →
         exec (.mbCommit d) s = .next (((u.setDp d.val { u.dp d.val with
           traj := l.foldl (fun m p => mapSet (fun _ => none) m p.1 (some p.2)) (u.dp d.val).traj }).wr (dvReg d.val 0x8C)
             (w32 ((s.rd (dvReg d.val 0x8C)).toNat + 1))).wardenFresh 0 d.val)) ∧
       (∀ b, mailboxParse (s.hbmRead a 6208) d.val (s.rd (dvReg d.val 0x8C)).toNat = .inl b →
         exec (.mbCommit d) s = .next (u.mbReject d.val b)))) ∧
  (∀ (s : State) (a : Fin 48), s.canonical = true → s.inLoop a.val = true →
     (exec (.currentLost a) s = .next (((s.setAxis a.val (bridgesOff (s.axis a.val))).wb (aAxStat a.val) 12 true).drvEvent (axPage a.val) 0x0A06
       |>.trigger (a.val / 4) 4 noAxis)) ∧
     (∀ u ks, ks = activePhases (s.lawW a.val 0) → u = ks.foldl (fun s k => s.takeSample a.val k) s → (s.axis a.val).ended = false →
       (∀ k ∈ ks, ((u.axis a.val).phase k).valid = true → flt (s.lawW a.val 24) (fabs ((u.axis a.val).phase k).amps) = false) →
       (s.alMode (a.val / 4) = true → exec (.currentDecision a) s = .next u) ∧
       (s.alMode (a.val / 4) = false → exec (.currentDecision a) s = .next (ks.foldl (fun t k =>
         t.setAxis a.val { (t.axis a.val).setPhase k (decide1 ((t.axis a.val).phase k) (phaseRef (s.lawW a.val) (s.rd (axReg a.val 0x48)) (s.encPos a.val) k)
             (s.rd (axReg a.val 0x58)) (s.lawW a.val 23)).1 with
           changes := (t.axis a.val).changes + b2n (decide1 ((t.axis a.val).phase k) (phaseRef (s.lawW a.val) (s.rd (axReg a.val 0x48)) (s.encPos a.val) k)
             (s.rd (axReg a.val 0x58)) (s.lawW a.val 23)).2 }) u))) ∧
     (∀ k : Fin 3, k.val ∈ activePhases (s.lawW a.val 0) →
       (∀ j : Fin 3, ((s.axis a.val).phase j.val).bits = []) → ((s.axis a.val).phase k.val).valid = true →
       flt (s.lawW a.val 24) (fabs ((s.axis a.val).phase k.val).amps) = true →
       exec (.currentDecision a) s = .next (s.currentTrip a.val 11 0x0A05)) ∧
     (tbit (s.lawW a.val 0) 24 = true →
       ∃ t, exec (.bandAdapt a) s = .next t ∧ t.drv = (s.setAxis a.val { s.axis a.val with changes := 0 }).drv ∧
         t.rd (axReg a.val 0x58) = fclamp (fmul (s.rd (axReg a.val 0x58)) (fclamp (fdiv (t.rd (axReg a.val 0x5C)) (s.lawW a.val 22)) f32Half f32Two))
           (s.lawW a.val 20) (s.lawW a.val 21)))

/-- Axis link frames in both directions. An upstream frame advances the receiver, and in the streaming state feeds its bits on; a downstream frame
advances the sequence number, marks its start and changes no register and no pin. Spec: 10_drover_control.md, Axis link; model choices: log 36. -/
def Obligations.AxisLinkFrames : Prop :=
  ∀ (s : State) (al : Fin 12), s.rb (alReg al.val 0x40) 0 = true →
    (∀ (frame : BitVec 40) r, s.canonical = true → s.alLink al.val = 1 → r = upFrame (s.alink al.val) false frame.toNat → r.ok = true → r.rise = false →
      exec (.upstreamFrame al frame) s = .next (s.setAlink al.val r.next)) ∧
    (∀ (frame : BitVec 40) r, s.alLink al.val = 2 → s.rf (alReg al.val 0x40) 27 24 ≠ 0 → r = upFrame (s.alink al.val) true frame.toNat →
      r.ok = true → r.hunt = false → r.whole = false →
      exec (.upstreamFrame al frame) s = .next ((s.setAlink al.val r.next).feedBits al.val (r.body / 2 ^ 14) true)) ∧
    (mapWf dflt s.drv.links = true →
      ∃ t, exec (.downstreamFrame al) s = .next t ∧ (t.alink al.val).txSeq = ((s.alink al.val).txSeq + 1) % 10 ∧ t.regs = s.regs ∧ t.pins = s.pins ∧
      (t.alink al.val).sent.toNat % 4 = if (s.alink al.val).txSeq = 0 then 2 else 1)

/-- Encoders: edges, index, stop time, faults, SSI transfers. An edge of one line counts by its direction and an edge of both is illegal; the index is
latched; the stop time clears the speed; a signal fault and a timed-out transfer lose the encoder; a good SSI transfer sets the position. Spec:
10_drover_control.md, Encoders, 10_drover_control.md, Observer and feedback supervision; model choices: log 36. -/
def Obligations.Encoders : Prop :=
  ∀ (s : State) (n : Fin 48) (a b : Bool),
    (s.encMode n.val = 1 → (s.enc n.val).a ≠ a → (s.enc n.val).b = b →
      exec (.encoderEdge n a b) s = .next ((s.setEnc n.val { s.enc n.val with a := a }).countEdge n.val (a == b))) ∧
    (s.encMode n.val = 1 → (s.enc n.val).a = a → (s.enc n.val).b ≠ b →
      exec (.encoderEdge n a b) s = .next ((s.setEnc n.val { s.enc n.val with b := b }).countEdge n.val (a != b))) ∧
    (s.encMode n.val = 1 → (s.enc n.val).a ≠ a → (s.enc n.val).b ≠ b →
      exec (.encoderEdge n a b) s = .next ((s.setEnc n.val { s.enc n.val with
        a := a
        b := b }).illegalEdge n.val)) ∧
    (s.encMode n.val = 1 → s.rb (encReg n.val 0x40) 28 = true → (s.lawW n.val 17).toNat ≠ 0 → (s.enc n.val).index = none →
      exec (.encoderIndex n) s = .next (s.setEnc n.val { s.enc n.val with index := some ((s.enc n.val).count % ((s.lawW n.val 17).toNat : Int)) })) ∧
    (s.canonical = true → mapWf dflt s.drv.encs = true → s.encMode n.val = 1 →
      ∃ t, exec (.tStopExpiry n false) s = .next t ∧ (t.enc n.val).edges = [] ∧ t.rb (aEncStat n.val) 1 = true ∧ t.rb (aEncStat n.val) 0 = false ∧
        t.rd (encReg n.val 0x58) = 0 ∧ exec (.tStopExpiry n true) s = .next s) ∧
    (exec (.signalFault n) s = .next (((s.wb (aEncStat n.val) 6 true).drvEvent (encPage n.val) 0x0A0D).encLost n.val)) ∧
    (∀ bits t, (s.enc n.val).ssi = some t → (s.enc n.val).good = none → fld (s.rd (encReg n.val 0x40)) 29 25 = 0 →
      exec (.ssiTransferEnd n bits false) s = .next (s.ssiGood n.val ((bits.toNat % 2 ^ s.rf (encReg n.val 0x44) 29 24 : Nat) : Int) t)) ∧
    (s.encMode n.val = 2 →
      exec (.monoTimeout n false) s = .next ((s.setEnc n.val { s.enc n.val with ssi := none }).encLost n.val))

/-- Camera packets and camera faults. A frame start opens a frame under the parameters of that moment; lines of the data type it latched are stored,
and counted when their channel is another; embedded data are kept up to 64 bytes, and corrupt the frame when their CRC fails; a corrected header
counts and an uncorrectable one discards its packet and corrupts the frame; a frame end hands one sample on and changes no other source; a timeout
corrupts the frame; a silent camera raises its flag. Spec: 11_perception_inputs.md, Camera ports, 11_perception_inputs.md, Thresher stages,
11_perception_inputs.md, Checks on every input; model choices: log 30. -/
def Obligations.CameraPackets : Prop :=
  (∀ (s : State) (c : Fin 16) (vc : BitVec 2), s.srcOn c.val = true →
     (∀ num : BitVec 16, s.rf (thReg c.val 0x60) 29 28 = vc.toNat → mapWf dflt s.perc.ths = true → (s.th c.val).opened = false →
       s.rd64 (thReg c.val 0xA0) = 0 → s.rd64 (thReg c.val 0xA8) = 0 → s.rb (thReg c.val 0xB8) 31 = false →
       ∃ t, exec (.csi2FrameStart c vc .clean num) s = .next t ∧ (t.th c.val).opened = true ∧ (t.th c.val).corrupt = false ∧ (t.th c.val).num = num.toNat ∧
         (t.th c.val).frames = (s.th c.val).frames + 1 ∧ (t.th c.val).lines = [] ∧ (t.th c.val).start = s.now ∧
         (∀ i : Fin 24, (t.th c.val).p (0x60 + 4 * i.val) = s.rd (thReg c.val (0x60 + 4 * i.val))) ∧ t = { s with perc := t.perc }) ∧
     (∀ (dt : BitVec 6) codes, s.rf (thReg c.val 0x60) 29 28 = vc.toNat → dt.toNat = (s.th c.val).dt → (dtBits dt.toNat).isSome = true →
       (s.th c.val).opened = true → (s.th c.val).discard = false → dt ≠ 0x1E → dt ≠ 2 → dt ≠ 3 →
       exec (.csi2Line c vc .clean dt true false codes) s = .next (s.setTh c.val { s.th c.val with
         corrupt := (s.th c.val).corrupt || codes.length != (s.th c.val).width
         lines := (s.th c.val).lines ++ [codes] })) ∧
     (∀ (dt : BitVec 6) codes, s.rf (thReg c.val 0x60) 29 28 ≠ vc.toNat →
       exec (.csi2Line c vc .clean dt true false codes) s = .next (s.incSat (thReg c.val 0x108) 31 16)) ∧
     (∀ (dt : BitVec 6) codes,
       exec (.csi2Line c vc .fixed dt true false codes) s = exec (.csi2Line c vc .clean dt true false codes) (s.incSat (thReg c.val 0x104) 31 24) ∧
       ((s.th c.val).opened = true →
         exec (.csi2Line c vc .bad dt true false codes) s = .next (s.setTh c.val { s.th c.val with corrupt := true }) ∧
         exec (.csi2FrameEnd c vc .bad) s = .next (s.setTh c.val { s.th c.val with corrupt := true }))) ∧
     (∀ bytes, s.rf (thReg c.val 0x60) 29 28 = vc.toNat → (s.th c.val).opened = true → (s.th c.val).discard = false →
       exec (.csi2EmbeddedData c vc .clean true bytes) s = .next (s.setTh c.val { s.th c.val with embed := ((s.th c.val).embed ++ bytes).take 64 }) ∧
       exec (.csi2EmbeddedData c vc .clean false bytes) s = .next ((s.incSat (thReg c.val 0x104) 23 16).setTh c.val { s.th c.val with
         embed := ((s.th c.val).embed ++ bytes).take 64
         corrupt := true })) ∧
     (∀ x, x = s.th c.val → s.rf (thReg c.val 0x60) 29 28 = vc.toNat → x.opened = true → x.staged = none → x.corrupt = false → x.lines.length = x.height →
       mapWf dflt s.perc.ths = true → mapWf (fun _ => []) s.perc.samples = true →
       ∃ t, exec (.csi2FrameEnd c vc .clean) s = .next t ∧ t.waiting c.val = s.waiting c.val ++ [x.sample s.now] ∧ (t.th c.val).opened = false ∧
         (∀ d, d ≠ c.val → t.th d = s.th d ∧ t.waiting d = s.waiting d) ∧ t = { s with perc := t.perc })) ∧
  (∀ (s : State) (c : Fin 16), s.srcOn c.val = true →
     ((s.th c.val).opened = true →
       exec (.frameTimeout c false) s = .next ((s.incSat (thReg c.val 0x104) 7 0).thCorrupt c.val) ∧ exec (.frameTimeout c true) s = .next s) ∧
     (∃ t, exec (.camSilent c false) s = .next t ∧ (s.canonical = true → t.rb (rga (thPage c.val) oRaw) 3 = true) ∧ t.perc = s.perc ∧
       (s.canonical = true → t.srcOn c.val = true) ∧ OnlyRegsLog s t) ∧
     exec (.camSilent c true) s = .next s)

/-- Sources: settings, regions of interest, enable, forwarding into the ring. TH_SET stages a setting and counts one overtaken; a region commit
switches tables; SRC_ENABLE starts a source whose ring is valid and is refused otherwise; a waiting sample enters its slot with its head, or is
dropped when the ring is full. Spec: 11_perception_inputs.md, Samples and forwarding, 11_perception_inputs.md, Delayed sensor settings,
11_perception_inputs.md, Views and ROI steering; model choices: logs 30, 31. -/
def Obligations.SampleSources : Prop :=
  ∀ (s : State) (f : Func),
    (∀ (c : Fin 16) v, s.mayWrite f (thReg c.val 0xE0) = true →
      ((s.th c.val).staged = none → exec (.thSet f c v) s = .next (s.setTh c.val { s.th c.val with staged := some (fld v 15 0, fld v 31 16) })) ∧
      ((s.th c.val).staged ≠ none → exec (.thSet f c v) s
        = .next ((s.incSat (thReg c.val 0x10C) 15 0).setTh c.val { s.th c.val with staged := some (fld v 15 0, fld v 31 16) }))) ∧
    (∀ c : Fin 16, (s.th c.val).roiDue ≠ 0 →
      exec (.roiCommit c) s = .next (s.setTh c.val { s.th c.val with
        roiDue := (s.th c.val).roiDue - 1
        roiSel := !(s.th c.val).roiSel })) ∧
    (∀ (src : Fin 96) v, s.mayWrite f (srcReg src.val 0) = true →
      (s.srcOn src.val = true → tbit v 31 = true → exec (.srcEnable f src v) s = .next (s.wb (srcReg src.val 0x1C) 1 true)) ∧
      (s.srcOn src.val = true → tbit v 31 = false → exec (.srcEnable f src v) s = .next ((s.store f (srcReg src.val 0) v 0).srcStop src.val)) ∧
      (s.srcOn src.val = false → tbit v 31 = true → tbit v 30 = false → fld v 27 24 < 8 → 2 ≤ s.slotCount src.val → s.slotCount src.val ≤ 1024 →
        s.slotBytes src.val ≠ 0 → 4096 + s.fixedBytes src.val v ≤ s.slotBytes src.val →
        (s.regCheck (fld v 27 24) true (s.srcRing src.val) (4096 + s.slotCount src.val * s.slotBytes src.val) = .ok →
          exec (.srcEnable f src v) s = .next ((s.store f (srcReg src.val 0) v 0).srcStart src.val)) ∧
        (∀ a, s.regCheck (fld v 27 24) true (s.srcRing src.val) (4096 + s.slotCount src.val * s.slotBytes src.val) = .bounds a →
          exec (.srcEnable f src v) s = .next (s.wb (srcReg src.val 0x1C) 1 true)))) ∧
    (∀ (src : Fin 96) x r main wc rc u, s.waiting src.val = x :: r → u = s.setWaiting src.val r → s.rb (srcReg src.val 0) 30 = false →
      s.regCheck (s.srcOwner src.val) true (s.srcRing src.val) (4096 + s.slotCount src.val * s.slotBytes src.val) = .ok →
      x.views = [some main, none, none, none, none] → 4096 + (viewBytes x.fmt main).length ≤ s.slotBytes src.val →
      (decide (src.val < 16) && (s.th src.val).late.contains x.index) = false →
      wc = leNat (s.hbmRead (s.srcRing src.val) 8) → rc = leNat (s.hbmRead (s.srcRing src.val + 8) 8) →
      ((wc + 2 ^ 64 - rc) % 2 ^ 64 < s.slotCount src.val →
        exec (.sampleForward src) s = .next ((u.hbmWrite (s.srcRing src.val + 4096 + wc % s.slotCount src.val * s.slotBytes src.val)
          (sampleHead x src.val (s.tenant (s.srcOwner src.val)).inSeq x.flags 0 x.views ++ viewBytes x.fmt main)).forwarded src.val (s.srcOwner src.val)
            x.flags (s.tenant (s.srcOwner src.val)).inSeq (wc % s.slotCount src.val)
            (s.srcRing src.val + 4096 + wc % s.slotCount src.val * s.slotBytes src.val) wc)) ∧
      (s.slotCount src.val ≤ (wc + 2 ^ 64 - rc) % 2 ^ 64 →
        exec (.sampleForward src) s = .next ((u.incSat (srcReg src.val 0x18) 15 0).raise (srcPg src.val) 2)))

/-- Video streams and Glean. A packet in sequence is delivered to its picture, which ends at its marker bit and before a packet of another time; one
for which the buffer has no room is lost, and one of no stream is ignored; the jitter expiry gives up the gap; a decoded picture becomes a sample, or
a CORRUPT one, and one with missing units counts and marks them; a stalled stream raises its flag; a Glean request is refused while busy, starts
otherwise, and its end writes the tokens and their count. Spec: 11_perception_inputs.md, Caravan, 11_perception_inputs.md, Glean; model choices: log
31. -/
def Obligations.VideoStreams : Prop :=
  (∀ (s : State),
     (∀ (p : RtpPacket) (v : Fin 80) (x : Stream), (List.range 80).filter (fun v => s.vsTakes v p) = [v.val] → (s.vs v.val).held = [] →
       (s.vs v.val).next = some p.seq.toNat → x = { s.vs v.val with stalled := false } →
       (x.fill + p.payload.length ≤ 2 ^ 22 →
         ((∀ g ∈ x.got, g.2.time = p.time) →
           (p.marker = false → exec (.rtpPacket p) s = .next (s.setVs v.val { x with
             next := some (p.seq.toNat + 1)
             got := x.got ++ [(s.now, p)] })) ∧
           (p.marker = true → exec (.rtpPacket p) s = .next (s.setVs v.val { x with
             next := some (p.seq.toNat + 1)
             got := []
             ended := x.ended ++ [x.got ++ [(s.now, p)]] }))) ∧
         ((∃ g ∈ x.got, g.2.time ≠ p.time) → p.marker = false → exec (.rtpPacket p) s = .next (s.setVs v.val { x with
           next := some (p.seq.toNat + 1)
           got := [(s.now, p)]
           ended := x.ended ++ [x.got] }))) ∧
       (2 ^ 22 < x.fill + p.payload.length →
         exec (.rtpPacket p) s = .next ((s.setVs v.val { x with spilled := x.spilled ++ [p.seq.toNat] }).vsLost v.val 1))) ∧
     (∀ (p : RtpPacket), (∀ v, v < 80 → s.vsTakes v p = false) → exec (.rtpPacket p) s = .next s) ∧
     (∀ (v : Fin 80) e a p k, (s.vs v.val).held = [(e, a, p)] → (s.vs v.val).next = some k → (s.vs v.val).spilled = [] → (s.vs v.val).got = [] →
       p.marker = false →
       exec (.jitterExpiry v) s = .next ((s.setVs v.val { s.vs v.val with
         held := []
         next := some (e + 1)
         got := [(a, p)] }).vsLost v.val (e - k))) ∧
     (∀ (v : Fin 80) (pic : Picture) l r, s.srcOn (16 + v.val) = true → (s.vs v.val).ended = l :: r → l.any (fun g => g.2.time == pic.rtpTime) = true →
       s.rf (vsReg v.val 0x20) 31 30 < 2 → pic.syntaxBad = true → pic.lost = [] → pic.predicted = 0 →
       exec (.pictureDecoded v pic) s = .next ((s.setVs v.val { s.vs v.val with ended := r }).corruptSample (16 + v.val))) ∧
     (∀ (v : Fin 80) (pic : Picture) g r, s.srcOn (16 + v.val) = true → pic.syntaxBad = false → s.rf (vsReg v.val 0x20) 31 30 = 1 → 128 ≤ pic.width →
       128 ≤ pic.height → pic.width ≤ 2880 → pic.height ≤ 2880 → s.rf (rga 0x530 (0x40 + 16 * s.srcOwner (16 + v.val))) 1 0 = 0 →
       (pic.lost = [] → pic.predicted = 0 → s.rf (vsReg v.val 0x20) 29 28 = 0 → (s.vs v.val).ended = [g] :: r → g.2.time = pic.rtpTime →
         exec (.pictureDecoded v pic) s = .next ((s.setVs v.val { s.vs v.val with
           ended := r
           good := some pic }).addSampleOf (16 + v.val)
           { fmt := if pic.tenBit then 3 else 2
             frame := pic.order
             tStart := g.1
             tEnd := g.1
             ptpLo := pic.rtpTime.toNat
             ptpHi := 0
             exp := 0
             gain := 0
             cu := 0
             flags := 0
             index := 0
             views := [some ⟨pic.width, pic.height, 0, 0, (pic.luma ++ pic.chroma).map (fun v => if pic.tenBit then v * 64 else v)⟩, none, none, none, none]
             embed := []
             hist := []
             zones := [] })) ∧
       (cuCount pic ≠ 0 → mapWf dflt s.perc.streams = true → mapWf (fun _ => []) s.perc.samples = true →
         ∃ t x, exec (.pictureDecoded v pic) s = .next t ∧ t.waiting (16 + v.val) = s.waiting (16 + v.val) ++ [x] ∧ x.cu = cuCount pic ∧ x.flags = 1 ∧
           (t.vs v.val).good = (s.vs v.val).good)) ∧
     (∀ v : Fin 80, s.srcOn (16 + v.val) = true → (s.vs v.val).stalled = false →
       ∃ t, exec (.stalled v) s = .next t ∧ t.perc = (s.setVs v.val { s.vs v.val with stalled := true }).perc ∧
         (s.canonical = true → t.rb (rga (srcPg (16 + v.val)) oRaw) 3 = true))) ∧
  (∀ (s : State) (f : Func) (v : Word), s.canonical = true →
     (s.mayWrite f (glReg 0x68) = true → tbit v 0 = true →
       (s.rb (glReg 0x6C) 30 = true → exec (.gleanStart f v) s = .next (s.wb (glReg 0x6C) 27 true)) ∧
       (s.rb (glReg 0x6C) 30 = false →
         s.regCheck (fld v 7 4) false (s.rd64 (glReg 0x40)) (s.rd (glReg 0x48)).toNat = .ok →
         s.regCheck (fld v 7 4) true (s.rd64 (glReg 0x4C)) (4 * (s.rd (glReg 0x54)).toNat) = .ok →
         s.regCheck (fld v 7 4) false (s.rd64 (glReg 0x58)) (48 * 2 ^ s.rf (glReg 0x60) 20 16) = .ok →
         ∃ t, exec (.gleanStart f v) s = .next t ∧ t.rb (glReg 0x6C) 30 = true ∧
           t.perc.glean = some ((List.range 10).map (fun i => s.rd (glReg (0x40 + 4 * i))) ++ [w32 (fld v 7 4)]) ∧ t.hbm = s.hbm ∧
           OnlyRegs { s with perc := t.perc } t)) ∧
     (∀ r ts ovf, s.perc.glean = some r →
       s.tokens ((r.getD 6 0).toNat + (r.getD 7 0).toNat * 2 ^ 32) (2 ^ nfld (r.getD 8 0).toNat 20 16) (r.getD 9 0).toNat (r.getD 2 0).toNat (r.getD 5 0).toNat
         (s.hbmRead ((r.getD 0 0).toNat + (r.getD 1 0).toNat * 2 ^ 32) (r.getD 2 0).toNat) = (ts, ovf) →
       ∃ t, exec .gleanDone s = .next t ∧ t.hbm = (s.hbmWrite ((r.getD 3 0).toNat + (r.getD 4 0).toNat * 2 ^ 32) (ts.flatMap (natLe 4))).hbm ∧
         t.rd (glReg 0x70) = w32 ts.length ∧ t.rb (glReg 0x6C) 31 = true ∧ t.rb (glReg 0x6C) 30 = false ∧ (ovf = true → t.rb (glReg 0x6C) 29 = true) ∧
         t.perc = { s.perc with glean := none }))

/-- Ethernet reception, link and queue registers. A frame with a bad check sequence or length or a foreign address is counted and dropped; an untagged
frame of an accepted address is written to the buffer of its queue with its stamp and the ring advances; link changes set their flags; a queue
register is stored or discarded by its owner field. Spec: 12_ethernet_can_i2c.md, Ethernet; model choices: log 37. -/
def Obligations.EthReception : Prop :=
  (∀ (s : State) (port : Fin 4) (frame : List Byte), s.ethUp port.val = true →
     (exec (.ethFrameReceived port false frame) s = .next ((s.incSat (ethReg port.val 0x180) 31 16).raise (ethPage port.val) 4)) ∧
     (frame.length + 4 < 64 ∨ s.ethMax port.val < frame.length + 4 →
       exec (.ethFrameReceived port true frame) s = .next ((s.incSat (ethReg port.val 0x180) 15 0).raise (ethPage port.val) 4)) ∧
     (64 ≤ frame.length + 4 → frame.length + 4 ≤ s.ethMax port.val →
       (s.addrOk port.val (beAt frame 0 6) = false →
         exec (.ethFrameReceived port true frame) s = .next ((s.incSat (ethReg port.val 0x184) 31 16).raise (ethPage port.val) 4)) ∧
       (s.addrOk port.val (beAt frame 0 6) = true → beAt frame 12 2 = 0x8808 →
         exec (.ethFrameReceived port true frame) s = .next ((s.incSat (ethReg port.val 0x18C) 31 16).raise (ethPage port.val) 4)) ∧
       (∀ tci r d a prod cons, s.addrOk port.val (beAt frame 0 6) = true → beAt frame 12 2 ≠ 0x8808 → beAt frame 12 2 ≠ 0x8100 →
         rtpOf port.val frame = none → ptpAt frame = none →
         tci = s.rf (ethReg port.val 0x40) 20 18 * 8192 + s.rf (ethReg port.val 0x44) 11 0 →
         r = rxqReg port.val (s.rf (ethReg port.val 0x48) (3 * (tci / 8192) + 2) (3 * (tci / 8192))) 0 → s.ethQ r = true →
         prod = leNat (s.hbmRead (s.ethRing r) 8) → cons = leNat (s.hbmRead (s.ethRing r + 8) 8) → prod ≠ cons →
         d = s.ethRing r + 64 + 32 * (cons % s.ethSize r) → a = leNat (s.hbmRead d 8) →
         s.regCheck (s.ethOwner r) true (s.ethRing r) 64 = .ok → s.regCheck (s.ethOwner r) true d 32 = .ok →
         frame.length ≤ leNat (s.hbmRead (d + 8) 2) → s.regCheck (s.ethOwner r) true a frame.length = .ok →
         exec (.ethFrameReceived port true frame) s = .next (((s.hbmWrite a frame).hbmWrite (d + 10) (natLe 2 frame.length ++ natLe 1 0 ++ zeros 1 ++
           natLe 2 tci ++ natLe 4 (s.rxStamp port.val / 1000000000) ++ natLe 4 (s.rxStamp port.val % 1000000000) ++ zeros 8)).bumpRing r cons)))) ∧
  (∀ (s : State) (port : Fin 4), s.canonical = true →
     (s.ethUp port.val = true → (s.ethPort port.val).heads = [] → (s.ethPort port.val).wire = none →
       ∃ t, exec (.linkDown port) s = .next t ∧ t.rb (ethReg port.val 0x54) 0 = false ∧ t.rb (rga (ethPage port.val) oRaw) 0 = true ∧
         OnlyRegsLog { s with eth := mapSet dflt s.eth port.val default } t) ∧
     (s.ethOn port.val = true → s.ethUp port.val = false →
       ∃ t, exec (.linkUp port) s = .next t ∧ t.rb (ethReg port.val 0x54) 0 = true ∧ t.rb (rga (ethPage port.val) oRaw) 1 = true ∧ OnlyRegsLog s t) ∧
     (s.ethOn port.val = true → s.rf (ethReg port.val 0x58) 15 0 ≠ 0 →
       ∃ t, exec (.silent port false) s = .next t ∧ t.rb (rga (ethPage port.val) oRaw) 3 = true ∧ OnlyRegsLog s t ∧
         exec (.silent port true) s = .next s) ∧
     (∀ (f : Func) tx (q : Fin 8) v r, r = (if tx then txqReg port.val q.val 0 else rxqReg port.val q.val 0) → s.mayWrite f r = true →
       (8 < fld v 23 20 → exec (.queueRestart f port tx q v) s = .next s) ∧
       (fld v 23 20 ≤ 8 → tx = false → exec (.queueRestart f port tx q v) s = .next (s.store f r (setBit v 30 false) 0)) ∧
       (fld v 23 20 ≤ 8 → tx = true → (s.store f r v 0).ethQ r = true → exec (.queueRestart f port tx q v) s = .next (s.store f r v 0))))

/-- Ethernet transmission: queue heads, frame boundaries, launch times, completion. A poll reads the head descriptor and its frame; a frame boundary
puts a head or a forwarded event frame on the wire; a launch time in its window sends and a late one drops; the end of a frame writes status and stamp
to its descriptor and advances the ring. Spec: 12_ethernet_can_i2c.md, Ethernet, 09_phase_timebase.md, Launch time; model choices: log 37. -/
def Obligations.EthTransmission : Prop :=
  ∀ (s : State) (port : Fin 4) (q : Fin 8),
    (∀ r d a len prod cons, s.ethUp port.val = true → (∀ k, k < 8 → k ≠ q.val → s.ethQ (txqReg port.val k 0) = false) → r = txqReg port.val q.val 0 →
      s.ethQ r = true → (s.ethPort port.val).heads = [] → (s.ethPort port.val).wire = none →
      prod = leNat (s.hbmRead (s.ethRing r) 8) → cons = leNat (s.hbmRead (s.ethRing r + 8) 8) → prod ≠ cons →
      d = s.ethRing r + 64 + 32 * (cons % s.ethSize r) → a = leNat (s.hbmRead d 8) → len = leNat (s.hbmRead (d + 8) 2) → 14 ≤ len →
      len + 4 ≤ s.ethMax port.val → s.regCheck (s.ethOwner r) true (s.ethRing r) 64 = .ok → s.regCheck (s.ethOwner r) true d 32 = .ok →
      s.regCheck (s.ethOwner r) false a len = .ok → tbit (w32 (leNat (s.hbmRead (d + 10) 1))) 0 = false → len ≤ 65536 →
      ((ethType (s.hbmRead a len)).1 ≠ 0x8808 →
        exec (.queuePoll port) s = .next (s.setHead port.val q.val (some ⟨d, s.hbmRead a len, none, s.rb r 30, false⟩))) ∧
      ((ethType (s.hbmRead a len)).1 = 0x8808 → s.canonical = true →
        ∃ t st, exec (.queuePoll port) s = .next t ∧ 1 ≤ st ∧ st ≤ 4 ∧ t = s.take.2.txFinish port.val q.val d st 0)) ∧
    (∀ h u, s.ethUp port.val = true → (s.ethPort port.val).heads = [(q.val, h)] → (s.ethPort port.val).wire = none → (s.ethPort port.val).fwd = [] →
      h.gated = false → u = s.setHead port.val q.val none →
      (h.launch = none →
        exec (.ethFrameBoundary port) s
          = .next (u.setEth port.val { u.ethPort port.val with wire := some (some q.val, h.desc, u.txStamp port.val, wireFrame h.frame) })) ∧
      (∀ t, h.launch = some t → 0 ≤ s.lateness t →
        (s.lateness t ≤ ((s.rd (mpReg (0x144 + 0x20 * port.val))).toNat : Int) →
          exec (.launchTime port q) s
            = .next (u.setEth port.val { u.ethPort port.val with wire := some (some q.val, h.desc, u.txStamp port.val, wireFrame h.frame) })) ∧
        (((s.rd (mpReg (0x144 + 0x20 * port.val))).toNat : Int) < s.lateness t →
          exec (.launchTime port q) s
            = .next (((((u.addSat (mpReg (0x148 + 0x20 * port.val)) 1).raise 0x400 6).logNamed 0x400 evTimebase 6 6 255).txFinish port.val q.val h.desc 1
              0).ethChoose port.val 8)))) ∧
    (∀ f : List Byte, (wireFrame f).length = max f.length 60 + 4 ∧ (wireFrame f).take f.length = f ∧
      (∀ i, f.length ≤ i → i < 60 → (wireFrame f)[i]? = some 0)) ∧
    (∀ w r, s.ethUp port.val = true → (s.ethPort port.val).wire = none → (s.ethPort port.val).fwd = w :: r →
      ptpType w.frame ((ptpAt w.frame).getD 0) = 8 →
      exec (.ethFrameBoundary port) s = .next (s.setEth port.val { s.ethPort port.val with
        fwd := r
        wire := some (none, 0, s.txStamp port.val, wireFrame w.frame) })) ∧
    (∀ d stamp f u r, (s.ethPort port.val).wire = some (some q.val, d, stamp, f) → ptpAt f = none → u = s.setEth port.val { s.ethPort port.val with wire := none } →
      r = txqReg port.val q.val 0 → u.regCheck (s.ethOwner r) true d 32 = .ok → u.regCheck (s.ethOwner r) true (s.ethRing r) 64 = .ok →
      ∃ w, w = (u.hbmWrite (d + 11) [0]).hbmWrite (d + 20) (natLe 4 (stamp / 1000000000) ++ natLe 4 (stamp % 1000000000)) ∧
        exec (.ethTxDone port) s = .next ((w.bumpRing r (leNat (w.hbmRead (s.ethRing r + 8) 8))).wardenFresh 2 (port.val * 16 + q.val)))

/-- CAN modes and bus events. A mode write with valid timing takes the mode and drives the standby pin as the mode says; one with invalid timing or
SLEEP with work pending is refused; a wake, a recovery from bus off and a dominant bus change the node as stated. Spec: 12_ethernet_can_i2c.md, CAN
FD; model choices: log 38. -/
def Obligations.CanModes : Prop :=
  (∀ (s : State) (f : Func) (n : Fin 8) (v w : Word) (on off : BitVec 8), s.mayWrite f (cfReg n.val 0x40) = true →
     w = (if s.cfMode n.val = 0 then v else setBit v 29 (s.cfFifo n.val)) →
     on = s.pins.canStb ||| BitVec.ofNat 8 (2 ^ n.val) → off = s.pins.canStb &&& ~~~ BitVec.ofNat 8 (2 ^ n.val) →
     (fld v 31 30 = 0 → exec (.canInit f n v) s
       = .next { (s.store f (cfReg n.val 0x40) w 0).leaveBus n.val with pins := { s.pins with canStb := off } }) ∧
     (fld v 31 30 = 1 → s.timingOk n.val = true → exec (.canNormal f n v) s
       = .next { s.store f (cfReg n.val 0x40) w 0 with pins := { s.pins with canStb := off } }) ∧
     (fld v 31 30 = 2 → s.timingOk n.val = true → exec (.canListen f n v) s
       = .next { (s.store f (cfReg n.val 0x40) w 0).leaveBus n.val with pins := { s.pins with canStb := off } }) ∧
     (fld v 31 30 = 3 → s.timingOk n.val = true → s.cfPending n.val = 0 → (s.cf n.val).fifo = [] → exec (.canSleep f n v) s
       = .next { (s.store f (cfReg n.val 0x40) w 0).leaveBus n.val with
                 pins := { s.pins with canStb := if tbit w 26 && !tbit w 25 then on else off } }) ∧
     (fld v 31 30 = 3 → s.timingOk n.val = true → s.cfPending n.val ≠ 0 → exec (.canSleep f n v) s = .next (s.wb (cfReg n.val 0x40) 9 true)) ∧
     (fld v 31 30 ≠ 0 → s.timingOk n.val = false →
       exec (.canNormal f n v) s = .next (s.wb (cfReg n.val 0x40) 8 true) ∧ exec (.canListen f n v) s = .next (s.wb (cfReg n.val 0x40) 8 true))) ∧
  (∀ (s : State) (f : Func) (n : Fin 8), s.canonical = true → mapWf canDflt s.can = true →
     (s.cfOn n.val = true → s.cfMode n.val = 3 → s.rb (cfReg n.val 0x40) 25 = false →
       ∃ t, exec (.canWake n none) s = .next t ∧ t.cfMode n.val = 1 ∧ t.rb (rga (cfPage n.val) oRaw) 4 = true ∧
         t.pins.canStb = s.pins.canStb &&& ~~~ BitVec.ofNat 8 (2 ^ n.val) ∧ t.can = s.can ∧ t.drv = s.drv) ∧
     (s.mayWrite f (cfReg n.val 0x50) = true →
       ((s.cf n.val).off = true → exec (.recover f n 8) s = .next (s.setCf n.val { s.cf n.val with counting := true })) ∧
       ((s.cf n.val).off = false → exec (.recover f n 8) s = .next s)) ∧
     ((s.cf n.val).off = true → (s.cf n.val).counting = true →
       ∃ t, exec (.busOffRecovery n) s = .next t ∧ (t.cf n.val).off = false ∧ (t.cf n.val).tec = 0 ∧ (t.cf n.val).rec_ = 0 ∧
         t.rf (cfReg n.val 0x4C) 15 14 = 0 ∧ t.rf (cfReg n.val 0x4C) 23 16 = 0) ∧
     (s.cfOn n.val = true → s.cfMode n.val = 1 →
       ∃ t, exec (.busDominant n) s = .next t ∧ (t.cf n.val).suspended = true ∧ t.cfSends n.val = false ∧ t.rb (rga (cfPage n.val) oRaw) 7 = true) ∧
     (exec (.busRecessive n) s = .next (s.setCf n.val { s.cf n.val with suspended := false })))

/-- CAN buffers, arbitration, frames, errors and timeouts. Requests, aborts, push, flush and pop act on their buffers; arbitration takes the winning
frame; a sent frame leaves its buffer and lowers TEC, with delay compensation its measured delay is kept, and one above 2 µs fails the frame; a
matching received frame enters the FIFO with the time of its start and lowers REC; an error adds its weights and enters bus off above 255; timeouts
remove frames or mark filters. Spec: 12_ethernet_can_i2c.md, CAN FD; model choices: log 38. -/
def Obligations.CanBuffers : Prop :=
  (∀ (s : State) (f : Func) (n : Fin 8), s.mayWrite f (cfReg n.val 0x50) = true →
     (∀ k : Fin 3, s.cfFifo n.val = false →
       exec (.txbReq f n (w32 (2 ^ (4 + k.val)))) s = .next (s.wb (cfReg n.val 0x54) (8 + k.val) true) ∧
       ((s.cf n.val).busy ≠ some k.val → exec (.txbAbort f n (w32 (2 ^ (8 + k.val)))) s = .next (s.wb (cfReg n.val 0x54) (8 + k.val) false)) ∧
       ((s.cf n.val).busy = some k.val →
         exec (.txbAbort f n (w32 (2 ^ (8 + k.val)))) s = .next (s.setCf n.val { s.cf n.val with aborts := (s.cf n.val).aborts ++ [k.val] }))) ∧
     (s.cfFifo n.val = true →
       ((s.cf n.val).fifo.length < 32 →
         exec (.txfPush f n 2) s = .next ((s.setCf n.val { s.cf n.val with fifo := (s.cf n.val).fifo ++ [s.blockFrame n.val 0x280] }).showCan n.val)) ∧
       (32 ≤ (s.cf n.val).fifo.length → exec (.txfPush f n 2) s = .next (s.wb (cfReg n.val 0x54) 11 true)) ∧
       ((s.cf n.val).busy = none → exec (.txfFlush f n 4) s = .next ((s.setCf n.val { s.cf n.val with fifo := [] }).showCan n.val)) ∧
       ((s.cf n.val).busy ≠ none → exec (.txfFlush f n 4) s = .next ((s.setCf n.val { s.cf n.val with fifo := (s.cf n.val).fifo.take 1 }).showCan n.val))) ∧
     (∀ x, x = s.cf n.val →
       (x.shadow = none → exec (.rxPop f n 1 none) s = .next ((s.setCf n.val { x with
         rx := x.rx.drop 1
         shadow := none
         locked := false
         overMark := (s.rd (cfReg n.val 0x74)).toNat }).showCan n.val)) ∧
       (∀ r, x.shadow = some r → exec (.rxPop f n 1 none) s = .next ((s.setCf n.val { x with
         rx := x.rx.drop 1 ++ [{ r with lost := decide (x.overMark ≠ (s.rd (cfReg n.val 0x74)).toNat) }]
         shadow := none
         locked := false
         overMark := (s.rd (cfReg n.val 0x74)).toNat }).showCan n.val)))) ∧
  (∀ (s : State) (n : Fin 8) (x : CanNode), x = s.cf n.val → s.canonical = true → mapWf canDflt s.can = true →
     (s.cfSends n.val = true → x.busy = none →
       (s.cfFifo n.val = true → x.fifo ≠ [] → exec (.canArbitration n) s = .next ((s.setCf n.val { x with
         busy := some 0
         sof := s.ptpNs }).showCan n.val)) ∧
       (∀ k : Fin 3, s.cfFifo n.val = false → s.cfPending n.val = 2 ^ k.val →
         exec (.canArbitration n) s = .next ((s.setCf n.val { x with
           busy := some k.val
           sof := s.ptpNs }).showCan n.val)) ∧
       (∀ p a b, s.cfFifo n.val = false → s.cfPending n.val = 3 → p = decide (128 ≤ x.tec ∨ 128 ≤ x.rec_) →
         a = sentBits p (s.blockFrame n.val 0x100) → b = sentBits p (s.blockFrame n.val 0x180) →
         exec (.canArbitration n) s = .next ((s.setCf n.val { x with
           busy := some (if wins b a then 1 else 0)
           sof := s.ptpNs }).showCan n.val))) ∧
     (∀ (k : Fin 3) delay, x.busy = some k.val → s.cfFifo n.val = false → s.rb (cfReg n.val 0x40) 28 = false →
       s.rb (cfReg n.val 0x48) 13 = false ∨ delay ≤ 160 →
       ∃ t, exec (.canFrameSent n delay) s = .next t ∧ t.rb (cfReg n.val 0x54) (8 + k.val) = false ∧ (t.cf n.val).busy = none ∧ (t.cf n.val).tec = x.tec - 1 ∧
         (t.cf n.val).rx = x.rx ∧ (t.cf n.val).fifo = x.fifo ∧ t.rb (rga (cfPage n.val) oRaw) 1 = true) ∧
     (∀ (k : Fin 3) delay f d, x.busy = some k.val → s.cfFifo n.val = false → f = s.blockFrame n.val (0x100 + 0x80 * k.val) → f.fdf = true → f.brs = true →
       d = s.rd (cfReg n.val 0x48) → tbit d 13 = true →
       (delay ≤ 160 → ∃ t, exec (.canFrameSent n delay) s = .next t ∧ (t.cf n.val).delay = delay ∧
         (t.cf n.val).ssp = delay + fld d 12 6 * (fld d 31 27 + 1) ∧ t.rb (cfReg n.val 0x54) (8 + k.val) = false) ∧
       (160 < delay → k.val ∉ x.aborts → x.tec + 8 ≤ 255 → ∃ t, exec (.canFrameSent n delay) s = .next t ∧ (t.cf n.val).busy = none ∧
         t.rb (cfReg n.val 0x54) (8 + k.val) = s.rb (cfReg n.val 0x54) (8 + k.val) ∧ (t.cf n.val).tec = x.tec + 8 ∧
         (t.rf (cfReg n.val 0x4C) 13 11 = 4 ∨ t.rf (cfReg n.val 0x4C) 13 11 = 5))) ∧
     (∀ frame age k, s.cfOn n.val = true → s.cfMode n.val = 1 ∨ s.cfMode n.val = 2 → x.off = false → frame.fdf = false → x.busy = none → x.rec_ ≤ 127 →
       (List.range 32).find? (fun k => s.fltHit n.val k frame) = some k → x.rx.length < 64 →
       ∃ t, exec (.canFrameReceived n frame age) s = .next t ∧
         (t.cf n.val).rx = x.rx ++ [⟨frame, false, k, false, (2 * s.ptpNs - 25 * age) / 2 / 1000000000, (2 * s.ptpNs - 25 * age) / 2 % 1000000000⟩] ∧
         (t.cf n.val).rec_ = x.rec_ - 1 ∧ (t.cf n.val).tec = x.tec ∧ t.rb (rga (cfPage n.val) oRaw) 0 = true ∧ t.rb (cfReg n.val (0x40C + 16 * k)) 31 = false) ∧
     (∀ kind ta ra, s.cfOn n.val = true → s.cfMode n.val = 1 ∨ s.cfMode n.val = 2 → x.off = false →
       (x.tec + ta ≤ 255 → ∃ t, exec (.canError n kind false false ta ra) s = .next t ∧ (t.cf n.val).tec = x.tec + ta ∧ (t.cf n.val).rec_ = x.rec_ + ra ∧
         (t.cf n.val).off = false ∧ t.rf (cfReg n.val 0x4C) 13 11 = (errField kind).1) ∧
       (255 < x.tec + ta → ∃ t, exec (.canError n kind true false ta ra) s = .next t ∧ (t.cf n.val).off = true ∧ (t.cf n.val).busy = none ∧
         t.rf (cfReg n.val 0x4C) 15 14 = 2 ∧ t.rf (cfReg n.val 0x4C) 23 16 = 255)) ∧
     (∀ k : Fin 32, s.cfFifo n.val = false → k.val < 3 → (s.cfPending n.val >>> k.val) % 2 = 1 →
       ∃ t, exec (.txTimeout n k) s = .next t ∧ t.rb (cfReg n.val 0x54) (8 + k.val) = false ∧ (t.cf n.val).busy ≠ some k.val ∧
         t.rb (rga (cfPage n.val) oRaw) 6 = true) ∧
     (∀ k : Fin 32, s.cfFifo n.val = true → k.val < x.fifo.length →
       ∃ t, exec (.txTimeout n k) s = .next t ∧ (t.cf n.val).fifo = x.fifo.take k.val ++ x.fifo.drop (k.val + 1) ∧ t.rb (rga (cfPage n.val) oRaw) 6 = true) ∧
     (∀ k : Fin 32, s.rb (cfReg n.val (0x400 + 16 * k.val)) 31 = true → s.rf (cfReg n.val (0x408 + 16 * k.val)) 15 0 ≠ 0 →
       ∃ t, exec (.rxTimeout n k) s = .next t ∧ t.rb (cfReg n.val (0x40C + 16 * k.val)) 31 = true ∧ t.rb (rga (cfPage n.val) oRaw) 5 = true ∧ OnlyRegsLog s t))

/-- I2C transfers, the bus clear and SMBALERT. START begins a transfer, or ends with status 6 on a fenced and 7 on a busy port; the end of a transfer
writes its status, and one whose bus clear fails fences the port; a clock held low stops the transfer; the bus clear lifts the fence; SMBALERT reads
every status, shows whether a regulator reports one, and notes a new fault. Spec: 12_ethernet_can_i2c.md, I²C and SMBus; model choices: log 39. -/
def Obligations.I2cTransfers : Prop :=
  ∀ (s : State) (n : Fin 2), s.canonical = true →
    (∀ f : Func, s.mayWrite f (icReg n.val 0x48) = true → s.blkOn (icPage n.val) = true →
      (s.icFenced n.val = true → exec (.i2cStart f n 1 []) s = .next (s.icEnd n.val 6)) ∧
      (s.icFenced n.val = false → s.rb (icReg n.val 0x4C) 30 = true → exec (.i2cStart f n 1 []) s = .next (s.icEnd n.val 7)) ∧
      (s.icFenced n.val = false → s.rb (icReg n.val 0x4C) 30 = false → (s.ic n.val).run = none → s.sensors n.val = [] → mapWf dflt s.i2c = true →
        ∃ t, exec (.i2cStart f n 1 []) s = .next t ∧ (t.ic n.val).run = some .host ∧ (t.ic n.val).xfer = s.rd (icReg n.val 0x44) ∧
          t.rb (icReg n.val 0x4C) 30 = true ∧ OnlyRegs { s with i2c := t.i2c } t)) ∧
    ((s.ic n.val).run = some .host → mapWf dflt s.i2c = true →
      ((s.ic n.val).hostWaits = false → s.sensors n.val = [] →
        ∃ t, exec (.i2cTransferDone n [] .nackAddr) s = .next t ∧ t.rf (icReg n.val 0x4C) 18 16 = 1 ∧ t.rb (icReg n.val 0x4C) 31 = true ∧
          t.rb (icReg n.val 0x4C) 30 = false ∧ (t.ic n.val).run = none ∧ t.rb (rga (icPage n.val) oRaw) 0 = true) ∧
      (∀ r, exec (.i2cTransferDone n [false] r) s = .next ((s.incSat (icReg n.val 0x50) 31 16).icStuck n.val)) ∧
      (exec (.sclLowTimeout n false) s = .next ((((s.setIc n.val { s.ic n.val with
        run := none
        watch := true }).wb (icReg n.val 0x4C) 30 false).icEnd n.val 4).icServe n.val))) ∧
    ((s.ic n.val).run ≠ none → exec (.sclLowTimeout n true) s = .next s) ∧
    (s.icFenced n.val = true →
      exec (.i2cUnfence .mgmt n 2 [true]) s = .next (((((s.wb (rga (icPage n.val) oStat) 9 false).setBlk (icPage n.val) 2).wb (icReg n.val 0x4C) 29 false).incSat
        (icReg n.val 0x50) 31 16).icServe n.val)) ∧
    ((s.ic n.val).watch = true → exec (.busStuck n) s = .next (s.icStuck n.val)) ∧
    (∀ status : List (Nat × Word), (∀ r ∈ status, r.2 = 0) → 
      exec (.smbalert status) s = .next ((List.range 8).foldl (fun u k => u.pmSend k 0x79 0) ((s.wb (rga 0x330 0x4C) 28 false).raise 0x330 2))) ∧
    (∀ (k : Fin 8) w, w ≠ 0 → s.rb (rga 6 (0x80 + 4 * k.val)) 31 = true → s.rf (rga 6 (0x80 + 4 * k.val)) 3 0 ≠ 0 →
      s.alarm (60 + k.val) = false → exec (.smbalert [(k.val, w)]) s
        = .next ((((List.range 8).foldl (fun u j => u.pmSend j 0x79 0) ((s.wb (rga 0x330 0x4C) 28 true).raise 0x330 2)).setAlarm (60 + k.val) true).railFault
          (16 + k.val)))

/-- Deadline slots, monitors and the start-up run. An expired hold of a slot marks it, clears its service bits and moves no group outside it; STOP_CLR
releases a slot only where that is allowed; a lockstep fault turns the torque of every group off; the control monitor forces every output safe;
DIAG_RUN starts only in the safe state; the start-up run passes or enters SAFE_HOLD. Spec: 13_safety_security.md, Warden, 13_safety_security.md,
Start-up error injection, 13_safety_security.md, Integrity targets and safe states; model choices: log 40. -/
def Obligations.DeadlineSlots : Prop :=
  (∀ (s : State) (i : Fin 64) (f : Func), s.canonical = true →
     (s.rb (slotStat i.val) 2 = true →
       exec (.wdHoldExpired i true) s = .next (s.slotFresh i.val) ∧
       (s.slotGroups i.val = 0 → ∃ t, exec (.wdHoldExpired i false) s = .next t ∧ t.rb (slotStat i.val) 1 = true ∧ t.rb (slotStat i.val) 2 = false ∧
         t.drv.seen.getLsbD i.val = false ∧ t.drv.clr.getLsbD i.val = false ∧ t.rb (rga 8 oRaw) 1 = true ∧ t.pins = s.pins)) ∧
     (s.mayWrite f (rga 8 (0x10C + 16 * i.val)) = true →
       (s.rb (slotStat i.val) 0 = false → s.rb (slotStat i.val) 2 = true → exec (.stopClr f i 1) s = .next s) ∧
       (s.rb (slotStat i.val) 0 = true → s.rb (slotStat i.val) 1 = true → s.drv.seen.getLsbD i.val = true →
         ∃ t, exec (.stopClr f i 1) s = .next t ∧ t.rb (slotStat i.val) 1 = false ∧ t.drv.clr.getLsbD i.val = true ∧ t.pins = s.pins)) ∧
     (∃ u, u.canonical = true ∧ u.rb aWdStat 27 = true ∧ u.rf (rga 8 oStat) 2 0 = 5 ∧ OnlyRegsLog s u ∧
       exec .wdLockstep s = .next ((List.range 12).foldl (fun s g => s.torqueOff g) (u.forceStoB 0xFFF))) ∧
     (∀ voltage, ∃ t, exec (.ctrlMonitor voltage) s = .next t ∧ t.noTorque = true ∧ t.drv.forced = true ∧ t.hbm = s.hbm ∧ t.eng = s.eng ∧
       t.rb (rga 8 oRaw) 4 = true)) ∧
  (∀ (s : State) (f : Func), s.mayWrite f (rga 8 0x40) = true →
     (s.allSafe = true → s.rb aWdStat 29 = false → (∀ t, t < 8 → s.tnState t = 0 ∨ s.tnState t = 3) →
       exec (.diagRun f 2) s = .next { s.wb aWdStat 29 true with ost := { s.ost with diagOnDemand := true } }) ∧
     (s.allSafe = false → exec (.diagRun f 2) s = .next (s.wb aWdStat 28 true)) ∧
     (∀ inst micros epochFailed rows u, s.ost.diagOnDemand = false → s.stage = 2 → u = s.startLedger epochFailed rows →
       u.badRow (s.ost.cold && epochFailed) = none →
       exec (.startupRunDone 0 inst micros epochFailed rows) s = .next ((((({ (((u.wr (rga 8 0x60) 0).wr (rga 8 0x64) 0).incSat (rga 8 0x68) 31 16).pf (rga 8 0x68) 15 0
         (min micros 0xFFFF) with ost := { u.ost with lastRunPass := true, diagOnDemand := false } } : State).wb aWdStat 29 false).raise 8 3).wb aWdStat 30
           false).setStage 3)) ∧
     (∀ inst micros epochFailed rows u, s.ost.diagOnDemand = false → s.stage = 2 → u = s.startLedger epochFailed rows →
       u.badRow (s.ost.cold && epochFailed) = none →
       exec (.startupRunDone 1 inst micros epochFailed rows) s = .next (((({ (((u.wr (rga 8 0x60) 1).wr (rga 8 0x64) (w32 (inst % 2 ^ 24))).incSat (rga 8 0x68) 31 16).pf
         (rga 8 0x68) 15 0 (min micros 0xFFFF) with ost := { u.ost with lastRunPass := false, diagOnDemand := false } } : State).wb aWdStat 29 false).raise 8
           3).enterSafeHold 0 |>.setStage 6)))

/-- Writes of the region table. A virtual function changes nothing. BASE and SIZE are stored only while VALID is 0 and otherwise set REGION_FIELD; an
owner of 9 or more sets REGION_FIELD; setting VALID is refused on an overlap with any valid entry or beyond the capacity, and stored otherwise;
clearing VALID or changing OWNER or WRITE of a valid tenant entry is refused unless that tenant is FREE; entries of the physical function change at
any time. A refused write leaves the entry and records it in SEC_ERR. Spec: R404. -/
def Obligations.RegionTable : Prop :=
  ∀ (s : State) (e : Fin 128) (v : Word),
    (∀ (n : Fin 8) (r : Fin 3), exec (.regionWrite (.vf n) e r v) s = .next s) ∧
    (∀ (f : Func) (r : Fin 3), r.val ≠ 0 → s.mayWrite f (regCfg e.val + 4 * r.val) = true →
      (s.rb (regCfg e.val) 31 = false → exec (.regionWrite f e r v) s = .next (s.store f (regCfg e.val + 4 * r.val) v 0)) ∧
      (s.rb (regCfg e.val) 31 = true → exec (.regionWrite f e r v) s = .next ((s.wb (rga 9 0x44) 4 true).pf (rga 9 0x44) 22 16 e.val))) ∧
    (∀ f : Func, s.mayWrite f (regCfg e.val) = true →
      (9 ≤ fld v 23 20 → exec (.regionWrite f e 0 v) s = .next ((s.wb (rga 9 0x44) 4 true).pf (rga 9 0x44) 22 16 e.val)) ∧
      (fld v 23 20 < 9 → s.rb (regCfg e.val) 31 = false →
        (tbit v 31 = false → exec (.regionWrite f e 0 v) s = .next (s.store f (regCfg e.val) v 0)) ∧
        (tbit v 31 = true → (∃ o, o < 128 ∧ o ≠ e.val ∧ s.rb (regCfg o) 31 = true ∧
            (s.rd (regBase o)).toNat ≤ (s.rd (regBase e.val)).toNat + (s.rd (regSize e.val)).toNat ∧
            (s.rd (regBase e.val)).toNat ≤ (s.rd (regBase o)).toNat + (s.rd (regSize o)).toNat) →
          exec (.regionWrite f e 0 v) s = .next ((s.wb (rga 9 0x44) 1 true).pf (rga 9 0x44) 22 16 e.val)) ∧
        (tbit v 31 = true → s.regOverlaps e.val = false → s.hbmUnits < (s.rd (regBase e.val)).toNat + (s.rd (regSize e.val)).toNat + 1 →
          exec (.regionWrite f e 0 v) s = .next ((s.wb (rga 9 0x44) 3 true).pf (rga 9 0x44) 22 16 e.val)) ∧
        (tbit v 31 = true → s.regOverlaps e.val = false → (s.rd (regBase e.val)).toNat + (s.rd (regSize e.val)).toNat + 1 ≤ s.hbmUnits →
          exec (.regionWrite f e 0 v) s = .next ((s.store f (regCfg e.val) v 0).takeRegion e.val (fld v 23 20)))) ∧
      (∀ o w, fld v 23 20 < 9 → s.rb (regCfg e.val) 31 = true → o = s.rf (regCfg e.val) 23 20 →
        w = (if tbit v 31 = false then (s.leaveRegion e.val o).store f (regCfg e.val) v 0 else if fld v 23 20 = o then s.store f (regCfg e.val) v 0
          else ((s.leaveRegion e.val o).store f (regCfg e.val) v 0).takeRegion e.val (fld v 23 20)) →
        (8 ≤ o → exec (.regionWrite f e 0 v) s = .next w) ∧
        (o < 8 → (tbit v 31 = true ∧ fld v 23 20 = o ∧ tbit v 30 = s.rb (regCfg e.val) 30 ∨ s.tnFree o = true) → exec (.regionWrite f e 0 v) s = .next w) ∧
        (o < 8 → (tbit v 31 = false ∨ fld v 23 20 ≠ o ∨ tbit v 30 ≠ s.rb (regCfg e.val) 30) → s.tnFree o = false →
          exec (.regionWrite f e 0 v) s = .next ((s.wb (rga 9 0x44) 2 true).pf (rga 9 0x44) 22 16 e.val))))

/-- Attestation: start and report. ATT_START is refused for a misaligned or foreign report address and discarded while BUSY; the end writes the report
at the address and changes no other byte of memory. Spec: 13_safety_security.md, Field roster and attestation; model choices: logs 12, 45. -/
def Obligations.Attestation : Prop :=
  ∀ (s : State) (f : Func), s.canonical = true →
    (s.mayWrite f (rga 9 0x128) = true → s.rb (rga 9 0x12C) 30 = false →
      (s.attAddr % 64 ≠ 0 → exec (.attStart f 1) s = .next (s.wb (rga 9 0x12C) 29 true)) ∧
      (s.attAddr % 64 = 0 → s.regCheck 8 true s.attAddr 352 = .ok → exec (.attStart f 1) s = .next (s.wb (rga 9 0x12C) 30 true)) ∧
      (∀ a, s.attAddr % 64 = 0 → s.regCheck 8 true s.attAddr 352 = .bounds a → exec (.attStart f 1) s = .next (s.wb (rga 9 0x12C) 29 true))) ∧
    (s.rb (rga 9 0x12C) 30 = true → exec (.attStart f 1) s = .next s) ∧
    (s.rb (rga 9 0x12C) 30 = true →
      ∃ t, exec .attestationDone s = .next t ∧ t.rb (rga 9 0x12C) 31 = true ∧ t.rb (rga 9 0x12C) 30 = false ∧ t.rb (rga 9 oRaw) 2 = true ∧
        t.hbmRead s.attAddr 256 = bslice (attBody s) 0 256 ∧ (∀ a, a < s.attAddr ∨ s.attAddr + ((attBody s).length + 96) ≤ a → t.hbmByte a = s.hbmByte a) ∧
        t.spad = s.spad)

/-- Mailbox queries, management accesses, fences and the timeout. GET_INFO, LOG_READ and SENSOR_READ answer through the response registers; MGMT_READ
and MGMT_WRITE act on aligned registers, are logged, and are refused otherwise; MAILBOX_FENCE fences a tensor-side unit and UNFENCE lifts a sticky
fence; a timeout ends the command with result 8. Spec: 14_ostler_ledger_recovery.md, The management mailbox; model choices: logs 16, 19. -/
def Obligations.MailboxQueries : Prop :=
  (∀ (s : State), s.canonical = true →
     (s.ost.cmd = some 1 →
       ∃ t, exec .getInfo s = .next t ∧ t.rd (rga 1 0x64) = w32 (s.fwVersion 0) ∧ t.rd (rga 1 0x68) = w32 (s.fwVersion 1) ∧ t.rd (rga 1 0x6C) = s.ledVal 4 ∧
         t.rf omStat 3 0 = 0 ∧ t.rb omStat 31 = true ∧ t.rb omStat 30 = false ∧ t.ost.cmd = none) ∧
     (s.ost.cmd = some 2 →
       (s.omArg 1 = 0 ∨ 32 < s.omArg 1 → exec .logRead s = .next (s.omDone 2)) ∧
       (∀ old recs, 0 < s.omArg 1 → s.omArg 1 ≤ 32 → old = s.log.nextSeq - s.log.flash.length →
         recs = (s.log.flash.drop (max (s.omArg 0) old - old)).take (s.omArg 1) →
         exec .logRead s = .next ((((s.omData (((List.range recs.length).zip recs).flatMap (fun x => logBytes x.2 (max (s.omArg 0) old + x.1)))).omResp 0
           (w32 recs.length)).omResp 1 (w32 old)).omDone 0))) ∧
     (s.ost.cmd = some 14 →
       ∃ bs : List Byte, bs.length ≤ 1024 ∧ exec .sensorRead s = .next ((s.omData bs).omDone 0)) ∧
     (∀ op, s.ost.cmd = some op →
       ∃ t, exec .mailboxTimeout s = .next t ∧ t.rf omStat 3 0 = 8 ∧ t.rb omStat 31 = true ∧ t.rb omStat 30 = false ∧ t.ost.cmd = none ∧
         t.rb (rga 1 oRaw) 0 = true)) ∧
  (∀ (s : State),
     (s.ost.cmd = some 10 →
       (mgmtOffset (s.omArg 0) = false → exec .mgmtRead s = .next (s.omDone 2)) ∧
       (∀ u, mgmtOffset (s.omArg 0) = true → u = s.localRead .mgmt (s.omArg 0) →
         exec .mgmtRead s = .next (((({ u with rdata := s.rdata } : State).logMgmt (s.omArg 0) u.rdata).omResp 0 u.rdata).omDone 0))) ∧
     (s.ost.cmd = some 11 →
       (mgmtOffset (s.omArg 0) = false → exec .mgmtWrite s = .next (s.omDone 2)) ∧
       (∀ (p : Fin 8) off, 0x40 ≤ off → off < 4096 → off % 4 = 0 → s.omArg 0 = rga (porPage p.val) off →
         exec .mgmtWrite s = .next (((s.logMgmt (s.omArg 0) (w32 (s.omArg 1))).store .mgmt (s.omArg 0) (w32 (s.omArg 1)) 0).omDone 0))) ∧
     (∀ p i, s.ost.cmd = some 12 → unitPage (s.omArg 0) = some p → pageId p = some i →
       (i.block.tensorSide = true → s.blk p ≠ 0 → exec .mailboxFence s = .next ((s.unitFence p (Config.eventCode evFence) true).omDone 0)) ∧
       (i.block.tensorSide = true → s.blk p = 0 → exec .mailboxFence s = .next (s.omDone 6)) ∧
       (i.block.tensorSide = false → exec .mailboxFence s = .next (s.omDone 2))) ∧
     (∀ p, s.ost.cmd = some 13 → unitPage (s.omArg 0) = some p →
       (s.blk p = 4 → exec .unfence s = .next ((s.liftFence p true).omDone 0)) ∧
       (s.blk p ≠ 4 → exec .unfence s = .next (s.omDone 6))))

/-- Firmware slots: erase, write, verify, activate, confirm, revert. Each firmware command changes the inactive slot or its Ledger state, or is
refused as stated: no hold-up energy gives result 5, an unverified slot result 6, a device error result 7. Spec: 14_ostler_ledger_recovery.md,
Firmware slots; model choices: logs 8, 41. -/
def Obligations.FirmwareCommands : Prop :=
  ∀ (s : State) (k : Nat), k = s.idleSlot → s.ledger.queue = [] → s.ledger.prog = none →
    (s.ost.cmd = some 3 → s.slotState k ≠ 3 →
      (200 ≤ s.holdup → exec (.fwErase false) s = .next (((s.program ⟨1 + k, 0, false⟩).setSlot k []).omDone 0)) ∧
      (s.holdup < 200 → exec (.fwErase false) s = .next ((s.refuseWrite (1 + k)).omDone 5)) ∧
      exec (.fwErase true) s = .next (s.omDone 7)) ∧
    (s.ost.cmd = some 4 → s.slotState k ≠ 3 → s.omArg 0 % 256 = 0 → s.omLen % 256 = 0 → 0 < s.omLen → s.omLen ≤ 1024 → s.omArg 0 + s.omLen ≤ 2 ^ 20 →
      exec (.fwWrite false) s = .next ((s.setSlot k ((List.range s.omLen).foldl (fun m i => mapSet fwDflt m (s.omArg 0 + i) (s.omByte i))
        (if k = 0 then s.ost.slotA else s.ost.slotB))).omDone 0)) ∧
    (∀ u, s.ost.cmd = some 5 → s.slotState k ≠ 3 → 200 ≤ s.holdup → u = s.program ⟨1 + k, 1, false⟩ →
      exec .fwVerify s = .next (if s.fwCheck k = 0 then
        (({ u with ost := { u.ost with verified := true } } : State).omResp 0 (w32 (u.fwVersion k))).omDone 0 else s.omDone (s.fwCheck k))) ∧
    (s.ost.cmd = some 6 → s.slotState k ≠ 3 →
      (s.ost.verified = false → exec .fwActivate s = .next (s.omDone 6)) ∧
      (s.ost.verified = true → 200 ≤ s.holdup →
        exec .fwActivate s = .next (((s.program ⟨1 + k, 2, false⟩).program ⟨3, 0, false⟩).omDone 0))) ∧
    (∀ u, s.ost.cmd = some 7 → s.slotState s.ost.running = 2 → s.slotState (1 - s.ost.running) ≠ 3 → s.fwRollback s.ost.running ≤ (s.ledVal 4).toNat →
      200 ≤ s.holdup → u = s.program ⟨1 + s.ost.running, 3, false⟩ →
      exec .fwConfirm s = .next (({ u with ost := { u.ost with trialOn := false } } : State).omDone 0)) ∧
    (s.ost.cmd = some 7 → s.slotState s.ost.running ≠ 2 → exec .fwConfirm s = .next (s.omDone 6)) ∧
    (∀ u : State, s.ost.trialOn = true → 200 ≤ s.holdup → u = { s with ost := { s.ost with trialOn := false } } →
      exec .trialTimeout s = .next ((u.program ⟨1 + s.ost.running, 4, false⟩).logNamed 1 evFwRevert 5 s.ost.running 255))

/-- Ledger writes, the queue, the scan and log pages. A permitted LEDGER_WRITE is queued and one without hold-up energy refused; ROSTER_SET queues the
twelve words of an entry; the queue starts one write at a time; a finished write changes exactly its word, and an exempt one that keeps failing is
abandoned; the scan repairs a row whose copies differ or have lost their CRC, or reports it; a full page moves to the flash. Spec:
14_ostler_ledger_recovery.md, The Ledger, 14_ostler_ledger_recovery.md, The event log; model choices: logs 42, 47. -/
def Obligations.LedgerWrites : Prop :=
  ∀ (s : State),
    (s.ost.cmd = some 8 →
      (ledgerWritable (s.omArg 0) = false → exec .ledgerWrite s = .next (s.omDone 2)) ∧
      (s.ledger.queue = [] → s.ledger.prog = none → 0x900 ≤ s.omArg 0 → s.omArg 0 < 0x1000 →
        (200 ≤ s.holdup → exec .ledgerWrite s = .next ((s.program ⟨s.omArg 0, w32 (s.omArg 1) &&& ledgerMask (s.omArg 0), false⟩).omDone 0)) ∧
        (s.holdup < 200 → exec .ledgerWrite s = .next ((s.refuseWrite (s.omArg 0)).omDone 5)))) ∧
    (s.ost.cmd = some 9 →
      (64 ≤ s.omArg 0 → exec .rosterSet s = .next (s.omDone 2)) ∧
      (s.omArg 0 < 64 → s.ledger.queue = [] → s.ledger.prog = none → 200 ≤ s.holdup →
        exec .rosterSet s = .next (((List.range 12).foldl (fun u i => u.program ⟨0x600 + 12 * s.omArg 0 + i,
          if i = 11 then setBit (s.rd (rga 1 0x12C)) 31 (s.omArg 1 % 2 == 1) else s.rd (rga 1 (0x100 + 4 * i)), false⟩) s).omDone 0))) ∧
    (∀ x r, s.ledger.prog = none → s.ledger.queue = x :: r →
      (x.exempt = true ∨ 200 ≤ s.holdup → exec .ledgerDequeue s = .next (setLedger s { s.ledger with
        queue := r
        prog := some x })) ∧
      (x.exempt = false → s.holdup < 200 → exec .ledgerDequeue s = .next ((setLedger s { s.ledger with queue := r }).refuseWrite x.word))) ∧
    (∀ x, s.ledger.prog = some x → x.exempt = true →
      exec (.ledgerWriteDone true) s = .next ((setLedger s { s.ledger with prog := none }).wb (rga 2 0x48) 31 true)) ∧
    (∀ x, s.ledger.prog = some x → mapWf dfltW s.ledger.ram = true →
      ∃ t, exec (.ledgerWriteDone false) s = .next t ∧ t.ledger.prog = none ∧ t.ledger.queue = s.ledger.queue ∧ t.ledVal x.word = x.value ∧
        (∀ w, w ≠ x.word → t.ledVal w = s.ledVal w)) ∧
    (∀ r c, r = s.ledger.scan →
      (readRow (s.lrow r) = .used c → exec (.ledgerScan false false) s = .next (setLedger s { s.ledger with scan := (r + 1) % 256 })) ∧
      (readRow (s.lrow r) = .repair c → exec (.ledgerScan false false) s = .next ((setLedger s { s.ledger with
        scan := (r + 1) % 256
        rows := mapSet dflt s.ledger.rows r ⟨c, c⟩ }).noteRepair r)) ∧
      (readRow (s.lrow r) = .lost →
        exec (.ledgerScan false false) s = .next ((setLedger s { s.ledger with scan := (r + 1) % 256 }).logNamed 2 evLedgerLost 5 r 255)) ∧
      (s.canonical = true → s.lrow r = ⟨c, c⟩ → c.good = true → mapWf dflt s.ledger.rows = true → ∃ t, exec (.ledgerScan false true) s = .next t ∧ t.lrow r = ⟨c, c⟩ ∧
        t.ledger.scan = (r + 1) % 256 ∧ t.rb (rga 2 0x48) 30 = true)) ∧
    (∀ x l, s.log.page = [x] → s.log.fifo = l → l.length ≤ 8 → s.log.counts = [0, 0, 0, 0, 0, 0, 0] → s.log.nextSeq % 2048 ≠ 0 →
      exec .logPageWritten s = .next { s with log := { s.log with
        flash := s.log.flash ++ [x]
        nextSeq := s.log.nextSeq + 1
        page := l
        fifo := [] } })

/-- Fences of units, drain stalls and state comparison. A fence that is not sticky lifts and a sticky one stays, a unit that is OFF stays so; a drain
stall faults and fences the unit; a first mismatch is noted and a second one faults and fences. Spec: 14_ostler_ledger_recovery.md, Fence and reclaim;
model choices: log 44. -/
def Obligations.UnitFences : Prop :=
  ∀ (s : State) (page p per : Nat) (i : PageId) (x : Fence), instPages page = some (p, per, i) → x = mapGet dflt s.ost.fences p →
    (x.active = true → x.sticky = false → s.blk p ≠ 0 →
      exec (.fenceLift page) s = .next (((({ s with ost := { s.ost with fences := mapSet dflt s.ost.fences p { x with
        sticky := false
        active := false } } } : State).wb (rga p oStat) 9 false).setBlk p 2).kick)) ∧
    (x.active = true → x.sticky = true → s.blk p ≠ 0 → exec (.fenceLift page) s = .next (s.setBlk p 4)) ∧
    (s.blk p = 0 → exec (.fenceLift page) s = .next s) ∧
    (i.block.tensorSide = true →
      (∀ cls : Fin 2, exec (.drainStall page cls) s
        = .next (((s.recordFault p 0x0E01 (i.inst * 2 ^ 24 + i.block.code % 256 * 2 ^ 16 + cls.val)).logEvent p 0x0E01 0
          (i.inst * 2 ^ 24 + i.block.code % 256 * 2 ^ 16 + cls.val) 255).unitFence p 0x0E01 false)) ∧
      (s.blk p = 2 → s.holdsWork i = false →
        exec (.stateCompare page false false) s
          = .next { s with ost := { s.ost with mismatch := mapSet (fun _ => false) s.ost.mismatch p false } }) ∧
      (mapGet (fun _ => false) s.ost.mismatch p = false →
        exec (.stateCompare page true true) s
          = .next { s with ost := { s.ost with mismatch := mapSet (fun _ => false) s.ost.mismatch p true } }) ∧
      (mapGet (fun _ => false) s.ost.mismatch p = true →
        exec (.stateCompare page true true) s
          = .next (({ s with ost := { s.ost with mismatch := mapSet (fun _ => false) s.ost.mismatch p false } } : State).faultFence p 0x0E02
            (s.blk p * 8 + 3))))

/-- Temperature, rail, regulator and hold-up samples. An implausible temperature is invalid and counts as at the throttle; a plausible one enters the
filtered value, which raises its flag as it reaches the throttle, shuts the tensor side down at its trip and, for the control sensors, removes all
torque above theirs; rails inside their window only show their value and the control rails outside it remove all torque; a regulator poll updates its
register and the power; a stale input is marked. Spec: 14_ostler_ledger_recovery.md, Sensors and their checks, 16_boot_electrical.md, Supply rails;
model choices: logs 13, 43. -/
def Obligations.SensorSamples : Prop :=
  ∀ (s : State), s.canonical = true →
    (∀ (n : Fin 32) temp u, temp < -880 ∨ 2400 < temp → n.val ≠ 28 → n.val ≠ 29 → u = (s.wb (tsReg n.val) 31 false).clearSamples n.val →
      (s.alarm n.val = false → exec (.thermalSample n temp) s = .next ((u.setAlarm n.val true).raise 7 0)) ∧
      (s.alarm n.val = true → exec (.thermalSample n temp) s = .next (u.setAlarm n.val true))) ∧
    (∀ (n : Fin 32) temp l m u, -880 ≤ temp → temp ≤ 2400 → l = (temp :: s.samples n.val).take 8 → m = l.sum / (l.length : Int) → -32768 ≤ m → m ≤ 32767 →
      u = (s.addSample n.val 8 temp).wr (tsReg n.val) (w32 (2 ^ 31 + ofS 16 m)) →
      (n.val ≠ 28 → n.val ≠ 29 → m < s.trip n.val →
        (m < s.throttle n.val → exec (.thermalSample n temp) s = .next (u.setAlarm n.val false)) ∧
        (s.throttle n.val ≤ m → s.alarm n.val = false → exec (.thermalSample n temp) s = .next ((u.setAlarm n.val true).raise 7 0)) ∧
        (s.throttle n.val ≤ m → s.alarm n.val = true → exec (.thermalSample n temp) s = .next (u.setAlarm n.val true))) ∧
      (n.val ≠ 28 → n.val ≠ 29 → s.trip n.val ≤ m → ∃ t, exec (.thermalSample n temp) s = .next t ∧ t.tensorOff = true) ∧
      (n.val = 28 ∨ n.val = 29 → toS 16 (s.rf (rga 7 0x148) 15 0) ≤ m →
        ∃ t, exec (.thermalSample n temp) s = .next t ∧ t.noTorque = true ∧ t.rb (rga 7 oRaw) 1 = true ∧ t.hbm = s.hbm)) ∧
    (∀ i, exec (.sensorStale i true) s = .next s) ∧
    (∀ n : Fin 8, exec (.sensorStale (.regulator n) false) s = .next (s.wb (pmReg n.val) 31 true)) ∧
    (exec (.sensorStale .holdup false) s = .next ((s.wr (rga 6 0x68) 0x80000000).clearSamples 100)) ∧
    (∀ (n : Fin 32) u, n.val ≠ 28 → n.val ≠ 29 → u = ((s.wb (tsReg n.val) 31 false).wb (tsReg n.val) 30 true).clearSamples n.val →
      (s.alarm n.val = false → exec (.sensorStale (.thermal n) false) s = .next ((u.setAlarm n.val true).raise 7 0)) ∧
      (s.alarm n.val = true → exec (.sensorStale (.thermal n) false) s = .next (u.setAlarm n.val true))) ∧
    (∀ (n : Fin 12) (mv : Nat) l u m, u = s.addSample (40 + n.val) 4 (mv : Int) → l = u.samples (40 + n.val) → m = (meanI l).toNat →
      (n.val ≤ 2 → (s.rf (rga 6 0x4C) 23 12 - 50) * l.length ≤ l.sum.toNat → l.sum.toNat ≤ (s.rf (rga 6 0x4C) 23 12 + 50) * l.length →
        exec (.railSample n mv) s = .next ((u.wr (vmReg n.val) (w32 (2 ^ 31 + m % 65536))).setAlarm (40 + n.val) false)) ∧
      (n.val = 3 ∨ n.val = 4 → 840 * l.length < l.sum.toNat →
        ∃ t, exec (.railSample n mv) s = .next t ∧ t.rd (vmReg n.val) = w32 (2 ^ 31 + 2 ^ 29 + m % 65536) ∧ t.noTorque = true ∧ t.rb (rga 8 oRaw) 4 = true) ∧
      (n.val = 5 → 760 * l.length ≤ l.sum.toNat → l.sum.toNat ≤ 840 * l.length →
        exec (.railSample n mv) s = .next ((u.wr (vmReg n.val) (w32 (2 ^ 31 + m % 65536))).setAlarm (40 + n.val) false))) ∧
    (∀ (n : Fin 8) vout iout temp status, s.rb (rga 6 (0x80 + 4 * n.val)) 31 = false → exec (.pmbusPoll n vout iout temp status) s = .next s) ∧
    (∀ (n : Fin 8) (vout iout : Nat) temp u l i, s.rb (rga 6 (0x80 + 4 * n.val)) 31 = true →
      u = ((s.addSample (60 + n.val) 4 vout).addSample (70 + n.val) 4 iout).addSample (80 + n.val) 4 temp →
      l = u.samples (60 + n.val) → i = (meanI (u.samples (70 + n.val))).toNat → s.railTarget n.val * 9 * l.length ≤ l.sum.toNat * 10 →
      l.sum.toNat * 10 ≤ s.railTarget n.val * 11 * l.length →
      ∃ t, exec (.pmbusPoll n vout iout temp 0) s = .next t ∧
        t.rd (pmReg n.val) = w32 (ofS 7 (meanI (u.samples (80 + n.val))) * 2 ^ 24 + i % 2 ^ 24) ∧ t.rd (rga 6 0x58) = w32 t.ost.powerMw ∧
        OnlyRegs { s with ost := t.ost } t) ∧
    (exec (.holdupSample 4095) s = .next ((s.wr (rga 6 0x68) 0x80000000).clearSamples 100)) ∧
    (∀ code : BitVec 12, code ≠ 4095 →
      ∃ t, exec (.holdupSample code) s = .next t ∧ t.rb (rga 6 0x68) 31 = false ∧ t.rd (rga 6 0x68) = w32 (min t.holdup 0xFFFF) ∧
        OnlyRegs { s with ost := t.ost } t)

/-- Droop, recovery and the frequency loop. A droop counts and halves CORE_CLK, and the recovery restores it; a settled voltage lets a waiting rise
take place; one loop step lowers the clock above the power cap and raises it below, both by 25 MHz inside the bounds. Spec:
14_ostler_ledger_recovery.md, Adaptive voltage and frequency; model choices: logs 5, 43. -/
def Obligations.VoltageAndFrequency : Prop :=
  ∀ (s : State),
    (s.ost.droopPrev = none →
      exec .droop s = .next (({ (s.addSat (rga 6 0x5C) 1).setLimit 4 with
        ost := { s.ost with droopPrev := some ((s.addSat (rga 6 0x5C) 1).setLimit 4).fcur } } : State).setFcur
          (((s.addSat (rga 6 0x5C) 1).setLimit 4).fcur / 2))) ∧
    (s.ost.droopPrev ≠ none → exec .droop s = .next ((s.addSat (rga 6 0x5C) 1).setLimit 4)) ∧
    (∀ v, s.ost.droopPrev = some v →
      exec .droopRecovery s = .next ((({ s with ost := { s.ost with droopPrev := none } } : State).setFcur v).setLimit 0)) ∧
    (∀ v, s.ost.rising = some v →
      (s.ost.droopPrev = none → exec .voltageSettled s = .next (({ s with ost := { s.ost with rising := none } } : State).setFcur v)) ∧
      (s.ost.droopPrev ≠ none → exec .voltageSettled s = .next { s with ost := { s.ost with
        rising := none
        droopPrev := some v } })) ∧
    (∀ margin, s.ost.loopOn = false ∨ s.ost.firmware = false → exec (.dvfsTick margin) s = .next s) ∧
    (∀ mv, mv < 4096 → (s.setTarget mv).rf (rga 6 0x4C) 23 12 = mv) ∧
    (∀ margin fmin fmax cap, s.ost.loopOn = true → s.ost.firmware = true → s.ost.droopPrev = none → s.pmStale = false → fmin = s.rf (rga 6 0x40) 11 0 →
      fmax = min (s.rf (rga 6 0x44) 11 0) s.fuses.fmax → cap = s.rf (rga 6 0x48) 9 0 * 1000 → s.hotRel < 0 →
      (cap < s.ost.powerMw → fmin + 25 ≤ s.fcur → s.fcur ≤ fmax + 25 →
        exec (.dvfsTick margin) s = .next ((({ s.setLimit 2 with ost := { s.ost with rising := none } } : State).setFcur (s.fcur - 25)).setTarget
          (vTarget (s.fcur - 25) margin))) ∧
      (s.ost.powerMw * 100 < cap * 95 → s.hotRel < -80 → fmin < s.fcur + 25 → s.fcur + 25 < fmax →
        ∃ u, u = (s.setLimit 0).setTarget (vTarget (s.fcur + 25) margin) ∧
          exec (.dvfsTick margin) s = .next { u with ost := { u.ost with rising := some (s.fcur + 25) } }))

/-- Power-on: POR_N, straps, firmware choice, rails, the firmware watchdog. POR_N low removes all torque, keeps fuses, flash log, Ledger rows and
firmware and puts every other register at its reset value; its release reads the straps; the ROM chooses a firmware or enters SAFE_HOLD; the rails
start the tensor side; the watchdog restarts Ostler without touching registers, pins or motors. Spec: 16_boot_electrical.md, Boot timeline,
16_boot_electrical.md, Reset levels; model choices: logs 3, 4, 41. -/
def Obligations.PowerOn : Prop :=
  ∀ (s : State), s.canonical = true →
    (s.ledger.prog = none →
      ∃ t, exec .porNAssert s = .next t ∧ t.noTorque = true ∧ t.pins.porN = false ∧ t.fuses = s.fuses ∧ t.log.flash = s.log.flash ∧
        t.log.fifo = [] ∧ t.ledger.rows = s.ledger.rows ∧ t.ledger.queue = [] ∧ t.ost.slotA = s.ost.slotA ∧ t.ost.slotB = s.ost.slotB ∧ t.spad = [] ∧
        t.pending = s.pending ∧ (∀ a, a ≠ rga 6 0x4C → t.rd a = resetReg a)) ∧
    (∀ (id : BitVec 6) (l : List (BitVec 6)), s.pins.porN = false → (∀ x ∈ l, x = id) →
      ∃ t, exec (.porNRelease (id :: l)) s = .next t ∧ t.fuses.fieldId = id.toNat ∧ t.pins.porN = true ∧ t.stage = 1 ∧ t.ost.fieldIdBad = s.ost.fieldIdBad) ∧
    (∀ (id : BitVec 6) (l : List (BitVec 6)), s.pins.porN = false → (∃ x ∈ l, x ≠ id) →
      ∃ t, exec (.porNRelease (id :: l)) s = .next t ∧ t.ost.fieldIdBad = true ∧ t.fuses = s.fuses ∧ t.stage = 1) ∧
    (∀ r : BootVerify, s.ost.firmware = false → s.pins.porN = true → s.stage = 1 →
      (s.bootOrder = [0] → s.slotState 0 = 3 → r.slotA = true →
        ∃ t, exec (.firmwareChosen r) s = .next t ∧ t.ost.running = 0 ∧ t.ost.firmware = true ∧ t.safeHold = s.safeHold ∧ t.regs = s.regs) ∧
      (s.bootOrder = [] →
        ∃ t, exec (.firmwareChosen r) s = .next t ∧ t.ost.running = 2 ∧ t.safeHold = true ∧ t.stage = 6 ∧ t.ost.pcieHeld = false ∧
          t.rb (rga 0 oRaw) 1 = true)) ∧
    (s.stage = 1 → s.ost.firmware = true → s.ost.running ≠ 2 →
      ∃ t, exec .tensorRailsUp s = .next t ∧ t.stage = 2 ∧ t.ost.ctrlHeld = false ∧ t.ost.pcieHeld = false ∧ t.blk 0x400 = 2 ∧ t.blk 0x100 = 2 ∧
        t.blkOn 0x330 = true ∧ t.pins = s.pins) ∧
    (s.ost.cmd = none →
      ∃ t, exec .ostlerWdt s = .next t ∧ t.ost.firmware = false ∧ t.ost.verified = false ∧ t.ost.trialOn = false ∧ t.regs = s.regs ∧ t.pins = s.pins ∧
        t.drv = s.drv)

/-- Host release, HBM training, PERST, function-level resets, loss of the reference clock. Host release makes the module READY; failed HBM stacks
leave the tensor side off; PERST and a function-level reset of the physical function abort every job; that of a virtual function releases its tenant;
a lost reference clock removes all torque. Spec: 16_boot_electrical.md, Boot timeline, 16_boot_electrical.md, Reset levels; model choices: log 41. -/
def Obligations.HostLink : Prop :=
  ∀ (s : State), s.canonical = true →
    (s.stage = 4 →
      ∃ t, exec .hostRelease s = .next t ∧ t.stage = 5 ∧ t.ready = true ∧ t.rb (rga 0 oRaw) 0 = true ∧ t.ost.loopOn = true ∧ t.pins = s.pins ∧ t.hbm = s.hbm) ∧
    (s.stage = 3 → s.ost.fieldIdBad = true →
      ∃ t, exec (.hbmTrainingDone 0) s = .next t ∧ t.stage = 4 ∧ t.blk 0x210 = 2 ∧ t.hbm = s.hbm ∧ t.tensorOff = s.tensorOff) ∧
    (s.stage = 3 → ∀ failed : BitVec 4, failed ≠ 0 →
      ∃ t, exec (.hbmTrainingDone failed) s = .next t ∧ t.stage = 5 ∧ t.ready = true ∧ t.tensorOff = true) ∧
    (exec .perstNRelease s = .next { s with pins := { s.pins with perstN := true } }) ∧
    (exec .perstNAssert s = .next { (List.range 8).foldl (fun (u : State) t => if u.tnFree t then u else u.jobFault 0x300 0x0604 t t) s with
      latch := []
      pins := { s.pins with perstN := false } }) ∧
    (exec .pfFunctionLevelReset s = .next { (List.range 8).foldl (fun (u : State) t =>
      if u.tnFree t then u else u.jobFault 0x300 0x0604 t t) s with latch := [] }) ∧
    (∀ t : Fin 8,
      (s.tnState t.val = 1 ∨ s.tnState t.val = 3 → exec (.vfFunctionLevelReset t) s = .next (s.startRelease t.val)) ∧
      (s.tnState t.val = 2 → exec (.vfFunctionLevelReset t) s = .next (s.setTenant t.val { s.tenant t.val with flr := true })) ∧
      (s.tnState t.val = 0 → exec (.vfFunctionLevelReset t) s = .next s)) ∧
    (s.tensorOff = true →
      ∃ t, exec .refclkLoss s = .next t ∧ t.noTorque = true ∧ t.rb (rga 8 oRaw) 4 = true ∧ t.hbm = s.hbm ∧ t.tensorOff = true)

/-- A step carries out the command at the front of the queue. With a command at the front of the queue, the step is exec of that command on the state
with the rest of the queue. Spec: 01_architecture.md, The short loop, block by block; model choices: log 1. -/
def Obligations.StepFront : Prop :=
  ∀ (s : State) (c : Instr) (r : List Instr), s.pending = c :: r → step s = exec c { s with pending := r }

/-- On an empty queue the step is one tick. With an empty queue the step answers a next state, the one of State.tick. That an empty queue passes a
tick is the choice of this model (log 1). Spec: 01_architecture.md, Clock and power domains; model choices: log 1. -/
def Obligations.StepIdle : Prop :=
  ∀ s : State, s.pending = [] → step s = .next s.tick

/-- The invariant holds at reset. The state after reset has canonical tables, queues within their bounds, and the fuses as made (their values and what
memory reads as are choices of this model, logs 3 and 5). Spec: 16_boot_electrical.md, Reset levels; model choices: logs 3, 5. -/
def Obligations.ResetInv : Prop :=
  State.Inv State.reset.fuses.made State.reset

/-- Every step keeps the invariant. From every state with canonical tables, at most 128 events in the log queue and 16 writes in the Ledger queue, a
step leads to such a state, and what manufacture fixed never changes. Spec: 14_ostler_ledger_recovery.md, The event log, 14_ostler_ledger_recovery.md,
The Ledger, 00_scope.md, Part numbers; model choices: logs 1, 5. -/
def Obligations.StepKeepsInv : Prop :=
  ∀ (s t : State) (made : Fuses), State.Inv made s → step s = .next t → State.Inv made t

/-- Every command answers a next state. No command of the table faults or is refused, whatever the state and the operands. Spec: 00_scope.md, Register
conventions; model choices: log 1. -/
def Obligations.EveryCommandCompletes : Prop :=
  ∀ (c : Instr) (s : State), Completes (exec c s)

/-- What reset leaves. Registers hold the reset values of the register map (zero where the spec gives none, log 7), scratchpads read zero (R472; the
cells are cleared by the start-up run), no line permits torque, every tenant is FREE, every port DOWN, the module is not READY, and the CAN standby
pins are high (log 38). Spec: 16_boot_electrical.md, Reset levels, 15_register_map.md, The page map; model choices: logs 7, 38. -/
def Obligations.ResetState : Prop :=
  (∀ a, State.reset.rd a = resetReg a) ∧ (∀ e a, State.reset.spByte e a = 0) ∧ State.reset.noTorque = true ∧ State.reset.pending = [] ∧
    (∀ t : Fin 8, State.reset.tnState t.val = 0) ∧ (∀ p : Fin 8, State.reset.lstate p.val = 0) ∧ State.reset.tensorOff = false ∧ State.reset.ready = false ∧
    (∀ n : Fin 8, State.reset.pins.canStb.getLsbD n.val = true)

/-- Commands that store nothing leave all memory alone. For each of the 142 rows named by Instr.keepsMemory, every byte of HBM and of every scratchpad
reads as before. Spec: 15_register_map.md, The common header, 03_sheaf_engines.md, The scratchpad. -/
def Obligations.MemoryFrame : Prop :=
  ∀ (c : Instr) (s t : State), c.keepsMemory = true → exec c s = .next t → SameMemory s t

/-- Commands of the tensor side leave the control domain alone. For each of the 142 rows named by Instr.keepsControl (the engines, Porters, queues,
barriers, tenants, links, perception and host registers among them; rows that may write a Ledger word are not, since an encoder's offset is one), the
phase timebase, the CAN nodes, the pins, the clock and all of Drover but the trajectory descriptors stand as before. Spec: 01_architecture.md,
Isolation of the control domain, 13_safety_security.md, Freedom from interference. -/
def Obligations.ControlIsolation : Prop :=
  ∀ (c : Instr) (s t : State), c.keepsControl = true → exec c s = .next t →
    t.mile = s.mile ∧ t.can = s.can ∧ t.pins = s.pins ∧ t.clock = s.clock ∧ t.drv = { s.drv with dps := t.drv.dps }

/-- Host accesses that are not permitted change nothing. For each row that is a host write, a write that its function may not perform
leaves the state as it was; a virtual function reaches only its own pages, through the link, and never BLK_CTL or LOCK; before READY only the early
pages are reached. Spec: 15_register_map.md, BARs of each function, 16_boot_electrical.md, Boot timeline; model choices: log 16. -/
def Obligations.HostAccessFilter : Prop :=
  (∀ (c : Instr) (s : State) (f : Func) (a : Nat), c.hostWrite = some (f, a) → s.mayWrite f a = false → exec c s = .next s) ∧
  (∀ (s : State) (n : Fin 8) (a : Nat), s.mayWrite (.vf n) a = true →
    s.linkUp = true ∧ a % 4096 ≠ oCtl ∧ a % 4096 ≠ oLock ∧ ∃ i, pageId (a / 4096) = some i ∧
      (i.block = .innkeeper ∧ i.sub = n.val + 1 ∧ a % 4096 ≠ 0x50 ∨ i.block = .tally ∧ i.sub = 1 ∨ i.block = .sheaf ∧ i.sub = 5 ∨
        i.block = .hostel ∧ a % 4096 = 0x40)) ∧
  (∀ (s : State) (f : Func) (a : Nat) (i : PageId), s.ready = false → f ≠ .mgmt → pageId (a / 4096) = some i → earlyBlock i.block = false →
    s.mayWrite f a = false ∧ s.sees f a = false)

/-- A Granary does not depend on the order of its terms. Up to 2^24 terms added to an empty Granary in any order leave the same Granary, with the same
flags and count. Spec: 02_arithmetic.md, What is bit-identical, 02_arithmetic.md, The Granary window. -/
def Obligations.GranaryOrder : Prop :=
  ∀ (anchor : Int) (ts us : List Term), ts.Perm us → ts.length ≤ 2 ^ 24 → ({} : Gran).addAll anchor ts = ({} : Gran).addAll anchor us

/-- A Granary holds the exact sum of its truncated terms, and saturates beyond its range. Each term is truncated toward zero to units of the least bit
on its own and then added exactly; a poisoned one adds a free value of its operands within the range of a term (log 1) and sets POISON; a larger term
saturates to 2^167 - 1 units and raises GRANARY_SAT; an addition beyond 192 bits saturates in its direction, sets SAT and raises GRANARY_SAT, and
later terms follow the same rule; a non-zero term that truncates to zero sets TRUNCZ; up to 2^24 terms summed from zero never saturate by an addition.
Spec: R51, R52. -/
def Obligations.GranarySum : Prop :=
  (∀ (m : Nat) (s : Int), (0 ≤ s → shiftTrunc m s = m * 2 ^ s.toNat) ∧ (s < 0 → shiftTrunc m s = m / 2 ^ (-s).toNat)) ∧
  (∀ (anchor : Int) (ts : List Term) (g : Gran), ts.length ≤ 2 ^ 24 → g = ({} : Gran).addAll anchor ts →
    g.acc = (ts.map (fun t => match t with
      | .poison key => max (-(2 ^ 167 - 1)) (min (Config.poisonTerm (anchor :: key)) (2 ^ 167 - 1))
      | .val neg m e => signI neg (min (shiftTrunc m (e - (anchor - 191))) (2 ^ 167 - 1)))).sum ∧
    g.count = ts.length ∧ (g.poison = true ↔ ∃ key, Term.poison key ∈ ts) ∧
    (g.ovf = true ↔ ∃ neg m e, Term.val neg m e ∈ ts ∧ 2 ^ 167 ≤ shiftTrunc m (e - (anchor - 191))) ∧
    (g.trz = true ↔ ∃ neg m e, Term.val neg m e ∈ ts ∧ m ≠ 0 ∧ shiftTrunc m (e - (anchor - 191)) = 0)) ∧
  (∀ (anchor : Int) (g t : Gran) (neg : Bool) (m : Nat) (e x : Int), t = g.add anchor (.val neg m e) →
    x = g.acc + signI neg (min (shiftTrunc m (e - (anchor - 191))) (2 ^ 167 - 1)) →
    t.acc = (if x < -(2 ^ 191) then -(2 ^ 191) else if 2 ^ 191 - 1 < x then 2 ^ 191 - 1 else x) ∧
    (t.ovf = true ↔ g.ovf = true ∨ 2 ^ 167 ≤ shiftTrunc m (e - (anchor - 191)) ∨ x < -(2 ^ 191) ∨ 2 ^ 191 - 1 < x) ∧
    (x < -(2 ^ 191) ∨ 2 ^ 191 - 1 < x → t.sat = true)) ∧
  (∀ (anchor : Int) (k : Kind) (start : Gran × List Nat) (gs : List Group), start.2 = [] →
    (0x0102 ∈ (elemGran anchor k start gs).2 ↔ (elemGran anchor k start gs).1.ovf = true))

/-- Raw records: layout, checks and round trip. The 32 bytes of a record are ACC, ANCHOR, FLAGS with the residue of ACC, zero and COUNT; a load reads
them back and finds a wrong residue, a foreign anchor or a count above 2^24, the fault of the lowest code where there are several; a record stored and
loaded under its anchor gives the same Granary. Spec: 02_arithmetic.md, Raw Granary records and accumulate-in. -/
def Obligations.RawRecords : Prop :=
  ∀ (anchor : Int) (own : Nat), -512 ≤ anchor → anchor ≤ 511 →
    (∀ g : Gran, natLe 32 (g.record anchor) = natLe 24 (ofS 192 g.acc) ++ natLe 2 (ofS 16 anchor) ++
      [BitVec.ofNat 8 ((g.acc % 7).toNat + 8 * b2n g.poison + 16 * b2n g.sat + 32 * b2n g.trz), 0] ++ natLe 4 g.count) ∧
    (∀ g : Gran, granMin ≤ g.acc → g.acc ≤ granMax → g.count + own ≤ 2 ^ 24 → granLoad anchor own (g.record anchor) = ({ g with ovf := false }, [])) ∧
    (∀ (r : Nat) (g : Gran) (faults : List Nat), granLoad anchor own r = (g, faults) →
      g.acc = toS 192 r ∧ g.poison = (nfld r 211 211 == 1) ∧ g.sat = (nfld r 212 212 == 1) ∧ g.trz = (nfld r 213 213 == 1) ∧ g.count = nfld r 255 224 ∧
      faults = (if (nfld r 210 208 : Int) ≠ toS 192 r % 7 then [0x0101] else if toS 16 (nfld r 207 192) ≠ anchor then [0x0103]
        else if 2 ^ 24 < nfld r 255 224 + own then [0x0104] else []))

/-- MATMUL writes every element at its place and nothing else. After an accepted MATMUL without faults, element (i, j) of the output reads as the
rounded Granary of row i and column j, every scratchpad byte outside the output rows is unchanged, so are the other scratchpads and all of HBM. Spec:
04_operators.md, MATMUL, 02_arithmetic.md, Output rounding; model choices: logs 22, 23. -/
def Obligations.MatmulResult : Prop :=
  ∀ (s t : State) (e : Fin 6) (c : Cmd) (r : List Word) (o ld f : Nat), s.canonical = true → c.op = 1 → s.Accepts e.val c r (matmulPlan c r) →
    (s.matmulBody e.val c r).Clean → o = (c.w 9).toNat → ld = 64 * c.f 12 31 16 → f = c.final r →
    o + (mmM c - 1) * ld + fmtBytes f (mmN c) ≤ spadSize → exec (.matmul e .none) s = .next t →
    (∀ i j, i < mmM c → j < mmN c → t.code e.val f (o + ld * i) j
      = (storeElem c r (c.w 14) (if readsVec (recPost r) then s.spWord e.val ((c.w 15).toNat + 4 * j) else 0) (elemGran c.anchor c.kind (s.startOf e.val c (c.w 13).toNat (termCount c.kind (mmK c) c.g) (i * mmN c + j))
          (s.mmGroups e.val c i j))).code % 2 ^ fmtBits f) ∧
    (∀ a, (∀ i, i < mmM c → a < o + ld * i ∨ o + ld * i + fmtBytes f (mmN c) ≤ a) → t.spByte e.val a = s.spByte e.val a) ∧
    (∀ (e' a : Nat), e' ≠ e.val → t.spByte e' a = s.spByte e' a) ∧ t.hbm = s.hbm
end

