-- ==== Sys2Proof/Laws/Control.lean ====
section
/-!
SUPPORT. What a command leaves alone, carried through the state operations: `State.Ctl r0` says that the parts named there stand as in `r0`. The files
Control*.lean say it of every function of the machine that touches none of them, one lemma each, in the order of the files of Machine/.
-/
namespace Sys2Proof.Machine

/-- The parts stand as in r0. -/
def State.Ctl (r0 : MileSt × List (Nat × CanNode) × Pins × Clock × DroverSt) (s : State) : Prop := (s.mile, s.can, s.pins, s.clock, { s.drv with dps := [] }) = r0

/-- An outcome whose next state has the parts as in r0. -/
def KeepsCtl (r0 : MileSt × List (Nat × CanNode) × Pins × Clock × DroverSt) (o : Host.Outcome State Fault Refusal) : Prop :=
  ∀ t, o = .next t → t.Ctl r0

variable {r0 : MileSt × List (Nat × CanNode) × Pins × Clock × DroverSt}

theorem KeepsCtl.next {t : State} (h : t.Ctl r0) : KeepsCtl r0 (.next t) := fun _ e => by cases e; exact h

theorem State.ctl_mk {s : State} {p fr fu hb sp rg la rd ms lg le os eg po qs tn bs aq eq fd pe et ic} :
    State.Ctl r0 (State.mk p fr fu s.pins s.clock hb sp rg la rd ms lg le os eg po qs tn bs aq eq fd s.mile s.drv pe et s.can ic) ↔ s.Ctl r0 := Iff.rfl

theorem State.ctl_foldl {s : State} {α : Type} {f : State → α → State} {l : List α} (h : s.Ctl r0)
    (hf : ∀ s x, s.Ctl r0 → (f s x).Ctl r0) : (l.foldl f s).Ctl r0 := by
  induction l generalizing s with
  | nil => exact h
  | cons a r ih => exact ih (hf _ _ h)

theorem State.ctl_foldl_fst {α β : Type} {f : State × β → α → State × β} {l : List α} {t : State × β} (h : t.1.Ctl r0)
    (hf : ∀ t x, t.1.Ctl r0 → (f t x).1.Ctl r0) : (l.foldl f t).1.Ctl r0 := by
  induction l generalizing t with
  | nil => exact h
  | cons a r ih => exact ih (hf _ _ h)

theorem State.wr_ctl {s : State} {a v} (h : s.Ctl r0) : (State.wr s a v).Ctl r0 := h
theorem State.resetRegs_ctl {s : State} {p} (h : s.Ctl r0) : (State.resetRegs s p).Ctl r0 := h
theorem State.hbmPut_ctl {s : State} {a b} (h : s.Ctl r0) : (State.hbmPut s a b).Ctl r0 := h
theorem State.hbmWrite_ctl {s : State} {a b} (h : s.Ctl r0) : (State.hbmWrite s a b).Ctl r0 := h
theorem State.spWrite_ctl {s : State} {e a b} (h : s.Ctl r0) : (State.spWrite s e a b).Ctl r0 := h
theorem State.spZero_ctl {s : State} {e a b} (h : s.Ctl r0) : (State.spZero s e a b).Ctl r0 := h
theorem State.hbmZero_ctl {s : State} {a b} (h : s.Ctl r0) : (State.hbmZero s a b).Ctl r0 := h
theorem State.setEngine_ctl {s : State} {e x} (h : s.Ctl r0) : (State.setEngine s e x).Ctl r0 := h
theorem State.setPorter_ctl {s : State} {e x} (h : s.Ctl r0) : (State.setPorter s e x).Ctl r0 := h
theorem State.setQueue_ctl {s : State} {e x} (h : s.Ctl r0) : (State.setQueue s e x).Ctl r0 := h
theorem State.setTenant_ctl {s : State} {e x} (h : s.Ctl r0) : (State.setTenant s e x).Ctl r0 := h
theorem State.setBar_ctl {s : State} {e x} (h : s.Ctl r0) : (State.setBar s e x).Ctl r0 := h

end Sys2Proof.Machine
end

