-- ==== Sys2Proof/Laws/ControlOps.lean ====
section
/-!
SUPPORT. What the functions of Machine/Ops.lean leave alone (Control.lean).
-/
namespace Sys2Proof.Machine

variable {r0 : MileSt × List (Nat × CanNode) × Pins × Clock × DroverSt}

theorem State.pf_ctl {s : State} {a hi lo v : Nat} (h_s : s.Ctl r0) : (State.pf s a hi lo v).Ctl r0 := by
  unfold State.pf
  with_reducible repeat' first
    | assumption
    | apply State.wr_ctl

theorem State.wb_ctl {s : State} {a i : Nat} {b : Bool} (h_s : s.Ctl r0) : (State.wb s a i b).Ctl r0 := by
  unfold State.wb
  with_reducible repeat' first
    | assumption
    | apply State.wr_ctl

theorem State.incSat_ctl {s : State} {a hi lo : Nat} (h_s : s.Ctl r0) : (State.incSat s a hi lo).Ctl r0 := by
  unfold State.incSat
  with_reducible repeat' first
    | assumption
    | apply State.pf_ctl

theorem State.addSat_ctl {s : State} {a n : Nat} (h_s : s.Ctl r0) : (State.addSat s a n).Ctl r0 := by
  unfold State.addSat
  with_reducible repeat' first
    | assumption
    | apply State.wr_ctl

theorem State.wr64_ctl {s : State} {lo v : Nat} (h_s : s.Ctl r0) : (State.wr64 s lo v).Ctl r0 := by
  unfold State.wr64
  with_reducible repeat' first
    | assumption
    | apply State.wr_ctl

theorem State.setPort_ctl {s : State} {p : Nat} {x : Port} (h_s : s.Ctl r0) : (State.setPort s p x).Ctl r0 := by
  unfold State.setPort
  try dsimp only [State.take]
  with_reducible repeat' first
    | assumption
    | simp only [State.ctl_mk]

theorem State.setLb_ctl {s : State} {k : Nat} {x : LinkBar} (h_s : s.Ctl r0) : (State.setLb s k x).Ctl r0 := by
  unfold State.setLb
  try dsimp only [State.take]
  with_reducible repeat' first
    | assumption
    | simp only [State.ctl_mk]

theorem State.setTnState_ctl {s : State} {t v : Nat} (h_s : s.Ctl r0) : (State.setTnState s t v).Ctl r0 := by
  unfold State.setTnState
  with_reducible repeat' first
    | assumption
    | apply State.pf_ctl

theorem State.chargeHbm_ctl {s : State} {t : Nat} {n : Nat} (h_s : s.Ctl r0) : (State.chargeHbm s t n).Ctl r0 := by
  unfold State.chargeHbm
  try dsimp only [State.take]
  with_reducible repeat' first
    | assumption
    | apply State.setTenant_ctl
    | apply State.ctl_foldl
    | (intro _ _ _; try dsimp only)
    | split
    | simp only [State.ctl_mk]

theorem State.chargeLink_ctl {s : State} {t : Nat} {n : Nat} (h_s : s.Ctl r0) : (State.chargeLink s t n).Ctl r0 := by
  unfold State.chargeLink
  try dsimp only [State.take]
  with_reducible repeat' first
    | assumption
    | apply State.setTenant_ctl
    | apply State.ctl_foldl
    | (intro _ _ _; try dsimp only)
    | split
    | simp only [State.ctl_mk]

theorem State.chargeTime_ctl {s : State} {t : Nat} {ns : Nat} (h_s : s.Ctl r0) : (State.chargeTime s t ns).Ctl r0 := by
  unfold State.chargeTime
  try dsimp only [State.take]
  with_reducible repeat' first
    | assumption
    | apply State.setTenant_ctl
    | apply State.ctl_foldl
    | (intro _ _ _; try dsimp only)
    | split
    | simp only [State.ctl_mk]

theorem State.take_ctl {s : State} (h_s : s.Ctl r0) : (State.take s).2.Ctl r0 := by
  unfold State.take
  try dsimp only [State.take]
  with_reducible repeat' first
    | assumption
    | apply State.ctl_foldl
    | (intro _ _ _; try dsimp only)
    | split
    | simp only [State.ctl_mk]

theorem State.take_ctl_eq {s : State} {y : State} {x0_} (h_s : s.Ctl r0) (he : State.take s = (x0_, y)) : y.Ctl r0 := by
  have h := State.take_ctl (r0 := r0) (s := s) h_s
  rw [he] at h
  exact h

theorem State.takeMany_ctl {s : State} {n : Nat} (h_s : s.Ctl r0) : (State.takeMany s n).Ctl r0 := by
  unfold State.takeMany
  try dsimp only [State.take]
  with_reducible repeat' first
    | assumption
    | apply State.ctl_foldl
    | (intro _ _ _; try dsimp only)
    | split
    | simp only [State.ctl_mk]

theorem State.sendMsix_ctl {s : State} {f v : Nat} (h_s : s.Ctl r0) : (State.sendMsix s f v).Ctl r0 := by
  unfold State.sendMsix
  try dsimp only [State.take]
  with_reducible repeat' first
    | assumption
    | simp only [State.ctl_mk]

theorem State.sendTenantBits_ctl {s : State} {n : Nat} {pend : Word} {k : Nat} (h_s : s.Ctl r0) : (s.sendTenantBits n pend k).Ctl r0 := by
  induction k with
  | zero => exact h_s
  | succ k ih =>
    unfold State.sendTenantBits
    dsimp only
    split
    · exact State.sendMsix_ctl ih
    · exact ih

theorem State.sendRoute_ctl {s : State} {src : Nat} (h_s : s.Ctl r0) : (State.sendRoute s src).Ctl r0 := by
  unfold State.sendRoute
  try dsimp only [State.take]
  with_reducible repeat' first
    | assumption
    | apply State.sendMsix_ctl
    | split

theorem State.requestIrq_ctl {s : State} {page : Nat} (h_s : s.Ctl r0) : (State.requestIrq s page).Ctl r0 := by
  unfold State.requestIrq
  try dsimp only [State.take]
  with_reducible repeat' first
    | assumption
    | apply State.sendTenantBits_ctl
    | apply State.sendRoute_ctl
    | split
    | simp only [State.ctl_mk]

theorem State.raiseBits_ctl {s : State} {page : Nat} {m : Word} (h_s : s.Ctl r0) : (State.raiseBits s page m).Ctl r0 := by
  unfold State.raiseBits
  try dsimp only [State.take]
  with_reducible repeat' first
    | assumption
    | apply State.wr_ctl
    | apply State.requestIrq_ctl
    | split

theorem State.raise_ctl {s : State} {page bit : Nat} (h_s : s.Ctl r0) : (State.raise s page bit).Ctl r0 := by
  unfold State.raise
  with_reducible repeat' first
    | assumption
    | apply State.raiseBits_ctl

theorem State.logPush_ctl {s : State} {cls : Nat} {r : LogRec} (h_s : s.Ctl r0) : (State.logPush s cls r).Ctl r0 := h_s

theorem State.logEvent_ctl {s : State} {page code cls info tenant : Nat} (h_s : s.Ctl r0) : (State.logEvent s page code cls info tenant).Ctl r0 := by
  unfold State.logEvent
  try dsimp only [State.take]
  with_reducible repeat' first
    | assumption
    | apply State.logPush_ctl
    | split
    | simp only [State.ctl_mk]

theorem State.logNamed_ctl {s : State} {page ev cls info tenant : Nat} (h_s : s.Ctl r0) : (State.logNamed s page ev cls info tenant).Ctl r0 := by
  unfold State.logNamed
  with_reducible repeat' first
    | assumption
    | apply State.logEvent_ctl

theorem State.recordFault_ctl {s : State} {page code info : Nat} (h_s : s.Ctl r0) : (State.recordFault s page code info).Ctl r0 := by
  unfold State.recordFault
  try dsimp only [State.take]
  with_reducible repeat' first
    | assumption
    | apply State.wr_ctl
    | apply State.pf_ctl
    | apply State.incSat_ctl
    | apply State.raise_ctl
    | split

theorem State.hwNote_ctl {s : State} {e : Nat} {hw : HwFault} (h_s : s.Ctl r0) : (State.hwNote s e hw).Ctl r0 := by
  unfold State.hwNote
  try dsimp only [State.take]
  with_reducible repeat' first
    | assumption
    | apply State.wr_ctl
    | apply State.pf_ctl
    | apply State.incSat_ctl
    | apply State.addSat_ctl
    | apply State.wr64_ctl
    | split
    | simp only [State.ctl_mk]

theorem State.hbmNote_ctl {s : State} {hw : HwFault} (h_s : s.Ctl r0) : (State.hbmNote s hw).Ctl r0 := by
  unfold State.hbmNote
  try dsimp only [State.take]
  with_reducible repeat' first
    | assumption
    | apply State.hwNote_ctl
    | apply State.ctl_foldl
    | (intro _ _ _; try dsimp only)
    | split
    | simp only [State.ctl_mk]

theorem State.setLstate_ctl {s : State} {p v : Nat} (h_s : s.Ctl r0) : (State.setLstate s p v).Ctl r0 := by
  unfold State.setLstate
  with_reducible repeat' first
    | assumption
    | apply State.pf_ctl

theorem State.sendSb_ctl {s : State} {w : SbWord} {p : Nat} (h_s : s.Ctl r0) : (State.sendSb s w p).Ctl r0 := by
  unfold State.sendSb
  try dsimp only [State.take]
  with_reducible repeat' first
    | assumption
    | apply State.setPort_ctl
    | simp only [State.ctl_mk]

theorem State.flood_ctl {s : State} {w : SbWord} {except : Nat} (h_s : s.Ctl r0) : (State.flood s w except).Ctl r0 := by
  unfold State.flood
  with_reducible repeat' first
    | assumption
    | apply State.sendSb_ctl
    | apply State.ctl_foldl
    | (intro _ _ _; try dsimp only)

end Sys2Proof.Machine
end

