-- ==== Sys2Proof/Laws/ControlRoute.lean ====
section
/-!
SUPPORT. What the functions of Machine/Route.lean leave alone (Control.lean).
-/
namespace Sys2Proof.Machine

variable {r0 : MileSt × List (Nat × CanNode) × Pins × Clock × DroverSt}

theorem State.giveBack_ctl {s : State} {p : Nat} {vc : Nat} {n : Nat} (h_s : s.Ctl r0) : (State.giveBack s p vc n).Ctl r0 := by
  unfold State.giveBack
  try dsimp only [State.take]
  with_reducible repeat' first
    | assumption
    | apply State.setPort_ctl
    | apply State.ctl_foldl
    | (intro _ _ _; try dsimp only)
    | split
    | simp only [State.ctl_mk]

theorem State.pushTx_ctl {s : State} {p : Nat} {t : TxPkt} (h_s : s.Ctl r0) : (State.pushTx s p t).Ctl r0 := by
  unfold State.pushTx
  try dsimp only [State.take]
  with_reducible repeat' first
    | assumption
    | apply State.setPort_ctl
    | apply State.ctl_foldl
    | (intro _ _ _; try dsimp only)
    | split
    | simp only [State.ctl_mk]

theorem State.enqueue_ctl {s : State} {p : Nat} {vc : Nat} {k : Packet} (h_s : s.Ctl r0) : (State.enqueue s p vc k).Ctl r0 := by
  unfold State.enqueue
  try dsimp only [State.take]
  with_reducible repeat' first
    | assumption
    | apply State.pushTx_ctl
    | apply State.ctl_foldl
    | (intro _ _ _; try dsimp only)
    | split
    | simp only [State.ctl_mk]

end Sys2Proof.Machine
end

