-- ==== Sys2Proof/Laws/ControlPick.lean ====
section
/-!
SUPPORT. What the functions of Machine/Pick.lean leave alone (Control.lean).
-/
namespace Sys2Proof.Machine

variable {r0 : MileSt × List (Nat × CanNode) × Pins × Clock × DroverSt}

theorem State.refill_ctl {s : State} {qs : List Nat} (h_s : s.Ctl r0) : (State.refill s qs).Ctl r0 := by
  unfold State.refill
  try dsimp only [State.take]
  with_reducible repeat' first
    | assumption
    | apply State.setQueue_ctl
    | apply State.ctl_foldl
    | (intro _ _ _; try dsimp only)
    | split
    | simp only [State.ctl_mk]

theorem State.choose_ctl_eq {s y : State} {rr cands q c} (h_s : s.Ctl r0) (e : State.choose s rr cands = some (q, c, y)) : y.Ctl r0 := by
  unfold State.choose at e
  split at e
  · cases e
  · dsimp only at e
    split at e
    · cases e
    · cases e
      exact State.refill_ctl h_s

theorem State.takeHead_ctl {s : State} {q : Nat} (h_s : s.Ctl r0) : (State.takeHead s q).Ctl r0 := by
  unfold State.takeHead
  try dsimp only [State.take]
  with_reducible repeat' first
    | assumption
    | apply State.setQueue_ctl
    | split
    | simp only [State.ctl_mk]

theorem State.dropWaitOn_ctl {s : State} {e : Nat} {q : Nat} (h_s : s.Ctl r0) : (State.dropWaitOn s e q).Ctl r0 := by
  unfold State.dropWaitOn
  try dsimp only [State.take]
  with_reducible repeat' first
    | assumption
    | apply State.setQueue_ctl
    | apply State.wb_ctl
    | apply State.ctl_foldl
    | (intro _ _ _; try dsimp only)
    | split
    | simp only [State.ctl_mk]

theorem State.clearTree_ctl {s : State} {e : Nat} {t : Nat} (h_s : s.Ctl r0) : (State.clearTree s e t).Ctl r0 := by
  unfold State.clearTree
  try dsimp only [State.take]
  with_reducible repeat' first
    | assumption
    | apply State.dropWaitOn_ctl
    | apply State.ctl_foldl
    | (intro _ _ _; try dsimp only)
    | split
    | simp only [State.ctl_mk]

theorem State.switchTo_ctl {s : State} {e t : Nat} (h_s : s.Ctl r0) : (State.switchTo s e t).Ctl r0 := by
  unfold State.switchTo
  try dsimp only [State.take]
  with_reducible repeat' first
    | assumption
    | apply State.wr_ctl
    | apply State.setEngine_ctl
    | apply State.clearTree_ctl
    | apply State.chargeTime_ctl
    | split
    | simp only [State.ctl_mk]

theorem State.cutDeficit_ctl {s : State} {q : Nat} (h_s : s.Ctl r0) : (State.cutDeficit s q).Ctl r0 := by
  unfold State.cutDeficit
  try dsimp only [State.take]
  with_reducible repeat' first
    | assumption
    | apply State.setQueue_ctl
    | apply State.ctl_foldl
    | (intro _ _ _; try dsimp only)
    | split
    | simp only [State.ctl_mk]

theorem State.boundary_ctl {s : State} {e : Nat} (h_s : s.Ctl r0) : (State.boundary s e).Ctl r0 := by
  unfold State.boundary
  try dsimp only [State.take]
  with_reducible repeat' first
    | assumption
    | apply State.cutDeficit_ctl
    | apply State.setEngine_ctl
    | apply State.takeHead_ctl
    | refine State.choose_ctl_eq ?_ (by assumption)
    | apply State.switchTo_ctl
    | apply State.ctl_foldl
    | (intro _ _ _; try dsimp only)
    | split
    | simp only [State.ctl_mk]

theorem State.copyBoundary_ctl {s : State} {p : Nat} (h_s : s.Ctl r0) : (State.copyBoundary s p).Ctl r0 := by
  unfold State.copyBoundary
  try dsimp only [State.take]
  with_reducible repeat' first
    | assumption
    | apply State.cutDeficit_ctl
    | apply State.takeHead_ctl
    | refine State.choose_ctl_eq ?_ (by assumption)
    | apply State.setPorter_ctl
    | apply State.ctl_foldl
    | (intro _ _ _; try dsimp only)
    | split
    | simp only [State.ctl_mk]

theorem State.kick_ctl {s : State} (h_s : s.Ctl r0) : (State.kick s).Ctl r0 := by
  unfold State.kick
  try dsimp only [State.take]
  with_reducible repeat' first
    | assumption
    | apply State.boundary_ctl
    | apply State.copyBoundary_ctl
    | apply State.ctl_foldl
    | (intro _ _ _; try dsimp only)

end Sys2Proof.Machine
end

