-- ==== Sys2Proof/Laws/ControlAbort.lean ====
section
/-!
SUPPORT. What the functions of Machine/Abort.lean leave alone (Control.lean).
-/
namespace Sys2Proof.Machine

variable {r0 : MileSt × List (Nat × CanNode) × Pins × Clock × DroverSt}

theorem State.raiseQueueDone_ctl {s : State} {q : Nat} (h_s : s.Ctl r0) : (State.raiseQueueDone s q).Ctl r0 := by
  unfold State.raiseQueueDone
  with_reducible repeat' first
    | assumption
    | apply State.raise_ctl

theorem State.writeRecord_ctl {s : State} {c : Cmd} {status : Nat} {astat : Nat} {eng : Nat} (h_s : s.Ctl r0) : (State.writeRecord s c status astat eng).Ctl r0 := by
  unfold State.writeRecord
  try dsimp only [State.take]
  with_reducible repeat' first
    | assumption
    | apply State.hbmWrite_ctl
    | apply State.raiseQueueDone_ctl
    | apply State.chargeHbm_ctl
    | apply State.ctl_foldl
    | (intro _ _ _; try dsimp only)
    | split
    | simp only [State.ctl_mk]

theorem State.retire_ctl {s : State} {q : Nat} {seq : Word} (h_s : s.Ctl r0) : (State.retire s q seq).Ctl r0 := by
  unfold State.retire
  try dsimp only [State.take]
  with_reducible repeat' first
    | assumption
    | apply State.wr_ctl
    | apply State.setQueue_ctl
    | split
    | simp only [State.ctl_mk]

theorem State.stopQueue_ctl {s : State} {code q : Nat} (h_s : s.Ctl r0) : (State.stopQueue s code q).Ctl r0 := by
  unfold State.stopQueue
  try dsimp only [State.take]
  with_reducible repeat' first
    | assumption
    | apply State.wr_ctl
    | apply State.setQueue_ctl
    | apply State.pf_ctl
    | apply State.wb_ctl

theorem State.stopRuns_ctl {s : State} {t : Nat} (h_s : s.Ctl r0) : (State.stopRuns s t).Ctl r0 := by
  unfold State.stopRuns
  try dsimp only [State.take]
  with_reducible repeat' first
    | assumption
    | apply State.setEngine_ctl
    | apply State.setPorter_ctl
    | apply State.ctl_foldl
    | (intro _ _ _; try dsimp only)
    | split
    | simp only [State.ctl_mk]

theorem State.cutSource_ctl {s : State} {t : TxPkt} (h_s : s.Ctl r0) : (State.cutSource s t).Ctl r0 := by
  unfold State.cutSource
  try dsimp only [State.take]
  with_reducible repeat' first
    | assumption
    | apply State.setPort_ctl
    | apply State.ctl_foldl
    | (intro _ _ _; try dsimp only)
    | split
    | simp only [State.ctl_mk]

theorem State.purge_ctl {s : State} {t : Nat} {epoch : Nat} (h_s : s.Ctl r0) : (State.purge s t epoch).Ctl r0 := by
  unfold State.purge
  try dsimp only [State.take]
  with_reducible repeat' first
    | assumption
    | apply State.setPort_ctl
    | apply State.cutSource_ctl
    | apply State.ctl_foldl
    | (intro _ _ _; try dsimp only)
    | split
    | simp only [State.ctl_mk]

theorem State.clearTally_ctl {s : State} {t : Nat} (h_s : s.Ctl r0) : (State.clearTally s t).Ctl r0 := h_s

theorem State.zeroParts_ctl {s : State} {t : Nat} (h_s : s.Ctl r0) : (State.zeroParts s t).Ctl r0 := by
  unfold State.zeroParts
  try dsimp only [State.take]
  with_reducible repeat' first
    | assumption
    | apply State.spZero_ctl
    | apply State.setEngine_ctl
    | apply State.ctl_foldl
    | (intro _ _ _; try dsimp only)
    | split
    | simp only [State.ctl_mk]

theorem State.countDone_ctl {s : State} {src : Nat} (h_s : s.Ctl r0) : (State.countDone s src).Ctl r0 := by
  unfold State.countDone
  try dsimp only [State.take]
  with_reducible repeat' first
    | assumption
    | apply State.wr64_ctl
    | apply State.raise_ctl
    | split

theorem State.reportDone_ctl {s : State} {t : Nat} (h_s : s.Ctl r0) : (State.reportDone s t).Ctl r0 := by
  unfold State.reportDone
  try dsimp only [State.take]
  with_reducible repeat' first
    | assumption
    | apply State.sendSb_ctl
    | apply State.countDone_ctl
    | split
    | simp only [State.ctl_mk]

theorem State.haltQueue_ctl {s : State} {q : Nat} (h_s : s.Ctl r0) : (State.haltQueue s q).Ctl r0 := by
  unfold State.haltQueue
  try dsimp only [State.take]
  with_reducible repeat' first
    | assumption
    | apply State.setQueue_ctl
    | apply State.wb_ctl
    | apply State.ctl_foldl
    | (intro _ _ _; try dsimp only)
    | split
    | simp only [State.ctl_mk]

theorem State.dropPicked_ctl {s : State} {t : Nat} (h_s : s.Ctl r0) : (State.dropPicked s t).Ctl r0 := by
  unfold State.dropPicked
  try dsimp only [State.take]
  with_reducible repeat' first
    | assumption
    | apply State.setEngine_ctl
    | apply State.setPorter_ctl
    | apply State.ctl_foldl
    | (intro _ _ _; try dsimp only)
    | split
    | simp only [State.ctl_mk]

theorem State.startRelease_ctl {s : State} {t : Nat} (h_s : s.Ctl r0) : (State.startRelease s t).Ctl r0 := by
  unfold State.startRelease
  try dsimp only [State.take]
  with_reducible repeat' first
    | assumption
    | apply State.setTenant_ctl
    | apply State.haltQueue_ctl
    | apply State.dropPicked_ctl
    | apply State.wr_ctl
    | apply State.wb_ctl
    | apply State.setTnState_ctl
    | apply State.pf_ctl
    | apply State.ctl_foldl
    | (intro _ _ _; try dsimp only)
    | split
    | simp only [State.ctl_mk]

theorem State.finishAbort_ctl {s : State} {t : Nat} (h_s : s.Ctl r0) : (State.finishAbort s t).Ctl r0 := by
  unfold State.finishAbort
  try dsimp only [State.take]
  with_reducible repeat' first
    | assumption
    | apply State.setTnState_ctl
    | apply State.reportDone_ctl
    | apply State.startRelease_ctl
    | split

theorem State.localAbort_ctl {s : State} {t epoch origin code : Nat} (h_s : s.Ctl r0) : (State.localAbort s t epoch origin code).Ctl r0 := by
  unfold State.localAbort
  try dsimp only [State.take]
  with_reducible repeat' first
    | assumption
    | apply State.wr_ctl
    | apply State.pf_ctl
    | apply State.wr64_ctl
    | apply State.setTnState_ctl
    | apply State.raise_ctl
    | apply State.kick_ctl
    | apply State.stopQueue_ctl
    | apply State.stopRuns_ctl
    | apply State.purge_ctl
    | apply State.clearTally_ctl
    | apply State.zeroParts_ctl
    | apply State.finishAbort_ctl
    | apply State.ctl_foldl
    | (intro _ _ _; try dsimp only)
    | split

theorem State.abortJob_ctl {s : State} {t code : Nat} (h_s : s.Ctl r0) : (State.abortJob s t code).Ctl r0 := by
  unfold State.abortJob
  try dsimp only [State.take]
  with_reducible repeat' first
    | assumption
    | apply State.flood_ctl
    | apply State.localAbort_ctl
    | split

theorem State.jobFault_ctl {s : State} {page code info t : Nat} (h_s : s.Ctl r0) : (State.jobFault s page code info t).Ctl r0 := by
  unfold State.jobFault
  with_reducible repeat' first
    | assumption
    | apply State.logEvent_ctl
    | apply State.recordFault_ctl
    | apply State.abortJob_ctl

theorem State.abortAll_ctl {s : State} {code : Nat} (h_s : s.Ctl r0) : (State.abortAll s code).Ctl r0 := by
  unfold State.abortAll
  with_reducible repeat' first
    | assumption
    | apply State.abortJob_ctl
    | apply State.ctl_foldl
    | (intro _ _ _; try dsimp only)

theorem State.regionConflict_ctl {s : State} {t entry : Nat} (h_s : s.Ctl r0) : (State.regionConflict s t entry).Ctl r0 := by
  unfold State.regionConflict
  try dsimp only [State.take]
  with_reducible repeat' first
    | assumption
    | apply State.pf_ctl
    | apply State.wb_ctl
    | apply State.raise_ctl
    | apply State.logEvent_ctl
    | apply State.recordFault_ctl
    | apply State.abortAll_ctl

theorem State.failCmd_ctl {s : State} {page code info : Nat} {c : Cmd} {eng astat : Nat} (h_s : s.Ctl r0) : (State.failCmd s page code info c eng astat).Ctl r0 := by
  unfold State.failCmd
  with_reducible repeat' first
    | assumption
    | apply State.writeRecord_ctl
    | apply State.jobFault_ctl

end Sys2Proof.Machine
end

