-- ==== Sys2Proof/Laws/ControlTally.lean ====
section
/-!
SUPPORT. What the functions of Machine/Tally.lean leave alone (Control.lean).
-/
namespace Sys2Proof.Machine

variable {r0 : MileSt × List (Nat × CanNode) × Pins × Clock × DroverSt}

theorem State.deadFill_ctl {s : State} {e : Nat} {t : Nat} (h_s : s.Ctl r0) : (State.deadFill s e t).Ctl r0 := by
  unfold State.deadFill
  try dsimp only [State.take]
  with_reducible repeat' first
    | assumption
    | apply State.spWrite_ctl
    | apply State.ctl_foldl
    | (intro _ _ _; try dsimp only)
    | split
    | simp only [State.ctl_mk]

theorem State.deadFills_ctl {s : State} {t : Nat} (h_s : s.Ctl r0) : (State.deadFills s t).Ctl r0 := by
  unfold State.deadFills
  try dsimp only [State.take]
  with_reducible repeat' first
    | assumption
    | apply State.deadFill_ctl
    | apply State.ctl_foldl
    | (intro _ _ _; try dsimp only)
    | split
    | simp only [State.ctl_mk]

theorem State.endWait_ctl {s : State} {q : Nat} {c : Cmd} (h_s : s.Ctl r0) : (State.endWait s q c).Ctl r0 := by
  unfold State.endWait
  try dsimp only [State.take]
  with_reducible repeat' first
    | assumption
    | apply State.writeRecord_ctl
    | apply State.setQueue_ctl
    | apply State.retire_ctl
    | apply State.wb_ctl
    | apply State.deadFills_ctl
    | apply State.ctl_foldl
    | (intro _ _ _; try dsimp only)
    | split
    | simp only [State.ctl_mk]

theorem State.satisfy_ctl {s : State} {q : Nat} (h_s : s.Ctl r0) : (State.satisfy s q).Ctl r0 := by
  unfold State.satisfy
  try dsimp only [State.take]
  with_reducible repeat' first
    | assumption
    | apply State.setQueue_ctl
    | apply State.wb_ctl
    | apply State.endWait_ctl
    | split
    | simp only [State.ctl_mk]

theorem State.register_ctl {s : State} {q : Nat} {w : WaitReg} (h_s : s.Ctl r0) : (State.register s q w).Ctl r0 := by
  unfold State.register
  try dsimp only [State.take]
  with_reducible repeat' first
    | assumption
    | apply State.setQueue_ctl
    | apply State.wb_ctl
    | simp only [State.ctl_mk]

theorem State.tallyFault_ctl {s : State} {b : BarId} {code part seq t : Nat} (h_s : s.Ctl r0) : (State.tallyFault s b code part seq t).Ctl r0 := by
  unfold State.tallyFault
  with_reducible repeat' first
    | assumption
    | apply State.jobFault_ctl

theorem State.tallyRefuse_ctl {s : State} {b : BarId} {code : Nat} {c : Cmd} (h_s : s.Ctl r0) : (State.tallyRefuse s b code c).Ctl r0 := by
  unfold State.tallyRefuse
  with_reducible repeat' first
    | assumption
    | apply State.writeRecord_ctl
    | apply State.tallyFault_ctl

theorem State.evalHead_ctl {s : State} {q : Nat} (h_s : s.Ctl r0) : (State.evalHead s q).Ctl r0 := by
  unfold State.evalHead
  try dsimp only [State.take]
  with_reducible repeat' first
    | assumption
    | apply State.setQueue_ctl
    | apply State.register_ctl
    | apply State.tallyRefuse_ctl
    | split
    | simp only [State.ctl_mk]

theorem State.advance_ctl {s : State} (h_s : s.Ctl r0) : (State.advance s).Ctl r0 := by
  unfold State.advance
  with_reducible repeat' first
    | assumption
    | apply State.kick_ctl
    | apply State.evalHead_ctl
    | apply State.ctl_foldl
    | (intro _ _ _; try dsimp only)

theorem State.setDp_ctl {s : State} {d : Nat} {x : Datapath} (h_s : s.Ctl r0) : (State.setDp s d x).Ctl r0 := h_s

theorem State.setTh_ctl {s : State} {c : Nat} {x : Thresher} (h_s : s.Ctl r0) : (State.setTh s c x).Ctl r0 := by
  unfold State.setTh
  try dsimp only [State.take]
  with_reducible repeat' first
    | assumption
    | simp only [State.ctl_mk]

theorem State.roiRelease_ctl {s : State} {n : Nat} (h_s : s.Ctl r0) : (State.roiRelease s n).Ctl r0 := by
  unfold State.roiRelease
  try dsimp only [State.take]
  with_reducible repeat' first
    | assumption
    | apply State.setTh_ctl
    | apply State.ctl_foldl
    | (intro _ _ _; try dsimp only)
    | split
    | simp only [State.ctl_mk]

theorem State.mailboxRelease_ctl {s : State} {b : BarId} (h_s : s.Ctl r0) : (State.mailboxRelease s b).Ctl r0 := by
  unfold State.mailboxRelease
  try dsimp only [State.take]
  with_reducible repeat' first
    | assumption
    | apply State.setDp_ctl
    | apply State.roiRelease_ctl
    | apply State.ctl_foldl
    | (intro _ _ _; try dsimp only)
    | split
    | simp only [State.ctl_mk]
    | dsimp only

theorem State.releaseOk_ctl {s : State} {b : BarId} (h_s : s.Ctl r0) : (State.releaseOk s b).Ctl r0 := by
  unfold State.releaseOk
  try dsimp only [State.take]
  with_reducible repeat' first
    | assumption
    | apply State.setBar_ctl
    | apply State.satisfy_ctl
    | apply State.mailboxRelease_ctl
    | apply State.ctl_foldl
    | (intro _ _ _; try dsimp only)
    | (intro _ _; try dsimp only)

theorem State.failWaits_ctl {s : State} {code : Nat} {p : WaitReg → Bool} (h_s : s.Ctl r0) : (State.failWaits s code p).Ctl r0 := by
  unfold State.failWaits
  try dsimp only [State.take]
  with_reducible repeat' first
    | assumption
    | apply State.writeRecord_ctl
    | apply State.ctl_foldl
    | (intro _ _ _; try dsimp only)
    | split
    | simp only [State.ctl_mk]

theorem State.endGen_ctl {s : State} {b : BarId} {status : Nat} (h_s : s.Ctl r0) : (State.endGen s b status).Ctl r0 := by
  unfold State.endGen
  try dsimp only [State.take]
  with_reducible repeat' first
    | assumption
    | apply State.mailboxRelease_ctl
    | apply State.failWaits_ctl
    | apply State.setBar_ctl
    | apply State.ctl_foldl
    | (intro _ _ _; try dsimp only)
    | split
    | simp only [State.ctl_mk]

theorem State.releaseBad_ctl {s : State} {b : BarId} {status : Nat} {part : Nat} {seq : Nat} (h_s : s.Ctl r0) : (State.releaseBad s b status part seq).Ctl r0 := by
  unfold State.releaseBad
  try dsimp only [State.take]
  with_reducible repeat' first
    | assumption
    | apply State.tallyFault_ctl
    | apply State.endGen_ctl
    | apply State.ctl_foldl
    | (intro _ _ _; try dsimp only)
    | split
    | simp only [State.ctl_mk]

theorem State.endPipe_ctl {s : State} {b : BarId} {status : Nat} (h_s : s.Ctl r0) : (State.endPipe s b status).Ctl r0 := by
  unfold State.endPipe
  try dsimp only [State.take]
  with_reducible repeat' first
    | assumption
    | apply State.failWaits_ctl
    | apply State.setBar_ctl
    | apply State.ctl_foldl
    | (intro _ _ _; try dsimp only)
    | split
    | simp only [State.ctl_mk]

theorem State.pipeBad_ctl {s : State} {b : BarId} {status : Nat} {part : Nat} {seq : Nat} (h_s : s.Ctl r0) : (State.pipeBad s b status part seq).Ctl r0 := by
  unfold State.pipeBad
  try dsimp only [State.take]
  with_reducible repeat' first
    | assumption
    | apply State.endPipe_ctl
    | apply State.tallyFault_ctl
    | apply State.ctl_foldl
    | (intro _ _ _; try dsimp only)
    | split
    | simp only [State.ctl_mk]

theorem State.evalPipe_ctl {s : State} {b : BarId} (h_s : s.Ctl r0) : (State.evalPipe s b).Ctl r0 := by
  unfold State.evalPipe
  try dsimp only [State.take]
  with_reducible repeat' first
    | assumption
    | apply State.satisfy_ctl
    | apply State.ctl_foldl
    | (intro _ _ _; try dsimp only)
    | split
    | simp only [State.ctl_mk]

theorem State.arrive_ctl {s : State} {a : Arrival} (h_s : s.Ctl r0) : (State.arrive s a).Ctl r0 := by
  unfold State.arrive
  try dsimp only [State.take]
  with_reducible repeat' first
    | assumption
    | apply State.setBar_ctl
    | apply State.tallyFault_ctl
    | apply State.releaseOk_ctl
    | apply State.releaseBad_ctl
    | apply State.pipeBad_ctl
    | apply State.evalPipe_ctl
    | split
    | simp only [State.ctl_mk]

theorem State.sendArrival_ctl {s : State} {a : Arrival} (h_s : s.Ctl r0) : (State.sendArrival s a).Ctl r0 := by
  unfold State.sendArrival
  try dsimp only [State.take]
  with_reducible repeat' first
    | assumption
    | simp only [State.ctl_mk]

theorem State.countArrival_ctl {s : State} {a : Arrival} (h_s : s.Ctl r0) : (State.countArrival s a).Ctl r0 := by
  unfold State.countArrival
  try dsimp only [State.take]
  with_reducible repeat' first
    | assumption
    | apply State.setTenant_ctl
    | apply State.arrive_ctl
    | apply State.ctl_foldl
    | (intro _ _ _; try dsimp only)
    | split
    | simp only [State.ctl_mk]

theorem State.countArrivals_ctl {s : State} {n : Nat} (h_s : s.Ctl r0) : (State.countArrivals s n).Ctl r0 := by
  unfold State.countArrivals
  try dsimp only [State.take]
  with_reducible repeat' first
    | assumption
    | apply State.countArrival_ctl
    | apply State.ctl_foldl
    | (intro _ _ _; try dsimp only)
    | split
    | simp only [State.ctl_mk]

theorem execTallyArrival_ctl {also : Nat} {s : State} (h_s : s.Ctl r0) : KeepsCtl r0 (execTallyArrival also s) := by
  unfold execTallyArrival
  try dsimp only [State.take]
  with_reducible repeat' first
    | assumption
    | apply KeepsCtl.next
    | apply State.countArrivals_ctl
    | apply State.advance_ctl
    | apply State.ctl_foldl
    | (intro _ _ _; try dsimp only)
    | split
    | simp only [State.ctl_mk]

theorem execCarryRelease_ctl {b : BarId} {s : State} (h_s : s.Ctl r0) : KeepsCtl r0 (execCarryRelease b s) := by
  unfold execCarryRelease
  with_reducible repeat' first
    | assumption
    | apply KeepsCtl.next
    | apply State.advance_ctl
    | apply State.releaseOk_ctl
    | split

theorem execBarrierTimeout_ctl {b : BarId} {also : Nat} {s : State} (h_s : s.Ctl r0) : KeepsCtl r0 (execBarrierTimeout b also s) := by
  unfold execBarrierTimeout
  try dsimp only [State.take]
  with_reducible repeat' first
    | assumption
    | apply KeepsCtl.next
    | apply State.releaseBad_ctl
    | apply State.take_ctl
    | refine State.take_ctl_eq ?_ (by assumption)
    | apply State.countArrivals_ctl
    | apply State.advance_ctl
    | apply State.ctl_foldl
    | (intro _ _ _; try dsimp only)
    | split
    | simp only [State.ctl_mk]

theorem execTallyTimeout_ctl {q : Fin 32} {also : Nat} {s : State} (h_s : s.Ctl r0) : KeepsCtl r0 (execTallyTimeout q also s) := by
  unfold execTallyTimeout
  try dsimp only [State.take]
  with_reducible repeat' first
    | assumption
    | apply KeepsCtl.next
    | apply State.writeRecord_ctl
    | apply State.jobFault_ctl
    | apply State.tallyFault_ctl
    | apply State.countArrivals_ctl
    | apply State.advance_ctl
    | apply State.ctl_foldl
    | (intro _ _ _; try dsimp only)
    | split
    | simp only [State.ctl_mk]

theorem State.tallyErr_ctl {s : State} {b : BarId} {bit : Nat} (h_s : s.Ctl r0) : (State.tallyErr s b bit).Ctl r0 := by
  unfold State.tallyErr
  try dsimp only [State.take]
  with_reducible repeat' first
    | assumption
    | apply State.pf_ctl
    | apply State.wb_ctl
    | split
    | simp only [State.ctl_mk]

theorem State.tallyCfg_ctl {s : State} {f : Func} {b : BarId} {part : Bool} {v : Word} {coll : Bool} (h_s : s.Ctl r0) : (State.tallyCfg s f b part v coll).Ctl r0 := by
  unfold State.tallyCfg
  try dsimp only [State.take]
  with_reducible repeat' first
    | assumption
    | apply State.wr_ctl
    | apply State.tallyErr_ctl
    | split
    | simp only [State.ctl_mk]

end Sys2Proof.Machine
end

