-- ==== Sys2Proof/Laws/ControlAccess.lean ====
section
/-!
SUPPORT. What the functions of Machine/Access.lean leave alone (Control.lean).
-/
namespace Sys2Proof.Machine

variable {r0 : MileSt × List (Nat × CanNode) × Pins × Clock × DroverSt}

theorem State.guarded_ctl {s : State} {f : Func} {a : Nat} {k : State → State} (h_s : s.Ctl r0) (h_k : ∀ s, s.Ctl r0 → (k s).Ctl r0) : (State.guarded s f a k).Ctl r0 := by
  unfold State.guarded
  with_reducible repeat' first
    | assumption
    | (apply h_k)
    | split

theorem State.store_ctl {s : State} {f : Func} {a : Nat} {v hwSet : Word} (h_s : s.Ctl r0) : (State.store s f a v hwSet).Ctl r0 := by
  unfold State.store
  try dsimp only [State.take]
  with_reducible repeat' first
    | assumption
    | apply State.wr_ctl
    | split
    | simp only [State.ctl_mk]

end Sys2Proof.Machine
end

