-- ==== Sys2Proof/Laws/ControlOperands.lean ====
section
/-!
SUPPORT. What the functions of Machine/Operands.lean leave alone (Control.lean).
-/
namespace Sys2Proof.Machine

variable {r0 : MileSt × List (Nat × CanNode) × Pins × Clock × DroverSt}

theorem State.putCodes_ctl {s : State} {e f a : Nat} {cs : List Nat} (h_s : s.Ctl r0) : (State.putCodes s e f a cs).Ctl r0 := by
  unfold State.putCodes
  with_reducible repeat' first
    | assumption
    | apply State.spWrite_ctl
    | split

theorem State.putCode_ctl {s : State} {e f a i c : Nat} (h_s : s.Ctl r0) : (State.putCode s e f a i c).Ctl r0 := by
  unfold State.putCode
  try dsimp only [State.take]
  with_reducible repeat' first
    | assumption
    | apply State.spWrite_ctl
    | split

end Sys2Proof.Machine
end

