-- ==== Sys2Proof/Laws/ControlGroups.lean ====
section
/-!
SUPPORT. What the functions of Machine/Groups.lean leave alone (Control.lean).
-/
namespace Sys2Proof.Machine

variable {r0 : MileSt × List (Nat × CanNode) × Pins × Clock × DroverSt}

theorem State.setAxState_ctl {s : State} {a v : Nat} (h_s : s.Ctl r0) : (State.setAxState s a v).Ctl r0 := by
  unfold State.setAxState
  with_reducible repeat' first
    | assumption
    | apply State.pf_ctl

theorem State.drvEvent_ctl {s : State} {page code : Nat} (h_s : s.Ctl r0) : (State.drvEvent s page code).Ctl r0 := by
  unfold State.drvEvent
  try dsimp only [State.take]
  with_reducible repeat' first
    | assumption
    | apply State.logEvent_ctl
    | apply State.recordFault_ctl
    | split
    | simp only [State.ctl_mk]

theorem State.showForm_ctl {s : State} {g : Nat} (h_s : s.Ctl r0) : (State.showForm s g).Ctl r0 := by
  unfold State.showForm
  with_reducible repeat' first
    | assumption
    | apply State.pf_ctl
    | apply State.ctl_foldl
    | (intro _ _ _; try dsimp only)

theorem State.slotEnd_ctl {s : State} {i : Nat} (h_s : s.Ctl r0) : (State.slotEnd s i).Ctl r0 := by
  unfold State.slotEnd
  with_reducible repeat' first
    | assumption
    | apply State.wb_ctl
    | split

theorem State.wardenExpired_ctl {s : State} {dv : Nat} (h_s : s.Ctl r0) : (State.wardenExpired s dv).Ctl r0 := by
  unfold State.wardenExpired
  with_reducible repeat' first
    | assumption
    | apply State.wb_ctl
    | apply State.ctl_foldl
    | (intro _ _ _; try dsimp only)
    | split

end Sys2Proof.Machine
end

