-- ==== Sys2Proof/Laws/ControlMilepost.lean ====
section
/-!
SUPPORT. What the functions of Machine/Milepost.lean leave alone (Control.lean).
-/
namespace Sys2Proof.Machine

variable {r0 : MileSt × List (Nat × CanNode) × Pins × Clock × DroverSt}

theorem State.markLate_ctl {s : State} {e : Nat} (h_s : s.Ctl r0) : (State.markLate s e).Ctl r0 := by
  unfold State.markLate
  try dsimp only [State.take]
  with_reducible repeat' first
    | assumption
    | apply State.wb_ctl
    | apply State.addSat_ctl
    | apply State.raise_ctl
    | apply State.logNamed_ctl

theorem State.showMove_ctl {s : State} {g b : Nat} {far : Int} (h_s : s.Ctl r0) : (State.showMove s g b far).Ctl r0 := by
  unfold State.showMove
  try dsimp only [State.take]
  with_reducible repeat' first
    | assumption
    | apply State.wr_ctl
    | apply State.wb_ctl
    | split

theorem State.wrPgOffset_ctl {s : State} {f : Func} {g : Nat} {v : Word} (h_s : s.Ctl r0) : (State.wrPgOffset s f g v).Ctl r0 := by
  unfold State.wrPgOffset
  with_reducible repeat' first
    | assumption
    | apply State.wb_ctl
    | apply State.store_ctl
    | split

theorem execZcTimeout_ctl {g : Fin 4} {edge : Bool} {s : State} (h_s : s.Ctl r0) : KeepsCtl r0 (execZcTimeout g edge s) := by
  unfold execZcTimeout
  with_reducible repeat' first
    | assumption
    | apply KeepsCtl.next
    | apply State.pf_ctl
    | apply State.incSat_ctl
    | split

theorem execAnnounce_ctl {port : Fin 4} {gmLo gmHi : Word} {s : State} (h_s : s.Ctl r0) : KeepsCtl r0 (execAnnounce port gmLo gmHi s) := by
  unfold execAnnounce
  try dsimp only [State.take]
  with_reducible repeat' first
    | assumption
    | apply KeepsCtl.next
    | apply State.wr_ctl
    | apply State.wb_ctl
    | apply State.raise_ctl
    | apply State.logNamed_ctl
    | split

theorem State.readTsNs_ctl {s : State} (h_s : s.Ctl r0) : (State.readTsNs s).Ctl r0 := by
  unfold State.readTsNs
  try dsimp only [State.take]
  with_reducible repeat' first
    | assumption
    | apply State.wr_ctl
    | simp only [State.ctl_mk]

theorem execTsNsRead_ctl {f : Func} {s : State} (h_s : s.Ctl r0) : KeepsCtl r0 (execTsNsRead f s) := by
  unfold execTsNsRead
  try dsimp only [State.take]
  with_reducible repeat' first
    | assumption
    | apply KeepsCtl.next
    | apply State.readTsNs_ctl
    | split
    | simp only [State.ctl_mk]

end Sys2Proof.Machine
end

