-- ==== Sys2Proof/Laws/ControlEncoder.lean ====
section
/-!
SUPPORT. What the functions of Machine/Encoder.lean leave alone (Control.lean).
-/
namespace Sys2Proof.Machine

variable {r0 : MileSt × List (Nat × CanNode) × Pins × Clock × DroverSt}

theorem State.showPos_ctl {s : State} {n : Nat} {count : Int} (h_s : s.Ctl r0) : (State.showPos s n count).Ctl r0 := by
  unfold State.showPos
  try dsimp only [State.take]
  with_reducible repeat' first
    | assumption
    | apply State.wr_ctl
    | apply State.ctl_foldl
    | (intro _ _ _; try dsimp only)
    | split
    | simp only [State.ctl_mk]

theorem State.showSpeed_ctl {s : State} {n t : Nat} (h_s : s.Ctl r0) : (State.showSpeed s n t).Ctl r0 := by
  unfold State.showSpeed
  with_reducible repeat' first
    | assumption
    | apply State.wr_ctl

theorem State.noSpeed_ctl {s : State} {n : Nat} (h_s : s.Ctl r0) : (State.noSpeed s n).Ctl r0 := by
  unfold State.noSpeed
  with_reducible repeat' first
    | assumption
    | apply State.wr_ctl
    | apply State.wb_ctl

theorem State.wrEncCfg_ctl {s : State} {f : Func} {n : Nat} {v : Word} (h_s : s.Ctl r0) : (State.wrEncCfg s f n v).Ctl r0 := by
  unfold State.wrEncCfg
  with_reducible repeat' first
    | assumption
    | apply State.store_ctl
    | split

end Sys2Proof.Machine
end

