-- ==== Sys2Proof/Laws/ControlDrover.lean ====
section
/-!
SUPPORT. What the functions of Machine/Drover.lean leave alone (Control.lean).
-/
namespace Sys2Proof.Machine

variable {r0 : MileSt × List (Nat × CanNode) × Pins × Clock × DroverSt}

theorem State.bandClamp_ctl {s : State} {a : Nat} (h_s : s.Ctl r0) : (State.bandClamp s a).Ctl r0 := by
  unfold State.bandClamp
  with_reducible repeat' first
    | assumption
    | apply State.wr_ctl
    | split

theorem State.mbReject_ctl {s : State} {d bit : Nat} (h_s : s.Ctl r0) : (State.mbReject s d bit).Ctl r0 := by
  unfold State.mbReject
  with_reducible repeat' first
    | assumption
    | apply State.wb_ctl
    | apply State.drvEvent_ctl

theorem State.telemetry_ctl {s : State} {d a : Nat} {i : AxIn} (h_s : s.Ctl r0) : (State.telemetry s d a i).Ctl r0 := by
  unfold State.telemetry
  try dsimp only [State.take]
  with_reducible repeat' first
    | assumption
    | apply State.hbmWrite_ctl
    | apply State.addSat_ctl
    | apply State.regionConflict_ctl
    | split
    | simp only [State.ctl_mk]

theorem State.wrDvCfg_ctl {s : State} {f : Func} {d : Nat} {v : Word} (h_s : s.Ctl r0) : (State.wrDvCfg s f d v).Ctl r0 := by
  unfold State.wrDvCfg
  try dsimp only [State.take]
  with_reducible repeat' first
    | assumption
    | apply State.wb_ctl
    | apply State.store_ctl
    | split
    | dsimp only [id]

theorem State.wrDvPto_ctl {s : State} {f : Func} {d : Nat} {v : Word} (h_s : s.Ctl r0) : (State.wrDvPto s f d v).Ctl r0 := by
  unfold State.wrDvPto
  with_reducible repeat' first
    | assumption
    | apply State.wb_ctl
    | apply State.store_ctl
    | split

theorem State.wrTmCfg_ctl {s : State} {f : Func} {d : Nat} {v : Word} (h_s : s.Ctl r0) : (State.wrTmCfg s f d v).Ctl r0 := by
  unfold State.wrTmCfg
  try dsimp only [State.take]
  with_reducible repeat' first
    | assumption
    | apply State.store_ctl
    | apply State.wb_ctl
    | apply State.ctl_foldl
    | (intro _ _ _; try dsimp only)
    | split
    | simp only [State.ctl_mk]

end Sys2Proof.Machine
end

