-- ==== Sys2Proof/Laws/ControlHeld.lean ====
section
/-!
SUPPORT. What the functions of Machine/Held.lean leave alone (Control.lean).
-/
namespace Sys2Proof.Machine

variable {r0 : MileSt × List (Nat × CanNode) × Pins × Clock × DroverSt}

theorem State.sendPacket_ctl {s : State} {k : Packet} (h_s : s.Ctl r0) : (State.sendPacket s k).Ctl r0 := by
  unfold State.sendPacket
  try dsimp only [State.take]
  with_reducible repeat' first
    | assumption
    | apply State.enqueue_ctl
    | apply State.chargeLink_ctl
    | apply State.ctl_foldl
    | (intro _ _ _; try dsimp only)
    | split
    | simp only [State.ctl_mk]

theorem State.answer_ctl {s : State} {k : Packet} {op : PktOp} {addr : Nat} {data : List Byte} (h_s : s.Ctl r0) : (State.answer s k op addr data).Ctl r0 := by
  unfold State.answer
  try dsimp only [State.take]
  with_reducible repeat' first
    | assumption
    | apply State.sendPacket_ctl
    | apply State.ctl_foldl
    | (intro _ _ _; try dsimp only)
    | split
    | simp only [State.ctl_mk]

theorem State.porterFault_ctl {s : State} {p : Nat} {code : Nat} {info : Nat} {addr : Nat} {c : Cmd} (h_s : s.Ctl r0) : (State.porterFault s p code info addr c).Ctl r0 := by
  unfold State.porterFault
  try dsimp only [State.take]
  with_reducible repeat' first
    | assumption
    | apply State.wr64_ctl
    | apply State.failCmd_ctl
    | apply State.ctl_foldl
    | (intro _ _ _; try dsimp only)
    | split
    | simp only [State.ctl_mk]

theorem State.failReq_ctl {s : State} {r : Req} {code : Nat} {info : Nat} (h_s : s.Ctl r0) : (State.failReq s r code info).Ctl r0 := by
  unfold State.failReq
  try dsimp only [State.take]
  with_reducible repeat' first
    | assumption
    | apply State.porterFault_ctl
    | apply State.failCmd_ctl
    | apply State.ctl_foldl
    | (intro _ _ _; try dsimp only)
    | split
    | simp only [State.ctl_mk]

theorem State.pxErr_ctl {s : State} {cause : Nat} {dest : Nat} {window : Nat} (h_s : s.Ctl r0) : (State.pxErr s cause dest window).Ctl r0 := by
  unfold State.pxErr
  try dsimp only [State.take]
  with_reducible repeat' first
    | assumption
    | apply State.wr_ctl
    | apply State.raise_ctl
    | apply State.ctl_foldl
    | (intro _ _ _; try dsimp only)
    | split
    | simp only [State.ctl_mk]

theorem State.sendProxy_ctl {s : State} {x : Proxy} (h_s : s.Ctl r0) : (State.sendProxy s x).Ctl r0 := by
  unfold State.sendProxy
  try dsimp only [State.take]
  with_reducible repeat' first
    | assumption
    | apply State.sendPacket_ctl
    | apply State.ctl_foldl
    | (intro _ _ _; try dsimp only)
    | split
    | simp only [State.ctl_mk]

theorem State.sendProxies_ctl {s : State} (h_s : s.Ctl r0) : (State.sendProxies s).Ctl r0 := by
  unfold State.sendProxies
  try dsimp only [State.take]
  with_reducible repeat' first
    | assumption
    | apply State.sendProxy_ctl
    | apply State.ctl_foldl
    | (intro _ _ _; try dsimp only)
    | split
    | simp only [State.ctl_mk]

theorem State.failProxy_ctl {s : State} {x : Proxy} {cause : Nat} (h_s : s.Ctl r0) : (State.failProxy s x cause).Ctl r0 := by
  unfold State.failProxy
  try dsimp only [State.take]
  with_reducible repeat' first
    | assumption
    | apply State.pxErr_ctl
    | apply State.sendProxies_ctl
    | apply State.ctl_foldl
    | (intro _ _ _; try dsimp only)
    | split
    | simp only [State.ctl_mk]

theorem State.endProxy_ctl {s : State} {x : Proxy} (h_s : s.Ctl r0) : (State.endProxy s x).Ctl r0 := by
  unfold State.endProxy
  try dsimp only [State.take]
  with_reducible repeat' first
    | assumption
    | apply State.sendProxies_ctl
    | apply State.ctl_foldl
    | (intro _ _ _; try dsimp only)
    | split
    | simp only [State.ctl_mk]

theorem State.logPort_ctl {s : State} {ev : Nat} {p : Nat} (h_s : s.Ctl r0) : (State.logPort s ev p).Ctl r0 := by
  unfold State.logPort
  try dsimp only [State.take]
  with_reducible repeat' first
    | assumption
    | apply State.logNamed_ctl
    | apply State.ctl_foldl
    | (intro _ _ _; try dsimp only)
    | split
    | simp only [State.ctl_mk]

theorem State.toState_ctl {s : State} {p : Nat} {v : Nat} (h_s : s.Ctl r0) : (State.toState s p v).Ctl r0 := by
  unfold State.toState
  try dsimp only [State.take]
  with_reducible repeat' first
    | assumption
    | apply State.setLstate_ctl
    | apply State.raise_ctl
    | apply State.ctl_foldl
    | (intro _ _ _; try dsimp only)
    | split
    | simp only [State.ctl_mk]

theorem State.failArrival_ctl {s : State} {r : Req} {code : Nat} {info : Nat} (h_s : s.Ctl r0) : (State.failArrival s r code info).Ctl r0 := by
  unfold State.failArrival
  try dsimp only [State.take]
  with_reducible repeat' first
    | assumption
    | apply State.jobFault_ctl
    | apply State.ctl_foldl
    | (intro _ _ _; try dsimp only)
    | split
    | simp only [State.ctl_mk]

theorem State.loseTx_ctl {p : Nat} {s : State} {t : TxPkt} (h_s : s.Ctl r0) : (State.loseTx p s t).Ctl r0 := by
  unfold State.loseTx
  try dsimp only [State.take]
  with_reducible repeat' first
    | assumption
    | apply State.answer_ctl
    | apply State.failArrival_ctl
    | apply State.failProxy_ctl
    | apply State.jobFault_ctl
    | apply State.cutSource_ctl
    | apply State.failReq_ctl
    | apply State.ctl_foldl
    | (intro _ _ _; try dsimp only)
    | split
    | simp only [State.ctl_mk]

theorem State.cutThrough_ctl {s : State} {p : Nat} (h_s : s.Ctl r0) : (State.cutThrough s p).Ctl r0 := by
  unfold State.cutThrough
  try dsimp only [State.take]
  with_reducible repeat' first
    | assumption
    | apply State.setPort_ctl
    | apply State.ctl_foldl
    | (intro _ _ _; try dsimp only)
    | split
    | simp only [State.ctl_mk]

theorem State.leaveUp_ctl {s : State} {p : Nat} (h_s : s.Ctl r0) : (State.leaveUp s p).Ctl r0 := by
  unfold State.leaveUp
  try dsimp only [State.take]
  with_reducible repeat' first
    | assumption
    | apply State.cutThrough_ctl
    | apply State.setPort_ctl
    | apply State.toState_ctl
    | apply State.loseTx_ctl
    | apply State.ctl_foldl
    | (intro _ _ _; try dsimp only)
    | split
    | simp only [State.ctl_mk]

theorem State.powerOff_ctl {s : State} {p : Nat} (h_s : s.Ctl r0) : (State.powerOff s p).Ctl r0 := by
  unfold State.powerOff
  try dsimp only [State.take]
  with_reducible repeat' first
    | assumption
    | apply State.leaveUp_ctl
    | apply State.toState_ctl
    | apply State.pf_ctl
    | apply State.ctl_foldl
    | (intro _ _ _; try dsimp only)
    | split
    | simp only [State.ctl_mk]

end Sys2Proof.Machine
end

