-- ==== Sys2Proof/Laws/ControlLedger.lean ====
section
/-!
SUPPORT. What the functions of Machine/Ledger.lean leave alone (Control.lean).
-/
namespace Sys2Proof.Machine

variable {r0 : MileSt × List (Nat × CanNode) × Pins × Clock × DroverSt}

theorem setLedger_ctl {s : State} {l : Ledger} (h : s.Ctl r0) : (setLedger s l).Ctl r0 := h

theorem execLogPageWritten_ctl {s : State} (h_s : s.Ctl r0) : KeepsCtl r0 (execLogPageWritten s) := KeepsCtl.next h_s

theorem State.noteRepair_ctl {s : State} {row : Nat} (h_s : s.Ctl r0) : (State.noteRepair s row).Ctl r0 := by
  unfold State.noteRepair
  with_reducible repeat' first
    | assumption
    | apply State.pf_ctl
    | apply State.wb_ctl
    | apply State.incSat_ctl
    | apply State.logNamed_ctl

theorem State.newMaster_ctl {s : State} {w : Nat} {v : Word} (h_s : s.Ctl r0) : (State.newMaster s w v).Ctl r0 := by
  unfold State.newMaster
  with_reducible repeat' first
    | assumption
    | apply State.pf_ctl
    | split

theorem State.refuseWrite_ctl {s : State} {w : Nat} (h_s : s.Ctl r0) : (State.refuseWrite s w).Ctl r0 := by
  unfold State.refuseWrite
  try dsimp only [State.take]
  with_reducible repeat' first
    | assumption
    | apply State.wb_ctl
    | apply State.logNamed_ctl
    | split

theorem State.dequeue_ctl {s : State} (h_s : s.Ctl r0) : (State.dequeue s).Ctl r0 := by
  unfold State.dequeue
  try dsimp only [State.take]
  with_reducible repeat' first
    | assumption
    | apply setLedger_ctl
    | apply State.refuseWrite_ctl
    | split
    | simp only [State.ctl_mk]

theorem State.cutWrite_ctl {s : State} {x : LWrite} (h_s : s.Ctl r0) : (State.cutWrite s x).Ctl r0 := by
  unfold State.cutWrite
  try dsimp only [State.take]
  with_reducible repeat' first
    | assumption
    | apply State.take_ctl
    | refine State.take_ctl_eq ?_ (by assumption)
    | apply setLedger_ctl
    | apply State.ctl_foldl
    | (intro _ _ _; try dsimp only)
    | split
    | simp only [State.ctl_mk]

theorem State.spoil_ctl {s : State} {row : Nat} {a : Bool} {b : Bool} (h_s : s.Ctl r0) : (State.spoil s row a b).Ctl r0 := by
  unfold State.spoil
  try dsimp only [State.take]
  with_reducible repeat' first
    | assumption
    | apply setLedger_ctl
    | apply State.ctl_foldl
    | (intro _ _ _; try dsimp only)
    | split
    | simp only [State.ctl_mk]

theorem execLedgerDequeue_ctl {s : State} (h_s : s.Ctl r0) : KeepsCtl r0 (execLedgerDequeue s) := by
  unfold execLedgerDequeue
  with_reducible repeat' first
    | assumption
    | apply KeepsCtl.next
    | apply State.dequeue_ctl

theorem execLedgerScan_ctl {a : Bool} {b : Bool} {s : State} (h_s : s.Ctl r0) : KeepsCtl r0 (execLedgerScan a b s) := by
  unfold execLedgerScan
  try dsimp only [State.take]
  with_reducible repeat' first
    | assumption
    | apply KeepsCtl.next
    | apply State.noteRepair_ctl
    | apply State.logNamed_ctl
    | apply setLedger_ctl
    | apply State.spoil_ctl
    | apply State.ctl_foldl
    | (intro _ _ _; try dsimp only)
    | split
    | simp only [State.ctl_mk]

theorem State.setRow_ctl {s : State} {row : Nat} {c : LCopy} (h_s : s.Ctl r0) : (State.setRow s row c).Ctl r0 := by
  unfold State.setRow
  try dsimp only [State.take]
  with_reducible repeat' first
    | assumption
    | apply setLedger_ctl
    | simp only [State.ctl_mk]

end Sys2Proof.Machine
end

