-- ==== Sys2Proof/Laws/ControlInnkeeper.lean ====
section
/-!
SUPPORT. What the functions of Machine/Innkeeper.lean leave alone (Control.lean).
-/
namespace Sys2Proof.Machine

variable {r0 : MileSt × List (Nat × CanNode) × Pins × Clock × DroverSt}

theorem State.refuse_ctl {s : State} {c : Cmd} {eng : Nat} {r : Nat × Nat × Nat} (h_s : s.Ctl r0) : (State.refuse s c eng r).Ctl r0 := by
  unfold State.refuse
  with_reducible repeat' first
    | assumption
    | apply State.failCmd_ctl

theorem State.endHead_ctl {s : State} {q : Nat} {c : Cmd} (h_s : s.Ctl r0) : (State.endHead s q c).Ctl r0 := by
  unfold State.endHead
  try dsimp only [State.take]
  with_reducible repeat' first
    | assumption
    | apply State.writeRecord_ctl
    | apply State.setQueue_ctl
    | apply State.retire_ctl
    | apply State.deadFills_ctl
    | apply State.ctl_foldl
    | (intro _ _ _; try dsimp only)
    | split
    | simp only [State.ctl_mk]

theorem execArrive_ctl {q : Fin 32} {s : State} (h_s : s.Ctl r0) : KeepsCtl r0 (execArrive q s) := by
  unfold execArrive
  try dsimp only [State.take]
  with_reducible repeat' first
    | assumption
    | apply KeepsCtl.next
    | apply State.advance_ctl
    | apply State.sendArrival_ctl
    | apply State.refuse_ctl
    | apply State.endHead_ctl
    | apply State.tallyRefuse_ctl
    | split
    | simp only [State.ctl_mk]

theorem State.waitCount_ctl {s : State} {q : Nat} {c : Cmd} (h_s : s.Ctl r0) : (State.waitCount s q c).Ctl r0 := by
  unfold State.waitCount
  try dsimp only [State.take]
  with_reducible repeat' first
    | assumption
    | apply State.addSat_ctl
    | apply State.endWait_ctl
    | apply State.register_ctl
    | apply State.advance_ctl
    | apply State.refuse_ctl
    | split

theorem State.waitBar_ctl {s : State} {q : Nat} {c : Cmd} {b : BarId} (h_s : s.Ctl r0) : (State.waitBar s q c b).Ctl r0 := by
  unfold State.waitBar
  try dsimp only [State.take]
  with_reducible repeat' first
    | assumption
    | apply State.endWait_ctl
    | apply State.register_ctl
    | apply State.tallyRefuse_ctl
    | apply State.advance_ctl
    | split
    | simp only [State.ctl_mk]

theorem execWait_ctl {q : Fin 32} {s : State} (h_s : s.Ctl r0) : KeepsCtl r0 (execWait q s) := by
  unfold execWait
  try dsimp only [State.take]
  with_reducible repeat' first
    | assumption
    | apply KeepsCtl.next
    | apply State.refuse_ctl
    | apply State.waitCount_ctl
    | apply State.waitBar_ctl
    | split
    | simp only [State.ctl_mk]

theorem execLaunchCount_ctl {q : Fin 32} {s : State} (h_s : s.Ctl r0) : KeepsCtl r0 (execLaunchCount q s) := by
  unfold execLaunchCount
  try dsimp only [State.take]
  with_reducible repeat' first
    | assumption
    | apply KeepsCtl.next
    | apply State.refuse_ctl
    | apply State.satisfy_ctl
    | apply State.advance_ctl
    | apply State.ctl_foldl
    | (intro _ _ _; try dsimp only)
    | split
    | simp only [State.ctl_mk]

theorem execFence_ctl {q : Fin 32} {s : State} (h_s : s.Ctl r0) : KeepsCtl r0 (execFence q s) := by
  unfold execFence
  try dsimp only [State.take]
  with_reducible repeat' first
    | assumption
    | apply KeepsCtl.next
    | apply State.setQueue_ctl
    | apply State.refuse_ctl
    | split
    | simp only [State.ctl_mk]

theorem execFenceCompletion_ctl {q : Fin 32} {s : State} (h_s : s.Ctl r0) : KeepsCtl r0 (execFenceCompletion q s) := by
  unfold execFenceCompletion
  try dsimp only [State.take]
  with_reducible repeat' first
    | assumption
    | apply KeepsCtl.next
    | apply State.writeRecord_ctl
    | apply State.setQueue_ctl
    | apply State.retire_ctl
    | apply State.sendArrival_ctl
    | apply State.deadFills_ctl
    | apply State.pf_ctl
    | apply State.advance_ctl
    | apply State.ctl_foldl
    | (intro _ _ _; try dsimp only)
    | split
    | simp only [State.ctl_mk]

theorem State.fetch_ctl {s : State} {q : Nat} {hw : HwFault} {n : Nat} {w : Word} (h_s : s.Ctl r0) : (State.fetch s q hw n w).Ctl r0 := by
  induction n generalizing s w with
  | zero => exact h_s
  | succ n ih =>
    unfold State.fetch
    dsimp only
    split
    · exact State.jobFault_ctl h_s
    · exact State.regionConflict_ctl h_s
    · have h0 : (if hbmHits hw (s.rd64 (qReg q 0) + 64 * (w.toNat % 2 ^ s.rf (qReg q 8) 12 8)) 64 then s.hbmNote hw else s).Ctl r0 := by
        split
        · exact State.hbmNote_ctl h_s
        · exact h_s
      split
      · exact State.jobFault_ctl h0
      · exact ih (State.wr_ctl (State.setQueue_ctl h0))

theorem execQueueFetch_ctl {q : Fin 32} {hw : HwFault} {s : State} (h_s : s.Ctl r0) : KeepsCtl r0 (execQueueFetch q hw s) := by
  unfold execQueueFetch
  try dsimp only [State.take]
  with_reducible repeat' first
    | assumption
    | apply KeepsCtl.next
    | apply State.hwNote_ctl
    | apply State.advance_ctl
    | apply State.fetch_ctl
    | split

theorem State.charge_ctl {s : State} {c : Cmd} {ns : Nat} (h_s : s.Ctl r0) : (State.charge s c ns).Ctl r0 := by
  unfold State.charge
  try dsimp only [State.take]
  with_reducible repeat' first
    | assumption
    | apply State.setQueue_ctl
    | apply State.setTenant_ctl
    | apply State.chargeTime_ctl
    | apply State.ctl_foldl
    | (intro _ _ _; try dsimp only)
    | split
    | simp only [State.ctl_mk]

theorem State.arriveDone_ctl {s : State} {c : Cmd} {unit : Nat} (h_s : s.Ctl r0) : (State.arriveDone s c unit).Ctl r0 := by
  unfold State.arriveDone
  try dsimp only [State.take]
  with_reducible repeat' first
    | assumption
    | apply State.arrive_ctl
    | apply State.sendArrival_ctl
    | split
    | simp only [State.ctl_mk]

theorem State.completeEngine_ctl {s : State} {e : Nat} (h_s : s.Ctl r0) : (State.completeEngine s e).Ctl r0 := by
  unfold State.completeEngine
  try dsimp only [State.take]
  with_reducible repeat' first
    | assumption
    | apply State.writeRecord_ctl
    | apply State.retire_ctl
    | apply State.setEngine_ctl
    | apply State.arriveDone_ctl
    | apply State.charge_ctl
    | apply State.deadFills_ctl
    | apply State.advance_ctl
    | apply State.ctl_foldl
    | (intro _ _ _; try dsimp only)
    | split
    | simp only [State.ctl_mk]

theorem State.completePorter_ctl {s : State} {p : Nat} (h_s : s.Ctl r0) : (State.completePorter s p).Ctl r0 := by
  unfold State.completePorter
  try dsimp only [State.take]
  with_reducible repeat' first
    | assumption
    | apply State.writeRecord_ctl
    | apply State.retire_ctl
    | apply State.arriveDone_ctl
    | apply State.charge_ctl
    | apply State.setPorter_ctl
    | apply State.deadFills_ctl
    | apply State.advance_ctl
    | apply State.ctl_foldl
    | (intro _ _ _; try dsimp only)
    | split
    | simp only [State.ctl_mk]

theorem execCommandCompletion_ctl {u : CmdUnit} {s : State} (h_s : s.Ctl r0) : KeepsCtl r0 (execCommandCompletion u s) := by
  unfold execCommandCompletion
  try dsimp only [State.take]
  with_reducible repeat' first
    | assumption
    | apply KeepsCtl.next
    | apply State.completeEngine_ctl
    | apply State.completePorter_ctl
    | split
    | simp only [State.ctl_mk]

theorem execRunLimit_ctl {u : CmdUnit} {s : State} (h_s : s.Ctl r0) : KeepsCtl r0 (execRunLimit u s) := by
  unfold execRunLimit
  try dsimp only [State.take]
  with_reducible repeat' first
    | assumption
    | apply KeepsCtl.next
    | apply State.jobFault_ctl
    | split
    | simp only [State.ctl_mk]

theorem State.wrQTail_ctl {s : State} {q : Nat} {v : Word} (h_s : s.Ctl r0) : (State.wrQTail s q v).Ctl r0 := by
  unfold State.wrQTail
  try dsimp only [State.take]
  with_reducible repeat' first
    | assumption
    | apply State.wr_ctl
    | apply State.wb_ctl
    | split

theorem State.wrQCfg_ctl {s : State} {q : Nat} {v : Word} (h_s : s.Ctl r0) : (State.wrQCfg s q v).Ctl r0 := by
  unfold State.wrQCfg
  try dsimp only [State.take]
  with_reducible repeat' first
    | assumption
    | apply State.pf_ctl
    | apply State.wb_ctl
    | apply State.store_ctl
    | split

theorem State.wrTnRes_ctl {s : State} {f : Func} {t : Nat} {v : Word} (h_s : s.Ctl r0) : (State.wrTnRes s f t v).Ctl r0 := by
  unfold State.wrTnRes
  with_reducible repeat' first
    | assumption
    | apply State.wb_ctl
    | apply State.store_ctl
    | split

theorem State.sendHeldIrqs_ctl {s : State} {t : Nat} (h_s : s.Ctl r0) : (State.sendHeldIrqs s t).Ctl r0 := by
  unfold State.sendHeldIrqs
  try dsimp only [State.take]
  with_reducible repeat' first
    | assumption
    | apply State.sendTenantBits_ctl
    | apply State.sendRoute_ctl
    | apply State.ctl_foldl
    | (intro _ _ _; try dsimp only)
    | split
    | simp only [State.ctl_mk]

theorem State.enableTenant_ctl {s : State} {t : Nat} (h_s : s.Ctl r0) : (State.enableTenant s t).Ctl r0 := by
  unfold State.enableTenant
  try dsimp only [State.take]
  with_reducible repeat' first
    | assumption
    | apply State.setTenant_ctl
    | apply State.wb_ctl
    | apply State.setTnState_ctl
    | apply State.advance_ctl
    | apply State.sendHeldIrqs_ctl
    | apply State.ctl_foldl
    | (intro _ _ _; try dsimp only)
    | split

theorem State.restartTenant_ctl {s : State} {t : Nat} (h_s : s.Ctl r0) : (State.restartTenant s t).Ctl r0 := by
  unfold State.restartTenant
  try dsimp only [State.take]
  with_reducible repeat' first
    | assumption
    | apply State.setTenant_ctl
    | apply State.wb_ctl
    | apply State.setTnState_ctl
    | apply State.advance_ctl
    | apply State.ctl_foldl
    | (intro _ _ _; try dsimp only)
    | split
    | simp only [State.ctl_mk]

theorem State.releaseTenant_ctl {s : State} {t : Nat} (h_s : s.Ctl r0) : (State.releaseTenant s t).Ctl r0 := by
  unfold State.releaseTenant
  with_reducible repeat' first
    | assumption
    | apply State.startRelease_ctl
    | split

theorem State.wrTnCtl_ctl {s : State} {f : Func} {t : Nat} {v : Word} (h_s : s.Ctl r0) : (State.wrTnCtl s f t v).Ctl r0 := by
  unfold State.wrTnCtl
  try dsimp only [State.take]
  with_reducible repeat' first
    | assumption
    | apply State.restartTenant_ctl
    | apply State.enableTenant_ctl
    | apply State.releaseTenant_ctl
    | apply State.ctl_foldl
    | (intro _ _ _; try dsimp only)
    | split
    | simp only [State.ctl_mk]

theorem State.scrubRegions_ctl {s : State} {t : Nat} (h_s : s.Ctl r0) : (State.scrubRegions s t).Ctl r0 := by
  unfold State.scrubRegions
  try dsimp only [State.take]
  with_reducible repeat' first
    | assumption
    | apply State.hbmZero_ctl
    | apply State.wb_ctl
    | apply State.ctl_foldl
    | (intro _ _ _; try dsimp only)

theorem State.releaseTally_ctl {s : State} {t : Nat} (h_s : s.Ctl r0) : (State.releaseTally s t).Ctl r0 := by
  unfold State.releaseTally
  try dsimp only [State.take]
  with_reducible repeat' first
    | assumption
    | apply State.wr_ctl
    | apply State.clearTally_ctl
    | apply State.ctl_foldl
    | (intro _ _ _; try dsimp only)
    | split

theorem execScrubDone_ctl {t : Fin 8} {s : State} (h_s : s.Ctl r0) : KeepsCtl r0 (execScrubDone t s) := by
  unfold execScrubDone
  try dsimp only [State.take]
  with_reducible repeat' first
    | assumption
    | apply KeepsCtl.next
    | apply State.setQueue_ctl
    | apply State.releaseTally_ctl
    | apply State.setTenant_ctl
    | apply State.haltQueue_ctl
    | apply State.wr_ctl
    | apply State.zeroParts_ctl
    | apply State.raise_ctl
    | apply State.setTnState_ctl
    | apply State.scrubRegions_ctl
    | apply State.pf_ctl
    | apply State.ctl_foldl
    | (intro _ _ _; try dsimp only)
    | split
    | simp only [State.ctl_mk]

theorem State.closeStep_ctl {s : State} {t : Nat} {trig : Nat} {time : Nat} (h_s : s.Ctl r0) : (State.closeStep s t trig time).Ctl r0 := by
  unfold State.closeStep
  try dsimp only [State.take]
  with_reducible repeat' first
    | assumption
    | apply State.incSat_ctl
    | apply State.setTenant_ctl
    | apply State.hbmWrite_ctl
    | apply State.jobFault_ctl
    | apply State.sendArrival_ctl
    | apply State.regionConflict_ctl
    | apply State.raise_ctl
    | apply State.ctl_foldl
    | (intro _ _ _; try dsimp only)
    | split
    | simp only [State.ctl_mk]

theorem State.manTriggerAt_ctl {s : State} {t : Nat} {trig : Nat} {time : Nat} (h_s : s.Ctl r0) : (State.manTriggerAt s t trig time).Ctl r0 := by
  unfold State.manTriggerAt
  try dsimp only [State.take]
  with_reducible repeat' first
    | assumption
    | apply State.incSat_ctl
    | apply State.setTenant_ctl
    | apply State.closeStep_ctl
    | apply State.ctl_foldl
    | (intro _ _ _; try dsimp only)
    | split
    | simp only [State.ctl_mk]

theorem State.manTrigger_ctl {s : State} {t : Nat} {trig : Nat} (h_s : s.Ctl r0) : (State.manTrigger s t trig).Ctl r0 := by
  unfold State.manTrigger
  try dsimp only [State.take]
  with_reducible repeat' first
    | assumption
    | apply State.manTriggerAt_ctl
    | apply State.ctl_foldl
    | (intro _ _ _; try dsimp only)
    | split
    | simp only [State.ctl_mk]

theorem execMergedClose_ctl {t : Fin 8} {s : State} (h_s : s.Ctl r0) : KeepsCtl r0 (execMergedClose t s) := by
  unfold execMergedClose
  try dsimp only [State.take]
  with_reducible repeat' first
    | assumption
    | apply KeepsCtl.next
    | apply State.setTenant_ctl
    | apply State.manTriggerAt_ctl
    | apply State.ctl_foldl
    | (intro _ _ _; try dsimp only)
    | split
    | simp only [State.ctl_mk]

theorem State.wrManCtl_ctl {s : State} {t : Nat} {v : Word} (h_s : s.Ctl r0) : (State.wrManCtl s t v).Ctl r0 := by
  unfold State.wrManCtl
  try dsimp only [State.take]
  with_reducible repeat' first
    | assumption
    | apply State.manTrigger_ctl
    | apply State.setTenant_ctl
    | apply State.ctl_foldl
    | (intro _ _ _; try dsimp only)
    | split
    | simp only [State.ctl_mk]

theorem State.manUpdate_ctl {s : State} {t src status sample : Nat} (h_s : s.Ctl r0) : (State.manUpdate s t src status sample).Ctl r0 := by
  unfold State.manUpdate
  try dsimp only [State.take]
  with_reducible repeat' first
    | assumption
    | apply State.setTenant_ctl
    | apply State.ctl_foldl
    | (intro _ _ _; try dsimp only)
    | split
    | simp only [State.ctl_mk]

theorem execEnable_ctl {f : Func} {t : Fin 8} {v : Word} {s : State} (h_s : s.Ctl r0) : KeepsCtl r0 (execEnable f t v s) := by
  unfold execEnable
  try dsimp only [State.take]
  with_reducible repeat' first
    | assumption
    | apply KeepsCtl.next
    | apply State.wrTnCtl_ctl
    | apply State.guarded_ctl
    | apply State.ctl_foldl
    | (intro _ _ _; try dsimp only)
    | (intro _ _; try dsimp only)
    | split
    | simp only [State.ctl_mk]
    | dsimp only [State.take]

theorem execRestart_ctl {f : Func} {t : Fin 8} {v : Word} {s : State} (h_s : s.Ctl r0) : KeepsCtl r0 (execRestart f t v s) := by
  unfold execRestart
  try dsimp only [State.take]
  with_reducible repeat' first
    | assumption
    | apply KeepsCtl.next
    | apply State.wrTnCtl_ctl
    | apply State.guarded_ctl
    | apply State.ctl_foldl
    | (intro _ _ _; try dsimp only)
    | (intro _ _; try dsimp only)
    | split
    | simp only [State.ctl_mk]
    | dsimp only [State.take]

theorem execRelease_ctl {f : Func} {t : Fin 8} {v : Word} {s : State} (h_s : s.Ctl r0) : KeepsCtl r0 (execRelease f t v s) := by
  unfold execRelease
  try dsimp only [State.take]
  with_reducible repeat' first
    | assumption
    | apply KeepsCtl.next
    | apply State.wrTnCtl_ctl
    | apply State.guarded_ctl
    | apply State.ctl_foldl
    | (intro _ _ _; try dsimp only)
    | (intro _ _; try dsimp only)
    | split
    | simp only [State.ctl_mk]
    | dsimp only [State.take]

theorem execQTailWrite_ctl {f : Func} {t : Fin 8} {q : Fin 4} {v : Word} {s : State} (h_s : s.Ctl r0) : KeepsCtl r0 (execQTailWrite f t q v s) := by
  unfold execQTailWrite
  with_reducible repeat' first
    | assumption
    | apply KeepsCtl.next
    | apply State.guarded_ctl
    | apply State.wrQTail_ctl
    | (intro _ _; try dsimp only)

theorem execQCfgWrite_ctl {f : Func} {t : Fin 8} {q : Fin 4} {v : Word} {s : State} (h_s : s.Ctl r0) : KeepsCtl r0 (execQCfgWrite f t q v s) := by
  unfold execQCfgWrite
  with_reducible repeat' first
    | assumption
    | apply KeepsCtl.next
    | apply State.guarded_ctl
    | apply State.wrQCfg_ctl
    | (intro _ _; try dsimp only)

theorem execTnResWrite_ctl {f : Func} {t : Fin 8} {v : Word} {s : State} (h_s : s.Ctl r0) : KeepsCtl r0 (execTnResWrite f t v s) := by
  unfold execTnResWrite
  with_reducible repeat' first
    | assumption
    | apply KeepsCtl.next
    | apply State.guarded_ctl
    | apply State.wrTnRes_ctl
    | (intro _ _; try dsimp only)

theorem execClose_ctl {f : Func} {t : Fin 8} {v : Word} {s : State} (h_s : s.Ctl r0) : KeepsCtl r0 (execClose f t v s) := by
  unfold execClose
  try dsimp only [State.take]
  with_reducible repeat' first
    | assumption
    | apply KeepsCtl.next
    | apply State.guarded_ctl
    | apply State.wrManCtl_ctl
    | apply State.ctl_foldl
    | (intro _ _ _; try dsimp only)
    | (intro _ _; try dsimp only)
    | split
    | simp only [State.ctl_mk]
    | dsimp only [State.take]

theorem execManAck_ctl {f : Func} {t : Fin 8} {v : Word} {s : State} (h_s : s.Ctl r0) : KeepsCtl r0 (execManAck f t v s) := by
  unfold execManAck
  try dsimp only [State.take]
  with_reducible repeat' first
    | assumption
    | apply KeepsCtl.next
    | apply State.guarded_ctl
    | apply State.wrManCtl_ctl
    | apply State.ctl_foldl
    | (intro _ _ _; try dsimp only)
    | (intro _ _; try dsimp only)
    | split
    | simp only [State.ctl_mk]
    | dsimp only [State.take]

theorem execTallyConfigWrite_ctl {f : Func} {b : BarId} {part : Bool} {v : Word} {busy : Bool} {s : State} (h_s : s.Ctl r0) : KeepsCtl r0 (execTallyConfigWrite f b part v busy s) := by
  unfold execTallyConfigWrite
  with_reducible repeat' first
    | assumption
    | apply KeepsCtl.next
    | apply State.tallyCfg_ctl
    | apply State.guarded_ctl
    | (intro _ _; try dsimp only)
    | split

end Sys2Proof.Machine
end

