-- ==== Sys2Proof/Laws/ControlLinkField.lean ====
section
/-!
SUPPORT. What the functions of Machine/LinkField.lean leave alone (Control.lean).
-/
namespace Sys2Proof.Machine

variable {r0 : MileSt × List (Nat × CanNode) × Pins × Clock × DroverSt}

theorem State.takeSb_ctl {s : State} {w : SbWord} (h_s : s.Ctl r0) : (State.takeSb s w).Ctl r0 := by
  unfold State.takeSb
  try dsimp only [State.take]
  with_reducible repeat' first
    | assumption
    | apply State.setPort_ctl
    | split
    | simp only [State.ctl_mk]

theorem State.sbToward_ctl {s : State} {w : SbWord} {d : Nat} (h_s : s.Ctl r0) : (State.sbToward s w d).Ctl r0 := by
  unfold State.sbToward
  try dsimp only [State.take]
  with_reducible repeat' first
    | assumption
    | apply State.sendSb_ctl
    | split
    | simp only [State.ctl_mk]

theorem State.setFc_ctl {s : State} {v : Nat} (h_s : s.Ctl r0) : (State.setFc s v).Ctl r0 := by
  unfold State.setFc
  with_reducible repeat' first
    | assumption
    | apply State.pf_ctl

theorem execTimesyncSend_ctl {s : State} (h_s : s.Ctl r0) : KeepsCtl r0 (execTimesyncSend s) := by
  unfold execTimesyncSend
  try dsimp only [State.take]
  with_reducible repeat' first
    | assumption
    | apply KeepsCtl.next
    | apply State.flood_ctl
    | apply State.ctl_foldl
    | (intro _ _ _; try dsimp only)
    | split
    | simp only [State.ctl_mk]

theorem execEchoSend_ctl {s : State} (h_s : s.Ctl r0) : KeepsCtl r0 (execEchoSend s) := by
  unfold execEchoSend
  with_reducible repeat' first
    | assumption
    | apply KeepsCtl.next
    | apply State.flood_ctl

theorem State.freeDelayMin_ctl {s : State} (h_s : s.Ctl r0) : (State.freeDelayMin s).Ctl r0 := by
  unfold State.freeDelayMin
  try dsimp only [State.take]
  with_reducible repeat' first
    | assumption
    | apply State.wr_ctl
    | split
    | simp only [State.ctl_mk]

theorem execEcho_ctl {p : Fin 8} {roundTrip : Nat} {s : State} (h_s : s.Ctl r0) : KeepsCtl r0 (execEcho p roundTrip s) := by
  unfold execEcho
  with_reducible repeat' first
    | assumption
    | apply KeepsCtl.next
    | apply State.pf_ctl
    | apply State.freeDelayMin_ctl

theorem State.firesMet_ctl {s : State} {e : Nat} (h_s : s.Ctl r0) : (State.firesMet s e).Ctl r0 := by
  unfold State.firesMet
  try dsimp only [State.take]
  with_reducible repeat' first
    | assumption
    | apply State.satisfy_ctl
    | apply State.advance_ctl
    | apply State.ctl_foldl
    | (intro _ _ _; try dsimp only)
    | split
    | simp only [State.ctl_mk]

theorem State.wrLbCfg_ctl {s : State} {f : Func} {k : Nat} {v : Word} (h_s : s.Ctl r0) : (State.wrLbCfg s f k v).Ctl r0 := by
  unfold State.wrLbCfg
  with_reducible repeat' first
    | assumption
    | apply State.store_ctl
    | split

theorem State.wrLbMask_ctl {s : State} {f : Func} {a : Nat} {v : Word} (h_s : s.Ctl r0) : (State.wrLbMask s f a v).Ctl r0 := by
  unfold State.wrLbMask
  with_reducible repeat' first
    | assumption
    | apply State.store_ctl
    | apply State.freeDelayMin_ctl

theorem execLbCfgWrite_ctl {f : Func} {k : Fin 16} {v : Word} {s : State} (h_s : s.Ctl r0) : KeepsCtl r0 (execLbCfgWrite f k v s) := by
  unfold execLbCfgWrite
  with_reducible repeat' first
    | assumption
    | apply KeepsCtl.next
    | apply State.guarded_ctl
    | apply State.wrLbCfg_ctl
    | (intro _ _; try dsimp only)

theorem State.abortWord_ctl {s : State} {port : Nat} {t : Nat} {epoch : Nat} {origin : Nat} {code : Nat} (h_s : s.Ctl r0) : (State.abortWord s port t epoch origin code).Ctl r0 := by
  unfold State.abortWord
  try dsimp only [State.take]
  with_reducible repeat' first
    | assumption
    | apply State.flood_ctl
    | apply State.wr64_ctl
    | apply State.wr_ctl
    | apply State.reportDone_ctl
    | apply State.raise_ctl
    | apply State.purge_ctl
    | apply State.localAbort_ctl
    | apply State.pf_ctl
    | apply State.ctl_foldl
    | (intro _ _ _; try dsimp only)
    | split
    | simp only [State.ctl_mk]

theorem execAbortReceipt_ctl {p t : Fin 8} {epoch : BitVec 4} {origin : Fin 64} {code : Nat} {s : State} (h_s : s.Ctl r0) : KeepsCtl r0 (execAbortReceipt p t epoch origin code s) := by
  unfold execAbortReceipt
  with_reducible repeat' first
    | assumption
    | apply KeepsCtl.next
    | apply State.takeSb_ctl
    | apply State.abortWord_ctl
    | simp only [State.ctl_mk]

theorem execAbortDone_ctl {t : Fin 8} {src : Fin 64} {s : State} (h_s : s.Ctl r0) : KeepsCtl r0 (execAbortDone t src s) := by
  unfold execAbortDone
  try dsimp only [State.take]
  with_reducible repeat' first
    | assumption
    | apply KeepsCtl.next
    | apply State.countDone_ctl
    | apply State.takeSb_ctl
    | apply State.sbToward_ctl
    | split
    | simp only [State.ctl_mk]

theorem State.wrAbtCtl_ctl {s : State} {f : Func} {v : Word} (h_s : s.Ctl r0) : (State.wrAbtCtl s f v).Ctl r0 := by
  unfold State.wrAbtCtl
  try dsimp only [State.take]
  with_reducible repeat' first
    | assumption
    | apply State.jobFault_ctl
    | apply State.store_ctl
    | split

theorem execAbort_ctl {f : Func} {v : Word} {s : State} (h_s : s.Ctl r0) : KeepsCtl r0 (execAbort f v s) := by
  unfold execAbort
  with_reducible repeat' first
    | assumption
    | apply KeepsCtl.next
    | apply State.guarded_ctl
    | apply State.wrAbtCtl_ctl
    | (intro _ _; try dsimp only)

theorem execEpochExchange_ctl {p : Fin 8} {epochs : Word} {s : State} (h_s : s.Ctl r0) : KeepsCtl r0 (execEpochExchange p epochs s) := by
  unfold execEpochExchange
  try dsimp only [State.take]
  with_reducible repeat' first
    | assumption
    | apply KeepsCtl.next
    | apply State.takeSb_ctl
    | apply State.abortWord_ctl
    | apply State.ctl_foldl
    | (intro _ _ _; try dsimp only)
    | split
    | simp only [State.ctl_mk]

end Sys2Proof.Machine
end

