-- ==== Sys2Proof/Laws/ControlLinks.lean ====
section
/-!
SUPPORT. What the functions of Machine/Links.lean leave alone (Control.lean).
-/
namespace Sys2Proof.Machine

variable {r0 : MileSt × List (Nat × CanNode) × Pins × Clock × DroverSt}

theorem State.startTrain_ctl {s : State} {p : Nat} (h_s : s.Ctl r0) : (State.startTrain s p).Ctl r0 := by
  unfold State.startTrain
  try dsimp only [State.take]
  with_reducible repeat' first
    | assumption
    | apply State.setPort_ctl
    | apply State.toState_ctl
    | apply State.pf_ctl
    | apply State.ctl_foldl
    | (intro _ _ _; try dsimp only)
    | split
    | simp only [State.ctl_mk]

theorem State.portTrain_ctl {s : State} {p : Nat} (h_s : s.Ctl r0) : (State.portTrain s p).Ctl r0 := by
  unfold State.portTrain
  with_reducible repeat' first
    | assumption
    | apply State.addSat_ctl
    | apply State.logPort_ctl
    | apply State.leaveUp_ctl
    | apply State.startTrain_ctl

theorem execPortTrainingDone_ctl {p : Fin 8} {locks : BitVec 4} {partner : BitVec 6} {s : State} (h_s : s.Ctl r0) : KeepsCtl r0 (execPortTrainingDone p locks partner s) := by
  unfold execPortTrainingDone
  try dsimp only [State.take]
  with_reducible repeat' first
    | assumption
    | apply KeepsCtl.next
    | apply State.setPort_ctl
    | apply State.toState_ctl
    | apply State.logPort_ctl
    | apply State.wb_ctl
    | apply State.pf_ctl
    | apply State.ctl_foldl
    | (intro _ _ _; try dsimp only)
    | split
    | simp only [State.ctl_mk]

theorem execWiringRetry_ctl {p : Fin 8} {s : State} (h_s : s.Ctl r0) : KeepsCtl r0 (execWiringRetry p s) := by
  unfold execWiringRetry
  with_reducible repeat' first
    | assumption
    | apply KeepsCtl.next
    | apply State.startTrain_ctl
    | split

theorem State.newSeals_ctl {s : State} {p : Nat} (h_s : s.Ctl r0) : (State.newSeals s p).Ctl r0 := by
  unfold State.newSeals
  try dsimp only [State.take]
  with_reducible repeat' first
    | assumption
    | apply State.setPort_ctl
    | apply State.takeMany_ctl
    | apply State.ctl_foldl
    | (intro _ _ _; try dsimp only)
    | split
    | simp only [State.ctl_mk]

theorem execAuthDone_ctl {p : Fin 8} {keyHash : List Word} {signatureOk : Bool} {s : State} (h_s : s.Ctl r0) : KeepsCtl r0 (execAuthDone p keyHash signatureOk s) := by
  unfold execAuthDone
  try dsimp only [State.take]
  with_reducible repeat' first
    | assumption
    | apply KeepsCtl.next
    | apply State.sendSb_ctl
    | apply State.setPort_ctl
    | apply State.toState_ctl
    | apply State.newSeals_ctl
    | apply State.logPort_ctl
    | apply State.wb_ctl
    | apply State.freeDelayMin_ctl
    | apply State.sendProxies_ctl
    | apply State.ctl_foldl
    | (intro _ _ _; try dsimp only)
    | split
    | simp only [State.ctl_mk]

theorem execLaneLockLoss_ctl {p : Fin 8} {lanes : BitVec 4} {s : State} (h_s : s.Ctl r0) : KeepsCtl r0 (execLaneLockLoss p lanes s) := by
  unfold execLaneLockLoss
  try dsimp only [State.take]
  with_reducible repeat' first
    | assumption
    | apply KeepsCtl.next
    | apply State.pf_ctl
    | apply State.startTrain_ctl
    | apply State.portTrain_ctl
    | split

theorem State.replayLimit_ctl {s : State} {p : Nat} (h_s : s.Ctl r0) : (State.replayLimit s p).Ctl r0 := by
  unfold State.replayLimit
  with_reducible repeat' first
    | assumption
    | apply State.wb_ctl
    | apply State.logPort_ctl
    | apply State.portTrain_ctl

theorem State.setRx_ctl {s : State} {p : Nat} {x : Rx} (h_s : s.Ctl r0) : (State.setRx s p x).Ctl r0 := by
  unfold State.setRx
  try dsimp only [State.take]
  with_reducible repeat' first
    | assumption
    | apply State.setPort_ctl
    | apply State.ctl_foldl
    | (intro _ _ _; try dsimp only)
    | split
    | simp only [State.ctl_mk]

theorem execDataSlot_ctl {p : Fin 8} {d : DataSlot} {s : State} (h_s : s.Ctl r0) : KeepsCtl r0 (execDataSlot p d s) := by
  unfold execDataSlot
  try dsimp only [State.take]
  with_reducible repeat' first
    | assumption
    | apply KeepsCtl.next
    | apply State.setRx_ctl
    | apply State.setPort_ctl
    | apply State.addSat_ctl
    | apply State.replayLimit_ctl
    | apply State.ctl_foldl
    | (intro _ _ _; try dsimp only)
    | split
    | simp only [State.ctl_mk]

theorem State.openPacket_ctl {s : State} {p : Nat} {f : Flit} (h_s : s.Ctl r0) : (State.openPacket s p f).Ctl r0 := by
  unfold State.openPacket
  try dsimp only [State.take]
  with_reducible repeat' first
    | assumption
    | apply State.answer_ctl
    | apply State.setPort_ctl
    | apply State.addSat_ctl
    | apply State.giveBack_ctl
    | apply State.take_ctl
    | refine State.take_ctl_eq ?_ (by assumption)
    | apply State.ctl_foldl
    | (intro _ _ _; try dsimp only)
    | split
    | simp only [State.ctl_mk]

theorem State.moreFlits_ctl {s : State} {p : Nat} {f : Flit} {before : List RxPkt} {r : RxPkt} (h_s : s.Ctl r0) : (State.moreFlits s p f before r).Ctl r0 := by
  unfold State.moreFlits
  try dsimp only [State.take]
  with_reducible repeat' first
    | assumption
    | apply State.setPort_ctl
    | apply State.giveBack_ctl
    | apply State.ctl_foldl
    | (intro _ _ _; try dsimp only)
    | split
    | simp only [State.ctl_mk]

theorem State.joinFlit_ctl {s : State} {p : Nat} {f : Flit} (h_s : s.Ctl r0) : (State.joinFlit s p f).Ctl r0 := by
  unfold State.joinFlit
  try dsimp only [State.take]
  with_reducible repeat' first
    | assumption
    | apply State.setPort_ctl
    | apply State.openPacket_ctl
    | apply State.giveBack_ctl
    | apply State.moreFlits_ctl
    | apply State.ctl_foldl
    | (intro _ _ _; try dsimp only)
    | split
    | simp only [State.ctl_mk]

theorem State.sideband_ctl {s : State} {p : Nat} {w : Nat × SbWord} (h_s : s.Ctl r0) : (State.sideband s p w).Ctl r0 := by
  unfold State.sideband
  try dsimp only [State.take]
  with_reducible repeat' first
    | assumption
    | apply State.setPort_ctl
    | apply State.sendSb_ctl
    | split
    | simp only [State.ctl_mk]

theorem State.closeRun_ctl {s : State} {p : Nat} {tagOk : Bool} (h_s : s.Ctl r0) : (State.closeRun s p tagOk).Ctl r0 := by
  unfold State.closeRun
  try dsimp only [State.take]
  with_reducible repeat' first
    | assumption
    | apply State.setRx_ctl
    | apply State.addSat_ctl
    | apply State.logPort_ctl
    | apply State.joinFlit_ctl
    | apply State.wb_ctl
    | apply State.portTrain_ctl
    | apply State.replayLimit_ctl
    | apply State.ctl_foldl
    | (intro _ _ _; try dsimp only)
    | split
    | simp only [State.ctl_mk]

theorem State.takeNak_ctl {s : State} {p n : Nat} (h_s : s.Ctl r0) : (State.takeNak s p n).Ctl r0 := by
  unfold State.takeNak
  try dsimp only [State.take]
  with_reducible repeat' first
    | assumption
    | apply State.setPort_ctl
    | apply State.replayLimit_ctl
    | split
    | simp only [State.ctl_mk]

theorem execControlSlot_ctl {p : Fin 8} {c : CtlSlot} {s : State} (h_s : s.Ctl r0) : KeepsCtl r0 (execControlSlot p c s) := by
  unfold execControlSlot
  try dsimp only [State.take]
  with_reducible repeat' first
    | assumption
    | apply KeepsCtl.next
    | apply State.setRx_ctl
    | apply State.setPort_ctl
    | apply State.sideband_ctl
    | apply State.addSat_ctl
    | apply State.replayLimit_ctl
    | apply State.takeNak_ctl
    | apply State.closeRun_ctl
    | apply State.ctl_foldl
    | (intro _ _ _; try dsimp only)
    | split
    | simp only [State.ctl_mk]

theorem State.rxPop_ctl {s : State} {p vc : Nat} (h_s : s.Ctl r0) : (State.rxPop s p vc).Ctl r0 := by
  unfold State.rxPop
  try dsimp only [State.take]
  with_reducible repeat' first
    | assumption
    | apply State.setPort_ctl
    | simp only [State.ctl_mk]

theorem State.rxLeave_ctl {s : State} {p : Nat} {vc : Nat} {fate : RxFate} (h_s : s.Ctl r0) : (State.rxLeave s p vc fate).Ctl r0 := by
  unfold State.rxLeave
  try dsimp only [State.take]
  with_reducible repeat' first
    | assumption
    | apply State.setPort_ctl
    | apply State.giveBack_ctl
    | apply State.ctl_foldl
    | (intro _ _ _; try dsimp only)
    | split
    | simp only [State.ctl_mk]

theorem State.forwardPkt_ctl {s : State} {p : Nat} {vc : Nat} {q : Nat} {v : Nat} {k : Packet} (h_s : s.Ctl r0) : (State.forwardPkt s p vc q v k).Ctl r0 := by
  unfold State.forwardPkt
  try dsimp only [State.take]
  with_reducible repeat' first
    | assumption
    | apply State.pushTx_ctl
    | apply State.rxLeave_ctl
    | apply State.ctl_foldl
    | (intro _ _ _; try dsimp only)
    | split
    | simp only [State.ctl_mk]

theorem execPacketForward_ctl {p : Fin 8} {vc : Fin 4} {s : State} (h_s : s.Ctl r0) : KeepsCtl r0 (execPacketForward p vc s) := by
  unfold execPacketForward
  try dsimp only [State.take]
  with_reducible repeat' first
    | assumption
    | apply KeepsCtl.next
    | apply State.answer_ctl
    | apply State.forwardPkt_ctl
    | apply State.rxLeave_ctl
    | apply State.ctl_foldl
    | (intro _ _ _; try dsimp only)
    | split
    | simp only [State.ctl_mk]

theorem execEscWaitExpiry_ctl {p : Fin 8} {vc : Fin 2} {s : State} (h_s : s.Ctl r0) : KeepsCtl r0 (execEscWaitExpiry p vc s) := by
  unfold execEscWaitExpiry
  try dsimp only [State.take]
  with_reducible repeat' first
    | assumption
    | apply KeepsCtl.next
    | apply State.setPort_ctl
    | split
    | simp only [State.ctl_mk]

theorem execWritePacket_ctl {p : Fin 8} {vc : Fin 4} {s : State} (h_s : s.Ctl r0) : KeepsCtl r0 (execWritePacket p vc s) := by
  unfold execWritePacket
  try dsimp only [State.take]
  with_reducible repeat' first
    | assumption
    | apply KeepsCtl.next
    | apply State.hbmWrite_ctl
    | apply State.spWrite_ctl
    | apply State.regionConflict_ctl
    | apply State.chargeHbm_ctl
    | apply State.answer_ctl
    | apply State.rxPop_ctl
    | split
    | simp only [State.ctl_mk]

theorem execWriteAcknowledgement_ctl {p : Fin 8} {vc : Fin 4} {s : State} (h_s : s.Ctl r0) : KeepsCtl r0 (execWriteAcknowledgement p vc s) := by
  unfold execWriteAcknowledgement
  try dsimp only [State.take]
  with_reducible repeat' first
    | assumption
    | apply KeepsCtl.next
    | apply State.arrive_ctl
    | apply State.sendPacket_ctl
    | apply State.rxPop_ctl
    | split
    | simp only [State.ctl_mk]

theorem execErrorResponse_ctl {p : Fin 8} {vc : Fin 4} {s : State} (h_s : s.Ctl r0) : KeepsCtl r0 (execErrorResponse p vc s) := by
  unfold execErrorResponse
  try dsimp only [State.take]
  with_reducible repeat' first
    | assumption
    | apply KeepsCtl.next
    | apply State.failArrival_ctl
    | apply State.failProxy_ctl
    | apply State.rxPop_ctl
    | apply State.failReq_ctl
    | apply State.ctl_foldl
    | (intro _ _ _; try dsimp only)
    | split
    | simp only [State.ctl_mk]

theorem execArrivePacket_ctl {p : Fin 8} {vc : Fin 4} {s : State} (h_s : s.Ctl r0) : KeepsCtl r0 (execArrivePacket p vc s) := by
  unfold execArrivePacket
  try dsimp only [State.take]
  with_reducible repeat' first
    | assumption
    | apply KeepsCtl.next
    | apply State.arrive_ctl
    | apply State.sendArrival_ctl
    | apply State.rxPop_ctl
    | split
    | simp only [State.ctl_mk]

end Sys2Proof.Machine
end

