-- ==== Sys2Proof/Laws/ControlPorter.lean ====
section
/-!
SUPPORT. What the functions of Machine/Porter.lean leave alone (Control.lean).
-/
namespace Sys2Proof.Machine

variable {r0 : MileSt × List (Nat × CanNode) × Pins × Clock × DroverSt}

theorem execCopy_ctl {p : Fin 16} {s : State} (h_s : s.Ctl r0) : KeepsCtl r0 (execCopy p s) := by
  unfold execCopy
  try dsimp only [State.take]
  with_reducible repeat' first
    | assumption
    | apply KeepsCtl.next
    | apply State.wr_ctl
    | apply State.setPorter_ctl
    | apply State.wr64_ctl
    | apply State.refuse_ctl
    | apply State.porterFault_ctl
    | split
    | simp only [State.ctl_mk]

theorem State.sideWrite_ctl {s : State} {space e a : Nat} {bs : List Byte} (h_s : s.Ctl r0) : (State.sideWrite s space e a bs).Ctl r0 := by
  unfold State.sideWrite
  with_reducible repeat' first
    | assumption
    | apply State.hbmWrite_ctl
    | apply State.spWrite_ctl
    | split

theorem State.writeRows_ctl {s : State} {d : Desc} {l : List (Nat × List Byte)} (h_s : s.Ctl r0) : (State.writeRows s d l).Ctl r0 := by
  unfold State.writeRows
  with_reducible repeat' first
    | assumption
    | apply State.sideWrite_ctl
    | apply State.ctl_foldl
    | (intro _ _ _; try dsimp only)

theorem State.sendWrite_ctl {s : State} {p : Nat} {c : Cmd} {desc dest space : Nat} {x : Nat × List Byte} (h_s : s.Ctl r0) : (State.sendWrite s p c desc dest space x).Ctl r0 := by
  unfold State.sendWrite
  try dsimp only [State.take]
  with_reducible repeat' first
    | assumption
    | apply State.sendPacket_ctl
    | split
    | simp only [State.ctl_mk]
    | dsimp only

theorem State.countBytes_ctl {s : State} {p t : Nat} {d : Desc} {n : Nat} (h_s : s.Ctl r0) : (State.countBytes s p t d n).Ctl r0 := by
  unfold State.countBytes
  try dsimp only [State.take]
  with_reducible repeat' first
    | assumption
    | apply State.wr64_ctl
    | apply State.chargeHbm_ctl
    | split

theorem State.putRows_ctl {s : State} {p : Nat} {c : Cmd} {i : Nat} {d : Desc} {data : List (Nat × List Byte)} (h_s : s.Ctl r0) : (State.putRows s p c i d data).Ctl r0 := by
  unfold State.putRows
  try dsimp only [State.take]
  with_reducible repeat' first
    | assumption
    | apply State.sendWrite_ctl
    | apply State.writeRows_ctl
    | apply State.ctl_foldl
    | (intro _ _ _; try dsimp only)
    | split
    | simp only [State.ctl_mk]

theorem State.moveDesc_ctl {s : State} {p : Nat} {c : Cmd} {i : Nat} {d : Desc} {rows : List (Int × Int)} (h_s : s.Ctl r0) : (State.moveDesc s p c i d rows).Ctl r0 := by
  unfold State.moveDesc
  try dsimp only [State.take]
  with_reducible repeat' first
    | assumption
    | apply State.countBytes_ctl
    | apply State.putRows_ctl
    | apply State.ctl_foldl
    | (intro _ _ _; try dsimp only)
    | split
    | simp only [State.ctl_mk]

theorem State.partialRows_ctl {s : State} {p : Nat} {c : Cmd} {i : Nat} {d : Desc} {rows : List (Int × Int)} {rev0 : Bool} {before : Nat} (h_s : s.Ctl r0) : (State.partialRows s p c i d rows rev0 before).Ctl r0 := by
  unfold State.partialRows
  try dsimp only [State.take]
  with_reducible repeat' first
    | assumption
    | apply State.countBytes_ctl
    | apply State.putRows_ctl
    | apply State.take_ctl
    | refine State.take_ctl_eq ?_ (by assumption)
    | apply State.ctl_foldl
    | (intro _ _ _; try dsimp only)
    | split
    | simp only [State.ctl_mk]

theorem State.nextDesc_ctl {s : State} {p : Nat} {r : Run} {d : Desc} (h_s : s.Ctl r0) : (State.nextDesc s p r d).Ctl r0 := by
  unfold State.nextDesc
  try dsimp only [State.take]
  with_reducible repeat' first
    | assumption
    | apply State.setPorter_ctl
    | split
    | simp only [State.ctl_mk]

theorem State.noteUe_ctl {s : State} {p : Nat} {c : Cmd} {d : Desc} {hw : HwFault} (h_s : s.Ctl r0) : (State.noteUe s p c d hw).Ctl r0 := by
  unfold State.noteUe
  try dsimp only [State.take]
  with_reducible repeat' first
    | assumption
    | apply State.hwNote_ctl
    | apply State.recordFault_ctl
    | apply State.logEvent_ctl
    | apply State.ctl_foldl
    | (intro _ _ _; try dsimp only)
    | split
    | simp only [State.ctl_mk]

theorem State.runDesc_ctl {s : State} {p : Nat} {r : Run} {i : Nat} {addr : Nat} {hw : HwFault} (h_s : s.Ctl r0) : (State.runDesc s p r i addr hw).Ctl r0 := by
  unfold State.runDesc
  try dsimp only [State.take]
  with_reducible repeat' first
    | assumption
    | apply State.porterFault_ctl
    | apply State.hwNote_ctl
    | apply State.noteUe_ctl
    | apply State.regionConflict_ctl
    | apply State.partialRows_ctl
    | apply State.take_ctl
    | refine State.take_ctl_eq ?_ (by assumption)
    | apply State.wb_ctl
    | apply State.nextDesc_ctl
    | apply State.pf_ctl
    | apply State.moveDesc_ctl
    | apply State.ctl_foldl
    | (intro _ _ _; try dsimp only)
    | split
    | simp only [State.ctl_mk]

theorem execPorterDescriptor_ctl {p : Fin 16} {hw : HwFault} {s : State} (h_s : s.Ctl r0) : KeepsCtl r0 (execPorterDescriptor p hw s) := by
  unfold execPorterDescriptor
  try dsimp only [State.take]
  with_reducible repeat' first
    | assumption
    | apply KeepsCtl.next
    | apply State.porterFault_ctl
    | apply State.hwNote_ctl
    | apply State.runDesc_ctl
    | apply State.wr64_ctl
    | apply State.regionConflict_ctl
    | apply State.chargeHbm_ctl
    | apply State.pf_ctl
    | apply State.ctl_foldl
    | (intro _ _ _; try dsimp only)
    | split
    | simp only [State.ctl_mk]

end Sys2Proof.Machine
end

