-- ==== Sys2Proof/Laws/ControlEngine.lean ====
section
/-!
SUPPORT. What the functions of Machine/Engine.lean leave alone (Control.lean).
-/
namespace Sys2Proof.Machine

variable {r0 : MileSt × List (Nat × CanNode) × Pins × Clock × DroverSt}

theorem State.arithInfo_ctl {s : State} {r : List Word} {stage : Nat} {c : Cmd} (h_s : s.Ctl r0) : (State.arithInfo s r stage c).2.Ctl r0 := by
  unfold State.arithInfo
  try dsimp only [State.take]
  with_reducible repeat' first
    | assumption
    | split
    | simp only [State.ctl_mk]

theorem State.arithInfo_ctl_eq {s : State} {r : List Word} {stage : Nat} {c : Cmd} {y : State}  {x} (h_s : s.Ctl r0) (he : State.arithInfo s r stage c = (x, y)) : y.Ctl r0 := by
  have := State.arithInfo_ctl (r0 := r0) (s := s) (r := r) (stage := stage) (c := c) h_s
  rw [he] at this
  exact this

theorem State.refuseSel_ctl {s : State} {e : Nat} {c : Cmd} {page code info : Nat} (h_s : s.Ctl r0) : (State.refuseSel s e c page code info).Ctl r0 := by
  unfold State.refuseSel
  try dsimp only [State.take]
  with_reducible repeat' first
    | assumption
    | apply State.setEngine_ctl
    | apply State.failCmd_ctl
    | simp only [State.ctl_mk]

theorem State.refuseArith_ctl {s : State} {e : Nat} {c : Cmd} {r : List Word} {code : Nat} (h_s : s.Ctl r0) : (State.refuseArith s e c r code).Ctl r0 := by
  unfold State.refuseArith
  try dsimp only [State.take]
  with_reducible repeat' first
    | assumption
    | apply State.arithInfo_ctl
    | refine State.arithInfo_ctl_eq ?_ (by assumption)
    | apply State.refuseSel_ctl
    | split

theorem State.planFail_ctl_eq {s y : State} {e c r p} (h_s : s.Ctl r0) (he : State.planFail s e c r p = some y) : y.Ctl r0 := by
  unfold State.planFail at he
  repeat' split at he
  all_goals first
    | (cases he; first | exact State.refuseSel_ctl h_s | exact State.refuseArith_ctl h_s)
    | cases he

theorem Result.out_ctl {self : Result} (h_self : self.out.Ctl r0) : (Result.out self).Ctl r0 := by
  unfold Result.out
  try dsimp only [State.take]
  with_reducible repeat' first
    | assumption
    | exact h_self
    | apply State.ctl_foldl
    | (intro _ _ _; try dsimp only)
    | split
    | simp only [State.ctl_mk]

theorem State.faultRun_ctl {s : State} {e : Nat} {c : Cmd} {code info : Nat} {openA : Bool} (h_s : s.Ctl r0) : (State.faultRun s e c code info openA).Ctl r0 := by
  unfold State.faultRun
  try dsimp only [State.take]
  with_reducible repeat' first
    | assumption
    | apply State.setEngine_ctl
    | apply State.failCmd_ctl
    | split
    | simp only [State.ctl_mk]

theorem State.keepBytes_ctl {s : State} {e : Nat} {x2 : Option (Nat × List Byte)} (h_s : s.Ctl r0) : (State.keepBytes s e x2).Ctl r0 := by
  unfold State.keepBytes
  try dsimp only [State.take]
  with_reducible repeat' first
    | assumption
    | apply State.spWrite_ctl
    | apply State.ctl_foldl
    | (intro _ _ _; try dsimp only)
    | split
    | simp only [State.ctl_mk]

theorem State.endRun_ctl {s : State} {e : Nat} {c : Cmd} {r : List Word} {hw : HwFault} {x : Result} (h_s : s.Ctl r0) (h_x : x.out.Ctl r0) : (State.endRun s e c r hw x).Ctl r0 := by
  unfold State.endRun
  try dsimp only [State.take]
  with_reducible repeat' first
    | assumption
    | exact h_x
    | apply State.hwNote_ctl
    | apply Result.out_ctl
    | apply State.regionConflict_ctl
    | apply State.arithInfo_ctl
    | refine State.arithInfo_ctl_eq ?_ (by assumption)
    | apply State.take_ctl
    | refine State.take_ctl_eq ?_ (by assumption)
    | apply State.setEngine_ctl
    | apply State.keepBytes_ctl
    | apply State.faultRun_ctl
    | apply State.ctl_foldl
    | (intro _ _ _; try dsimp only)
    | split
    | simp only [State.ctl_mk]

theorem State.command_ctl {s : State} {e : Nat} {hw : HwFault} {mine : Cmd → Bool} {plan : Cmd → List Word → Plan} {body : Cmd → List Word → Result} (h_s : s.Ctl r0) (h_body : ∀ c r, (body c r).out.Ctl r0) : (State.command s e hw mine plan body).Ctl r0 := by
  unfold State.command
  try dsimp only [State.take]
  with_reducible repeat' first
    | assumption
    | (apply h_body)
    | apply State.refuseSel_ctl
    | apply State.refuseArith_ctl
    | refine State.planFail_ctl_eq ?_ (by assumption)
    | apply State.endRun_ctl
    | split
    | simp only [State.ctl_mk]

theorem State.countMiss_ctl {s : State} {e : Nat} (h_s : s.Ctl r0) : (State.countMiss s e).Ctl r0 := by
  unfold State.countMiss
  try dsimp only [State.take]
  with_reducible repeat' first
    | assumption
    | apply State.wr_ctl
    | apply State.ctl_foldl
    | (intro _ _ _; try dsimp only)
    | split
    | simp only [State.ctl_mk]

theorem State.fillRecipe_ctl {s : State} {e : Nat} {c : Cmd} (h_s : s.Ctl r0) : (State.fillRecipe s e c).Ctl r0 := by
  unfold State.fillRecipe
  try dsimp only [State.take]
  with_reducible repeat' first
    | assumption
    | apply State.wr_ctl
    | apply State.setEngine_ctl
    | split
    | simp only [State.ctl_mk]

theorem execRecipeCacheFill_ctl {e : Fin 6} {hw : HwFault} {s : State} (h_s : s.Ctl r0) : KeepsCtl r0 (execRecipeCacheFill e hw s) := by
  unfold execRecipeCacheFill
  try dsimp only [State.take]
  with_reducible repeat' first
    | assumption
    | apply KeepsCtl.next
    | apply State.refuseSel_ctl
    | apply State.regionConflict_ctl
    | apply State.hbmNote_ctl
    | apply State.chargeHbm_ctl
    | apply State.countMiss_ctl
    | apply State.setEngine_ctl
    | apply State.fillRecipe_ctl
    | apply State.ctl_foldl
    | (intro _ _ _; try dsimp only)
    | split
    | simp only [State.ctl_mk]

end Sys2Proof.Machine
end

