-- ==== Sys2Proof/Laws/ControlHostel.lean ====
section
/-!
SUPPORT. What the functions of Machine/Hostel.lean leave alone (Control.lean).
-/
namespace Sys2Proof.Machine

variable {r0 : MileSt × List (Nat × CanNode) × Pins × Clock × DroverSt}

theorem State.wrHstCtl_ctl {s : State} {f : Func} {e : Nat} {v : Word} (h_s : s.Ctl r0) : (State.wrHstCtl s f e v).Ctl r0 := by
  unfold State.wrHstCtl
  try dsimp only [State.take]
  with_reducible repeat' first
    | assumption
    | apply State.setEngine_ctl
    | apply State.pf_ctl
    | split
    | simp only [State.ctl_mk]

theorem execTlbInv_ctl {f : Func} {e : Fin 6} {v : Word} {s : State} (h_s : s.Ctl r0) : KeepsCtl r0 (execTlbInv f e v s) := by
  unfold execTlbInv
  with_reducible repeat' first
    | assumption
    | apply KeepsCtl.next
    | apply State.guarded_ctl
    | apply State.wrHstCtl_ctl
    | (intro _ _; try dsimp only)

theorem execInvTn_ctl {f : Func} {e : Fin 6} {v : Word} {s : State} (h_s : s.Ctl r0) : KeepsCtl r0 (execInvTn f e v s) := by
  unfold execInvTn
  with_reducible repeat' first
    | assumption
    | apply KeepsCtl.next
    | apply State.guarded_ctl
    | apply State.wrHstCtl_ctl
    | (intro _ _; try dsimp only)

theorem State.walkRead_ctl {s : State} {t : Nat} {at_ : Nat} {lp : Nat} {hw : HwFault} {rs : List (Nat × Nat)} (h_s : s.Ctl r0) : (State.walkRead s t at_ lp hw rs).1.Ctl r0 := by
  unfold State.walkRead
  try dsimp only [State.take]
  with_reducible repeat' first
    | assumption
    | apply State.hbmNote_ctl
    | apply State.chargeHbm_ctl
    | apply State.ctl_foldl
    | (intro _ _ _; try dsimp only)
    | split
    | simp only [State.ctl_mk]

theorem State.walkRead_ctl_eq {s : State} {t : Nat} {at_ : Nat} {lp : Nat} {hw : HwFault} {rs : List (Nat × Nat)} {y : State} {x1_} (h_s : s.Ctl r0) (he : State.walkRead s t at_ lp hw rs = (y, x1_)) : y.Ctl r0 := by
  have h := State.walkRead_ctl (r0 := r0) (s := s) (t := t) (at_ := at_) (lp := lp) (hw := hw) (rs := rs) h_s
  rw [he] at h
  exact h

theorem State.translate_ctl {s : State} {e : Nat} {k : PageKind} {pt : Nat} {lp : Nat} {hw : HwFault} (h_s : s.Ctl r0) : (State.translate s e k pt lp hw).1.Ctl r0 := by
  unfold State.translate
  try dsimp only [State.take]
  with_reducible repeat' first
    | assumption
    | apply State.wr_ctl
    | apply State.setEngine_ctl
    | apply State.walkRead_ctl
    | refine State.walkRead_ctl_eq ?_ (by assumption)
    | apply State.ctl_foldl
    | (intro _ _ _; try dsimp only)
    | split
    | simp only [State.ctl_mk]

theorem State.translate_ctl_eq {s : State} {e : Nat} {k : PageKind} {pt : Nat} {lp : Nat} {hw : HwFault} {y : State} {x1_} (h_s : s.Ctl r0) (he : State.translate s e k pt lp hw = (y, x1_)) : y.Ctl r0 := by
  have h := State.translate_ctl (r0 := r0) (s := s) (e := e) (k := k) (pt := pt) (lp := lp) (hw := hw) h_s
  rw [he] at h
  exact h

theorem State.walkPages_ctl {s : State} {e : Nat} {k : PageKind} {pt tag : Nat} {hw : HwFault} {l : List Nat} (h_s : s.Ctl r0) :
    (State.walkPages s e k pt tag hw l).1.Ctl r0 := by
  induction l generalizing s with
  | nil => exact h_s
  | cons a l ih =>
    unfold State.walkPages
    split
    · exact State.translate_ctl_eq h_s (by assumption)
    · rename_i he
      have h1 := State.translate_ctl_eq h_s he
      split
      · exact h1
      · split
        · exact State.walkRead_ctl_eq h1 (by assumption)
        · rename_i hr
          have h2 := State.walkRead_ctl_eq h1 hr
          split
          · exact h2
          · have h3 := ih h2
            split <;> rename_i hw <;> rw [hw] at h3 <;> exact h3

theorem State.walkPages_ctl_eq {s y : State} {e : Nat} {k : PageKind} {pt tag : Nat} {hw : HwFault} {l : List Nat} {x} (h_s : s.Ctl r0)
    (he : State.walkPages s e k pt tag hw l = (y, x)) : y.Ctl r0 := by
  have h := State.walkPages_ctl (r0 := r0) (e := e) (k := k) (pt := pt) (tag := tag) (hw := hw) (l := l) h_s
  rw [he] at h
  exact h

theorem State.hostelNote_ctl {s : State} {e addr seq lp : Nat} (h_s : s.Ctl r0) : (State.hostelNote s e addr seq lp).Ctl r0 := by
  unfold State.hostelNote
  with_reducible repeat' first
    | assumption
    | apply State.wr_ctl
    | apply State.wr64_ctl

end Sys2Proof.Machine
end

