-- ==== Sys2Proof/Laws/ControlMatmul.lean ====
section
/-!
SUPPORT. What the functions of Machine/Matmul.lean leave alone (Control.lean).
-/
namespace Sys2Proof.Machine

variable {r0 : MileSt × List (Nat × CanNode) × Pins × Clock × DroverSt}

theorem State.matmulBody_ctl {s : State} {e : Nat} {c : Cmd} {r : List Word} (h_s : s.Ctl r0) : (State.matmulBody s e c r).out.Ctl r0 := by
  unfold State.matmulBody
  try dsimp only [State.take]
  with_reducible repeat' first
    | assumption
    | apply State.putCodes_ctl
    | apply State.takeMany_ctl
    | apply State.ctl_foldl
    | (intro _ _ _; try dsimp only)
    | split
    | simp only [State.ctl_mk]
    | dsimp only

theorem execMatmul_ctl {e : Fin 6} {hw : HwFault} {s : State} (h_s : s.Ctl r0) : KeepsCtl r0 (execMatmul e hw s) := by
  unfold execMatmul
  with_reducible repeat' first
    | assumption
    | apply KeepsCtl.next
    | apply State.command_ctl
    | apply State.matmulBody_ctl
    | (intro _ _; try dsimp only)

end Sys2Proof.Machine
end

