-- ==== Sys2Proof/Laws/ControlAttn.lean ====
section
/-!
SUPPORT. What the functions of Machine/Attn.lean leave alone (Control.lean).
-/
namespace Sys2Proof.Machine

variable {r0 : MileSt × List (Nat × CanNode) × Pins × Clock × DroverSt}

theorem State.walkAll_ctl {s : State} {e c p k hw l} (h_s : s.Ctl r0) : (State.walkAll s e c p k hw l).1.Ctl r0 := by
  induction l generalizing s with
  | nil => exact h_s
  | cons a l ih =>
    unfold State.walkAll
    dsimp only
    split
    · exact ih h_s
    · split
      · exact State.walkPages_ctl_eq h_s (by assumption)
      · rename_i he
        have h2 := ih (State.walkPages_ctl_eq h_s he)
        split <;> rename_i hw <;> rw [hw] at h2 <;> exact h2

theorem State.walkAll_ctl_eq {s y : State} {e c p k hw l x} (h_s : s.Ctl r0) (he : State.walkAll s e c p k hw l = (y, x)) : y.Ctl r0 := by
  have h := State.walkAll_ctl (e := e) (c := c) (p := p) (k := k) (hw := hw) (l := l) h_s
  rw [he] at h
  exact h

theorem State.readPage_ctl {s : State} {p : AttnP} {k : PageKind} {hw : HwFault} {len : Nat} {rs : List (Nat × Reach)} {x : Nat × Nat} (h_s : s.Ctl r0) : (State.readPage s p k hw len rs x).1.Ctl r0 := by
  unfold State.readPage
  try dsimp only [State.take]
  with_reducible repeat' first
    | assumption
    | apply State.walkRead_ctl
    | refine State.walkRead_ctl_eq ?_ (by assumption)
    | apply State.ctl_foldl
    | (intro _ _ _; try dsimp only)
    | split
    | simp only [State.ctl_mk]

theorem State.readPage_ctl_eq {s : State} {p : AttnP} {k : PageKind} {hw : HwFault} {len : Nat} {rs : List (Nat × Reach)} {x : Nat × Nat} {y : State} {x1_} (h_s : s.Ctl r0) (he : State.readPage s p k hw len rs x = (y, x1_)) : y.Ctl r0 := by
  have h := State.readPage_ctl (r0 := r0) (s := s) (p := p) (k := k) (hw := hw) (len := len) (rs := rs) (x := x) h_s
  rw [he] at h
  exact h

theorem State.readPages_ctl {s : State} {p : AttnP} {k : PageKind} {hw : HwFault} {len : Nat} {rs : List (Nat × Reach)} {l : List (Nat × Nat)}
    (h_s : s.Ctl r0) : (State.readPages s p k hw len rs l).1.Ctl r0 := by
  induction l generalizing s with
  | nil => exact h_s
  | cons a l ih =>
    unfold State.readPages
    split
    · exact State.readPage_ctl_eq h_s (by assumption)
    · exact ih (State.readPage_ctl_eq h_s (by assumption))

theorem State.readPages_ctl_eq {s y : State} {p : AttnP} {k : PageKind} {hw : HwFault} {len : Nat} {rs : List (Nat × Reach)} {l : List (Nat × Nat)} {x}
    (h_s : s.Ctl r0) (he : State.readPages s p k hw len rs l = (y, x)) : y.Ctl r0 := by
  have h := State.readPages_ctl (r0 := r0) (p := p) (k := k) (hw := hw) (len := len) (rs := rs) (l := l) h_s
  rw [he] at h
  exact h

theorem State.readAll_ctl {s : State} {e : Nat} {c : Cmd} {p : AttnP} {k : PageKind} {hw : HwFault} {l : List (Nat × List (Nat × Nat))}
    (h_s : s.Ctl r0) : (State.readAll s e c p k hw l).1.Ctl r0 := by
  induction l generalizing s with
  | nil => exact h_s
  | cons a l ih =>
    unfold State.readAll
    dsimp only
    split
    · exact State.readPages_ctl_eq h_s (by assumption)
    · exact ih (State.readPages_ctl_eq h_s (by assumption))

theorem State.readAll_ctl_eq {s y : State} {e : Nat} {c : Cmd} {p : AttnP} {k : PageKind} {hw : HwFault} {l : List (Nat × List (Nat × Nat))} {x}
    (h_s : s.Ctl r0) (he : State.readAll s e c p k hw l = (y, x)) : y.Ctl r0 := by
  have h := State.readAll_ctl (r0 := r0) (e := e) (c := c) (p := p) (k := k) (hw := hw) (l := l) h_s
  rw [he] at h
  exact h

theorem State.deadStage_ctl {s : State} {e : Nat} {c : Cmd} {p : AttnP} (h_s : s.Ctl r0) : (State.deadStage s e c p).Ctl r0 := by
  unfold State.deadStage
  try dsimp only [State.take]
  with_reducible repeat' first
    | assumption
    | apply State.spWrite_ctl
    | apply State.takeMany_ctl
    | simp only [State.ctl_mk]

theorem State.fwdAll_ctl {s : State} {e : Nat} {c : Cmd} {p : AttnP} {k : PageKind} {seqs : List (Nat × List (Nat × Nat))} (h_s : s.Ctl r0) : (State.fwdAll s e c p k seqs).out.Ctl r0 := by
  unfold State.fwdAll
  try dsimp only [State.take]
  with_reducible repeat' first
    | assumption
    | apply State.spWrite_ctl
    | apply State.putCodes_ctl
    | apply State.deadStage_ctl
    | apply State.ctl_foldl
    | (intro _ _ _; try dsimp only)
    | split
    | simp only [State.ctl_mk]
    | dsimp only

theorem State.bwAll_ctl {s : State} {e : Nat} {c : Cmd} {p : AttnP} {k : PageKind} {seqs : List (Nat × List (Nat × Nat))} (h_s : s.Ctl r0) : (State.bwAll s e c p k seqs).out.Ctl r0 := by
  unfold State.bwAll
  try dsimp only [State.take]
  with_reducible repeat' first
    | assumption
    | apply State.putCodes_ctl
    | apply State.takeMany_ctl
    | apply State.deadStage_ctl
    | apply State.ctl_foldl
    | (intro _ _ _; try dsimp only)
    | split
    | simp only [State.ctl_mk]
    | dsimp only

theorem State.walkFailed_ctl {s : State} {e : Nat} {c : Cmd} {b : Nat} {x4 : WalkErr} (h_s : s.Ctl r0) : (State.walkFailed s e c b x4).out.Ctl r0 := by
  unfold State.walkFailed
  try dsimp only [State.take]
  with_reducible repeat' first
    | assumption
    | apply State.hostelNote_ctl
    | apply State.ctl_foldl
    | (intro _ _ _; try dsimp only)
    | split
    | simp only [State.ctl_mk]

theorem State.attnBody_ctl {s : State} {e : Nat} {hw : HwFault} {c : Cmd} {x4 : List Word} (h_s : s.Ctl r0) : (State.attnBody s e hw c x4).out.Ctl r0 := by
  unfold State.attnBody
  try dsimp only [State.take]
  with_reducible repeat' first
    | assumption
    | apply State.readAll_ctl
    | refine State.readAll_ctl_eq ?_ (by assumption)
    | apply State.walkFailed_ctl
    | apply State.bwAll_ctl
    | apply State.fwdAll_ctl
    | apply State.walkAll_ctl
    | refine State.walkAll_ctl_eq ?_ (by assumption)
    | apply State.ctl_foldl
    | (intro _ _ _; try dsimp only)
    | split
    | simp only [State.ctl_mk]

theorem execAttnForwardDense_ctl {e : Fin 6} {hw : HwFault} {s : State} (h_s : s.Ctl r0) : KeepsCtl r0 (execAttnForwardDense e hw s) := by
  unfold execAttnForwardDense
  with_reducible repeat' first
    | assumption
    | apply KeepsCtl.next
    | apply State.command_ctl
    | apply State.attnBody_ctl
    | (intro _ _; try dsimp only)

theorem execAttnForwardRetrieval_ctl {e : Fin 6} {hw : HwFault} {s : State} (h_s : s.Ctl r0) : KeepsCtl r0 (execAttnForwardRetrieval e hw s) := by
  unfold execAttnForwardRetrieval
  with_reducible repeat' first
    | assumption
    | apply KeepsCtl.next
    | apply State.command_ctl
    | apply State.attnBody_ctl
    | (intro _ _; try dsimp only)

theorem execAttnBackward_ctl {e : Fin 6} {hw : HwFault} {s : State} (h_s : s.Ctl r0) : KeepsCtl r0 (execAttnBackward e hw s) := by
  unfold execAttnBackward
  with_reducible repeat' first
    | assumption
    | apply KeepsCtl.next
    | apply State.command_ctl
    | apply State.attnBody_ctl
    | (intro _ _; try dsimp only)

end Sys2Proof.Machine
end

