-- ==== Sys2Proof/Laws/ControlFence.lean ====
section
/-!
SUPPORT. What the functions of Machine/Fence.lean leave alone (Control.lean).
-/
namespace Sys2Proof.Machine

variable {r0 : MileSt × List (Nat × CanNode) × Pins × Clock × DroverSt}

theorem State.resetBody_ctl {s : State} {page per : Nat} (h_s : s.Ctl r0) : (State.resetBody s page per).Ctl r0 := by
  unfold State.resetBody
  try dsimp only [State.take]
  with_reducible repeat' first
    | assumption
    | apply State.resetRegs_ctl
    | split
    | simp only [State.ctl_mk]

theorem State.setBlk_ctl {s : State} {page st : Nat} (h_s : s.Ctl r0) : (State.setBlk s page st).Ctl r0 := by
  unfold State.setBlk
  with_reducible repeat' first
    | assumption
    | apply State.pf_ctl

theorem State.dropTree_ctl {s : State} {e : Nat} (h_s : s.Ctl r0) : (State.dropTree s e).Ctl r0 := by
  unfold State.dropTree
  try dsimp only [State.take]
  with_reducible repeat' first
    | assumption
    | apply State.dropWaitOn_ctl
    | apply State.ctl_foldl
    | (intro _ _ _; try dsimp only)
    | split
    | simp only [State.ctl_mk]

theorem State.engineReset_ctl {s : State} {e : Nat} (h_s : s.Ctl r0) : (State.engineReset s e).Ctl r0 := by
  unfold State.engineReset
  try dsimp only [State.take]
  with_reducible repeat' first
    | assumption
    | apply State.spZero_ctl
    | apply State.setEngine_ctl
    | apply State.resetBody_ctl
    | apply State.dropTree_ctl
    | simp only [State.ctl_mk]

theorem State.fenceBarriers_ctl {s : State} {page : Nat} (h_s : s.Ctl r0) : (State.fenceBarriers s page).Ctl r0 := by
  unfold State.fenceBarriers
  try dsimp only [State.take]
  with_reducible repeat' first
    | assumption
    | apply State.endPipe_ctl
    | apply State.take_ctl
    | refine State.take_ctl_eq ?_ (by assumption)
    | apply State.tallyFault_ctl
    | apply State.endGen_ctl
    | apply State.ctl_foldl
    | (intro _ _ _; try dsimp only)
    | split
    | simp only [State.ctl_mk]

theorem State.revoke_ctl {s : State} {i : PageId} (h_s : s.Ctl r0) : (State.revoke s i).Ctl r0 := by
  unfold State.revoke
  try dsimp only [State.take]
  with_reducible repeat' first
    | assumption
    | apply State.wr_ctl
    | apply State.ctl_foldl
    | (intro _ _ _; try dsimp only)
    | split
    | simp only [State.ctl_mk]

theorem State.unitReset_ctl {s : State} {page per : Nat} {i : PageId} (h_s : s.Ctl r0) : (State.unitReset s page per i).Ctl r0 := by
  unfold State.unitReset
  try dsimp only [State.take]
  with_reducible repeat' first
    | assumption
    | apply State.setEngine_ctl
    | apply State.setPorter_ctl
    | apply State.portTrain_ctl
    | apply State.resetBody_ctl
    | apply State.engineReset_ctl
    | split
    | simp only [State.ctl_mk]
    | dsimp only

theorem State.liftFence_ctl {s : State} {p : Nat} {always : Bool} (h_s : s.Ctl r0) : (State.liftFence s p always).Ctl r0 := by
  unfold State.liftFence
  try dsimp only [State.take]
  with_reducible repeat' first
    | assumption
    | apply State.wb_ctl
    | apply State.kick_ctl
    | apply State.setBlk_ctl
    | split
    | simp only [State.ctl_mk]

theorem execFenceLift_ctl {page : Nat} {s : State} (h_s : s.Ctl r0) : KeepsCtl r0 (execFenceLift page s) := by
  unfold execFenceLift
  try dsimp only [State.take]
  with_reducible repeat' first
    | assumption
    | apply KeepsCtl.next
    | apply State.liftFence_ctl
    | split
    | simp only [State.ctl_mk]

theorem State.pmSend_ctl {s : State} {k : Nat} {code : Nat} {data : Nat} (h_s : s.Ctl r0) : (State.pmSend s k code data).Ctl r0 := by
  unfold State.pmSend
  try dsimp only [State.take]
  with_reducible repeat' first
    | assumption
    | apply State.ctl_foldl
    | (intro _ _ _; try dsimp only)
    | split
    | simp only [State.ctl_mk]

theorem State.pmRail_ctl {s : State} {rail : Nat} {code : Nat} {data : Nat} (h_s : s.Ctl r0) : (State.pmRail s rail code data).Ctl r0 := by
  unfold State.pmRail
  try dsimp only [State.take]
  with_reducible repeat' first
    | assumption
    | apply State.pmSend_ctl
    | apply State.ctl_foldl
    | (intro _ _ _; try dsimp only)
    | split
    | simp only [State.ctl_mk]

end Sys2Proof.Machine
end

