-- ==== Sys2Proof/Laws/ControlConv.lean ====
section
/-!
SUPPORT. What the functions of Machine/Conv.lean leave alone (Control.lean).
-/
namespace Sys2Proof.Machine

variable {r0 : MileSt × List (Nat × CanNode) × Pins × Clock × DroverSt}

theorem State.convBody_ctl {s : State} {e : Nat} {c : Cmd} {r : List Word} (h_s : s.Ctl r0) : (State.convBody s e c r).out.Ctl r0 := by
  unfold State.convBody
  try dsimp only [State.take]
  with_reducible repeat' first
    | assumption
    | apply State.putCodes_ctl
    | apply State.takeMany_ctl
    | split
    | simp only [State.ctl_mk]
    | dsimp only

theorem State.freqBody_ctl {s : State} {e : Nat} {c : Cmd} {r : List Word} (h_s : s.Ctl r0) : (State.freqBody s e c r).out.Ctl r0 := by
  unfold State.freqBody
  try dsimp only [State.take]
  with_reducible repeat' first
    | assumption
    | apply State.putCodes_ctl
    | split
    | simp only [State.ctl_mk]
    | dsimp only

theorem execConvDense_ctl {e : Fin 6} {hw : HwFault} {s : State} (h_s : s.Ctl r0) : KeepsCtl r0 (execConvDense e hw s) := by
  unfold execConvDense
  with_reducible repeat' first
    | assumption
    | apply KeepsCtl.next
    | apply State.command_ctl
    | apply State.convBody_ctl
    | (intro _ _; try dsimp only)

theorem execConvDiagonal_ctl {e : Fin 6} {hw : HwFault} {s : State} (h_s : s.Ctl r0) : KeepsCtl r0 (execConvDiagonal e hw s) := by
  unfold execConvDiagonal
  with_reducible repeat' first
    | assumption
    | apply KeepsCtl.next
    | apply State.command_ctl
    | apply State.convBody_ctl
    | (intro _ _; try dsimp only)

theorem execConvFrequency_ctl {e : Fin 6} {hw : HwFault} {s : State} (h_s : s.Ctl r0) : KeepsCtl r0 (execConvFrequency e hw s) := by
  unfold execConvFrequency
  with_reducible repeat' first
    | assumption
    | apply KeepsCtl.next
    | apply State.command_ctl
    | apply State.freqBody_ctl
    | (intro _ _; try dsimp only)

end Sys2Proof.Machine
end

