-- ==== Sys2Proof/Laws/ControlVector.lean ====
section
/-!
SUPPORT. What the functions of Machine/Vector.lean leave alone (Control.lean).
-/
namespace Sys2Proof.Machine

variable {r0 : MileSt × List (Nat × CanNode) × Pins × Clock × DroverSt}

theorem State.mapBody_ctl {s : State} {e : Nat} {c : Cmd} {r : List Word} (h_s : s.Ctl r0) : (State.mapBody s e c r).out.Ctl r0 := by
  unfold State.mapBody
  try dsimp only [State.take]
  with_reducible repeat' first
    | assumption
    | apply State.putCodes_ctl
    | apply State.ctl_foldl
    | (intro _ _ _; try dsimp only)
    | split
    | dsimp only

theorem State.rowsBody_ctl {s : State} {e : Nat} {c : Cmd} {r : List Word} {one : Nat → List Nat → Elem} (h_s : s.Ctl r0) : (State.rowsBody s e c r one).out.Ctl r0 := by
  unfold State.rowsBody
  try dsimp only [State.take]
  with_reducible repeat' first
    | assumption
    | apply State.putCodes_ctl
    | apply State.takeMany_ctl
    | simp only [State.ctl_mk]
    | dsimp only

theorem State.poolBody_ctl {s : State} {e : Nat} {c : Cmd} {r : List Word} {one : List Nat → Elem} (h_s : s.Ctl r0) : (State.poolBody s e c r one).out.Ctl r0 := by
  unfold State.poolBody
  try dsimp only [State.take]
  with_reducible repeat' first
    | assumption
    | apply State.putCodes_ctl
    | dsimp only

theorem State.digestBody_ctl {s : State} {e : Nat} {c : Cmd} {u3 : List Word} (h_s : s.Ctl r0) : (State.digestBody s e c u3).out.Ctl r0 := by
  unfold State.digestBody
  try dsimp only [State.take]
  with_reducible repeat' first
    | assumption
    | apply State.spWrite_ctl
    | split
    | simp only [State.ctl_mk]
    | dsimp only

theorem execVectorMap_ctl {e : Fin 6} {hw : HwFault} {s : State} (h_s : s.Ctl r0) : KeepsCtl r0 (execVectorMap e hw s) := by
  unfold execVectorMap
  with_reducible repeat' first
    | assumption
    | apply KeepsCtl.next
    | apply State.command_ctl
    | apply State.mapBody_ctl
    | (intro _ _; try dsimp only)

theorem execSumFp32_ctl {e : Fin 6} {hw : HwFault} {s : State} (h_s : s.Ctl r0) : KeepsCtl r0 (execSumFp32 e hw s) := by
  unfold execSumFp32
  with_reducible repeat' first
    | assumption
    | apply KeepsCtl.next
    | apply State.command_ctl
    | apply State.rowsBody_ctl
    | (intro _ _; try dsimp only)

theorem execSumGranary_ctl {e : Fin 6} {hw : HwFault} {s : State} (h_s : s.Ctl r0) : KeepsCtl r0 (execSumGranary e hw s) := by
  unfold execSumGranary
  with_reducible repeat' first
    | assumption
    | apply KeepsCtl.next
    | apply State.command_ctl
    | apply State.rowsBody_ctl
    | (intro _ _; try dsimp only)

theorem execVectorMax_ctl {e : Fin 6} {hw : HwFault} {s : State} (h_s : s.Ctl r0) : KeepsCtl r0 (execVectorMax e hw s) := by
  unfold execVectorMax
  with_reducible repeat' first
    | assumption
    | apply KeepsCtl.next
    | apply State.command_ctl
    | apply State.rowsBody_ctl
    | (intro _ _; try dsimp only)

theorem execVectorMin_ctl {e : Fin 6} {hw : HwFault} {s : State} (h_s : s.Ctl r0) : KeepsCtl r0 (execVectorMin e hw s) := by
  unfold execVectorMin
  with_reducible repeat' first
    | assumption
    | apply KeepsCtl.next
    | apply State.command_ctl
    | apply State.rowsBody_ctl
    | (intro _ _; try dsimp only)

theorem execPoolMax_ctl {e : Fin 6} {hw : HwFault} {s : State} (h_s : s.Ctl r0) : KeepsCtl r0 (execPoolMax e hw s) := by
  unfold execPoolMax
  with_reducible repeat' first
    | assumption
    | apply KeepsCtl.next
    | apply State.command_ctl
    | apply State.poolBody_ctl
    | (intro _ _; try dsimp only)

theorem execPoolAvg_ctl {e : Fin 6} {hw : HwFault} {s : State} (h_s : s.Ctl r0) : KeepsCtl r0 (execPoolAvg e hw s) := by
  unfold execPoolAvg
  with_reducible repeat' first
    | assumption
    | apply KeepsCtl.next
    | apply State.command_ctl
    | apply State.poolBody_ctl
    | (intro _ _; try dsimp only)

theorem execDigest_ctl {e : Fin 6} {hw : HwFault} {s : State} (h_s : s.Ctl r0) : KeepsCtl r0 (execDigest e hw s) := by
  unfold execDigest
  with_reducible repeat' first
    | assumption
    | apply KeepsCtl.next
    | apply State.command_ctl
    | apply State.digestBody_ctl
    | (intro _ _; try dsimp only)

end Sys2Proof.Machine
end

