-- ==== Sys2Proof/Laws/ControlSamples.lean ====
section
/-!
SUPPORT. What the functions of Machine/Samples.lean leave alone (Control.lean).
-/
namespace Sys2Proof.Machine

variable {r0 : MileSt × List (Nat × CanNode) × Pins × Clock × DroverSt}

theorem State.srcErr_ctl {s : State} {src : Nat} (h_s : s.Ctl r0) : (State.srcErr s src).Ctl r0 := by
  unfold State.srcErr
  with_reducible repeat' first
    | assumption
    | apply State.wb_ctl

theorem State.unitAccess_ctl {s : State} {t : Nat} {write : Bool} {a len : Nat} (h_s : s.Ctl r0) : (State.unitAccess s t write a len).2.Ctl r0 := by
  unfold State.unitAccess
  try dsimp only [State.take]
  with_reducible repeat' first
    | assumption
    | apply State.regionConflict_ctl
    | split
    | simp only [State.ctl_mk]

theorem State.unitAccess_ctl_eq {s : State} {t : Nat} {write : Bool} {a len : Nat} {y : State}  {x} (h_s : s.Ctl r0) (he : State.unitAccess s t write a len = (x, y)) : y.Ctl r0 := by
  have := State.unitAccess_ctl (r0 := r0) (s := s) (t := t) (write := write) (a := a) (len := len) h_s
  rw [he] at this
  exact this

theorem State.srcStart_ctl {s : State} {src : Nat} (h_s : s.Ctl r0) : (State.srcStart s src).Ctl r0 := by
  unfold State.srcStart
  try dsimp only [State.take]
  with_reducible repeat' first
    | assumption
    | apply State.wb_ctl
    | apply State.setTh_ctl
    | split
    | simp only [State.ctl_mk]

theorem State.srcStop_ctl {s : State} {src : Nat} (h_s : s.Ctl r0) : (State.srcStop s src).Ctl r0 := by
  unfold State.srcStop
  try dsimp only [State.take]
  with_reducible repeat' first
    | assumption
    | apply State.wb_ctl
    | apply State.setTh_ctl
    | split
    | simp only [State.ctl_mk]

theorem State.wrSrcCfg_ctl {s : State} {f : Func} {src : Nat} {v : Word} (h_s : s.Ctl r0) : (State.wrSrcCfg s f src v).Ctl r0 := by
  unfold State.wrSrcCfg
  try dsimp only [State.take]
  with_reducible repeat' first
    | assumption
    | apply State.store_ctl
    | apply State.srcErr_ctl
    | apply State.unitAccess_ctl
    | refine State.unitAccess_ctl_eq ?_ (by assumption)
    | apply State.srcStart_ctl
    | apply State.srcStop_ctl
    | split

theorem execSrcEnable_ctl {f : Func} {src : Fin 96} {v : Word} {s : State} (h_s : s.Ctl r0) : KeepsCtl r0 (execSrcEnable f src v s) := by
  unfold execSrcEnable
  with_reducible repeat' first
    | assumption
    | apply KeepsCtl.next
    | apply State.guarded_ctl
    | apply State.wrSrcCfg_ctl
    | (intro _ _; try dsimp only)

theorem State.wrSrcOther_ctl {s : State} {f : Func} {src off : Nat} {v : Word} (h_s : s.Ctl r0) : (State.wrSrcOther s f src off v).Ctl r0 := by
  unfold State.wrSrcOther
  with_reducible repeat' first
    | assumption
    | apply State.store_ctl
    | apply State.srcErr_ctl
    | split

theorem State.wrAug_ctl {s : State} {f : Func} {src off : Nat} {v : Word} (h_s : s.Ctl r0) : (State.wrAug s f src off v).Ctl r0 := by
  unfold State.wrAug
  try dsimp only [State.take]
  with_reducible repeat' first
    | assumption
    | apply State.store_ctl
    | apply State.srcErr_ctl
    | split

theorem State.setWaiting_ctl {s : State} {src : Nat} {l : List Sample} (h_s : s.Ctl r0) : (State.setWaiting s src l).Ctl r0 := by
  unfold State.setWaiting
  try dsimp only [State.take]
  with_reducible repeat' first
    | assumption
    | simp only [State.ctl_mk]

theorem State.addSampleOf_ctl {s : State} {src : Nat} {x : Sample} (h_s : s.Ctl r0) : (State.addSampleOf s src x).Ctl r0 := by
  unfold State.addSampleOf
  with_reducible repeat' first
    | assumption
    | apply State.setWaiting_ctl

theorem State.corruptSample_ctl {s : State} {src : Nat} (h_s : s.Ctl r0) : (State.corruptSample s src).Ctl r0 := by
  unfold State.corruptSample
  try dsimp only [State.take]
  with_reducible repeat' first
    | assumption
    | apply State.incSat_ctl
    | apply State.raise_ctl
    | apply State.logNamed_ctl
    | apply State.manUpdate_ctl

theorem State.dropSample_ctl {s : State} {src : Nat} (h_s : s.Ctl r0) : (State.dropSample s src).Ctl r0 := by
  unfold State.dropSample
  with_reducible repeat' first
    | assumption
    | apply State.incSat_ctl
    | apply State.raise_ctl

theorem State.inqAppend_ctl {s : State} {t src flags seq slot addr : Nat} (h_s : s.Ctl r0) : (State.inqAppend s t src flags seq slot addr).Ctl r0 := by
  unfold State.inqAppend
  try dsimp only [State.take]
  with_reducible repeat' first
    | assumption
    | apply State.hbmWrite_ctl
    | apply State.addSat_ctl
    | apply State.unitAccess_ctl
    | refine State.unitAccess_ctl_eq ?_ (by assumption)
    | split

theorem State.forwarded_ctl {s : State} {src : Nat} {t : Nat} {flags : Nat} {seq : Nat} {slot : Nat} {addr : Nat} {wc : Nat} (h_s : s.Ctl r0) : (State.forwarded s src t flags seq slot addr wc).Ctl r0 := by
  unfold State.forwarded
  try dsimp only [State.take]
  with_reducible repeat' first
    | assumption
    | apply State.manTrigger_ctl
    | apply State.setTenant_ctl
    | apply State.inqAppend_ctl
    | apply State.hbmWrite_ctl
    | apply State.sendArrival_ctl
    | apply State.manUpdate_ctl
    | apply State.raise_ctl
    | apply State.ctl_foldl
    | (intro _ _ _; try dsimp only)
    | split
    | simp only [State.ctl_mk]

theorem State.forward_ctl {s : State} {src : Nat} {x : Sample} (h_s : s.Ctl r0) : (State.forward s src x).Ctl r0 := by
  unfold State.forward
  try dsimp only [State.take]
  with_reducible repeat' first
    | assumption
    | apply State.hbmWrite_ctl
    | apply State.dropSample_ctl
    | apply State.unitAccess_ctl
    | refine State.unitAccess_ctl_eq ?_ (by assumption)
    | apply State.forwarded_ctl
    | apply State.corruptSample_ctl
    | apply State.ctl_foldl
    | (intro _ _ _; try dsimp only)
    | split
    | simp only [State.ctl_mk]

theorem execSampleForward_ctl {src : Fin 96} {s : State} (h_s : s.Ctl r0) : KeepsCtl r0 (execSampleForward src s) := by
  unfold execSampleForward
  try dsimp only [State.take]
  with_reducible repeat' first
    | assumption
    | apply KeepsCtl.next
    | apply State.forward_ctl
    | apply State.setWaiting_ctl
    | apply State.ctl_foldl
    | (intro _ _ _; try dsimp only)
    | split
    | simp only [State.ctl_mk]

end Sys2Proof.Machine
end

