-- ==== Sys2Proof/Laws/ControlI2c.lean ====
section
/-!
SUPPORT. What the functions of Machine/I2c.lean leave alone (Control.lean).
-/
namespace Sys2Proof.Machine

variable {r0 : MileSt × List (Nat × CanNode) × Pins × Clock × DroverSt}

theorem State.setIc_ctl {s : State} {n : Nat} {x : I2cPort} (h_s : s.Ctl r0) : (State.setIc s n x).Ctl r0 := by
  unfold State.setIc
  try dsimp only [State.take]
  with_reducible repeat' first
    | assumption
    | simp only [State.ctl_mk]

theorem State.setDone_ctl {s : State} {c : Nat} {w : ThSend} (h_s : s.Ctl r0) : (State.setDone s c w).Ctl r0 := by
  unfold State.setDone
  try dsimp only [State.take]
  with_reducible repeat' first
    | assumption
    | apply State.incSat_ctl
    | apply State.raise_ctl
    | apply State.setTh_ctl
    | split
    | simp only [State.ctl_mk]

theorem State.setFailed_ctl {s : State} {c : Nat} (h_s : s.Ctl r0) : (State.setFailed s c).Ctl r0 := by
  unfold State.setFailed
  try dsimp only [State.take]
  with_reducible repeat' first
    | assumption
    | apply State.setTh_ctl
    | simp only [State.ctl_mk]

theorem State.icEnd_ctl {s : State} {n status : Nat} (h_s : s.Ctl r0) : (State.icEnd s n status).Ctl r0 := by
  unfold State.icEnd
  with_reducible repeat' first
    | assumption
    | apply State.pf_ctl
    | apply State.wb_ctl
    | apply State.raise_ctl

theorem State.icDrop_ctl {s : State} {n : Nat} (h_s : s.Ctl r0) : (State.icDrop s n).Ctl r0 := by
  unfold State.icDrop
  try dsimp only [State.take]
  with_reducible repeat' first
    | assumption
    | apply State.wb_ctl
    | apply State.setIc_ctl
    | apply State.setFailed_ctl
    | apply State.icEnd_ctl
    | apply State.ctl_foldl
    | (intro _ _ _; try dsimp only)
    | split
    | simp only [State.ctl_mk]

theorem State.icServe_ctl {s : State} {n : Nat} (h_s : s.Ctl r0) : (State.icServe s n).Ctl r0 := by
  unfold State.icServe
  try dsimp only [State.take]
  with_reducible repeat' first
    | assumption
    | apply State.setIc_ctl
    | apply State.icDrop_ctl
    | split
    | simp only [State.ctl_mk]

theorem State.sendSet_ctl {s : State} {c : Nat} {w : ThSend} (h_s : s.Ctl r0) : (State.sendSet s c w).Ctl r0 := by
  unfold State.sendSet
  try dsimp only [State.take]
  with_reducible repeat' first
    | assumption
    | apply State.setTh_ctl
    | apply State.setDone_ctl
    | apply State.icServe_ctl
    | split
    | simp only [State.ctl_mk]

theorem State.icStuck_ctl {s : State} {n : Nat} (h_s : s.Ctl r0) : (State.icStuck s n).Ctl r0 := by
  unfold State.icStuck
  try dsimp only [State.take]
  with_reducible repeat' first
    | assumption
    | apply State.wb_ctl
    | apply State.incSat_ctl
    | apply State.raise_ctl
    | apply State.logNamed_ctl
    | apply State.setBlk_ctl
    | apply State.setIc_ctl
    | apply State.icDrop_ctl
    | simp only [State.ctl_mk]

theorem State.busClear_ctl {s : State} {n : Nat} {sdaHigh : List Bool} (h_s : s.Ctl r0) : (State.busClear s n sdaHigh).Ctl r0 := by
  unfold State.busClear
  try dsimp only [State.take]
  with_reducible repeat' first
    | assumption
    | apply State.incSat_ctl
    | apply State.icStuck_ctl
    | split
    | simp only [State.ctl_mk]
    | dsimp only [id]

theorem State.icStart_ctl {s : State} {n : Nat} {sdaHigh : List Bool} (h_s : s.Ctl r0) : (State.icStart s n sdaHigh).Ctl r0 := by
  unfold State.icStart
  try dsimp only [State.take]
  with_reducible repeat' first
    | assumption
    | apply State.wb_ctl
    | apply State.setIc_ctl
    | apply State.icEnd_ctl
    | apply State.icServe_ctl
    | apply State.busClear_ctl
    | split
    | simp only [State.ctl_mk]
    | dsimp only

theorem State.icUnfence_ctl {s : State} {n : Nat} {sdaHigh : List Bool} (h_s : s.Ctl r0) : (State.icUnfence s n sdaHigh).Ctl r0 := by
  unfold State.icUnfence
  try dsimp only [State.take]
  with_reducible repeat' first
    | assumption
    | apply State.wb_ctl
    | apply State.setBlk_ctl
    | apply State.icServe_ctl
    | apply State.busClear_ctl
    | split

theorem State.wrIcCtl_ctl {s : State} {f : Func} {n : Nat} {v : Word} {sdaHigh : List Bool} (h_s : s.Ctl r0) : (State.wrIcCtl s f n v sdaHigh).Ctl r0 := by
  unfold State.wrIcCtl
  try dsimp only [State.take]
  with_reducible repeat' first
    | assumption
    | apply State.icStart_ctl
    | apply State.icUnfence_ctl
    | split

theorem execI2cStart_ctl {f : Func} {n : Fin 2} {v : Word} {sdaHigh : List Bool} {s : State} (h_s : s.Ctl r0) : KeepsCtl r0 (execI2cStart f n v sdaHigh s) := by
  unfold execI2cStart
  with_reducible repeat' first
    | assumption
    | apply KeepsCtl.next
    | apply State.guarded_ctl
    | apply State.wrIcCtl_ctl
    | (intro _ _; try dsimp only)

theorem execI2cUnfence_ctl {f : Func} {n : Fin 2} {v : Word} {sdaHigh : List Bool} {s : State} (h_s : s.Ctl r0) : KeepsCtl r0 (execI2cUnfence f n v sdaHigh s) := by
  unfold execI2cUnfence
  with_reducible repeat' first
    | assumption
    | apply KeepsCtl.next
    | apply State.guarded_ctl
    | apply State.wrIcCtl_ctl
    | (intro _ _; try dsimp only)

theorem State.wrIcCfg_ctl {s : State} {f : Func} {n : Nat} {v : Word} (h_s : s.Ctl r0) : (State.wrIcCfg s f n v).Ctl r0 := by
  unfold State.wrIcCfg
  with_reducible repeat' first
    | assumption
    | apply State.store_ctl
    | split

theorem State.putRead_ctl {s : State} {n : Nat} {bs : List Byte} (h_s : s.Ctl r0) : (State.putRead s n bs).Ctl r0 := by
  unfold State.putRead
  with_reducible repeat' first
    | assumption
    | apply State.wr_ctl
    | apply State.ctl_foldl
    | (intro _ _ _; try dsimp only)

theorem State.hostEnd_ctl {s : State} {n : Nat} {r : I2cEnd} (h_s : s.Ctl r0) : (State.hostEnd s n r).Ctl r0 := by
  unfold State.hostEnd
  try dsimp only [State.take]
  with_reducible repeat' first
    | assumption
    | apply State.pf_ctl
    | apply State.icEnd_ctl
    | apply State.putRead_ctl
    | split
    | simp only [State.ctl_mk]

theorem execI2cTransferDone_ctl {n : Fin 2} {clear : List Bool} {r : I2cEnd} {s : State} (h_s : s.Ctl r0) : KeepsCtl r0 (execI2cTransferDone n clear r s) := by
  unfold execI2cTransferDone
  try dsimp only [State.take]
  with_reducible repeat' first
    | assumption
    | apply KeepsCtl.next
    | apply State.setIc_ctl
    | apply State.icServe_ctl
    | apply State.setFailed_ctl
    | apply State.wb_ctl
    | apply State.hostEnd_ctl
    | apply State.setDone_ctl
    | apply State.busClear_ctl
    | apply State.setTh_ctl
    | apply State.ctl_foldl
    | (intro _ _ _; try dsimp only)
    | split
    | simp only [State.ctl_mk]

theorem execSclLowTimeout_ctl {n : Fin 2} {released : Bool} {s : State} (h_s : s.Ctl r0) : KeepsCtl r0 (execSclLowTimeout n released s) := by
  unfold execSclLowTimeout
  try dsimp only [State.take]
  with_reducible repeat' first
    | assumption
    | apply KeepsCtl.next
    | apply State.wb_ctl
    | apply State.setIc_ctl
    | apply State.setFailed_ctl
    | apply State.icEnd_ctl
    | apply State.icServe_ctl
    | split
    | simp only [State.ctl_mk]

theorem execBusStuck_ctl {n : Fin 2} {s : State} (h_s : s.Ctl r0) : KeepsCtl r0 (execBusStuck n s) := by
  unfold execBusStuck
  with_reducible repeat' first
    | assumption
    | apply KeepsCtl.next
    | apply State.icStuck_ctl
    | split

end Sys2Proof.Machine
end

