-- ==== Sys2Proof/Laws/ControlCan.lean ====
section
/-!
SUPPORT. What the functions of Machine/Can.lean leave alone (Control.lean).
-/
namespace Sys2Proof.Machine

variable {r0 : MileSt × List (Nat × CanNode) × Pins × Clock × DroverSt}

theorem State.showErr_ctl {s : State} {n : Nat} (h_s : s.Ctl r0) : (State.showErr s n).Ctl r0 := by
  unfold State.showErr
  try dsimp only [State.take]
  with_reducible repeat' first
    | assumption
    | apply State.pf_ctl
    | apply State.raise_ctl
    | apply State.logNamed_ctl
    | split

theorem State.showCan_ctl {s : State} {n : Nat} (h_s : s.Ctl r0) : (State.showCan s n).Ctl r0 := by
  unfold State.showCan
  try dsimp only [State.take]
  with_reducible repeat' first
    | assumption
    | apply State.pf_ctl
    | apply State.wb_ctl
    | split
    | simp only [State.ctl_mk]

theorem State.busyErr_ctl {s : State} {n : Nat} (h_s : s.Ctl r0) : (State.busyErr s n).Ctl r0 := by
  unfold State.busyErr
  with_reducible repeat' first
    | assumption
    | apply State.wb_ctl

theorem State.setPending_ctl {s : State} {n k : Nat} {b : Bool} (h_s : s.Ctl r0) : (State.setPending s n k b).Ctl r0 := by
  unfold State.setPending
  with_reducible repeat' first
    | assumption
    | apply State.wb_ctl

theorem State.wrCfTiming_ctl {s : State} {f : Func} {n off : Nat} {v : Word} (h_s : s.Ctl r0) : (State.wrCfTiming s f n off v).Ctl r0 := by
  unfold State.wrCfTiming
  with_reducible repeat' first
    | assumption
    | apply State.store_ctl
    | split

theorem State.fltOf_ctl {s : State} {n : Nat} {f : CanFrame} (h_s : s.Ctl r0) : (State.fltOf s n f).2.2.Ctl r0 := by
  unfold State.fltOf
  try dsimp only [State.take]
  with_reducible repeat' first
    | assumption
    | split
    | simp only [State.ctl_mk]

theorem State.fltOf_ctl_eq {s : State} {n : Nat} {f : CanFrame} {y : State} {x2} {x} (h_s : s.Ctl r0) (he : State.fltOf s n f = (x, x2, y)) : y.Ctl r0 := by
  have := State.fltOf_ctl (r0 := r0) (s := s) (n := n) (f := f) h_s
  rw [he] at this
  exact this

theorem State.canHead_ctl {s : State} {n off : Nat} (h_s : s.Ctl r0) : (State.canHead s n off).2.Ctl r0 := by
  unfold State.canHead
  try dsimp only [State.take]
  with_reducible repeat' first
    | assumption
    | split
    | simp only [State.ctl_mk]

theorem State.canHead_ctl_eq {s : State} {n off : Nat} {y : State}  {x} (h_s : s.Ctl r0) (he : State.canHead s n off = (x, y)) : y.Ctl r0 := by
  have := State.canHead_ctl (r0 := r0) (s := s) (n := n) (off := off) h_s
  rw [he] at this
  exact this

theorem State.cfReqBuf_ctl {s : State} {n k : Nat} (h_s : s.Ctl r0) : (State.cfReqBuf s n k).Ctl r0 := by
  unfold State.cfReqBuf
  with_reducible repeat' first
    | assumption
    | apply State.setPending_ctl
    | split

theorem State.wrTxb_ctl {s : State} {f : Func} {n off : Nat} {v : Word} (h_s : s.Ctl r0) : (State.wrTxb s f n off v).Ctl r0 := by
  unfold State.wrTxb
  try dsimp only [State.take]
  with_reducible repeat' first
    | assumption
    | apply State.store_ctl
    | apply State.busyErr_ctl
    | split

theorem State.cfErrNote_ctl {s : State} {n : Nat} {lec : Nat} {off : Nat} {hi : Nat} {lo : Nat} (h_s : s.Ctl r0) : (State.cfErrNote s n lec off hi lo).Ctl r0 := by
  unfold State.cfErrNote
  try dsimp only [State.take]
  with_reducible repeat' first
    | assumption
    | apply State.incSat_ctl
    | apply State.pf_ctl
    | apply State.ctl_foldl
    | (intro _ _ _; try dsimp only)
    | split
    | simp only [State.ctl_mk]

theorem execRxTimeout_ctl {n : Fin 8} {flt : Fin 32} {s : State} (h_s : s.Ctl r0) : KeepsCtl r0 (execRxTimeout n flt s) := by
  unfold execRxTimeout
  try dsimp only [State.take]
  with_reducible repeat' first
    | assumption
    | apply KeepsCtl.next
    | apply State.wb_ctl
    | apply State.raise_ctl
    | apply State.logNamed_ctl
    | split

end Sys2Proof.Machine
end

