-- ==== Sys2Proof/Laws/ControlCaravan.lean ====
section
/-!
SUPPORT. What the functions of Machine/Caravan.lean leave alone (Control.lean).
-/
namespace Sys2Proof.Machine

variable {r0 : MileSt × List (Nat × CanNode) × Pins × Clock × DroverSt}

theorem State.setVs_ctl {s : State} {v : Nat} {x : Stream} (h_s : s.Ctl r0) : (State.setVs s v x).Ctl r0 := by
  unfold State.setVs
  try dsimp only [State.take]
  with_reducible repeat' first
    | assumption
    | simp only [State.ctl_mk]

theorem State.vsLost_ctl {s : State} {v n : Nat} (h_s : s.Ctl r0) : (State.vsLost s v n).Ctl r0 := by
  unfold State.vsLost
  with_reducible repeat' first
    | assumption
    | apply State.pf_ctl

theorem State.vsArrive_ctl {s : State} {v : Nat} {p : RtpPacket} (h_s : s.Ctl r0) : (State.vsArrive s v p).Ctl r0 := by
  unfold State.vsArrive
  try dsimp only [State.take]
  with_reducible repeat' first
    | assumption
    | apply State.setVs_ctl
    | apply State.vsLost_ctl
    | split
    | simp only [State.ctl_mk]

theorem execRtpPacket_ctl {p : RtpPacket} {s : State} (h_s : s.Ctl r0) : KeepsCtl r0 (execRtpPacket p s) := by
  unfold execRtpPacket
  with_reducible repeat' first
    | assumption
    | apply KeepsCtl.next
    | apply State.vsArrive_ctl
    | apply State.ctl_foldl
    | (intro _ _ _; try dsimp only)

theorem execJitterExpiry_ctl {vs : Fin 80} {s : State} (h_s : s.Ctl r0) : KeepsCtl r0 (execJitterExpiry vs s) := by
  unfold execJitterExpiry
  try dsimp only [State.take]
  with_reducible repeat' first
    | assumption
    | apply KeepsCtl.next
    | apply State.setVs_ctl
    | apply State.vsLost_ctl
    | split
    | simp only [State.ctl_mk]

theorem execStalled_ctl {vs : Fin 80} {s : State} (h_s : s.Ctl r0) : KeepsCtl r0 (execStalled vs s) := by
  unfold execStalled
  try dsimp only [State.take]
  with_reducible repeat' first
    | assumption
    | apply KeepsCtl.next
    | apply State.raise_ctl
    | apply State.logNamed_ctl
    | apply State.setVs_ctl
    | split
    | simp only [State.ctl_mk]

theorem State.pictureOk_ctl {s : State} {v : Nat} {p : Picture} (h_s : s.Ctl r0) : (State.pictureOk s v p).2.Ctl r0 := by
  unfold State.pictureOk
  try dsimp only [State.take]
  with_reducible repeat' first
    | assumption
    | apply State.take_ctl
    | refine State.take_ctl_eq ?_ (by assumption)
    | apply State.ctl_foldl
    | (intro _ _ _; try dsimp only)
    | split
    | simp only [State.ctl_mk]

theorem State.pictureOk_ctl_eq {s : State} {v : Nat} {p : Picture} {y : State} {x0_} (h_s : s.Ctl r0) (he : State.pictureOk s v p = (x0_, y)) : y.Ctl r0 := by
  have h := State.pictureOk_ctl (r0 := r0) (s := s) (v := v) (p := p) h_s
  rw [he] at h
  exact h

theorem State.keepPicture_ctl {s : State} {t cu : Nat} (h_s : s.Ctl r0) : (State.keepPicture s t cu).2.Ctl r0 := by
  unfold State.keepPicture
  try dsimp only [State.take]
  with_reducible repeat' first
    | assumption
    | split
    | simp only [State.ctl_mk]

theorem State.keepPicture_ctl_eq {s : State} {t cu : Nat} {y : State}  {x} (h_s : s.Ctl r0) (he : State.keepPicture s t cu = (x, y)) : y.Ctl r0 := by
  have := State.keepPicture_ctl (r0 := r0) (s := s) (t := t) (cu := cu) h_s
  rw [he] at this
  exact this

theorem State.outForm_ctl {s : State} {v : Nat} (h_s : s.Ctl r0) : (State.outForm s v).2.Ctl r0 := by
  unfold State.outForm
  try dsimp only [State.take]
  with_reducible repeat' first
    | assumption
    | split
    | simp only [State.ctl_mk]

theorem State.outForm_ctl_eq {s : State} {v : Nat} {y : State}  {x} (h_s : s.Ctl r0) (he : State.outForm s v = (x, y)) : y.Ctl r0 := by
  have := State.outForm_ctl (r0 := r0) (s := s) (v := v) h_s
  rw [he] at this
  exact this

theorem State.picture_ctl {s : State} {v : Nat} {p : Picture} (h_s : s.Ctl r0) : (State.picture s v p).Ctl r0 := by
  unfold State.picture
  try dsimp only [State.take]
  with_reducible repeat' first
    | assumption
    | apply State.pictureOk_ctl
    | refine State.pictureOk_ctl_eq ?_ (by assumption)
    | apply State.incSat_ctl
    | apply State.keepPicture_ctl
    | refine State.keepPicture_ctl_eq ?_ (by assumption)
    | apply State.addSampleOf_ctl
    | apply State.setVs_ctl
    | apply State.outForm_ctl
    | refine State.outForm_ctl_eq ?_ (by assumption)
    | apply State.manUpdate_ctl
    | apply State.corruptSample_ctl
    | apply State.ctl_foldl
    | (intro _ _ _; try dsimp only)
    | split
    | simp only [State.ctl_mk]

theorem execPictureDecoded_ctl {vs : Fin 80} {pic : Picture} {s : State} (h_s : s.Ctl r0) : KeepsCtl r0 (execPictureDecoded vs pic s) := by
  unfold execPictureDecoded
  with_reducible repeat' first
    | assumption
    | apply KeepsCtl.next
    | apply State.picture_ctl
    | split

theorem State.wrGlCtl_ctl {s : State} {f : Func} {v : Word} (h_s : s.Ctl r0) : (State.wrGlCtl s f v).Ctl r0 := by
  unfold State.wrGlCtl
  try dsimp only [State.take]
  with_reducible repeat' first
    | assumption
    | apply State.wb_ctl
    | apply State.store_ctl
    | apply State.unitAccess_ctl
    | refine State.unitAccess_ctl_eq ?_ (by assumption)
    | split
    | simp only [State.ctl_mk]
    | dsimp only

theorem execGleanStart_ctl {f : Func} {v : Word} {s : State} (h_s : s.Ctl r0) : KeepsCtl r0 (execGleanStart f v s) := by
  unfold execGleanStart
  with_reducible repeat' first
    | assumption
    | apply KeepsCtl.next
    | apply State.guarded_ctl
    | apply State.wrGlCtl_ctl
    | (intro _ _; try dsimp only)

theorem execGleanDone_ctl {s : State} (h_s : s.Ctl r0) : KeepsCtl r0 (execGleanDone s) := by
  unfold execGleanDone
  try dsimp only [State.take]
  with_reducible repeat' first
    | assumption
    | apply KeepsCtl.next
    | apply State.wr_ctl
    | apply State.hbmWrite_ctl
    | apply State.wb_ctl
    | split
    | simp only [State.ctl_mk]
    | dsimp only

end Sys2Proof.Machine
end

