-- ==== Sys2Proof/Laws/ControlEth.lean ====
section
/-!
SUPPORT. What the functions of Machine/Eth.lean leave alone (Control.lean).
-/
namespace Sys2Proof.Machine

variable {r0 : MileSt × List (Nat × CanNode) × Pins × Clock × DroverSt}

theorem State.setEth_ctl {s : State} {p : Nat} {x : EthPort} (h_s : s.Ctl r0) : (State.setEth s p x).Ctl r0 := by
  unfold State.setEth
  try dsimp only [State.take]
  with_reducible repeat' first
    | assumption
    | simp only [State.ctl_mk]

theorem State.setHead_ctl {s : State} {p q : Nat} {h : Option EthHead} (h_s : s.Ctl r0) : (State.setHead s p q h).Ctl r0 := by
  unfold State.setHead
  try dsimp only [State.take]
  with_reducible repeat' first
    | assumption
    | apply State.setEth_ctl
    | split
    | simp only [State.ctl_mk]

theorem State.ethDrop_ctl {s : State} {p : Nat} (h_s : s.Ctl r0) : (State.ethDrop s p).Ctl r0 := by
  unfold State.ethDrop
  with_reducible repeat' first
    | assumption
    | apply State.raise_ctl

theorem State.qDrop_ctl {s : State} {p qreg : Nat} (h_s : s.Ctl r0) : (State.qDrop s p qreg).Ctl r0 := by
  unfold State.qDrop
  with_reducible repeat' first
    | assumption
    | apply State.addSat_ctl
    | apply State.ethDrop_ctl

theorem State.ethStop_ctl {s : State} {p qreg : Nat} (h_s : s.Ctl r0) : (State.ethStop s p qreg).Ctl r0 := by
  unfold State.ethStop
  with_reducible repeat' first
    | assumption
    | apply State.wb_ctl
    | apply State.raise_ctl
    | apply State.logNamed_ctl

theorem State.ringHead_ctl {s : State} {p qreg : Nat} (h_s : s.Ctl r0) : (State.ringHead s p qreg).2.Ctl r0 := by
  unfold State.ringHead
  try dsimp only [State.take]
  with_reducible repeat' first
    | assumption
    | apply State.unitAccess_ctl
    | refine State.unitAccess_ctl_eq ?_ (by assumption)
    | apply State.ethStop_ctl
    | split

theorem State.ringHead_ctl_eq {s : State} {p qreg : Nat} {y : State}  {x} (h_s : s.Ctl r0) (he : State.ringHead s p qreg = (x, y)) : y.Ctl r0 := by
  have := State.ringHead_ctl (r0 := r0) (s := s) (p := p) (qreg := qreg) h_s
  rw [he] at this
  exact this

theorem State.bumpRing_ctl {s : State} {qreg cons : Nat} (h_s : s.Ctl r0) : (State.bumpRing s qreg cons).Ctl r0 := by
  unfold State.bumpRing
  with_reducible repeat' first
    | assumption
    | apply State.hbmWrite_ctl

theorem State.ptpForward_ctl {s : State} {p stamp : Nat} {f : List Byte} (h_s : s.Ctl r0) : (State.ptpForward s p stamp f).Ctl r0 := by
  unfold State.ptpForward
  try dsimp only [State.take]
  with_reducible repeat' first
    | assumption
    | apply State.incSat_ctl
    | apply State.setEth_ctl
    | apply State.ethDrop_ctl
    | apply State.ctl_foldl
    | (intro _ _ _; try dsimp only)
    | split
    | simp only [State.ctl_mk]

theorem State.ethDeliver_ctl {s : State} {p q stamp tci flags : Nat} {f : List Byte} (h_s : s.Ctl r0) : (State.ethDeliver s p q stamp tci flags f).Ctl r0 := by
  unfold State.ethDeliver
  try dsimp only [State.take]
  with_reducible repeat' first
    | assumption
    | apply State.hbmWrite_ctl
    | apply State.incSat_ctl
    | apply State.unitAccess_ctl
    | refine State.unitAccess_ctl_eq ?_ (by assumption)
    | apply State.qDrop_ctl
    | apply State.ethStop_ctl
    | apply State.ringHead_ctl
    | refine State.ringHead_ctl_eq ?_ (by assumption)
    | apply State.bumpRing_ctl
    | split
    | simp only [State.ctl_mk]
    | dsimp only

theorem State.classify_ctl {s : State} {p : Nat} {f : List Byte} (h_s : s.Ctl r0) : (State.classify s p f).Ctl r0 := by
  unfold State.classify
  try dsimp only [State.take]
  with_reducible repeat' first
    | assumption
    | apply State.incSat_ctl
    | apply State.ethDrop_ctl
    | apply State.ptpForward_ctl
    | apply State.ethDeliver_ctl
    | split
    | simp only [State.ctl_mk]

theorem execEthFrameReceived_ctl {port : Fin 4} {fcsOk : Bool} {frame : List Byte} {s : State} (h_s : s.Ctl r0) : KeepsCtl r0 (execEthFrameReceived port fcsOk frame s) := by
  unfold execEthFrameReceived
  try dsimp only [State.take]
  with_reducible repeat' first
    | assumption
    | apply KeepsCtl.next
    | apply State.incSat_ctl
    | apply State.ethDrop_ctl
    | apply State.classify_ctl
    | split

theorem State.txFinish_ctl {s : State} {p q desc status stamp : Nat} (h_s : s.Ctl r0) : (State.txFinish s p q desc status stamp).Ctl r0 := by
  unfold State.txFinish
  try dsimp only [State.take]
  with_reducible repeat' first
    | assumption
    | apply State.hbmWrite_ctl
    | apply State.unitAccess_ctl
    | refine State.unitAccess_ctl_eq ?_ (by assumption)
    | apply State.qDrop_ctl
    | apply State.ethStop_ctl
    | apply State.bumpRing_ctl
    | split

theorem State.txFetch_ctl {s : State} {p q : Nat} (h_s : s.Ctl r0) : (State.txFetch s p q).Ctl r0 := by
  unfold State.txFetch
  try dsimp only [State.take]
  with_reducible repeat' first
    | assumption
    | apply State.unitAccess_ctl
    | refine State.unitAccess_ctl_eq ?_ (by assumption)
    | apply State.setHead_ctl
    | apply State.ringHead_ctl
    | refine State.ringHead_ctl_eq ?_ (by assumption)
    | apply State.txFinish_ctl
    | split
    | simp only [State.ctl_mk]

theorem execQueuePoll_ctl {port : Fin 4} {s : State} (h_s : s.Ctl r0) : KeepsCtl r0 (execQueuePoll port s) := by
  unfold execQueuePoll
  with_reducible repeat' first
    | assumption
    | apply KeepsCtl.next
    | apply State.txFetch_ctl
    | apply State.ctl_foldl
    | (intro _ _ _; try dsimp only)
    | split

theorem State.ethChoose_ctl {s : State} {p n : Nat} (h_s : s.Ctl r0) : (State.ethChoose s p n).Ctl r0 := by
  induction n generalizing s with
  | zero => exact h_s
  | succ n ih =>
    unfold State.ethChoose
    dsimp only
    with_reducible repeat' first
      | assumption
      | apply State.setEth_ctl
      | apply ih
      | apply State.txFinish_ctl
      | apply State.logNamed_ctl
      | apply State.raise_ctl
      | apply State.addSat_ctl
      | apply State.setHead_ctl
      | split

theorem execEthFrameBoundary_ctl {port : Fin 4} {s : State} (h_s : s.Ctl r0) : KeepsCtl r0 (execEthFrameBoundary port s) := by
  unfold execEthFrameBoundary
  with_reducible repeat' first
    | assumption
    | apply KeepsCtl.next
    | apply State.ethChoose_ctl

theorem execLaunchTime_ctl {port : Fin 4} {q : Fin 8} {s : State} (h_s : s.Ctl r0) : KeepsCtl r0 (execLaunchTime port q s) := by
  unfold execLaunchTime
  try dsimp only [State.take]
  with_reducible repeat' first
    | assumption
    | apply KeepsCtl.next
    | apply State.ethChoose_ctl
    | split
    | simp only [State.ctl_mk]

theorem State.ethLaunch_ctl {s : State} {p q entry : Nat} (h_s : s.Ctl r0) : (State.ethLaunch s p q entry).Ctl r0 := by
  unfold State.ethLaunch
  try dsimp only [State.take]
  with_reducible repeat' first
    | assumption
    | apply State.pf_ctl
    | apply State.wb_ctl
    | apply State.setHead_ctl
    | apply State.ethChoose_ctl
    | split
    | simp only [State.ctl_mk]
    | dsimp only

theorem State.ethLose_ctl {s : State} {p : Nat} (h_s : s.Ctl r0) : (State.ethLose s p).Ctl r0 := by
  unfold State.ethLose
  try dsimp only [State.take]
  with_reducible repeat' first
    | assumption
    | apply State.setEth_ctl
    | apply State.txFinish_ctl
    | apply State.ctl_foldl
    | (intro _ _ _; try dsimp only)
    | split
    | simp only [State.ctl_mk]

theorem execLinkDown_ctl {port : Fin 4} {s : State} (h_s : s.Ctl r0) : KeepsCtl r0 (execLinkDown port s) := by
  unfold execLinkDown
  try dsimp only [State.take]
  with_reducible repeat' first
    | assumption
    | apply KeepsCtl.next
    | apply State.wb_ctl
    | apply State.raise_ctl
    | apply State.logNamed_ctl
    | apply State.ethLose_ctl
    | split

theorem execLinkUp_ctl {port : Fin 4} {s : State} (h_s : s.Ctl r0) : KeepsCtl r0 (execLinkUp port s) := by
  unfold execLinkUp
  try dsimp only [State.take]
  with_reducible repeat' first
    | assumption
    | apply KeepsCtl.next
    | apply State.wb_ctl
    | apply State.raise_ctl
    | apply State.logNamed_ctl
    | split

theorem execSilent_ctl {port : Fin 4} {arrived : Bool} {s : State} (h_s : s.Ctl r0) : KeepsCtl r0 (execSilent port arrived s) := by
  unfold execSilent
  try dsimp only [State.take]
  with_reducible repeat' first
    | assumption
    | apply KeepsCtl.next
    | apply State.raise_ctl
    | apply State.logNamed_ctl
    | split

theorem State.wrEthQ_ctl {s : State} {f : Func} {p : Nat} {tx : Bool} {q : Nat} {v : Word} (h_s : s.Ctl r0) : (State.wrEthQ s f p tx q v).Ctl r0 := by
  unfold State.wrEthQ
  try dsimp only [State.take]
  with_reducible repeat' first
    | assumption
    | apply State.store_ctl
    | apply State.setHead_ctl
    | split

theorem execQueueRestart_ctl {f : Func} {port : Fin 4} {tx : Bool} {q : Fin 8} {v : Word} {s : State} (h_s : s.Ctl r0) : KeepsCtl r0 (execQueueRestart f port tx q v s) := by
  unfold execQueueRestart
  with_reducible repeat' first
    | assumption
    | apply KeepsCtl.next
    | apply State.guarded_ctl
    | apply State.wrEthQ_ctl
    | (intro _ _; try dsimp only)
    | split

theorem State.wrEthCfg_ctl {s : State} {f : Func} {p : Nat} {v : Word} (h_s : s.Ctl r0) : (State.wrEthCfg s f p v).Ctl r0 := by
  unfold State.wrEthCfg
  try dsimp only [State.take]
  with_reducible repeat' first
    | assumption
    | apply State.wb_ctl
    | apply State.store_ctl
    | split

end Sys2Proof.Machine
end

