-- ==== Sys2Proof/Laws/ControlWarden.lean ====
section
/-!
SUPPORT. What the functions of Machine/Warden.lean leave alone (Control.lean).
-/
namespace Sys2Proof.Machine

variable {r0 : MileSt × List (Nat × CanNode) × Pins × Clock × DroverSt}

theorem State.wrSlotCfg_ctl {s : State} {f : Func} {i off : Nat} {v : Word} (h_s : s.Ctl r0) : (State.wrSlotCfg s f i off v).Ctl r0 := by
  unfold State.wrSlotCfg
  try dsimp only [State.take]
  with_reducible repeat' first
    | assumption
    | apply State.wb_ctl
    | apply State.store_ctl
    | split

theorem State.wrWdSrc_ctl {s : State} {f : Func} {a : Nat} {v : Word} (h_s : s.Ctl r0) : (State.wrWdSrc s f a v).Ctl r0 := by
  unfold State.wrWdSrc
  with_reducible repeat' first
    | assumption
    | apply State.store_ctl
    | split

theorem State.wrWdCtl_ctl {s : State} {v : Word} (h_s : s.Ctl r0) : (State.wrWdCtl s v).Ctl r0 := by
  unfold State.wrWdCtl
  try dsimp only [State.take]
  with_reducible repeat' first
    | assumption
    | apply State.wb_ctl
    | split
    | simp only [State.ctl_mk]

theorem execDiagRun_ctl {f : Func} {v : Word} {s : State} (h_s : s.Ctl r0) : KeepsCtl r0 (execDiagRun f v s) := by
  unfold execDiagRun
  with_reducible repeat' first
    | assumption
    | apply KeepsCtl.next
    | apply State.guarded_ctl
    | apply State.wrWdCtl_ctl
    | (intro _ _; try dsimp only)

theorem State.setStage_ctl {s : State} {n : Nat} (h_s : s.Ctl r0) : (State.setStage s n).Ctl r0 := by
  unfold State.setStage
  with_reducible repeat' first
    | assumption
    | apply State.pf_ctl
    | split

end Sys2Proof.Machine
end

