-- ==== Sys2Proof/Laws/ControlSecurity.lean ====
section
/-!
SUPPORT. What the functions of Machine/Security.lean leave alone (Control.lean).
-/
namespace Sys2Proof.Machine

variable {r0 : MileSt × List (Nat × CanNode) × Pins × Clock × DroverSt}

theorem State.regRefuse_ctl {s : State} {e bit : Nat} (h_s : s.Ctl r0) : (State.regRefuse s e bit).Ctl r0 := by
  unfold State.regRefuse
  with_reducible repeat' first
    | assumption
    | apply State.pf_ctl
    | apply State.wb_ctl

theorem State.leaveRegion_ctl {s : State} {e : Nat} {owner : Nat} (h_s : s.Ctl r0) : (State.leaveRegion s e owner).Ctl r0 := by
  unfold State.leaveRegion
  try dsimp only [State.take]
  with_reducible repeat' first
    | assumption
    | apply State.ctl_foldl
    | (intro _ _ _; try dsimp only)
    | split
    | simp only [State.ctl_mk]

theorem State.takeRegion_ctl {s : State} {e : Nat} {owner : Nat} (h_s : s.Ctl r0) : (State.takeRegion s e owner).Ctl r0 := by
  unfold State.takeRegion
  try dsimp only [State.take]
  with_reducible repeat' first
    | assumption
    | apply State.take_ctl
    | refine State.take_ctl_eq ?_ (by assumption)
    | apply State.ctl_foldl
    | (intro _ _ _; try dsimp only)
    | split
    | simp only [State.ctl_mk]

theorem State.wrRegion_ctl {s : State} {f : Func} {e : Nat} {reg : Nat} {v : Word} (h_s : s.Ctl r0) : (State.wrRegion s f e reg v).Ctl r0 := by
  unfold State.wrRegion
  try dsimp only [State.take]
  with_reducible repeat' first
    | assumption
    | apply State.leaveRegion_ctl
    | apply State.store_ctl
    | apply State.takeRegion_ctl
    | apply State.regRefuse_ctl
    | apply State.ctl_foldl
    | (intro _ _ _; try dsimp only)
    | split
    | simp only [State.ctl_mk]

theorem execRegionWrite_ctl {f : Func} {e : Fin 128} {reg : Fin 3} {v : Word} {s : State} (h_s : s.Ctl r0) : KeepsCtl r0 (execRegionWrite f e reg v s) := by
  unfold execRegionWrite
  with_reducible repeat' first
    | assumption
    | apply KeepsCtl.next
    | apply State.guarded_ctl
    | apply State.wrRegion_ctl
    | (intro _ _; try dsimp only)

theorem State.wrAttCtl_ctl {s : State} {v : Word} (h_s : s.Ctl r0) : (State.wrAttCtl s v).Ctl r0 := by
  unfold State.wrAttCtl
  try dsimp only [State.take]
  with_reducible repeat' first
    | assumption
    | apply State.wb_ctl
    | apply State.regionConflict_ctl
    | split
    | simp only [State.ctl_mk]

theorem execAttStart_ctl {f : Func} {v : Word} {s : State} (h_s : s.Ctl r0) : KeepsCtl r0 (execAttStart f v s) := by
  unfold execAttStart
  with_reducible repeat' first
    | assumption
    | apply KeepsCtl.next
    | apply State.guarded_ctl
    | apply State.wrAttCtl_ctl
    | (intro _ _; try dsimp only)

theorem execAttestationDone_ctl {s : State} (h_s : s.Ctl r0) : KeepsCtl r0 (execAttestationDone s) := by
  unfold execAttestationDone
  try dsimp only [State.take]
  with_reducible repeat' first
    | assumption
    | apply KeepsCtl.next
    | apply State.hbmWrite_ctl
    | apply State.wb_ctl
    | apply State.raise_ctl
    | split
    | simp only [State.ctl_mk]

end Sys2Proof.Machine
end

