-- ==== Sys2Proof/Laws/ControlSensors.lean ====
section
/-!
SUPPORT. What the functions of Machine/Sensors.lean leave alone (Control.lean).
-/
namespace Sys2Proof.Machine

variable {r0 : MileSt × List (Nat × CanNode) × Pins × Clock × DroverSt}

theorem State.addSample_ctl {s : State} {k n : Nat} {v : Int} (h_s : s.Ctl r0) : (State.addSample s k n v).Ctl r0 := by
  unfold State.addSample
  try dsimp only [State.take]
  with_reducible repeat' first
    | assumption
    | simp only [State.ctl_mk]

theorem State.clearSamples_ctl {s : State} {k : Nat} (h_s : s.Ctl r0) : (State.clearSamples s k).Ctl r0 := by
  unfold State.clearSamples
  try dsimp only [State.take]
  with_reducible repeat' first
    | assumption
    | simp only [State.ctl_mk]

theorem State.setAlarm_ctl {s : State} {k : Nat} {b : Bool} (h_s : s.Ctl r0) : (State.setAlarm s k b).Ctl r0 := by
  unfold State.setAlarm
  try dsimp only [State.take]
  with_reducible repeat' first
    | assumption
    | apply State.ctl_foldl
    | (intro _ _ _; try dsimp only)
    | split
    | simp only [State.ctl_mk]

theorem State.sensorFault_ctl {s : State} {info : Nat} (h_s : s.Ctl r0) : (State.sensorFault s info).Ctl r0 := by
  unfold State.sensorFault
  with_reducible repeat' first
    | assumption
    | apply State.incSat_ctl
    | apply State.raise_ctl
    | apply State.logNamed_ctl

theorem State.railFault_ctl {s : State} {info : Nat} (h_s : s.Ctl r0) : (State.railFault s info).Ctl r0 := by
  unfold State.railFault
  with_reducible repeat' first
    | assumption
    | apply State.incSat_ctl
    | apply State.raise_ctl
    | apply State.logNamed_ctl

theorem State.onEntry_ctl {s : State} {k : Nat} {b : Bool} {event : State → State} (h_s : s.Ctl r0) (h_event : ∀ s, s.Ctl r0 → (event s).Ctl r0) : (State.onEntry s k b event).Ctl r0 := by
  unfold State.onEntry
  try dsimp only [State.take]
  with_reducible repeat' first
    | assumption
    | (apply h_event)
    | apply State.setAlarm_ctl
    | apply State.ctl_foldl
    | (intro _ _ _; try dsimp only)
    | split
    | simp only [State.ctl_mk]

theorem execHoldupSample_ctl {code : BitVec 12} {s : State} (h_s : s.Ctl r0) : KeepsCtl r0 (execHoldupSample code s) := by
  unfold execHoldupSample
  try dsimp only [State.take]
  with_reducible repeat' first
    | assumption
    | apply KeepsCtl.next
    | apply State.wr_ctl
    | apply State.addSample_ctl
    | apply State.clearSamples_ctl
    | split

theorem State.setFcur_ctl {s : State} {f : Nat} (h_s : s.Ctl r0) : (State.setFcur s f).Ctl r0 := by
  unfold State.setFcur
  with_reducible repeat' first
    | assumption
    | apply State.pf_ctl

theorem State.setLimit_ctl {s : State} {l : Nat} (h_s : s.Ctl r0) : (State.setLimit s l).Ctl r0 := by
  unfold State.setLimit
  with_reducible repeat' first
    | assumption
    | apply State.pf_ctl

theorem State.wrFmin_ctl {s : State} {v : Word} (h_s : s.Ctl r0) : (State.wrFmin s v).Ctl r0 := by
  unfold State.wrFmin
  try dsimp only [State.take]
  with_reducible repeat' first
    | assumption
    | apply State.wr_ctl
    | apply State.wb_ctl
    | split

theorem State.wrFmax_ctl {s : State} {v : Word} (h_s : s.Ctl r0) : (State.wrFmax s v).Ctl r0 := by
  unfold State.wrFmax
  try dsimp only [State.take]
  with_reducible repeat' first
    | assumption
    | apply State.setFcur_ctl
    | apply State.wr_ctl
    | apply State.wb_ctl
    | apply State.ctl_foldl
    | (intro _ _ _; try dsimp only)
    | split
    | simp only [State.ctl_mk]

theorem State.wrCap_ctl {s : State} {v : Word} (h_s : s.Ctl r0) : (State.wrCap s v).Ctl r0 := by
  unfold State.wrCap
  with_reducible repeat' first
    | assumption
    | apply State.wr_ctl
    | split

theorem State.wrTh_ctl {s : State} {off : Nat} {v : Word} (h_s : s.Ctl r0) : (State.wrTh s off v).Ctl r0 := by
  unfold State.wrTh
  try dsimp only [State.take]
  with_reducible repeat' first
    | assumption
    | apply State.wr_ctl
    | split

theorem State.loopPower_ctl {s : State} (h_s : s.Ctl r0) : (State.loopPower s).2.Ctl r0 := by
  unfold State.loopPower
  try dsimp only [State.take]
  with_reducible repeat' first
    | assumption
    | split
    | simp only [State.ctl_mk]

theorem State.loopPower_ctl_eq {s : State} {y : State}  {x} (h_s : s.Ctl r0) (he : State.loopPower s = (x, y)) : y.Ctl r0 := by
  have := State.loopPower_ctl (r0 := r0) (s := s) h_s
  rw [he] at this
  exact this

theorem State.setLoopFreq_ctl {s : State} {f : Nat} (h_s : s.Ctl r0) : (State.setLoopFreq s f).Ctl r0 := by
  unfold State.setLoopFreq
  try dsimp only [State.take]
  with_reducible repeat' first
    | assumption
    | apply State.setFcur_ctl
    | apply State.ctl_foldl
    | (intro _ _ _; try dsimp only)
    | split
    | simp only [State.ctl_mk]

theorem State.setTarget_ctl {s : State} {mv : Nat} (h_s : s.Ctl r0) : (State.setTarget s mv).Ctl r0 := by
  unfold State.setTarget
  try dsimp only [State.take]
  with_reducible repeat' first
    | assumption
    | apply State.pmRail_ctl
    | apply State.pf_ctl
    | apply State.ctl_foldl
    | (intro _ _ _; try dsimp only)
    | split
    | simp only [State.ctl_mk]

theorem execDvfsTick_ctl {margin : Nat} {s : State} (h_s : s.Ctl r0) : KeepsCtl r0 (execDvfsTick margin s) := by
  unfold execDvfsTick
  refine iteInduction (fun _ => KeepsCtl.next h_s) fun _ => ?_
  have h0 : s.loopPower.2.Ctl r0 := State.loopPower_ctl h_s
  have h1 : ∀ lim, (s.loopPower.2.setLimit lim).Ctl r0 := fun lim => State.setLimit_ctl h0
  refine iteInduction (motive := KeepsCtl r0) (fun _ => ?_) fun _ => ?_
  · apply KeepsCtl.next
    simp only [State.ctl_mk]
    exact State.setTarget_ctl (h1 _)
  · apply KeepsCtl.next
    refine State.setTarget_ctl (State.setLoopFreq_ctl ?_)
    simp only [State.ctl_mk]
    exact h1 _

theorem execVoltageSettled_ctl {s : State} (h_s : s.Ctl r0) : KeepsCtl r0 (execVoltageSettled s) := by
  unfold execVoltageSettled
  try dsimp only [State.take]
  with_reducible repeat' first
    | assumption
    | apply KeepsCtl.next
    | apply State.setLoopFreq_ctl
    | apply State.ctl_foldl
    | (intro _ _ _; try dsimp only)
    | split
    | simp only [State.ctl_mk]

theorem execDroop_ctl {s : State} (h_s : s.Ctl r0) : KeepsCtl r0 (execDroop s) := by
  unfold execDroop
  try dsimp only [State.take]
  with_reducible repeat' first
    | assumption
    | apply KeepsCtl.next
    | apply State.addSat_ctl
    | apply State.setFcur_ctl
    | apply State.setLimit_ctl
    | split
    | simp only [State.ctl_mk]
    | dsimp only

theorem execDroopRecovery_ctl {s : State} (h_s : s.Ctl r0) : KeepsCtl r0 (execDroopRecovery s) := by
  unfold execDroopRecovery
  try dsimp only [State.take]
  with_reducible repeat' first
    | assumption
    | apply KeepsCtl.next
    | apply State.setFcur_ctl
    | apply State.setLimit_ctl
    | split
    | simp only [State.ctl_mk]
    | dsimp only

end Sys2Proof.Machine
end

