-- ==== Sys2Proof/Laws/ControlReset.lean ====
section
/-!
SUPPORT. What the functions of Machine/Reset.lean leave alone (Control.lean).
-/
namespace Sys2Proof.Machine

variable {r0 : MileSt × List (Nat × CanNode) × Pins × Clock × DroverSt}

theorem State.showReady_ctl {s : State} {p : Block → Bool} (h_s : s.Ctl r0) : (State.showReady s p).Ctl r0 := by
  unfold State.showReady
  with_reducible repeat' first
    | assumption
    | apply State.setBlk_ctl
    | apply State.ctl_foldl
    | (intro _ _ _; try dsimp only)
    | split

theorem execTensorRailsUp_ctl {s : State} (h_s : s.Ctl r0) : KeepsCtl r0 (execTensorRailsUp s) := by
  unfold execTensorRailsUp
  try dsimp only [State.take]
  with_reducible repeat' first
    | assumption
    | apply KeepsCtl.next
    | apply State.incSat_ctl
    | apply State.pmRail_ctl
    | apply State.pmSend_ctl
    | apply State.setStage_ctl
    | apply State.wb_ctl
    | apply State.showReady_ctl
    | apply State.ctl_foldl
    | (intro _ _ _; try dsimp only)
    | split
    | simp only [State.ctl_mk]

theorem State.trainAll_ctl {s : State} (h_s : s.Ctl r0) : (State.trainAll s).Ctl r0 := by
  unfold State.trainAll
  try dsimp only [State.take]
  with_reducible repeat' first
    | assumption
    | apply State.startTrain_ctl
    | apply State.showReady_ctl
    | apply State.ctl_foldl
    | (intro _ _ _; try dsimp only)
    | split

theorem State.release_ctl {s : State} (h_s : s.Ctl r0) : (State.release s).Ctl r0 := by
  unfold State.release
  try dsimp only [State.take]
  with_reducible repeat' first
    | assumption
    | apply State.wb_ctl
    | apply State.raise_ctl
    | apply State.logNamed_ctl
    | apply State.setStage_ctl
    | simp only [State.ctl_mk]

theorem execHostRelease_ctl {s : State} (h_s : s.Ctl r0) : KeepsCtl r0 (execHostRelease s) := by
  unfold execHostRelease
  with_reducible repeat' first
    | assumption
    | apply KeepsCtl.next
    | apply State.release_ctl
    | split

theorem State.hostReset_ctl {s : State} (h_s : s.Ctl r0) : (State.hostReset s).Ctl r0 := by
  unfold State.hostReset
  try dsimp only [State.take]
  with_reducible repeat' first
    | assumption
    | apply State.jobFault_ctl
    | apply State.ctl_foldl
    | (intro _ _ _; try dsimp only)
    | split
    | simp only [State.ctl_mk]

theorem execPfFunctionLevelReset_ctl {s : State} (h_s : s.Ctl r0) : KeepsCtl r0 (execPfFunctionLevelReset s) := by
  unfold execPfFunctionLevelReset
  with_reducible repeat' first
    | assumption
    | apply KeepsCtl.next
    | apply State.hostReset_ctl

theorem execVfFunctionLevelReset_ctl {t : Fin 8} {s : State} (h_s : s.Ctl r0) : KeepsCtl r0 (execVfFunctionLevelReset t s) := by
  unfold execVfFunctionLevelReset
  try dsimp only [State.take]
  with_reducible repeat' first
    | assumption
    | apply KeepsCtl.next
    | apply State.setTenant_ctl
    | apply State.startRelease_ctl
    | split
    | simp only [State.ctl_mk]

end Sys2Proof.Machine
end

