-- ==== Sys2Proof/Laws/ControlWaybill.lean ====
section
/-!
SUPPORT. What the functions of Machine/Waybill.lean leave alone (Control.lean).
-/
namespace Sys2Proof.Machine

variable {r0 : MileSt × List (Nat × CanNode) × Pins × Clock × DroverSt}

theorem State.wbErr_ctl {s : State} {bit e : Nat} (h_s : s.Ctl r0) : (State.wbErr s bit e).Ctl r0 := by
  unfold State.wbErr
  with_reducible repeat' first
    | assumption
    | apply State.pf_ctl
    | apply State.wb_ctl

theorem State.wrWbSel_ctl {s : State} {f : Func} {v : Word} (h_s : s.Ctl r0) : (State.wrWbSel s f v).Ctl r0 := by
  unfold State.wrWbSel
  try dsimp only [State.take]
  with_reducible repeat' first
    | assumption
    | apply State.wr_ctl
    | apply State.store_ctl

theorem State.denyWaits_ctl {s : State} {e : Nat} (h_s : s.Ctl r0) : (State.denyWaits s e).Ctl r0 := by
  unfold State.denyWaits
  try dsimp only [State.take]
  with_reducible repeat' first
    | assumption
    | apply State.writeRecord_ctl
    | apply State.jobFault_ctl
    | apply State.ctl_foldl
    | (intro _ _ _; try dsimp only)
    | split
    | simp only [State.ctl_mk]

theorem execWbSelWrite_ctl {f : Func} {v : Word} {s : State} (h_s : s.Ctl r0) : KeepsCtl r0 (execWbSelWrite f v s) := by
  unfold execWbSelWrite
  with_reducible repeat' first
    | assumption
    | apply KeepsCtl.next
    | apply State.guarded_ctl
    | apply State.wrWbSel_ctl
    | (intro _ _; try dsimp only)

theorem execWaybillWait_ctl {q : Fin 32} {s : State} (h_s : s.Ctl r0) : KeepsCtl r0 (execWaybillWait q s) := by
  unfold execWaybillWait
  try dsimp only [State.take]
  with_reducible repeat' first
    | assumption
    | apply KeepsCtl.next
    | apply State.endWait_ctl
    | apply State.register_ctl
    | apply State.advance_ctl
    | apply State.refuse_ctl
    | split
    | simp only [State.ctl_mk]

theorem execWbWaitTimeout_ctl {q : Fin 32} {firing : Bool} {s : State} (h_s : s.Ctl r0) : KeepsCtl r0 (execWbWaitTimeout q firing s) := by
  unfold execWbWaitTimeout
  try dsimp only [State.take]
  with_reducible repeat' first
    | assumption
    | apply KeepsCtl.next
    | apply State.writeRecord_ctl
    | apply State.jobFault_ctl
    | apply State.firesMet_ctl
    | apply State.ctl_foldl
    | (intro _ _ _; try dsimp only)
    | split
    | simp only [State.ctl_mk]

theorem State.lineEvent_ctl {s : State} {x : WbEntry} {e : Nat} (h_s : s.Ctl r0) : (State.lineEvent s x e).Ctl r0 := by
  unfold State.lineEvent
  try dsimp only [State.take]
  with_reducible repeat' first
    | assumption
    | simp only [State.ctl_mk]

theorem State.launchDue_ctl {s : State} {l : List Due} (h_s : s.Ctl r0) : (State.launchDue s l).Ctl r0 := by
  unfold State.launchDue
  try dsimp only [State.take]
  with_reducible repeat' first
    | assumption
    | apply State.ethChoose_ctl
    | apply State.ctl_foldl
    | (intro _ _ _; try dsimp only)
    | split
    | simp only [State.ctl_mk]

theorem State.onEvent_ctl {s : State} {action : Nat} {k : State → LineEvent → State} (h_s : s.Ctl r0)
    (hk : ∀ s x, s.Ctl r0 → (k s x).Ctl r0) : (State.onEvent s action k).Ctl r0 := by
  unfold State.onEvent
  split
  · exact h_s
  · exact hk _ _ h_s

theorem execQueueStart_ctl {s : State} (h_s : s.Ctl r0) : KeepsCtl r0 (execQueueStart s) := by
  unfold execQueueStart
  with_reducible repeat' first
    | assumption
    | apply KeepsCtl.next
    | apply State.firesMet_ctl
    | apply State.onEvent_ctl
    | (intro _ _ _; try dsimp only)
    | (intro _ _; try dsimp only)

theorem execTallyArrive_ctl {s : State} (h_s : s.Ctl r0) : KeepsCtl r0 (execTallyArrive s) := by
  unfold execTallyArrive
  try dsimp only [State.take]
  with_reducible repeat' first
    | assumption
    | apply KeepsCtl.next
    | apply State.addSat_ctl
    | apply State.advance_ctl
    | apply State.arrive_ctl
    | apply State.onEvent_ctl
    | (intro _ _ _; try dsimp only)
    | (intro _ _; try dsimp only)
    | split

theorem execEngineWindow_ctl {s : State} (h_s : s.Ctl r0) : KeepsCtl r0 (execEngineWindow s) := by
  unfold execEngineWindow
  with_reducible repeat' first
    | assumption
    | apply KeepsCtl.next
    | apply State.pf_ctl
    | apply State.kick_ctl
    | apply State.onEvent_ctl
    | apply State.ctl_foldl
    | (intro _ _ _; try dsimp only)
    | (intro _ _; try dsimp only)
    | split
    | simp only [State.ctl_mk]
    | dsimp only

theorem execManifestClose_ctl {s : State} (h_s : s.Ctl r0) : KeepsCtl r0 (execManifestClose s) := by
  unfold execManifestClose
  try dsimp only [State.take]
  with_reducible repeat' first
    | assumption
    | apply KeepsCtl.next
    | apply State.manTrigger_ctl
    | apply State.onEvent_ctl
    | apply State.ctl_foldl
    | (intro _ _ _; try dsimp only)
    | split
    | simp only [State.ctl_mk]

end Sys2Proof.Machine
end

