-- ==== Sys2Proof/Laws/ControlHeader.lean ====
section
/-!
SUPPORT. What the functions of Machine/Header.lean leave alone (Control.lean).
-/
namespace Sys2Proof.Machine

variable {r0 : MileSt × List (Nat × CanNode) × Pins × Clock × DroverSt}

theorem State.ackFault_ctl {s : State} {page : Nat} (h_s : s.Ctl r0) : (State.ackFault s page).Ctl r0 := by
  unfold State.ackFault
  with_reducible repeat' first
    | assumption
    | apply State.wr_ctl
    | split

theorem State.wrIrqEn_ctl {s : State} {page : Nat} {v : Word} (h_s : s.Ctl r0) : (State.wrIrqEn s page v).Ctl r0 := by
  unfold State.wrIrqEn
  try dsimp only [State.take]
  with_reducible repeat' first
    | assumption
    | apply State.wr_ctl
    | apply State.requestIrq_ctl
    | split

theorem State.wrIrqPend_ctl {s : State} {page : Nat} {v arriving : Word} (h_s : s.Ctl r0) : (State.wrIrqPend s page v arriving).Ctl r0 := by
  unfold State.wrIrqPend
  try dsimp only [State.take]
  with_reducible repeat' first
    | assumption
    | apply State.wr_ctl
    | apply State.requestIrq_ctl
    | split

theorem State.wrIrqForce_ctl {s : State} {f : Func} {page : Nat} {v : Word} (h_s : s.Ctl r0) : (State.wrIrqForce s f page v).Ctl r0 := by
  unfold State.wrIrqForce
  with_reducible repeat' first
    | assumption
    | apply State.raiseBits_ctl
    | split

theorem State.wrErrinj_ctl {s : State} {f : Func} {page : Nat} {v : Word} (h_s : s.Ctl r0) : (State.wrErrinj s f page v).Ctl r0 := by
  unfold State.wrErrinj
  with_reducible repeat' first
    | assumption
    | apply State.wr_ctl
    | apply State.logNamed_ctl
    | split

theorem State.wrLock_ctl {s : State} {f : Func} {page : Nat} {v : Word} (h_s : s.Ctl r0) : (State.wrLock s f page v).Ctl r0 := by
  unfold State.wrLock
  with_reducible repeat' first
    | assumption
    | apply State.wb_ctl
    | split

theorem State.wrRoute_ctl {s : State} {f : Func} {i : Nat} {v : Word} (h_s : s.Ctl r0) : (State.wrRoute s f i v).Ctl r0 := by
  unfold State.wrRoute
  try dsimp only [State.take]
  with_reducible repeat' first
    | assumption
    | apply State.wr_ctl
    | apply State.sendRoute_ctl
    | apply State.store_ctl
    | split
    | simp only [State.ctl_mk]

theorem execLock_ctl {f : Func} {page : Nat} {v : Word} {s : State} (h_s : s.Ctl r0) : KeepsCtl r0 (execLock f page v s) := by
  unfold execLock
  with_reducible repeat' first
    | assumption
    | apply KeepsCtl.next
    | apply State.guarded_ctl
    | apply State.wrLock_ctl
    | (intro _ _; try dsimp only)

theorem execErrinjWrite_ctl {f : Func} {page : Nat} {v : Word} {s : State} (h_s : s.Ctl r0) : KeepsCtl r0 (execErrinjWrite f page v s) := by
  unfold execErrinjWrite
  with_reducible repeat' first
    | assumption
    | apply KeepsCtl.next
    | apply State.guarded_ctl
    | apply State.wrErrinj_ctl
    | (intro _ _; try dsimp only)

theorem execIrqPendWrite_ctl {f : Func} {page : Nat} {v arriving : Word} {s : State} (h_s : s.Ctl r0) : KeepsCtl r0 (execIrqPendWrite f page v arriving s) := by
  unfold execIrqPendWrite
  with_reducible repeat' first
    | assumption
    | apply KeepsCtl.next
    | apply State.raiseBits_ctl
    | apply State.wrIrqPend_ctl
    | split

theorem execIrqEnWrite_ctl {f : Func} {page : Nat} {v : Word} {s : State} (h_s : s.Ctl r0) : KeepsCtl r0 (execIrqEnWrite f page v s) := by
  unfold execIrqEnWrite
  with_reducible repeat' first
    | assumption
    | apply KeepsCtl.next
    | apply State.guarded_ctl
    | apply State.wrIrqEn_ctl
    | (intro _ _; try dsimp only)

theorem execIrqForce_ctl {f : Func} {page : Nat} {v : Word} {s : State} (h_s : s.Ctl r0) : KeepsCtl r0 (execIrqForce f page v s) := by
  unfold execIrqForce
  with_reducible repeat' first
    | assumption
    | apply KeepsCtl.next
    | apply State.guarded_ctl
    | apply State.wrIrqForce_ctl
    | (intro _ _; try dsimp only)

theorem execIrqRouteWrite_ctl {f : Func} {i : Fin 256} {v : Word} {s : State} (h_s : s.Ctl r0) : KeepsCtl r0 (execIrqRouteWrite f i v s) := by
  unfold execIrqRouteWrite
  with_reducible repeat' first
    | assumption
    | apply KeepsCtl.next
    | apply State.guarded_ctl
    | apply State.wrRoute_ctl
    | (intro _ _; try dsimp only)

end Sys2Proof.Machine
end

