-- ==== Sys2Proof/Laws/ControlOstler.lean ====
section
/-!
SUPPORT. What the functions of Machine/Ostler.lean leave alone (Control.lean).
-/
namespace Sys2Proof.Machine

variable {r0 : MileSt × List (Nat × CanNode) × Pins × Clock × DroverSt}

theorem State.omDone_ctl {s : State} {result : Nat} (h_s : s.Ctl r0) : (State.omDone s result).Ctl r0 := by
  unfold State.omDone
  try dsimp only [State.take]
  with_reducible repeat' first
    | assumption
    | apply State.pf_ctl
    | apply State.wb_ctl
    | apply State.raise_ctl
    | simp only [State.ctl_mk]
    | dsimp only

theorem State.omResp_ctl {s : State} {k : Nat} {v : Word} (h_s : s.Ctl r0) : (State.omResp s k v).Ctl r0 := by
  unfold State.omResp
  with_reducible repeat' first
    | assumption
    | apply State.wr_ctl

theorem State.omData_ctl {s : State} {bs : List Byte} (h_s : s.Ctl r0) : (State.omData s bs).Ctl r0 := by
  unfold State.omData
  with_reducible repeat' first
    | assumption
    | apply State.wr_ctl
    | apply State.ctl_foldl
    | (intro _ _ _; try dsimp only)

theorem State.wrDoorbell_ctl {s : State} {v : Word} (h_s : s.Ctl r0) : (State.wrDoorbell s v).Ctl r0 := by
  unfold State.wrDoorbell
  try dsimp only [State.take]
  with_reducible repeat' first
    | assumption
    | apply State.wb_ctl
    | apply State.omDone_ctl
    | split
    | simp only [State.ctl_mk]
    | dsimp only

theorem State.mailbox_ctl {s : State} {op : Nat} {k : State → State} (h_s : s.Ctl r0) (h_k : ∀ s, s.Ctl r0 → (k s).Ctl r0) : KeepsCtl r0 (State.mailbox s op k) := by
  unfold State.mailbox
  with_reducible repeat' first
    | assumption
    | apply KeepsCtl.next
    | (apply h_k)
    | split

theorem endLedger_ctl {r : State × Bool} {k : State → State} (h : r.1.Ctl r0) (hk : ∀ s, s.Ctl r0 → (k s).Ctl r0) : (endLedger r k).Ctl r0 := by
  unfold endLedger
  split
  · exact State.omDone_ctl (hk _ h)
  · exact State.omDone_ctl h

theorem execGetInfo_ctl {s : State} (h_s : s.Ctl r0) : KeepsCtl r0 (execGetInfo s) := by
  unfold execGetInfo
  with_reducible repeat' first
    | assumption
    | apply KeepsCtl.next
    | apply State.omDone_ctl
    | apply State.omResp_ctl
    | apply State.mailbox_ctl
    | (intro _ _; try dsimp only)

theorem execLogRead_ctl {s : State} (h_s : s.Ctl r0) : KeepsCtl r0 (execLogRead s) := by
  unfold execLogRead
  try dsimp only [State.take]
  with_reducible repeat' first
    | assumption
    | apply KeepsCtl.next
    | apply State.omDone_ctl
    | apply State.omResp_ctl
    | apply State.omData_ctl
    | apply State.mailbox_ctl
    | (intro _ _; try dsimp only)
    | split
    | simp only [State.ctl_mk]

theorem State.setSlot_ctl {s : State} {k : Nat} {m : List (Nat × Byte)} (h_s : s.Ctl r0) : (State.setSlot s k m).Ctl r0 := by
  unfold State.setSlot
  try dsimp only [State.take]
  with_reducible repeat' first
    | assumption
    | split
    | simp only [State.ctl_mk]

theorem execFwWrite_ctl {flashErr : Bool} {s : State} (h_s : s.Ctl r0) : KeepsCtl r0 (execFwWrite flashErr s) := by
  unfold execFwWrite
  try dsimp only [State.take]
  with_reducible repeat' first
    | assumption
    | apply KeepsCtl.next
    | apply State.omDone_ctl
    | apply State.mailbox_ctl
    | apply State.setSlot_ctl
    | apply State.ctl_foldl
    | (intro _ _ _; try dsimp only)
    | (intro _ _; try dsimp only)
    | split

theorem execUnfence_ctl {s : State} (h_s : s.Ctl r0) : KeepsCtl r0 (execUnfence s) := by
  unfold execUnfence
  try dsimp only [State.take]
  with_reducible repeat' first
    | assumption
    | apply KeepsCtl.next
    | apply State.liftFence_ctl
    | apply State.omDone_ctl
    | apply State.mailbox_ctl
    | (intro _ _; try dsimp only)
    | split
    | simp only [State.ctl_mk]

theorem execSensorRead_ctl {s : State} (h_s : s.Ctl r0) : KeepsCtl r0 (execSensorRead s) := by
  unfold execSensorRead
  try dsimp only [State.take]
  with_reducible repeat' first
    | assumption
    | apply KeepsCtl.next
    | apply State.omDone_ctl
    | apply State.omData_ctl
    | apply State.mailbox_ctl
    | (intro _ _; try dsimp only)
    | simp only [State.ctl_mk]

theorem execMailboxTimeout_ctl {s : State} (h_s : s.Ctl r0) : KeepsCtl r0 (execMailboxTimeout s) := by
  unfold execMailboxTimeout
  with_reducible repeat' first
    | assumption
    | apply KeepsCtl.next
    | apply State.omDone_ctl
    | split

theorem execOstlerWdt_ctl {s : State} (h_s : s.Ctl r0) : KeepsCtl r0 (execOstlerWdt s) := by
  unfold execOstlerWdt
  try dsimp only [State.take]
  with_reducible repeat' first
    | assumption
    | apply KeepsCtl.next
    | apply State.logNamed_ctl
    | apply State.omDone_ctl
    | split
    | simp only [State.ctl_mk]

end Sys2Proof.Machine
end

