-- ==== Sys2Proof/Laws/ControlSheaf.lean ====
section
/-!
SUPPORT. What the functions of Machine/Sheaf.lean leave alone (Control.lean).
-/
namespace Sys2Proof.Machine

variable {r0 : MileSt × List (Nat × CanNode) × Pins × Clock × DroverSt}

theorem State.wrEngCfg_ctl {s : State} {f : Func} {e : Nat} {v : Word} (h_s : s.Ctl r0) : (State.wrEngCfg s f e v).Ctl r0 := by
  unfold State.wrEngCfg
  try dsimp only [State.take]
  with_reducible repeat' first
    | assumption
    | apply State.setEngine_ctl
    | apply State.store_ctl
    | split
    | simp only [State.ctl_mk]

theorem execRecInv_ctl {f : Func} {e : Fin 6} {v : Word} {s : State} (h_s : s.Ctl r0) : KeepsCtl r0 (execRecInv f e v s) := by
  unfold execRecInv
  with_reducible repeat' first
    | assumption
    | apply KeepsCtl.next
    | apply State.guarded_ctl
    | apply State.wrEngCfg_ctl
    | (intro _ _; try dsimp only)

theorem State.partErr_ctl {s : State} {e : Nat} {bits : List Nat} {off : Nat} (h_s : s.Ctl r0) : (State.partErr s e bits off).Ctl r0 := by
  unfold State.partErr
  try dsimp only [State.take]
  with_reducible repeat' first
    | assumption
    | apply State.pf_ctl
    | apply State.wb_ctl
    | apply State.ctl_foldl
    | (intro _ _ _; try dsimp only)

theorem State.wrPart_ctl {s : State} {f : Func} {e t : Nat} {v : Word} (h_s : s.Ctl r0) : (State.wrPart s f e t v).Ctl r0 := by
  unfold State.wrPart
  try dsimp only [State.take]
  with_reducible repeat' first
    | assumption
    | apply State.store_ctl
    | apply State.partErr_ctl
    | split
    | simp only [State.ctl_mk]

theorem execPartWrite_ctl {f : Func} {e : Fin 6} {t : Fin 8} {v : Word} {s : State} (h_s : s.Ctl r0) : KeepsCtl r0 (execPartWrite f e t v s) := by
  unfold execPartWrite
  with_reducible repeat' first
    | assumption
    | apply KeepsCtl.next
    | apply State.guarded_ctl
    | apply State.wrPart_ctl
    | (intro _ _; try dsimp only)

theorem State.wrRes_ctl {s : State} {f : Func} {e t k : Nat} {v : Word} (h_s : s.Ctl r0) : (State.wrRes s f e t k v).Ctl r0 := by
  unfold State.wrRes
  try dsimp only [State.take]
  with_reducible repeat' first
    | assumption
    | apply State.store_ctl
    | apply State.partErr_ctl
    | split
    | simp only [State.ctl_mk]

theorem execResWrite_ctl {f : Func} {e : Fin 6} {t : Fin 8} {k : Fin 4} {v : Word} {s : State} (h_s : s.Ctl r0) : KeepsCtl r0 (execResWrite f e t k v s) := by
  unfold execResWrite
  with_reducible repeat' first
    | assumption
    | apply KeepsCtl.next
    | apply State.guarded_ctl
    | apply State.wrRes_ctl
    | (intro _ _; try dsimp only)

theorem State.wrEccCtl_ctl {s : State} {e : Nat} {v : Word} (h_s : s.Ctl r0) : (State.wrEccCtl s e v).Ctl r0 := by
  unfold State.wrEccCtl
  with_reducible repeat' first
    | assumption
    | apply State.wr_ctl
    | apply State.ctl_foldl
    | (intro _ _ _; try dsimp only)
    | split

theorem execCeClr_ctl {f : Func} {e : Fin 6} {v : Word} {s : State} (h_s : s.Ctl r0) : KeepsCtl r0 (execCeClr f e v s) := by
  unfold execCeClr
  with_reducible repeat' first
    | assumption
    | apply KeepsCtl.next
    | apply State.guarded_ctl
    | apply State.wrEccCtl_ctl
    | (intro _ _; try dsimp only)

theorem execSpadClearDone_ctl {e : Fin 6} {s : State} (h_s : s.Ctl r0) : KeepsCtl r0 (execSpadClearDone e s) := by
  unfold execSpadClearDone
  try dsimp only [State.take]
  with_reducible repeat' first
    | assumption
    | apply KeepsCtl.next
    | apply State.setEngine_ctl
    | apply State.kick_ctl
    | apply State.finishAbort_ctl
    | apply State.ctl_foldl
    | (intro _ _ _; try dsimp only)
    | split
    | simp only [State.ctl_mk]

end Sys2Proof.Machine
end

