-- ==== Sys2Proof/Laws/ControlThresher.lean ====
section
/-!
SUPPORT. What the functions of Machine/Thresher.lean leave alone (Control.lean).
-/
namespace Sys2Proof.Machine

variable {r0 : MileSt × List (Nat × CanNode) × Pins × Clock × DroverSt}

theorem State.thCorrupt_ctl {s : State} {c : Nat} (h_s : s.Ctl r0) : (State.thCorrupt s c).Ctl r0 := by
  unfold State.thCorrupt
  try dsimp only [State.take]
  with_reducible repeat' first
    | assumption
    | apply State.setTh_ctl
    | apply State.corruptSample_ctl
    | simp only [State.ctl_mk]

theorem State.thMark_ctl {s : State} {c : Nat} (h_s : s.Ctl r0) : (State.thMark s c).Ctl r0 := by
  unfold State.thMark
  try dsimp only [State.take]
  with_reducible repeat' first
    | assumption
    | apply State.setTh_ctl
    | split
    | simp only [State.ctl_mk]

theorem State.thErr_ctl {s : State} {c hi lo : Nat} (h_s : s.Ctl r0) : (State.thErr s c hi lo).Ctl r0 := by
  unfold State.thErr
  with_reducible repeat' first
    | assumption
    | apply State.incSat_ctl

theorem State.csiHead_ctl {s : State} {c : Nat} {vc : Nat} {h : HeaderEcc} (h_s : s.Ctl r0) : (State.csiHead s c vc h).2.Ctl r0 := by
  unfold State.csiHead
  try dsimp only [State.take]
  with_reducible repeat' first
    | assumption
    | apply State.incSat_ctl
    | apply State.thErr_ctl
    | apply State.thMark_ctl
    | apply State.ctl_foldl
    | (intro _ _ _; try dsimp only)
    | split
    | simp only [State.ctl_mk]

theorem State.csiHead_ctl_eq {s : State} {c : Nat} {vc : Nat} {h : HeaderEcc} {y : State} {x0_} (h_s : s.Ctl r0) (he : State.csiHead s c vc h = (x0_, y)) : y.Ctl r0 := by
  have h := State.csiHead_ctl (r0 := r0) (s := s) (c := c) (vc := vc) (h := h) h_s
  rw [he] at h
  exact h

theorem State.thTable_ctl {s : State} {c a len : Nat} {zeroOff : Bool} (h_s : s.Ctl r0) : (State.thTable s c a len zeroOff).2.Ctl r0 := by
  unfold State.thTable
  try dsimp only [State.take]
  with_reducible repeat' first
    | assumption
    | apply State.unitAccess_ctl
    | refine State.unitAccess_ctl_eq ?_ (by assumption)
    | split

theorem State.thTable_ctl_eq {s : State} {c a len : Nat} {zeroOff : Bool} {y : State}  {x} (h_s : s.Ctl r0) (he : State.thTable s c a len zeroOff = (x, y)) : y.Ctl r0 := by
  have := State.thTable_ctl (r0 := r0) (s := s) (c := c) (a := a) (len := len) (zeroOff := zeroOff) h_s
  rw [he] at this
  exact this

theorem State.frameStart_ctl {s : State} {c num : Nat} (h_s : s.Ctl r0) : (State.frameStart s c num).Ctl r0 := by
  unfold State.frameStart
  try dsimp only [State.take]
  with_reducible repeat' first
    | assumption
    | apply State.setTh_ctl
    | apply State.thCorrupt_ctl
    | apply State.thTable_ctl
    | refine State.thTable_ctl_eq ?_ (by assumption)
    | split
    | simp only [State.ctl_mk]

theorem execCsi2FrameStart_ctl {c : Fin 16} {vc : BitVec 2} {ecc : HeaderEcc} {frame : BitVec 16} {s : State} (h_s : s.Ctl r0) : KeepsCtl r0 (execCsi2FrameStart c vc ecc frame s) := by
  unfold execCsi2FrameStart
  try dsimp only [State.take]
  with_reducible repeat' first
    | assumption
    | apply KeepsCtl.next
    | apply State.frameStart_ctl
    | apply State.csiHead_ctl
    | refine State.csiHead_ctl_eq ?_ (by assumption)
    | apply State.ctl_foldl
    | (intro _ _ _; try dsimp only)
    | split
    | simp only [State.ctl_mk]

theorem State.thLine_ctl {s : State} {c : Nat} {dt : Nat} {crcOk : Bool} {overflow : Bool} {codes : List Nat} (h_s : s.Ctl r0) : (State.thLine s c dt crcOk overflow codes).Ctl r0 := by
  unfold State.thLine
  try dsimp only [State.take]
  with_reducible repeat' first
    | assumption
    | apply State.incSat_ctl
    | apply State.thErr_ctl
    | apply State.setTh_ctl
    | apply State.ctl_foldl
    | (intro _ _ _; try dsimp only)
    | split
    | simp only [State.ctl_mk]

theorem execCsi2Line_ctl {c : Fin 16} {vc : BitVec 2} {ecc : HeaderEcc} {dt : BitVec 6} {crcOk : Bool} {overflow : Bool} {codes : List Nat} {s : State} (h_s : s.Ctl r0) : KeepsCtl r0 (execCsi2Line c vc ecc dt crcOk overflow codes s) := by
  unfold execCsi2Line
  try dsimp only [State.take]
  with_reducible repeat' first
    | assumption
    | apply KeepsCtl.next
    | apply State.thLine_ctl
    | apply State.csiHead_ctl
    | refine State.csiHead_ctl_eq ?_ (by assumption)
    | apply State.ctl_foldl
    | (intro _ _ _; try dsimp only)
    | split
    | simp only [State.ctl_mk]

theorem State.thEmbed_ctl {s : State} {c : Nat} {crcOk : Bool} {bytes : List Byte} (h_s : s.Ctl r0) : (State.thEmbed s c crcOk bytes).Ctl r0 := by
  unfold State.thEmbed
  try dsimp only [State.take]
  with_reducible repeat' first
    | assumption
    | apply State.thErr_ctl
    | apply State.setTh_ctl
    | apply State.ctl_foldl
    | (intro _ _ _; try dsimp only)
    | split
    | simp only [State.ctl_mk]

theorem execCsi2EmbeddedData_ctl {c : Fin 16} {vc : BitVec 2} {ecc : HeaderEcc} {crcOk : Bool} {bytes : List Byte} {s : State} (h_s : s.Ctl r0) : KeepsCtl r0 (execCsi2EmbeddedData c vc ecc crcOk bytes s) := by
  unfold execCsi2EmbeddedData
  try dsimp only [State.take]
  with_reducible repeat' first
    | assumption
    | apply KeepsCtl.next
    | apply State.thEmbed_ctl
    | apply State.csiHead_ctl
    | refine State.csiHead_ctl_eq ?_ (by assumption)
    | apply State.ctl_foldl
    | (intro _ _ _; try dsimp only)
    | split
    | simp only [State.ctl_mk]

theorem State.startSend_ctl {s : State} {c : Nat} (h_s : s.Ctl r0) : (State.startSend s c).Ctl r0 := by
  unfold State.startSend
  try dsimp only [State.take]
  with_reducible repeat' first
    | assumption
    | apply State.sendSet_ctl
    | split
    | simp only [State.ctl_mk]

theorem State.updateMeans_ctl {s : State} {c : Nat} (h_s : s.Ctl r0) : (State.updateMeans s c).Ctl r0 := by
  unfold State.updateMeans
  try dsimp only [State.take]
  with_reducible repeat' first
    | assumption
    | apply State.setTh_ctl
    | split
    | simp only [State.ctl_mk]

theorem State.frameEnd_ctl {s : State} {c : Nat} (h_s : s.Ctl r0) : (State.frameEnd s c).Ctl r0 := by
  unfold State.frameEnd
  try dsimp only [State.take]
  with_reducible repeat' first
    | assumption
    | apply State.setTh_ctl
    | apply State.addSampleOf_ctl
    | apply State.thCorrupt_ctl
    | apply State.startSend_ctl
    | apply State.updateMeans_ctl
    | split
    | simp only [State.ctl_mk]

theorem execCsi2FrameEnd_ctl {c : Fin 16} {vc : BitVec 2} {ecc : HeaderEcc} {s : State} (h_s : s.Ctl r0) : KeepsCtl r0 (execCsi2FrameEnd c vc ecc s) := by
  unfold execCsi2FrameEnd
  try dsimp only [State.take]
  with_reducible repeat' first
    | assumption
    | apply KeepsCtl.next
    | apply State.frameEnd_ctl
    | apply State.csiHead_ctl
    | refine State.csiHead_ctl_eq ?_ (by assumption)
    | apply State.ctl_foldl
    | (intro _ _ _; try dsimp only)
    | split
    | simp only [State.ctl_mk]

theorem execFrameTimeout_ctl {c : Fin 16} {ended : Bool} {s : State} (h_s : s.Ctl r0) : KeepsCtl r0 (execFrameTimeout c ended s) := by
  unfold execFrameTimeout
  with_reducible repeat' first
    | assumption
    | apply KeepsCtl.next
    | apply State.thCorrupt_ctl
    | apply State.thErr_ctl
    | split

theorem execCamSilent_ctl {c : Fin 16} {started : Bool} {s : State} (h_s : s.Ctl r0) : KeepsCtl r0 (execCamSilent c started s) := by
  unfold execCamSilent
  with_reducible repeat' first
    | assumption
    | apply KeepsCtl.next
    | apply State.raise_ctl
    | apply State.logNamed_ctl
    | split

theorem State.wrThSet_ctl {s : State} {c : Nat} {v : Word} (h_s : s.Ctl r0) : (State.wrThSet s c v).Ctl r0 := by
  unfold State.wrThSet
  try dsimp only [State.take]
  with_reducible repeat' first
    | assumption
    | apply State.incSat_ctl
    | apply State.setTh_ctl
    | split
    | simp only [State.ctl_mk]

theorem execThSet_ctl {f : Func} {c : Fin 16} {v : Word} {s : State} (h_s : s.Ctl r0) : KeepsCtl r0 (execThSet f c v s) := by
  unfold execThSet
  with_reducible repeat' first
    | assumption
    | apply KeepsCtl.next
    | apply State.guarded_ctl
    | apply State.wrThSet_ctl
    | (intro _ _; try dsimp only)

theorem execRoiCommit_ctl {c : Fin 16} {s : State} (h_s : s.Ctl r0) : KeepsCtl r0 (execRoiCommit c s) := by
  unfold execRoiCommit
  try dsimp only [State.take]
  with_reducible repeat' first
    | assumption
    | apply KeepsCtl.next
    | apply State.setTh_ctl
    | split
    | simp only [State.ctl_mk]

theorem State.wrThOut_ctl {s : State} {f : Func} {c : Nat} {v : Word} (h_s : s.Ctl r0) : (State.wrThOut s f c v).Ctl r0 := by
  unfold State.wrThOut
  try dsimp only [State.take]
  with_reducible repeat' first
    | assumption
    | apply State.store_ctl
    | apply State.srcErr_ctl
    | apply State.ctl_foldl
    | (intro _ _ _; try dsimp only)
    | split
    | simp only [State.ctl_mk]

theorem State.wrThSize_ctl {s : State} {f : Func} {c : Nat} {v : Word} (h_s : s.Ctl r0) : (State.wrThSize s f c v).Ctl r0 := by
  unfold State.wrThSize
  with_reducible repeat' first
    | assumption
    | apply State.store_ctl
    | apply State.srcErr_ctl
    | split

end Sys2Proof.Machine
end

