-- ==== Sys2Proof/Laws/ControlRegView.lean ====
section
/-!
SUPPORT. What the functions of Machine/RegView.lean leave alone (Control.lean).
-/
namespace Sys2Proof.Machine

variable {r0 : MileSt × List (Nat × CanNode) × Pins × Clock × DroverSt}

theorem State.readPair_ctl {s : State} {f : Func} {a : Nat} {i : PageId} (h_s : s.Ctl r0) : (State.readPair s f a i).Ctl r0 := by
  unfold State.readPair
  try dsimp only [State.take]
  with_reducible repeat' first
    | assumption
    | split
    | simp only [State.ctl_mk]

end Sys2Proof.Machine
end

