-- ==== Sys2Proof/Laws/ControlHostWrite.lean ====
section
/-!
SUPPORT. What the functions of Machine/HostWrite.lean leave alone (Control.lean).
-/
namespace Sys2Proof.Machine

variable {r0 : MileSt × List (Nat × CanNode) × Pins × Clock × DroverSt}

theorem State.wrInnkeeper_ctl {s : State} {f : Func} {i : PageId} {a : Nat} {o : Nat} {v : Word} (h_s : s.Ctl r0) : (State.wrInnkeeper s f i a o v).Ctl r0 := by
  unfold State.wrInnkeeper
  try dsimp only [State.take]
  with_reducible repeat' first
    | assumption
    | apply State.wrQTail_ctl
    | apply State.wrTnCtl_ctl
    | apply State.wrTnRes_ctl
    | apply State.store_ctl
    | apply State.wrManCtl_ctl
    | apply State.tallyCfg_ctl
    | apply State.wrQCfg_ctl
    | apply State.ctl_foldl
    | (intro _ _ _; try dsimp only)
    | split
    | simp only [State.ctl_mk]

theorem State.wrSource_ctl {s : State} {f : Func} {src r : Nat} {v : Word} (h_s : s.Ctl r0) : (State.wrSource s f src r v).Ctl r0 := by
  unfold State.wrSource
  with_reducible repeat' first
    | assumption
    | apply State.wrSrcCfg_ctl
    | apply State.wrSrcOther_ctl
    | split

theorem State.hwSet_ctl {s : State} {a : Nat} {m : Word} (h_s : s.Ctl r0) : (State.hwSet s a m).Ctl r0 := by
  unfold State.hwSet
  try dsimp only [State.take]
  with_reducible repeat' first
    | assumption
    | apply State.wr_ctl
    | split
    | simp only [State.ctl_mk]

theorem State.logMgmt_ctl {s : State} {a : Nat} {v : Word} (h_s : s.Ctl r0) : (State.logMgmt s a v).Ctl r0 := by
  unfold State.logMgmt
  with_reducible repeat' first
    | assumption
    | apply State.logNamed_ctl

end Sys2Proof.Machine
end

