-- ==== Sys2Proof/Laws/ControlProxy.lean ====
section
/-!
SUPPORT. What the functions of Machine/Proxy.lean leave alone (Control.lean).
-/
namespace Sys2Proof.Machine

variable {r0 : MileSt × List (Nat × CanNode) × Pins × Clock × DroverSt}

theorem State.noAccess_ctl {s : State} {w : Option Word} {v : Word} (h_s : s.Ctl r0) : (State.noAccess s w v).Ctl r0 := by
  unfold State.noAccess
  try dsimp only [State.take]
  with_reducible repeat' first
    | assumption
    | split
    | simp only [State.ctl_mk]

theorem execProxyReadData_ctl {p : Fin 8} {vc : Fin 4} {s : State} (h_s : s.Ctl r0) : KeepsCtl r0 (execProxyReadData p vc s) := by
  unfold execProxyReadData
  try dsimp only [State.take]
  with_reducible repeat' first
    | assumption
    | apply KeepsCtl.next
    | apply State.endProxy_ctl
    | apply State.rxPop_ctl
    | split
    | simp only [State.ctl_mk]
    | dsimp only

theorem execProxyWriteAcknowledgement_ctl {p : Fin 8} {vc : Fin 4} {s : State} (h_s : s.Ctl r0) : KeepsCtl r0 (execProxyWriteAcknowledgement p vc s) := by
  unfold execProxyWriteAcknowledgement
  try dsimp only [State.take]
  with_reducible repeat' first
    | assumption
    | apply KeepsCtl.next
    | apply State.endProxy_ctl
    | apply State.rxPop_ctl
    | split
    | simp only [State.ctl_mk]

theorem execProxyTimeout_ctl {m : Fin 64} {s : State} (h_s : s.Ctl r0) : KeepsCtl r0 (execProxyTimeout m s) := by
  unfold execProxyTimeout
  try dsimp only [State.take]
  with_reducible repeat' first
    | assumption
    | apply KeepsCtl.next
    | apply State.failProxy_ctl
    | split
    | simp only [State.ctl_mk]

end Sys2Proof.Machine
end

