-- ==== Sys2Proof/Laws/ControlRnn.lean ====
section
/-!
SUPPORT. What the functions of Machine/Rnn.lean leave alone (Control.lean).
-/
namespace Sys2Proof.Machine

variable {r0 : MileSt × List (Nat × CanNode) × Pins × Clock × DroverSt}

theorem State.rnnBody_ctl {s : State} {e : Nat} {c : Cmd} {u3 : List Word} (h_s : s.Ctl r0) : (State.rnnBody s e c u3).out.Ctl r0 := by
  unfold State.rnnBody
  try dsimp only [State.take]
  with_reducible repeat' first
    | assumption
    | apply State.spWrite_ctl
    | apply State.ctl_foldl
    | (intro _ _ _; try dsimp only)
    | split
    | simp only [State.ctl_mk]
    | dsimp only

theorem execRnnStep_ctl {e : Fin 6} {hw : HwFault} {s : State} (h_s : s.Ctl r0) : KeepsCtl r0 (execRnnStep e hw s) := by
  unfold execRnnStep
  with_reducible repeat' first
    | assumption
    | apply KeepsCtl.next
    | apply State.command_ctl
    | apply State.rnnBody_ctl
    | (intro _ _; try dsimp only)

end Sys2Proof.Machine
end

