-- ==== Sys2Proof/Laws/ControlSlots.lean ====
section
/-!
SUPPORT. What the functions of Machine/Slots.lean leave alone (Control.lean).
-/
namespace Sys2Proof.Machine

variable {r0 : MileSt × List (Nat × CanNode) × Pins × Clock × DroverSt}

theorem State.sendNew_ctl {s : State} {p : Nat} {x : Port} {t : TxPkt} {i : Nat} (h_s : s.Ctl r0) : (State.sendNew s p x t i).Ctl r0 := by
  unfold State.sendNew
  try dsimp only [State.take]
  with_reducible repeat' first
    | assumption
    | apply State.setPort_ctl
    | apply State.giveBack_ctl
    | apply State.ctl_foldl
    | (intro _ _ _; try dsimp only)
    | split
    | simp only [State.ctl_mk]

theorem State.sendSlot_ctl {s : State} {p : Nat} (h_s : s.Ctl r0) : (State.sendSlot s p).Ctl r0 := by
  unfold State.sendSlot
  try dsimp only [State.take]
  with_reducible repeat' first
    | assumption
    | apply State.setPort_ctl
    | apply State.sendNew_ctl
    | apply State.ctl_foldl
    | (intro _ _ _; try dsimp only)
    | split
    | simp only [State.ctl_mk]

theorem State.sendSlots_ctl {s : State} (h_s : s.Ctl r0) : (State.sendSlots s).Ctl r0 := by
  unfold State.sendSlots
  try dsimp only [State.take]
  with_reducible repeat' first
    | assumption
    | apply State.sendSlot_ctl
    | apply State.ctl_foldl
    | (intro _ _ _; try dsimp only)
    | split
    | simp only [State.ctl_mk]

end Sys2Proof.Machine
end

