-- ==== Sys2Proof/Laws/ControlStep.lean ====
section
/-!
SUPPORT. What the functions of Machine/Step.lean leave alone (Control.lean).
-/
namespace Sys2Proof.Machine

variable {r0 : MileSt × List (Nat × CanNode) × Pins × Clock × DroverSt}

theorem State.withFetchWord_ctl {s : State} {nbits w : Nat} (h_s : s.Ctl r0) : (State.withFetchWord s nbits w).Ctl r0 := by
  unfold State.withFetchWord
  try dsimp only [State.take]
  with_reducible repeat' first
    | assumption
    | split
    | simp only [State.ctl_mk]

end Sys2Proof.Machine
end

