-- ==== Sys2Proof/Laws/Map.lean ====
section
/-!
SUPPORT. The laws of sparse storage: a store is read back, leaves every other key alone and keeps the canonical form; so does a drop.
-/
namespace Sys2Proof.Machine

variable {α : Type} [DecidableEq α] {d : Nat → α} {m : List (Nat × α)} {k j : Nat} {v : α} {lo : Option Nat}

/-- A key at or below the bound of a canonical list reads as unlisted. -/
theorem mapGet_of_le_bound {b : Nat} (h : mapWfFrom d (some b) m = true) (hk : k ≤ b) : mapGet d m k = d k := by
  induction m generalizing b with
  | nil => rfl
  | cons c r ih =>
    obtain ⟨c, w⟩ := c
    simp only [mapWfFrom, Bool.and_eq_true, decide_eq_true_eq] at h
    have hne : k ≠ c := by omega
    simp only [mapGet, if_neg hne]
    exact ih h.2 (by omega)

/-- A lower bound may be lowered. -/
theorem mapWfFrom_mono {b b' : Nat} (h : mapWfFrom d (some b) m = true) (hb : b' ≤ b) : mapWfFrom d (some b') m = true := by
  cases m with
  | nil => rfl
  | cons c r =>
    simp only [mapWfFrom, Bool.and_eq_true, decide_eq_true_eq] at h ⊢
    exact ⟨⟨by omega, h.1.2⟩, h.2⟩

/-- A bound may be dropped. -/
theorem mapWfFrom_none {b : Nat} (h : mapWfFrom d (some b) m = true) : mapWfFrom d none m = true := by
  cases m with
  | nil => rfl
  | cons c r =>
    simp only [mapWfFrom, Bool.and_eq_true, decide_eq_true_eq] at h ⊢
    exact ⟨h.1.2, h.2⟩

theorem mapSet_wfFrom {b : Nat} (h : mapWfFrom d (some b) m = true) (hk : b < k) :
    mapWfFrom d (some b) (mapSet d m k v) = true := by
  induction m generalizing b with
  | nil =>
    simp only [mapSet]
    split
    · rfl
    · simp [mapWfFrom, *]
  | cons c r ih =>
    obtain ⟨c, w⟩ := c
    simp only [mapWfFrom, Bool.and_eq_true, decide_eq_true_eq] at h
    simp only [mapSet]
    split
    · split
      · simp [mapWfFrom, h]
      · simp [mapWfFrom, *]
    · split
      · split
        · exact mapWfFrom_mono h.2 (by omega)
        · rename_i hkc hv
          subst hkc
          simp only [mapWfFrom, Bool.and_eq_true, decide_eq_true_eq]
          simp [*]
      · simp only [mapWfFrom, Bool.and_eq_true, decide_eq_true_eq]
        exact ⟨h.1, ih h.2 (by omega)⟩

/-- A store keeps the canonical form. -/
theorem mapSet_wf (h : mapWf d m = true) : mapWf d (mapSet d m k v) = true := by
  cases m with
  | nil =>
    simp only [mapSet]
    split
    · rfl
    · simp [mapWf, mapWfFrom, *]
  | cons c r =>
    obtain ⟨c, w⟩ := c
    simp only [mapWf, mapWfFrom, Bool.and_eq_true, decide_eq_true_eq] at h
    simp only [mapWf, mapSet]
    split
    · split
      · simp [mapWfFrom, h]
      · simp [mapWfFrom, *]
    · split
      · split
        · exact mapWfFrom_none h.2
        · rename_i hkc hv
          subst hkc
          simp only [mapWfFrom, Bool.and_eq_true, decide_eq_true_eq]
          simp [*]
      · simp only [mapWfFrom, Bool.and_eq_true, decide_eq_true_eq]
        exact ⟨h.1, mapSet_wfFrom h.2 (by omega)⟩

theorem mapDrop_wfFrom {b : Nat} {p : Nat → Bool} (h : mapWfFrom d (some b) m = true) :
    mapWfFrom d (some b) (mapDrop m p) = true := by
  induction m generalizing b with
  | nil => rfl
  | cons c r ih =>
    obtain ⟨c, w⟩ := c
    simp only [mapWfFrom, Bool.and_eq_true, decide_eq_true_eq] at h
    have hr := ih h.2
    simp only [mapDrop, List.filter] at hr ⊢
    split
    · simp only [mapWfFrom, Bool.and_eq_true, decide_eq_true_eq]
      exact ⟨h.1, hr⟩
    · exact mapWfFrom_mono hr (by omega)

/-- A drop keeps the canonical form. -/
theorem mapDrop_wf {p : Nat → Bool} (h : mapWf d m = true) : mapWf d (mapDrop m p) = true := by
  cases m with
  | nil => rfl
  | cons c r =>
    obtain ⟨c, w⟩ := c
    simp only [mapWf, mapWfFrom, Bool.and_eq_true, decide_eq_true_eq] at h
    have hr := mapDrop_wfFrom (p := p) h.2
    simp only [mapWf, mapDrop, List.filter] at hr ⊢
    split
    · simp only [mapWfFrom, Bool.and_eq_true, decide_eq_true_eq]
      exact ⟨h.1, hr⟩
    · exact mapWfFrom_none hr

theorem mapUpd_wf {f : α → α} (h : mapWf d m = true) : mapWf d (mapUpd d m k f) = true := mapSet_wf h

omit [DecidableEq α] in
@[simp] theorem mapGet_nil : mapGet d [] k = d k := rfl

theorem mapGet_mapSet_from {b : Nat} (h : mapWfFrom d (some b) m = true) :
    mapGet d (mapSet d m k v) j = if j = k then v else mapGet d m j := by
  induction m generalizing b with
  | nil =>
    simp only [mapSet]
    split
    · simp only [mapGet]
      split <;> simp_all
    · simp [mapGet]
  | cons c r ih =>
    obtain ⟨c, w⟩ := c
    simp only [mapWfFrom, Bool.and_eq_true, decide_eq_true_eq] at h
    simp only [mapSet]
    split
    · rename_i hlt
      split
      · rename_i hv
        split
        · subst j
          have hne : k ≠ c := by omega
          simp only [mapGet, if_neg hne, hv]
          exact mapGet_of_le_bound h.2 (by omega)
        · rfl
      · simp only [mapGet]
    · split
      · subst k
        split
        · rename_i hv
          split
          · subst j
            rw [hv]
            exact mapGet_of_le_bound h.2 (Nat.le_refl _)
          · simp [mapGet, *]
        · simp only [mapGet]
          split <;> rfl
      · rename_i hne
        simp only [mapGet]
        split
        · subst j
          have : c ≠ k := fun e => hne e.symm
          simp [this]
        · exact ih h.2

/-- In canonical form, a store is read back and leaves every other key alone. -/
theorem mapGet_mapSet (h : mapWf d m = true) : mapGet d (mapSet d m k v) j = if j = k then v else mapGet d m j := by
  cases m with
  | nil => exact mapGet_mapSet_from (b := 0) rfl
  | cons c r =>
    obtain ⟨c, w⟩ := c
    simp only [mapWf, mapWfFrom, Bool.and_eq_true, decide_eq_true_eq] at h
    by_cases hc : c = 0
    · subst hc
      simp only [mapSet, Nat.not_lt_zero, if_false]
      split
      · subst k
        split
        · rename_i hv
          split
          · subst j
            rw [hv]
            exact mapGet_of_le_bound h.2 (Nat.le_refl _)
          · simp [mapGet, *]
        · simp only [mapGet]
          split <;> rfl
      · rename_i hne
        simp only [mapGet]
        split
        · subst j
          simp [Ne.symm hne]
        · exact mapGet_mapSet_from h.2
    · refine mapGet_mapSet_from (b := 0) ?_
      simp only [mapWfFrom, Bool.and_eq_true, decide_eq_true_eq]
      exact ⟨⟨by omega, h.1⟩, h.2⟩

end Sys2Proof.Machine
end

