-- ==== Sys2Proof/Laws/Inv.lean ====
section
/-!
SUPPORT. The invariant of every step (Safety.lean): the state operations that the meanings are built from keep it. The files Keep*.lean say the
same of every function of the machine, one lemma each, in the order of the files of Machine/.
-/
namespace Sys2Proof.Machine
variable {made : Fuses}
/-- An outcome whose next state meets the invariant. -/
def Keeps (made : Fuses) (o : Host.Outcome State Fault Refusal) : Prop := ∀ t, o = .next t → t.Inv made

theorem Keeps.next {t : State} (h : t.Inv made) : Keeps made (.next t) := fun _ e => by cases e; exact h

section
variable {s : State}

theorem State.inv_iff : s.Inv made ↔ (((((((mapWf hbmDflt s.hbm = true ∧ mapWf hbmDflt s.spad = true) ∧ mapWf resetReg s.regs = true) ∧ mapWf dflt s.eng = true)
    ∧ mapWf dflt s.por = true) ∧ mapWf dflt s.queues = true) ∧ mapWf dflt s.tn = true) ∧ mapWf dflt s.bars = true)
    ∧ (s.log.fifo.length ≤ 128 ∧ s.ledger.queue.length ≤ 16) ∧ s.fuses.made = made := by
  simp only [State.Inv, State.canonical, State.bounded, Memory.wf, Bool.and_eq_true, decide_eq_true_eq]

/-- An update of fields the invariant does not speak of. -/
theorem State.inv_mk {p fr pins clk la rd ms os aq eq fd mi dr pe et ca ic} :
    State.Inv made (State.mk p fr s.fuses pins clk s.hbm s.spad s.regs la rd ms s.log s.ledger os s.eng s.por s.queues s.tn s.bars aq eq fd mi dr pe et ca ic)
      ↔ s.Inv made := Iff.rfl

/-- An update of the log that keeps its FIFO within its 128 entries. -/
theorem State.inv_log {lg : EventLog} {p fr pins clk la rd ms os aq eq fd mi dr pe et ca ic} (hb : lg.fifo.length ≤ 128) (h : s.Inv made) :
    State.Inv made (State.mk p fr s.fuses pins clk s.hbm s.spad s.regs la rd ms lg s.ledger os s.eng s.por s.queues s.tn s.bars aq eq fd mi dr pe et ca ic) := by
  obtain ⟨h1, h2, hf⟩ := State.inv_iff.1 h
  exact State.inv_iff.2 ⟨h1, ⟨hb, h2.2⟩, hf⟩

theorem State.inv_fifo (h : s.Inv made) : s.log.fifo.length ≤ 128 := (State.inv_iff.1 h).2.1.1
theorem State.inv_lqueue (h : s.Inv made) : s.ledger.queue.length ≤ 16 := (State.inv_iff.1 h).2.1.2

/-- An update of the barriers by canonical ones. -/
theorem State.inv_bars {bs : List (Nat × Barrier)} {p fr pins clk la rd ms os aq eq fd mi dr pe et ca ic} (hb : mapWf dflt bs = true) (h : s.Inv made) :
    State.Inv made (State.mk p fr s.fuses pins clk s.hbm s.spad s.regs la rd ms s.log s.ledger os s.eng s.por s.queues s.tn bs aq eq fd mi dr pe et ca ic) := by
  obtain ⟨⟨⟨⟨⟨⟨⟨⟨h1, h2⟩, h3⟩, h4⟩, h5⟩, h6⟩, h7⟩, _⟩, hf⟩ := State.inv_iff.1 h
  exact State.inv_iff.2 ⟨⟨⟨⟨⟨⟨⟨⟨h1, h2⟩, h3⟩, h4⟩, h5⟩, h6⟩, h7⟩, hb⟩, hf⟩

theorem foldl_wf {α β : Type} [DecidableEq α] {d : Nat → α} {f : List (Nat × α) → β → List (Nat × α)} {l : List β} {m : List (Nat × α)}
    (h : mapWf d m = true) (hf : ∀ m x, mapWf d m = true → mapWf d (f m x) = true) : mapWf d (l.foldl f m) = true := by
  induction l generalizing m with
  | nil => exact h
  | cons a r ih => exact ih (hf _ _ h)

theorem State.inv_bars_wf (h : s.Inv made) : mapWf dflt s.bars = true := (State.inv_iff.1 h).1.2

theorem State.inv_foldl {α : Type} {f : State → α → State} {l : List α} (h : s.Inv made)
    (hf : ∀ s x, s.Inv made → (f s x).Inv made) : (l.foldl f s).Inv made := by
  induction l generalizing s with
  | nil => exact h
  | cons a r ih => exact ih (hf _ _ h)

theorem State.inv_foldl_fst {α β : Type} {f : State × β → α → State × β} {l : List α} {t : State × β} (h : t.1.Inv made)
    (hf : ∀ t x, t.1.Inv made → (f t x).1.Inv made) : (l.foldl f t).1.Inv made := by
  induction l generalizing t with
  | nil => exact h
  | cons a r ih => exact ih (hf _ _ h)

theorem putBytes_wf {m : List Host.Cell} {a bs} (h : mapWf hbmDflt m = true) : mapWf hbmDflt (putBytes m a bs) = true := by
  induction bs generalizing m a with
  | nil => exact h
  | cons b r ih => exact ih (mapSet_wf h)

theorem State.wr_inv {a v} (h : s.Inv made) : (s.wr a v).Inv made := by
  unfold State.wr
  obtain ⟨⟨⟨⟨⟨⟨⟨⟨h1, h2⟩, h3⟩, h4⟩, h5⟩, h6⟩, h7⟩, h8⟩, hf⟩ := State.inv_iff.1 h
  exact State.inv_iff.2 ⟨⟨⟨⟨⟨⟨⟨⟨h1, h2⟩, mapSet_wf h3⟩, h4⟩, h5⟩, h6⟩, h7⟩, h8⟩, hf⟩

theorem State.resetRegs_inv {p} (h : s.Inv made) : (s.resetRegs p).Inv made := by
  unfold State.resetRegs
  obtain ⟨⟨⟨⟨⟨⟨⟨⟨h1, h2⟩, h3⟩, h4⟩, h5⟩, h6⟩, h7⟩, h8⟩, hf⟩ := State.inv_iff.1 h
  exact State.inv_iff.2 ⟨⟨⟨⟨⟨⟨⟨⟨h1, h2⟩, mapDrop_wf h3⟩, h4⟩, h5⟩, h6⟩, h7⟩, h8⟩, hf⟩

theorem State.setEngine_inv {e x} (h : s.Inv made) : (s.setEngine e x).Inv made := by
  unfold State.setEngine
  obtain ⟨⟨⟨⟨⟨⟨⟨⟨h1, h2⟩, h3⟩, h4⟩, h5⟩, h6⟩, h7⟩, h8⟩, hf⟩ := State.inv_iff.1 h
  exact State.inv_iff.2 ⟨⟨⟨⟨⟨⟨⟨⟨h1, h2⟩, h3⟩, mapSet_wf h4⟩, h5⟩, h6⟩, h7⟩, h8⟩, hf⟩

theorem State.setPorter_inv {e x} (h : s.Inv made) : (s.setPorter e x).Inv made := by
  unfold State.setPorter
  obtain ⟨⟨⟨⟨⟨⟨⟨⟨h1, h2⟩, h3⟩, h4⟩, h5⟩, h6⟩, h7⟩, h8⟩, hf⟩ := State.inv_iff.1 h
  exact State.inv_iff.2 ⟨⟨⟨⟨⟨⟨⟨⟨h1, h2⟩, h3⟩, h4⟩, mapSet_wf h5⟩, h6⟩, h7⟩, h8⟩, hf⟩

theorem State.setQueue_inv {e x} (h : s.Inv made) : (s.setQueue e x).Inv made := by
  unfold State.setQueue
  obtain ⟨⟨⟨⟨⟨⟨⟨⟨h1, h2⟩, h3⟩, h4⟩, h5⟩, h6⟩, h7⟩, h8⟩, hf⟩ := State.inv_iff.1 h
  exact State.inv_iff.2 ⟨⟨⟨⟨⟨⟨⟨⟨h1, h2⟩, h3⟩, h4⟩, h5⟩, mapSet_wf h6⟩, h7⟩, h8⟩, hf⟩

theorem State.setTenant_inv {e x} (h : s.Inv made) : (s.setTenant e x).Inv made := by
  unfold State.setTenant
  obtain ⟨⟨⟨⟨⟨⟨⟨⟨h1, h2⟩, h3⟩, h4⟩, h5⟩, h6⟩, h7⟩, h8⟩, hf⟩ := State.inv_iff.1 h
  exact State.inv_iff.2 ⟨⟨⟨⟨⟨⟨⟨⟨h1, h2⟩, h3⟩, h4⟩, h5⟩, h6⟩, mapSet_wf h7⟩, h8⟩, hf⟩

theorem State.setBar_inv {e x} (h : s.Inv made) : (s.setBar e x).Inv made := by
  unfold State.setBar
  obtain ⟨⟨⟨⟨⟨⟨⟨⟨h1, h2⟩, h3⟩, h4⟩, h5⟩, h6⟩, h7⟩, h8⟩, hf⟩ := State.inv_iff.1 h
  exact State.inv_iff.2 ⟨⟨⟨⟨⟨⟨⟨⟨h1, h2⟩, h3⟩, h4⟩, h5⟩, h6⟩, h7⟩, mapSet_wf h8⟩, hf⟩

theorem State.hbmPut_inv {a b} (h : s.Inv made) : (s.hbmPut a b).Inv made := by
  unfold State.hbmPut
  obtain ⟨⟨⟨⟨⟨⟨⟨⟨h1, h2⟩, h3⟩, h4⟩, h5⟩, h6⟩, h7⟩, h8⟩, hf⟩ := State.inv_iff.1 h
  exact State.inv_iff.2 ⟨⟨⟨⟨⟨⟨⟨⟨mapSet_wf h1, h2⟩, h3⟩, h4⟩, h5⟩, h6⟩, h7⟩, h8⟩, hf⟩

theorem State.hbmZero_inv {a b : Nat} (h : s.Inv made) : (s.hbmZero a b).Inv made := by
  unfold State.hbmZero
  obtain ⟨⟨⟨⟨⟨⟨⟨⟨h1, h2⟩, h3⟩, h4⟩, h5⟩, h6⟩, h7⟩, h8⟩, hf⟩ := State.inv_iff.1 h
  exact State.inv_iff.2 ⟨⟨⟨⟨⟨⟨⟨⟨mapDrop_wf (p := fun k => decide (a ≤ k ∧ k < b)) h1, h2⟩, h3⟩, h4⟩, h5⟩, h6⟩, h7⟩, h8⟩, hf⟩

theorem State.spZero_inv {e a b} (h : s.Inv made) : (s.spZero e a b).Inv made := by
  unfold State.spZero
  obtain ⟨⟨⟨⟨⟨⟨⟨⟨h1, h2⟩, h3⟩, h4⟩, h5⟩, h6⟩, h7⟩, h8⟩, hf⟩ := State.inv_iff.1 h
  exact State.inv_iff.2 ⟨⟨⟨⟨⟨⟨⟨⟨h1, mapDrop_wf (p := fun k => decide (spadKey e a ≤ k ∧ k < spadKey e b)) h2⟩, h3⟩, h4⟩, h5⟩, h6⟩, h7⟩, h8⟩, hf⟩

theorem State.hbmWrite_inv {a b} (h : s.Inv made) : (s.hbmWrite a b).Inv made := by
  unfold State.hbmWrite
  obtain ⟨⟨⟨⟨⟨⟨⟨⟨h1, h2⟩, h3⟩, h4⟩, h5⟩, h6⟩, h7⟩, h8⟩, hf⟩ := State.inv_iff.1 h
  exact State.inv_iff.2 ⟨⟨⟨⟨⟨⟨⟨⟨putBytes_wf h1, h2⟩, h3⟩, h4⟩, h5⟩, h6⟩, h7⟩, h8⟩, hf⟩

theorem State.spWrite_inv {e a b} (h : s.Inv made) : (s.spWrite e a b).Inv made := by
  unfold State.spWrite
  obtain ⟨⟨⟨⟨⟨⟨⟨⟨h1, h2⟩, h3⟩, h4⟩, h5⟩, h6⟩, h7⟩, h8⟩, hf⟩ := State.inv_iff.1 h
  exact State.inv_iff.2 ⟨⟨⟨⟨⟨⟨⟨⟨h1, putBytes_wf h2⟩, h3⟩, h4⟩, h5⟩, h6⟩, h7⟩, h8⟩, hf⟩

end

end Sys2Proof.Machine
end

