-- ==== Sys2Proof/Laws/KeepOps.lean ====
section
/-!
SUPPORT. Every function of Machine/Ops.lean keeps the invariant of the step.
-/
namespace Sys2Proof.Machine

variable {made : Fuses}

theorem State.pf_inv {s : State} {a hi lo v : Nat} (h_s : s.Inv made) : (State.pf s a hi lo v).Inv made := by
  unfold State.pf
  with_reducible repeat' first
    | assumption
    | apply State.wr_inv

theorem State.wb_inv {s : State} {a i : Nat} {b : Bool} (h_s : s.Inv made) : (State.wb s a i b).Inv made := by
  unfold State.wb
  with_reducible repeat' first
    | assumption
    | apply State.wr_inv

theorem State.incSat_inv {s : State} {a hi lo : Nat} (h_s : s.Inv made) : (State.incSat s a hi lo).Inv made := by
  unfold State.incSat
  with_reducible repeat' first
    | assumption
    | apply State.pf_inv

theorem State.addSat_inv {s : State} {a n : Nat} (h_s : s.Inv made) : (State.addSat s a n).Inv made := by
  unfold State.addSat
  with_reducible repeat' first
    | assumption
    | apply State.wr_inv

theorem State.wr64_inv {s : State} {lo v : Nat} (h_s : s.Inv made) : (State.wr64 s lo v).Inv made := by
  unfold State.wr64
  with_reducible repeat' first
    | assumption
    | apply State.wr_inv

theorem State.setPort_inv {s : State} {p : Nat} {x : Port} (h_s : s.Inv made) : (State.setPort s p x).Inv made := by
  unfold State.setPort
  try dsimp only [State.take]
  with_reducible repeat' first
    | assumption
    | simp only [State.inv_mk]

theorem State.setLb_inv {s : State} {k : Nat} {x : LinkBar} (h_s : s.Inv made) : (State.setLb s k x).Inv made := by
  unfold State.setLb
  try dsimp only [State.take]
  with_reducible repeat' first
    | assumption
    | simp only [State.inv_mk]

theorem State.setTnState_inv {s : State} {t v : Nat} (h_s : s.Inv made) : (State.setTnState s t v).Inv made := by
  unfold State.setTnState
  with_reducible repeat' first
    | assumption
    | apply State.pf_inv

theorem State.chargeHbm_inv {s : State} {t : Nat} {n : Nat} (h_s : s.Inv made) : (State.chargeHbm s t n).Inv made := by
  unfold State.chargeHbm
  try dsimp only [State.take]
  with_reducible repeat' first
    | assumption
    | apply State.setTenant_inv
    | apply State.inv_foldl
    | (intro _ _ _; try dsimp only)
    | split
    | simp only [State.inv_mk]

theorem State.chargeLink_inv {s : State} {t : Nat} {n : Nat} (h_s : s.Inv made) : (State.chargeLink s t n).Inv made := by
  unfold State.chargeLink
  try dsimp only [State.take]
  with_reducible repeat' first
    | assumption
    | apply State.setTenant_inv
    | apply State.inv_foldl
    | (intro _ _ _; try dsimp only)
    | split
    | simp only [State.inv_mk]

theorem State.chargeTime_inv {s : State} {t : Nat} {ns : Nat} (h_s : s.Inv made) : (State.chargeTime s t ns).Inv made := by
  unfold State.chargeTime
  try dsimp only [State.take]
  with_reducible repeat' first
    | assumption
    | apply State.setTenant_inv
    | apply State.inv_foldl
    | (intro _ _ _; try dsimp only)
    | split
    | simp only [State.inv_mk]

theorem State.take_inv {s : State} (h_s : s.Inv made) : (State.take s).2.Inv made := by
  unfold State.take
  try dsimp only [State.take]
  with_reducible repeat' first
    | assumption
    | apply State.inv_foldl
    | (intro _ _ _; try dsimp only)
    | split
    | simp only [State.inv_mk]

theorem State.take_inv_eq {s : State} {y : State} {x0_} (h_s : s.Inv made) (he : State.take s = (x0_, y)) : y.Inv made := by
  have h := State.take_inv (made := made) (s := s) h_s
  rw [he] at h
  exact h

theorem State.takeMany_inv {s : State} {n : Nat} (h_s : s.Inv made) : (State.takeMany s n).Inv made := by
  unfold State.takeMany
  try dsimp only [State.take]
  with_reducible repeat' first
    | assumption
    | apply State.inv_foldl
    | (intro _ _ _; try dsimp only)
    | split
    | simp only [State.inv_mk]

theorem State.sendMsix_inv {s : State} {f v : Nat} (h_s : s.Inv made) : (State.sendMsix s f v).Inv made := by
  unfold State.sendMsix
  try dsimp only [State.take]
  with_reducible repeat' first
    | assumption
    | simp only [State.inv_mk]

theorem State.sendTenantBits_inv {s : State} {n : Nat} {pend : Word} {k : Nat} (h_s : s.Inv made) : (s.sendTenantBits n pend k).Inv made := by
  induction k with
  | zero => exact h_s
  | succ k ih =>
    unfold State.sendTenantBits
    dsimp only
    split
    · exact State.sendMsix_inv ih
    · exact ih

theorem State.sendRoute_inv {s : State} {src : Nat} (h_s : s.Inv made) : (State.sendRoute s src).Inv made := by
  unfold State.sendRoute
  try dsimp only [State.take]
  with_reducible repeat' first
    | assumption
    | apply State.sendMsix_inv
    | split

theorem State.requestIrq_inv {s : State} {page : Nat} (h_s : s.Inv made) : (State.requestIrq s page).Inv made := by
  unfold State.requestIrq
  try dsimp only [State.take]
  with_reducible repeat' first
    | assumption
    | apply State.sendTenantBits_inv
    | apply State.sendRoute_inv
    | split
    | simp only [State.inv_mk]

theorem State.raiseBits_inv {s : State} {page : Nat} {m : Word} (h_s : s.Inv made) : (State.raiseBits s page m).Inv made := by
  unfold State.raiseBits
  try dsimp only [State.take]
  with_reducible repeat' first
    | assumption
    | apply State.wr_inv
    | apply State.requestIrq_inv
    | split

theorem State.raise_inv {s : State} {page bit : Nat} (h_s : s.Inv made) : (State.raise s page bit).Inv made := by
  unfold State.raise
  with_reducible repeat' first
    | assumption
    | apply State.raiseBits_inv

theorem State.logPush_inv {s : State} {cls : Nat} {r : LogRec} (h_s : s.Inv made) : (State.logPush s cls r).Inv made := by
  have h := State.inv_fifo h_s
  refine State.inv_log ?_ h_s
  split
  · exact h
  · split
    · simp only [List.length_append, List.length_singleton]
      omega
    · exact h

theorem State.logEvent_inv {s : State} {page code cls info tenant : Nat} (h_s : s.Inv made) : (State.logEvent s page code cls info tenant).Inv made := by
  unfold State.logEvent
  try dsimp only [State.take]
  with_reducible repeat' first
    | assumption
    | apply State.logPush_inv
    | split
    | simp only [State.inv_mk]

theorem State.logNamed_inv {s : State} {page ev cls info tenant : Nat} (h_s : s.Inv made) : (State.logNamed s page ev cls info tenant).Inv made := by
  unfold State.logNamed
  with_reducible repeat' first
    | assumption
    | apply State.logEvent_inv

theorem State.recordFault_inv {s : State} {page code info : Nat} (h_s : s.Inv made) : (State.recordFault s page code info).Inv made := by
  unfold State.recordFault
  try dsimp only [State.take]
  with_reducible repeat' first
    | assumption
    | apply State.wr_inv
    | apply State.pf_inv
    | apply State.incSat_inv
    | apply State.raise_inv
    | split

theorem State.hwNote_inv {s : State} {e : Nat} {hw : HwFault} (h_s : s.Inv made) : (State.hwNote s e hw).Inv made := by
  unfold State.hwNote
  try dsimp only [State.take]
  with_reducible repeat' first
    | assumption
    | apply State.wr_inv
    | apply State.pf_inv
    | apply State.incSat_inv
    | apply State.addSat_inv
    | apply State.wr64_inv
    | split
    | simp only [State.inv_mk]

theorem State.hbmNote_inv {s : State} {hw : HwFault} (h_s : s.Inv made) : (State.hbmNote s hw).Inv made := by
  unfold State.hbmNote
  try dsimp only [State.take]
  with_reducible repeat' first
    | assumption
    | apply State.hwNote_inv
    | apply State.inv_foldl
    | (intro _ _ _; try dsimp only)
    | split
    | simp only [State.inv_mk]

theorem State.setLstate_inv {s : State} {p v : Nat} (h_s : s.Inv made) : (State.setLstate s p v).Inv made := by
  unfold State.setLstate
  with_reducible repeat' first
    | assumption
    | apply State.pf_inv

theorem State.sendSb_inv {s : State} {w : SbWord} {p : Nat} (h_s : s.Inv made) : (State.sendSb s w p).Inv made := by
  unfold State.sendSb
  try dsimp only [State.take]
  with_reducible repeat' first
    | assumption
    | apply State.setPort_inv
    | simp only [State.inv_mk]

theorem State.flood_inv {s : State} {w : SbWord} {except : Nat} (h_s : s.Inv made) : (State.flood s w except).Inv made := by
  unfold State.flood
  with_reducible repeat' first
    | assumption
    | apply State.sendSb_inv
    | apply State.inv_foldl
    | (intro _ _ _; try dsimp only)

end Sys2Proof.Machine
end

