-- ==== Sys2Proof/Laws/KeepRoute.lean ====
section
/-!
SUPPORT. Every function of Machine/Route.lean keeps the invariant of the step.
-/
namespace Sys2Proof.Machine

variable {made : Fuses}

theorem State.giveBack_inv {s : State} {p : Nat} {vc : Nat} {n : Nat} (h_s : s.Inv made) : (State.giveBack s p vc n).Inv made := by
  unfold State.giveBack
  try dsimp only [State.take]
  with_reducible repeat' first
    | assumption
    | apply State.setPort_inv
    | apply State.inv_foldl
    | (intro _ _ _; try dsimp only)
    | split
    | simp only [State.inv_mk]

theorem State.pushTx_inv {s : State} {p : Nat} {t : TxPkt} (h_s : s.Inv made) : (State.pushTx s p t).Inv made := by
  unfold State.pushTx
  try dsimp only [State.take]
  with_reducible repeat' first
    | assumption
    | apply State.setPort_inv
    | apply State.inv_foldl
    | (intro _ _ _; try dsimp only)
    | split
    | simp only [State.inv_mk]

theorem State.enqueue_inv {s : State} {p : Nat} {vc : Nat} {k : Packet} (h_s : s.Inv made) : (State.enqueue s p vc k).Inv made := by
  unfold State.enqueue
  try dsimp only [State.take]
  with_reducible repeat' first
    | assumption
    | apply State.pushTx_inv
    | apply State.inv_foldl
    | (intro _ _ _; try dsimp only)
    | split
    | simp only [State.inv_mk]

end Sys2Proof.Machine
end

