-- ==== Sys2Proof/Laws/KeepPick.lean ====
section
/-!
SUPPORT. Every function of Machine/Pick.lean keeps the invariant of the step.
-/
namespace Sys2Proof.Machine

variable {made : Fuses}

theorem State.refill_inv {s : State} {qs : List Nat} (h_s : s.Inv made) : (State.refill s qs).Inv made := by
  unfold State.refill
  try dsimp only [State.take]
  with_reducible repeat' first
    | assumption
    | apply State.setQueue_inv
    | apply State.inv_foldl
    | (intro _ _ _; try dsimp only)
    | split
    | simp only [State.inv_mk]

theorem State.choose_inv_eq {s y : State} {rr cands q c} (h_s : s.Inv made) (e : State.choose s rr cands = some (q, c, y)) : y.Inv made := by
  unfold State.choose at e
  split at e
  · cases e
  · dsimp only at e
    split at e
    · cases e
    · cases e
      exact State.refill_inv h_s

theorem State.takeHead_inv {s : State} {q : Nat} (h_s : s.Inv made) : (State.takeHead s q).Inv made := by
  unfold State.takeHead
  try dsimp only [State.take]
  with_reducible repeat' first
    | assumption
    | apply State.setQueue_inv
    | split
    | simp only [State.inv_mk]

theorem State.dropWaitOn_inv {s : State} {e : Nat} {q : Nat} (h_s : s.Inv made) : (State.dropWaitOn s e q).Inv made := by
  unfold State.dropWaitOn
  try dsimp only [State.take]
  with_reducible repeat' first
    | assumption
    | apply State.setQueue_inv
    | apply State.wb_inv
    | apply State.inv_foldl
    | (intro _ _ _; try dsimp only)
    | split
    | simp only [State.inv_mk]

theorem State.clearTree_inv {s : State} {e t : Nat} (h_s : s.Inv made) : (State.clearTree s e t).Inv made := by
  unfold State.clearTree
  dsimp only
  refine State.inv_foldl (State.inv_bars (foldl_wf (State.inv_bars_wf h_s) fun m x hm => ?_) h_s) fun s x h => State.dropWaitOn_inv h
  split
  · exact mapUpd_wf hm
  · exact hm

theorem State.switchTo_inv {s : State} {e t : Nat} (h_s : s.Inv made) : (State.switchTo s e t).Inv made := by
  unfold State.switchTo
  try dsimp only [State.take]
  with_reducible repeat' first
    | assumption
    | apply State.wr_inv
    | apply State.setEngine_inv
    | apply State.clearTree_inv
    | apply State.chargeTime_inv
    | split
    | simp only [State.inv_mk]

theorem State.cutDeficit_inv {s : State} {q : Nat} (h_s : s.Inv made) : (State.cutDeficit s q).Inv made := by
  unfold State.cutDeficit
  try dsimp only [State.take]
  with_reducible repeat' first
    | assumption
    | apply State.setQueue_inv
    | apply State.inv_foldl
    | (intro _ _ _; try dsimp only)
    | split
    | simp only [State.inv_mk]

theorem State.boundary_inv {s : State} {e : Nat} (h_s : s.Inv made) : (State.boundary s e).Inv made := by
  unfold State.boundary
  try dsimp only [State.take]
  with_reducible repeat' first
    | assumption
    | apply State.cutDeficit_inv
    | apply State.setEngine_inv
    | apply State.takeHead_inv
    | refine State.choose_inv_eq ?_ (by assumption)
    | apply State.switchTo_inv
    | apply State.inv_foldl
    | (intro _ _ _; try dsimp only)
    | split
    | simp only [State.inv_mk]

theorem State.copyBoundary_inv {s : State} {p : Nat} (h_s : s.Inv made) : (State.copyBoundary s p).Inv made := by
  unfold State.copyBoundary
  try dsimp only [State.take]
  with_reducible repeat' first
    | assumption
    | apply State.cutDeficit_inv
    | apply State.takeHead_inv
    | refine State.choose_inv_eq ?_ (by assumption)
    | apply State.setPorter_inv
    | apply State.inv_foldl
    | (intro _ _ _; try dsimp only)
    | split
    | simp only [State.inv_mk]

theorem State.kick_inv {s : State} (h_s : s.Inv made) : (State.kick s).Inv made := by
  unfold State.kick
  try dsimp only [State.take]
  with_reducible repeat' first
    | assumption
    | apply State.boundary_inv
    | apply State.copyBoundary_inv
    | apply State.inv_foldl
    | (intro _ _ _; try dsimp only)

end Sys2Proof.Machine
end

