-- ==== Sys2Proof/Laws/KeepAbort.lean ====
section
/-!
SUPPORT. Every function of Machine/Abort.lean keeps the invariant of the step.
-/
namespace Sys2Proof.Machine

variable {made : Fuses}

theorem State.raiseQueueDone_inv {s : State} {q : Nat} (h_s : s.Inv made) : (State.raiseQueueDone s q).Inv made := by
  unfold State.raiseQueueDone
  with_reducible repeat' first
    | assumption
    | apply State.raise_inv

theorem State.writeRecord_inv {s : State} {c : Cmd} {status : Nat} {astat : Nat} {eng : Nat} (h_s : s.Inv made) : (State.writeRecord s c status astat eng).Inv made := by
  unfold State.writeRecord
  try dsimp only [State.take]
  with_reducible repeat' first
    | assumption
    | apply State.hbmWrite_inv
    | apply State.raiseQueueDone_inv
    | apply State.chargeHbm_inv
    | apply State.inv_foldl
    | (intro _ _ _; try dsimp only)
    | split
    | simp only [State.inv_mk]

theorem State.retire_inv {s : State} {q : Nat} {seq : Word} (h_s : s.Inv made) : (State.retire s q seq).Inv made := by
  unfold State.retire
  try dsimp only [State.take]
  with_reducible repeat' first
    | assumption
    | apply State.wr_inv
    | apply State.setQueue_inv
    | split
    | simp only [State.inv_mk]

theorem State.stopQueue_inv {s : State} {code q : Nat} (h_s : s.Inv made) : (State.stopQueue s code q).Inv made := by
  unfold State.stopQueue
  try dsimp only [State.take]
  with_reducible repeat' first
    | assumption
    | apply State.wr_inv
    | apply State.setQueue_inv
    | apply State.pf_inv
    | apply State.wb_inv

theorem State.stopRuns_inv {s : State} {t : Nat} (h_s : s.Inv made) : (State.stopRuns s t).Inv made := by
  unfold State.stopRuns
  try dsimp only [State.take]
  with_reducible repeat' first
    | assumption
    | apply State.setEngine_inv
    | apply State.setPorter_inv
    | apply State.inv_foldl
    | (intro _ _ _; try dsimp only)
    | split
    | simp only [State.inv_mk]

theorem State.cutSource_inv {s : State} {t : TxPkt} (h_s : s.Inv made) : (State.cutSource s t).Inv made := by
  unfold State.cutSource
  try dsimp only [State.take]
  with_reducible repeat' first
    | assumption
    | apply State.setPort_inv
    | apply State.inv_foldl
    | (intro _ _ _; try dsimp only)
    | split
    | simp only [State.inv_mk]

theorem State.purge_inv {s : State} {t : Nat} {epoch : Nat} (h_s : s.Inv made) : (State.purge s t epoch).Inv made := by
  unfold State.purge
  try dsimp only [State.take]
  with_reducible repeat' first
    | assumption
    | apply State.setPort_inv
    | apply State.cutSource_inv
    | apply State.inv_foldl
    | (intro _ _ _; try dsimp only)
    | split
    | simp only [State.inv_mk]

theorem State.clearTally_inv {s : State} {t : Nat} (h_s : s.Inv made) : (State.clearTally s t).Inv made := by
  unfold State.clearTally
  dsimp only
  refine State.inv_bars (foldl_wf (State.inv_bars_wf h_s) fun m x hm => ?_) h_s
  split <;> split <;> first
    | exact mapUpd_wf hm
    | exact hm

theorem State.zeroParts_inv {s : State} {t : Nat} (h_s : s.Inv made) : (State.zeroParts s t).Inv made := by
  unfold State.zeroParts
  try dsimp only [State.take]
  with_reducible repeat' first
    | assumption
    | apply State.spZero_inv
    | apply State.setEngine_inv
    | apply State.inv_foldl
    | (intro _ _ _; try dsimp only)
    | split
    | simp only [State.inv_mk]

theorem State.countDone_inv {s : State} {src : Nat} (h_s : s.Inv made) : (State.countDone s src).Inv made := by
  unfold State.countDone
  try dsimp only [State.take]
  with_reducible repeat' first
    | assumption
    | apply State.wr64_inv
    | apply State.raise_inv
    | split

theorem State.reportDone_inv {s : State} {t : Nat} (h_s : s.Inv made) : (State.reportDone s t).Inv made := by
  unfold State.reportDone
  try dsimp only [State.take]
  with_reducible repeat' first
    | assumption
    | apply State.sendSb_inv
    | apply State.countDone_inv
    | split
    | simp only [State.inv_mk]

theorem State.haltQueue_inv {s : State} {q : Nat} (h_s : s.Inv made) : (State.haltQueue s q).Inv made := by
  unfold State.haltQueue
  try dsimp only [State.take]
  with_reducible repeat' first
    | assumption
    | apply State.setQueue_inv
    | apply State.wb_inv
    | apply State.inv_foldl
    | (intro _ _ _; try dsimp only)
    | split
    | simp only [State.inv_mk]

theorem State.dropPicked_inv {s : State} {t : Nat} (h_s : s.Inv made) : (State.dropPicked s t).Inv made := by
  unfold State.dropPicked
  try dsimp only [State.take]
  with_reducible repeat' first
    | assumption
    | apply State.setEngine_inv
    | apply State.setPorter_inv
    | apply State.inv_foldl
    | (intro _ _ _; try dsimp only)
    | split
    | simp only [State.inv_mk]

theorem State.startRelease_inv {s : State} {t : Nat} (h_s : s.Inv made) : (State.startRelease s t).Inv made := by
  unfold State.startRelease
  try dsimp only [State.take]
  with_reducible repeat' first
    | assumption
    | apply State.setTenant_inv
    | apply State.haltQueue_inv
    | apply State.dropPicked_inv
    | apply State.wr_inv
    | apply State.wb_inv
    | apply State.setTnState_inv
    | apply State.pf_inv
    | apply State.inv_foldl
    | (intro _ _ _; try dsimp only)
    | split
    | simp only [State.inv_mk]

theorem State.finishAbort_inv {s : State} {t : Nat} (h_s : s.Inv made) : (State.finishAbort s t).Inv made := by
  unfold State.finishAbort
  try dsimp only [State.take]
  with_reducible repeat' first
    | assumption
    | apply State.setTnState_inv
    | apply State.reportDone_inv
    | apply State.startRelease_inv
    | split

theorem State.localAbort_inv {s : State} {t epoch origin code : Nat} (h_s : s.Inv made) : (State.localAbort s t epoch origin code).Inv made := by
  unfold State.localAbort
  try dsimp only [State.take]
  with_reducible repeat' first
    | assumption
    | apply State.wr_inv
    | apply State.pf_inv
    | apply State.wr64_inv
    | apply State.setTnState_inv
    | apply State.raise_inv
    | apply State.kick_inv
    | apply State.stopQueue_inv
    | apply State.stopRuns_inv
    | apply State.purge_inv
    | apply State.clearTally_inv
    | apply State.zeroParts_inv
    | apply State.finishAbort_inv
    | apply State.inv_foldl
    | (intro _ _ _; try dsimp only)
    | split

theorem State.abortJob_inv {s : State} {t code : Nat} (h_s : s.Inv made) : (State.abortJob s t code).Inv made := by
  unfold State.abortJob
  try dsimp only [State.take]
  with_reducible repeat' first
    | assumption
    | apply State.flood_inv
    | apply State.localAbort_inv
    | split

theorem State.jobFault_inv {s : State} {page code info t : Nat} (h_s : s.Inv made) : (State.jobFault s page code info t).Inv made := by
  unfold State.jobFault
  with_reducible repeat' first
    | assumption
    | apply State.logEvent_inv
    | apply State.recordFault_inv
    | apply State.abortJob_inv

theorem State.abortAll_inv {s : State} {code : Nat} (h_s : s.Inv made) : (State.abortAll s code).Inv made := by
  unfold State.abortAll
  with_reducible repeat' first
    | assumption
    | apply State.abortJob_inv
    | apply State.inv_foldl
    | (intro _ _ _; try dsimp only)

theorem State.regionConflict_inv {s : State} {t entry : Nat} (h_s : s.Inv made) : (State.regionConflict s t entry).Inv made := by
  unfold State.regionConflict
  try dsimp only [State.take]
  with_reducible repeat' first
    | assumption
    | apply State.pf_inv
    | apply State.wb_inv
    | apply State.raise_inv
    | apply State.logEvent_inv
    | apply State.recordFault_inv
    | apply State.abortAll_inv

theorem State.failCmd_inv {s : State} {page code info : Nat} {c : Cmd} {eng astat : Nat} (h_s : s.Inv made) : (State.failCmd s page code info c eng astat).Inv made := by
  unfold State.failCmd
  with_reducible repeat' first
    | assumption
    | apply State.writeRecord_inv
    | apply State.jobFault_inv

end Sys2Proof.Machine
end

