-- ==== Sys2Proof/Laws/KeepTally.lean ====
section
/-!
SUPPORT. Every function of Machine/Tally.lean keeps the invariant of the step.
-/
namespace Sys2Proof.Machine

variable {made : Fuses}

theorem State.deadFill_inv {s : State} {e : Nat} {t : Nat} (h_s : s.Inv made) : (State.deadFill s e t).Inv made := by
  unfold State.deadFill
  try dsimp only [State.take]
  with_reducible repeat' first
    | assumption
    | apply State.spWrite_inv
    | apply State.inv_foldl
    | (intro _ _ _; try dsimp only)
    | split
    | simp only [State.inv_mk]

theorem State.deadFills_inv {s : State} {t : Nat} (h_s : s.Inv made) : (State.deadFills s t).Inv made := by
  unfold State.deadFills
  try dsimp only [State.take]
  with_reducible repeat' first
    | assumption
    | apply State.deadFill_inv
    | apply State.inv_foldl
    | (intro _ _ _; try dsimp only)
    | split
    | simp only [State.inv_mk]

theorem State.endWait_inv {s : State} {q : Nat} {c : Cmd} (h_s : s.Inv made) : (State.endWait s q c).Inv made := by
  unfold State.endWait
  try dsimp only [State.take]
  with_reducible repeat' first
    | assumption
    | apply State.writeRecord_inv
    | apply State.setQueue_inv
    | apply State.retire_inv
    | apply State.wb_inv
    | apply State.deadFills_inv
    | apply State.inv_foldl
    | (intro _ _ _; try dsimp only)
    | split
    | simp only [State.inv_mk]

theorem State.satisfy_inv {s : State} {q : Nat} (h_s : s.Inv made) : (State.satisfy s q).Inv made := by
  unfold State.satisfy
  try dsimp only [State.take]
  with_reducible repeat' first
    | assumption
    | apply State.setQueue_inv
    | apply State.wb_inv
    | apply State.endWait_inv
    | split
    | simp only [State.inv_mk]

theorem State.register_inv {s : State} {q : Nat} {w : WaitReg} (h_s : s.Inv made) : (State.register s q w).Inv made := by
  unfold State.register
  try dsimp only [State.take]
  with_reducible repeat' first
    | assumption
    | apply State.setQueue_inv
    | apply State.wb_inv
    | simp only [State.inv_mk]

theorem State.tallyFault_inv {s : State} {b : BarId} {code part seq t : Nat} (h_s : s.Inv made) : (State.tallyFault s b code part seq t).Inv made := by
  unfold State.tallyFault
  with_reducible repeat' first
    | assumption
    | apply State.jobFault_inv

theorem State.tallyRefuse_inv {s : State} {b : BarId} {code : Nat} {c : Cmd} (h_s : s.Inv made) : (State.tallyRefuse s b code c).Inv made := by
  unfold State.tallyRefuse
  with_reducible repeat' first
    | assumption
    | apply State.writeRecord_inv
    | apply State.tallyFault_inv

theorem State.evalHead_inv {s : State} {q : Nat} (h_s : s.Inv made) : (State.evalHead s q).Inv made := by
  unfold State.evalHead
  try dsimp only [State.take]
  with_reducible repeat' first
    | assumption
    | apply State.setQueue_inv
    | apply State.register_inv
    | apply State.tallyRefuse_inv
    | split
    | simp only [State.inv_mk]

theorem State.advance_inv {s : State} (h_s : s.Inv made) : (State.advance s).Inv made := by
  unfold State.advance
  with_reducible repeat' first
    | assumption
    | apply State.kick_inv
    | apply State.evalHead_inv
    | apply State.inv_foldl
    | (intro _ _ _; try dsimp only)

theorem State.setDp_inv {s : State} {d : Nat} {x : Datapath} (h_s : s.Inv made) : (State.setDp s d x).Inv made := by
  unfold State.setDp
  try dsimp only [State.take]
  with_reducible repeat' first
    | assumption
    | simp only [State.inv_mk]

theorem State.setTh_inv {s : State} {c : Nat} {x : Thresher} (h_s : s.Inv made) : (State.setTh s c x).Inv made := by
  unfold State.setTh
  try dsimp only [State.take]
  with_reducible repeat' first
    | assumption
    | simp only [State.inv_mk]

theorem State.roiRelease_inv {s : State} {n : Nat} (h_s : s.Inv made) : (State.roiRelease s n).Inv made := by
  unfold State.roiRelease
  try dsimp only [State.take]
  with_reducible repeat' first
    | assumption
    | apply State.setTh_inv
    | apply State.inv_foldl
    | (intro _ _ _; try dsimp only)
    | split
    | simp only [State.inv_mk]

theorem State.mailboxRelease_inv {s : State} {b : BarId} (h_s : s.Inv made) : (State.mailboxRelease s b).Inv made := by
  unfold State.mailboxRelease
  try dsimp only [State.take]
  with_reducible repeat' first
    | assumption
    | apply State.setDp_inv
    | apply State.roiRelease_inv
    | apply State.inv_foldl
    | (intro _ _ _; try dsimp only)
    | split
    | simp only [State.inv_mk]
    | dsimp only

theorem State.releaseOk_inv {s : State} {b : BarId} (h_s : s.Inv made) : (State.releaseOk s b).Inv made := by
  unfold State.releaseOk
  try dsimp only [State.take]
  with_reducible repeat' first
    | assumption
    | apply State.setBar_inv
    | apply State.satisfy_inv
    | apply State.mailboxRelease_inv
    | apply State.inv_foldl
    | (intro _ _ _; try dsimp only)
    | (intro _ _; try dsimp only)

theorem State.failWaits_inv {s : State} {code : Nat} {p : WaitReg → Bool} (h_s : s.Inv made) : (State.failWaits s code p).Inv made := by
  unfold State.failWaits
  try dsimp only [State.take]
  with_reducible repeat' first
    | assumption
    | apply State.writeRecord_inv
    | apply State.inv_foldl
    | (intro _ _ _; try dsimp only)
    | split
    | simp only [State.inv_mk]

theorem State.endGen_inv {s : State} {b : BarId} {status : Nat} (h_s : s.Inv made) : (State.endGen s b status).Inv made := by
  unfold State.endGen
  try dsimp only [State.take]
  with_reducible repeat' first
    | assumption
    | apply State.mailboxRelease_inv
    | apply State.failWaits_inv
    | apply State.setBar_inv
    | apply State.inv_foldl
    | (intro _ _ _; try dsimp only)
    | split
    | simp only [State.inv_mk]

theorem State.releaseBad_inv {s : State} {b : BarId} {status : Nat} {part : Nat} {seq : Nat} (h_s : s.Inv made) : (State.releaseBad s b status part seq).Inv made := by
  unfold State.releaseBad
  try dsimp only [State.take]
  with_reducible repeat' first
    | assumption
    | apply State.tallyFault_inv
    | apply State.endGen_inv
    | apply State.inv_foldl
    | (intro _ _ _; try dsimp only)
    | split
    | simp only [State.inv_mk]

theorem State.endPipe_inv {s : State} {b : BarId} {status : Nat} (h_s : s.Inv made) : (State.endPipe s b status).Inv made := by
  unfold State.endPipe
  try dsimp only [State.take]
  with_reducible repeat' first
    | assumption
    | apply State.failWaits_inv
    | apply State.setBar_inv
    | apply State.inv_foldl
    | (intro _ _ _; try dsimp only)
    | split
    | simp only [State.inv_mk]

theorem State.pipeBad_inv {s : State} {b : BarId} {status : Nat} {part : Nat} {seq : Nat} (h_s : s.Inv made) : (State.pipeBad s b status part seq).Inv made := by
  unfold State.pipeBad
  try dsimp only [State.take]
  with_reducible repeat' first
    | assumption
    | apply State.endPipe_inv
    | apply State.tallyFault_inv
    | apply State.inv_foldl
    | (intro _ _ _; try dsimp only)
    | split
    | simp only [State.inv_mk]

theorem State.evalPipe_inv {s : State} {b : BarId} (h_s : s.Inv made) : (State.evalPipe s b).Inv made := by
  unfold State.evalPipe
  try dsimp only [State.take]
  with_reducible repeat' first
    | assumption
    | apply State.satisfy_inv
    | apply State.inv_foldl
    | (intro _ _ _; try dsimp only)
    | split
    | simp only [State.inv_mk]

theorem State.arrive_inv {s : State} {a : Arrival} (h_s : s.Inv made) : (State.arrive s a).Inv made := by
  unfold State.arrive
  try dsimp only [State.take]
  with_reducible repeat' first
    | assumption
    | apply State.setBar_inv
    | apply State.tallyFault_inv
    | apply State.releaseOk_inv
    | apply State.releaseBad_inv
    | apply State.pipeBad_inv
    | apply State.evalPipe_inv
    | split
    | simp only [State.inv_mk]

theorem State.sendArrival_inv {s : State} {a : Arrival} (h_s : s.Inv made) : (State.sendArrival s a).Inv made := by
  unfold State.sendArrival
  try dsimp only [State.take]
  with_reducible repeat' first
    | assumption
    | simp only [State.inv_mk]

theorem State.countArrival_inv {s : State} {a : Arrival} (h_s : s.Inv made) : (State.countArrival s a).Inv made := by
  unfold State.countArrival
  try dsimp only [State.take]
  with_reducible repeat' first
    | assumption
    | apply State.setTenant_inv
    | apply State.arrive_inv
    | apply State.inv_foldl
    | (intro _ _ _; try dsimp only)
    | split
    | simp only [State.inv_mk]

theorem State.countArrivals_inv {s : State} {n : Nat} (h_s : s.Inv made) : (State.countArrivals s n).Inv made := by
  unfold State.countArrivals
  try dsimp only [State.take]
  with_reducible repeat' first
    | assumption
    | apply State.countArrival_inv
    | apply State.inv_foldl
    | (intro _ _ _; try dsimp only)
    | split
    | simp only [State.inv_mk]

theorem execTallyArrival_inv {also : Nat} {s : State} (h_s : s.Inv made) : Keeps made (execTallyArrival also s) := by
  unfold execTallyArrival
  try dsimp only [State.take]
  with_reducible repeat' first
    | assumption
    | apply Keeps.next
    | apply State.countArrivals_inv
    | apply State.advance_inv
    | apply State.inv_foldl
    | (intro _ _ _; try dsimp only)
    | split
    | simp only [State.inv_mk]

theorem execCarryRelease_inv {b : BarId} {s : State} (h_s : s.Inv made) : Keeps made (execCarryRelease b s) := by
  unfold execCarryRelease
  with_reducible repeat' first
    | assumption
    | apply Keeps.next
    | apply State.advance_inv
    | apply State.releaseOk_inv
    | split

theorem execBarrierTimeout_inv {b : BarId} {also : Nat} {s : State} (h_s : s.Inv made) : Keeps made (execBarrierTimeout b also s) := by
  unfold execBarrierTimeout
  try dsimp only [State.take]
  with_reducible repeat' first
    | assumption
    | apply Keeps.next
    | apply State.releaseBad_inv
    | apply State.take_inv
    | refine State.take_inv_eq ?_ (by assumption)
    | apply State.countArrivals_inv
    | apply State.advance_inv
    | apply State.inv_foldl
    | (intro _ _ _; try dsimp only)
    | split
    | simp only [State.inv_mk]

theorem execTallyTimeout_inv {q : Fin 32} {also : Nat} {s : State} (h_s : s.Inv made) : Keeps made (execTallyTimeout q also s) := by
  unfold execTallyTimeout
  try dsimp only [State.take]
  with_reducible repeat' first
    | assumption
    | apply Keeps.next
    | apply State.writeRecord_inv
    | apply State.jobFault_inv
    | apply State.tallyFault_inv
    | apply State.countArrivals_inv
    | apply State.advance_inv
    | apply State.inv_foldl
    | (intro _ _ _; try dsimp only)
    | split
    | simp only [State.inv_mk]

theorem State.tallyErr_inv {s : State} {b : BarId} {bit : Nat} (h_s : s.Inv made) : (State.tallyErr s b bit).Inv made := by
  unfold State.tallyErr
  try dsimp only [State.take]
  with_reducible repeat' first
    | assumption
    | apply State.pf_inv
    | apply State.wb_inv
    | split
    | simp only [State.inv_mk]

theorem State.tallyCfg_inv {s : State} {f : Func} {b : BarId} {part : Bool} {v : Word} {coll : Bool} (h_s : s.Inv made) : (State.tallyCfg s f b part v coll).Inv made := by
  unfold State.tallyCfg
  try dsimp only [State.take]
  with_reducible repeat' first
    | assumption
    | apply State.wr_inv
    | apply State.tallyErr_inv
    | split
    | simp only [State.inv_mk]

end Sys2Proof.Machine
end

