-- ==== Sys2Proof/Laws/KeepAccess.lean ====
section
/-!
SUPPORT. Every function of Machine/Access.lean keeps the invariant of the step.
-/
namespace Sys2Proof.Machine

variable {made : Fuses}

theorem State.guarded_inv {s : State} {f : Func} {a : Nat} {k : State → State} (h_s : s.Inv made) (h_k : ∀ s, s.Inv made → (k s).Inv made) : (State.guarded s f a k).Inv made := by
  unfold State.guarded
  with_reducible repeat' first
    | assumption
    | (apply h_k)
    | split

theorem State.store_inv {s : State} {f : Func} {a : Nat} {v hwSet : Word} (h_s : s.Inv made) : (State.store s f a v hwSet).Inv made := by
  unfold State.store
  try dsimp only [State.take]
  with_reducible repeat' first
    | assumption
    | apply State.wr_inv
    | split
    | simp only [State.inv_mk]

end Sys2Proof.Machine
end

