-- ==== Sys2Proof/Laws/KeepGroups.lean ====
section
/-!
SUPPORT. Every function of Machine/Groups.lean keeps the invariant of the step.
-/
namespace Sys2Proof.Machine

variable {made : Fuses}

theorem State.setAxis_inv {s : State} {a : Nat} {x : Axis} (h_s : s.Inv made) : (State.setAxis s a x).Inv made := by
  unfold State.setAxis
  try dsimp only [State.take]
  with_reducible repeat' first
    | assumption
    | simp only [State.inv_mk]

theorem State.setEnc_inv {s : State} {n : Nat} {x : Enc} (h_s : s.Inv made) : (State.setEnc s n x).Inv made := by
  unfold State.setEnc
  try dsimp only [State.take]
  with_reducible repeat' first
    | assumption
    | simp only [State.inv_mk]

theorem State.setAlink_inv {s : State} {g : Nat} {x : ALink} (h_s : s.Inv made) : (State.setAlink s g x).Inv made := by
  unfold State.setAlink
  try dsimp only [State.take]
  with_reducible repeat' first
    | assumption
    | simp only [State.inv_mk]

theorem State.setAxState_inv {s : State} {a v : Nat} (h_s : s.Inv made) : (State.setAxState s a v).Inv made := by
  unfold State.setAxState
  with_reducible repeat' first
    | assumption
    | apply State.pf_inv

theorem State.updPins_inv {s : State} (h_s : s.Inv made) : (State.updPins s).Inv made := by
  unfold State.updPins
  try dsimp only [State.take]
  with_reducible repeat' first
    | assumption
    | apply State.pf_inv
    | apply State.inv_foldl
    | (intro _ _ _; try dsimp only)
    | split
    | simp only [State.inv_mk]

theorem State.setSto_inv {s : State} {g : Nat} {b : Bool} (h_s : s.Inv made) : (State.setSto s g b).Inv made := by
  unfold State.setSto
  try dsimp only [State.take]
  with_reducible repeat' first
    | assumption
    | apply State.updPins_inv
    | split
    | simp only [State.inv_mk]
    | dsimp only

theorem State.setBrake_inv {s : State} {g : Nat} {b : Bool} (h_s : s.Inv made) : (State.setBrake s g b).Inv made := by
  unfold State.setBrake
  try dsimp only [State.take]
  with_reducible repeat' first
    | assumption
    | apply State.updPins_inv
    | split
    | simp only [State.inv_mk]
    | dsimp only

theorem State.forceStoB_inv {s : State} {m : BitVec 12} (h_s : s.Inv made) : (State.forceStoB s m).Inv made := by
  unfold State.forceStoB
  try dsimp only [State.take]
  with_reducible repeat' first
    | assumption
    | apply State.updPins_inv
    | simp only [State.inv_mk]
    | dsimp only

theorem State.forceAll_inv {s : State} (h_s : s.Inv made) : (State.forceAll s).Inv made := by
  unfold State.forceAll
  try dsimp only [State.take]
  with_reducible repeat' first
    | assumption
    | apply State.updPins_inv
    | simp only [State.inv_mk]
    | dsimp only

theorem State.drvEvent_inv {s : State} {page code : Nat} (h_s : s.Inv made) : (State.drvEvent s page code).Inv made := by
  unfold State.drvEvent
  try dsimp only [State.take]
  with_reducible repeat' first
    | assumption
    | apply State.logEvent_inv
    | apply State.recordFault_inv
    | split
    | simp only [State.inv_mk]

theorem State.showForm_inv {s : State} {g : Nat} (h_s : s.Inv made) : (State.showForm s g).Inv made := by
  unfold State.showForm
  with_reducible repeat' first
    | assumption
    | apply State.pf_inv
    | apply State.inv_foldl
    | (intro _ _ _; try dsimp only)

theorem State.torqueOff_inv {s : State} {g : Nat} (h_s : s.Inv made) : (State.torqueOff s g).Inv made := by
  unfold State.torqueOff
  try dsimp only [State.take]
  with_reducible repeat' first
    | assumption
    | apply State.wb_inv
    | apply State.setAxis_inv
    | apply State.setAxState_inv
    | apply State.setSto_inv
    | apply State.setBrake_inv
    | apply State.showForm_inv
    | apply State.inv_foldl
    | (intro _ _ _; try dsimp only)
    | simp only [State.inv_mk]

theorem State.startForm_inv {s : State} {a f : Nat} (h_s : s.Inv made) : (State.startForm s a f).Inv made := by
  unfold State.startForm
  try dsimp only [State.take]
  with_reducible repeat' first
    | assumption
    | apply State.setAxis_inv
    | apply State.setAxState_inv
    | apply State.setBrake_inv
    | split
    | simp only [State.inv_mk]

theorem State.trigger_inv {s : State} {g want : Nat} {own : Nat → Bool} (h_s : s.Inv made) : (State.trigger s g want own).Inv made := by
  unfold State.trigger
  try dsimp only [State.take]
  with_reducible repeat' first
    | assumption
    | apply State.showForm_inv
    | apply State.torqueOff_inv
    | apply State.startForm_inv
    | apply State.inv_foldl
    | (intro _ _ _; try dsimp only)
    | split

theorem State.endForm_inv {s : State} {p : Nat → Bool} {g : Nat} (h_s : s.Inv made) : (State.endForm s p g).Inv made := by
  unfold State.endForm
  try dsimp only [State.take]
  with_reducible repeat' first
    | assumption
    | apply State.setAxis_inv
    | apply State.torqueOff_inv
    | apply State.inv_foldl
    | (intro _ _ _; try dsimp only)
    | split
    | simp only [State.inv_mk]

theorem State.slotEnd_inv {s : State} {i : Nat} (h_s : s.Inv made) : (State.slotEnd s i).Inv made := by
  unfold State.slotEnd
  with_reducible repeat' first
    | assumption
    | apply State.wb_inv
    | split

theorem State.slotFresh_inv {s : State} {i : Nat} (h_s : s.Inv made) : (State.slotFresh s i).Inv made := by
  unfold State.slotFresh
  try dsimp only [State.take]
  with_reducible repeat' first
    | assumption
    | apply State.wb_inv
    | apply State.slotEnd_inv
    | simp only [State.inv_mk]
    | dsimp only

theorem State.wardenFresh_inv {s : State} {ty target : Nat} (h_s : s.Inv made) : (State.wardenFresh s ty target).Inv made := by
  unfold State.wardenFresh
  with_reducible repeat' first
    | assumption
    | apply State.slotFresh_inv
    | apply State.inv_foldl
    | (intro _ _ _; try dsimp only)
    | split

theorem State.wardenExpired_inv {s : State} {dv : Nat} (h_s : s.Inv made) : (State.wardenExpired s dv).Inv made := by
  unfold State.wardenExpired
  with_reducible repeat' first
    | assumption
    | apply State.wb_inv
    | apply State.inv_foldl
    | (intro _ _ _; try dsimp only)
    | split

theorem State.srcLost_inv {s : State} {g : Nat} (h_s : s.Inv made) : (State.srcLost s g).Inv made := by
  unfold State.srcLost
  try dsimp only [State.take]
  with_reducible repeat' first
    | assumption
    | apply State.pf_inv
    | apply State.raise_inv
    | apply State.logNamed_inv
    | apply State.trigger_inv
    | apply State.inv_foldl
    | (intro _ _ _; try dsimp only)
    | split
    | simp only [State.inv_mk]

theorem State.stoFbErr_inv {s : State} {g : Nat} (h_s : s.Inv made) : (State.stoFbErr s g).Inv made := by
  unfold State.stoFbErr
  with_reducible repeat' first
    | assumption
    | apply State.forceStoB_inv
    | apply State.drvEvent_inv
    | apply State.torqueOff_inv

theorem State.dpFallback_inv {s : State} {d : Nat} (h_s : s.Inv made) : (State.dpFallback s d).Inv made := by
  unfold State.dpFallback
  with_reducible repeat' first
    | assumption
    | apply State.trigger_inv
    | apply State.inv_foldl
    | (intro _ _ _; try dsimp only)

end Sys2Proof.Machine
end

