-- ==== Sys2Proof/Laws/KeepMilepost.lean ====
section
/-!
SUPPORT. Every function of Machine/Milepost.lean keeps the invariant of the step.
-/
namespace Sys2Proof.Machine

variable {made : Fuses}

theorem State.setGen_inv {s : State} {g : Nat} {x : Gen} (h_s : s.Inv made) : (State.setGen s g x).Inv made := by
  unfold State.setGen
  try dsimp only [State.take]
  with_reducible repeat' first
    | assumption
    | simp only [State.inv_mk]

theorem State.setWbEntry_inv {s : State} {e : Nat} {x : WbEntry} (h_s : s.Inv made) : (State.setWbEntry s e x).Inv made := by
  unfold State.setWbEntry
  try dsimp only [State.take]
  with_reducible repeat' first
    | assumption
    | simp only [State.inv_mk]

theorem State.rearm_inv {s : State} {g : Nat} (h_s : s.Inv made) : (State.rearm s g).Inv made := by
  unfold State.rearm
  with_reducible repeat' first
    | assumption
    | apply State.setWbEntry_inv
    | apply State.inv_foldl
    | (intro _ _ _; try dsimp only)
    | split

theorem State.markLate_inv {s : State} {e : Nat} (h_s : s.Inv made) : (State.markLate s e).Inv made := by
  unfold State.markLate
  try dsimp only [State.take]
  with_reducible repeat' first
    | assumption
    | apply State.wb_inv
    | apply State.addSat_inv
    | apply State.raise_inv
    | apply State.logNamed_inv

theorem State.pushDue_inv {s : State} {g e : Nat} {late : Bool} (h_s : s.Inv made) : (State.pushDue s g e late).Inv made := by
  unfold State.pushDue
  try dsimp only [State.take]
  with_reducible repeat' first
    | assumption
    | apply State.markLate_inv
    | split
    | simp only [State.inv_mk]

theorem State.moveEntries_inv {s : State} {g m a b : Nat} {quiet : Bool} (h_s : s.Inv made) : (State.moveEntries s g m a b quiet).1.Inv made := by
  unfold State.moveEntries
  dsimp only
  refine State.inv_foldl_fst h_s fun t x h => ?_
  split
  · exact State.setWbEntry_inv h
  · exact h

theorem State.moveEntries_inv_eq {s y : State} {g m a b : Nat} {quiet : Bool} {x} (h_s : s.Inv made) (he : State.moveEntries s g m a b quiet = (y, x)) :
    y.Inv made := by
  have h := State.moveEntries_inv (made := made) (g := g) (m := m) (a := a) (b := b) (quiet := quiet) h_s
  rw [he] at h
  exact h

theorem State.showMove_inv {s : State} {g b : Nat} {far : Int} (h_s : s.Inv made) : (State.showMove s g b far).Inv made := by
  unfold State.showMove
  try dsimp only [State.take]
  with_reducible repeat' first
    | assumption
    | apply State.wr_inv
    | apply State.wb_inv
    | split

theorem State.pgMove_inv {s : State} {g : Nat} {a : Nat} {b : Nat} {v : Move} (h_s : s.Inv made) : (State.pgMove s g a b v).Inv made := by
  unfold State.pgMove
  try dsimp only [State.take]
  with_reducible repeat' first
    | assumption
    | apply State.moveEntries_inv
    | refine State.moveEntries_inv_eq ?_ (by assumption)
    | apply State.logNamed_inv
    | apply State.showMove_inv
    | apply State.raise_inv
    | apply State.wb_inv
    | apply State.pushDue_inv
    | apply State.rearm_inv
    | apply State.inv_foldl
    | (intro _ _ _; try dsimp only)
    | split
    | simp only [State.inv_mk]

theorem State.moveTo_inv {s : State} {g : Nat} {x : Gen} {v : Move} (h_s : s.Inv made) : (State.moveTo s g x v).Inv made := by
  unfold State.moveTo
  try dsimp only [State.take]
  with_reducible repeat' first
    | assumption
    | apply State.setGen_inv
    | apply State.pgMove_inv
    | apply State.inv_foldl
    | (intro _ _ _; try dsimp only)
    | split
    | simp only [State.inv_mk]

theorem State.startGen_inv {s : State} {g : Nat} (h_s : s.Inv made) : (State.startGen s g).Inv made := by
  unfold State.startGen
  with_reducible repeat' first
    | assumption
    | apply State.wr_inv
    | apply State.pf_inv
    | apply State.rearm_inv

theorem State.shaftMove_inv {s : State} {n : Nat} {c : Int} (h_s : s.Inv made) : (State.shaftMove s n c).Inv made := by
  unfold State.shaftMove
  try dsimp only [State.take]
  with_reducible repeat' first
    | assumption
    | apply State.moveTo_inv
    | apply State.inv_foldl
    | (intro _ _ _; try dsimp only)
    | split
    | simp only [State.inv_mk]

theorem State.shaftLost_inv {s : State} {n : Nat} (h_s : s.Inv made) : (State.shaftLost s n).Inv made := by
  unfold State.shaftLost
  with_reducible repeat' first
    | assumption
    | apply State.srcLost_inv
    | apply State.inv_foldl
    | (intro _ _ _; try dsimp only)

theorem State.tickGen_inv {s : State} {g : Nat} {ns : Nat} (h_s : s.Inv made) : (State.tickGen s g ns).Inv made := by
  unfold State.tickGen
  try dsimp only [State.take]
  with_reducible repeat' first
    | assumption
    | apply State.moveTo_inv
    | apply State.inv_foldl
    | (intro _ _ _; try dsimp only)
    | split
    | simp only [State.inv_mk]

theorem State.tickMile_inv {s : State} (h_s : s.Inv made) : (State.tickMile s).Inv made := by
  unfold State.tickMile
  try dsimp only [State.take]
  with_reducible repeat' first
    | assumption
    | apply State.tickGen_inv
    | apply State.inv_foldl
    | (intro _ _ _; try dsimp only)
    | simp only [State.inv_mk]

theorem State.applyChange_inv {s : State} {c : Change} (h_s : s.Inv made) : (State.applyChange s c).Inv made := by
  unfold State.applyChange
  try dsimp only [State.take]
  with_reducible repeat' first
    | assumption
    | apply State.moveTo_inv
    | apply State.setGen_inv
    | apply State.inv_foldl
    | (intro _ _ _; try dsimp only)
    | split
    | simp only [State.inv_mk]

theorem execTimebaseChange_inv {s : State} (h_s : s.Inv made) : Keeps made (execTimebaseChange s) := by
  unfold execTimebaseChange
  try dsimp only [State.take]
  with_reducible repeat' first
    | assumption
    | apply Keeps.next
    | apply State.applyChange_inv
    | split
    | simp only [State.inv_mk]
    | dsimp only

theorem State.addChange_inv {s : State} {c : Change} (h_s : s.Inv made) : (State.addChange s c).Inv made := by
  unfold State.addChange
  try dsimp only [State.take]
  with_reducible repeat' first
    | assumption
    | simp only [State.inv_mk]

theorem State.dropEntries_inv {s : State} {g : Nat} (h_s : s.Inv made) : (State.dropEntries s g).Inv made := by
  unfold State.dropEntries
  try dsimp only [State.take]
  with_reducible repeat' first
    | assumption
    | apply State.pf_inv
    | apply State.wb_inv
    | apply State.setWbEntry_inv
    | apply State.inv_foldl
    | (intro _ _ _; try dsimp only)
    | split
    | simp only [State.inv_mk]

theorem State.pgStart_inv {s : State} {g : Nat} (h_s : s.Inv made) : (State.pgStart s g).Inv made := by
  unfold State.pgStart
  try dsimp only [State.take]
  with_reducible repeat' first
    | assumption
    | apply State.wr_inv
    | apply State.pf_inv
    | apply State.wb_inv
    | apply State.srcLost_inv
    | apply State.setGen_inv
    | apply State.startGen_inv
    | apply State.dropEntries_inv
    | split
    | simp only [State.inv_mk]

theorem State.wrPgCfg_inv {s : State} {f : Func} {g : Nat} {v : Word} (h_s : s.Inv made) : (State.wrPgCfg s f g v).Inv made := by
  unfold State.wrPgCfg
  try dsimp only [State.take]
  with_reducible repeat' first
    | assumption
    | apply State.pf_inv
    | apply State.store_inv
    | apply State.pgStart_inv
    | split

theorem State.wrPgParam_inv {s : State} {f : Func} {g : Nat} {v : Word} (h_s : s.Inv made) : (State.wrPgParam s f g v).Inv made := by
  unfold State.wrPgParam
  try dsimp only [State.take]
  with_reducible repeat' first
    | assumption
    | apply State.wr_inv
    | apply State.wb_inv
    | apply State.store_inv
    | apply State.setGen_inv
    | apply State.addChange_inv
    | split
    | simp only [State.inv_mk]

theorem State.wrPgFrac_inv {s : State} {f : Func} {g : Nat} {v : Word} (h_s : s.Inv made) : (State.wrPgFrac s f g v).Inv made := by
  unfold State.wrPgFrac
  try dsimp only [State.take]
  with_reducible repeat' first
    | assumption
    | apply State.wb_inv
    | apply State.store_inv
    | apply State.setGen_inv
    | split
    | simp only [State.inv_mk]

theorem State.wrPgOffset_inv {s : State} {f : Func} {g : Nat} {v : Word} (h_s : s.Inv made) : (State.wrPgOffset s f g v).Inv made := by
  unfold State.wrPgOffset
  with_reducible repeat' first
    | assumption
    | apply State.wb_inv
    | apply State.store_inv
    | split

theorem State.wrPgAdj_inv {s : State} {g : Nat} {v : Word} (h_s : s.Inv made) : (State.wrPgAdj s g v).Inv made := by
  unfold State.wrPgAdj
  try dsimp only [State.take]
  with_reducible repeat' first
    | assumption
    | apply State.wb_inv
    | apply State.addChange_inv
    | split

theorem State.zcEdge_inv {s : State} {g t held : Nat} (h_s : s.Inv made) : (State.zcEdge s g t held).Inv made := by
  unfold State.zcEdge
  try dsimp only [State.take]
  with_reducible repeat' first
    | assumption
    | apply State.pf_inv
    | apply State.incSat_inv
    | apply State.setGen_inv
    | apply State.startGen_inv
    | split
    | simp only [State.inv_mk]

theorem execZcEdge_inv {falling : Bool} {held : Nat} {s : State} (h_s : s.Inv made) : Keeps made (execZcEdge falling held s) := by
  unfold execZcEdge
  with_reducible repeat' first
    | assumption
    | apply Keeps.next
    | apply State.zcEdge_inv
    | apply State.inv_foldl
    | (intro _ _ _; try dsimp only)
    | split

theorem execZcTimeout_inv {g : Fin 4} {edge : Bool} {s : State} (h_s : s.Inv made) : Keeps made (execZcTimeout g edge s) := by
  unfold execZcTimeout
  with_reducible repeat' first
    | assumption
    | apply Keeps.next
    | apply State.pf_inv
    | apply State.incSat_inv
    | split

theorem execSrcLost_inv {g : Fin 4} {s : State} (h_s : s.Inv made) : Keeps made (execSrcLost g s) := by
  unfold execSrcLost
  with_reducible repeat' first
    | assumption
    | apply Keeps.next
    | apply State.srcLost_inv
    | split

theorem State.wrAddendHi_inv {s : State} {f : Func} {v : Word} (h_s : s.Inv made) : (State.wrAddendHi s f v).Inv made := by
  unfold State.wrAddendHi
  try dsimp only [State.take]
  with_reducible repeat' first
    | assumption
    | apply State.wr_inv
    | apply State.wb_inv
    | apply State.raise_inv
    | apply State.logNamed_inv
    | apply State.store_inv
    | apply State.addChange_inv
    | split

theorem State.wrTsCtl_inv {s : State} {f : Func} {v : Word} (h_s : s.Inv made) : (State.wrTsCtl s f v).Inv made := by
  unfold State.wrTsCtl
  try dsimp only [State.take]
  with_reducible repeat' first
    | assumption
    | apply State.wb_inv
    | apply State.raise_inv
    | apply State.logNamed_inv
    | apply State.addChange_inv
    | split

theorem execAnnounce_inv {port : Fin 4} {gmLo gmHi : Word} {s : State} (h_s : s.Inv made) : Keeps made (execAnnounce port gmLo gmHi s) := by
  unfold execAnnounce
  try dsimp only [State.take]
  with_reducible repeat' first
    | assumption
    | apply Keeps.next
    | apply State.wr_inv
    | apply State.wb_inv
    | apply State.raise_inv
    | apply State.logNamed_inv
    | split

theorem execPdelayReq_inv {port : Fin 4} {seqId : BitVec 16} {linkDelay : Word} {s : State} (h_s : s.Inv made) : Keeps made (execPdelayReq port seqId linkDelay s) := by
  unfold execPdelayReq
  try dsimp only [State.take]
  with_reducible repeat' first
    | assumption
    | apply Keeps.next
    | apply State.wr_inv
    | split
    | simp only [State.inv_mk]

theorem State.pushStamp_inv {s : State} {port : Nat} {x : TxStamp} (h_s : s.Inv made) : (State.pushStamp s port x).Inv made := by
  unfold State.pushStamp
  try dsimp only [State.take]
  with_reducible repeat' first
    | assumption
    | apply State.incSat_inv
    | apply State.logNamed_inv
    | apply State.raise_inv
    | apply State.inv_foldl
    | (intro _ _ _; try dsimp only)
    | split
    | simp only [State.inv_mk]

theorem State.readTsNs_inv {s : State} (h_s : s.Inv made) : (State.readTsNs s).Inv made := by
  unfold State.readTsNs
  try dsimp only [State.take]
  with_reducible repeat' first
    | assumption
    | apply State.wr_inv
    | simp only [State.inv_mk]

theorem State.readTxts_inv {s : State} {port : Nat} (h_s : s.Inv made) : (State.readTxts s port).Inv made := by
  unfold State.readTxts
  try dsimp only [State.take]
  with_reducible repeat' first
    | assumption
    | apply State.wr_inv
    | split
    | simp only [State.inv_mk]

theorem execPgEnable_inv {f : Func} {g : Fin 4} {v : Word} {s : State} (h_s : s.Inv made) : Keeps made (execPgEnable f g v s) := by
  unfold execPgEnable
  with_reducible repeat' first
    | assumption
    | apply Keeps.next
    | apply State.guarded_inv
    | apply State.wrPgCfg_inv
    | (intro _ _; try dsimp only)

theorem execKWrite_inv {f : Func} {g : Fin 4} {v : Word} {s : State} (h_s : s.Inv made) : Keeps made (execKWrite f g v s) := by
  unfold execKWrite
  with_reducible repeat' first
    | assumption
    | apply Keeps.next
    | apply State.guarded_inv
    | apply State.wrPgParam_inv
    | (intro _ _; try dsimp only)

theorem execPgAdj_inv {f : Func} {g : Fin 4} {v : Word} {s : State} (h_s : s.Inv made) : Keeps made (execPgAdj f g v s) := by
  unfold execPgAdj
  with_reducible repeat' first
    | assumption
    | apply Keeps.next
    | apply State.guarded_inv
    | apply State.wrPgAdj_inv
    | (intro _ _; try dsimp only)

theorem execAddendWrite_inv {f : Func} {v : Word} {s : State} (h_s : s.Inv made) : Keeps made (execAddendWrite f v s) := by
  unfold execAddendWrite
  with_reducible repeat' first
    | assumption
    | apply Keeps.next
    | apply State.guarded_inv
    | apply State.wrAddendHi_inv
    | (intro _ _; try dsimp only)

theorem execSet_inv {f : Func} {v : Word} {s : State} (h_s : s.Inv made) : Keeps made (execSet f v s) := by
  unfold execSet
  with_reducible repeat' first
    | assumption
    | apply Keeps.next
    | apply State.guarded_inv
    | apply State.wrTsCtl_inv
    | (intro _ _; try dsimp only)

theorem execStep_inv {f : Func} {v : Word} {s : State} (h_s : s.Inv made) : Keeps made (execStep f v s) := by
  unfold execStep
  with_reducible repeat' first
    | assumption
    | apply Keeps.next
    | apply State.guarded_inv
    | apply State.wrTsCtl_inv
    | (intro _ _; try dsimp only)

theorem execTsNsRead_inv {f : Func} {s : State} (h_s : s.Inv made) : Keeps made (execTsNsRead f s) := by
  unfold execTsNsRead
  try dsimp only [State.take]
  with_reducible repeat' first
    | assumption
    | apply Keeps.next
    | apply State.readTsNs_inv
    | split
    | simp only [State.inv_mk]

theorem execTxtsInfoRead_inv {f : Func} {port : Fin 4} {s : State} (h_s : s.Inv made) : Keeps made (execTxtsInfoRead f port s) := by
  unfold execTxtsInfoRead
  try dsimp only [State.take]
  with_reducible repeat' first
    | assumption
    | apply Keeps.next
    | apply State.readTxts_inv
    | split
    | simp only [State.inv_mk]

end Sys2Proof.Machine
end

