-- ==== Sys2Proof/Laws/KeepEncoder.lean ====
section
/-!
SUPPORT. Every function of Machine/Encoder.lean keeps the invariant of the step.
-/
namespace Sys2Proof.Machine

variable {made : Fuses}

theorem State.showPos_inv {s : State} {n : Nat} {count : Int} (h_s : s.Inv made) : (State.showPos s n count).Inv made := by
  unfold State.showPos
  try dsimp only [State.take]
  with_reducible repeat' first
    | assumption
    | apply State.wr_inv
    | apply State.inv_foldl
    | (intro _ _ _; try dsimp only)
    | split
    | simp only [State.inv_mk]

theorem State.setPos_inv {s : State} {n : Nat} {count : Int} (h_s : s.Inv made) : (State.setPos s n count).Inv made := by
  unfold State.setPos
  try dsimp only [State.take]
  with_reducible repeat' first
    | assumption
    | apply State.shaftMove_inv
    | apply State.showPos_inv
    | apply State.inv_foldl
    | (intro _ _ _; try dsimp only)
    | split
    | simp only [State.inv_mk]

theorem State.axisLost_inv {s : State} {a : Nat} (h_s : s.Inv made) : (State.axisLost s a).Inv made := by
  unfold State.axisLost
  try dsimp only [State.take]
  with_reducible repeat' first
    | assumption
    | apply State.wb_inv
    | apply State.drvEvent_inv
    | apply State.trigger_inv
    | split

theorem State.encLost_inv {s : State} {n : Nat} (h_s : s.Inv made) : (State.encLost s n).Inv made := by
  unfold State.encLost
  with_reducible repeat' first
    | assumption
    | apply State.wb_inv
    | apply State.shaftLost_inv
    | apply State.axisLost_inv

theorem State.signalFault_inv {s : State} {n : Nat} (h_s : s.Inv made) : (State.signalFault s n).Inv made := by
  unfold State.signalFault
  with_reducible repeat' first
    | assumption
    | apply State.wb_inv
    | apply State.drvEvent_inv
    | apply State.encLost_inv

theorem State.showSpeed_inv {s : State} {n t : Nat} (h_s : s.Inv made) : (State.showSpeed s n t).Inv made := by
  unfold State.showSpeed
  with_reducible repeat' first
    | assumption
    | apply State.wr_inv

theorem State.noSpeed_inv {s : State} {n : Nat} (h_s : s.Inv made) : (State.noSpeed s n).Inv made := by
  unfold State.noSpeed
  with_reducible repeat' first
    | assumption
    | apply State.wr_inv
    | apply State.wb_inv

theorem State.countEdge_inv {s : State} {n : Nat} {back : Bool} (h_s : s.Inv made) : (State.countEdge s n back).Inv made := by
  unfold State.countEdge
  try dsimp only [State.take]
  with_reducible repeat' first
    | assumption
    | apply State.wr_inv
    | apply State.wb_inv
    | apply State.setEnc_inv
    | apply State.setPos_inv
    | apply State.showSpeed_inv
    | apply State.noSpeed_inv
    | split
    | simp only [State.inv_mk]

theorem State.illegalEdge_inv {s : State} {n : Nat} (h_s : s.Inv made) : (State.illegalEdge s n).Inv made := by
  unfold State.illegalEdge
  try dsimp only [State.take]
  with_reducible repeat' first
    | assumption
    | apply State.incSat_inv
    | apply State.setEnc_inv
    | apply State.signalFault_inv
    | apply State.noSpeed_inv
    | split
    | simp only [State.inv_mk]

theorem execEncoderEdge_inv {n : Fin 48} {a b : Bool} {s : State} (h_s : s.Inv made) : Keeps made (execEncoderEdge n a b s) := by
  unfold execEncoderEdge
  try dsimp only [State.take]
  with_reducible repeat' first
    | assumption
    | apply Keeps.next
    | apply State.setEnc_inv
    | apply State.countEdge_inv
    | apply State.illegalEdge_inv
    | split
    | simp only [State.inv_mk]

theorem execEncoderIndex_inv {n : Fin 48} {s : State} (h_s : s.Inv made) : Keeps made (execEncoderIndex n s) := by
  unfold execEncoderIndex
  try dsimp only [State.take]
  with_reducible repeat' first
    | assumption
    | apply Keeps.next
    | apply State.wb_inv
    | apply State.setEnc_inv
    | apply State.signalFault_inv
    | split
    | simp only [State.inv_mk]

theorem execTStopExpiry_inv {n : Fin 48} {edge : Bool} {s : State} (h_s : s.Inv made) : Keeps made (execTStopExpiry n edge s) := by
  unfold execTStopExpiry
  try dsimp only [State.take]
  with_reducible repeat' first
    | assumption
    | apply Keeps.next
    | apply State.wb_inv
    | apply State.setEnc_inv
    | apply State.noSpeed_inv
    | split
    | simp only [State.inv_mk]

theorem execSignalFault_inv {n : Fin 48} {s : State} (h_s : s.Inv made) : Keeps made (execSignalFault n s) := by
  unfold execSignalFault
  with_reducible repeat' first
    | assumption
    | apply Keeps.next
    | apply State.signalFault_inv

theorem State.ssiRefuse_inv {s : State} {n : Nat} (h_s : s.Inv made) : (State.ssiRefuse s n).Inv made := by
  unfold State.ssiRefuse
  try dsimp only [State.take]
  with_reducible repeat' first
    | assumption
    | apply State.wb_inv
    | apply State.setEnc_inv
    | apply State.encLost_inv
    | split
    | simp only [State.inv_mk]

theorem State.ssiStart_inv {s : State} {n : Nat} (h_s : s.Inv made) : (State.ssiStart s n).Inv made := by
  unfold State.ssiStart
  try dsimp only [State.take]
  with_reducible repeat' first
    | assumption
    | apply State.setEnc_inv
    | apply State.ssiRefuse_inv
    | split
    | simp only [State.inv_mk]

theorem State.ssiGood_inv {s : State} {n : Nat} {p : Int} {t : Nat} (h_s : s.Inv made) : (State.ssiGood s n p t).Inv made := by
  unfold State.ssiGood
  try dsimp only [State.take]
  with_reducible repeat' first
    | assumption
    | apply State.wb_inv
    | apply State.setEnc_inv
    | apply State.setPos_inv
    | apply State.showSpeed_inv
    | apply State.noSpeed_inv
    | split
    | simp only [State.inv_mk]

theorem execSsiTransferEnd_inv {n : Fin 48} {bits : Word} {parityBit : Bool} {s : State} (h_s : s.Inv made) : Keeps made (execSsiTransferEnd n bits parityBit s) := by
  unfold execSsiTransferEnd
  try dsimp only [State.take]
  with_reducible repeat' first
    | assumption
    | apply Keeps.next
    | apply State.setEnc_inv
    | apply State.ssiRefuse_inv
    | apply State.ssiGood_inv
    | split
    | simp only [State.inv_mk]

theorem execMonoTimeout_inv {n : Fin 48} {returned : Bool} {s : State} (h_s : s.Inv made) : Keeps made (execMonoTimeout n returned s) := by
  unfold execMonoTimeout
  try dsimp only [State.take]
  with_reducible repeat' first
    | assumption
    | apply Keeps.next
    | apply State.setEnc_inv
    | apply State.encLost_inv
    | split
    | simp only [State.inv_mk]

theorem State.wrEncCfg_inv {s : State} {f : Func} {n : Nat} {v : Word} (h_s : s.Inv made) : (State.wrEncCfg s f n v).Inv made := by
  unfold State.wrEncCfg
  with_reducible repeat' first
    | assumption
    | apply State.store_inv
    | split

end Sys2Proof.Machine
end

