-- ==== Sys2Proof/Laws/KeepDrover.lean ====
section
/-!
SUPPORT. Every function of Machine/Drover.lean keeps the invariant of the step.
-/
namespace Sys2Proof.Machine

variable {made : Fuses}

theorem State.bandClamp_inv {s : State} {a : Nat} (h_s : s.Inv made) : (State.bandClamp s a).Inv made := by
  unfold State.bandClamp
  with_reducible repeat' first
    | assumption
    | apply State.wr_inv
    | split

theorem State.activate_inv {s : State} {a : Nat} (h_s : s.Inv made) : (State.activate s a).Inv made := by
  unfold State.activate
  try dsimp only [State.take]
  with_reducible repeat' first
    | assumption
    | apply State.bandClamp_inv
    | apply State.setAxis_inv
    | apply State.inv_foldl
    | (intro _ _ _; try dsimp only)
    | split
    | simp only [State.inv_mk]

theorem State.copyLaw_inv {s : State} {a : Nat} (h_s : s.Inv made) : (State.copyLaw s a).Inv made := by
  unfold State.copyLaw
  with_reducible repeat' first
    | assumption
    | apply State.wr_inv
    | apply State.setAxis_inv
    | apply State.inv_foldl
    | (intro _ _ _; try dsimp only)
    | split

theorem State.lawCommit_inv {s : State} {a : Nat} (h_s : s.Inv made) : (State.lawCommit s a).Inv made := by
  unfold State.lawCommit
  try dsimp only [State.take]
  with_reducible repeat' first
    | assumption
    | apply State.wr_inv
    | apply State.pf_inv
    | apply State.wb_inv
    | apply State.setAxis_inv
    | apply State.copyLaw_inv
    | apply State.activate_inv
    | apply State.bandClamp_inv
    | split
    | simp only [State.inv_mk]

theorem State.axEnable_inv {s : State} {a : Nat} (h_s : s.Inv made) : (State.axEnable s a).Inv made := by
  unfold State.axEnable
  try dsimp only [State.take]
  with_reducible repeat' first
    | assumption
    | apply State.wb_inv
    | apply State.setAxis_inv
    | split
    | simp only [State.inv_mk]

theorem State.axDisable_inv {s : State} {a : Nat} (h_s : s.Inv made) : (State.axDisable s a).Inv made := by
  unfold State.axDisable
  try dsimp only [State.take]
  with_reducible repeat' first
    | assumption
    | apply State.setAxis_inv
    | apply State.setAxState_inv
    | split
    | simp only [State.inv_mk]

theorem State.wrAxCtl_inv {s : State} {a : Nat} {v : Word} (h_s : s.Inv made) : (State.wrAxCtl s a v).Inv made := by
  unfold State.wrAxCtl
  try dsimp only [State.take]
  with_reducible repeat' first
    | assumption
    | apply State.lawCommit_inv
    | apply State.axEnable_inv
    | apply State.axDisable_inv
    | split

theorem State.enabling_inv {s : State} {a : Nat} (h_s : s.Inv made) : (State.enabling s a).Inv made := by
  unfold State.enabling
  try dsimp only [State.take]
  with_reducible repeat' first
    | assumption
    | apply State.wr_inv
    | apply State.wb_inv
    | apply State.setAxis_inv
    | apply State.setEnc_inv
    | apply State.setAxState_inv
    | apply State.setBrake_inv
    | apply State.noSpeed_inv
    | split
    | simp only [State.inv_mk]

theorem State.mbReject_inv {s : State} {d bit : Nat} (h_s : s.Inv made) : (State.mbReject s d bit).Inv made := by
  unfold State.mbReject
  with_reducible repeat' first
    | assumption
    | apply State.wb_inv
    | apply State.drvEvent_inv

theorem execMbCommit_inv {d : Fin 4} {s : State} (h_s : s.Inv made) : Keeps made (execMbCommit d s) := by
  unfold execMbCommit
  try dsimp only [State.take]
  with_reducible repeat' first
    | assumption
    | apply Keeps.next
    | apply State.wr_inv
    | apply State.regionConflict_inv
    | apply State.setDp_inv
    | apply State.wardenFresh_inv
    | apply State.mbReject_inv
    | apply State.inv_foldl
    | (intro _ _ _; try dsimp only)
    | (intro _ _; try dsimp only)
    | split
    | simp only [State.inv_mk]

theorem State.telemetry_inv {s : State} {d a : Nat} {i : AxIn} (h_s : s.Inv made) : (State.telemetry s d a i).Inv made := by
  unfold State.telemetry
  try dsimp only [State.take]
  with_reducible repeat' first
    | assumption
    | apply State.hbmWrite_inv
    | apply State.addSat_inv
    | apply State.regionConflict_inv
    | split
    | simp only [State.inv_mk]

theorem State.sampleAxis_inv {s : State} {d a plen : Nat} (h_s : s.Inv made) : (State.sampleAxis s d a plen).Inv made := by
  unfold State.sampleAxis
  try dsimp only [State.take]
  with_reducible repeat' first
    | assumption
    | apply State.setAxis_inv
    | apply State.showSpeed_inv
    | apply State.ssiStart_inv
    | apply State.activate_inv
    | apply State.enabling_inv
    | split
    | simp only [State.inv_mk]

theorem State.latchAxis_inv {s : State} {d : Nat} {a : Nat} (h_s : s.Inv made) : (State.latchAxis s d a).Inv made := by
  unfold State.latchAxis
  try dsimp only [State.take]
  with_reducible repeat' first
    | assumption
    | apply State.addSat_inv
    | apply State.telemetry_inv
    | apply State.trigger_inv
    | apply State.wr_inv
    | apply State.wb_inv
    | apply State.setAxis_inv
    | apply State.drvEvent_inv
    | apply State.inv_foldl
    | (intro _ _ _; try dsimp only)
    | split
    | simp only [State.inv_mk]

theorem State.latchDp_inv {s : State} {d : Nat} (h_s : s.Inv made) : (State.latchDp s d).Inv made := by
  unfold State.latchDp
  try dsimp only [State.take]
  with_reducible repeat' first
    | assumption
    | apply State.setDp_inv
    | apply State.wardenFresh_inv
    | apply State.latchAxis_inv
    | apply State.inv_foldl
    | (intro _ _ _; try dsimp only)
    | split
    | simp only [State.inv_mk]

theorem execDriverLatch_inv {d : Fin 4} {s : State} (h_s : s.Inv made) : Keeps made (execDriverLatch d s) := by
  unfold execDriverLatch
  with_reducible repeat' first
    | assumption
    | apply Keeps.next
    | apply State.latchDp_inv

theorem State.axisSample_inv {s : State} {d : Nat} (h_s : s.Inv made) : (State.axisSample s d).Inv made := by
  unfold State.axisSample
  try dsimp only [State.take]
  with_reducible repeat' first
    | assumption
    | apply State.wr_inv
    | apply State.incSat_inv
    | apply State.setDp_inv
    | apply State.sampleAxis_inv
    | apply State.latchDp_inv
    | apply State.inv_foldl
    | (intro _ _ _; try dsimp only)
    | split
    | simp only [State.inv_mk]

theorem execPeriodLost_inv {d : Fin 4} {s : State} (h_s : s.Inv made) : Keeps made (execPeriodLost d s) := by
  unfold execPeriodLost
  with_reducible repeat' first
    | assumption
    | apply Keeps.next
    | apply State.drvEvent_inv
    | apply State.dpFallback_inv

theorem State.reference_inv {s : State} {d a : Nat} {i : AxIn} (h_s : s.Inv made) : (State.reference s d a i).1.Inv made := by
  unfold State.reference
  try dsimp only [State.take]
  with_reducible repeat' first
    | assumption
    | apply State.wb_inv
    | apply State.setAxis_inv
    | apply State.drvEvent_inv
    | apply State.wardenExpired_inv
    | split
    | simp only [State.inv_mk]

theorem State.reference_inv_eq {s : State} {d a : Nat} {i : AxIn} {y : State}  {x} (h_s : s.Inv made) (he : State.reference s d a i = (y, x)) : y.Inv made := by
  have := State.reference_inv (made := made) (s := s) (d := d) (a := a) (i := i) h_s
  rw [he] at this
  exact this

theorem State.feedbackFault_inv {s : State} {a bit code : Nat} (h_s : s.Inv made) : (State.feedbackFault s a bit code).Inv made := by
  unfold State.feedbackFault
  try dsimp only [State.take]
  with_reducible repeat' first
    | assumption
    | apply State.wb_inv
    | apply State.drvEvent_inv
    | apply State.trigger_inv

theorem State.lockstep_inv {s : State} {a : Nat} (h_s : s.Inv made) : (State.lockstep s a).Inv made := by
  unfold State.lockstep
  try dsimp only [State.take]
  with_reducible repeat' first
    | assumption
    | apply State.telemetry_inv
    | apply State.setAxis_inv
    | apply State.dpFallback_inv
    | apply State.drvEvent_inv
    | apply State.pf_inv
    | apply State.inv_foldl
    | (intro _ _ _; try dsimp only)
    | split
    | simp only [State.inv_mk]

theorem State.computeAxis_inv {s : State} {a : Nat} {i : AxIn} (h_s : s.Inv made) : (State.computeAxis s a i).Inv made := by
  unfold State.computeAxis
  try dsimp only [State.take]
  with_reducible repeat' first
    | assumption
    | apply State.wr_inv
    | apply State.setAxis_inv
    | apply State.endForm_inv
    | apply State.reference_inv
    | refine State.reference_inv_eq ?_ (by assumption)
    | apply State.telemetry_inv
    | apply State.feedbackFault_inv
    | split

theorem State.firstUse_inv {s : State} {a : Nat} {i : AxIn} (h_s : s.Inv made) : (State.firstUse s a i).Inv made := by
  unfold State.firstUse
  try dsimp only [State.take]
  with_reducible repeat' first
    | assumption
    | apply State.setAxis_inv
    | apply State.inv_foldl
    | (intro _ _ _; try dsimp only)
    | split
    | simp only [State.inv_mk]

theorem execAxisCompute_inv {a : Fin 48} {disagree : Bool} {s : State} (h_s : s.Inv made) : Keeps made (execAxisCompute a disagree s) := by
  unfold execAxisCompute
  try dsimp only [State.take]
  with_reducible repeat' first
    | assumption
    | apply Keeps.next
    | apply State.computeAxis_inv
    | apply State.firstUse_inv
    | apply State.lockstep_inv
    | apply State.inv_foldl
    | (intro _ _ _; try dsimp only)
    | split
    | simp only [State.inv_mk]

theorem State.wrDvCfg_inv {s : State} {f : Func} {d : Nat} {v : Word} (h_s : s.Inv made) : (State.wrDvCfg s f d v).Inv made := by
  unfold State.wrDvCfg
  try dsimp only [State.take]
  with_reducible repeat' first
    | assumption
    | apply State.wb_inv
    | apply State.store_inv
    | split
    | dsimp only [id]

theorem State.wrDvPto_inv {s : State} {f : Func} {d : Nat} {v : Word} (h_s : s.Inv made) : (State.wrDvPto s f d v).Inv made := by
  unfold State.wrDvPto
  with_reducible repeat' first
    | assumption
    | apply State.wb_inv
    | apply State.store_inv
    | split

theorem State.wrTmCfg_inv {s : State} {f : Func} {d : Nat} {v : Word} (h_s : s.Inv made) : (State.wrTmCfg s f d v).Inv made := by
  unfold State.wrTmCfg
  try dsimp only [State.take]
  with_reducible repeat' first
    | assumption
    | apply State.store_inv
    | apply State.wb_inv
    | apply State.inv_foldl
    | (intro _ _ _; try dsimp only)
    | split
    | simp only [State.inv_mk]

theorem execAxEnable_inv {f : Func} {a : Fin 48} {v : Word} {s : State} (h_s : s.Inv made) : Keeps made (execAxEnable f a v s) := by
  unfold execAxEnable
  with_reducible repeat' first
    | assumption
    | apply Keeps.next
    | apply State.guarded_inv
    | apply State.wrAxCtl_inv
    | (intro _ _; try dsimp only)

theorem execDisable_inv {f : Func} {a : Fin 48} {v : Word} {s : State} (h_s : s.Inv made) : Keeps made (execDisable f a v s) := by
  unfold execDisable
  with_reducible repeat' first
    | assumption
    | apply Keeps.next
    | apply State.guarded_inv
    | apply State.wrAxCtl_inv
    | (intro _ _; try dsimp only)

theorem execLawCommit_inv {f : Func} {a : Fin 48} {v : Word} {s : State} (h_s : s.Inv made) : Keeps made (execLawCommit f a v s) := by
  unfold execLawCommit
  with_reducible repeat' first
    | assumption
    | apply Keeps.next
    | apply State.guarded_inv
    | apply State.wrAxCtl_inv
    | (intro _ _; try dsimp only)

end Sys2Proof.Machine
end

