-- ==== Sys2Proof/Laws/KeepAxisLink.lean ====
section
/-!
SUPPORT. Every function of Machine/AxisLink.lean keeps the invariant of the step.
-/
namespace Sys2Proof.Machine

variable {made : Fuses}

theorem State.takeSample_inv {s : State} {a k : Nat} (h_s : s.Inv made) : (State.takeSample s a k).Inv made := by
  unfold State.takeSample
  try dsimp only [State.take]
  with_reducible repeat' first
    | assumption
    | apply State.setAxis_inv
    | split
    | simp only [State.inv_mk]

theorem State.currentTrip_inv {s : State} {a bit code : Nat} (h_s : s.Inv made) : (State.currentTrip s a bit code).Inv made := by
  unfold State.currentTrip
  try dsimp only [State.take]
  with_reducible repeat' first
    | assumption
    | apply State.wb_inv
    | apply State.setAxis_inv
    | apply State.drvEvent_inv
    | apply State.trigger_inv

theorem execCurrentDecision_inv {a : Fin 48} {s : State} (h_s : s.Inv made) : Keeps made (execCurrentDecision a s) := by
  unfold execCurrentDecision
  try dsimp only [State.take]
  with_reducible repeat' first
    | assumption
    | apply Keeps.next
    | apply State.setAxis_inv
    | apply State.takeSample_inv
    | apply State.currentTrip_inv
    | apply State.inv_foldl
    | (intro _ _ _; try dsimp only)
    | split
    | simp only [State.inv_mk]

theorem execBandAdapt_inv {a : Fin 48} {s : State} (h_s : s.Inv made) : Keeps made (execBandAdapt a s) := by
  unfold execBandAdapt
  try dsimp only [State.take]
  with_reducible repeat' first
    | assumption
    | apply Keeps.next
    | apply State.wr_inv
    | apply State.setAxis_inv
    | split
    | simp only [State.inv_mk]

theorem execCurrentLost_inv {a : Fin 48} {s : State} (h_s : s.Inv made) : Keeps made (execCurrentLost a s) := by
  unfold execCurrentLost
  with_reducible repeat' first
    | assumption
    | apply Keeps.next
    | apply State.currentTrip_inv
    | split

theorem State.portLost_inv {s : State} {g : Nat} (h_s : s.Inv made) : (State.portLost s g).Inv made := by
  unfold State.portLost
  try dsimp only [State.take]
  with_reducible repeat' first
    | assumption
    | apply State.wb_inv
    | apply State.drvEvent_inv
    | apply State.trigger_inv
    | apply State.inv_foldl
    | (intro _ _ _; try dsimp only)
    | split

theorem State.takeStatus_inv {s : State} {g st : Nat} (h_s : s.Inv made) : (State.takeStatus s g st).Inv made := by
  unfold State.takeStatus
  try dsimp only [State.take]
  with_reducible repeat' first
    | assumption
    | apply State.pf_inv
    | apply State.drvEvent_inv
    | apply State.trigger_inv
    | split

theorem State.feedBits_inv {s : State} {g sd : Nat} {ok : Bool} (h_s : s.Inv made) : (State.feedBits s g sd ok).Inv made := by
  unfold State.feedBits
  try dsimp only [State.take]
  with_reducible repeat' first
    | assumption
    | apply State.setAxis_inv
    | apply State.inv_foldl
    | (intro _ _ _; try dsimp only)
    | simp only [State.inv_mk]

theorem State.resync_inv {s : State} {g : Nat} (h_s : s.Inv made) : (State.resync s g).Inv made := by
  unfold State.resync
  try dsimp only [State.take]
  with_reducible repeat' first
    | assumption
    | apply State.setAxis_inv
    | apply State.inv_foldl
    | (intro _ _ _; try dsimp only)
    | simp only [State.inv_mk]

theorem execUpstreamFrame_inv {al : Fin 12} {frame : BitVec 40} {s : State} (h_s : s.Inv made) : Keeps made (execUpstreamFrame al frame s) := by
  unfold execUpstreamFrame
  try dsimp only [State.take]
  with_reducible repeat' first
    | assumption
    | apply Keeps.next
    | apply State.pf_inv
    | apply State.addSat_inv
    | apply State.setAlink_inv
    | apply State.portLost_inv
    | apply State.takeStatus_inv
    | apply State.feedBits_inv
    | apply State.resync_inv
    | split
    | simp only [State.inv_mk]

theorem execDownstreamFrame_inv {al : Fin 12} {s : State} (h_s : s.Inv made) : Keeps made (execDownstreamFrame al s) := by
  unfold execDownstreamFrame
  try dsimp only [State.take]
  with_reducible repeat' first
    | assumption
    | apply Keeps.next
    | apply State.setAxis_inv
    | apply State.setAlink_inv
    | apply State.inv_foldl
    | (intro _ _ _; try dsimp only)
    | split
    | simp only [State.inv_mk]

theorem State.outputLatch_inv {s : State} {g : Nat} (h_s : s.Inv made) : (State.outputLatch s g).Inv made := by
  unfold State.outputLatch
  try dsimp only [State.take]
  with_reducible repeat' first
    | assumption
    | apply State.wr_inv
    | apply State.addSat_inv
    | apply State.setAxis_inv
    | apply State.wardenFresh_inv
    | apply State.inv_foldl
    | (intro _ _ _; try dsimp only)
    | split
    | simp only [State.inv_mk]

theorem State.releaseSto_inv {s : State} {g : Nat} (h_s : s.Inv made) : (State.releaseSto s g).Inv made := by
  unfold State.releaseSto
  try dsimp only [State.take]
  with_reducible repeat' first
    | assumption
    | apply State.setSto_inv
    | apply State.inv_foldl
    | (intro _ _ _; try dsimp only)
    | split
    | simp only [State.inv_mk]

theorem State.groupReset_inv {s : State} {g : Nat} (h_s : s.Inv made) : (State.groupReset s g).Inv made := by
  unfold State.groupReset
  try dsimp only [State.take]
  with_reducible repeat' first
    | assumption
    | apply State.wb_inv
    | apply State.setAxState_inv
    | apply State.releaseSto_inv
    | apply State.inv_foldl
    | (intro _ _ _; try dsimp only)
    | split
    | simp only [State.inv_mk]

theorem State.wrAlCtl_inv {s : State} {g : Nat} {v : Word} (h_s : s.Inv made) : (State.wrAlCtl s g v).Inv made := by
  unfold State.wrAlCtl
  try dsimp only [State.take]
  with_reducible repeat' first
    | assumption
    | apply State.trigger_inv
    | apply State.groupReset_inv
    | split

theorem State.wrAlCfg_inv {s : State} {f : Func} {g : Nat} {v : Word} (h_s : s.Inv made) : (State.wrAlCfg s f g v).Inv made := by
  unfold State.wrAlCfg
  try dsimp only [State.take]
  with_reducible repeat' first
    | assumption
    | apply State.pf_inv
    | apply State.store_inv
    | apply State.setAlink_inv
    | split

theorem execSafeReq_inv {f : Func} {al : Fin 12} {v : Word} {s : State} (h_s : s.Inv made) : Keeps made (execSafeReq f al v s) := by
  unfold execSafeReq
  with_reducible repeat' first
    | assumption
    | apply Keeps.next
    | apply State.guarded_inv
    | apply State.wrAlCtl_inv
    | (intro _ _; try dsimp only)

theorem execGroupReset_inv {f : Func} {al : Fin 12} {v : Word} {s : State} (h_s : s.Inv made) : Keeps made (execGroupReset f al v s) := by
  unfold execGroupReset
  with_reducible repeat' first
    | assumption
    | apply Keeps.next
    | apply State.guarded_inv
    | apply State.wrAlCtl_inv
    | (intro _ _; try dsimp only)

theorem execStopTimeExpiry_inv {al : Fin 12} {s : State} (h_s : s.Inv made) : Keeps made (execStopTimeExpiry al s) := by
  unfold execStopTimeExpiry
  with_reducible repeat' first
    | assumption
    | apply Keeps.next
    | apply State.endForm_inv

theorem execBrakeDelayExpiry_inv {al : Fin 12} {s : State} (h_s : s.Inv made) : Keeps made (execBrakeDelayExpiry al s) := by
  unfold execBrakeDelayExpiry
  with_reducible repeat' first
    | assumption
    | apply Keeps.next
    | apply State.endForm_inv

theorem execStoFbErr_inv {al : Fin 12} {stoA stoB brake : Bool} {s : State} (h_s : s.Inv made) : Keeps made (execStoFbErr al stoA stoB brake s) := by
  unfold execStoFbErr
  try dsimp only [State.take]
  with_reducible repeat' first
    | assumption
    | apply Keeps.next
    | apply State.pf_inv
    | apply State.stoFbErr_inv
    | split

end Sys2Proof.Machine
end

