-- ==== Sys2Proof/Laws/KeepActions.lean ====
section
/-!
SUPPORT. Every function of Machine/Actions.lean keeps the invariant of the step.
-/
namespace Sys2Proof.Machine

variable {made : Fuses}

theorem State.strobe_inv {s : State} {cams : Nat} (h_s : s.Inv made) : (State.strobe s cams).Inv made := by
  unfold State.strobe
  try dsimp only [State.take]
  with_reducible repeat' first
    | assumption
    | simp only [State.inv_mk]

theorem execStrobeEnd_inv {c : Fin 16} {s : State} (h_s : s.Inv made) : Keeps made (execStrobeEnd c s) := by
  unfold execStrobeEnd
  try dsimp only [State.take]
  with_reducible repeat' first
    | assumption
    | apply Keeps.next
    | apply State.strobe_inv
    | simp only [State.inv_mk]

theorem State.pinAction_inv {s : State} {action : Nat} {arg : Word} (h_s : s.Inv made) : (State.pinAction s action arg).Inv made := by
  unfold State.pinAction
  try dsimp only [State.take]
  with_reducible repeat' first
    | assumption
    | apply State.axisSample_inv
    | apply State.outputLatch_inv
    | apply State.strobe_inv
    | apply State.inv_foldl
    | (intro _ _ _; try dsimp only)
    | split
    | simp only [State.inv_mk]

end Sys2Proof.Machine
end

