-- ==== Sys2Proof/Laws/KeepOperands.lean ====
section
/-!
SUPPORT. Every function of Machine/Operands.lean keeps the invariant of the step.
-/
namespace Sys2Proof.Machine

variable {made : Fuses}

theorem State.putCodes_inv {s : State} {e f a : Nat} {cs : List Nat} (h_s : s.Inv made) : (State.putCodes s e f a cs).Inv made := by
  unfold State.putCodes
  with_reducible repeat' first
    | assumption
    | apply State.spWrite_inv
    | split

theorem State.putCode_inv {s : State} {e f a i c : Nat} (h_s : s.Inv made) : (State.putCode s e f a i c).Inv made := by
  unfold State.putCode
  try dsimp only [State.take]
  with_reducible repeat' first
    | assumption
    | apply State.spWrite_inv
    | split

end Sys2Proof.Machine
end

