-- ==== Sys2Proof/Laws/KeepHeld.lean ====
section
/-!
SUPPORT. Every function of Machine/Held.lean keeps the invariant of the step.
-/
namespace Sys2Proof.Machine

variable {made : Fuses}

theorem State.sendPacket_inv {s : State} {k : Packet} (h_s : s.Inv made) : (State.sendPacket s k).Inv made := by
  unfold State.sendPacket
  try dsimp only [State.take]
  with_reducible repeat' first
    | assumption
    | apply State.enqueue_inv
    | apply State.chargeLink_inv
    | apply State.inv_foldl
    | (intro _ _ _; try dsimp only)
    | split
    | simp only [State.inv_mk]

theorem State.answer_inv {s : State} {k : Packet} {op : PktOp} {addr : Nat} {data : List Byte} (h_s : s.Inv made) : (State.answer s k op addr data).Inv made := by
  unfold State.answer
  try dsimp only [State.take]
  with_reducible repeat' first
    | assumption
    | apply State.sendPacket_inv
    | apply State.inv_foldl
    | (intro _ _ _; try dsimp only)
    | split
    | simp only [State.inv_mk]

theorem State.porterFault_inv {s : State} {p : Nat} {code : Nat} {info : Nat} {addr : Nat} {c : Cmd} (h_s : s.Inv made) : (State.porterFault s p code info addr c).Inv made := by
  unfold State.porterFault
  try dsimp only [State.take]
  with_reducible repeat' first
    | assumption
    | apply State.wr64_inv
    | apply State.failCmd_inv
    | apply State.inv_foldl
    | (intro _ _ _; try dsimp only)
    | split
    | simp only [State.inv_mk]

theorem State.failReq_inv {s : State} {r : Req} {code : Nat} {info : Nat} (h_s : s.Inv made) : (State.failReq s r code info).Inv made := by
  unfold State.failReq
  try dsimp only [State.take]
  with_reducible repeat' first
    | assumption
    | apply State.porterFault_inv
    | apply State.failCmd_inv
    | apply State.inv_foldl
    | (intro _ _ _; try dsimp only)
    | split
    | simp only [State.inv_mk]

theorem State.pxErr_inv {s : State} {cause : Nat} {dest : Nat} {window : Nat} (h_s : s.Inv made) : (State.pxErr s cause dest window).Inv made := by
  unfold State.pxErr
  try dsimp only [State.take]
  with_reducible repeat' first
    | assumption
    | apply State.wr_inv
    | apply State.raise_inv
    | apply State.inv_foldl
    | (intro _ _ _; try dsimp only)
    | split
    | simp only [State.inv_mk]

theorem State.sendProxy_inv {s : State} {x : Proxy} (h_s : s.Inv made) : (State.sendProxy s x).Inv made := by
  unfold State.sendProxy
  try dsimp only [State.take]
  with_reducible repeat' first
    | assumption
    | apply State.sendPacket_inv
    | apply State.inv_foldl
    | (intro _ _ _; try dsimp only)
    | split
    | simp only [State.inv_mk]

theorem State.sendProxies_inv {s : State} (h_s : s.Inv made) : (State.sendProxies s).Inv made := by
  unfold State.sendProxies
  try dsimp only [State.take]
  with_reducible repeat' first
    | assumption
    | apply State.sendProxy_inv
    | apply State.inv_foldl
    | (intro _ _ _; try dsimp only)
    | split
    | simp only [State.inv_mk]

theorem State.failProxy_inv {s : State} {x : Proxy} {cause : Nat} (h_s : s.Inv made) : (State.failProxy s x cause).Inv made := by
  unfold State.failProxy
  try dsimp only [State.take]
  with_reducible repeat' first
    | assumption
    | apply State.pxErr_inv
    | apply State.sendProxies_inv
    | apply State.inv_foldl
    | (intro _ _ _; try dsimp only)
    | split
    | simp only [State.inv_mk]

theorem State.endProxy_inv {s : State} {x : Proxy} (h_s : s.Inv made) : (State.endProxy s x).Inv made := by
  unfold State.endProxy
  try dsimp only [State.take]
  with_reducible repeat' first
    | assumption
    | apply State.sendProxies_inv
    | apply State.inv_foldl
    | (intro _ _ _; try dsimp only)
    | split
    | simp only [State.inv_mk]

theorem State.logPort_inv {s : State} {ev : Nat} {p : Nat} (h_s : s.Inv made) : (State.logPort s ev p).Inv made := by
  unfold State.logPort
  try dsimp only [State.take]
  with_reducible repeat' first
    | assumption
    | apply State.logNamed_inv
    | apply State.inv_foldl
    | (intro _ _ _; try dsimp only)
    | split
    | simp only [State.inv_mk]

theorem State.toState_inv {s : State} {p : Nat} {v : Nat} (h_s : s.Inv made) : (State.toState s p v).Inv made := by
  unfold State.toState
  try dsimp only [State.take]
  with_reducible repeat' first
    | assumption
    | apply State.setLstate_inv
    | apply State.raise_inv
    | apply State.inv_foldl
    | (intro _ _ _; try dsimp only)
    | split
    | simp only [State.inv_mk]

theorem State.failArrival_inv {s : State} {r : Req} {code : Nat} {info : Nat} (h_s : s.Inv made) : (State.failArrival s r code info).Inv made := by
  unfold State.failArrival
  try dsimp only [State.take]
  with_reducible repeat' first
    | assumption
    | apply State.jobFault_inv
    | apply State.inv_foldl
    | (intro _ _ _; try dsimp only)
    | split
    | simp only [State.inv_mk]

theorem State.loseTx_inv {p : Nat} {s : State} {t : TxPkt} (h_s : s.Inv made) : (State.loseTx p s t).Inv made := by
  unfold State.loseTx
  try dsimp only [State.take]
  with_reducible repeat' first
    | assumption
    | apply State.answer_inv
    | apply State.failArrival_inv
    | apply State.failProxy_inv
    | apply State.jobFault_inv
    | apply State.cutSource_inv
    | apply State.failReq_inv
    | apply State.inv_foldl
    | (intro _ _ _; try dsimp only)
    | split
    | simp only [State.inv_mk]

theorem State.cutThrough_inv {s : State} {p : Nat} (h_s : s.Inv made) : (State.cutThrough s p).Inv made := by
  unfold State.cutThrough
  try dsimp only [State.take]
  with_reducible repeat' first
    | assumption
    | apply State.setPort_inv
    | apply State.inv_foldl
    | (intro _ _ _; try dsimp only)
    | split
    | simp only [State.inv_mk]

theorem State.leaveUp_inv {s : State} {p : Nat} (h_s : s.Inv made) : (State.leaveUp s p).Inv made := by
  unfold State.leaveUp
  try dsimp only [State.take]
  with_reducible repeat' first
    | assumption
    | apply State.cutThrough_inv
    | apply State.setPort_inv
    | apply State.toState_inv
    | apply State.loseTx_inv
    | apply State.inv_foldl
    | (intro _ _ _; try dsimp only)
    | split
    | simp only [State.inv_mk]

theorem State.powerOff_inv {s : State} {p : Nat} (h_s : s.Inv made) : (State.powerOff s p).Inv made := by
  unfold State.powerOff
  try dsimp only [State.take]
  with_reducible repeat' first
    | assumption
    | apply State.leaveUp_inv
    | apply State.toState_inv
    | apply State.pf_inv
    | apply State.inv_foldl
    | (intro _ _ _; try dsimp only)
    | split
    | simp only [State.inv_mk]

end Sys2Proof.Machine
end

