-- ==== Sys2Proof/Laws/Ledger.lean ====
section
/-!
SUPPORT. The Ledger and Ostler stand through the functions that programming a word may start (R169, R206, R307): `State.Led l0` says that they are `l0`. The files
Ledger*.lean say it of every function of the machine up to Machine/Held.lean that writes nothing to it, one lemma each, in the order of the files of
Machine/.
-/
namespace Sys2Proof.Machine

/-- The Ledger and Ostler are l0. -/
def State.Led (l0 : Ledger × Ostler) (s : State) : Prop := (s.ledger, s.ost) = l0

/-- An outcome whose next state has l0. -/
def KeepsLed (l0 : Ledger × Ostler) (o : Host.Outcome State Fault Refusal) : Prop := ∀ t, o = .next t → t.Led l0

variable {l0 : Ledger × Ostler}

theorem KeepsLed.next {t : State} (h : t.Led l0) : KeepsLed l0 (.next t) := fun _ e => by cases e; exact h

theorem State.led_mk {s : State} {p fr fu pi cl hb sp rg la rd ms lg eg po qs tn bs aq eq fd mi dr pe et ca ic} :
    State.Led l0 (State.mk p fr fu pi cl hb sp rg la rd ms lg s.ledger s.ost eg po qs tn bs aq eq fd mi dr pe et ca ic) ↔ s.Led l0 := Iff.rfl

theorem State.led_foldl {s : State} {α : Type} {f : State → α → State} {l : List α} (h : s.Led l0)
    (hf : ∀ s x, s.Led l0 → (f s x).Led l0) : (l.foldl f s).Led l0 := by
  induction l generalizing s with
  | nil => exact h
  | cons a r ih => exact ih (hf _ _ h)

theorem State.led_foldl_fst {α β : Type} {f : State × β → α → State × β} {l : List α} {t : State × β} (h : t.1.Led l0)
    (hf : ∀ t x, t.1.Led l0 → (f t x).1.Led l0) : (l.foldl f t).1.Led l0 := by
  induction l generalizing t with
  | nil => exact h
  | cons a r ih => exact ih (hf _ _ h)

theorem State.wr_led {s : State} {a v} (h : s.Led l0) : (State.wr s a v).Led l0 := h
theorem State.resetRegs_led {s : State} {p} (h : s.Led l0) : (State.resetRegs s p).Led l0 := h
theorem State.hbmPut_led {s : State} {a b} (h : s.Led l0) : (State.hbmPut s a b).Led l0 := h
theorem State.hbmWrite_led {s : State} {a b} (h : s.Led l0) : (State.hbmWrite s a b).Led l0 := h
theorem State.spWrite_led {s : State} {e a b} (h : s.Led l0) : (State.spWrite s e a b).Led l0 := h
theorem State.spZero_led {s : State} {e a b} (h : s.Led l0) : (State.spZero s e a b).Led l0 := h
theorem State.hbmZero_led {s : State} {a b} (h : s.Led l0) : (State.hbmZero s a b).Led l0 := h
theorem State.setEngine_led {s : State} {e x} (h : s.Led l0) : (State.setEngine s e x).Led l0 := h
theorem State.setPorter_led {s : State} {e x} (h : s.Led l0) : (State.setPorter s e x).Led l0 := h
theorem State.setQueue_led {s : State} {e x} (h : s.Led l0) : (State.setQueue s e x).Led l0 := h
theorem State.setTenant_led {s : State} {e x} (h : s.Led l0) : (State.setTenant s e x).Led l0 := h
theorem State.setBar_led {s : State} {e x} (h : s.Led l0) : (State.setBar s e x).Led l0 := h

end Sys2Proof.Machine
end

