-- ==== Sys2Proof/Laws/LedgerOps.lean ====
section
/-!
SUPPORT. What the functions of Machine/Ops.lean do to the Ledger (Ledger.lean).
-/
namespace Sys2Proof.Machine

variable {l0 : Ledger × Ostler}

theorem State.pf_led {s : State} {a : Nat} {hi : Nat} {lo : Nat} {v : Nat} (h_s : s.Led l0) : (State.pf s a hi lo v).Led l0 := by
  unfold State.pf
  try dsimp only [State.take]
  with_reducible repeat' first
    | assumption
    | apply State.wr_led
    | apply State.led_foldl
    | (intro _ _ _; try dsimp only)
    | split
    | simp only [State.led_mk]

theorem State.wb_led {s : State} {a : Nat} {i : Nat} {b : Bool} (h_s : s.Led l0) : (State.wb s a i b).Led l0 := by
  unfold State.wb
  try dsimp only [State.take]
  with_reducible repeat' first
    | assumption
    | apply State.wr_led
    | apply State.led_foldl
    | (intro _ _ _; try dsimp only)
    | split
    | simp only [State.led_mk]

theorem State.incSat_led {s : State} {a : Nat} {hi : Nat} {lo : Nat} (h_s : s.Led l0) : (State.incSat s a hi lo).Led l0 := by
  unfold State.incSat
  try dsimp only [State.take]
  with_reducible repeat' first
    | assumption
    | apply State.pf_led
    | apply State.led_foldl
    | (intro _ _ _; try dsimp only)
    | split
    | simp only [State.led_mk]

theorem State.addSat_led {s : State} {a : Nat} {n : Nat} (h_s : s.Led l0) : (State.addSat s a n).Led l0 := by
  unfold State.addSat
  try dsimp only [State.take]
  with_reducible repeat' first
    | assumption
    | apply State.wr_led
    | apply State.led_foldl
    | (intro _ _ _; try dsimp only)
    | split
    | simp only [State.led_mk]

theorem State.wr64_led {s : State} {lo : Nat} {v : Nat} (h_s : s.Led l0) : (State.wr64 s lo v).Led l0 := by
  unfold State.wr64
  try dsimp only [State.take]
  with_reducible repeat' first
    | assumption
    | apply State.wr_led
    | apply State.led_foldl
    | (intro _ _ _; try dsimp only)
    | split
    | simp only [State.led_mk]

theorem State.setPort_led {s : State} {p : Nat} {x : Port} (h_s : s.Led l0) : (State.setPort s p x).Led l0 := by
  unfold State.setPort
  try dsimp only [State.take]
  with_reducible repeat' first
    | assumption
    | apply State.led_foldl
    | (intro _ _ _; try dsimp only)
    | split
    | simp only [State.led_mk]

theorem State.setTnState_led {s : State} {t : Nat} {v : Nat} (h_s : s.Led l0) : (State.setTnState s t v).Led l0 := by
  unfold State.setTnState
  try dsimp only [State.take]
  with_reducible repeat' first
    | assumption
    | apply State.pf_led
    | apply State.led_foldl
    | (intro _ _ _; try dsimp only)
    | split
    | simp only [State.led_mk]

theorem State.chargeHbm_led {s : State} {t : Nat} {n : Nat} (h_s : s.Led l0) : (State.chargeHbm s t n).Led l0 := by
  unfold State.chargeHbm
  try dsimp only [State.take]
  with_reducible repeat' first
    | assumption
    | apply State.setTenant_led
    | apply State.led_foldl
    | (intro _ _ _; try dsimp only)
    | split
    | simp only [State.led_mk]

theorem State.chargeLink_led {s : State} {t : Nat} {n : Nat} (h_s : s.Led l0) : (State.chargeLink s t n).Led l0 := by
  unfold State.chargeLink
  try dsimp only [State.take]
  with_reducible repeat' first
    | assumption
    | apply State.setTenant_led
    | apply State.led_foldl
    | (intro _ _ _; try dsimp only)
    | split
    | simp only [State.led_mk]

theorem State.chargeTime_led {s : State} {t : Nat} {ns : Nat} (h_s : s.Led l0) : (State.chargeTime s t ns).Led l0 := by
  unfold State.chargeTime
  try dsimp only [State.take]
  with_reducible repeat' first
    | assumption
    | apply State.setTenant_led
    | apply State.led_foldl
    | (intro _ _ _; try dsimp only)
    | split
    | simp only [State.led_mk]

theorem State.sendMsix_led {s : State} {f : Nat} {v : Nat} (h_s : s.Led l0) : (State.sendMsix s f v).Led l0 := by
  unfold State.sendMsix
  try dsimp only [State.take]
  with_reducible repeat' first
    | assumption
    | apply State.led_foldl
    | (intro _ _ _; try dsimp only)
    | split
    | simp only [State.led_mk]

theorem State.sendTenantBits_led {s : State} {n : Nat} {pend : Word} {k : Nat} (h_s : s.Led l0) : (s.sendTenantBits n pend k).Led l0 := by
  induction k with
  | zero => exact h_s
  | succ k ih =>
    unfold State.sendTenantBits
    dsimp only
    split
    · exact State.sendMsix_led ih
    · exact ih

theorem State.sendRoute_led {s : State} {src : Nat} (h_s : s.Led l0) : (State.sendRoute s src).Led l0 := by
  unfold State.sendRoute
  try dsimp only [State.take]
  with_reducible repeat' first
    | assumption
    | apply State.sendMsix_led
    | apply State.led_foldl
    | (intro _ _ _; try dsimp only)
    | split
    | simp only [State.led_mk]

theorem State.requestIrq_led {s : State} {page : Nat} (h_s : s.Led l0) : (State.requestIrq s page).Led l0 := by
  unfold State.requestIrq
  try dsimp only [State.take]
  with_reducible repeat' first
    | assumption
    | apply State.sendTenantBits_led
    | apply State.sendRoute_led
    | apply State.led_foldl
    | (intro _ _ _; try dsimp only)
    | split
    | simp only [State.led_mk]

theorem State.raiseBits_led {s : State} {page : Nat} {m : Word} (h_s : s.Led l0) : (State.raiseBits s page m).Led l0 := by
  unfold State.raiseBits
  try dsimp only [State.take]
  with_reducible repeat' first
    | assumption
    | apply State.wr_led
    | apply State.requestIrq_led
    | apply State.led_foldl
    | (intro _ _ _; try dsimp only)
    | split
    | simp only [State.led_mk]

theorem State.raise_led {s : State} {page : Nat} {bit : Nat} (h_s : s.Led l0) : (State.raise s page bit).Led l0 := by
  unfold State.raise
  try dsimp only [State.take]
  with_reducible repeat' first
    | assumption
    | apply State.raiseBits_led
    | apply State.led_foldl
    | (intro _ _ _; try dsimp only)
    | split
    | simp only [State.led_mk]

theorem State.logPush_led {s : State} {cls : Nat} {r : LogRec} (h_s : s.Led l0) : (State.logPush s cls r).Led l0 := by
  unfold State.logPush
  try dsimp only [State.take]
  with_reducible repeat' first
    | assumption
    | apply State.led_foldl
    | (intro _ _ _; try dsimp only)
    | split
    | simp only [State.led_mk]

theorem State.logEvent_led {s : State} {page : Nat} {code : Nat} {cls : Nat} {info : Nat} {tenant : Nat} (h_s : s.Led l0) : (State.logEvent s page code cls info tenant).Led l0 := by
  unfold State.logEvent
  try dsimp only [State.take]
  with_reducible repeat' first
    | assumption
    | apply State.logPush_led
    | apply State.led_foldl
    | (intro _ _ _; try dsimp only)
    | split
    | simp only [State.led_mk]

theorem State.logNamed_led {s : State} {page : Nat} {ev : Nat} {cls : Nat} {info : Nat} {tenant : Nat} (h_s : s.Led l0) : (State.logNamed s page ev cls info tenant).Led l0 := by
  unfold State.logNamed
  try dsimp only [State.take]
  with_reducible repeat' first
    | assumption
    | apply State.logEvent_led
    | apply State.led_foldl
    | (intro _ _ _; try dsimp only)
    | split
    | simp only [State.led_mk]

theorem State.recordFault_led {s : State} {page : Nat} {code : Nat} {info : Nat} (h_s : s.Led l0) : (State.recordFault s page code info).Led l0 := by
  unfold State.recordFault
  try dsimp only [State.take]
  with_reducible repeat' first
    | assumption
    | apply State.incSat_led
    | apply State.wr_led
    | apply State.raise_led
    | apply State.pf_led
    | apply State.led_foldl
    | (intro _ _ _; try dsimp only)
    | split
    | simp only [State.led_mk]

theorem State.setLstate_led {s : State} {p : Nat} {v : Nat} (h_s : s.Led l0) : (State.setLstate s p v).Led l0 := by
  unfold State.setLstate
  try dsimp only [State.take]
  with_reducible repeat' first
    | assumption
    | apply State.pf_led
    | apply State.led_foldl
    | (intro _ _ _; try dsimp only)
    | split
    | simp only [State.led_mk]

theorem State.sendSb_led {s : State} {w : SbWord} {p : Nat} (h_s : s.Led l0) : (State.sendSb s w p).Led l0 := by
  unfold State.sendSb
  try dsimp only [State.take]
  with_reducible repeat' first
    | assumption
    | apply State.setPort_led
    | apply State.led_foldl
    | (intro _ _ _; try dsimp only)
    | split
    | simp only [State.led_mk]

theorem State.flood_led {s : State} {w : SbWord} {except : Nat} (h_s : s.Led l0) : (State.flood s w except).Led l0 := by
  unfold State.flood
  try dsimp only [State.take]
  with_reducible repeat' first
    | assumption
    | apply State.sendSb_led
    | apply State.led_foldl
    | (intro _ _ _; try dsimp only)
    | split
    | simp only [State.led_mk]

end Sys2Proof.Machine
end

