-- ==== Sys2Proof/Laws/LedgerRoute.lean ====
section
/-!
SUPPORT. What the functions of Machine/Route.lean do to the Ledger (Ledger.lean).
-/
namespace Sys2Proof.Machine

variable {l0 : Ledger × Ostler}

theorem State.pushTx_led {s : State} {p : Nat} {t : TxPkt} (h_s : s.Led l0) : (State.pushTx s p t).Led l0 := by
  unfold State.pushTx
  try dsimp only [State.take]
  with_reducible repeat' first
    | assumption
    | apply State.setPort_led
    | apply State.led_foldl
    | (intro _ _ _; try dsimp only)
    | split
    | simp only [State.led_mk]

theorem State.enqueue_led {s : State} {p : Nat} {vc : Nat} {k : Packet} (h_s : s.Led l0) : (State.enqueue s p vc k).Led l0 := by
  unfold State.enqueue
  try dsimp only [State.take]
  with_reducible repeat' first
    | assumption
    | apply State.pushTx_led
    | apply State.led_foldl
    | (intro _ _ _; try dsimp only)
    | split
    | simp only [State.led_mk]

end Sys2Proof.Machine
end

