-- ==== Sys2Proof/Laws/LedgerPick.lean ====
section
/-!
SUPPORT. What the functions of Machine/Pick.lean do to the Ledger (Ledger.lean).
-/
namespace Sys2Proof.Machine

variable {l0 : Ledger × Ostler}

theorem State.refill_led {s : State} {qs : List Nat} (h_s : s.Led l0) : (State.refill s qs).Led l0 := by
  unfold State.refill
  try dsimp only [State.take]
  with_reducible repeat' first
    | assumption
    | apply State.setQueue_led
    | apply State.led_foldl
    | (intro _ _ _; try dsimp only)
    | split
    | simp only [State.led_mk]

theorem State.choose_led_eq {s y : State} {rr cands q c} (h_s : s.Led l0) (e : State.choose s rr cands = some (q, c, y)) : y.Led l0 := by
  unfold State.choose at e
  split at e
  · cases e
  · dsimp only at e
    split at e
    · cases e
    · cases e
      exact State.refill_led h_s

theorem State.takeHead_led {s : State} {q : Nat} (h_s : s.Led l0) : (State.takeHead s q).Led l0 := by
  unfold State.takeHead
  try dsimp only [State.take]
  with_reducible repeat' first
    | assumption
    | apply State.setQueue_led
    | apply State.led_foldl
    | (intro _ _ _; try dsimp only)
    | split
    | simp only [State.led_mk]

theorem State.dropWaitOn_led {s : State} {e : Nat} {q : Nat} (h_s : s.Led l0) : (State.dropWaitOn s e q).Led l0 := by
  unfold State.dropWaitOn
  try dsimp only [State.take]
  with_reducible repeat' first
    | assumption
    | apply State.setQueue_led
    | apply State.wb_led
    | apply State.led_foldl
    | (intro _ _ _; try dsimp only)
    | split
    | simp only [State.led_mk]

theorem State.clearTree_led {s : State} {e : Nat} {t : Nat} (h_s : s.Led l0) : (State.clearTree s e t).Led l0 := by
  unfold State.clearTree
  try dsimp only [State.take]
  with_reducible repeat' first
    | assumption
    | apply State.dropWaitOn_led
    | apply State.led_foldl
    | (intro _ _ _; try dsimp only)
    | split
    | simp only [State.led_mk]

theorem State.switchTo_led {s : State} {e : Nat} {t : Nat} (h_s : s.Led l0) : (State.switchTo s e t).Led l0 := by
  unfold State.switchTo
  try dsimp only [State.take]
  with_reducible repeat' first
    | assumption
    | apply State.chargeTime_led
    | apply State.wr_led
    | apply State.setEngine_led
    | apply State.clearTree_led
    | apply State.led_foldl
    | (intro _ _ _; try dsimp only)
    | split
    | simp only [State.led_mk]

theorem State.cutDeficit_led {s : State} {q : Nat} (h_s : s.Led l0) : (State.cutDeficit s q).Led l0 := by
  unfold State.cutDeficit
  try dsimp only [State.take]
  with_reducible repeat' first
    | assumption
    | apply State.setQueue_led
    | apply State.led_foldl
    | (intro _ _ _; try dsimp only)
    | split
    | simp only [State.led_mk]

theorem State.boundary_led {s : State} {e : Nat} (h_s : s.Led l0) : (State.boundary s e).Led l0 := by
  unfold State.boundary
  try dsimp only [State.take]
  with_reducible repeat' first
    | assumption
    | apply State.cutDeficit_led
    | apply State.setEngine_led
    | apply State.takeHead_led
    | refine State.choose_led_eq ?_ (by assumption)
    | apply State.switchTo_led
    | apply State.led_foldl
    | (intro _ _ _; try dsimp only)
    | split
    | simp only [State.led_mk]

theorem State.copyBoundary_led {s : State} {p : Nat} (h_s : s.Led l0) : (State.copyBoundary s p).Led l0 := by
  unfold State.copyBoundary
  try dsimp only [State.take]
  with_reducible repeat' first
    | assumption
    | apply State.cutDeficit_led
    | apply State.takeHead_led
    | refine State.choose_led_eq ?_ (by assumption)
    | apply State.setPorter_led
    | apply State.led_foldl
    | (intro _ _ _; try dsimp only)
    | split
    | simp only [State.led_mk]

theorem State.kick_led {s : State} (h_s : s.Led l0) : (State.kick s).Led l0 := by
  unfold State.kick
  try dsimp only [State.take]
  with_reducible repeat' first
    | assumption
    | apply State.copyBoundary_led
    | apply State.boundary_led
    | apply State.led_foldl
    | (intro _ _ _; try dsimp only)
    | split
    | simp only [State.led_mk]

end Sys2Proof.Machine
end

