-- ==== Sys2Proof/Laws/LedgerAbort.lean ====
section
/-!
SUPPORT. What the functions of Machine/Abort.lean do to the Ledger (Ledger.lean).
-/
namespace Sys2Proof.Machine

variable {l0 : Ledger × Ostler}

theorem State.raiseQueueDone_led {s : State} {q : Nat} (h_s : s.Led l0) : (State.raiseQueueDone s q).Led l0 := by
  unfold State.raiseQueueDone
  try dsimp only [State.take]
  with_reducible repeat' first
    | assumption
    | apply State.raise_led
    | apply State.led_foldl
    | (intro _ _ _; try dsimp only)
    | split
    | simp only [State.led_mk]

theorem State.writeRecord_led {s : State} {c : Cmd} {status : Nat} {astat : Nat} {eng : Nat} (h_s : s.Led l0) : (State.writeRecord s c status astat eng).Led l0 := by
  unfold State.writeRecord
  try dsimp only [State.take]
  with_reducible repeat' first
    | assumption
    | apply State.hbmWrite_led
    | apply State.raiseQueueDone_led
    | apply State.chargeHbm_led
    | apply State.led_foldl
    | (intro _ _ _; try dsimp only)
    | split
    | simp only [State.led_mk]

theorem State.stopQueue_led {s : State} {code : Nat} {q : Nat} (h_s : s.Led l0) : (State.stopQueue s code q).Led l0 := by
  unfold State.stopQueue
  try dsimp only [State.take]
  with_reducible repeat' first
    | assumption
    | apply State.setQueue_led
    | apply State.wr_led
    | apply State.wb_led
    | apply State.pf_led
    | apply State.led_foldl
    | (intro _ _ _; try dsimp only)
    | split
    | simp only [State.led_mk]

theorem State.stopRuns_led {s : State} {t : Nat} (h_s : s.Led l0) : (State.stopRuns s t).Led l0 := by
  unfold State.stopRuns
  try dsimp only [State.take]
  with_reducible repeat' first
    | assumption
    | apply State.setEngine_led
    | apply State.setPorter_led
    | apply State.led_foldl
    | (intro _ _ _; try dsimp only)
    | split
    | simp only [State.led_mk]

theorem State.cutSource_led {s : State} {t : TxPkt} (h_s : s.Led l0) : (State.cutSource s t).Led l0 := by
  unfold State.cutSource
  try dsimp only [State.take]
  with_reducible repeat' first
    | assumption
    | apply State.setPort_led
    | apply State.led_foldl
    | (intro _ _ _; try dsimp only)
    | split
    | simp only [State.led_mk]

theorem State.purge_led {s : State} {t : Nat} {epoch : Nat} (h_s : s.Led l0) : (State.purge s t epoch).Led l0 := by
  unfold State.purge
  try dsimp only [State.take]
  with_reducible repeat' first
    | assumption
    | apply State.setPort_led
    | apply State.cutSource_led
    | apply State.led_foldl
    | (intro _ _ _; try dsimp only)
    | split
    | simp only [State.led_mk]

theorem State.clearTally_led {s : State} {t : Nat} (h_s : s.Led l0) : (State.clearTally s t).Led l0 := by
  unfold State.clearTally
  try dsimp only [State.take]
  with_reducible repeat' first
    | assumption
    | apply State.led_foldl
    | (intro _ _ _; try dsimp only)
    | split
    | simp only [State.led_mk]

theorem State.zeroParts_led {s : State} {t : Nat} (h_s : s.Led l0) : (State.zeroParts s t).Led l0 := by
  unfold State.zeroParts
  try dsimp only [State.take]
  with_reducible repeat' first
    | assumption
    | apply State.setEngine_led
    | apply State.spZero_led
    | apply State.led_foldl
    | (intro _ _ _; try dsimp only)
    | split
    | simp only [State.led_mk]

theorem State.countDone_led {s : State} {src : Nat} (h_s : s.Led l0) : (State.countDone s src).Led l0 := by
  unfold State.countDone
  try dsimp only [State.take]
  with_reducible repeat' first
    | assumption
    | apply State.wr64_led
    | apply State.raise_led
    | apply State.led_foldl
    | (intro _ _ _; try dsimp only)
    | split
    | simp only [State.led_mk]

theorem State.reportDone_led {s : State} {t : Nat} (h_s : s.Led l0) : (State.reportDone s t).Led l0 := by
  unfold State.reportDone
  try dsimp only [State.take]
  with_reducible repeat' first
    | assumption
    | apply State.sendSb_led
    | apply State.countDone_led
    | apply State.led_foldl
    | (intro _ _ _; try dsimp only)
    | split
    | simp only [State.led_mk]

theorem State.haltQueue_led {s : State} {q : Nat} (h_s : s.Led l0) : (State.haltQueue s q).Led l0 := by
  unfold State.haltQueue
  try dsimp only [State.take]
  with_reducible repeat' first
    | assumption
    | apply State.setQueue_led
    | apply State.wb_led
    | apply State.led_foldl
    | (intro _ _ _; try dsimp only)
    | split
    | simp only [State.led_mk]

theorem State.dropPicked_led {s : State} {t : Nat} (h_s : s.Led l0) : (State.dropPicked s t).Led l0 := by
  unfold State.dropPicked
  try dsimp only [State.take]
  with_reducible repeat' first
    | assumption
    | apply State.setEngine_led
    | apply State.setPorter_led
    | apply State.led_foldl
    | (intro _ _ _; try dsimp only)
    | split
    | simp only [State.led_mk]

theorem State.startRelease_led {s : State} {t : Nat} (h_s : s.Led l0) : (State.startRelease s t).Led l0 := by
  unfold State.startRelease
  try dsimp only [State.take]
  with_reducible repeat' first
    | assumption
    | apply State.setTenant_led
    | apply State.haltQueue_led
    | apply State.dropPicked_led
    | apply State.wr_led
    | apply State.wb_led
    | apply State.setTnState_led
    | apply State.pf_led
    | apply State.led_foldl
    | (intro _ _ _; try dsimp only)
    | split
    | simp only [State.led_mk]

theorem State.finishAbort_led {s : State} {t : Nat} (h_s : s.Led l0) : (State.finishAbort s t).Led l0 := by
  unfold State.finishAbort
  try dsimp only [State.take]
  with_reducible repeat' first
    | assumption
    | apply State.startRelease_led
    | apply State.reportDone_led
    | apply State.setTnState_led
    | apply State.led_foldl
    | (intro _ _ _; try dsimp only)
    | split
    | simp only [State.led_mk]

theorem State.localAbort_led {s : State} {t : Nat} {epoch : Nat} {origin : Nat} {code : Nat} (h_s : s.Led l0) : (State.localAbort s t epoch origin code).Led l0 := by
  unfold State.localAbort
  try dsimp only [State.take]
  with_reducible repeat' first
    | assumption
    | apply State.stopQueue_led
    | apply State.kick_led
    | apply State.wr64_led
    | apply State.clearTally_led
    | apply State.wr_led
    | apply State.zeroParts_led
    | apply State.raise_led
    | apply State.purge_led
    | apply State.finishAbort_led
    | apply State.setTnState_led
    | apply State.pf_led
    | apply State.stopRuns_led
    | apply State.led_foldl
    | (intro _ _ _; try dsimp only)
    | split
    | simp only [State.led_mk]

theorem State.abortJob_led {s : State} {t : Nat} {code : Nat} (h_s : s.Led l0) : (State.abortJob s t code).Led l0 := by
  unfold State.abortJob
  try dsimp only [State.take]
  with_reducible repeat' first
    | assumption
    | apply State.flood_led
    | apply State.localAbort_led
    | apply State.led_foldl
    | (intro _ _ _; try dsimp only)
    | split
    | simp only [State.led_mk]

theorem State.jobFault_led {s : State} {page : Nat} {code : Nat} {info : Nat} {t : Nat} (h_s : s.Led l0) : (State.jobFault s page code info t).Led l0 := by
  unfold State.jobFault
  try dsimp only [State.take]
  with_reducible repeat' first
    | assumption
    | apply State.recordFault_led
    | apply State.abortJob_led
    | apply State.logEvent_led
    | apply State.led_foldl
    | (intro _ _ _; try dsimp only)
    | split
    | simp only [State.led_mk]

theorem State.failCmd_led {s : State} {page : Nat} {code : Nat} {info : Nat} {c : Cmd} {eng : Nat} {astat : Nat} (h_s : s.Led l0) : (State.failCmd s page code info c eng astat).Led l0 := by
  unfold State.failCmd
  try dsimp only [State.take]
  with_reducible repeat' first
    | assumption
    | apply State.writeRecord_led
    | apply State.jobFault_led
    | apply State.led_foldl
    | (intro _ _ _; try dsimp only)
    | split
    | simp only [State.led_mk]

end Sys2Proof.Machine
end

