-- ==== Sys2Proof/Laws/LedgerMilepost.lean ====
section
/-!
SUPPORT. What the functions of Machine/Milepost.lean do to the Ledger (Ledger.lean).
-/
namespace Sys2Proof.Machine

variable {l0 : Ledger × Ostler}

theorem State.setGen_led {s : State} {g : Nat} {x : Gen} (h_s : s.Led l0) : (State.setGen s g x).Led l0 := by
  unfold State.setGen
  try dsimp only [State.take]
  with_reducible repeat' first
    | assumption
    | apply State.led_foldl
    | (intro _ _ _; try dsimp only)
    | split
    | simp only [State.led_mk]

theorem State.setWbEntry_led {s : State} {e : Nat} {x : WbEntry} (h_s : s.Led l0) : (State.setWbEntry s e x).Led l0 := by
  unfold State.setWbEntry
  try dsimp only [State.take]
  with_reducible repeat' first
    | assumption
    | apply State.led_foldl
    | (intro _ _ _; try dsimp only)
    | split
    | simp only [State.led_mk]

theorem State.rearm_led {s : State} {g : Nat} (h_s : s.Led l0) : (State.rearm s g).Led l0 := by
  unfold State.rearm
  try dsimp only [State.take]
  with_reducible repeat' first
    | assumption
    | apply State.setWbEntry_led
    | apply State.led_foldl
    | (intro _ _ _; try dsimp only)
    | split
    | simp only [State.led_mk]

theorem State.markLate_led {s : State} {e : Nat} (h_s : s.Led l0) : (State.markLate s e).Led l0 := by
  unfold State.markLate
  try dsimp only [State.take]
  with_reducible repeat' first
    | assumption
    | apply State.logNamed_led
    | apply State.addSat_led
    | apply State.raise_led
    | apply State.wb_led
    | apply State.led_foldl
    | (intro _ _ _; try dsimp only)
    | split
    | simp only [State.led_mk]

theorem State.pushDue_led {s : State} {g : Nat} {e : Nat} {late : Bool} (h_s : s.Led l0) : (State.pushDue s g e late).Led l0 := by
  unfold State.pushDue
  try dsimp only [State.take]
  with_reducible repeat' first
    | assumption
    | apply State.markLate_led
    | apply State.led_foldl
    | (intro _ _ _; try dsimp only)
    | split
    | simp only [State.led_mk]

theorem State.moveEntries_led {s : State} {g m a b : Nat} {quiet : Bool} (h_s : s.Led l0) : (State.moveEntries s g m a b quiet).1.Led l0 := by
  unfold State.moveEntries
  dsimp only
  refine State.led_foldl_fst h_s fun t x h => ?_
  split
  · exact State.setWbEntry_led h
  · exact h

theorem State.moveEntries_led_eq {s y : State} {g m a b : Nat} {quiet : Bool} {x} (h_s : s.Led l0) (he : State.moveEntries s g m a b quiet = (y, x)) :
    y.Led l0 := by
  have h := State.moveEntries_led (l0 := l0) (g := g) (m := m) (a := a) (b := b) (quiet := quiet) h_s
  rw [he] at h
  exact h

theorem State.showMove_led {s : State} {g : Nat} {b : Nat} {sign : Int} (h_s : s.Led l0) : (State.showMove s g b sign).Led l0 := by
  unfold State.showMove
  try dsimp only [State.take]
  with_reducible repeat' first
    | assumption
    | apply State.wr_led
    | apply State.wb_led
    | apply State.led_foldl
    | (intro _ _ _; try dsimp only)
    | split
    | simp only [State.led_mk]

theorem State.pgMove_led {s : State} {g : Nat} {a : Nat} {b : Nat} {v : Move} (h_s : s.Led l0) : (State.pgMove s g a b v).Led l0 := by
  unfold State.pgMove
  try dsimp only [State.take]
  with_reducible repeat' first
    | assumption
    | apply State.moveEntries_led
    | refine State.moveEntries_led_eq ?_ (by assumption)
    | apply State.logNamed_led
    | apply State.showMove_led
    | apply State.raise_led
    | apply State.wb_led
    | apply State.pushDue_led
    | apply State.rearm_led
    | apply State.led_foldl
    | (intro _ _ _; try dsimp only)
    | split
    | simp only [State.led_mk]

theorem State.moveTo_led {s : State} {g : Nat} {x : Gen} {v : Move} (h_s : s.Led l0) : (State.moveTo s g x v).Led l0 := by
  unfold State.moveTo
  try dsimp only [State.take]
  with_reducible repeat' first
    | assumption
    | apply State.setGen_led
    | apply State.pgMove_led
    | apply State.led_foldl
    | (intro _ _ _; try dsimp only)
    | split
    | simp only [State.led_mk]

theorem State.shaftMove_led {s : State} {n : Nat} {c : Int} (h_s : s.Led l0) : (State.shaftMove s n c).Led l0 := by
  unfold State.shaftMove
  try dsimp only [State.take]
  with_reducible repeat' first
    | assumption
    | apply State.moveTo_led
    | apply State.led_foldl
    | (intro _ _ _; try dsimp only)
    | split
    | simp only [State.led_mk]

end Sys2Proof.Machine
end

