-- ==== Sys2Proof/Laws/LedgerEncoder.lean ====
section
/-!
SUPPORT. What the functions of Machine/Encoder.lean do to the Ledger (Ledger.lean).
-/
namespace Sys2Proof.Machine

variable {l0 : Ledger × Ostler}

theorem State.showPos_led {s : State} {n : Nat} {count : Int} (h_s : s.Led l0) : (State.showPos s n count).Led l0 := by
  unfold State.showPos
  try dsimp only [State.take]
  with_reducible repeat' first
    | assumption
    | apply State.wr_led
    | apply State.led_foldl
    | (intro _ _ _; try dsimp only)
    | split
    | simp only [State.led_mk]

theorem State.setPos_led {s : State} {n : Nat} {count : Int} (h_s : s.Led l0) : (State.setPos s n count).Led l0 := by
  unfold State.setPos
  try dsimp only [State.take]
  with_reducible repeat' first
    | assumption
    | apply State.shaftMove_led
    | apply State.showPos_led
    | apply State.led_foldl
    | (intro _ _ _; try dsimp only)
    | split
    | simp only [State.led_mk]

end Sys2Proof.Machine
end

