-- ==== Sys2Proof/Laws/LedgerHeld.lean ====
section
/-!
SUPPORT. What the functions of Machine/Held.lean do to the Ledger (Ledger.lean).
-/
namespace Sys2Proof.Machine

variable {l0 : Ledger × Ostler}

theorem State.sendPacket_led {s : State} {k : Packet} (h_s : s.Led l0) : (State.sendPacket s k).Led l0 := by
  unfold State.sendPacket
  try dsimp only [State.take]
  with_reducible repeat' first
    | assumption
    | apply State.enqueue_led
    | apply State.chargeLink_led
    | apply State.led_foldl
    | (intro _ _ _; try dsimp only)
    | split
    | simp only [State.led_mk]

theorem State.answer_led {s : State} {k : Packet} {op : PktOp} {addr : Nat} {data : List Byte} (h_s : s.Led l0) : (State.answer s k op addr data).Led l0 := by
  unfold State.answer
  try dsimp only [State.take]
  with_reducible repeat' first
    | assumption
    | apply State.sendPacket_led
    | apply State.led_foldl
    | (intro _ _ _; try dsimp only)
    | split
    | simp only [State.led_mk]

theorem State.porterFault_led {s : State} {p : Nat} {code : Nat} {info : Nat} {addr : Nat} {c : Cmd} (h_s : s.Led l0) : (State.porterFault s p code info addr c).Led l0 := by
  unfold State.porterFault
  try dsimp only [State.take]
  with_reducible repeat' first
    | assumption
    | apply State.wr64_led
    | apply State.failCmd_led
    | apply State.led_foldl
    | (intro _ _ _; try dsimp only)
    | split
    | simp only [State.led_mk]

theorem State.failReq_led {s : State} {r : Req} {code : Nat} {info : Nat} (h_s : s.Led l0) : (State.failReq s r code info).Led l0 := by
  unfold State.failReq
  try dsimp only [State.take]
  with_reducible repeat' first
    | assumption
    | apply State.porterFault_led
    | apply State.failCmd_led
    | apply State.led_foldl
    | (intro _ _ _; try dsimp only)
    | split
    | simp only [State.led_mk]

theorem State.pxErr_led {s : State} {cause : Nat} {dest : Nat} {window : Nat} (h_s : s.Led l0) : (State.pxErr s cause dest window).Led l0 := by
  unfold State.pxErr
  try dsimp only [State.take]
  with_reducible repeat' first
    | assumption
    | apply State.wr_led
    | apply State.raise_led
    | apply State.led_foldl
    | (intro _ _ _; try dsimp only)
    | split
    | simp only [State.led_mk]

theorem State.sendProxy_led {s : State} {x : Proxy} (h_s : s.Led l0) : (State.sendProxy s x).Led l0 := by
  unfold State.sendProxy
  try dsimp only [State.take]
  with_reducible repeat' first
    | assumption
    | apply State.sendPacket_led
    | apply State.led_foldl
    | (intro _ _ _; try dsimp only)
    | split
    | simp only [State.led_mk]

theorem State.sendProxies_led {s : State} (h_s : s.Led l0) : (State.sendProxies s).Led l0 := by
  unfold State.sendProxies
  try dsimp only [State.take]
  with_reducible repeat' first
    | assumption
    | apply State.sendProxy_led
    | apply State.led_foldl
    | (intro _ _ _; try dsimp only)
    | split
    | simp only [State.led_mk]

theorem State.failProxy_led {s : State} {x : Proxy} {cause : Nat} (h_s : s.Led l0) : (State.failProxy s x cause).Led l0 := by
  unfold State.failProxy
  try dsimp only [State.take]
  with_reducible repeat' first
    | assumption
    | apply State.pxErr_led
    | apply State.sendProxies_led
    | apply State.led_foldl
    | (intro _ _ _; try dsimp only)
    | split
    | simp only [State.led_mk]

theorem State.toState_led {s : State} {p : Nat} {v : Nat} (h_s : s.Led l0) : (State.toState s p v).Led l0 := by
  unfold State.toState
  try dsimp only [State.take]
  with_reducible repeat' first
    | assumption
    | apply State.setLstate_led
    | apply State.raise_led
    | apply State.led_foldl
    | (intro _ _ _; try dsimp only)
    | split
    | simp only [State.led_mk]

theorem State.failArrival_led {s : State} {r : Req} {code : Nat} {info : Nat} (h_s : s.Led l0) : (State.failArrival s r code info).Led l0 := by
  unfold State.failArrival
  try dsimp only [State.take]
  with_reducible repeat' first
    | assumption
    | apply State.jobFault_led
    | apply State.led_foldl
    | (intro _ _ _; try dsimp only)
    | split
    | simp only [State.led_mk]

theorem State.loseTx_led {p : Nat} {s : State} {t : TxPkt} (h_s : s.Led l0) : (State.loseTx p s t).Led l0 := by
  unfold State.loseTx
  try dsimp only [State.take]
  with_reducible repeat' first
    | assumption
    | apply State.answer_led
    | apply State.failArrival_led
    | apply State.failProxy_led
    | apply State.jobFault_led
    | apply State.cutSource_led
    | apply State.failReq_led
    | apply State.led_foldl
    | (intro _ _ _; try dsimp only)
    | split
    | simp only [State.led_mk]

theorem State.cutThrough_led {s : State} {p : Nat} (h_s : s.Led l0) : (State.cutThrough s p).Led l0 := by
  unfold State.cutThrough
  try dsimp only [State.take]
  with_reducible repeat' first
    | assumption
    | apply State.setPort_led
    | apply State.led_foldl
    | (intro _ _ _; try dsimp only)
    | split
    | simp only [State.led_mk]

theorem State.leaveUp_led {s : State} {p : Nat} (h_s : s.Led l0) : (State.leaveUp s p).Led l0 := by
  unfold State.leaveUp
  try dsimp only [State.take]
  with_reducible repeat' first
    | assumption
    | apply State.cutThrough_led
    | apply State.setPort_led
    | apply State.toState_led
    | apply State.loseTx_led
    | apply State.led_foldl
    | (intro _ _ _; try dsimp only)
    | split
    | simp only [State.led_mk]

theorem State.powerOff_led {s : State} {p : Nat} (h_s : s.Led l0) : (State.powerOff s p).Led l0 := by
  unfold State.powerOff
  try dsimp only [State.take]
  with_reducible repeat' first
    | assumption
    | apply State.leaveUp_led
    | apply State.toState_led
    | apply State.pf_led
    | apply State.led_foldl
    | (intro _ _ _; try dsimp only)
    | split
    | simp only [State.led_mk]

end Sys2Proof.Machine
end

