-- ==== Sys2Proof/Laws/KeepLedger.lean ====
section
/-!
SUPPORT. Every function of Machine/Ledger.lean keeps the invariant of the step.
-/
namespace Sys2Proof.Machine

variable {made : Fuses}

theorem setLedger_inv {s : State} {l : Ledger} (hl : l.queue.length ≤ 16) (h : s.Inv made) : (setLedger s l).Inv made := by
  obtain ⟨h1, h2, hf⟩ := State.inv_iff.1 h
  exact State.inv_iff.2 ⟨h1, ⟨h2.1, hl⟩, hf⟩

theorem State.inForce_inv {s : State} {w : Nat} (h_s : s.Inv made) : (State.inForce s w).Inv made := by
  unfold State.inForce
  try dsimp only [State.take]
  with_reducible repeat' first
    | assumption
    | apply State.powerOff_inv
    | apply State.setPos_inv
    | apply State.inv_foldl
    | (intro _ _ _; try dsimp only)
    | split
    | simp only [State.inv_mk]

theorem State.force_inv {s : State} {w : Nat} {v : Word} (h_s : s.Inv made) : (State.force s w v).Inv made := by
  unfold State.force
  dsimp only
  have h := setLedger_inv (l := { s.ledger with ram := mapSet dfltW s.ledger.ram w v }) (State.inv_lqueue h_s) h_s
  split
  · exact State.inForce_inv (State.wr_inv h)
  · exact h

theorem State.inForce_led {s : State} {w : Nat} : (s.inForce w).Led (s.ledger, s.ost) := by
  unfold State.inForce
  split
  · exact State.setPos_led rfl
  · split
    · exact State.powerOff_led rfl
    · rfl

theorem State.inForce_ledger {s : State} {w : Nat} : (s.inForce w).ledger = s.ledger := congrArg Prod.fst State.inForce_led

theorem State.force_ledger {s : State} {w : Nat} {v : Word} :
    (s.force w v).ledger = { s.ledger with ram := mapSet dfltW s.ledger.ram w v } := by
  unfold State.force
  dsimp only
  split
  · rw [State.inForce_ledger]
    rfl
  · rfl

theorem State.force_ost {s : State} {w : Nat} {v : Word} : (s.force w v).ost = s.ost := by
  unfold State.force
  dsimp only
  split
  · exact congrArg Prod.snd State.inForce_led
  · rfl

theorem putLog_fifo {g : EventLog} {l : List LogRec} : (putLog g l).fifo = g.fifo := by
  induction l generalizing g with
  | nil => rfl
  | cons r t ih =>
    unfold putLog
    dsimp only
    rw [ih]

theorem EventLog.written_fifo {g : EventLog} (h : g.fifo.length ≤ 128) : g.written.fifo.length ≤ 128 := by
  unfold EventLog.written
  dsimp only
  have hd : ((putLog g g.page).fifo.drop 8).length ≤ 128 - 8 := by
    rw [putLog_fifo, List.length_drop]
    omega
  split
  · dsimp only
    omega
  · split
    · dsimp only
      omega
    · simp only [List.length_append, List.length_singleton]
      omega

theorem execLogPageWritten_inv {s : State} (h_s : s.Inv made) : Keeps made (execLogPageWritten s) :=
  Keeps.next (State.inv_log (EventLog.written_fifo (State.inv_fifo h_s)) h_s)

theorem drainLog_fifo {n : Nat} {g : EventLog} (h : g.fifo.length ≤ 128) : (drainLog n g).fifo.length ≤ 128 := by
  induction n generalizing g with
  | zero => exact h
  | succ n ih =>
    unfold drainLog
    split
    · exact h
    · exact ih (EventLog.written_fifo h)

theorem State.noteRepair_inv {s : State} {row : Nat} (h_s : s.Inv made) : (State.noteRepair s row).Inv made := by
  unfold State.noteRepair
  with_reducible repeat' first
    | assumption
    | apply State.pf_inv
    | apply State.wb_inv
    | apply State.incSat_inv
    | apply State.logNamed_inv

theorem State.newMaster_inv {s : State} {w : Nat} {v : Word} (h_s : s.Inv made) : (State.newMaster s w v).Inv made := by
  unfold State.newMaster
  try dsimp only [State.take]
  with_reducible repeat' first
    | assumption
    | apply State.pf_inv
    | apply State.inv_foldl
    | (intro _ _ _; try dsimp only)
    | split
    | simp only [State.inv_mk]

theorem State.logEvent_ledger {s : State} {page code cls info t : Nat} : (s.logEvent page code cls info t).ledger = s.ledger := by
  unfold State.logEvent
  split <;> rfl

theorem State.newMaster_ledger {s : State} {w : Nat} {v : Word} : (State.newMaster s w v).ledger = s.ledger := by
  unfold State.newMaster
  split <;> rfl

theorem State.program_inv {s : State} {x : LWrite} (h_s : s.Inv made) : (State.program s x).Inv made := by
  unfold State.program
  dsimp only
  have h0 : ((s.newMaster x.word x.value).force x.word x.value).Inv made := State.force_inv (State.newMaster_inv h_s)
  have h1 := State.inv_lqueue h0
  with_reducible repeat' first
    | exact h0
    | exact h1
    | apply setLedger_inv
    | apply State.logNamed_inv
    | split

/-- Programming a row leaves the queue alone. -/
theorem State.program_queue {s : State} {x : LWrite} :
    (State.program s x).ledger.queue = s.ledger.queue ∧ (State.program s x).ledger.prog = s.ledger.prog := by
  have h : ((s.newMaster x.word x.value).force x.word x.value).ledger.queue = s.ledger.queue ∧
      ((s.newMaster x.word x.value).force x.word x.value).ledger.prog = s.ledger.prog := by
    rw [State.force_ledger, State.newMaster_ledger]
    exact ⟨rfl, rfl⟩
  unfold State.program
  generalize (s.newMaster x.word x.value).force x.word x.value = u at h ⊢
  dsimp only
  split <;> split <;> first
    | exact h
    | (unfold State.logNamed; rw [State.logEvent_ledger]; exact h)

theorem State.refuseWrite_inv {s : State} {w : Nat} (h_s : s.Inv made) : (State.refuseWrite s w).Inv made := by
  unfold State.refuseWrite
  try dsimp only [State.take]
  with_reducible repeat' first
    | assumption
    | apply State.logNamed_inv
    | apply State.wb_inv
    | apply State.inv_foldl
    | (intro _ _ _; try dsimp only)
    | split
    | simp only [State.inv_mk]

theorem State.dequeue_inv {s : State} (h_s : s.Inv made) : (State.dequeue s).Inv made := by
  unfold State.dequeue
  split
  · exact h_s
  · split
    · exact h_s
    · rename_i x r hq
      have hl := State.inv_lqueue h_s
      rw [hq, List.length_cons] at hl
      have hr : r.length ≤ 16 := by omega
      have h := setLedger_inv (l := { s.ledger with queue := r }) hr h_s
      dsimp only
      split
      · exact setLedger_inv hr h
      · exact State.refuseWrite_inv h

theorem State.cutWrite_inv {s : State} {x : LWrite} (h_s : s.Inv made) : (State.cutWrite s x).Inv made := by
  have h0 := setLedger_inv (l := { s.ledger with prog := none }) (State.inv_lqueue h_s) h_s
  unfold State.cutWrite
  exact setLedger_inv (State.inv_lqueue h0) h0

theorem State.spoil_inv {s : State} {row : Nat} {a b : Bool} (h_s : s.Inv made) : (State.spoil s row a b).Inv made := by
  unfold State.spoil
  split
  · exact h_s
  · exact setLedger_inv (State.inv_lqueue h_s) h_s

theorem State.writeDone_inv {s : State} (h_s : s.Inv made) : (State.writeDone s).Inv made := by
  unfold State.writeDone
  split
  · exact h_s
  · exact State.program_inv (setLedger_inv (State.inv_lqueue h_s) h_s)

theorem execLedgerDequeue_inv {s : State} (h_s : s.Inv made) : Keeps made (execLedgerDequeue s) := by
  unfold execLedgerDequeue
  try dsimp only [State.take]
  with_reducible repeat' first
    | assumption
    | apply Keeps.next
    | apply State.dequeue_inv
    | apply State.inv_foldl
    | (intro _ _ _; try dsimp only)
    | split
    | simp only [State.inv_mk]

theorem State.writeDone_queue {s : State} : s.writeDone.ledger.queue = s.ledger.queue ∧ s.writeDone.ledger.prog = none := by
  unfold State.writeDone
  split
  · exact ⟨rfl, by assumption⟩
  · exact State.program_queue

theorem execLedgerWriteDone_inv {failed : Bool} {s : State} (h_s : s.Inv made) : Keeps made (execLedgerWriteDone failed s) := by
  unfold execLedgerWriteDone
  split
  · split
    · exact Keeps.next (State.wb_inv (setLedger_inv (State.inv_lqueue h_s) h_s))
    · exact Keeps.next (State.writeDone_inv h_s)
  · exact Keeps.next h_s

theorem State.drainLedger_inv {s : State} {n : Nat} (h_s : s.Inv made) : (State.drainLedger s n).Inv made := by
  induction n generalizing s with
  | zero => exact State.writeDone_inv h_s
  | succ n ih =>
    unfold State.drainLedger
    exact ih (State.dequeue_inv (State.writeDone_inv h_s))

theorem State.refuseWrite_ledger {s : State} {w : Nat} : (s.refuseWrite w).ledger = s.ledger := by
  unfold State.refuseWrite State.logNamed
  dsimp only
  rw [State.logEvent_ledger]
  split <;> rfl

/-- With nothing being programmed, a write that leaves the queue leaves it one shorter. -/
theorem State.dequeue_queue {s : State} (h : s.ledger.prog = none) : s.dequeue.ledger.queue = s.ledger.queue.tail := by
  unfold State.dequeue
  rw [h]
  split
  · rename_i hn
    cases hn
  · split
    · rename_i hq
      rw [hq]
      rfl
    · rename_i x r hq
      rw [hq]
      dsimp only
      split
      · rfl
      · rw [State.refuseWrite_ledger]
        rfl

theorem State.ledgerPush_inv {s : State} {w : Nat} {v : Word} (h_s : s.Inv made) : (State.ledgerPush s w v).Inv made := by
  have hq := State.inv_lqueue h_s
  unfold State.ledgerPush
  dsimp only
  by_cases h16 : 16 ≤ s.ledger.queue.length
  · rw [if_pos h16]
    refine setLedger_inv ?_ (State.dequeue_inv (State.writeDone_inv h_s))
    have hw := State.writeDone_queue (s := s)
    dsimp only
    rw [State.dequeue_queue hw.2, hw.1, List.length_append, List.length_tail, List.length_singleton]
    omega
  · rw [if_neg h16]
    refine setLedger_inv ?_ h_s
    dsimp only
    rw [List.length_append, List.length_singleton]
    omega

theorem State.ledgerNow_inv {s : State} {w : Nat} {v : Word} {exempt : Bool} (h_s : s.Inv made) : (State.ledgerNow s w v exempt).1.Inv made := by
  unfold State.ledgerNow
  try dsimp only [State.take]
  with_reducible repeat' first
    | assumption
    | apply State.program_inv
    | apply State.refuseWrite_inv
    | apply State.drainLedger_inv
    | split

theorem State.ledgerNow_inv_eq {s : State} {w : Nat} {v : Word} {exempt : Bool} {y : State}  {x} (h_s : s.Inv made) (he : State.ledgerNow s w v exempt = (y, x)) : y.Inv made := by
  have := State.ledgerNow_inv (made := made) (s := s) (w := w) (v := v) (exempt := exempt) h_s
  rw [he] at this
  exact this

theorem State.ledgerAll_inv {s : State} {l : List (Nat × Word)} (h_s : s.Inv made) : (State.ledgerAll s l).1.Inv made := by
  unfold State.ledgerAll
  try dsimp only [State.take]
  with_reducible repeat' first
    | assumption
    | apply State.program_inv
    | apply State.refuseWrite_inv
    | apply State.drainLedger_inv
    | apply State.inv_foldl
    | (intro _ _ _; try dsimp only)
    | split

theorem State.ledgerAll_inv_eq {s : State} {l : List (Nat × Word)} {y : State}  {x} (h_s : s.Inv made) (he : State.ledgerAll s l = (y, x)) : y.Inv made := by
  have := State.ledgerAll_inv (made := made) (s := s) (l := l) h_s
  rw [he] at this
  exact this

theorem execLedgerScan_inv {a b : Bool} {s : State} (h_s : s.Inv made) : Keeps made (execLedgerScan a b s) := by
  unfold execLedgerScan
  dsimp only
  have h0 := State.spoil_inv (row := s.ledger.scan) (a := a) (b := b)
    (setLedger_inv (l := { s.ledger with scan := (s.ledger.scan + 1) % 256 }) (State.inv_lqueue h_s) h_s)
  split
  · exact Keeps.next h0
  · exact Keeps.next (State.noteRepair_inv (setLedger_inv (State.inv_lqueue h0) h0))
  · exact Keeps.next (State.logNamed_inv h0)

theorem State.forceRow_inv {s : State} {row : Nat} {c : LCopy} (h_s : s.Inv made) : (State.forceRow s row c).Inv made := by
  unfold State.forceRow
  try dsimp only [State.take]
  with_reducible repeat' first
    | assumption
    | apply State.force_inv
    | apply State.inv_foldl
    | (intro _ _ _; try dsimp only)
    | split
    | simp only [State.inv_mk]

theorem State.setRow_inv {s : State} {row : Nat} {c : LCopy} (h_s : s.Inv made) : (State.setRow s row c).Inv made := by
  unfold State.setRow
  exact setLedger_inv (by exact State.inv_lqueue h_s) h_s

theorem State.loadRow_inv {s : State} {row : Nat} (h_s : s.Inv made) : (State.loadRow s row).Inv made := by
  unfold State.loadRow
  try dsimp only [State.take]
  with_reducible repeat' first
    | assumption
    | apply State.logNamed_inv
    | apply State.noteRepair_inv
    | apply State.forceRow_inv
    | apply State.setRow_inv
    | split
    | simp only [State.inv_mk]

theorem State.loadLedger_inv {s : State} (h_s : s.Inv made) : (State.loadLedger s).Inv made := by
  unfold State.loadLedger
  with_reducible repeat' first
    | assumption
    | apply State.loadRow_inv
    | apply State.inv_foldl
    | (intro _ _ _; try dsimp only)

theorem State.wrRwp_inv {s : State} {a : Nat} {v : Word} (h_s : s.Inv made) : (State.wrRwp s a v).Inv made := by
  unfold State.wrRwp
  try dsimp only [State.take]
  with_reducible repeat' first
    | assumption
    | apply State.ledgerPush_inv
    | split
    | simp only [State.inv_mk]

end Sys2Proof.Machine
end

