-- ==== Sys2Proof/Laws/KeepInnkeeper.lean ====
section
/-!
SUPPORT. Every function of Machine/Innkeeper.lean keeps the invariant of the step.
-/
namespace Sys2Proof.Machine

variable {made : Fuses}

theorem State.refuse_inv {s : State} {c : Cmd} {eng : Nat} {r : Nat × Nat × Nat} (h_s : s.Inv made) : (State.refuse s c eng r).Inv made := by
  unfold State.refuse
  with_reducible repeat' first
    | assumption
    | apply State.failCmd_inv

theorem State.endHead_inv {s : State} {q : Nat} {c : Cmd} (h_s : s.Inv made) : (State.endHead s q c).Inv made := by
  unfold State.endHead
  try dsimp only [State.take]
  with_reducible repeat' first
    | assumption
    | apply State.writeRecord_inv
    | apply State.setQueue_inv
    | apply State.retire_inv
    | apply State.deadFills_inv
    | apply State.inv_foldl
    | (intro _ _ _; try dsimp only)
    | split
    | simp only [State.inv_mk]

theorem execArrive_inv {q : Fin 32} {s : State} (h_s : s.Inv made) : Keeps made (execArrive q s) := by
  unfold execArrive
  try dsimp only [State.take]
  with_reducible repeat' first
    | assumption
    | apply Keeps.next
    | apply State.advance_inv
    | apply State.sendArrival_inv
    | apply State.refuse_inv
    | apply State.endHead_inv
    | apply State.tallyRefuse_inv
    | split
    | simp only [State.inv_mk]

theorem State.waitCount_inv {s : State} {q : Nat} {c : Cmd} (h_s : s.Inv made) : (State.waitCount s q c).Inv made := by
  unfold State.waitCount
  try dsimp only [State.take]
  with_reducible repeat' first
    | assumption
    | apply State.addSat_inv
    | apply State.endWait_inv
    | apply State.register_inv
    | apply State.advance_inv
    | apply State.refuse_inv
    | split

theorem State.waitBar_inv {s : State} {q : Nat} {c : Cmd} {b : BarId} (h_s : s.Inv made) : (State.waitBar s q c b).Inv made := by
  unfold State.waitBar
  try dsimp only [State.take]
  with_reducible repeat' first
    | assumption
    | apply State.endWait_inv
    | apply State.register_inv
    | apply State.tallyRefuse_inv
    | apply State.advance_inv
    | split
    | simp only [State.inv_mk]

theorem execWait_inv {q : Fin 32} {s : State} (h_s : s.Inv made) : Keeps made (execWait q s) := by
  unfold execWait
  try dsimp only [State.take]
  with_reducible repeat' first
    | assumption
    | apply Keeps.next
    | apply State.refuse_inv
    | apply State.waitCount_inv
    | apply State.waitBar_inv
    | split
    | simp only [State.inv_mk]

theorem execLaunchCount_inv {q : Fin 32} {s : State} (h_s : s.Inv made) : Keeps made (execLaunchCount q s) := by
  unfold execLaunchCount
  try dsimp only [State.take]
  with_reducible repeat' first
    | assumption
    | apply Keeps.next
    | apply State.refuse_inv
    | apply State.satisfy_inv
    | apply State.advance_inv
    | apply State.inv_foldl
    | (intro _ _ _; try dsimp only)
    | split
    | simp only [State.inv_mk]

theorem execFence_inv {q : Fin 32} {s : State} (h_s : s.Inv made) : Keeps made (execFence q s) := by
  unfold execFence
  try dsimp only [State.take]
  with_reducible repeat' first
    | assumption
    | apply Keeps.next
    | apply State.setQueue_inv
    | apply State.refuse_inv
    | split
    | simp only [State.inv_mk]

theorem execFenceCompletion_inv {q : Fin 32} {s : State} (h_s : s.Inv made) : Keeps made (execFenceCompletion q s) := by
  unfold execFenceCompletion
  try dsimp only [State.take]
  with_reducible repeat' first
    | assumption
    | apply Keeps.next
    | apply State.writeRecord_inv
    | apply State.setQueue_inv
    | apply State.retire_inv
    | apply State.sendArrival_inv
    | apply State.deadFills_inv
    | apply State.pf_inv
    | apply State.advance_inv
    | apply State.inv_foldl
    | (intro _ _ _; try dsimp only)
    | split
    | simp only [State.inv_mk]

theorem State.fetch_inv {s : State} {q : Nat} {hw : HwFault} {n : Nat} {w : Word} (h_s : s.Inv made) : (State.fetch s q hw n w).Inv made := by
  induction n generalizing s w with
  | zero => exact h_s
  | succ n ih =>
    unfold State.fetch
    dsimp only
    split
    · exact State.jobFault_inv h_s
    · exact State.regionConflict_inv h_s
    · have h0 : (if hbmHits hw (s.rd64 (qReg q 0) + 64 * (w.toNat % 2 ^ s.rf (qReg q 8) 12 8)) 64 then s.hbmNote hw else s).Inv made := by
        split
        · exact State.hbmNote_inv h_s
        · exact h_s
      split
      · exact State.jobFault_inv h0
      · exact ih (State.wr_inv (State.setQueue_inv h0))

theorem execQueueFetch_inv {q : Fin 32} {hw : HwFault} {s : State} (h_s : s.Inv made) : Keeps made (execQueueFetch q hw s) := by
  unfold execQueueFetch
  try dsimp only [State.take]
  with_reducible repeat' first
    | assumption
    | apply Keeps.next
    | apply State.fetch_inv
    | apply State.advance_inv
    | apply State.inv_foldl
    | (intro _ _ _; try dsimp only)
    | split
    | simp only [State.inv_mk]

theorem State.charge_inv {s : State} {c : Cmd} {ns : Nat} (h_s : s.Inv made) : (State.charge s c ns).Inv made := by
  unfold State.charge
  try dsimp only [State.take]
  with_reducible repeat' first
    | assumption
    | apply State.setQueue_inv
    | apply State.setTenant_inv
    | apply State.chargeTime_inv
    | apply State.inv_foldl
    | (intro _ _ _; try dsimp only)
    | split
    | simp only [State.inv_mk]

theorem State.arriveDone_inv {s : State} {c : Cmd} {unit : Nat} (h_s : s.Inv made) : (State.arriveDone s c unit).Inv made := by
  unfold State.arriveDone
  try dsimp only [State.take]
  with_reducible repeat' first
    | assumption
    | apply State.arrive_inv
    | apply State.sendArrival_inv
    | split
    | simp only [State.inv_mk]

theorem State.completeEngine_inv {s : State} {e : Nat} (h_s : s.Inv made) : (State.completeEngine s e).Inv made := by
  unfold State.completeEngine
  try dsimp only [State.take]
  with_reducible repeat' first
    | assumption
    | apply State.writeRecord_inv
    | apply State.retire_inv
    | apply State.setEngine_inv
    | apply State.arriveDone_inv
    | apply State.charge_inv
    | apply State.deadFills_inv
    | apply State.advance_inv
    | apply State.inv_foldl
    | (intro _ _ _; try dsimp only)
    | split
    | simp only [State.inv_mk]

theorem State.completePorter_inv {s : State} {p : Nat} (h_s : s.Inv made) : (State.completePorter s p).Inv made := by
  unfold State.completePorter
  try dsimp only [State.take]
  with_reducible repeat' first
    | assumption
    | apply State.writeRecord_inv
    | apply State.retire_inv
    | apply State.arriveDone_inv
    | apply State.charge_inv
    | apply State.setPorter_inv
    | apply State.deadFills_inv
    | apply State.advance_inv
    | apply State.inv_foldl
    | (intro _ _ _; try dsimp only)
    | split
    | simp only [State.inv_mk]

theorem execCommandCompletion_inv {u : CmdUnit} {s : State} (h_s : s.Inv made) : Keeps made (execCommandCompletion u s) := by
  unfold execCommandCompletion
  try dsimp only [State.take]
  with_reducible repeat' first
    | assumption
    | apply Keeps.next
    | apply State.completeEngine_inv
    | apply State.completePorter_inv
    | split
    | simp only [State.inv_mk]

theorem execRunLimit_inv {u : CmdUnit} {s : State} (h_s : s.Inv made) : Keeps made (execRunLimit u s) := by
  unfold execRunLimit
  try dsimp only [State.take]
  with_reducible repeat' first
    | assumption
    | apply Keeps.next
    | apply State.jobFault_inv
    | split
    | simp only [State.inv_mk]

theorem State.wrQTail_inv {s : State} {q : Nat} {v : Word} (h_s : s.Inv made) : (State.wrQTail s q v).Inv made := by
  unfold State.wrQTail
  try dsimp only [State.take]
  with_reducible repeat' first
    | assumption
    | apply State.wr_inv
    | apply State.wb_inv
    | split

theorem State.wrQCfg_inv {s : State} {q : Nat} {v : Word} (h_s : s.Inv made) : (State.wrQCfg s q v).Inv made := by
  unfold State.wrQCfg
  try dsimp only [State.take]
  with_reducible repeat' first
    | assumption
    | apply State.pf_inv
    | apply State.wb_inv
    | apply State.store_inv
    | split

theorem State.wrTnRes_inv {s : State} {f : Func} {t : Nat} {v : Word} (h_s : s.Inv made) : (State.wrTnRes s f t v).Inv made := by
  unfold State.wrTnRes
  with_reducible repeat' first
    | assumption
    | apply State.wb_inv
    | apply State.store_inv
    | split

theorem State.sendHeldIrqs_inv {s : State} {t : Nat} (h_s : s.Inv made) : (State.sendHeldIrqs s t).Inv made := by
  unfold State.sendHeldIrqs
  try dsimp only [State.take]
  with_reducible repeat' first
    | assumption
    | apply State.sendTenantBits_inv
    | apply State.sendRoute_inv
    | apply State.inv_foldl
    | (intro _ _ _; try dsimp only)
    | split
    | simp only [State.inv_mk]

theorem State.enableTenant_inv {s : State} {t : Nat} (h_s : s.Inv made) : (State.enableTenant s t).Inv made := by
  unfold State.enableTenant
  try dsimp only [State.take]
  with_reducible repeat' first
    | assumption
    | apply State.setTenant_inv
    | apply State.wb_inv
    | apply State.setTnState_inv
    | apply State.advance_inv
    | apply State.sendHeldIrqs_inv
    | apply State.inv_foldl
    | (intro _ _ _; try dsimp only)
    | split

theorem State.restartTenant_inv {s : State} {t : Nat} (h_s : s.Inv made) : (State.restartTenant s t).Inv made := by
  unfold State.restartTenant
  try dsimp only [State.take]
  with_reducible repeat' first
    | assumption
    | apply State.setTenant_inv
    | apply State.wb_inv
    | apply State.setTnState_inv
    | apply State.advance_inv
    | apply State.inv_foldl
    | (intro _ _ _; try dsimp only)
    | split
    | simp only [State.inv_mk]

theorem State.releaseTenant_inv {s : State} {t : Nat} (h_s : s.Inv made) : (State.releaseTenant s t).Inv made := by
  unfold State.releaseTenant
  with_reducible repeat' first
    | assumption
    | apply State.startRelease_inv
    | split

theorem State.wrTnCtl_inv {s : State} {f : Func} {t : Nat} {v : Word} (h_s : s.Inv made) : (State.wrTnCtl s f t v).Inv made := by
  unfold State.wrTnCtl
  try dsimp only [State.take]
  with_reducible repeat' first
    | assumption
    | apply State.enableTenant_inv
    | apply State.restartTenant_inv
    | apply State.releaseTenant_inv
    | split

theorem State.scrubRegions_inv {s : State} {t : Nat} (h_s : s.Inv made) : (State.scrubRegions s t).Inv made := by
  unfold State.scrubRegions
  try dsimp only [State.take]
  with_reducible repeat' first
    | assumption
    | apply State.hbmZero_inv
    | apply State.wb_inv
    | apply State.inv_foldl
    | (intro _ _ _; try dsimp only)

theorem State.releaseTally_inv {s : State} {t : Nat} (h_s : s.Inv made) : (State.releaseTally s t).Inv made := by
  unfold State.releaseTally
  try dsimp only [State.take]
  with_reducible repeat' first
    | assumption
    | apply State.wr_inv
    | apply State.clearTally_inv
    | apply State.inv_foldl
    | (intro _ _ _; try dsimp only)
    | split

theorem execScrubDone_inv {t : Fin 8} {s : State} (h_s : s.Inv made) : Keeps made (execScrubDone t s) := by
  unfold execScrubDone
  try dsimp only [State.take]
  with_reducible repeat' first
    | assumption
    | apply Keeps.next
    | apply State.setQueue_inv
    | apply State.releaseTally_inv
    | apply State.setTenant_inv
    | apply State.haltQueue_inv
    | apply State.wr_inv
    | apply State.zeroParts_inv
    | apply State.raise_inv
    | apply State.setTnState_inv
    | apply State.scrubRegions_inv
    | apply State.pf_inv
    | apply State.inv_foldl
    | (intro _ _ _; try dsimp only)
    | split
    | simp only [State.inv_mk]

theorem State.closeStep_inv {s : State} {t : Nat} {trig : Nat} {time : Nat} (h_s : s.Inv made) : (State.closeStep s t trig time).Inv made := by
  unfold State.closeStep
  try dsimp only [State.take]
  with_reducible repeat' first
    | assumption
    | apply State.incSat_inv
    | apply State.setTenant_inv
    | apply State.hbmWrite_inv
    | apply State.jobFault_inv
    | apply State.sendArrival_inv
    | apply State.regionConflict_inv
    | apply State.raise_inv
    | apply State.inv_foldl
    | (intro _ _ _; try dsimp only)
    | split
    | simp only [State.inv_mk]

theorem State.manTriggerAt_inv {s : State} {t : Nat} {trig : Nat} {time : Nat} (h_s : s.Inv made) : (State.manTriggerAt s t trig time).Inv made := by
  unfold State.manTriggerAt
  try dsimp only [State.take]
  with_reducible repeat' first
    | assumption
    | apply State.incSat_inv
    | apply State.setTenant_inv
    | apply State.closeStep_inv
    | apply State.inv_foldl
    | (intro _ _ _; try dsimp only)
    | (intro _ _; try dsimp only)
    | split
    | simp only [State.inv_mk]
    | dsimp only [State.take]

theorem State.manTrigger_inv {s : State} {t : Nat} {trig : Nat} (h_s : s.Inv made) : (State.manTrigger s t trig).Inv made := by
  unfold State.manTrigger
  try dsimp only [State.take]
  with_reducible repeat' first
    | assumption
    | apply State.manTriggerAt_inv
    | apply State.inv_foldl
    | (intro _ _ _; try dsimp only)
    | split
    | simp only [State.inv_mk]

theorem execMergedClose_inv {t : Fin 8} {s : State} (h_s : s.Inv made) : Keeps made (execMergedClose t s) := by
  unfold execMergedClose
  try dsimp only [State.take]
  with_reducible repeat' first
    | assumption
    | apply Keeps.next
    | apply State.setTenant_inv
    | apply State.manTriggerAt_inv
    | apply State.inv_foldl
    | (intro _ _ _; try dsimp only)
    | split
    | simp only [State.inv_mk]

theorem State.wrManCtl_inv {s : State} {t : Nat} {v : Word} (h_s : s.Inv made) : (State.wrManCtl s t v).Inv made := by
  unfold State.wrManCtl
  try dsimp only [State.take]
  with_reducible repeat' first
    | assumption
    | apply State.setTenant_inv
    | apply State.manTrigger_inv
    | split
    | simp only [State.inv_mk]

theorem State.manUpdate_inv {s : State} {t src status sample : Nat} (h_s : s.Inv made) : (State.manUpdate s t src status sample).Inv made := by
  unfold State.manUpdate
  try dsimp only [State.take]
  with_reducible repeat' first
    | assumption
    | apply State.setTenant_inv
    | apply State.inv_foldl
    | (intro _ _ _; try dsimp only)
    | split
    | simp only [State.inv_mk]

theorem State.endWindow_inv {s : State} {ticks : Nat} (h_s : s.Inv made) : (State.endWindow s ticks).Inv made := by
  unfold State.endWindow
  try dsimp only [State.take]
  with_reducible repeat' first
    | assumption
    | apply State.setTenant_inv
    | apply State.inv_foldl
    | (intro _ _ _; try dsimp only)
    | split
    | simp only [State.inv_mk]

theorem execPowerWindowEnd_inv {s : State} (h_s : s.Inv made) : Keeps made (execPowerWindowEnd s) := by
  unfold execPowerWindowEnd
  with_reducible repeat' first
    | assumption
    | apply Keeps.next
    | apply State.pf_inv
    | apply State.endWindow_inv

theorem execEnable_inv {f : Func} {t : Fin 8} {v : Word} {s : State} (h_s : s.Inv made) : Keeps made (execEnable f t v s) := by
  unfold execEnable
  with_reducible repeat' first
    | assumption
    | apply Keeps.next
    | apply State.guarded_inv
    | apply State.wrTnCtl_inv
    | (intro _ _; try dsimp only)

theorem execRestart_inv {f : Func} {t : Fin 8} {v : Word} {s : State} (h_s : s.Inv made) : Keeps made (execRestart f t v s) := by
  unfold execRestart
  with_reducible repeat' first
    | assumption
    | apply Keeps.next
    | apply State.guarded_inv
    | apply State.wrTnCtl_inv
    | (intro _ _; try dsimp only)

theorem execRelease_inv {f : Func} {t : Fin 8} {v : Word} {s : State} (h_s : s.Inv made) : Keeps made (execRelease f t v s) := by
  unfold execRelease
  with_reducible repeat' first
    | assumption
    | apply Keeps.next
    | apply State.guarded_inv
    | apply State.wrTnCtl_inv
    | (intro _ _; try dsimp only)

theorem execQTailWrite_inv {f : Func} {t : Fin 8} {q : Fin 4} {v : Word} {s : State} (h_s : s.Inv made) : Keeps made (execQTailWrite f t q v s) := by
  unfold execQTailWrite
  with_reducible repeat' first
    | assumption
    | apply Keeps.next
    | apply State.guarded_inv
    | apply State.wrQTail_inv
    | (intro _ _; try dsimp only)

theorem execQCfgWrite_inv {f : Func} {t : Fin 8} {q : Fin 4} {v : Word} {s : State} (h_s : s.Inv made) : Keeps made (execQCfgWrite f t q v s) := by
  unfold execQCfgWrite
  with_reducible repeat' first
    | assumption
    | apply Keeps.next
    | apply State.guarded_inv
    | apply State.wrQCfg_inv
    | (intro _ _; try dsimp only)

theorem execTnResWrite_inv {f : Func} {t : Fin 8} {v : Word} {s : State} (h_s : s.Inv made) : Keeps made (execTnResWrite f t v s) := by
  unfold execTnResWrite
  with_reducible repeat' first
    | assumption
    | apply Keeps.next
    | apply State.guarded_inv
    | apply State.wrTnRes_inv
    | (intro _ _; try dsimp only)

theorem execClose_inv {f : Func} {t : Fin 8} {v : Word} {s : State} (h_s : s.Inv made) : Keeps made (execClose f t v s) := by
  unfold execClose
  with_reducible repeat' first
    | assumption
    | apply Keeps.next
    | apply State.guarded_inv
    | apply State.wrManCtl_inv
    | (intro _ _; try dsimp only)

theorem execManAck_inv {f : Func} {t : Fin 8} {v : Word} {s : State} (h_s : s.Inv made) : Keeps made (execManAck f t v s) := by
  unfold execManAck
  with_reducible repeat' first
    | assumption
    | apply Keeps.next
    | apply State.guarded_inv
    | apply State.wrManCtl_inv
    | (intro _ _; try dsimp only)

theorem execTallyConfigWrite_inv {f : Func} {b : BarId} {part : Bool} {v : Word} {busy : Bool} {s : State} (h_s : s.Inv made) : Keeps made (execTallyConfigWrite f b part v busy s) := by
  unfold execTallyConfigWrite
  with_reducible repeat' first
    | assumption
    | apply Keeps.next
    | apply State.tallyCfg_inv
    | apply State.guarded_inv
    | (intro _ _; try dsimp only)
    | split

end Sys2Proof.Machine
end

