-- ==== Sys2Proof/Laws/KeepLinkField.lean ====
section
/-!
SUPPORT. Every function of Machine/LinkField.lean keeps the invariant of the step.
-/
namespace Sys2Proof.Machine

variable {made : Fuses}

theorem State.takeSb_inv {s : State} {w : SbWord} (h_s : s.Inv made) : (State.takeSb s w).Inv made := by
  unfold State.takeSb
  try dsimp only [State.take]
  with_reducible repeat' first
    | assumption
    | apply State.setPort_inv
    | split
    | simp only [State.inv_mk]

theorem State.sbToward_inv {s : State} {w : SbWord} {d : Nat} (h_s : s.Inv made) : (State.sbToward s w d).Inv made := by
  unfold State.sbToward
  try dsimp only [State.take]
  with_reducible repeat' first
    | assumption
    | apply State.sendSb_inv
    | split
    | simp only [State.inv_mk]

theorem State.steer_inv {s : State} (h_s : s.Inv made) : (State.steer s).Inv made := by
  unfold State.steer
  try dsimp only [State.take]
  with_reducible repeat' first
    | assumption
    | split
    | simp only [State.inv_mk]

theorem State.setFc_inv {s : State} {v : Nat} (h_s : s.Inv made) : (State.setFc s v).Inv made := by
  unfold State.setFc
  with_reducible repeat' first
    | assumption
    | apply State.pf_inv

theorem State.stepField_inv {s : State} {v : Nat} (h_s : s.Inv made) : (State.stepField s v).Inv made := by
  unfold State.stepField
  try dsimp only [State.take]
  with_reducible repeat' first
    | assumption
    | apply State.endWindow_inv
    | simp only [State.inv_mk]

theorem State.fcTrack_inv {s : State} {v : Nat} {off : Int} (h_s : s.Inv made) : (State.fcTrack s v off).Inv made := by
  unfold State.fcTrack
  try dsimp only [State.take]
  with_reducible repeat' first
    | assumption
    | apply State.pf_inv
    | apply State.steer_inv
    | apply State.setFc_inv
    | apply State.stepField_inv
    | split
    | simp only [State.inv_mk]

theorem State.timesync_inv {s : State} {p : Nat} {count : BitVec 64} (h_s : s.Inv made) : (State.timesync s p count).Inv made := by
  unfold State.timesync
  try dsimp only [State.take]
  with_reducible repeat' first
    | assumption
    | apply State.fcTrack_inv
    | split

theorem execTimesync_inv {p : Fin 8} {count : BitVec 64} {s : State} (h_s : s.Inv made) : Keeps made (execTimesync p count s) := by
  unfold execTimesync
  with_reducible repeat' first
    | assumption
    | apply Keeps.next
    | apply State.takeSb_inv
    | apply State.timesync_inv
    | simp only [State.inv_mk]

theorem execTimesyncSend_inv {s : State} (h_s : s.Inv made) : Keeps made (execTimesyncSend s) := by
  unfold execTimesyncSend
  with_reducible repeat' first
    | assumption
    | apply Keeps.next
    | apply State.flood_inv
    | apply State.timesync_inv

theorem execEchoSend_inv {s : State} (h_s : s.Inv made) : Keeps made (execEchoSend s) := by
  unfold execEchoSend
  with_reducible repeat' first
    | assumption
    | apply Keeps.next
    | apply State.flood_inv

theorem State.freeDelayMin_inv {s : State} (h_s : s.Inv made) : (State.freeDelayMin s).Inv made := by
  unfold State.freeDelayMin
  try dsimp only [State.take]
  with_reducible repeat' first
    | assumption
    | apply State.wr_inv
    | split
    | simp only [State.inv_mk]

theorem execEcho_inv {p : Fin 8} {roundTrip : Nat} {s : State} (h_s : s.Inv made) : Keeps made (execEcho p roundTrip s) := by
  unfold execEcho
  with_reducible repeat' first
    | assumption
    | apply Keeps.next
    | apply State.pf_inv
    | apply State.freeDelayMin_inv

theorem execFcHoldover_inv {s : State} (h_s : s.Inv made) : Keeps made (execFcHoldover s) := by
  unfold execFcHoldover
  try dsimp only [State.take]
  with_reducible repeat' first
    | assumption
    | apply Keeps.next
    | apply State.setFc_inv
    | split
    | simp only [State.inv_mk]

theorem State.firesMet_inv {s : State} {e : Nat} (h_s : s.Inv made) : (State.firesMet s e).Inv made := by
  unfold State.firesMet
  try dsimp only [State.take]
  with_reducible repeat' first
    | assumption
    | apply State.satisfy_inv
    | apply State.advance_inv
    | apply State.inv_foldl
    | (intro _ _ _; try dsimp only)
    | split
    | simp only [State.inv_mk]

theorem State.countFire_inv {s : State} {e : Nat} (h_s : s.Inv made) : (State.countFire s e).Inv made := by
  unfold State.countFire
  try dsimp only [State.take]
  with_reducible repeat' first
    | assumption
    | apply State.setWbEntry_inv
    | simp only [State.inv_mk]

theorem State.fireHeld_inv {s : State} {a : Nat × Nat × Word} (h_s : s.Inv made) : (State.fireHeld s a).Inv made := by
  unfold State.fireHeld
  with_reducible repeat' first
    | assumption
    | apply State.pinAction_inv
    | apply State.firesMet_inv
    | apply State.countFire_inv

theorem State.lbTake_inv {s : State} {k gen status count : Nat} (h_s : s.Inv made) : (State.lbTake s k gen status count).Inv made := by
  unfold State.lbTake
  try dsimp only [State.take]
  with_reducible repeat' first
    | assumption
    | apply State.wr_inv
    | apply State.setLb_inv
    | apply State.raise_inv
    | apply State.logNamed_inv
    | apply State.fireHeld_inv
    | apply State.inv_foldl
    | (intro _ _ _; try dsimp only)
    | split
    | simp only [State.inv_mk]

theorem State.lbSend_inv {s : State} {k gen status count : Nat} (h_s : s.Inv made) : (State.lbSend s k gen status count).Inv made := by
  unfold State.lbSend
  try dsimp only [State.take]
  with_reducible repeat' first
    | assumption
    | apply State.sendSb_inv
    | apply State.lbTake_inv
    | apply State.inv_foldl
    | (intro _ _ _; try dsimp only)

theorem State.lbRelease_inv {s : State} {k status : Nat} (h_s : s.Inv made) : (State.lbRelease s k status).Inv made := by
  unfold State.lbRelease
  try dsimp only [State.take]
  with_reducible repeat' first
    | assumption
    | apply State.setLb_inv
    | apply State.lbSend_inv
    | split
    | simp only [State.inv_mk]

theorem State.lbCount_inv {s : State} {k src gen : Nat} {locked : Bool} (h_s : s.Inv made) : (State.lbCount s k src gen locked).Inv made := by
  unfold State.lbCount
  try dsimp only [State.take]
  with_reducible repeat' first
    | assumption
    | apply State.setLb_inv
    | apply State.logNamed_inv
    | apply State.lbRelease_inv
    | split
    | simp only [State.inv_mk]

theorem State.lbArrive_inv {s : State} {k entry action : Nat} {arg : Word} (h_s : s.Inv made) : (State.lbArrive s k entry action arg).Inv made := by
  unfold State.lbArrive
  try dsimp only [State.take]
  with_reducible repeat' first
    | assumption
    | apply State.wb_inv
    | apply State.setLb_inv
    | apply State.sbToward_inv
    | apply State.lbCount_inv
    | split
    | simp only [State.inv_mk]

theorem execLbArrival_inv {k : Fin 16} {src : Fin 64} {gen : BitVec 16} {locked : Bool} {s : State} (h_s : s.Inv made) : Keeps made (execLbArrival k src gen locked s) := by
  unfold execLbArrival
  try dsimp only [State.take]
  with_reducible repeat' first
    | assumption
    | apply Keeps.next
    | apply State.takeSb_inv
    | apply State.sbToward_inv
    | apply State.lbCount_inv
    | split
    | simp only [State.inv_mk]

theorem execLbTimeout_inv {k : Fin 16} {s : State} (h_s : s.Inv made) : Keeps made (execLbTimeout k s) := by
  unfold execLbTimeout
  with_reducible repeat' first
    | assumption
    | apply Keeps.next
    | apply State.lbRelease_inv
    | split

theorem execLbRelease_inv {k : Fin 16} {gen : BitVec 16} {status : Nat} {count : BitVec 64} {s : State} (h_s : s.Inv made) : Keeps made (execLbRelease k gen status count s) := by
  unfold execLbRelease
  try dsimp only [State.take]
  with_reducible repeat' first
    | assumption
    | apply Keeps.next
    | apply State.takeSb_inv
    | apply State.lbSend_inv
    | apply State.lbRelease_inv
    | split
    | simp only [State.inv_mk]

theorem execLbSelfRelease_inv {k : Fin 16} {s : State} (h_s : s.Inv made) : Keeps made (execLbSelfRelease k s) := by
  unfold execLbSelfRelease
  with_reducible repeat' first
    | assumption
    | apply Keeps.next
    | apply State.lbTake_inv
    | split

theorem execLbFire_inv {k : Fin 16} {s : State} (h_s : s.Inv made) : Keeps made (execLbFire k s) := by
  unfold execLbFire
  try dsimp only [State.take]
  with_reducible repeat' first
    | assumption
    | apply Keeps.next
    | apply State.setLb_inv
    | apply State.fireHeld_inv
    | apply State.inv_foldl
    | (intro _ _ _; try dsimp only)
    | split
    | simp only [State.inv_mk]

theorem State.wrLbCfg_inv {s : State} {f : Func} {k : Nat} {v : Word} (h_s : s.Inv made) : (State.wrLbCfg s f k v).Inv made := by
  unfold State.wrLbCfg
  with_reducible repeat' first
    | assumption
    | apply State.store_inv
    | split

theorem State.wrLbMask_inv {s : State} {f : Func} {a : Nat} {v : Word} (h_s : s.Inv made) : (State.wrLbMask s f a v).Inv made := by
  unfold State.wrLbMask
  with_reducible repeat' first
    | assumption
    | apply State.store_inv
    | apply State.freeDelayMin_inv

theorem execLbCfgWrite_inv {f : Func} {k : Fin 16} {v : Word} {s : State} (h_s : s.Inv made) : Keeps made (execLbCfgWrite f k v s) := by
  unfold execLbCfgWrite
  with_reducible repeat' first
    | assumption
    | apply Keeps.next
    | apply State.guarded_inv
    | apply State.wrLbCfg_inv
    | (intro _ _; try dsimp only)

theorem State.abortWord_inv {s : State} {port : Nat} {t : Nat} {epoch : Nat} {origin : Nat} {code : Nat} (h_s : s.Inv made) : (State.abortWord s port t epoch origin code).Inv made := by
  unfold State.abortWord
  try dsimp only [State.take]
  with_reducible repeat' first
    | assumption
    | apply State.flood_inv
    | apply State.wr64_inv
    | apply State.wr_inv
    | apply State.reportDone_inv
    | apply State.raise_inv
    | apply State.purge_inv
    | apply State.localAbort_inv
    | apply State.pf_inv
    | apply State.inv_foldl
    | (intro _ _ _; try dsimp only)
    | split
    | simp only [State.inv_mk]

theorem execAbortReceipt_inv {p t : Fin 8} {epoch : BitVec 4} {origin : Fin 64} {code : Nat} {s : State} (h_s : s.Inv made) : Keeps made (execAbortReceipt p t epoch origin code s) := by
  unfold execAbortReceipt
  with_reducible repeat' first
    | assumption
    | apply Keeps.next
    | apply State.takeSb_inv
    | apply State.abortWord_inv
    | simp only [State.inv_mk]

theorem execAbortDone_inv {t : Fin 8} {src : Fin 64} {s : State} (h_s : s.Inv made) : Keeps made (execAbortDone t src s) := by
  unfold execAbortDone
  try dsimp only [State.take]
  with_reducible repeat' first
    | assumption
    | apply Keeps.next
    | apply State.countDone_inv
    | apply State.takeSb_inv
    | apply State.sbToward_inv
    | split
    | simp only [State.inv_mk]

theorem State.wrAbtCtl_inv {s : State} {f : Func} {v : Word} (h_s : s.Inv made) : (State.wrAbtCtl s f v).Inv made := by
  unfold State.wrAbtCtl
  try dsimp only [State.take]
  with_reducible repeat' first
    | assumption
    | apply State.jobFault_inv
    | apply State.store_inv
    | split

theorem execAbort_inv {f : Func} {v : Word} {s : State} (h_s : s.Inv made) : Keeps made (execAbort f v s) := by
  unfold execAbort
  with_reducible repeat' first
    | assumption
    | apply Keeps.next
    | apply State.guarded_inv
    | apply State.wrAbtCtl_inv
    | (intro _ _; try dsimp only)

theorem execEpochExchange_inv {p : Fin 8} {epochs : Word} {s : State} (h_s : s.Inv made) : Keeps made (execEpochExchange p epochs s) := by
  unfold execEpochExchange
  try dsimp only [State.take]
  with_reducible repeat' first
    | assumption
    | apply Keeps.next
    | apply State.takeSb_inv
    | apply State.abortWord_inv
    | apply State.inv_foldl
    | (intro _ _ _; try dsimp only)
    | split
    | simp only [State.inv_mk]

end Sys2Proof.Machine
end

