-- ==== Sys2Proof/Laws/KeepLinks.lean ====
section
/-!
SUPPORT. Every function of Machine/Links.lean keeps the invariant of the step.
-/
namespace Sys2Proof.Machine

variable {made : Fuses}

theorem State.startTrain_inv {s : State} {p : Nat} (h_s : s.Inv made) : (State.startTrain s p).Inv made := by
  unfold State.startTrain
  try dsimp only [State.take]
  with_reducible repeat' first
    | assumption
    | apply State.setPort_inv
    | apply State.toState_inv
    | apply State.pf_inv
    | apply State.inv_foldl
    | (intro _ _ _; try dsimp only)
    | split
    | simp only [State.inv_mk]

theorem State.portTrain_inv {s : State} {p : Nat} (h_s : s.Inv made) : (State.portTrain s p).Inv made := by
  unfold State.portTrain
  with_reducible repeat' first
    | assumption
    | apply State.addSat_inv
    | apply State.logPort_inv
    | apply State.leaveUp_inv
    | apply State.startTrain_inv

theorem State.wrFlCfg_inv {s : State} {p : Nat} {v : Word} (h_s : s.Inv made) : (State.wrFlCfg s p v).Inv made := by
  unfold State.wrFlCfg
  try dsimp only [State.take]
  with_reducible repeat' first
    | assumption
    | apply State.wrRwp_inv
    | apply State.portTrain_inv
    | split

theorem execRetrain_inv {f : Func} {p : Fin 8} {v : Word} {s : State} (h_s : s.Inv made) : Keeps made (execRetrain f p v s) := by
  unfold execRetrain
  with_reducible repeat' first
    | assumption
    | apply Keeps.next
    | apply State.guarded_inv
    | apply State.wrFlCfg_inv
    | (intro _ _; try dsimp only)

theorem execPortTrainingDone_inv {p : Fin 8} {locks : BitVec 4} {partner : BitVec 6} {s : State} (h_s : s.Inv made) : Keeps made (execPortTrainingDone p locks partner s) := by
  unfold execPortTrainingDone
  try dsimp only [State.take]
  with_reducible repeat' first
    | assumption
    | apply Keeps.next
    | apply State.setPort_inv
    | apply State.toState_inv
    | apply State.logPort_inv
    | apply State.wb_inv
    | apply State.pf_inv
    | apply State.inv_foldl
    | (intro _ _ _; try dsimp only)
    | split
    | simp only [State.inv_mk]

theorem execWiringRetry_inv {p : Fin 8} {s : State} (h_s : s.Inv made) : Keeps made (execWiringRetry p s) := by
  unfold execWiringRetry
  with_reducible repeat' first
    | assumption
    | apply Keeps.next
    | apply State.startTrain_inv
    | split

theorem State.newSeals_inv {s : State} {p : Nat} (h_s : s.Inv made) : (State.newSeals s p).Inv made := by
  unfold State.newSeals
  try dsimp only [State.take]
  with_reducible repeat' first
    | assumption
    | apply State.setPort_inv
    | apply State.takeMany_inv
    | apply State.inv_foldl
    | (intro _ _ _; try dsimp only)
    | split
    | simp only [State.inv_mk]

theorem execAuthDone_inv {p : Fin 8} {keyHash : List Word} {signatureOk : Bool} {s : State} (h_s : s.Inv made) : Keeps made (execAuthDone p keyHash signatureOk s) := by
  unfold execAuthDone
  try dsimp only [State.take]
  with_reducible repeat' first
    | assumption
    | apply Keeps.next
    | apply State.sendSb_inv
    | apply State.setPort_inv
    | apply State.toState_inv
    | apply State.newSeals_inv
    | apply State.logPort_inv
    | apply State.wb_inv
    | apply State.freeDelayMin_inv
    | apply State.sendProxies_inv
    | apply State.inv_foldl
    | (intro _ _ _; try dsimp only)
    | split
    | simp only [State.inv_mk]

theorem execLaneLockLoss_inv {p : Fin 8} {lanes : BitVec 4} {s : State} (h_s : s.Inv made) : Keeps made (execLaneLockLoss p lanes s) := by
  unfold execLaneLockLoss
  try dsimp only [State.take]
  with_reducible repeat' first
    | assumption
    | apply Keeps.next
    | apply State.pf_inv
    | apply State.startTrain_inv
    | apply State.portTrain_inv
    | split

theorem State.replayLimit_inv {s : State} {p : Nat} (h_s : s.Inv made) : (State.replayLimit s p).Inv made := by
  unfold State.replayLimit
  with_reducible repeat' first
    | assumption
    | apply State.wb_inv
    | apply State.logPort_inv
    | apply State.portTrain_inv

theorem State.setRx_inv {s : State} {p : Nat} {x : Rx} (h_s : s.Inv made) : (State.setRx s p x).Inv made := by
  unfold State.setRx
  try dsimp only [State.take]
  with_reducible repeat' first
    | assumption
    | apply State.setPort_inv
    | apply State.inv_foldl
    | (intro _ _ _; try dsimp only)
    | split
    | simp only [State.inv_mk]

theorem execDataSlot_inv {p : Fin 8} {d : DataSlot} {s : State} (h_s : s.Inv made) : Keeps made (execDataSlot p d s) := by
  unfold execDataSlot
  try dsimp only [State.take]
  with_reducible repeat' first
    | assumption
    | apply Keeps.next
    | apply State.setRx_inv
    | apply State.setPort_inv
    | apply State.addSat_inv
    | apply State.replayLimit_inv
    | apply State.inv_foldl
    | (intro _ _ _; try dsimp only)
    | split
    | simp only [State.inv_mk]

theorem State.openPacket_inv {s : State} {p : Nat} {f : Flit} (h_s : s.Inv made) : (State.openPacket s p f).Inv made := by
  unfold State.openPacket
  try dsimp only [State.take]
  with_reducible repeat' first
    | assumption
    | apply State.answer_inv
    | apply State.setPort_inv
    | apply State.addSat_inv
    | apply State.giveBack_inv
    | apply State.take_inv
    | refine State.take_inv_eq ?_ (by assumption)
    | apply State.inv_foldl
    | (intro _ _ _; try dsimp only)
    | split
    | simp only [State.inv_mk]

theorem State.moreFlits_inv {s : State} {p : Nat} {f : Flit} {before : List RxPkt} {r : RxPkt} (h_s : s.Inv made) : (State.moreFlits s p f before r).Inv made := by
  unfold State.moreFlits
  try dsimp only [State.take]
  with_reducible repeat' first
    | assumption
    | apply State.setPort_inv
    | apply State.giveBack_inv
    | apply State.inv_foldl
    | (intro _ _ _; try dsimp only)
    | split
    | simp only [State.inv_mk]

theorem State.joinFlit_inv {s : State} {p : Nat} {f : Flit} (h_s : s.Inv made) : (State.joinFlit s p f).Inv made := by
  unfold State.joinFlit
  try dsimp only [State.take]
  with_reducible repeat' first
    | assumption
    | apply State.setPort_inv
    | apply State.openPacket_inv
    | apply State.giveBack_inv
    | apply State.moreFlits_inv
    | apply State.inv_foldl
    | (intro _ _ _; try dsimp only)
    | split
    | simp only [State.inv_mk]

theorem State.sideband_inv {s : State} {p : Nat} {w : Nat × SbWord} (h_s : s.Inv made) : (State.sideband s p w).Inv made := by
  unfold State.sideband
  try dsimp only [State.take]
  with_reducible repeat' first
    | assumption
    | apply State.setPort_inv
    | apply State.sendSb_inv
    | split
    | simp only [State.inv_mk]

theorem State.closeRun_inv {s : State} {p : Nat} {tagOk : Bool} (h_s : s.Inv made) : (State.closeRun s p tagOk).Inv made := by
  unfold State.closeRun
  try dsimp only [State.take]
  with_reducible repeat' first
    | assumption
    | apply State.setRx_inv
    | apply State.addSat_inv
    | apply State.logPort_inv
    | apply State.joinFlit_inv
    | apply State.wb_inv
    | apply State.portTrain_inv
    | apply State.replayLimit_inv
    | apply State.inv_foldl
    | (intro _ _ _; try dsimp only)
    | split
    | simp only [State.inv_mk]

theorem State.takeNak_inv {s : State} {p n : Nat} (h_s : s.Inv made) : (State.takeNak s p n).Inv made := by
  unfold State.takeNak
  try dsimp only [State.take]
  with_reducible repeat' first
    | assumption
    | apply State.setPort_inv
    | apply State.replayLimit_inv
    | split
    | simp only [State.inv_mk]

theorem execControlSlot_inv {p : Fin 8} {c : CtlSlot} {s : State} (h_s : s.Inv made) : Keeps made (execControlSlot p c s) := by
  unfold execControlSlot
  try dsimp only [State.take]
  with_reducible repeat' first
    | assumption
    | apply Keeps.next
    | apply State.setRx_inv
    | apply State.setPort_inv
    | apply State.sideband_inv
    | apply State.addSat_inv
    | apply State.replayLimit_inv
    | apply State.takeNak_inv
    | apply State.closeRun_inv
    | apply State.inv_foldl
    | (intro _ _ _; try dsimp only)
    | split
    | simp only [State.inv_mk]

theorem State.rxPop_inv {s : State} {p vc : Nat} (h_s : s.Inv made) : (State.rxPop s p vc).Inv made := by
  unfold State.rxPop
  try dsimp only [State.take]
  with_reducible repeat' first
    | assumption
    | apply State.setPort_inv
    | simp only [State.inv_mk]

theorem State.rxLeave_inv {s : State} {p : Nat} {vc : Nat} {fate : RxFate} (h_s : s.Inv made) : (State.rxLeave s p vc fate).Inv made := by
  unfold State.rxLeave
  try dsimp only [State.take]
  with_reducible repeat' first
    | assumption
    | apply State.setPort_inv
    | apply State.giveBack_inv
    | apply State.inv_foldl
    | (intro _ _ _; try dsimp only)
    | split
    | simp only [State.inv_mk]

theorem State.forwardPkt_inv {s : State} {p : Nat} {vc : Nat} {q : Nat} {v : Nat} {k : Packet} (h_s : s.Inv made) : (State.forwardPkt s p vc q v k).Inv made := by
  unfold State.forwardPkt
  try dsimp only [State.take]
  with_reducible repeat' first
    | assumption
    | apply State.pushTx_inv
    | apply State.rxLeave_inv
    | apply State.inv_foldl
    | (intro _ _ _; try dsimp only)
    | split
    | simp only [State.inv_mk]

theorem execPacketForward_inv {p : Fin 8} {vc : Fin 4} {s : State} (h_s : s.Inv made) : Keeps made (execPacketForward p vc s) := by
  unfold execPacketForward
  try dsimp only [State.take]
  with_reducible repeat' first
    | assumption
    | apply Keeps.next
    | apply State.answer_inv
    | apply State.forwardPkt_inv
    | apply State.rxLeave_inv
    | apply State.inv_foldl
    | (intro _ _ _; try dsimp only)
    | split
    | simp only [State.inv_mk]

theorem execEscWaitExpiry_inv {p : Fin 8} {vc : Fin 2} {s : State} (h_s : s.Inv made) : Keeps made (execEscWaitExpiry p vc s) := by
  unfold execEscWaitExpiry
  try dsimp only [State.take]
  with_reducible repeat' first
    | assumption
    | apply Keeps.next
    | apply State.setPort_inv
    | split
    | simp only [State.inv_mk]

theorem execWritePacket_inv {p : Fin 8} {vc : Fin 4} {s : State} (h_s : s.Inv made) : Keeps made (execWritePacket p vc s) := by
  unfold execWritePacket
  try dsimp only [State.take]
  with_reducible repeat' first
    | assumption
    | apply Keeps.next
    | apply State.hbmWrite_inv
    | apply State.spWrite_inv
    | apply State.regionConflict_inv
    | apply State.chargeHbm_inv
    | apply State.answer_inv
    | apply State.rxPop_inv
    | split
    | simp only [State.inv_mk]

theorem execWriteAcknowledgement_inv {p : Fin 8} {vc : Fin 4} {s : State} (h_s : s.Inv made) : Keeps made (execWriteAcknowledgement p vc s) := by
  unfold execWriteAcknowledgement
  try dsimp only [State.take]
  with_reducible repeat' first
    | assumption
    | apply Keeps.next
    | apply State.arrive_inv
    | apply State.sendPacket_inv
    | apply State.rxPop_inv
    | split
    | simp only [State.inv_mk]

theorem execErrorResponse_inv {p : Fin 8} {vc : Fin 4} {s : State} (h_s : s.Inv made) : Keeps made (execErrorResponse p vc s) := by
  unfold execErrorResponse
  try dsimp only [State.take]
  with_reducible repeat' first
    | assumption
    | apply Keeps.next
    | apply State.failArrival_inv
    | apply State.failProxy_inv
    | apply State.rxPop_inv
    | apply State.failReq_inv
    | apply State.inv_foldl
    | (intro _ _ _; try dsimp only)
    | split
    | simp only [State.inv_mk]

theorem execArrivePacket_inv {p : Fin 8} {vc : Fin 4} {s : State} (h_s : s.Inv made) : Keeps made (execArrivePacket p vc s) := by
  unfold execArrivePacket
  try dsimp only [State.take]
  with_reducible repeat' first
    | assumption
    | apply Keeps.next
    | apply State.arrive_inv
    | apply State.sendArrival_inv
    | apply State.rxPop_inv
    | split
    | simp only [State.inv_mk]

end Sys2Proof.Machine
end

