-- ==== Sys2Proof/Laws/KeepPorter.lean ====
section
/-!
SUPPORT. Every function of Machine/Porter.lean keeps the invariant of the step.
-/
namespace Sys2Proof.Machine

variable {made : Fuses}

theorem execCopy_inv {p : Fin 16} {s : State} (h_s : s.Inv made) : Keeps made (execCopy p s) := by
  unfold execCopy
  try dsimp only [State.take]
  with_reducible repeat' first
    | assumption
    | apply Keeps.next
    | apply State.wr_inv
    | apply State.setPorter_inv
    | apply State.wr64_inv
    | apply State.refuse_inv
    | apply State.porterFault_inv
    | split
    | simp only [State.inv_mk]

theorem State.sideWrite_inv {s : State} {space e a : Nat} {bs : List Byte} (h_s : s.Inv made) : (State.sideWrite s space e a bs).Inv made := by
  unfold State.sideWrite
  with_reducible repeat' first
    | assumption
    | apply State.hbmWrite_inv
    | apply State.spWrite_inv
    | split

theorem State.writeRows_inv {s : State} {d : Desc} {l : List (Nat × List Byte)} (h_s : s.Inv made) : (State.writeRows s d l).Inv made := by
  unfold State.writeRows
  with_reducible repeat' first
    | assumption
    | apply State.sideWrite_inv
    | apply State.inv_foldl
    | (intro _ _ _; try dsimp only)

theorem State.sendWrite_inv {s : State} {p : Nat} {c : Cmd} {desc dest space : Nat} {x : Nat × List Byte} (h_s : s.Inv made) : (State.sendWrite s p c desc dest space x).Inv made := by
  unfold State.sendWrite
  try dsimp only [State.take]
  with_reducible repeat' first
    | assumption
    | apply State.sendPacket_inv
    | split
    | simp only [State.inv_mk]
    | dsimp only

theorem State.countBytes_inv {s : State} {p t : Nat} {d : Desc} {n : Nat} (h_s : s.Inv made) : (State.countBytes s p t d n).Inv made := by
  unfold State.countBytes
  try dsimp only [State.take]
  with_reducible repeat' first
    | assumption
    | apply State.wr64_inv
    | apply State.chargeHbm_inv
    | split

theorem State.putRows_inv {s : State} {p : Nat} {c : Cmd} {i : Nat} {d : Desc} {data : List (Nat × List Byte)} (h_s : s.Inv made) : (State.putRows s p c i d data).Inv made := by
  unfold State.putRows
  try dsimp only [State.take]
  with_reducible repeat' first
    | assumption
    | apply State.sendWrite_inv
    | apply State.writeRows_inv
    | apply State.inv_foldl
    | (intro _ _ _; try dsimp only)
    | split
    | simp only [State.inv_mk]

theorem State.moveDesc_inv {s : State} {p : Nat} {c : Cmd} {i : Nat} {d : Desc} {rows : List (Int × Int)} (h_s : s.Inv made) : (State.moveDesc s p c i d rows).Inv made := by
  unfold State.moveDesc
  try dsimp only [State.take]
  with_reducible repeat' first
    | assumption
    | apply State.countBytes_inv
    | apply State.putRows_inv
    | apply State.inv_foldl
    | (intro _ _ _; try dsimp only)
    | split
    | simp only [State.inv_mk]

theorem State.partialRows_inv {s : State} {p : Nat} {c : Cmd} {i : Nat} {d : Desc} {rows : List (Int × Int)} {rev0 : Bool} {before : Nat} (h_s : s.Inv made) : (State.partialRows s p c i d rows rev0 before).Inv made := by
  unfold State.partialRows
  try dsimp only [State.take]
  with_reducible repeat' first
    | assumption
    | apply State.countBytes_inv
    | apply State.putRows_inv
    | apply State.take_inv
    | refine State.take_inv_eq ?_ (by assumption)
    | apply State.inv_foldl
    | (intro _ _ _; try dsimp only)
    | split
    | simp only [State.inv_mk]

theorem State.nextDesc_inv {s : State} {p : Nat} {r : Run} {d : Desc} (h_s : s.Inv made) : (State.nextDesc s p r d).Inv made := by
  unfold State.nextDesc
  try dsimp only [State.take]
  with_reducible repeat' first
    | assumption
    | apply State.setPorter_inv
    | split
    | simp only [State.inv_mk]

theorem State.noteUe_inv {s : State} {p : Nat} {c : Cmd} {d : Desc} {hw : HwFault} (h_s : s.Inv made) : (State.noteUe s p c d hw).Inv made := by
  unfold State.noteUe
  try dsimp only [State.take]
  with_reducible repeat' first
    | assumption
    | apply State.hwNote_inv
    | apply State.recordFault_inv
    | apply State.logEvent_inv
    | apply State.inv_foldl
    | (intro _ _ _; try dsimp only)
    | split
    | simp only [State.inv_mk]

theorem State.runDesc_inv {s : State} {p : Nat} {r : Run} {i : Nat} {addr : Nat} {hw : HwFault} (h_s : s.Inv made) : (State.runDesc s p r i addr hw).Inv made := by
  unfold State.runDesc
  try dsimp only [State.take]
  with_reducible repeat' first
    | assumption
    | apply State.porterFault_inv
    | apply State.hwNote_inv
    | apply State.noteUe_inv
    | apply State.regionConflict_inv
    | apply State.partialRows_inv
    | apply State.take_inv
    | refine State.take_inv_eq ?_ (by assumption)
    | apply State.wb_inv
    | apply State.nextDesc_inv
    | apply State.pf_inv
    | apply State.moveDesc_inv
    | apply State.inv_foldl
    | (intro _ _ _; try dsimp only)
    | split
    | simp only [State.inv_mk]

theorem execPorterDescriptor_inv {p : Fin 16} {hw : HwFault} {s : State} (h_s : s.Inv made) : Keeps made (execPorterDescriptor p hw s) := by
  unfold execPorterDescriptor
  try dsimp only [State.take]
  with_reducible repeat' first
    | assumption
    | apply Keeps.next
    | apply State.porterFault_inv
    | apply State.hwNote_inv
    | apply State.runDesc_inv
    | apply State.wr64_inv
    | apply State.regionConflict_inv
    | apply State.chargeHbm_inv
    | apply State.pf_inv
    | apply State.inv_foldl
    | (intro _ _ _; try dsimp only)
    | split
    | simp only [State.inv_mk]

end Sys2Proof.Machine
end

