-- ==== Sys2Proof/Laws/KeepEngine.lean ====
section
/-!
SUPPORT. Every function of Machine/Engine.lean keeps the invariant of the step.
-/
namespace Sys2Proof.Machine

variable {made : Fuses}

theorem State.arithInfo_inv {s : State} {r : List Word} {stage : Nat} {c : Cmd} (h_s : s.Inv made) : (State.arithInfo s r stage c).2.Inv made := by
  unfold State.arithInfo
  try dsimp only [State.take]
  with_reducible repeat' first
    | assumption
    | split
    | simp only [State.inv_mk]

theorem State.arithInfo_inv_eq {s : State} {r : List Word} {stage : Nat} {c : Cmd} {y : State}  {x} (h_s : s.Inv made) (he : State.arithInfo s r stage c = (x, y)) : y.Inv made := by
  have := State.arithInfo_inv (made := made) (s := s) (r := r) (stage := stage) (c := c) h_s
  rw [he] at this
  exact this

theorem State.refuseSel_inv {s : State} {e : Nat} {c : Cmd} {page code info : Nat} (h_s : s.Inv made) : (State.refuseSel s e c page code info).Inv made := by
  unfold State.refuseSel
  try dsimp only [State.take]
  with_reducible repeat' first
    | assumption
    | apply State.setEngine_inv
    | apply State.failCmd_inv
    | simp only [State.inv_mk]

theorem State.refuseArith_inv {s : State} {e : Nat} {c : Cmd} {r : List Word} {code : Nat} (h_s : s.Inv made) : (State.refuseArith s e c r code).Inv made := by
  unfold State.refuseArith
  try dsimp only [State.take]
  with_reducible repeat' first
    | assumption
    | apply State.arithInfo_inv
    | refine State.arithInfo_inv_eq ?_ (by assumption)
    | apply State.refuseSel_inv
    | split

theorem State.planFail_inv_eq {s y : State} {e c r p} (h_s : s.Inv made) (he : State.planFail s e c r p = some y) : y.Inv made := by
  unfold State.planFail at he
  repeat' split at he
  all_goals first
    | (cases he; first | exact State.refuseSel_inv h_s | exact State.refuseArith_inv h_s)
    | cases he

theorem Result.out_inv {self : Result} (h_self : self.out.Inv made) : (Result.out self).Inv made := by
  unfold Result.out
  try dsimp only [State.take]
  with_reducible repeat' first
    | assumption
    | exact h_self
    | apply State.inv_foldl
    | (intro _ _ _; try dsimp only)
    | split
    | simp only [State.inv_mk]

theorem State.faultRun_inv {s : State} {e : Nat} {c : Cmd} {code info : Nat} {openA : Bool} (h_s : s.Inv made) : (State.faultRun s e c code info openA).Inv made := by
  unfold State.faultRun
  try dsimp only [State.take]
  with_reducible repeat' first
    | assumption
    | apply State.setEngine_inv
    | apply State.failCmd_inv
    | split
    | simp only [State.inv_mk]

theorem State.keepBytes_inv {s : State} {e : Nat} {x2 : Option (Nat × List Byte)} (h_s : s.Inv made) : (State.keepBytes s e x2).Inv made := by
  unfold State.keepBytes
  try dsimp only [State.take]
  with_reducible repeat' first
    | assumption
    | apply State.spWrite_inv
    | apply State.inv_foldl
    | (intro _ _ _; try dsimp only)
    | split
    | simp only [State.inv_mk]

theorem State.endRun_inv {s : State} {e : Nat} {c : Cmd} {r : List Word} {hw : HwFault} {x : Result} (h_s : s.Inv made) (h_x : x.out.Inv made) : (State.endRun s e c r hw x).Inv made := by
  unfold State.endRun
  try dsimp only [State.take]
  with_reducible repeat' first
    | assumption
    | exact h_x
    | apply State.hwNote_inv
    | apply Result.out_inv
    | apply State.regionConflict_inv
    | apply State.arithInfo_inv
    | refine State.arithInfo_inv_eq ?_ (by assumption)
    | apply State.take_inv
    | refine State.take_inv_eq ?_ (by assumption)
    | apply State.setEngine_inv
    | apply State.keepBytes_inv
    | apply State.faultRun_inv
    | apply State.inv_foldl
    | (intro _ _ _; try dsimp only)
    | split
    | simp only [State.inv_mk]

theorem State.command_inv {s : State} {e : Nat} {hw : HwFault} {mine : Cmd → Bool} {plan : Cmd → List Word → Plan} {body : Cmd → List Word → Result} (h_s : s.Inv made) (h_body : ∀ c r, (body c r).out.Inv made) : (State.command s e hw mine plan body).Inv made := by
  unfold State.command
  try dsimp only [State.take]
  with_reducible repeat' first
    | assumption
    | (apply h_body)
    | apply State.refuseSel_inv
    | apply State.refuseArith_inv
    | refine State.planFail_inv_eq ?_ (by assumption)
    | apply State.endRun_inv
    | split
    | simp only [State.inv_mk]

theorem State.countMiss_inv {s : State} {e : Nat} (h_s : s.Inv made) : (State.countMiss s e).Inv made := by
  unfold State.countMiss
  try dsimp only [State.take]
  with_reducible repeat' first
    | assumption
    | apply State.wr_inv
    | apply State.inv_foldl
    | (intro _ _ _; try dsimp only)
    | split
    | simp only [State.inv_mk]

theorem State.fillRecipe_inv {s : State} {e : Nat} {c : Cmd} (h_s : s.Inv made) : (State.fillRecipe s e c).Inv made := by
  unfold State.fillRecipe
  try dsimp only [State.take]
  with_reducible repeat' first
    | assumption
    | apply State.wr_inv
    | apply State.setEngine_inv
    | split
    | simp only [State.inv_mk]

theorem execRecipeCacheFill_inv {e : Fin 6} {hw : HwFault} {s : State} (h_s : s.Inv made) : Keeps made (execRecipeCacheFill e hw s) := by
  unfold execRecipeCacheFill
  try dsimp only [State.take]
  with_reducible repeat' first
    | assumption
    | apply Keeps.next
    | apply State.refuseSel_inv
    | apply State.regionConflict_inv
    | apply State.hbmNote_inv
    | apply State.chargeHbm_inv
    | apply State.countMiss_inv
    | apply State.setEngine_inv
    | apply State.fillRecipe_inv
    | apply State.inv_foldl
    | (intro _ _ _; try dsimp only)
    | split
    | simp only [State.inv_mk]

end Sys2Proof.Machine
end

