-- ==== Sys2Proof/Laws/KeepHostel.lean ====
section
/-!
SUPPORT. Every function of Machine/Hostel.lean keeps the invariant of the step.
-/
namespace Sys2Proof.Machine

variable {made : Fuses}

theorem State.wrHstCtl_inv {s : State} {f : Func} {e : Nat} {v : Word} (h_s : s.Inv made) : (State.wrHstCtl s f e v).Inv made := by
  unfold State.wrHstCtl
  try dsimp only [State.take]
  with_reducible repeat' first
    | assumption
    | apply State.setEngine_inv
    | apply State.pf_inv
    | split
    | simp only [State.inv_mk]

theorem execTlbInv_inv {f : Func} {e : Fin 6} {v : Word} {s : State} (h_s : s.Inv made) : Keeps made (execTlbInv f e v s) := by
  unfold execTlbInv
  with_reducible repeat' first
    | assumption
    | apply Keeps.next
    | apply State.guarded_inv
    | apply State.wrHstCtl_inv
    | (intro _ _; try dsimp only)

theorem execInvTn_inv {f : Func} {e : Fin 6} {v : Word} {s : State} (h_s : s.Inv made) : Keeps made (execInvTn f e v s) := by
  unfold execInvTn
  with_reducible repeat' first
    | assumption
    | apply Keeps.next
    | apply State.guarded_inv
    | apply State.wrHstCtl_inv
    | (intro _ _; try dsimp only)

theorem State.walkRead_inv {s : State} {t : Nat} {at_ : Nat} {lp : Nat} {hw : HwFault} {rs : List (Nat × Nat)} (h_s : s.Inv made) : (State.walkRead s t at_ lp hw rs).1.Inv made := by
  unfold State.walkRead
  try dsimp only [State.take]
  with_reducible repeat' first
    | assumption
    | apply State.hbmNote_inv
    | apply State.chargeHbm_inv
    | apply State.inv_foldl
    | (intro _ _ _; try dsimp only)
    | split
    | simp only [State.inv_mk]

theorem State.walkRead_inv_eq {s : State} {t : Nat} {at_ : Nat} {lp : Nat} {hw : HwFault} {rs : List (Nat × Nat)} {y : State} {x1_} (h_s : s.Inv made) (he : State.walkRead s t at_ lp hw rs = (y, x1_)) : y.Inv made := by
  have h := State.walkRead_inv (made := made) (s := s) (t := t) (at_ := at_) (lp := lp) (hw := hw) (rs := rs) h_s
  rw [he] at h
  exact h

theorem State.translate_inv {s : State} {e : Nat} {k : PageKind} {pt : Nat} {lp : Nat} {hw : HwFault} (h_s : s.Inv made) : (State.translate s e k pt lp hw).1.Inv made := by
  unfold State.translate
  try dsimp only [State.take]
  with_reducible repeat' first
    | assumption
    | apply State.wr_inv
    | apply State.setEngine_inv
    | apply State.walkRead_inv
    | refine State.walkRead_inv_eq ?_ (by assumption)
    | apply State.inv_foldl
    | (intro _ _ _; try dsimp only)
    | split
    | simp only [State.inv_mk]

theorem State.translate_inv_eq {s : State} {e : Nat} {k : PageKind} {pt : Nat} {lp : Nat} {hw : HwFault} {y : State} {x1_} (h_s : s.Inv made) (he : State.translate s e k pt lp hw = (y, x1_)) : y.Inv made := by
  have h := State.translate_inv (made := made) (s := s) (e := e) (k := k) (pt := pt) (lp := lp) (hw := hw) h_s
  rw [he] at h
  exact h

theorem State.walkPages_inv {s : State} {e : Nat} {k : PageKind} {pt tag : Nat} {hw : HwFault} {l : List Nat} (h_s : s.Inv made) :
    (State.walkPages s e k pt tag hw l).1.Inv made := by
  induction l generalizing s with
  | nil => exact h_s
  | cons a l ih =>
    unfold State.walkPages
    split
    · exact State.translate_inv_eq h_s (by assumption)
    · rename_i he
      have h1 := State.translate_inv_eq h_s he
      split
      · exact h1
      · split
        · exact State.walkRead_inv_eq h1 (by assumption)
        · rename_i hr
          have h2 := State.walkRead_inv_eq h1 hr
          split
          · exact h2
          · have h3 := ih h2
            split <;> rename_i hw <;> rw [hw] at h3 <;> exact h3

theorem State.walkPages_inv_eq {s y : State} {e : Nat} {k : PageKind} {pt tag : Nat} {hw : HwFault} {l : List Nat} {x} (h_s : s.Inv made)
    (he : State.walkPages s e k pt tag hw l = (y, x)) : y.Inv made := by
  have h := State.walkPages_inv (made := made) (e := e) (k := k) (pt := pt) (tag := tag) (hw := hw) (l := l) h_s
  rw [he] at h
  exact h

theorem State.hostelNote_inv {s : State} {e addr seq lp : Nat} (h_s : s.Inv made) : (State.hostelNote s e addr seq lp).Inv made := by
  unfold State.hostelNote
  with_reducible repeat' first
    | assumption
    | apply State.wr_inv
    | apply State.wr64_inv

end Sys2Proof.Machine
end

