-- ==== Sys2Proof/Laws/KeepMatmul.lean ====
section
/-!
SUPPORT. Every function of Machine/Matmul.lean keeps the invariant of the step.
-/
namespace Sys2Proof.Machine

variable {made : Fuses}

theorem State.matmulBody_inv {s : State} {e : Nat} {c : Cmd} {r : List Word} (h_s : s.Inv made) : (State.matmulBody s e c r).out.Inv made := by
  unfold State.matmulBody
  try dsimp only [State.take]
  with_reducible repeat' first
    | assumption
    | apply State.putCodes_inv
    | apply State.takeMany_inv
    | apply State.inv_foldl
    | (intro _ _ _; try dsimp only)
    | split
    | simp only [State.inv_mk]
    | dsimp only

theorem execMatmul_inv {e : Fin 6} {hw : HwFault} {s : State} (h_s : s.Inv made) : Keeps made (execMatmul e hw s) := by
  unfold execMatmul
  with_reducible repeat' first
    | assumption
    | apply Keeps.next
    | apply State.command_inv
    | apply State.matmulBody_inv
    | (intro _ _; try dsimp only)

end Sys2Proof.Machine
end

