-- ==== Sys2Proof/Laws/KeepAttn.lean ====
section
/-!
SUPPORT. Every function of Machine/Attn.lean keeps the invariant of the step.
-/
namespace Sys2Proof.Machine

variable {made : Fuses}

theorem State.walkAll_inv {s : State} {e c p k hw l} (h_s : s.Inv made) : (State.walkAll s e c p k hw l).1.Inv made := by
  induction l generalizing s with
  | nil => exact h_s
  | cons a l ih =>
    unfold State.walkAll
    dsimp only
    split
    · exact ih h_s
    · split
      · exact State.walkPages_inv_eq h_s (by assumption)
      · rename_i he
        have h2 := ih (State.walkPages_inv_eq h_s he)
        split <;> rename_i hw <;> rw [hw] at h2 <;> exact h2

theorem State.walkAll_inv_eq {s y : State} {e c p k hw l x} (h_s : s.Inv made) (he : State.walkAll s e c p k hw l = (y, x)) : y.Inv made := by
  have h := State.walkAll_inv (e := e) (c := c) (p := p) (k := k) (hw := hw) (l := l) h_s
  rw [he] at h
  exact h

theorem State.readPage_inv {s : State} {p : AttnP} {k : PageKind} {hw : HwFault} {len : Nat} {rs : List (Nat × Reach)} {x : Nat × Nat} (h_s : s.Inv made) : (State.readPage s p k hw len rs x).1.Inv made := by
  unfold State.readPage
  try dsimp only [State.take]
  with_reducible repeat' first
    | assumption
    | apply State.walkRead_inv
    | refine State.walkRead_inv_eq ?_ (by assumption)
    | apply State.inv_foldl
    | (intro _ _ _; try dsimp only)
    | split
    | simp only [State.inv_mk]

theorem State.readPage_inv_eq {s : State} {p : AttnP} {k : PageKind} {hw : HwFault} {len : Nat} {rs : List (Nat × Reach)} {x : Nat × Nat} {y : State} {x1_} (h_s : s.Inv made) (he : State.readPage s p k hw len rs x = (y, x1_)) : y.Inv made := by
  have h := State.readPage_inv (made := made) (s := s) (p := p) (k := k) (hw := hw) (len := len) (rs := rs) (x := x) h_s
  rw [he] at h
  exact h

theorem State.readPages_inv {s : State} {p : AttnP} {k : PageKind} {hw : HwFault} {len : Nat} {rs : List (Nat × Reach)} {l : List (Nat × Nat)}
    (h_s : s.Inv made) : (State.readPages s p k hw len rs l).1.Inv made := by
  induction l generalizing s with
  | nil => exact h_s
  | cons a l ih =>
    unfold State.readPages
    split
    · exact State.readPage_inv_eq h_s (by assumption)
    · exact ih (State.readPage_inv_eq h_s (by assumption))

theorem State.readPages_inv_eq {s y : State} {p : AttnP} {k : PageKind} {hw : HwFault} {len : Nat} {rs : List (Nat × Reach)} {l : List (Nat × Nat)} {x}
    (h_s : s.Inv made) (he : State.readPages s p k hw len rs l = (y, x)) : y.Inv made := by
  have h := State.readPages_inv (made := made) (p := p) (k := k) (hw := hw) (len := len) (rs := rs) (l := l) h_s
  rw [he] at h
  exact h

theorem State.readAll_inv {s : State} {e : Nat} {c : Cmd} {p : AttnP} {k : PageKind} {hw : HwFault} {l : List (Nat × List (Nat × Nat))}
    (h_s : s.Inv made) : (State.readAll s e c p k hw l).1.Inv made := by
  induction l generalizing s with
  | nil => exact h_s
  | cons a l ih =>
    unfold State.readAll
    dsimp only
    split
    · exact State.readPages_inv_eq h_s (by assumption)
    · exact ih (State.readPages_inv_eq h_s (by assumption))

theorem State.readAll_inv_eq {s y : State} {e : Nat} {c : Cmd} {p : AttnP} {k : PageKind} {hw : HwFault} {l : List (Nat × List (Nat × Nat))} {x}
    (h_s : s.Inv made) (he : State.readAll s e c p k hw l = (y, x)) : y.Inv made := by
  have h := State.readAll_inv (made := made) (e := e) (c := c) (p := p) (k := k) (hw := hw) (l := l) h_s
  rw [he] at h
  exact h

theorem State.deadStage_inv {s : State} {e : Nat} {c : Cmd} {p : AttnP} (h_s : s.Inv made) : (State.deadStage s e c p).Inv made := by
  unfold State.deadStage
  try dsimp only [State.take]
  with_reducible repeat' first
    | assumption
    | apply State.spWrite_inv
    | apply State.takeMany_inv
    | simp only [State.inv_mk]

theorem State.fwdAll_inv {s : State} {e : Nat} {c : Cmd} {p : AttnP} {k : PageKind} {seqs : List (Nat × List (Nat × Nat))} (h_s : s.Inv made) : (State.fwdAll s e c p k seqs).out.Inv made := by
  unfold State.fwdAll
  try dsimp only [State.take]
  with_reducible repeat' first
    | assumption
    | apply State.spWrite_inv
    | apply State.putCodes_inv
    | apply State.deadStage_inv
    | apply State.inv_foldl
    | (intro _ _ _; try dsimp only)
    | split
    | simp only [State.inv_mk]
    | dsimp only

theorem State.bwAll_inv {s : State} {e : Nat} {c : Cmd} {p : AttnP} {k : PageKind} {seqs : List (Nat × List (Nat × Nat))} (h_s : s.Inv made) : (State.bwAll s e c p k seqs).out.Inv made := by
  unfold State.bwAll
  try dsimp only [State.take]
  with_reducible repeat' first
    | assumption
    | apply State.putCodes_inv
    | apply State.takeMany_inv
    | apply State.deadStage_inv
    | apply State.inv_foldl
    | (intro _ _ _; try dsimp only)
    | split
    | simp only [State.inv_mk]
    | dsimp only

theorem State.walkFailed_inv {s : State} {e : Nat} {c : Cmd} {b : Nat} {x4 : WalkErr} (h_s : s.Inv made) : (State.walkFailed s e c b x4).out.Inv made := by
  unfold State.walkFailed
  try dsimp only [State.take]
  with_reducible repeat' first
    | assumption
    | apply State.hostelNote_inv
    | apply State.inv_foldl
    | (intro _ _ _; try dsimp only)
    | split
    | simp only [State.inv_mk]

theorem State.attnBody_inv {s : State} {e : Nat} {hw : HwFault} {c : Cmd} {x4 : List Word} (h_s : s.Inv made) : (State.attnBody s e hw c x4).out.Inv made := by
  unfold State.attnBody
  try dsimp only [State.take]
  with_reducible repeat' first
    | assumption
    | apply State.readAll_inv
    | refine State.readAll_inv_eq ?_ (by assumption)
    | apply State.walkFailed_inv
    | apply State.bwAll_inv
    | apply State.fwdAll_inv
    | apply State.walkAll_inv
    | refine State.walkAll_inv_eq ?_ (by assumption)
    | apply State.inv_foldl
    | (intro _ _ _; try dsimp only)
    | split
    | simp only [State.inv_mk]

theorem execAttnForwardDense_inv {e : Fin 6} {hw : HwFault} {s : State} (h_s : s.Inv made) : Keeps made (execAttnForwardDense e hw s) := by
  unfold execAttnForwardDense
  with_reducible repeat' first
    | assumption
    | apply Keeps.next
    | apply State.command_inv
    | apply State.attnBody_inv
    | (intro _ _; try dsimp only)

theorem execAttnForwardRetrieval_inv {e : Fin 6} {hw : HwFault} {s : State} (h_s : s.Inv made) : Keeps made (execAttnForwardRetrieval e hw s) := by
  unfold execAttnForwardRetrieval
  with_reducible repeat' first
    | assumption
    | apply Keeps.next
    | apply State.command_inv
    | apply State.attnBody_inv
    | (intro _ _; try dsimp only)

theorem execAttnBackward_inv {e : Fin 6} {hw : HwFault} {s : State} (h_s : s.Inv made) : Keeps made (execAttnBackward e hw s) := by
  unfold execAttnBackward
  with_reducible repeat' first
    | assumption
    | apply Keeps.next
    | apply State.command_inv
    | apply State.attnBody_inv
    | (intro _ _; try dsimp only)

end Sys2Proof.Machine
end

