-- ==== Sys2Proof/Laws/KeepFence.lean ====
section
/-!
SUPPORT. Every function of Machine/Fence.lean keeps the invariant of the step.
-/
namespace Sys2Proof.Machine

variable {made : Fuses}

theorem State.resetBody_inv {s : State} {page per : Nat} (h_s : s.Inv made) : (State.resetBody s page per).Inv made := by
  unfold State.resetBody
  try dsimp only [State.take]
  with_reducible repeat' first
    | assumption
    | apply State.resetRegs_inv
    | split
    | simp only [State.inv_mk]

theorem State.setBlk_inv {s : State} {page st : Nat} (h_s : s.Inv made) : (State.setBlk s page st).Inv made := by
  unfold State.setBlk
  with_reducible repeat' first
    | assumption
    | apply State.pf_inv

theorem State.dropTree_inv {s : State} {e : Nat} (h_s : s.Inv made) : (State.dropTree s e).Inv made := by
  unfold State.dropTree
  have h := State.inv_foldl (made := made) (l := List.range 32) (f := fun s q => State.dropWaitOn s e q) h_s
    (fun s x h => State.dropWaitOn_inv h)
  exact State.inv_bars (mapDrop_wf (State.inv_bars_wf h)) h

theorem State.engineReset_inv {s : State} {e : Nat} (h_s : s.Inv made) : (State.engineReset s e).Inv made := by
  unfold State.engineReset
  try dsimp only [State.take]
  with_reducible repeat' first
    | assumption
    | apply State.setEngine_inv
    | apply State.spZero_inv
    | apply State.resetBody_inv
    | apply State.dropTree_inv
    | apply State.inv_foldl
    | (intro _ _ _; try dsimp only)
    | split
    | simp only [State.inv_mk]

theorem State.fenceBarriers_inv {s : State} {page : Nat} (h_s : s.Inv made) : (State.fenceBarriers s page).Inv made := by
  unfold State.fenceBarriers
  try dsimp only [State.take]
  with_reducible repeat' first
    | assumption
    | apply State.endPipe_inv
    | apply State.take_inv
    | refine State.take_inv_eq ?_ (by assumption)
    | apply State.tallyFault_inv
    | apply State.endGen_inv
    | apply State.inv_foldl
    | (intro _ _ _; try dsimp only)
    | split
    | simp only [State.inv_mk]

theorem State.revoke_inv {s : State} {i : PageId} (h_s : s.Inv made) : (State.revoke s i).Inv made := by
  unfold State.revoke
  try dsimp only [State.take]
  with_reducible repeat' first
    | assumption
    | apply State.wr_inv
    | apply State.inv_foldl
    | (intro _ _ _; try dsimp only)
    | split
    | simp only [State.inv_mk]

theorem State.unitReset_inv {s : State} {page per : Nat} {i : PageId} (h_s : s.Inv made) : (State.unitReset s page per i).Inv made := by
  unfold State.unitReset
  try dsimp only [State.take]
  with_reducible repeat' first
    | assumption
    | apply State.setEngine_inv
    | apply State.setPorter_inv
    | apply State.portTrain_inv
    | apply State.resetBody_inv
    | apply State.engineReset_inv
    | split
    | simp only [State.inv_mk]
    | refine State.inv_bars rfl ?_
    | dsimp only

theorem State.countFence_inv {s : State} {i : PageId} (h_s : s.Inv made) : (State.countFence s i).Inv made := by
  unfold State.countFence
  try dsimp only [State.take]
  with_reducible repeat' first
    | assumption
    | apply State.ledgerPush_inv
    | split
    | simp only [State.inv_mk]

theorem State.unitFence_inv {s : State} {page code : Nat} {must : Bool} (h_s : s.Inv made) : (State.unitFence s page code must).Inv made := by
  unfold State.unitFence
  try dsimp only [State.take]
  with_reducible repeat' first
    | assumption
    | apply State.wb_inv
    | apply State.abortJob_inv
    | apply State.setBlk_inv
    | apply State.fenceBarriers_inv
    | apply State.revoke_inv
    | apply State.unitReset_inv
    | apply State.countFence_inv
    | apply State.inv_foldl
    | (intro _ _ _; try dsimp only)
    | split
    | simp only [State.inv_mk]

theorem State.liftFence_inv {s : State} {p : Nat} {always : Bool} (h_s : s.Inv made) : (State.liftFence s p always).Inv made := by
  unfold State.liftFence
  try dsimp only [State.take]
  with_reducible repeat' first
    | assumption
    | apply State.wb_inv
    | apply State.kick_inv
    | apply State.setBlk_inv
    | split
    | simp only [State.inv_mk]

theorem execFenceLift_inv {page : Nat} {s : State} (h_s : s.Inv made) : Keeps made (execFenceLift page s) := by
  unfold execFenceLift
  try dsimp only [State.take]
  with_reducible repeat' first
    | assumption
    | apply Keeps.next
    | apply State.liftFence_inv
    | split
    | simp only [State.inv_mk]

theorem State.faultFence_inv {s : State} {page code low : Nat} (h_s : s.Inv made) : (State.faultFence s page code low).Inv made := by
  unfold State.faultFence
  try dsimp only [State.take]
  with_reducible repeat' first
    | assumption
    | apply State.logEvent_inv
    | apply State.recordFault_inv
    | apply State.unitFence_inv
    | split
    | simp only [State.inv_mk]

theorem execDrainStall_inv {page : Nat} {cls : Fin 2} {s : State} (h_s : s.Inv made) : Keeps made (execDrainStall page cls s) := by
  unfold execDrainStall
  with_reducible repeat' first
    | assumption
    | apply Keeps.next
    | apply State.faultFence_inv

theorem execStateCompare_inv {page : Nat} {clockOff running : Bool} {s : State} (h_s : s.Inv made) : Keeps made (execStateCompare page clockOff running s) := by
  unfold execStateCompare
  try dsimp only [State.take]
  with_reducible repeat' first
    | assumption
    | apply Keeps.next
    | apply State.faultFence_inv
    | split
    | simp only [State.inv_mk]

theorem State.pmSend_inv {s : State} {k : Nat} {code : Nat} {data : Nat} (h_s : s.Inv made) : (State.pmSend s k code data).Inv made := by
  unfold State.pmSend
  try dsimp only [State.take]
  with_reducible repeat' first
    | assumption
    | apply State.inv_foldl
    | (intro _ _ _; try dsimp only)
    | split
    | simp only [State.inv_mk]

theorem State.pmRail_inv {s : State} {rail : Nat} {code : Nat} {data : Nat} (h_s : s.Inv made) : (State.pmRail s rail code data).Inv made := by
  unfold State.pmRail
  try dsimp only [State.take]
  with_reducible repeat' first
    | assumption
    | apply State.pmSend_inv
    | apply State.inv_foldl
    | (intro _ _ _; try dsimp only)
    | split
    | simp only [State.inv_mk]

theorem State.tensorShutdown_inv {s : State} {cause : Nat} (h_s : s.Inv made) : (State.tensorShutdown s cause).Inv made := by
  unfold State.tensorShutdown
  try dsimp only [State.take]
  with_reducible repeat' first
    | assumption
    | apply State.pmRail_inv
    | apply State.logNamed_inv
    | apply State.abortAll_inv
    | apply State.raise_inv
    | apply State.wb_inv
    | apply State.unitFence_inv
    | apply State.setBlk_inv
    | apply State.inv_foldl
    | (intro _ _ _; try dsimp only)
    | split
    | simp only [State.inv_mk]

end Sys2Proof.Machine
end

