-- ==== Sys2Proof/Laws/KeepConv.lean ====
section
/-!
SUPPORT. Every function of Machine/Conv.lean keeps the invariant of the step.
-/
namespace Sys2Proof.Machine

variable {made : Fuses}

theorem State.convBody_inv {s : State} {e : Nat} {c : Cmd} {r : List Word} (h_s : s.Inv made) : (State.convBody s e c r).out.Inv made := by
  unfold State.convBody
  try dsimp only [State.take]
  with_reducible repeat' first
    | assumption
    | apply State.putCodes_inv
    | apply State.takeMany_inv
    | split
    | simp only [State.inv_mk]
    | dsimp only

theorem State.freqBody_inv {s : State} {e : Nat} {c : Cmd} {r : List Word} (h_s : s.Inv made) : (State.freqBody s e c r).out.Inv made := by
  unfold State.freqBody
  try dsimp only [State.take]
  with_reducible repeat' first
    | assumption
    | apply State.putCodes_inv
    | split
    | simp only [State.inv_mk]
    | dsimp only

theorem execConvDense_inv {e : Fin 6} {hw : HwFault} {s : State} (h_s : s.Inv made) : Keeps made (execConvDense e hw s) := by
  unfold execConvDense
  with_reducible repeat' first
    | assumption
    | apply Keeps.next
    | apply State.command_inv
    | apply State.convBody_inv
    | (intro _ _; try dsimp only)

theorem execConvDiagonal_inv {e : Fin 6} {hw : HwFault} {s : State} (h_s : s.Inv made) : Keeps made (execConvDiagonal e hw s) := by
  unfold execConvDiagonal
  with_reducible repeat' first
    | assumption
    | apply Keeps.next
    | apply State.command_inv
    | apply State.convBody_inv
    | (intro _ _; try dsimp only)

theorem execConvFrequency_inv {e : Fin 6} {hw : HwFault} {s : State} (h_s : s.Inv made) : Keeps made (execConvFrequency e hw s) := by
  unfold execConvFrequency
  with_reducible repeat' first
    | assumption
    | apply Keeps.next
    | apply State.command_inv
    | apply State.freqBody_inv
    | (intro _ _; try dsimp only)

end Sys2Proof.Machine
end

