-- ==== Sys2Proof/Laws/KeepVector.lean ====
section
/-!
SUPPORT. Every function of Machine/Vector.lean keeps the invariant of the step.
-/
namespace Sys2Proof.Machine

variable {made : Fuses}

theorem State.mapBody_inv {s : State} {e : Nat} {c : Cmd} {r : List Word} (h_s : s.Inv made) : (State.mapBody s e c r).out.Inv made := by
  unfold State.mapBody
  try dsimp only [State.take]
  with_reducible repeat' first
    | assumption
    | apply State.putCodes_inv
    | apply State.inv_foldl
    | (intro _ _ _; try dsimp only)
    | split
    | dsimp only

theorem State.rowsBody_inv {s : State} {e : Nat} {c : Cmd} {r : List Word} {one : Nat → List Nat → Elem} (h_s : s.Inv made) : (State.rowsBody s e c r one).out.Inv made := by
  unfold State.rowsBody
  try dsimp only [State.take]
  with_reducible repeat' first
    | assumption
    | apply State.putCodes_inv
    | apply State.takeMany_inv
    | simp only [State.inv_mk]
    | dsimp only

theorem State.poolBody_inv {s : State} {e : Nat} {c : Cmd} {r : List Word} {one : List Nat → Elem} (h_s : s.Inv made) : (State.poolBody s e c r one).out.Inv made := by
  unfold State.poolBody
  try dsimp only [State.take]
  with_reducible repeat' first
    | assumption
    | apply State.putCodes_inv
    | dsimp only

theorem State.digestBody_inv {s : State} {e : Nat} {c : Cmd} {u3 : List Word} (h_s : s.Inv made) : (State.digestBody s e c u3).out.Inv made := by
  unfold State.digestBody
  try dsimp only [State.take]
  with_reducible repeat' first
    | assumption
    | apply State.spWrite_inv
    | split
    | simp only [State.inv_mk]
    | dsimp only

theorem execVectorMap_inv {e : Fin 6} {hw : HwFault} {s : State} (h_s : s.Inv made) : Keeps made (execVectorMap e hw s) := by
  unfold execVectorMap
  with_reducible repeat' first
    | assumption
    | apply Keeps.next
    | apply State.command_inv
    | apply State.mapBody_inv
    | (intro _ _; try dsimp only)

theorem execSumFp32_inv {e : Fin 6} {hw : HwFault} {s : State} (h_s : s.Inv made) : Keeps made (execSumFp32 e hw s) := by
  unfold execSumFp32
  with_reducible repeat' first
    | assumption
    | apply Keeps.next
    | apply State.command_inv
    | apply State.rowsBody_inv
    | (intro _ _; try dsimp only)

theorem execSumGranary_inv {e : Fin 6} {hw : HwFault} {s : State} (h_s : s.Inv made) : Keeps made (execSumGranary e hw s) := by
  unfold execSumGranary
  with_reducible repeat' first
    | assumption
    | apply Keeps.next
    | apply State.command_inv
    | apply State.rowsBody_inv
    | (intro _ _; try dsimp only)

theorem execVectorMax_inv {e : Fin 6} {hw : HwFault} {s : State} (h_s : s.Inv made) : Keeps made (execVectorMax e hw s) := by
  unfold execVectorMax
  with_reducible repeat' first
    | assumption
    | apply Keeps.next
    | apply State.command_inv
    | apply State.rowsBody_inv
    | (intro _ _; try dsimp only)

theorem execVectorMin_inv {e : Fin 6} {hw : HwFault} {s : State} (h_s : s.Inv made) : Keeps made (execVectorMin e hw s) := by
  unfold execVectorMin
  with_reducible repeat' first
    | assumption
    | apply Keeps.next
    | apply State.command_inv
    | apply State.rowsBody_inv
    | (intro _ _; try dsimp only)

theorem execPoolMax_inv {e : Fin 6} {hw : HwFault} {s : State} (h_s : s.Inv made) : Keeps made (execPoolMax e hw s) := by
  unfold execPoolMax
  with_reducible repeat' first
    | assumption
    | apply Keeps.next
    | apply State.command_inv
    | apply State.poolBody_inv
    | (intro _ _; try dsimp only)

theorem execPoolAvg_inv {e : Fin 6} {hw : HwFault} {s : State} (h_s : s.Inv made) : Keeps made (execPoolAvg e hw s) := by
  unfold execPoolAvg
  with_reducible repeat' first
    | assumption
    | apply Keeps.next
    | apply State.command_inv
    | apply State.poolBody_inv
    | (intro _ _; try dsimp only)

theorem execDigest_inv {e : Fin 6} {hw : HwFault} {s : State} (h_s : s.Inv made) : Keeps made (execDigest e hw s) := by
  unfold execDigest
  with_reducible repeat' first
    | assumption
    | apply Keeps.next
    | apply State.command_inv
    | apply State.digestBody_inv
    | (intro _ _; try dsimp only)

end Sys2Proof.Machine
end

