-- ==== Sys2Proof/Laws/KeepSamples.lean ====
section
/-!
SUPPORT. Every function of Machine/Samples.lean keeps the invariant of the step.
-/
namespace Sys2Proof.Machine

variable {made : Fuses}

theorem State.srcErr_inv {s : State} {src : Nat} (h_s : s.Inv made) : (State.srcErr s src).Inv made := by
  unfold State.srcErr
  with_reducible repeat' first
    | assumption
    | apply State.wb_inv

theorem State.unitAccess_inv {s : State} {t : Nat} {write : Bool} {a len : Nat} (h_s : s.Inv made) : (State.unitAccess s t write a len).2.Inv made := by
  unfold State.unitAccess
  try dsimp only [State.take]
  with_reducible repeat' first
    | assumption
    | apply State.regionConflict_inv
    | split
    | simp only [State.inv_mk]

theorem State.unitAccess_inv_eq {s : State} {t : Nat} {write : Bool} {a len : Nat} {y : State}  {x} (h_s : s.Inv made) (he : State.unitAccess s t write a len = (x, y)) : y.Inv made := by
  have := State.unitAccess_inv (made := made) (s := s) (t := t) (write := write) (a := a) (len := len) h_s
  rw [he] at this
  exact this

theorem State.srcStart_inv {s : State} {src : Nat} (h_s : s.Inv made) : (State.srcStart s src).Inv made := by
  unfold State.srcStart
  try dsimp only [State.take]
  with_reducible repeat' first
    | assumption
    | apply State.wb_inv
    | apply State.setTh_inv
    | split
    | simp only [State.inv_mk]

theorem State.srcStop_inv {s : State} {src : Nat} (h_s : s.Inv made) : (State.srcStop s src).Inv made := by
  unfold State.srcStop
  try dsimp only [State.take]
  with_reducible repeat' first
    | assumption
    | apply State.wb_inv
    | apply State.setTh_inv
    | split
    | simp only [State.inv_mk]

theorem State.wrSrcCfg_inv {s : State} {f : Func} {src : Nat} {v : Word} (h_s : s.Inv made) : (State.wrSrcCfg s f src v).Inv made := by
  unfold State.wrSrcCfg
  try dsimp only [State.take]
  with_reducible repeat' first
    | assumption
    | apply State.store_inv
    | apply State.srcErr_inv
    | apply State.unitAccess_inv
    | refine State.unitAccess_inv_eq ?_ (by assumption)
    | apply State.srcStart_inv
    | apply State.srcStop_inv
    | split

theorem execSrcEnable_inv {f : Func} {src : Fin 96} {v : Word} {s : State} (h_s : s.Inv made) : Keeps made (execSrcEnable f src v s) := by
  unfold execSrcEnable
  with_reducible repeat' first
    | assumption
    | apply Keeps.next
    | apply State.guarded_inv
    | apply State.wrSrcCfg_inv
    | (intro _ _; try dsimp only)

theorem State.wrSrcOther_inv {s : State} {f : Func} {src off : Nat} {v : Word} (h_s : s.Inv made) : (State.wrSrcOther s f src off v).Inv made := by
  unfold State.wrSrcOther
  with_reducible repeat' first
    | assumption
    | apply State.store_inv
    | apply State.srcErr_inv
    | split

theorem State.wrAug_inv {s : State} {f : Func} {src off : Nat} {v : Word} (h_s : s.Inv made) : (State.wrAug s f src off v).Inv made := by
  unfold State.wrAug
  try dsimp only [State.take]
  with_reducible repeat' first
    | assumption
    | apply State.store_inv
    | apply State.srcErr_inv
    | split

theorem State.setWaiting_inv {s : State} {src : Nat} {l : List Sample} (h_s : s.Inv made) : (State.setWaiting s src l).Inv made := by
  unfold State.setWaiting
  try dsimp only [State.take]
  with_reducible repeat' first
    | assumption
    | simp only [State.inv_mk]

theorem State.addSampleOf_inv {s : State} {src : Nat} {x : Sample} (h_s : s.Inv made) : (State.addSampleOf s src x).Inv made := by
  unfold State.addSampleOf
  with_reducible repeat' first
    | assumption
    | apply State.setWaiting_inv

theorem State.corruptSample_inv {s : State} {src : Nat} (h_s : s.Inv made) : (State.corruptSample s src).Inv made := by
  unfold State.corruptSample
  try dsimp only [State.take]
  with_reducible repeat' first
    | assumption
    | apply State.incSat_inv
    | apply State.raise_inv
    | apply State.logNamed_inv
    | apply State.manUpdate_inv

theorem State.dropSample_inv {s : State} {src : Nat} (h_s : s.Inv made) : (State.dropSample s src).Inv made := by
  unfold State.dropSample
  with_reducible repeat' first
    | assumption
    | apply State.incSat_inv
    | apply State.raise_inv

theorem State.inqAppend_inv {s : State} {t src flags seq slot addr : Nat} (h_s : s.Inv made) : (State.inqAppend s t src flags seq slot addr).Inv made := by
  unfold State.inqAppend
  try dsimp only [State.take]
  with_reducible repeat' first
    | assumption
    | apply State.hbmWrite_inv
    | apply State.addSat_inv
    | apply State.unitAccess_inv
    | refine State.unitAccess_inv_eq ?_ (by assumption)
    | split

theorem State.forwarded_inv {s : State} {src t flags seq slot addr wc : Nat} (h_s : s.Inv made) : (State.forwarded s src t flags seq slot addr wc).Inv made := by
  unfold State.forwarded
  try dsimp only [State.take]
  with_reducible repeat' first
    | assumption
    | apply State.hbmWrite_inv
    | apply State.setTenant_inv
    | apply State.raise_inv
    | apply State.sendArrival_inv
    | apply State.manTrigger_inv
    | apply State.manUpdate_inv
    | apply State.inqAppend_inv
    | split
    | simp only [State.inv_mk]

theorem State.forward_inv {s : State} {src : Nat} {x : Sample} (h_s : s.Inv made) : (State.forward s src x).Inv made := by
  unfold State.forward
  try dsimp only [State.take]
  with_reducible repeat' first
    | assumption
    | apply State.hbmWrite_inv
    | apply State.unitAccess_inv
    | refine State.unitAccess_inv_eq ?_ (by assumption)
    | apply State.corruptSample_inv
    | apply State.dropSample_inv
    | apply State.forwarded_inv
    | split

theorem execSampleForward_inv {src : Fin 96} {s : State} (h_s : s.Inv made) : Keeps made (execSampleForward src s) := by
  unfold execSampleForward
  try dsimp only [State.take]
  with_reducible repeat' first
    | assumption
    | apply Keeps.next
    | apply State.setWaiting_inv
    | apply State.forward_inv
    | split
    | simp only [State.inv_mk]

end Sys2Proof.Machine
end

