-- ==== Sys2Proof/Laws/KeepI2c.lean ====
section
/-!
SUPPORT. Every function of Machine/I2c.lean keeps the invariant of the step.
-/
namespace Sys2Proof.Machine

variable {made : Fuses}

theorem State.setIc_inv {s : State} {n : Nat} {x : I2cPort} (h_s : s.Inv made) : (State.setIc s n x).Inv made := by
  unfold State.setIc
  try dsimp only [State.take]
  with_reducible repeat' first
    | assumption
    | simp only [State.inv_mk]

theorem State.setDone_inv {s : State} {c : Nat} {w : ThSend} (h_s : s.Inv made) : (State.setDone s c w).Inv made := by
  unfold State.setDone
  try dsimp only [State.take]
  with_reducible repeat' first
    | assumption
    | apply State.incSat_inv
    | apply State.raise_inv
    | apply State.setTh_inv
    | split
    | simp only [State.inv_mk]

theorem State.setFailed_inv {s : State} {c : Nat} (h_s : s.Inv made) : (State.setFailed s c).Inv made := by
  unfold State.setFailed
  try dsimp only [State.take]
  with_reducible repeat' first
    | assumption
    | apply State.setTh_inv
    | simp only [State.inv_mk]

theorem State.icEnd_inv {s : State} {n status : Nat} (h_s : s.Inv made) : (State.icEnd s n status).Inv made := by
  unfold State.icEnd
  with_reducible repeat' first
    | assumption
    | apply State.pf_inv
    | apply State.wb_inv
    | apply State.raise_inv

theorem State.icDrop_inv {s : State} {n : Nat} (h_s : s.Inv made) : (State.icDrop s n).Inv made := by
  unfold State.icDrop
  try dsimp only [State.take]
  with_reducible repeat' first
    | assumption
    | apply State.wb_inv
    | apply State.setIc_inv
    | apply State.setFailed_inv
    | apply State.icEnd_inv
    | apply State.inv_foldl
    | (intro _ _ _; try dsimp only)
    | split
    | simp only [State.inv_mk]

theorem State.icServe_inv {s : State} {n : Nat} (h_s : s.Inv made) : (State.icServe s n).Inv made := by
  unfold State.icServe
  try dsimp only [State.take]
  with_reducible repeat' first
    | assumption
    | apply State.setIc_inv
    | apply State.icDrop_inv
    | split
    | simp only [State.inv_mk]

theorem State.sendSet_inv {s : State} {c : Nat} {w : ThSend} (h_s : s.Inv made) : (State.sendSet s c w).Inv made := by
  unfold State.sendSet
  try dsimp only [State.take]
  with_reducible repeat' first
    | assumption
    | apply State.setTh_inv
    | apply State.setDone_inv
    | apply State.icServe_inv
    | split
    | simp only [State.inv_mk]

theorem State.icStuck_inv {s : State} {n : Nat} (h_s : s.Inv made) : (State.icStuck s n).Inv made := by
  unfold State.icStuck
  try dsimp only [State.take]
  with_reducible repeat' first
    | assumption
    | apply State.wb_inv
    | apply State.incSat_inv
    | apply State.raise_inv
    | apply State.logNamed_inv
    | apply State.setBlk_inv
    | apply State.setIc_inv
    | apply State.icDrop_inv
    | simp only [State.inv_mk]

theorem State.busClear_inv {s : State} {n : Nat} {sdaHigh : List Bool} (h_s : s.Inv made) : (State.busClear s n sdaHigh).Inv made := by
  unfold State.busClear
  try dsimp only [State.take]
  with_reducible repeat' first
    | assumption
    | apply State.incSat_inv
    | apply State.icStuck_inv
    | split
    | simp only [State.inv_mk]
    | dsimp only [id]

theorem State.icStart_inv {s : State} {n : Nat} {sdaHigh : List Bool} (h_s : s.Inv made) : (State.icStart s n sdaHigh).Inv made := by
  unfold State.icStart
  try dsimp only [State.take]
  with_reducible repeat' first
    | assumption
    | apply State.wb_inv
    | apply State.setIc_inv
    | apply State.icEnd_inv
    | apply State.icServe_inv
    | apply State.busClear_inv
    | split
    | simp only [State.inv_mk]
    | dsimp only

theorem State.icUnfence_inv {s : State} {n : Nat} {sdaHigh : List Bool} (h_s : s.Inv made) : (State.icUnfence s n sdaHigh).Inv made := by
  unfold State.icUnfence
  try dsimp only [State.take]
  with_reducible repeat' first
    | assumption
    | apply State.wb_inv
    | apply State.setBlk_inv
    | apply State.icServe_inv
    | apply State.busClear_inv
    | split

theorem State.wrIcCtl_inv {s : State} {f : Func} {n : Nat} {v : Word} {sdaHigh : List Bool} (h_s : s.Inv made) : (State.wrIcCtl s f n v sdaHigh).Inv made := by
  unfold State.wrIcCtl
  try dsimp only [State.take]
  with_reducible repeat' first
    | assumption
    | apply State.icStart_inv
    | apply State.icUnfence_inv
    | split

theorem execI2cStart_inv {f : Func} {n : Fin 2} {v : Word} {sdaHigh : List Bool} {s : State} (h_s : s.Inv made) : Keeps made (execI2cStart f n v sdaHigh s) := by
  unfold execI2cStart
  with_reducible repeat' first
    | assumption
    | apply Keeps.next
    | apply State.guarded_inv
    | apply State.wrIcCtl_inv
    | (intro _ _; try dsimp only)

theorem execI2cUnfence_inv {f : Func} {n : Fin 2} {v : Word} {sdaHigh : List Bool} {s : State} (h_s : s.Inv made) : Keeps made (execI2cUnfence f n v sdaHigh s) := by
  unfold execI2cUnfence
  with_reducible repeat' first
    | assumption
    | apply Keeps.next
    | apply State.guarded_inv
    | apply State.wrIcCtl_inv
    | (intro _ _; try dsimp only)

theorem State.wrIcCfg_inv {s : State} {f : Func} {n : Nat} {v : Word} (h_s : s.Inv made) : (State.wrIcCfg s f n v).Inv made := by
  unfold State.wrIcCfg
  with_reducible repeat' first
    | assumption
    | apply State.store_inv
    | split

theorem State.putRead_inv {s : State} {n : Nat} {bs : List Byte} (h_s : s.Inv made) : (State.putRead s n bs).Inv made := by
  unfold State.putRead
  with_reducible repeat' first
    | assumption
    | apply State.wr_inv
    | apply State.inv_foldl
    | (intro _ _ _; try dsimp only)

theorem State.hostEnd_inv {s : State} {n : Nat} {r : I2cEnd} (h_s : s.Inv made) : (State.hostEnd s n r).Inv made := by
  unfold State.hostEnd
  try dsimp only [State.take]
  with_reducible repeat' first
    | assumption
    | apply State.pf_inv
    | apply State.icEnd_inv
    | apply State.putRead_inv
    | split
    | simp only [State.inv_mk]

theorem execI2cTransferDone_inv {n : Fin 2} {clear : List Bool} {r : I2cEnd} {s : State} (h_s : s.Inv made) : Keeps made (execI2cTransferDone n clear r s) := by
  unfold execI2cTransferDone
  try dsimp only [State.take]
  with_reducible repeat' first
    | assumption
    | apply Keeps.next
    | apply State.setIc_inv
    | apply State.icServe_inv
    | apply State.setFailed_inv
    | apply State.wb_inv
    | apply State.hostEnd_inv
    | apply State.setDone_inv
    | apply State.busClear_inv
    | apply State.setTh_inv
    | apply State.inv_foldl
    | (intro _ _ _; try dsimp only)
    | split
    | simp only [State.inv_mk]

theorem execSclLowTimeout_inv {n : Fin 2} {released : Bool} {s : State} (h_s : s.Inv made) : Keeps made (execSclLowTimeout n released s) := by
  unfold execSclLowTimeout
  try dsimp only [State.take]
  with_reducible repeat' first
    | assumption
    | apply Keeps.next
    | apply State.wb_inv
    | apply State.setIc_inv
    | apply State.setFailed_inv
    | apply State.icEnd_inv
    | apply State.icServe_inv
    | split
    | simp only [State.inv_mk]

theorem execBusStuck_inv {n : Fin 2} {s : State} (h_s : s.Inv made) : Keeps made (execBusStuck n s) := by
  unfold execBusStuck
  with_reducible repeat' first
    | assumption
    | apply Keeps.next
    | apply State.icStuck_inv
    | split

end Sys2Proof.Machine
end

