-- ==== Sys2Proof/Laws/KeepCan.lean ====
section
/-!
SUPPORT. Every function of Machine/Can.lean keeps the invariant of the step.
-/
namespace Sys2Proof.Machine

variable {made : Fuses}

theorem State.setCf_inv {s : State} {n : Nat} {x : CanNode} (h_s : s.Inv made) : (State.setCf s n x).Inv made := by
  unfold State.setCf
  try dsimp only [State.take]
  with_reducible repeat' first
    | assumption
    | simp only [State.inv_mk]

theorem State.showErr_inv {s : State} {n : Nat} (h_s : s.Inv made) : (State.showErr s n).Inv made := by
  unfold State.showErr
  try dsimp only [State.take]
  with_reducible repeat' first
    | assumption
    | apply State.pf_inv
    | apply State.raise_inv
    | apply State.logNamed_inv
    | split

theorem State.showCan_inv {s : State} {n : Nat} (h_s : s.Inv made) : (State.showCan s n).Inv made := by
  unfold State.showCan
  try dsimp only [State.take]
  with_reducible repeat' first
    | assumption
    | apply State.pf_inv
    | apply State.wb_inv
    | split
    | simp only [State.inv_mk]

theorem State.busyErr_inv {s : State} {n : Nat} (h_s : s.Inv made) : (State.busyErr s n).Inv made := by
  unfold State.busyErr
  with_reducible repeat' first
    | assumption
    | apply State.wb_inv

theorem State.setPending_inv {s : State} {n k : Nat} {b : Bool} (h_s : s.Inv made) : (State.setPending s n k b).Inv made := by
  unfold State.setPending
  with_reducible repeat' first
    | assumption
    | apply State.wb_inv

theorem State.leaveBus_inv {s : State} {n : Nat} (h_s : s.Inv made) : (State.leaveBus s n).Inv made := by
  unfold State.leaveBus
  try dsimp only [State.take]
  with_reducible repeat' first
    | assumption
    | apply State.setCf_inv
    | apply State.showCan_inv
    | simp only [State.inv_mk]

theorem State.wrCfMode_inv {s : State} {f : Func} {n : Nat} {v : Word} (h_s : s.Inv made) : (State.wrCfMode s f n v).Inv made := by
  unfold State.wrCfMode
  try dsimp only [State.take]
  with_reducible repeat' first
    | assumption
    | apply State.wb_inv
    | apply State.store_inv
    | apply State.leaveBus_inv
    | split
    | simp only [State.inv_mk]

theorem execCanInit_inv {f : Func} {n : Fin 8} {v : Word} {s : State} (h_s : s.Inv made) : Keeps made (execCanInit f n v s) := by
  unfold execCanInit
  with_reducible repeat' first
    | assumption
    | apply Keeps.next
    | apply State.guarded_inv
    | apply State.wrCfMode_inv
    | (intro _ _; try dsimp only)

theorem execCanNormal_inv {f : Func} {n : Fin 8} {v : Word} {s : State} (h_s : s.Inv made) : Keeps made (execCanNormal f n v s) := by
  unfold execCanNormal
  with_reducible repeat' first
    | assumption
    | apply Keeps.next
    | apply State.guarded_inv
    | apply State.wrCfMode_inv
    | (intro _ _; try dsimp only)

theorem execCanListen_inv {f : Func} {n : Fin 8} {v : Word} {s : State} (h_s : s.Inv made) : Keeps made (execCanListen f n v s) := by
  unfold execCanListen
  with_reducible repeat' first
    | assumption
    | apply Keeps.next
    | apply State.guarded_inv
    | apply State.wrCfMode_inv
    | (intro _ _; try dsimp only)

theorem execCanSleep_inv {f : Func} {n : Fin 8} {v : Word} {s : State} (h_s : s.Inv made) : Keeps made (execCanSleep f n v s) := by
  unfold execCanSleep
  with_reducible repeat' first
    | assumption
    | apply Keeps.next
    | apply State.guarded_inv
    | apply State.wrCfMode_inv
    | (intro _ _; try dsimp only)

theorem State.wrCfTiming_inv {s : State} {f : Func} {n off : Nat} {v : Word} (h_s : s.Inv made) : (State.wrCfTiming s f n off v).Inv made := by
  unfold State.wrCfTiming
  with_reducible repeat' first
    | assumption
    | apply State.store_inv
    | split

theorem State.cfStore_inv {s : State} {n : Nat} {r : CanRx} (h_s : s.Inv made) : (State.cfStore s n r).Inv made := by
  unfold State.cfStore
  try dsimp only [State.take]
  with_reducible repeat' first
    | assumption
    | apply State.addSat_inv
    | apply State.raise_inv
    | apply State.setCf_inv
    | apply State.showCan_inv
    | split
    | simp only [State.inv_mk]

theorem State.fltOf_inv {s : State} {n : Nat} {f : CanFrame} (h_s : s.Inv made) : (State.fltOf s n f).2.2.Inv made := by
  unfold State.fltOf
  try dsimp only [State.take]
  with_reducible repeat' first
    | assumption
    | split
    | simp only [State.inv_mk]

theorem State.fltOf_inv_eq {s : State} {n : Nat} {f : CanFrame} {y : State} {x2} {x} (h_s : s.Inv made) (he : State.fltOf s n f = (x, x2, y)) : y.Inv made := by
  have := State.fltOf_inv (made := made) (s := s) (n := n) (f := f) h_s
  rw [he] at this
  exact this

theorem State.cfFilter_inv {s : State} {n : Nat} {f : CanFrame} {age : Nat} (h_s : s.Inv made) : (State.cfFilter s n f age).Inv made := by
  unfold State.cfFilter
  try dsimp only [State.take]
  with_reducible repeat' first
    | assumption
    | apply State.incSat_inv
    | apply State.fltOf_inv
    | refine State.fltOf_inv_eq ?_ (by assumption)
    | apply State.raise_inv
    | apply State.wb_inv
    | apply State.cfStore_inv
    | apply State.inv_foldl
    | (intro _ _ _; try dsimp only)
    | split
    | simp only [State.inv_mk]

theorem State.canHead_inv {s : State} {n off : Nat} (h_s : s.Inv made) : (State.canHead s n off).2.Inv made := by
  unfold State.canHead
  try dsimp only [State.take]
  with_reducible repeat' first
    | assumption
    | split
    | simp only [State.inv_mk]

theorem State.canHead_inv_eq {s : State} {n off : Nat} {y : State}  {x} (h_s : s.Inv made) (he : State.canHead s n off = (x, y)) : y.Inv made := by
  have := State.canHead_inv (made := made) (s := s) (n := n) (off := off) h_s
  rw [he] at this
  exact this

theorem State.lockHead_inv {s : State} {n : Nat} (h_s : s.Inv made) : (State.lockHead s n).Inv made := by
  unfold State.lockHead
  try dsimp only [State.take]
  with_reducible repeat' first
    | assumption
    | apply State.setCf_inv
    | apply State.showCan_inv
    | split
    | simp only [State.inv_mk]

theorem State.cfPop_inv {s : State} {n : Nat} (h_s : s.Inv made) : (State.cfPop s n).Inv made := by
  unfold State.cfPop
  try dsimp only [State.take]
  with_reducible repeat' first
    | assumption
    | apply State.setCf_inv
    | apply State.showCan_inv
    | split
    | simp only [State.inv_mk]

theorem State.cfPush_inv {s : State} {n : Nat} (h_s : s.Inv made) : (State.cfPush s n).Inv made := by
  unfold State.cfPush
  try dsimp only [State.take]
  with_reducible repeat' first
    | assumption
    | apply State.setCf_inv
    | apply State.showCan_inv
    | apply State.busyErr_inv
    | split
    | simp only [State.inv_mk]

theorem State.cfFlush_inv {s : State} {n : Nat} (h_s : s.Inv made) : (State.cfFlush s n).Inv made := by
  unfold State.cfFlush
  try dsimp only [State.take]
  with_reducible repeat' first
    | assumption
    | apply State.setCf_inv
    | apply State.showCan_inv
    | split
    | simp only [State.inv_mk]

theorem State.cfReqBuf_inv {s : State} {n k : Nat} (h_s : s.Inv made) : (State.cfReqBuf s n k).Inv made := by
  unfold State.cfReqBuf
  with_reducible repeat' first
    | assumption
    | apply State.setPending_inv
    | split

theorem State.cfAbortBuf_inv {s : State} {n k : Nat} (h_s : s.Inv made) : (State.cfAbortBuf s n k).Inv made := by
  unfold State.cfAbortBuf
  try dsimp only [State.take]
  with_reducible repeat' first
    | assumption
    | apply State.setCf_inv
    | apply State.setPending_inv
    | split
    | simp only [State.inv_mk]

theorem State.wrCfCtl_inv {s : State} {n : Nat} {v : Word} {arriving : Option (CanFrame × Nat)} (h_s : s.Inv made) : (State.wrCfCtl s n v arriving).Inv made := by
  unfold State.wrCfCtl
  try dsimp only [State.take]
  with_reducible repeat' first
    | assumption
    | apply State.cfAbortBuf_inv
    | apply State.cfFilter_inv
    | apply State.cfPop_inv
    | apply State.cfFlush_inv
    | apply State.cfPush_inv
    | apply State.setCf_inv
    | apply State.cfReqBuf_inv
    | apply State.inv_foldl
    | (intro _ _ _; try dsimp only)
    | split
    | simp only [State.inv_mk]

theorem execTxbReq_inv {f : Func} {n : Fin 8} {v : Word} {s : State} (h_s : s.Inv made) : Keeps made (execTxbReq f n v s) := by
  unfold execTxbReq
  try dsimp only [State.take]
  with_reducible repeat' first
    | assumption
    | apply Keeps.next
    | apply State.wrCfCtl_inv
    | apply State.guarded_inv
    | apply State.inv_foldl
    | (intro _ _ _; try dsimp only)
    | (intro _ _; try dsimp only)
    | split
    | simp only [State.inv_mk]
    | dsimp only [State.take]

theorem execTxbAbort_inv {f : Func} {n : Fin 8} {v : Word} {s : State} (h_s : s.Inv made) : Keeps made (execTxbAbort f n v s) := by
  unfold execTxbAbort
  try dsimp only [State.take]
  with_reducible repeat' first
    | assumption
    | apply Keeps.next
    | apply State.wrCfCtl_inv
    | apply State.guarded_inv
    | apply State.inv_foldl
    | (intro _ _ _; try dsimp only)
    | (intro _ _; try dsimp only)
    | split
    | simp only [State.inv_mk]
    | dsimp only [State.take]

theorem execTxfPush_inv {f : Func} {n : Fin 8} {v : Word} {s : State} (h_s : s.Inv made) : Keeps made (execTxfPush f n v s) := by
  unfold execTxfPush
  try dsimp only [State.take]
  with_reducible repeat' first
    | assumption
    | apply Keeps.next
    | apply State.wrCfCtl_inv
    | apply State.guarded_inv
    | apply State.inv_foldl
    | (intro _ _ _; try dsimp only)
    | (intro _ _; try dsimp only)
    | split
    | simp only [State.inv_mk]
    | dsimp only [State.take]

theorem execTxfFlush_inv {f : Func} {n : Fin 8} {v : Word} {s : State} (h_s : s.Inv made) : Keeps made (execTxfFlush f n v s) := by
  unfold execTxfFlush
  try dsimp only [State.take]
  with_reducible repeat' first
    | assumption
    | apply Keeps.next
    | apply State.wrCfCtl_inv
    | apply State.guarded_inv
    | apply State.inv_foldl
    | (intro _ _ _; try dsimp only)
    | (intro _ _; try dsimp only)
    | split
    | simp only [State.inv_mk]
    | dsimp only [State.take]

theorem execRxPop_inv {f : Func} {n : Fin 8} {v : Word} {arriving : Option (CanFrame × Nat)} {s : State} (h_s : s.Inv made) : Keeps made (execRxPop f n v arriving s) := by
  unfold execRxPop
  try dsimp only [State.take]
  with_reducible repeat' first
    | assumption
    | apply Keeps.next
    | apply State.wrCfCtl_inv
    | apply State.inv_foldl
    | (intro _ _ _; try dsimp only)
    | split
    | simp only [State.inv_mk]

theorem execRecover_inv {f : Func} {n : Fin 8} {v : Word} {s : State} (h_s : s.Inv made) : Keeps made (execRecover f n v s) := by
  unfold execRecover
  try dsimp only [State.take]
  with_reducible repeat' first
    | assumption
    | apply Keeps.next
    | apply State.wrCfCtl_inv
    | apply State.guarded_inv
    | apply State.inv_foldl
    | (intro _ _ _; try dsimp only)
    | (intro _ _; try dsimp only)
    | split
    | simp only [State.inv_mk]
    | dsimp only [State.take]

theorem State.wrTxb_inv {s : State} {f : Func} {n off : Nat} {v : Word} (h_s : s.Inv made) : (State.wrTxb s f n off v).Inv made := by
  unfold State.wrTxb
  try dsimp only [State.take]
  with_reducible repeat' first
    | assumption
    | apply State.store_inv
    | apply State.busyErr_inv
    | split

theorem execCanArbitration_inv {n : Fin 8} {s : State} (h_s : s.Inv made) : Keeps made (execCanArbitration n s) := by
  unfold execCanArbitration
  try dsimp only [State.take]
  with_reducible repeat' first
    | assumption
    | apply Keeps.next
    | apply State.setCf_inv
    | apply State.showCan_inv
    | apply State.inv_foldl
    | (intro _ _ _; try dsimp only)
    | split
    | simp only [State.inv_mk]

theorem State.cfLost_inv {s : State} {n : Nat} (h_s : s.Inv made) : (State.cfLost s n).Inv made := by
  unfold State.cfLost
  try dsimp only [State.take]
  with_reducible repeat' first
    | assumption
    | apply State.setCf_inv
    | apply State.showCan_inv
    | apply State.setPending_inv
    | split
    | simp only [State.inv_mk]

theorem State.measure_inv {s : State} {n : Nat} {delay : Nat} (h_s : s.Inv made) : (State.measure s n delay).Inv made := by
  unfold State.measure
  try dsimp only [State.take]
  with_reducible repeat' first
    | assumption
    | apply State.setCf_inv
    | apply State.inv_foldl
    | (intro _ _ _; try dsimp only)
    | split
    | simp only [State.inv_mk]

theorem State.cfErrNote_inv {s : State} {n : Nat} {lec : Nat} {off : Nat} {hi : Nat} {lo : Nat} (h_s : s.Inv made) : (State.cfErrNote s n lec off hi lo).Inv made := by
  unfold State.cfErrNote
  try dsimp only [State.take]
  with_reducible repeat' first
    | assumption
    | apply State.incSat_inv
    | apply State.pf_inv
    | apply State.inv_foldl
    | (intro _ _ _; try dsimp only)
    | split
    | simp only [State.inv_mk]

theorem State.cfErrCount_inv {s : State} {n : Nat} {tecAdd : Nat} {recAdd : Nat} (h_s : s.Inv made) : (State.cfErrCount s n tecAdd recAdd).Inv made := by
  unfold State.cfErrCount
  try dsimp only [State.take]
  with_reducible repeat' first
    | assumption
    | apply State.leaveBus_inv
    | apply State.showErr_inv
    | apply State.setCf_inv
    | apply State.inv_foldl
    | (intro _ _ _; try dsimp only)
    | split
    | simp only [State.inv_mk]

theorem State.tdcFail_inv {s : State} {n : Nat} (h_s : s.Inv made) : (State.tdcFail s n).Inv made := by
  unfold State.tdcFail
  try dsimp only [State.take]
  with_reducible repeat' first
    | assumption
    | apply State.cfErrCount_inv
    | apply State.take_inv
    | refine State.take_inv_eq ?_ (by assumption)
    | apply State.cfLost_inv
    | apply State.cfErrNote_inv
    | apply State.inv_foldl
    | (intro _ _ _; try dsimp only)
    | split
    | simp only [State.inv_mk]

theorem execCanFrameSent_inv {n : Fin 8} {delay : Nat} {s : State} (h_s : s.Inv made) : Keeps made (execCanFrameSent n delay s) := by
  unfold execCanFrameSent
  try dsimp only [State.take]
  with_reducible repeat' first
    | assumption
    | apply Keeps.next
    | apply State.setPending_inv
    | apply State.fltOf_inv
    | refine State.fltOf_inv_eq ?_ (by assumption)
    | apply State.showCan_inv
    | apply State.raise_inv
    | apply State.measure_inv
    | apply State.cfStore_inv
    | apply State.showErr_inv
    | apply State.tdcFail_inv
    | apply State.setCf_inv
    | apply State.inv_foldl
    | (intro _ _ _; try dsimp only)
    | split
    | simp only [State.inv_mk]

theorem execCanFrameReceived_inv {n : Fin 8} {frame : CanFrame} {age : Nat} {s : State} (h_s : s.Inv made) : Keeps made (execCanFrameReceived n frame age s) := by
  unfold execCanFrameReceived
  try dsimp only [State.take]
  with_reducible repeat' first
    | assumption
    | apply Keeps.next
    | apply State.cfFilter_inv
    | apply State.take_inv
    | refine State.take_inv_eq ?_ (by assumption)
    | apply State.cfLost_inv
    | apply State.showErr_inv
    | apply State.setCf_inv
    | apply State.inv_foldl
    | (intro _ _ _; try dsimp only)
    | split
    | simp only [State.inv_mk]

theorem State.sameIdErr_inv {s : State} {n : Nat} {f : CanFrame} (h_s : s.Inv made) : (State.sameIdErr s n f).Inv made := by
  unfold State.sameIdErr
  try dsimp only [State.take]
  with_reducible repeat' first
    | assumption
    | apply State.wr_inv
    | apply State.addSat_inv
    | apply State.raise_inv
    | apply State.logNamed_inv
    | apply State.setCf_inv
    | split
    | simp only [State.inv_mk]
    | dsimp only [id]

theorem execCanError_inv {n : Fin 8} {kind : CanErr} {transmitting : Bool} {outsideArbitration : Bool} {tecAdd : Nat} {recAdd : Nat} {s : State} (h_s : s.Inv made) : Keeps made (execCanError n kind transmitting outsideArbitration tecAdd recAdd s) := by
  unfold execCanError
  try dsimp only [State.take]
  with_reducible repeat' first
    | assumption
    | apply Keeps.next
    | apply State.sameIdErr_inv
    | apply State.cfErrCount_inv
    | apply State.cfLost_inv
    | apply State.cfErrNote_inv
    | apply State.inv_foldl
    | (intro _ _ _; try dsimp only)
    | split
    | simp only [State.inv_mk]

theorem execBusOffRecovery_inv {n : Fin 8} {s : State} (h_s : s.Inv made) : Keeps made (execBusOffRecovery n s) := by
  unfold execBusOffRecovery
  try dsimp only [State.take]
  with_reducible repeat' first
    | assumption
    | apply Keeps.next
    | apply State.setCf_inv
    | apply State.showErr_inv
    | split
    | simp only [State.inv_mk]

theorem execTxTimeout_inv {n : Fin 8} {slot : Fin 32} {s : State} (h_s : s.Inv made) : Keeps made (execTxTimeout n slot s) := by
  unfold execTxTimeout
  try dsimp only [State.take]
  with_reducible repeat' first
    | assumption
    | apply Keeps.next
    | apply State.raise_inv
    | apply State.logNamed_inv
    | apply State.setCf_inv
    | apply State.showCan_inv
    | apply State.setPending_inv
    | split
    | simp only [State.inv_mk]

theorem execRxTimeout_inv {n : Fin 8} {flt : Fin 32} {s : State} (h_s : s.Inv made) : Keeps made (execRxTimeout n flt s) := by
  unfold execRxTimeout
  try dsimp only [State.take]
  with_reducible repeat' first
    | assumption
    | apply Keeps.next
    | apply State.wb_inv
    | apply State.raise_inv
    | apply State.logNamed_inv
    | split

theorem execBusDominant_inv {n : Fin 8} {s : State} (h_s : s.Inv made) : Keeps made (execBusDominant n s) := by
  unfold execBusDominant
  try dsimp only [State.take]
  with_reducible repeat' first
    | assumption
    | apply Keeps.next
    | apply State.raise_inv
    | apply State.logNamed_inv
    | apply State.setCf_inv
    | apply State.cfLost_inv
    | split
    | simp only [State.inv_mk]

theorem execBusRecessive_inv {n : Fin 8} {s : State} (h_s : s.Inv made) : Keeps made (execBusRecessive n s) := by
  unfold execBusRecessive
  try dsimp only [State.take]
  with_reducible repeat' first
    | assumption
    | apply Keeps.next
    | apply State.setCf_inv
    | simp only [State.inv_mk]

theorem execCanWake_inv {n : Fin 8} {frame : Option (CanFrame × Nat)} {s : State} (h_s : s.Inv made) : Keeps made (execCanWake n frame s) := by
  unfold execCanWake
  try dsimp only [State.take]
  with_reducible repeat' first
    | assumption
    | apply Keeps.next
    | apply State.logNamed_inv
    | apply State.cfFilter_inv
    | apply State.raise_inv
    | apply State.pf_inv
    | apply State.inv_foldl
    | (intro _ _ _; try dsimp only)
    | split
    | simp only [State.inv_mk]

end Sys2Proof.Machine
end

