-- ==== Sys2Proof/Laws/KeepCaravan.lean ====
section
/-!
SUPPORT. Every function of Machine/Caravan.lean keeps the invariant of the step.
-/
namespace Sys2Proof.Machine

variable {made : Fuses}

theorem State.setVs_inv {s : State} {v : Nat} {x : Stream} (h_s : s.Inv made) : (State.setVs s v x).Inv made := by
  unfold State.setVs
  try dsimp only [State.take]
  with_reducible repeat' first
    | assumption
    | simp only [State.inv_mk]

theorem State.vsLost_inv {s : State} {v n : Nat} (h_s : s.Inv made) : (State.vsLost s v n).Inv made := by
  unfold State.vsLost
  with_reducible repeat' first
    | assumption
    | apply State.pf_inv

theorem State.vsArrive_inv {s : State} {v : Nat} {p : RtpPacket} (h_s : s.Inv made) : (State.vsArrive s v p).Inv made := by
  unfold State.vsArrive
  try dsimp only [State.take]
  with_reducible repeat' first
    | assumption
    | apply State.setVs_inv
    | apply State.vsLost_inv
    | split
    | simp only [State.inv_mk]

theorem execRtpPacket_inv {p : RtpPacket} {s : State} (h_s : s.Inv made) : Keeps made (execRtpPacket p s) := by
  unfold execRtpPacket
  with_reducible repeat' first
    | assumption
    | apply Keeps.next
    | apply State.vsArrive_inv
    | apply State.inv_foldl
    | (intro _ _ _; try dsimp only)

theorem execJitterExpiry_inv {vs : Fin 80} {s : State} (h_s : s.Inv made) : Keeps made (execJitterExpiry vs s) := by
  unfold execJitterExpiry
  try dsimp only [State.take]
  with_reducible repeat' first
    | assumption
    | apply Keeps.next
    | apply State.setVs_inv
    | apply State.vsLost_inv
    | split
    | simp only [State.inv_mk]

theorem execStalled_inv {vs : Fin 80} {s : State} (h_s : s.Inv made) : Keeps made (execStalled vs s) := by
  unfold execStalled
  try dsimp only [State.take]
  with_reducible repeat' first
    | assumption
    | apply Keeps.next
    | apply State.raise_inv
    | apply State.logNamed_inv
    | apply State.setVs_inv
    | split
    | simp only [State.inv_mk]

theorem State.pictureOk_inv {s : State} {v : Nat} {p : Picture} (h_s : s.Inv made) : (State.pictureOk s v p).2.Inv made := by
  unfold State.pictureOk
  try dsimp only [State.take]
  with_reducible repeat' first
    | assumption
    | apply State.take_inv
    | refine State.take_inv_eq ?_ (by assumption)
    | apply State.inv_foldl
    | (intro _ _ _; try dsimp only)
    | split
    | simp only [State.inv_mk]

theorem State.pictureOk_inv_eq {s : State} {v : Nat} {p : Picture} {y : State} {x0_} (h_s : s.Inv made) (he : State.pictureOk s v p = (x0_, y)) : y.Inv made := by
  have h := State.pictureOk_inv (made := made) (s := s) (v := v) (p := p) h_s
  rw [he] at h
  exact h

theorem State.keepPicture_inv {s : State} {t cu : Nat} (h_s : s.Inv made) : (State.keepPicture s t cu).2.Inv made := by
  unfold State.keepPicture
  try dsimp only [State.take]
  with_reducible repeat' first
    | assumption
    | split
    | simp only [State.inv_mk]

theorem State.keepPicture_inv_eq {s : State} {t cu : Nat} {y : State}  {x} (h_s : s.Inv made) (he : State.keepPicture s t cu = (x, y)) : y.Inv made := by
  have := State.keepPicture_inv (made := made) (s := s) (t := t) (cu := cu) h_s
  rw [he] at this
  exact this

theorem State.outForm_inv {s : State} {v : Nat} (h_s : s.Inv made) : (State.outForm s v).2.Inv made := by
  unfold State.outForm
  try dsimp only [State.take]
  with_reducible repeat' first
    | assumption
    | split
    | simp only [State.inv_mk]

theorem State.outForm_inv_eq {s : State} {v : Nat} {y : State}  {x} (h_s : s.Inv made) (he : State.outForm s v = (x, y)) : y.Inv made := by
  have := State.outForm_inv (made := made) (s := s) (v := v) h_s
  rw [he] at this
  exact this

theorem State.picture_inv {s : State} {v : Nat} {p : Picture} (h_s : s.Inv made) : (State.picture s v p).Inv made := by
  unfold State.picture
  try dsimp only [State.take]
  with_reducible repeat' first
    | assumption
    | apply State.pictureOk_inv
    | refine State.pictureOk_inv_eq ?_ (by assumption)
    | apply State.incSat_inv
    | apply State.keepPicture_inv
    | refine State.keepPicture_inv_eq ?_ (by assumption)
    | apply State.addSampleOf_inv
    | apply State.setVs_inv
    | apply State.outForm_inv
    | refine State.outForm_inv_eq ?_ (by assumption)
    | apply State.manUpdate_inv
    | apply State.corruptSample_inv
    | apply State.inv_foldl
    | (intro _ _ _; try dsimp only)
    | split
    | simp only [State.inv_mk]

theorem execPictureDecoded_inv {vs : Fin 80} {pic : Picture} {s : State} (h_s : s.Inv made) : Keeps made (execPictureDecoded vs pic s) := by
  unfold execPictureDecoded
  with_reducible repeat' first
    | assumption
    | apply Keeps.next
    | apply State.picture_inv
    | split

theorem State.wrGlCtl_inv {s : State} {f : Func} {v : Word} (h_s : s.Inv made) : (State.wrGlCtl s f v).Inv made := by
  unfold State.wrGlCtl
  try dsimp only [State.take]
  with_reducible repeat' first
    | assumption
    | apply State.wb_inv
    | apply State.store_inv
    | apply State.unitAccess_inv
    | refine State.unitAccess_inv_eq ?_ (by assumption)
    | split
    | simp only [State.inv_mk]
    | dsimp only

theorem execGleanStart_inv {f : Func} {v : Word} {s : State} (h_s : s.Inv made) : Keeps made (execGleanStart f v s) := by
  unfold execGleanStart
  with_reducible repeat' first
    | assumption
    | apply Keeps.next
    | apply State.guarded_inv
    | apply State.wrGlCtl_inv
    | (intro _ _; try dsimp only)

theorem execGleanDone_inv {s : State} (h_s : s.Inv made) : Keeps made (execGleanDone s) := by
  unfold execGleanDone
  try dsimp only [State.take]
  with_reducible repeat' first
    | assumption
    | apply Keeps.next
    | apply State.wr_inv
    | apply State.hbmWrite_inv
    | apply State.wb_inv
    | split
    | simp only [State.inv_mk]
    | dsimp only

end Sys2Proof.Machine
end

