-- ==== Sys2Proof/Laws/KeepEth.lean ====
section
/-!
SUPPORT. Every function of Machine/Eth.lean keeps the invariant of the step.
-/
namespace Sys2Proof.Machine

variable {made : Fuses}

theorem State.setEth_inv {s : State} {p : Nat} {x : EthPort} (h_s : s.Inv made) : (State.setEth s p x).Inv made := by
  unfold State.setEth
  try dsimp only [State.take]
  with_reducible repeat' first
    | assumption
    | simp only [State.inv_mk]

theorem State.setHead_inv {s : State} {p q : Nat} {h : Option EthHead} (h_s : s.Inv made) : (State.setHead s p q h).Inv made := by
  unfold State.setHead
  try dsimp only [State.take]
  with_reducible repeat' first
    | assumption
    | apply State.setEth_inv
    | split
    | simp only [State.inv_mk]

theorem State.ethDrop_inv {s : State} {p : Nat} (h_s : s.Inv made) : (State.ethDrop s p).Inv made := by
  unfold State.ethDrop
  with_reducible repeat' first
    | assumption
    | apply State.raise_inv

theorem State.qDrop_inv {s : State} {p qreg : Nat} (h_s : s.Inv made) : (State.qDrop s p qreg).Inv made := by
  unfold State.qDrop
  with_reducible repeat' first
    | assumption
    | apply State.addSat_inv
    | apply State.ethDrop_inv

theorem State.ethStop_inv {s : State} {p qreg : Nat} (h_s : s.Inv made) : (State.ethStop s p qreg).Inv made := by
  unfold State.ethStop
  with_reducible repeat' first
    | assumption
    | apply State.wb_inv
    | apply State.raise_inv
    | apply State.logNamed_inv

theorem State.ringHead_inv {s : State} {p qreg : Nat} (h_s : s.Inv made) : (State.ringHead s p qreg).2.Inv made := by
  unfold State.ringHead
  try dsimp only [State.take]
  with_reducible repeat' first
    | assumption
    | apply State.unitAccess_inv
    | refine State.unitAccess_inv_eq ?_ (by assumption)
    | apply State.ethStop_inv
    | split

theorem State.ringHead_inv_eq {s : State} {p qreg : Nat} {y : State}  {x} (h_s : s.Inv made) (he : State.ringHead s p qreg = (x, y)) : y.Inv made := by
  have := State.ringHead_inv (made := made) (s := s) (p := p) (qreg := qreg) h_s
  rw [he] at this
  exact this

theorem State.bumpRing_inv {s : State} {qreg cons : Nat} (h_s : s.Inv made) : (State.bumpRing s qreg cons).Inv made := by
  unfold State.bumpRing
  with_reducible repeat' first
    | assumption
    | apply State.hbmWrite_inv

theorem State.ptpForward_inv {s : State} {p stamp : Nat} {f : List Byte} (h_s : s.Inv made) : (State.ptpForward s p stamp f).Inv made := by
  unfold State.ptpForward
  try dsimp only [State.take]
  with_reducible repeat' first
    | assumption
    | apply State.incSat_inv
    | apply State.setEth_inv
    | apply State.ethDrop_inv
    | apply State.inv_foldl
    | (intro _ _ _; try dsimp only)
    | split
    | simp only [State.inv_mk]

theorem State.ethDeliver_inv {s : State} {p q stamp tci flags : Nat} {f : List Byte} (h_s : s.Inv made) : (State.ethDeliver s p q stamp tci flags f).Inv made := by
  unfold State.ethDeliver
  try dsimp only [State.take]
  with_reducible repeat' first
    | assumption
    | apply State.hbmWrite_inv
    | apply State.incSat_inv
    | apply State.unitAccess_inv
    | refine State.unitAccess_inv_eq ?_ (by assumption)
    | apply State.qDrop_inv
    | apply State.ethStop_inv
    | apply State.ringHead_inv
    | refine State.ringHead_inv_eq ?_ (by assumption)
    | apply State.bumpRing_inv
    | split
    | simp only [State.inv_mk]
    | dsimp only

theorem State.classify_inv {s : State} {p : Nat} {f : List Byte} (h_s : s.Inv made) : (State.classify s p f).Inv made := by
  unfold State.classify
  try dsimp only [State.take]
  with_reducible repeat' first
    | assumption
    | apply State.incSat_inv
    | apply State.ethDrop_inv
    | apply State.ptpForward_inv
    | apply State.ethDeliver_inv
    | split
    | simp only [State.inv_mk]

theorem execEthFrameReceived_inv {port : Fin 4} {fcsOk : Bool} {frame : List Byte} {s : State} (h_s : s.Inv made) : Keeps made (execEthFrameReceived port fcsOk frame s) := by
  unfold execEthFrameReceived
  try dsimp only [State.take]
  with_reducible repeat' first
    | assumption
    | apply Keeps.next
    | apply State.incSat_inv
    | apply State.ethDrop_inv
    | apply State.classify_inv
    | split

theorem State.txFinish_inv {s : State} {p q desc status stamp : Nat} (h_s : s.Inv made) : (State.txFinish s p q desc status stamp).Inv made := by
  unfold State.txFinish
  try dsimp only [State.take]
  with_reducible repeat' first
    | assumption
    | apply State.hbmWrite_inv
    | apply State.unitAccess_inv
    | refine State.unitAccess_inv_eq ?_ (by assumption)
    | apply State.qDrop_inv
    | apply State.ethStop_inv
    | apply State.bumpRing_inv
    | split

theorem State.txFetch_inv {s : State} {p q : Nat} (h_s : s.Inv made) : (State.txFetch s p q).Inv made := by
  unfold State.txFetch
  try dsimp only [State.take]
  with_reducible repeat' first
    | assumption
    | apply State.unitAccess_inv
    | refine State.unitAccess_inv_eq ?_ (by assumption)
    | apply State.setHead_inv
    | apply State.ringHead_inv
    | refine State.ringHead_inv_eq ?_ (by assumption)
    | apply State.txFinish_inv
    | split
    | simp only [State.inv_mk]

theorem execQueuePoll_inv {port : Fin 4} {s : State} (h_s : s.Inv made) : Keeps made (execQueuePoll port s) := by
  unfold execQueuePoll
  with_reducible repeat' first
    | assumption
    | apply Keeps.next
    | apply State.txFetch_inv
    | apply State.inv_foldl
    | (intro _ _ _; try dsimp only)
    | split

theorem State.ethChoose_inv {s : State} {p n : Nat} (h_s : s.Inv made) : (State.ethChoose s p n).Inv made := by
  induction n generalizing s with
  | zero => exact h_s
  | succ n ih =>
    unfold State.ethChoose
    dsimp only
    with_reducible repeat' first
      | assumption
      | apply State.setEth_inv
      | apply ih
      | apply State.txFinish_inv
      | apply State.logNamed_inv
      | apply State.raise_inv
      | apply State.addSat_inv
      | apply State.setHead_inv
      | split

theorem execEthFrameBoundary_inv {port : Fin 4} {s : State} (h_s : s.Inv made) : Keeps made (execEthFrameBoundary port s) := by
  unfold execEthFrameBoundary
  with_reducible repeat' first
    | assumption
    | apply Keeps.next
    | apply State.ethChoose_inv

theorem execLaunchTime_inv {port : Fin 4} {q : Fin 8} {s : State} (h_s : s.Inv made) : Keeps made (execLaunchTime port q s) := by
  unfold execLaunchTime
  try dsimp only [State.take]
  with_reducible repeat' first
    | assumption
    | apply Keeps.next
    | apply State.ethChoose_inv
    | split
    | simp only [State.inv_mk]

theorem State.ethLaunch_inv {s : State} {p q entry : Nat} (h_s : s.Inv made) : (State.ethLaunch s p q entry).Inv made := by
  unfold State.ethLaunch
  try dsimp only [State.take]
  with_reducible repeat' first
    | assumption
    | apply State.pf_inv
    | apply State.wb_inv
    | apply State.setHead_inv
    | apply State.ethChoose_inv
    | split
    | simp only [State.inv_mk]
    | dsimp only

theorem execEthTxDone_inv {port : Fin 4} {s : State} (h_s : s.Inv made) : Keeps made (execEthTxDone port s) := by
  unfold execEthTxDone
  try dsimp only [State.take]
  with_reducible repeat' first
    | assumption
    | apply Keeps.next
    | apply State.wardenFresh_inv
    | apply State.pushStamp_inv
    | apply State.setEth_inv
    | apply State.txFinish_inv
    | split
    | simp only [State.inv_mk]

theorem State.ethLose_inv {s : State} {p : Nat} (h_s : s.Inv made) : (State.ethLose s p).Inv made := by
  unfold State.ethLose
  try dsimp only [State.take]
  with_reducible repeat' first
    | assumption
    | apply State.setEth_inv
    | apply State.txFinish_inv
    | apply State.inv_foldl
    | (intro _ _ _; try dsimp only)
    | split
    | simp only [State.inv_mk]

theorem execLinkDown_inv {port : Fin 4} {s : State} (h_s : s.Inv made) : Keeps made (execLinkDown port s) := by
  unfold execLinkDown
  try dsimp only [State.take]
  with_reducible repeat' first
    | assumption
    | apply Keeps.next
    | apply State.wb_inv
    | apply State.raise_inv
    | apply State.logNamed_inv
    | apply State.ethLose_inv
    | split

theorem execLinkUp_inv {port : Fin 4} {s : State} (h_s : s.Inv made) : Keeps made (execLinkUp port s) := by
  unfold execLinkUp
  try dsimp only [State.take]
  with_reducible repeat' first
    | assumption
    | apply Keeps.next
    | apply State.wb_inv
    | apply State.raise_inv
    | apply State.logNamed_inv
    | split

theorem execSilent_inv {port : Fin 4} {arrived : Bool} {s : State} (h_s : s.Inv made) : Keeps made (execSilent port arrived s) := by
  unfold execSilent
  try dsimp only [State.take]
  with_reducible repeat' first
    | assumption
    | apply Keeps.next
    | apply State.raise_inv
    | apply State.logNamed_inv
    | split

theorem State.wrEthQ_inv {s : State} {f : Func} {p : Nat} {tx : Bool} {q : Nat} {v : Word} (h_s : s.Inv made) : (State.wrEthQ s f p tx q v).Inv made := by
  unfold State.wrEthQ
  try dsimp only [State.take]
  with_reducible repeat' first
    | assumption
    | apply State.store_inv
    | apply State.setHead_inv
    | split

theorem execQueueRestart_inv {f : Func} {port : Fin 4} {tx : Bool} {q : Fin 8} {v : Word} {s : State} (h_s : s.Inv made) : Keeps made (execQueueRestart f port tx q v s) := by
  unfold execQueueRestart
  with_reducible repeat' first
    | assumption
    | apply Keeps.next
    | apply State.guarded_inv
    | apply State.wrEthQ_inv
    | (intro _ _; try dsimp only)
    | split

theorem State.wrEthCfg_inv {s : State} {f : Func} {p : Nat} {v : Word} (h_s : s.Inv made) : (State.wrEthCfg s f p v).Inv made := by
  unfold State.wrEthCfg
  try dsimp only [State.take]
  with_reducible repeat' first
    | assumption
    | apply State.wb_inv
    | apply State.store_inv
    | split

end Sys2Proof.Machine
end

