-- ==== Sys2Proof/Laws/KeepWarden.lean ====
section
/-!
SUPPORT. Every function of Machine/Warden.lean keeps the invariant of the step.
-/
namespace Sys2Proof.Machine

variable {made : Fuses}

theorem State.slotStop_inv {s : State} {i : Nat} (h_s : s.Inv made) : (State.slotStop s i).Inv made := by
  unfold State.slotStop
  try dsimp only [State.take]
  with_reducible repeat' first
    | assumption
    | apply State.wb_inv
    | apply State.raise_inv
    | apply State.logEvent_inv
    | apply State.recordFault_inv
    | apply State.trigger_inv
    | apply State.inv_foldl
    | (intro _ _ _; try dsimp only)
    | simp only [State.inv_mk]

theorem State.slotCheck_inv {s : State} {i : Nat} {freshNow : Bool} (h_s : s.Inv made) : (State.slotCheck s i freshNow).Inv made := by
  unfold State.slotCheck
  try dsimp only [State.take]
  with_reducible repeat' first
    | assumption
    | apply State.wb_inv
    | apply State.incSat_inv
    | apply State.raise_inv
    | apply State.logEvent_inv
    | apply State.recordFault_inv
    | apply State.slotFresh_inv
    | apply State.slotStop_inv
    | split

theorem execWdHoldExpired_inv {slot : Fin 64} {freshNow : Bool} {s : State} (h_s : s.Inv made) : Keeps made (execWdHoldExpired slot freshNow s) := by
  unfold execWdHoldExpired
  with_reducible repeat' first
    | assumption
    | apply Keeps.next
    | apply State.slotFresh_inv
    | apply State.slotStop_inv
    | split

theorem State.wrSlotCtl_inv {s : State} {i : Nat} {v : Word} (h_s : s.Inv made) : (State.wrSlotCtl s i v).Inv made := by
  unfold State.wrSlotCtl
  try dsimp only [State.take]
  with_reducible repeat' first
    | assumption
    | apply State.slotEnd_inv
    | split
    | simp only [State.inv_mk]
    | dsimp only

theorem execStopClr_inv {f : Func} {slot : Fin 64} {v : Word} {s : State} (h_s : s.Inv made) : Keeps made (execStopClr f slot v s) := by
  unfold execStopClr
  with_reducible repeat' first
    | assumption
    | apply Keeps.next
    | apply State.guarded_inv
    | apply State.wrSlotCtl_inv
    | (intro _ _; try dsimp only)

theorem State.wrSlotCfg_inv {s : State} {f : Func} {i off : Nat} {v : Word} (h_s : s.Inv made) : (State.wrSlotCfg s f i off v).Inv made := by
  unfold State.wrSlotCfg
  try dsimp only [State.take]
  with_reducible repeat' first
    | assumption
    | apply State.wb_inv
    | apply State.store_inv
    | split

theorem State.wrWdSrc_inv {s : State} {f : Func} {a : Nat} {v : Word} (h_s : s.Inv made) : (State.wrWdSrc s f a v).Inv made := by
  unfold State.wrWdSrc
  with_reducible repeat' first
    | assumption
    | apply State.store_inv
    | split

theorem execWdLockstep_inv {s : State} (h_s : s.Inv made) : Keeps made (execWdLockstep s) := by
  unfold execWdLockstep
  try dsimp only [State.take]
  with_reducible repeat' first
    | assumption
    | apply Keeps.next
    | apply State.wb_inv
    | apply State.raise_inv
    | apply State.logEvent_inv
    | apply State.recordFault_inv
    | apply State.forceStoB_inv
    | apply State.torqueOff_inv
    | apply State.setBlk_inv
    | apply State.inv_foldl
    | (intro _ _ _; try dsimp only)

theorem State.wrWdCtl_inv {s : State} {v : Word} (h_s : s.Inv made) : (State.wrWdCtl s v).Inv made := by
  unfold State.wrWdCtl
  try dsimp only [State.take]
  with_reducible repeat' first
    | assumption
    | apply State.wb_inv
    | split
    | simp only [State.inv_mk]

theorem execDiagRun_inv {f : Func} {v : Word} {s : State} (h_s : s.Inv made) : Keeps made (execDiagRun f v s) := by
  unfold execDiagRun
  with_reducible repeat' first
    | assumption
    | apply Keeps.next
    | apply State.guarded_inv
    | apply State.wrWdCtl_inv
    | (intro _ _; try dsimp only)

theorem State.setStage_inv {s : State} {n : Nat} (h_s : s.Inv made) : (State.setStage s n).Inv made := by
  unfold State.setStage
  with_reducible repeat' first
    | assumption
    | apply State.pf_inv
    | split

theorem State.enterSafeHold_inv {s : State} {checker : Nat} (h_s : s.Inv made) : (State.enterSafeHold s checker).Inv made := by
  unfold State.enterSafeHold
  try dsimp only [State.take]
  with_reducible repeat' first
    | assumption
    | apply State.wb_inv
    | apply State.raise_inv
    | apply State.logEvent_inv
    | apply State.recordFault_inv
    | apply State.abortAll_inv
    | apply State.torqueOff_inv
    | apply State.toState_inv
    | apply State.leaveUp_inv
    | apply State.inv_foldl
    | (intro _ _ _; try dsimp only)

theorem State.startLedger_inv {s : State} {epochFailed : Bool} {rows : List RowFault} (h_s : s.Inv made) : (State.startLedger s epochFailed rows).Inv made := by
  unfold State.startLedger
  try dsimp only [State.take]
  with_reducible repeat' first
    | assumption
    | apply State.wb_inv
    | apply State.setEngine_inv
    | apply State.spoil_inv
    | apply State.ledgerNow_inv
    | refine State.ledgerNow_inv_eq ?_ (by assumption)
    | apply State.loadLedger_inv
    | apply State.inv_foldl
    | (intro _ _ _; try dsimp only)
    | split
    | simp only [State.inv_mk]

theorem execStartupRunDone_inv {fails : BitVec 16} {inst : Nat} {micros : Nat} {epochFailed : Bool} {rows : List RowFault} {s : State} (h_s : s.Inv made) : Keeps made (execStartupRunDone fails inst micros epochFailed rows s) := by
  unfold execStartupRunDone
  try dsimp only [State.take]
  with_reducible repeat' first
    | assumption
    | apply Keeps.next
    | apply State.incSat_inv
    | apply State.enterSafeHold_inv
    | apply State.startLedger_inv
    | apply State.wr_inv
    | apply State.resetRegs_inv
    | apply State.engineReset_inv
    | apply State.setStage_inv
    | apply State.raise_inv
    | apply State.wb_inv
    | apply State.setBlk_inv
    | apply State.pf_inv
    | apply State.inv_foldl
    | (intro _ _ _; try dsimp only)
    | split
    | simp only [State.inv_mk]

end Sys2Proof.Machine
end

