-- ==== Sys2Proof/Laws/KeepSecurity.lean ====
section
/-!
SUPPORT. Every function of Machine/Security.lean keeps the invariant of the step.
-/
namespace Sys2Proof.Machine

variable {made : Fuses}

theorem State.regRefuse_inv {s : State} {e bit : Nat} (h_s : s.Inv made) : (State.regRefuse s e bit).Inv made := by
  unfold State.regRefuse
  with_reducible repeat' first
    | assumption
    | apply State.pf_inv
    | apply State.wb_inv

theorem State.leaveRegion_inv {s : State} {e : Nat} {owner : Nat} (h_s : s.Inv made) : (State.leaveRegion s e owner).Inv made := by
  unfold State.leaveRegion
  try dsimp only [State.take]
  with_reducible repeat' first
    | assumption
    | apply State.inv_foldl
    | (intro _ _ _; try dsimp only)
    | split
    | simp only [State.inv_mk]

theorem State.inv_hbm {s : State} {m : List Host.Cell} {n : Nat} (hm : mapWf hbmDflt m = true) (h : s.Inv made) :
    ({ s with fresh := n, hbm := m } : State).Inv made := by
  obtain ⟨⟨⟨⟨⟨⟨⟨⟨_, h2⟩, h3⟩, h4⟩, h5⟩, h6⟩, h7⟩, h8⟩, hf⟩ := State.inv_iff.1 h
  exact State.inv_iff.2 ⟨⟨⟨⟨⟨⟨⟨⟨hm, h2⟩, h3⟩, h4⟩, h5⟩, h6⟩, h7⟩, h8⟩, hf⟩

theorem State.takeRegion_inv {s : State} {e owner : Nat} (h_s : s.Inv made) : (State.takeRegion s e owner).Inv made := by
  have h1 := (State.inv_iff.1 h_s).1.1.1.1.1.1.1.1
  unfold State.takeRegion
  dsimp only [State.take]
  split
  · exact h_s
  · exact State.inv_hbm (foldl_wf (mapDrop_wf (p := fun k => List.contains _ (k / 2 ^ 21)) h1) fun m x hm => mapSet_wf hm) h_s

theorem State.wrRegion_inv {s : State} {f : Func} {e : Nat} {reg : Nat} {v : Word} (h_s : s.Inv made) : (State.wrRegion s f e reg v).Inv made := by
  unfold State.wrRegion
  try dsimp only [State.take]
  with_reducible repeat' first
    | assumption
    | apply State.leaveRegion_inv
    | apply State.store_inv
    | apply State.takeRegion_inv
    | apply State.regRefuse_inv
    | apply State.inv_foldl
    | (intro _ _ _; try dsimp only)
    | split
    | simp only [State.inv_mk]

theorem execRegionWrite_inv {f : Func} {e : Fin 128} {reg : Fin 3} {v : Word} {s : State} (h_s : s.Inv made) : Keeps made (execRegionWrite f e reg v s) := by
  unfold execRegionWrite
  with_reducible repeat' first
    | assumption
    | apply Keeps.next
    | apply State.guarded_inv
    | apply State.wrRegion_inv
    | (intro _ _; try dsimp only)

theorem State.wrAttCtl_inv {s : State} {v : Word} (h_s : s.Inv made) : (State.wrAttCtl s v).Inv made := by
  unfold State.wrAttCtl
  try dsimp only [State.take]
  with_reducible repeat' first
    | assumption
    | apply State.wb_inv
    | apply State.regionConflict_inv
    | split
    | simp only [State.inv_mk]

theorem execAttStart_inv {f : Func} {v : Word} {s : State} (h_s : s.Inv made) : Keeps made (execAttStart f v s) := by
  unfold execAttStart
  with_reducible repeat' first
    | assumption
    | apply Keeps.next
    | apply State.guarded_inv
    | apply State.wrAttCtl_inv
    | (intro _ _; try dsimp only)

theorem execAttestationDone_inv {s : State} (h_s : s.Inv made) : Keeps made (execAttestationDone s) := by
  unfold execAttestationDone
  try dsimp only [State.take]
  with_reducible repeat' first
    | assumption
    | apply Keeps.next
    | apply State.hbmWrite_inv
    | apply State.wb_inv
    | apply State.raise_inv
    | split
    | simp only [State.inv_mk]

end Sys2Proof.Machine
end

