-- ==== Sys2Proof/Laws/KeepSensors.lean ====
section
/-!
SUPPORT. Every function of Machine/Sensors.lean keeps the invariant of the step.
-/
namespace Sys2Proof.Machine

variable {made : Fuses}

theorem State.addSample_inv {s : State} {k n : Nat} {v : Int} (h_s : s.Inv made) : (State.addSample s k n v).Inv made := by
  unfold State.addSample
  try dsimp only [State.take]
  with_reducible repeat' first
    | assumption
    | simp only [State.inv_mk]

theorem State.clearSamples_inv {s : State} {k : Nat} (h_s : s.Inv made) : (State.clearSamples s k).Inv made := by
  unfold State.clearSamples
  try dsimp only [State.take]
  with_reducible repeat' first
    | assumption
    | simp only [State.inv_mk]

theorem State.setAlarm_inv {s : State} {k : Nat} {b : Bool} (h_s : s.Inv made) : (State.setAlarm s k b).Inv made := by
  unfold State.setAlarm
  try dsimp only [State.take]
  with_reducible repeat' first
    | assumption
    | apply State.inv_foldl
    | (intro _ _ _; try dsimp only)
    | split
    | simp only [State.inv_mk]

theorem State.sensorFault_inv {s : State} {info : Nat} (h_s : s.Inv made) : (State.sensorFault s info).Inv made := by
  unfold State.sensorFault
  with_reducible repeat' first
    | assumption
    | apply State.incSat_inv
    | apply State.raise_inv
    | apply State.logNamed_inv

theorem State.railFault_inv {s : State} {info : Nat} (h_s : s.Inv made) : (State.railFault s info).Inv made := by
  unfold State.railFault
  with_reducible repeat' first
    | assumption
    | apply State.incSat_inv
    | apply State.raise_inv
    | apply State.logNamed_inv

theorem State.onEntry_inv {s : State} {k : Nat} {b : Bool} {event : State → State} (h_s : s.Inv made) (h_event : ∀ s, s.Inv made → (event s).Inv made) : (State.onEntry s k b event).Inv made := by
  unfold State.onEntry
  try dsimp only [State.take]
  with_reducible repeat' first
    | assumption
    | (apply h_event)
    | apply State.setAlarm_inv
    | apply State.inv_foldl
    | (intro _ _ _; try dsimp only)
    | split
    | simp only [State.inv_mk]

theorem State.overtemp_inv {s : State} {info : Nat} (h_s : s.Inv made) : (State.overtemp s info).Inv made := by
  unfold State.overtemp
  try dsimp only [State.take]
  with_reducible repeat' first
    | assumption
    | apply State.logNamed_inv
    | apply State.forceAll_inv
    | apply State.raise_inv
    | apply State.onEntry_inv
    | apply State.inv_foldl
    | (intro _ _ _; try dsimp only)
    | (intro _ _; try dsimp only)
    | split
    | simp only [State.inv_mk]
    | dsimp only [State.take]

theorem State.judgeCtrl_inv {s : State} {n : Nat} (h_s : s.Inv made) : (State.judgeCtrl s n).Inv made := by
  unfold State.judgeCtrl
  try dsimp only [State.take]
  with_reducible repeat' first
    | assumption
    | apply State.setAlarm_inv
    | apply State.overtemp_inv
    | apply State.onEntry_inv
    | apply State.sensorFault_inv
    | apply State.inv_foldl
    | (intro _ _ _; try dsimp only)
    | (intro _ _; try dsimp only)
    | split
    | simp only [State.inv_mk]
    | dsimp only [State.take]

theorem State.judgeTensor_inv {s : State} {n : Nat} (h_s : s.Inv made) : (State.judgeTensor s n).Inv made := by
  unfold State.judgeTensor
  try dsimp only [State.take]
  with_reducible repeat' first
    | assumption
    | apply State.tensorShutdown_inv
    | apply State.raise_inv
    | apply State.onEntry_inv
    | apply State.inv_foldl
    | (intro _ _ _; try dsimp only)
    | (intro _ _; try dsimp only)
    | split
    | simp only [State.inv_mk]
    | dsimp only [State.take]

theorem State.judgeTs_inv {s : State} {n : Nat} (h_s : s.Inv made) : (State.judgeTs s n).Inv made := by
  unfold State.judgeTs
  try dsimp only [State.take]
  with_reducible repeat' first
    | assumption
    | apply State.judgeTensor_inv
    | apply State.judgeCtrl_inv
    | apply State.inv_foldl
    | (intro _ _ _; try dsimp only)
    | split
    | simp only [State.inv_mk]

theorem execThermalSample_inv {n : Fin 32} {temp : Int} {s : State} (h_s : s.Inv made) : Keeps made (execThermalSample n temp s) := by
  unfold execThermalSample
  try dsimp only [State.take]
  with_reducible repeat' first
    | assumption
    | apply Keeps.next
    | apply State.judgeTs_inv
    | apply State.addSample_inv
    | apply State.clearSamples_inv
    | apply State.wr_inv
    | apply State.wb_inv
    | apply State.inv_foldl
    | (intro _ _ _; try dsimp only)
    | split
    | simp only [State.inv_mk]

theorem execSensorStale_inv {input : StaleInput} {sample : Bool} {s : State} (h_s : s.Inv made) : Keeps made (execSensorStale input sample s) := by
  unfold execSensorStale
  try dsimp only [State.take]
  with_reducible repeat' first
    | assumption
    | apply Keeps.next
    | apply State.judgeTs_inv
    | apply State.clearSamples_inv
    | apply State.wr_inv
    | apply State.wb_inv
    | apply State.inv_foldl
    | (intro _ _ _; try dsimp only)
    | split
    | simp only [State.inv_mk]

theorem State.ctrlMonitorEvent_inv {s : State} {cause : Nat} (h_s : s.Inv made) : (State.ctrlMonitorEvent s cause).Inv made := by
  unfold State.ctrlMonitorEvent
  with_reducible repeat' first
    | assumption
    | apply State.raise_inv
    | apply State.logEvent_inv
    | apply State.recordFault_inv
    | apply State.forceAll_inv

theorem execRailSample_inv {n : Fin 12} {mv : Nat} {s : State} (h_s : s.Inv made) : Keeps made (execRailSample n mv s) := by
  unfold execRailSample
  try dsimp only [State.take]
  with_reducible repeat' first
    | assumption
    | apply Keeps.next
    | apply State.tensorShutdown_inv
    | apply State.ctrlMonitorEvent_inv
    | apply State.addSample_inv
    | apply State.wr_inv
    | apply State.onEntry_inv
    | apply State.railFault_inv
    | apply State.inv_foldl
    | (intro _ _ _; try dsimp only)
    | (intro _ _; try dsimp only)
    | split
    | simp only [State.inv_mk]
    | dsimp only [State.take]

theorem State.regulatorFault_inv {s : State} {k : Nat} {bad : Bool} (h_s : s.Inv made) : (State.regulatorFault s k bad).Inv made := by
  unfold State.regulatorFault
  try dsimp only [State.take]
  with_reducible repeat' first
    | assumption
    | apply State.tensorShutdown_inv
    | apply State.pmSend_inv
    | apply State.onEntry_inv
    | apply State.railFault_inv
    | apply State.inv_foldl
    | (intro _ _ _; try dsimp only)
    | (intro _ _; try dsimp only)
    | split
    | simp only [State.inv_mk]
    | dsimp only [State.take]

theorem execPmbusPoll_inv {n : Fin 8} {vout : Nat} {iout : Nat} {temp : Int} {status : BitVec 16} {s : State} (h_s : s.Inv made) : Keeps made (execPmbusPoll n vout iout temp status s) := by
  unfold execPmbusPoll
  try dsimp only [State.take]
  with_reducible repeat' first
    | assumption
    | apply Keeps.next
    | apply State.addSample_inv
    | apply State.regulatorFault_inv
    | apply State.wr_inv
    | apply State.pmSend_inv
    | apply State.inv_foldl
    | (intro _ _ _; try dsimp only)
    | split
    | simp only [State.inv_mk]

theorem execSmbalert_inv {status : List (Nat × Word)} {s : State} (h_s : s.Inv made) : Keeps made (execSmbalert status s) := by
  unfold execSmbalert
  try dsimp only [State.take]
  with_reducible repeat' first
    | assumption
    | apply Keeps.next
    | apply State.regulatorFault_inv
    | apply State.pmSend_inv
    | apply State.raise_inv
    | apply State.wb_inv
    | apply State.inv_foldl
    | (intro _ _ _; try dsimp only)
    | split
    | simp only [State.inv_mk]

theorem execHoldupSample_inv {code : BitVec 12} {s : State} (h_s : s.Inv made) : Keeps made (execHoldupSample code s) := by
  unfold execHoldupSample
  try dsimp only [State.take]
  with_reducible repeat' first
    | assumption
    | apply Keeps.next
    | apply State.wr_inv
    | apply State.addSample_inv
    | apply State.clearSamples_inv
    | split

theorem State.setFcur_inv {s : State} {f : Nat} (h_s : s.Inv made) : (State.setFcur s f).Inv made := by
  unfold State.setFcur
  with_reducible repeat' first
    | assumption
    | apply State.pf_inv

theorem State.setLimit_inv {s : State} {l : Nat} (h_s : s.Inv made) : (State.setLimit s l).Inv made := by
  unfold State.setLimit
  with_reducible repeat' first
    | assumption
    | apply State.pf_inv

theorem State.wrFmin_inv {s : State} {v : Word} (h_s : s.Inv made) : (State.wrFmin s v).Inv made := by
  unfold State.wrFmin
  try dsimp only [State.take]
  with_reducible repeat' first
    | assumption
    | apply State.wr_inv
    | apply State.wb_inv
    | split

theorem State.wrFmax_inv {s : State} {v : Word} (h_s : s.Inv made) : (State.wrFmax s v).Inv made := by
  unfold State.wrFmax
  try dsimp only [State.take]
  with_reducible repeat' first
    | assumption
    | apply State.setFcur_inv
    | apply State.wr_inv
    | apply State.wb_inv
    | apply State.inv_foldl
    | (intro _ _ _; try dsimp only)
    | split
    | simp only [State.inv_mk]

theorem State.wrCap_inv {s : State} {v : Word} (h_s : s.Inv made) : (State.wrCap s v).Inv made := by
  unfold State.wrCap
  with_reducible repeat' first
    | assumption
    | apply State.wr_inv
    | split

theorem State.wrTh_inv {s : State} {off : Nat} {v : Word} (h_s : s.Inv made) : (State.wrTh s off v).Inv made := by
  unfold State.wrTh
  try dsimp only [State.take]
  with_reducible repeat' first
    | assumption
    | apply State.wr_inv
    | split

theorem State.loopPower_inv {s : State} (h_s : s.Inv made) : (State.loopPower s).2.Inv made := by
  unfold State.loopPower
  try dsimp only [State.take]
  with_reducible repeat' first
    | assumption
    | split
    | simp only [State.inv_mk]

theorem State.loopPower_inv_eq {s : State} {y : State}  {x} (h_s : s.Inv made) (he : State.loopPower s = (x, y)) : y.Inv made := by
  have := State.loopPower_inv (made := made) (s := s) h_s
  rw [he] at this
  exact this

theorem State.setLoopFreq_inv {s : State} {f : Nat} (h_s : s.Inv made) : (State.setLoopFreq s f).Inv made := by
  unfold State.setLoopFreq
  try dsimp only [State.take]
  with_reducible repeat' first
    | assumption
    | apply State.setFcur_inv
    | apply State.inv_foldl
    | (intro _ _ _; try dsimp only)
    | split
    | simp only [State.inv_mk]

theorem State.setTarget_inv {s : State} {mv : Nat} (h_s : s.Inv made) : (State.setTarget s mv).Inv made := by
  unfold State.setTarget
  try dsimp only [State.take]
  with_reducible repeat' first
    | assumption
    | apply State.pmRail_inv
    | apply State.pf_inv
    | apply State.inv_foldl
    | (intro _ _ _; try dsimp only)
    | split
    | simp only [State.inv_mk]

theorem execDvfsTick_inv {margin : Nat} {s : State} (h_s : s.Inv made) : Keeps made (execDvfsTick margin s) := by
  unfold execDvfsTick
  refine iteInduction (fun _ => Keeps.next h_s) fun _ => ?_
  have h0 : s.loopPower.2.Inv made := State.loopPower_inv h_s
  have h1 : ∀ lim, (s.loopPower.2.setLimit lim).Inv made := fun lim => State.setLimit_inv h0
  refine iteInduction (motive := Keeps made) (fun _ => ?_) fun _ => ?_
  · apply Keeps.next
    simp only [State.inv_mk]
    exact State.setTarget_inv (h1 _)
  · apply Keeps.next
    refine State.setTarget_inv (State.setLoopFreq_inv ?_)
    simp only [State.inv_mk]
    exact h1 _

theorem execVoltageSettled_inv {s : State} (h_s : s.Inv made) : Keeps made (execVoltageSettled s) := by
  unfold execVoltageSettled
  try dsimp only [State.take]
  with_reducible repeat' first
    | assumption
    | apply Keeps.next
    | apply State.setLoopFreq_inv
    | apply State.inv_foldl
    | (intro _ _ _; try dsimp only)
    | split
    | simp only [State.inv_mk]

theorem execDroop_inv {s : State} (h_s : s.Inv made) : Keeps made (execDroop s) := by
  unfold execDroop
  try dsimp only [State.take]
  with_reducible repeat' first
    | assumption
    | apply Keeps.next
    | apply State.addSat_inv
    | apply State.setFcur_inv
    | apply State.setLimit_inv
    | split
    | simp only [State.inv_mk]
    | dsimp only

theorem execDroopRecovery_inv {s : State} (h_s : s.Inv made) : Keeps made (execDroopRecovery s) := by
  unfold execDroopRecovery
  try dsimp only [State.take]
  with_reducible repeat' first
    | assumption
    | apply Keeps.next
    | apply State.setFcur_inv
    | apply State.setLimit_inv
    | split
    | simp only [State.inv_mk]
    | dsimp only

theorem execCtrlMonitor_inv {voltage : Bool} {s : State} (h_s : s.Inv made) : Keeps made (execCtrlMonitor voltage s) := by
  unfold execCtrlMonitor
  with_reducible repeat' first
    | assumption
    | apply Keeps.next
    | apply State.ctrlMonitorEvent_inv
    | split

end Sys2Proof.Machine
end

