-- ==== Sys2Proof/Laws/KeepReset.lean ====
section
/-!
SUPPORT. Every function of Machine/Reset.lean keeps the invariant of the step.
-/
namespace Sys2Proof.Machine

variable {made : Fuses}

theorem freeMem_wf {n : Nat} : mapWf hbmDflt (freeMem n) = true :=
  foldl_wf rfl fun _ _ h => mapSet_wf h

theorem State.restart_inv {s : State} {keepHbm : Bool} (h_s : s.Inv made) : (State.restart s keepHbm).Inv made := by
  unfold State.restart
  dsimp only [State.take]
  have hf := State.inv_fifo h_s
  refine State.setFcur_inv (State.pf_inv (State.inv_iff.2 ⟨⟨⟨⟨⟨⟨⟨⟨?_, rfl⟩, rfl⟩, rfl⟩, rfl⟩, rfl⟩, rfl⟩, rfl⟩, ⟨hf, Nat.zero_le _⟩, h_s.2.2⟩))
  dsimp only
  split
  · exact (State.inv_iff.1 h_s).1.1.1.1.1.1.1.1
  · exact freeMem_wf

theorem State.showReady_inv {s : State} {p : Block → Bool} (h_s : s.Inv made) : (State.showReady s p).Inv made := by
  unfold State.showReady
  with_reducible repeat' first
    | assumption
    | apply State.setBlk_inv
    | apply State.inv_foldl
    | (intro _ _ _; try dsimp only)
    | split

theorem execPorNAssert_inv {s : State} (h_s : s.Inv made) : Keeps made (execPorNAssert s) := by
  have key : ∀ u : State, u.Inv made → Keeps made (.next { ({ u with pins := { u.pins with porN := false } } : State).restart false with
      log := { flash := (({ u with pins := { u.pins with porN := false } } : State).restart false).log.flash,
               nextSeq := (({ u with pins := { u.pins with porN := false } } : State).restart false).log.nextSeq },
      ost := { (({ u with pins := { u.pins with porN := false } } : State).restart false).ost with running := 2 } }) := fun u hu =>
    Keeps.next (State.inv_log (Nat.zero_le _) (State.restart_inv (keepHbm := false) hu))
  refine key _ ?_
  split
  · split
    · exact State.cutWrite_inv h_s
    · exact State.writeDone_inv h_s
  · exact h_s

theorem execPorNRelease_inv {samples : List (BitVec 6)} {s : State} (h_s : s.Inv made) : Keeps made (execPorNRelease samples s) := by
  unfold execPorNRelease
  dsimp only
  split
  · exact Keeps.next h_s
  · refine Keeps.next (State.setStage_inv (State.showReady_inv ?_))
    split
    · exact ⟨h_s.1, h_s.2.1, h_s.2.2⟩
    · exact State.logNamed_inv ⟨h_s.1, h_s.2.1, h_s.2.2⟩

theorem State.bootTry_inv {s : State} {r : BootVerify} {tried : List Nat} {n : Nat} (h_s : s.Inv made) : (State.bootTry s r tried n).Inv made := by
  induction n generalizing s tried with
  | zero => exact h_s
  | succ n ih =>
    unfold State.bootTry
    dsimp only
    with_reducible repeat' first
      | assumption
      | apply State.ledgerNow_inv
      | apply ih
      | simp only [State.inv_mk]
      | split

theorem execFirmwareChosen_inv {r : BootVerify} {s : State} (h_s : s.Inv made) : Keeps made (execFirmwareChosen r s) := by
  unfold execFirmwareChosen
  try dsimp only [State.take]
  with_reducible repeat' first
    | assumption
    | apply Keeps.next
    | apply State.bootTry_inv
    | apply State.setStage_inv
    | apply State.raise_inv
    | apply State.wb_inv
    | apply State.inv_foldl
    | (intro _ _ _; try dsimp only)
    | split
    | simp only [State.inv_mk]

theorem execTensorRailsUp_inv {s : State} (h_s : s.Inv made) : Keeps made (execTensorRailsUp s) := by
  unfold execTensorRailsUp
  try dsimp only [State.take]
  with_reducible repeat' first
    | assumption
    | apply Keeps.next
    | apply State.incSat_inv
    | apply State.pmRail_inv
    | apply State.pmSend_inv
    | apply State.setStage_inv
    | apply State.wb_inv
    | apply State.showReady_inv
    | apply State.inv_foldl
    | (intro _ _ _; try dsimp only)
    | split
    | simp only [State.inv_mk]

theorem State.trainAll_inv {s : State} (h_s : s.Inv made) : (State.trainAll s).Inv made := by
  unfold State.trainAll
  try dsimp only [State.take]
  with_reducible repeat' first
    | assumption
    | apply State.startTrain_inv
    | apply State.showReady_inv
    | apply State.inv_foldl
    | (intro _ _ _; try dsimp only)
    | split

theorem State.release_inv {s : State} (h_s : s.Inv made) : (State.release s).Inv made := by
  unfold State.release
  try dsimp only [State.take]
  with_reducible repeat' first
    | assumption
    | apply State.wb_inv
    | apply State.raise_inv
    | apply State.logNamed_inv
    | apply State.setStage_inv
    | simp only [State.inv_mk]

theorem execHbmTrainingDone_inv {failed : BitVec 4} {s : State} (h_s : s.Inv made) : Keeps made (execHbmTrainingDone failed s) := by
  unfold execHbmTrainingDone
  try dsimp only [State.take]
  with_reducible repeat' first
    | assumption
    | apply Keeps.next
    | apply State.logNamed_inv
    | apply State.tensorShutdown_inv
    | apply State.setStage_inv
    | apply State.showReady_inv
    | apply State.trainAll_inv
    | apply State.release_inv
    | apply State.inv_foldl
    | (intro _ _ _; try dsimp only)
    | split
    | simp only [State.inv_mk]
    | dsimp only

theorem execHostRelease_inv {s : State} (h_s : s.Inv made) : Keeps made (execHostRelease s) := by
  unfold execHostRelease
  with_reducible repeat' first
    | assumption
    | apply Keeps.next
    | apply State.release_inv
    | split

theorem State.moduleReset_inv {s : State} (h_s : s.Inv made) : (State.moduleReset s).Inv made := by
  unfold State.moduleReset
  dsimp only
  have h0 : (((List.range 12).filter (fun g => !s.groupIdle g)).foldl (fun s g => s.torqueOff g) s).Inv made :=
    State.inv_foldl h_s fun _ _ h => State.torqueOff_inv h
  have h1 := State.drainLedger_inv (n := 17) (State.abortAll_inv (code := Config.eventCode evModuleReset) h0)
  refine State.setStage_inv (State.showReady_inv (State.pf_inv (State.inv_foldl ?_ fun _ _ h => State.wr_inv h)))
  exact State.inv_mk.2 (State.restart_inv (State.inv_foldl (State.inv_log (drainLog_fifo (State.inv_fifo h1)) h1) fun _ _ h => State.pmRail_inv h))

theorem State.topReset_inv {s : State} {f : Func} (h_s : s.Inv made) : (State.topReset s f).Inv made := by
  unfold State.topReset
  with_reducible repeat' first
    | assumption
    | apply State.wb_inv
    | apply State.moduleReset_inv
    | split

theorem State.hostReset_inv {s : State} (h_s : s.Inv made) : (State.hostReset s).Inv made := by
  unfold State.hostReset
  try dsimp only [State.take]
  with_reducible repeat' first
    | assumption
    | apply State.jobFault_inv
    | apply State.inv_foldl
    | (intro _ _ _; try dsimp only)
    | split
    | simp only [State.inv_mk]

theorem execPerstNAssert_inv {s : State} (h_s : s.Inv made) : Keeps made (execPerstNAssert s) := by
  unfold execPerstNAssert
  try dsimp only [State.take]
  with_reducible repeat' first
    | assumption
    | apply Keeps.next
    | apply State.hostReset_inv
    | simp only [State.inv_mk]

theorem execPerstNRelease_inv {s : State} (h_s : s.Inv made) : Keeps made (execPerstNRelease s) := by
  unfold execPerstNRelease
  try dsimp only [State.take]
  with_reducible repeat' first
    | assumption
    | apply Keeps.next
    | simp only [State.inv_mk]

theorem execPfFunctionLevelReset_inv {s : State} (h_s : s.Inv made) : Keeps made (execPfFunctionLevelReset s) := by
  unfold execPfFunctionLevelReset
  with_reducible repeat' first
    | assumption
    | apply Keeps.next
    | apply State.hostReset_inv

theorem execVfFunctionLevelReset_inv {t : Fin 8} {s : State} (h_s : s.Inv made) : Keeps made (execVfFunctionLevelReset t s) := by
  unfold execVfFunctionLevelReset
  try dsimp only [State.take]
  with_reducible repeat' first
    | assumption
    | apply Keeps.next
    | apply State.setTenant_inv
    | apply State.startRelease_inv
    | split
    | simp only [State.inv_mk]

theorem execRefclkLoss_inv {s : State} (h_s : s.Inv made) : Keeps made (execRefclkLoss s) := by
  unfold execRefclkLoss
  try dsimp only [State.take]
  with_reducible repeat' first
    | assumption
    | apply Keeps.next
    | apply State.tensorShutdown_inv
    | apply State.ctrlMonitorEvent_inv
    | simp only [State.inv_mk]

end Sys2Proof.Machine
end

