-- ==== Sys2Proof/Laws/KeepWaybill.lean ====
section
/-!
SUPPORT. Every function of Machine/Waybill.lean keeps the invariant of the step.
-/
namespace Sys2Proof.Machine

variable {made : Fuses}

theorem State.wbErr_inv {s : State} {bit e : Nat} (h_s : s.Inv made) : (State.wbErr s bit e).Inv made := by
  unfold State.wbErr
  with_reducible repeat' first
    | assumption
    | apply State.pf_inv
    | apply State.wb_inv

theorem State.wrWbSel_inv {s : State} {f : Func} {v : Word} (h_s : s.Inv made) : (State.wrWbSel s f v).Inv made := by
  unfold State.wrWbSel
  try dsimp only [State.take]
  with_reducible repeat' first
    | assumption
    | apply State.wr_inv
    | apply State.store_inv

theorem State.denyWaits_inv {s : State} {e : Nat} (h_s : s.Inv made) : (State.denyWaits s e).Inv made := by
  unfold State.denyWaits
  try dsimp only [State.take]
  with_reducible repeat' first
    | assumption
    | apply State.writeRecord_inv
    | apply State.jobFault_inv
    | apply State.inv_foldl
    | (intro _ _ _; try dsimp only)
    | split
    | simp only [State.inv_mk]

theorem State.wbCommit_inv {s : State} (h_s : s.Inv made) : (State.wbCommit s).Inv made := by
  unfold State.wbCommit
  try dsimp only [State.take]
  with_reducible repeat' first
    | assumption
    | apply State.setWbEntry_inv
    | apply State.wbErr_inv
    | apply State.denyWaits_inv
    | split
    | simp only [State.inv_mk]

theorem State.wrWbCmd_inv {s : State} {v : Word} (h_s : s.Inv made) : (State.wrWbCmd s v).Inv made := by
  unfold State.wrWbCmd
  with_reducible repeat' first
    | assumption
    | apply State.wbCommit_inv
    | split

theorem execWbSelWrite_inv {f : Func} {v : Word} {s : State} (h_s : s.Inv made) : Keeps made (execWbSelWrite f v s) := by
  unfold execWbSelWrite
  with_reducible repeat' first
    | assumption
    | apply Keeps.next
    | apply State.guarded_inv
    | apply State.wrWbSel_inv
    | (intro _ _; try dsimp only)

theorem execCommit_inv {f : Func} {v : Word} {s : State} (h_s : s.Inv made) : Keeps made (execCommit f v s) := by
  unfold execCommit
  with_reducible repeat' first
    | assumption
    | apply Keeps.next
    | apply State.guarded_inv
    | apply State.wrWbCmd_inv
    | (intro _ _; try dsimp only)

theorem execWaybillWait_inv {q : Fin 32} {s : State} (h_s : s.Inv made) : Keeps made (execWaybillWait q s) := by
  unfold execWaybillWait
  try dsimp only [State.take]
  with_reducible repeat' first
    | assumption
    | apply Keeps.next
    | apply State.endWait_inv
    | apply State.register_inv
    | apply State.advance_inv
    | apply State.refuse_inv
    | split
    | simp only [State.inv_mk]

theorem execWbWaitTimeout_inv {q : Fin 32} {firing : Bool} {s : State} (h_s : s.Inv made) : Keeps made (execWbWaitTimeout q firing s) := by
  unfold execWbWaitTimeout
  try dsimp only [State.take]
  with_reducible repeat' first
    | assumption
    | apply Keeps.next
    | apply State.writeRecord_inv
    | apply State.jobFault_inv
    | apply State.firesMet_inv
    | apply State.inv_foldl
    | (intro _ _ _; try dsimp only)
    | split
    | simp only [State.inv_mk]

theorem State.lineEvent_inv {s : State} {x : WbEntry} {e : Nat} (h_s : s.Inv made) : (State.lineEvent s x e).Inv made := by
  unfold State.lineEvent
  try dsimp only [State.take]
  with_reducible repeat' first
    | assumption
    | simp only [State.inv_mk]

theorem State.issue_inv {s : State} {e : Nat} (h_s : s.Inv made) : (State.issue s e).Inv made := by
  unfold State.issue
  try dsimp only [State.take]
  with_reducible repeat' first
    | assumption
    | apply State.pinAction_inv
    | apply State.firesMet_inv
    | apply State.countFire_inv
    | apply State.lbArrive_inv
    | apply State.ethLaunch_inv
    | apply State.lineEvent_inv
    | split
    | simp only [State.inv_mk]

theorem State.launchDue_inv {s : State} {l : List Due} (h_s : s.Inv made) : (State.launchDue s l).Inv made := by
  unfold State.launchDue
  try dsimp only [State.take]
  with_reducible repeat' first
    | assumption
    | apply State.ethChoose_inv
    | apply State.inv_foldl
    | (intro _ _ _; try dsimp only)
    | split
    | simp only [State.inv_mk]

theorem State.issueDue_inv {s : State} {f : Due → Bool} (h_s : s.Inv made) : (State.issueDue s f).Inv made := by
  unfold State.issueDue
  try dsimp only [State.take]
  with_reducible repeat' first
    | assumption
    | apply State.issue_inv
    | apply State.launchDue_inv
    | apply State.inv_foldl
    | (intro _ _ _; try dsimp only)
    | split
    | simp only [State.inv_mk]

theorem execWaybillCrossing_inv {g : Fin 4} {s : State} (h_s : s.Inv made) : Keeps made (execWaybillCrossing g s) := by
  unfold execWaybillCrossing
  try dsimp only [State.take]
  with_reducible repeat' first
    | assumption
    | apply Keeps.next
    | apply State.issueDue_inv
    | apply State.inv_foldl
    | (intro _ _ _; try dsimp only)
    | split
    | simp only [State.inv_mk]

theorem execWbLate_inv {s : State} (h_s : s.Inv made) : Keeps made (execWbLate s) := by
  unfold execWbLate
  try dsimp only [State.take]
  with_reducible repeat' first
    | assumption
    | apply Keeps.next
    | apply State.issueDue_inv
    | apply State.inv_foldl
    | (intro _ _ _; try dsimp only)
    | split
    | simp only [State.inv_mk]

theorem State.onEvent_inv {s : State} {action : Nat} {k : State → LineEvent → State} (h_s : s.Inv made)
    (hk : ∀ s x, s.Inv made → (k s x).Inv made) : (State.onEvent s action k).Inv made := by
  unfold State.onEvent
  split
  · exact h_s
  · exact hk _ _ h_s

theorem execQueueStart_inv {s : State} (h_s : s.Inv made) : Keeps made (execQueueStart s) := by
  unfold execQueueStart
  with_reducible repeat' first
    | assumption
    | apply Keeps.next
    | apply State.firesMet_inv
    | apply State.onEvent_inv
    | (intro _ _ _; try dsimp only)
    | (intro _ _; try dsimp only)

theorem execTallyArrive_inv {s : State} (h_s : s.Inv made) : Keeps made (execTallyArrive s) := by
  unfold execTallyArrive
  try dsimp only [State.take]
  with_reducible repeat' first
    | assumption
    | apply Keeps.next
    | apply State.addSat_inv
    | apply State.advance_inv
    | apply State.arrive_inv
    | apply State.onEvent_inv
    | (intro _ _ _; try dsimp only)
    | (intro _ _; try dsimp only)
    | split

theorem execWardenDeadline_inv {freshNow : Bool} {s : State} (h_s : s.Inv made) : Keeps made (execWardenDeadline freshNow s) := by
  unfold execWardenDeadline
  with_reducible repeat' first
    | assumption
    | apply Keeps.next
    | apply State.slotCheck_inv
    | apply State.onEvent_inv
    | (intro _ _ _; try dsimp only)
    | (intro _ _; try dsimp only)

theorem execEngineWindow_inv {s : State} (h_s : s.Inv made) : Keeps made (execEngineWindow s) := by
  unfold execEngineWindow
  with_reducible repeat' first
    | assumption
    | apply Keeps.next
    | apply State.pf_inv
    | apply State.kick_inv
    | apply State.onEvent_inv
    | apply State.inv_foldl
    | (intro _ _ _; try dsimp only)
    | (intro _ _; try dsimp only)
    | split
    | simp only [State.inv_mk]
    | dsimp only

theorem execManifestClose_inv {s : State} (h_s : s.Inv made) : Keeps made (execManifestClose s) := by
  unfold execManifestClose
  with_reducible repeat' first
    | assumption
    | apply Keeps.next
    | apply State.manTrigger_inv
    | apply State.onEvent_inv
    | (intro _ _ _; try dsimp only)
    | (intro _ _; try dsimp only)

end Sys2Proof.Machine
end

