-- ==== Sys2Proof/Laws/KeepHeader.lean ====
section
/-!
SUPPORT. Every function of Machine/Header.lean keeps the invariant of the step.
-/
namespace Sys2Proof.Machine

variable {made : Fuses}

theorem State.ackFault_inv {s : State} {page : Nat} (h_s : s.Inv made) : (State.ackFault s page).Inv made := by
  unfold State.ackFault
  with_reducible repeat' first
    | assumption
    | apply State.wr_inv
    | split

theorem State.wrIrqEn_inv {s : State} {page : Nat} {v : Word} (h_s : s.Inv made) : (State.wrIrqEn s page v).Inv made := by
  unfold State.wrIrqEn
  try dsimp only [State.take]
  with_reducible repeat' first
    | assumption
    | apply State.wr_inv
    | apply State.requestIrq_inv
    | split

theorem State.wrIrqPend_inv {s : State} {page : Nat} {v arriving : Word} (h_s : s.Inv made) : (State.wrIrqPend s page v arriving).Inv made := by
  unfold State.wrIrqPend
  try dsimp only [State.take]
  with_reducible repeat' first
    | assumption
    | apply State.wr_inv
    | apply State.requestIrq_inv
    | split

theorem State.wrIrqForce_inv {s : State} {f : Func} {page : Nat} {v : Word} (h_s : s.Inv made) : (State.wrIrqForce s f page v).Inv made := by
  unfold State.wrIrqForce
  with_reducible repeat' first
    | assumption
    | apply State.raiseBits_inv
    | split

theorem State.wrErrinj_inv {s : State} {f : Func} {page : Nat} {v : Word} (h_s : s.Inv made) : (State.wrErrinj s f page v).Inv made := by
  unfold State.wrErrinj
  with_reducible repeat' first
    | assumption
    | apply State.wr_inv
    | apply State.logNamed_inv
    | split

theorem State.wrLock_inv {s : State} {f : Func} {page : Nat} {v : Word} (h_s : s.Inv made) : (State.wrLock s f page v).Inv made := by
  unfold State.wrLock
  with_reducible repeat' first
    | assumption
    | apply State.wb_inv
    | split

theorem State.wrRoute_inv {s : State} {f : Func} {i : Nat} {v : Word} (h_s : s.Inv made) : (State.wrRoute s f i v).Inv made := by
  unfold State.wrRoute
  try dsimp only [State.take]
  with_reducible repeat' first
    | assumption
    | apply State.wr_inv
    | apply State.sendRoute_inv
    | apply State.store_inv
    | split
    | simp only [State.inv_mk]

theorem State.resetDrive_inv {s : State} {b : Block} {inst : Nat} (h_s : s.Inv made) : (State.resetDrive s b inst).Inv made := by
  unfold State.resetDrive
  try dsimp only [State.take]
  with_reducible repeat' first
    | assumption
    | split
    | simp only [State.inv_mk]

theorem State.resetMile_inv {s : State} {b : Block} (h_s : s.Inv made) : (State.resetMile s b).Inv made := by
  unfold State.resetMile
  try dsimp only [State.take]
  with_reducible repeat' first
    | assumption
    | split
    | simp only [State.inv_mk]

theorem State.idleStb_inv {s : State} {n : Nat} (h_s : s.Inv made) : (State.idleStb s n).Inv made := by
  unfold State.idleStb
  try dsimp only [State.take]
  with_reducible repeat' first
    | assumption
    | simp only [State.inv_mk]

theorem State.controlReset_inv {s : State} {p : Nat} {per : Nat} {i : PageId} (h_s : s.Inv made) : (State.controlReset s p per i).Inv made := by
  unfold State.controlReset
  try dsimp only [State.take]
  with_reducible repeat' first
    | assumption
    | apply State.torqueOff_inv
    | apply State.idleStb_inv
    | apply State.setIc_inv
    | apply State.icDrop_inv
    | apply State.resetDrive_inv
    | apply State.resetBody_inv
    | apply State.showPos_inv
    | apply State.setBlk_inv
    | apply State.resetMile_inv
    | apply State.setPos_inv
    | apply State.inv_foldl
    | (intro _ _ _; try dsimp only)
    | split
    | simp only [State.inv_mk]

theorem State.softReset_inv {s : State} {f : Func} {page : Nat} (h_s : s.Inv made) : (State.softReset s f page).Inv made := by
  unfold State.softReset
  try dsimp only [State.take]
  with_reducible repeat' first
    | assumption
    | apply State.wb_inv
    | apply State.unitFence_inv
    | apply State.topReset_inv
    | apply State.controlReset_inv
    | split
    | simp only [State.inv_mk]

theorem State.setEnable_inv {s : State} {i : PageId} {page : Nat} {on : Bool} {sda : List Bool} (h_s : s.Inv made) : (State.setEnable s i page on sda).Inv made := by
  unfold State.setEnable
  try dsimp only [State.take]
  with_reducible repeat' first
    | assumption
    | apply State.wb_inv
    | apply State.icDrop_inv
    | apply State.icServe_inv
    | apply State.busClear_inv
    | apply State.leaveBus_inv
    | apply State.ethLose_inv
    | apply State.idleStb_inv
    | split
    | simp only [State.inv_mk]

theorem State.wrBlkCtl_inv {s : State} {f : Func} {page : Nat} {v : Word} {sda : List Bool} (h_s : s.Inv made) : (State.wrBlkCtl s f page v sda).Inv made := by
  unfold State.wrBlkCtl
  try dsimp only [State.take]
  with_reducible repeat' first
    | assumption
    | apply State.wb_inv
    | apply State.ackFault_inv
    | apply State.softReset_inv
    | apply State.setEnable_inv
    | split
    | simp only [State.inv_mk]

theorem execFaultAck_inv {f : Func} {page : Nat} {v : Word} {arriving : List (Nat × Word)} {s : State} (h_s : s.Inv made) : Keeps made (execFaultAck f page v arriving s) := by
  unfold execFaultAck
  try dsimp only [State.take]
  with_reducible repeat' first
    | assumption
    | apply Keeps.next
    | apply State.recordFault_inv
    | apply State.guarded_inv
    | apply State.wrBlkCtl_inv
    | apply State.inv_foldl
    | (intro _ _ _; try dsimp only)
    | (intro _ _; try dsimp only)
    | split
    | simp only [State.inv_mk]
    | dsimp only [State.take]

theorem execSoftReset_inv {f : Func} {page : Nat} {v : Word} {s : State} (h_s : s.Inv made) : Keeps made (execSoftReset f page v s) := by
  unfold execSoftReset
  with_reducible repeat' first
    | assumption
    | apply Keeps.next
    | apply State.guarded_inv
    | apply State.wrBlkCtl_inv
    | (intro _ _; try dsimp only)

theorem execModuleReset_inv {f : Func} {v : Word} {s : State} (h_s : s.Inv made) : Keeps made (execModuleReset f v s) := by
  unfold execModuleReset
  with_reducible repeat' first
    | assumption
    | apply Keeps.next
    | apply State.guarded_inv
    | apply State.wrBlkCtl_inv
    | (intro _ _; try dsimp only)

theorem execBlkEnable_inv {f : Func} {page : Nat} {v : Word} {sdaHigh : List Bool} {s : State} (h_s : s.Inv made) : Keeps made (execBlkEnable f page v sdaHigh s) := by
  unfold execBlkEnable
  with_reducible repeat' first
    | assumption
    | apply Keeps.next
    | apply State.guarded_inv
    | apply State.wrBlkCtl_inv
    | (intro _ _; try dsimp only)

theorem execLock_inv {f : Func} {page : Nat} {v : Word} {s : State} (h_s : s.Inv made) : Keeps made (execLock f page v s) := by
  unfold execLock
  with_reducible repeat' first
    | assumption
    | apply Keeps.next
    | apply State.guarded_inv
    | apply State.wrLock_inv
    | (intro _ _; try dsimp only)

theorem execErrinjWrite_inv {f : Func} {page : Nat} {v : Word} {s : State} (h_s : s.Inv made) : Keeps made (execErrinjWrite f page v s) := by
  unfold execErrinjWrite
  with_reducible repeat' first
    | assumption
    | apply Keeps.next
    | apply State.guarded_inv
    | apply State.wrErrinj_inv
    | (intro _ _; try dsimp only)

theorem execIrqPendWrite_inv {f : Func} {page : Nat} {v arriving : Word} {s : State} (h_s : s.Inv made) : Keeps made (execIrqPendWrite f page v arriving s) := by
  unfold execIrqPendWrite
  with_reducible repeat' first
    | assumption
    | apply Keeps.next
    | apply State.raiseBits_inv
    | apply State.wrIrqPend_inv
    | split

theorem execIrqEnWrite_inv {f : Func} {page : Nat} {v : Word} {s : State} (h_s : s.Inv made) : Keeps made (execIrqEnWrite f page v s) := by
  unfold execIrqEnWrite
  with_reducible repeat' first
    | assumption
    | apply Keeps.next
    | apply State.guarded_inv
    | apply State.wrIrqEn_inv
    | (intro _ _; try dsimp only)

theorem execIrqForce_inv {f : Func} {page : Nat} {v : Word} {s : State} (h_s : s.Inv made) : Keeps made (execIrqForce f page v s) := by
  unfold execIrqForce
  with_reducible repeat' first
    | assumption
    | apply Keeps.next
    | apply State.guarded_inv
    | apply State.wrIrqForce_inv
    | (intro _ _; try dsimp only)

theorem execIrqRouteWrite_inv {f : Func} {i : Fin 256} {v : Word} {s : State} (h_s : s.Inv made) : Keeps made (execIrqRouteWrite f i v s) := by
  unfold execIrqRouteWrite
  with_reducible repeat' first
    | assumption
    | apply Keeps.next
    | apply State.guarded_inv
    | apply State.wrRoute_inv
    | (intro _ _; try dsimp only)

end Sys2Proof.Machine
end

