-- ==== Sys2Proof/Laws/KeepOstler.lean ====
section
/-!
SUPPORT. Every function of Machine/Ostler.lean keeps the invariant of the step.
-/
namespace Sys2Proof.Machine

variable {made : Fuses}

theorem State.omDone_inv {s : State} {result : Nat} (h_s : s.Inv made) : (State.omDone s result).Inv made := by
  unfold State.omDone
  try dsimp only [State.take]
  with_reducible repeat' first
    | assumption
    | apply State.pf_inv
    | apply State.wb_inv
    | apply State.raise_inv
    | simp only [State.inv_mk]
    | dsimp only

theorem State.omResp_inv {s : State} {k : Nat} {v : Word} (h_s : s.Inv made) : (State.omResp s k v).Inv made := by
  unfold State.omResp
  with_reducible repeat' first
    | assumption
    | apply State.wr_inv

theorem State.omData_inv {s : State} {bs : List Byte} (h_s : s.Inv made) : (State.omData s bs).Inv made := by
  unfold State.omData
  with_reducible repeat' first
    | assumption
    | apply State.wr_inv
    | apply State.inv_foldl
    | (intro _ _ _; try dsimp only)

theorem State.wrDoorbell_inv {s : State} {v : Word} (h_s : s.Inv made) : (State.wrDoorbell s v).Inv made := by
  unfold State.wrDoorbell
  try dsimp only [State.take]
  with_reducible repeat' first
    | assumption
    | apply State.wb_inv
    | apply State.omDone_inv
    | split
    | simp only [State.inv_mk]
    | dsimp only

theorem State.mailbox_inv {s : State} {op : Nat} {k : State → State} (h_s : s.Inv made) (h_k : ∀ s, s.Inv made → (k s).Inv made) : Keeps made (State.mailbox s op k) := by
  unfold State.mailbox
  with_reducible repeat' first
    | assumption
    | apply Keeps.next
    | (apply h_k)
    | split

theorem endLedger_inv {r : State × Bool} {k : State → State} (h : r.1.Inv made) (hk : ∀ s, s.Inv made → (k s).Inv made) : (endLedger r k).Inv made := by
  unfold endLedger
  split
  · exact State.omDone_inv (hk _ h)
  · exact State.omDone_inv h

theorem execGetInfo_inv {s : State} (h_s : s.Inv made) : Keeps made (execGetInfo s) := by
  unfold execGetInfo
  with_reducible repeat' first
    | assumption
    | apply Keeps.next
    | apply State.omDone_inv
    | apply State.omResp_inv
    | apply State.mailbox_inv
    | (intro _ _; try dsimp only)

theorem execLogRead_inv {s : State} (h_s : s.Inv made) : Keeps made (execLogRead s) := by
  unfold execLogRead
  try dsimp only [State.take]
  with_reducible repeat' first
    | assumption
    | apply Keeps.next
    | apply State.omDone_inv
    | apply State.omResp_inv
    | apply State.omData_inv
    | apply State.mailbox_inv
    | (intro _ _; try dsimp only)
    | split
    | simp only [State.inv_mk]

theorem State.setSlot_inv {s : State} {k : Nat} {m : List (Nat × Byte)} (h_s : s.Inv made) : (State.setSlot s k m).Inv made := by
  unfold State.setSlot
  try dsimp only [State.take]
  with_reducible repeat' first
    | assumption
    | split
    | simp only [State.inv_mk]

theorem execFwErase_inv {flashErr : Bool} {s : State} (h_s : s.Inv made) : Keeps made (execFwErase flashErr s) := by
  unfold execFwErase
  try dsimp only [State.take]
  with_reducible repeat' first
    | assumption
    | apply Keeps.next
    | apply State.ledgerNow_inv
    | refine State.ledgerNow_inv_eq ?_ (by assumption)
    | apply State.omDone_inv
    | apply State.mailbox_inv
    | apply endLedger_inv
    | apply State.setSlot_inv
    | (intro _ _; try dsimp only)
    | split

theorem execFwWrite_inv {flashErr : Bool} {s : State} (h_s : s.Inv made) : Keeps made (execFwWrite flashErr s) := by
  unfold execFwWrite
  try dsimp only [State.take]
  with_reducible repeat' first
    | assumption
    | apply Keeps.next
    | apply State.omDone_inv
    | apply State.mailbox_inv
    | apply State.setSlot_inv
    | apply State.inv_foldl
    | (intro _ _ _; try dsimp only)
    | (intro _ _; try dsimp only)
    | split

theorem execFwVerify_inv {s : State} (h_s : s.Inv made) : Keeps made (execFwVerify s) := by
  unfold execFwVerify
  try dsimp only [State.take]
  with_reducible repeat' first
    | assumption
    | apply Keeps.next
    | apply State.ledgerNow_inv
    | refine State.ledgerNow_inv_eq ?_ (by assumption)
    | apply State.omDone_inv
    | apply State.omResp_inv
    | apply State.mailbox_inv
    | apply endLedger_inv
    | (intro _ _; try dsimp only)
    | split
    | simp only [State.inv_mk]
    | dsimp only

theorem execFwActivate_inv {s : State} (h_s : s.Inv made) : Keeps made (execFwActivate s) := by
  unfold execFwActivate
  try dsimp only [State.take]
  with_reducible repeat' first
    | assumption
    | apply Keeps.next
    | apply State.ledgerAll_inv
    | refine State.ledgerAll_inv_eq ?_ (by assumption)
    | apply State.omDone_inv
    | apply State.mailbox_inv
    | apply endLedger_inv
    | (intro _ _; try dsimp only)
    | split
    | dsimp only [id]

theorem execFwConfirm_inv {s : State} (h_s : s.Inv made) : Keeps made (execFwConfirm s) := by
  unfold execFwConfirm
  try dsimp only [State.take]
  with_reducible repeat' first
    | assumption
    | apply Keeps.next
    | apply State.ledgerAll_inv
    | refine State.ledgerAll_inv_eq ?_ (by assumption)
    | apply State.omDone_inv
    | apply State.mailbox_inv
    | apply endLedger_inv
    | (intro _ _; try dsimp only)
    | split
    | simp only [State.inv_mk]

theorem execTrialTimeout_inv {s : State} (h_s : s.Inv made) : Keeps made (execTrialTimeout s) := by
  unfold execTrialTimeout
  try dsimp only [State.take]
  with_reducible repeat' first
    | assumption
    | apply Keeps.next
    | apply State.logNamed_inv
    | apply State.ledgerNow_inv
    | refine State.ledgerNow_inv_eq ?_ (by assumption)
    | split
    | simp only [State.inv_mk]

theorem execLedgerWrite_inv {s : State} (h_s : s.Inv made) : Keeps made (execLedgerWrite s) := by
  unfold execLedgerWrite
  try dsimp only [State.take]
  with_reducible repeat' first
    | assumption
    | apply Keeps.next
    | apply State.ledgerNow_inv
    | refine State.ledgerNow_inv_eq ?_ (by assumption)
    | apply State.omDone_inv
    | apply State.mailbox_inv
    | apply endLedger_inv
    | (intro _ _; try dsimp only)
    | split
    | dsimp only [id]

theorem execRosterSet_inv {s : State} (h_s : s.Inv made) : Keeps made (execRosterSet s) := by
  unfold execRosterSet
  try dsimp only [State.take]
  with_reducible repeat' first
    | assumption
    | apply Keeps.next
    | apply State.ledgerAll_inv
    | refine State.ledgerAll_inv_eq ?_ (by assumption)
    | apply State.omDone_inv
    | apply State.mailbox_inv
    | apply endLedger_inv
    | (intro _ _; try dsimp only)
    | split
    | dsimp only [id]

theorem execMailboxFence_inv {s : State} (h_s : s.Inv made) : Keeps made (execMailboxFence s) := by
  unfold execMailboxFence
  try dsimp only [State.take]
  with_reducible repeat' first
    | assumption
    | apply Keeps.next
    | apply State.unitFence_inv
    | apply State.omDone_inv
    | apply State.mailbox_inv
    | (intro _ _; try dsimp only)
    | split
    | simp only [State.inv_mk]

theorem execUnfence_inv {s : State} (h_s : s.Inv made) : Keeps made (execUnfence s) := by
  unfold execUnfence
  try dsimp only [State.take]
  with_reducible repeat' first
    | assumption
    | apply Keeps.next
    | apply State.liftFence_inv
    | apply State.omDone_inv
    | apply State.mailbox_inv
    | (intro _ _; try dsimp only)
    | split
    | simp only [State.inv_mk]

theorem execSensorRead_inv {s : State} (h_s : s.Inv made) : Keeps made (execSensorRead s) := by
  unfold execSensorRead
  try dsimp only [State.take]
  with_reducible repeat' first
    | assumption
    | apply Keeps.next
    | apply State.omDone_inv
    | apply State.omData_inv
    | apply State.mailbox_inv
    | (intro _ _; try dsimp only)
    | simp only [State.inv_mk]

theorem execMailboxTimeout_inv {s : State} (h_s : s.Inv made) : Keeps made (execMailboxTimeout s) := by
  unfold execMailboxTimeout
  with_reducible repeat' first
    | assumption
    | apply Keeps.next
    | apply State.omDone_inv
    | split

theorem execOstlerWdt_inv {s : State} (h_s : s.Inv made) : Keeps made (execOstlerWdt s) := by
  unfold execOstlerWdt
  try dsimp only [State.take]
  with_reducible repeat' first
    | assumption
    | apply Keeps.next
    | apply State.logNamed_inv
    | apply State.omDone_inv
    | split
    | simp only [State.inv_mk]

end Sys2Proof.Machine
end

