-- ==== Sys2Proof/Laws/KeepSheaf.lean ====
section
/-!
SUPPORT. Every function of Machine/Sheaf.lean keeps the invariant of the step.
-/
namespace Sys2Proof.Machine

variable {made : Fuses}

theorem State.wrEngCfg_inv {s : State} {f : Func} {e : Nat} {v : Word} (h_s : s.Inv made) : (State.wrEngCfg s f e v).Inv made := by
  unfold State.wrEngCfg
  try dsimp only [State.take]
  with_reducible repeat' first
    | assumption
    | apply State.setEngine_inv
    | apply State.store_inv
    | split
    | simp only [State.inv_mk]

theorem execRecInv_inv {f : Func} {e : Fin 6} {v : Word} {s : State} (h_s : s.Inv made) : Keeps made (execRecInv f e v s) := by
  unfold execRecInv
  with_reducible repeat' first
    | assumption
    | apply Keeps.next
    | apply State.guarded_inv
    | apply State.wrEngCfg_inv
    | (intro _ _; try dsimp only)

theorem State.partErr_inv {s : State} {e : Nat} {bits : List Nat} {off : Nat} (h_s : s.Inv made) : (State.partErr s e bits off).Inv made := by
  unfold State.partErr
  try dsimp only [State.take]
  with_reducible repeat' first
    | assumption
    | apply State.pf_inv
    | apply State.wb_inv
    | apply State.inv_foldl
    | (intro _ _ _; try dsimp only)

theorem State.wrPart_inv {s : State} {f : Func} {e t : Nat} {v : Word} (h_s : s.Inv made) : (State.wrPart s f e t v).Inv made := by
  unfold State.wrPart
  try dsimp only [State.take]
  with_reducible repeat' first
    | assumption
    | apply State.store_inv
    | apply State.partErr_inv
    | split
    | simp only [State.inv_mk]

theorem execPartWrite_inv {f : Func} {e : Fin 6} {t : Fin 8} {v : Word} {s : State} (h_s : s.Inv made) : Keeps made (execPartWrite f e t v s) := by
  unfold execPartWrite
  with_reducible repeat' first
    | assumption
    | apply Keeps.next
    | apply State.guarded_inv
    | apply State.wrPart_inv
    | (intro _ _; try dsimp only)

theorem State.wrRes_inv {s : State} {f : Func} {e t k : Nat} {v : Word} (h_s : s.Inv made) : (State.wrRes s f e t k v).Inv made := by
  unfold State.wrRes
  try dsimp only [State.take]
  with_reducible repeat' first
    | assumption
    | apply State.store_inv
    | apply State.partErr_inv
    | split
    | simp only [State.inv_mk]

theorem execResWrite_inv {f : Func} {e : Fin 6} {t : Fin 8} {k : Fin 4} {v : Word} {s : State} (h_s : s.Inv made) : Keeps made (execResWrite f e t k v s) := by
  unfold execResWrite
  with_reducible repeat' first
    | assumption
    | apply Keeps.next
    | apply State.guarded_inv
    | apply State.wrRes_inv
    | (intro _ _; try dsimp only)

theorem State.wrEccCtl_inv {s : State} {e : Nat} {v : Word} (h_s : s.Inv made) : (State.wrEccCtl s e v).Inv made := by
  unfold State.wrEccCtl
  with_reducible repeat' first
    | assumption
    | apply State.wr_inv
    | apply State.inv_foldl
    | (intro _ _ _; try dsimp only)
    | split

theorem execCeClr_inv {f : Func} {e : Fin 6} {v : Word} {s : State} (h_s : s.Inv made) : Keeps made (execCeClr f e v s) := by
  unfold execCeClr
  with_reducible repeat' first
    | assumption
    | apply Keeps.next
    | apply State.guarded_inv
    | apply State.wrEccCtl_inv
    | (intro _ _; try dsimp only)

theorem State.wrRepair_inv {s : State} {e i : Nat} {v : Word} (h_s : s.Inv made) : (State.wrRepair s e i v).Inv made := by
  unfold State.wrRepair
  try dsimp only [State.take]
  with_reducible repeat' first
    | assumption
    | apply State.wb_inv
    | apply State.wrRwp_inv
    | split
    | simp only [State.inv_mk]

theorem execRepairWrite_inv {f : Func} {e : Fin 6} {i : Fin 128} {v : Word} {s : State} (h_s : s.Inv made) : Keeps made (execRepairWrite f e i v s) := by
  unfold execRepairWrite
  with_reducible repeat' first
    | assumption
    | apply Keeps.next
    | apply State.guarded_inv
    | apply State.wrRepair_inv
    | (intro _ _; try dsimp only)

theorem execSpadClearDone_inv {e : Fin 6} {s : State} (h_s : s.Inv made) : Keeps made (execSpadClearDone e s) := by
  unfold execSpadClearDone
  try dsimp only [State.take]
  with_reducible repeat' first
    | assumption
    | apply Keeps.next
    | apply State.setEngine_inv
    | apply State.kick_inv
    | apply State.finishAbort_inv
    | apply State.inv_foldl
    | (intro _ _ _; try dsimp only)
    | split
    | simp only [State.inv_mk]

end Sys2Proof.Machine
end

