-- ==== Sys2Proof/Laws/KeepThresher.lean ====
section
/-!
SUPPORT. Every function of Machine/Thresher.lean keeps the invariant of the step.
-/
namespace Sys2Proof.Machine

variable {made : Fuses}

theorem State.thCorrupt_inv {s : State} {c : Nat} (h_s : s.Inv made) : (State.thCorrupt s c).Inv made := by
  unfold State.thCorrupt
  try dsimp only [State.take]
  with_reducible repeat' first
    | assumption
    | apply State.setTh_inv
    | apply State.corruptSample_inv
    | simp only [State.inv_mk]

theorem State.thMark_inv {s : State} {c : Nat} (h_s : s.Inv made) : (State.thMark s c).Inv made := by
  unfold State.thMark
  try dsimp only [State.take]
  with_reducible repeat' first
    | assumption
    | apply State.setTh_inv
    | split
    | simp only [State.inv_mk]

theorem State.thErr_inv {s : State} {c hi lo : Nat} (h_s : s.Inv made) : (State.thErr s c hi lo).Inv made := by
  unfold State.thErr
  with_reducible repeat' first
    | assumption
    | apply State.incSat_inv

theorem State.csiHead_inv {s : State} {c : Nat} {vc : Nat} {h : HeaderEcc} (h_s : s.Inv made) : (State.csiHead s c vc h).2.Inv made := by
  unfold State.csiHead
  try dsimp only [State.take]
  with_reducible repeat' first
    | assumption
    | apply State.incSat_inv
    | apply State.thErr_inv
    | apply State.thMark_inv
    | apply State.inv_foldl
    | (intro _ _ _; try dsimp only)
    | split
    | simp only [State.inv_mk]

theorem State.csiHead_inv_eq {s : State} {c : Nat} {vc : Nat} {h : HeaderEcc} {y : State} {x0_} (h_s : s.Inv made) (he : State.csiHead s c vc h = (x0_, y)) : y.Inv made := by
  have h := State.csiHead_inv (made := made) (s := s) (c := c) (vc := vc) (h := h) h_s
  rw [he] at h
  exact h

theorem State.thTable_inv {s : State} {c a len : Nat} {zeroOff : Bool} (h_s : s.Inv made) : (State.thTable s c a len zeroOff).2.Inv made := by
  unfold State.thTable
  try dsimp only [State.take]
  with_reducible repeat' first
    | assumption
    | apply State.unitAccess_inv
    | refine State.unitAccess_inv_eq ?_ (by assumption)
    | split

theorem State.thTable_inv_eq {s : State} {c a len : Nat} {zeroOff : Bool} {y : State}  {x} (h_s : s.Inv made) (he : State.thTable s c a len zeroOff = (x, y)) : y.Inv made := by
  have := State.thTable_inv (made := made) (s := s) (c := c) (a := a) (len := len) (zeroOff := zeroOff) h_s
  rw [he] at this
  exact this

theorem State.frameStart_inv {s : State} {c num : Nat} (h_s : s.Inv made) : (State.frameStart s c num).Inv made := by
  unfold State.frameStart
  try dsimp only [State.take]
  with_reducible repeat' first
    | assumption
    | apply State.setTh_inv
    | apply State.thCorrupt_inv
    | apply State.thTable_inv
    | refine State.thTable_inv_eq ?_ (by assumption)
    | split
    | simp only [State.inv_mk]

theorem execCsi2FrameStart_inv {c : Fin 16} {vc : BitVec 2} {ecc : HeaderEcc} {frame : BitVec 16} {s : State} (h_s : s.Inv made) : Keeps made (execCsi2FrameStart c vc ecc frame s) := by
  unfold execCsi2FrameStart
  try dsimp only [State.take]
  with_reducible repeat' first
    | assumption
    | apply Keeps.next
    | apply State.frameStart_inv
    | apply State.csiHead_inv
    | refine State.csiHead_inv_eq ?_ (by assumption)
    | apply State.inv_foldl
    | (intro _ _ _; try dsimp only)
    | split
    | simp only [State.inv_mk]

theorem State.thLine_inv {s : State} {c : Nat} {dt : Nat} {crcOk : Bool} {overflow : Bool} {codes : List Nat} (h_s : s.Inv made) : (State.thLine s c dt crcOk overflow codes).Inv made := by
  unfold State.thLine
  try dsimp only [State.take]
  with_reducible repeat' first
    | assumption
    | apply State.incSat_inv
    | apply State.thErr_inv
    | apply State.setTh_inv
    | apply State.inv_foldl
    | (intro _ _ _; try dsimp only)
    | split
    | simp only [State.inv_mk]

theorem execCsi2Line_inv {c : Fin 16} {vc : BitVec 2} {ecc : HeaderEcc} {dt : BitVec 6} {crcOk : Bool} {overflow : Bool} {codes : List Nat} {s : State} (h_s : s.Inv made) : Keeps made (execCsi2Line c vc ecc dt crcOk overflow codes s) := by
  unfold execCsi2Line
  try dsimp only [State.take]
  with_reducible repeat' first
    | assumption
    | apply Keeps.next
    | apply State.thLine_inv
    | apply State.csiHead_inv
    | refine State.csiHead_inv_eq ?_ (by assumption)
    | apply State.inv_foldl
    | (intro _ _ _; try dsimp only)
    | split
    | simp only [State.inv_mk]

theorem State.thEmbed_inv {s : State} {c : Nat} {crcOk : Bool} {bytes : List Byte} (h_s : s.Inv made) : (State.thEmbed s c crcOk bytes).Inv made := by
  unfold State.thEmbed
  try dsimp only [State.take]
  with_reducible repeat' first
    | assumption
    | apply State.thErr_inv
    | apply State.setTh_inv
    | apply State.inv_foldl
    | (intro _ _ _; try dsimp only)
    | split
    | simp only [State.inv_mk]

theorem execCsi2EmbeddedData_inv {c : Fin 16} {vc : BitVec 2} {ecc : HeaderEcc} {crcOk : Bool} {bytes : List Byte} {s : State} (h_s : s.Inv made) : Keeps made (execCsi2EmbeddedData c vc ecc crcOk bytes s) := by
  unfold execCsi2EmbeddedData
  try dsimp only [State.take]
  with_reducible repeat' first
    | assumption
    | apply Keeps.next
    | apply State.thEmbed_inv
    | apply State.csiHead_inv
    | refine State.csiHead_inv_eq ?_ (by assumption)
    | apply State.inv_foldl
    | (intro _ _ _; try dsimp only)
    | split
    | simp only [State.inv_mk]

theorem State.startSend_inv {s : State} {c : Nat} (h_s : s.Inv made) : (State.startSend s c).Inv made := by
  unfold State.startSend
  try dsimp only [State.take]
  with_reducible repeat' first
    | assumption
    | apply State.sendSet_inv
    | split
    | simp only [State.inv_mk]

theorem State.updateMeans_inv {s : State} {c : Nat} (h_s : s.Inv made) : (State.updateMeans s c).Inv made := by
  unfold State.updateMeans
  try dsimp only [State.take]
  with_reducible repeat' first
    | assumption
    | apply State.setTh_inv
    | split
    | simp only [State.inv_mk]

theorem State.frameEnd_inv {s : State} {c : Nat} (h_s : s.Inv made) : (State.frameEnd s c).Inv made := by
  unfold State.frameEnd
  try dsimp only [State.take]
  with_reducible repeat' first
    | assumption
    | apply State.setTh_inv
    | apply State.addSampleOf_inv
    | apply State.thCorrupt_inv
    | apply State.startSend_inv
    | apply State.updateMeans_inv
    | split
    | simp only [State.inv_mk]

theorem execCsi2FrameEnd_inv {c : Fin 16} {vc : BitVec 2} {ecc : HeaderEcc} {s : State} (h_s : s.Inv made) : Keeps made (execCsi2FrameEnd c vc ecc s) := by
  unfold execCsi2FrameEnd
  try dsimp only [State.take]
  with_reducible repeat' first
    | assumption
    | apply Keeps.next
    | apply State.frameEnd_inv
    | apply State.csiHead_inv
    | refine State.csiHead_inv_eq ?_ (by assumption)
    | apply State.inv_foldl
    | (intro _ _ _; try dsimp only)
    | split
    | simp only [State.inv_mk]

theorem execFrameTimeout_inv {c : Fin 16} {ended : Bool} {s : State} (h_s : s.Inv made) : Keeps made (execFrameTimeout c ended s) := by
  unfold execFrameTimeout
  with_reducible repeat' first
    | assumption
    | apply Keeps.next
    | apply State.thCorrupt_inv
    | apply State.thErr_inv
    | split

theorem execCamSilent_inv {c : Fin 16} {started : Bool} {s : State} (h_s : s.Inv made) : Keeps made (execCamSilent c started s) := by
  unfold execCamSilent
  with_reducible repeat' first
    | assumption
    | apply Keeps.next
    | apply State.raise_inv
    | apply State.logNamed_inv
    | split

theorem State.wrThSet_inv {s : State} {c : Nat} {v : Word} (h_s : s.Inv made) : (State.wrThSet s c v).Inv made := by
  unfold State.wrThSet
  try dsimp only [State.take]
  with_reducible repeat' first
    | assumption
    | apply State.incSat_inv
    | apply State.setTh_inv
    | split
    | simp only [State.inv_mk]

theorem execThSet_inv {f : Func} {c : Fin 16} {v : Word} {s : State} (h_s : s.Inv made) : Keeps made (execThSet f c v s) := by
  unfold execThSet
  with_reducible repeat' first
    | assumption
    | apply Keeps.next
    | apply State.guarded_inv
    | apply State.wrThSet_inv
    | (intro _ _; try dsimp only)

theorem execRoiCommit_inv {c : Fin 16} {s : State} (h_s : s.Inv made) : Keeps made (execRoiCommit c s) := by
  unfold execRoiCommit
  try dsimp only [State.take]
  with_reducible repeat' first
    | assumption
    | apply Keeps.next
    | apply State.setTh_inv
    | split
    | simp only [State.inv_mk]

theorem State.wrThOut_inv {s : State} {f : Func} {c : Nat} {v : Word} (h_s : s.Inv made) : (State.wrThOut s f c v).Inv made := by
  unfold State.wrThOut
  try dsimp only [State.take]
  with_reducible repeat' first
    | assumption
    | apply State.store_inv
    | apply State.srcErr_inv
    | apply State.inv_foldl
    | (intro _ _ _; try dsimp only)
    | split
    | simp only [State.inv_mk]

theorem State.wrThSize_inv {s : State} {f : Func} {c : Nat} {v : Word} (h_s : s.Inv made) : (State.wrThSize s f c v).Inv made := by
  unfold State.wrThSize
  with_reducible repeat' first
    | assumption
    | apply State.store_inv
    | apply State.srcErr_inv
    | split

end Sys2Proof.Machine
end

