-- ==== Sys2Proof/Laws/KeepRegView.lean ====
section
/-!
SUPPORT. Every function of Machine/RegView.lean keeps the invariant of the step.
-/
namespace Sys2Proof.Machine

variable {made : Fuses}

theorem State.readPair_inv {s : State} {f : Func} {a : Nat} {i : PageId} (h_s : s.Inv made) : (State.readPair s f a i).Inv made := by
  unfold State.readPair
  try dsimp only [State.take]
  with_reducible repeat' first
    | assumption
    | split
    | simp only [State.inv_mk]

theorem State.localRead_inv {s : State} {f : Func} {a : Nat} (h_s : s.Inv made) : (State.localRead s f a).Inv made := by
  unfold State.localRead
  try dsimp only [State.take]
  with_reducible repeat' first
    | assumption
    | apply State.readTsNs_inv
    | apply State.readTxts_inv
    | apply State.canHead_inv
    | refine State.canHead_inv_eq ?_ (by assumption)
    | apply State.lockHead_inv
    | apply State.readPair_inv
    | split
    | simp only [State.inv_mk]

theorem execProbeRead_inv {f : Func} {high : Bool} {s : State} (h_s : s.Inv made) : Keeps made (execProbeRead f high s) := by
  unfold execProbeRead
  with_reducible repeat' first
    | assumption
    | apply Keeps.next
    | apply State.localRead_inv
    | split

theorem execRxhIdRead_inv {f : Func} {n : Fin 8} {s : State} (h_s : s.Inv made) : Keeps made (execRxhIdRead f n s) := by
  unfold execRxhIdRead
  with_reducible repeat' first
    | assumption
    | apply Keeps.next
    | apply State.localRead_inv

end Sys2Proof.Machine
end

