-- ==== Sys2Proof/Laws/KeepHostWrite.lean ====
section
/-!
SUPPORT. Every function of Machine/HostWrite.lean keeps the invariant of the step.
-/
namespace Sys2Proof.Machine

variable {made : Fuses}

theorem State.wrPlain_inv {s : State} {f : Func} {a : Nat} {v : Word} (h_s : s.Inv made) : (State.wrPlain s f a v).Inv made := by
  unfold State.wrPlain
  with_reducible repeat' first
    | assumption
    | apply State.store_inv
    | apply State.wrRwp_inv
    | split

theorem State.wrMaster_inv {s : State} {v : Word} (h_s : s.Inv made) : (State.wrMaster s v).Inv made := by
  unfold State.wrMaster
  with_reducible repeat' first
    | assumption
    | apply State.wb_inv
    | apply State.wrRwp_inv
    | split

theorem State.wrHeader_inv {s : State} {f : Func} {page o : Nat} {v : Word} (h_s : s.Inv made) : (State.wrHeader s f page o v).Inv made := by
  unfold State.wrHeader
  try dsimp only [State.take]
  with_reducible repeat' first
    | assumption
    | apply State.wrIrqEn_inv
    | apply State.wrIrqPend_inv
    | apply State.wrIrqForce_inv
    | apply State.wrErrinj_inv
    | apply State.wrLock_inv
    | apply State.wrBlkCtl_inv
    | split
    | simp only [State.inv_mk]

theorem State.wrManagement_inv {s : State} {f : Func} {i : PageId} {a o : Nat} {v : Word} (h_s : s.Inv made) : (State.wrManagement s f i a o v).Inv made := by
  unfold State.wrManagement
  try dsimp only [State.take]
  with_reducible repeat' first
    | assumption
    | apply State.store_inv
    | apply State.wrSlotCtl_inv
    | apply State.wrSlotCfg_inv
    | apply State.wrWdSrc_inv
    | apply State.wrWdCtl_inv
    | apply State.wrRegion_inv
    | apply State.wrAttCtl_inv
    | apply State.wrFmin_inv
    | apply State.wrFmax_inv
    | apply State.wrCap_inv
    | apply State.wrTh_inv
    | apply State.wrRoute_inv
    | apply State.wrDoorbell_inv
    | apply State.wrPlain_inv
    | split
    | simp only [State.inv_mk]

theorem State.wrInnkeeper_inv {s : State} {f : Func} {i : PageId} {a o : Nat} {v : Word} (h_s : s.Inv made) : (State.wrInnkeeper s f i a o v).Inv made := by
  unfold State.wrInnkeeper
  try dsimp only [State.take]
  with_reducible repeat' first
    | assumption
    | apply State.tallyCfg_inv
    | apply State.store_inv
    | apply State.wrQTail_inv
    | apply State.wrQCfg_inv
    | apply State.wrTnRes_inv
    | apply State.wrTnCtl_inv
    | apply State.wrManCtl_inv
    | split
    | simp only [State.inv_mk]

theorem State.wrEngine_inv {s : State} {f : Func} {i : PageId} {a o : Nat} {v : Word} (h_s : s.Inv made) : (State.wrEngine s f i a o v).Inv made := by
  unfold State.wrEngine
  try dsimp only [State.take]
  with_reducible repeat' first
    | assumption
    | apply State.tallyCfg_inv
    | apply State.store_inv
    | apply State.wrLbCfg_inv
    | apply State.wrLbMask_inv
    | apply State.wrAbtCtl_inv
    | apply State.wrFlCfg_inv
    | apply State.wrHstCtl_inv
    | apply State.wrEngCfg_inv
    | apply State.wrPart_inv
    | apply State.wrRes_inv
    | apply State.wrEccCtl_inv
    | apply State.wrRepair_inv
    | apply State.wrPlain_inv
    | apply State.wrMaster_inv
    | split
    | simp only [State.inv_mk]

theorem State.wrPort_inv {s : State} {f : Func} {i : PageId} {a o : Nat} {v : Word} (h_s : s.Inv made) : (State.wrPort s f i a o v).Inv made := by
  unfold State.wrPort
  try dsimp only [State.take]
  with_reducible repeat' first
    | assumption
    | apply State.store_inv
    | apply State.wrIcCtl_inv
    | apply State.wrIcCfg_inv
    | apply State.wrCfMode_inv
    | apply State.wrCfTiming_inv
    | apply State.wrCfCtl_inv
    | apply State.wrTxb_inv
    | apply State.wrEthQ_inv
    | apply State.wrEthCfg_inv
    | apply State.wrPlain_inv
    | split
    | simp only [State.inv_mk]

theorem State.wrControl_inv {s : State} {f : Func} {i : PageId} {a : Nat} {o : Nat} {v : Word} (h_s : s.Inv made) : (State.wrControl s f i a o v).Inv made := by
  unfold State.wrControl
  try dsimp only [State.take]
  with_reducible repeat' first
    | assumption
    | apply State.wrDvCfg_inv
    | apply State.wrDvPto_inv
    | apply State.wrAddendHi_inv
    | apply State.wrPgCfg_inv
    | apply State.wrTmCfg_inv
    | apply State.wrEncCfg_inv
    | apply State.wrWbSel_inv
    | apply State.store_inv
    | apply State.wrPgFrac_inv
    | apply State.wrPlain_inv
    | apply State.wrPgParam_inv
    | apply State.wrAlCfg_inv
    | apply State.wrPgAdj_inv
    | apply State.wrAlCtl_inv
    | apply State.wrPgOffset_inv
    | apply State.wrTsCtl_inv
    | apply State.wrWbCmd_inv
    | apply State.wrAxCtl_inv
    | apply State.inv_foldl
    | (intro _ _ _; try dsimp only)
    | split
    | simp only [State.inv_mk]

theorem State.wrSource_inv {s : State} {f : Func} {src r : Nat} {v : Word} (h_s : s.Inv made) : (State.wrSource s f src r v).Inv made := by
  unfold State.wrSource
  with_reducible repeat' first
    | assumption
    | apply State.wrSrcCfg_inv
    | apply State.wrSrcOther_inv
    | split

theorem State.wrPerception_inv {s : State} {f : Func} {i : PageId} {a : Nat} {o : Nat} {v : Word} (h_s : s.Inv made) : (State.wrPerception s f i a o v).Inv made := by
  unfold State.wrPerception
  try dsimp only [State.take]
  with_reducible repeat' first
    | assumption
    | apply State.wrSource_inv
    | apply State.wrThSize_inv
    | apply State.store_inv
    | apply State.wrGlCtl_inv
    | apply State.wrPlain_inv
    | apply State.wrThOut_inv
    | apply State.wrAug_inv
    | apply State.wrThSet_inv
    | apply State.inv_foldl
    | (intro _ _ _; try dsimp only)
    | split
    | simp only [State.inv_mk]

theorem State.wrBody_inv {s : State} {f : Func} {i : PageId} {a o : Nat} {v : Word} (h_s : s.Inv made) : (State.wrBody s f i a o v).Inv made := by
  unfold State.wrBody
  try dsimp only [State.take]
  with_reducible repeat' first
    | assumption
    | apply State.store_inv
    | apply State.wrManagement_inv
    | apply State.wrInnkeeper_inv
    | apply State.wrEngine_inv
    | apply State.wrPort_inv
    | apply State.wrControl_inv
    | apply State.wrPerception_inv
    | split
    | simp only [State.inv_mk]

theorem State.localWrite_inv {s : State} {f : Func} {a : Nat} {v : Word} (h_s : s.Inv made) : (State.localWrite s f a v).Inv made := by
  unfold State.localWrite
  try dsimp only [State.take]
  with_reducible repeat' first
    | assumption
    | apply State.guarded_inv
    | apply State.wrHeader_inv
    | apply State.wrBody_inv
    | (intro _ _; try dsimp only)
    | split
    | simp only [State.inv_mk]

theorem State.hwSet_inv {s : State} {a : Nat} {m : Word} (h_s : s.Inv made) : (State.hwSet s a m).Inv made := by
  unfold State.hwSet
  try dsimp only [State.take]
  with_reducible repeat' first
    | assumption
    | apply State.wr_inv
    | split
    | simp only [State.inv_mk]

theorem execMasterWrite_inv {f : Func} {v : Word} {s : State} (h_s : s.Inv made) : Keeps made (execMasterWrite f v s) := by
  unfold execMasterWrite
  with_reducible repeat' first
    | assumption
    | apply Keeps.next
    | apply State.guarded_inv
    | apply State.wrMaster_inv
    | (intro _ _; try dsimp only)

theorem State.logMgmt_inv {s : State} {a : Nat} {v : Word} (h_s : s.Inv made) : (State.logMgmt s a v).Inv made := by
  unfold State.logMgmt
  with_reducible repeat' first
    | assumption
    | apply State.logNamed_inv

theorem execMgmtRead_inv {s : State} (h_s : s.Inv made) : Keeps made (execMgmtRead s) := by
  unfold execMgmtRead
  try dsimp only [State.take]
  with_reducible repeat' first
    | assumption
    | apply Keeps.next
    | apply State.omDone_inv
    | apply State.omResp_inv
    | apply State.mailbox_inv
    | apply State.localRead_inv
    | apply State.logMgmt_inv
    | (intro _ _; try dsimp only)
    | split
    | simp only [State.inv_mk]
    | dsimp only

theorem execMgmtWrite_inv {s : State} (h_s : s.Inv made) : Keeps made (execMgmtWrite s) := by
  unfold execMgmtWrite
  try dsimp only [State.take]
  with_reducible repeat' first
    | assumption
    | apply Keeps.next
    | apply State.omDone_inv
    | apply State.mailbox_inv
    | apply State.localWrite_inv
    | apply State.logMgmt_inv
    | (intro _ _; try dsimp only)
    | split

end Sys2Proof.Machine
end

