-- ==== Sys2Proof/Laws/KeepProxy.lean ====
section
/-!
SUPPORT. Every function of Machine/Proxy.lean keeps the invariant of the step.
-/
namespace Sys2Proof.Machine

variable {made : Fuses}

theorem State.localAccess_inv {s : State} {f : Func} {a : Nat} {w : Option Word} (h_s : s.Inv made) : (State.localAccess s f a w).Inv made := by
  unfold State.localAccess
  try dsimp only [State.take]
  with_reducible repeat' first
    | assumption
    | apply State.localRead_inv
    | apply State.localWrite_inv
    | split
    | simp only [State.inv_mk]

theorem State.noAccess_inv {s : State} {w : Option Word} {v : Word} (h_s : s.Inv made) : (State.noAccess s w v).Inv made := by
  unfold State.noAccess
  try dsimp only [State.take]
  with_reducible repeat' first
    | assumption
    | split
    | simp only [State.inv_mk]

theorem State.proxyAccess_inv {s : State} {f : Func} {a : Nat} {w : Option Word} (h_s : s.Inv made) : (State.proxyAccess s f a w).Inv made := by
  unfold State.proxyAccess
  try dsimp only [State.take]
  with_reducible repeat' first
    | assumption
    | apply State.pf_inv
    | apply State.pxErr_inv
    | apply State.sendProxies_inv
    | apply State.localAccess_inv
    | apply State.noAccess_inv
    | split
    | simp only [State.inv_mk]
    | dsimp only

theorem execProxyAccess_inv {f : Func} {addr : Nat} {w : Option Word} {s : State} (h_s : s.Inv made) : Keeps made (execProxyAccess f addr w s) := by
  unfold execProxyAccess
  with_reducible repeat' first
    | assumption
    | apply Keeps.next
    | apply State.proxyAccess_inv

theorem execProxyRead_inv {p : Fin 8} {vc : Fin 4} {s : State} (h_s : s.Inv made) : Keeps made (execProxyRead p vc s) := by
  unfold execProxyRead
  try dsimp only [State.take]
  with_reducible repeat' first
    | assumption
    | apply Keeps.next
    | apply State.answer_inv
    | apply State.rxPop_inv
    | apply State.localRead_inv
    | split
    | simp only [State.inv_mk]
    | dsimp only

theorem execProxyWrite_inv {p : Fin 8} {vc : Fin 4} {s : State} (h_s : s.Inv made) : Keeps made (execProxyWrite p vc s) := by
  unfold execProxyWrite
  try dsimp only [State.take]
  with_reducible repeat' first
    | assumption
    | apply Keeps.next
    | apply State.answer_inv
    | apply State.rxPop_inv
    | apply State.localWrite_inv
    | split
    | simp only [State.inv_mk]

theorem execProxyReadData_inv {p : Fin 8} {vc : Fin 4} {s : State} (h_s : s.Inv made) : Keeps made (execProxyReadData p vc s) := by
  unfold execProxyReadData
  try dsimp only [State.take]
  with_reducible repeat' first
    | assumption
    | apply Keeps.next
    | apply State.endProxy_inv
    | apply State.rxPop_inv
    | split
    | simp only [State.inv_mk]
    | dsimp only

theorem execProxyWriteAcknowledgement_inv {p : Fin 8} {vc : Fin 4} {s : State} (h_s : s.Inv made) : Keeps made (execProxyWriteAcknowledgement p vc s) := by
  unfold execProxyWriteAcknowledgement
  try dsimp only [State.take]
  with_reducible repeat' first
    | assumption
    | apply Keeps.next
    | apply State.endProxy_inv
    | apply State.rxPop_inv
    | split
    | simp only [State.inv_mk]

theorem execProxyTimeout_inv {m : Fin 64} {s : State} (h_s : s.Inv made) : Keeps made (execProxyTimeout m s) := by
  unfold execProxyTimeout
  try dsimp only [State.take]
  with_reducible repeat' first
    | assumption
    | apply Keeps.next
    | apply State.failProxy_inv
    | split
    | simp only [State.inv_mk]

theorem execRegisterWrite_inv {f : Func} {addr width : Nat} {v hwSet : Word} {s : State} (h_s : s.Inv made) : Keeps made (execRegisterWrite f addr width v hwSet s) := by
  unfold execRegisterWrite
  with_reducible repeat' first
    | assumption
    | apply Keeps.next
    | apply State.localWrite_inv
    | apply State.hwSet_inv
    | apply State.proxyAccess_inv
    | split

theorem execLowWordRead_inv {f : Func} {addr width : Nat} {s : State} (h_s : s.Inv made) : Keeps made (execLowWordRead f addr width s) := by
  unfold execLowWordRead
  try dsimp only [State.take]
  with_reducible repeat' first
    | assumption
    | apply Keeps.next
    | apply State.localRead_inv
    | apply State.proxyAccess_inv
    | split
    | simp only [State.inv_mk]

end Sys2Proof.Machine
end

