-- ==== Sys2Proof/Laws/KeepRnn.lean ====
section
/-!
SUPPORT. Every function of Machine/Rnn.lean keeps the invariant of the step.
-/
namespace Sys2Proof.Machine

variable {made : Fuses}

theorem State.rnnBody_inv {s : State} {e : Nat} {c : Cmd} {u3 : List Word} (h_s : s.Inv made) : (State.rnnBody s e c u3).out.Inv made := by
  unfold State.rnnBody
  try dsimp only [State.take]
  with_reducible repeat' first
    | assumption
    | apply State.spWrite_inv
    | apply State.inv_foldl
    | (intro _ _ _; try dsimp only)
    | split
    | simp only [State.inv_mk]
    | dsimp only

theorem execRnnStep_inv {e : Fin 6} {hw : HwFault} {s : State} (h_s : s.Inv made) : Keeps made (execRnnStep e hw s) := by
  unfold execRnnStep
  with_reducible repeat' first
    | assumption
    | apply Keeps.next
    | apply State.command_inv
    | apply State.rnnBody_inv
    | (intro _ _; try dsimp only)

end Sys2Proof.Machine
end

