-- ==== Sys2Proof/Laws/KeepDispatch.lean ====
section
/-!
SUPPORT. Every function of Machine/Dispatch.lean keeps the invariant of the step.
-/
namespace Sys2Proof.Machine

variable {made : Fuses}

theorem exec_inv {i : Instr} {s : State} (h_s : s.Inv made) : Keeps made (exec i s) := by
  unfold exec
  try dsimp only [State.take]
  with_reducible repeat' first
    | assumption
    | apply Keeps.next
    | apply execPfFunctionLevelReset_inv
    | apply execQueueRestart_inv
    | apply execProxyReadData_inv
    | apply execWritePacket_inv
    | apply execSensorStale_inv
    | apply execProxyAccess_inv
    | apply execPeriodLost_inv
    | apply execHoldupSample_inv
    | apply execLinkDown_inv
    | apply execRecover_inv
    | apply execCsi2Line_inv
    | apply execStopClr_inv
    | apply execAxisCompute_inv
    | apply execFcHoldover_inv
    | apply execAddendWrite_inv
    | apply execSpadClearDone_inv
    | apply execVectorMap_inv
    | apply execPdelayReq_inv
    | apply execTallyArrive_inv
    | apply execFwErase_inv
    | apply execWbLate_inv
    | apply execManAck_inv
    | apply execQCfgWrite_inv
    | apply execAttestationDone_inv
    | apply execCeClr_inv
    | apply execModuleReset_inv
    | apply execVectorMax_inv
    | apply execZcTimeout_inv
    | apply execI2cUnfence_inv
    | apply execRetrain_inv
    | apply execLbTimeout_inv
    | apply execConvFrequency_inv
    | apply execPoolMax_inv
    | apply execVectorMin_inv
    | apply execBusDominant_inv
    | apply execCtrlMonitor_inv
    | apply execTxfFlush_inv
    | apply execCsi2EmbeddedData_inv
    | apply execFirmwareChosen_inv
    | apply execIrqForce_inv
    | apply execResWrite_inv
    | apply execEthFrameReceived_inv
    | apply execFence_inv
    | apply execWardenDeadline_inv
    | apply execMatmul_inv
    | apply execSumGranary_inv
    | apply execTxfPush_inv
    | apply execThSet_inv
    | apply execFaultAck_inv
    | apply execQueueStart_inv
    | apply execLedgerWriteDone_inv
    | apply execControlSlot_inv
    | apply execUpstreamFrame_inv
    | apply execCsi2FrameEnd_inv
    | apply execMailboxFence_inv
    | apply execRxhIdRead_inv
    | apply execRecipeCacheFill_inv
    | apply execTxbReq_inv
    | apply execPorNAssert_inv
    | apply execLedgerDequeue_inv
    | apply execMbCommit_inv
    | apply execRailSample_inv
    | apply execSsiTransferEnd_inv
    | apply execWaybillWait_inv
    | apply execPerstNAssert_inv
    | apply execDiagRun_inv
    | apply execLbRelease_inv
    | apply execPortTrainingDone_inv
    | apply execWriteAcknowledgement_inv
    | apply execEncoderEdge_inv
    | apply execIrqEnWrite_inv
    | apply execTlbInv_inv
    | apply execDigest_inv
    | apply execWaybillCrossing_inv
    | apply execTimesync_inv
    | apply execPmbusPoll_inv
    | apply execTrialTimeout_inv
    | apply execEcho_inv
    | apply execLaneLockLoss_inv
    | apply execInvTn_inv
    | apply execSrcLost_inv
    | apply execLedgerScan_inv
    | apply execSilent_inv
    | apply execCanError_inv
    | apply execRegionWrite_inv
    | apply execCopy_inv
    | apply execCanFrameReceived_inv
    | apply execBusRecessive_inv
    | apply execCarryRelease_inv
    | apply execCamSilent_inv
    | apply execFwActivate_inv
    | apply execWiringRetry_inv
    | apply execAttnForwardDense_inv
    | apply execRtpPacket_inv
    | apply execStrobeEnd_inv
    | apply execVoltageSettled_inv
    | apply execDisable_inv
    | apply execLbArrival_inv
    | apply execPorNRelease_inv
    | apply execRxPop_inv
    | apply execOstlerWdt_inv
    | apply execAttnBackward_inv
    | apply execQueuePoll_inv
    | apply execTallyArrival_inv
    | apply execAttStart_inv
    | apply execProbeRead_inv
    | apply execCsi2FrameStart_inv
    | apply execEchoSend_inv
    | apply execPgAdj_inv
    | apply execDvfsTick_inv
    | apply execCurrentDecision_inv
    | apply execStoFbErr_inv
    | apply execThermalSample_inv
    | apply execEpochExchange_inv
    | apply execWdLockstep_inv
    | apply execScrubDone_inv
    | apply execConvDense_inv
    | apply execWdHoldExpired_inv
    | apply execAxEnable_inv
    | apply execQueueFetch_inv
    | apply execProxyWrite_inv
    | apply execStopTimeExpiry_inv
    | apply execHostRelease_inv
    | apply execProxyTimeout_inv
    | apply execTxTimeout_inv
    | apply execCommandCompletion_inv
    | apply execBandAdapt_inv
    | apply execRefclkLoss_inv
    | apply execBlkEnable_inv
    | apply execPerstNRelease_inv
    | apply execRepairWrite_inv
    | apply execEthFrameBoundary_inv
    | apply execLogRead_inv
    | apply execPacketForward_inv
    | apply execRxTimeout_inv
    | apply execUnfence_inv
    | apply execGetInfo_inv
    | apply execLbCfgWrite_inv
    | apply execI2cTransferDone_inv
    | apply execPowerWindowEnd_inv
    | apply execLock_inv
    | apply execEncoderIndex_inv
    | apply execFwVerify_inv
    | apply execTimesyncSend_inv
    | apply execSumFp32_inv
    | apply execBusOffRecovery_inv
    | apply execLinkUp_inv
    | apply execSampleForward_inv
    | apply execRosterSet_inv
    | apply execCanInit_inv
    | apply execLbSelfRelease_inv
    | apply execWbSelWrite_inv
    | apply execLbFire_inv
    | apply execAbortReceipt_inv
    | apply execMonoTimeout_inv
    | apply execSignalFault_inv
    | apply execCurrentLost_inv
    | apply execBusStuck_inv
    | apply execProxyWriteAcknowledgement_inv
    | apply execLedgerWrite_inv
    | apply execProxyRead_inv
    | apply execRunLimit_inv
    | apply execStateCompare_inv
    | apply execAuthDone_inv
    | apply execSrcEnable_inv
    | apply execWait_inv
    | apply execLaunchCount_inv
    | apply execLowWordRead_inv
    | apply execAbort_inv
    | apply execErrinjWrite_inv
    | apply execMergedClose_inv
    | apply execMgmtRead_inv
    | apply execArrivePacket_inv
    | apply execDrainStall_inv
    | apply execDroopRecovery_inv
    | apply execSafeReq_inv
    | apply execHbmTrainingDone_inv
    | apply execTStopExpiry_inv
    | apply execSoftReset_inv
    | apply execI2cStart_inv
    | apply execTnResWrite_inv
    | apply execJitterExpiry_inv
    | apply execTallyConfigWrite_inv
    | apply execCanFrameSent_inv
    | apply execDownstreamFrame_inv
    | apply execArrive_inv
    | apply execPictureDecoded_inv
    | apply execCanListen_inv
    | apply execFenceCompletion_inv
    | apply execErrorResponse_inv
    | apply execEnable_inv
    | apply execZcEdge_inv
    | apply execRoiCommit_inv
    | apply execSensorRead_inv
    | apply execBrakeDelayExpiry_inv
    | apply execPorterDescriptor_inv
    | apply execBarrierTimeout_inv
    | apply execRegisterWrite_inv
    | apply execFenceLift_inv
    | apply execCanArbitration_inv
    | apply execTsNsRead_inv
    | apply execPartWrite_inv
    | apply execManifestClose_inv
    | apply execCanWake_inv
    | apply execGroupReset_inv
    | apply execFwWrite_inv
    | apply execFwConfirm_inv
    | apply execTimebaseChange_inv
    | apply execAttnForwardRetrieval_inv
    | apply execLaunchTime_inv
    | apply execKWrite_inv
    | apply execLogPageWritten_inv
    | apply execVfFunctionLevelReset_inv
    | apply execIrqPendWrite_inv
    | apply execGleanDone_inv
    | apply execRecInv_inv
    | apply execClose_inv
    | apply execPoolAvg_inv
    | apply execConvDiagonal_inv
    | apply execCommit_inv
    | apply execTallyTimeout_inv
    | apply execDataSlot_inv
    | apply execCanNormal_inv
    | apply execIrqRouteWrite_inv
    | apply execRnnStep_inv
    | apply execLawCommit_inv
    | apply execRelease_inv
    | apply execMailboxTimeout_inv
    | apply execRestart_inv
    | apply execTxtsInfoRead_inv
    | apply execSclLowTimeout_inv
    | apply execEscWaitExpiry_inv
    | apply execFrameTimeout_inv
    | apply execStartupRunDone_inv
    | apply execQTailWrite_inv
    | apply execDriverLatch_inv
    | apply execDroop_inv
    | apply execGleanStart_inv
    | apply execEngineWindow_inv
    | apply execSmbalert_inv
    | apply execPgEnable_inv
    | apply execAbortDone_inv
    | apply execStalled_inv
    | apply execCanSleep_inv
    | apply execMgmtWrite_inv
    | apply execTensorRailsUp_inv
    | apply execWbWaitTimeout_inv
    | apply execEthTxDone_inv
    | apply execStep_inv
    | apply execAnnounce_inv
    | apply execMasterWrite_inv
    | apply execTxbAbort_inv
    | apply execSet_inv
    | apply State.inv_foldl
    | (intro _ _ _; try dsimp only)
    | split
    | simp only [State.inv_mk]

end Sys2Proof.Machine
end

