-- ==== Sys2Proof/Laws/KeepSlots.lean ====
section
/-!
SUPPORT. Every function of Machine/Slots.lean keeps the invariant of the step.
-/
namespace Sys2Proof.Machine

variable {made : Fuses}

theorem State.sendNew_inv {s : State} {p : Nat} {x : Port} {t : TxPkt} {i : Nat} (h_s : s.Inv made) : (State.sendNew s p x t i).Inv made := by
  unfold State.sendNew
  try dsimp only [State.take]
  with_reducible repeat' first
    | assumption
    | apply State.setPort_inv
    | apply State.giveBack_inv
    | apply State.inv_foldl
    | (intro _ _ _; try dsimp only)
    | split
    | simp only [State.inv_mk]

theorem State.sendSlot_inv {s : State} {p : Nat} (h_s : s.Inv made) : (State.sendSlot s p).Inv made := by
  unfold State.sendSlot
  try dsimp only [State.take]
  with_reducible repeat' first
    | assumption
    | apply State.setPort_inv
    | apply State.sendNew_inv
    | apply State.inv_foldl
    | (intro _ _ _; try dsimp only)
    | split
    | simp only [State.inv_mk]

theorem State.sendSlots_inv {s : State} (h_s : s.Inv made) : (State.sendSlots s).Inv made := by
  unfold State.sendSlots
  try dsimp only [State.take]
  with_reducible repeat' first
    | assumption
    | apply State.sendSlot_inv
    | apply State.inv_foldl
    | (intro _ _ _; try dsimp only)
    | split
    | simp only [State.inv_mk]

end Sys2Proof.Machine
end

