-- ==== Sys2Proof/Laws/KeepTime.lean ====
section
/-!
SUPPORT. Every function of Machine/Time.lean keeps the invariant of the step.
-/
namespace Sys2Proof.Machine

variable {made : Fuses}

theorem State.tick_inv {s : State} (h_s : s.Inv made) : (State.tick s).Inv made := by
  unfold State.tick
  try dsimp only [State.take]
  with_reducible repeat' first
    | assumption
    | apply State.tickMile_inv
    | apply State.sendSlots_inv
    | apply State.inv_foldl
    | (intro _ _ _; try dsimp only)
    | split
    | simp only [State.inv_mk]

end Sys2Proof.Machine
end

