-- ==== Sys2Proof/Laws/KeepStep.lean ====
section
/-!
SUPPORT. Every function of Machine/Step.lean keeps the invariant of the step.
-/
namespace Sys2Proof.Machine

variable {made : Fuses}

theorem step_inv {s : State} (h_s : s.Inv made) : Keeps made (step s) := by
  unfold step
  try dsimp only [State.take]
  with_reducible repeat' first
    | assumption
    | apply Keeps.next
    | apply exec_inv
    | apply State.tick_inv
    | apply State.inv_foldl
    | (intro _ _ _; try dsimp only)
    | split
    | simp only [State.inv_mk]

theorem State.withFetchWord_inv {s : State} {nbits w : Nat} (h_s : s.Inv made) : (State.withFetchWord s nbits w).Inv made := by
  unfold State.withFetchWord
  try dsimp only [State.take]
  with_reducible repeat' first
    | assumption
    | split
    | simp only [State.inv_mk]

end Sys2Proof.Machine
end

