-- ==== Sys2Proof/Laws/Memory.lean ====
section
/-!
SUPPORT. What a command leaves alone, carried through the state operations: `State.Mem r0` says that the parts named there stand as in `r0`. The files
Memory*.lean say it of every function of the machine that touches none of them, one lemma each, in the order of the files of Machine/.
-/
namespace Sys2Proof.Machine

/-- The parts stand as in r0. -/
def State.Mem (r0 : List Host.Cell × List Host.Cell) (s : State) : Prop := (s.hbm, s.spad) = r0

/-- An outcome whose next state has the parts as in r0. -/
def KeepsMem (r0 : List Host.Cell × List Host.Cell) (o : Host.Outcome State Fault Refusal) : Prop :=
  ∀ t, o = .next t → t.Mem r0

variable {r0 : List Host.Cell × List Host.Cell}

theorem KeepsMem.next {t : State} (h : t.Mem r0) : KeepsMem r0 (.next t) := fun _ e => by cases e; exact h

theorem State.mem_mk {s : State} {p fr fu pi cl rg la rd ms lg le os eg po qs tn bs aq eq fd mi dr pe et ca ic} :
    State.Mem r0 (State.mk p fr fu pi cl s.hbm s.spad rg la rd ms lg le os eg po qs tn bs aq eq fd mi dr pe et ca ic) ↔ s.Mem r0 := Iff.rfl

theorem State.mem_foldl {s : State} {α : Type} {f : State → α → State} {l : List α} (h : s.Mem r0)
    (hf : ∀ s x, s.Mem r0 → (f s x).Mem r0) : (l.foldl f s).Mem r0 := by
  induction l generalizing s with
  | nil => exact h
  | cons a r ih => exact ih (hf _ _ h)

theorem State.mem_foldl_fst {α β : Type} {f : State × β → α → State × β} {l : List α} {t : State × β} (h : t.1.Mem r0)
    (hf : ∀ t x, t.1.Mem r0 → (f t x).1.Mem r0) : (l.foldl f t).1.Mem r0 := by
  induction l generalizing t with
  | nil => exact h
  | cons a r ih => exact ih (hf _ _ h)

theorem State.wr_mem {s : State} {a v} (h : s.Mem r0) : (State.wr s a v).Mem r0 := h
theorem State.resetRegs_mem {s : State} {p} (h : s.Mem r0) : (State.resetRegs s p).Mem r0 := h
theorem State.setEngine_mem {s : State} {e x} (h : s.Mem r0) : (State.setEngine s e x).Mem r0 := h
theorem State.setPorter_mem {s : State} {e x} (h : s.Mem r0) : (State.setPorter s e x).Mem r0 := h
theorem State.setQueue_mem {s : State} {e x} (h : s.Mem r0) : (State.setQueue s e x).Mem r0 := h
theorem State.setTenant_mem {s : State} {e x} (h : s.Mem r0) : (State.setTenant s e x).Mem r0 := h
theorem State.setBar_mem {s : State} {e x} (h : s.Mem r0) : (State.setBar s e x).Mem r0 := h

end Sys2Proof.Machine
end

