-- ==== Sys2Proof/Laws/MemoryOps.lean ====
section
/-!
SUPPORT. What the functions of Machine/Ops.lean leave alone (Memory.lean).
-/
namespace Sys2Proof.Machine

variable {r0 : List Host.Cell × List Host.Cell}

theorem State.pf_mem {s : State} {a hi lo v : Nat} (h_s : s.Mem r0) : (State.pf s a hi lo v).Mem r0 := by
  unfold State.pf
  with_reducible repeat' first
    | assumption
    | apply State.wr_mem

theorem State.wb_mem {s : State} {a i : Nat} {b : Bool} (h_s : s.Mem r0) : (State.wb s a i b).Mem r0 := by
  unfold State.wb
  with_reducible repeat' first
    | assumption
    | apply State.wr_mem

theorem State.incSat_mem {s : State} {a hi lo : Nat} (h_s : s.Mem r0) : (State.incSat s a hi lo).Mem r0 := by
  unfold State.incSat
  with_reducible repeat' first
    | assumption
    | apply State.pf_mem

theorem State.addSat_mem {s : State} {a n : Nat} (h_s : s.Mem r0) : (State.addSat s a n).Mem r0 := by
  unfold State.addSat
  with_reducible repeat' first
    | assumption
    | apply State.wr_mem

theorem State.wr64_mem {s : State} {lo v : Nat} (h_s : s.Mem r0) : (State.wr64 s lo v).Mem r0 := by
  unfold State.wr64
  with_reducible repeat' first
    | assumption
    | apply State.wr_mem

theorem State.setPort_mem {s : State} {p : Nat} {x : Port} (h_s : s.Mem r0) : (State.setPort s p x).Mem r0 := by
  unfold State.setPort
  try dsimp only [State.take]
  with_reducible repeat' first
    | assumption
    | simp only [State.mem_mk]

theorem State.setLb_mem {s : State} {k : Nat} {x : LinkBar} (h_s : s.Mem r0) : (State.setLb s k x).Mem r0 := by
  unfold State.setLb
  try dsimp only [State.take]
  with_reducible repeat' first
    | assumption
    | simp only [State.mem_mk]

theorem State.setTnState_mem {s : State} {t v : Nat} (h_s : s.Mem r0) : (State.setTnState s t v).Mem r0 := by
  unfold State.setTnState
  with_reducible repeat' first
    | assumption
    | apply State.pf_mem

theorem State.chargeHbm_mem {s : State} {t : Nat} {n : Nat} (h_s : s.Mem r0) : (State.chargeHbm s t n).Mem r0 := by
  unfold State.chargeHbm
  try dsimp only [State.take]
  with_reducible repeat' first
    | assumption
    | apply State.setTenant_mem
    | apply State.mem_foldl
    | (intro _ _ _; try dsimp only)
    | split
    | simp only [State.mem_mk]

theorem State.chargeLink_mem {s : State} {t : Nat} {n : Nat} (h_s : s.Mem r0) : (State.chargeLink s t n).Mem r0 := by
  unfold State.chargeLink
  try dsimp only [State.take]
  with_reducible repeat' first
    | assumption
    | apply State.setTenant_mem
    | apply State.mem_foldl
    | (intro _ _ _; try dsimp only)
    | split
    | simp only [State.mem_mk]

theorem State.chargeTime_mem {s : State} {t : Nat} {ns : Nat} (h_s : s.Mem r0) : (State.chargeTime s t ns).Mem r0 := by
  unfold State.chargeTime
  try dsimp only [State.take]
  with_reducible repeat' first
    | assumption
    | apply State.setTenant_mem
    | apply State.mem_foldl
    | (intro _ _ _; try dsimp only)
    | split
    | simp only [State.mem_mk]

theorem State.take_mem {s : State} (h_s : s.Mem r0) : (State.take s).2.Mem r0 := by
  unfold State.take
  try dsimp only [State.take]
  with_reducible repeat' first
    | assumption
    | apply State.mem_foldl
    | (intro _ _ _; try dsimp only)
    | split
    | simp only [State.mem_mk]

theorem State.take_mem_eq {s : State} {y : State} {x0_} (h_s : s.Mem r0) (he : State.take s = (x0_, y)) : y.Mem r0 := by
  have h := State.take_mem (r0 := r0) (s := s) h_s
  rw [he] at h
  exact h

theorem State.takeMany_mem {s : State} {n : Nat} (h_s : s.Mem r0) : (State.takeMany s n).Mem r0 := by
  unfold State.takeMany
  try dsimp only [State.take]
  with_reducible repeat' first
    | assumption
    | apply State.mem_foldl
    | (intro _ _ _; try dsimp only)
    | split
    | simp only [State.mem_mk]

theorem State.sendMsix_mem {s : State} {f v : Nat} (h_s : s.Mem r0) : (State.sendMsix s f v).Mem r0 := by
  unfold State.sendMsix
  try dsimp only [State.take]
  with_reducible repeat' first
    | assumption
    | simp only [State.mem_mk]

theorem State.sendTenantBits_mem {s : State} {n : Nat} {pend : Word} {k : Nat} (h_s : s.Mem r0) : (s.sendTenantBits n pend k).Mem r0 := by
  induction k with
  | zero => exact h_s
  | succ k ih =>
    unfold State.sendTenantBits
    dsimp only
    split
    · exact State.sendMsix_mem ih
    · exact ih

theorem State.sendRoute_mem {s : State} {src : Nat} (h_s : s.Mem r0) : (State.sendRoute s src).Mem r0 := by
  unfold State.sendRoute
  try dsimp only [State.take]
  with_reducible repeat' first
    | assumption
    | apply State.sendMsix_mem
    | split

theorem State.requestIrq_mem {s : State} {page : Nat} (h_s : s.Mem r0) : (State.requestIrq s page).Mem r0 := by
  unfold State.requestIrq
  try dsimp only [State.take]
  with_reducible repeat' first
    | assumption
    | apply State.sendTenantBits_mem
    | apply State.sendRoute_mem
    | split
    | simp only [State.mem_mk]

theorem State.raiseBits_mem {s : State} {page : Nat} {m : Word} (h_s : s.Mem r0) : (State.raiseBits s page m).Mem r0 := by
  unfold State.raiseBits
  try dsimp only [State.take]
  with_reducible repeat' first
    | assumption
    | apply State.wr_mem
    | apply State.requestIrq_mem
    | split

theorem State.raise_mem {s : State} {page bit : Nat} (h_s : s.Mem r0) : (State.raise s page bit).Mem r0 := by
  unfold State.raise
  with_reducible repeat' first
    | assumption
    | apply State.raiseBits_mem

theorem State.logPush_mem {s : State} {cls : Nat} {r : LogRec} (h_s : s.Mem r0) : (State.logPush s cls r).Mem r0 := h_s

theorem State.logEvent_mem {s : State} {page code cls info tenant : Nat} (h_s : s.Mem r0) : (State.logEvent s page code cls info tenant).Mem r0 := by
  unfold State.logEvent
  try dsimp only [State.take]
  with_reducible repeat' first
    | assumption
    | apply State.logPush_mem
    | split
    | simp only [State.mem_mk]

theorem State.logNamed_mem {s : State} {page ev cls info tenant : Nat} (h_s : s.Mem r0) : (State.logNamed s page ev cls info tenant).Mem r0 := by
  unfold State.logNamed
  with_reducible repeat' first
    | assumption
    | apply State.logEvent_mem

theorem State.recordFault_mem {s : State} {page code info : Nat} (h_s : s.Mem r0) : (State.recordFault s page code info).Mem r0 := by
  unfold State.recordFault
  try dsimp only [State.take]
  with_reducible repeat' first
    | assumption
    | apply State.wr_mem
    | apply State.pf_mem
    | apply State.incSat_mem
    | apply State.raise_mem
    | split

theorem State.hwNote_mem {s : State} {e : Nat} {hw : HwFault} (h_s : s.Mem r0) : (State.hwNote s e hw).Mem r0 := by
  unfold State.hwNote
  try dsimp only [State.take]
  with_reducible repeat' first
    | assumption
    | apply State.wr_mem
    | apply State.pf_mem
    | apply State.incSat_mem
    | apply State.addSat_mem
    | apply State.wr64_mem
    | split
    | simp only [State.mem_mk]

theorem State.hbmNote_mem {s : State} {hw : HwFault} (h_s : s.Mem r0) : (State.hbmNote s hw).Mem r0 := by
  unfold State.hbmNote
  try dsimp only [State.take]
  with_reducible repeat' first
    | assumption
    | apply State.hwNote_mem
    | apply State.mem_foldl
    | (intro _ _ _; try dsimp only)
    | split
    | simp only [State.mem_mk]

theorem State.setLstate_mem {s : State} {p v : Nat} (h_s : s.Mem r0) : (State.setLstate s p v).Mem r0 := by
  unfold State.setLstate
  with_reducible repeat' first
    | assumption
    | apply State.pf_mem

theorem State.sendSb_mem {s : State} {w : SbWord} {p : Nat} (h_s : s.Mem r0) : (State.sendSb s w p).Mem r0 := by
  unfold State.sendSb
  try dsimp only [State.take]
  with_reducible repeat' first
    | assumption
    | apply State.setPort_mem
    | simp only [State.mem_mk]

theorem State.flood_mem {s : State} {w : SbWord} {except : Nat} (h_s : s.Mem r0) : (State.flood s w except).Mem r0 := by
  unfold State.flood
  with_reducible repeat' first
    | assumption
    | apply State.sendSb_mem
    | apply State.mem_foldl
    | (intro _ _ _; try dsimp only)

end Sys2Proof.Machine
end

