-- ==== Sys2Proof/Laws/MemoryRoute.lean ====
section
/-!
SUPPORT. What the functions of Machine/Route.lean leave alone (Memory.lean).
-/
namespace Sys2Proof.Machine

variable {r0 : List Host.Cell × List Host.Cell}

theorem State.giveBack_mem {s : State} {p : Nat} {vc : Nat} {n : Nat} (h_s : s.Mem r0) : (State.giveBack s p vc n).Mem r0 := by
  unfold State.giveBack
  try dsimp only [State.take]
  with_reducible repeat' first
    | assumption
    | apply State.setPort_mem
    | apply State.mem_foldl
    | (intro _ _ _; try dsimp only)
    | split
    | simp only [State.mem_mk]

theorem State.pushTx_mem {s : State} {p : Nat} {t : TxPkt} (h_s : s.Mem r0) : (State.pushTx s p t).Mem r0 := by
  unfold State.pushTx
  try dsimp only [State.take]
  with_reducible repeat' first
    | assumption
    | apply State.setPort_mem
    | apply State.mem_foldl
    | (intro _ _ _; try dsimp only)
    | split
    | simp only [State.mem_mk]

theorem State.enqueue_mem {s : State} {p : Nat} {vc : Nat} {k : Packet} (h_s : s.Mem r0) : (State.enqueue s p vc k).Mem r0 := by
  unfold State.enqueue
  try dsimp only [State.take]
  with_reducible repeat' first
    | assumption
    | apply State.pushTx_mem
    | apply State.mem_foldl
    | (intro _ _ _; try dsimp only)
    | split
    | simp only [State.mem_mk]

end Sys2Proof.Machine
end

