-- ==== Sys2Proof/Laws/MemoryPick.lean ====
section
/-!
SUPPORT. What the functions of Machine/Pick.lean leave alone (Memory.lean).
-/
namespace Sys2Proof.Machine

variable {r0 : List Host.Cell × List Host.Cell}

theorem State.refill_mem {s : State} {qs : List Nat} (h_s : s.Mem r0) : (State.refill s qs).Mem r0 := by
  unfold State.refill
  try dsimp only [State.take]
  with_reducible repeat' first
    | assumption
    | apply State.setQueue_mem
    | apply State.mem_foldl
    | (intro _ _ _; try dsimp only)
    | split
    | simp only [State.mem_mk]

theorem State.choose_mem_eq {s y : State} {rr cands q c} (h_s : s.Mem r0) (e : State.choose s rr cands = some (q, c, y)) : y.Mem r0 := by
  unfold State.choose at e
  split at e
  · cases e
  · dsimp only at e
    split at e
    · cases e
    · cases e
      exact State.refill_mem h_s

theorem State.takeHead_mem {s : State} {q : Nat} (h_s : s.Mem r0) : (State.takeHead s q).Mem r0 := by
  unfold State.takeHead
  try dsimp only [State.take]
  with_reducible repeat' first
    | assumption
    | apply State.setQueue_mem
    | split
    | simp only [State.mem_mk]

theorem State.dropWaitOn_mem {s : State} {e : Nat} {q : Nat} (h_s : s.Mem r0) : (State.dropWaitOn s e q).Mem r0 := by
  unfold State.dropWaitOn
  try dsimp only [State.take]
  with_reducible repeat' first
    | assumption
    | apply State.setQueue_mem
    | apply State.wb_mem
    | apply State.mem_foldl
    | (intro _ _ _; try dsimp only)
    | split
    | simp only [State.mem_mk]

theorem State.clearTree_mem {s : State} {e : Nat} {t : Nat} (h_s : s.Mem r0) : (State.clearTree s e t).Mem r0 := by
  unfold State.clearTree
  try dsimp only [State.take]
  with_reducible repeat' first
    | assumption
    | apply State.dropWaitOn_mem
    | apply State.mem_foldl
    | (intro _ _ _; try dsimp only)
    | split
    | simp only [State.mem_mk]

theorem State.switchTo_mem {s : State} {e t : Nat} (h_s : s.Mem r0) : (State.switchTo s e t).Mem r0 := by
  unfold State.switchTo
  try dsimp only [State.take]
  with_reducible repeat' first
    | assumption
    | apply State.wr_mem
    | apply State.setEngine_mem
    | apply State.clearTree_mem
    | apply State.chargeTime_mem
    | split
    | simp only [State.mem_mk]

theorem State.cutDeficit_mem {s : State} {q : Nat} (h_s : s.Mem r0) : (State.cutDeficit s q).Mem r0 := by
  unfold State.cutDeficit
  try dsimp only [State.take]
  with_reducible repeat' first
    | assumption
    | apply State.setQueue_mem
    | apply State.mem_foldl
    | (intro _ _ _; try dsimp only)
    | split
    | simp only [State.mem_mk]

theorem State.boundary_mem {s : State} {e : Nat} (h_s : s.Mem r0) : (State.boundary s e).Mem r0 := by
  unfold State.boundary
  try dsimp only [State.take]
  with_reducible repeat' first
    | assumption
    | apply State.cutDeficit_mem
    | apply State.setEngine_mem
    | apply State.takeHead_mem
    | refine State.choose_mem_eq ?_ (by assumption)
    | apply State.switchTo_mem
    | apply State.mem_foldl
    | (intro _ _ _; try dsimp only)
    | split
    | simp only [State.mem_mk]

theorem State.copyBoundary_mem {s : State} {p : Nat} (h_s : s.Mem r0) : (State.copyBoundary s p).Mem r0 := by
  unfold State.copyBoundary
  try dsimp only [State.take]
  with_reducible repeat' first
    | assumption
    | apply State.cutDeficit_mem
    | apply State.takeHead_mem
    | refine State.choose_mem_eq ?_ (by assumption)
    | apply State.setPorter_mem
    | apply State.mem_foldl
    | (intro _ _ _; try dsimp only)
    | split
    | simp only [State.mem_mk]

theorem State.kick_mem {s : State} (h_s : s.Mem r0) : (State.kick s).Mem r0 := by
  unfold State.kick
  try dsimp only [State.take]
  with_reducible repeat' first
    | assumption
    | apply State.boundary_mem
    | apply State.copyBoundary_mem
    | apply State.mem_foldl
    | (intro _ _ _; try dsimp only)

end Sys2Proof.Machine
end

