-- ==== Sys2Proof/Laws/MemoryAbort.lean ====
section
/-!
SUPPORT. What the functions of Machine/Abort.lean leave alone (Memory.lean).
-/
namespace Sys2Proof.Machine

variable {r0 : List Host.Cell × List Host.Cell}

theorem State.raiseQueueDone_mem {s : State} {q : Nat} (h_s : s.Mem r0) : (State.raiseQueueDone s q).Mem r0 := by
  unfold State.raiseQueueDone
  with_reducible repeat' first
    | assumption
    | apply State.raise_mem

theorem State.retire_mem {s : State} {q : Nat} {seq : Word} (h_s : s.Mem r0) : (State.retire s q seq).Mem r0 := by
  unfold State.retire
  try dsimp only [State.take]
  with_reducible repeat' first
    | assumption
    | apply State.wr_mem
    | apply State.setQueue_mem
    | split
    | simp only [State.mem_mk]

theorem State.stopQueue_mem {s : State} {code q : Nat} (h_s : s.Mem r0) : (State.stopQueue s code q).Mem r0 := by
  unfold State.stopQueue
  try dsimp only [State.take]
  with_reducible repeat' first
    | assumption
    | apply State.wr_mem
    | apply State.setQueue_mem
    | apply State.pf_mem
    | apply State.wb_mem

theorem State.stopRuns_mem {s : State} {t : Nat} (h_s : s.Mem r0) : (State.stopRuns s t).Mem r0 := by
  unfold State.stopRuns
  try dsimp only [State.take]
  with_reducible repeat' first
    | assumption
    | apply State.setEngine_mem
    | apply State.setPorter_mem
    | apply State.mem_foldl
    | (intro _ _ _; try dsimp only)
    | split
    | simp only [State.mem_mk]

theorem State.cutSource_mem {s : State} {t : TxPkt} (h_s : s.Mem r0) : (State.cutSource s t).Mem r0 := by
  unfold State.cutSource
  try dsimp only [State.take]
  with_reducible repeat' first
    | assumption
    | apply State.setPort_mem
    | apply State.mem_foldl
    | (intro _ _ _; try dsimp only)
    | split
    | simp only [State.mem_mk]

theorem State.purge_mem {s : State} {t : Nat} {epoch : Nat} (h_s : s.Mem r0) : (State.purge s t epoch).Mem r0 := by
  unfold State.purge
  try dsimp only [State.take]
  with_reducible repeat' first
    | assumption
    | apply State.setPort_mem
    | apply State.cutSource_mem
    | apply State.mem_foldl
    | (intro _ _ _; try dsimp only)
    | split
    | simp only [State.mem_mk]

theorem State.clearTally_mem {s : State} {t : Nat} (h_s : s.Mem r0) : (State.clearTally s t).Mem r0 := h_s

theorem State.countDone_mem {s : State} {src : Nat} (h_s : s.Mem r0) : (State.countDone s src).Mem r0 := by
  unfold State.countDone
  try dsimp only [State.take]
  with_reducible repeat' first
    | assumption
    | apply State.wr64_mem
    | apply State.raise_mem
    | split

theorem State.reportDone_mem {s : State} {t : Nat} (h_s : s.Mem r0) : (State.reportDone s t).Mem r0 := by
  unfold State.reportDone
  try dsimp only [State.take]
  with_reducible repeat' first
    | assumption
    | apply State.sendSb_mem
    | apply State.countDone_mem
    | split
    | simp only [State.mem_mk]

theorem State.haltQueue_mem {s : State} {q : Nat} (h_s : s.Mem r0) : (State.haltQueue s q).Mem r0 := by
  unfold State.haltQueue
  try dsimp only [State.take]
  with_reducible repeat' first
    | assumption
    | apply State.setQueue_mem
    | apply State.wb_mem
    | apply State.mem_foldl
    | (intro _ _ _; try dsimp only)
    | split
    | simp only [State.mem_mk]

theorem State.dropPicked_mem {s : State} {t : Nat} (h_s : s.Mem r0) : (State.dropPicked s t).Mem r0 := by
  unfold State.dropPicked
  try dsimp only [State.take]
  with_reducible repeat' first
    | assumption
    | apply State.setEngine_mem
    | apply State.setPorter_mem
    | apply State.mem_foldl
    | (intro _ _ _; try dsimp only)
    | split
    | simp only [State.mem_mk]

theorem State.startRelease_mem {s : State} {t : Nat} (h_s : s.Mem r0) : (State.startRelease s t).Mem r0 := by
  unfold State.startRelease
  try dsimp only [State.take]
  with_reducible repeat' first
    | assumption
    | apply State.setTenant_mem
    | apply State.haltQueue_mem
    | apply State.dropPicked_mem
    | apply State.wr_mem
    | apply State.wb_mem
    | apply State.setTnState_mem
    | apply State.pf_mem
    | apply State.mem_foldl
    | (intro _ _ _; try dsimp only)
    | split
    | simp only [State.mem_mk]

theorem State.finishAbort_mem {s : State} {t : Nat} (h_s : s.Mem r0) : (State.finishAbort s t).Mem r0 := by
  unfold State.finishAbort
  try dsimp only [State.take]
  with_reducible repeat' first
    | assumption
    | apply State.setTnState_mem
    | apply State.reportDone_mem
    | apply State.startRelease_mem
    | split

end Sys2Proof.Machine
end

