-- ==== Sys2Proof/Laws/MemoryTally.lean ====
section
/-!
SUPPORT. What the functions of Machine/Tally.lean leave alone (Memory.lean).
-/
namespace Sys2Proof.Machine

variable {r0 : List Host.Cell × List Host.Cell}

theorem State.register_mem {s : State} {q : Nat} {w : WaitReg} (h_s : s.Mem r0) : (State.register s q w).Mem r0 := by
  unfold State.register
  try dsimp only [State.take]
  with_reducible repeat' first
    | assumption
    | apply State.setQueue_mem
    | apply State.wb_mem
    | simp only [State.mem_mk]

theorem State.setDp_mem {s : State} {d : Nat} {x : Datapath} (h_s : s.Mem r0) : (State.setDp s d x).Mem r0 := h_s

theorem State.setTh_mem {s : State} {c : Nat} {x : Thresher} (h_s : s.Mem r0) : (State.setTh s c x).Mem r0 := by
  unfold State.setTh
  try dsimp only [State.take]
  with_reducible repeat' first
    | assumption
    | simp only [State.mem_mk]

theorem State.roiRelease_mem {s : State} {n : Nat} (h_s : s.Mem r0) : (State.roiRelease s n).Mem r0 := by
  unfold State.roiRelease
  try dsimp only [State.take]
  with_reducible repeat' first
    | assumption
    | apply State.setTh_mem
    | apply State.mem_foldl
    | (intro _ _ _; try dsimp only)
    | split
    | simp only [State.mem_mk]

theorem State.mailboxRelease_mem {s : State} {b : BarId} (h_s : s.Mem r0) : (State.mailboxRelease s b).Mem r0 := by
  unfold State.mailboxRelease
  try dsimp only [State.take]
  with_reducible repeat' first
    | assumption
    | apply State.setDp_mem
    | apply State.roiRelease_mem
    | apply State.mem_foldl
    | (intro _ _ _; try dsimp only)
    | split
    | simp only [State.mem_mk]
    | dsimp only

theorem State.sendArrival_mem {s : State} {a : Arrival} (h_s : s.Mem r0) : (State.sendArrival s a).Mem r0 := by
  unfold State.sendArrival
  try dsimp only [State.take]
  with_reducible repeat' first
    | assumption
    | simp only [State.mem_mk]

theorem State.tallyErr_mem {s : State} {b : BarId} {bit : Nat} (h_s : s.Mem r0) : (State.tallyErr s b bit).Mem r0 := by
  unfold State.tallyErr
  try dsimp only [State.take]
  with_reducible repeat' first
    | assumption
    | apply State.pf_mem
    | apply State.wb_mem
    | split
    | simp only [State.mem_mk]

theorem State.tallyCfg_mem {s : State} {f : Func} {b : BarId} {part : Bool} {v : Word} {coll : Bool} (h_s : s.Mem r0) : (State.tallyCfg s f b part v coll).Mem r0 := by
  unfold State.tallyCfg
  try dsimp only [State.take]
  with_reducible repeat' first
    | assumption
    | apply State.wr_mem
    | apply State.tallyErr_mem
    | split
    | simp only [State.mem_mk]

end Sys2Proof.Machine
end

