-- ==== Sys2Proof/Laws/MemoryAccess.lean ====
section
/-!
SUPPORT. What the functions of Machine/Access.lean leave alone (Memory.lean).
-/
namespace Sys2Proof.Machine

variable {r0 : List Host.Cell × List Host.Cell}

theorem State.guarded_mem {s : State} {f : Func} {a : Nat} {k : State → State} (h_s : s.Mem r0) (h_k : ∀ s, s.Mem r0 → (k s).Mem r0) : (State.guarded s f a k).Mem r0 := by
  unfold State.guarded
  with_reducible repeat' first
    | assumption
    | (apply h_k)
    | split

theorem State.store_mem {s : State} {f : Func} {a : Nat} {v hwSet : Word} (h_s : s.Mem r0) : (State.store s f a v hwSet).Mem r0 := by
  unfold State.store
  try dsimp only [State.take]
  with_reducible repeat' first
    | assumption
    | apply State.wr_mem
    | split
    | simp only [State.mem_mk]

end Sys2Proof.Machine
end

