-- ==== Sys2Proof/Laws/MemoryGroups.lean ====
section
/-!
SUPPORT. What the functions of Machine/Groups.lean leave alone (Memory.lean).
-/
namespace Sys2Proof.Machine

variable {r0 : List Host.Cell × List Host.Cell}

theorem State.setAxis_mem {s : State} {a : Nat} {x : Axis} (h_s : s.Mem r0) : (State.setAxis s a x).Mem r0 := by
  unfold State.setAxis
  try dsimp only [State.take]
  with_reducible repeat' first
    | assumption
    | simp only [State.mem_mk]

theorem State.setEnc_mem {s : State} {n : Nat} {x : Enc} (h_s : s.Mem r0) : (State.setEnc s n x).Mem r0 := by
  unfold State.setEnc
  try dsimp only [State.take]
  with_reducible repeat' first
    | assumption
    | simp only [State.mem_mk]

theorem State.setAlink_mem {s : State} {g : Nat} {x : ALink} (h_s : s.Mem r0) : (State.setAlink s g x).Mem r0 := by
  unfold State.setAlink
  try dsimp only [State.take]
  with_reducible repeat' first
    | assumption
    | simp only [State.mem_mk]

theorem State.setAxState_mem {s : State} {a v : Nat} (h_s : s.Mem r0) : (State.setAxState s a v).Mem r0 := by
  unfold State.setAxState
  with_reducible repeat' first
    | assumption
    | apply State.pf_mem

theorem State.updPins_mem {s : State} (h_s : s.Mem r0) : (State.updPins s).Mem r0 := by
  unfold State.updPins
  try dsimp only [State.take]
  with_reducible repeat' first
    | assumption
    | apply State.pf_mem
    | apply State.mem_foldl
    | (intro _ _ _; try dsimp only)
    | split
    | simp only [State.mem_mk]

theorem State.setSto_mem {s : State} {g : Nat} {b : Bool} (h_s : s.Mem r0) : (State.setSto s g b).Mem r0 := by
  unfold State.setSto
  try dsimp only [State.take]
  with_reducible repeat' first
    | assumption
    | apply State.updPins_mem
    | split
    | simp only [State.mem_mk]
    | dsimp only

theorem State.setBrake_mem {s : State} {g : Nat} {b : Bool} (h_s : s.Mem r0) : (State.setBrake s g b).Mem r0 := by
  unfold State.setBrake
  try dsimp only [State.take]
  with_reducible repeat' first
    | assumption
    | apply State.updPins_mem
    | split
    | simp only [State.mem_mk]
    | dsimp only

theorem State.forceStoB_mem {s : State} {m : BitVec 12} (h_s : s.Mem r0) : (State.forceStoB s m).Mem r0 := by
  unfold State.forceStoB
  try dsimp only [State.take]
  with_reducible repeat' first
    | assumption
    | apply State.updPins_mem
    | simp only [State.mem_mk]
    | dsimp only

theorem State.forceAll_mem {s : State} (h_s : s.Mem r0) : (State.forceAll s).Mem r0 := by
  unfold State.forceAll
  try dsimp only [State.take]
  with_reducible repeat' first
    | assumption
    | apply State.updPins_mem
    | simp only [State.mem_mk]
    | dsimp only

theorem State.drvEvent_mem {s : State} {page code : Nat} (h_s : s.Mem r0) : (State.drvEvent s page code).Mem r0 := by
  unfold State.drvEvent
  try dsimp only [State.take]
  with_reducible repeat' first
    | assumption
    | apply State.logEvent_mem
    | apply State.recordFault_mem
    | split
    | simp only [State.mem_mk]

theorem State.showForm_mem {s : State} {g : Nat} (h_s : s.Mem r0) : (State.showForm s g).Mem r0 := by
  unfold State.showForm
  with_reducible repeat' first
    | assumption
    | apply State.pf_mem
    | apply State.mem_foldl
    | (intro _ _ _; try dsimp only)

theorem State.torqueOff_mem {s : State} {g : Nat} (h_s : s.Mem r0) : (State.torqueOff s g).Mem r0 := by
  unfold State.torqueOff
  try dsimp only [State.take]
  with_reducible repeat' first
    | assumption
    | apply State.wb_mem
    | apply State.setAxis_mem
    | apply State.setAxState_mem
    | apply State.setSto_mem
    | apply State.setBrake_mem
    | apply State.showForm_mem
    | apply State.mem_foldl
    | (intro _ _ _; try dsimp only)
    | simp only [State.mem_mk]

theorem State.startForm_mem {s : State} {a f : Nat} (h_s : s.Mem r0) : (State.startForm s a f).Mem r0 := by
  unfold State.startForm
  try dsimp only [State.take]
  with_reducible repeat' first
    | assumption
    | apply State.setAxis_mem
    | apply State.setAxState_mem
    | apply State.setBrake_mem
    | split
    | simp only [State.mem_mk]

theorem State.trigger_mem {s : State} {g want : Nat} {own : Nat → Bool} (h_s : s.Mem r0) : (State.trigger s g want own).Mem r0 := by
  unfold State.trigger
  try dsimp only [State.take]
  with_reducible repeat' first
    | assumption
    | apply State.showForm_mem
    | apply State.torqueOff_mem
    | apply State.startForm_mem
    | apply State.mem_foldl
    | (intro _ _ _; try dsimp only)
    | split

theorem State.endForm_mem {s : State} {p : Nat → Bool} {g : Nat} (h_s : s.Mem r0) : (State.endForm s p g).Mem r0 := by
  unfold State.endForm
  try dsimp only [State.take]
  with_reducible repeat' first
    | assumption
    | apply State.setAxis_mem
    | apply State.torqueOff_mem
    | apply State.mem_foldl
    | (intro _ _ _; try dsimp only)
    | split
    | simp only [State.mem_mk]

theorem State.slotEnd_mem {s : State} {i : Nat} (h_s : s.Mem r0) : (State.slotEnd s i).Mem r0 := by
  unfold State.slotEnd
  with_reducible repeat' first
    | assumption
    | apply State.wb_mem
    | split

theorem State.slotFresh_mem {s : State} {i : Nat} (h_s : s.Mem r0) : (State.slotFresh s i).Mem r0 := by
  unfold State.slotFresh
  try dsimp only [State.take]
  with_reducible repeat' first
    | assumption
    | apply State.wb_mem
    | apply State.slotEnd_mem
    | simp only [State.mem_mk]
    | dsimp only

theorem State.wardenFresh_mem {s : State} {ty target : Nat} (h_s : s.Mem r0) : (State.wardenFresh s ty target).Mem r0 := by
  unfold State.wardenFresh
  with_reducible repeat' first
    | assumption
    | apply State.slotFresh_mem
    | apply State.mem_foldl
    | (intro _ _ _; try dsimp only)
    | split

theorem State.wardenExpired_mem {s : State} {dv : Nat} (h_s : s.Mem r0) : (State.wardenExpired s dv).Mem r0 := by
  unfold State.wardenExpired
  with_reducible repeat' first
    | assumption
    | apply State.wb_mem
    | apply State.mem_foldl
    | (intro _ _ _; try dsimp only)
    | split

theorem State.srcLost_mem {s : State} {g : Nat} (h_s : s.Mem r0) : (State.srcLost s g).Mem r0 := by
  unfold State.srcLost
  try dsimp only [State.take]
  with_reducible repeat' first
    | assumption
    | apply State.pf_mem
    | apply State.raise_mem
    | apply State.logNamed_mem
    | apply State.trigger_mem
    | apply State.mem_foldl
    | (intro _ _ _; try dsimp only)
    | split
    | simp only [State.mem_mk]

theorem State.stoFbErr_mem {s : State} {g : Nat} (h_s : s.Mem r0) : (State.stoFbErr s g).Mem r0 := by
  unfold State.stoFbErr
  with_reducible repeat' first
    | assumption
    | apply State.forceStoB_mem
    | apply State.drvEvent_mem
    | apply State.torqueOff_mem

theorem State.dpFallback_mem {s : State} {d : Nat} (h_s : s.Mem r0) : (State.dpFallback s d).Mem r0 := by
  unfold State.dpFallback
  with_reducible repeat' first
    | assumption
    | apply State.trigger_mem
    | apply State.mem_foldl
    | (intro _ _ _; try dsimp only)

end Sys2Proof.Machine
end

