-- ==== Sys2Proof/Laws/MemoryMilepost.lean ====
section
/-!
SUPPORT. What the functions of Machine/Milepost.lean leave alone (Memory.lean).
-/
namespace Sys2Proof.Machine

variable {r0 : List Host.Cell × List Host.Cell}

theorem State.setGen_mem {s : State} {g : Nat} {x : Gen} (h_s : s.Mem r0) : (State.setGen s g x).Mem r0 := by
  unfold State.setGen
  try dsimp only [State.take]
  with_reducible repeat' first
    | assumption
    | simp only [State.mem_mk]

theorem State.setWbEntry_mem {s : State} {e : Nat} {x : WbEntry} (h_s : s.Mem r0) : (State.setWbEntry s e x).Mem r0 := by
  unfold State.setWbEntry
  try dsimp only [State.take]
  with_reducible repeat' first
    | assumption
    | simp only [State.mem_mk]

theorem State.rearm_mem {s : State} {g : Nat} (h_s : s.Mem r0) : (State.rearm s g).Mem r0 := by
  unfold State.rearm
  with_reducible repeat' first
    | assumption
    | apply State.setWbEntry_mem
    | apply State.mem_foldl
    | (intro _ _ _; try dsimp only)
    | split

theorem State.markLate_mem {s : State} {e : Nat} (h_s : s.Mem r0) : (State.markLate s e).Mem r0 := by
  unfold State.markLate
  try dsimp only [State.take]
  with_reducible repeat' first
    | assumption
    | apply State.wb_mem
    | apply State.addSat_mem
    | apply State.raise_mem
    | apply State.logNamed_mem

theorem State.pushDue_mem {s : State} {g e : Nat} {late : Bool} (h_s : s.Mem r0) : (State.pushDue s g e late).Mem r0 := by
  unfold State.pushDue
  try dsimp only [State.take]
  with_reducible repeat' first
    | assumption
    | apply State.markLate_mem
    | split
    | simp only [State.mem_mk]

theorem State.moveEntries_mem {s : State} {g m a b : Nat} {quiet : Bool} (h_s : s.Mem r0) : (State.moveEntries s g m a b quiet).1.Mem r0 := by
  unfold State.moveEntries
  dsimp only
  refine State.mem_foldl_fst h_s fun t x h => ?_
  split
  · exact State.setWbEntry_mem h
  · exact h

theorem State.moveEntries_mem_eq {s y : State} {g m a b : Nat} {quiet : Bool} {x} (h_s : s.Mem r0) (he : State.moveEntries s g m a b quiet = (y, x)) :
    y.Mem r0 := by
  have h := State.moveEntries_mem (r0 := r0) (g := g) (m := m) (a := a) (b := b) (quiet := quiet) h_s
  rw [he] at h
  exact h

theorem State.showMove_mem {s : State} {g b : Nat} {far : Int} (h_s : s.Mem r0) : (State.showMove s g b far).Mem r0 := by
  unfold State.showMove
  try dsimp only [State.take]
  with_reducible repeat' first
    | assumption
    | apply State.wr_mem
    | apply State.wb_mem
    | split

theorem State.pgMove_mem {s : State} {g : Nat} {a : Nat} {b : Nat} {v : Move} (h_s : s.Mem r0) : (State.pgMove s g a b v).Mem r0 := by
  unfold State.pgMove
  try dsimp only [State.take]
  with_reducible repeat' first
    | assumption
    | apply State.moveEntries_mem
    | refine State.moveEntries_mem_eq ?_ (by assumption)
    | apply State.logNamed_mem
    | apply State.showMove_mem
    | apply State.raise_mem
    | apply State.wb_mem
    | apply State.pushDue_mem
    | apply State.rearm_mem
    | apply State.mem_foldl
    | (intro _ _ _; try dsimp only)
    | split
    | simp only [State.mem_mk]

theorem State.moveTo_mem {s : State} {g : Nat} {x : Gen} {v : Move} (h_s : s.Mem r0) : (State.moveTo s g x v).Mem r0 := by
  unfold State.moveTo
  try dsimp only [State.take]
  with_reducible repeat' first
    | assumption
    | apply State.setGen_mem
    | apply State.pgMove_mem
    | apply State.mem_foldl
    | (intro _ _ _; try dsimp only)
    | split
    | simp only [State.mem_mk]

theorem State.startGen_mem {s : State} {g : Nat} (h_s : s.Mem r0) : (State.startGen s g).Mem r0 := by
  unfold State.startGen
  with_reducible repeat' first
    | assumption
    | apply State.wr_mem
    | apply State.pf_mem
    | apply State.rearm_mem

theorem State.shaftMove_mem {s : State} {n : Nat} {c : Int} (h_s : s.Mem r0) : (State.shaftMove s n c).Mem r0 := by
  unfold State.shaftMove
  try dsimp only [State.take]
  with_reducible repeat' first
    | assumption
    | apply State.moveTo_mem
    | apply State.mem_foldl
    | (intro _ _ _; try dsimp only)
    | split
    | simp only [State.mem_mk]

theorem State.shaftLost_mem {s : State} {n : Nat} (h_s : s.Mem r0) : (State.shaftLost s n).Mem r0 := by
  unfold State.shaftLost
  with_reducible repeat' first
    | assumption
    | apply State.srcLost_mem
    | apply State.mem_foldl
    | (intro _ _ _; try dsimp only)

theorem State.tickGen_mem {s : State} {g : Nat} {ns : Nat} (h_s : s.Mem r0) : (State.tickGen s g ns).Mem r0 := by
  unfold State.tickGen
  try dsimp only [State.take]
  with_reducible repeat' first
    | assumption
    | apply State.moveTo_mem
    | apply State.mem_foldl
    | (intro _ _ _; try dsimp only)
    | split
    | simp only [State.mem_mk]

theorem State.tickMile_mem {s : State} (h_s : s.Mem r0) : (State.tickMile s).Mem r0 := by
  unfold State.tickMile
  try dsimp only [State.take]
  with_reducible repeat' first
    | assumption
    | apply State.tickGen_mem
    | apply State.mem_foldl
    | (intro _ _ _; try dsimp only)
    | simp only [State.mem_mk]

theorem State.applyChange_mem {s : State} {c : Change} (h_s : s.Mem r0) : (State.applyChange s c).Mem r0 := by
  unfold State.applyChange
  try dsimp only [State.take]
  with_reducible repeat' first
    | assumption
    | apply State.moveTo_mem
    | apply State.setGen_mem
    | apply State.mem_foldl
    | (intro _ _ _; try dsimp only)
    | split
    | simp only [State.mem_mk]

theorem execTimebaseChange_mem {s : State} (h_s : s.Mem r0) : KeepsMem r0 (execTimebaseChange s) := by
  unfold execTimebaseChange
  try dsimp only [State.take]
  with_reducible repeat' first
    | assumption
    | apply KeepsMem.next
    | apply State.applyChange_mem
    | split
    | simp only [State.mem_mk]
    | dsimp only

theorem State.addChange_mem {s : State} {c : Change} (h_s : s.Mem r0) : (State.addChange s c).Mem r0 := by
  unfold State.addChange
  try dsimp only [State.take]
  with_reducible repeat' first
    | assumption
    | simp only [State.mem_mk]

theorem State.dropEntries_mem {s : State} {g : Nat} (h_s : s.Mem r0) : (State.dropEntries s g).Mem r0 := by
  unfold State.dropEntries
  try dsimp only [State.take]
  with_reducible repeat' first
    | assumption
    | apply State.pf_mem
    | apply State.wb_mem
    | apply State.setWbEntry_mem
    | apply State.mem_foldl
    | (intro _ _ _; try dsimp only)
    | split
    | simp only [State.mem_mk]

theorem State.pgStart_mem {s : State} {g : Nat} (h_s : s.Mem r0) : (State.pgStart s g).Mem r0 := by
  unfold State.pgStart
  try dsimp only [State.take]
  with_reducible repeat' first
    | assumption
    | apply State.wr_mem
    | apply State.pf_mem
    | apply State.wb_mem
    | apply State.srcLost_mem
    | apply State.setGen_mem
    | apply State.startGen_mem
    | apply State.dropEntries_mem
    | split
    | simp only [State.mem_mk]

theorem State.wrPgCfg_mem {s : State} {f : Func} {g : Nat} {v : Word} (h_s : s.Mem r0) : (State.wrPgCfg s f g v).Mem r0 := by
  unfold State.wrPgCfg
  try dsimp only [State.take]
  with_reducible repeat' first
    | assumption
    | apply State.pf_mem
    | apply State.store_mem
    | apply State.pgStart_mem
    | split

theorem State.wrPgParam_mem {s : State} {f : Func} {g : Nat} {v : Word} (h_s : s.Mem r0) : (State.wrPgParam s f g v).Mem r0 := by
  unfold State.wrPgParam
  try dsimp only [State.take]
  with_reducible repeat' first
    | assumption
    | apply State.wr_mem
    | apply State.wb_mem
    | apply State.store_mem
    | apply State.setGen_mem
    | apply State.addChange_mem
    | split
    | simp only [State.mem_mk]

theorem State.wrPgFrac_mem {s : State} {f : Func} {g : Nat} {v : Word} (h_s : s.Mem r0) : (State.wrPgFrac s f g v).Mem r0 := by
  unfold State.wrPgFrac
  try dsimp only [State.take]
  with_reducible repeat' first
    | assumption
    | apply State.wb_mem
    | apply State.store_mem
    | apply State.setGen_mem
    | split
    | simp only [State.mem_mk]

theorem State.wrPgOffset_mem {s : State} {f : Func} {g : Nat} {v : Word} (h_s : s.Mem r0) : (State.wrPgOffset s f g v).Mem r0 := by
  unfold State.wrPgOffset
  with_reducible repeat' first
    | assumption
    | apply State.wb_mem
    | apply State.store_mem
    | split

theorem State.wrPgAdj_mem {s : State} {g : Nat} {v : Word} (h_s : s.Mem r0) : (State.wrPgAdj s g v).Mem r0 := by
  unfold State.wrPgAdj
  try dsimp only [State.take]
  with_reducible repeat' first
    | assumption
    | apply State.wb_mem
    | apply State.addChange_mem
    | split

theorem State.zcEdge_mem {s : State} {g t held : Nat} (h_s : s.Mem r0) : (State.zcEdge s g t held).Mem r0 := by
  unfold State.zcEdge
  try dsimp only [State.take]
  with_reducible repeat' first
    | assumption
    | apply State.pf_mem
    | apply State.incSat_mem
    | apply State.setGen_mem
    | apply State.startGen_mem
    | split
    | simp only [State.mem_mk]

theorem execZcEdge_mem {falling : Bool} {held : Nat} {s : State} (h_s : s.Mem r0) : KeepsMem r0 (execZcEdge falling held s) := by
  unfold execZcEdge
  with_reducible repeat' first
    | assumption
    | apply KeepsMem.next
    | apply State.zcEdge_mem
    | apply State.mem_foldl
    | (intro _ _ _; try dsimp only)
    | split

theorem execZcTimeout_mem {g : Fin 4} {edge : Bool} {s : State} (h_s : s.Mem r0) : KeepsMem r0 (execZcTimeout g edge s) := by
  unfold execZcTimeout
  with_reducible repeat' first
    | assumption
    | apply KeepsMem.next
    | apply State.pf_mem
    | apply State.incSat_mem
    | split

theorem execSrcLost_mem {g : Fin 4} {s : State} (h_s : s.Mem r0) : KeepsMem r0 (execSrcLost g s) := by
  unfold execSrcLost
  with_reducible repeat' first
    | assumption
    | apply KeepsMem.next
    | apply State.srcLost_mem
    | split

theorem State.wrAddendHi_mem {s : State} {f : Func} {v : Word} (h_s : s.Mem r0) : (State.wrAddendHi s f v).Mem r0 := by
  unfold State.wrAddendHi
  try dsimp only [State.take]
  with_reducible repeat' first
    | assumption
    | apply State.wr_mem
    | apply State.wb_mem
    | apply State.raise_mem
    | apply State.logNamed_mem
    | apply State.store_mem
    | apply State.addChange_mem
    | split

theorem State.wrTsCtl_mem {s : State} {f : Func} {v : Word} (h_s : s.Mem r0) : (State.wrTsCtl s f v).Mem r0 := by
  unfold State.wrTsCtl
  try dsimp only [State.take]
  with_reducible repeat' first
    | assumption
    | apply State.wb_mem
    | apply State.raise_mem
    | apply State.logNamed_mem
    | apply State.addChange_mem
    | split

theorem execAnnounce_mem {port : Fin 4} {gmLo gmHi : Word} {s : State} (h_s : s.Mem r0) : KeepsMem r0 (execAnnounce port gmLo gmHi s) := by
  unfold execAnnounce
  try dsimp only [State.take]
  with_reducible repeat' first
    | assumption
    | apply KeepsMem.next
    | apply State.wr_mem
    | apply State.wb_mem
    | apply State.raise_mem
    | apply State.logNamed_mem
    | split

theorem execPdelayReq_mem {port : Fin 4} {seqId : BitVec 16} {linkDelay : Word} {s : State} (h_s : s.Mem r0) : KeepsMem r0 (execPdelayReq port seqId linkDelay s) := by
  unfold execPdelayReq
  try dsimp only [State.take]
  with_reducible repeat' first
    | assumption
    | apply KeepsMem.next
    | apply State.wr_mem
    | split
    | simp only [State.mem_mk]

theorem State.pushStamp_mem {s : State} {port : Nat} {x : TxStamp} (h_s : s.Mem r0) : (State.pushStamp s port x).Mem r0 := by
  unfold State.pushStamp
  try dsimp only [State.take]
  with_reducible repeat' first
    | assumption
    | apply State.incSat_mem
    | apply State.logNamed_mem
    | apply State.raise_mem
    | apply State.mem_foldl
    | (intro _ _ _; try dsimp only)
    | split
    | simp only [State.mem_mk]

theorem State.readTsNs_mem {s : State} (h_s : s.Mem r0) : (State.readTsNs s).Mem r0 := by
  unfold State.readTsNs
  try dsimp only [State.take]
  with_reducible repeat' first
    | assumption
    | apply State.wr_mem
    | simp only [State.mem_mk]

theorem State.readTxts_mem {s : State} {port : Nat} (h_s : s.Mem r0) : (State.readTxts s port).Mem r0 := by
  unfold State.readTxts
  try dsimp only [State.take]
  with_reducible repeat' first
    | assumption
    | apply State.wr_mem
    | split
    | simp only [State.mem_mk]

theorem execPgEnable_mem {f : Func} {g : Fin 4} {v : Word} {s : State} (h_s : s.Mem r0) : KeepsMem r0 (execPgEnable f g v s) := by
  unfold execPgEnable
  with_reducible repeat' first
    | assumption
    | apply KeepsMem.next
    | apply State.guarded_mem
    | apply State.wrPgCfg_mem
    | (intro _ _; try dsimp only)

theorem execKWrite_mem {f : Func} {g : Fin 4} {v : Word} {s : State} (h_s : s.Mem r0) : KeepsMem r0 (execKWrite f g v s) := by
  unfold execKWrite
  with_reducible repeat' first
    | assumption
    | apply KeepsMem.next
    | apply State.guarded_mem
    | apply State.wrPgParam_mem
    | (intro _ _; try dsimp only)

theorem execPgAdj_mem {f : Func} {g : Fin 4} {v : Word} {s : State} (h_s : s.Mem r0) : KeepsMem r0 (execPgAdj f g v s) := by
  unfold execPgAdj
  with_reducible repeat' first
    | assumption
    | apply KeepsMem.next
    | apply State.guarded_mem
    | apply State.wrPgAdj_mem
    | (intro _ _; try dsimp only)

theorem execAddendWrite_mem {f : Func} {v : Word} {s : State} (h_s : s.Mem r0) : KeepsMem r0 (execAddendWrite f v s) := by
  unfold execAddendWrite
  with_reducible repeat' first
    | assumption
    | apply KeepsMem.next
    | apply State.guarded_mem
    | apply State.wrAddendHi_mem
    | (intro _ _; try dsimp only)

theorem execSet_mem {f : Func} {v : Word} {s : State} (h_s : s.Mem r0) : KeepsMem r0 (execSet f v s) := by
  unfold execSet
  with_reducible repeat' first
    | assumption
    | apply KeepsMem.next
    | apply State.guarded_mem
    | apply State.wrTsCtl_mem
    | (intro _ _; try dsimp only)

theorem execStep_mem {f : Func} {v : Word} {s : State} (h_s : s.Mem r0) : KeepsMem r0 (execStep f v s) := by
  unfold execStep
  with_reducible repeat' first
    | assumption
    | apply KeepsMem.next
    | apply State.guarded_mem
    | apply State.wrTsCtl_mem
    | (intro _ _; try dsimp only)

theorem execTsNsRead_mem {f : Func} {s : State} (h_s : s.Mem r0) : KeepsMem r0 (execTsNsRead f s) := by
  unfold execTsNsRead
  try dsimp only [State.take]
  with_reducible repeat' first
    | assumption
    | apply KeepsMem.next
    | apply State.readTsNs_mem
    | split
    | simp only [State.mem_mk]

theorem execTxtsInfoRead_mem {f : Func} {port : Fin 4} {s : State} (h_s : s.Mem r0) : KeepsMem r0 (execTxtsInfoRead f port s) := by
  unfold execTxtsInfoRead
  try dsimp only [State.take]
  with_reducible repeat' first
    | assumption
    | apply KeepsMem.next
    | apply State.readTxts_mem
    | split
    | simp only [State.mem_mk]

end Sys2Proof.Machine
end

