-- ==== Sys2Proof/Laws/MemoryEncoder.lean ====
section
/-!
SUPPORT. What the functions of Machine/Encoder.lean leave alone (Memory.lean).
-/
namespace Sys2Proof.Machine

variable {r0 : List Host.Cell × List Host.Cell}

theorem State.showPos_mem {s : State} {n : Nat} {count : Int} (h_s : s.Mem r0) : (State.showPos s n count).Mem r0 := by
  unfold State.showPos
  try dsimp only [State.take]
  with_reducible repeat' first
    | assumption
    | apply State.wr_mem
    | apply State.mem_foldl
    | (intro _ _ _; try dsimp only)
    | split
    | simp only [State.mem_mk]

theorem State.setPos_mem {s : State} {n : Nat} {count : Int} (h_s : s.Mem r0) : (State.setPos s n count).Mem r0 := by
  unfold State.setPos
  try dsimp only [State.take]
  with_reducible repeat' first
    | assumption
    | apply State.shaftMove_mem
    | apply State.showPos_mem
    | apply State.mem_foldl
    | (intro _ _ _; try dsimp only)
    | split
    | simp only [State.mem_mk]

theorem State.axisLost_mem {s : State} {a : Nat} (h_s : s.Mem r0) : (State.axisLost s a).Mem r0 := by
  unfold State.axisLost
  try dsimp only [State.take]
  with_reducible repeat' first
    | assumption
    | apply State.wb_mem
    | apply State.drvEvent_mem
    | apply State.trigger_mem
    | split

theorem State.encLost_mem {s : State} {n : Nat} (h_s : s.Mem r0) : (State.encLost s n).Mem r0 := by
  unfold State.encLost
  with_reducible repeat' first
    | assumption
    | apply State.wb_mem
    | apply State.shaftLost_mem
    | apply State.axisLost_mem

theorem State.signalFault_mem {s : State} {n : Nat} (h_s : s.Mem r0) : (State.signalFault s n).Mem r0 := by
  unfold State.signalFault
  with_reducible repeat' first
    | assumption
    | apply State.wb_mem
    | apply State.drvEvent_mem
    | apply State.encLost_mem

theorem State.showSpeed_mem {s : State} {n t : Nat} (h_s : s.Mem r0) : (State.showSpeed s n t).Mem r0 := by
  unfold State.showSpeed
  with_reducible repeat' first
    | assumption
    | apply State.wr_mem

theorem State.noSpeed_mem {s : State} {n : Nat} (h_s : s.Mem r0) : (State.noSpeed s n).Mem r0 := by
  unfold State.noSpeed
  with_reducible repeat' first
    | assumption
    | apply State.wr_mem
    | apply State.wb_mem

theorem State.countEdge_mem {s : State} {n : Nat} {back : Bool} (h_s : s.Mem r0) : (State.countEdge s n back).Mem r0 := by
  unfold State.countEdge
  try dsimp only [State.take]
  with_reducible repeat' first
    | assumption
    | apply State.wr_mem
    | apply State.wb_mem
    | apply State.setEnc_mem
    | apply State.setPos_mem
    | apply State.showSpeed_mem
    | apply State.noSpeed_mem
    | split
    | simp only [State.mem_mk]

theorem State.illegalEdge_mem {s : State} {n : Nat} (h_s : s.Mem r0) : (State.illegalEdge s n).Mem r0 := by
  unfold State.illegalEdge
  try dsimp only [State.take]
  with_reducible repeat' first
    | assumption
    | apply State.incSat_mem
    | apply State.setEnc_mem
    | apply State.signalFault_mem
    | apply State.noSpeed_mem
    | split
    | simp only [State.mem_mk]

theorem execEncoderEdge_mem {n : Fin 48} {a b : Bool} {s : State} (h_s : s.Mem r0) : KeepsMem r0 (execEncoderEdge n a b s) := by
  unfold execEncoderEdge
  try dsimp only [State.take]
  with_reducible repeat' first
    | assumption
    | apply KeepsMem.next
    | apply State.setEnc_mem
    | apply State.countEdge_mem
    | apply State.illegalEdge_mem
    | split
    | simp only [State.mem_mk]

theorem execEncoderIndex_mem {n : Fin 48} {s : State} (h_s : s.Mem r0) : KeepsMem r0 (execEncoderIndex n s) := by
  unfold execEncoderIndex
  try dsimp only [State.take]
  with_reducible repeat' first
    | assumption
    | apply KeepsMem.next
    | apply State.wb_mem
    | apply State.setEnc_mem
    | apply State.signalFault_mem
    | split
    | simp only [State.mem_mk]

theorem execTStopExpiry_mem {n : Fin 48} {edge : Bool} {s : State} (h_s : s.Mem r0) : KeepsMem r0 (execTStopExpiry n edge s) := by
  unfold execTStopExpiry
  try dsimp only [State.take]
  with_reducible repeat' first
    | assumption
    | apply KeepsMem.next
    | apply State.wb_mem
    | apply State.setEnc_mem
    | apply State.noSpeed_mem
    | split
    | simp only [State.mem_mk]

theorem execSignalFault_mem {n : Fin 48} {s : State} (h_s : s.Mem r0) : KeepsMem r0 (execSignalFault n s) := by
  unfold execSignalFault
  with_reducible repeat' first
    | assumption
    | apply KeepsMem.next
    | apply State.signalFault_mem

theorem State.ssiRefuse_mem {s : State} {n : Nat} (h_s : s.Mem r0) : (State.ssiRefuse s n).Mem r0 := by
  unfold State.ssiRefuse
  try dsimp only [State.take]
  with_reducible repeat' first
    | assumption
    | apply State.wb_mem
    | apply State.setEnc_mem
    | apply State.encLost_mem
    | split
    | simp only [State.mem_mk]

theorem State.ssiStart_mem {s : State} {n : Nat} (h_s : s.Mem r0) : (State.ssiStart s n).Mem r0 := by
  unfold State.ssiStart
  try dsimp only [State.take]
  with_reducible repeat' first
    | assumption
    | apply State.setEnc_mem
    | apply State.ssiRefuse_mem
    | split
    | simp only [State.mem_mk]

theorem State.ssiGood_mem {s : State} {n : Nat} {p : Int} {t : Nat} (h_s : s.Mem r0) : (State.ssiGood s n p t).Mem r0 := by
  unfold State.ssiGood
  try dsimp only [State.take]
  with_reducible repeat' first
    | assumption
    | apply State.wb_mem
    | apply State.setEnc_mem
    | apply State.setPos_mem
    | apply State.showSpeed_mem
    | apply State.noSpeed_mem
    | split
    | simp only [State.mem_mk]

theorem execSsiTransferEnd_mem {n : Fin 48} {bits : Word} {parityBit : Bool} {s : State} (h_s : s.Mem r0) : KeepsMem r0 (execSsiTransferEnd n bits parityBit s) := by
  unfold execSsiTransferEnd
  try dsimp only [State.take]
  with_reducible repeat' first
    | assumption
    | apply KeepsMem.next
    | apply State.setEnc_mem
    | apply State.ssiRefuse_mem
    | apply State.ssiGood_mem
    | split
    | simp only [State.mem_mk]

theorem execMonoTimeout_mem {n : Fin 48} {returned : Bool} {s : State} (h_s : s.Mem r0) : KeepsMem r0 (execMonoTimeout n returned s) := by
  unfold execMonoTimeout
  try dsimp only [State.take]
  with_reducible repeat' first
    | assumption
    | apply KeepsMem.next
    | apply State.setEnc_mem
    | apply State.encLost_mem
    | split
    | simp only [State.mem_mk]

theorem State.wrEncCfg_mem {s : State} {f : Func} {n : Nat} {v : Word} (h_s : s.Mem r0) : (State.wrEncCfg s f n v).Mem r0 := by
  unfold State.wrEncCfg
  with_reducible repeat' first
    | assumption
    | apply State.store_mem
    | split

end Sys2Proof.Machine
end

