-- ==== Sys2Proof/Laws/MemoryDrover.lean ====
section
/-!
SUPPORT. What the functions of Machine/Drover.lean leave alone (Memory.lean).
-/
namespace Sys2Proof.Machine

variable {r0 : List Host.Cell × List Host.Cell}

theorem State.bandClamp_mem {s : State} {a : Nat} (h_s : s.Mem r0) : (State.bandClamp s a).Mem r0 := by
  unfold State.bandClamp
  with_reducible repeat' first
    | assumption
    | apply State.wr_mem
    | split

theorem State.activate_mem {s : State} {a : Nat} (h_s : s.Mem r0) : (State.activate s a).Mem r0 := by
  unfold State.activate
  try dsimp only [State.take]
  with_reducible repeat' first
    | assumption
    | apply State.bandClamp_mem
    | apply State.setAxis_mem
    | apply State.mem_foldl
    | (intro _ _ _; try dsimp only)
    | split
    | simp only [State.mem_mk]

theorem State.copyLaw_mem {s : State} {a : Nat} (h_s : s.Mem r0) : (State.copyLaw s a).Mem r0 := by
  unfold State.copyLaw
  with_reducible repeat' first
    | assumption
    | apply State.wr_mem
    | apply State.setAxis_mem
    | apply State.mem_foldl
    | (intro _ _ _; try dsimp only)
    | split

theorem State.lawCommit_mem {s : State} {a : Nat} (h_s : s.Mem r0) : (State.lawCommit s a).Mem r0 := by
  unfold State.lawCommit
  try dsimp only [State.take]
  with_reducible repeat' first
    | assumption
    | apply State.wr_mem
    | apply State.pf_mem
    | apply State.wb_mem
    | apply State.setAxis_mem
    | apply State.copyLaw_mem
    | apply State.activate_mem
    | apply State.bandClamp_mem
    | split
    | simp only [State.mem_mk]

theorem State.axEnable_mem {s : State} {a : Nat} (h_s : s.Mem r0) : (State.axEnable s a).Mem r0 := by
  unfold State.axEnable
  try dsimp only [State.take]
  with_reducible repeat' first
    | assumption
    | apply State.wb_mem
    | apply State.setAxis_mem
    | split
    | simp only [State.mem_mk]

theorem State.axDisable_mem {s : State} {a : Nat} (h_s : s.Mem r0) : (State.axDisable s a).Mem r0 := by
  unfold State.axDisable
  try dsimp only [State.take]
  with_reducible repeat' first
    | assumption
    | apply State.setAxis_mem
    | apply State.setAxState_mem
    | split
    | simp only [State.mem_mk]

theorem State.wrAxCtl_mem {s : State} {a : Nat} {v : Word} (h_s : s.Mem r0) : (State.wrAxCtl s a v).Mem r0 := by
  unfold State.wrAxCtl
  try dsimp only [State.take]
  with_reducible repeat' first
    | assumption
    | apply State.lawCommit_mem
    | apply State.axEnable_mem
    | apply State.axDisable_mem
    | split

theorem State.enabling_mem {s : State} {a : Nat} (h_s : s.Mem r0) : (State.enabling s a).Mem r0 := by
  unfold State.enabling
  try dsimp only [State.take]
  with_reducible repeat' first
    | assumption
    | apply State.wr_mem
    | apply State.wb_mem
    | apply State.setAxis_mem
    | apply State.setEnc_mem
    | apply State.setAxState_mem
    | apply State.setBrake_mem
    | apply State.noSpeed_mem
    | split
    | simp only [State.mem_mk]

theorem State.mbReject_mem {s : State} {d bit : Nat} (h_s : s.Mem r0) : (State.mbReject s d bit).Mem r0 := by
  unfold State.mbReject
  with_reducible repeat' first
    | assumption
    | apply State.wb_mem
    | apply State.drvEvent_mem

theorem State.sampleAxis_mem {s : State} {d a plen : Nat} (h_s : s.Mem r0) : (State.sampleAxis s d a plen).Mem r0 := by
  unfold State.sampleAxis
  try dsimp only [State.take]
  with_reducible repeat' first
    | assumption
    | apply State.setAxis_mem
    | apply State.showSpeed_mem
    | apply State.ssiStart_mem
    | apply State.activate_mem
    | apply State.enabling_mem
    | split
    | simp only [State.mem_mk]

theorem execPeriodLost_mem {d : Fin 4} {s : State} (h_s : s.Mem r0) : KeepsMem r0 (execPeriodLost d s) := by
  unfold execPeriodLost
  with_reducible repeat' first
    | assumption
    | apply KeepsMem.next
    | apply State.drvEvent_mem
    | apply State.dpFallback_mem

theorem State.reference_mem {s : State} {d a : Nat} {i : AxIn} (h_s : s.Mem r0) : (State.reference s d a i).1.Mem r0 := by
  unfold State.reference
  try dsimp only [State.take]
  with_reducible repeat' first
    | assumption
    | apply State.wb_mem
    | apply State.setAxis_mem
    | apply State.drvEvent_mem
    | apply State.wardenExpired_mem
    | split
    | simp only [State.mem_mk]

theorem State.reference_mem_eq {s : State} {d a : Nat} {i : AxIn} {y : State}  {x} (h_s : s.Mem r0) (he : State.reference s d a i = (y, x)) : y.Mem r0 := by
  have := State.reference_mem (r0 := r0) (s := s) (d := d) (a := a) (i := i) h_s
  rw [he] at this
  exact this

theorem State.feedbackFault_mem {s : State} {a bit code : Nat} (h_s : s.Mem r0) : (State.feedbackFault s a bit code).Mem r0 := by
  unfold State.feedbackFault
  try dsimp only [State.take]
  with_reducible repeat' first
    | assumption
    | apply State.wb_mem
    | apply State.drvEvent_mem
    | apply State.trigger_mem

theorem State.firstUse_mem {s : State} {a : Nat} {i : AxIn} (h_s : s.Mem r0) : (State.firstUse s a i).Mem r0 := by
  unfold State.firstUse
  try dsimp only [State.take]
  with_reducible repeat' first
    | assumption
    | apply State.setAxis_mem
    | apply State.mem_foldl
    | (intro _ _ _; try dsimp only)
    | split
    | simp only [State.mem_mk]

theorem State.wrDvCfg_mem {s : State} {f : Func} {d : Nat} {v : Word} (h_s : s.Mem r0) : (State.wrDvCfg s f d v).Mem r0 := by
  unfold State.wrDvCfg
  try dsimp only [State.take]
  with_reducible repeat' first
    | assumption
    | apply State.wb_mem
    | apply State.store_mem
    | split
    | dsimp only [id]

theorem State.wrDvPto_mem {s : State} {f : Func} {d : Nat} {v : Word} (h_s : s.Mem r0) : (State.wrDvPto s f d v).Mem r0 := by
  unfold State.wrDvPto
  with_reducible repeat' first
    | assumption
    | apply State.wb_mem
    | apply State.store_mem
    | split

theorem State.wrTmCfg_mem {s : State} {f : Func} {d : Nat} {v : Word} (h_s : s.Mem r0) : (State.wrTmCfg s f d v).Mem r0 := by
  unfold State.wrTmCfg
  try dsimp only [State.take]
  with_reducible repeat' first
    | assumption
    | apply State.store_mem
    | apply State.wb_mem
    | apply State.mem_foldl
    | (intro _ _ _; try dsimp only)
    | split
    | simp only [State.mem_mk]

theorem execAxEnable_mem {f : Func} {a : Fin 48} {v : Word} {s : State} (h_s : s.Mem r0) : KeepsMem r0 (execAxEnable f a v s) := by
  unfold execAxEnable
  with_reducible repeat' first
    | assumption
    | apply KeepsMem.next
    | apply State.guarded_mem
    | apply State.wrAxCtl_mem
    | (intro _ _; try dsimp only)

theorem execDisable_mem {f : Func} {a : Fin 48} {v : Word} {s : State} (h_s : s.Mem r0) : KeepsMem r0 (execDisable f a v s) := by
  unfold execDisable
  with_reducible repeat' first
    | assumption
    | apply KeepsMem.next
    | apply State.guarded_mem
    | apply State.wrAxCtl_mem
    | (intro _ _; try dsimp only)

theorem execLawCommit_mem {f : Func} {a : Fin 48} {v : Word} {s : State} (h_s : s.Mem r0) : KeepsMem r0 (execLawCommit f a v s) := by
  unfold execLawCommit
  with_reducible repeat' first
    | assumption
    | apply KeepsMem.next
    | apply State.guarded_mem
    | apply State.wrAxCtl_mem
    | (intro _ _; try dsimp only)

end Sys2Proof.Machine
end

