-- ==== Sys2Proof/Laws/MemoryAxisLink.lean ====
section
/-!
SUPPORT. What the functions of Machine/AxisLink.lean leave alone (Memory.lean).
-/
namespace Sys2Proof.Machine

variable {r0 : List Host.Cell × List Host.Cell}

theorem State.takeSample_mem {s : State} {a k : Nat} (h_s : s.Mem r0) : (State.takeSample s a k).Mem r0 := by
  unfold State.takeSample
  try dsimp only [State.take]
  with_reducible repeat' first
    | assumption
    | apply State.setAxis_mem
    | split
    | simp only [State.mem_mk]

theorem State.currentTrip_mem {s : State} {a bit code : Nat} (h_s : s.Mem r0) : (State.currentTrip s a bit code).Mem r0 := by
  unfold State.currentTrip
  try dsimp only [State.take]
  with_reducible repeat' first
    | assumption
    | apply State.wb_mem
    | apply State.setAxis_mem
    | apply State.drvEvent_mem
    | apply State.trigger_mem

theorem execCurrentDecision_mem {a : Fin 48} {s : State} (h_s : s.Mem r0) : KeepsMem r0 (execCurrentDecision a s) := by
  unfold execCurrentDecision
  try dsimp only [State.take]
  with_reducible repeat' first
    | assumption
    | apply KeepsMem.next
    | apply State.setAxis_mem
    | apply State.takeSample_mem
    | apply State.currentTrip_mem
    | apply State.mem_foldl
    | (intro _ _ _; try dsimp only)
    | split
    | simp only [State.mem_mk]

theorem execBandAdapt_mem {a : Fin 48} {s : State} (h_s : s.Mem r0) : KeepsMem r0 (execBandAdapt a s) := by
  unfold execBandAdapt
  try dsimp only [State.take]
  with_reducible repeat' first
    | assumption
    | apply KeepsMem.next
    | apply State.wr_mem
    | apply State.setAxis_mem
    | split
    | simp only [State.mem_mk]

theorem execCurrentLost_mem {a : Fin 48} {s : State} (h_s : s.Mem r0) : KeepsMem r0 (execCurrentLost a s) := by
  unfold execCurrentLost
  with_reducible repeat' first
    | assumption
    | apply KeepsMem.next
    | apply State.currentTrip_mem
    | split

theorem State.portLost_mem {s : State} {g : Nat} (h_s : s.Mem r0) : (State.portLost s g).Mem r0 := by
  unfold State.portLost
  try dsimp only [State.take]
  with_reducible repeat' first
    | assumption
    | apply State.wb_mem
    | apply State.drvEvent_mem
    | apply State.trigger_mem
    | apply State.mem_foldl
    | (intro _ _ _; try dsimp only)
    | split

theorem State.takeStatus_mem {s : State} {g st : Nat} (h_s : s.Mem r0) : (State.takeStatus s g st).Mem r0 := by
  unfold State.takeStatus
  try dsimp only [State.take]
  with_reducible repeat' first
    | assumption
    | apply State.pf_mem
    | apply State.drvEvent_mem
    | apply State.trigger_mem
    | split

theorem State.feedBits_mem {s : State} {g sd : Nat} {ok : Bool} (h_s : s.Mem r0) : (State.feedBits s g sd ok).Mem r0 := by
  unfold State.feedBits
  try dsimp only [State.take]
  with_reducible repeat' first
    | assumption
    | apply State.setAxis_mem
    | apply State.mem_foldl
    | (intro _ _ _; try dsimp only)
    | simp only [State.mem_mk]

theorem State.resync_mem {s : State} {g : Nat} (h_s : s.Mem r0) : (State.resync s g).Mem r0 := by
  unfold State.resync
  try dsimp only [State.take]
  with_reducible repeat' first
    | assumption
    | apply State.setAxis_mem
    | apply State.mem_foldl
    | (intro _ _ _; try dsimp only)
    | simp only [State.mem_mk]

theorem execUpstreamFrame_mem {al : Fin 12} {frame : BitVec 40} {s : State} (h_s : s.Mem r0) : KeepsMem r0 (execUpstreamFrame al frame s) := by
  unfold execUpstreamFrame
  try dsimp only [State.take]
  with_reducible repeat' first
    | assumption
    | apply KeepsMem.next
    | apply State.pf_mem
    | apply State.addSat_mem
    | apply State.setAlink_mem
    | apply State.portLost_mem
    | apply State.takeStatus_mem
    | apply State.feedBits_mem
    | apply State.resync_mem
    | split
    | simp only [State.mem_mk]

theorem execDownstreamFrame_mem {al : Fin 12} {s : State} (h_s : s.Mem r0) : KeepsMem r0 (execDownstreamFrame al s) := by
  unfold execDownstreamFrame
  try dsimp only [State.take]
  with_reducible repeat' first
    | assumption
    | apply KeepsMem.next
    | apply State.setAxis_mem
    | apply State.setAlink_mem
    | apply State.mem_foldl
    | (intro _ _ _; try dsimp only)
    | split
    | simp only [State.mem_mk]

theorem State.outputLatch_mem {s : State} {g : Nat} (h_s : s.Mem r0) : (State.outputLatch s g).Mem r0 := by
  unfold State.outputLatch
  try dsimp only [State.take]
  with_reducible repeat' first
    | assumption
    | apply State.wr_mem
    | apply State.addSat_mem
    | apply State.setAxis_mem
    | apply State.wardenFresh_mem
    | apply State.mem_foldl
    | (intro _ _ _; try dsimp only)
    | split
    | simp only [State.mem_mk]

theorem State.releaseSto_mem {s : State} {g : Nat} (h_s : s.Mem r0) : (State.releaseSto s g).Mem r0 := by
  unfold State.releaseSto
  try dsimp only [State.take]
  with_reducible repeat' first
    | assumption
    | apply State.setSto_mem
    | apply State.mem_foldl
    | (intro _ _ _; try dsimp only)
    | split
    | simp only [State.mem_mk]

theorem State.groupReset_mem {s : State} {g : Nat} (h_s : s.Mem r0) : (State.groupReset s g).Mem r0 := by
  unfold State.groupReset
  try dsimp only [State.take]
  with_reducible repeat' first
    | assumption
    | apply State.wb_mem
    | apply State.setAxState_mem
    | apply State.releaseSto_mem
    | apply State.mem_foldl
    | (intro _ _ _; try dsimp only)
    | split
    | simp only [State.mem_mk]

theorem State.wrAlCtl_mem {s : State} {g : Nat} {v : Word} (h_s : s.Mem r0) : (State.wrAlCtl s g v).Mem r0 := by
  unfold State.wrAlCtl
  try dsimp only [State.take]
  with_reducible repeat' first
    | assumption
    | apply State.trigger_mem
    | apply State.groupReset_mem
    | split

theorem State.wrAlCfg_mem {s : State} {f : Func} {g : Nat} {v : Word} (h_s : s.Mem r0) : (State.wrAlCfg s f g v).Mem r0 := by
  unfold State.wrAlCfg
  try dsimp only [State.take]
  with_reducible repeat' first
    | assumption
    | apply State.pf_mem
    | apply State.store_mem
    | apply State.setAlink_mem
    | split

theorem execSafeReq_mem {f : Func} {al : Fin 12} {v : Word} {s : State} (h_s : s.Mem r0) : KeepsMem r0 (execSafeReq f al v s) := by
  unfold execSafeReq
  with_reducible repeat' first
    | assumption
    | apply KeepsMem.next
    | apply State.guarded_mem
    | apply State.wrAlCtl_mem
    | (intro _ _; try dsimp only)

theorem execGroupReset_mem {f : Func} {al : Fin 12} {v : Word} {s : State} (h_s : s.Mem r0) : KeepsMem r0 (execGroupReset f al v s) := by
  unfold execGroupReset
  with_reducible repeat' first
    | assumption
    | apply KeepsMem.next
    | apply State.guarded_mem
    | apply State.wrAlCtl_mem
    | (intro _ _; try dsimp only)

theorem execStopTimeExpiry_mem {al : Fin 12} {s : State} (h_s : s.Mem r0) : KeepsMem r0 (execStopTimeExpiry al s) := by
  unfold execStopTimeExpiry
  with_reducible repeat' first
    | assumption
    | apply KeepsMem.next
    | apply State.endForm_mem

theorem execBrakeDelayExpiry_mem {al : Fin 12} {s : State} (h_s : s.Mem r0) : KeepsMem r0 (execBrakeDelayExpiry al s) := by
  unfold execBrakeDelayExpiry
  with_reducible repeat' first
    | assumption
    | apply KeepsMem.next
    | apply State.endForm_mem

theorem execStoFbErr_mem {al : Fin 12} {stoA stoB brake : Bool} {s : State} (h_s : s.Mem r0) : KeepsMem r0 (execStoFbErr al stoA stoB brake s) := by
  unfold execStoFbErr
  try dsimp only [State.take]
  with_reducible repeat' first
    | assumption
    | apply KeepsMem.next
    | apply State.pf_mem
    | apply State.stoFbErr_mem
    | split

end Sys2Proof.Machine
end

