-- ==== Sys2Proof/Laws/MemoryActions.lean ====
section
/-!
SUPPORT. What the functions of Machine/Actions.lean leave alone (Memory.lean).
-/
namespace Sys2Proof.Machine

variable {r0 : List Host.Cell × List Host.Cell}

theorem State.strobe_mem {s : State} {cams : Nat} (h_s : s.Mem r0) : (State.strobe s cams).Mem r0 := by
  unfold State.strobe
  try dsimp only [State.take]
  with_reducible repeat' first
    | assumption
    | simp only [State.mem_mk]

theorem execStrobeEnd_mem {c : Fin 16} {s : State} (h_s : s.Mem r0) : KeepsMem r0 (execStrobeEnd c s) := by
  unfold execStrobeEnd
  try dsimp only [State.take]
  with_reducible repeat' first
    | assumption
    | apply KeepsMem.next
    | apply State.strobe_mem
    | simp only [State.mem_mk]

end Sys2Proof.Machine
end

