-- ==== Sys2Proof/Laws/MemoryHeld.lean ====
section
/-!
SUPPORT. What the functions of Machine/Held.lean leave alone (Memory.lean).
-/
namespace Sys2Proof.Machine

variable {r0 : List Host.Cell × List Host.Cell}

theorem State.sendPacket_mem {s : State} {k : Packet} (h_s : s.Mem r0) : (State.sendPacket s k).Mem r0 := by
  unfold State.sendPacket
  try dsimp only [State.take]
  with_reducible repeat' first
    | assumption
    | apply State.enqueue_mem
    | apply State.chargeLink_mem
    | apply State.mem_foldl
    | (intro _ _ _; try dsimp only)
    | split
    | simp only [State.mem_mk]

theorem State.answer_mem {s : State} {k : Packet} {op : PktOp} {addr : Nat} {data : List Byte} (h_s : s.Mem r0) : (State.answer s k op addr data).Mem r0 := by
  unfold State.answer
  try dsimp only [State.take]
  with_reducible repeat' first
    | assumption
    | apply State.sendPacket_mem
    | apply State.mem_foldl
    | (intro _ _ _; try dsimp only)
    | split
    | simp only [State.mem_mk]

theorem State.pxErr_mem {s : State} {cause : Nat} {dest : Nat} {window : Nat} (h_s : s.Mem r0) : (State.pxErr s cause dest window).Mem r0 := by
  unfold State.pxErr
  try dsimp only [State.take]
  with_reducible repeat' first
    | assumption
    | apply State.wr_mem
    | apply State.raise_mem
    | apply State.mem_foldl
    | (intro _ _ _; try dsimp only)
    | split
    | simp only [State.mem_mk]

theorem State.sendProxy_mem {s : State} {x : Proxy} (h_s : s.Mem r0) : (State.sendProxy s x).Mem r0 := by
  unfold State.sendProxy
  try dsimp only [State.take]
  with_reducible repeat' first
    | assumption
    | apply State.sendPacket_mem
    | apply State.mem_foldl
    | (intro _ _ _; try dsimp only)
    | split
    | simp only [State.mem_mk]

theorem State.sendProxies_mem {s : State} (h_s : s.Mem r0) : (State.sendProxies s).Mem r0 := by
  unfold State.sendProxies
  try dsimp only [State.take]
  with_reducible repeat' first
    | assumption
    | apply State.sendProxy_mem
    | apply State.mem_foldl
    | (intro _ _ _; try dsimp only)
    | split
    | simp only [State.mem_mk]

theorem State.failProxy_mem {s : State} {x : Proxy} {cause : Nat} (h_s : s.Mem r0) : (State.failProxy s x cause).Mem r0 := by
  unfold State.failProxy
  try dsimp only [State.take]
  with_reducible repeat' first
    | assumption
    | apply State.pxErr_mem
    | apply State.sendProxies_mem
    | apply State.mem_foldl
    | (intro _ _ _; try dsimp only)
    | split
    | simp only [State.mem_mk]

theorem State.endProxy_mem {s : State} {x : Proxy} (h_s : s.Mem r0) : (State.endProxy s x).Mem r0 := by
  unfold State.endProxy
  try dsimp only [State.take]
  with_reducible repeat' first
    | assumption
    | apply State.sendProxies_mem
    | apply State.mem_foldl
    | (intro _ _ _; try dsimp only)
    | split
    | simp only [State.mem_mk]

theorem State.logPort_mem {s : State} {ev : Nat} {p : Nat} (h_s : s.Mem r0) : (State.logPort s ev p).Mem r0 := by
  unfold State.logPort
  try dsimp only [State.take]
  with_reducible repeat' first
    | assumption
    | apply State.logNamed_mem
    | apply State.mem_foldl
    | (intro _ _ _; try dsimp only)
    | split
    | simp only [State.mem_mk]

theorem State.toState_mem {s : State} {p : Nat} {v : Nat} (h_s : s.Mem r0) : (State.toState s p v).Mem r0 := by
  unfold State.toState
  try dsimp only [State.take]
  with_reducible repeat' first
    | assumption
    | apply State.setLstate_mem
    | apply State.raise_mem
    | apply State.mem_foldl
    | (intro _ _ _; try dsimp only)
    | split
    | simp only [State.mem_mk]

theorem State.cutThrough_mem {s : State} {p : Nat} (h_s : s.Mem r0) : (State.cutThrough s p).Mem r0 := by
  unfold State.cutThrough
  try dsimp only [State.take]
  with_reducible repeat' first
    | assumption
    | apply State.setPort_mem
    | apply State.mem_foldl
    | (intro _ _ _; try dsimp only)
    | split
    | simp only [State.mem_mk]

end Sys2Proof.Machine
end

