-- ==== Sys2Proof/Laws/MemoryLedger.lean ====
section
/-!
SUPPORT. What the functions of Machine/Ledger.lean leave alone (Memory.lean).
-/
namespace Sys2Proof.Machine

variable {r0 : List Host.Cell × List Host.Cell}

theorem setLedger_mem {s : State} {l : Ledger} (h : s.Mem r0) : (setLedger s l).Mem r0 := h

theorem execLogPageWritten_mem {s : State} (h_s : s.Mem r0) : KeepsMem r0 (execLogPageWritten s) := KeepsMem.next h_s

theorem State.noteRepair_mem {s : State} {row : Nat} (h_s : s.Mem r0) : (State.noteRepair s row).Mem r0 := by
  unfold State.noteRepair
  with_reducible repeat' first
    | assumption
    | apply State.pf_mem
    | apply State.wb_mem
    | apply State.incSat_mem
    | apply State.logNamed_mem

theorem State.newMaster_mem {s : State} {w : Nat} {v : Word} (h_s : s.Mem r0) : (State.newMaster s w v).Mem r0 := by
  unfold State.newMaster
  with_reducible repeat' first
    | assumption
    | apply State.pf_mem
    | split

theorem State.refuseWrite_mem {s : State} {w : Nat} (h_s : s.Mem r0) : (State.refuseWrite s w).Mem r0 := by
  unfold State.refuseWrite
  try dsimp only [State.take]
  with_reducible repeat' first
    | assumption
    | apply State.wb_mem
    | apply State.logNamed_mem
    | split

theorem State.dequeue_mem {s : State} (h_s : s.Mem r0) : (State.dequeue s).Mem r0 := by
  unfold State.dequeue
  try dsimp only [State.take]
  with_reducible repeat' first
    | assumption
    | apply setLedger_mem
    | apply State.refuseWrite_mem
    | split
    | simp only [State.mem_mk]

theorem State.cutWrite_mem {s : State} {x : LWrite} (h_s : s.Mem r0) : (State.cutWrite s x).Mem r0 := by
  unfold State.cutWrite
  try dsimp only [State.take]
  with_reducible repeat' first
    | assumption
    | apply State.take_mem
    | refine State.take_mem_eq ?_ (by assumption)
    | apply setLedger_mem
    | apply State.mem_foldl
    | (intro _ _ _; try dsimp only)
    | split
    | simp only [State.mem_mk]

theorem State.spoil_mem {s : State} {row : Nat} {a : Bool} {b : Bool} (h_s : s.Mem r0) : (State.spoil s row a b).Mem r0 := by
  unfold State.spoil
  try dsimp only [State.take]
  with_reducible repeat' first
    | assumption
    | apply setLedger_mem
    | apply State.mem_foldl
    | (intro _ _ _; try dsimp only)
    | split
    | simp only [State.mem_mk]

theorem execLedgerDequeue_mem {s : State} (h_s : s.Mem r0) : KeepsMem r0 (execLedgerDequeue s) := by
  unfold execLedgerDequeue
  with_reducible repeat' first
    | assumption
    | apply KeepsMem.next
    | apply State.dequeue_mem

theorem execLedgerScan_mem {a : Bool} {b : Bool} {s : State} (h_s : s.Mem r0) : KeepsMem r0 (execLedgerScan a b s) := by
  unfold execLedgerScan
  try dsimp only [State.take]
  with_reducible repeat' first
    | assumption
    | apply KeepsMem.next
    | apply State.noteRepair_mem
    | apply State.logNamed_mem
    | apply setLedger_mem
    | apply State.spoil_mem
    | apply State.mem_foldl
    | (intro _ _ _; try dsimp only)
    | split
    | simp only [State.mem_mk]

theorem State.setRow_mem {s : State} {row : Nat} {c : LCopy} (h_s : s.Mem r0) : (State.setRow s row c).Mem r0 := by
  unfold State.setRow
  try dsimp only [State.take]
  with_reducible repeat' first
    | assumption
    | apply setLedger_mem
    | simp only [State.mem_mk]

end Sys2Proof.Machine
end

