-- ==== Sys2Proof/Laws/MemoryInnkeeper.lean ====
section
/-!
SUPPORT. What the functions of Machine/Innkeeper.lean leave alone (Memory.lean).
-/
namespace Sys2Proof.Machine

variable {r0 : List Host.Cell × List Host.Cell}

theorem State.charge_mem {s : State} {c : Cmd} {ns : Nat} (h_s : s.Mem r0) : (State.charge s c ns).Mem r0 := by
  unfold State.charge
  try dsimp only [State.take]
  with_reducible repeat' first
    | assumption
    | apply State.setQueue_mem
    | apply State.setTenant_mem
    | apply State.chargeTime_mem
    | apply State.mem_foldl
    | (intro _ _ _; try dsimp only)
    | split
    | simp only [State.mem_mk]

theorem State.arriveDone_mem {s : State} {c : Cmd} {unit : Nat} (h_s : s.Mem r0) : (State.arriveDone s c unit).Mem r0 := by
  unfold State.arriveDone
  try dsimp only [State.take]
  with_reducible repeat' first
    | assumption
    | apply State.sendArrival_mem
    | apply State.mem_foldl
    | (intro _ _ _; try dsimp only)
    | split
    | simp only [State.mem_mk]

theorem State.wrQTail_mem {s : State} {q : Nat} {v : Word} (h_s : s.Mem r0) : (State.wrQTail s q v).Mem r0 := by
  unfold State.wrQTail
  try dsimp only [State.take]
  with_reducible repeat' first
    | assumption
    | apply State.wr_mem
    | apply State.wb_mem
    | split

theorem State.wrQCfg_mem {s : State} {q : Nat} {v : Word} (h_s : s.Mem r0) : (State.wrQCfg s q v).Mem r0 := by
  unfold State.wrQCfg
  try dsimp only [State.take]
  with_reducible repeat' first
    | assumption
    | apply State.pf_mem
    | apply State.wb_mem
    | apply State.store_mem
    | split

theorem State.wrTnRes_mem {s : State} {f : Func} {t : Nat} {v : Word} (h_s : s.Mem r0) : (State.wrTnRes s f t v).Mem r0 := by
  unfold State.wrTnRes
  with_reducible repeat' first
    | assumption
    | apply State.wb_mem
    | apply State.store_mem
    | split

theorem State.sendHeldIrqs_mem {s : State} {t : Nat} (h_s : s.Mem r0) : (State.sendHeldIrqs s t).Mem r0 := by
  unfold State.sendHeldIrqs
  try dsimp only [State.take]
  with_reducible repeat' first
    | assumption
    | apply State.sendTenantBits_mem
    | apply State.sendRoute_mem
    | apply State.mem_foldl
    | (intro _ _ _; try dsimp only)
    | split
    | simp only [State.mem_mk]

theorem State.releaseTenant_mem {s : State} {t : Nat} (h_s : s.Mem r0) : (State.releaseTenant s t).Mem r0 := by
  unfold State.releaseTenant
  with_reducible repeat' first
    | assumption
    | apply State.startRelease_mem
    | split

theorem State.releaseTally_mem {s : State} {t : Nat} (h_s : s.Mem r0) : (State.releaseTally s t).Mem r0 := by
  unfold State.releaseTally
  try dsimp only [State.take]
  with_reducible repeat' first
    | assumption
    | apply State.wr_mem
    | apply State.clearTally_mem
    | apply State.mem_foldl
    | (intro _ _ _; try dsimp only)
    | split

theorem State.manUpdate_mem {s : State} {t src status sample : Nat} (h_s : s.Mem r0) : (State.manUpdate s t src status sample).Mem r0 := by
  unfold State.manUpdate
  try dsimp only [State.take]
  with_reducible repeat' first
    | assumption
    | apply State.setTenant_mem
    | apply State.mem_foldl
    | (intro _ _ _; try dsimp only)
    | split
    | simp only [State.mem_mk]

theorem State.endWindow_mem {s : State} {ticks : Nat} (h_s : s.Mem r0) : (State.endWindow s ticks).Mem r0 := by
  unfold State.endWindow
  try dsimp only [State.take]
  with_reducible repeat' first
    | assumption
    | apply State.setTenant_mem
    | apply State.mem_foldl
    | (intro _ _ _; try dsimp only)
    | split
    | simp only [State.mem_mk]

theorem execPowerWindowEnd_mem {s : State} (h_s : s.Mem r0) : KeepsMem r0 (execPowerWindowEnd s) := by
  unfold execPowerWindowEnd
  with_reducible repeat' first
    | assumption
    | apply KeepsMem.next
    | apply State.pf_mem
    | apply State.endWindow_mem

theorem execQTailWrite_mem {f : Func} {t : Fin 8} {q : Fin 4} {v : Word} {s : State} (h_s : s.Mem r0) : KeepsMem r0 (execQTailWrite f t q v s) := by
  unfold execQTailWrite
  with_reducible repeat' first
    | assumption
    | apply KeepsMem.next
    | apply State.guarded_mem
    | apply State.wrQTail_mem
    | (intro _ _; try dsimp only)

theorem execQCfgWrite_mem {f : Func} {t : Fin 8} {q : Fin 4} {v : Word} {s : State} (h_s : s.Mem r0) : KeepsMem r0 (execQCfgWrite f t q v s) := by
  unfold execQCfgWrite
  with_reducible repeat' first
    | assumption
    | apply KeepsMem.next
    | apply State.guarded_mem
    | apply State.wrQCfg_mem
    | (intro _ _; try dsimp only)

theorem execTnResWrite_mem {f : Func} {t : Fin 8} {v : Word} {s : State} (h_s : s.Mem r0) : KeepsMem r0 (execTnResWrite f t v s) := by
  unfold execTnResWrite
  with_reducible repeat' first
    | assumption
    | apply KeepsMem.next
    | apply State.guarded_mem
    | apply State.wrTnRes_mem
    | (intro _ _; try dsimp only)

theorem execTallyConfigWrite_mem {f : Func} {b : BarId} {part : Bool} {v : Word} {busy : Bool} {s : State} (h_s : s.Mem r0) : KeepsMem r0 (execTallyConfigWrite f b part v busy s) := by
  unfold execTallyConfigWrite
  with_reducible repeat' first
    | assumption
    | apply KeepsMem.next
    | apply State.tallyCfg_mem
    | apply State.guarded_mem
    | (intro _ _; try dsimp only)
    | split

end Sys2Proof.Machine
end

