-- ==== Sys2Proof/Laws/MemoryLinkField.lean ====
section
/-!
SUPPORT. What the functions of Machine/LinkField.lean leave alone (Memory.lean).
-/
namespace Sys2Proof.Machine

variable {r0 : List Host.Cell × List Host.Cell}

theorem State.takeSb_mem {s : State} {w : SbWord} (h_s : s.Mem r0) : (State.takeSb s w).Mem r0 := by
  unfold State.takeSb
  try dsimp only [State.take]
  with_reducible repeat' first
    | assumption
    | apply State.setPort_mem
    | split
    | simp only [State.mem_mk]

theorem State.sbToward_mem {s : State} {w : SbWord} {d : Nat} (h_s : s.Mem r0) : (State.sbToward s w d).Mem r0 := by
  unfold State.sbToward
  try dsimp only [State.take]
  with_reducible repeat' first
    | assumption
    | apply State.sendSb_mem
    | split
    | simp only [State.mem_mk]

theorem State.steer_mem {s : State} (h_s : s.Mem r0) : (State.steer s).Mem r0 := by
  unfold State.steer
  try dsimp only [State.take]
  with_reducible repeat' first
    | assumption
    | split
    | simp only [State.mem_mk]

theorem State.setFc_mem {s : State} {v : Nat} (h_s : s.Mem r0) : (State.setFc s v).Mem r0 := by
  unfold State.setFc
  with_reducible repeat' first
    | assumption
    | apply State.pf_mem

theorem State.stepField_mem {s : State} {v : Nat} (h_s : s.Mem r0) : (State.stepField s v).Mem r0 := by
  unfold State.stepField
  try dsimp only [State.take]
  with_reducible repeat' first
    | assumption
    | apply State.endWindow_mem
    | simp only [State.mem_mk]

theorem State.fcTrack_mem {s : State} {v : Nat} {off : Int} (h_s : s.Mem r0) : (State.fcTrack s v off).Mem r0 := by
  unfold State.fcTrack
  try dsimp only [State.take]
  with_reducible repeat' first
    | assumption
    | apply State.pf_mem
    | apply State.steer_mem
    | apply State.setFc_mem
    | apply State.stepField_mem
    | split
    | simp only [State.mem_mk]

theorem State.timesync_mem {s : State} {p : Nat} {count : BitVec 64} (h_s : s.Mem r0) : (State.timesync s p count).Mem r0 := by
  unfold State.timesync
  try dsimp only [State.take]
  with_reducible repeat' first
    | assumption
    | apply State.fcTrack_mem
    | split

theorem execTimesync_mem {p : Fin 8} {count : BitVec 64} {s : State} (h_s : s.Mem r0) : KeepsMem r0 (execTimesync p count s) := by
  unfold execTimesync
  with_reducible repeat' first
    | assumption
    | apply KeepsMem.next
    | apply State.takeSb_mem
    | apply State.timesync_mem
    | simp only [State.mem_mk]

theorem execTimesyncSend_mem {s : State} (h_s : s.Mem r0) : KeepsMem r0 (execTimesyncSend s) := by
  unfold execTimesyncSend
  with_reducible repeat' first
    | assumption
    | apply KeepsMem.next
    | apply State.flood_mem
    | apply State.timesync_mem

theorem execEchoSend_mem {s : State} (h_s : s.Mem r0) : KeepsMem r0 (execEchoSend s) := by
  unfold execEchoSend
  with_reducible repeat' first
    | assumption
    | apply KeepsMem.next
    | apply State.flood_mem

theorem State.freeDelayMin_mem {s : State} (h_s : s.Mem r0) : (State.freeDelayMin s).Mem r0 := by
  unfold State.freeDelayMin
  try dsimp only [State.take]
  with_reducible repeat' first
    | assumption
    | apply State.wr_mem
    | split
    | simp only [State.mem_mk]

theorem execEcho_mem {p : Fin 8} {roundTrip : Nat} {s : State} (h_s : s.Mem r0) : KeepsMem r0 (execEcho p roundTrip s) := by
  unfold execEcho
  with_reducible repeat' first
    | assumption
    | apply KeepsMem.next
    | apply State.pf_mem
    | apply State.freeDelayMin_mem

theorem execFcHoldover_mem {s : State} (h_s : s.Mem r0) : KeepsMem r0 (execFcHoldover s) := by
  unfold execFcHoldover
  try dsimp only [State.take]
  with_reducible repeat' first
    | assumption
    | apply KeepsMem.next
    | apply State.setFc_mem
    | split
    | simp only [State.mem_mk]

theorem State.countFire_mem {s : State} {e : Nat} (h_s : s.Mem r0) : (State.countFire s e).Mem r0 := by
  unfold State.countFire
  try dsimp only [State.take]
  with_reducible repeat' first
    | assumption
    | apply State.setWbEntry_mem
    | simp only [State.mem_mk]

theorem State.wrLbCfg_mem {s : State} {f : Func} {k : Nat} {v : Word} (h_s : s.Mem r0) : (State.wrLbCfg s f k v).Mem r0 := by
  unfold State.wrLbCfg
  with_reducible repeat' first
    | assumption
    | apply State.store_mem
    | split

theorem State.wrLbMask_mem {s : State} {f : Func} {a : Nat} {v : Word} (h_s : s.Mem r0) : (State.wrLbMask s f a v).Mem r0 := by
  unfold State.wrLbMask
  with_reducible repeat' first
    | assumption
    | apply State.store_mem
    | apply State.freeDelayMin_mem

theorem execLbCfgWrite_mem {f : Func} {k : Fin 16} {v : Word} {s : State} (h_s : s.Mem r0) : KeepsMem r0 (execLbCfgWrite f k v s) := by
  unfold execLbCfgWrite
  with_reducible repeat' first
    | assumption
    | apply KeepsMem.next
    | apply State.guarded_mem
    | apply State.wrLbCfg_mem
    | (intro _ _; try dsimp only)

theorem execAbortDone_mem {t : Fin 8} {src : Fin 64} {s : State} (h_s : s.Mem r0) : KeepsMem r0 (execAbortDone t src s) := by
  unfold execAbortDone
  try dsimp only [State.take]
  with_reducible repeat' first
    | assumption
    | apply KeepsMem.next
    | apply State.countDone_mem
    | apply State.takeSb_mem
    | apply State.sbToward_mem
    | split
    | simp only [State.mem_mk]

end Sys2Proof.Machine
end

