-- ==== Sys2Proof/Laws/MemoryLinks.lean ====
section
/-!
SUPPORT. What the functions of Machine/Links.lean leave alone (Memory.lean).
-/
namespace Sys2Proof.Machine

variable {r0 : List Host.Cell × List Host.Cell}

theorem State.startTrain_mem {s : State} {p : Nat} (h_s : s.Mem r0) : (State.startTrain s p).Mem r0 := by
  unfold State.startTrain
  try dsimp only [State.take]
  with_reducible repeat' first
    | assumption
    | apply State.setPort_mem
    | apply State.toState_mem
    | apply State.pf_mem
    | apply State.mem_foldl
    | (intro _ _ _; try dsimp only)
    | split
    | simp only [State.mem_mk]

theorem execPortTrainingDone_mem {p : Fin 8} {locks : BitVec 4} {partner : BitVec 6} {s : State} (h_s : s.Mem r0) : KeepsMem r0 (execPortTrainingDone p locks partner s) := by
  unfold execPortTrainingDone
  try dsimp only [State.take]
  with_reducible repeat' first
    | assumption
    | apply KeepsMem.next
    | apply State.setPort_mem
    | apply State.toState_mem
    | apply State.logPort_mem
    | apply State.wb_mem
    | apply State.pf_mem
    | apply State.mem_foldl
    | (intro _ _ _; try dsimp only)
    | split
    | simp only [State.mem_mk]

theorem execWiringRetry_mem {p : Fin 8} {s : State} (h_s : s.Mem r0) : KeepsMem r0 (execWiringRetry p s) := by
  unfold execWiringRetry
  with_reducible repeat' first
    | assumption
    | apply KeepsMem.next
    | apply State.startTrain_mem
    | split

theorem State.newSeals_mem {s : State} {p : Nat} (h_s : s.Mem r0) : (State.newSeals s p).Mem r0 := by
  unfold State.newSeals
  try dsimp only [State.take]
  with_reducible repeat' first
    | assumption
    | apply State.setPort_mem
    | apply State.takeMany_mem
    | apply State.mem_foldl
    | (intro _ _ _; try dsimp only)
    | split
    | simp only [State.mem_mk]

theorem execAuthDone_mem {p : Fin 8} {keyHash : List Word} {signatureOk : Bool} {s : State} (h_s : s.Mem r0) : KeepsMem r0 (execAuthDone p keyHash signatureOk s) := by
  unfold execAuthDone
  try dsimp only [State.take]
  with_reducible repeat' first
    | assumption
    | apply KeepsMem.next
    | apply State.sendSb_mem
    | apply State.setPort_mem
    | apply State.toState_mem
    | apply State.newSeals_mem
    | apply State.logPort_mem
    | apply State.wb_mem
    | apply State.freeDelayMin_mem
    | apply State.sendProxies_mem
    | apply State.mem_foldl
    | (intro _ _ _; try dsimp only)
    | split
    | simp only [State.mem_mk]

theorem State.setRx_mem {s : State} {p : Nat} {x : Rx} (h_s : s.Mem r0) : (State.setRx s p x).Mem r0 := by
  unfold State.setRx
  try dsimp only [State.take]
  with_reducible repeat' first
    | assumption
    | apply State.setPort_mem
    | apply State.mem_foldl
    | (intro _ _ _; try dsimp only)
    | split
    | simp only [State.mem_mk]

theorem State.openPacket_mem {s : State} {p : Nat} {f : Flit} (h_s : s.Mem r0) : (State.openPacket s p f).Mem r0 := by
  unfold State.openPacket
  try dsimp only [State.take]
  with_reducible repeat' first
    | assumption
    | apply State.answer_mem
    | apply State.setPort_mem
    | apply State.addSat_mem
    | apply State.giveBack_mem
    | apply State.take_mem
    | refine State.take_mem_eq ?_ (by assumption)
    | apply State.mem_foldl
    | (intro _ _ _; try dsimp only)
    | split
    | simp only [State.mem_mk]

theorem State.moreFlits_mem {s : State} {p : Nat} {f : Flit} {before : List RxPkt} {r : RxPkt} (h_s : s.Mem r0) : (State.moreFlits s p f before r).Mem r0 := by
  unfold State.moreFlits
  try dsimp only [State.take]
  with_reducible repeat' first
    | assumption
    | apply State.setPort_mem
    | apply State.giveBack_mem
    | apply State.mem_foldl
    | (intro _ _ _; try dsimp only)
    | split
    | simp only [State.mem_mk]

theorem State.joinFlit_mem {s : State} {p : Nat} {f : Flit} (h_s : s.Mem r0) : (State.joinFlit s p f).Mem r0 := by
  unfold State.joinFlit
  try dsimp only [State.take]
  with_reducible repeat' first
    | assumption
    | apply State.setPort_mem
    | apply State.openPacket_mem
    | apply State.giveBack_mem
    | apply State.moreFlits_mem
    | apply State.mem_foldl
    | (intro _ _ _; try dsimp only)
    | split
    | simp only [State.mem_mk]

theorem State.sideband_mem {s : State} {p : Nat} {w : Nat × SbWord} (h_s : s.Mem r0) : (State.sideband s p w).Mem r0 := by
  unfold State.sideband
  try dsimp only [State.take]
  with_reducible repeat' first
    | assumption
    | apply State.setPort_mem
    | apply State.sendSb_mem
    | split
    | simp only [State.mem_mk]

theorem State.rxPop_mem {s : State} {p vc : Nat} (h_s : s.Mem r0) : (State.rxPop s p vc).Mem r0 := by
  unfold State.rxPop
  try dsimp only [State.take]
  with_reducible repeat' first
    | assumption
    | apply State.setPort_mem
    | simp only [State.mem_mk]

theorem State.rxLeave_mem {s : State} {p : Nat} {vc : Nat} {fate : RxFate} (h_s : s.Mem r0) : (State.rxLeave s p vc fate).Mem r0 := by
  unfold State.rxLeave
  try dsimp only [State.take]
  with_reducible repeat' first
    | assumption
    | apply State.setPort_mem
    | apply State.giveBack_mem
    | apply State.mem_foldl
    | (intro _ _ _; try dsimp only)
    | split
    | simp only [State.mem_mk]

theorem State.forwardPkt_mem {s : State} {p : Nat} {vc : Nat} {q : Nat} {v : Nat} {k : Packet} (h_s : s.Mem r0) : (State.forwardPkt s p vc q v k).Mem r0 := by
  unfold State.forwardPkt
  try dsimp only [State.take]
  with_reducible repeat' first
    | assumption
    | apply State.pushTx_mem
    | apply State.rxLeave_mem
    | apply State.mem_foldl
    | (intro _ _ _; try dsimp only)
    | split
    | simp only [State.mem_mk]

theorem execPacketForward_mem {p : Fin 8} {vc : Fin 4} {s : State} (h_s : s.Mem r0) : KeepsMem r0 (execPacketForward p vc s) := by
  unfold execPacketForward
  try dsimp only [State.take]
  with_reducible repeat' first
    | assumption
    | apply KeepsMem.next
    | apply State.answer_mem
    | apply State.forwardPkt_mem
    | apply State.rxLeave_mem
    | apply State.mem_foldl
    | (intro _ _ _; try dsimp only)
    | split
    | simp only [State.mem_mk]

theorem execEscWaitExpiry_mem {p : Fin 8} {vc : Fin 2} {s : State} (h_s : s.Mem r0) : KeepsMem r0 (execEscWaitExpiry p vc s) := by
  unfold execEscWaitExpiry
  try dsimp only [State.take]
  with_reducible repeat' first
    | assumption
    | apply KeepsMem.next
    | apply State.setPort_mem
    | split
    | simp only [State.mem_mk]

theorem execWriteAcknowledgement_mem {p : Fin 8} {vc : Fin 4} {s : State} (h_s : s.Mem r0) : KeepsMem r0 (execWriteAcknowledgement p vc s) := by
  unfold execWriteAcknowledgement
  try dsimp only [State.take]
  with_reducible repeat' first
    | assumption
    | apply KeepsMem.next
    | apply State.sendPacket_mem
    | apply State.rxPop_mem
    | apply State.mem_foldl
    | (intro _ _ _; try dsimp only)
    | split
    | simp only [State.mem_mk]

theorem execArrivePacket_mem {p : Fin 8} {vc : Fin 4} {s : State} (h_s : s.Mem r0) : KeepsMem r0 (execArrivePacket p vc s) := by
  unfold execArrivePacket
  try dsimp only [State.take]
  with_reducible repeat' first
    | assumption
    | apply KeepsMem.next
    | apply State.sendArrival_mem
    | apply State.rxPop_mem
    | apply State.mem_foldl
    | (intro _ _ _; try dsimp only)
    | split
    | simp only [State.mem_mk]

end Sys2Proof.Machine
end

