-- ==== Sys2Proof/Laws/MemoryPorter.lean ====
section
/-!
SUPPORT. What the functions of Machine/Porter.lean leave alone (Memory.lean).
-/
namespace Sys2Proof.Machine

variable {r0 : List Host.Cell × List Host.Cell}

theorem State.sendWrite_mem {s : State} {p : Nat} {c : Cmd} {desc dest space : Nat} {x : Nat × List Byte} (h_s : s.Mem r0) : (State.sendWrite s p c desc dest space x).Mem r0 := by
  unfold State.sendWrite
  try dsimp only [State.take]
  with_reducible repeat' first
    | assumption
    | apply State.sendPacket_mem
    | split
    | simp only [State.mem_mk]
    | dsimp only

theorem State.countBytes_mem {s : State} {p : Nat} {t : Nat} {d : Desc} {n : Nat} (h_s : s.Mem r0) : (State.countBytes s p t d n).Mem r0 := by
  unfold State.countBytes
  try dsimp only [State.take]
  with_reducible repeat' first
    | assumption
    | apply State.wr64_mem
    | apply State.chargeHbm_mem
    | apply State.mem_foldl
    | (intro _ _ _; try dsimp only)
    | split
    | simp only [State.mem_mk]

theorem State.nextDesc_mem {s : State} {p : Nat} {r : Run} {d : Desc} (h_s : s.Mem r0) : (State.nextDesc s p r d).Mem r0 := by
  unfold State.nextDesc
  try dsimp only [State.take]
  with_reducible repeat' first
    | assumption
    | apply State.setPorter_mem
    | split
    | simp only [State.mem_mk]

theorem State.noteUe_mem {s : State} {p : Nat} {c : Cmd} {d : Desc} {hw : HwFault} (h_s : s.Mem r0) : (State.noteUe s p c d hw).Mem r0 := by
  unfold State.noteUe
  try dsimp only [State.take]
  with_reducible repeat' first
    | assumption
    | apply State.hwNote_mem
    | apply State.recordFault_mem
    | apply State.logEvent_mem
    | apply State.mem_foldl
    | (intro _ _ _; try dsimp only)
    | split
    | simp only [State.mem_mk]

end Sys2Proof.Machine
end

