-- ==== Sys2Proof/Laws/MemoryEngine.lean ====
section
/-!
SUPPORT. What the functions of Machine/Engine.lean leave alone (Memory.lean).
-/
namespace Sys2Proof.Machine

variable {r0 : List Host.Cell × List Host.Cell}

theorem State.arithInfo_mem {s : State} {r : List Word} {stage : Nat} {c : Cmd} (h_s : s.Mem r0) : (State.arithInfo s r stage c).2.Mem r0 := by
  unfold State.arithInfo
  try dsimp only [State.take]
  with_reducible repeat' first
    | assumption
    | split
    | simp only [State.mem_mk]

theorem State.arithInfo_mem_eq {s : State} {r : List Word} {stage : Nat} {c : Cmd} {y : State}  {x} (h_s : s.Mem r0) (he : State.arithInfo s r stage c = (x, y)) : y.Mem r0 := by
  have := State.arithInfo_mem (r0 := r0) (s := s) (r := r) (stage := stage) (c := c) h_s
  rw [he] at this
  exact this

theorem Result.out_mem {self : Result} (h_self : self.out.Mem r0) : (Result.out self).Mem r0 := by
  unfold Result.out
  try dsimp only [State.take]
  with_reducible repeat' first
    | assumption
    | exact h_self
    | apply State.mem_foldl
    | (intro _ _ _; try dsimp only)
    | split
    | simp only [State.mem_mk]

theorem State.countMiss_mem {s : State} {e : Nat} (h_s : s.Mem r0) : (State.countMiss s e).Mem r0 := by
  unfold State.countMiss
  try dsimp only [State.take]
  with_reducible repeat' first
    | assumption
    | apply State.wr_mem
    | apply State.mem_foldl
    | (intro _ _ _; try dsimp only)
    | split
    | simp only [State.mem_mk]

theorem State.fillRecipe_mem {s : State} {e : Nat} {c : Cmd} (h_s : s.Mem r0) : (State.fillRecipe s e c).Mem r0 := by
  unfold State.fillRecipe
  try dsimp only [State.take]
  with_reducible repeat' first
    | assumption
    | apply State.wr_mem
    | apply State.setEngine_mem
    | split
    | simp only [State.mem_mk]

end Sys2Proof.Machine
end

