-- ==== Sys2Proof/Laws/MemoryHostel.lean ====
section
/-!
SUPPORT. What the functions of Machine/Hostel.lean leave alone (Memory.lean).
-/
namespace Sys2Proof.Machine

variable {r0 : List Host.Cell × List Host.Cell}

theorem State.wrHstCtl_mem {s : State} {f : Func} {e : Nat} {v : Word} (h_s : s.Mem r0) : (State.wrHstCtl s f e v).Mem r0 := by
  unfold State.wrHstCtl
  try dsimp only [State.take]
  with_reducible repeat' first
    | assumption
    | apply State.setEngine_mem
    | apply State.pf_mem
    | split
    | simp only [State.mem_mk]

theorem execTlbInv_mem {f : Func} {e : Fin 6} {v : Word} {s : State} (h_s : s.Mem r0) : KeepsMem r0 (execTlbInv f e v s) := by
  unfold execTlbInv
  with_reducible repeat' first
    | assumption
    | apply KeepsMem.next
    | apply State.guarded_mem
    | apply State.wrHstCtl_mem
    | (intro _ _; try dsimp only)

theorem execInvTn_mem {f : Func} {e : Fin 6} {v : Word} {s : State} (h_s : s.Mem r0) : KeepsMem r0 (execInvTn f e v s) := by
  unfold execInvTn
  with_reducible repeat' first
    | assumption
    | apply KeepsMem.next
    | apply State.guarded_mem
    | apply State.wrHstCtl_mem
    | (intro _ _; try dsimp only)

theorem State.walkRead_mem {s : State} {t : Nat} {at_ : Nat} {lp : Nat} {hw : HwFault} {rs : List (Nat × Nat)} (h_s : s.Mem r0) : (State.walkRead s t at_ lp hw rs).1.Mem r0 := by
  unfold State.walkRead
  try dsimp only [State.take]
  with_reducible repeat' first
    | assumption
    | apply State.hbmNote_mem
    | apply State.chargeHbm_mem
    | apply State.mem_foldl
    | (intro _ _ _; try dsimp only)
    | split
    | simp only [State.mem_mk]

theorem State.walkRead_mem_eq {s : State} {t : Nat} {at_ : Nat} {lp : Nat} {hw : HwFault} {rs : List (Nat × Nat)} {y : State} {x1_} (h_s : s.Mem r0) (he : State.walkRead s t at_ lp hw rs = (y, x1_)) : y.Mem r0 := by
  have h := State.walkRead_mem (r0 := r0) (s := s) (t := t) (at_ := at_) (lp := lp) (hw := hw) (rs := rs) h_s
  rw [he] at h
  exact h

theorem State.translate_mem {s : State} {e : Nat} {k : PageKind} {pt : Nat} {lp : Nat} {hw : HwFault} (h_s : s.Mem r0) : (State.translate s e k pt lp hw).1.Mem r0 := by
  unfold State.translate
  try dsimp only [State.take]
  with_reducible repeat' first
    | assumption
    | apply State.wr_mem
    | apply State.setEngine_mem
    | apply State.walkRead_mem
    | refine State.walkRead_mem_eq ?_ (by assumption)
    | apply State.mem_foldl
    | (intro _ _ _; try dsimp only)
    | split
    | simp only [State.mem_mk]

theorem State.translate_mem_eq {s : State} {e : Nat} {k : PageKind} {pt : Nat} {lp : Nat} {hw : HwFault} {y : State} {x1_} (h_s : s.Mem r0) (he : State.translate s e k pt lp hw = (y, x1_)) : y.Mem r0 := by
  have h := State.translate_mem (r0 := r0) (s := s) (e := e) (k := k) (pt := pt) (lp := lp) (hw := hw) h_s
  rw [he] at h
  exact h

theorem State.walkPages_mem {s : State} {e : Nat} {k : PageKind} {pt tag : Nat} {hw : HwFault} {l : List Nat} (h_s : s.Mem r0) :
    (State.walkPages s e k pt tag hw l).1.Mem r0 := by
  induction l generalizing s with
  | nil => exact h_s
  | cons a l ih =>
    unfold State.walkPages
    split
    · exact State.translate_mem_eq h_s (by assumption)
    · rename_i he
      have h1 := State.translate_mem_eq h_s he
      split
      · exact h1
      · split
        · exact State.walkRead_mem_eq h1 (by assumption)
        · rename_i hr
          have h2 := State.walkRead_mem_eq h1 hr
          split
          · exact h2
          · have h3 := ih h2
            split <;> rename_i hw <;> rw [hw] at h3 <;> exact h3

theorem State.walkPages_mem_eq {s y : State} {e : Nat} {k : PageKind} {pt tag : Nat} {hw : HwFault} {l : List Nat} {x} (h_s : s.Mem r0)
    (he : State.walkPages s e k pt tag hw l = (y, x)) : y.Mem r0 := by
  have h := State.walkPages_mem (r0 := r0) (e := e) (k := k) (pt := pt) (tag := tag) (hw := hw) (l := l) h_s
  rw [he] at h
  exact h

theorem State.hostelNote_mem {s : State} {e addr seq lp : Nat} (h_s : s.Mem r0) : (State.hostelNote s e addr seq lp).Mem r0 := by
  unfold State.hostelNote
  with_reducible repeat' first
    | assumption
    | apply State.wr_mem
    | apply State.wr64_mem

end Sys2Proof.Machine
end

