-- ==== Sys2Proof/Laws/MemoryAttn.lean ====
section
/-!
SUPPORT. What the functions of Machine/Attn.lean leave alone (Memory.lean).
-/
namespace Sys2Proof.Machine

variable {r0 : List Host.Cell × List Host.Cell}

theorem State.walkAll_mem {s : State} {e c p k hw l} (h_s : s.Mem r0) : (State.walkAll s e c p k hw l).1.Mem r0 := by
  induction l generalizing s with
  | nil => exact h_s
  | cons a l ih =>
    unfold State.walkAll
    dsimp only
    split
    · exact ih h_s
    · split
      · exact State.walkPages_mem_eq h_s (by assumption)
      · rename_i he
        have h2 := ih (State.walkPages_mem_eq h_s he)
        split <;> rename_i hw <;> rw [hw] at h2 <;> exact h2

theorem State.walkAll_mem_eq {s y : State} {e c p k hw l x} (h_s : s.Mem r0) (he : State.walkAll s e c p k hw l = (y, x)) : y.Mem r0 := by
  have h := State.walkAll_mem (e := e) (c := c) (p := p) (k := k) (hw := hw) (l := l) h_s
  rw [he] at h
  exact h

theorem State.readPage_mem {s : State} {p : AttnP} {k : PageKind} {hw : HwFault} {len : Nat} {rs : List (Nat × Reach)} {x : Nat × Nat} (h_s : s.Mem r0) : (State.readPage s p k hw len rs x).1.Mem r0 := by
  unfold State.readPage
  try dsimp only [State.take]
  with_reducible repeat' first
    | assumption
    | apply State.walkRead_mem
    | refine State.walkRead_mem_eq ?_ (by assumption)
    | apply State.mem_foldl
    | (intro _ _ _; try dsimp only)
    | split
    | simp only [State.mem_mk]

theorem State.readPage_mem_eq {s : State} {p : AttnP} {k : PageKind} {hw : HwFault} {len : Nat} {rs : List (Nat × Reach)} {x : Nat × Nat} {y : State} {x1_} (h_s : s.Mem r0) (he : State.readPage s p k hw len rs x = (y, x1_)) : y.Mem r0 := by
  have h := State.readPage_mem (r0 := r0) (s := s) (p := p) (k := k) (hw := hw) (len := len) (rs := rs) (x := x) h_s
  rw [he] at h
  exact h

theorem State.readPages_mem {s : State} {p : AttnP} {k : PageKind} {hw : HwFault} {len : Nat} {rs : List (Nat × Reach)} {l : List (Nat × Nat)}
    (h_s : s.Mem r0) : (State.readPages s p k hw len rs l).1.Mem r0 := by
  induction l generalizing s with
  | nil => exact h_s
  | cons a l ih =>
    unfold State.readPages
    split
    · exact State.readPage_mem_eq h_s (by assumption)
    · exact ih (State.readPage_mem_eq h_s (by assumption))

theorem State.readPages_mem_eq {s y : State} {p : AttnP} {k : PageKind} {hw : HwFault} {len : Nat} {rs : List (Nat × Reach)} {l : List (Nat × Nat)} {x}
    (h_s : s.Mem r0) (he : State.readPages s p k hw len rs l = (y, x)) : y.Mem r0 := by
  have h := State.readPages_mem (r0 := r0) (p := p) (k := k) (hw := hw) (len := len) (rs := rs) (l := l) h_s
  rw [he] at h
  exact h

theorem State.readAll_mem {s : State} {e : Nat} {c : Cmd} {p : AttnP} {k : PageKind} {hw : HwFault} {l : List (Nat × List (Nat × Nat))}
    (h_s : s.Mem r0) : (State.readAll s e c p k hw l).1.Mem r0 := by
  induction l generalizing s with
  | nil => exact h_s
  | cons a l ih =>
    unfold State.readAll
    dsimp only
    split
    · exact State.readPages_mem_eq h_s (by assumption)
    · exact ih (State.readPages_mem_eq h_s (by assumption))

theorem State.readAll_mem_eq {s y : State} {e : Nat} {c : Cmd} {p : AttnP} {k : PageKind} {hw : HwFault} {l : List (Nat × List (Nat × Nat))} {x}
    (h_s : s.Mem r0) (he : State.readAll s e c p k hw l = (y, x)) : y.Mem r0 := by
  have h := State.readAll_mem (r0 := r0) (e := e) (c := c) (p := p) (k := k) (hw := hw) (l := l) h_s
  rw [he] at h
  exact h

theorem State.walkFailed_mem {s : State} {e : Nat} {c : Cmd} {b : Nat} {x4 : WalkErr} (h_s : s.Mem r0) : (State.walkFailed s e c b x4).out.Mem r0 := by
  unfold State.walkFailed
  try dsimp only [State.take]
  with_reducible repeat' first
    | assumption
    | apply State.hostelNote_mem
    | apply State.mem_foldl
    | (intro _ _ _; try dsimp only)
    | split
    | simp only [State.mem_mk]

end Sys2Proof.Machine
end

