-- ==== Sys2Proof/Laws/MemoryFence.lean ====
section
/-!
SUPPORT. What the functions of Machine/Fence.lean leave alone (Memory.lean).
-/
namespace Sys2Proof.Machine

variable {r0 : List Host.Cell × List Host.Cell}

theorem State.resetBody_mem {s : State} {page per : Nat} (h_s : s.Mem r0) : (State.resetBody s page per).Mem r0 := by
  unfold State.resetBody
  try dsimp only [State.take]
  with_reducible repeat' first
    | assumption
    | apply State.resetRegs_mem
    | split
    | simp only [State.mem_mk]

theorem State.setBlk_mem {s : State} {page st : Nat} (h_s : s.Mem r0) : (State.setBlk s page st).Mem r0 := by
  unfold State.setBlk
  with_reducible repeat' first
    | assumption
    | apply State.pf_mem

theorem State.dropTree_mem {s : State} {e : Nat} (h_s : s.Mem r0) : (State.dropTree s e).Mem r0 := by
  unfold State.dropTree
  try dsimp only [State.take]
  with_reducible repeat' first
    | assumption
    | apply State.dropWaitOn_mem
    | apply State.mem_foldl
    | (intro _ _ _; try dsimp only)
    | split
    | simp only [State.mem_mk]

theorem State.revoke_mem {s : State} {i : PageId} (h_s : s.Mem r0) : (State.revoke s i).Mem r0 := by
  unfold State.revoke
  try dsimp only [State.take]
  with_reducible repeat' first
    | assumption
    | apply State.wr_mem
    | apply State.mem_foldl
    | (intro _ _ _; try dsimp only)
    | split
    | simp only [State.mem_mk]

theorem State.liftFence_mem {s : State} {p : Nat} {always : Bool} (h_s : s.Mem r0) : (State.liftFence s p always).Mem r0 := by
  unfold State.liftFence
  try dsimp only [State.take]
  with_reducible repeat' first
    | assumption
    | apply State.wb_mem
    | apply State.kick_mem
    | apply State.setBlk_mem
    | split
    | simp only [State.mem_mk]

theorem execFenceLift_mem {page : Nat} {s : State} (h_s : s.Mem r0) : KeepsMem r0 (execFenceLift page s) := by
  unfold execFenceLift
  try dsimp only [State.take]
  with_reducible repeat' first
    | assumption
    | apply KeepsMem.next
    | apply State.liftFence_mem
    | split
    | simp only [State.mem_mk]

theorem State.pmSend_mem {s : State} {k : Nat} {code : Nat} {data : Nat} (h_s : s.Mem r0) : (State.pmSend s k code data).Mem r0 := by
  unfold State.pmSend
  try dsimp only [State.take]
  with_reducible repeat' first
    | assumption
    | apply State.mem_foldl
    | (intro _ _ _; try dsimp only)
    | split
    | simp only [State.mem_mk]

theorem State.pmRail_mem {s : State} {rail : Nat} {code : Nat} {data : Nat} (h_s : s.Mem r0) : (State.pmRail s rail code data).Mem r0 := by
  unfold State.pmRail
  try dsimp only [State.take]
  with_reducible repeat' first
    | assumption
    | apply State.pmSend_mem
    | apply State.mem_foldl
    | (intro _ _ _; try dsimp only)
    | split
    | simp only [State.mem_mk]

end Sys2Proof.Machine
end

