-- ==== Sys2Proof/Laws/MemorySamples.lean ====
section
/-!
SUPPORT. What the functions of Machine/Samples.lean leave alone (Memory.lean).
-/
namespace Sys2Proof.Machine

variable {r0 : List Host.Cell × List Host.Cell}

theorem State.srcErr_mem {s : State} {src : Nat} (h_s : s.Mem r0) : (State.srcErr s src).Mem r0 := by
  unfold State.srcErr
  with_reducible repeat' first
    | assumption
    | apply State.wb_mem

theorem State.srcStart_mem {s : State} {src : Nat} (h_s : s.Mem r0) : (State.srcStart s src).Mem r0 := by
  unfold State.srcStart
  try dsimp only [State.take]
  with_reducible repeat' first
    | assumption
    | apply State.wb_mem
    | apply State.setTh_mem
    | split
    | simp only [State.mem_mk]

theorem State.srcStop_mem {s : State} {src : Nat} (h_s : s.Mem r0) : (State.srcStop s src).Mem r0 := by
  unfold State.srcStop
  try dsimp only [State.take]
  with_reducible repeat' first
    | assumption
    | apply State.wb_mem
    | apply State.setTh_mem
    | split
    | simp only [State.mem_mk]

theorem State.wrSrcOther_mem {s : State} {f : Func} {src off : Nat} {v : Word} (h_s : s.Mem r0) : (State.wrSrcOther s f src off v).Mem r0 := by
  unfold State.wrSrcOther
  with_reducible repeat' first
    | assumption
    | apply State.store_mem
    | apply State.srcErr_mem
    | split

theorem State.wrAug_mem {s : State} {f : Func} {src off : Nat} {v : Word} (h_s : s.Mem r0) : (State.wrAug s f src off v).Mem r0 := by
  unfold State.wrAug
  try dsimp only [State.take]
  with_reducible repeat' first
    | assumption
    | apply State.store_mem
    | apply State.srcErr_mem
    | split

theorem State.setWaiting_mem {s : State} {src : Nat} {l : List Sample} (h_s : s.Mem r0) : (State.setWaiting s src l).Mem r0 := by
  unfold State.setWaiting
  try dsimp only [State.take]
  with_reducible repeat' first
    | assumption
    | simp only [State.mem_mk]

theorem State.addSampleOf_mem {s : State} {src : Nat} {x : Sample} (h_s : s.Mem r0) : (State.addSampleOf s src x).Mem r0 := by
  unfold State.addSampleOf
  with_reducible repeat' first
    | assumption
    | apply State.setWaiting_mem

theorem State.corruptSample_mem {s : State} {src : Nat} (h_s : s.Mem r0) : (State.corruptSample s src).Mem r0 := by
  unfold State.corruptSample
  try dsimp only [State.take]
  with_reducible repeat' first
    | assumption
    | apply State.incSat_mem
    | apply State.raise_mem
    | apply State.logNamed_mem
    | apply State.manUpdate_mem

theorem State.dropSample_mem {s : State} {src : Nat} (h_s : s.Mem r0) : (State.dropSample s src).Mem r0 := by
  unfold State.dropSample
  with_reducible repeat' first
    | assumption
    | apply State.incSat_mem
    | apply State.raise_mem

end Sys2Proof.Machine
end

