-- ==== Sys2Proof/Laws/MemoryI2c.lean ====
section
/-!
SUPPORT. What the functions of Machine/I2c.lean leave alone (Memory.lean).
-/
namespace Sys2Proof.Machine

variable {r0 : List Host.Cell × List Host.Cell}

theorem State.setIc_mem {s : State} {n : Nat} {x : I2cPort} (h_s : s.Mem r0) : (State.setIc s n x).Mem r0 := by
  unfold State.setIc
  try dsimp only [State.take]
  with_reducible repeat' first
    | assumption
    | simp only [State.mem_mk]

theorem State.setDone_mem {s : State} {c : Nat} {w : ThSend} (h_s : s.Mem r0) : (State.setDone s c w).Mem r0 := by
  unfold State.setDone
  try dsimp only [State.take]
  with_reducible repeat' first
    | assumption
    | apply State.incSat_mem
    | apply State.raise_mem
    | apply State.setTh_mem
    | split
    | simp only [State.mem_mk]

theorem State.setFailed_mem {s : State} {c : Nat} (h_s : s.Mem r0) : (State.setFailed s c).Mem r0 := by
  unfold State.setFailed
  try dsimp only [State.take]
  with_reducible repeat' first
    | assumption
    | apply State.setTh_mem
    | simp only [State.mem_mk]

theorem State.icEnd_mem {s : State} {n status : Nat} (h_s : s.Mem r0) : (State.icEnd s n status).Mem r0 := by
  unfold State.icEnd
  with_reducible repeat' first
    | assumption
    | apply State.pf_mem
    | apply State.wb_mem
    | apply State.raise_mem

theorem State.icDrop_mem {s : State} {n : Nat} (h_s : s.Mem r0) : (State.icDrop s n).Mem r0 := by
  unfold State.icDrop
  try dsimp only [State.take]
  with_reducible repeat' first
    | assumption
    | apply State.wb_mem
    | apply State.setIc_mem
    | apply State.setFailed_mem
    | apply State.icEnd_mem
    | apply State.mem_foldl
    | (intro _ _ _; try dsimp only)
    | split
    | simp only [State.mem_mk]

theorem State.icServe_mem {s : State} {n : Nat} (h_s : s.Mem r0) : (State.icServe s n).Mem r0 := by
  unfold State.icServe
  try dsimp only [State.take]
  with_reducible repeat' first
    | assumption
    | apply State.setIc_mem
    | apply State.icDrop_mem
    | split
    | simp only [State.mem_mk]

theorem State.sendSet_mem {s : State} {c : Nat} {w : ThSend} (h_s : s.Mem r0) : (State.sendSet s c w).Mem r0 := by
  unfold State.sendSet
  try dsimp only [State.take]
  with_reducible repeat' first
    | assumption
    | apply State.setTh_mem
    | apply State.setDone_mem
    | apply State.icServe_mem
    | split
    | simp only [State.mem_mk]

theorem State.icStuck_mem {s : State} {n : Nat} (h_s : s.Mem r0) : (State.icStuck s n).Mem r0 := by
  unfold State.icStuck
  try dsimp only [State.take]
  with_reducible repeat' first
    | assumption
    | apply State.wb_mem
    | apply State.incSat_mem
    | apply State.raise_mem
    | apply State.logNamed_mem
    | apply State.setBlk_mem
    | apply State.setIc_mem
    | apply State.icDrop_mem
    | simp only [State.mem_mk]

theorem State.busClear_mem {s : State} {n : Nat} {sdaHigh : List Bool} (h_s : s.Mem r0) : (State.busClear s n sdaHigh).Mem r0 := by
  unfold State.busClear
  try dsimp only [State.take]
  with_reducible repeat' first
    | assumption
    | apply State.incSat_mem
    | apply State.icStuck_mem
    | split
    | simp only [State.mem_mk]
    | dsimp only [id]

theorem State.icStart_mem {s : State} {n : Nat} {sdaHigh : List Bool} (h_s : s.Mem r0) : (State.icStart s n sdaHigh).Mem r0 := by
  unfold State.icStart
  try dsimp only [State.take]
  with_reducible repeat' first
    | assumption
    | apply State.wb_mem
    | apply State.setIc_mem
    | apply State.icEnd_mem
    | apply State.icServe_mem
    | apply State.busClear_mem
    | split
    | simp only [State.mem_mk]
    | dsimp only

theorem State.icUnfence_mem {s : State} {n : Nat} {sdaHigh : List Bool} (h_s : s.Mem r0) : (State.icUnfence s n sdaHigh).Mem r0 := by
  unfold State.icUnfence
  try dsimp only [State.take]
  with_reducible repeat' first
    | assumption
    | apply State.wb_mem
    | apply State.setBlk_mem
    | apply State.icServe_mem
    | apply State.busClear_mem
    | split

theorem State.wrIcCtl_mem {s : State} {f : Func} {n : Nat} {v : Word} {sdaHigh : List Bool} (h_s : s.Mem r0) : (State.wrIcCtl s f n v sdaHigh).Mem r0 := by
  unfold State.wrIcCtl
  try dsimp only [State.take]
  with_reducible repeat' first
    | assumption
    | apply State.icStart_mem
    | apply State.icUnfence_mem
    | split

theorem execI2cStart_mem {f : Func} {n : Fin 2} {v : Word} {sdaHigh : List Bool} {s : State} (h_s : s.Mem r0) : KeepsMem r0 (execI2cStart f n v sdaHigh s) := by
  unfold execI2cStart
  with_reducible repeat' first
    | assumption
    | apply KeepsMem.next
    | apply State.guarded_mem
    | apply State.wrIcCtl_mem
    | (intro _ _; try dsimp only)

theorem execI2cUnfence_mem {f : Func} {n : Fin 2} {v : Word} {sdaHigh : List Bool} {s : State} (h_s : s.Mem r0) : KeepsMem r0 (execI2cUnfence f n v sdaHigh s) := by
  unfold execI2cUnfence
  with_reducible repeat' first
    | assumption
    | apply KeepsMem.next
    | apply State.guarded_mem
    | apply State.wrIcCtl_mem
    | (intro _ _; try dsimp only)

theorem State.wrIcCfg_mem {s : State} {f : Func} {n : Nat} {v : Word} (h_s : s.Mem r0) : (State.wrIcCfg s f n v).Mem r0 := by
  unfold State.wrIcCfg
  with_reducible repeat' first
    | assumption
    | apply State.store_mem
    | split

theorem State.putRead_mem {s : State} {n : Nat} {bs : List Byte} (h_s : s.Mem r0) : (State.putRead s n bs).Mem r0 := by
  unfold State.putRead
  with_reducible repeat' first
    | assumption
    | apply State.wr_mem
    | apply State.mem_foldl
    | (intro _ _ _; try dsimp only)

theorem State.hostEnd_mem {s : State} {n : Nat} {r : I2cEnd} (h_s : s.Mem r0) : (State.hostEnd s n r).Mem r0 := by
  unfold State.hostEnd
  try dsimp only [State.take]
  with_reducible repeat' first
    | assumption
    | apply State.pf_mem
    | apply State.icEnd_mem
    | apply State.putRead_mem
    | split
    | simp only [State.mem_mk]

theorem execI2cTransferDone_mem {n : Fin 2} {clear : List Bool} {r : I2cEnd} {s : State} (h_s : s.Mem r0) : KeepsMem r0 (execI2cTransferDone n clear r s) := by
  unfold execI2cTransferDone
  try dsimp only [State.take]
  with_reducible repeat' first
    | assumption
    | apply KeepsMem.next
    | apply State.setIc_mem
    | apply State.icServe_mem
    | apply State.setFailed_mem
    | apply State.wb_mem
    | apply State.hostEnd_mem
    | apply State.setDone_mem
    | apply State.busClear_mem
    | apply State.setTh_mem
    | apply State.mem_foldl
    | (intro _ _ _; try dsimp only)
    | split
    | simp only [State.mem_mk]

theorem execSclLowTimeout_mem {n : Fin 2} {released : Bool} {s : State} (h_s : s.Mem r0) : KeepsMem r0 (execSclLowTimeout n released s) := by
  unfold execSclLowTimeout
  try dsimp only [State.take]
  with_reducible repeat' first
    | assumption
    | apply KeepsMem.next
    | apply State.wb_mem
    | apply State.setIc_mem
    | apply State.setFailed_mem
    | apply State.icEnd_mem
    | apply State.icServe_mem
    | split
    | simp only [State.mem_mk]

theorem execBusStuck_mem {n : Fin 2} {s : State} (h_s : s.Mem r0) : KeepsMem r0 (execBusStuck n s) := by
  unfold execBusStuck
  with_reducible repeat' first
    | assumption
    | apply KeepsMem.next
    | apply State.icStuck_mem
    | split

end Sys2Proof.Machine
end

