-- ==== Sys2Proof/Laws/MemoryCan.lean ====
section
/-!
SUPPORT. What the functions of Machine/Can.lean leave alone (Memory.lean).
-/
namespace Sys2Proof.Machine

variable {r0 : List Host.Cell × List Host.Cell}

theorem State.setCf_mem {s : State} {n : Nat} {x : CanNode} (h_s : s.Mem r0) : (State.setCf s n x).Mem r0 := by
  unfold State.setCf
  try dsimp only [State.take]
  with_reducible repeat' first
    | assumption
    | simp only [State.mem_mk]

theorem State.showErr_mem {s : State} {n : Nat} (h_s : s.Mem r0) : (State.showErr s n).Mem r0 := by
  unfold State.showErr
  try dsimp only [State.take]
  with_reducible repeat' first
    | assumption
    | apply State.pf_mem
    | apply State.raise_mem
    | apply State.logNamed_mem
    | split

theorem State.showCan_mem {s : State} {n : Nat} (h_s : s.Mem r0) : (State.showCan s n).Mem r0 := by
  unfold State.showCan
  try dsimp only [State.take]
  with_reducible repeat' first
    | assumption
    | apply State.pf_mem
    | apply State.wb_mem
    | split
    | simp only [State.mem_mk]

theorem State.busyErr_mem {s : State} {n : Nat} (h_s : s.Mem r0) : (State.busyErr s n).Mem r0 := by
  unfold State.busyErr
  with_reducible repeat' first
    | assumption
    | apply State.wb_mem

theorem State.setPending_mem {s : State} {n k : Nat} {b : Bool} (h_s : s.Mem r0) : (State.setPending s n k b).Mem r0 := by
  unfold State.setPending
  with_reducible repeat' first
    | assumption
    | apply State.wb_mem

theorem State.leaveBus_mem {s : State} {n : Nat} (h_s : s.Mem r0) : (State.leaveBus s n).Mem r0 := by
  unfold State.leaveBus
  try dsimp only [State.take]
  with_reducible repeat' first
    | assumption
    | apply State.setCf_mem
    | apply State.showCan_mem
    | simp only [State.mem_mk]

theorem State.wrCfMode_mem {s : State} {f : Func} {n : Nat} {v : Word} (h_s : s.Mem r0) : (State.wrCfMode s f n v).Mem r0 := by
  unfold State.wrCfMode
  try dsimp only [State.take]
  with_reducible repeat' first
    | assumption
    | apply State.wb_mem
    | apply State.store_mem
    | apply State.leaveBus_mem
    | split
    | simp only [State.mem_mk]

theorem execCanInit_mem {f : Func} {n : Fin 8} {v : Word} {s : State} (h_s : s.Mem r0) : KeepsMem r0 (execCanInit f n v s) := by
  unfold execCanInit
  with_reducible repeat' first
    | assumption
    | apply KeepsMem.next
    | apply State.guarded_mem
    | apply State.wrCfMode_mem
    | (intro _ _; try dsimp only)

theorem execCanNormal_mem {f : Func} {n : Fin 8} {v : Word} {s : State} (h_s : s.Mem r0) : KeepsMem r0 (execCanNormal f n v s) := by
  unfold execCanNormal
  with_reducible repeat' first
    | assumption
    | apply KeepsMem.next
    | apply State.guarded_mem
    | apply State.wrCfMode_mem
    | (intro _ _; try dsimp only)

theorem execCanListen_mem {f : Func} {n : Fin 8} {v : Word} {s : State} (h_s : s.Mem r0) : KeepsMem r0 (execCanListen f n v s) := by
  unfold execCanListen
  with_reducible repeat' first
    | assumption
    | apply KeepsMem.next
    | apply State.guarded_mem
    | apply State.wrCfMode_mem
    | (intro _ _; try dsimp only)

theorem execCanSleep_mem {f : Func} {n : Fin 8} {v : Word} {s : State} (h_s : s.Mem r0) : KeepsMem r0 (execCanSleep f n v s) := by
  unfold execCanSleep
  with_reducible repeat' first
    | assumption
    | apply KeepsMem.next
    | apply State.guarded_mem
    | apply State.wrCfMode_mem
    | (intro _ _; try dsimp only)

theorem State.wrCfTiming_mem {s : State} {f : Func} {n off : Nat} {v : Word} (h_s : s.Mem r0) : (State.wrCfTiming s f n off v).Mem r0 := by
  unfold State.wrCfTiming
  with_reducible repeat' first
    | assumption
    | apply State.store_mem
    | split

theorem State.cfStore_mem {s : State} {n : Nat} {r : CanRx} (h_s : s.Mem r0) : (State.cfStore s n r).Mem r0 := by
  unfold State.cfStore
  try dsimp only [State.take]
  with_reducible repeat' first
    | assumption
    | apply State.addSat_mem
    | apply State.raise_mem
    | apply State.setCf_mem
    | apply State.showCan_mem
    | split
    | simp only [State.mem_mk]

theorem State.fltOf_mem {s : State} {n : Nat} {f : CanFrame} (h_s : s.Mem r0) : (State.fltOf s n f).2.2.Mem r0 := by
  unfold State.fltOf
  try dsimp only [State.take]
  with_reducible repeat' first
    | assumption
    | split
    | simp only [State.mem_mk]

theorem State.fltOf_mem_eq {s : State} {n : Nat} {f : CanFrame} {y : State} {x2} {x} (h_s : s.Mem r0) (he : State.fltOf s n f = (x, x2, y)) : y.Mem r0 := by
  have := State.fltOf_mem (r0 := r0) (s := s) (n := n) (f := f) h_s
  rw [he] at this
  exact this

theorem State.cfFilter_mem {s : State} {n : Nat} {f : CanFrame} {age : Nat} (h_s : s.Mem r0) : (State.cfFilter s n f age).Mem r0 := by
  unfold State.cfFilter
  try dsimp only [State.take]
  with_reducible repeat' first
    | assumption
    | apply State.incSat_mem
    | apply State.fltOf_mem
    | refine State.fltOf_mem_eq ?_ (by assumption)
    | apply State.raise_mem
    | apply State.wb_mem
    | apply State.cfStore_mem
    | apply State.mem_foldl
    | (intro _ _ _; try dsimp only)
    | split
    | simp only [State.mem_mk]

theorem State.canHead_mem {s : State} {n off : Nat} (h_s : s.Mem r0) : (State.canHead s n off).2.Mem r0 := by
  unfold State.canHead
  try dsimp only [State.take]
  with_reducible repeat' first
    | assumption
    | split
    | simp only [State.mem_mk]

theorem State.canHead_mem_eq {s : State} {n off : Nat} {y : State}  {x} (h_s : s.Mem r0) (he : State.canHead s n off = (x, y)) : y.Mem r0 := by
  have := State.canHead_mem (r0 := r0) (s := s) (n := n) (off := off) h_s
  rw [he] at this
  exact this

theorem State.lockHead_mem {s : State} {n : Nat} (h_s : s.Mem r0) : (State.lockHead s n).Mem r0 := by
  unfold State.lockHead
  try dsimp only [State.take]
  with_reducible repeat' first
    | assumption
    | apply State.setCf_mem
    | apply State.showCan_mem
    | split
    | simp only [State.mem_mk]

theorem State.cfPop_mem {s : State} {n : Nat} (h_s : s.Mem r0) : (State.cfPop s n).Mem r0 := by
  unfold State.cfPop
  try dsimp only [State.take]
  with_reducible repeat' first
    | assumption
    | apply State.setCf_mem
    | apply State.showCan_mem
    | split
    | simp only [State.mem_mk]

theorem State.cfPush_mem {s : State} {n : Nat} (h_s : s.Mem r0) : (State.cfPush s n).Mem r0 := by
  unfold State.cfPush
  try dsimp only [State.take]
  with_reducible repeat' first
    | assumption
    | apply State.setCf_mem
    | apply State.showCan_mem
    | apply State.busyErr_mem
    | split
    | simp only [State.mem_mk]

theorem State.cfFlush_mem {s : State} {n : Nat} (h_s : s.Mem r0) : (State.cfFlush s n).Mem r0 := by
  unfold State.cfFlush
  try dsimp only [State.take]
  with_reducible repeat' first
    | assumption
    | apply State.setCf_mem
    | apply State.showCan_mem
    | split
    | simp only [State.mem_mk]

theorem State.cfReqBuf_mem {s : State} {n k : Nat} (h_s : s.Mem r0) : (State.cfReqBuf s n k).Mem r0 := by
  unfold State.cfReqBuf
  with_reducible repeat' first
    | assumption
    | apply State.setPending_mem
    | split

theorem State.cfAbortBuf_mem {s : State} {n k : Nat} (h_s : s.Mem r0) : (State.cfAbortBuf s n k).Mem r0 := by
  unfold State.cfAbortBuf
  try dsimp only [State.take]
  with_reducible repeat' first
    | assumption
    | apply State.setCf_mem
    | apply State.setPending_mem
    | split
    | simp only [State.mem_mk]

theorem State.wrCfCtl_mem {s : State} {n : Nat} {v : Word} {arriving : Option (CanFrame × Nat)} (h_s : s.Mem r0) : (State.wrCfCtl s n v arriving).Mem r0 := by
  unfold State.wrCfCtl
  try dsimp only [State.take]
  with_reducible repeat' first
    | assumption
    | apply State.cfAbortBuf_mem
    | apply State.cfFilter_mem
    | apply State.cfPop_mem
    | apply State.cfFlush_mem
    | apply State.cfPush_mem
    | apply State.setCf_mem
    | apply State.cfReqBuf_mem
    | apply State.mem_foldl
    | (intro _ _ _; try dsimp only)
    | split
    | simp only [State.mem_mk]

theorem execTxbReq_mem {f : Func} {n : Fin 8} {v : Word} {s : State} (h_s : s.Mem r0) : KeepsMem r0 (execTxbReq f n v s) := by
  unfold execTxbReq
  try dsimp only [State.take]
  with_reducible repeat' first
    | assumption
    | apply KeepsMem.next
    | apply State.wrCfCtl_mem
    | apply State.guarded_mem
    | apply State.mem_foldl
    | (intro _ _ _; try dsimp only)
    | (intro _ _; try dsimp only)
    | split
    | simp only [State.mem_mk]
    | dsimp only [State.take]

theorem execTxbAbort_mem {f : Func} {n : Fin 8} {v : Word} {s : State} (h_s : s.Mem r0) : KeepsMem r0 (execTxbAbort f n v s) := by
  unfold execTxbAbort
  try dsimp only [State.take]
  with_reducible repeat' first
    | assumption
    | apply KeepsMem.next
    | apply State.wrCfCtl_mem
    | apply State.guarded_mem
    | apply State.mem_foldl
    | (intro _ _ _; try dsimp only)
    | (intro _ _; try dsimp only)
    | split
    | simp only [State.mem_mk]
    | dsimp only [State.take]

theorem execTxfPush_mem {f : Func} {n : Fin 8} {v : Word} {s : State} (h_s : s.Mem r0) : KeepsMem r0 (execTxfPush f n v s) := by
  unfold execTxfPush
  try dsimp only [State.take]
  with_reducible repeat' first
    | assumption
    | apply KeepsMem.next
    | apply State.wrCfCtl_mem
    | apply State.guarded_mem
    | apply State.mem_foldl
    | (intro _ _ _; try dsimp only)
    | (intro _ _; try dsimp only)
    | split
    | simp only [State.mem_mk]
    | dsimp only [State.take]

theorem execTxfFlush_mem {f : Func} {n : Fin 8} {v : Word} {s : State} (h_s : s.Mem r0) : KeepsMem r0 (execTxfFlush f n v s) := by
  unfold execTxfFlush
  try dsimp only [State.take]
  with_reducible repeat' first
    | assumption
    | apply KeepsMem.next
    | apply State.wrCfCtl_mem
    | apply State.guarded_mem
    | apply State.mem_foldl
    | (intro _ _ _; try dsimp only)
    | (intro _ _; try dsimp only)
    | split
    | simp only [State.mem_mk]
    | dsimp only [State.take]

theorem execRxPop_mem {f : Func} {n : Fin 8} {v : Word} {arriving : Option (CanFrame × Nat)} {s : State} (h_s : s.Mem r0) : KeepsMem r0 (execRxPop f n v arriving s) := by
  unfold execRxPop
  try dsimp only [State.take]
  with_reducible repeat' first
    | assumption
    | apply KeepsMem.next
    | apply State.wrCfCtl_mem
    | apply State.mem_foldl
    | (intro _ _ _; try dsimp only)
    | split
    | simp only [State.mem_mk]

theorem execRecover_mem {f : Func} {n : Fin 8} {v : Word} {s : State} (h_s : s.Mem r0) : KeepsMem r0 (execRecover f n v s) := by
  unfold execRecover
  try dsimp only [State.take]
  with_reducible repeat' first
    | assumption
    | apply KeepsMem.next
    | apply State.wrCfCtl_mem
    | apply State.guarded_mem
    | apply State.mem_foldl
    | (intro _ _ _; try dsimp only)
    | (intro _ _; try dsimp only)
    | split
    | simp only [State.mem_mk]
    | dsimp only [State.take]

theorem State.wrTxb_mem {s : State} {f : Func} {n off : Nat} {v : Word} (h_s : s.Mem r0) : (State.wrTxb s f n off v).Mem r0 := by
  unfold State.wrTxb
  try dsimp only [State.take]
  with_reducible repeat' first
    | assumption
    | apply State.store_mem
    | apply State.busyErr_mem
    | split

theorem execCanArbitration_mem {n : Fin 8} {s : State} (h_s : s.Mem r0) : KeepsMem r0 (execCanArbitration n s) := by
  unfold execCanArbitration
  try dsimp only [State.take]
  with_reducible repeat' first
    | assumption
    | apply KeepsMem.next
    | apply State.setCf_mem
    | apply State.showCan_mem
    | apply State.mem_foldl
    | (intro _ _ _; try dsimp only)
    | split
    | simp only [State.mem_mk]

theorem State.cfLost_mem {s : State} {n : Nat} (h_s : s.Mem r0) : (State.cfLost s n).Mem r0 := by
  unfold State.cfLost
  try dsimp only [State.take]
  with_reducible repeat' first
    | assumption
    | apply State.setCf_mem
    | apply State.showCan_mem
    | apply State.setPending_mem
    | split
    | simp only [State.mem_mk]

theorem State.measure_mem {s : State} {n : Nat} {delay : Nat} (h_s : s.Mem r0) : (State.measure s n delay).Mem r0 := by
  unfold State.measure
  try dsimp only [State.take]
  with_reducible repeat' first
    | assumption
    | apply State.setCf_mem
    | apply State.mem_foldl
    | (intro _ _ _; try dsimp only)
    | split
    | simp only [State.mem_mk]

theorem State.cfErrNote_mem {s : State} {n : Nat} {lec : Nat} {off : Nat} {hi : Nat} {lo : Nat} (h_s : s.Mem r0) : (State.cfErrNote s n lec off hi lo).Mem r0 := by
  unfold State.cfErrNote
  try dsimp only [State.take]
  with_reducible repeat' first
    | assumption
    | apply State.incSat_mem
    | apply State.pf_mem
    | apply State.mem_foldl
    | (intro _ _ _; try dsimp only)
    | split
    | simp only [State.mem_mk]

theorem State.cfErrCount_mem {s : State} {n : Nat} {tecAdd : Nat} {recAdd : Nat} (h_s : s.Mem r0) : (State.cfErrCount s n tecAdd recAdd).Mem r0 := by
  unfold State.cfErrCount
  try dsimp only [State.take]
  with_reducible repeat' first
    | assumption
    | apply State.leaveBus_mem
    | apply State.showErr_mem
    | apply State.setCf_mem
    | apply State.mem_foldl
    | (intro _ _ _; try dsimp only)
    | split
    | simp only [State.mem_mk]

theorem State.tdcFail_mem {s : State} {n : Nat} (h_s : s.Mem r0) : (State.tdcFail s n).Mem r0 := by
  unfold State.tdcFail
  try dsimp only [State.take]
  with_reducible repeat' first
    | assumption
    | apply State.cfErrCount_mem
    | apply State.take_mem
    | refine State.take_mem_eq ?_ (by assumption)
    | apply State.cfLost_mem
    | apply State.cfErrNote_mem
    | apply State.mem_foldl
    | (intro _ _ _; try dsimp only)
    | split
    | simp only [State.mem_mk]

theorem execCanFrameSent_mem {n : Fin 8} {delay : Nat} {s : State} (h_s : s.Mem r0) : KeepsMem r0 (execCanFrameSent n delay s) := by
  unfold execCanFrameSent
  try dsimp only [State.take]
  with_reducible repeat' first
    | assumption
    | apply KeepsMem.next
    | apply State.setPending_mem
    | apply State.fltOf_mem
    | refine State.fltOf_mem_eq ?_ (by assumption)
    | apply State.showCan_mem
    | apply State.raise_mem
    | apply State.measure_mem
    | apply State.cfStore_mem
    | apply State.showErr_mem
    | apply State.tdcFail_mem
    | apply State.setCf_mem
    | apply State.mem_foldl
    | (intro _ _ _; try dsimp only)
    | split
    | simp only [State.mem_mk]

theorem execCanFrameReceived_mem {n : Fin 8} {frame : CanFrame} {age : Nat} {s : State} (h_s : s.Mem r0) : KeepsMem r0 (execCanFrameReceived n frame age s) := by
  unfold execCanFrameReceived
  try dsimp only [State.take]
  with_reducible repeat' first
    | assumption
    | apply KeepsMem.next
    | apply State.cfFilter_mem
    | apply State.take_mem
    | refine State.take_mem_eq ?_ (by assumption)
    | apply State.cfLost_mem
    | apply State.showErr_mem
    | apply State.setCf_mem
    | apply State.mem_foldl
    | (intro _ _ _; try dsimp only)
    | split
    | simp only [State.mem_mk]

theorem State.sameIdErr_mem {s : State} {n : Nat} {f : CanFrame} (h_s : s.Mem r0) : (State.sameIdErr s n f).Mem r0 := by
  unfold State.sameIdErr
  try dsimp only [State.take]
  with_reducible repeat' first
    | assumption
    | apply State.wr_mem
    | apply State.addSat_mem
    | apply State.raise_mem
    | apply State.logNamed_mem
    | apply State.setCf_mem
    | split
    | simp only [State.mem_mk]
    | dsimp only [id]

theorem execCanError_mem {n : Fin 8} {kind : CanErr} {transmitting : Bool} {outsideArbitration : Bool} {tecAdd : Nat} {recAdd : Nat} {s : State} (h_s : s.Mem r0) : KeepsMem r0 (execCanError n kind transmitting outsideArbitration tecAdd recAdd s) := by
  unfold execCanError
  try dsimp only [State.take]
  with_reducible repeat' first
    | assumption
    | apply KeepsMem.next
    | apply State.sameIdErr_mem
    | apply State.cfErrCount_mem
    | apply State.cfLost_mem
    | apply State.cfErrNote_mem
    | apply State.mem_foldl
    | (intro _ _ _; try dsimp only)
    | split
    | simp only [State.mem_mk]

theorem execBusOffRecovery_mem {n : Fin 8} {s : State} (h_s : s.Mem r0) : KeepsMem r0 (execBusOffRecovery n s) := by
  unfold execBusOffRecovery
  try dsimp only [State.take]
  with_reducible repeat' first
    | assumption
    | apply KeepsMem.next
    | apply State.setCf_mem
    | apply State.showErr_mem
    | split
    | simp only [State.mem_mk]

theorem execTxTimeout_mem {n : Fin 8} {slot : Fin 32} {s : State} (h_s : s.Mem r0) : KeepsMem r0 (execTxTimeout n slot s) := by
  unfold execTxTimeout
  try dsimp only [State.take]
  with_reducible repeat' first
    | assumption
    | apply KeepsMem.next
    | apply State.raise_mem
    | apply State.logNamed_mem
    | apply State.setCf_mem
    | apply State.showCan_mem
    | apply State.setPending_mem
    | split
    | simp only [State.mem_mk]

theorem execRxTimeout_mem {n : Fin 8} {flt : Fin 32} {s : State} (h_s : s.Mem r0) : KeepsMem r0 (execRxTimeout n flt s) := by
  unfold execRxTimeout
  try dsimp only [State.take]
  with_reducible repeat' first
    | assumption
    | apply KeepsMem.next
    | apply State.wb_mem
    | apply State.raise_mem
    | apply State.logNamed_mem
    | split

theorem execBusDominant_mem {n : Fin 8} {s : State} (h_s : s.Mem r0) : KeepsMem r0 (execBusDominant n s) := by
  unfold execBusDominant
  try dsimp only [State.take]
  with_reducible repeat' first
    | assumption
    | apply KeepsMem.next
    | apply State.raise_mem
    | apply State.logNamed_mem
    | apply State.setCf_mem
    | apply State.cfLost_mem
    | split
    | simp only [State.mem_mk]

theorem execBusRecessive_mem {n : Fin 8} {s : State} (h_s : s.Mem r0) : KeepsMem r0 (execBusRecessive n s) := by
  unfold execBusRecessive
  try dsimp only [State.take]
  with_reducible repeat' first
    | assumption
    | apply KeepsMem.next
    | apply State.setCf_mem
    | simp only [State.mem_mk]

theorem execCanWake_mem {n : Fin 8} {frame : Option (CanFrame × Nat)} {s : State} (h_s : s.Mem r0) : KeepsMem r0 (execCanWake n frame s) := by
  unfold execCanWake
  try dsimp only [State.take]
  with_reducible repeat' first
    | assumption
    | apply KeepsMem.next
    | apply State.logNamed_mem
    | apply State.cfFilter_mem
    | apply State.raise_mem
    | apply State.pf_mem
    | apply State.mem_foldl
    | (intro _ _ _; try dsimp only)
    | split
    | simp only [State.mem_mk]

end Sys2Proof.Machine
end

