-- ==== Sys2Proof/Laws/MemoryCaravan.lean ====
section
/-!
SUPPORT. What the functions of Machine/Caravan.lean leave alone (Memory.lean).
-/
namespace Sys2Proof.Machine

variable {r0 : List Host.Cell × List Host.Cell}

theorem State.setVs_mem {s : State} {v : Nat} {x : Stream} (h_s : s.Mem r0) : (State.setVs s v x).Mem r0 := by
  unfold State.setVs
  try dsimp only [State.take]
  with_reducible repeat' first
    | assumption
    | simp only [State.mem_mk]

theorem State.vsLost_mem {s : State} {v n : Nat} (h_s : s.Mem r0) : (State.vsLost s v n).Mem r0 := by
  unfold State.vsLost
  with_reducible repeat' first
    | assumption
    | apply State.pf_mem

theorem State.vsArrive_mem {s : State} {v : Nat} {p : RtpPacket} (h_s : s.Mem r0) : (State.vsArrive s v p).Mem r0 := by
  unfold State.vsArrive
  try dsimp only [State.take]
  with_reducible repeat' first
    | assumption
    | apply State.setVs_mem
    | apply State.vsLost_mem
    | split
    | simp only [State.mem_mk]

theorem execRtpPacket_mem {p : RtpPacket} {s : State} (h_s : s.Mem r0) : KeepsMem r0 (execRtpPacket p s) := by
  unfold execRtpPacket
  with_reducible repeat' first
    | assumption
    | apply KeepsMem.next
    | apply State.vsArrive_mem
    | apply State.mem_foldl
    | (intro _ _ _; try dsimp only)

theorem execJitterExpiry_mem {vs : Fin 80} {s : State} (h_s : s.Mem r0) : KeepsMem r0 (execJitterExpiry vs s) := by
  unfold execJitterExpiry
  try dsimp only [State.take]
  with_reducible repeat' first
    | assumption
    | apply KeepsMem.next
    | apply State.setVs_mem
    | apply State.vsLost_mem
    | split
    | simp only [State.mem_mk]

theorem execStalled_mem {vs : Fin 80} {s : State} (h_s : s.Mem r0) : KeepsMem r0 (execStalled vs s) := by
  unfold execStalled
  try dsimp only [State.take]
  with_reducible repeat' first
    | assumption
    | apply KeepsMem.next
    | apply State.raise_mem
    | apply State.logNamed_mem
    | apply State.setVs_mem
    | split
    | simp only [State.mem_mk]

theorem State.pictureOk_mem {s : State} {v : Nat} {p : Picture} (h_s : s.Mem r0) : (State.pictureOk s v p).2.Mem r0 := by
  unfold State.pictureOk
  try dsimp only [State.take]
  with_reducible repeat' first
    | assumption
    | apply State.take_mem
    | refine State.take_mem_eq ?_ (by assumption)
    | apply State.mem_foldl
    | (intro _ _ _; try dsimp only)
    | split
    | simp only [State.mem_mk]

theorem State.pictureOk_mem_eq {s : State} {v : Nat} {p : Picture} {y : State} {x0_} (h_s : s.Mem r0) (he : State.pictureOk s v p = (x0_, y)) : y.Mem r0 := by
  have h := State.pictureOk_mem (r0 := r0) (s := s) (v := v) (p := p) h_s
  rw [he] at h
  exact h

theorem State.keepPicture_mem {s : State} {t cu : Nat} (h_s : s.Mem r0) : (State.keepPicture s t cu).2.Mem r0 := by
  unfold State.keepPicture
  try dsimp only [State.take]
  with_reducible repeat' first
    | assumption
    | split
    | simp only [State.mem_mk]

theorem State.keepPicture_mem_eq {s : State} {t cu : Nat} {y : State}  {x} (h_s : s.Mem r0) (he : State.keepPicture s t cu = (x, y)) : y.Mem r0 := by
  have := State.keepPicture_mem (r0 := r0) (s := s) (t := t) (cu := cu) h_s
  rw [he] at this
  exact this

theorem State.outForm_mem {s : State} {v : Nat} (h_s : s.Mem r0) : (State.outForm s v).2.Mem r0 := by
  unfold State.outForm
  try dsimp only [State.take]
  with_reducible repeat' first
    | assumption
    | split
    | simp only [State.mem_mk]

theorem State.outForm_mem_eq {s : State} {v : Nat} {y : State}  {x} (h_s : s.Mem r0) (he : State.outForm s v = (x, y)) : y.Mem r0 := by
  have := State.outForm_mem (r0 := r0) (s := s) (v := v) h_s
  rw [he] at this
  exact this

theorem State.picture_mem {s : State} {v : Nat} {p : Picture} (h_s : s.Mem r0) : (State.picture s v p).Mem r0 := by
  unfold State.picture
  try dsimp only [State.take]
  with_reducible repeat' first
    | assumption
    | apply State.pictureOk_mem
    | refine State.pictureOk_mem_eq ?_ (by assumption)
    | apply State.incSat_mem
    | apply State.keepPicture_mem
    | refine State.keepPicture_mem_eq ?_ (by assumption)
    | apply State.addSampleOf_mem
    | apply State.setVs_mem
    | apply State.outForm_mem
    | refine State.outForm_mem_eq ?_ (by assumption)
    | apply State.manUpdate_mem
    | apply State.corruptSample_mem
    | apply State.mem_foldl
    | (intro _ _ _; try dsimp only)
    | split
    | simp only [State.mem_mk]

theorem execPictureDecoded_mem {vs : Fin 80} {pic : Picture} {s : State} (h_s : s.Mem r0) : KeepsMem r0 (execPictureDecoded vs pic s) := by
  unfold execPictureDecoded
  with_reducible repeat' first
    | assumption
    | apply KeepsMem.next
    | apply State.picture_mem
    | split

end Sys2Proof.Machine
end

