-- ==== Sys2Proof/Laws/MemoryEth.lean ====
section
/-!
SUPPORT. What the functions of Machine/Eth.lean leave alone (Memory.lean).
-/
namespace Sys2Proof.Machine

variable {r0 : List Host.Cell × List Host.Cell}

theorem State.setEth_mem {s : State} {p : Nat} {x : EthPort} (h_s : s.Mem r0) : (State.setEth s p x).Mem r0 := by
  unfold State.setEth
  try dsimp only [State.take]
  with_reducible repeat' first
    | assumption
    | simp only [State.mem_mk]

theorem State.setHead_mem {s : State} {p q : Nat} {h : Option EthHead} (h_s : s.Mem r0) : (State.setHead s p q h).Mem r0 := by
  unfold State.setHead
  try dsimp only [State.take]
  with_reducible repeat' first
    | assumption
    | apply State.setEth_mem
    | split
    | simp only [State.mem_mk]

theorem State.ethDrop_mem {s : State} {p : Nat} (h_s : s.Mem r0) : (State.ethDrop s p).Mem r0 := by
  unfold State.ethDrop
  with_reducible repeat' first
    | assumption
    | apply State.raise_mem

theorem State.qDrop_mem {s : State} {p qreg : Nat} (h_s : s.Mem r0) : (State.qDrop s p qreg).Mem r0 := by
  unfold State.qDrop
  with_reducible repeat' first
    | assumption
    | apply State.addSat_mem
    | apply State.ethDrop_mem

theorem State.ethStop_mem {s : State} {p qreg : Nat} (h_s : s.Mem r0) : (State.ethStop s p qreg).Mem r0 := by
  unfold State.ethStop
  with_reducible repeat' first
    | assumption
    | apply State.wb_mem
    | apply State.raise_mem
    | apply State.logNamed_mem

theorem State.ptpForward_mem {s : State} {p stamp : Nat} {f : List Byte} (h_s : s.Mem r0) : (State.ptpForward s p stamp f).Mem r0 := by
  unfold State.ptpForward
  try dsimp only [State.take]
  with_reducible repeat' first
    | assumption
    | apply State.incSat_mem
    | apply State.setEth_mem
    | apply State.ethDrop_mem
    | apply State.mem_foldl
    | (intro _ _ _; try dsimp only)
    | split
    | simp only [State.mem_mk]

theorem State.ethLaunch_mem {s : State} {p : Nat} {q : Nat} {entry : Nat} (h_s : s.Mem r0) : (State.ethLaunch s p q entry).Mem r0 := by
  unfold State.ethLaunch
  try dsimp only [State.take]
  with_reducible repeat' first
    | assumption
    | apply State.wb_mem
    | apply State.pf_mem
    | apply State.setHead_mem
    | apply State.mem_foldl
    | (intro _ _ _; try dsimp only)
    | split
    | simp only [State.mem_mk]

theorem execLinkUp_mem {port : Fin 4} {s : State} (h_s : s.Mem r0) : KeepsMem r0 (execLinkUp port s) := by
  unfold execLinkUp
  try dsimp only [State.take]
  with_reducible repeat' first
    | assumption
    | apply KeepsMem.next
    | apply State.wb_mem
    | apply State.raise_mem
    | apply State.logNamed_mem
    | split

theorem execSilent_mem {port : Fin 4} {arrived : Bool} {s : State} (h_s : s.Mem r0) : KeepsMem r0 (execSilent port arrived s) := by
  unfold execSilent
  try dsimp only [State.take]
  with_reducible repeat' first
    | assumption
    | apply KeepsMem.next
    | apply State.raise_mem
    | apply State.logNamed_mem
    | split

theorem State.wrEthQ_mem {s : State} {f : Func} {p : Nat} {tx : Bool} {q : Nat} {v : Word} (h_s : s.Mem r0) : (State.wrEthQ s f p tx q v).Mem r0 := by
  unfold State.wrEthQ
  try dsimp only [State.take]
  with_reducible repeat' first
    | assumption
    | apply State.store_mem
    | apply State.setHead_mem
    | split

theorem execQueueRestart_mem {f : Func} {port : Fin 4} {tx : Bool} {q : Fin 8} {v : Word} {s : State} (h_s : s.Mem r0) : KeepsMem r0 (execQueueRestart f port tx q v s) := by
  unfold execQueueRestart
  with_reducible repeat' first
    | assumption
    | apply KeepsMem.next
    | apply State.guarded_mem
    | apply State.wrEthQ_mem
    | (intro _ _; try dsimp only)
    | split

theorem State.wrEthCfg_mem {s : State} {f : Func} {p : Nat} {v : Word} (h_s : s.Mem r0) : (State.wrEthCfg s f p v).Mem r0 := by
  unfold State.wrEthCfg
  try dsimp only [State.take]
  with_reducible repeat' first
    | assumption
    | apply State.wb_mem
    | apply State.store_mem
    | split

end Sys2Proof.Machine
end

