-- ==== Sys2Proof/Laws/MemoryWarden.lean ====
section
/-!
SUPPORT. What the functions of Machine/Warden.lean leave alone (Memory.lean).
-/
namespace Sys2Proof.Machine

variable {r0 : List Host.Cell × List Host.Cell}

theorem State.slotStop_mem {s : State} {i : Nat} (h_s : s.Mem r0) : (State.slotStop s i).Mem r0 := by
  unfold State.slotStop
  try dsimp only [State.take]
  with_reducible repeat' first
    | assumption
    | apply State.wb_mem
    | apply State.raise_mem
    | apply State.logEvent_mem
    | apply State.recordFault_mem
    | apply State.trigger_mem
    | apply State.mem_foldl
    | (intro _ _ _; try dsimp only)
    | simp only [State.mem_mk]

theorem State.slotCheck_mem {s : State} {i : Nat} {freshNow : Bool} (h_s : s.Mem r0) : (State.slotCheck s i freshNow).Mem r0 := by
  unfold State.slotCheck
  try dsimp only [State.take]
  with_reducible repeat' first
    | assumption
    | apply State.wb_mem
    | apply State.incSat_mem
    | apply State.raise_mem
    | apply State.logEvent_mem
    | apply State.recordFault_mem
    | apply State.slotFresh_mem
    | apply State.slotStop_mem
    | split

theorem execWdHoldExpired_mem {slot : Fin 64} {freshNow : Bool} {s : State} (h_s : s.Mem r0) : KeepsMem r0 (execWdHoldExpired slot freshNow s) := by
  unfold execWdHoldExpired
  with_reducible repeat' first
    | assumption
    | apply KeepsMem.next
    | apply State.slotFresh_mem
    | apply State.slotStop_mem
    | split

theorem State.wrSlotCtl_mem {s : State} {i : Nat} {v : Word} (h_s : s.Mem r0) : (State.wrSlotCtl s i v).Mem r0 := by
  unfold State.wrSlotCtl
  try dsimp only [State.take]
  with_reducible repeat' first
    | assumption
    | apply State.slotEnd_mem
    | split
    | simp only [State.mem_mk]
    | dsimp only

theorem execStopClr_mem {f : Func} {slot : Fin 64} {v : Word} {s : State} (h_s : s.Mem r0) : KeepsMem r0 (execStopClr f slot v s) := by
  unfold execStopClr
  with_reducible repeat' first
    | assumption
    | apply KeepsMem.next
    | apply State.guarded_mem
    | apply State.wrSlotCtl_mem
    | (intro _ _; try dsimp only)

theorem State.wrSlotCfg_mem {s : State} {f : Func} {i off : Nat} {v : Word} (h_s : s.Mem r0) : (State.wrSlotCfg s f i off v).Mem r0 := by
  unfold State.wrSlotCfg
  try dsimp only [State.take]
  with_reducible repeat' first
    | assumption
    | apply State.wb_mem
    | apply State.store_mem
    | split

theorem State.wrWdSrc_mem {s : State} {f : Func} {a : Nat} {v : Word} (h_s : s.Mem r0) : (State.wrWdSrc s f a v).Mem r0 := by
  unfold State.wrWdSrc
  with_reducible repeat' first
    | assumption
    | apply State.store_mem
    | split

theorem execWdLockstep_mem {s : State} (h_s : s.Mem r0) : KeepsMem r0 (execWdLockstep s) := by
  unfold execWdLockstep
  try dsimp only [State.take]
  with_reducible repeat' first
    | assumption
    | apply KeepsMem.next
    | apply State.wb_mem
    | apply State.raise_mem
    | apply State.logEvent_mem
    | apply State.recordFault_mem
    | apply State.forceStoB_mem
    | apply State.torqueOff_mem
    | apply State.setBlk_mem
    | apply State.mem_foldl
    | (intro _ _ _; try dsimp only)

theorem State.wrWdCtl_mem {s : State} {v : Word} (h_s : s.Mem r0) : (State.wrWdCtl s v).Mem r0 := by
  unfold State.wrWdCtl
  try dsimp only [State.take]
  with_reducible repeat' first
    | assumption
    | apply State.wb_mem
    | split
    | simp only [State.mem_mk]

theorem execDiagRun_mem {f : Func} {v : Word} {s : State} (h_s : s.Mem r0) : KeepsMem r0 (execDiagRun f v s) := by
  unfold execDiagRun
  with_reducible repeat' first
    | assumption
    | apply KeepsMem.next
    | apply State.guarded_mem
    | apply State.wrWdCtl_mem
    | (intro _ _; try dsimp only)

theorem State.setStage_mem {s : State} {n : Nat} (h_s : s.Mem r0) : (State.setStage s n).Mem r0 := by
  unfold State.setStage
  with_reducible repeat' first
    | assumption
    | apply State.pf_mem
    | split

end Sys2Proof.Machine
end

