-- ==== Sys2Proof/Laws/MemorySecurity.lean ====
section
/-!
SUPPORT. What the functions of Machine/Security.lean leave alone (Memory.lean).
-/
namespace Sys2Proof.Machine

variable {r0 : List Host.Cell × List Host.Cell}

theorem State.regRefuse_mem {s : State} {e bit : Nat} (h_s : s.Mem r0) : (State.regRefuse s e bit).Mem r0 := by
  unfold State.regRefuse
  with_reducible repeat' first
    | assumption
    | apply State.pf_mem
    | apply State.wb_mem

theorem State.leaveRegion_mem {s : State} {e : Nat} {owner : Nat} (h_s : s.Mem r0) : (State.leaveRegion s e owner).Mem r0 := by
  unfold State.leaveRegion
  try dsimp only [State.take]
  with_reducible repeat' first
    | assumption
    | apply State.mem_foldl
    | (intro _ _ _; try dsimp only)
    | split
    | simp only [State.mem_mk]

end Sys2Proof.Machine
end

