-- ==== Sys2Proof/Laws/MemorySensors.lean ====
section
/-!
SUPPORT. What the functions of Machine/Sensors.lean leave alone (Memory.lean).
-/
namespace Sys2Proof.Machine

variable {r0 : List Host.Cell × List Host.Cell}

theorem State.addSample_mem {s : State} {k n : Nat} {v : Int} (h_s : s.Mem r0) : (State.addSample s k n v).Mem r0 := by
  unfold State.addSample
  try dsimp only [State.take]
  with_reducible repeat' first
    | assumption
    | simp only [State.mem_mk]

theorem State.clearSamples_mem {s : State} {k : Nat} (h_s : s.Mem r0) : (State.clearSamples s k).Mem r0 := by
  unfold State.clearSamples
  try dsimp only [State.take]
  with_reducible repeat' first
    | assumption
    | simp only [State.mem_mk]

theorem State.setAlarm_mem {s : State} {k : Nat} {b : Bool} (h_s : s.Mem r0) : (State.setAlarm s k b).Mem r0 := by
  unfold State.setAlarm
  try dsimp only [State.take]
  with_reducible repeat' first
    | assumption
    | apply State.mem_foldl
    | (intro _ _ _; try dsimp only)
    | split
    | simp only [State.mem_mk]

theorem State.sensorFault_mem {s : State} {info : Nat} (h_s : s.Mem r0) : (State.sensorFault s info).Mem r0 := by
  unfold State.sensorFault
  with_reducible repeat' first
    | assumption
    | apply State.incSat_mem
    | apply State.raise_mem
    | apply State.logNamed_mem

theorem State.railFault_mem {s : State} {info : Nat} (h_s : s.Mem r0) : (State.railFault s info).Mem r0 := by
  unfold State.railFault
  with_reducible repeat' first
    | assumption
    | apply State.incSat_mem
    | apply State.raise_mem
    | apply State.logNamed_mem

theorem State.onEntry_mem {s : State} {k : Nat} {b : Bool} {event : State → State} (h_s : s.Mem r0) (h_event : ∀ s, s.Mem r0 → (event s).Mem r0) : (State.onEntry s k b event).Mem r0 := by
  unfold State.onEntry
  try dsimp only [State.take]
  with_reducible repeat' first
    | assumption
    | (apply h_event)
    | apply State.setAlarm_mem
    | apply State.mem_foldl
    | (intro _ _ _; try dsimp only)
    | split
    | simp only [State.mem_mk]

theorem State.overtemp_mem {s : State} {info : Nat} (h_s : s.Mem r0) : (State.overtemp s info).Mem r0 := by
  unfold State.overtemp
  try dsimp only [State.take]
  with_reducible repeat' first
    | assumption
    | apply State.logNamed_mem
    | apply State.forceAll_mem
    | apply State.raise_mem
    | apply State.onEntry_mem
    | apply State.mem_foldl
    | (intro _ _ _; try dsimp only)
    | (intro _ _; try dsimp only)
    | split
    | simp only [State.mem_mk]
    | dsimp only [State.take]

theorem State.judgeCtrl_mem {s : State} {n : Nat} (h_s : s.Mem r0) : (State.judgeCtrl s n).Mem r0 := by
  unfold State.judgeCtrl
  try dsimp only [State.take]
  with_reducible repeat' first
    | assumption
    | apply State.setAlarm_mem
    | apply State.overtemp_mem
    | apply State.onEntry_mem
    | apply State.sensorFault_mem
    | apply State.mem_foldl
    | (intro _ _ _; try dsimp only)
    | (intro _ _; try dsimp only)
    | split
    | simp only [State.mem_mk]
    | dsimp only [State.take]

theorem State.ctrlMonitorEvent_mem {s : State} {cause : Nat} (h_s : s.Mem r0) : (State.ctrlMonitorEvent s cause).Mem r0 := by
  unfold State.ctrlMonitorEvent
  with_reducible repeat' first
    | assumption
    | apply State.raise_mem
    | apply State.logEvent_mem
    | apply State.recordFault_mem
    | apply State.forceAll_mem

theorem execHoldupSample_mem {code : BitVec 12} {s : State} (h_s : s.Mem r0) : KeepsMem r0 (execHoldupSample code s) := by
  unfold execHoldupSample
  try dsimp only [State.take]
  with_reducible repeat' first
    | assumption
    | apply KeepsMem.next
    | apply State.wr_mem
    | apply State.addSample_mem
    | apply State.clearSamples_mem
    | split

theorem State.setFcur_mem {s : State} {f : Nat} (h_s : s.Mem r0) : (State.setFcur s f).Mem r0 := by
  unfold State.setFcur
  with_reducible repeat' first
    | assumption
    | apply State.pf_mem

theorem State.setLimit_mem {s : State} {l : Nat} (h_s : s.Mem r0) : (State.setLimit s l).Mem r0 := by
  unfold State.setLimit
  with_reducible repeat' first
    | assumption
    | apply State.pf_mem

theorem State.wrFmin_mem {s : State} {v : Word} (h_s : s.Mem r0) : (State.wrFmin s v).Mem r0 := by
  unfold State.wrFmin
  try dsimp only [State.take]
  with_reducible repeat' first
    | assumption
    | apply State.wr_mem
    | apply State.wb_mem
    | split

theorem State.wrFmax_mem {s : State} {v : Word} (h_s : s.Mem r0) : (State.wrFmax s v).Mem r0 := by
  unfold State.wrFmax
  try dsimp only [State.take]
  with_reducible repeat' first
    | assumption
    | apply State.setFcur_mem
    | apply State.wr_mem
    | apply State.wb_mem
    | apply State.mem_foldl
    | (intro _ _ _; try dsimp only)
    | split
    | simp only [State.mem_mk]

theorem State.wrCap_mem {s : State} {v : Word} (h_s : s.Mem r0) : (State.wrCap s v).Mem r0 := by
  unfold State.wrCap
  with_reducible repeat' first
    | assumption
    | apply State.wr_mem
    | split

theorem State.wrTh_mem {s : State} {off : Nat} {v : Word} (h_s : s.Mem r0) : (State.wrTh s off v).Mem r0 := by
  unfold State.wrTh
  try dsimp only [State.take]
  with_reducible repeat' first
    | assumption
    | apply State.wr_mem
    | split

theorem State.loopPower_mem {s : State} (h_s : s.Mem r0) : (State.loopPower s).2.Mem r0 := by
  unfold State.loopPower
  try dsimp only [State.take]
  with_reducible repeat' first
    | assumption
    | split
    | simp only [State.mem_mk]

theorem State.loopPower_mem_eq {s : State} {y : State}  {x} (h_s : s.Mem r0) (he : State.loopPower s = (x, y)) : y.Mem r0 := by
  have := State.loopPower_mem (r0 := r0) (s := s) h_s
  rw [he] at this
  exact this

theorem State.setLoopFreq_mem {s : State} {f : Nat} (h_s : s.Mem r0) : (State.setLoopFreq s f).Mem r0 := by
  unfold State.setLoopFreq
  try dsimp only [State.take]
  with_reducible repeat' first
    | assumption
    | apply State.setFcur_mem
    | apply State.mem_foldl
    | (intro _ _ _; try dsimp only)
    | split
    | simp only [State.mem_mk]

theorem State.setTarget_mem {s : State} {mv : Nat} (h_s : s.Mem r0) : (State.setTarget s mv).Mem r0 := by
  unfold State.setTarget
  try dsimp only [State.take]
  with_reducible repeat' first
    | assumption
    | apply State.pmRail_mem
    | apply State.pf_mem
    | apply State.mem_foldl
    | (intro _ _ _; try dsimp only)
    | split
    | simp only [State.mem_mk]

theorem execDvfsTick_mem {margin : Nat} {s : State} (h_s : s.Mem r0) : KeepsMem r0 (execDvfsTick margin s) := by
  unfold execDvfsTick
  refine iteInduction (fun _ => KeepsMem.next h_s) fun _ => ?_
  have h0 : s.loopPower.2.Mem r0 := State.loopPower_mem h_s
  have h1 : ∀ lim, (s.loopPower.2.setLimit lim).Mem r0 := fun lim => State.setLimit_mem h0
  refine iteInduction (motive := KeepsMem r0) (fun _ => ?_) fun _ => ?_
  · apply KeepsMem.next
    simp only [State.mem_mk]
    exact State.setTarget_mem (h1 _)
  · apply KeepsMem.next
    refine State.setTarget_mem (State.setLoopFreq_mem ?_)
    simp only [State.mem_mk]
    exact h1 _

theorem execVoltageSettled_mem {s : State} (h_s : s.Mem r0) : KeepsMem r0 (execVoltageSettled s) := by
  unfold execVoltageSettled
  try dsimp only [State.take]
  with_reducible repeat' first
    | assumption
    | apply KeepsMem.next
    | apply State.setLoopFreq_mem
    | apply State.mem_foldl
    | (intro _ _ _; try dsimp only)
    | split
    | simp only [State.mem_mk]

theorem execDroop_mem {s : State} (h_s : s.Mem r0) : KeepsMem r0 (execDroop s) := by
  unfold execDroop
  try dsimp only [State.take]
  with_reducible repeat' first
    | assumption
    | apply KeepsMem.next
    | apply State.addSat_mem
    | apply State.setFcur_mem
    | apply State.setLimit_mem
    | split
    | simp only [State.mem_mk]
    | dsimp only

theorem execDroopRecovery_mem {s : State} (h_s : s.Mem r0) : KeepsMem r0 (execDroopRecovery s) := by
  unfold execDroopRecovery
  try dsimp only [State.take]
  with_reducible repeat' first
    | assumption
    | apply KeepsMem.next
    | apply State.setFcur_mem
    | apply State.setLimit_mem
    | split
    | simp only [State.mem_mk]
    | dsimp only

theorem execCtrlMonitor_mem {voltage : Bool} {s : State} (h_s : s.Mem r0) : KeepsMem r0 (execCtrlMonitor voltage s) := by
  unfold execCtrlMonitor
  with_reducible repeat' first
    | assumption
    | apply KeepsMem.next
    | apply State.ctrlMonitorEvent_mem
    | split

end Sys2Proof.Machine
end

