-- ==== Sys2Proof/Laws/MemoryReset.lean ====
section
/-!
SUPPORT. What the functions of Machine/Reset.lean leave alone (Memory.lean).
-/
namespace Sys2Proof.Machine

variable {r0 : List Host.Cell × List Host.Cell}

theorem State.showReady_mem {s : State} {p : Block → Bool} (h_s : s.Mem r0) : (State.showReady s p).Mem r0 := by
  unfold State.showReady
  with_reducible repeat' first
    | assumption
    | apply State.setBlk_mem
    | apply State.mem_foldl
    | (intro _ _ _; try dsimp only)
    | split

theorem execPorNRelease_mem {samples : List (BitVec 6)} {s : State} (h_s : s.Mem r0) : KeepsMem r0 (execPorNRelease samples s) := by
  unfold execPorNRelease
  try dsimp only [State.take]
  with_reducible repeat' first
    | assumption
    | apply KeepsMem.next
    | apply State.logNamed_mem
    | apply State.setStage_mem
    | apply State.showReady_mem
    | split
    | simp only [State.mem_mk]
    | dsimp only

theorem execTensorRailsUp_mem {s : State} (h_s : s.Mem r0) : KeepsMem r0 (execTensorRailsUp s) := by
  unfold execTensorRailsUp
  try dsimp only [State.take]
  with_reducible repeat' first
    | assumption
    | apply KeepsMem.next
    | apply State.incSat_mem
    | apply State.pmRail_mem
    | apply State.pmSend_mem
    | apply State.setStage_mem
    | apply State.wb_mem
    | apply State.showReady_mem
    | apply State.mem_foldl
    | (intro _ _ _; try dsimp only)
    | split
    | simp only [State.mem_mk]

theorem State.trainAll_mem {s : State} (h_s : s.Mem r0) : (State.trainAll s).Mem r0 := by
  unfold State.trainAll
  try dsimp only [State.take]
  with_reducible repeat' first
    | assumption
    | apply State.startTrain_mem
    | apply State.showReady_mem
    | apply State.mem_foldl
    | (intro _ _ _; try dsimp only)
    | split

theorem State.release_mem {s : State} (h_s : s.Mem r0) : (State.release s).Mem r0 := by
  unfold State.release
  try dsimp only [State.take]
  with_reducible repeat' first
    | assumption
    | apply State.wb_mem
    | apply State.raise_mem
    | apply State.logNamed_mem
    | apply State.setStage_mem
    | simp only [State.mem_mk]

theorem execHostRelease_mem {s : State} (h_s : s.Mem r0) : KeepsMem r0 (execHostRelease s) := by
  unfold execHostRelease
  with_reducible repeat' first
    | assumption
    | apply KeepsMem.next
    | apply State.release_mem
    | split

theorem execPerstNRelease_mem {s : State} (h_s : s.Mem r0) : KeepsMem r0 (execPerstNRelease s) := by
  unfold execPerstNRelease
  try dsimp only [State.take]
  with_reducible repeat' first
    | assumption
    | apply KeepsMem.next
    | simp only [State.mem_mk]

theorem execVfFunctionLevelReset_mem {t : Fin 8} {s : State} (h_s : s.Mem r0) : KeepsMem r0 (execVfFunctionLevelReset t s) := by
  unfold execVfFunctionLevelReset
  try dsimp only [State.take]
  with_reducible repeat' first
    | assumption
    | apply KeepsMem.next
    | apply State.setTenant_mem
    | apply State.startRelease_mem
    | split
    | simp only [State.mem_mk]

end Sys2Proof.Machine
end

