-- ==== Sys2Proof/Laws/MemoryWaybill.lean ====
section
/-!
SUPPORT. What the functions of Machine/Waybill.lean leave alone (Memory.lean).
-/
namespace Sys2Proof.Machine

variable {r0 : List Host.Cell × List Host.Cell}

theorem State.wbErr_mem {s : State} {bit e : Nat} (h_s : s.Mem r0) : (State.wbErr s bit e).Mem r0 := by
  unfold State.wbErr
  with_reducible repeat' first
    | assumption
    | apply State.pf_mem
    | apply State.wb_mem

theorem State.wrWbSel_mem {s : State} {f : Func} {v : Word} (h_s : s.Mem r0) : (State.wrWbSel s f v).Mem r0 := by
  unfold State.wrWbSel
  try dsimp only [State.take]
  with_reducible repeat' first
    | assumption
    | apply State.wr_mem
    | apply State.store_mem

theorem execWbSelWrite_mem {f : Func} {v : Word} {s : State} (h_s : s.Mem r0) : KeepsMem r0 (execWbSelWrite f v s) := by
  unfold execWbSelWrite
  with_reducible repeat' first
    | assumption
    | apply KeepsMem.next
    | apply State.guarded_mem
    | apply State.wrWbSel_mem
    | (intro _ _; try dsimp only)

theorem State.lineEvent_mem {s : State} {x : WbEntry} {e : Nat} (h_s : s.Mem r0) : (State.lineEvent s x e).Mem r0 := by
  unfold State.lineEvent
  try dsimp only [State.take]
  with_reducible repeat' first
    | assumption
    | simp only [State.mem_mk]

theorem State.onEvent_mem {s : State} {action : Nat} {k : State → LineEvent → State} (h_s : s.Mem r0)
    (hk : ∀ s x, s.Mem r0 → (k s x).Mem r0) : (State.onEvent s action k).Mem r0 := by
  unfold State.onEvent
  split
  · exact h_s
  · exact hk _ _ h_s

theorem execWardenDeadline_mem {freshNow : Bool} {s : State} (h_s : s.Mem r0) : KeepsMem r0 (execWardenDeadline freshNow s) := by
  unfold execWardenDeadline
  with_reducible repeat' first
    | assumption
    | apply KeepsMem.next
    | apply State.slotCheck_mem
    | apply State.onEvent_mem
    | (intro _ _ _; try dsimp only)
    | (intro _ _; try dsimp only)

theorem execEngineWindow_mem {s : State} (h_s : s.Mem r0) : KeepsMem r0 (execEngineWindow s) := by
  unfold execEngineWindow
  with_reducible repeat' first
    | assumption
    | apply KeepsMem.next
    | apply State.pf_mem
    | apply State.kick_mem
    | apply State.onEvent_mem
    | apply State.mem_foldl
    | (intro _ _ _; try dsimp only)
    | (intro _ _; try dsimp only)
    | split
    | simp only [State.mem_mk]
    | dsimp only

end Sys2Proof.Machine
end

