-- ==== Sys2Proof/Laws/MemoryHeader.lean ====
section
/-!
SUPPORT. What the functions of Machine/Header.lean leave alone (Memory.lean).
-/
namespace Sys2Proof.Machine

variable {r0 : List Host.Cell × List Host.Cell}

theorem State.ackFault_mem {s : State} {page : Nat} (h_s : s.Mem r0) : (State.ackFault s page).Mem r0 := by
  unfold State.ackFault
  with_reducible repeat' first
    | assumption
    | apply State.wr_mem
    | split

theorem State.wrIrqEn_mem {s : State} {page : Nat} {v : Word} (h_s : s.Mem r0) : (State.wrIrqEn s page v).Mem r0 := by
  unfold State.wrIrqEn
  try dsimp only [State.take]
  with_reducible repeat' first
    | assumption
    | apply State.wr_mem
    | apply State.requestIrq_mem
    | split

theorem State.wrIrqPend_mem {s : State} {page : Nat} {v arriving : Word} (h_s : s.Mem r0) : (State.wrIrqPend s page v arriving).Mem r0 := by
  unfold State.wrIrqPend
  try dsimp only [State.take]
  with_reducible repeat' first
    | assumption
    | apply State.wr_mem
    | apply State.requestIrq_mem
    | split

theorem State.wrIrqForce_mem {s : State} {f : Func} {page : Nat} {v : Word} (h_s : s.Mem r0) : (State.wrIrqForce s f page v).Mem r0 := by
  unfold State.wrIrqForce
  with_reducible repeat' first
    | assumption
    | apply State.raiseBits_mem
    | split

theorem State.wrErrinj_mem {s : State} {f : Func} {page : Nat} {v : Word} (h_s : s.Mem r0) : (State.wrErrinj s f page v).Mem r0 := by
  unfold State.wrErrinj
  with_reducible repeat' first
    | assumption
    | apply State.wr_mem
    | apply State.logNamed_mem
    | split

theorem State.wrLock_mem {s : State} {f : Func} {page : Nat} {v : Word} (h_s : s.Mem r0) : (State.wrLock s f page v).Mem r0 := by
  unfold State.wrLock
  with_reducible repeat' first
    | assumption
    | apply State.wb_mem
    | split

theorem State.wrRoute_mem {s : State} {f : Func} {i : Nat} {v : Word} (h_s : s.Mem r0) : (State.wrRoute s f i v).Mem r0 := by
  unfold State.wrRoute
  try dsimp only [State.take]
  with_reducible repeat' first
    | assumption
    | apply State.wr_mem
    | apply State.sendRoute_mem
    | apply State.store_mem
    | split
    | simp only [State.mem_mk]

theorem State.resetDrive_mem {s : State} {b : Block} {inst : Nat} (h_s : s.Mem r0) : (State.resetDrive s b inst).Mem r0 := by
  unfold State.resetDrive
  try dsimp only [State.take]
  with_reducible repeat' first
    | assumption
    | split
    | simp only [State.mem_mk]

theorem State.resetMile_mem {s : State} {b : Block} (h_s : s.Mem r0) : (State.resetMile s b).Mem r0 := by
  unfold State.resetMile
  try dsimp only [State.take]
  with_reducible repeat' first
    | assumption
    | split
    | simp only [State.mem_mk]

theorem State.idleStb_mem {s : State} {n : Nat} (h_s : s.Mem r0) : (State.idleStb s n).Mem r0 := by
  unfold State.idleStb
  try dsimp only [State.take]
  with_reducible repeat' first
    | assumption
    | simp only [State.mem_mk]

theorem State.controlReset_mem {s : State} {p : Nat} {per : Nat} {i : PageId} (h_s : s.Mem r0) : (State.controlReset s p per i).Mem r0 := by
  unfold State.controlReset
  try dsimp only [State.take]
  with_reducible repeat' first
    | assumption
    | apply State.torqueOff_mem
    | apply State.idleStb_mem
    | apply State.setIc_mem
    | apply State.icDrop_mem
    | apply State.resetDrive_mem
    | apply State.resetBody_mem
    | apply State.showPos_mem
    | apply State.setBlk_mem
    | apply State.resetMile_mem
    | apply State.setPos_mem
    | apply State.mem_foldl
    | (intro _ _ _; try dsimp only)
    | split
    | simp only [State.mem_mk]

theorem execLock_mem {f : Func} {page : Nat} {v : Word} {s : State} (h_s : s.Mem r0) : KeepsMem r0 (execLock f page v s) := by
  unfold execLock
  with_reducible repeat' first
    | assumption
    | apply KeepsMem.next
    | apply State.guarded_mem
    | apply State.wrLock_mem
    | (intro _ _; try dsimp only)

theorem execErrinjWrite_mem {f : Func} {page : Nat} {v : Word} {s : State} (h_s : s.Mem r0) : KeepsMem r0 (execErrinjWrite f page v s) := by
  unfold execErrinjWrite
  with_reducible repeat' first
    | assumption
    | apply KeepsMem.next
    | apply State.guarded_mem
    | apply State.wrErrinj_mem
    | (intro _ _; try dsimp only)

theorem execIrqPendWrite_mem {f : Func} {page : Nat} {v arriving : Word} {s : State} (h_s : s.Mem r0) : KeepsMem r0 (execIrqPendWrite f page v arriving s) := by
  unfold execIrqPendWrite
  with_reducible repeat' first
    | assumption
    | apply KeepsMem.next
    | apply State.raiseBits_mem
    | apply State.wrIrqPend_mem
    | split

theorem execIrqEnWrite_mem {f : Func} {page : Nat} {v : Word} {s : State} (h_s : s.Mem r0) : KeepsMem r0 (execIrqEnWrite f page v s) := by
  unfold execIrqEnWrite
  with_reducible repeat' first
    | assumption
    | apply KeepsMem.next
    | apply State.guarded_mem
    | apply State.wrIrqEn_mem
    | (intro _ _; try dsimp only)

theorem execIrqForce_mem {f : Func} {page : Nat} {v : Word} {s : State} (h_s : s.Mem r0) : KeepsMem r0 (execIrqForce f page v s) := by
  unfold execIrqForce
  with_reducible repeat' first
    | assumption
    | apply KeepsMem.next
    | apply State.guarded_mem
    | apply State.wrIrqForce_mem
    | (intro _ _; try dsimp only)

theorem execIrqRouteWrite_mem {f : Func} {i : Fin 256} {v : Word} {s : State} (h_s : s.Mem r0) : KeepsMem r0 (execIrqRouteWrite f i v s) := by
  unfold execIrqRouteWrite
  with_reducible repeat' first
    | assumption
    | apply KeepsMem.next
    | apply State.guarded_mem
    | apply State.wrRoute_mem
    | (intro _ _; try dsimp only)

end Sys2Proof.Machine
end

