-- ==== Sys2Proof/Laws/MemoryOstler.lean ====
section
/-!
SUPPORT. What the functions of Machine/Ostler.lean leave alone (Memory.lean).
-/
namespace Sys2Proof.Machine

variable {r0 : List Host.Cell × List Host.Cell}

theorem State.omDone_mem {s : State} {result : Nat} (h_s : s.Mem r0) : (State.omDone s result).Mem r0 := by
  unfold State.omDone
  try dsimp only [State.take]
  with_reducible repeat' first
    | assumption
    | apply State.pf_mem
    | apply State.wb_mem
    | apply State.raise_mem
    | simp only [State.mem_mk]
    | dsimp only

theorem State.omResp_mem {s : State} {k : Nat} {v : Word} (h_s : s.Mem r0) : (State.omResp s k v).Mem r0 := by
  unfold State.omResp
  with_reducible repeat' first
    | assumption
    | apply State.wr_mem

theorem State.omData_mem {s : State} {bs : List Byte} (h_s : s.Mem r0) : (State.omData s bs).Mem r0 := by
  unfold State.omData
  with_reducible repeat' first
    | assumption
    | apply State.wr_mem
    | apply State.mem_foldl
    | (intro _ _ _; try dsimp only)

theorem State.wrDoorbell_mem {s : State} {v : Word} (h_s : s.Mem r0) : (State.wrDoorbell s v).Mem r0 := by
  unfold State.wrDoorbell
  try dsimp only [State.take]
  with_reducible repeat' first
    | assumption
    | apply State.wb_mem
    | apply State.omDone_mem
    | split
    | simp only [State.mem_mk]
    | dsimp only

theorem State.mailbox_mem {s : State} {op : Nat} {k : State → State} (h_s : s.Mem r0) (h_k : ∀ s, s.Mem r0 → (k s).Mem r0) : KeepsMem r0 (State.mailbox s op k) := by
  unfold State.mailbox
  with_reducible repeat' first
    | assumption
    | apply KeepsMem.next
    | (apply h_k)
    | split

theorem endLedger_mem {r : State × Bool} {k : State → State} (h : r.1.Mem r0) (hk : ∀ s, s.Mem r0 → (k s).Mem r0) : (endLedger r k).Mem r0 := by
  unfold endLedger
  split
  · exact State.omDone_mem (hk _ h)
  · exact State.omDone_mem h

theorem execGetInfo_mem {s : State} (h_s : s.Mem r0) : KeepsMem r0 (execGetInfo s) := by
  unfold execGetInfo
  with_reducible repeat' first
    | assumption
    | apply KeepsMem.next
    | apply State.omDone_mem
    | apply State.omResp_mem
    | apply State.mailbox_mem
    | (intro _ _; try dsimp only)

theorem execLogRead_mem {s : State} (h_s : s.Mem r0) : KeepsMem r0 (execLogRead s) := by
  unfold execLogRead
  try dsimp only [State.take]
  with_reducible repeat' first
    | assumption
    | apply KeepsMem.next
    | apply State.omDone_mem
    | apply State.omResp_mem
    | apply State.omData_mem
    | apply State.mailbox_mem
    | (intro _ _; try dsimp only)
    | split
    | simp only [State.mem_mk]

theorem State.setSlot_mem {s : State} {k : Nat} {m : List (Nat × Byte)} (h_s : s.Mem r0) : (State.setSlot s k m).Mem r0 := by
  unfold State.setSlot
  try dsimp only [State.take]
  with_reducible repeat' first
    | assumption
    | split
    | simp only [State.mem_mk]

theorem execFwWrite_mem {flashErr : Bool} {s : State} (h_s : s.Mem r0) : KeepsMem r0 (execFwWrite flashErr s) := by
  unfold execFwWrite
  try dsimp only [State.take]
  with_reducible repeat' first
    | assumption
    | apply KeepsMem.next
    | apply State.omDone_mem
    | apply State.mailbox_mem
    | apply State.setSlot_mem
    | apply State.mem_foldl
    | (intro _ _ _; try dsimp only)
    | (intro _ _; try dsimp only)
    | split

theorem execUnfence_mem {s : State} (h_s : s.Mem r0) : KeepsMem r0 (execUnfence s) := by
  unfold execUnfence
  try dsimp only [State.take]
  with_reducible repeat' first
    | assumption
    | apply KeepsMem.next
    | apply State.liftFence_mem
    | apply State.omDone_mem
    | apply State.mailbox_mem
    | (intro _ _; try dsimp only)
    | split
    | simp only [State.mem_mk]

theorem execSensorRead_mem {s : State} (h_s : s.Mem r0) : KeepsMem r0 (execSensorRead s) := by
  unfold execSensorRead
  try dsimp only [State.take]
  with_reducible repeat' first
    | assumption
    | apply KeepsMem.next
    | apply State.omDone_mem
    | apply State.omData_mem
    | apply State.mailbox_mem
    | (intro _ _; try dsimp only)
    | simp only [State.mem_mk]

theorem execMailboxTimeout_mem {s : State} (h_s : s.Mem r0) : KeepsMem r0 (execMailboxTimeout s) := by
  unfold execMailboxTimeout
  with_reducible repeat' first
    | assumption
    | apply KeepsMem.next
    | apply State.omDone_mem
    | split

theorem execOstlerWdt_mem {s : State} (h_s : s.Mem r0) : KeepsMem r0 (execOstlerWdt s) := by
  unfold execOstlerWdt
  try dsimp only [State.take]
  with_reducible repeat' first
    | assumption
    | apply KeepsMem.next
    | apply State.logNamed_mem
    | apply State.omDone_mem
    | split
    | simp only [State.mem_mk]

end Sys2Proof.Machine
end

