-- ==== Sys2Proof/Laws/MemorySheaf.lean ====
section
/-!
SUPPORT. What the functions of Machine/Sheaf.lean leave alone (Memory.lean).
-/
namespace Sys2Proof.Machine

variable {r0 : List Host.Cell × List Host.Cell}

theorem State.wrEngCfg_mem {s : State} {f : Func} {e : Nat} {v : Word} (h_s : s.Mem r0) : (State.wrEngCfg s f e v).Mem r0 := by
  unfold State.wrEngCfg
  try dsimp only [State.take]
  with_reducible repeat' first
    | assumption
    | apply State.setEngine_mem
    | apply State.store_mem
    | split
    | simp only [State.mem_mk]

theorem execRecInv_mem {f : Func} {e : Fin 6} {v : Word} {s : State} (h_s : s.Mem r0) : KeepsMem r0 (execRecInv f e v s) := by
  unfold execRecInv
  with_reducible repeat' first
    | assumption
    | apply KeepsMem.next
    | apply State.guarded_mem
    | apply State.wrEngCfg_mem
    | (intro _ _; try dsimp only)

theorem State.partErr_mem {s : State} {e : Nat} {bits : List Nat} {off : Nat} (h_s : s.Mem r0) : (State.partErr s e bits off).Mem r0 := by
  unfold State.partErr
  try dsimp only [State.take]
  with_reducible repeat' first
    | assumption
    | apply State.pf_mem
    | apply State.wb_mem
    | apply State.mem_foldl
    | (intro _ _ _; try dsimp only)

theorem State.wrPart_mem {s : State} {f : Func} {e t : Nat} {v : Word} (h_s : s.Mem r0) : (State.wrPart s f e t v).Mem r0 := by
  unfold State.wrPart
  try dsimp only [State.take]
  with_reducible repeat' first
    | assumption
    | apply State.store_mem
    | apply State.partErr_mem
    | split
    | simp only [State.mem_mk]

theorem execPartWrite_mem {f : Func} {e : Fin 6} {t : Fin 8} {v : Word} {s : State} (h_s : s.Mem r0) : KeepsMem r0 (execPartWrite f e t v s) := by
  unfold execPartWrite
  with_reducible repeat' first
    | assumption
    | apply KeepsMem.next
    | apply State.guarded_mem
    | apply State.wrPart_mem
    | (intro _ _; try dsimp only)

theorem State.wrRes_mem {s : State} {f : Func} {e t k : Nat} {v : Word} (h_s : s.Mem r0) : (State.wrRes s f e t k v).Mem r0 := by
  unfold State.wrRes
  try dsimp only [State.take]
  with_reducible repeat' first
    | assumption
    | apply State.store_mem
    | apply State.partErr_mem
    | split
    | simp only [State.mem_mk]

theorem execResWrite_mem {f : Func} {e : Fin 6} {t : Fin 8} {k : Fin 4} {v : Word} {s : State} (h_s : s.Mem r0) : KeepsMem r0 (execResWrite f e t k v s) := by
  unfold execResWrite
  with_reducible repeat' first
    | assumption
    | apply KeepsMem.next
    | apply State.guarded_mem
    | apply State.wrRes_mem
    | (intro _ _; try dsimp only)

theorem State.wrEccCtl_mem {s : State} {e : Nat} {v : Word} (h_s : s.Mem r0) : (State.wrEccCtl s e v).Mem r0 := by
  unfold State.wrEccCtl
  with_reducible repeat' first
    | assumption
    | apply State.wr_mem
    | apply State.mem_foldl
    | (intro _ _ _; try dsimp only)
    | split

theorem execCeClr_mem {f : Func} {e : Fin 6} {v : Word} {s : State} (h_s : s.Mem r0) : KeepsMem r0 (execCeClr f e v s) := by
  unfold execCeClr
  with_reducible repeat' first
    | assumption
    | apply KeepsMem.next
    | apply State.guarded_mem
    | apply State.wrEccCtl_mem
    | (intro _ _; try dsimp only)

theorem execSpadClearDone_mem {e : Fin 6} {s : State} (h_s : s.Mem r0) : KeepsMem r0 (execSpadClearDone e s) := by
  unfold execSpadClearDone
  try dsimp only [State.take]
  with_reducible repeat' first
    | assumption
    | apply KeepsMem.next
    | apply State.setEngine_mem
    | apply State.kick_mem
    | apply State.finishAbort_mem
    | apply State.mem_foldl
    | (intro _ _ _; try dsimp only)
    | split
    | simp only [State.mem_mk]

end Sys2Proof.Machine
end

