-- ==== Sys2Proof/Laws/MemoryThresher.lean ====
section
/-!
SUPPORT. What the functions of Machine/Thresher.lean leave alone (Memory.lean).
-/
namespace Sys2Proof.Machine

variable {r0 : List Host.Cell × List Host.Cell}

theorem State.thCorrupt_mem {s : State} {c : Nat} (h_s : s.Mem r0) : (State.thCorrupt s c).Mem r0 := by
  unfold State.thCorrupt
  try dsimp only [State.take]
  with_reducible repeat' first
    | assumption
    | apply State.setTh_mem
    | apply State.corruptSample_mem
    | simp only [State.mem_mk]

theorem State.thMark_mem {s : State} {c : Nat} (h_s : s.Mem r0) : (State.thMark s c).Mem r0 := by
  unfold State.thMark
  try dsimp only [State.take]
  with_reducible repeat' first
    | assumption
    | apply State.setTh_mem
    | split
    | simp only [State.mem_mk]

theorem State.thErr_mem {s : State} {c hi lo : Nat} (h_s : s.Mem r0) : (State.thErr s c hi lo).Mem r0 := by
  unfold State.thErr
  with_reducible repeat' first
    | assumption
    | apply State.incSat_mem

theorem State.csiHead_mem {s : State} {c : Nat} {vc : Nat} {h : HeaderEcc} (h_s : s.Mem r0) : (State.csiHead s c vc h).2.Mem r0 := by
  unfold State.csiHead
  try dsimp only [State.take]
  with_reducible repeat' first
    | assumption
    | apply State.incSat_mem
    | apply State.thErr_mem
    | apply State.thMark_mem
    | apply State.mem_foldl
    | (intro _ _ _; try dsimp only)
    | split
    | simp only [State.mem_mk]

theorem State.csiHead_mem_eq {s : State} {c : Nat} {vc : Nat} {h : HeaderEcc} {y : State} {x0_} (h_s : s.Mem r0) (he : State.csiHead s c vc h = (x0_, y)) : y.Mem r0 := by
  have h := State.csiHead_mem (r0 := r0) (s := s) (c := c) (vc := vc) (h := h) h_s
  rw [he] at h
  exact h

theorem State.thLine_mem {s : State} {c : Nat} {dt : Nat} {crcOk : Bool} {overflow : Bool} {codes : List Nat} (h_s : s.Mem r0) : (State.thLine s c dt crcOk overflow codes).Mem r0 := by
  unfold State.thLine
  try dsimp only [State.take]
  with_reducible repeat' first
    | assumption
    | apply State.incSat_mem
    | apply State.thErr_mem
    | apply State.setTh_mem
    | apply State.mem_foldl
    | (intro _ _ _; try dsimp only)
    | split
    | simp only [State.mem_mk]

theorem execCsi2Line_mem {c : Fin 16} {vc : BitVec 2} {ecc : HeaderEcc} {dt : BitVec 6} {crcOk : Bool} {overflow : Bool} {codes : List Nat} {s : State} (h_s : s.Mem r0) : KeepsMem r0 (execCsi2Line c vc ecc dt crcOk overflow codes s) := by
  unfold execCsi2Line
  try dsimp only [State.take]
  with_reducible repeat' first
    | assumption
    | apply KeepsMem.next
    | apply State.thLine_mem
    | apply State.csiHead_mem
    | refine State.csiHead_mem_eq ?_ (by assumption)
    | apply State.mem_foldl
    | (intro _ _ _; try dsimp only)
    | split
    | simp only [State.mem_mk]

theorem State.thEmbed_mem {s : State} {c : Nat} {crcOk : Bool} {bytes : List Byte} (h_s : s.Mem r0) : (State.thEmbed s c crcOk bytes).Mem r0 := by
  unfold State.thEmbed
  try dsimp only [State.take]
  with_reducible repeat' first
    | assumption
    | apply State.thErr_mem
    | apply State.setTh_mem
    | apply State.mem_foldl
    | (intro _ _ _; try dsimp only)
    | split
    | simp only [State.mem_mk]

theorem execCsi2EmbeddedData_mem {c : Fin 16} {vc : BitVec 2} {ecc : HeaderEcc} {crcOk : Bool} {bytes : List Byte} {s : State} (h_s : s.Mem r0) : KeepsMem r0 (execCsi2EmbeddedData c vc ecc crcOk bytes s) := by
  unfold execCsi2EmbeddedData
  try dsimp only [State.take]
  with_reducible repeat' first
    | assumption
    | apply KeepsMem.next
    | apply State.thEmbed_mem
    | apply State.csiHead_mem
    | refine State.csiHead_mem_eq ?_ (by assumption)
    | apply State.mem_foldl
    | (intro _ _ _; try dsimp only)
    | split
    | simp only [State.mem_mk]

theorem State.startSend_mem {s : State} {c : Nat} (h_s : s.Mem r0) : (State.startSend s c).Mem r0 := by
  unfold State.startSend
  try dsimp only [State.take]
  with_reducible repeat' first
    | assumption
    | apply State.sendSet_mem
    | split
    | simp only [State.mem_mk]

theorem State.updateMeans_mem {s : State} {c : Nat} (h_s : s.Mem r0) : (State.updateMeans s c).Mem r0 := by
  unfold State.updateMeans
  try dsimp only [State.take]
  with_reducible repeat' first
    | assumption
    | apply State.setTh_mem
    | split
    | simp only [State.mem_mk]

theorem State.frameEnd_mem {s : State} {c : Nat} (h_s : s.Mem r0) : (State.frameEnd s c).Mem r0 := by
  unfold State.frameEnd
  try dsimp only [State.take]
  with_reducible repeat' first
    | assumption
    | apply State.setTh_mem
    | apply State.addSampleOf_mem
    | apply State.thCorrupt_mem
    | apply State.startSend_mem
    | apply State.updateMeans_mem
    | split
    | simp only [State.mem_mk]

theorem execCsi2FrameEnd_mem {c : Fin 16} {vc : BitVec 2} {ecc : HeaderEcc} {s : State} (h_s : s.Mem r0) : KeepsMem r0 (execCsi2FrameEnd c vc ecc s) := by
  unfold execCsi2FrameEnd
  try dsimp only [State.take]
  with_reducible repeat' first
    | assumption
    | apply KeepsMem.next
    | apply State.frameEnd_mem
    | apply State.csiHead_mem
    | refine State.csiHead_mem_eq ?_ (by assumption)
    | apply State.mem_foldl
    | (intro _ _ _; try dsimp only)
    | split
    | simp only [State.mem_mk]

theorem execFrameTimeout_mem {c : Fin 16} {ended : Bool} {s : State} (h_s : s.Mem r0) : KeepsMem r0 (execFrameTimeout c ended s) := by
  unfold execFrameTimeout
  with_reducible repeat' first
    | assumption
    | apply KeepsMem.next
    | apply State.thCorrupt_mem
    | apply State.thErr_mem
    | split

theorem execCamSilent_mem {c : Fin 16} {started : Bool} {s : State} (h_s : s.Mem r0) : KeepsMem r0 (execCamSilent c started s) := by
  unfold execCamSilent
  with_reducible repeat' first
    | assumption
    | apply KeepsMem.next
    | apply State.raise_mem
    | apply State.logNamed_mem
    | split

theorem State.wrThSet_mem {s : State} {c : Nat} {v : Word} (h_s : s.Mem r0) : (State.wrThSet s c v).Mem r0 := by
  unfold State.wrThSet
  try dsimp only [State.take]
  with_reducible repeat' first
    | assumption
    | apply State.incSat_mem
    | apply State.setTh_mem
    | split
    | simp only [State.mem_mk]

theorem execThSet_mem {f : Func} {c : Fin 16} {v : Word} {s : State} (h_s : s.Mem r0) : KeepsMem r0 (execThSet f c v s) := by
  unfold execThSet
  with_reducible repeat' first
    | assumption
    | apply KeepsMem.next
    | apply State.guarded_mem
    | apply State.wrThSet_mem
    | (intro _ _; try dsimp only)

theorem execRoiCommit_mem {c : Fin 16} {s : State} (h_s : s.Mem r0) : KeepsMem r0 (execRoiCommit c s) := by
  unfold execRoiCommit
  try dsimp only [State.take]
  with_reducible repeat' first
    | assumption
    | apply KeepsMem.next
    | apply State.setTh_mem
    | split
    | simp only [State.mem_mk]

theorem State.wrThOut_mem {s : State} {f : Func} {c : Nat} {v : Word} (h_s : s.Mem r0) : (State.wrThOut s f c v).Mem r0 := by
  unfold State.wrThOut
  try dsimp only [State.take]
  with_reducible repeat' first
    | assumption
    | apply State.store_mem
    | apply State.srcErr_mem
    | apply State.mem_foldl
    | (intro _ _ _; try dsimp only)
    | split
    | simp only [State.mem_mk]

theorem State.wrThSize_mem {s : State} {f : Func} {c : Nat} {v : Word} (h_s : s.Mem r0) : (State.wrThSize s f c v).Mem r0 := by
  unfold State.wrThSize
  with_reducible repeat' first
    | assumption
    | apply State.store_mem
    | apply State.srcErr_mem
    | split

end Sys2Proof.Machine
end

