-- ==== Sys2Proof/Laws/MemoryRegView.lean ====
section
/-!
SUPPORT. What the functions of Machine/RegView.lean leave alone (Memory.lean).
-/
namespace Sys2Proof.Machine

variable {r0 : List Host.Cell × List Host.Cell}

theorem State.readPair_mem {s : State} {f : Func} {a : Nat} {i : PageId} (h_s : s.Mem r0) : (State.readPair s f a i).Mem r0 := by
  unfold State.readPair
  try dsimp only [State.take]
  with_reducible repeat' first
    | assumption
    | split
    | simp only [State.mem_mk]

theorem State.localRead_mem {s : State} {f : Func} {a : Nat} (h_s : s.Mem r0) : (State.localRead s f a).Mem r0 := by
  unfold State.localRead
  try dsimp only [State.take]
  with_reducible repeat' first
    | assumption
    | apply State.readTsNs_mem
    | apply State.readTxts_mem
    | apply State.canHead_mem
    | refine State.canHead_mem_eq ?_ (by assumption)
    | apply State.lockHead_mem
    | apply State.readPair_mem
    | split
    | simp only [State.mem_mk]

theorem execProbeRead_mem {f : Func} {high : Bool} {s : State} (h_s : s.Mem r0) : KeepsMem r0 (execProbeRead f high s) := by
  unfold execProbeRead
  with_reducible repeat' first
    | assumption
    | apply KeepsMem.next
    | apply State.localRead_mem
    | split

theorem execRxhIdRead_mem {f : Func} {n : Fin 8} {s : State} (h_s : s.Mem r0) : KeepsMem r0 (execRxhIdRead f n s) := by
  unfold execRxhIdRead
  with_reducible repeat' first
    | assumption
    | apply KeepsMem.next
    | apply State.localRead_mem

end Sys2Proof.Machine
end

