-- ==== Sys2Proof/Laws/MemoryHostWrite.lean ====
section
/-!
SUPPORT. What the functions of Machine/HostWrite.lean leave alone (Memory.lean).
-/
namespace Sys2Proof.Machine

variable {r0 : List Host.Cell × List Host.Cell}

theorem State.hwSet_mem {s : State} {a : Nat} {m : Word} (h_s : s.Mem r0) : (State.hwSet s a m).Mem r0 := by
  unfold State.hwSet
  try dsimp only [State.take]
  with_reducible repeat' first
    | assumption
    | apply State.wr_mem
    | split
    | simp only [State.mem_mk]

theorem State.logMgmt_mem {s : State} {a : Nat} {v : Word} (h_s : s.Mem r0) : (State.logMgmt s a v).Mem r0 := by
  unfold State.logMgmt
  with_reducible repeat' first
    | assumption
    | apply State.logNamed_mem

theorem execMgmtRead_mem {s : State} (h_s : s.Mem r0) : KeepsMem r0 (execMgmtRead s) := by
  unfold execMgmtRead
  try dsimp only [State.take]
  with_reducible repeat' first
    | assumption
    | apply KeepsMem.next
    | apply State.omDone_mem
    | apply State.omResp_mem
    | apply State.mailbox_mem
    | apply State.localRead_mem
    | apply State.logMgmt_mem
    | (intro _ _; try dsimp only)
    | split
    | simp only [State.mem_mk]
    | dsimp only

end Sys2Proof.Machine
end

