-- ==== Sys2Proof/Laws/MemoryProxy.lean ====
section
/-!
SUPPORT. What the functions of Machine/Proxy.lean leave alone (Memory.lean).
-/
namespace Sys2Proof.Machine

variable {r0 : List Host.Cell × List Host.Cell}

theorem State.noAccess_mem {s : State} {w : Option Word} {v : Word} (h_s : s.Mem r0) : (State.noAccess s w v).Mem r0 := by
  unfold State.noAccess
  try dsimp only [State.take]
  with_reducible repeat' first
    | assumption
    | split
    | simp only [State.mem_mk]

theorem execProxyRead_mem {p : Fin 8} {vc : Fin 4} {s : State} (h_s : s.Mem r0) : KeepsMem r0 (execProxyRead p vc s) := by
  unfold execProxyRead
  try dsimp only [State.take]
  with_reducible repeat' first
    | assumption
    | apply KeepsMem.next
    | apply State.answer_mem
    | apply State.rxPop_mem
    | apply State.localRead_mem
    | split
    | simp only [State.mem_mk]
    | dsimp only

theorem execProxyReadData_mem {p : Fin 8} {vc : Fin 4} {s : State} (h_s : s.Mem r0) : KeepsMem r0 (execProxyReadData p vc s) := by
  unfold execProxyReadData
  try dsimp only [State.take]
  with_reducible repeat' first
    | assumption
    | apply KeepsMem.next
    | apply State.endProxy_mem
    | apply State.rxPop_mem
    | split
    | simp only [State.mem_mk]
    | dsimp only

theorem execProxyWriteAcknowledgement_mem {p : Fin 8} {vc : Fin 4} {s : State} (h_s : s.Mem r0) : KeepsMem r0 (execProxyWriteAcknowledgement p vc s) := by
  unfold execProxyWriteAcknowledgement
  try dsimp only [State.take]
  with_reducible repeat' first
    | assumption
    | apply KeepsMem.next
    | apply State.endProxy_mem
    | apply State.rxPop_mem
    | split
    | simp only [State.mem_mk]

theorem execProxyTimeout_mem {m : Fin 64} {s : State} (h_s : s.Mem r0) : KeepsMem r0 (execProxyTimeout m s) := by
  unfold execProxyTimeout
  try dsimp only [State.take]
  with_reducible repeat' first
    | assumption
    | apply KeepsMem.next
    | apply State.failProxy_mem
    | split
    | simp only [State.mem_mk]

end Sys2Proof.Machine
end

