-- ==== Sys2Proof/Laws/MemorySlots.lean ====
section
/-!
SUPPORT. What the functions of Machine/Slots.lean leave alone (Memory.lean).
-/
namespace Sys2Proof.Machine

variable {r0 : List Host.Cell × List Host.Cell}

theorem State.sendNew_mem {s : State} {p : Nat} {x : Port} {t : TxPkt} {i : Nat} (h_s : s.Mem r0) : (State.sendNew s p x t i).Mem r0 := by
  unfold State.sendNew
  try dsimp only [State.take]
  with_reducible repeat' first
    | assumption
    | apply State.setPort_mem
    | apply State.giveBack_mem
    | apply State.mem_foldl
    | (intro _ _ _; try dsimp only)
    | split
    | simp only [State.mem_mk]

theorem State.sendSlot_mem {s : State} {p : Nat} (h_s : s.Mem r0) : (State.sendSlot s p).Mem r0 := by
  unfold State.sendSlot
  try dsimp only [State.take]
  with_reducible repeat' first
    | assumption
    | apply State.setPort_mem
    | apply State.sendNew_mem
    | apply State.mem_foldl
    | (intro _ _ _; try dsimp only)
    | split
    | simp only [State.mem_mk]

theorem State.sendSlots_mem {s : State} (h_s : s.Mem r0) : (State.sendSlots s).Mem r0 := by
  unfold State.sendSlots
  try dsimp only [State.take]
  with_reducible repeat' first
    | assumption
    | apply State.sendSlot_mem
    | apply State.mem_foldl
    | (intro _ _ _; try dsimp only)
    | split
    | simp only [State.mem_mk]

end Sys2Proof.Machine
end

