-- ==== Sys2Proof/Laws/MemoryTime.lean ====
section
/-!
SUPPORT. What the functions of Machine/Time.lean leave alone (Memory.lean).
-/
namespace Sys2Proof.Machine

variable {r0 : List Host.Cell × List Host.Cell}

theorem State.tick_mem {s : State} (h_s : s.Mem r0) : (State.tick s).Mem r0 := by
  unfold State.tick
  try dsimp only [State.take]
  with_reducible repeat' first
    | assumption
    | apply State.tickMile_mem
    | apply State.sendSlots_mem
    | apply State.mem_foldl
    | (intro _ _ _; try dsimp only)
    | split
    | simp only [State.mem_mk]

end Sys2Proof.Machine
end

