-- ==== Sys2Proof/Laws/MemoryStep.lean ====
section
/-!
SUPPORT. What the functions of Machine/Step.lean leave alone (Memory.lean).
-/
namespace Sys2Proof.Machine

variable {r0 : List Host.Cell × List Host.Cell}

theorem State.withFetchWord_mem {s : State} {nbits w : Nat} (h_s : s.Mem r0) : (State.withFetchWord s nbits w).Mem r0 := by
  unfold State.withFetchWord
  try dsimp only [State.take]
  with_reducible repeat' first
    | assumption
    | split
    | simp only [State.mem_mk]

end Sys2Proof.Machine
end

