-- ==== Sys2Proof/Laws/State.lean ====
section
/-!
SUPPORT. What each named operation over the state leaves alone: one lemma for each field and operation, true by rfl.
-/
namespace Sys2Proof.Machine

variable (s : State)

@[simp] theorem State.wr_pending (a : Nat) (v : Word) : (s.wr a v).pending = s.pending := rfl
@[simp] theorem State.wr_fresh (a : Nat) (v : Word) : (s.wr a v).fresh = s.fresh := rfl
@[simp] theorem State.wr_fuses (a : Nat) (v : Word) : (s.wr a v).fuses = s.fuses := rfl
@[simp] theorem State.wr_pins (a : Nat) (v : Word) : (s.wr a v).pins = s.pins := rfl
@[simp] theorem State.wr_clock (a : Nat) (v : Word) : (s.wr a v).clock = s.clock := rfl
@[simp] theorem State.wr_hbm (a : Nat) (v : Word) : (s.wr a v).hbm = s.hbm := rfl
@[simp] theorem State.wr_spad (a : Nat) (v : Word) : (s.wr a v).spad = s.spad := rfl
@[simp] theorem State.wr_latch (a : Nat) (v : Word) : (s.wr a v).latch = s.latch := rfl
@[simp] theorem State.wr_rdata (a : Nat) (v : Word) : (s.wr a v).rdata = s.rdata := rfl
@[simp] theorem State.wr_msix (a : Nat) (v : Word) : (s.wr a v).msix = s.msix := rfl
@[simp] theorem State.wr_log (a : Nat) (v : Word) : (s.wr a v).log = s.log := rfl
@[simp] theorem State.wr_ledger (a : Nat) (v : Word) : (s.wr a v).ledger = s.ledger := rfl
@[simp] theorem State.wr_ost (a : Nat) (v : Word) : (s.wr a v).ost = s.ost := rfl
@[simp] theorem State.wr_eng (a : Nat) (v : Word) : (s.wr a v).eng = s.eng := rfl
@[simp] theorem State.wr_por (a : Nat) (v : Word) : (s.wr a v).por = s.por := rfl
@[simp] theorem State.wr_queues (a : Nat) (v : Word) : (s.wr a v).queues = s.queues := rfl
@[simp] theorem State.wr_tn (a : Nat) (v : Word) : (s.wr a v).tn = s.tn := rfl
@[simp] theorem State.wr_bars (a : Nat) (v : Word) : (s.wr a v).bars = s.bars := rfl
@[simp] theorem State.wr_arrQ (a : Nat) (v : Word) : (s.wr a v).arrQ = s.arrQ := rfl
@[simp] theorem State.wr_evQ (a : Nat) (v : Word) : (s.wr a v).evQ = s.evQ := rfl
@[simp] theorem State.wr_field (a : Nat) (v : Word) : (s.wr a v).field = s.field := rfl
@[simp] theorem State.wr_mile (a : Nat) (v : Word) : (s.wr a v).mile = s.mile := rfl
@[simp] theorem State.wr_drv (a : Nat) (v : Word) : (s.wr a v).drv = s.drv := rfl
@[simp] theorem State.wr_perc (a : Nat) (v : Word) : (s.wr a v).perc = s.perc := rfl
@[simp] theorem State.wr_eth (a : Nat) (v : Word) : (s.wr a v).eth = s.eth := rfl
@[simp] theorem State.wr_can (a : Nat) (v : Word) : (s.wr a v).can = s.can := rfl
@[simp] theorem State.wr_i2c (a : Nat) (v : Word) : (s.wr a v).i2c = s.i2c := rfl

@[simp] theorem State.pf_pending (a hi lo v : Nat) : (s.pf a hi lo v).pending = s.pending := rfl
@[simp] theorem State.pf_fresh (a hi lo v : Nat) : (s.pf a hi lo v).fresh = s.fresh := rfl
@[simp] theorem State.pf_fuses (a hi lo v : Nat) : (s.pf a hi lo v).fuses = s.fuses := rfl
@[simp] theorem State.pf_pins (a hi lo v : Nat) : (s.pf a hi lo v).pins = s.pins := rfl
@[simp] theorem State.pf_clock (a hi lo v : Nat) : (s.pf a hi lo v).clock = s.clock := rfl
@[simp] theorem State.pf_hbm (a hi lo v : Nat) : (s.pf a hi lo v).hbm = s.hbm := rfl
@[simp] theorem State.pf_spad (a hi lo v : Nat) : (s.pf a hi lo v).spad = s.spad := rfl
@[simp] theorem State.pf_latch (a hi lo v : Nat) : (s.pf a hi lo v).latch = s.latch := rfl
@[simp] theorem State.pf_rdata (a hi lo v : Nat) : (s.pf a hi lo v).rdata = s.rdata := rfl
@[simp] theorem State.pf_msix (a hi lo v : Nat) : (s.pf a hi lo v).msix = s.msix := rfl
@[simp] theorem State.pf_log (a hi lo v : Nat) : (s.pf a hi lo v).log = s.log := rfl
@[simp] theorem State.pf_ledger (a hi lo v : Nat) : (s.pf a hi lo v).ledger = s.ledger := rfl
@[simp] theorem State.pf_ost (a hi lo v : Nat) : (s.pf a hi lo v).ost = s.ost := rfl
@[simp] theorem State.pf_eng (a hi lo v : Nat) : (s.pf a hi lo v).eng = s.eng := rfl
@[simp] theorem State.pf_por (a hi lo v : Nat) : (s.pf a hi lo v).por = s.por := rfl
@[simp] theorem State.pf_queues (a hi lo v : Nat) : (s.pf a hi lo v).queues = s.queues := rfl
@[simp] theorem State.pf_tn (a hi lo v : Nat) : (s.pf a hi lo v).tn = s.tn := rfl
@[simp] theorem State.pf_bars (a hi lo v : Nat) : (s.pf a hi lo v).bars = s.bars := rfl
@[simp] theorem State.pf_arrQ (a hi lo v : Nat) : (s.pf a hi lo v).arrQ = s.arrQ := rfl
@[simp] theorem State.pf_evQ (a hi lo v : Nat) : (s.pf a hi lo v).evQ = s.evQ := rfl
@[simp] theorem State.pf_field (a hi lo v : Nat) : (s.pf a hi lo v).field = s.field := rfl
@[simp] theorem State.pf_mile (a hi lo v : Nat) : (s.pf a hi lo v).mile = s.mile := rfl
@[simp] theorem State.pf_drv (a hi lo v : Nat) : (s.pf a hi lo v).drv = s.drv := rfl
@[simp] theorem State.pf_perc (a hi lo v : Nat) : (s.pf a hi lo v).perc = s.perc := rfl
@[simp] theorem State.pf_eth (a hi lo v : Nat) : (s.pf a hi lo v).eth = s.eth := rfl
@[simp] theorem State.pf_can (a hi lo v : Nat) : (s.pf a hi lo v).can = s.can := rfl
@[simp] theorem State.pf_i2c (a hi lo v : Nat) : (s.pf a hi lo v).i2c = s.i2c := rfl

@[simp] theorem State.wb_pending (a i : Nat) (b : Bool) : (s.wb a i b).pending = s.pending := rfl
@[simp] theorem State.wb_fresh (a i : Nat) (b : Bool) : (s.wb a i b).fresh = s.fresh := rfl
@[simp] theorem State.wb_fuses (a i : Nat) (b : Bool) : (s.wb a i b).fuses = s.fuses := rfl
@[simp] theorem State.wb_pins (a i : Nat) (b : Bool) : (s.wb a i b).pins = s.pins := rfl
@[simp] theorem State.wb_clock (a i : Nat) (b : Bool) : (s.wb a i b).clock = s.clock := rfl
@[simp] theorem State.wb_hbm (a i : Nat) (b : Bool) : (s.wb a i b).hbm = s.hbm := rfl
@[simp] theorem State.wb_spad (a i : Nat) (b : Bool) : (s.wb a i b).spad = s.spad := rfl
@[simp] theorem State.wb_latch (a i : Nat) (b : Bool) : (s.wb a i b).latch = s.latch := rfl
@[simp] theorem State.wb_rdata (a i : Nat) (b : Bool) : (s.wb a i b).rdata = s.rdata := rfl
@[simp] theorem State.wb_msix (a i : Nat) (b : Bool) : (s.wb a i b).msix = s.msix := rfl
@[simp] theorem State.wb_log (a i : Nat) (b : Bool) : (s.wb a i b).log = s.log := rfl
@[simp] theorem State.wb_ledger (a i : Nat) (b : Bool) : (s.wb a i b).ledger = s.ledger := rfl
@[simp] theorem State.wb_ost (a i : Nat) (b : Bool) : (s.wb a i b).ost = s.ost := rfl
@[simp] theorem State.wb_eng (a i : Nat) (b : Bool) : (s.wb a i b).eng = s.eng := rfl
@[simp] theorem State.wb_por (a i : Nat) (b : Bool) : (s.wb a i b).por = s.por := rfl
@[simp] theorem State.wb_queues (a i : Nat) (b : Bool) : (s.wb a i b).queues = s.queues := rfl
@[simp] theorem State.wb_tn (a i : Nat) (b : Bool) : (s.wb a i b).tn = s.tn := rfl
@[simp] theorem State.wb_bars (a i : Nat) (b : Bool) : (s.wb a i b).bars = s.bars := rfl
@[simp] theorem State.wb_arrQ (a i : Nat) (b : Bool) : (s.wb a i b).arrQ = s.arrQ := rfl
@[simp] theorem State.wb_evQ (a i : Nat) (b : Bool) : (s.wb a i b).evQ = s.evQ := rfl
@[simp] theorem State.wb_field (a i : Nat) (b : Bool) : (s.wb a i b).field = s.field := rfl
@[simp] theorem State.wb_mile (a i : Nat) (b : Bool) : (s.wb a i b).mile = s.mile := rfl
@[simp] theorem State.wb_drv (a i : Nat) (b : Bool) : (s.wb a i b).drv = s.drv := rfl
@[simp] theorem State.wb_perc (a i : Nat) (b : Bool) : (s.wb a i b).perc = s.perc := rfl
@[simp] theorem State.wb_eth (a i : Nat) (b : Bool) : (s.wb a i b).eth = s.eth := rfl
@[simp] theorem State.wb_can (a i : Nat) (b : Bool) : (s.wb a i b).can = s.can := rfl
@[simp] theorem State.wb_i2c (a i : Nat) (b : Bool) : (s.wb a i b).i2c = s.i2c := rfl

@[simp] theorem State.wr64_pending (a v : Nat) : (s.wr64 a v).pending = s.pending := rfl
@[simp] theorem State.wr64_fresh (a v : Nat) : (s.wr64 a v).fresh = s.fresh := rfl
@[simp] theorem State.wr64_fuses (a v : Nat) : (s.wr64 a v).fuses = s.fuses := rfl
@[simp] theorem State.wr64_pins (a v : Nat) : (s.wr64 a v).pins = s.pins := rfl
@[simp] theorem State.wr64_clock (a v : Nat) : (s.wr64 a v).clock = s.clock := rfl
@[simp] theorem State.wr64_hbm (a v : Nat) : (s.wr64 a v).hbm = s.hbm := rfl
@[simp] theorem State.wr64_spad (a v : Nat) : (s.wr64 a v).spad = s.spad := rfl
@[simp] theorem State.wr64_latch (a v : Nat) : (s.wr64 a v).latch = s.latch := rfl
@[simp] theorem State.wr64_rdata (a v : Nat) : (s.wr64 a v).rdata = s.rdata := rfl
@[simp] theorem State.wr64_msix (a v : Nat) : (s.wr64 a v).msix = s.msix := rfl
@[simp] theorem State.wr64_log (a v : Nat) : (s.wr64 a v).log = s.log := rfl
@[simp] theorem State.wr64_ledger (a v : Nat) : (s.wr64 a v).ledger = s.ledger := rfl
@[simp] theorem State.wr64_ost (a v : Nat) : (s.wr64 a v).ost = s.ost := rfl
@[simp] theorem State.wr64_eng (a v : Nat) : (s.wr64 a v).eng = s.eng := rfl
@[simp] theorem State.wr64_por (a v : Nat) : (s.wr64 a v).por = s.por := rfl
@[simp] theorem State.wr64_queues (a v : Nat) : (s.wr64 a v).queues = s.queues := rfl
@[simp] theorem State.wr64_tn (a v : Nat) : (s.wr64 a v).tn = s.tn := rfl
@[simp] theorem State.wr64_bars (a v : Nat) : (s.wr64 a v).bars = s.bars := rfl
@[simp] theorem State.wr64_arrQ (a v : Nat) : (s.wr64 a v).arrQ = s.arrQ := rfl
@[simp] theorem State.wr64_evQ (a v : Nat) : (s.wr64 a v).evQ = s.evQ := rfl
@[simp] theorem State.wr64_field (a v : Nat) : (s.wr64 a v).field = s.field := rfl
@[simp] theorem State.wr64_mile (a v : Nat) : (s.wr64 a v).mile = s.mile := rfl
@[simp] theorem State.wr64_drv (a v : Nat) : (s.wr64 a v).drv = s.drv := rfl
@[simp] theorem State.wr64_perc (a v : Nat) : (s.wr64 a v).perc = s.perc := rfl
@[simp] theorem State.wr64_eth (a v : Nat) : (s.wr64 a v).eth = s.eth := rfl
@[simp] theorem State.wr64_can (a v : Nat) : (s.wr64 a v).can = s.can := rfl
@[simp] theorem State.wr64_i2c (a v : Nat) : (s.wr64 a v).i2c = s.i2c := rfl

@[simp] theorem State.incSat_pending (a hi lo : Nat) : (s.incSat a hi lo).pending = s.pending := rfl
@[simp] theorem State.incSat_fresh (a hi lo : Nat) : (s.incSat a hi lo).fresh = s.fresh := rfl
@[simp] theorem State.incSat_fuses (a hi lo : Nat) : (s.incSat a hi lo).fuses = s.fuses := rfl
@[simp] theorem State.incSat_pins (a hi lo : Nat) : (s.incSat a hi lo).pins = s.pins := rfl
@[simp] theorem State.incSat_clock (a hi lo : Nat) : (s.incSat a hi lo).clock = s.clock := rfl
@[simp] theorem State.incSat_hbm (a hi lo : Nat) : (s.incSat a hi lo).hbm = s.hbm := rfl
@[simp] theorem State.incSat_spad (a hi lo : Nat) : (s.incSat a hi lo).spad = s.spad := rfl
@[simp] theorem State.incSat_latch (a hi lo : Nat) : (s.incSat a hi lo).latch = s.latch := rfl
@[simp] theorem State.incSat_rdata (a hi lo : Nat) : (s.incSat a hi lo).rdata = s.rdata := rfl
@[simp] theorem State.incSat_msix (a hi lo : Nat) : (s.incSat a hi lo).msix = s.msix := rfl
@[simp] theorem State.incSat_log (a hi lo : Nat) : (s.incSat a hi lo).log = s.log := rfl
@[simp] theorem State.incSat_ledger (a hi lo : Nat) : (s.incSat a hi lo).ledger = s.ledger := rfl
@[simp] theorem State.incSat_ost (a hi lo : Nat) : (s.incSat a hi lo).ost = s.ost := rfl
@[simp] theorem State.incSat_eng (a hi lo : Nat) : (s.incSat a hi lo).eng = s.eng := rfl
@[simp] theorem State.incSat_por (a hi lo : Nat) : (s.incSat a hi lo).por = s.por := rfl
@[simp] theorem State.incSat_queues (a hi lo : Nat) : (s.incSat a hi lo).queues = s.queues := rfl
@[simp] theorem State.incSat_tn (a hi lo : Nat) : (s.incSat a hi lo).tn = s.tn := rfl
@[simp] theorem State.incSat_bars (a hi lo : Nat) : (s.incSat a hi lo).bars = s.bars := rfl
@[simp] theorem State.incSat_arrQ (a hi lo : Nat) : (s.incSat a hi lo).arrQ = s.arrQ := rfl
@[simp] theorem State.incSat_evQ (a hi lo : Nat) : (s.incSat a hi lo).evQ = s.evQ := rfl
@[simp] theorem State.incSat_field (a hi lo : Nat) : (s.incSat a hi lo).field = s.field := rfl
@[simp] theorem State.incSat_mile (a hi lo : Nat) : (s.incSat a hi lo).mile = s.mile := rfl
@[simp] theorem State.incSat_drv (a hi lo : Nat) : (s.incSat a hi lo).drv = s.drv := rfl
@[simp] theorem State.incSat_perc (a hi lo : Nat) : (s.incSat a hi lo).perc = s.perc := rfl
@[simp] theorem State.incSat_eth (a hi lo : Nat) : (s.incSat a hi lo).eth = s.eth := rfl
@[simp] theorem State.incSat_can (a hi lo : Nat) : (s.incSat a hi lo).can = s.can := rfl
@[simp] theorem State.incSat_i2c (a hi lo : Nat) : (s.incSat a hi lo).i2c = s.i2c := rfl

@[simp] theorem State.addSat_pending (a n : Nat) : (s.addSat a n).pending = s.pending := rfl
@[simp] theorem State.addSat_fresh (a n : Nat) : (s.addSat a n).fresh = s.fresh := rfl
@[simp] theorem State.addSat_fuses (a n : Nat) : (s.addSat a n).fuses = s.fuses := rfl
@[simp] theorem State.addSat_pins (a n : Nat) : (s.addSat a n).pins = s.pins := rfl
@[simp] theorem State.addSat_clock (a n : Nat) : (s.addSat a n).clock = s.clock := rfl
@[simp] theorem State.addSat_hbm (a n : Nat) : (s.addSat a n).hbm = s.hbm := rfl
@[simp] theorem State.addSat_spad (a n : Nat) : (s.addSat a n).spad = s.spad := rfl
@[simp] theorem State.addSat_latch (a n : Nat) : (s.addSat a n).latch = s.latch := rfl
@[simp] theorem State.addSat_rdata (a n : Nat) : (s.addSat a n).rdata = s.rdata := rfl
@[simp] theorem State.addSat_msix (a n : Nat) : (s.addSat a n).msix = s.msix := rfl
@[simp] theorem State.addSat_log (a n : Nat) : (s.addSat a n).log = s.log := rfl
@[simp] theorem State.addSat_ledger (a n : Nat) : (s.addSat a n).ledger = s.ledger := rfl
@[simp] theorem State.addSat_ost (a n : Nat) : (s.addSat a n).ost = s.ost := rfl
@[simp] theorem State.addSat_eng (a n : Nat) : (s.addSat a n).eng = s.eng := rfl
@[simp] theorem State.addSat_por (a n : Nat) : (s.addSat a n).por = s.por := rfl
@[simp] theorem State.addSat_queues (a n : Nat) : (s.addSat a n).queues = s.queues := rfl
@[simp] theorem State.addSat_tn (a n : Nat) : (s.addSat a n).tn = s.tn := rfl
@[simp] theorem State.addSat_bars (a n : Nat) : (s.addSat a n).bars = s.bars := rfl
@[simp] theorem State.addSat_arrQ (a n : Nat) : (s.addSat a n).arrQ = s.arrQ := rfl
@[simp] theorem State.addSat_evQ (a n : Nat) : (s.addSat a n).evQ = s.evQ := rfl
@[simp] theorem State.addSat_field (a n : Nat) : (s.addSat a n).field = s.field := rfl
@[simp] theorem State.addSat_mile (a n : Nat) : (s.addSat a n).mile = s.mile := rfl
@[simp] theorem State.addSat_drv (a n : Nat) : (s.addSat a n).drv = s.drv := rfl
@[simp] theorem State.addSat_perc (a n : Nat) : (s.addSat a n).perc = s.perc := rfl
@[simp] theorem State.addSat_eth (a n : Nat) : (s.addSat a n).eth = s.eth := rfl
@[simp] theorem State.addSat_can (a n : Nat) : (s.addSat a n).can = s.can := rfl
@[simp] theorem State.addSat_i2c (a n : Nat) : (s.addSat a n).i2c = s.i2c := rfl

@[simp] theorem State.resetRegs_pending (p : Nat → Bool) : (s.resetRegs p).pending = s.pending := rfl
@[simp] theorem State.resetRegs_fresh (p : Nat → Bool) : (s.resetRegs p).fresh = s.fresh := rfl
@[simp] theorem State.resetRegs_fuses (p : Nat → Bool) : (s.resetRegs p).fuses = s.fuses := rfl
@[simp] theorem State.resetRegs_pins (p : Nat → Bool) : (s.resetRegs p).pins = s.pins := rfl
@[simp] theorem State.resetRegs_clock (p : Nat → Bool) : (s.resetRegs p).clock = s.clock := rfl
@[simp] theorem State.resetRegs_hbm (p : Nat → Bool) : (s.resetRegs p).hbm = s.hbm := rfl
@[simp] theorem State.resetRegs_spad (p : Nat → Bool) : (s.resetRegs p).spad = s.spad := rfl
@[simp] theorem State.resetRegs_latch (p : Nat → Bool) : (s.resetRegs p).latch = s.latch := rfl
@[simp] theorem State.resetRegs_rdata (p : Nat → Bool) : (s.resetRegs p).rdata = s.rdata := rfl
@[simp] theorem State.resetRegs_msix (p : Nat → Bool) : (s.resetRegs p).msix = s.msix := rfl
@[simp] theorem State.resetRegs_log (p : Nat → Bool) : (s.resetRegs p).log = s.log := rfl
@[simp] theorem State.resetRegs_ledger (p : Nat → Bool) : (s.resetRegs p).ledger = s.ledger := rfl
@[simp] theorem State.resetRegs_ost (p : Nat → Bool) : (s.resetRegs p).ost = s.ost := rfl
@[simp] theorem State.resetRegs_eng (p : Nat → Bool) : (s.resetRegs p).eng = s.eng := rfl
@[simp] theorem State.resetRegs_por (p : Nat → Bool) : (s.resetRegs p).por = s.por := rfl
@[simp] theorem State.resetRegs_queues (p : Nat → Bool) : (s.resetRegs p).queues = s.queues := rfl
@[simp] theorem State.resetRegs_tn (p : Nat → Bool) : (s.resetRegs p).tn = s.tn := rfl
@[simp] theorem State.resetRegs_bars (p : Nat → Bool) : (s.resetRegs p).bars = s.bars := rfl
@[simp] theorem State.resetRegs_arrQ (p : Nat → Bool) : (s.resetRegs p).arrQ = s.arrQ := rfl
@[simp] theorem State.resetRegs_evQ (p : Nat → Bool) : (s.resetRegs p).evQ = s.evQ := rfl
@[simp] theorem State.resetRegs_field (p : Nat → Bool) : (s.resetRegs p).field = s.field := rfl
@[simp] theorem State.resetRegs_mile (p : Nat → Bool) : (s.resetRegs p).mile = s.mile := rfl
@[simp] theorem State.resetRegs_drv (p : Nat → Bool) : (s.resetRegs p).drv = s.drv := rfl
@[simp] theorem State.resetRegs_perc (p : Nat → Bool) : (s.resetRegs p).perc = s.perc := rfl
@[simp] theorem State.resetRegs_eth (p : Nat → Bool) : (s.resetRegs p).eth = s.eth := rfl
@[simp] theorem State.resetRegs_can (p : Nat → Bool) : (s.resetRegs p).can = s.can := rfl
@[simp] theorem State.resetRegs_i2c (p : Nat → Bool) : (s.resetRegs p).i2c = s.i2c := rfl

@[simp] theorem State.hbmPut_pending (a : Nat) (b : Byte) : (s.hbmPut a b).pending = s.pending := rfl
@[simp] theorem State.hbmPut_fresh (a : Nat) (b : Byte) : (s.hbmPut a b).fresh = s.fresh := rfl
@[simp] theorem State.hbmPut_fuses (a : Nat) (b : Byte) : (s.hbmPut a b).fuses = s.fuses := rfl
@[simp] theorem State.hbmPut_pins (a : Nat) (b : Byte) : (s.hbmPut a b).pins = s.pins := rfl
@[simp] theorem State.hbmPut_clock (a : Nat) (b : Byte) : (s.hbmPut a b).clock = s.clock := rfl
@[simp] theorem State.hbmPut_spad (a : Nat) (b : Byte) : (s.hbmPut a b).spad = s.spad := rfl
@[simp] theorem State.hbmPut_regs (a : Nat) (b : Byte) : (s.hbmPut a b).regs = s.regs := rfl
@[simp] theorem State.hbmPut_latch (a : Nat) (b : Byte) : (s.hbmPut a b).latch = s.latch := rfl
@[simp] theorem State.hbmPut_rdata (a : Nat) (b : Byte) : (s.hbmPut a b).rdata = s.rdata := rfl
@[simp] theorem State.hbmPut_msix (a : Nat) (b : Byte) : (s.hbmPut a b).msix = s.msix := rfl
@[simp] theorem State.hbmPut_log (a : Nat) (b : Byte) : (s.hbmPut a b).log = s.log := rfl
@[simp] theorem State.hbmPut_ledger (a : Nat) (b : Byte) : (s.hbmPut a b).ledger = s.ledger := rfl
@[simp] theorem State.hbmPut_ost (a : Nat) (b : Byte) : (s.hbmPut a b).ost = s.ost := rfl
@[simp] theorem State.hbmPut_eng (a : Nat) (b : Byte) : (s.hbmPut a b).eng = s.eng := rfl
@[simp] theorem State.hbmPut_por (a : Nat) (b : Byte) : (s.hbmPut a b).por = s.por := rfl
@[simp] theorem State.hbmPut_queues (a : Nat) (b : Byte) : (s.hbmPut a b).queues = s.queues := rfl
@[simp] theorem State.hbmPut_tn (a : Nat) (b : Byte) : (s.hbmPut a b).tn = s.tn := rfl
@[simp] theorem State.hbmPut_bars (a : Nat) (b : Byte) : (s.hbmPut a b).bars = s.bars := rfl
@[simp] theorem State.hbmPut_arrQ (a : Nat) (b : Byte) : (s.hbmPut a b).arrQ = s.arrQ := rfl
@[simp] theorem State.hbmPut_evQ (a : Nat) (b : Byte) : (s.hbmPut a b).evQ = s.evQ := rfl
@[simp] theorem State.hbmPut_field (a : Nat) (b : Byte) : (s.hbmPut a b).field = s.field := rfl
@[simp] theorem State.hbmPut_mile (a : Nat) (b : Byte) : (s.hbmPut a b).mile = s.mile := rfl
@[simp] theorem State.hbmPut_drv (a : Nat) (b : Byte) : (s.hbmPut a b).drv = s.drv := rfl
@[simp] theorem State.hbmPut_perc (a : Nat) (b : Byte) : (s.hbmPut a b).perc = s.perc := rfl
@[simp] theorem State.hbmPut_eth (a : Nat) (b : Byte) : (s.hbmPut a b).eth = s.eth := rfl
@[simp] theorem State.hbmPut_can (a : Nat) (b : Byte) : (s.hbmPut a b).can = s.can := rfl
@[simp] theorem State.hbmPut_i2c (a : Nat) (b : Byte) : (s.hbmPut a b).i2c = s.i2c := rfl

@[simp] theorem State.hbmWrite_pending (a : Nat) (bs : List Byte) : (s.hbmWrite a bs).pending = s.pending := rfl
@[simp] theorem State.hbmWrite_fresh (a : Nat) (bs : List Byte) : (s.hbmWrite a bs).fresh = s.fresh := rfl
@[simp] theorem State.hbmWrite_fuses (a : Nat) (bs : List Byte) : (s.hbmWrite a bs).fuses = s.fuses := rfl
@[simp] theorem State.hbmWrite_pins (a : Nat) (bs : List Byte) : (s.hbmWrite a bs).pins = s.pins := rfl
@[simp] theorem State.hbmWrite_clock (a : Nat) (bs : List Byte) : (s.hbmWrite a bs).clock = s.clock := rfl
@[simp] theorem State.hbmWrite_spad (a : Nat) (bs : List Byte) : (s.hbmWrite a bs).spad = s.spad := rfl
@[simp] theorem State.hbmWrite_regs (a : Nat) (bs : List Byte) : (s.hbmWrite a bs).regs = s.regs := rfl
@[simp] theorem State.hbmWrite_latch (a : Nat) (bs : List Byte) : (s.hbmWrite a bs).latch = s.latch := rfl
@[simp] theorem State.hbmWrite_rdata (a : Nat) (bs : List Byte) : (s.hbmWrite a bs).rdata = s.rdata := rfl
@[simp] theorem State.hbmWrite_msix (a : Nat) (bs : List Byte) : (s.hbmWrite a bs).msix = s.msix := rfl
@[simp] theorem State.hbmWrite_log (a : Nat) (bs : List Byte) : (s.hbmWrite a bs).log = s.log := rfl
@[simp] theorem State.hbmWrite_ledger (a : Nat) (bs : List Byte) : (s.hbmWrite a bs).ledger = s.ledger := rfl
@[simp] theorem State.hbmWrite_ost (a : Nat) (bs : List Byte) : (s.hbmWrite a bs).ost = s.ost := rfl
@[simp] theorem State.hbmWrite_eng (a : Nat) (bs : List Byte) : (s.hbmWrite a bs).eng = s.eng := rfl
@[simp] theorem State.hbmWrite_por (a : Nat) (bs : List Byte) : (s.hbmWrite a bs).por = s.por := rfl
@[simp] theorem State.hbmWrite_queues (a : Nat) (bs : List Byte) : (s.hbmWrite a bs).queues = s.queues := rfl
@[simp] theorem State.hbmWrite_tn (a : Nat) (bs : List Byte) : (s.hbmWrite a bs).tn = s.tn := rfl
@[simp] theorem State.hbmWrite_bars (a : Nat) (bs : List Byte) : (s.hbmWrite a bs).bars = s.bars := rfl
@[simp] theorem State.hbmWrite_arrQ (a : Nat) (bs : List Byte) : (s.hbmWrite a bs).arrQ = s.arrQ := rfl
@[simp] theorem State.hbmWrite_evQ (a : Nat) (bs : List Byte) : (s.hbmWrite a bs).evQ = s.evQ := rfl
@[simp] theorem State.hbmWrite_field (a : Nat) (bs : List Byte) : (s.hbmWrite a bs).field = s.field := rfl
@[simp] theorem State.hbmWrite_mile (a : Nat) (bs : List Byte) : (s.hbmWrite a bs).mile = s.mile := rfl
@[simp] theorem State.hbmWrite_drv (a : Nat) (bs : List Byte) : (s.hbmWrite a bs).drv = s.drv := rfl
@[simp] theorem State.hbmWrite_perc (a : Nat) (bs : List Byte) : (s.hbmWrite a bs).perc = s.perc := rfl
@[simp] theorem State.hbmWrite_eth (a : Nat) (bs : List Byte) : (s.hbmWrite a bs).eth = s.eth := rfl
@[simp] theorem State.hbmWrite_can (a : Nat) (bs : List Byte) : (s.hbmWrite a bs).can = s.can := rfl
@[simp] theorem State.hbmWrite_i2c (a : Nat) (bs : List Byte) : (s.hbmWrite a bs).i2c = s.i2c := rfl

@[simp] theorem State.hbmZero_pending (lo hi : Nat) : (s.hbmZero lo hi).pending = s.pending := rfl
@[simp] theorem State.hbmZero_fresh (lo hi : Nat) : (s.hbmZero lo hi).fresh = s.fresh := rfl
@[simp] theorem State.hbmZero_fuses (lo hi : Nat) : (s.hbmZero lo hi).fuses = s.fuses := rfl
@[simp] theorem State.hbmZero_pins (lo hi : Nat) : (s.hbmZero lo hi).pins = s.pins := rfl
@[simp] theorem State.hbmZero_clock (lo hi : Nat) : (s.hbmZero lo hi).clock = s.clock := rfl
@[simp] theorem State.hbmZero_spad (lo hi : Nat) : (s.hbmZero lo hi).spad = s.spad := rfl
@[simp] theorem State.hbmZero_regs (lo hi : Nat) : (s.hbmZero lo hi).regs = s.regs := rfl
@[simp] theorem State.hbmZero_latch (lo hi : Nat) : (s.hbmZero lo hi).latch = s.latch := rfl
@[simp] theorem State.hbmZero_rdata (lo hi : Nat) : (s.hbmZero lo hi).rdata = s.rdata := rfl
@[simp] theorem State.hbmZero_msix (lo hi : Nat) : (s.hbmZero lo hi).msix = s.msix := rfl
@[simp] theorem State.hbmZero_log (lo hi : Nat) : (s.hbmZero lo hi).log = s.log := rfl
@[simp] theorem State.hbmZero_ledger (lo hi : Nat) : (s.hbmZero lo hi).ledger = s.ledger := rfl
@[simp] theorem State.hbmZero_ost (lo hi : Nat) : (s.hbmZero lo hi).ost = s.ost := rfl
@[simp] theorem State.hbmZero_eng (lo hi : Nat) : (s.hbmZero lo hi).eng = s.eng := rfl
@[simp] theorem State.hbmZero_por (lo hi : Nat) : (s.hbmZero lo hi).por = s.por := rfl
@[simp] theorem State.hbmZero_queues (lo hi : Nat) : (s.hbmZero lo hi).queues = s.queues := rfl
@[simp] theorem State.hbmZero_tn (lo hi : Nat) : (s.hbmZero lo hi).tn = s.tn := rfl
@[simp] theorem State.hbmZero_bars (lo hi : Nat) : (s.hbmZero lo hi).bars = s.bars := rfl
@[simp] theorem State.hbmZero_arrQ (lo hi : Nat) : (s.hbmZero lo hi).arrQ = s.arrQ := rfl
@[simp] theorem State.hbmZero_evQ (lo hi : Nat) : (s.hbmZero lo hi).evQ = s.evQ := rfl
@[simp] theorem State.hbmZero_field (lo hi : Nat) : (s.hbmZero lo hi).field = s.field := rfl
@[simp] theorem State.hbmZero_mile (lo hi : Nat) : (s.hbmZero lo hi).mile = s.mile := rfl
@[simp] theorem State.hbmZero_drv (lo hi : Nat) : (s.hbmZero lo hi).drv = s.drv := rfl
@[simp] theorem State.hbmZero_perc (lo hi : Nat) : (s.hbmZero lo hi).perc = s.perc := rfl
@[simp] theorem State.hbmZero_eth (lo hi : Nat) : (s.hbmZero lo hi).eth = s.eth := rfl
@[simp] theorem State.hbmZero_can (lo hi : Nat) : (s.hbmZero lo hi).can = s.can := rfl
@[simp] theorem State.hbmZero_i2c (lo hi : Nat) : (s.hbmZero lo hi).i2c = s.i2c := rfl

@[simp] theorem State.spWrite_pending (e a : Nat) (bs : List Byte) : (s.spWrite e a bs).pending = s.pending := rfl
@[simp] theorem State.spWrite_fresh (e a : Nat) (bs : List Byte) : (s.spWrite e a bs).fresh = s.fresh := rfl
@[simp] theorem State.spWrite_fuses (e a : Nat) (bs : List Byte) : (s.spWrite e a bs).fuses = s.fuses := rfl
@[simp] theorem State.spWrite_pins (e a : Nat) (bs : List Byte) : (s.spWrite e a bs).pins = s.pins := rfl
@[simp] theorem State.spWrite_clock (e a : Nat) (bs : List Byte) : (s.spWrite e a bs).clock = s.clock := rfl
@[simp] theorem State.spWrite_hbm (e a : Nat) (bs : List Byte) : (s.spWrite e a bs).hbm = s.hbm := rfl
@[simp] theorem State.spWrite_regs (e a : Nat) (bs : List Byte) : (s.spWrite e a bs).regs = s.regs := rfl
@[simp] theorem State.spWrite_latch (e a : Nat) (bs : List Byte) : (s.spWrite e a bs).latch = s.latch := rfl
@[simp] theorem State.spWrite_rdata (e a : Nat) (bs : List Byte) : (s.spWrite e a bs).rdata = s.rdata := rfl
@[simp] theorem State.spWrite_msix (e a : Nat) (bs : List Byte) : (s.spWrite e a bs).msix = s.msix := rfl
@[simp] theorem State.spWrite_log (e a : Nat) (bs : List Byte) : (s.spWrite e a bs).log = s.log := rfl
@[simp] theorem State.spWrite_ledger (e a : Nat) (bs : List Byte) : (s.spWrite e a bs).ledger = s.ledger := rfl
@[simp] theorem State.spWrite_ost (e a : Nat) (bs : List Byte) : (s.spWrite e a bs).ost = s.ost := rfl
@[simp] theorem State.spWrite_eng (e a : Nat) (bs : List Byte) : (s.spWrite e a bs).eng = s.eng := rfl
@[simp] theorem State.spWrite_por (e a : Nat) (bs : List Byte) : (s.spWrite e a bs).por = s.por := rfl
@[simp] theorem State.spWrite_queues (e a : Nat) (bs : List Byte) : (s.spWrite e a bs).queues = s.queues := rfl
@[simp] theorem State.spWrite_tn (e a : Nat) (bs : List Byte) : (s.spWrite e a bs).tn = s.tn := rfl
@[simp] theorem State.spWrite_bars (e a : Nat) (bs : List Byte) : (s.spWrite e a bs).bars = s.bars := rfl
@[simp] theorem State.spWrite_arrQ (e a : Nat) (bs : List Byte) : (s.spWrite e a bs).arrQ = s.arrQ := rfl
@[simp] theorem State.spWrite_evQ (e a : Nat) (bs : List Byte) : (s.spWrite e a bs).evQ = s.evQ := rfl
@[simp] theorem State.spWrite_field (e a : Nat) (bs : List Byte) : (s.spWrite e a bs).field = s.field := rfl
@[simp] theorem State.spWrite_mile (e a : Nat) (bs : List Byte) : (s.spWrite e a bs).mile = s.mile := rfl
@[simp] theorem State.spWrite_drv (e a : Nat) (bs : List Byte) : (s.spWrite e a bs).drv = s.drv := rfl
@[simp] theorem State.spWrite_perc (e a : Nat) (bs : List Byte) : (s.spWrite e a bs).perc = s.perc := rfl
@[simp] theorem State.spWrite_eth (e a : Nat) (bs : List Byte) : (s.spWrite e a bs).eth = s.eth := rfl
@[simp] theorem State.spWrite_can (e a : Nat) (bs : List Byte) : (s.spWrite e a bs).can = s.can := rfl
@[simp] theorem State.spWrite_i2c (e a : Nat) (bs : List Byte) : (s.spWrite e a bs).i2c = s.i2c := rfl

@[simp] theorem State.spZero_pending (e lo hi : Nat) : (s.spZero e lo hi).pending = s.pending := rfl
@[simp] theorem State.spZero_fresh (e lo hi : Nat) : (s.spZero e lo hi).fresh = s.fresh := rfl
@[simp] theorem State.spZero_fuses (e lo hi : Nat) : (s.spZero e lo hi).fuses = s.fuses := rfl
@[simp] theorem State.spZero_pins (e lo hi : Nat) : (s.spZero e lo hi).pins = s.pins := rfl
@[simp] theorem State.spZero_clock (e lo hi : Nat) : (s.spZero e lo hi).clock = s.clock := rfl
@[simp] theorem State.spZero_hbm (e lo hi : Nat) : (s.spZero e lo hi).hbm = s.hbm := rfl
@[simp] theorem State.spZero_regs (e lo hi : Nat) : (s.spZero e lo hi).regs = s.regs := rfl
@[simp] theorem State.spZero_latch (e lo hi : Nat) : (s.spZero e lo hi).latch = s.latch := rfl
@[simp] theorem State.spZero_rdata (e lo hi : Nat) : (s.spZero e lo hi).rdata = s.rdata := rfl
@[simp] theorem State.spZero_msix (e lo hi : Nat) : (s.spZero e lo hi).msix = s.msix := rfl
@[simp] theorem State.spZero_log (e lo hi : Nat) : (s.spZero e lo hi).log = s.log := rfl
@[simp] theorem State.spZero_ledger (e lo hi : Nat) : (s.spZero e lo hi).ledger = s.ledger := rfl
@[simp] theorem State.spZero_ost (e lo hi : Nat) : (s.spZero e lo hi).ost = s.ost := rfl
@[simp] theorem State.spZero_eng (e lo hi : Nat) : (s.spZero e lo hi).eng = s.eng := rfl
@[simp] theorem State.spZero_por (e lo hi : Nat) : (s.spZero e lo hi).por = s.por := rfl
@[simp] theorem State.spZero_queues (e lo hi : Nat) : (s.spZero e lo hi).queues = s.queues := rfl
@[simp] theorem State.spZero_tn (e lo hi : Nat) : (s.spZero e lo hi).tn = s.tn := rfl
@[simp] theorem State.spZero_bars (e lo hi : Nat) : (s.spZero e lo hi).bars = s.bars := rfl
@[simp] theorem State.spZero_arrQ (e lo hi : Nat) : (s.spZero e lo hi).arrQ = s.arrQ := rfl
@[simp] theorem State.spZero_evQ (e lo hi : Nat) : (s.spZero e lo hi).evQ = s.evQ := rfl
@[simp] theorem State.spZero_field (e lo hi : Nat) : (s.spZero e lo hi).field = s.field := rfl
@[simp] theorem State.spZero_mile (e lo hi : Nat) : (s.spZero e lo hi).mile = s.mile := rfl
@[simp] theorem State.spZero_drv (e lo hi : Nat) : (s.spZero e lo hi).drv = s.drv := rfl
@[simp] theorem State.spZero_perc (e lo hi : Nat) : (s.spZero e lo hi).perc = s.perc := rfl
@[simp] theorem State.spZero_eth (e lo hi : Nat) : (s.spZero e lo hi).eth = s.eth := rfl
@[simp] theorem State.spZero_can (e lo hi : Nat) : (s.spZero e lo hi).can = s.can := rfl
@[simp] theorem State.spZero_i2c (e lo hi : Nat) : (s.spZero e lo hi).i2c = s.i2c := rfl

@[simp] theorem State.setEngine_pending (e : Nat) (x : Engine) : (s.setEngine e x).pending = s.pending := rfl
@[simp] theorem State.setEngine_fresh (e : Nat) (x : Engine) : (s.setEngine e x).fresh = s.fresh := rfl
@[simp] theorem State.setEngine_fuses (e : Nat) (x : Engine) : (s.setEngine e x).fuses = s.fuses := rfl
@[simp] theorem State.setEngine_pins (e : Nat) (x : Engine) : (s.setEngine e x).pins = s.pins := rfl
@[simp] theorem State.setEngine_clock (e : Nat) (x : Engine) : (s.setEngine e x).clock = s.clock := rfl
@[simp] theorem State.setEngine_hbm (e : Nat) (x : Engine) : (s.setEngine e x).hbm = s.hbm := rfl
@[simp] theorem State.setEngine_spad (e : Nat) (x : Engine) : (s.setEngine e x).spad = s.spad := rfl
@[simp] theorem State.setEngine_regs (e : Nat) (x : Engine) : (s.setEngine e x).regs = s.regs := rfl
@[simp] theorem State.setEngine_latch (e : Nat) (x : Engine) : (s.setEngine e x).latch = s.latch := rfl
@[simp] theorem State.setEngine_rdata (e : Nat) (x : Engine) : (s.setEngine e x).rdata = s.rdata := rfl
@[simp] theorem State.setEngine_msix (e : Nat) (x : Engine) : (s.setEngine e x).msix = s.msix := rfl
@[simp] theorem State.setEngine_log (e : Nat) (x : Engine) : (s.setEngine e x).log = s.log := rfl
@[simp] theorem State.setEngine_ledger (e : Nat) (x : Engine) : (s.setEngine e x).ledger = s.ledger := rfl
@[simp] theorem State.setEngine_ost (e : Nat) (x : Engine) : (s.setEngine e x).ost = s.ost := rfl
@[simp] theorem State.setEngine_por (e : Nat) (x : Engine) : (s.setEngine e x).por = s.por := rfl
@[simp] theorem State.setEngine_queues (e : Nat) (x : Engine) : (s.setEngine e x).queues = s.queues := rfl
@[simp] theorem State.setEngine_tn (e : Nat) (x : Engine) : (s.setEngine e x).tn = s.tn := rfl
@[simp] theorem State.setEngine_bars (e : Nat) (x : Engine) : (s.setEngine e x).bars = s.bars := rfl
@[simp] theorem State.setEngine_arrQ (e : Nat) (x : Engine) : (s.setEngine e x).arrQ = s.arrQ := rfl
@[simp] theorem State.setEngine_evQ (e : Nat) (x : Engine) : (s.setEngine e x).evQ = s.evQ := rfl
@[simp] theorem State.setEngine_field (e : Nat) (x : Engine) : (s.setEngine e x).field = s.field := rfl
@[simp] theorem State.setEngine_mile (e : Nat) (x : Engine) : (s.setEngine e x).mile = s.mile := rfl
@[simp] theorem State.setEngine_drv (e : Nat) (x : Engine) : (s.setEngine e x).drv = s.drv := rfl
@[simp] theorem State.setEngine_perc (e : Nat) (x : Engine) : (s.setEngine e x).perc = s.perc := rfl
@[simp] theorem State.setEngine_eth (e : Nat) (x : Engine) : (s.setEngine e x).eth = s.eth := rfl
@[simp] theorem State.setEngine_can (e : Nat) (x : Engine) : (s.setEngine e x).can = s.can := rfl
@[simp] theorem State.setEngine_i2c (e : Nat) (x : Engine) : (s.setEngine e x).i2c = s.i2c := rfl

@[simp] theorem State.setPorter_pending (p : Nat) (x : Porter) : (s.setPorter p x).pending = s.pending := rfl
@[simp] theorem State.setPorter_fresh (p : Nat) (x : Porter) : (s.setPorter p x).fresh = s.fresh := rfl
@[simp] theorem State.setPorter_fuses (p : Nat) (x : Porter) : (s.setPorter p x).fuses = s.fuses := rfl
@[simp] theorem State.setPorter_pins (p : Nat) (x : Porter) : (s.setPorter p x).pins = s.pins := rfl
@[simp] theorem State.setPorter_clock (p : Nat) (x : Porter) : (s.setPorter p x).clock = s.clock := rfl
@[simp] theorem State.setPorter_hbm (p : Nat) (x : Porter) : (s.setPorter p x).hbm = s.hbm := rfl
@[simp] theorem State.setPorter_spad (p : Nat) (x : Porter) : (s.setPorter p x).spad = s.spad := rfl
@[simp] theorem State.setPorter_regs (p : Nat) (x : Porter) : (s.setPorter p x).regs = s.regs := rfl
@[simp] theorem State.setPorter_latch (p : Nat) (x : Porter) : (s.setPorter p x).latch = s.latch := rfl
@[simp] theorem State.setPorter_rdata (p : Nat) (x : Porter) : (s.setPorter p x).rdata = s.rdata := rfl
@[simp] theorem State.setPorter_msix (p : Nat) (x : Porter) : (s.setPorter p x).msix = s.msix := rfl
@[simp] theorem State.setPorter_log (p : Nat) (x : Porter) : (s.setPorter p x).log = s.log := rfl
@[simp] theorem State.setPorter_ledger (p : Nat) (x : Porter) : (s.setPorter p x).ledger = s.ledger := rfl
@[simp] theorem State.setPorter_ost (p : Nat) (x : Porter) : (s.setPorter p x).ost = s.ost := rfl
@[simp] theorem State.setPorter_eng (p : Nat) (x : Porter) : (s.setPorter p x).eng = s.eng := rfl
@[simp] theorem State.setPorter_queues (p : Nat) (x : Porter) : (s.setPorter p x).queues = s.queues := rfl
@[simp] theorem State.setPorter_tn (p : Nat) (x : Porter) : (s.setPorter p x).tn = s.tn := rfl
@[simp] theorem State.setPorter_bars (p : Nat) (x : Porter) : (s.setPorter p x).bars = s.bars := rfl
@[simp] theorem State.setPorter_arrQ (p : Nat) (x : Porter) : (s.setPorter p x).arrQ = s.arrQ := rfl
@[simp] theorem State.setPorter_evQ (p : Nat) (x : Porter) : (s.setPorter p x).evQ = s.evQ := rfl
@[simp] theorem State.setPorter_field (p : Nat) (x : Porter) : (s.setPorter p x).field = s.field := rfl
@[simp] theorem State.setPorter_mile (p : Nat) (x : Porter) : (s.setPorter p x).mile = s.mile := rfl
@[simp] theorem State.setPorter_drv (p : Nat) (x : Porter) : (s.setPorter p x).drv = s.drv := rfl
@[simp] theorem State.setPorter_perc (p : Nat) (x : Porter) : (s.setPorter p x).perc = s.perc := rfl
@[simp] theorem State.setPorter_eth (p : Nat) (x : Porter) : (s.setPorter p x).eth = s.eth := rfl
@[simp] theorem State.setPorter_can (p : Nat) (x : Porter) : (s.setPorter p x).can = s.can := rfl
@[simp] theorem State.setPorter_i2c (p : Nat) (x : Porter) : (s.setPorter p x).i2c = s.i2c := rfl

@[simp] theorem State.setQueue_pending (q : Nat) (x : Queue) : (s.setQueue q x).pending = s.pending := rfl
@[simp] theorem State.setQueue_fresh (q : Nat) (x : Queue) : (s.setQueue q x).fresh = s.fresh := rfl
@[simp] theorem State.setQueue_fuses (q : Nat) (x : Queue) : (s.setQueue q x).fuses = s.fuses := rfl
@[simp] theorem State.setQueue_pins (q : Nat) (x : Queue) : (s.setQueue q x).pins = s.pins := rfl
@[simp] theorem State.setQueue_clock (q : Nat) (x : Queue) : (s.setQueue q x).clock = s.clock := rfl
@[simp] theorem State.setQueue_hbm (q : Nat) (x : Queue) : (s.setQueue q x).hbm = s.hbm := rfl
@[simp] theorem State.setQueue_spad (q : Nat) (x : Queue) : (s.setQueue q x).spad = s.spad := rfl
@[simp] theorem State.setQueue_regs (q : Nat) (x : Queue) : (s.setQueue q x).regs = s.regs := rfl
@[simp] theorem State.setQueue_latch (q : Nat) (x : Queue) : (s.setQueue q x).latch = s.latch := rfl
@[simp] theorem State.setQueue_rdata (q : Nat) (x : Queue) : (s.setQueue q x).rdata = s.rdata := rfl
@[simp] theorem State.setQueue_msix (q : Nat) (x : Queue) : (s.setQueue q x).msix = s.msix := rfl
@[simp] theorem State.setQueue_log (q : Nat) (x : Queue) : (s.setQueue q x).log = s.log := rfl
@[simp] theorem State.setQueue_ledger (q : Nat) (x : Queue) : (s.setQueue q x).ledger = s.ledger := rfl
@[simp] theorem State.setQueue_ost (q : Nat) (x : Queue) : (s.setQueue q x).ost = s.ost := rfl
@[simp] theorem State.setQueue_eng (q : Nat) (x : Queue) : (s.setQueue q x).eng = s.eng := rfl
@[simp] theorem State.setQueue_por (q : Nat) (x : Queue) : (s.setQueue q x).por = s.por := rfl
@[simp] theorem State.setQueue_tn (q : Nat) (x : Queue) : (s.setQueue q x).tn = s.tn := rfl
@[simp] theorem State.setQueue_bars (q : Nat) (x : Queue) : (s.setQueue q x).bars = s.bars := rfl
@[simp] theorem State.setQueue_arrQ (q : Nat) (x : Queue) : (s.setQueue q x).arrQ = s.arrQ := rfl
@[simp] theorem State.setQueue_evQ (q : Nat) (x : Queue) : (s.setQueue q x).evQ = s.evQ := rfl
@[simp] theorem State.setQueue_field (q : Nat) (x : Queue) : (s.setQueue q x).field = s.field := rfl
@[simp] theorem State.setQueue_mile (q : Nat) (x : Queue) : (s.setQueue q x).mile = s.mile := rfl
@[simp] theorem State.setQueue_drv (q : Nat) (x : Queue) : (s.setQueue q x).drv = s.drv := rfl
@[simp] theorem State.setQueue_perc (q : Nat) (x : Queue) : (s.setQueue q x).perc = s.perc := rfl
@[simp] theorem State.setQueue_eth (q : Nat) (x : Queue) : (s.setQueue q x).eth = s.eth := rfl
@[simp] theorem State.setQueue_can (q : Nat) (x : Queue) : (s.setQueue q x).can = s.can := rfl
@[simp] theorem State.setQueue_i2c (q : Nat) (x : Queue) : (s.setQueue q x).i2c = s.i2c := rfl

@[simp] theorem State.setTenant_pending (t : Nat) (x : Tenant) : (s.setTenant t x).pending = s.pending := rfl
@[simp] theorem State.setTenant_fresh (t : Nat) (x : Tenant) : (s.setTenant t x).fresh = s.fresh := rfl
@[simp] theorem State.setTenant_fuses (t : Nat) (x : Tenant) : (s.setTenant t x).fuses = s.fuses := rfl
@[simp] theorem State.setTenant_pins (t : Nat) (x : Tenant) : (s.setTenant t x).pins = s.pins := rfl
@[simp] theorem State.setTenant_clock (t : Nat) (x : Tenant) : (s.setTenant t x).clock = s.clock := rfl
@[simp] theorem State.setTenant_hbm (t : Nat) (x : Tenant) : (s.setTenant t x).hbm = s.hbm := rfl
@[simp] theorem State.setTenant_spad (t : Nat) (x : Tenant) : (s.setTenant t x).spad = s.spad := rfl
@[simp] theorem State.setTenant_regs (t : Nat) (x : Tenant) : (s.setTenant t x).regs = s.regs := rfl
@[simp] theorem State.setTenant_latch (t : Nat) (x : Tenant) : (s.setTenant t x).latch = s.latch := rfl
@[simp] theorem State.setTenant_rdata (t : Nat) (x : Tenant) : (s.setTenant t x).rdata = s.rdata := rfl
@[simp] theorem State.setTenant_msix (t : Nat) (x : Tenant) : (s.setTenant t x).msix = s.msix := rfl
@[simp] theorem State.setTenant_log (t : Nat) (x : Tenant) : (s.setTenant t x).log = s.log := rfl
@[simp] theorem State.setTenant_ledger (t : Nat) (x : Tenant) : (s.setTenant t x).ledger = s.ledger := rfl
@[simp] theorem State.setTenant_ost (t : Nat) (x : Tenant) : (s.setTenant t x).ost = s.ost := rfl
@[simp] theorem State.setTenant_eng (t : Nat) (x : Tenant) : (s.setTenant t x).eng = s.eng := rfl
@[simp] theorem State.setTenant_por (t : Nat) (x : Tenant) : (s.setTenant t x).por = s.por := rfl
@[simp] theorem State.setTenant_queues (t : Nat) (x : Tenant) : (s.setTenant t x).queues = s.queues := rfl
@[simp] theorem State.setTenant_bars (t : Nat) (x : Tenant) : (s.setTenant t x).bars = s.bars := rfl
@[simp] theorem State.setTenant_arrQ (t : Nat) (x : Tenant) : (s.setTenant t x).arrQ = s.arrQ := rfl
@[simp] theorem State.setTenant_evQ (t : Nat) (x : Tenant) : (s.setTenant t x).evQ = s.evQ := rfl
@[simp] theorem State.setTenant_field (t : Nat) (x : Tenant) : (s.setTenant t x).field = s.field := rfl
@[simp] theorem State.setTenant_mile (t : Nat) (x : Tenant) : (s.setTenant t x).mile = s.mile := rfl
@[simp] theorem State.setTenant_drv (t : Nat) (x : Tenant) : (s.setTenant t x).drv = s.drv := rfl
@[simp] theorem State.setTenant_perc (t : Nat) (x : Tenant) : (s.setTenant t x).perc = s.perc := rfl
@[simp] theorem State.setTenant_eth (t : Nat) (x : Tenant) : (s.setTenant t x).eth = s.eth := rfl
@[simp] theorem State.setTenant_can (t : Nat) (x : Tenant) : (s.setTenant t x).can = s.can := rfl
@[simp] theorem State.setTenant_i2c (t : Nat) (x : Tenant) : (s.setTenant t x).i2c = s.i2c := rfl

@[simp] theorem State.setBar_pending (b : BarId) (x : Barrier) : (s.setBar b x).pending = s.pending := rfl
@[simp] theorem State.setBar_fresh (b : BarId) (x : Barrier) : (s.setBar b x).fresh = s.fresh := rfl
@[simp] theorem State.setBar_fuses (b : BarId) (x : Barrier) : (s.setBar b x).fuses = s.fuses := rfl
@[simp] theorem State.setBar_pins (b : BarId) (x : Barrier) : (s.setBar b x).pins = s.pins := rfl
@[simp] theorem State.setBar_clock (b : BarId) (x : Barrier) : (s.setBar b x).clock = s.clock := rfl
@[simp] theorem State.setBar_hbm (b : BarId) (x : Barrier) : (s.setBar b x).hbm = s.hbm := rfl
@[simp] theorem State.setBar_spad (b : BarId) (x : Barrier) : (s.setBar b x).spad = s.spad := rfl
@[simp] theorem State.setBar_regs (b : BarId) (x : Barrier) : (s.setBar b x).regs = s.regs := rfl
@[simp] theorem State.setBar_latch (b : BarId) (x : Barrier) : (s.setBar b x).latch = s.latch := rfl
@[simp] theorem State.setBar_rdata (b : BarId) (x : Barrier) : (s.setBar b x).rdata = s.rdata := rfl
@[simp] theorem State.setBar_msix (b : BarId) (x : Barrier) : (s.setBar b x).msix = s.msix := rfl
@[simp] theorem State.setBar_log (b : BarId) (x : Barrier) : (s.setBar b x).log = s.log := rfl
@[simp] theorem State.setBar_ledger (b : BarId) (x : Barrier) : (s.setBar b x).ledger = s.ledger := rfl
@[simp] theorem State.setBar_ost (b : BarId) (x : Barrier) : (s.setBar b x).ost = s.ost := rfl
@[simp] theorem State.setBar_eng (b : BarId) (x : Barrier) : (s.setBar b x).eng = s.eng := rfl
@[simp] theorem State.setBar_por (b : BarId) (x : Barrier) : (s.setBar b x).por = s.por := rfl
@[simp] theorem State.setBar_queues (b : BarId) (x : Barrier) : (s.setBar b x).queues = s.queues := rfl
@[simp] theorem State.setBar_tn (b : BarId) (x : Barrier) : (s.setBar b x).tn = s.tn := rfl
@[simp] theorem State.setBar_arrQ (b : BarId) (x : Barrier) : (s.setBar b x).arrQ = s.arrQ := rfl
@[simp] theorem State.setBar_evQ (b : BarId) (x : Barrier) : (s.setBar b x).evQ = s.evQ := rfl
@[simp] theorem State.setBar_field (b : BarId) (x : Barrier) : (s.setBar b x).field = s.field := rfl
@[simp] theorem State.setBar_mile (b : BarId) (x : Barrier) : (s.setBar b x).mile = s.mile := rfl
@[simp] theorem State.setBar_drv (b : BarId) (x : Barrier) : (s.setBar b x).drv = s.drv := rfl
@[simp] theorem State.setBar_perc (b : BarId) (x : Barrier) : (s.setBar b x).perc = s.perc := rfl
@[simp] theorem State.setBar_eth (b : BarId) (x : Barrier) : (s.setBar b x).eth = s.eth := rfl
@[simp] theorem State.setBar_can (b : BarId) (x : Barrier) : (s.setBar b x).can = s.can := rfl
@[simp] theorem State.setBar_i2c (b : BarId) (x : Barrier) : (s.setBar b x).i2c = s.i2c := rfl

@[simp] theorem State.setPort_pending (p : Nat) (x : Port) : (s.setPort p x).pending = s.pending := rfl
@[simp] theorem State.setPort_fresh (p : Nat) (x : Port) : (s.setPort p x).fresh = s.fresh := rfl
@[simp] theorem State.setPort_fuses (p : Nat) (x : Port) : (s.setPort p x).fuses = s.fuses := rfl
@[simp] theorem State.setPort_pins (p : Nat) (x : Port) : (s.setPort p x).pins = s.pins := rfl
@[simp] theorem State.setPort_clock (p : Nat) (x : Port) : (s.setPort p x).clock = s.clock := rfl
@[simp] theorem State.setPort_hbm (p : Nat) (x : Port) : (s.setPort p x).hbm = s.hbm := rfl
@[simp] theorem State.setPort_spad (p : Nat) (x : Port) : (s.setPort p x).spad = s.spad := rfl
@[simp] theorem State.setPort_regs (p : Nat) (x : Port) : (s.setPort p x).regs = s.regs := rfl
@[simp] theorem State.setPort_latch (p : Nat) (x : Port) : (s.setPort p x).latch = s.latch := rfl
@[simp] theorem State.setPort_rdata (p : Nat) (x : Port) : (s.setPort p x).rdata = s.rdata := rfl
@[simp] theorem State.setPort_msix (p : Nat) (x : Port) : (s.setPort p x).msix = s.msix := rfl
@[simp] theorem State.setPort_log (p : Nat) (x : Port) : (s.setPort p x).log = s.log := rfl
@[simp] theorem State.setPort_ledger (p : Nat) (x : Port) : (s.setPort p x).ledger = s.ledger := rfl
@[simp] theorem State.setPort_ost (p : Nat) (x : Port) : (s.setPort p x).ost = s.ost := rfl
@[simp] theorem State.setPort_eng (p : Nat) (x : Port) : (s.setPort p x).eng = s.eng := rfl
@[simp] theorem State.setPort_por (p : Nat) (x : Port) : (s.setPort p x).por = s.por := rfl
@[simp] theorem State.setPort_queues (p : Nat) (x : Port) : (s.setPort p x).queues = s.queues := rfl
@[simp] theorem State.setPort_tn (p : Nat) (x : Port) : (s.setPort p x).tn = s.tn := rfl
@[simp] theorem State.setPort_bars (p : Nat) (x : Port) : (s.setPort p x).bars = s.bars := rfl
@[simp] theorem State.setPort_arrQ (p : Nat) (x : Port) : (s.setPort p x).arrQ = s.arrQ := rfl
@[simp] theorem State.setPort_evQ (p : Nat) (x : Port) : (s.setPort p x).evQ = s.evQ := rfl
@[simp] theorem State.setPort_mile (p : Nat) (x : Port) : (s.setPort p x).mile = s.mile := rfl
@[simp] theorem State.setPort_drv (p : Nat) (x : Port) : (s.setPort p x).drv = s.drv := rfl
@[simp] theorem State.setPort_perc (p : Nat) (x : Port) : (s.setPort p x).perc = s.perc := rfl
@[simp] theorem State.setPort_eth (p : Nat) (x : Port) : (s.setPort p x).eth = s.eth := rfl
@[simp] theorem State.setPort_can (p : Nat) (x : Port) : (s.setPort p x).can = s.can := rfl
@[simp] theorem State.setPort_i2c (p : Nat) (x : Port) : (s.setPort p x).i2c = s.i2c := rfl

@[simp] theorem State.setLb_pending (k : Nat) (x : LinkBar) : (s.setLb k x).pending = s.pending := rfl
@[simp] theorem State.setLb_fresh (k : Nat) (x : LinkBar) : (s.setLb k x).fresh = s.fresh := rfl
@[simp] theorem State.setLb_fuses (k : Nat) (x : LinkBar) : (s.setLb k x).fuses = s.fuses := rfl
@[simp] theorem State.setLb_pins (k : Nat) (x : LinkBar) : (s.setLb k x).pins = s.pins := rfl
@[simp] theorem State.setLb_clock (k : Nat) (x : LinkBar) : (s.setLb k x).clock = s.clock := rfl
@[simp] theorem State.setLb_hbm (k : Nat) (x : LinkBar) : (s.setLb k x).hbm = s.hbm := rfl
@[simp] theorem State.setLb_spad (k : Nat) (x : LinkBar) : (s.setLb k x).spad = s.spad := rfl
@[simp] theorem State.setLb_regs (k : Nat) (x : LinkBar) : (s.setLb k x).regs = s.regs := rfl
@[simp] theorem State.setLb_latch (k : Nat) (x : LinkBar) : (s.setLb k x).latch = s.latch := rfl
@[simp] theorem State.setLb_rdata (k : Nat) (x : LinkBar) : (s.setLb k x).rdata = s.rdata := rfl
@[simp] theorem State.setLb_msix (k : Nat) (x : LinkBar) : (s.setLb k x).msix = s.msix := rfl
@[simp] theorem State.setLb_log (k : Nat) (x : LinkBar) : (s.setLb k x).log = s.log := rfl
@[simp] theorem State.setLb_ledger (k : Nat) (x : LinkBar) : (s.setLb k x).ledger = s.ledger := rfl
@[simp] theorem State.setLb_ost (k : Nat) (x : LinkBar) : (s.setLb k x).ost = s.ost := rfl
@[simp] theorem State.setLb_eng (k : Nat) (x : LinkBar) : (s.setLb k x).eng = s.eng := rfl
@[simp] theorem State.setLb_por (k : Nat) (x : LinkBar) : (s.setLb k x).por = s.por := rfl
@[simp] theorem State.setLb_queues (k : Nat) (x : LinkBar) : (s.setLb k x).queues = s.queues := rfl
@[simp] theorem State.setLb_tn (k : Nat) (x : LinkBar) : (s.setLb k x).tn = s.tn := rfl
@[simp] theorem State.setLb_bars (k : Nat) (x : LinkBar) : (s.setLb k x).bars = s.bars := rfl
@[simp] theorem State.setLb_arrQ (k : Nat) (x : LinkBar) : (s.setLb k x).arrQ = s.arrQ := rfl
@[simp] theorem State.setLb_evQ (k : Nat) (x : LinkBar) : (s.setLb k x).evQ = s.evQ := rfl
@[simp] theorem State.setLb_mile (k : Nat) (x : LinkBar) : (s.setLb k x).mile = s.mile := rfl
@[simp] theorem State.setLb_drv (k : Nat) (x : LinkBar) : (s.setLb k x).drv = s.drv := rfl
@[simp] theorem State.setLb_perc (k : Nat) (x : LinkBar) : (s.setLb k x).perc = s.perc := rfl
@[simp] theorem State.setLb_eth (k : Nat) (x : LinkBar) : (s.setLb k x).eth = s.eth := rfl
@[simp] theorem State.setLb_can (k : Nat) (x : LinkBar) : (s.setLb k x).can = s.can := rfl
@[simp] theorem State.setLb_i2c (k : Nat) (x : LinkBar) : (s.setLb k x).i2c = s.i2c := rfl

@[simp] theorem State.sendMsix_pending (f v : Nat) : (s.sendMsix f v).pending = s.pending := rfl
@[simp] theorem State.sendMsix_fresh (f v : Nat) : (s.sendMsix f v).fresh = s.fresh := rfl
@[simp] theorem State.sendMsix_fuses (f v : Nat) : (s.sendMsix f v).fuses = s.fuses := rfl
@[simp] theorem State.sendMsix_pins (f v : Nat) : (s.sendMsix f v).pins = s.pins := rfl
@[simp] theorem State.sendMsix_clock (f v : Nat) : (s.sendMsix f v).clock = s.clock := rfl
@[simp] theorem State.sendMsix_hbm (f v : Nat) : (s.sendMsix f v).hbm = s.hbm := rfl
@[simp] theorem State.sendMsix_spad (f v : Nat) : (s.sendMsix f v).spad = s.spad := rfl
@[simp] theorem State.sendMsix_regs (f v : Nat) : (s.sendMsix f v).regs = s.regs := rfl
@[simp] theorem State.sendMsix_latch (f v : Nat) : (s.sendMsix f v).latch = s.latch := rfl
@[simp] theorem State.sendMsix_rdata (f v : Nat) : (s.sendMsix f v).rdata = s.rdata := rfl
@[simp] theorem State.sendMsix_log (f v : Nat) : (s.sendMsix f v).log = s.log := rfl
@[simp] theorem State.sendMsix_ledger (f v : Nat) : (s.sendMsix f v).ledger = s.ledger := rfl
@[simp] theorem State.sendMsix_ost (f v : Nat) : (s.sendMsix f v).ost = s.ost := rfl
@[simp] theorem State.sendMsix_eng (f v : Nat) : (s.sendMsix f v).eng = s.eng := rfl
@[simp] theorem State.sendMsix_por (f v : Nat) : (s.sendMsix f v).por = s.por := rfl
@[simp] theorem State.sendMsix_queues (f v : Nat) : (s.sendMsix f v).queues = s.queues := rfl
@[simp] theorem State.sendMsix_tn (f v : Nat) : (s.sendMsix f v).tn = s.tn := rfl
@[simp] theorem State.sendMsix_bars (f v : Nat) : (s.sendMsix f v).bars = s.bars := rfl
@[simp] theorem State.sendMsix_arrQ (f v : Nat) : (s.sendMsix f v).arrQ = s.arrQ := rfl
@[simp] theorem State.sendMsix_evQ (f v : Nat) : (s.sendMsix f v).evQ = s.evQ := rfl
@[simp] theorem State.sendMsix_field (f v : Nat) : (s.sendMsix f v).field = s.field := rfl
@[simp] theorem State.sendMsix_mile (f v : Nat) : (s.sendMsix f v).mile = s.mile := rfl
@[simp] theorem State.sendMsix_drv (f v : Nat) : (s.sendMsix f v).drv = s.drv := rfl
@[simp] theorem State.sendMsix_perc (f v : Nat) : (s.sendMsix f v).perc = s.perc := rfl
@[simp] theorem State.sendMsix_eth (f v : Nat) : (s.sendMsix f v).eth = s.eth := rfl
@[simp] theorem State.sendMsix_can (f v : Nat) : (s.sendMsix f v).can = s.can := rfl
@[simp] theorem State.sendMsix_i2c (f v : Nat) : (s.sendMsix f v).i2c = s.i2c := rfl

@[simp] theorem State.logPush_pending (cls : Nat) (r : LogRec) : (s.logPush cls r).pending = s.pending := rfl
@[simp] theorem State.logPush_fresh (cls : Nat) (r : LogRec) : (s.logPush cls r).fresh = s.fresh := rfl
@[simp] theorem State.logPush_fuses (cls : Nat) (r : LogRec) : (s.logPush cls r).fuses = s.fuses := rfl
@[simp] theorem State.logPush_pins (cls : Nat) (r : LogRec) : (s.logPush cls r).pins = s.pins := rfl
@[simp] theorem State.logPush_clock (cls : Nat) (r : LogRec) : (s.logPush cls r).clock = s.clock := rfl
@[simp] theorem State.logPush_hbm (cls : Nat) (r : LogRec) : (s.logPush cls r).hbm = s.hbm := rfl
@[simp] theorem State.logPush_spad (cls : Nat) (r : LogRec) : (s.logPush cls r).spad = s.spad := rfl
@[simp] theorem State.logPush_regs (cls : Nat) (r : LogRec) : (s.logPush cls r).regs = s.regs := rfl
@[simp] theorem State.logPush_latch (cls : Nat) (r : LogRec) : (s.logPush cls r).latch = s.latch := rfl
@[simp] theorem State.logPush_rdata (cls : Nat) (r : LogRec) : (s.logPush cls r).rdata = s.rdata := rfl
@[simp] theorem State.logPush_msix (cls : Nat) (r : LogRec) : (s.logPush cls r).msix = s.msix := rfl
@[simp] theorem State.logPush_ledger (cls : Nat) (r : LogRec) : (s.logPush cls r).ledger = s.ledger := rfl
@[simp] theorem State.logPush_ost (cls : Nat) (r : LogRec) : (s.logPush cls r).ost = s.ost := rfl
@[simp] theorem State.logPush_eng (cls : Nat) (r : LogRec) : (s.logPush cls r).eng = s.eng := rfl
@[simp] theorem State.logPush_por (cls : Nat) (r : LogRec) : (s.logPush cls r).por = s.por := rfl
@[simp] theorem State.logPush_queues (cls : Nat) (r : LogRec) : (s.logPush cls r).queues = s.queues := rfl
@[simp] theorem State.logPush_tn (cls : Nat) (r : LogRec) : (s.logPush cls r).tn = s.tn := rfl
@[simp] theorem State.logPush_bars (cls : Nat) (r : LogRec) : (s.logPush cls r).bars = s.bars := rfl
@[simp] theorem State.logPush_arrQ (cls : Nat) (r : LogRec) : (s.logPush cls r).arrQ = s.arrQ := rfl
@[simp] theorem State.logPush_evQ (cls : Nat) (r : LogRec) : (s.logPush cls r).evQ = s.evQ := rfl
@[simp] theorem State.logPush_field (cls : Nat) (r : LogRec) : (s.logPush cls r).field = s.field := rfl
@[simp] theorem State.logPush_mile (cls : Nat) (r : LogRec) : (s.logPush cls r).mile = s.mile := rfl
@[simp] theorem State.logPush_drv (cls : Nat) (r : LogRec) : (s.logPush cls r).drv = s.drv := rfl
@[simp] theorem State.logPush_perc (cls : Nat) (r : LogRec) : (s.logPush cls r).perc = s.perc := rfl
@[simp] theorem State.logPush_eth (cls : Nat) (r : LogRec) : (s.logPush cls r).eth = s.eth := rfl
@[simp] theorem State.logPush_can (cls : Nat) (r : LogRec) : (s.logPush cls r).can = s.can := rfl
@[simp] theorem State.logPush_i2c (cls : Nat) (r : LogRec) : (s.logPush cls r).i2c = s.i2c := rfl

@[simp] theorem State.take_pending : s.take.2.pending = s.pending := rfl
@[simp] theorem State.take_fuses : s.take.2.fuses = s.fuses := rfl
@[simp] theorem State.take_pins : s.take.2.pins = s.pins := rfl
@[simp] theorem State.take_clock : s.take.2.clock = s.clock := rfl
@[simp] theorem State.take_hbm : s.take.2.hbm = s.hbm := rfl
@[simp] theorem State.take_spad : s.take.2.spad = s.spad := rfl
@[simp] theorem State.take_regs : s.take.2.regs = s.regs := rfl
@[simp] theorem State.take_latch : s.take.2.latch = s.latch := rfl
@[simp] theorem State.take_rdata : s.take.2.rdata = s.rdata := rfl
@[simp] theorem State.take_msix : s.take.2.msix = s.msix := rfl
@[simp] theorem State.take_log : s.take.2.log = s.log := rfl
@[simp] theorem State.take_ledger : s.take.2.ledger = s.ledger := rfl
@[simp] theorem State.take_ost : s.take.2.ost = s.ost := rfl
@[simp] theorem State.take_eng : s.take.2.eng = s.eng := rfl
@[simp] theorem State.take_por : s.take.2.por = s.por := rfl
@[simp] theorem State.take_queues : s.take.2.queues = s.queues := rfl
@[simp] theorem State.take_tn : s.take.2.tn = s.tn := rfl
@[simp] theorem State.take_bars : s.take.2.bars = s.bars := rfl
@[simp] theorem State.take_arrQ : s.take.2.arrQ = s.arrQ := rfl
@[simp] theorem State.take_evQ : s.take.2.evQ = s.evQ := rfl
@[simp] theorem State.take_field : s.take.2.field = s.field := rfl
@[simp] theorem State.take_mile : s.take.2.mile = s.mile := rfl
@[simp] theorem State.take_drv : s.take.2.drv = s.drv := rfl
@[simp] theorem State.take_perc : s.take.2.perc = s.perc := rfl
@[simp] theorem State.take_eth : s.take.2.eth = s.eth := rfl
@[simp] theorem State.take_can : s.take.2.can = s.can := rfl
@[simp] theorem State.take_i2c : s.take.2.i2c = s.i2c := rfl
@[simp] theorem State.take_fresh : s.take.2.fresh = s.fresh + 1 := rfl
@[simp] theorem State.take_fst : s.take.1 = s.fresh := rfl

end Sys2Proof.Machine
end

