-- ==== Sys2Proof/Laws/Regs.lean ====
section
/-!
SUPPORT. Reading registers, bit fields, memory and unit tables after the operations that write them.
-/
namespace Sys2Proof.Machine

/-! ### Bit fields -/

theorem setFld_toNat {w : Word} {hi lo v : Nat} (h1 : lo ≤ hi) (h2 : hi < 32) :
    (setFld w hi lo v).toNat
      = w.toNat % 2 ^ lo + 2 ^ lo * (v % 2 ^ (hi + 1 - lo) + 2 ^ (hi + 1 - lo) * (w.toNat / (2 ^ lo * 2 ^ (hi + 1 - lo)))) := by
  have hn : w.toNat < 2 ^ 32 := w.isLt
  have hPQ : 2 ^ lo * 2 ^ (hi + 1 - lo) = 2 ^ (hi + 1) := by rw [← Nat.pow_add]; congr 1; omega
  have hle : 2 ^ (hi + 1) * 2 ^ (31 - hi) = 2 ^ 32 := by rw [← Nat.pow_add]; congr 1; omega
  unfold setFld nfld
  rw [BitVec.toNat_ofNat, Nat.shiftLeft_eq, Nat.shiftLeft_eq]
  generalize hn' : w.toNat = n at *
  generalize hP : 2 ^ lo = P at *
  generalize hQ : 2 ^ (hi + 1 - lo) = Q at *
  have hP0 : 0 < P := hP ▸ Nat.two_pow_pos lo
  have hQ0 : 0 < Q := hQ ▸ Nat.two_pow_pos _
  have e1 : n = n % P + P * (n / P) := (Nat.mod_add_div n P).symm
  have e2 : n / P = n / P % Q + Q * (n / P / Q) := (Nat.mod_add_div (n / P) Q).symm
  have e3 : n / P / Q = n / (P * Q) := Nat.div_div_eq_div_mul n P Q
  have ha : n % P < P := Nat.mod_lt _ hP0
  have hv : v % Q < Q := Nat.mod_lt _ hQ0
  have hc : n / (P * Q) < 2 ^ (31 - hi) := by
    rw [Nat.div_lt_iff_lt_mul (Nat.mul_pos hP0 hQ0), hPQ, Nat.mul_comm, hle]
    exact hn
  rw [e3] at e2
  generalize n / (P * Q) = c at *
  generalize n / P % Q = b at *
  generalize n / P = d at *
  generalize n % P = a at *
  generalize v % Q = x at *
  have e4 : n - b * P + x * P = a + P * (x + Q * c) := by
    rw [e1, e2, Nat.mul_add, Nat.mul_add, Nat.mul_comm b P, Nat.mul_comm x P]
    omega
  rw [e4]
  refine Nat.mod_eq_of_lt ?_
  have h5 : x + Q * c + 1 ≤ Q * 2 ^ (31 - hi) := by
    have h6 : Q * (c + 1) ≤ Q * 2 ^ (31 - hi) := Nat.mul_le_mul_left Q hc
    rw [Nat.mul_add, Nat.mul_one] at h6
    omega
  have h7 : P * (x + Q * c + 1) ≤ P * (Q * 2 ^ (31 - hi)) := Nat.mul_le_mul_left P h5
  rw [← Nat.mul_assoc, hPQ, hle, Nat.mul_add, Nat.mul_one] at h7
  omega

/-- A field written is read back. -/
theorem fld_setFld {w : Word} {hi lo v : Nat} (h1 : lo ≤ hi) (h2 : hi < 32) : fld (setFld w hi lo v) hi lo = v % 2 ^ (hi + 1 - lo) := by
  unfold fld nfld
  rw [setFld_toNat h1 h2, Nat.add_mul_div_left _ _ (Nat.two_pow_pos lo), Nat.div_eq_of_lt (Nat.mod_lt _ (Nat.two_pow_pos lo)),
    Nat.zero_add, Nat.add_mul_mod_self_left, Nat.mod_mod]

/-- A field written leaves a field below it alone. -/
theorem fld_setFld_below {w : Word} {hi lo v h l : Nat} (h1 : lo ≤ hi) (h2 : hi < 32) (hd : h < lo) (hl : l ≤ h) :
    fld (setFld w hi lo v) h l = fld w h l := by
  have e : 2 ^ lo = 2 ^ l * 2 ^ (h + 1 - l) * 2 ^ (lo - (h + 1)) := by
    rw [← Nat.pow_add, ← Nat.pow_add]; congr 1; omega
  unfold fld nfld
  rw [← Nat.mod_mul_right_div_self, ← Nat.mod_mul_right_div_self, setFld_toNat h1 h2]
  congr 1
  generalize w.toNat / _ = c
  generalize v % 2 ^ (hi + 1 - lo) + 2 ^ (hi + 1 - lo) * c = m
  rw [e, Nat.mul_assoc (2 ^ l * 2 ^ (h + 1 - l)) _ m, Nat.add_mul_mod_self_left, Nat.mod_mul_right_mod]

/-- A field written leaves a field above it alone. -/
theorem fld_setFld_above {w : Word} {hi lo v h l : Nat} (h1 : lo ≤ hi) (h2 : hi < 32) (hd : hi < l) :
    fld (setFld w hi lo v) h l = fld w h l := by
  have e : 2 ^ l = 2 ^ lo * 2 ^ (hi + 1 - lo) * 2 ^ (l - (hi + 1)) := by
    rw [← Nat.pow_add, ← Nat.pow_add]; congr 1; omega
  unfold fld nfld
  congr 1
  rw [setFld_toNat h1 h2, e, ← Nat.div_div_eq_div_mul, ← Nat.div_div_eq_div_mul, ← Nat.div_div_eq_div_mul, ← Nat.div_div_eq_div_mul,
    Nat.add_mul_div_left _ _ (Nat.two_pow_pos lo), Nat.div_eq_of_lt (Nat.mod_lt _ (Nat.two_pow_pos lo)), Nat.zero_add,
    Nat.add_mul_div_left _ _ (Nat.two_pow_pos _), Nat.div_eq_of_lt (Nat.mod_lt _ (Nat.two_pow_pos _)), Nat.zero_add,
    Nat.div_div_eq_div_mul w.toNat]

theorem fld_lt {w : Word} {hi lo : Nat} : fld w hi lo < 2 ^ (hi + 1 - lo) := Nat.mod_lt _ (Nat.two_pow_pos _)

theorem tbit_eq {w : Word} {i : Nat} : tbit w i = decide (fld w i i = 1) := by
  unfold tbit fld
  rw [Bool.eq_iff_iff, beq_iff_eq, decide_eq_true_iff]

theorem tbit_setFld_same {w : Word} {i v : Nat} (h : i < 32) : tbit (setFld w i i v) i = decide (v % 2 = 1) := by
  rw [tbit_eq, fld_setFld (Nat.le_refl i) h]
  have e : i + 1 - i = 1 := by omega
  simp [e]

@[simp] theorem tbit_setBit {w : Word} {i : Nat} {b : Bool} (h : i < 32) : tbit (setBit w i b) i = b := by
  unfold setBit
  rw [tbit_setFld_same h]
  cases b <;> rfl

/-- A bit outside a written field stands. -/
theorem tbit_setFld_ne {w : Word} {hi lo v j : Nat} (h1 : lo ≤ hi) (h2 : hi < 32) (hd : j < lo ∨ hi < j) :
    tbit (setFld w hi lo v) j = tbit w j := by
  rw [tbit_eq, tbit_eq]
  cases hd with
  | inl h => rw [fld_setFld_below h1 h2 h (Nat.le_refl j)]
  | inr h => rw [fld_setFld_above h1 h2 h]

theorem tbit_setBit_ne {w : Word} {i j : Nat} {b : Bool} (h : i < 32) (hd : j ≠ i) : tbit (setBit w i b) j = tbit w j :=
  tbit_setFld_ne (Nat.le_refl i) h (by omega)

theorem fld_setBit_ne {w : Word} {i hi lo : Nat} {b : Bool} (h : i < 32) (hd : hi < i ∨ i < lo) (hl : lo ≤ hi) :
    fld (setBit w i b) hi lo = fld w hi lo := by
  cases hd with
  | inl hd => exact fld_setFld_below (Nat.le_refl i) h hd hl
  | inr hd => exact fld_setFld_above (Nat.le_refl i) h hd

/-! ### Registers -/

variable {s : State}

/-- The registers are in canonical form: what reading them back needs. -/
def State.regsWf (s : State) : Prop := mapWf resetReg s.regs = true

theorem State.wr_regsWf {a : Nat} {v : Word} (h : s.regsWf) : (s.wr a v).regsWf := mapSet_wf h
theorem State.pf_regsWf {a hi lo v : Nat} (h : s.regsWf) : (s.pf a hi lo v).regsWf := mapSet_wf h
theorem State.wb_regsWf {a i : Nat} {b : Bool} (h : s.regsWf) : (s.wb a i b).regsWf := mapSet_wf h
theorem State.wr64_regsWf {a v : Nat} (h : s.regsWf) : (s.wr64 a v).regsWf := mapSet_wf (mapSet_wf h)

/-- An operation that leaves the registers alone leaves their readings alone. -/
theorem State.rd_congr {t : State} (h : t.regs = s.regs) (a : Nat) : t.rd a = s.rd a := by
  unfold State.rd
  rw [h]

/-- A register written reads as written; every other reads as before. -/
theorem State.rd_wr (h : s.regsWf) (a b : Nat) (v : Word) : (s.wr a v).rd b = if b = a then v else s.rd b := mapGet_mapSet h
theorem State.rd_wr_same (h : s.regsWf) (a : Nat) (v : Word) : (s.wr a v).rd a = v := by rw [State.rd_wr h, if_pos rfl]
theorem State.rd_wr_ne (h : s.regsWf) {a b : Nat} (v : Word) (hne : b ≠ a) : (s.wr a v).rd b = s.rd b := by rw [State.rd_wr h, if_neg hne]

theorem State.rd_pf (h : s.regsWf) (a b hi lo v : Nat) : (s.pf a hi lo v).rd b = if b = a then setFld (s.rd a) hi lo v else s.rd b :=
  State.rd_wr h a b _
theorem State.rd_wb (h : s.regsWf) (a b i : Nat) (x : Bool) : (s.wb a i x).rd b = if b = a then setBit (s.rd a) i x else s.rd b :=
  State.rd_wr h a b _

/-- A field put is read back. -/
theorem State.rf_pf (h : s.regsWf) (a : Nat) {hi lo v : Nat} (h1 : lo ≤ hi) (h2 : hi < 32) :
    (s.pf a hi lo v).rf a hi lo = v % 2 ^ (hi + 1 - lo) := by
  unfold State.rf
  rw [State.rd_pf h, if_pos rfl, fld_setFld h1 h2]
theorem State.rb_wb (h : s.regsWf) (a : Nat) {i : Nat} {x : Bool} (h2 : i < 32) : (s.wb a i x).rb a i = x := by
  unfold State.rb
  rw [State.rd_wb h, if_pos rfl, tbit_setBit h2]

/-! ### Interrupts, faults and the log -/

/-- Requesting interrupts sends messages and does nothing else. -/
theorem State.sendTenantBits_msix {n k : Nat} {pend : Word} : ∃ m, s.sendTenantBits n pend k = { s with msix := m } := by
  induction k with
  | zero => exact ⟨s.msix, rfl⟩
  | succ k ih =>
    obtain ⟨m, hm⟩ := ih
    unfold State.sendTenantBits
    dsimp only
    rw [hm]
    split
    · exact ⟨_, rfl⟩
    · exact ⟨_, rfl⟩

theorem State.sendRoute_msix {src : Nat} : ∃ m, s.sendRoute src = { s with msix := m } := by
  unfold State.sendRoute
  dsimp only
  split
  · exact ⟨s.msix, rfl⟩
  · split
    · exact ⟨_, rfl⟩
    · split
      · exact ⟨_, rfl⟩
      · exact ⟨s.msix, rfl⟩

theorem State.requestIrq_msix {page : Nat} : ∃ m, s.requestIrq page = { s with msix := m } := by
  unfold State.requestIrq
  split
  · exact ⟨s.msix, rfl⟩
  · dsimp only
    split
    · obtain ⟨m, hm⟩ := State.sendTenantBits_msix (s := s) (n := _ - 8) (pend := s.irqPend page) (k := 6)
      rw [hm]
      obtain ⟨m', hm'⟩ := State.sendRoute_msix (s := { s with msix := m }) (src := _)
      exact ⟨m', hm'⟩
    · exact State.sendRoute_msix

/-- Events set bits of IRQ_RAW and may send messages; nothing else changes (R455). -/
theorem State.raiseBits_eq {page : Nat} {m : Word} :
    ∃ x, s.raiseBits page m = { s.wr (rga page oRaw) (s.rd (rga page oRaw) ||| m) with msix := x } := by
  unfold State.raiseBits
  dsimp only
  split
  · exact State.requestIrq_msix
  · exact ⟨s.msix, rfl⟩

theorem State.raise_eq {page bit : Nat} :
    ∃ x, s.raise page bit = { s.wr (rga page oRaw) (s.rd (rga page oRaw) ||| w32 (2 ^ bit)) with msix := x } := State.raiseBits_eq

/-- Logging an event changes the log alone (R425). -/
theorem State.logEvent_eq {page code cls info t : Nat} : ∃ g, s.logEvent page code cls info t = { s with log := g } := by
  unfold State.logEvent
  split <;> exact ⟨_, rfl⟩

theorem State.logNamed_eq {page ev cls info t : Nat} : ∃ g, s.logNamed page ev cls info t = { s with log := g } := State.logEvent_eq

@[simp] theorem State.rd_raise {page bit : Nat} (h : s.regsWf) (a : Nat) :
    (s.raise page bit).rd a = if a = rga page oRaw then s.rd a ||| w32 (2 ^ bit) else s.rd a := by
  obtain ⟨x, hx⟩ := State.raise_eq (s := s) (page := page) (bit := bit)
  rw [hx]
  have := State.rd_wr h (rga page oRaw) a (s.rd (rga page oRaw) ||| w32 (2 ^ bit))
  unfold State.rd at this ⊢
  dsimp only
  rw [this]
  split
  · rename_i e
    rw [e]
  · rfl

@[simp] theorem State.rd_logNamed {page ev cls info t : Nat} (a : Nat) : (s.logNamed page ev cls info t).rd a = s.rd a := by
  obtain ⟨g, hg⟩ := State.logNamed_eq (s := s) (page := page) (ev := ev) (cls := cls) (info := info) (t := t)
  rw [hg]
  rfl

theorem State.raise_regsWf {page bit : Nat} (h : s.regsWf) : (s.raise page bit).regsWf := by
  obtain ⟨x, hx⟩ := State.raise_eq (s := s) (page := page) (bit := bit)
  rw [hx]
  exact State.wr_regsWf h

/-! ### Memory and unit tables -/

/-- A byte of HBM stored is read back, and no other byte changes. -/
theorem State.hbmByte_hbmPut (h : mapWf hbmDflt s.hbm = true) (a b : Nat) (v : Byte) :
    (s.hbmPut a v).hbmByte b = if b = a then v else s.hbmByte b := mapGet_mapSet h

/-- Bytes put from address a on: the bytes there, every other as before. -/
theorem mapGet_putBytes {m : List Host.Cell} {a b : Nat} {bs : List Byte} (h : mapWf hbmDflt m = true) :
    mapGet hbmDflt (putBytes m a bs) b = if a ≤ b ∧ b < a + bs.length then bs.getD (b - a) 0 else mapGet hbmDflt m b := by
  induction bs generalizing m a with
  | nil =>
    have : ¬(a ≤ b ∧ b < a + 0) := by omega
    simp only [putBytes, List.length_nil, if_neg this]
  | cons x r ih =>
    simp only [putBytes, List.length_cons]
    rw [ih (mapSet_wf h), mapGet_mapSet h]
    by_cases hb : b = a
    · subst hb
      have h1 : ¬(b + 1 ≤ b ∧ b < b + 1 + r.length) := by omega
      have h2 : b ≤ b ∧ b < b + (r.length + 1) := by omega
      rw [if_neg h1, if_pos rfl, if_pos h2, Nat.sub_self, List.getD_cons_zero]
    · by_cases h1 : a + 1 ≤ b ∧ b < a + 1 + r.length
      · have h2 : a ≤ b ∧ b < a + (r.length + 1) := by omega
        have e : b - a = b - (a + 1) + 1 := by omega
        rw [if_pos h1, if_pos h2, e, List.getD_cons_succ]
      · have h2 : ¬(a ≤ b ∧ b < a + (r.length + 1)) := by omega
        rw [if_neg h1, if_neg hb, if_neg h2]

theorem State.hbmByte_hbmWrite (h : mapWf hbmDflt s.hbm = true) (a b : Nat) (bs : List Byte) :
    (s.hbmWrite a bs).hbmByte b = if a ≤ b ∧ b < a + bs.length then bs.getD (b - a) 0 else s.hbmByte b := mapGet_putBytes h

@[simp] theorem State.engine_setEngine (h : mapWf dflt s.eng = true) (e i : Nat) (x : Engine) :
    (s.setEngine e x).engine i = if i = e then x else s.engine i := mapGet_mapSet h
@[simp] theorem State.porter_setPorter (h : mapWf dflt s.por = true) (e i : Nat) (x : Porter) :
    (s.setPorter e x).porter i = if i = e then x else s.porter i := mapGet_mapSet h
@[simp] theorem State.queue_setQueue (h : mapWf dflt s.queues = true) (e i : Nat) (x : Queue) :
    (s.setQueue e x).queue i = if i = e then x else s.queue i := mapGet_mapSet h
@[simp] theorem State.tenant_setTenant (h : mapWf dflt s.tn = true) (e i : Nat) (x : Tenant) :
    (s.setTenant e x).tenant i = if i = e then x else s.tenant i := mapGet_mapSet h

/-- The sparse tables of a canonical state, one by one. -/
theorem State.canonical_iff : s.canonical = true ↔ ((((((mapWf hbmDflt s.hbm = true ∧ mapWf hbmDflt s.spad = true) ∧ s.regsWf)
    ∧ mapWf dflt s.eng = true) ∧ mapWf dflt s.por = true) ∧ mapWf dflt s.queues = true) ∧ mapWf dflt s.tn = true) ∧ mapWf dflt s.bars = true := by
  simp only [State.canonical, Memory.wf, Bool.and_eq_true, State.regsWf]

theorem State.canonical_regsWf (h : s.canonical = true) : s.regsWf := (State.canonical_iff.1 h).1.1.1.1.1.2

/-! ### The region table -/

/-- The verdict of the region table hangs on the region registers alone. -/
theorem State.regCheck_congr {t : State} (h : ∀ a, a / 4096 = 9 → t.rd a = s.rd a) (tn : Nat) (w : Bool) (a n : Nat) :
    t.regCheck tn w a n = s.regCheck tn w a n := by
  have hc : ∀ e, e < 128 → t.rd (regCfg e) = s.rd (regCfg e) := fun e he => h _ (by unfold regCfg rga; omega)
  have hb : ∀ e, e < 128 → t.rd (regBase e) = s.rd (regBase e) := fun e he => h _ (by unfold regBase rga; omega)
  have hz : ∀ e, e < 128 → t.rd (regSize e) = s.rd (regSize e) := fun e he => h _ (by unfold regSize rga; omega)
  have hm : ∀ u, t.regMatch u = s.regMatch u := by
    intro u
    unfold State.regMatch
    apply List.filter_congr
    intro e he
    have he := List.mem_range.1 he
    unfold State.regHas State.rb
    rw [hc e he, hb e he, hz e he]
  have hj : ∀ k u, t.regJudge tn w a u k = s.regJudge tn w a u k := by
    intro k
    induction k with
    | zero => intro u; rfl
    | succ k ih =>
      intro u
      unfold State.regJudge
      rw [hm u]
      rcases hu : s.regMatch u with _ | ⟨e, _ | ⟨e', r⟩⟩
      · simp only [ih]
      · have he : e < 128 := by
          have : e ∈ s.regMatch u := by rw [hu]; exact List.mem_singleton_self e
          exact List.mem_range.1 (List.mem_filter.1 this).1
        simp only [State.rf, State.rb, hc e he, ih]
        congr
      · rfl
  unfold State.regCheck
  split
  · rfl
  · exact hj _ _

/-- Reading HBM hangs on its bytes alone. -/
theorem State.hbmRead_congr {t : State} (h : t.hbm = s.hbm) (a n : Nat) : t.hbmRead a n = s.hbmRead a n := by
  induction n generalizing a with
  | zero => rfl
  | succ n ih => unfold State.hbmRead State.hbmByte; rw [h, ih]

@[simp] theorem State.hbmRead_length (a n : Nat) : (s.hbmRead a n).length = n := by
  induction n generalizing a with
  | zero => rfl
  | succ n ih => simp [State.hbmRead, ih]

theorem State.hbmRead_getD (a n k : Nat) (h : k < n) : (s.hbmRead a n).getD k 0 = s.hbmByte (a + k) := by
  induction n generalizing a k with
  | zero => omega
  | succ n ih =>
    cases k with
    | zero => simp [State.hbmRead]
    | succ k => simp only [State.hbmRead, List.getD_cons_succ]; rw [ih (a + 1) k (by omega)]; congr 1; omega

end Sys2Proof.Machine
end

