-- ==== Sys2Proof/Tests/Slice0.lean ====
section
/-!
SUPPORT. The model's own tests: small states, for every statement with hypotheses a state and operands that meet them all (clause by clause, in the order
of the statement), an ill-formed operand for each check of WellFormed, and single steps with values from the spec.
-/
namespace Sys2Proof.Tests
open Sys2Proof.Machine

set_option Elab.async false

/-! ### States and operands -/

/-- A running module: power and link up, both domains released, READY. -/
def up : State :=
  let s : State := { State.reset with
    pins := { State.reset.pins with porN := true, perstN := true }
    ost := { State.reset.ost with ctrlHeld := false, pcieHeld := false, firmware := true, running := 0, cold := false } }
  (s.wr aReady 0x80000005)

/-- Registers set in turn. -/
def regsOf (s : State) (l : List (Nat × Word)) : State := l.foldl (fun s x => s.wr x.1 x.2) s

/-- The page of a number, and the pages of its unit. -/
def pg (p : Nat) : PageId := (pageId p).getD ⟨.top, 0, 0, none⟩

/-- Every group in its safe state. -/
def safe : State := (List.range 12).foldl (fun s g => s.wb (aAlStat g) 3 true) up

/-- A latched high word of a Drover latch; a transmit stamp; a received CAN frame. -/
def latched : State := { up with latch := [(rga 0x410 0x88, some 7)] }
def stamped : State := { up with mile := { up.mile with stamps := [(3, [⟨1, 2, 3, 4⟩])] } }
def aFrame : CanFrame := { ide := false, rtr := false, fdf := false, brs := false, esi := false, id := 1, dlc := 0, data := [] }
def aRx : CanRx := ⟨aFrame, false, 0, false, 0, 0⟩
def canHolds : State := up.setCf 7 { rx := [aRx] }

/-! ### Commands of an engine -/

/-- A descriptor of queue 0 from its words that are not zero. -/
def cmdOf (l : List (Nat × Word)) : Cmd := ⟨0, 0, (List.range 16).map (fun i => ((l.find? (fun x => x.1 == i)).map (·.2)).getD 0)⟩

/-- A recipe with its CRC: words 0, 3 and 4, and its post operations. -/
def recOf (w0 w3 w4 : Word) (post : List Word) : List Word :=
  let r := ([w0, 0x00200020, 0x00010040, w3, w4] ++ post ++ List.replicate 10 0).take 15
  r ++ [w32 (crc32 (r.flatMap (fun w => natLe 4 w.toNat)))]

def recArray : List Word := recOf 0x01010001 0x324001F0 0 []
def recRnn : List Word := recOf 0x01010001 0x436001F0 0 []
def recAttn : List Word := recOf 0x01014001 0xFFF00FFF 0 []
def recPlain : List Word := recOf 0x01010001 0xFFF00FFF 0 []
def recRelu : List Word := recOf 0x01010001 0xFFF00FFF 0x71 [0x07F00000]

/-- Engine 5 with a picked command, its recipe in the cache, and the whole scratchpad for tenant 0. -/
def eng (c : Cmd) (r : List Word) : State :=
  let s := up.wr (partReg 5 0) 0x800FFC00
  s.setEngine 5 { sel := some c, recipes := [⟨0, 0, r⟩] }

/-- Scratchpad words of engine 5. -/
def spadOf (s : State) (l : List (Nat × Word)) : State := l.foldl (fun s x => s.spWrite 5 x.1 (natLe 4 x.2.toNat)) s

def cMatmul : Cmd := cmdOf [(0, 0x3001), (4, 0x01110000), (6, 0x1000), (7, 0x3000), (8, 0x4000), (9, 0x5000), (10, 0x10001), (11, 32), (12, 0x10001)]
def cDense : Cmd := cmdOf [(0, 0x3002), (4, 0x01110000), (6, 0x1000), (7, 0x3000), (8, 0x4000), (9, 0x5000), (10, 0x00100100), (11, 0x00200020), (12, 0x01011100), (13, 1)]
def cDiagonal : Cmd := cmdOf [(0, 0x3002), (4, 0x01110000), (6, 0x1000), (7, 0x3000), (8, 0x4000), (9, 0x5000), (10, 0x00100100), (11, 0x00010001), (12, 0x01011100), (13, 0x10000001)]
def cFrequency : Cmd := cmdOf [(0, 0x3002), (4, 0x06660000), (6, 0x1000), (7, 0x3000), (8, 0x4000), (9, 0x5000), (10, 0x00100100), (11, 0x00010001), (12, 0x01011100), (13, 0x24000001)]
def cAttn : Cmd := cmdOf [(0, 0x3003), (4, 0x07660000), (6, 0x1000), (8, 0x2000), (9, 0x2800), (10, 0x2C00), (11, 0x2D00), (12, 0x10000), (13, 0x3000), (14, 0x3100)]
def cRnn : Cmd := cmdOf [(0, 0x3004), (4, 0x17110000), (6, 0x1000), (7, 0x3000), (8, 0x5000), (9, 0x5100), (10, 0x6000), (11, 0x7000), (12, 0x8000), (13, 0x9000), (14, 0x00010100), (15, 0xA000)]
def cVec (vop f o : Word) (l : List (Nat × Word)) : Cmd := cmdOf (([(0, 0x3005), (5, 0x100), (6, 0x1000), (8, vop <<< 24 ||| f <<< 20 ||| o <<< 16), (9, 1), (10, 2)] : List (Nat × Word)) ++ l)
def cDigest : Cmd := cmdOf [(0, 0x300A), (4, 0x01000000), (6, 0x1000), (7, 1), (8, 1)]
def cPool (vop f o : Word) : Cmd := cmdOf [(0, 0x3005), (6, 0x1000), (8, vop <<< 24 ||| f <<< 20 ||| o <<< 16), (9, 0x00010001), (10, 0x00010001), (11, 0x01011100)]
/-- Biases of −512 for the 64 elements of the cell: tanh is −1 exactly. -/
def biased : State :=
  { eng cRnn recRnn with
    spad := (List.range 64).map (fun j => (spadKey 5 (0xA003 + 4 * j), 0xC4)) }
def sAttn (mode : Word) : State :=
  spadOf (eng cAttn recAttn) [(0x3000, mode <<< 30 ||| 0x0100), (0x3004, 0x01010001), (0x3008, 0x00010000), (0x3010, if mode = 1 then 0x00800100 else 0), (0x3018, 0x4000)]


/-! ### HBM -/

/-- Two regions of 2 MiB: the first of tenant 0, the second of the physical function. -/
def mem : State := regsOf up [(regCfg 0, 0xC0000000), (regCfg 1, 0xC0800000), (regBase 1, 1)]

/-- A Ledger whose repairs of engine 5 ask for eight rows of bank 95. -/
def repaired : State := { up with ledger := { up.ledger with ram := (List.range 8).map (fun i => (0x380 + i, 0x805F0000)) } }

/-! ### The Field -/

/-- Module 0 of a ring of four: port 0 UP toward module 1, port 1 UP toward module 3. -/
def ring : State := regsOf up [(aTopo, 0xE00), (flReg 0 0x40, 2), (flReg 1 0x40, 4), (flReg 0 0x44, 3), (flReg 1 0x44, 3)]

/-- A packet, and a port that received it on a channel. -/
def pkt (op : PktOp) (dest addr : Nat) (data : List Byte) : Packet :=
  { dest := dest, src := 1, tenant := 0, vc := 3, epoch := 0, hops := 0, op := op, space := 0, tag := 5, addr := addr, data := data }
def far (k : Packet) : Packet := { k with hops := 31 }
def toSpad (k : Packet) : Packet := { k with space := 6 }
def rx (k : Packet) : State := ring.setPort 7 { ring.port 7 with rx := [(3, [⟨packetFlits k, true, .wait, true⟩])] }
def aProxy : Proxy := ⟨5, 1, 0x40, 0x010C0040, none, true, 0⟩
def asked (k : Packet) : State := { rx k with field := { (rx k).field with proxies := [aProxy] } }

/-! ### Queues -/

/-- Tenant 7 active with queue 31 on engine 5, and its regions. -/
def act : State := regsOf mem [(rga (tnPage 7) 0x44, 1), (qReg 31 8, 0x85010600), (regCfg 0, 0xC0700000)]

/-- A descriptor of queue 31. -/
def qcmd (l : List (Nat × Word)) : Cmd := { cmdOf l with q := 31 }
def head (c : Cmd) : State := act.setQueue 31 { fetched := [c] }
def cCopy (w5 : Word) : Cmd := qcmd [(0, 0x3706), (5, w5), (7, 1)]
def copying (w5 : Word) : State := act.setPorter 15 { sel := some (cCopy w5) }
/-- A one-dimensional descriptor at 0x1000 that moves four bytes from 0x2000 to 0x2002. -/
def listed : State :=
  (act.hbmWrite 0x1000 ([1, 0x2000, 0, 0x2002, 0, 4].flatMap (natLe 4))).hbmWrite 0x2000 [1, 2, 3, 4]
def moving : State := listed.setPorter 15 { run := some ⟨cCopy 0x1000, 0, 0, false⟩ }
def cArrive : Cmd := qcmd [(0, 0x3707), (3, 0xFF001400)]
def cWait (g : Word) : Cmd := qcmd [(0, 0x3708), (3, 0xFF001400), (5, g)]
/-- Barrier TB255 of tenant 7 in generation mode. -/
def bar255 (s : State) (v : Word) : State := regsOf s [(barCfgReg (.central 255), v), (barPartReg (.central 255), 1)]
def waiting (g : Word) : State := bar255 (head (cWait g)) 0x87000000
def cFence : Cmd := qcmd [(0, 0x370B), (5, 5)]
def fencing : State := act.setQueue 31 { fence := some cFence }
def pushed : State := act.wr (qReg 31 0xC) 1
def counted (n : Nat) : State := act.setQueue 31 { wait := some ⟨.count n, cWait 0, false, 0⟩ }
def ended : State := act.setEngine 5 { run := some ⟨qcmd [(0, 0x3701)], 0, 0, true⟩ }
def arriving (expect : Word) : State := { bar255 act (0x87000000 ||| expect <<< 16) with arrQ := [⟨.central 255, 1, some 7, none, 0, 0x105⟩] }
def opened : State := (bar255 act 0x87010000).setBar (.central 255) { open_ := 1, units := [0x105] }
def genWait : State := act.setQueue 31 { wait := some ⟨.gen (.central 255) 0, cWait 0, false, 1⟩ }

/-! ### The Field: ports, requests, barriers -/

/-- Port 7 in training toward module 1. -/
def training : State := regsOf ring [(flReg 7 0x40, 2), (flReg 7 0x44, 1)]
/-- A Ledger whose roster holds the key hash of zeros. -/
def rostered (s : State) : State := { s with ledger := { s.ledger with ram := [(0x60B, 0x80000000)] } }
/-- The one flit of a WRITE packet for module 0; a packet of one flit that waits on channel 1 of port 0, with credit and without. -/
def aFlit : Flit := (packetFlits (pkt .write 0 0 [1])).getD 0 default
def aTx : TxPkt :=
  let k : Packet := { pkt .write 1 0 [1] with vc := 1 }
  ⟨1, none, packetFlits k, true, false, 0, none, { k with data := [] }⟩
def sending (out : List (Nat × Nat)) : State := ring.setPort 0 { ring.port 0 with
  txs := { out := out }
  tx := [aTx] }
def rxOn (k : Packet) : State := { rx k with regs := (regsOf (rx k) [(regCfg 0, 0xC0000000)]).regs }
def aReq : Req := ⟨5, 15, 7, 31, 0xFFFFFFFF, 0x40, 2, 7⟩
def requested (k : Packet) : State :=
  let s := rx k
  { s with field := { s.field with reqs := [aReq] } }
/-- Module 0 of a ring whose Field-counter master is module 1. -/
def slave : State := ring.wr (rga 0x300 0x210) 1
/-- Link barrier 15 over modules 0, 2 and 3, module 0 arrived. -/
def linkBar : State :=
  (regsOf ring [(lbMask 15, 0xD), (lbCfg 15, 0x00010000)]).setLb 15 { arrived := 1 }

/-! ### Generators and Waybill -/

/-- Generator 3 free-running, and on the mains. -/
def freeGen : State := (up.pf (pgReg 3 0x18) 2 0 2).setGen 3 { src := 3, fracHeld := some 0 }
def mainsGen : State := (up.pf (pgReg 3 0x18) 2 0 2).setGen 3 { src := 2 }
def changing : State := { freeGen with mile := { freeGen.mile with changes := [.adj 3 7] } }
/-- Entry 1023 selected, a strobe of channel 0 staged for it at phase 8, over ARG. -/
def staged (arg : Word) : State := regsOf up [(wbReg 0x40, 1023), (wbReg 0x44, 8), (wbReg 0x48, 0x81C00000), (wbReg 0x4C, arg)]
def cWbWait (fires : Word) : Cmd := qcmd [(0, 0x3709), (5, 1023), (6, fires), (7, 1)]
def wbWaiting : State := act.setQueue 31 { wait := some ⟨.fires 1023 1, cWbWait 1, false, 1⟩ }
def wbFired : State := wbWaiting.setWbEntry 1023 { wbWaiting.wbEntry 1023 with fires := 1 }
/-- Entry 1023 of tenant 7, which has never fired, and a WAYBILL_WAIT on it at the head of queue 31. -/
def wbHead (fires : Word) : State := (head (cWbWait fires)).setWbEntry 1023 { cfg := 0x84007000 }
def dueOne (late : Bool) : State :=
  let s := up.setWbEntry 1023 { cfg := 0x84007000 }
  { s with mile := { s.mile with due := [⟨3, 1023, 0, late⟩] } }
def event (action : Nat) (arg : Word) : State := { act with evQ := [⟨action, arg, 7, 1023⟩] }

/-! ### Axes -/

/-- A valid law descriptor. -/
def lawWords : List (Nat × Word) :=
  [(0, 0x1000), (3, 0x3F800000), (6, 0x3F000000), (7, 0x3F800000), (8, 0x3F800000), (16, 1), (17, 4096), (20, 0x3F800000), (21, 0x3F800000), (22, 0x447A0000),
   (23, 0x01000000), (24, 0x3F800000), (25, 0x3F800000), (26, 0x3F000000), (27, 0x3F000000), (28, 0x3F000000), (29, 0x3F800000), (30, 0x01010001), (31, 0x3F800000)]
def lawStaged : State := regsOf up ((aAxStat 47, 0) :: lawWords.map (fun x => (axReg 47 (0x100 + 4 * x.1), x.2)))
/-- Axis 47 with a law and an encoder; the same axis RUNNING. -/
def ready : State :=
  regsOf lawStaged ((lawWords.map (fun x => (axReg 47 (0x180 + 4 * x.1), x.2))) ++ [(aAxStat 47, 0x40), (encReg 47 0x40, 0x40000000), (aAlStat 11, 2)])
def running : State := ready.setAxState 47 1
/-- Group 11 SAFE with no trigger left. -/
def resettable : State := ready.wb (aAlStat 11) 3 true
/-- Three phases with a valid sample each. -/
def deciding (amps : Word) : State :=
  running.setAxis 47 { phases := (List.range 3).map (fun k => (k, { amps := amps, valid := true })) }
/-- A mailbox buffer of datapath 3, with SEQ 1 and one segment for axis 11; the same buffer when SEQ 3 is due. -/
def mailbox : State :=
  (((mem.setDp 3 { fetches := 1 }).hbmWrite 0x2000 ([1, 3, 0, 8, 1, 0, 0, 0] ++ List.replicate 11 0 ++ [0x21])).hbmWrite 0x203C
    [0xD7, 0x0F, 0x90, 0x4A]).hbmWrite 0x3644 [1]
def mailboxLate : State := mailbox.wr (dvReg 3 0x8C) 2
/-- The address of the buffer that datapath 3 fetches next. -/
def mbCopy (s : State) : Nat :=
  2 ^ 13 * s.rf (dvReg 3 0x84) 31 13 + 2 ^ 32 * s.rf (dvReg 3 0x88) 7 0 + 8192 * (((s.rd (dvReg 3 0x8C)).toNat + 1) % 2)
/-- Port 11 of the Axis link in LINK state l. -/
def linked (l : Nat) : State := (regsOf up [(alReg 11 0x40, 0x0F000001)]).pf (aAlStat 11) 1 0 l
def encOn (mode : Word) : State := up.wr (encReg 47 0x40) (mode <<< 30)

/-! ### Perception -/

/-- Pipeline 15 enabled: virtual channel 0, RAW8, pictures of 2 by 2. -/
def cam (x : Thresher) : State := (regsOf mem [(srcReg 15 0x1C, 1), (thReg 15 0x60, 0x0A800000), (thReg 15 0x64, 0x00020002)]).setTh 15 x
def inFrame : Thresher := { opened := true, par := [0x0A800000, 0x00020002] ++ List.replicate 22 0 }
/-- Source 95 set up with a ring of slots of two pages in the region of tenant 0; the same source enabled. -/
def source (cfg : Word) : State := regsOf mem [(srcReg 95 0xC, 0x00020002), (srcReg 95 0x20, cfg)]
def sourceOn : State := (source 0).wr (srcReg 95 0x1C) 1
def aView : View := ⟨2, 2, 0, 0, [1, 2, 3, 4, 5, 6]⟩
def aSample : Sample := ⟨2, 0, 0, 0, 0, 0, 0, 0, 0, 0, 0, [some aView, none, none, none, none], [], [], []⟩
/-- A sample of source 95 waits; the writer has written n slots. -/
def forwarding (n : Byte) : State := (sourceOn.addSampleOf 95 aSample).hbmWrite 0 [n]
def aRtp : RtpPacket := ⟨3, 5004, 96, 1, 0xFFFF, 7, true, List.replicate 100 0⟩
def midRtp : RtpPacket := { aRtp with marker := false }
/-- Stream 79 takes that packet's port. -/
def streaming (x : Stream) : State := (regsOf sourceOn [(vsReg 79 0x20, 0x4C60138C)]).setVs 79 x
/-- A request of Glean: two bytes of text, room for one token, a vocabulary of one slot. -/
def gleaning : State := regsOf mem [(glReg 0x40, 0x2000), (glReg 0x48, 2), (glReg 0x4C, 0x3000), (glReg 0x54, 1), (glReg 0x58, 0x4000), (glReg 0x60, 0)]
def gleanRuns : State :=
  let s := (gleaning.wb (glReg 0x6C) 30 true).hbmWrite 0x2000 [1, 2]
  { s with perc := { s.perc with glean := some [0x2000, 0, 2, 0x3000, 0, 1, 0x4000, 0, 0, 7, 0] } }

/-! ### Ethernet -/

/-- Port 3 enabled with its link up. -/
def eth : State := regsOf mem [(rga (ethPage 3) oCtl, 1), (ethReg 3 0x54, 1)]
/-- A broadcast frame of 60 bytes with a type of two bytes. -/
def frame (a b : Byte) : List Byte := List.replicate 12 0xFF ++ [a, b] ++ List.replicate 46 0
/-- A ring of tenant 0 at 0x1000 with one descriptor: buffer 0x2000 of 60 bytes. -/
def ringed (r : Nat) : State :=
  ((regsOf eth [(r, 0xC0000000), (r + 4, 0x1000)]).hbmWrite 0x1000 [1]).hbmWrite 0x1040 [0, 0x20, 0, 0, 0, 0, 0, 0, 60]
def receiving : State := ringed (rxqReg 3 (eth.rf (ethReg 3 0x48) (3 * eth.rf (ethReg 3 0x40) 20 18 + 2) (3 * eth.rf (ethReg 3 0x40) 20 18)) 0)
def sendReady : State := ringed (txqReg 3 7 0)
def sendPause : State := sendReady.hbmWrite 0x2000 (frame 0x88 8)
def aHead (t : Option Nat) : EthHead := ⟨0x1040, frame 0x90 0, t, false, false⟩
def headed (t : Option Nat) : State := eth.setHead 3 7 (some (aHead t))
/-- The PTP clock is 1000 ns past the launch time. -/
def lateHead : State :=
  let s := (headed (some 0)).wr (mpReg 0x1A4) 999
  { s with clock := { s.clock with ns := 1000 } }
/-- A Follow_Up of PTP on its way through port 3. -/
def ptpFrame : List Byte := List.replicate 12 0xFF ++ [0x88, 0xF7, 8, 2] ++ List.replicate 44 0
def forwards8 : State := eth.setEth 3 { fwd := [⟨0, 0, ptpFrame⟩] }
def onWire : State := sendReady.setEth 3 { wire := some (some 7, 0x1040, 5, frame 0x90 0) }

/-! ### CAN and I2C -/

/-- Controller 7 on, with timing in range, in a mode; with the transmit FIFO; with filter 31. -/
def can (mode : Word) (x : CanNode) : State :=
  (regsOf up [(rga (cfPage 7) oCtl, 1), (cfReg 7 0x40, mode <<< 30), (cfReg 7 0x44, 0x01F0F000), (cfReg 7 0x48, 0x01840000)]).setCf 7 x
def canFifo (x : CanNode) : State := (can 1 x).wb (cfReg 7 0x40) 29 true
def canFilter : State := (can 1 {}).wr (cfReg 7 0x5F0) 0x80000001
/-- I2C port 1 on; its host transfer runs; regulator 7 on I2C address 1. -/
def i2c : State := up.wr (rga (icPage 1) oCtl) 1
def i2cRuns : State := i2c.setIc 1 { run := some .host }
def regulated : State := up.wr (rga 6 0x9C) 0x80000001

/-! ### Warden, security, boot and the Ledger -/

/-- Slot 63 of Warden with the given bits of its status. -/
def slotBits (v : Word) : State := up.wr (slotStat 63) v
def slotSeen : State :=
  let s := slotBits 3
  { s with drv := { s.drv with seen := BitVec.ofNat 64 (2 ^ 63) } }
/-- The start-up run is the next step of a restart, with no row of the Ledger programmed. -/
def starting : State :=
  let s := up.pf aReady 3 0 2
  { s with ledger := { s.ledger with rows := [] }, ost := { s.ost with cold := false } }
/-- Entry 127 valid with its fields; entry 0 over the range that entry 127 asks for. -/
def entry (cfg : Word) : State := up.wr (regCfg 127) cfg
def overlapping : State := regsOf up [(regCfg 0, 0xC0000000), (regSize 0, 5), (regBase 127, 5)]
/-- A mailbox command that runs, with its arguments. -/
def cmdRuns (op : Nat) (arg0 arg1 : Word) : State :=
  let s := regsOf up [(rga 1 0x44, arg0), (rga 1 0x48, arg1), (omStat, 0x40000000)]
  { s with ost := { s.ost with cmd := some op } }
/-- A hold-up of more than 200 µs. -/
def powered (s : State) : State :=
  let s := regsOf s [(rga 6 0x60, 0x03E803E8), (rga 6 0x64, 0x00010001), (rga 6 0x68, 0)]
  { s with ost := { s.ost with samples := [(100, [4094])] } }
def verified (s : State) : State := { s with ost := { s.ost with verified := true } }
/-- Slot A on trial, with a rollback version of 0. -/
def trying (s : State) : State :=
  { s with ost := { s.ost with trialOn := true, slotA := [(8, 0), (9, 0), (10, 0), (11, 0)] }, ledger := { s.ledger with ram := [(1, 2)] } }
def queued (exempt : Bool) : State := { up with ledger := { up.ledger with queue := [⟨0x900, 7, exempt⟩] } }
def failing : State := { up with ledger := { up.ledger with prog := some ⟨0x900, 7, true⟩ } }
def programming : State := { up with ledger := { up.ledger with prog := some ⟨0x900, 7, false⟩ } }
/-- Row 255 is next, its copies with the given CRC errors. -/
def scanning (a b : Word) : State :=
  { up with ledger := { up.ledger with scan := 255, rows := [(255, ⟨{ crcErr := a }, { crcErr := b }⟩)] } }
def logging : State := { up with log := { up.log with page := [.lost 0 []], nextSeq := 1 } }

/-! ### Fences, sensors, power -/

def fenced (sticky : Bool) : State := { up.setBlk 0x150 3 with ost := { up.ost with fences := [(0x150, ⟨[], sticky, true⟩)] } }
def mismatched : State := { up with ost := { up.ost with mismatch := [(0x150, true)] } }
def drooped : State := { up with ost := { up.ost with droopPrev := some 1000 } }
/-- The DVFS loop runs at 1,000 MHz between 800 and 1,750 MHz, every sensor cold, with a cap of 300 W. -/
def looping (mw : Nat) : State :=
  let s := regsOf up ([(rga 6 0x40, 800), (rga 6 0x44, 1750), (rga 6 0x48, 300), (rga 6 0x4C, 1000)] ++ (List.range 32).map (fun n => (tsReg n, 0x8000F000)))
  { s with ost := { s.ost with loopOn := true, powerMw := mw, rising := some 1025 } }
/-- Before the ROM chooses its firmware, and once it has. -/
def rom (l : Ledger) : State :=
  let s := State.reset.pf aReady 3 0 1
  { s with pins := { s.pins with porN := true }, ledger := l }
def railed : State :=
  let s := rom State.reset.ledger
  { s with ost := { s.ost with firmware := true, running := 0 } }
def badId (s : State) : State := { s with ost := { s.ost with fieldIdBad := true } }

/-! ### Operands -/

def aStamp : TxStamp := ⟨1,2,3,4⟩
def aRun : Run := ⟨cCopy 0x1000, 0, 0, false⟩
def onCount : WaitReg := ⟨.count 0, cWait 0, false, 0⟩
def runEnded : Run := ⟨qcmd [(0, 0x3701)], 0, 0, true⟩
def anArrival : Arrival := ⟨.central 255, 1, some 7, none, 0, 0x105⟩
def onGen : WaitReg := ⟨.gen (.central 255) 0, cWait 0, false, 1⟩
def dataGood : Sys2Proof.DataSlot := ⟨(2, 0), true, 0, [0, 0, 0, 0], aFlit.hdr, aFlit.data ++ List.replicate (256 - aFlit.data.length) 0⟩
def dataBad : Sys2Proof.DataSlot := ⟨(3, 0), false, 0, [0, 0, 0, 0], 0, List.replicate 256 0⟩
def ctlSlot : Sys2Proof.CtlSlot := ⟨(0, 2), true, true, none, [], []⟩
def ctlLost : Sys2Proof.CtlSlot := ⟨(0, 3), false, true, none, [], []⟩
def noEvent : LineEvent := ⟨0, 0, 0, 0⟩
def anEvent4 : LineEvent := ⟨4, 0, 7, 1023⟩
def anEvent5 : LineEvent := ⟨5, 0xFF000001, 7, 1023⟩
def anEvent7 : LineEvent := ⟨7, 0x3F, 7, 1023⟩
def anEvent8 : LineEvent := ⟨8, 0x3F01, 7, 1023⟩
def anEvent9 : LineEvent := ⟨9, 7, 7, 1023⟩
def badPicture : Sys2Proof.Picture := ⟨2, 2, false, [1, 2, 3, 4], [5, 6], 16, [], 0, true, 0, 7⟩
def aPicture : Sys2Proof.Picture := ⟨128, 128, true, List.replicate 16384 1, List.replicate 8192 5, 64, [], 0, false, 0, 7⟩
def lossPicture : Sys2Proof.Picture := { aPicture with lost := [3] }
def aFwd : EthFwd := ⟨0, 0, ptpFrame⟩
def exemptWrite : LWrite := ⟨0x900, 7, true⟩
def plainWrite : LWrite := ⟨0x900, 7, false⟩
def fenceOn : Fence := ⟨[], false, true⟩
def fenceHeld : Fence := ⟨[], true, true⟩
def fenceOff : Fence := ⟨[], false, false⟩
def bothGood : Sys2Proof.BootVerify := ⟨true, true, false⟩
def lostRec : LogRec := .lost 0 []
def anInput : AxIn := ⟨0, 0, 0, [], none, 1, 0, false, 0, 0, 0, 1⟩
def ssiInput : AxIn := { anInput with ssi := true }
def onFires : WaitReg := ⟨.fires 1023 1, cWbWait 1, false, 1⟩
/-- The staged entry 1023; the state without its event; port 3 with nothing on the wire. -/
def stagedEntry (s : State) : WbEntry :=
  { s.wbEntry 1023 with
    phase := s.rd (wbReg 68)
    cfg := s.rd (wbReg 72)
    arg := s.rd (wbReg 76)
    hyst := s.rd (wbReg 80)
    stride := s.rd (wbReg 84) }
def noEvents (s : State) : State := { s with evQ := [] }
def offWire : State := onWire.setEth 3 { onWire.ethPort 3 with wire := none }
def gleanReq : List Word := [0x2000, 0, 2, 0x3000, 0, 1, 0x4000, 0, 0, 7, 0]
def emptyCopy : LCopy := {}
def noRow : RegRow := { off := 0 }

def sHeader_pend : State := up.wr (rga 0x400 oRaw) 0xFF
def sFaultAck : State := up.recordFault 0x400 1 2
def sSoftReset3 : State := safe.wb (aAlStat 11) 3 false
def sModuleReset2 : State := up.pf (aAxStat 0) 2 0 1
def sMatmul : State := eng cMatmul recArray
def sDense : State := eng cDense recArray
def sDiagonal : State := eng cDiagonal recArray
def sFrequency : State := eng cFrequency recArray
def sAttn0 : State := sAttn 0
def sAttn1 : State := sAttn 1
def sAttn2 : State := sAttn 2
def sMap : State := eng (cVec 1 6 0 []) recRelu
def sSum : State := eng (cVec 2 6 6 []) recPlain
def sSumg : State := eng (cVec 3 6 0 [(4,0x08000000)]) recPlain
def sMax : State := eng (cVec 4 1 1 []) recPlain
def sMin : State := eng (cVec 5 1 1 []) recPlain
def sPmax : State := eng (cPool 6 1 1) recPlain
def sPavg : State := eng (cPool 7 6 6) recPlain
def sDigest : State := eng cDigest recPlain
def sProxyRead : State := rx (pkt .proxyRead 0 0x40 [])
def sProxyWrite : State := rx (pkt .proxyWrite 0 0x200040 [1,2,3,4])
def sProxyReadData : State := asked (pkt .proxyReadData 0 0x40 [1,2,3,4])
def sProxyWriteAck : State := asked (pkt .proxyWriteAck 0 0x40 [])
def sCeClr : State := up.wr (rga (engPage 5 + 3) 0x40) 0x10000
def sRecipeFill : State := mem.setEngine 5 {sel := some cMatmul}
def sCopy1 : State := copying 0x1000
def sCopy2 : State := copying 0x1001
def sArrive : State := head cArrive
/-- The arrival that `cArrive` sends to TB255. -/
def aArrive : Arrival :=
  ⟨.central 255, cArrive.part, some cArrive.owner, some (cArrive.f 5 31 28, cArrive.f 5 15 0), cArrive.seq.toNat % 1024, 0x10⟩
def sArriveOk : State := bar255 sArrive 0x87000000
def sArriveDenied : State := bar255 sArrive 0x86000000
def sArriveInvalid : State := bar255 sArrive 0x07000000
def sWait1 : State := waiting 0xFFFF
def sWait2 : State := waiting 1
def sWait3 : State := waiting 2
def sFence : State := head cFence
def cFenceBad : Cmd := qcmd [(0, 0x370B), (5, 6)]
def sFenceBad : State := head cFenceBad
def sLaunch : State := (counted 0).wr (rga 0x300 0x210) 1
def sLaunchOk : State := counted 0
def sQtail3 : State := act.setTnState 7 2
def sTnres2 : State := regsOf act [(rga (tnPage 0) 0x4C, 0x00800000), (rga (tnPage 0) 0x44, 1)]
def sArrival1 : State := arriving 0
def sArrival2 : State := arriving 1
def sCarry : State := (bar255 act 0x87000000).setBar (.central 255) {due := true, open_ := 1, units := [0x105]}
def sTcfg1 : State := up.wr (barPartReg (.central 255)) 1
def sEnable : State := up.wr (rga (tnPage 7) 0x4C) 0x00FFFF00
def sRestart : State := up.setTnState 7 3
def sScrub : State := (up.setTnState 7 4).setTenant 7 {scrubbing := true}
def sClose : State := act.wr (manReg 7 0x180) 0x80000000
def sManAck : State := act.setTenant 7 {step := 1}
def sMerged : State := act.setTenant 7 {merged := some (1, 9)}
def sAbort3 : State := act.pf aTopo 9 8 2
def sAbort5 : State := ring.wr (rga 0x300 0x204) 3
def sAuth1 : State := rostered (ring.setLstate 7 2)
def sAuth2 : State := ring.setLstate 7 2
def sMiswired : State := ring.setPort 7 { ring.port 7 with why := 1 }
def sEpochs : State := regsOf ring [(rga 0x300 0x204, 1), (flReg 7 0x44, 0x04000003)]
def sFlows : State := sending []
def sStuck : State := sending [(1, 128)]
def sForward : State := rx (far (pkt .write 1 0 [1]))
def sNoHops : State := rx (pkt .write 1 0 [1])
def sWrite1 : State := rxOn (pkt .write 0 0x1FFFFF [1])
def sWrite2 : State := (rx (toSpad (pkt .write 0 0x1FFFFF [1]))).wr (partReg 5 0) 0x800FFC00
def sAck : State := requested (pkt .writeAck 0 0 [])
def sError : State := requested (pkt .error 0 0x303 [])
def sArrivePkt : State := rx (pkt .arrive 0 0xFF001000 [])
def sTsync : State := slave.wr (flReg 0 0x48) 3
def sHoldover : State := slave.pf (rga 0x300 0x214) 1 0 1
def sLbSelf : State := linkBar.wb (lbStat 15) 7 true
def sLbFire : State := linkBar.setLb 15 {fire := [(0, [(1, 2, 3)])]}
def sLbHeld : State := linkBar.setLb 15 {fire := [(7, [(1, 2, 3)])]}
def sLbCfg1 : State := ring.wr (fdReg 0x400) 7
def sZc1 : State := mainsGen.wr (mpReg 0xC0) 0x00400000
def sSrcLost : State := mainsGen.pf (pgReg 3 0x18) 2 0 3
def sAddend2 : State := regsOf up [(mpReg 0x10C, 0xFFFFFFFF)]
def sPtpSet : State := up.wb (mpReg 0x128) 31 true
def sPtpStep1 : State := regsOf up [(mpReg 0x120, 0xFFFFFFFF), (mpReg 0x12C, 1), (mpReg 0x128, 0)]
def sPtpStep2 : State := regsOf up [(mpReg 0x120, 0xFFFFFFFE), (mpReg 0x12C, 1), (mpReg 0x128, 0)]
def sAnnounce : State := up.wr (mpReg 0x130) 0x07000000
def sPdelay : State := up.wr (mpReg 0x130) 0xC0000000
def sCommit1 : State := staged 1
def sCommit2 : State := staged 0
def sWbWait1 : State := wbHead 0
def sWbWait2 : State := wbHead 1
def sCrossing : State := dueOne false
def sLate : State := dueOne true
def sLater : State := { sLate with mile := { sLate.mile with due := [⟨3, 1023, 9, true⟩] } }
def sQueueStart : State := event 4 0
def sWbArrive1 : State := bar255 (event 5 0xFF000001) 0x87830000
def sWbArrive2 : State := event 5 0xFF000001
def sWdSlot : State := event 7 0x3F
def sWindow : State := event 8 0x3F01
def sWbClose : State := event 9 7
def sCompute : State := running.setAxis 47 {inp := some anInput}
def sSsiWaits : State := (running.setAxis 47 {inp := some ssiInput}).setEnc 47 {ssi := some 3}
def sSsiThere : State := running.setAxis 47 {inp := some ssiInput}
def sLatch : State := up.setDp 3 {latchDue := true}
def sDecide1 : State := deciding 0
def sDecide2 : State := (deciding 0).wb (alReg 11 0x40) 28 true
def sOvercurrent : State := deciding 0x40000000
def sBand : State := (deciding 0).wb (axReg 47 0x180) 24 true
def sUpFrame1 : State := linked 1
def sUpFrame2 : State := linked 2
def sEdgeA : State := encOn 1
def sIndex : State := (encOn 1).wb (encReg 47 0x40) 28 true |>.wr (axReg 47 (0x180 + 68)) 4096
def sSsiEnd : State := (encOn 2).setEnc 47 {ssi := some 3}
def sMono : State := encOn 2
def sFs : State := cam {}
def sLine1 : State := cam inFrame
def sFe : State := cam {inFrame with lines := [[1, 2], [3, 4]]}
def sThSet2 : State := cam {staged := some (1, 2)}
def sRoi : State := cam {roiDue := 2}
def sSrc3 : State := source 0x80000002
def sForward1 : State := forwarding 1
def sForward2 : State := forwarding 2
def sRtp1 : State := streaming {next := some 0xFFFF}
def sJitter : State := streaming {next := some 5, held := [(7, 0, midRtp)]}
def sPicture1 : State := streaming {ended := [[(0, aRtp)]]}
def sPicture2 : State := streaming {ended := [[(3, aRtp)]]}
def sRtpNew : State := streaming {next := some 0xFFFF, got := [(0, { midRtp with time := 6 })]}
def sRtpFull : State := streaming {next := some 0xFFFF, got := [(0, { midRtp with payload := List.replicate 4194300 0 })]}
def sStalled : State := streaming {}
def sGlean1 : State := gleaning.wb (glReg 0x6C) 30 true
def sBoundary : State := headed none
def sLaunch1 : State := headed (some 0)
def sLinkUp : State := eth.wb (ethReg 3 0x54) 0 false
def sSilence : State := eth.wr (ethReg 3 0x58) 1
def sCanInit : State := can 1 {}
def sCanNormal : State := can 0 {}
def sCanSleep2 : State := (can 1 {}).setPending 7 0 true
def sCanWake : State := can 3 {}
def sRecover1 : State := can 1 {off := true}
def sRecovered : State := can 1 {off := true, counting := true}
def sTxbAbort2 : State := can 1 {busy := some 2}
def sPush1 : State := canFifo {}
def sPush2 : State := canFifo {fifo := List.replicate 32 aFrame}
def sFlush2 : State := canFifo {fifo := [aFrame, aFrame], busy := some 0}
def sPop1 : State := can 1 {rx := [aRx]}
def sPop2 : State := can 1 {rx := [aRx], shadow := some aRx}
def sArb1 : State := canFifo {fifo := [aFrame]}
def sArb2 : State := (can 1 {}).setPending 7 2 true
def sArb3 : State := ((can 1 {}).setPending 7 0 true).setPending 7 1 true
def sSent : State := (can 1 {busy := some 2, tec := 1}).setPending 7 2 true
/-- Buffer 2 sends an FD frame with a bit-rate switch, delay compensation on. -/
def sSsp : State := regsOf sSent [(cfReg 7 0x200, 0x20000000), (cfReg 7 0x204, 0x80000000), (cfReg 7 0x48, 0x01842000)]
def sError1 : State := can 1 {tec := 247}
def sError2 : State := can 1 {tec := 248}
def sRxTime : State := (canFilter).wr (cfReg 7 0x5F8) 0xFFFF
def sI2c1 : State := i2c.wb (rga (icPage 1) oStat) 9 true
def sI2c2 : State := i2c.wb (icReg 1 0x4C) 30 true
def sBusStuck : State := i2c.setIc 1 {watch := true}
def sHold : State := slotBits 4
def sRegion2 : State := entry 0xC0000000
def sRegion6 : State := regsOf up [(regBase 127, 49151), (regSize 127, 1)]
def sRegion7 : State := regsOf up [(regBase 127, 49151), (regSize 127, 0)]
def sRegion8 : State := entry 0xC0800000
def sRegion9 : State := entry 0xC0700000
def sRegion10 : State := (entry 0xC0700000).setTnState 7 1
def sAtt1 : State := up.wr (rga 9 0x120) 32
def sAtt2 : State := mem.wr (rga 9 0x120) 0x200000
def sAtt3 : State := mem.wr (rga 9 0x120) 0
def sAtt4 : State := (mem.wr (rga 9 0x120) 0x200000).wb (rga 9 0x12C) 30 true
def sInfo : State := cmdRuns 1 0 0
def sLogRead1 : State := cmdRuns 2 0 33
def sLogRead2 : State := cmdRuns 2 0 32
def sSensors : State := cmdRuns 14 0 0
def sTimeout : State := cmdRuns 3 0 0
def sMgmtRead1 : State := cmdRuns 10 0x01000000 0
def sMgmtRead2 : State := cmdRuns 10 0x00FFFFFC 0
def sMgmtWrite1 : State := cmdRuns 11 2 0
def sMgmtWrite2 : State := cmdRuns 11 (w32 (rga (porPage 7) 0xFFC)) 0
def sFence1 : State := (cmdRuns 12 0x2005 0).setBlk 0x150 2
def sFence2 : State := cmdRuns 12 0x4000 0
def sFence3 : State := sFence1.setBlk 0x150 0
def sUnfence1 : State := (cmdRuns 13 0x2005 0).setBlk 0x150 4
def sUnfence2 : State := cmdRuns 13 0x2005 0
def sErase1 : State := powered (cmdRuns 3 0 0)
def sWrite : State := (cmdRuns 4 0xFFC00 0).pf (rga 1 0x40) 10 0 1024
def sVerify : State := powered (cmdRuns 5 0 0)
def sActivate1 : State := cmdRuns 6 0 0
def sActivate2 : State := powered (verified (cmdRuns 6 0 0))
def sConfirm1 : State := trying (powered (cmdRuns 7 0 0))
def sConfirm2 : State := cmdRuns 7 0 0
def sTrial : State := trying (powered up)
def sLedger1 : State := cmdRuns 8 0x595 0
def sLedger2 : State := powered (cmdRuns 8 0xFFF 7)
def sLedger3 : State := cmdRuns 8 0x900 7
def sRoster1 : State := cmdRuns 9 64 0
def sRoster2 : State := powered (cmdRuns 9 63 1)
def sDequeue1 : State := queued true
def sDequeue2 : State := queued false
def sScan1 : State := scanning 0 0
def sScan2 : State := scanning 0 1
def sScan3 : State := scanning 1 1
def sScan4 : State := { up with ledger := { up.ledger with scan := 255, rows := [] } }
def sUnitOff : State := up.setBlk 0x150 0
def sLift1 : State := fenced false
def sLift2 : State := fenced true
def sCompare1 : State := up.setBlk 0x150 2
def sThermal3 : State := up.wr (rga 7 0x140) 0x03E803E7
def sRail1 : State := up.pf (rga 6 0x4C) 23 12 750
def sPoll1 : State := up.wr (rga 6 0x9C) 0x80000001
def sSettled : State := looping 0
def sSettledLow : State := { sSettled with ost := { sSettled.ost with droopPrev := some 1000 } }
def sDvfs1 : State := looping 1000000
def sFirmware1 : State := rom State.reset.ledger
def sFirmware2 : State := rom {State.reset.ledger with ram := []}
def sHostRel : State := up.pf aReady 3 0 4
def sTraining1 : State := badId (up.pf aReady 3 0 3)
def sTraining2 : State := up.pf aReady 3 0 3
def sFlr1 : State := up.setTnState 7 1
def sFlr2 : State := up.setTnState 7 2
def sRefclk : State := up.wb aReady 29 true

/-! ### Witnesses -/

/-- The checks of R98 one by one. -/
theorem accepts_of {s : State} {e : Nat} {c : Cmd} {r : List Word} {p : Plan}
    (h : (s.engine e).sel = some c ∧ s.baseCheck c = none ∧ fmtOk c = true ∧ c.recipe ≤ s.recipeLimit e c.owner ∧
      s.cached e c.owner c.recipe = some r ∧ recOk c r = true ∧ s.planFail e c r p = none) : s.Accepts e c r p :=
  ⟨h.1, h.2.1, h.2.2.1, h.2.2.2.1, h.2.2.2.2.1, h.2.2.2.2.2.1, h.2.2.2.2.2.2⟩

theorem clean_of {x : Result} (h : x.conflict = none ∧ x.faults = []) : x.Clean := h

theorem f32Store_faults (f : Nat) (od w : Word) (h : isIntFmt f = false) : (f32Store f od w).faults = [] := by
  unfold f32Store nanStore finStore
  split <;> simp [h]

theorem faultsOf_map {α : Type} (l : List α) (f : α → Elem) (h : ∀ x, (f x).faults = []) : faultsOf (l.map f) = [] := by
  simp [faultsOf, List.flatMap_map, h]

theorem pool_clean : (eng (cPool 7 6 6) recPlain |>.poolBody 5 (cPool 7 6 6) recPlain (poolAvg (cPool 7 6 6))).faults = [] := by
  unfold State.poolBody
  simp only
  rw [faultsOf_map]
  · rfl
  · intro i
    unfold poolAvg
    split
    · rfl
    · exact f32Store_faults _ _ _ (by decide +kernel)

/-- A term that adds at most what a poisoned one can: a magnitude of zero, or poison. -/
def isNil : Term → Bool
  | .poison _ => true
  | .val _ m _ => m == 0

theorem add_small {a k : Int} {g : Gran} {t : Term} (ht : isNil t = true) (hg : -k ≤ g.acc ∧ g.acc ≤ k ∧ g.ovf = false) (h0 : 0 ≤ k) (hk : k ≤ 2 ^ 180) :
    -(k + 2 ^ 167) ≤ (Gran.add a g t).acc ∧ (Gran.add a g t).acc ≤ k + 2 ^ 167 ∧ (Gran.add a g t).ovf = false := by
  cases t with
  | poison key =>
    generalize hc : clampI (-(termMax : Int)) termMax (Config.poisonTerm (a :: key)) = c
    have hb : -(2 ^ 167) ≤ c ∧ c ≤ 2 ^ 167 := by
      rw [← hc]
      unfold clampI termMax
      split <;> (try split) <;> omega
    have hs : clampI granMin granMax (g.acc + c) = g.acc + c := by
      unfold clampI granMin granMax
      split <;> (try split) <;> omega
    simp only [Gran.add, hc, hs, hg.2.2, ne_eq, not_true_eq_false, decide_false, Bool.or_false, and_true]
    omega
  | val b m e =>
    have hm : m = 0 := by simpa [isNil] using ht
    subst hm
    have hs : clampI granMin granMax g.acc = g.acc := by
      unfold clampI granMin granMax
      split <;> (try split) <;> omega
    cases b <;> simp [Gran.add, shiftTrunc, termMax, hs, hg.2.2] <;> omega

theorem prodTerm_nil (x : Fv) (n : Bool) (e : Int) : isNil (prodTerm x (.fin n 0 e) 1 0) = true := by cases x <;> simp [prodTerm, isNil]
theorem neg_nil (t : Term) (h : isNil t = true) : isNil t.neg = true := by cases t <;> simp_all [isNil, Term.neg]

theorem freqBin_nil (s : State) (e : Nat) (c : Cmd) (q co b : Nat) (x : List (Fv × Fv)) (n : Bool) (k : Int)
    (h : s.freqW e c q 0 co b = (.fin n 0 k, .fin n 0 k)) :
    (s.freqBin e c q co b [x]).1.ovf = false ∧ (s.freqBin e c q co b [x]).2.ovf = false := by
  have h2 (t u : Term) (ht : isNil t = true) (hu : isNil u = true) : (({} : Gran).addAll c.anchor [t, u]).ovf = false :=
    (add_small (k := 2 ^ 167) hu (add_small (k := 0) ht ⟨Int.le_refl _, Int.le_refl _, rfl⟩ (by decide) (by decide)) (by decide) (by decide)).2.2
  simp only [State.freqBin, List.zipIdx, List.foldl_cons, List.foldl_nil, h]
  exact ⟨h2 _ _ (prodTerm_nil ..) (neg_nil _ (prodTerm_nil ..)), h2 _ _ (prodTerm_nil ..) (prodTerm_nil ..)⟩

theorem freq_bins : ∀ b < 144, sFrequency.freqW 5 cFrequency 0 0 0 b = (.fin false 0 (-133), .fin false 0 (-133)) := by decide +kernel

theorem freqTile_nil (y x : Nat) : (sFrequency.freqTile 5 cFrequency 0 y x 0).2.2 = [] := by
  have h1 : cvCg cFrequency = 1 := by decide +kernel
  have h2 : cvF cFrequency * (cvF cFrequency / 2 + 1) = 144 := by decide +kernel
  unfold State.freqTile
  simp only [h1, h2, List.range_one, List.map_cons, List.map_nil, Nat.zero_div, Nat.zero_mul, Nat.zero_mod]
  rw [if_neg]
  simp only [List.any_eq_true, List.mem_map, List.mem_range, not_exists, not_and]
  rintro g ⟨b, hb, rfl⟩
  simp [freqBin_nil sFrequency 5 cFrequency 0 0 b (sFrequency.freqSpec 5 cFrequency 0 (0 + 0) y x) _ _ (freq_bins b hb)]

theorem freq_faults : (sFrequency.freqBody 5 cFrequency recArray).conflict = none ∧ (sFrequency.freqBody 5 cFrequency recArray).faults = [] := by
  refine ⟨rfl, ?_⟩
  have h1 : ∀ i < cvTotal cFrequency, cvPos cFrequency i = (0, (cvPos cFrequency i).2.1, (cvPos cFrequency i).2.2.1, 0) := by decide +kernel
  have h2 : (List.range (cvSa cFrequency)).any (fun i => entBad (sFrequency.spWord 5 ((cFrequency.w 7).toNat + 4 * i))) = false := by decide +kernel
  have h3 : isIntFmt (cFrequency.final recArray) = false := by decide +kernel
  unfold State.freqBody
  simp only [h2, Bool.false_eq_true, if_false, List.nil_append, arith, List.map_eq_nil_iff, faultsOf, List.flatMap_map, List.flatMap_eq_nil_iff, List.mem_range]
  intro i hi
  rw [h1 i hi]
  simp only [f32Store_faults _ _ _ h3, freqTile_nil, List.append_nil]

theorem add_zero (a : Int) (n : Nat) (b : Bool) (e : Int) : Gran.add a { count := n } (.val b 0 e) = { count := n + 1 } := by
  cases b <;> simp [Gran.add, shiftTrunc, termMax, clampI, granMin, granMax]

theorem zx_zero (s : State) (e : Nat) (c : Cmd) (r col n : Nat) (hn : rnInb c = 1) (hx : rnXbf c = false)
    (hk : s.spWord e ((c.w 9).toNat + 4 * col) = 0) : s.rnZx e c r col { count := n } = { count := n + 1 } := by
  have h0 : entScale 0#32 = (0, 0) := by decide
  simp [State.rnZx, hn, hx, List.range_one, groupTerms, hk, h0, Gran.addAll]
  exact add_zero _ n _ _

theorem zh_zero (s : State) (e : Nat) (c : Cmd) (r col n : Nat) (hn : rnHb c = 1) (hr : s.rnReset e c r = false)
    (hk : s.spWord e ((c.w 9).toNat + 4 * (rnGates c * rnH c * rnInb c + col)) = 0) : s.rnZh e c r col { count := n } = { count := n + 2 } := by
  have h0 : entScale 0#32 = (0, 0) := by decide
  simp [State.rnZh, hn, hr, List.range_one, State.rnBlock, hk, h0, Gran.addAll]
  rw [add_zero, add_zero]

/-- Each element of the cell: h is −1. -/
def cellEl : RnEl := ⟨0xBF800000, 0, 0, []⟩

theorem scales_zero : ∀ i < 128, biased.spWord 5 (0x5100 + 4 * i) = 0 := by decide +kernel
theorem biases_all : ∀ j < 64, biased.spWord 5 (0xA000 + 4 * j) = 0xC4000000 := by decide +kernel

theorem elem_cell : ∀ j < 64, biased.rnElem 5 cRnn 0 j = cellEl := by
  intro j hj
  have hg : rnGates cRnn = 1 := by decide +kernel
  have hh : rnH cRnn = 64 := by decide +kernel
  have hi : rnInb cRnn = 1 := by decide +kernel
  have hc : rnCell cRnn = 0 := by decide +kernel
  have hb : cRnn.f 15 25 0 = 0xA000 := by decide +kernel
  have h9 : (cRnn.w 9).toNat = 0x5100 := by decide +kernel
  have hx := zx_zero biased 5 cRnn 0 j 0 hi (by decide +kernel) (by rw [h9]; exact scales_zero j (by omega))
  have hz := zh_zero biased 5 cRnn 0 j 1 (by decide +kernel) (by decide +kernel) (by rw [h9, hg, hh, hi]; exact scales_zero (64 + j) (by omega))
  have hbias : biased.spWord 5 (0xA000 + 4 * j) = 0xC4000000 := biases_all j hj
  have hp : biased.rnPre 5 cRnn 0 j = [{ count := 3 }] := by
    simp [State.rnPre, hg, hc, List.range_one, hx, hz]
  simp only [State.rnElem, hp, hh, hc, hb, List.getD_cons_zero, Nat.zero_mul, Nat.zero_add, rnCellFn, if_true, hbias]
  generalize f32OfI _ _ = q
  simp only [cellEl, RnEl.mk.injEq]
  decide +kernel

theorem rnn_faults : (biased.rnnBody 5 cRnn recRnn).conflict = none ∧ (biased.rnnBody 5 cRnn recRnn).faults = [] := by
  have h1 : rnB cRnn = 1 := by decide +kernel
  have h2 : rnH cRnn = 64 := by decide +kernel
  have hels : (List.range (rnB cRnn)).map (fun r => (List.range (rnH cRnn)).map (fun j => biased.rnElem 5 cRnn r j)) = [List.replicate 64 cellEl] := by
    simp only [h1, h2, List.range_one, List.map_cons, List.map_nil]
    rw [List.map_congr_left (g := fun _ => cellEl) (fun j hj => elem_cell j (List.mem_range.1 hj)), List.map_const', List.length_range]
  unfold State.rnnBody
  simp only [hels]
  decide +kernel

/-- No row of the Ledger is programmed, the start is a restart, and no increment has failed. -/
def Bare (s : State) : Prop := s.ledger.rows = [] ∧ s.ost.cold = false ∧ s.ost.triesFailed = false

theorem bare_force (s : State) (w : Nat) (v : Word) (h : Bare s) : Bare (s.force w v) :=
  ⟨(congrArg Ledger.rows State.force_ledger).trans h.1, (congrArg Ostler.cold State.force_ost).trans h.2.1,
    (congrArg Ostler.triesFailed State.force_ost).trans h.2.2⟩

theorem bare_foldl {α : Type} (f : State → α → State) (hf : ∀ s x, Bare s → Bare (f s x)) (l : List α) (s : State) (h : Bare s) : Bare (l.foldl f s) := by
  induction l generalizing s with
  | nil => exact h
  | cons x r ih => exact ih _ (hf s x h)

theorem bare_loadRow (s : State) (r : Nat) (h : Bare s) : Bare (s.loadRow r) := by
  have hr : readRow (s.lrow r) = .used {} := by
    unfold State.lrow
    rw [h.1]
    rfl
  unfold State.loadRow
  rw [hr]
  exact bare_foldl _ (fun s k h => bare_force s _ _ h) _ _ h

theorem bare_wb (s : State) (a k : Nat) (b : Bool) (h : Bare s) : Bare (s.wb a k b) := h
theorem bare_warm (s : State) (h : Bare s) : Bare { s with ost := { s.ost with cold := false } } := ⟨h.1, rfl, h.2.2⟩

theorem bare_startLedger (s : State) (h : Bare s) : Bare (s.startLedger false []) := by
  have hl : Bare s.loadLedger := bare_foldl _ bare_loadRow _ _ h
  unfold State.startLedger
  simp only [List.foldl_nil, hl.2.1, Bool.false_and, Bool.false_eq_true, if_false]
  apply bare_foldl
  · exact fun s e h => h
  · have hw : ∀ (u : State) (a k : Nat), Bare u → Bare (if u.masterOk u.master = true then u else u.wb a k true) := fun u a k hu => by
      split
      · exact hu
      · exact bare_wb u a k true hu
    exact hw _ _ _ (bare_warm _ hl)

theorem bare_badRow (s : State) (h : Bare s) : s.badRow false = none := by
  unfold State.badRow State.lostRow State.lrow
  rw [h.1, h.2.2]
  decide +kernel

def crcGo : List Byte → Nat → Nat
  | [], c => c
  | b :: r, 0 => crcGo r (crcStepR 0xEDB88320 8 (0 ^^^ b.toNat))
  | b :: r, n + 1 => crcGo r (crcStepR 0xEDB88320 8 ((n + 1) ^^^ b.toNat))
theorem crcGo_eq (bs : List Byte) (c : Nat) : crcGo bs c = bs.foldl (fun c b => crcStepR 0xEDB88320 8 (c ^^^ b.toNat)) c := by
  induction bs generalizing c with
  | nil => cases c <;> rfl
  | cons b r ih => cases c <;> simp [crcGo, ih]
theorem crc32_eq_crcGo (bs : List Byte) : crc32 bs = crcGo bs 0xFFFFFFFF ^^^ 0xFFFFFFFF := by rw [crcGo_eq]; rfl
theorem mailbox_crc : crc32 ((mailbox.hbmRead 0x2000 0x1840).take 60 ++ (mailbox.hbmRead 0x2000 0x1840).drop 64) = 0x4A900FD7 := by
  rw [crc32_eq_crcGo]
  decide +kernel
theorem hbmRead_congr {s t : State} (h : s.hbm = t.hbm) (a n : Nat) : s.hbmRead a n = t.hbmRead a n := by
  induction n generalizing a with
  | zero => rfl
  | succ n ih => simp only [State.hbmRead, ih, State.hbmByte, h]
theorem mailbox_good : mailboxParse (mailbox.hbmRead 0x2000 0x1840) 3 0 = .inr [(11, ⟨1, [⟨16, 0, 1, 0, 0, 0, 0, 0⟩]⟩)] := by
  unfold mailboxParse
  rw [mailbox_crc]
  decide +kernel
theorem mailbox_late : mailboxParse (mailboxLate.hbmRead 0x2000 0x1840) 3 2 = .inl 1 := by
  rw [hbmRead_congr (show mailboxLate.hbm = mailbox.hbm from rfl)]
  unfold mailboxParse
  rw [mailbox_crc]
  decide +kernel

theorem wit_HeaderWrites :
    (isVf Func.pf = false ∧ usesIrq 0x400 = true ∧ up.mayWrite Func.pf (rga 0x400 oLock) = true ∧ tbit 1 0 = true) ∧
    (isVf Func.pf = false ∧ usesIrq 0x400 = true ∧ up.mayWrite Func.pf (rga 0x400 oEn) = true) ∧
    (isVf Func.pf = false ∧ usesIrq 0x400 = true ∧ sHeader_pend.mayWrite Func.pf (rga 0x400 oPend) = true) ∧
    (usesIrq 0 = true) ∧
    (usesIrq 0 = true) ∧
    (usesIrq 0 = true ∧ Func.pf ≠ Func.mgmt) ∧
    (sFaultAck.canonical = true ∧ isVf Func.pf = false ∧ usesIrq 0x400 = true ∧ pageId 0x400 = some (pg 0x400) ∧ hasEnable (pg 0x400).block = false ∧
      sFaultAck.mayWrite Func.pf (rga 0x400 oCtl) = true ∧ tbit 8 3 = true ∧ tbit 8 1 = false) ∧
    (sFaultAck.canonical = true ∧ isVf Func.pf = false ∧ usesIrq 0x400 = true ∧ pageId 0x400 = some (pg 0x400) ∧ hasEnable (pg 0x400).block = false ∧
      sFaultAck.mayWrite Func.pf (rga 0x400 oCtl) = true ∧ tbit 8 3 = true ∧ tbit 8 1 = false ∧ 0 < 0xFFFF ∧ 0xFFFF < 0x10000) ∧
    (0 < 1 ∧ 1 < 0xFFFF ∧ 0xFFFF < 0x10000 ∧ ([(0xFFFF, 0), (1, 5)] : List (Nat × Word)) = [(0xFFFF, 0), (1, 5)]) ∧
    (srcPage 0 = some 0 ∧ up.mayWrite Func.pf (rga 0 (0x400 + 4 * 0)) = true ∧
      (fld 0x80000000 27 24 < 8 ∧ fld 0x80000000 21 16 < 6 ∨ 8 ≤ 0 ∧ 0 ≤ 15 ∧ fld 0x80000000 27 24 ≠ 15)) ∧
    (srcPage 0 = some 0 ∧ up.mayWrite Func.pf (rga 0 (0x400 + 4 * 0)) = true ∧ (¬(fld 0x8F3F0000 27 24 < 8 ∧ fld 0x8F3F0000 21 16 < 6)) ∧
      (¬(8 ≤ 0 ∧ 0 ≤ 15 ∧ fld 0x8F3F0000 27 24 ≠ 15))) := by
  and_intros <;> decide +kernel

theorem wit_ResetWrites :
    (isVf Func.pf = false ∧ up.mayWrite Func.pf (rga 0x100 oCtl) = true ∧ pageId 0x100 = some (pg 0x100) ∧
      instPages 0x100 = some (0x100, 16, pg 0x100) ∧ hasEnable (pg 0x100).block = false ∧ tbit 2 3 = false ∧ tbit 2 1 = true ∧
      (pg 0x100).block.tensorSide = true ∧ (up.wb (rga 0x100 oStat) 12 false).tensorOff = false) ∧
    (isVf Func.pf = false ∧ safe.mayWrite Func.pf (rga 0x400 oCtl) = true ∧ pageId 0x400 = some (pg 0x400) ∧
      instPages 0x400 = some (0x400, 1, pg 0x400) ∧ hasEnable (pg 0x400).block = false ∧ tbit 2 3 = false ∧ tbit 2 1 = true ∧
      (pg 0x400).block.tensorSide = false ∧ (pg 0x400).block ≠ Block.top ∧
      (safe.wb (rga 0x400 oStat) 12 false).resetAllowed (pg 0x400).block (pg 0x400).inst = true) ∧
    (isVf Func.pf = false ∧ sSoftReset3.mayWrite Func.pf (rga 0x400 oCtl) = true ∧ pageId 0x400 = some (pg 0x400) ∧
      instPages 0x400 = some (0x400, 1, pg 0x400) ∧ hasEnable (pg 0x400).block = false ∧ tbit 2 3 = false ∧ tbit 2 1 = true ∧
      (pg 0x400).block.tensorSide = false ∧ (pg 0x400).block ≠ Block.top ∧
      (sSoftReset3.wb (rga 0x400 oStat) 12 false).resetAllowed (pg 0x400).block (pg 0x400).inst = false) ∧
    (isVf Func.mgmt = false ∧ up.mayWrite Func.mgmt (rga 0 oCtl) = true ∧ tbit 2 3 = false ∧ tbit 2 1 = true ∧
      (isMgmt Func.mgmt = true ∨ (up.wb (rga 0 oStat) 12 false).allIdle = true)) ∧
    (isVf Func.pf = false ∧ sModuleReset2.mayWrite Func.pf (rga 0 oCtl) = true ∧ tbit 2 3 = false ∧ tbit 2 1 = true ∧ isMgmt Func.pf = false ∧
      (sModuleReset2.wb (rga 0 oStat) 12 false).allIdle = false) ∧
    (isVf Func.pf = false ∧ up.canonical = true ∧ up.mayWrite Func.pf (rga (0x310 + 3) oCtl) = true ∧ up.rb (rga (0x310 + 3) oCtl) 0 = false ∧
      (1 : Word) = (1 : Word)) := by
  and_intros <;> decide +kernel

theorem wit_RegisterAccess :
    ((2 ≠ 4 ∨ 0x200040 % 4 ≠ 0)) ∧
    ((4 ≠ 4 ∨ 0x200042 % 4 ≠ 0)) ∧
    (rga 9 0x40 % 4 = 0 ∧ rga 9 0x40 < 0x1000000 ∧ up.mayWrite (.vf 7) (rga 9 0x40) = false ∧ up.sees (.vf 7) (rga 9 0x40) = false) ∧
    (rga 0x200 0xFFC % 4 = 0 ∧ rga 0x200 0xFFC < 0x1000000 ∧ pageId (rga 0x200 0xFFC / 4096) = some (pg 0x200) ∧
      up.mayWrite Func.pf (rga 0x200 0xFFC) = true ∧ 0x40 ≤ rga 0x200 0xFFC % 4096) ∧
    (rga 0x200 0x3C % 4 = 0 ∧ rga 0x200 0x3C < 0x1000000 ∧ pageId (rga 0x200 0x3C / 4096) = some (pg 0x200) ∧
      up.mayWrite Func.pf (rga 0x200 0x3C) = true ∧ rga 0x200 0x3C % 4096 < 0x40) ∧
    (rga 0x410 0x84 % 4 = 0 ∧ rga 0x410 0x84 < 0x1000000 ∧ pageId (rga 0x410 0x84 / 4096) = some (pg 0x410) ∧
      latched.sees Func.pf (rga 0x410 0x84) = true ∧
      ¬((pg 0x410).block = Block.milepost ∧ (rga 0x410 0x84 % 4096 = 0x100 ∨ 0x150 ≤ rga 0x410 0x84 % 4096 ∧ rga 0x410 0x84 % 4096 < 0x1C0 ∧ rga 0x410 0x84 % 4096 % 0x20 = 0x10)) ∧
      ¬((pg 0x410).block = Block.can ∧ 0x300 ≤ rga 0x410 0x84 % 4096 ∧ rga 0x410 0x84 % 4096 < 0x350) ∧ pairLow (pg 0x410) (rga 0x410 0x84 % 4096) = true) ∧
    (mpReg 0x140 % 4 = 0 ∧ mpReg 0x140 < 0x1000000 ∧ pageId (mpReg 0x140 / 4096) = some (pg 0x400) ∧ up.sees Func.pf (mpReg 0x140) = true ∧
      ¬((pg 0x400).block = Block.milepost ∧ (mpReg 0x140 % 4096 = 0x100 ∨ 0x150 ≤ mpReg 0x140 % 4096 ∧ mpReg 0x140 % 4096 < 0x1C0 ∧ mpReg 0x140 % 4096 % 0x20 = 0x10)) ∧
      ¬((pg 0x400).block = Block.can ∧ 0x300 ≤ mpReg 0x140 % 4096 ∧ mpReg 0x140 % 4096 < 0x350) ∧ pairLow (pg 0x400) (mpReg 0x140 % 4096) = false ∧
      (mpReg 0x140 % 4096 < 4 ∨ pairLow (pg 0x400) (mpReg 0x140 % 4096 - 4) = false)) ∧
    (rga 0x200 64 % 4 = 0 ∧ rga 0x200 64 < 0x1000000 ∧ pageId (rga 0x200 64 / 0x1000) = some (pg 0x200) ∧ 64 ≤ rga 0x200 64 % 0x1000 ∧
      (pg 0x200).block = Block.porter ∧ regRow (rga 0x200 64) = some ((regRow (rga 0x200 64)).getD noRow) ∧
      up.mayWrite Func.pf (rga 0x200 64) = true ∧ up.canonical = true) ∧
    (rga 0x410 132 % 4 = 0 ∧ rga 0x410 132 < 0x1000000 ∧ pageId (rga 0x410 132 / 0x1000) = some (pg 0x410) ∧ 64 ≤ rga 0x410 132 % 0x1000 ∧
      (pg 0x410).block = Block.drover ∧ (rga 0x410 132 % 0x1000 = 132 ∨ rga 0x410 132 % 0x1000 = 164) ∧ latched.sees Func.pf (rga 0x410 132) = true ∧
      mapGet (fun _ => none) latched.latch (rga 0x410 132 + 4) = some 7) := by
  and_intros <;> decide +kernel

theorem wit_ReadsWithEffects :
    (isVf Func.pf = false ∧ up.mayRead Func.pf (mpReg 0x100) = true) ∧
    (isVf Func.pf = false ∧ stamped.mayRead Func.pf (mpReg (0x150 + 32 * 3)) = true ∧ mapGet (fun _ => []) stamped.mile.stamps 3 = [aStamp]) ∧
    (isVf Func.pf = false ∧ up.sees Func.pf (rga 0x530 0x110) = true) ∧
    (isVf Func.pf = false ∧ canHolds.sees Func.pf (cfReg 7 0x300) = true ∧ (canHolds.cf 7).rx = [aRx]) ∧
    (isVf Func.pf = false ∧ up.sees Func.pf (cfReg 0 0x300) = true ∧ (up.cf 0).rx = []) := by
  and_intros <;> decide +kernel

theorem wit_ArrayCommands :
    (cMatmul.op = 1 ∧ sMatmul.Accepts 5 cMatmul recArray (matmulPlan cMatmul recArray) ∧ (sMatmul.matmulBody 5 cMatmul recArray).Clean) ∧
    (cDense.op = 2 ∧ cDense.convMode = 0 ∧ sDense.Accepts 5 cDense recArray (convPlan cDense recArray) ∧ (sDense.convBody 5 cDense recArray).Clean) ∧
    (cDiagonal.op = 2 ∧ cDiagonal.convMode = 1 ∧ sDiagonal.Accepts 5 cDiagonal recArray (convPlan cDiagonal recArray) ∧
      (sDiagonal.convBody 5 cDiagonal recArray).Clean) := by
  and_intros <;> first | exact accepts_of (by decide +kernel) | decide +kernel

theorem wit_ArrayCommands_frequency :
    (cFrequency.op = 2 ∧ cFrequency.convMode = 2 ∧ sFrequency.Accepts 5 cFrequency recArray (convPlan cFrequency recArray)) ∧
    (sFrequency.freqBody 5 cFrequency recArray).Clean := by
  refine ⟨?_, freq_faults⟩
  and_intros <;> first | exact accepts_of (by decide +kernel) | decide +kernel

theorem wit_AttentionAndRecurrence :
    (cAttn.op = 3 ∧ sAttn0.attnMode 5 cAttn = 0 ∧ sAttn0.Accepts 5 cAttn recAttn (sAttn0.attnPlan 5 cAttn recAttn) ∧
      (sAttn0.attnBody 5 HwFault.none cAttn recAttn).Clean) ∧
    (cAttn.op = 3 ∧ sAttn1.attnMode 5 cAttn = 1 ∧ sAttn1.Accepts 5 cAttn recAttn (sAttn1.attnPlan 5 cAttn recAttn) ∧
      (sAttn1.attnBody 5 HwFault.none cAttn recAttn).Clean) ∧
    (cAttn.op = 3 ∧ sAttn2.attnMode 5 cAttn = 2 ∧ sAttn2.Accepts 5 cAttn recAttn (sAttn2.attnPlan 5 cAttn recAttn) ∧
      (sAttn2.attnBody 5 HwFault.none cAttn recAttn).Clean) := by
  and_intros <;> first | exact accepts_of (by decide +kernel) | decide +kernel

theorem wit_AttentionAndRecurrence_rnn :
    (cRnn.op = 4 ∧ biased.Accepts 5 cRnn recRnn (rnnPlan cRnn recRnn)) ∧ (biased.rnnBody 5 cRnn recRnn).Clean := by
  refine ⟨?_, rnn_faults⟩
  and_intros <;> first | exact accepts_of (by decide +kernel) | decide +kernel

theorem wit_VectorCommands :
    ((cVec 1 6 0 []).op = 5 ∧ (cVec 1 6 0 []).vop = 1 ∧ sMap.Accepts 5 (cVec 1 6 0 []) recRelu (vectorPlan (cVec 1 6 0 []) recRelu) ∧
      (sMap.mapBody 5 (cVec 1 6 0 []) recRelu).Clean) ∧
    ((cVec 2 6 6 []).op = 5 ∧ (cVec 2 6 6 []).vop = 2 ∧ sSum.Accepts 5 (cVec 2 6 6 []) recPlain (vectorPlan (cVec 2 6 6 []) recPlain) ∧
      (sSum.rowsBody 5 (cVec 2 6 6 []) recPlain fun _ l => sumFp32 (cVec 2 6 6 []) l).Clean) ∧
    ((cVec 3 6 0 [(4, 0x8000000)]).op = 5 ∧ (cVec 3 6 0 [(4, 0x8000000)]).vop = 3 ∧
      sSumg.Accepts 5 (cVec 3 6 0 [(4, 0x8000000)]) recPlain (vectorPlan (cVec 3 6 0 [(4, 0x8000000)]) recPlain) ∧
      (sSumg.rowsBody 5 (cVec 3 6 0 [(4, 0x8000000)]) recPlain fun _ l => sumGran (cVec 3 6 0 [(4, 0x8000000)]) l).Clean) ∧
    ((cVec 4 1 1 []).op = 5 ∧ (cVec 4 1 1 []).vop = 4 ∧ sMax.Accepts 5 (cVec 4 1 1 []) recPlain (vectorPlan (cVec 4 1 1 []) recPlain) ∧
      (sMax.rowsBody 5 (cVec 4 1 1 []) recPlain fun _ l => extreme (cVec 4 1 1 []).inFmt false l).Clean) ∧
    ((cVec 5 1 1 []).op = 5 ∧ (cVec 5 1 1 []).vop = 5 ∧ sMin.Accepts 5 (cVec 5 1 1 []) recPlain (vectorPlan (cVec 5 1 1 []) recPlain) ∧
      (sMin.rowsBody 5 (cVec 5 1 1 []) recPlain fun _ l => extreme (cVec 5 1 1 []).inFmt true l).Clean) ∧
    ((cPool 6 1 1).op = 5 ∧ (cPool 6 1 1).vop = 6 ∧ sPmax.Accepts 5 (cPool 6 1 1) recPlain (poolPlan (cPool 6 1 1) recPlain) ∧
      (sPmax.poolBody 5 (cPool 6 1 1) recPlain (extreme (cPool 6 1 1).inFmt false)).Clean) ∧
    (cDigest.op = 10 ∧ sDigest.Accepts 5 cDigest recPlain (digestPlan cDigest recPlain) ∧ (sDigest.digestBody 5 cDigest recPlain).Clean) := by
  and_intros <;> first | exact accepts_of (by decide +kernel) | decide +kernel

theorem wit_VectorCommands_average :
    ((cPool 7 6 6).op = 5 ∧ (cPool 7 6 6).vop = 7 ∧ sPavg.Accepts 5 (cPool 7 6 6) recPlain (poolPlan (cPool 7 6 6) recPlain)) ∧
    (sPavg.poolBody 5 (cPool 7 6 6) recPlain (poolAvg (cPool 7 6 6))).Clean := by
  refine ⟨?_, rfl, pool_clean⟩
  and_intros <;> first | exact accepts_of (by decide +kernel) | decide +kernel

theorem wit_MatmulResult :
    (sMatmul.canonical = true ∧ cMatmul.op = 1 ∧ sMatmul.Accepts 5 cMatmul recArray (matmulPlan cMatmul recArray) ∧
      (sMatmul.matmulBody 5 cMatmul recArray).Clean ∧
      BitVec.toNat (cMatmul.w 9) + (mmM cMatmul - 1) * (64 * cMatmul.f 12 31 16) + fmtBytes (cMatmul.final recArray) (mmN cMatmul) ≤ spadSize ∧
      ∃ t, exec (Instr.matmul (5 : Fin 6) HwFault.none) sMatmul = Host.Outcome.next t) := by
  and_intros <;> first | exact ⟨_, rfl⟩ | exact accepts_of (by decide +kernel) | decide +kernel

theorem wit_ProxyRows :
    (0x3FFFFFC % 4 = 0 ∧ inWindow 0x3FFFFFC = true ∧ up.linkUp = true ∧ up.ready = true ∧ proxyField 0x3FFFFFC ≠ up.me ∧
      up.fieldSize ≤ proxyField 0x3FFFFFC) ∧
    (0x10C0000 % 4 = 0 ∧ inWindow 0x10C0000 = true ∧ ring.linkUp = true ∧ ring.ready = true ∧ proxyField 0x10C0000 ≠ ring.me ∧
      proxyField 0x10C0000 < ring.fieldSize) ∧
    (sProxyRead.rxFor 7 3 PktOp.proxyRead = some (pkt PktOp.proxyRead 0 64 []) ∧ (pkt PktOp.proxyRead 0 64 []).addr % 4 = 0) ∧
    (sProxyWrite.rxFor 7 3 PktOp.proxyWrite = some (pkt PktOp.proxyWrite 0 0x200040 [1, 2, 3, 4]) ∧
      (pkt PktOp.proxyWrite 0 0x200040 [1, 2, 3, 4]).addr % 4 = 0) ∧
    (sProxyReadData.rxFor 7 3 PktOp.proxyReadData = some (pkt PktOp.proxyReadData 0 64 [1, 2, 3, 4]) ∧
      (sProxyReadData.rxPop 7 3).proxyFor (pkt PktOp.proxyReadData 0 64 [1, 2, 3, 4]) = some aProxy) ∧
    (sProxyWriteAck.rxFor 7 3 PktOp.proxyWriteAck = some (pkt PktOp.proxyWriteAck 0 64 []) ∧
      (sProxyWriteAck.rxPop 7 3).proxyFor (pkt PktOp.proxyWriteAck 0 64 []) = some aProxy) ∧
    (List.find? (fun x => x.dest == 1) sProxyWriteAck.field.proxies = some aProxy) := by
  and_intros <;> decide +kernel

theorem wit_EngineRegisters :
    (isVf Func.pf = false ∧ sMatmul.mayWrite Func.pf (rga (engPage 5) 64) = true ∧ tbit 2 1 = true) ∧
    (isVf Func.pf = false ∧ up.mayWrite Func.pf (partReg 5 7) = true ∧ up.workOn 5 7 = false ∧ tbit 0x3FF 31 = false) ∧
    (isVf Func.pf = false ∧ sMatmul.mayWrite Func.pf (partReg 5 0) = true ∧ sMatmul.workOn 5 0 = true ∧ tbit 0x3FF 31 = false) ∧
    (isVf Func.pf = false ∧ up.mayWrite Func.pf (resReg 5 7 3) = true ∧ tbit 0x3FF 31 = false) ∧
    (isVf Func.pf = false ∧ sCeClr.canonical = true ∧ sCeClr.mayWrite Func.pf (rga (engPage 5 + 3) 0x1C4) = true ∧ tbit 1 0 = true) ∧
    (isVf Func.pf = false ∧ up.mayWrite Func.pf (rga (engPage 5 + 4) (64 + 4 * 127)) = true ∧ up.repairCheck 5 127 (0x805F03FF : Word) = 0) ∧
    (isVf Func.pf = false ∧ repaired.mayWrite Func.pf (rga (engPage 5 + 4) (64 + 4 * 127)) = true ∧
      repaired.repairCheck 5 127 (0x805F03FF : Word) = 1) ∧
    (isVf Func.pf = false ∧ up.mayWrite Func.pf (rga (engPage 5 + 4) (64 + 4 * 127)) = true ∧ 96 ≤ fld 0x600000 22 16) ∧
    (up.mayWrite Func.pf (hstReg 5 64) = true ∧ isVf Func.pf = false ∧ tbit 113 0 = true) ∧
    (up.mayWrite (Func.vf (7 : Fin 8)) (hstReg 5 64) = true ∧ tbit 114 0 = false ∧ tbit 114 1 = true ∧ fld 114 7 4 = 7) ∧
    ((∀ (t : Fin 8), up.tnState t ≠ 2)) ∧
    ((sRecipeFill.engine 5).sel = some cMatmul ∧ sRecipeFill.baseCheck cMatmul = none ∧ fmtOk cMatmul = true ∧
      sRecipeFill.cached 5 cMatmul.owner cMatmul.recipe = none ∧ cMatmul.recipe ≤ sRecipeFill.recipeLimit 5 cMatmul.owner ∧
      sRecipeFill.regCheck cMatmul.owner false (sRecipeFill.recipeAddr 5 cMatmul.owner cMatmul.recipe) 64 = Access.ok) := by
  and_intros <;> decide +kernel

theorem wit_CopyStarts :
    ((sCopy1.porter 15).sel = some (cCopy 0x1000) ∧ sCopy1.baseCheck (cCopy 0x1000) = none ∧ (cCopy 0x1000).f 5 5 0 = 0 ∧
      (cCopy 0x1000).f 7 31 20 = 0 ∧ (∀ (k : Fin 8), (cCopy 0x1000).w (8 + k) = (0 : Word)) ∧ (cCopy 0x1000).descCount ≠ 0 ∧
      sCopy1.remoteTree (cCopy 0x1000) = false) ∧
    ((sCopy2.porter 15).sel = some (cCopy 0x1001) ∧ sCopy2.baseCheck (cCopy 0x1001) = none ∧ (cCopy 0x1001).f 5 5 0 ≠ 0) := by
  and_intros <;> decide +kernel

theorem wit_DescriptorMovesBytes :
    (moving.canonical = true ∧ (moving.porter 15).run = some aRun ∧ aRun.done = false ∧
      descOk moving.me moving.fieldSize (wordsAt (moving.hbmRead (aRun.cmd.listAddr + 64 * (moving.porter 15).index) 64)) (toDesc (wordsAt (moving.hbmRead (aRun.cmd.listAddr + 64 * (moving.porter 15).index) 64))) = true ∧
      (toDesc (wordsAt (moving.hbmRead (aRun.cmd.listAddr + 64 * (moving.porter 15).index) 64))).dims = 1 ∧
      (toDesc (wordsAt (moving.hbmRead (aRun.cmd.listAddr + 64 * (moving.porter 15).index) 64))).srcSpace = 0 ∧
      (toDesc (wordsAt (moving.hbmRead (aRun.cmd.listAddr + 64 * (moving.porter 15).index) 64))).dstSpace = 0 ∧
      moving.regCheck aRun.cmd.owner false (aRun.cmd.listAddr + 64 * (moving.porter 15).index) 64 = Access.ok ∧
      moving.regCheck aRun.cmd.owner false (toDesc (wordsAt (moving.hbmRead (aRun.cmd.listAddr + 64 * (moving.porter 15).index) 64))).src (toDesc (wordsAt (moving.hbmRead (aRun.cmd.listAddr + 64 * (moving.porter 15).index) 64))).size = Access.ok ∧
      moving.regCheck aRun.cmd.owner true (toDesc (wordsAt (moving.hbmRead (aRun.cmd.listAddr + 64 * (moving.porter 15).index) 64))).dst (toDesc (wordsAt (moving.hbmRead (aRun.cmd.listAddr + 64 * (moving.porter 15).index) 64))).size = Access.ok) :=
  by decide +kernel

theorem wit_SchedulerCommands :
    (sArriveOk.headReady 31 = some cArrive ∧ sArriveOk.baseCheck cArrive = none ∧ cArrive.op = 7 ∧ (sArriveOk.queue 31).flight = [] ∧
      sArriveOk.namedBar cArrive = some (BarId.central (255 : Fin 0x100)) ∧ sArriveOk.judge aArrive ≠ ArrKind.denied ∧
      sArriveOk.judge aArrive ≠ ArrKind.invalid) ∧
    (sArriveDenied.headReady 31 = some cArrive ∧ sArriveDenied.baseCheck cArrive = none ∧ (sArriveDenied.queue 31).flight = [] ∧
      sArriveDenied.namedBar cArrive = some (BarId.central (255 : Fin 0x100)) ∧ sArriveDenied.judge aArrive = ArrKind.denied) ∧
    (sArriveInvalid.headReady 31 = some cArrive ∧ sArriveInvalid.baseCheck cArrive = none ∧ (sArriveInvalid.queue 31).flight = [] ∧
      sArriveInvalid.namedBar cArrive = some (BarId.central (255 : Fin 0x100)) ∧ sArriveInvalid.judge aArrive = ArrKind.invalid) ∧
    (sWait1.headReady 31 = some (cWait 0xFFFF) ∧ sWait1.baseCheck (cWait 0xFFFF) = none ∧ (cWait 0xFFFF).op = 8 ∧
      sWait1.namedBar (cWait 0xFFFF) = some (BarId.central (255 : Fin 0x100)) ∧
      sWait1.bOwner (BarId.central (255 : Fin 0x100)) = (cWait 0xFFFF).owner ∧ sWait1.bValid (BarId.central (255 : Fin 0x100)) = true ∧
      (cWait 0xFFFF).part ≠ 0 ∧ sWait1.bMode (BarId.central (255 : Fin 0x100)) ≠ 2 ∧
      sWait1.genVerdict (BarId.central (255 : Fin 0x100)) ((cWait 0xFFFF).f 5 15 0) = Verdict.now) ∧
    (sWait2.headReady 31 = some (cWait 1) ∧ sWait2.baseCheck (cWait 1) = none ∧ (cWait 1).op = 8 ∧
      sWait2.namedBar (cWait 1) = some (BarId.central (255 : Fin 0x100)) ∧ sWait2.bOwner (BarId.central (255 : Fin 0x100)) = (cWait 1).owner ∧
      sWait2.bValid (BarId.central (255 : Fin 0x100)) = true ∧ (cWait 1).part ≠ 0 ∧ sWait2.bMode (BarId.central (255 : Fin 0x100)) ≠ 2 ∧
      sWait2.genVerdict (BarId.central (255 : Fin 0x100)) ((cWait 1).f 5 15 0) = Verdict.later) ∧
    (sWait3.headReady 31 = some (cWait 2) ∧ sWait3.baseCheck (cWait 2) = none ∧ (cWait 2).op = 8 ∧
      sWait3.namedBar (cWait 2) = some (BarId.central (255 : Fin 0x100)) ∧ sWait3.bOwner (BarId.central (255 : Fin 0x100)) = (cWait 2).owner ∧
      sWait3.bValid (BarId.central (255 : Fin 0x100)) = true ∧ (cWait 2).part ≠ 0 ∧ sWait3.bMode (BarId.central (255 : Fin 0x100)) ≠ 2 ∧
      sWait3.genVerdict (BarId.central (255 : Fin 0x100)) ((cWait 2).f 5 15 0) = Verdict.invalid) ∧
    (sFence.headReady 31 = some cFence ∧ sFence.baseCheck cFence = none ∧ cFence.op = 11 ∧ cFence.f 5 2 0 < 6 ∧ cFence.f 5 29 3 = 0 ∧
      (∀ k : Fin 10, cFence.w (6 + k.val) = 0) ∧ tbit (cFence.w 5) 31 = false) ∧
    (sFenceBad.headReady 31 = some cFenceBad ∧ sFenceBad.baseCheck cFenceBad = none ∧ cFenceBad.op = 11 ∧ 6 ≤ cFenceBad.f 5 2 0) := by
  and_intros <;> decide +kernel

theorem wit_QueueProgress :
    ((fencing.queue 31).fence = some cFence ∧ (fencing.queue 31).flight = [] ∧ (fencing.queue 31).fenceFor = [] ∧ tbit (cFence.w 5) 30 = false ∧
      cFence.arrive = false) ∧
    (pushed.tnState (31 / 4 : Nat) = 1 ∧ pushed.rb (qReg 31 8) 31 = true ∧ pushed.qStopped 31 = false ∧
      pushed.rd (qReg 31 12) = pushed.rd (qReg 31 16) + 1 ∧
      pushed.regCheck (31 / 4 : Nat) false (pushed.rd64 (qReg 31 0) + 64 * (BitVec.toNat (pushed.rd (qReg 31 16)) % 2 ^ pushed.rf (qReg 31 8) 12 8)) 64 = Access.ok) ∧
    ((sLaunch.queue 31).wait = some onCount ∧ onCount.on = WaitOn.count 0 ∧ 0 ≤ sLaunch.now ∧ sLaunch.fcState = 0) ∧
    ((sLaunchOk.queue 31).wait = some onCount ∧ onCount.on = WaitOn.count 0 ∧ 0 ≤ sLaunchOk.now ∧ sLaunchOk.fcState ≠ 0) ∧
    (((counted 1).queue 31).wait = some { onCount with on := .count 1 } ∧ (counted 1).now < 1) ∧
    ((ended.engine 5).run = some runEnded ∧ runEnded.done = true) ∧
    (act.mayWrite Func.pf (qReg (4 * 7 + 3) 12) = true ∧ act.tnState 7 ≠ 2 ∧
      (BitVec.toNat (64 - act.rd (qReg (4 * 7 + 3) 20)) ≤ 2 ^ act.rf (qReg (4 * 7 + 3) 8) 12 8 ∧ BitVec.toNat (64 - act.rd (qReg (4 * 7 + 3) 12)) < 2 ^ 31)) ∧
    (act.mayWrite Func.pf (qReg (4 * 7 + 3) 12) = true ∧ act.tnState 7 ≠ 2 ∧
      2 ^ act.rf (qReg (4 * 7 + 3) 8) 12 8 < BitVec.toNat (65 - act.rd (qReg (4 * 7 + 3) 20))) ∧
    (sQtail3.mayWrite (Func.vf (7 : Fin 8)) (qReg (4 * 7 + 3) 12) = true ∧ sQtail3.tnState 7 = 2) ∧
    (act.mayWrite Func.pf (qReg (4 * 7 + 3) 8) = true ∧ act.rd (qReg (4 * 7 + 3) 12) = act.rd (qReg (4 * 7 + 3) 20) ∧ fld 0x85FF1500 26 24 < 6 ∧
      fld 0x85FF1500 23 16 ≠ 0 ∧ 6 ≤ fld 0x85FF1500 12 8 ∧ fld 0x85FF1500 12 8 ≤ 21) ∧
    (pushed.mayWrite Func.pf (qReg (4 * 7 + 3) 8) = true ∧ pushed.rd (qReg (4 * 7 + 3) 12) ≠ pushed.rd (qReg (4 * 7 + 3) 20) ∧ pushed.tnState 7 = 1) ∧
    (act.mayWrite Func.pf (qReg (4 * 7 + 3) 8) = true ∧ 6 ≤ fld 0x86FF1500 26 24) ∧
    (up.mayWrite Func.pf (rga (tnPage 7) 76) = true ∧ isVf Func.pf = false ∧ up.tnState 7 = 0) ∧
    (sTnres2.mayWrite Func.pf (rga (tnPage 7) 76) = true ∧ isVf Func.pf = false ∧ sTnres2.tnState 7 ≠ 0 ∧
      0x100 < sTnres2.shareSum 7 23 16 (fld 0xFF0000 23 16)) := by
  and_intros <;> decide +kernel

theorem wit_TallyRows :
    (sArrival1.arrQ = [anArrival] ∧ anArrival.seq ≠ 0x3FF ∧ sArrival1.judge anArrival = ArrKind.count 0) ∧
    (sArrival2.arrQ = [anArrival] ∧ anArrival.seq ≠ 0x3FF ∧ sArrival2.judge anArrival = ArrKind.count 0) ∧
    ((sCarry.bar (BarId.central (255 : Fin 0x100))).due = true) ∧
    (opened.bValid (BarId.central (255 : Fin 0x100)) = true ∧ opened.bMode (BarId.central (255 : Fin 0x100)) ≠ 2 ∧
      (opened.bar (BarId.central (255 : Fin 0x100))).open_ ≠ 0 ∧ (opened.bar (BarId.central (255 : Fin 0x100))).due = false) ∧
    ((genWait.queue 31).wait = some onGen ∧ onGen.on = WaitOn.gen (BarId.central (255 : Fin 0x100)) 0) ∧
    (vfOf Func.pf = none ∧ sTcfg1.mayWrite Func.pf (barCfgReg (BarId.central (255 : Fin 0x100))) = true ∧
      sTcfg1.barBusy (BarId.central (255 : Fin 0x100)) = false ∧
      cfgInvalid (0x873F0000 &&& 0xFFBFFFFF) (sTcfg1.rd (barPartReg (BarId.central (255 : Fin 0x100)))) = false) ∧
    (vfOf Func.pf = none ∧ up.mayWrite Func.pf (barPartReg (BarId.central (255 : Fin 0x100))) = true ∧
      up.barBusy (BarId.central (255 : Fin 0x100)) = false ∧
      cfgInvalid (up.rd (barCfgReg (BarId.central (255 : Fin 0x100)))) (0xFFFF0FFF &&& 0xFFFF0FFF) = false) ∧
    (vfOf Func.pf = none ∧ up.mayWrite Func.pf (barCfgReg (BarId.central (255 : Fin 0x100))) = true) := by
  and_intros <;> decide +kernel

theorem wit_TenantCommands :
    (isVf Func.pf = false ∧ sEnable.mayWrite Func.pf (rga (tnPage 7) 64) = true ∧ sEnable.tnState 7 = 0 ∧ sEnable.safeHold = false ∧
      sEnable.diagRequired = false ∧ sEnable.tensorOff = false ∧ fld (sEnable.rd (rga (tnPage 7) 76)) 23 16 ≠ 0 ∧
      sEnable.shareSum 7 23 16 (fld (sEnable.rd (rga (tnPage 7) 76)) 23 16) ≤ 0x100 ∧
      sEnable.shareSum 7 15 8 (fld (sEnable.rd (rga (tnPage 7) 76)) 15 8) ≤ 0x100) ∧
    (isVf Func.pf = false ∧ sRestart.mayWrite Func.pf (rga (tnPage 7) 64) = true ∧ sRestart.tnState 7 = 3 ∧ sRestart.safeHold = false ∧
      sRestart.diagRequired = false) ∧
    (isVf Func.pf = false ∧ sRestart.mayWrite Func.pf (rga (tnPage 7) 64) = true ∧ (sRestart.tnState 7 = 1 ∨ sRestart.tnState 7 = 3)) ∧
    (isVf Func.pf = false ∧ sScrub.mayWrite Func.pf (rga (tnPage 7) 64) = true ∧ sScrub.tnState 7 = 4 ∧ sScrub.hasRun 7 = false ∧
      sScrub.canonical = true) ∧
    (sClose.mayWrite Func.pf (manReg 7 0x1A8) = true ∧ sClose.tnState 7 = 1 ∧ sClose.rb (manReg 7 0x180) 31 = true ∧
      (sClose.tenant 7).closing = false) ∧
    (sManAck.mayWrite Func.pf (manReg 7 0x1A8) = true ∧ (sManAck.tenant 7).acked < (sManAck.tenant 7).step) ∧
    ((sMerged.tenant 7).merged = some (1, 9)) ∧
    ((ended.engine 5).run = some runEnded) ∧
    ((moving.porter 15).run = some aRun) ∧
    (up.canonical = true ∧ up.accounts 7 = false ∧ act.accounts 7 = true) := by
  and_intros <;> decide +kernel

theorem wit_AbortRows :
    (act.mayWrite Func.pf (fdReg 0x490) = true ∧ tbit 23 4 = true ∧ fld 23 3 0 < 8 ∧ (act.store Func.pf (fdReg 0x490) 23 0).tnState (fld 23 3 0) = 1) ∧
    (act.mayWrite Func.pf (fdReg 0x490) = true ∧ tbit 7 4 = false) ∧
    (sAbort3.field.seen = [] ∧ sAbort3.epoch 7 ≠ BitVec.toNat (9 : BitVec 4) ∧ sAbort3.tnState 7 = 1) ∧
    (ring.collector = ring.me) ∧
    (sAbort5.collector ≠ sAbort5.me) := by
  and_intros <;> decide +kernel

theorem wit_PortTraining :
    (ring.mayWrite Func.pf (flReg 7 64) = true ∧ fld 1 3 1 = fld (ring.ledRead (0x588 + 7)) 3 1 ∧ tbit 1 0 = true) ∧
    (training.canonical = true ∧ training.lstate 7 = 1 ∧ training.neighbour (training.dir 7) = some (BitVec.toNat (1 : BitVec 6))) ∧
    (training.canonical = true ∧ training.lstate 7 = 1 ∧ training.neighbour (training.dir 7) ≠ some (BitVec.toNat (2 : BitVec 6))) ∧
    (sMiswired.lstate 7 = 0 ∧ (sMiswired.port 7).why = 1) ∧
    ((ring.port 7).why ≠ 1) ∧
    (sAuth1.lstate 7 = 2 ∧ sAuth1.onRoster (List.replicate 12 0) = true) ∧
    (sAuth2.canonical = true ∧ sAuth2.lstate 7 = 2 ∧ sAuth2.onRoster (List.replicate 12 0) = false) ∧
    (training.canonical = true ∧ (15 : BitVec 4) ≠ (0 : BitVec 4) ∧ training.lstate 7 ≠ 0 ∧ training.lstate 7 ≠ 3) ∧
    (sEpochs.hops (sEpochs.rf (rga (falPage 7) 68) 31 26) sEpochs.collector < sEpochs.hops sEpochs.me sEpochs.collector) := by
  and_intros <;> decide +kernel

theorem wit_LinkSlots :
    (ring.canonical = true ∧ ring.portUp 0 = true ∧ dataGood.crcOk = true ∧ dataGood.hdr ≠ 0 ∧
      aFlit = ⟨dataGood.hdr, dataGood.payload.take (nfld dataGood.hdr.toNat 12 0)⟩ ∧ (ring.port 0).rxs.runBad = false ∧
      aFlit.seq = (ring.port 0).rxs.expect) ∧
    (dataBad.crcOk = false ∧ (ring.port 0).rxs.runBad = false ∧ (ring.port 0).rxs.replays < 8) ∧
    (ctlSlot.crcOk = true ∧ ctlSlot.words = [] ∧ ctlSlot.nak = none) ∧
    (ctlLost.crcOk = false ∧ (ring.port 0).rxs.nextRun.runBad = false ∧ (ring.port 0).rxs.nextRun.replays < 8) ∧
    (sStuck.canonical = true ∧ sStuck.portUp 0 = true ∧ (sStuck.port 0).headOf 1 = some aTx ∧ (sStuck.port 0).credit 1 = 0) ∧
    (sFlows.canonical = true ∧ sFlows.portUp 0 = true ∧ (sFlows.port 0).headOf 1 = some aTx ∧ (sFlows.port 0).credit 1 ≠ 0) := by
  and_intros <;> decide +kernel

theorem wit_PacketRows :
    (sForward.rxHead 7 3 = some (far (pkt PktOp.write 1 0 [1])) ∧ (far (pkt PktOp.write 1 0 [1])).dest ≠ sForward.me ∧
      (far (pkt PktOp.write 1 0 [1])).hops ≠ 0 ∧ isProxyOp (far (pkt PktOp.write 1 0 [1])).op = false ∧
      sForward.dataPort (far (pkt PktOp.write 1 0 [1])).dest 3 = some 0 ∧
      (sForward.port 7).rxOf 3 = [⟨packetFlits (far (pkt PktOp.write 1 0 [1])), true, .wait, true⟩]) ∧
    (sNoHops.rxHead 7 3 = some (pkt PktOp.write 1 0 [1]) ∧ (pkt PktOp.write 1 0 [1]).dest ≠ sNoHops.me ∧ (pkt PktOp.write 1 0 [1]).hops = 0 ∧
      isRequest (pkt PktOp.write 1 0 [1]).op = true) ∧
    (sWrite1.rxFor 7 3 PktOp.write = some (pkt PktOp.write 0 0x1FFFFF [1]) ∧ (pkt PktOp.write 0 0x1FFFFF [1]).space = 0 ∧
      (sWrite1.rxPop 7 3).regCheck (pkt PktOp.write 0 0x1FFFFF [1]).tenant true (pkt PktOp.write 0 0x1FFFFF [1]).addr (pkt PktOp.write 0 0x1FFFFF [1]).data.length = Access.ok) ∧
    (sWrite2.rxFor 7 3 PktOp.write = some (toSpad (pkt PktOp.write 0 0x1FFFFF [1])) ∧ (toSpad (pkt PktOp.write 0 0x1FFFFF [1])).space ≠ 0 ∧
      (toSpad (pkt PktOp.write 0 0x1FFFFF [1])).space ≤ 6 ∧
      (sWrite2.rxPop 7 3).inPart ((toSpad (pkt PktOp.write 0 0x1FFFFF [1])).space - 1) (toSpad (pkt PktOp.write 0 0x1FFFFF [1])).tenant (toSpad (pkt PktOp.write 0 0x1FFFFF [1])).addr (toSpad (pkt PktOp.write 0 0x1FFFFF [1])).data.length = true) ∧
    (sAck.rxFor 7 3 PktOp.writeAck = some (pkt PktOp.writeAck 0 0 []) ∧
      List.find? (fun r => r.tag == (pkt PktOp.writeAck 0 0 []).tag) sAck.field.reqs = some aReq ∧ (sAck.porter aReq.pd).lastRemote = none) ∧
    (sError.rxFor 7 3 PktOp.error = some (pkt PktOp.error 0 0x303 []) ∧
      List.find? (fun r => r.tag == (pkt PktOp.error 0 0x303 []).tag) sError.field.reqs = some aReq ∧
      (pkt PktOp.error 0 0x303 []).addr % 0x10000 = 0x303) ∧
    (sArrivePkt.rxFor 7 3 PktOp.arrive = some (pkt PktOp.arrive 0 0xFF001000 [])) := by
  and_intros <;> decide +kernel

theorem wit_FieldCounter :
    (slave.canonical = true ∧ slave.master ≠ slave.me) ∧
    (sTsync.canonical = true ∧ sTsync.master ≠ sTsync.me ∧ sTsync.firstPort sTsync.master = some 0 ∧ sTsync.rf (rga 0x300 0x214) 1 0 = 0 ∧
      sTsync.clock.fcFirst = true) ∧
    (sHoldover.master ≠ sHoldover.me ∧ sHoldover.fcState = 1 ∧ sHoldover.canonical = true) ∧
    (ring.mayWrite Func.pf (fdReg 0x210) = true ∧ ring.masterOk (fld 3 5 0) = true) ∧
    (ring.mayWrite Func.pf (fdReg 0x210) = true ∧ ring.masterOk (fld 4 5 0) = false) := by
  and_intros <;> decide +kernel

theorem wit_LinkBarriers :
    (linkBar.master = linkBar.me ∧ linkBar.lbOn 15 = true ∧ linkBar.lbIn 15 3 = true ∧ BitVec.toNat (0 : BitVec 16) = linkBar.lbGen 15 ∧
      (linkBar.lb 15).arrived ||| 2 ^ 3 ≠ linkBar.rd64 (lbMask 15)) ∧
    (linkBar.master = linkBar.me ∧ linkBar.lbOn 15 = true ∧ (linkBar.lb 15).arrived ≠ 0) ∧
    (sLbSelf.master = sLbSelf.me ∧ sLbSelf.rb (lbStat 15) 7 = true) ∧
    (sLbFire.master = sLbFire.me ∧ (sLbFire.lb 15).fire = [(0, [(1, 2, 3)])] ∧ 0 ≤ sLbFire.now) ∧
    (sLbHeld.master = sLbHeld.me ∧ ∀ f ∈ (sLbHeld.lb 15).fire, sLbHeld.now < f.1) ∧
    (sLbCfg1.master = sLbCfg1.me ∧ sLbCfg1.mayWrite Func.pf (lbCfg 15) = true ∧ sLbCfg1.rf (fdReg 0x400) 15 0 ≤ fld 7 15 0) ∧
    (sLbCfg1.master = sLbCfg1.me ∧ sLbCfg1.mayWrite Func.pf (lbCfg 15) = true ∧ fld 6 15 0 < sLbCfg1.rf (fdReg 0x400) 15 0) ∧
    (slave.master ≠ slave.me) := by
  and_intros <;> decide +kernel

theorem wit_PhaseGenerators :
    (up.canonical = true ∧ up.mayWrite Func.pf (pgReg 3 0) = true ∧ tbit 0x80000000 31 = true ∧ up.pgState 3 = 0) ∧
    (up.canonical = true ∧ up.mayWrite Func.pf (pgReg 3 0) = true ∧ tbit 0 31 = false) ∧
    (freeGen.canonical = true ∧ freeGen.mayWrite Func.pf (pgReg 3 4) = true ∧ freeGen.pgState 3 = 2 ∧ (freeGen.gen 3).src = 3 ∧
      (freeGen.gen 3).fracHeld = some 0 ∧ BitVec.toNat (0x418936 : Word) < 0x418937) ∧
    (freeGen.canonical = true ∧ freeGen.mayWrite Func.pf (pgReg 3 16) = true ∧ freeGen.pgState 3 = 2 ∧ (freeGen.gen 3).src = 3 ∧
      BitVec.toNat (0x3FFFFFFF : Word) < 2 ^ 30) ∧
    (changing.canonical = true ∧ changing.mile.changes = [Change.adj 3 7]) ∧
    (sZc1.canonical = true ∧ sZc1.rb (mpReg 192) 0 = false ∧ sZc1.rf (mpReg 192) 31 16 ≤ 64) ∧
    (sZc1.canonical = true ∧ 63 < sZc1.rf (mpReg 192) 31 16) ∧
    (mainsGen.canonical = true ∧ (mainsGen.gen 3).src = 2 ∧ mainsGen.pgState 3 = 2) ∧
    (sSrcLost.canonical = true ∧ sSrcLost.pgState 3 = 3) := by
  and_intros <;> decide +kernel

theorem wit_PtpClock :
    (up.canonical = true ∧ up.mayWrite Func.pf (mpReg 0x110) = true ∧
      (0xFFDF3B65 ≤ BitVec.toNat (1 : Word) * 2 ^ 32 + BitVec.toNat (up.rd (mpReg 0x10C)) ∧ BitVec.toNat (1 : Word) * 2 ^ 32 + BitVec.toNat (up.rd (mpReg 0x10C)) ≤ 0x10020C49B)) ∧
    (sAddend2.canonical = true ∧ sAddend2.mayWrite Func.pf (mpReg 0x110) = true ∧
      0x10020C49B < BitVec.toNat (1 : Word) * 2 ^ 32 + BitVec.toNat (sAddend2.rd (mpReg 0x10C))) ∧
    (sPtpSet.canonical = true ∧ sPtpSet.mayWrite Func.pf (mpReg 0x124) = true ∧ sPtpSet.rb (mpReg 0x128) 31 = true) ∧
    (sPtpStep1.canonical = true ∧ sPtpStep1.mayWrite Func.pf (mpReg 0x124) = true ∧ sPtpStep1.rb (mpReg 0x128) 31 = false ∧
      (toS 32 (BitVec.toNat (sPtpStep1.rd (mpReg 0x120))) * 2 ^ 32).natAbs ≤ BitVec.toNat (sPtpStep1.rd (mpReg 0x12C)) * 2 ^ 32) ∧
    (sPtpStep2.canonical = true ∧ sPtpStep2.mayWrite Func.pf (mpReg 0x124) = true ∧ sPtpStep2.rb (mpReg 0x128) 31 = false ∧
      BitVec.toNat (sPtpStep2.rd (mpReg 0x12C)) * 2 ^ 32 < (toS 32 (BitVec.toNat (sPtpStep2.rd (mpReg 0x120))) * 2 ^ 32).natAbs) ∧
    (sAnnounce.canonical = true ∧ tbit (sAnnounce.rd (mpReg 0x130)) 26 = true ∧ fld (sAnnounce.rd (mpReg 0x130)) 25 24 = 3 ∧
      sAnnounce.rd (mpReg 0x134) ≠ (1 : Word)) ∧
    (sPdelay.canonical = true ∧ tbit (sPdelay.rd (mpReg 0x130)) 31 = true ∧ tbit (sPdelay.rd (mpReg 0x130)) 30 = true) := by
  and_intros <;> decide +kernel

theorem wit_WaybillEntries :
    (up.canonical = true ∧ up.mayWrite Func.pf (wbReg 64) = true) ∧
    (sCommit1.canonical = true ∧ sCommit1.mayWrite Func.pf (wbReg 88) = true ∧ 0x3FF = sCommit1.rf (wbReg 64) 9 0 ∧
      sCommit1.stagedOk (stagedEntry sCommit1) = true ∧
      (stagedEntry sCommit1).phase ≠ (sCommit1.wbEntry 0x3FF).phase) ∧
    (sCommit2.canonical = true ∧ sCommit2.mayWrite Func.pf (wbReg 88) = true ∧ 0x3FF = sCommit2.rf (wbReg 64) 9 0 ∧
      sCommit2.stagedOk (stagedEntry sCommit2) = false) ∧
    (wbWaiting.canonical = true ∧ (wbWaiting.queue 31).wait = some onFires ∧ 1 ≠ 0 ∧
      toS 32 ((wbWaiting.wbEntry 1023).fires + 2 ^ 32 - 1 % 2 ^ 32) < 0) ∧
    (wbFired.canonical = true ∧ (wbFired.queue 31).wait = some onFires ∧ 0 ≤ toS 32 ((wbFired.wbEntry 1023).fires + 2 ^ 32 - 1 % 2 ^ 32)) ∧
    (sWbWait1.canonical = true ∧ sWbWait1.headReady 31 = some (cWbWait 0) ∧ (cWbWait 0).op = 9 ∧ sWbWait1.baseCheck (cWbWait 0) = none ∧
      (sWbWait1.wbEntry ((cWbWait 0).f 5 9 0)).valid = true ∧ (sWbWait1.wbEntry ((cWbWait 0).f 5 9 0)).owner = (cWbWait 0).owner ∧
      tbit ((cWbWait 0).w 5) 31 = false ∧ 0 ≤ toS 32 ((sWbWait1.wbEntry ((cWbWait 0).f 5 9 0)).fires + 2 ^ 32 - BitVec.toNat ((cWbWait 0).w 6))) ∧
    (sWbWait2.canonical = true ∧ sWbWait2.headReady 31 = some (cWbWait 1) ∧ (cWbWait 1).op = 9 ∧ sWbWait2.baseCheck (cWbWait 1) = none ∧
      (sWbWait2.wbEntry ((cWbWait 1).f 5 9 0)).valid = true ∧ (sWbWait2.wbEntry ((cWbWait 1).f 5 9 0)).owner = (cWbWait 1).owner ∧
      tbit ((cWbWait 1).w 5) 31 = false ∧ toS 32 ((sWbWait2.wbEntry ((cWbWait 1).f 5 9 0)).fires + 2 ^ 32 - BitVec.toNat ((cWbWait 1).w 6)) < 0) ∧
    (sCrossing.mile.due = [⟨3, 0x3FF, 0, false⟩]) ∧
    (sLate.mile.due = [⟨3, 0x3FF, 0, true⟩] ∧ 0 ≤ sLate.clock.tick) ∧
    (sLater.mile.due = [⟨3, 0x3FF, 9, true⟩] ∧ sLater.clock.tick < 9) ∧
    (takeEvent 4 sQueueStart.evQ = some (anEvent4, [])) ∧
    (takeEvent 5 sWbArrive1.evQ = some (anEvent5, []) ∧
      (noEvents sWbArrive1).wbArrivalOk { bar := BarId.central (Fin.ofNat 0x100 (fld anEvent5.arg 31 24)), part := fld anEvent5.arg 11 0, tenant := none, pipe := none, seq := 0x3FF, unit := 0x401 } = true) ∧
    (takeEvent 5 sWbArrive2.evQ = some (anEvent5, []) ∧
      (noEvents sWbArrive2).wbArrivalOk { bar := BarId.central (Fin.ofNat 0x100 (fld anEvent5.arg 31 24)), part := fld anEvent5.arg 11 0, tenant := none, pipe := none, seq := 0x3FF, unit := 0x401 } = false) ∧
    (takeEvent 7 sWdSlot.evQ = some (anEvent7, [])) ∧
    (takeEvent 8 sWindow.evQ = some (anEvent8, [])) ∧
    (takeEvent 9 sWbClose.evQ = some (anEvent9, [])) := by
  and_intros <;> decide +kernel

theorem wit_AxisCommands :
    (ready.canonical = true ∧ ready.mayWrite Func.pf (axReg 47 64) = true ∧ ready.axState 47 = 0 ∧ ready.groupSafe (47 / 4 : Nat) = false ∧
      ready.rb (aAxStat 47) 6 = true ∧ ready.encMode 47 ≠ 0 ∧ ready.rb (aEncStat 47) 5 = false ∧ ready.rf (aAlStat (47 / 4 : Nat)) 1 0 = 2 ∧
      ready.safeHold = false) ∧
    (running.canonical = true ∧ running.mayWrite Func.pf (axReg 47 64) = true ∧ running.axState 47 ≠ 0) ∧
    (running.canonical = true ∧ running.mayWrite Func.pf (axReg 47 64) = true ∧ running.axState 47 = 1) ∧
    (up.canonical = true ∧ up.mayWrite Func.pf (axReg 47 64) = true ∧ up.lawBad 47 = some 0) ∧
    (lawStaged.canonical = true ∧ lawStaged.mayWrite Func.pf (axReg 47 64) = true ∧ lawStaged.lawBad 47 = none ∧ lawStaged.axState 47 = 0) ∧
    (running.canonical = true ∧ running.mayWrite Func.pf (axReg 47 64) = true ∧ running.lawBad 47 = none ∧ running.axState 47 ≠ 0 ∧
      (20 = 20 ∨ 20 = 21)) ∧
    (up.canonical = true ∧ up.mayWrite Func.pf (alReg 11 68) = true) ∧
    (resettable.canonical = true ∧ resettable.mayWrite Func.pf (alReg 11 68) = true ∧ resettable.groupSafe 11 = true ∧
      resettable.triggerPresent 11 = false) ∧
    (safe.canonical = true ∧ safe.mayWrite Func.pf (alReg 11 68) = true ∧ safe.groupSafe 11 = true ∧ safe.triggerPresent 11 = true) ∧
    (safe.canonical = true ∧ false = safe.pins.stoA.getLsbD 11 ∧ false = safe.pins.stoB.getLsbD 11 ∧ false = safe.pins.brake.getLsbD 11) := by
  and_intros <;> decide +kernel

theorem wit_ControlPeriods :
    ((sCompute.axis 47).inp = some anInput ∧ anInput.ssi = false) ∧
    ((sSsiWaits.axis 47).inp = some ssiInput ∧ ssiInput.ssi = true ∧ (sSsiWaits.enc 47).ssi.isSome = true) ∧
    ((sSsiThere.axis 47).inp = some ssiInput ∧ (sSsiThere.enc 47).ssi = none) ∧
    ((sLatch.dp 3).latchDue = true) ∧
    (running.canonical = true ∧ running.inLoop 47 = true) ∧
    (sDecide1.canonical = true ∧ sDecide1.inLoop 47 = true ∧ (sDecide1.axis 47).ended = false ∧
      (∀ (k : Nat), k ∈ activePhases (sDecide1.lawW 47 0) → (((List.foldl (fun s k => s.takeSample 47 k) sDecide1 (activePhases (sDecide1.lawW 47 0))).axis 47).phase k).valid = true → flt (sDecide1.lawW 47 24) (fabs (((List.foldl (fun s k => s.takeSample 47 k) sDecide1 (activePhases (sDecide1.lawW 47 0))).axis 47).phase k).amps) = false) ∧
      sDecide1.alMode (47 / 4 : Nat) = false) ∧
    (sDecide2.canonical = true ∧ sDecide2.inLoop 47 = true ∧ (sDecide2.axis 47).ended = false ∧
      (∀ (k : Nat), k ∈ activePhases (sDecide2.lawW 47 0) → (((List.foldl (fun s k => s.takeSample 47 k) sDecide2 (activePhases (sDecide2.lawW 47 0))).axis 47).phase k).valid = true → flt (sDecide2.lawW 47 24) (fabs (((List.foldl (fun s k => s.takeSample 47 k) sDecide2 (activePhases (sDecide2.lawW 47 0))).axis 47).phase k).amps) = false) ∧
      sDecide2.alMode (47 / 4 : Nat) = true) ∧
    (sOvercurrent.canonical = true ∧ sOvercurrent.inLoop 47 = true ∧
      2 ∈ activePhases (sOvercurrent.lawW 47 0) ∧ (∀ (j : Fin 3), ((sOvercurrent.axis 47).phase j).bits = []) ∧
      ((sOvercurrent.axis 47).phase 2).valid = true ∧ flt (sOvercurrent.lawW 47 24) (fabs ((sOvercurrent.axis 47).phase 2).amps) = true) ∧
    (sBand.canonical = true ∧ sBand.inLoop 47 = true ∧ tbit (sBand.lawW 47 0) 24 = true) :=
 by
  and_intros <;> decide +kernel

/-- Its two mailbox clauses: a buffer with a copy for axis 11, and a buffer of SEQ 1 where 3 is due. -/
theorem wit_ControlPeriods_mailbox :
    (((mailbox.dp 3).fetches ≠ 0 ∧ mailbox.regCheck (mailbox.rf (dvReg 3 128) 27 24) false (mbCopy mailbox) 6208 = Access.ok) ∧
      mailboxParse (mailbox.hbmRead (mbCopy mailbox) 6208) 3 (mailbox.rd (dvReg 3 0x8C)).toNat = .inr [(11, ⟨1, [⟨16, 0, 1, 0, 0, 0, 0, 0⟩]⟩)]) ∧
    (((mailboxLate.dp 3).fetches ≠ 0 ∧ mailboxLate.regCheck (mailboxLate.rf (dvReg 3 128) 27 24) false (mbCopy mailboxLate) 6208 = Access.ok) ∧
      mailboxParse (mailboxLate.hbmRead (mbCopy mailboxLate) 6208) 3 (mailboxLate.rd (dvReg 3 0x8C)).toNat = .inl 1) := by
  have h1 : mbCopy mailbox = 0x2000 ∧ mbCopy mailboxLate = 0x2000 := by decide +kernel
  have h2 : (mailbox.rd (dvReg 3 0x8C)).toNat = 0 ∧ (mailboxLate.rd (dvReg 3 0x8C)).toNat = 2 := by decide +kernel
  rw [h1.1, h1.2, h2.1, h2.2]
  refine ⟨⟨?_, mailbox_good⟩, ?_, mailbox_late⟩ <;> decide +kernel

theorem wit_AxisLinkFrames :
    (sUpFrame1.rb (alReg 11 64) 0 = true ∧ sUpFrame1.canonical = true ∧ sUpFrame1.alLink 11 = 1 ∧
      (upFrame (sUpFrame1.alink 11) false (BitVec.toNat (0x39E : BitVec 40))).ok = true ∧
      (upFrame (sUpFrame1.alink 11) false (BitVec.toNat (0x39E : BitVec 40))).rise = false) ∧
    (sUpFrame2.rb (alReg 11 64) 0 = true ∧ sUpFrame2.alLink 11 = 2 ∧ sUpFrame2.rf (alReg 11 64) 27 24 ≠ 0 ∧
      (upFrame (sUpFrame2.alink 11) true (BitVec.toNat (0x39E : BitVec 40))).ok = true ∧
      (upFrame (sUpFrame2.alink 11) true (BitVec.toNat (0x39E : BitVec 40))).hunt = false ∧
      (upFrame (sUpFrame2.alink 11) true (BitVec.toNat (0x39E : BitVec 40))).whole = false) ∧
    (sUpFrame2.rb (alReg 11 64) 0 = true ∧ mapWf dflt sUpFrame2.drv.links = true) := by
  and_intros <;> decide +kernel

theorem wit_Encoders :
    (sEdgeA.encMode 47 = 1 ∧ (sEdgeA.enc 47).a ≠ true ∧ (sEdgeA.enc 47).b = false) ∧
    (sEdgeA.encMode 47 = 1 ∧ (sEdgeA.enc 47).a = false ∧ (sEdgeA.enc 47).b ≠ true) ∧
    (sEdgeA.encMode 47 = 1 ∧ (sEdgeA.enc 47).a ≠ true ∧ (sEdgeA.enc 47).b ≠ true) ∧
    (sIndex.encMode 47 = 1 ∧ sIndex.rb (encReg 47 64) 28 = true ∧ BitVec.toNat (sIndex.lawW 47 17) ≠ 0 ∧ (sIndex.enc 47).index = none) ∧
    (sEdgeA.canonical = true ∧ mapWf dflt sEdgeA.drv.encs = true ∧ sEdgeA.encMode 47 = 1) ∧
    ((sSsiEnd.enc 47).ssi = some 3 ∧ (sSsiEnd.enc 47).good = none ∧ fld (sSsiEnd.rd (encReg 47 64)) 29 25 = 0) ∧
    (sMono.encMode 47 = 2) := by
  and_intros <;> decide +kernel

theorem wit_CameraPackets :
    (sFs.srcOn 15 = true ∧ sFs.rf (thReg 15 96) 29 28 = BitVec.toNat (0 : BitVec 2) ∧ mapWf dflt sFs.perc.ths = true ∧ (sFs.th 15).opened = false ∧
      sFs.rd64 (thReg 15 160) = 0 ∧ sFs.rd64 (thReg 15 168) = 0 ∧ sFs.rb (thReg 15 184) 31 = false) ∧
    (sLine1.srcOn 15 = true ∧ sLine1.rf (thReg 15 96) 29 28 = BitVec.toNat (0 : BitVec 2) ∧
      BitVec.toNat (42 : BitVec 6) = (sLine1.th 15).dt ∧ (dtBits (BitVec.toNat (42 : BitVec 6))).isSome = true ∧
      (sLine1.th 15).opened = true ∧ (sLine1.th 15).discard = false ∧ (42 : BitVec 6) ≠ (30 : BitVec 6) ∧ (42 : BitVec 6) ≠ (2 : BitVec 6) ∧
      (42 : BitVec 6) ≠ (3 : BitVec 6)) ∧
    (sLine1.srcOn 15 = true ∧ sLine1.rf (thReg 15 96) 29 28 ≠ BitVec.toNat (1 : BitVec 2)) ∧
    (sLine1.srcOn 15 = true ∧ sLine1.rf (thReg 15 96) 29 28 = BitVec.toNat (0 : BitVec 2) ∧ (sLine1.th 15).opened = true ∧
      (sLine1.th 15).discard = false) ∧
    (sFe.srcOn 15 = true ∧ sFe.rf (thReg 15 96) 29 28 = BitVec.toNat (0 : BitVec 2) ∧ (sFe.th 15).opened = true ∧ (sFe.th 15).staged = none ∧
      (sFe.th 15).corrupt = false ∧ (sFe.th 15).lines.length = (sFe.th 15).height ∧ mapWf dflt sFe.perc.ths = true ∧
      mapWf (fun _ => []) sFe.perc.samples = true) ∧
    (sLine1.srcOn 15 = true ∧ (sLine1.th 15).opened = true) ∧
    (sLine1.srcOn 15 = true) := by
  and_intros <;> decide +kernel

theorem wit_SampleSources :
    (sFs.mayWrite Func.pf (thReg 15 224) = true ∧ (sFs.th 15).staged = none) ∧
    (sThSet2.mayWrite Func.pf (thReg 15 224) = true ∧ (sThSet2.th 15).staged ≠ none) ∧
    ((sRoi.th 15).roiDue ≠ 0) ∧
    (sourceOn.mayWrite Func.pf (srcReg 95 0) = true ∧ sourceOn.srcOn 95 = true ∧ tbit 0x80000000 31 = true) ∧
    (sourceOn.mayWrite Func.pf (srcReg 95 0) = true ∧ sourceOn.srcOn 95 = true ∧ tbit 0 31 = false) ∧
    (sSrc3.mayWrite Func.pf (srcReg 95 0) = true ∧ sSrc3.srcOn 95 = false ∧ tbit 0x80000000 31 = true ∧ tbit 0x80000000 30 = false ∧
      fld 0x80000000 27 24 < 8 ∧ 2 ≤ sSrc3.slotCount 95 ∧ sSrc3.slotCount 95 ≤ 0x400 ∧ sSrc3.slotBytes 95 ≠ 0 ∧
      0x1000 + sSrc3.fixedBytes 95 (0x80000000 : Word) ≤ sSrc3.slotBytes 95 ∧
      sSrc3.regCheck (fld 0x80000000 27 24) true (sSrc3.srcRing 95) (0x1000 + sSrc3.slotCount 95 * sSrc3.slotBytes 95) = Access.ok) ∧
    (sSrc3.mayWrite Func.pf (srcReg 95 0) = true ∧ sSrc3.srcOn 95 = false ∧ tbit 0x87000000 31 = true ∧ tbit 0x87000000 30 = false ∧
      fld 0x87000000 27 24 < 8 ∧ 2 ≤ sSrc3.slotCount 95 ∧ sSrc3.slotCount 95 ≤ 0x400 ∧ sSrc3.slotBytes 95 ≠ 0 ∧
      0x1000 + sSrc3.fixedBytes 95 (0x87000000 : Word) ≤ sSrc3.slotBytes 95 ∧
      sSrc3.regCheck (fld 0x87000000 27 24) true (sSrc3.srcRing 95) (0x1000 + sSrc3.slotCount 95 * sSrc3.slotBytes 95) = Access.bounds 0) ∧
    (sForward1.waiting 95 = [aSample] ∧ sForward1.rb (srcReg 95 0) 30 = false ∧
      sForward1.regCheck (sForward1.srcOwner 95) true (sForward1.srcRing 95) (0x1000 + sForward1.slotCount 95 * sForward1.slotBytes 95) = Access.ok ∧
      aSample.views = [some aView, none, none, none, none] ∧ 0x1000 + (viewBytes aSample.fmt aView).length ≤ sForward1.slotBytes 95 ∧
      (decide (95 < 16) && (sForward1.th 95).late.contains aSample.index) = false ∧
      (leNat (sForward1.hbmRead (sForward1.srcRing 95) 8) + 2 ^ 64 - leNat (sForward1.hbmRead (sForward1.srcRing 95 + 8) 8)) % 2 ^ 64 < sForward1.slotCount 95) ∧
    (sForward2.waiting 95 = [aSample] ∧ sForward2.rb (srcReg 95 0) 30 = false ∧
      sForward2.regCheck (sForward2.srcOwner 95) true (sForward2.srcRing 95) (0x1000 + sForward2.slotCount 95 * sForward2.slotBytes 95) = Access.ok ∧
      aSample.views = [some aView, none, none, none, none] ∧ 0x1000 + (viewBytes aSample.fmt aView).length ≤ sForward2.slotBytes 95 ∧
      (decide (95 < 16) && (sForward2.th 95).late.contains aSample.index) = false ∧
      sForward2.slotCount 95 ≤ (leNat (sForward2.hbmRead (sForward2.srcRing 95) 8) + 2 ^ 64 - leNat (sForward2.hbmRead (sForward2.srcRing 95 + 8) 8)) % 2 ^ 64) := by
  and_intros <;> decide +kernel

theorem wit_VideoStreams :
    (List.filter (fun v => sRtp1.vsTakes v aRtp) (List.range 80) = [79] ∧ (sRtp1.vs 79).held = [] ∧ (sRtp1.vs 79).next = some aRtp.seq.toNat ∧
      (sRtp1.vs 79).fill + aRtp.payload.length ≤ 2 ^ 22 ∧ (∀ g ∈ (sRtp1.vs 79).got, g.2.time = aRtp.time) ∧ aRtp.marker = true ∧ midRtp.marker = false) ∧
    (List.filter (fun v => sRtpNew.vsTakes v midRtp) (List.range 80) = [79] ∧ (sRtpNew.vs 79).held = [] ∧
      (sRtpNew.vs 79).next = some midRtp.seq.toNat ∧ (sRtpNew.vs 79).fill + midRtp.payload.length ≤ 2 ^ 22 ∧ midRtp.marker = false ∧
      ∃ g ∈ (sRtpNew.vs 79).got, g.2.time ≠ midRtp.time) ∧
    ((∀ (v : Nat), v < 80 → up.vsTakes v aRtp = false)) ∧
    ((sJitter.vs 79).held = [(7, 0, midRtp)] ∧ (sJitter.vs 79).next = some 5 ∧ (sJitter.vs 79).spilled = [] ∧ (sJitter.vs 79).got = [] ∧
      midRtp.marker = false) ∧
    (sPicture1.srcOn (16 + 79) = true ∧ (sPicture1.vs 79).ended = [[(0, aRtp)]] ∧ [(0, aRtp)].any (fun g => g.2.time == badPicture.rtpTime) = true ∧
      sPicture1.rf (vsReg 79 32) 31 30 < 2 ∧ badPicture.syntaxBad = true ∧ badPicture.lost = [] ∧ badPicture.predicted = 0) ∧
    (sPicture2.srcOn (16 + 79) = true ∧ aPicture.syntaxBad = false ∧ sPicture2.rf (vsReg 79 32) 31 30 = 1 ∧ 128 ≤ aPicture.width ∧
      128 ≤ aPicture.height ∧ aPicture.width ≤ 2880 ∧ aPicture.height ≤ 2880 ∧
      sPicture2.rf (rga 0x530 (64 + 16 * sPicture2.srcOwner (16 + 79))) 1 0 = 0) ∧
    (aPicture.lost = [] ∧ aPicture.predicted = 0 ∧ sPicture2.rf (vsReg 79 32) 29 28 = 0 ∧ (sPicture2.vs 79).ended = [[(3, aRtp)]] ∧
      (3, aRtp).snd.time = aPicture.rtpTime) ∧
    (cuCount lossPicture ≠ 0 ∧ mapWf dflt sPicture2.perc.streams = true ∧ mapWf (fun _ => []) sPicture2.perc.samples = true) ∧
    (sStalled.srcOn (16 + 79) = true ∧ (sStalled.vs 79).stalled = false) ∧
    (sGlean1.canonical = true ∧ sGlean1.mayWrite Func.pf (glReg 104) = true ∧ tbit 1 0 = true ∧ sGlean1.rb (glReg 108) 30 = true) ∧
    (gleaning.canonical = true ∧ gleaning.mayWrite Func.pf (glReg 104) = true ∧ tbit 1 0 = true ∧ gleaning.rb (glReg 108) 30 = false ∧
      gleaning.regCheck (fld 1 7 4) false (gleaning.rd64 (glReg 64)) (BitVec.toNat (gleaning.rd (glReg 72))) = Access.ok ∧
      gleaning.regCheck (fld 1 7 4) true (gleaning.rd64 (glReg 76)) (4 * BitVec.toNat (gleaning.rd (glReg 84))) = Access.ok ∧
      gleaning.regCheck (fld 1 7 4) false (gleaning.rd64 (glReg 88)) (48 * 2 ^ gleaning.rf (glReg 96) 20 16) = Access.ok) ∧
    (gleanRuns.canonical = true ∧ gleanRuns.perc.glean = some gleanReq ∧
      gleanRuns.tokens (BitVec.toNat (gleanReq.getD 6 0) + BitVec.toNat (gleanReq.getD 7 0) * 2 ^ 32) (2 ^ nfld (BitVec.toNat (gleanReq.getD 8 0)) 20 16) (BitVec.toNat (gleanReq.getD 9 0)) (BitVec.toNat (gleanReq.getD 2 0)) (BitVec.toNat (gleanReq.getD 5 0)) (gleanRuns.hbmRead (BitVec.toNat (gleanReq.getD 0 0) + BitVec.toNat (gleanReq.getD 1 0) * 2 ^ 32) (BitVec.toNat (gleanReq.getD 2 0))) = ([8], true)) := by
  and_intros <;> decide +kernel

theorem wit_EthReception :
    (eth.ethUp 3 = true) ∧
    (eth.ethUp 3 = true ∧ ((List.replicate 59 255).length + 4 < 64 ∨ eth.ethMax 3 < (List.replicate 59 255).length + 4)) ∧
    (eth.ethUp 3 = true ∧ 64 ≤ (List.replicate 60 2).length + 4 ∧ (List.replicate 60 2).length + 4 ≤ eth.ethMax 3 ∧
      eth.addrOk 3 (beAt (List.replicate 60 2) 0 6) = false) ∧
    (eth.ethUp 3 = true ∧ 64 ≤ (frame 136 8).length + 4 ∧ (frame 136 8).length + 4 ≤ eth.ethMax 3 ∧ eth.addrOk 3 (beAt (frame 136 8) 0 6) = true ∧
      beAt (frame 136 8) 12 2 = 0x8808) ∧
    (receiving.ethUp 3 = true ∧ 64 ≤ (frame 144 0).length + 4 ∧ (frame 144 0).length + 4 ≤ receiving.ethMax 3 ∧
      receiving.addrOk 3 (beAt (frame 144 0) 0 6) = true ∧ beAt (frame 144 0) 12 2 ≠ 0x8808 ∧ beAt (frame 144 0) 12 2 ≠ 0x8100 ∧
      rtpOf 3 (frame 144 0) = none ∧ ptpAt (frame 144 0) = none ∧
      receiving.ethQ (rxqReg 3 (receiving.rf (ethReg 3 72) (3 * ((receiving.rf (ethReg 3 64) 20 18 * 0x2000 + receiving.rf (ethReg 3 68) 11 0) / 0x2000) + 2) (3 * ((receiving.rf (ethReg 3 64) 20 18 * 0x2000 + receiving.rf (ethReg 3 68) 11 0) / 0x2000))) 0) = true ∧
      leNat (receiving.hbmRead (receiving.ethRing (rxqReg 3 (receiving.rf (ethReg 3 72) (3 * ((receiving.rf (ethReg 3 64) 20 18 * 0x2000 + receiving.rf (ethReg 3 68) 11 0) / 0x2000) + 2) (3 * ((receiving.rf (ethReg 3 64) 20 18 * 0x2000 + receiving.rf (ethReg 3 68) 11 0) / 0x2000))) 0)) 8) ≠ leNat (receiving.hbmRead (receiving.ethRing (rxqReg 3 (receiving.rf (ethReg 3 72) (3 * ((receiving.rf (ethReg 3 64) 20 18 * 0x2000 + receiving.rf (ethReg 3 68) 11 0) / 0x2000) + 2) (3 * ((receiving.rf (ethReg 3 64) 20 18 * 0x2000 + receiving.rf (ethReg 3 68) 11 0) / 0x2000))) 0) + 8) 8) ∧
      receiving.regCheck (receiving.ethOwner (rxqReg 3 (receiving.rf (ethReg 3 72) (3 * ((receiving.rf (ethReg 3 64) 20 18 * 0x2000 + receiving.rf (ethReg 3 68) 11 0) / 0x2000) + 2) (3 * ((receiving.rf (ethReg 3 64) 20 18 * 0x2000 + receiving.rf (ethReg 3 68) 11 0) / 0x2000))) 0)) true (receiving.ethRing (rxqReg 3 (receiving.rf (ethReg 3 72) (3 * ((receiving.rf (ethReg 3 64) 20 18 * 0x2000 + receiving.rf (ethReg 3 68) 11 0) / 0x2000) + 2) (3 * ((receiving.rf (ethReg 3 64) 20 18 * 0x2000 + receiving.rf (ethReg 3 68) 11 0) / 0x2000))) 0)) 64 = Access.ok ∧
      receiving.regCheck (receiving.ethOwner (rxqReg 3 (receiving.rf (ethReg 3 72) (3 * ((receiving.rf (ethReg 3 64) 20 18 * 0x2000 + receiving.rf (ethReg 3 68) 11 0) / 0x2000) + 2) (3 * ((receiving.rf (ethReg 3 64) 20 18 * 0x2000 + receiving.rf (ethReg 3 68) 11 0) / 0x2000))) 0)) true (receiving.ethRing (rxqReg 3 (receiving.rf (ethReg 3 72) (3 * ((receiving.rf (ethReg 3 64) 20 18 * 0x2000 + receiving.rf (ethReg 3 68) 11 0) / 0x2000) + 2) (3 * ((receiving.rf (ethReg 3 64) 20 18 * 0x2000 + receiving.rf (ethReg 3 68) 11 0) / 0x2000))) 0) + 64 + 32 * (leNat (receiving.hbmRead (receiving.ethRing (rxqReg 3 (receiving.rf (ethReg 3 72) (3 * ((receiving.rf (ethReg 3 64) 20 18 * 0x2000 + receiving.rf (ethReg 3 68) 11 0) / 0x2000) + 2) (3 * ((receiving.rf (ethReg 3 64) 20 18 * 0x2000 + receiving.rf (ethReg 3 68) 11 0) / 0x2000))) 0) + 8) 8) % receiving.ethSize (rxqReg 3 (receiving.rf (ethReg 3 72) (3 * ((receiving.rf (ethReg 3 64) 20 18 * 0x2000 + receiving.rf (ethReg 3 68) 11 0) / 0x2000) + 2) (3 * ((receiving.rf (ethReg 3 64) 20 18 * 0x2000 + receiving.rf (ethReg 3 68) 11 0) / 0x2000))) 0))) 32 = Access.ok ∧
      (frame 144 0).length ≤ leNat (receiving.hbmRead (receiving.ethRing (rxqReg 3 (receiving.rf (ethReg 3 72) (3 * ((receiving.rf (ethReg 3 64) 20 18 * 0x2000 + receiving.rf (ethReg 3 68) 11 0) / 0x2000) + 2) (3 * ((receiving.rf (ethReg 3 64) 20 18 * 0x2000 + receiving.rf (ethReg 3 68) 11 0) / 0x2000))) 0) + 64 + 32 * (leNat (receiving.hbmRead (receiving.ethRing (rxqReg 3 (receiving.rf (ethReg 3 72) (3 * ((receiving.rf (ethReg 3 64) 20 18 * 0x2000 + receiving.rf (ethReg 3 68) 11 0) / 0x2000) + 2) (3 * ((receiving.rf (ethReg 3 64) 20 18 * 0x2000 + receiving.rf (ethReg 3 68) 11 0) / 0x2000))) 0) + 8) 8) % receiving.ethSize (rxqReg 3 (receiving.rf (ethReg 3 72) (3 * ((receiving.rf (ethReg 3 64) 20 18 * 0x2000 + receiving.rf (ethReg 3 68) 11 0) / 0x2000) + 2) (3 * ((receiving.rf (ethReg 3 64) 20 18 * 0x2000 + receiving.rf (ethReg 3 68) 11 0) / 0x2000))) 0)) + 8) 2) ∧
      receiving.regCheck (receiving.ethOwner (rxqReg 3 (receiving.rf (ethReg 3 72) (3 * ((receiving.rf (ethReg 3 64) 20 18 * 0x2000 + receiving.rf (ethReg 3 68) 11 0) / 0x2000) + 2) (3 * ((receiving.rf (ethReg 3 64) 20 18 * 0x2000 + receiving.rf (ethReg 3 68) 11 0) / 0x2000))) 0)) true (leNat (receiving.hbmRead (receiving.ethRing (rxqReg 3 (receiving.rf (ethReg 3 72) (3 * ((receiving.rf (ethReg 3 64) 20 18 * 0x2000 + receiving.rf (ethReg 3 68) 11 0) / 0x2000) + 2) (3 * ((receiving.rf (ethReg 3 64) 20 18 * 0x2000 + receiving.rf (ethReg 3 68) 11 0) / 0x2000))) 0) + 64 + 32 * (leNat (receiving.hbmRead (receiving.ethRing (rxqReg 3 (receiving.rf (ethReg 3 72) (3 * ((receiving.rf (ethReg 3 64) 20 18 * 0x2000 + receiving.rf (ethReg 3 68) 11 0) / 0x2000) + 2) (3 * ((receiving.rf (ethReg 3 64) 20 18 * 0x2000 + receiving.rf (ethReg 3 68) 11 0) / 0x2000))) 0) + 8) 8) % receiving.ethSize (rxqReg 3 (receiving.rf (ethReg 3 72) (3 * ((receiving.rf (ethReg 3 64) 20 18 * 0x2000 + receiving.rf (ethReg 3 68) 11 0) / 0x2000) + 2) (3 * ((receiving.rf (ethReg 3 64) 20 18 * 0x2000 + receiving.rf (ethReg 3 68) 11 0) / 0x2000))) 0))) 8)) (frame 144 0).length = Access.ok) ∧
    (eth.canonical = true ∧ eth.ethUp 3 = true ∧ (eth.ethPort 3).heads = [] ∧ (eth.ethPort 3).wire = none) ∧
    (sLinkUp.canonical = true ∧ sLinkUp.ethOn 3 = true ∧ sLinkUp.ethUp 3 = false) ∧
    (sSilence.canonical = true ∧ sSilence.ethOn 3 = true ∧ sSilence.rf (ethReg 3 88) 15 0 ≠ 0) ∧
    (eth.canonical = true ∧ eth.mayWrite Func.pf (if true = true then txqReg 3 7 0 else rxqReg 3 7 0) = true ∧ 8 < fld 0x80900000 23 20) ∧
    (eth.canonical = true ∧ eth.mayWrite Func.pf (if false = true then txqReg 3 7 0 else rxqReg 3 7 0) = true ∧ fld 0x80800000 23 20 ≤ 8 ∧
      false = false) ∧
    (eth.canonical = true ∧ eth.mayWrite Func.pf (if true = true then txqReg 3 7 0 else rxqReg 3 7 0) = true ∧ fld 0x80800000 23 20 ≤ 8 ∧
      true = true ∧
      (eth.store Func.pf (if true = true then txqReg 3 7 0 else rxqReg 3 7 0) 0x80800000 0).ethQ (if true = true then txqReg 3 7 0 else rxqReg 3 7 0) = true) := by
  and_intros <;> decide +kernel

theorem wit_EthTransmission :
    (sendReady.ethUp 3 = true ∧ (∀ (k : Nat), k < 8 → k ≠ 7 → sendReady.ethQ (txqReg 3 k 0) = false) ∧ sendReady.ethQ (txqReg 3 7 0) = true ∧
      (sendReady.ethPort 3).heads = [] ∧ (sendReady.ethPort 3).wire = none ∧
      leNat (sendReady.hbmRead (sendReady.ethRing (txqReg 3 7 0)) 8) ≠ leNat (sendReady.hbmRead (sendReady.ethRing (txqReg 3 7 0) + 8) 8) ∧
      14 ≤ leNat (sendReady.hbmRead (sendReady.ethRing (txqReg 3 7 0) + 64 + 32 * (leNat (sendReady.hbmRead (sendReady.ethRing (txqReg 3 7 0) + 8) 8) % sendReady.ethSize (txqReg 3 7 0)) + 8) 2) ∧
      leNat (sendReady.hbmRead (sendReady.ethRing (txqReg 3 7 0) + 64 + 32 * (leNat (sendReady.hbmRead (sendReady.ethRing (txqReg 3 7 0) + 8) 8) % sendReady.ethSize (txqReg 3 7 0)) + 8) 2) + 4 ≤ sendReady.ethMax 3 ∧
      sendReady.regCheck (sendReady.ethOwner (txqReg 3 7 0)) true (sendReady.ethRing (txqReg 3 7 0)) 64 = Access.ok ∧
      sendReady.regCheck (sendReady.ethOwner (txqReg 3 7 0)) true (sendReady.ethRing (txqReg 3 7 0) + 64 + 32 * (leNat (sendReady.hbmRead (sendReady.ethRing (txqReg 3 7 0) + 8) 8) % sendReady.ethSize (txqReg 3 7 0))) 32 = Access.ok ∧
      sendReady.regCheck (sendReady.ethOwner (txqReg 3 7 0)) false (leNat (sendReady.hbmRead (sendReady.ethRing (txqReg 3 7 0) + 64 + 32 * (leNat (sendReady.hbmRead (sendReady.ethRing (txqReg 3 7 0) + 8) 8) % sendReady.ethSize (txqReg 3 7 0))) 8)) (leNat (sendReady.hbmRead (sendReady.ethRing (txqReg 3 7 0) + 64 + 32 * (leNat (sendReady.hbmRead (sendReady.ethRing (txqReg 3 7 0) + 8) 8) % sendReady.ethSize (txqReg 3 7 0)) + 8) 2)) = Access.ok ∧
      (ethType (sendReady.hbmRead 0x2000 60)).1 ≠ 0x8808 ∧ (ethType (sendPause.hbmRead 0x2000 60)).1 = 0x8808 ∧ sendPause.canonical = true ∧
      tbit (w32 (leNat (sendReady.hbmRead (sendReady.ethRing (txqReg 3 7 0) + 64 + 32 * (leNat (sendReady.hbmRead (sendReady.ethRing (txqReg 3 7 0) + 8) 8) % sendReady.ethSize (txqReg 3 7 0)) + 10) 1))) 0 = false ∧
      leNat (sendReady.hbmRead (sendReady.ethRing (txqReg 3 7 0) + 64 + 32 * (leNat (sendReady.hbmRead (sendReady.ethRing (txqReg 3 7 0) + 8) 8) % sendReady.ethSize (txqReg 3 7 0)) + 8) 2) ≤ 0x10000) ∧
    (sBoundary.ethUp 3 = true ∧ (sBoundary.ethPort 3).heads = [(7, aHead none)] ∧ (sBoundary.ethPort 3).wire = none ∧
      (sBoundary.ethPort 3).fwd = [] ∧ (aHead none).gated = false ∧ (aHead none).launch = none) ∧
    (sLaunch1.ethUp 3 = true ∧ (sLaunch1.ethPort 3).heads = [(7, aHead (some 0))] ∧ (sLaunch1.ethPort 3).wire = none ∧
      (sLaunch1.ethPort 3).fwd = [] ∧ (aHead (some 0)).gated = false ∧ (aHead (some 0)).launch = some 0 ∧ 0 ≤ sLaunch1.lateness 0 ∧
      sLaunch1.lateness 0 ≤ (BitVec.toNat (sLaunch1.rd (mpReg (0x144 + 32 * 3))))) ∧
    (lateHead.ethUp 3 = true ∧ (lateHead.ethPort 3).heads = [(7, aHead (some 0))] ∧ (lateHead.ethPort 3).wire = none ∧
      (lateHead.ethPort 3).fwd = [] ∧ (aHead (some 0)).gated = false ∧ (aHead (some 0)).launch = some 0 ∧ 0 ≤ lateHead.lateness 0 ∧
      (BitVec.toNat (lateHead.rd (mpReg (0x144 + 32 * 3)))) < lateHead.lateness 0) ∧
    (forwards8.ethUp 3 = true ∧ (forwards8.ethPort 3).wire = none ∧ (forwards8.ethPort 3).fwd = [aFwd] ∧
      ptpType aFwd.frame ((ptpAt aFwd.frame).getD 0) = 8) ∧
    ((onWire.ethPort 3).wire = some (some 7, 0x1040, 5, frame 144 0) ∧ ptpAt (frame 144 0) = none ∧
      offWire.regCheck (onWire.ethOwner (txqReg 3 7 0)) true 0x1040 32 = Access.ok ∧
      offWire.regCheck (onWire.ethOwner (txqReg 3 7 0)) true (onWire.ethRing (txqReg 3 7 0)) 64 = Access.ok) := by
  and_intros <;> decide +kernel

theorem wit_CanModes :
    (sCanInit.mayWrite Func.pf (cfReg 7 64) = true ∧ fld 0 31 30 = 0) ∧
    (sCanNormal.mayWrite Func.pf (cfReg 7 64) = true ∧ fld 0x40000000 31 30 = 1 ∧ sCanNormal.timingOk 7 = true) ∧
    (sCanNormal.mayWrite Func.pf (cfReg 7 64) = true ∧ fld 0x80000000 31 30 = 2 ∧ sCanNormal.timingOk 7 = true) ∧
    (sCanInit.mayWrite Func.pf (cfReg 7 64) = true ∧ fld 0xC0000000 31 30 = 3 ∧ sCanInit.timingOk 7 = true ∧ sCanInit.cfPending 7 = 0 ∧
      (sCanInit.cf 7).fifo = []) ∧
    (sCanSleep2.mayWrite Func.pf (cfReg 7 64) = true ∧ fld 0xC0000000 31 30 = 3 ∧ sCanSleep2.timingOk 7 = true ∧ sCanSleep2.cfPending 7 ≠ 0) ∧
    (up.mayWrite Func.pf (cfReg 7 64) = true ∧ fld 0x40000000 31 30 ≠ 0 ∧ up.timingOk 7 = false) ∧
    (sCanWake.canonical = true ∧ mapWf canDflt sCanWake.can = true ∧ sCanWake.cfOn 7 = true ∧ sCanWake.cfMode 7 = 3 ∧
      sCanWake.rb (cfReg 7 64) 25 = false) ∧
    (sRecover1.canonical = true ∧ mapWf canDflt sRecover1.can = true ∧ sRecover1.mayWrite Func.pf (cfReg 7 80) = true ∧ (sRecover1.cf 7).off = true) ∧
    (sCanInit.canonical = true ∧ mapWf canDflt sCanInit.can = true ∧ sCanInit.mayWrite Func.pf (cfReg 7 80) = true ∧ (sCanInit.cf 7).off = false) ∧
    (sRecovered.canonical = true ∧ mapWf canDflt sRecovered.can = true ∧ (sRecovered.cf 7).off = true ∧ (sRecovered.cf 7).counting = true) ∧
    (sCanInit.canonical = true ∧ mapWf canDflt sCanInit.can = true ∧ sCanInit.cfOn 7 = true ∧ sCanInit.cfMode 7 = 1) := by
  and_intros <;> decide +kernel

theorem wit_CanBuffers :
    (sCanInit.mayWrite Func.pf (cfReg 7 80) = true ∧ sCanInit.cfFifo 7 = false ∧ (sCanInit.cf 7).busy ≠ some 2) ∧
    (sTxbAbort2.mayWrite Func.pf (cfReg 7 80) = true ∧ sTxbAbort2.cfFifo 7 = false ∧ (sTxbAbort2.cf 7).busy = some 2) ∧
    (sPush1.mayWrite Func.pf (cfReg 7 80) = true ∧ sPush1.cfFifo 7 = true ∧ (sPush1.cf 7).fifo.length < 32) ∧
    (sPush2.mayWrite Func.pf (cfReg 7 80) = true ∧ sPush2.cfFifo 7 = true ∧ 32 ≤ (sPush2.cf 7).fifo.length) ∧
    (sPush1.mayWrite Func.pf (cfReg 7 80) = true ∧ sPush1.cfFifo 7 = true ∧ (sPush1.cf 7).busy = none) ∧
    (sFlush2.mayWrite Func.pf (cfReg 7 80) = true ∧ sFlush2.cfFifo 7 = true ∧ (sFlush2.cf 7).busy ≠ none) ∧
    (sPop1.mayWrite Func.pf (cfReg 7 80) = true ∧ (sPop1.cf 7).shadow = none) ∧
    (sPop2.mayWrite Func.pf (cfReg 7 80) = true ∧ (sPop2.cf 7).shadow = some aRx) ∧
    (sArb1.canonical = true ∧ mapWf canDflt sArb1.can = true ∧ sArb1.cfSends 7 = true ∧ (sArb1.cf 7).busy = none ∧ sArb1.cfFifo 7 = true ∧
      (sArb1.cf 7).fifo ≠ []) ∧
    (sArb2.canonical = true ∧ mapWf canDflt sArb2.can = true ∧ sArb2.cfSends 7 = true ∧ (sArb2.cf 7).busy = none ∧ sArb2.cfFifo 7 = false ∧
      sArb2.cfPending 7 = 2 ^ 2) ∧
    (sArb3.canonical = true ∧ mapWf canDflt sArb3.can = true ∧ sArb3.cfSends 7 = true ∧ (sArb3.cf 7).busy = none ∧ sArb3.cfFifo 7 = false ∧
      sArb3.cfPending 7 = 3) ∧
    (sSent.canonical = true ∧ mapWf canDflt sSent.can = true ∧ (sSent.cf 7).busy = some 2 ∧ sSent.cfFifo 7 = false ∧ sSent.rb (cfReg 7 64) 28 = false ∧
      (sSent.rb (cfReg 7 0x48) 13 = false ∨ 200 ≤ 160)) ∧
    (sSsp.canonical = true ∧ mapWf canDflt sSsp.can = true ∧ (sSsp.cf 7).busy = some 2 ∧ sSsp.cfFifo 7 = false ∧
      (sSsp.blockFrame 7 (0x100 + 0x80 * 2)).fdf = true ∧ (sSsp.blockFrame 7 (0x100 + 0x80 * 2)).brs = true ∧ tbit (sSsp.rd (cfReg 7 0x48)) 13 = true ∧
      160 ≤ 160 ∧ 160 < 161 ∧ 2 ∉ (sSsp.cf 7).aborts ∧ (sSsp.cf 7).tec + 8 ≤ 255) ∧
    (canFilter.canonical = true ∧ mapWf canDflt canFilter.can = true ∧ canFilter.cfOn 7 = true ∧ (canFilter.cfMode 7 = 1 ∨ canFilter.cfMode 7 = 2) ∧
      (canFilter.cf 7).off = false ∧ aFrame.fdf = false ∧ (canFilter.cf 7).busy = none ∧ (canFilter.cf 7).rec_ ≤ 127 ∧
      List.find? (fun k => canFilter.fltHit 7 k aFrame) (List.range 32) = some 31 ∧ (canFilter.cf 7).rx.length < 64) ∧
    (sError1.canonical = true ∧ mapWf canDflt sError1.can = true ∧ sError1.cfOn 7 = true ∧ (sError1.cfMode 7 = 1 ∨ sError1.cfMode 7 = 2) ∧
      (sError1.cf 7).off = false ∧ (sError1.cf 7).tec + 8 ≤ 255) ∧
    (sError2.canonical = true ∧ mapWf canDflt sError2.can = true ∧ sError2.cfOn 7 = true ∧ (sError2.cfMode 7 = 1 ∨ sError2.cfMode 7 = 2) ∧
      (sError2.cf 7).off = false ∧ 255 < (sError2.cf 7).tec + 8) ∧
    (sArb2.canonical = true ∧ mapWf canDflt sArb2.can = true ∧ sArb2.cfFifo 7 = false ∧ 2 < 3 ∧ sArb2.cfPending 7 >>> 2 % 2 = 1) ∧
    (sPush2.canonical = true ∧ mapWf canDflt sPush2.can = true ∧ sPush2.cfFifo 7 = true ∧ 31 < (sPush2.cf 7).fifo.length) ∧
    (sRxTime.canonical = true ∧ mapWf canDflt sRxTime.can = true ∧ sRxTime.rb (cfReg 7 (0x400 + 16 * 31)) 31 = true ∧
      sRxTime.rf (cfReg 7 (0x408 + 16 * 31)) 15 0 ≠ 0) := by
  and_intros <;> decide +kernel

theorem wit_I2cTransfers :
    (sI2c1.canonical = true ∧ sI2c1.mayWrite Func.pf (icReg 1 72) = true ∧ sI2c1.blkOn (icPage 1) = true ∧ sI2c1.icFenced 1 = true) ∧
    (sI2c2.canonical = true ∧ sI2c2.mayWrite Func.pf (icReg 1 72) = true ∧ sI2c2.blkOn (icPage 1) = true ∧ sI2c2.icFenced 1 = false ∧
      sI2c2.rb (icReg 1 76) 30 = true) ∧
    (i2c.canonical = true ∧ i2c.mayWrite Func.pf (icReg 1 72) = true ∧ i2c.blkOn (icPage 1) = true ∧ i2c.icFenced 1 = false ∧
      i2c.rb (icReg 1 76) 30 = false ∧ (i2c.ic 1).run = none ∧ i2c.sensors 1 = [] ∧ mapWf dflt i2c.i2c = true) ∧
    (i2cRuns.canonical = true ∧ (i2cRuns.ic 1).run = some I2cOwner.host ∧ mapWf dflt i2cRuns.i2c = true ∧ (i2cRuns.ic 1).hostWaits = false ∧
      i2cRuns.sensors 1 = []) ∧
    (i2cRuns.canonical = true ∧ (i2cRuns.ic 1).run = some I2cOwner.host ∧ mapWf dflt i2cRuns.i2c = true) ∧
    (i2cRuns.canonical = true ∧ (i2cRuns.ic 1).run ≠ none) ∧
    (sI2c1.canonical = true ∧ sI2c1.icFenced 1 = true) ∧
    (sBusStuck.canonical = true ∧ (sBusStuck.ic 1).watch = true) ∧
    (i2c.canonical = true ∧ (∀ (r : Nat × Word), r ∈ [(0, 0)] → r.snd = (0 : Word))) ∧
    (regulated.canonical = true ∧ (1 : Word) ≠ (0 : Word) ∧ regulated.rb (rga 6 (128 + 4 * 7)) 31 = true ∧ regulated.rf (rga 6 (128 + 4 * 7)) 3 0 ≠ 0 ∧
      regulated.alarm (60 + 7) = false) := by
  and_intros <;> decide +kernel

theorem wit_DeadlineSlots :
    (sHold.canonical = true ∧ sHold.rb (slotStat 63) 2 = true) ∧
    (sHold.canonical = true ∧ sHold.mayWrite Func.pf (rga 8 (0x10C + 16 * 63)) = true ∧ sHold.rb (slotStat 63) 0 = false ∧
      sHold.rb (slotStat 63) 2 = true) ∧
    (slotSeen.canonical = true ∧ slotSeen.mayWrite Func.pf (rga 8 (0x10C + 16 * 63)) = true ∧ slotSeen.rb (slotStat 63) 0 = true ∧
      slotSeen.rb (slotStat 63) 1 = true ∧ slotSeen.drv.seen.getLsbD 63 = true) ∧
    (safe.mayWrite Func.pf (rga 8 64) = true ∧ safe.allSafe = true ∧ safe.rb aWdStat 29 = false ∧
      (∀ (t : Nat), t < 8 → safe.tnState t = 0 ∨ safe.tnState t = 3)) ∧
    (sSoftReset3.mayWrite Func.pf (rga 8 64) = true ∧ sSoftReset3.allSafe = false) := by
  and_intros <;> decide +kernel

/-- Its two start-up clauses. -/
theorem wit_DeadlineSlots_start :
    (starting.mayWrite Func.pf (rga 8 64) = true ∧ starting.ost.diagOnDemand = false ∧ starting.stage = 2) ∧
    (starting.startLedger false []).badRow (starting.ost.cold && false) = none := by
  refine ⟨?_, bare_badRow _ (bare_startLedger _ ⟨rfl, rfl, rfl⟩)⟩
  and_intros <;> decide +kernel

theorem wit_RegionTable :
    (2 ≠ 0 ∧ up.mayWrite Func.pf (regCfg 127 + 4 * 2) = true ∧ up.rb (regCfg 127) 31 = false) ∧
    (2 ≠ 0 ∧ sRegion2.mayWrite Func.pf (regCfg 127 + 4 * 2) = true ∧ sRegion2.rb (regCfg 127) 31 = true) ∧
    (up.mayWrite Func.pf (regCfg 127) = true ∧ 9 ≤ fld 0x80900000 23 20) ∧
    (up.mayWrite Func.pf (regCfg 127) = true ∧ fld 0x800000 23 20 < 9 ∧ up.rb (regCfg 127) 31 = false ∧ tbit 0x800000 31 = false) ∧
    (overlapping.mayWrite Func.pf (regCfg 127) = true ∧ fld 0x80800000 23 20 < 9 ∧ overlapping.rb (regCfg 127) 31 = false ∧
      tbit 0x80800000 31 = true ∧
      (∃ o, o < 128 ∧ o ≠ 127 ∧ overlapping.rb (regCfg o) 31 = true ∧ BitVec.toNat (overlapping.rd (regBase o)) ≤ BitVec.toNat (overlapping.rd (regBase 127)) + BitVec.toNat (overlapping.rd (regSize 127)) ∧ BitVec.toNat (overlapping.rd (regBase 127)) ≤ BitVec.toNat (overlapping.rd (regBase o)) + BitVec.toNat (overlapping.rd (regSize o)))) ∧
    (sRegion6.mayWrite Func.pf (regCfg 127) = true ∧ fld 0x80800000 23 20 < 9 ∧ sRegion6.rb (regCfg 127) 31 = false ∧ tbit 0x80800000 31 = true ∧
      sRegion6.regOverlaps 127 = false ∧ sRegion6.hbmUnits < BitVec.toNat (sRegion6.rd (regBase 127)) + BitVec.toNat (sRegion6.rd (regSize 127)) + 1) ∧
    (sRegion7.mayWrite Func.pf (regCfg 127) = true ∧ fld 0x80800000 23 20 < 9 ∧ sRegion7.rb (regCfg 127) 31 = false ∧ tbit 0x80800000 31 = true ∧
      sRegion7.regOverlaps 127 = false ∧ BitVec.toNat (sRegion7.rd (regBase 127)) + BitVec.toNat (sRegion7.rd (regSize 127)) + 1 ≤ sRegion7.hbmUnits) ∧
    (sRegion8.mayWrite Func.pf (regCfg 127) = true ∧ fld 0 23 20 < 9 ∧ sRegion8.rb (regCfg 127) 31 = true ∧ 8 ≤ sRegion8.rf (regCfg 127) 23 20) ∧
    (sRegion9.mayWrite Func.pf (regCfg 127) = true ∧ fld 0 23 20 < 9 ∧ sRegion9.rb (regCfg 127) 31 = true ∧ sRegion9.rf (regCfg 127) 23 20 < 8 ∧
      (tbit 0 31 = true ∧ fld 0 23 20 = sRegion9.rf (regCfg 127) 23 20 ∧ tbit 0 30 = sRegion9.rb (regCfg 127) 30 ∨ sRegion9.tnFree (sRegion9.rf (regCfg 127) 23 20) = true)) ∧
    (sRegion10.mayWrite Func.pf (regCfg 127) = true ∧ fld 0 23 20 < 9 ∧ sRegion10.rb (regCfg 127) 31 = true ∧ sRegion10.rf (regCfg 127) 23 20 < 8 ∧
      (tbit 0 31 = false ∨ fld 0 23 20 ≠ sRegion10.rf (regCfg 127) 23 20 ∨ tbit 0 30 ≠ sRegion10.rb (regCfg 127) 30) ∧
      sRegion10.tnFree (sRegion10.rf (regCfg 127) 23 20) = false) := by
  and_intros <;> decide +kernel

theorem wit_Attestation :
    (sAtt1.canonical = true ∧ sAtt1.mayWrite Func.pf (rga 9 0x128) = true ∧ sAtt1.rb (rga 9 0x12C) 30 = false ∧ sAtt1.attAddr % 64 ≠ 0) ∧
    (sAtt2.canonical = true ∧ sAtt2.mayWrite Func.pf (rga 9 0x128) = true ∧ sAtt2.rb (rga 9 0x12C) 30 = false ∧ sAtt2.attAddr % 64 = 0 ∧
      sAtt2.regCheck 8 true sAtt2.attAddr 0x160 = Access.ok) ∧
    (sAtt3.canonical = true ∧ sAtt3.mayWrite Func.pf (rga 9 0x128) = true ∧ sAtt3.rb (rga 9 0x12C) 30 = false ∧ sAtt3.attAddr % 64 = 0 ∧
      sAtt3.regCheck 8 true sAtt3.attAddr 0x160 = Access.bounds 0) ∧
    (sAtt4.canonical = true ∧ sAtt4.rb (rga 9 0x12C) 30 = true) := by
  and_intros <;> decide +kernel

theorem wit_MailboxQueries :
    (sInfo.canonical = true ∧ sInfo.ost.cmd = some 1) ∧
    (sLogRead1.canonical = true ∧ sLogRead1.ost.cmd = some 2 ∧ (sLogRead1.omArg 1 = 0 ∨ 32 < sLogRead1.omArg 1)) ∧
    (sLogRead2.canonical = true ∧ sLogRead2.ost.cmd = some 2 ∧ 0 < sLogRead2.omArg 1 ∧ sLogRead2.omArg 1 ≤ 32) ∧
    (sSensors.canonical = true ∧ sSensors.ost.cmd = some 14) ∧
    (sTimeout.canonical = true ∧ sTimeout.ost.cmd = some 3) ∧
    (sMgmtRead1.ost.cmd = some 10 ∧ mgmtOffset (sMgmtRead1.omArg 0) = false) ∧
    (sMgmtRead2.ost.cmd = some 10 ∧ mgmtOffset (sMgmtRead2.omArg 0) = true) ∧
    (sMgmtWrite1.ost.cmd = some 11 ∧ mgmtOffset (sMgmtWrite1.omArg 0) = false) ∧
    (sMgmtWrite2.ost.cmd = some 11 ∧ 64 ≤ 0xFFC ∧ 0xFFC < 0x1000 ∧ 0xFFC % 4 = 0 ∧ sMgmtWrite2.omArg 0 = rga (porPage 7) 0xFFC) ∧
    (sFence1.ost.cmd = some 12 ∧ unitPage (sFence1.omArg 0) = some 0x150 ∧ pageId 0x150 = some (pg 0x150) ∧ (pg 0x150).block.tensorSide = true ∧ sFence1.blk 0x150 ≠ 0) ∧
    (sFence3.ost.cmd = some 12 ∧ unitPage (sFence3.omArg 0) = some 0x150 ∧ pageId 0x150 = some (pg 0x150) ∧ (pg 0x150).block.tensorSide = true ∧
      sFence3.blk 0x150 = 0) ∧
    (sFence2.ost.cmd = some 12 ∧ unitPage (sFence2.omArg 0) = some 0x400 ∧ pageId 0x400 = some (pg 0x400) ∧ (pg 0x400).block.tensorSide = false) ∧
    (sUnfence1.ost.cmd = some 13 ∧ unitPage (sUnfence1.omArg 0) = some 0x150 ∧ sUnfence1.blk 0x150 = 4) ∧
    (sUnfence2.ost.cmd = some 13 ∧ unitPage (sUnfence2.omArg 0) = some 0x150 ∧ sUnfence2.blk 0x150 ≠ 4) := by
  and_intros <;> decide +kernel

theorem wit_FirmwareCommands :
    (1 = sErase1.idleSlot ∧ sErase1.ledger.queue = [] ∧ sErase1.ledger.prog = none ∧ sErase1.ost.cmd = some 3 ∧ sErase1.slotState 1 ≠ 3 ∧
      200 ≤ sErase1.holdup) ∧
    (1 = sTimeout.idleSlot ∧ sTimeout.ledger.queue = [] ∧ sTimeout.ledger.prog = none ∧ sTimeout.ost.cmd = some 3 ∧ sTimeout.slotState 1 ≠ 3 ∧
      sTimeout.holdup < 200) ∧
    (1 = sWrite.idleSlot ∧ sWrite.ledger.queue = [] ∧ sWrite.ledger.prog = none ∧ sWrite.ost.cmd = some 4 ∧ sWrite.slotState 1 ≠ 3 ∧
      sWrite.omArg 0 % 0x100 = 0 ∧ sWrite.omLen % 0x100 = 0 ∧ 0 < sWrite.omLen ∧ sWrite.omLen ≤ 0x400 ∧ sWrite.omArg 0 + sWrite.omLen ≤ 2 ^ 20) ∧
    (1 = sVerify.idleSlot ∧ sVerify.ledger.queue = [] ∧ sVerify.ledger.prog = none ∧ sVerify.ost.cmd = some 5 ∧ sVerify.slotState 1 ≠ 3 ∧
      200 ≤ sVerify.holdup) ∧
    (1 = sActivate1.idleSlot ∧ sActivate1.ledger.queue = [] ∧ sActivate1.ledger.prog = none ∧ sActivate1.ost.cmd = some 6 ∧
      sActivate1.slotState 1 ≠ 3 ∧ sActivate1.ost.verified = false) ∧
    (1 = sActivate2.idleSlot ∧ sActivate2.ledger.queue = [] ∧ sActivate2.ledger.prog = none ∧ sActivate2.ost.cmd = some 6 ∧
      sActivate2.slotState 1 ≠ 3 ∧ sActivate2.ost.verified = true ∧ 200 ≤ sActivate2.holdup) ∧
    (1 = sConfirm1.idleSlot ∧ sConfirm1.ledger.queue = [] ∧ sConfirm1.ledger.prog = none ∧ sConfirm1.ost.cmd = some 7 ∧
      sConfirm1.slotState sConfirm1.ost.running = 2 ∧ sConfirm1.slotState (1 - sConfirm1.ost.running) ≠ 3 ∧
      sConfirm1.fwRollback sConfirm1.ost.running ≤ BitVec.toNat (sConfirm1.ledVal 4) ∧ 200 ≤ sConfirm1.holdup) ∧
    (1 = sConfirm2.idleSlot ∧ sConfirm2.ledger.queue = [] ∧ sConfirm2.ledger.prog = none ∧ sConfirm2.ost.cmd = some 7 ∧
      sConfirm2.slotState sConfirm2.ost.running ≠ 2) ∧
    (1 = sTrial.idleSlot ∧ sTrial.ledger.queue = [] ∧ sTrial.ledger.prog = none ∧ sTrial.ost.trialOn = true ∧ 200 ≤ sTrial.holdup) := by
  and_intros <;> decide +kernel

theorem wit_LedgerWrites :
    (sLedger1.ost.cmd = some 8 ∧ ledgerWritable (sLedger1.omArg 0) = false) ∧
    (sLedger2.ost.cmd = some 8 ∧ sLedger2.ledger.queue = [] ∧ sLedger2.ledger.prog = none ∧ 0x900 ≤ sLedger2.omArg 0 ∧ sLedger2.omArg 0 < 0x1000 ∧
      200 ≤ sLedger2.holdup) ∧
    (sLedger3.ost.cmd = some 8 ∧ sLedger3.ledger.queue = [] ∧ sLedger3.ledger.prog = none ∧ 0x900 ≤ sLedger3.omArg 0 ∧ sLedger3.omArg 0 < 0x1000 ∧
      sLedger3.holdup < 200) ∧
    (sRoster1.ost.cmd = some 9 ∧ 64 ≤ sRoster1.omArg 0) ∧
    (sRoster2.ost.cmd = some 9 ∧ sRoster2.omArg 0 < 64 ∧ sRoster2.ledger.queue = [] ∧ sRoster2.ledger.prog = none ∧ 200 ≤ sRoster2.holdup) ∧
    (sDequeue1.ledger.prog = none ∧ sDequeue1.ledger.queue = [exemptWrite] ∧ (exemptWrite.exempt = true ∨ 200 ≤ sDequeue1.holdup)) ∧
    (sDequeue2.ledger.prog = none ∧ sDequeue2.ledger.queue = [plainWrite] ∧ plainWrite.exempt = false ∧ sDequeue2.holdup < 200) ∧
    ((failing).ledger.prog = some exemptWrite ∧ exemptWrite.exempt = true) ∧
    (programming.ledger.prog = some plainWrite ∧ mapWf dfltW programming.ledger.ram = true) ∧
    (255 = sScan1.ledger.scan ∧ readRow (sScan1.lrow 255) = RowRead.used emptyCopy) ∧
    (255 = sScan2.ledger.scan ∧ readRow (sScan2.lrow 255) = RowRead.repair emptyCopy) ∧
    (255 = sScan3.ledger.scan ∧ readRow (sScan3.lrow 255) = RowRead.lost) ∧
    (sScan4.canonical = true ∧ sScan4.lrow 255 = ⟨emptyCopy, emptyCopy⟩ ∧ emptyCopy.good = true ∧ mapWf dflt sScan4.ledger.rows = true) ∧
    (logging.log.page = [lostRec] ∧ logging.log.fifo.length ≤ 8 ∧ logging.log.counts = [0, 0, 0, 0, 0, 0, 0] ∧ logging.log.nextSeq % 0x800 ≠ 0) := by
  and_intros <;> decide +kernel

theorem wit_UnitFences :
    (instPages 0x150 = some (0x150, 16, pg 0x150) ∧ fenceOn = mapGet dflt sLift1.ost.fences 0x150 ∧ fenceOn.active = true ∧ fenceOn.sticky = false ∧
      sLift1.blk 0x150 ≠ 0) ∧
    (fenceHeld = mapGet dflt sLift2.ost.fences 0x150 ∧ fenceHeld.active = true ∧ fenceHeld.sticky = true ∧ sLift2.blk 0x150 ≠ 0) ∧
    (fenceOff = mapGet dflt sUnitOff.ost.fences 0x150 ∧ sUnitOff.blk 0x150 = 0) ∧
    ((pg 0x150).block.tensorSide = true ∧ fenceOff = mapGet dflt sCompare1.ost.fences 0x150 ∧ sCompare1.blk 0x150 = 2 ∧
      sCompare1.holdsWork (pg 0x150) = false) ∧
    (mapGet (fun _ => false) up.ost.mismatch 0x150 = false) ∧
    (fenceOff = mapGet dflt mismatched.ost.fences 0x150 ∧ mapGet (fun _ => false) mismatched.ost.mismatch 0x150 = true) := by
  and_intros <;> decide +kernel

/-- Its clauses on temperatures: implausible with and without the alarm, below and at the throttle, at a trip, and the Control sensors. -/
theorem wit_SensorSamples_thermal :
    (up.canonical = true ∧ (0x961 < (-880) ∨ 2400 < 0x961) ∧ 31 ≠ 28 ∧ 31 ≠ 29 ∧ up.alarm 31 = false ∧ (up.setAlarm 31 true).alarm 31 = true) ∧
    ((-880 : Int) ≤ -880 ∧ (-880 : Int) ≤ 2400 ∧ ((-880 :: up.samples 31).take 8).sum / (((-880 :: up.samples 31).take 8).length : Int) = -880 ∧
      (-32768 : Int) ≤ -880 ∧ (-880 : Int) ≤ 32767 ∧ -880 < up.trip 31 ∧ -880 < up.throttle 31) ∧
    (sThermal3.canonical = true ∧ ((999 :: sThermal3.samples 31).take 8).sum / (((999 :: sThermal3.samples 31).take 8).length : Int) = 999 ∧
      999 < sThermal3.trip 31 ∧ sThermal3.throttle 31 ≤ 999 ∧ sThermal3.alarm 31 = false ∧ (sThermal3.setAlarm 31 true).alarm 31 = true) ∧
    (((2400 :: up.samples 31).take 8).sum / (((2400 :: up.samples 31).take 8).length : Int) = 2400 ∧ up.trip 31 ≤ 2400) ∧
    ((29 = 28 ∨ 29 = 29) ∧ toS 16 (up.rf (rga 7 0x148) 15 0) ≤ 2400) := by
  and_intros <;> decide +kernel

/-- Its clauses on rails, regulators and the hold-up capacitor. -/
theorem wit_SensorSamples_rails :
    (sRail1.canonical = true ∧ 2 ≤ 2 ∧ ((sRail1.addSample (40 + 2) 4 800).samples (40 + 2)) = [800] ∧ (sRail1.rf (rga 6 76) 23 12 - 50) * 1 ≤ 800 ∧
      800 ≤ (sRail1.rf (rga 6 76) 23 12 + 50) * 1) ∧
    ((4 = 3 ∨ 4 = 4) ∧ (up.addSample (40 + 4) 4 841).samples (40 + 4) = [841] ∧ 840 * 1 < 841) ∧
    ((up.addSample (40 + 5) 4 840).samples (40 + 5) = [840] ∧ 760 * 1 ≤ 840 ∧ 840 ≤ 840 * 1) ∧
    (up.rb (rga 6 (128 + 4 * 7)) 31 = false) ∧
    (sPoll1.canonical = true ∧ sPoll1.rb (rga 6 (128 + 4 * 7)) 31 = true ∧
      (((sPoll1.addSample (60 + 7) 4 880).addSample (70 + 7) 4 5).addSample (80 + 7) 4 (-3)).samples (60 + 7) = [880] ∧
      sPoll1.railTarget 7 * 9 * 1 ≤ 880 * 10 ∧ 880 * 10 ≤ sPoll1.railTarget 7 * 11 * 1) ∧
    ((0xFFE : BitVec 12) ≠ 4095) := by
  and_intros <;> decide +kernel

theorem wit_VoltageAndFrequency :
    (up.ost.droopPrev = none) ∧
    (drooped.ost.droopPrev ≠ none) ∧
    (drooped.ost.droopPrev = some 0x3E8) ∧
    (sSettled.ost.rising = some 0x401 ∧ sSettled.ost.droopPrev = none) ∧
    (sSettledLow.ost.rising = some 0x401 ∧ sSettledLow.ost.droopPrev ≠ none) ∧
    (up.ost.loopOn = false ∨ up.ost.firmware = false) ∧
    (0xFFF < 4096) ∧
    (sDvfs1.ost.loopOn = true ∧ sDvfs1.ost.firmware = true ∧ sDvfs1.ost.droopPrev = none ∧ sDvfs1.pmStale = false ∧ sDvfs1.hotRel < 0 ∧
      sDvfs1.rf (rga 6 72) 9 0 * 1000 < sDvfs1.ost.powerMw ∧ sDvfs1.rf (rga 6 64) 11 0 + 25 ≤ sDvfs1.fcur ∧
      sDvfs1.fcur ≤ min (sDvfs1.rf (rga 6 68) 11 0) sDvfs1.fuses.fmax + 25) ∧
    (sSettled.ost.loopOn = true ∧ sSettled.ost.firmware = true ∧ sSettled.pmStale = false ∧ sSettled.hotRel < -80 ∧
      sSettled.ost.powerMw * 100 < sSettled.rf (rga 6 72) 9 0 * 1000 * 95 ∧
      sSettled.rf (rga 6 64) 11 0 < sSettled.fcur + 25 ∧ sSettled.fcur + 25 < min (sSettled.rf (rga 6 68) 11 0) sSettled.fuses.fmax) := by
  and_intros <;> decide +kernel

theorem wit_PowerOn :
    (up.canonical = true ∧ up.ledger.prog = none) ∧
    (State.reset.canonical = true ∧ State.reset.pins.porN = false ∧ (∀ (x : BitVec 6), x ∈ [(63 : BitVec 6)] → x = (63 : BitVec 6))) ∧
    (State.reset.canonical = true ∧ State.reset.pins.porN = false ∧ (∃ x, x ∈ [(62 : BitVec 6)] ∧ x ≠ (63 : BitVec 6))) ∧
    (sFirmware1.canonical = true ∧ sFirmware1.ost.firmware = false ∧ sFirmware1.pins.porN = true ∧ sFirmware1.stage = 1 ∧
      sFirmware1.bootOrder = [0] ∧ sFirmware1.slotState 0 = 3 ∧ bothGood.slotA = true) ∧
    (sFirmware2.canonical = true ∧ sFirmware2.ost.firmware = false ∧ sFirmware2.pins.porN = true ∧ sFirmware2.stage = 1 ∧ sFirmware2.bootOrder = []) ∧
    (railed.canonical = true ∧ railed.stage = 1 ∧ railed.ost.firmware = true ∧ railed.ost.running ≠ 2) ∧
    (up.canonical = true ∧ up.ost.cmd = none) := by
  and_intros <;> decide +kernel

theorem wit_HostLink :
    (sHostRel.canonical = true ∧ sHostRel.stage = 4) ∧
    (sTraining1.canonical = true ∧ sTraining1.stage = 3 ∧ sTraining1.ost.fieldIdBad = true) ∧
    (sTraining2.canonical = true ∧ sTraining2.stage = 3 ∧ (15 : BitVec 4) ≠ (0 : BitVec 4)) ∧
    (sFlr1.canonical = true ∧ (sFlr1.tnState 7 = 1 ∨ sFlr1.tnState 7 = 3)) ∧
    (sFlr2.canonical = true ∧ sFlr2.tnState 7 = 2) ∧
    (up.canonical = true ∧ up.tnState 7 = 0) ∧
    (sRefclk.canonical = true ∧ sRefclk.tensorOff = true) := by
  and_intros <;> decide +kernel

theorem wit_StepFront : ({ up with pending := [.timebaseChange, .logRead] } : State).pending = Instr.timebaseChange :: [.logRead] := rfl

theorem wit_StepIdle : State.reset.pending = [] := rfl

/-- A log queue and a Ledger queue at their bounds meet the invariant as well. -/
theorem wit_StepKeepsInv :
    (State.Inv State.reset.fuses.made State.reset ∧ ∃ t, step State.reset = .next t) ∧
    State.Inv up.fuses.made { up with log := { up.log with fifo := List.replicate 128 (.lost 0 []) }, ledger := { up.ledger with queue := List.replicate 16 ⟨1, 3, false⟩ } } ∧
    State.Inv up.fuses.made (latched.spWrite 5 0xFFFFFF [1]) := by
  refine ⟨⟨?_, _, rfl⟩, ?_, ?_⟩ <;> constructor <;> decide +kernel

theorem wit_MemoryFrame : (Instr.irqForce .mgmt 0x10 1).keepsMemory = true ∧ ∃ t, exec (.irqForce .mgmt 0x10 1) up = .next t := ⟨rfl, _, rfl⟩

theorem wit_ControlIsolation : (Instr.tnResWrite .pf 7 1).keepsControl = true ∧ ∃ t, exec (.tnResWrite .pf 7 1) up = .next t := ⟨rfl, _, rfl⟩

theorem wit_HostAccessFilter :
    ((Instr.lock (.vf 7) 8 1).hostWrite = some (.vf 7, rga 8 oLock) ∧ up.mayWrite (.vf 7) (rga 8 oLock) = false) ∧
    (up.mayWrite (.vf 7) (rga 0x18 0x40) = true) ∧
    (State.reset.ready = false ∧ Func.pf ≠ .mgmt ∧ pageId (rga 0x410 0x80 / 4096) = some (pg 0x410) ∧ earlyBlock (pg 0x410).block = false) := by
  and_intros <;> decide +kernel

/-- Two terms in either order, and the empty list. -/
theorem wit_GranaryOrder :
    ([Term.val true 3 5, .poison [7]] : List Term).Perm [.poison [7], .val true 3 5] ∧ ([Term.val true 3 5, .poison [7]] : List Term).length ≤ 2 ^ 24 :=
  ⟨List.Perm.swap .., by decide⟩

/-- Terms at the limit of R52 and beyond it, a shift of zero, an addition that leaves 192 bits, and an element that starts at zero. -/
theorem wit_GranarySum :
    ((0 : Int) ≤ 0 ∧ (-1 : Int) < 0) ∧
    (([.val false (2 ^ 167 - 1) (-16), .val true (2 ^ 167) (-16)] : List Term).length ≤ 2 ^ 24 ∧ 2 ^ 167 ≤ shiftTrunc (2 ^ 167) (-16 - (175 - 191)) ∧
      ¬ 2 ^ 167 ≤ shiftTrunc (2 ^ 167 - 1) (-16 - (175 - 191))) ∧
    ((2 : Int) ^ 191 - 1 < ({ acc := 2 ^ 191 - 1 } : Gran).acc + signI false (min (shiftTrunc 1 (-16 - (175 - 191))) (2 ^ 167 - 1))) ∧
    ((({} : Gran), ([] : List Nat)).2 = [] ∧ 0x0102 ∈ (elemGran 10 .int ({}, []) [⟨[(fvInt 100, fvInt 10)], 0x7800, 0x7080⟩]).2) := by
  and_intros <;> decide +kernel

/-- Both ends of the anchor, and a record at the last count that R59 allows. -/
theorem wit_RawRecords :
    ((-512 : Int) ≤ -512 ∧ (-512 : Int) ≤ 511) ∧ ((-512 : Int) ≤ 511 ∧ (511 : Int) ≤ 511) ∧
    (granMin ≤ ({ acc := granMin, count := 2 ^ 24 - 1 } : Gran).acc ∧ ({ acc := granMin, count := 2 ^ 24 - 1 } : Gran).acc ≤ granMax ∧
      ({ acc := granMin, count := 2 ^ 24 - 1 } : Gran).count + 1 ≤ 2 ^ 24) ∧
    granLoad 511 1 (({ acc := granMax } : Gran).record 511) = ({ acc := granMax }, []) := by
  and_intros <;> decide +kernel

/-! ### Ill-formed operands -/

theorem test_illformed_func : (Instr.registerWrite .px 0x40 4 0 0).wellFormed = false := rfl
theorem test_illformed_bar : (Instr.registerWrite .pf 0x04000000 4 0 0).wellFormed = false ∧ (Instr.registerWrite .pf 0x03FFFFFC 4 0 0).wellFormed = true := by
  decide
theorem test_illformed_window : (Instr.proxyAccess .pf 0x00FFFFFC none).wellFormed = false ∧ (Instr.proxyAccess .pf 0x01000000 none).wellFormed = true := by
  decide
theorem test_illformed_page : (Instr.softReset .pf 0x1FFF 1).wellFormed = false ∧ (Instr.softReset .pf 0x410 1).wellFormed = true := by decide +kernel
theorem test_illformed_arriving : (Instr.faultAck .pf 0x410 1 [(0, 0)]).wellFormed = false := by decide +kernel
theorem test_illformed_sda :
    (Instr.i2cStart .pf 0 1 (List.replicate 10 false)).wellFormed = false ∧ (Instr.i2cTransferDone 0 (List.replicate 10 false) .nackAddr).wellFormed = false := by
  decide
theorem test_illformed_straps : (Instr.porNRelease [0]).wellFormed = false ∧ (Instr.porNRelease (List.replicate 16 0)).wellFormed = true := by decide
theorem test_illformed_hash : (Instr.authDone 0 [] true).wellFormed = false := by decide
/-- 141 wrong bytes of 140, a payload of another length, 17 words in one control slot. -/
theorem test_illformed_slot :
    (Instr.dataSlot 0 { dataGood with fec := (141, 0) }).wellFormed = false ∧ (Instr.dataSlot 0 { dataGood with payload := [] }).wellFormed = false ∧
    (Instr.dataSlot 0 dataGood).wellFormed = true ∧
    (Instr.controlSlot 0 { ctlSlot with words := List.replicate 17 (0, .timesync 0) }).wellFormed = false := by decide +kernel
/-- A Tithe fault of a stage that does not exist, and one on the vector units, which Tithe does not cover (R64, R70). -/
theorem test_illformed_hardware :
    (Instr.matmul 0 (.tithe 7 0 0 0)).wellFormed = false ∧ (Instr.vectorMap 0 (.tithe 0 0 0 0)).wellFormed = false ∧
    (Instr.matmul 0 (.tithe 6 11 7 3)).wellFormed = true ∧ (Instr.queueFetch 0 (.spadUe 15 0 0)).wellFormed = false := by decide
/-- A classic frame with nine bytes, a remote frame with data, a base identifier beyond bits [28:18]. -/
theorem test_illformed_frame :
    (Instr.canFrameReceived 0 { aFrame with id := 0, dlc := 9, data := List.replicate 9 0 } 0).wellFormed = false ∧
    (Instr.canFrameReceived 0 { aFrame with rtr := true, id := 0, dlc := 1, data := [0] } 0).wellFormed = false ∧
    (Instr.canFrameReceived 0 aFrame 0).wellFormed = false ∧
    (Instr.canFrameReceived 0 { aFrame with fdf := true, brs := true, id := 0x40000, dlc := 9, data := List.replicate 12 0 } 0).wellFormed = true := by decide
/-- An odd side; coding units of 8 samples; one lost unit named twice. -/
theorem test_illformed_picture :
    (Instr.pictureDecoded 0 { badPicture with width := 3 }).wellFormed = false ∧ (Instr.pictureDecoded 0 { badPicture with unit := 8 }).wellFormed = false ∧
    (Instr.pictureDecoded 0 { badPicture with lost := [0, 0] }).wellFormed = false ∧ (Instr.pictureDecoded 0 badPicture).wellFormed = true := by decide

/-- A packet of two flits is the packet that its flits spell, without its data split lost (R173, R174). -/
theorem test_flits :
    let k := pkt .write 1 0x123456 (List.replicate 300 7)
    (packetFlits k).length = 2 ∧ packetOf (packetFlits k) = some k ∧ ((packetFlits k).map Flit.last) = [false, true] := by decide +kernel

/-! ### Single operations and steps, with values of the spec's examples -/

/-- The table gives no bits: no word spells a command. -/
theorem test_no_words : decodeTableWord 32 0xFFFFFFFF = none := rfl

/-- 02_arithmetic, the example of R52: the three terms end at 7 units with TRUNCZ; under anchor 10 group 0 saturates. -/
theorem test_granary_example :
    (elemGran 175 .int ({}, []) [⟨[(fvInt 100, fvInt 10)], 0x7800, 0x7080⟩, ⟨[(fvInt (-70), fvInt 10)], 0x7800, 0x7080⟩,
      ⟨[(fvInt 2, fvInt 10)], 0x7800, 0x7080⟩]) = ({ acc := 7, trz := true, count := 3 }, []) ∧
    (elemGran 10 .int ({}, []) [⟨[(fvInt 100, fvInt 10)], 0x7800, 0x7080⟩]).2 = [0x0102] := by decide +kernel

/-- 02_arithmetic, the example of R56: 7 units at 2^−16 in five output formats, and 5 units. -/
theorem test_rounding_example :
    [finStore 1 0x03F20000 false 7 (-16), finStore 1 0x03F10000 false 7 (-16), finStore 1 0x03EB0000 false 7 (-16), finStore 6 0 false 7 (-16),
      finStore 1 0x03F10000 false 5 (-16)].map (fun x => (x.code, x.astat)) = [(2, 0), (4, 0), (127, 2), (0x38E0, 0), (2, 0)] := by decide +kernel

/-- 04_operators, the example of R137: early and periodic renormalisation. The three values of max |h| are FP32 0.3, 0.55 and 0.02. -/
theorem test_exponent_example :
    rnNorm [0x3E99999A] false (-14) 4 16 = some (-14, 5, [4915]) ∧ rnNorm [0x3F0CCCCD] false (-14) 5 16 = some (-13, 0, [4506]) ∧
    rnNorm [0x3CA3D70A] false (-13) 15 16 = some (-18, 0, [5243]) := by decide +kernel

/-- 15_register_map, its two examples: bank 81 of SH2 is on page 3 of the engine, and the route of TH2 delivers to vector 8 of TN1. -/
theorem test_pages_example :
    (pageId (0x00123184 / 4096)).map (fun i => (i.block, i.inst, i.sub)) = some (.sheaf, 2, 3) ∧ (pageId 0x502).bind (·.src) = some 210 := by decide +kernel

/-- R455: IRQ_FORCE raises the RAW bits from the management path, and discards a write from elsewhere.  -/
theorem test_irq_force : (match exec (.irqForce .mgmt 0x10 0x20) up with | .next t => (t.rd (rga 0x10 oRaw)).toNat | _ => 0) = 0x20 := by decide +kernel
theorem test_pf_irq_force : exec (.irqForce .pf 0x10 0x20) up = .next up := by rfl

/-- An idle step is one tick (log 1). -/
theorem test_idle : (match step up with | .next t => (t.clock.tick, t.pending) | _ => (0, [])) = (up.clock.tick + 1, []) := by decide +kernel


end Sys2Proof.Tests
end

section
/-!
Plain register accesses (R10 to R13, R446): what REGISTER_WRITE and LOW_WORD_READ do at each kind of address, one equation per case, and from them the
obligation RegisterAccess.
-/
namespace Sys2Proof.Machine

variable {s : State} {f : Func} {i : PageId} {a : Nat} {v w : Word}

/-! ### Writes -/

/-- Hardware that sets no bit changes nothing. -/
@[simp] theorem State.hwSet_zero (s : State) (a : Nat) : s.hwSet a 0 = s := by
  unfold State.hwSet
  cases regRow a with
  | none => rfl
  | some r => simp

/-- A write that its function may not perform is discarded (R446, R460). -/
theorem State.localWrite_of_not_mayWrite (h : s.mayWrite f a = false) : s.localWrite f a v = s := by
  simp [State.localWrite, State.guarded, h]

/-- A permitted write at or above offset 0x40 follows the rule of the page's block. -/
theorem State.localWrite_body (hp : pageId (a / 4096) = some i) (hm : s.mayWrite f a = true) (ho : 0x40 ≤ a % 4096) :
    s.localWrite f a v = s.wrBody f i a (a % 4096) v := by
  simp [State.localWrite, State.guarded, hm, hp, Nat.not_lt.2 ho]

/-- A permitted write below offset 0x40 follows the rule of the common header. -/
theorem State.localWrite_header (hp : pageId (a / 4096) = some i) (hm : s.mayWrite f a = true) (ho : a % 4096 < 0x40) :
    s.localWrite f a v = s.wrHeader f (a / 4096) (a % 4096) v := by
  simp [State.localWrite, State.guarded, hm, hp, ho]

/-- Every register of a Porter page's body is stored by its access codes alone. -/
theorem State.wrBody_porter {o : Nat} (hb : i.block = .porter) : s.wrBody f i a o v = s.store f a v 0 := by
  unfold State.wrBody
  rw [hb]

/-- A plain store with no bit set by hardware writes one register: the writable bits from the value, less the bits written 1 among W1C (R13). -/
theorem State.store_eq_wr {r : RegRow} (hr : regRow a = some r) :
    s.store f a v 0
      = s.wr a (((s.rd a &&& ~~~s.writable f a r) ||| (v &&& s.writable f a r)) &&& ~~~(v &&& w32 r.w1c)) := by
  simp [State.store, hr]

theorem State.wr_onlyRegs (s : State) (a : Nat) (v : Word) : OnlyRegs s (s.wr a v) := rfl

/-! ### Reads -/

/-- A read that its function may not perform shows zero (R446, R460). -/
theorem State.localRead_of_not_sees (h : s.sees f a = false) : s.localRead f a = { s with rdata := 0 } := by
  unfold State.localRead
  cases pageId (a / 4096) with
  | none => rfl
  | some i => simp [h]

/-- Outside the registers of MILEPOST and CAN whose reads have effects of their own, a permitted read follows the rule of 64-bit pairs. -/
theorem State.localRead_eq_readPair (hp : pageId (a / 4096) = some i) (hs : s.sees f a = true)
    (hmile : ¬(i.block = .milepost ∧ (a % 4096 = 0x100 ∨ 0x150 ≤ a % 4096 ∧ a % 4096 < 0x1C0 ∧ a % 4096 % 0x20 = 0x10)))
    (hcan : ¬(i.block = .can ∧ 0x300 ≤ a % 4096 ∧ a % 4096 < 0x350)) :
    s.localRead f a = s.readPair f a i := by
  have hns : ¬(i.block = .milepost ∧ a % 4096 = 0x100) := fun h => hmile ⟨h.1, .inl h.2⟩
  have htx : ¬(i.block = .milepost ∧ 0x150 ≤ a % 4096 ∧ a % 4096 < 0x1C0 ∧ a % 4096 % 0x20 = 0x10) := fun h => hmile ⟨h.1, .inr h.2⟩
  unfold State.localRead
  rw [hp]
  simp only [hs, hns, htx, hcan, Bool.not_true, Bool.false_eq_true, if_false]

/-- A read of a low word latches the high word (R11). -/
theorem State.readPair_low (hl : pairLow i (a % 4096) = true) :
    s.readPair f a i = { s with
      rdata := s.shown f a
      latch := mapSet (fun _ => none) s.latch (a + 4) (some (s.view (a + 4))) } := by
  simp [State.readPair, hl]

/-- A read of a register that belongs to no pair shows it and does nothing else. -/
theorem State.readPair_single (hl : pairLow i (a % 4096) = false) (hh : a % 4096 < 4 ∨ pairLow i (a % 4096 - 4) = false) :
    s.readPair f a i = { s with rdata := s.shown f a } := by
  have hhigh : ¬(4 ≤ a % 4096 ∧ pairLow i (a % 4096 - 4) = true) := by
    rintro ⟨h4, ht⟩
    rcases hh with hlt | hf
    · omega
    · simp [hf] at ht
  simp [State.readPair, hl, hhigh]

/-- A read of a latched high word returns the latched value and ends the latch (R11). -/
theorem State.readPair_high (hl : pairLow i (a % 4096) = false) (h4 : 4 ≤ a % 4096) (hh : pairLow i (a % 4096 - 4) = true)
    (hw : mapGet (fun _ => none) s.latch a = some w) :
    s.readPair f a i = { s with
      rdata := s.filtered f a w
      latch := mapSet (fun _ => none) s.latch a none } := by
  simp [State.readPair, hl, h4, hh, hw]

/-! ### The rows -/

theorem exec_registerWrite (f : Func) (a width : Nat) (v hw : Word) (s : State) :
    exec (.registerWrite f a width v hw) s = execRegisterWrite f a width v hw s := rfl

theorem exec_lowWordRead (f : Func) (a width : Nat) (s : State) :
    exec (.lowWordRead f a width) s = execLowWordRead f a width s := rfl

/-- The registers of this module lie below the proxy window (R447). -/
theorem inWindow_eq_false (h : a < 0x01000000) : inWindow a = false := by
  simp [inWindow, Nat.not_le.2 h]

/-- A write of another width or alignment is discarded; the bits that hardware sets are set all the same (R10, log 2). -/
theorem exec_registerWrite_misaligned {width : Nat} (hw : Word) (h : width ≠ 4 ∨ a % 4 ≠ 0) :
    exec (.registerWrite f a width v hw) s = .next (s.hwSet a hw) := by
  rw [exec_registerWrite, execRegisterWrite, if_pos h]

/-- A read of another width or alignment returns zero (R10). -/
theorem exec_lowWordRead_misaligned {width : Nat} (h : width ≠ 4 ∨ a % 4 ≠ 0) :
    exec (.lowWordRead f a width) s = .next { s with rdata := 0 } := by
  rw [exec_lowWordRead, execLowWordRead, if_pos h]

/-- An aligned write below the proxy window is one of this module's registers. -/
theorem exec_registerWrite_local (hw : Word) (h4 : a % 4 = 0) (ha : a < 0x01000000) :
    exec (.registerWrite f a 4 v hw) s = .next ((s.localWrite f a v).hwSet a hw) := by
  simp [exec_registerWrite, execRegisterWrite, h4, inWindow_eq_false ha]

/-- An aligned read below the proxy window is one of this module's registers. -/
theorem exec_lowWordRead_local (h4 : a % 4 = 0) (ha : a < 0x01000000) :
    exec (.lowWordRead f a 4) s = .next (s.localRead f a) := by
  simp [exec_lowWordRead, execLowWordRead, h4, inWindow_eq_false ha]

/-- A permitted write of a Porter register changes that register, by its access codes, and nothing else (R13, R112). -/
theorem exec_registerWrite_porter {r : RegRow} (h4 : a % 4 = 0) (ha : a < 0x01000000) (hp : pageId (a / 4096) = some i)
    (ho : 0x40 ≤ a % 4096) (hb : i.block = .porter) (hr : regRow a = some r) (hm : s.mayWrite f a = true) (hs : s.regsWf) :
    ∃ t, exec (.registerWrite f a 4 v 0) s = .next t ∧ OnlyRegs s t ∧
      t.rd a = (((s.rd a &&& ~~~s.writable f a r) ||| (v &&& s.writable f a r)) &&& ~~~(v &&& w32 r.w1c)) ∧
      ∀ b, b ≠ a → t.rd b = s.rd b := by
  refine ⟨_, ?_, State.wr_onlyRegs s a _, State.rd_wr_same hs a _, fun b hb => State.rd_wr_ne hs _ hb⟩
  rw [exec_registerWrite_local 0 h4 ha, State.hwSet_zero, State.localWrite_body hp hm ho, State.wrBody_porter hb, State.store_eq_wr hr]

/-! ### The pairs of DROVER -/

/-- The low words of a DROVER page: MB_BASE_LO and TM_BASE_LO (R328). -/
theorem pairLow_drover {o : Nat} (hb : i.block = .drover) : pairLow i o = true ↔ o = 0x84 ∨ o = 0xA4 := by
  simp [pairLow, hb]

/-- A function that sees a register of a DROVER page sees every register of that page: no virtual function sees any (R446). -/
theorem State.sees_drover {b : Nat} (hp : pageId (a / 4096) = some i) (hb : i.block = .drover) (hpage : b / 4096 = a / 4096)
    (hs : s.sees f a = true) : s.sees f b = true := by
  unfold State.sees at hs ⊢
  rw [hpage, hp]
  rw [hp] at hs
  cases f with
  | vf n => simp [vfMayRead, hb] at hs
  | pf | mgmt | px => exact hs

/-- Away from MILEPOST and CAN no read has effects beyond those of its pair. -/
theorem State.localRead_drover (hp : pageId (a / 4096) = some i) (hb : i.block = .drover) (hs : s.sees f a = true) :
    s.localRead f a = s.readPair f a i :=
  State.localRead_eq_readPair hp hs (by simp [hb]) (by simp [hb])

/-- A read of the low word of a DROVER pair latches the high word. -/
theorem exec_lowWordRead_drover_low (h4 : a % 4 = 0) (ha : a < 0x01000000) (hp : pageId (a / 4096) = some i) (hb : i.block = .drover)
    (ho : a % 4096 = 0x84 ∨ a % 4096 = 0xA4) (hs : s.sees f a = true) :
    exec (.lowWordRead f a 4) s = .next { s with
      rdata := s.shown f a
      latch := mapSet (fun _ => none) s.latch (a + 4) (some (s.view (a + 4))) } := by
  rw [exec_lowWordRead_local h4 ha, State.localRead_drover hp hb hs, State.readPair_low ((pairLow_drover hb).2 ho)]

/-- A read of the latched high word of a DROVER pair returns the latched value once. -/
theorem exec_lowWordRead_drover_high (h4 : a % 4 = 0) (ha : a < 0x01000000) (hp : pageId (a / 4096) = some i) (hb : i.block = .drover)
    (ho : a % 4096 = 0x84 ∨ a % 4096 = 0xA4) (hs : s.sees f a = true) (hw : mapGet (fun _ => none) s.latch (a + 4) = some w) :
    exec (.lowWordRead f (a + 4) 4) s = .next { s with
      rdata := s.filtered f (a + 4) w
      latch := mapSet (fun _ => none) s.latch (a + 4) none } := by
  have hpage : (a + 4) / 4096 = a / 4096 := by omega
  have hoff : (a + 4) % 4096 = a % 4096 + 4 := by omega
  have hhigh : pairLow i ((a + 4) % 4096) = false := by
    rw [Bool.eq_false_iff, ne_eq, pairLow_drover hb]
    omega
  have hlow : pairLow i ((a + 4) % 4096 - 4) = true := by
    rw [hoff, Nat.add_sub_cancel, pairLow_drover hb]
    exact ho
  rw [exec_lowWordRead_local (by omega) (by omega), State.localRead_drover (hpage ▸ hp) hb (State.sees_drover hp hb hpage hs),
    State.readPair_high hhigh (by omega) hlow hw]

/-! ### The obligation -/

/-- Settles O3: each clause is the equation of its case of the two rows. -/
theorem registerAccess : Obligations.RegisterAccess := by
  unfold Obligations.RegisterAccess
  intro s f a v
  refine ⟨fun width h => ⟨?_, fun hw => exec_registerWrite_misaligned hw h, exec_lowWordRead_misaligned h⟩,
    fun h4 ha => ⟨fun hm => ?_, fun hs => ?_⟩,
    fun i hw h4 ha hp => ⟨fun hm ho => ?_, fun hm ho => ?_, fun hs hmile hcan => ⟨fun hl => ?_, fun hl hh => ?_⟩⟩,
    fun i r m h4 ha hp ho => ⟨fun hb hr hm hc hmask => ?_, fun hb hlow hs => ⟨?_, fun w hw => ?_⟩⟩⟩
  · rw [exec_registerWrite_misaligned 0 h, State.hwSet_zero]
  · rw [exec_registerWrite_local 0 h4 ha, State.localWrite_of_not_mayWrite hm, State.hwSet_zero]
  · rw [exec_lowWordRead_local h4 ha, State.localRead_of_not_sees hs]
  · rw [exec_registerWrite_local hw h4 ha, State.localWrite_body hp hm ho]
  · rw [exec_registerWrite_local hw h4 ha, State.localWrite_header hp hm ho]
  · rw [exec_lowWordRead_local h4 ha, State.localRead_eq_readPair hp hs hmile hcan, State.readPair_low hl]
  · rw [exec_lowWordRead_local h4 ha, State.localRead_eq_readPair hp hs hmile hcan, State.readPair_single hl hh]
  · subst hmask
    exact exec_registerWrite_porter h4 ha hp ho hb hr hm (State.canonical_regsWf hc)
  · exact exec_lowWordRead_drover_low h4 ha hp hb hlow hs
  · exact exec_lowWordRead_drover_high h4 ha hp hb hlow hs hw

end Sys2Proof.Machine
end

section
/-!
The sum of a Granary (R51 to R54): what one term adds in units of the least bit, what one addition does at the ends of the range, and from them the
Granary after any number of terms that stay inside it, with the obligation GranarySum.
-/
namespace Sys2Proof.Machine

/-! ### Shifts and bounds -/

/-- A shift up is a product with a power of two. -/
theorem shiftTrunc_of_nonneg (m : Nat) {s : Int} (hs : 0 ≤ s) : shiftTrunc m s = m * 2 ^ s.toNat := by
  rw [shiftTrunc, if_pos hs, Nat.shiftLeft_eq]

/-- A shift down is a quotient rounded toward zero. -/
theorem shiftTrunc_of_neg (m : Nat) {s : Int} (hs : s < 0) : shiftTrunc m s = m / 2 ^ (-s).toNat := by
  rw [shiftTrunc, if_neg (Int.not_le.2 hs), Nat.shiftRight_eq_div_pow]

/-- A value inside its bounds is kept. -/
theorem clampI_of_mem {lo hi x : Int} (hlo : lo ≤ x) (hhi : x ≤ hi) : clampI lo hi x = x := by
  rw [clampI, if_neg (Int.not_lt.2 hlo), if_neg (Int.not_lt.2 hhi)]

/-- A value is changed exactly when it lies outside its bounds. -/
theorem clampI_ne_iff {lo hi x : Int} : clampI lo hi x ≠ x ↔ x < lo ∨ hi < x := by
  unfold clampI
  split
  · omega
  · split <;> omega

/-- Limiting to an interval, in the spelling of the order's lattice operations. -/
theorem clampI_eq_max_min {lo hi : Int} (h : lo ≤ hi) (x : Int) : clampI lo hi x = max lo (min x hi) := by
  unfold clampI
  split
  · omega
  · split <;> omega

/-- A sign does not enlarge a magnitude. -/
theorem signI_bounds (neg : Bool) (m : Nat) : -(m : Int) ≤ signI neg m ∧ signI neg m ≤ m := by
  cases neg <;> simp only [signI, if_true, Bool.false_eq_true, if_false] <;> omega

/-! ### One term -/

/-- What a term adds to a Granary, in units of its least bit: truncated on its own (R51) and limited to the range of a term (R52); a poisoned term
adds a free value of that range (log 1). -/
def Term.units (anchor : Int) : Term → Int
  | .poison key => max (-(2 ^ 167 - 1)) (min (Config.poisonTerm (anchor :: key)) (2 ^ 167 - 1))
  | .val neg m e => signI neg (min (shiftTrunc m (e - (anchor - 191))) (2 ^ 167 - 1))

/-- Whether a term lies beyond the range of a term (R52). -/
def Term.tooLarge (anchor : Int) : Term → Bool
  | .poison _ => false
  | .val _ m e => decide (2 ^ 167 ≤ shiftTrunc m (e - (anchor - 191)))

/-- Whether a non-zero term truncates to zero (R54). -/
def Term.vanishes (anchor : Int) : Term → Bool
  | .poison _ => false
  | .val _ m e => shiftTrunc m (e - (anchor - 191)) == 0 && m != 0

theorem Term.units_bounds (anchor : Int) (t : Term) : -(2 ^ 167 - 1) ≤ t.units anchor ∧ t.units anchor ≤ 2 ^ 167 - 1 := by
  cases t with
  | poison key =>
    simp only [Term.units]
    omega
  | val neg m e =>
    obtain ⟨hlo, hhi⟩ := signI_bounds neg (min (shiftTrunc m (e - (anchor - 191))) (2 ^ 167 - 1))
    simp only [Term.units]
    omega

theorem exists_not_isVal_iff (ts : List Term) : (∃ t ∈ ts, (!t.isVal) = true) ↔ ∃ key, Term.poison key ∈ ts := by
  constructor
  · rintro ⟨t, ht, hv⟩
    cases t with
    | poison key => exact ⟨key, ht⟩
    | val neg m e => simp [Term.isVal] at hv
  · rintro ⟨key, hk⟩
    exact ⟨_, hk, rfl⟩

theorem exists_tooLarge_iff (anchor : Int) (ts : List Term) :
    (∃ t ∈ ts, t.tooLarge anchor = true) ↔ ∃ neg m e, Term.val neg m e ∈ ts ∧ 2 ^ 167 ≤ shiftTrunc m (e - (anchor - 191)) := by
  constructor
  · rintro ⟨t, ht, hl⟩
    cases t with
    | poison key => simp [Term.tooLarge] at hl
    | val neg m e => exact ⟨neg, m, e, ht, of_decide_eq_true hl⟩
  · rintro ⟨neg, m, e, ht, hl⟩
    exact ⟨_, ht, decide_eq_true hl⟩

theorem exists_vanishes_iff (anchor : Int) (ts : List Term) :
    (∃ t ∈ ts, t.vanishes anchor = true) ↔ ∃ neg m e, Term.val neg m e ∈ ts ∧ m ≠ 0 ∧ shiftTrunc m (e - (anchor - 191)) = 0 := by
  constructor
  · rintro ⟨t, ht, hz⟩
    cases t with
    | poison key => simp [Term.vanishes] at hz
    | val neg m e => exact ⟨neg, m, e, ht, by simpa [Term.vanishes, and_comm] using hz⟩
  · rintro ⟨neg, m, e, ht, hz⟩
    exact ⟨_, ht, by simpa [Term.vanishes, and_comm] using hz⟩

/-! ### One addition -/

/-- Whether adding a term to a Granary would carry it beyond its 192 bits (R52). -/
def Gran.carries (anchor : Int) (g : Gran) (t : Term) : Bool :=
  decide (g.acc + t.units anchor < granMin ∨ granMax < g.acc + t.units anchor)

theorem Gran.carries_iff {anchor : Int} {g : Gran} {t : Term} :
    g.carries anchor t = true ↔ g.acc + t.units anchor < -(2 ^ 191) ∨ 2 ^ 191 - 1 < g.acc + t.units anchor := decide_eq_true_iff

/-- One addition (R51 to R54): the sum saturates at the ends of the range, a term beyond its limit and a carry beyond 192 bits set SAT and raise
GRANARY_SAT, and the other flags and the count follow the term. -/
theorem Gran.add_eq (anchor : Int) (g : Gran) (t : Term) :
    g.add anchor t =
      { acc := clampI granMin granMax (g.acc + t.units anchor)
        poison := g.poison || !t.isVal
        sat := g.sat || (t.tooLarge anchor || g.carries anchor t)
        trz := g.trz || t.vanishes anchor
        count := g.count + 1
        ovf := g.ovf || (t.tooLarge anchor || g.carries anchor t) } := by
  cases t with
  | poison key =>
    have hp : clampI (-(termMax : Int)) termMax (Config.poisonTerm (anchor :: key)) = (Term.poison key).units anchor :=
      clampI_eq_max_min (by decide) _
    simp [Gran.add, hp, Gran.carries, Term.isVal, Term.tooLarge, Term.vanishes, clampI_ne_iff]
  | val neg m e =>
    have hsum : (if neg then g.acc - (min (shiftTrunc m (e - (anchor - 191))) termMax : Nat)
        else g.acc + (min (shiftTrunc m (e - (anchor - 191))) termMax : Nat)) = g.acc + (Term.val neg m e).units anchor := by
      cases neg <;> rfl
    have hbig : (termMax < shiftTrunc m (e - (anchor - 191))) = (2 ^ 167 ≤ shiftTrunc m (e - (anchor - 191))) := rfl
    have hzero : (min (shiftTrunc m (e - (anchor - 191))) termMax == 0) = (shiftTrunc m (e - (anchor - 191)) == 0) := by
      rw [Bool.eq_iff_iff, beq_iff_eq, beq_iff_eq, Nat.min_eq_zero_iff, or_iff_left (by decide)]
    simp only [Gran.add, hsum, hbig, hzero, clampI_ne_iff, Gran.carries, Term.isVal, Term.tooLarge, Term.vanishes,
      Bool.not_true, Bool.or_false]

/-! ### Many additions -/

/-- Terms that cannot carry a Granary beyond its 192 bits are added exactly (R52): the carry headroom is what is left beside ACC. -/
theorem Gran.addAll_eq_of_headroom (anchor : Int) (ts : List Term) (g : Gran)
    (h : g.acc.natAbs + ts.length * (2 ^ 167 - 1) < 2 ^ 191) :
    g.addAll anchor ts =
      { acc := g.acc + (ts.map (Term.units anchor)).sum
        poison := g.poison || ts.any (fun t => !t.isVal)
        sat := g.sat || ts.any (Term.tooLarge anchor)
        trz := g.trz || ts.any (Term.vanishes anchor)
        count := g.count + ts.length
        ovf := g.ovf || ts.any (Term.tooLarge anchor) } := by
  induction ts generalizing g with
  | nil => simp [Gran.addAll]
  | cons t ts ih =>
    obtain ⟨hlo, hhi⟩ := t.units_bounds anchor
    rw [List.length_cons] at h
    have hrange : granMin ≤ g.acc + t.units anchor ∧ g.acc + t.units anchor ≤ granMax := by
      unfold granMin granMax
      omega
    have hcarry : g.carries anchor t = false := by
      simpa [Gran.carries] using hrange
    have hadd := g.add_eq anchor t
    rw [clampI_of_mem hrange.1 hrange.2, hcarry, Bool.or_false] at hadd
    have hnext : (g.add anchor t).acc.natAbs + ts.length * (2 ^ 167 - 1) < 2 ^ 191 := by
      rw [hadd]
      simp only
      omega
    calc g.addAll anchor (t :: ts) = (g.add anchor t).addAll anchor ts := rfl
      _ = _ := by
        rw [ih _ hnext, hadd]
        simp [Int.add_assoc, Bool.or_assoc, Nat.add_assoc, Nat.add_comm 1]

/-- The 24 bits of carry headroom absorb 2^24 terms from zero (R52). -/
theorem Gran.addAll_empty (anchor : Int) {ts : List Term} (h : ts.length ≤ 2 ^ 24) :
    ({} : Gran).addAll anchor ts =
      { acc := (ts.map (Term.units anchor)).sum
        poison := ts.any (fun t => !t.isVal)
        sat := ts.any (Term.tooLarge anchor)
        trz := ts.any (Term.vanishes anchor)
        count := ts.length
        ovf := ts.any (Term.tooLarge anchor) } := by
  rw [Gran.addAll_eq_of_headroom]
  · simp
  · simp only [Int.natAbs_zero]
    omega

/-- The summing of an element that starts without a fault raises GRANARY_SAT exactly when its Granary saturated. -/
theorem granarySat_mem_elemGran {start : Gran × List Nat} (h : start.2 = []) (anchor : Int) (k : Kind) (gs : List Group) :
    0x0102 ∈ (elemGran anchor k start gs).2 ↔ (elemGran anchor k start gs).1.ovf = true := by
  simp only [elemGran, h, List.isEmpty_nil, Bool.not_true, Bool.false_eq_true, if_false, List.mem_append]
  split <;> split <;> simp_all

/-! ### The obligation -/

/-- Settles O58: the terms from zero by the carry headroom, one addition by its equation. -/
theorem granarySum : Obligations.GranarySum := by
  unfold Obligations.GranarySum
  refine ⟨fun m s => ⟨shiftTrunc_of_nonneg m, shiftTrunc_of_neg m⟩, fun anchor ts g hlen hg => ?_,
    fun anchor g t neg m e x ht hx => ?_, fun anchor k start gs h => granarySat_mem_elemGran h anchor k gs⟩
  · rw [Gran.addAll_empty anchor hlen] at hg
    subst hg
    exact ⟨rfl, rfl, List.any_eq_true.trans (exists_not_isVal_iff ts), List.any_eq_true.trans (exists_tooLarge_iff anchor ts),
      List.any_eq_true.trans (exists_vanishes_iff anchor ts)⟩
  · have hcarry : g.carries anchor (.val neg m e) = true ↔ x < -(2 ^ 191) ∨ 2 ^ 191 - 1 < x := hx ▸ Gran.carries_iff
    rw [Gran.add_eq] at ht
    subst ht hx
    refine ⟨rfl, ?_, fun hout => ?_⟩
    · simp only [Bool.or_eq_true, hcarry, Term.tooLarge, decide_eq_true_eq]
    · simp only [hcarry.2 hout, Bool.or_true]

end Sys2Proof.Machine
end

section
/-!
The region table as software writes it (R404): who reaches its registers, what a write of each register does in each state of the entry, and from
these equations the obligation RegionTable.
-/
namespace Sys2Proof.Machine

variable {s : State} {f : Func} {e : Nat} {v : Word}

/-! ### Who writes -/

/-- The registers of the region table lie in the SECURITY page. -/
theorem region_page (e : Fin 128) (r : Fin 3) : (regCfg e.val + 4 * r.val) / 4096 = 9 := by
  unfold regCfg rga
  omega

/-- No virtual function writes the region table (R446). -/
theorem State.mayWrite_region_vf (s : State) (n : Fin 8) (e : Fin 128) (r : Fin 3) : s.mayWrite (.vf n) (regCfg e.val + 4 * r.val) = false := by
  have hpage : pageId 9 = some ⟨.security, 0, 0, some 6⟩ := rfl
  unfold State.mayWrite
  rw [region_page, hpage]
  simp [vfMayWrite]

theorem exec_regionWrite (f : Func) (e : Fin 128) (r : Fin 3) (v : Word) (s : State) :
    exec (.regionWrite f e r v) s = execRegionWrite f e r v s := rfl

theorem exec_regionWrite_vf (n : Fin 8) (e : Fin 128) (r : Fin 3) : exec (.regionWrite (.vf n) e r v) s = .next s := by
  rw [exec_regionWrite, execRegionWrite, State.guarded, s.mayWrite_region_vf, if_neg Bool.false_ne_true]

/-- A permitted write follows the rule of the table. -/
theorem exec_regionWrite_permitted {e : Fin 128} {r : Fin 3} (hm : s.mayWrite f (regCfg e.val + 4 * r.val) = true) :
    exec (.regionWrite f e r v) s = .next (s.wrRegion f e.val r.val v) := by
  rw [exec_regionWrite, execRegionWrite, State.guarded, if_pos hm]

/-! ### BASE and SIZE -/

/-- BASE and SIZE are written only while the entry is not valid. -/
theorem State.wrRegion_extent {r : Nat} (hr : r ≠ 0) :
    s.wrRegion f e r v = if s.rb (regCfg e) 31 then s.regRefuse e 4 else s.store f (regCfg e + 4 * r) v 0 := by
  rw [State.wrRegion, if_pos hr]
  rfl

/-! ### CFG of an entry that is not valid -/

/-- An entry overlaps another when their spans of units, both ends included, meet. -/
theorem State.regOverlaps_iff : s.regOverlaps e = true ↔ ∃ o, o < 128 ∧ o ≠ e ∧ s.rb (regCfg o) 31 = true ∧
    (s.rd (regBase o)).toNat ≤ (s.rd (regBase e)).toNat + (s.rd (regSize e)).toNat ∧
    (s.rd (regBase e)).toNat ≤ (s.rd (regBase o)).toNat + (s.rd (regSize o)).toNat := by
  simp [State.regOverlaps, and_assoc]

theorem State.wrRegion_cfg_of_owner_ge (h : 9 ≤ fld v 23 20) : s.wrRegion f e 0 v = s.regRefuse e 4 := by
  rw [State.wrRegion, if_neg (not_not_intro rfl), if_pos h]

/-- An entry that is not valid takes any owner; it becomes valid when it overlaps no valid entry and ends within the capacity. -/
theorem State.wrRegion_cfg_of_invalid (ho : fld v 23 20 < 9) (hold : s.rb (regCfg e) 31 = false) :
    s.wrRegion f e 0 v =
      if tbit v 31 then
        if s.regOverlaps e then s.regRefuse e 1
        else if s.hbmUnits < (s.rd (regBase e)).toNat + (s.rd (regSize e)).toNat + 1 then s.regRefuse e 3
        else (s.store f (regCfg e) v 0).takeRegion e (fld v 23 20)
      else s.store f (regCfg e) v 0 := by
  replace hold : tbit (s.rd (regCfg e)) 31 = false := hold
  rw [State.wrRegion, if_neg (not_not_intro rfl), if_neg (Nat.not_le.2 ho)]
  cases tbit v 31 <;> simp [hold]

/-! ### CFG of a valid entry -/

/-- Whether a write of CFG would clear VALID or change OWNER or WRITE of a valid entry. -/
def State.cfgChanges (s : State) (e : Nat) (v : Word) : Bool :=
  !tbit v 31 || fld v 23 20 != s.rf (regCfg e) 23 20 || tbit v 30 != s.rb (regCfg e) 30

theorem State.cfgChanges_iff : s.cfgChanges e v = true ↔
    tbit v 31 = false ∨ fld v 23 20 ≠ s.rf (regCfg e) 23 20 ∨ tbit v 30 ≠ s.rb (regCfg e) 30 := by
  simp [State.cfgChanges, or_assoc]

theorem State.cfgChanges_eq_false_iff : s.cfgChanges e v = false ↔
    tbit v 31 = true ∧ fld v 23 20 = s.rf (regCfg e) 23 20 ∧ tbit v 30 = s.rb (regCfg e) 30 := by
  simp [State.cfgChanges, and_assoc]

/-- What a write of CFG that is not refused makes of a valid entry: the owner that goes leaves it, the one that comes takes it. -/
def State.reassign (s : State) (f : Func) (e : Nat) (v : Word) : State :=
  if tbit v 31 = false then (s.leaveRegion e (s.rf (regCfg e) 23 20)).store f (regCfg e) v 0
  else if fld v 23 20 = s.rf (regCfg e) 23 20 then s.store f (regCfg e) v 0
  else ((s.leaveRegion e (s.rf (regCfg e) 23 20)).store f (regCfg e) v 0).takeRegion e (fld v 23 20)

/-- A valid entry of a tenant that is not FREE keeps VALID, OWNER and WRITE; every other valid entry is reassigned. -/
theorem State.wrRegion_cfg_of_valid (ho : fld v 23 20 < 9) (hold : s.rb (regCfg e) 31 = true) :
    s.wrRegion f e 0 v =
      if s.rf (regCfg e) 23 20 < 8 ∧ s.cfgChanges e v = true ∧ s.tnFree (s.rf (regCfg e) 23 20) = false then s.regRefuse e 2
      else s.reassign f e v := by
  replace hold : tbit (s.rd (regCfg e)) 31 = true := hold
  rw [State.wrRegion, if_neg (not_not_intro rfl), if_neg (Nat.not_le.2 ho)]
  unfold State.cfgChanges State.reassign State.rf State.rb
  simp only [hold, Bool.true_and, Bool.not_true, Bool.and_false, Bool.false_and, Bool.false_or, Bool.false_eq_true, if_false]
  congr 1
  · simp [and_assoc]
  · cases tbit v 31 <;> by_cases hsame : fld v 23 20 = fld (s.rd (regCfg e)) 23 20 <;> simp [hsame]

/-- The guard of a valid entry in use by a tenant: the write is refused. -/
theorem State.wrRegion_cfg_busy (ho : fld v 23 20 < 9) (hold : s.rb (regCfg e) 31 = true) (ht : s.rf (regCfg e) 23 20 < 8)
    (hc : s.cfgChanges e v = true) (hfree : s.tnFree (s.rf (regCfg e) 23 20) = false) : s.wrRegion f e 0 v = s.regRefuse e 2 := by
  rw [State.wrRegion_cfg_of_valid ho hold, if_pos ⟨ht, hc, hfree⟩]

/-- An entry of the physical function, an unchanged entry and an entry of a FREE tenant: the write is carried out. -/
theorem State.wrRegion_cfg_reassign (ho : fld v 23 20 < 9) (hold : s.rb (regCfg e) 31 = true)
    (h : 8 ≤ s.rf (regCfg e) 23 20 ∨ s.cfgChanges e v = false ∨ s.tnFree (s.rf (regCfg e) 23 20) = true) :
    s.wrRegion f e 0 v = s.reassign f e v := by
  rw [State.wrRegion_cfg_of_valid ho hold, if_neg]
  rintro ⟨ht, hc, hfree⟩
  rcases h with h | h | h
  · exact Nat.not_le.2 ht h
  · exact absurd hc (Bool.eq_false_iff.1 h)
  · exact absurd h (Bool.eq_false_iff.1 hfree)

/-! ### The obligation -/

/-- Settles O38: each clause is the equation of its case of the table's rule. -/
theorem regionTable : Obligations.RegionTable := by
  unfold Obligations.RegionTable
  intro s e v
  refine ⟨fun n r => exec_regionWrite_vf n e r, fun f r hr hm => ⟨fun hold => ?_, fun hold => ?_⟩, fun f hm => ?_⟩
  · rw [exec_regionWrite_permitted hm, State.wrRegion_extent hr, hold, if_neg Bool.false_ne_true]
  · rw [exec_regionWrite_permitted hm, State.wrRegion_extent hr, if_pos hold, State.regRefuse]
  have hexec : exec (.regionWrite f e 0 v) s = .next (s.wrRegion f e.val 0 v) := exec_regionWrite_permitted (r := 0) hm
  rw [hexec]
  refine ⟨fun ho => ?_, fun ho hold => ⟨fun hv => ?_, fun hv hover => ?_, fun hv hover hcap => ?_, fun hv hover hcap => ?_⟩, ?_⟩
  · rw [State.wrRegion_cfg_of_owner_ge ho, State.regRefuse]
  · rw [State.wrRegion_cfg_of_invalid ho hold, hv, if_neg Bool.false_ne_true]
  · rw [State.wrRegion_cfg_of_invalid ho hold, if_pos hv, if_pos (State.regOverlaps_iff.2 hover), State.regRefuse]
  · rw [State.wrRegion_cfg_of_invalid ho hold, if_pos hv, hover, if_neg Bool.false_ne_true, if_pos hcap, State.regRefuse]
  · rw [State.wrRegion_cfg_of_invalid ho hold, if_pos hv, hover, if_neg Bool.false_ne_true, if_neg (Nat.not_lt.2 hcap)]
  rintro o w ho hold rfl rfl
  refine ⟨fun hpf => ?_, fun _ hkept => ?_, fun ht hc hfree => ?_⟩
  · rw [State.wrRegion_cfg_reassign ho hold (.inl hpf), State.reassign]
  · rw [State.wrRegion_cfg_reassign ho hold (.inr (hkept.imp_left State.cfgChanges_eq_false_iff.2)), State.reassign]
  · rw [State.wrRegion_cfg_busy ho hold ht (State.cfgChanges_iff.2 hc) hfree, State.regRefuse]

end Sys2Proof.Machine
end

section
/-!
The statements about the step as a whole: the front of the queue and the idle step, the invariant at reset and at every step, every command's next
state, what reset leaves, and the two frames (memory, control domain) of the rows that keep them.
-/
namespace Sys2Proof.Machine

/-! ### The step and its invariant -/

/-- Settles O48: the equation of the step at a queue that is not empty. -/
theorem stepFront : Obligations.StepFront := by
  unfold Obligations.StepFront
  intro s c r h
  rw [step, h]

/-- Settles O49: the equation of the step at the empty queue. -/
theorem stepIdle : Obligations.StepIdle := by
  unfold Obligations.StepIdle
  intro s h
  rw [step, h]

/-- Settles O50: nothing is listed in the tables of the reset state, and its queues are empty. -/
theorem resetInv : Obligations.ResetInv := by
  unfold Obligations.ResetInv
  exact ⟨rfl, rfl, rfl⟩

/-- Settles O51: the command at the front keeps the invariant (Laws/KeepDispatch.lean), and so does the tick (Laws/KeepTime.lean). -/
theorem stepKeepsInv : Obligations.StepKeepsInv := by
  unfold Obligations.StepKeepsInv
  intro s t made hs ht
  exact step_inv hs t ht

/-! ### Every command completes -/

theorem completes_next (t : State) : Completes (.next t) := ⟨t, rfl⟩

/-- A mailbox command completes, whether it is the one that runs or not. -/
theorem State.mailbox_completes (s : State) (op : Nat) (k : State → State) : Completes (s.mailbox op k) := by
  unfold State.mailbox
  split <;> exact completes_next _

/-- Settles O52: the meanings that are a next state at once need no step; of the others, each branch ends in one. -/
theorem everyCommandCompletes : Obligations.EveryCommandCompletes := by
  unfold Obligations.EveryCommandCompletes
  intro c s
  cases c
  case' registerWrite => change Completes (execRegisterWrite _ _ _ _ _ _); unfold execRegisterWrite
  case' lowWordRead => change Completes (execLowWordRead _ _ _ _); unfold execLowWordRead
  case' copy => change Completes (execCopy _ _); unfold execCopy
  case' porterDescriptor => change Completes (execPorterDescriptor _ _ _); unfold execPorterDescriptor
  case' arrive => change Completes (execArrive _ _); unfold execArrive
  case' wait => change Completes (execWait _ _); unfold execWait
  case' waybillWait => change Completes (execWaybillWait _ _); unfold execWaybillWait
  case' fence => change Completes (execFence _ _); unfold execFence
  case' fenceCompletion => change Completes (execFenceCompletion _ _); unfold execFenceCompletion
  case' commandCompletion => change Completes (execCommandCompletion _ _); unfold execCommandCompletion
  case' recipeCacheFill => change Completes (execRecipeCacheFill _ _ _); unfold execRecipeCacheFill
  case' queueFetch => change Completes (execQueueFetch _ _ _); unfold execQueueFetch
  case' spadClearDone => change Completes (execSpadClearDone _ _); unfold execSpadClearDone
  case' portTrainingDone => change Completes (execPortTrainingDone _ _ _ _); unfold execPortTrainingDone
  case' wiringRetry => change Completes (execWiringRetry _ _); unfold execWiringRetry
  case' authDone => change Completes (execAuthDone _ _ _ _); unfold execAuthDone
  case' epochExchange => change Completes (execEpochExchange _ _ _); unfold execEpochExchange
  case' laneLockLoss => change Completes (execLaneLockLoss _ _ _); unfold execLaneLockLoss
  case' dataSlot => change Completes (execDataSlot _ _ _); unfold execDataSlot
  case' controlSlot => change Completes (execControlSlot _ _ _); unfold execControlSlot
  case' escWaitExpiry => change Completes (execEscWaitExpiry _ _ _); unfold execEscWaitExpiry
  case' packetForward => change Completes (execPacketForward _ _ _); unfold execPacketForward
  case' writePacket => change Completes (execWritePacket _ _ _); unfold execWritePacket
  case' writeAcknowledgement => change Completes (execWriteAcknowledgement _ _ _); unfold execWriteAcknowledgement
  case' errorResponse => change Completes (execErrorResponse _ _ _); unfold execErrorResponse
  case' arrivePacket => change Completes (execArrivePacket _ _ _); unfold execArrivePacket
  case' proxyRead => change Completes (execProxyRead _ _ _); unfold execProxyRead
  case' proxyWrite => change Completes (execProxyWrite _ _ _); unfold execProxyWrite
  case' proxyReadData => change Completes (execProxyReadData _ _ _); unfold execProxyReadData
  case' proxyWriteAcknowledgement => change Completes (execProxyWriteAcknowledgement _ _ _); unfold execProxyWriteAcknowledgement
  case' proxyTimeout => change Completes (execProxyTimeout _ _); unfold execProxyTimeout
  case' fcHoldover => change Completes (execFcHoldover _); unfold execFcHoldover
  case' launchCount => change Completes (execLaunchCount _ _); unfold execLaunchCount
  case' lbArrival => change Completes (execLbArrival _ _ _ _ _); unfold execLbArrival
  case' lbTimeout => change Completes (execLbTimeout _ _); unfold execLbTimeout
  case' lbRelease => change Completes (execLbRelease _ _ _ _ _); unfold execLbRelease
  case' lbSelfRelease => change Completes (execLbSelfRelease _ _); unfold execLbSelfRelease
  case' lbFire => change Completes (execLbFire _ _); unfold execLbFire
  case' abortDone => change Completes (execAbortDone _ _ _); unfold execAbortDone
  case' tallyArrival => change Completes (execTallyArrival _ _); unfold execTallyArrival
  case' carryRelease => change Completes (execCarryRelease _ _); unfold execCarryRelease
  case' barrierTimeout => change Completes (execBarrierTimeout _ _ _); unfold execBarrierTimeout
  case' tallyTimeout => change Completes (execTallyTimeout _ _ _); unfold execTallyTimeout
  case' scrubDone => change Completes (execScrubDone _ _); unfold execScrubDone
  case' runLimit => change Completes (execRunLimit _ _); unfold execRunLimit
  case' mergedClose => change Completes (execMergedClose _ _); unfold execMergedClose
  case' timebaseChange => change Completes (execTimebaseChange _); unfold execTimebaseChange
  case' zcEdge => change Completes (execZcEdge _ _ _); unfold execZcEdge
  case' zcTimeout => change Completes (execZcTimeout _ _ _); unfold execZcTimeout
  case' srcLost => change Completes (execSrcLost _ _); unfold execSrcLost
  case' wbWaitTimeout => change Completes (execWbWaitTimeout _ _ _); unfold execWbWaitTimeout
  case' announce => change Completes (execAnnounce _ _ _ _); unfold execAnnounce
  case' pdelayReq => change Completes (execPdelayReq _ _ _ _); unfold execPdelayReq
  case' tsNsRead => change Completes (execTsNsRead _ _); unfold execTsNsRead
  case' txtsInfoRead => change Completes (execTxtsInfoRead _ _ _); unfold execTxtsInfoRead
  case' launchTime => change Completes (execLaunchTime _ _ _); unfold execLaunchTime
  case' axisCompute => change Completes (execAxisCompute _ _ _); unfold execAxisCompute
  case' mbCommit => change Completes (execMbCommit _ _); unfold execMbCommit
  case' currentDecision => change Completes (execCurrentDecision _ _); unfold execCurrentDecision
  case' bandAdapt => change Completes (execBandAdapt _ _); unfold execBandAdapt
  case' currentLost => change Completes (execCurrentLost _ _); unfold execCurrentLost
  case' upstreamFrame => change Completes (execUpstreamFrame _ _ _); unfold execUpstreamFrame
  case' downstreamFrame => change Completes (execDownstreamFrame _ _); unfold execDownstreamFrame
  case' encoderEdge => change Completes (execEncoderEdge _ _ _ _); unfold execEncoderEdge
  case' encoderIndex => change Completes (execEncoderIndex _ _); unfold execEncoderIndex
  case' tStopExpiry => change Completes (execTStopExpiry _ _ _); unfold execTStopExpiry
  case' ssiTransferEnd => change Completes (execSsiTransferEnd _ _ _ _); unfold execSsiTransferEnd
  case' monoTimeout => change Completes (execMonoTimeout _ _ _); unfold execMonoTimeout
  case' stoFbErr => change Completes (execStoFbErr _ _ _ _ _); unfold execStoFbErr
  case' csi2FrameStart => change Completes (execCsi2FrameStart _ _ _ _ _); unfold execCsi2FrameStart
  case' csi2Line => change Completes (execCsi2Line _ _ _ _ _ _ _ _); unfold execCsi2Line
  case' csi2EmbeddedData => change Completes (execCsi2EmbeddedData _ _ _ _ _ _); unfold execCsi2EmbeddedData
  case' csi2FrameEnd => change Completes (execCsi2FrameEnd _ _ _ _); unfold execCsi2FrameEnd
  case' frameTimeout => change Completes (execFrameTimeout _ _ _); unfold execFrameTimeout
  case' camSilent => change Completes (execCamSilent _ _ _); unfold execCamSilent
  case' roiCommit => change Completes (execRoiCommit _ _); unfold execRoiCommit
  case' sampleForward => change Completes (execSampleForward _ _); unfold execSampleForward
  case' jitterExpiry => change Completes (execJitterExpiry _ _); unfold execJitterExpiry
  case' pictureDecoded => change Completes (execPictureDecoded _ _ _); unfold execPictureDecoded
  case' stalled => change Completes (execStalled _ _); unfold execStalled
  case' gleanDone => change Completes (execGleanDone _); unfold execGleanDone
  case' ethFrameReceived => change Completes (execEthFrameReceived _ _ _ _); unfold execEthFrameReceived
  case' queuePoll => change Completes (execQueuePoll _ _); unfold execQueuePoll
  case' ethTxDone => change Completes (execEthTxDone _ _); unfold execEthTxDone
  case' linkDown => change Completes (execLinkDown _ _); unfold execLinkDown
  case' linkUp => change Completes (execLinkUp _ _); unfold execLinkUp
  case' silent => change Completes (execSilent _ _ _); unfold execSilent
  case' canWake => change Completes (execCanWake _ _ _); unfold execCanWake
  case' canArbitration => change Completes (execCanArbitration _ _); unfold execCanArbitration
  case' canFrameSent => change Completes (execCanFrameSent _ _ _); unfold execCanFrameSent
  case' canFrameReceived => change Completes (execCanFrameReceived _ _ _ _); unfold execCanFrameReceived
  case' canError => change Completes (execCanError _ _ _ _ _ _ _); unfold execCanError
  case' busOffRecovery => change Completes (execBusOffRecovery _ _); unfold execBusOffRecovery
  case' txTimeout => change Completes (execTxTimeout _ _ _); unfold execTxTimeout
  case' rxTimeout => change Completes (execRxTimeout _ _ _); unfold execRxTimeout
  case' busDominant => change Completes (execBusDominant _ _); unfold execBusDominant
  case' i2cTransferDone => change Completes (execI2cTransferDone _ _ _ _); unfold execI2cTransferDone
  case' sclLowTimeout => change Completes (execSclLowTimeout _ _ _); unfold execSclLowTimeout
  case' smbalert => change Completes (execSmbalert _ _); unfold execSmbalert
  case' wdHoldExpired => change Completes (execWdHoldExpired _ _ _); unfold execWdHoldExpired
  case' wdLockstep => change Completes (execWdLockstep _); unfold execWdLockstep
  case' startupRunDone => change Completes (execStartupRunDone _ _ _ _ _ _); unfold execStartupRunDone
  case' attestationDone => change Completes (execAttestationDone _); unfold execAttestationDone
  case getInfo => exact (State.mailbox_completes s _ _ : Completes (execGetInfo _))
  case logRead => exact (State.mailbox_completes s _ _ : Completes (execLogRead _))
  case fwErase => exact (State.mailbox_completes s _ _ : Completes (execFwErase _ _))
  case fwWrite => exact (State.mailbox_completes s _ _ : Completes (execFwWrite _ _))
  case fwVerify => exact (State.mailbox_completes s _ _ : Completes (execFwVerify _))
  case fwActivate => exact (State.mailbox_completes s _ _ : Completes (execFwActivate _))
  case fwConfirm => exact (State.mailbox_completes s _ _ : Completes (execFwConfirm _))
  case ledgerWrite => exact (State.mailbox_completes s _ _ : Completes (execLedgerWrite _))
  case rosterSet => exact (State.mailbox_completes s _ _ : Completes (execRosterSet _))
  case mgmtRead => exact (State.mailbox_completes s _ _ : Completes (execMgmtRead _))
  case mgmtWrite => exact (State.mailbox_completes s _ _ : Completes (execMgmtWrite _))
  case mailboxFence => exact (State.mailbox_completes s _ _ : Completes (execMailboxFence _))
  case unfence => exact (State.mailbox_completes s _ _ : Completes (execUnfence _))
  case sensorRead => exact (State.mailbox_completes s _ _ : Completes (execSensorRead _))
  case' mailboxTimeout => change Completes (execMailboxTimeout _); unfold execMailboxTimeout
  case' fenceLift => change Completes (execFenceLift _ _); unfold execFenceLift
  case' stateCompare => change Completes (execStateCompare _ _ _ _); unfold execStateCompare
  case' thermalSample => change Completes (execThermalSample _ _ _); unfold execThermalSample
  case' sensorStale => change Completes (execSensorStale _ _ _); unfold execSensorStale
  case' railSample => change Completes (execRailSample _ _ _); unfold execRailSample
  case' pmbusPoll => change Completes (execPmbusPoll _ _ _ _ _ _); unfold execPmbusPoll
  case' holdupSample => change Completes (execHoldupSample _ _); unfold execHoldupSample
  case' droop => change Completes (execDroop _); unfold execDroop
  case' droopRecovery => change Completes (execDroopRecovery _); unfold execDroopRecovery
  case' dvfsTick => change Completes (execDvfsTick _ _); unfold execDvfsTick
  case' voltageSettled => change Completes (execVoltageSettled _); unfold execVoltageSettled
  case' ledgerWriteDone => change Completes (execLedgerWriteDone _ _); unfold execLedgerWriteDone
  case' ledgerScan => change Completes (execLedgerScan _ _ _); unfold execLedgerScan
  case' trialTimeout => change Completes (execTrialTimeout _); unfold execTrialTimeout
  case' ostlerWdt => change Completes (execOstlerWdt _); unfold execOstlerWdt
  case' faultAck => change Completes (execFaultAck _ _ _ _ _); unfold execFaultAck
  case' irqPendWrite => change Completes (execIrqPendWrite _ _ _ _ _); unfold execIrqPendWrite
  case' porNAssert => change Completes (execPorNAssert _); unfold execPorNAssert
  case' porNRelease => change Completes (execPorNRelease _ _); unfold execPorNRelease
  case' firmwareChosen => change Completes (execFirmwareChosen _ _); unfold execFirmwareChosen
  case' tensorRailsUp => change Completes (execTensorRailsUp _); unfold execTensorRailsUp
  case' hbmTrainingDone => change Completes (execHbmTrainingDone _ _); unfold execHbmTrainingDone
  case' hostRelease => change Completes (execHostRelease _); unfold execHostRelease
  case' vfFunctionLevelReset => change Completes (execVfFunctionLevelReset _ _); unfold execVfFunctionLevelReset
  case' busStuck => change Completes (execBusStuck _ _); unfold execBusStuck
  all_goals with_reducible repeat' first | exact completes_next _ | (extract_lets; clear_value *) | split
  all_goals exact completes_next _

/-- Settles O53: nothing is listed at reset, so every register, byte and unit reads as an unlisted one. -/
theorem resetState : Obligations.ResetState := by
  unfold Obligations.ResetState
  refine ⟨fun a => rfl, fun e a => ?_, rfl, rfl, fun t => ?_, fun p => ?_, rfl, rfl, by decide⟩
  · unfold State.spByte
    split <;> rfl
  · revert t
    decide
  · revert p
    decide

/-! ### The two frames -/

/-- The rows of Instr.keepsMemory leave both memories as they are, by the law of each (Laws/Memory*.lean). -/
theorem exec_mem {c : Instr} {s : State} (hc : c.keepsMemory = true) : KeepsMem (s.hbm, s.spad) (exec c s) := by
  cases c
  case recInv => exact execRecInv_mem rfl
  case partWrite => exact execPartWrite_mem rfl
  case resWrite => exact execResWrite_mem rfl
  case ceClr => exact execCeClr_mem rfl
  case spadClearDone => exact execSpadClearDone_mem rfl
  case tlbInv => exact execTlbInv_mem rfl
  case invTn => exact execInvTn_mem rfl
  case portTrainingDone => exact execPortTrainingDone_mem rfl
  case wiringRetry => exact execWiringRetry_mem rfl
  case authDone => exact execAuthDone_mem rfl
  case escWaitExpiry => exact execEscWaitExpiry_mem rfl
  case packetForward => exact execPacketForward_mem rfl
  case writeAcknowledgement => exact execWriteAcknowledgement_mem rfl
  case arrivePacket => exact execArrivePacket_mem rfl
  case proxyRead => exact execProxyRead_mem rfl
  case proxyReadData => exact execProxyReadData_mem rfl
  case proxyWriteAcknowledgement => exact execProxyWriteAcknowledgement_mem rfl
  case proxyTimeout => exact execProxyTimeout_mem rfl
  case timesyncSend => exact execTimesyncSend_mem rfl
  case timesync => exact execTimesync_mem rfl
  case echoSend => exact execEchoSend_mem rfl
  case echo => exact execEcho_mem rfl
  case fcHoldover => exact execFcHoldover_mem rfl
  case lbCfgWrite => exact execLbCfgWrite_mem rfl
  case abortDone => exact execAbortDone_mem rfl
  case tallyConfigWrite => exact execTallyConfigWrite_mem rfl
  case qTailWrite => exact execQTailWrite_mem rfl
  case qCfgWrite => exact execQCfgWrite_mem rfl
  case tnResWrite => exact execTnResWrite_mem rfl
  case powerWindowEnd => exact execPowerWindowEnd_mem rfl
  case pgEnable => exact execPgEnable_mem rfl
  case kWrite => exact execKWrite_mem rfl
  case pgAdj => exact execPgAdj_mem rfl
  case timebaseChange => exact execTimebaseChange_mem rfl
  case zcEdge => exact execZcEdge_mem rfl
  case zcTimeout => exact execZcTimeout_mem rfl
  case srcLost => exact execSrcLost_mem rfl
  case strobeEnd => exact execStrobeEnd_mem rfl
  case wardenDeadline => exact execWardenDeadline_mem rfl
  case engineWindow => exact execEngineWindow_mem rfl
  case wbSelWrite => exact execWbSelWrite_mem rfl
  case addendWrite => exact execAddendWrite_mem rfl
  case set => exact execSet_mem rfl
  case step => exact execStep_mem rfl
  case announce => exact execAnnounce_mem rfl
  case pdelayReq => exact execPdelayReq_mem rfl
  case tsNsRead => exact execTsNsRead_mem rfl
  case txtsInfoRead => exact execTxtsInfoRead_mem rfl
  case axEnable => exact execAxEnable_mem rfl
  case disable => exact execDisable_mem rfl
  case lawCommit => exact execLawCommit_mem rfl
  case periodLost => exact execPeriodLost_mem rfl
  case currentDecision => exact execCurrentDecision_mem rfl
  case bandAdapt => exact execBandAdapt_mem rfl
  case currentLost => exact execCurrentLost_mem rfl
  case upstreamFrame => exact execUpstreamFrame_mem rfl
  case downstreamFrame => exact execDownstreamFrame_mem rfl
  case encoderEdge => exact execEncoderEdge_mem rfl
  case encoderIndex => exact execEncoderIndex_mem rfl
  case tStopExpiry => exact execTStopExpiry_mem rfl
  case signalFault => exact execSignalFault_mem rfl
  case ssiTransferEnd => exact execSsiTransferEnd_mem rfl
  case monoTimeout => exact execMonoTimeout_mem rfl
  case safeReq => exact execSafeReq_mem rfl
  case stopTimeExpiry => exact execStopTimeExpiry_mem rfl
  case brakeDelayExpiry => exact execBrakeDelayExpiry_mem rfl
  case groupReset => exact execGroupReset_mem rfl
  case stoFbErr => exact execStoFbErr_mem rfl
  case csi2Line => exact execCsi2Line_mem rfl
  case csi2EmbeddedData => exact execCsi2EmbeddedData_mem rfl
  case csi2FrameEnd => exact execCsi2FrameEnd_mem rfl
  case frameTimeout => exact execFrameTimeout_mem rfl
  case camSilent => exact execCamSilent_mem rfl
  case thSet => exact execThSet_mem rfl
  case roiCommit => exact execRoiCommit_mem rfl
  case rtpPacket => exact execRtpPacket_mem rfl
  case jitterExpiry => exact execJitterExpiry_mem rfl
  case pictureDecoded => exact execPictureDecoded_mem rfl
  case stalled => exact execStalled_mem rfl
  case probeRead => exact execProbeRead_mem rfl
  case linkUp => exact execLinkUp_mem rfl
  case silent => exact execSilent_mem rfl
  case queueRestart => exact execQueueRestart_mem rfl
  case canInit => exact execCanInit_mem rfl
  case canNormal => exact execCanNormal_mem rfl
  case canListen => exact execCanListen_mem rfl
  case canSleep => exact execCanSleep_mem rfl
  case canWake => exact execCanWake_mem rfl
  case txbReq => exact execTxbReq_mem rfl
  case txbAbort => exact execTxbAbort_mem rfl
  case txfPush => exact execTxfPush_mem rfl
  case txfFlush => exact execTxfFlush_mem rfl
  case rxPop => exact execRxPop_mem rfl
  case rxhIdRead => exact execRxhIdRead_mem rfl
  case recover => exact execRecover_mem rfl
  case canArbitration => exact execCanArbitration_mem rfl
  case canFrameSent => exact execCanFrameSent_mem rfl
  case canFrameReceived => exact execCanFrameReceived_mem rfl
  case canError => exact execCanError_mem rfl
  case busOffRecovery => exact execBusOffRecovery_mem rfl
  case txTimeout => exact execTxTimeout_mem rfl
  case rxTimeout => exact execRxTimeout_mem rfl
  case busDominant => exact execBusDominant_mem rfl
  case i2cStart => exact execI2cStart_mem rfl
  case i2cTransferDone => exact execI2cTransferDone_mem rfl
  case sclLowTimeout => exact execSclLowTimeout_mem rfl
  case i2cUnfence => exact execI2cUnfence_mem rfl
  case wdHoldExpired => exact execWdHoldExpired_mem rfl
  case stopClr => exact execStopClr_mem rfl
  case wdLockstep => exact execWdLockstep_mem rfl
  case ctrlMonitor => exact execCtrlMonitor_mem rfl
  case diagRun => exact execDiagRun_mem rfl
  case getInfo => exact execGetInfo_mem rfl
  case logRead => exact execLogRead_mem rfl
  case fwWrite => exact execFwWrite_mem rfl
  case mgmtRead => exact execMgmtRead_mem rfl
  case unfence => exact execUnfence_mem rfl
  case sensorRead => exact execSensorRead_mem rfl
  case mailboxTimeout => exact execMailboxTimeout_mem rfl
  case fenceLift => exact execFenceLift_mem rfl
  case holdupSample => exact execHoldupSample_mem rfl
  case droop => exact execDroop_mem rfl
  case droopRecovery => exact execDroopRecovery_mem rfl
  case dvfsTick => exact execDvfsTick_mem rfl
  case voltageSettled => exact execVoltageSettled_mem rfl
  case logPageWritten => exact execLogPageWritten_mem rfl
  case ledgerDequeue => exact execLedgerDequeue_mem rfl
  case ledgerScan => exact execLedgerScan_mem rfl
  case ostlerWdt => exact execOstlerWdt_mem rfl
  case lock => exact execLock_mem rfl
  case errinjWrite => exact execErrinjWrite_mem rfl
  case irqPendWrite => exact execIrqPendWrite_mem rfl
  case irqEnWrite => exact execIrqEnWrite_mem rfl
  case irqForce => exact execIrqForce_mem rfl
  case irqRouteWrite => exact execIrqRouteWrite_mem rfl
  case porNRelease => exact execPorNRelease_mem rfl
  case tensorRailsUp => exact execTensorRailsUp_mem rfl
  case hostRelease => exact execHostRelease_mem rfl
  case vfFunctionLevelReset => exact execVfFunctionLevelReset_mem rfl
  case perstNRelease => exact execPerstNRelease_mem rfl
  case busStuck => exact execBusStuck_mem rfl
  case busRecessive => exact execBusRecessive_mem rfl
  all_goals exact absurd hc Bool.false_ne_true

/-- Settles O54: what a byte reads as hangs on the two memories alone. -/
theorem memoryFrame : Obligations.MemoryFrame := by
  unfold Obligations.MemoryFrame
  intro c s t hc ht
  obtain ⟨hhbm, hspad⟩ := Prod.mk.inj (exec_mem hc t ht)
  refine ⟨fun a => ?_, fun e a => ?_⟩
  · rw [State.hbmByte, hhbm, State.hbmByte]
  · rw [State.spByte, hspad, State.spByte]

/-- The rows of Instr.keepsControl leave the control domain as it is, by the law of each (Laws/Control*.lean). -/
theorem exec_ctl {c : Instr} {s : State} (hc : c.keepsControl = true) :
    KeepsCtl (s.mile, s.can, s.pins, s.clock, { s.drv with dps := [] }) (exec c s) := by
  cases c
  case matmul => exact execMatmul_ctl rfl
  case convDense => exact execConvDense_ctl rfl
  case convDiagonal => exact execConvDiagonal_ctl rfl
  case convFrequency => exact execConvFrequency_ctl rfl
  case attnForwardDense => exact execAttnForwardDense_ctl rfl
  case attnForwardRetrieval => exact execAttnForwardRetrieval_ctl rfl
  case attnBackward => exact execAttnBackward_ctl rfl
  case rnnStep => exact execRnnStep_ctl rfl
  case vectorMap => exact execVectorMap_ctl rfl
  case sumFp32 => exact execSumFp32_ctl rfl
  case sumGranary => exact execSumGranary_ctl rfl
  case vectorMax => exact execVectorMax_ctl rfl
  case vectorMin => exact execVectorMin_ctl rfl
  case poolMax => exact execPoolMax_ctl rfl
  case poolAvg => exact execPoolAvg_ctl rfl
  case digest => exact execDigest_ctl rfl
  case copy => exact execCopy_ctl rfl
  case porterDescriptor => exact execPorterDescriptor_ctl rfl
  case arrive => exact execArrive_ctl rfl
  case wait => exact execWait_ctl rfl
  case waybillWait => exact execWaybillWait_ctl rfl
  case fence => exact execFence_ctl rfl
  case fenceCompletion => exact execFenceCompletion_ctl rfl
  case commandCompletion => exact execCommandCompletion_ctl rfl
  case recipeCacheFill => exact execRecipeCacheFill_ctl rfl
  case queueFetch => exact execQueueFetch_ctl rfl
  case recInv => exact execRecInv_ctl rfl
  case partWrite => exact execPartWrite_ctl rfl
  case resWrite => exact execResWrite_ctl rfl
  case ceClr => exact execCeClr_ctl rfl
  case spadClearDone => exact execSpadClearDone_ctl rfl
  case tlbInv => exact execTlbInv_ctl rfl
  case invTn => exact execInvTn_ctl rfl
  case portTrainingDone => exact execPortTrainingDone_ctl rfl
  case wiringRetry => exact execWiringRetry_ctl rfl
  case authDone => exact execAuthDone_ctl rfl
  case epochExchange => exact execEpochExchange_ctl rfl
  case laneLockLoss => exact execLaneLockLoss_ctl rfl
  case dataSlot => exact execDataSlot_ctl rfl
  case controlSlot => exact execControlSlot_ctl rfl
  case escWaitExpiry => exact execEscWaitExpiry_ctl rfl
  case packetForward => exact execPacketForward_ctl rfl
  case writePacket => exact execWritePacket_ctl rfl
  case writeAcknowledgement => exact execWriteAcknowledgement_ctl rfl
  case errorResponse => exact execErrorResponse_ctl rfl
  case arrivePacket => exact execArrivePacket_ctl rfl
  case proxyReadData => exact execProxyReadData_ctl rfl
  case proxyWriteAcknowledgement => exact execProxyWriteAcknowledgement_ctl rfl
  case proxyTimeout => exact execProxyTimeout_ctl rfl
  case timesyncSend => exact execTimesyncSend_ctl rfl
  case echoSend => exact execEchoSend_ctl rfl
  case echo => exact execEcho_ctl rfl
  case launchCount => exact execLaunchCount_ctl rfl
  case lbCfgWrite => exact execLbCfgWrite_ctl rfl
  case abort => exact execAbort_ctl rfl
  case abortReceipt => exact execAbortReceipt_ctl rfl
  case abortDone => exact execAbortDone_ctl rfl
  case tallyArrival => exact execTallyArrival_ctl rfl
  case carryRelease => exact execCarryRelease_ctl rfl
  case barrierTimeout => exact execBarrierTimeout_ctl rfl
  case tallyTimeout => exact execTallyTimeout_ctl rfl
  case tallyConfigWrite => exact execTallyConfigWrite_ctl rfl
  case enable => exact execEnable_ctl rfl
  case restart => exact execRestart_ctl rfl
  case release => exact execRelease_ctl rfl
  case scrubDone => exact execScrubDone_ctl rfl
  case qTailWrite => exact execQTailWrite_ctl rfl
  case qCfgWrite => exact execQCfgWrite_ctl rfl
  case tnResWrite => exact execTnResWrite_ctl rfl
  case runLimit => exact execRunLimit_ctl rfl
  case close => exact execClose_ctl rfl
  case mergedClose => exact execMergedClose_ctl rfl
  case manAck => exact execManAck_ctl rfl
  case zcTimeout => exact execZcTimeout_ctl rfl
  case queueStart => exact execQueueStart_ctl rfl
  case tallyArrive => exact execTallyArrive_ctl rfl
  case engineWindow => exact execEngineWindow_ctl rfl
  case manifestClose => exact execManifestClose_ctl rfl
  case wbSelWrite => exact execWbSelWrite_ctl rfl
  case wbWaitTimeout => exact execWbWaitTimeout_ctl rfl
  case announce => exact execAnnounce_ctl rfl
  case tsNsRead => exact execTsNsRead_ctl rfl
  case launchTime => exact execLaunchTime_ctl rfl
  case csi2FrameStart => exact execCsi2FrameStart_ctl rfl
  case csi2Line => exact execCsi2Line_ctl rfl
  case csi2EmbeddedData => exact execCsi2EmbeddedData_ctl rfl
  case csi2FrameEnd => exact execCsi2FrameEnd_ctl rfl
  case frameTimeout => exact execFrameTimeout_ctl rfl
  case camSilent => exact execCamSilent_ctl rfl
  case thSet => exact execThSet_ctl rfl
  case roiCommit => exact execRoiCommit_ctl rfl
  case srcEnable => exact execSrcEnable_ctl rfl
  case sampleForward => exact execSampleForward_ctl rfl
  case rtpPacket => exact execRtpPacket_ctl rfl
  case jitterExpiry => exact execJitterExpiry_ctl rfl
  case pictureDecoded => exact execPictureDecoded_ctl rfl
  case stalled => exact execStalled_ctl rfl
  case gleanStart => exact execGleanStart_ctl rfl
  case gleanDone => exact execGleanDone_ctl rfl
  case ethFrameReceived => exact execEthFrameReceived_ctl rfl
  case queuePoll => exact execQueuePoll_ctl rfl
  case ethFrameBoundary => exact execEthFrameBoundary_ctl rfl
  case linkDown => exact execLinkDown_ctl rfl
  case linkUp => exact execLinkUp_ctl rfl
  case silent => exact execSilent_ctl rfl
  case queueRestart => exact execQueueRestart_ctl rfl
  case rxTimeout => exact execRxTimeout_ctl rfl
  case i2cStart => exact execI2cStart_ctl rfl
  case i2cTransferDone => exact execI2cTransferDone_ctl rfl
  case sclLowTimeout => exact execSclLowTimeout_ctl rfl
  case i2cUnfence => exact execI2cUnfence_ctl rfl
  case diagRun => exact execDiagRun_ctl rfl
  case regionWrite => exact execRegionWrite_ctl rfl
  case attStart => exact execAttStart_ctl rfl
  case attestationDone => exact execAttestationDone_ctl rfl
  case getInfo => exact execGetInfo_ctl rfl
  case logRead => exact execLogRead_ctl rfl
  case fwWrite => exact execFwWrite_ctl rfl
  case unfence => exact execUnfence_ctl rfl
  case sensorRead => exact execSensorRead_ctl rfl
  case mailboxTimeout => exact execMailboxTimeout_ctl rfl
  case fenceLift => exact execFenceLift_ctl rfl
  case holdupSample => exact execHoldupSample_ctl rfl
  case droop => exact execDroop_ctl rfl
  case droopRecovery => exact execDroopRecovery_ctl rfl
  case dvfsTick => exact execDvfsTick_ctl rfl
  case voltageSettled => exact execVoltageSettled_ctl rfl
  case logPageWritten => exact execLogPageWritten_ctl rfl
  case ledgerDequeue => exact execLedgerDequeue_ctl rfl
  case ledgerScan => exact execLedgerScan_ctl rfl
  case ostlerWdt => exact execOstlerWdt_ctl rfl
  case lock => exact execLock_ctl rfl
  case errinjWrite => exact execErrinjWrite_ctl rfl
  case irqPendWrite => exact execIrqPendWrite_ctl rfl
  case irqEnWrite => exact execIrqEnWrite_ctl rfl
  case irqForce => exact execIrqForce_ctl rfl
  case irqRouteWrite => exact execIrqRouteWrite_ctl rfl
  case tensorRailsUp => exact execTensorRailsUp_ctl rfl
  case hostRelease => exact execHostRelease_ctl rfl
  case vfFunctionLevelReset => exact execVfFunctionLevelReset_ctl rfl
  case pfFunctionLevelReset => exact execPfFunctionLevelReset_ctl rfl
  case busStuck => exact execBusStuck_ctl rfl
  all_goals exact absurd hc Bool.false_ne_true

/-- Settles O55: the parts that the rows keep are those of the statement; of Drover, all but the datapaths. -/
theorem controlIsolation : Obligations.ControlIsolation := by
  unfold Obligations.ControlIsolation
  intro c s t hc ht
  have h := exec_ctl hc t ht
  simp only [State.Ctl, Prod.mk.injEq] at h
  obtain ⟨hmile, hcan, hpins, hclock, hdrv⟩ := h
  exact ⟨hmile, hcan, hpins, hclock, congrArg (fun d : DroverSt => { d with dps := t.drv.dps }) hdrv⟩

end Sys2Proof.Machine
end

section
/-!
Who writes what: a write that its function may not perform reaches nothing (R446, R460), and from it the obligation HostAccessFilter.
-/
namespace Sys2Proof.Machine

variable {s : State} {f : Func} {a : Nat} {i : PageId}

/-! ### The guard -/

/-- A guarded write that its function may not perform changes nothing. -/
theorem State.guarded_of_not_mayWrite {k : State → State} (h : s.mayWrite f a = false) : s.guarded f a k = s := by
  rw [State.guarded, h, if_neg Bool.false_ne_true]

/-- A guarded write that its function may perform is carried out. -/
theorem State.guarded_of_mayWrite {k : State → State} (h : s.mayWrite f a = true) : s.guarded f a k = k s := by
  rw [State.guarded, if_pos h]

/-- Who may write a register of a page (R446, R460). -/
theorem State.mayWrite_eq (hp : pageId (a / 4096) = some i) :
    s.mayWrite f a = (s.reaches f i && (match f with | .vf n => vfMayWrite n.val i (a % 4096) | _ => true)) := by
  unfold State.mayWrite
  rw [hp] <;> rfl

theorem State.sees_eq (hp : pageId (a / 4096) = some i) :
    s.sees f a = (s.reaches f i && (match f with | .vf n => vfMayRead n.val i (a % 4096) | _ => true)) := by
  unfold State.sees
  rw [hp] <;> rfl

/-- A register that may be written lies in a page of BAR0. -/
theorem State.exists_pageId_of_mayWrite (h : s.mayWrite f a = true) : ∃ i, pageId (a / 4096) = some i := by
  unfold State.mayWrite at h
  cases hp : pageId (a / 4096) with
  | none => simp [hp] at h
  | some i => exact ⟨i, rfl⟩

/-! ### The rows -/

/-- A write of CF_CTL with no bit set, and no frame arriving, changes nothing. -/
theorem State.wrCfCtl_zero (n : Nat) : s.wrCfCtl n 0 none = s := by
  have hbit : ∀ k, tbit 0 k = false := fun k => by simp [tbit, nfld]
  simp only [State.wrCfCtl, hbit, Bool.false_and, Bool.false_eq_true, if_false]
  rfl

/-- Each row that is a host write is discarded where its function may not perform it. -/
theorem exec_of_not_mayWrite {c : Instr} (hc : c.hostWrite = some (f, a)) (h : s.mayWrite f a = false) : exec c s = .next s := by
  cases c
  case registerWrite g b width v hw =>
    simp only [Instr.hostWrite, Option.ite_none_right_eq_some, Option.some.injEq, Prod.mk.injEq] at hc
    obtain ⟨⟨rfl, h4, hwin, rfl⟩, rfl, rfl⟩ := hc
    simp only [exec_registerWrite, execRegisterWrite, h4, hwin, ne_eq, not_true_eq_false, or_self, if_false, Bool.false_eq_true,
      State.localWrite_of_not_mayWrite h]
    rw [State.hwSet_zero]
  case rxPop g n v arriving =>
    cases arriving with
    | some x => cases hc
    | none =>
      cases hc
      exact congrArg Host.Outcome.next (by rw [h, if_neg Bool.false_ne_true, State.wrCfCtl_zero])
  case faultAck g page v arriving =>
    cases arriving with
    | cons x r => cases hc
    | nil =>
      cases hc
      exact congrArg Host.Outcome.next (by simp [lowFirst, State.guarded_of_not_mayWrite h])
  all_goals cases hc
  all_goals exact congrArg Host.Outcome.next (State.guarded_of_not_mayWrite h)

/-! ### Virtual functions, and the time before READY -/

/-- What a virtual function may write, page by page (R446). -/
theorem vfMayWrite_iff {n o : Nat} (h : vfMayWrite n i o = true) :
    o ≠ oCtl ∧ o ≠ oLock ∧ (i.block = .innkeeper ∧ i.sub = n + 1 ∧ o ≠ 0x50 ∨ i.block = .tally ∧ i.sub = 1 ∨ i.block = .sheaf ∧ i.sub = 5 ∨
      i.block = .hostel ∧ o = 0x40) := by
  simp only [vfMayWrite, Bool.and_eq_true, bne_iff_ne] at h
  obtain ⟨⟨hctl, hlock⟩, hpage⟩ := h
  refine ⟨hctl, hlock, ?_⟩
  cases hb : i.block <;> simp_all

/-- Over the link alone, a virtual function reaches a page. -/
theorem State.linkUp_of_reaches_vf {n : Fin 8} (h : s.reaches (.vf n) i = true) : s.linkUp = true := by
  simp only [State.reaches, Bool.and_eq_true] at h
  exact h.1

/-- Before READY only the management path reaches the pages that are not early (R460). -/
theorem State.reaches_eq_false (hr : s.ready = false) (hf : f ≠ .mgmt) (hb : earlyBlock i.block = false) : s.reaches f i = false := by
  cases f <;> simp_all [State.reaches]

/-! ### The obligation -/

/-- Settles O56: the guard of each row, the pages of a virtual function, and the early pages. -/
theorem hostAccessFilter : Obligations.HostAccessFilter := by
  unfold Obligations.HostAccessFilter
  refine ⟨fun c s f a hc h => exec_of_not_mayWrite hc h, fun s n a h => ?_, fun s f a i hr hf hp hb => ?_⟩
  · obtain ⟨i, hp⟩ := State.exists_pageId_of_mayWrite h
    rw [State.mayWrite_eq hp, Bool.and_eq_true] at h
    obtain ⟨hctl, hlock, hpage⟩ := vfMayWrite_iff h.2
    exact ⟨State.linkUp_of_reaches_vf h.1, hctl, hlock, i, hp, hpage⟩
  · rw [State.mayWrite_eq hp, State.sees_eq hp, State.reaches_eq_false hr hf hb]
    exact ⟨Bool.false_and _, Bool.false_and _⟩

end Sys2Proof.Machine
end

section
/-!
The order of a Granary's terms (R51 to R54): the sum, the flags and the count of up to 2^24 terms hang on the terms alone.
-/
namespace Sys2Proof.Machine

/-- A sum hangs on its terms alone. -/
theorem sum_perm {l m : List Int} (h : l.Perm m) : l.sum = m.sum := by
  induction h with
  | nil => rfl
  | cons x _ ih => rw [List.sum_cons, List.sum_cons, ih]
  | swap x y l =>
    simp only [List.sum_cons]
    omega
  | trans _ _ ih ih' => exact ih.trans ih'

/-- Settles O57: without a carry beyond 192 bits the Granary is a sum, three disjunctions and a length, none of which hangs on the order. -/
theorem granaryOrder : Obligations.GranaryOrder := by
  unfold Obligations.GranaryOrder
  intro anchor ts us hperm hlen
  have hany : ∀ p : Term → Bool, ts.any p = us.any p := fun p => hperm.any_eq
  rw [Gran.addAll_empty anchor hlen, Gran.addAll_empty anchor (hperm.length_eq ▸ hlen), sum_perm (hperm.map _), hperm.length_eq]
  simp only [hany]

end Sys2Proof.Machine
end

section
/-!
Raw Granary records (R58, R59): the four parts of a record, the bytes they spell, what a load reads back, and from these the obligation RawRecords.
-/
namespace Sys2Proof.Machine

/-! ### Little-endian bytes -/

/-- The bytes of a number written in two parts: the low part's, then the high part's. -/
theorem natLe_add (n m v : Nat) : natLe (n + m) v = natLe n v ++ natLe m (v / 256 ^ n) := by
  induction n generalizing v with
  | zero => simp [natLe]
  | succ n ih =>
    rw [Nat.succ_add, natLe, natLe, ih, Nat.div_div_eq_div_mul, Nat.pow_succ', List.cons_append]

/-- The bytes of a number hang on its low part alone. -/
theorem natLe_mod (n v : Nat) : natLe n (v % 256 ^ n) = natLe n v := by
  induction n generalizing v with
  | zero => rfl
  | succ n ih =>
    have hlow : BitVec.ofNat 8 (v % 256 ^ (n + 1)) = BitVec.ofNat 8 v := by
      apply BitVec.eq_of_toNat_eq
      simp only [BitVec.toNat_ofNat]
      rw [Nat.pow_succ]
      exact Nat.mod_mod_of_dvd v (Nat.dvd_mul_left _ _)
    rw [natLe, natLe, hlow, Nat.pow_succ', Nat.mod_mul_right_div_self, ih]

/-- A number in two parts, as the bytes of each. -/
theorem natLe_parts {n : Nat} (m : Nat) {lo : Nat} (hi : Nat) (h : lo < 256 ^ n) :
    natLe (n + m) (lo + 256 ^ n * hi) = natLe n lo ++ natLe m hi := by
  rw [natLe_add, ← natLe_mod n, Nat.add_mul_mod_self_left, natLe_mod, Nat.add_mul_div_left _ _ (Nat.lt_of_le_of_lt (Nat.zero_le lo) h),
    Nat.div_eq_of_lt h, Nat.zero_add]

/-! ### Signed patterns -/

theorem ofS_lt (n : Nat) (i : Int) : ofS n i < 2 ^ n := by
  have hpos : (0 : Int) < ((2 ^ n : Nat) : Int) := by exact_mod_cast Nat.two_pow_pos n
  have := Int.emod_lt_of_pos i hpos
  have := Int.emod_nonneg i (Int.ne_of_gt hpos)
  unfold ofS
  omega

/-- A signed value of 192 bits is read back from its pattern. -/
theorem toS_ofS_192 {i : Int} (hlo : granMin ≤ i) (hhi : i ≤ granMax) : toS 192 (ofS 192 i) = i := by
  unfold granMin at hlo
  unfold granMax at hhi
  unfold toS ofS
  dsimp only
  split <;> omega

/-- A signed value of 16 bits is read back from its pattern. -/
theorem toS_ofS_16 {i : Int} (hlo : -512 ≤ i) (hhi : i ≤ 511) : toS 16 (ofS 16 i) = i := by
  unfold toS ofS
  dsimp only
  split <;> omega

/-! ### The parts of a record -/

/-- FLAGS of a record (R58): the residue of ACC, POISON, SAT, TRUNCZ. -/
def Gran.flags (g : Gran) : Nat := residue g.acc + 8 * b2n g.poison + 16 * b2n g.sat + 32 * b2n g.trz

theorem residue_lt (acc : Int) : residue acc < 7 := by
  unfold residue
  omega

theorem b2n_lt (b : Bool) : b2n b < 2 := by cases b <;> decide

theorem b2n_beq_one (b : Bool) : (b2n b == 1) = b := by cases b <;> rfl

theorem Gran.flags_lt (g : Gran) : g.flags < 64 := by
  have := residue_lt g.acc
  have := b2n_lt g.poison
  have := b2n_lt g.sat
  have := b2n_lt g.trz
  unfold Gran.flags
  omega

/-- A record is ACC in 24 bytes, ANCHOR in two, FLAGS in two and COUNT in four (R58). -/
theorem Gran.record_eq (anchor : Int) (g : Gran) :
    g.record anchor = ofS 192 g.acc + 256 ^ 24 * (ofS 16 anchor + 256 ^ 2 * (g.flags + 256 ^ 2 * (g.count % 2 ^ 32))) := by
  unfold Gran.record Gran.flags
  omega

/-- The bytes of a record. -/
theorem Gran.record_bytes (anchor : Int) (g : Gran) :
    natLe 32 (g.record anchor) = natLe 24 (ofS 192 g.acc) ++ natLe 2 (ofS 16 anchor) ++ [BitVec.ofNat 8 g.flags, 0] ++ natLe 4 g.count := by
  have hflags : natLe 2 g.flags = [BitVec.ofNat 8 g.flags, 0] := by
    have := g.flags_lt
    have hhigh : g.flags / 256 = 0 := by omega
    simp [natLe, hhigh]
  rw [Gran.record_eq, natLe_parts (n := 24) 8 _ (ofS_lt 192 g.acc), natLe_parts (n := 2) 6 _ (ofS_lt 16 anchor),
    natLe_parts (n := 2) 4 _ (Nat.lt_trans g.flags_lt (by decide)), hflags, ← natLe_mod 4 g.count, List.append_assoc, List.append_assoc] <;> rfl

/-! ### Loading -/

/-- A load reads the parts of a record back, whatever they hold. -/
theorem granLoad_record {anchor : Int} {own : Nat} {g : Gran} (ha : -512 ≤ anchor ∧ anchor ≤ 511) (hacc : granMin ≤ g.acc ∧ g.acc ≤ granMax)
    (hcount : g.count + own ≤ 2 ^ 24) : granLoad anchor own (g.record anchor) = ({ g with ovf := false }, []) := by
  obtain ⟨acc, poison, sat, trz, count, ovf⟩ := g
  have hA := ofS_lt 192 acc
  have hB := ofS_lt 16 anchor
  have hr := residue_lt acc
  have hp := b2n_lt poison
  have hs := b2n_lt sat
  have hz := b2n_lt trz
  have hback : toS 192 (ofS 192 acc) = acc := toS_ofS_192 hacc.1 hacc.2
  have hanchor := toS_ofS_16 ha.1 ha.2
  have hrec := Gran.record_eq anchor ⟨acc, poison, sat, trz, count, ovf⟩
  simp only [Gran.flags] at hrec hcount
  generalize Gran.record anchor _ = r at hrec ⊢
  have h1 : toS 192 r = acc := by
    refine Eq.trans ?_ hback
    rw [toS, toS]
    have : r % 2 ^ 192 = ofS 192 acc % 2 ^ 192 := by omega
    rw [this]
  have h2 : nfld r 207 192 = ofS 16 anchor := by unfold nfld; omega
  have h3 : nfld r 210 208 = residue acc := by unfold nfld; omega
  have h4 : nfld r 211 211 = b2n poison := by unfold nfld; omega
  have h5 : nfld r 212 212 = b2n sat := by unfold nfld; omega
  have h6 : nfld r 213 213 = b2n trz := by unfold nfld; omega
  have h7 : nfld r 255 224 = count := by unfold nfld; omega
  simp only [granLoad, h1, h2, h3, h4, h5, h6, h7, hanchor, b2n_beq_one, ne_eq, not_true_eq_false, if_false, Nat.not_lt.2 hcount]

/-- The residue field agrees with the residue of ACC exactly when it is ACC modulo 7. -/
theorem residue_ne_iff {n : Nat} {acc : Int} : n ≠ residue acc ↔ (n : Int) ≠ acc % 7 := by
  unfold residue
  omega

/-! ### The obligation -/

/-- Settles O59: the bytes by the parts of a record, the round trip by reading them back, the faults by the order of the checks. -/
theorem rawRecords : Obligations.RawRecords := by
  unfold Obligations.RawRecords
  intro anchor own hlo hhi
  refine ⟨fun g => g.record_bytes anchor, fun g hmin hmax hcount => granLoad_record ⟨hlo, hhi⟩ ⟨hmin, hmax⟩ hcount, fun r g faults h => ?_⟩
  unfold granLoad at h
  obtain ⟨rfl, rfl⟩ := Prod.mk.inj h
  exact ⟨rfl, rfl, rfl, rfl, rfl, by simp only [residue_ne_iff]⟩

end Sys2Proof.Machine
end

section
/-!
The commands of a Sheaf engine that pass every check and meet no fault (R97, R98, R115): one rule for the shared operation State.command, and from it
the obligations on MATMUL and CONV, ATTN and RNN_STEP, VECTOR and DIGEST.
-/
namespace Sys2Proof.Machine

/-! ### The rule -/

/-- No hardware fault strikes no command. -/
@[simp] theorem struck_none (c : Cmd) (r : List Word) (p : Plan) : struck c r p .none = .none := rfl

/-- An execution that meets no fault ends with its results written. -/
theorem State.endRun_of_clean {s : State} {e : Nat} {c : Cmd} {r : List Word} {x : Result} (hx : x.Clean) :
    s.endRun e c r .none x = x.ran e c := by
  obtain ⟨hconflict, hfaults⟩ := hx
  simp [State.endRun, hconflict, hfaults, State.hwNote, Result.ran]

/-- The picked command of a row that passes every check and meets no fault writes its results and is done. -/
theorem State.command_of_accepts {s : State} {e : Nat} {c : Cmd} {r : List Word} {mine : Cmd → Bool} {plan : Cmd → List Word → Plan}
    {body : Cmd → List Word → Result} (hmine : mine c = true) (hacc : s.Accepts e c r (plan c r)) (hx : (body c r).Clean) :
    s.command e .none mine plan body = (body c r).ran e c := by
  obtain ⟨hsel, hbase, hfmt, hlimit, hcached, hrec, hplan⟩ := hacc
  simp [State.command, hsel, hmine, hbase, hfmt, Nat.not_lt.2 hlimit, hcached, hrec, hplan, State.endRun_of_clean hx]

/-! ### The obligations -/

/-- Settles O6: the rule of the engine commands, each row taking the commands of its opcode and mode. -/
theorem arrayCommands : Obligations.ArrayCommands := by
  unfold Obligations.ArrayCommands
  intro s e c r
  refine ⟨fun hop hacc hx => ?_, fun hop hmode hacc hx => ?_, fun hop hmode hacc hx => ?_, fun hop hmode hacc hx => ?_⟩
  · exact congrArg Host.Outcome.next (State.command_of_accepts (by simp [hop]) hacc hx)
  all_goals exact congrArg Host.Outcome.next (State.command_of_accepts (by simp [hop, hmode]) hacc hx)

/-- Settles O7: the same rule; the three rows of ATTN share their body and differ in the mode they take. -/
theorem attentionAndRecurrence : Obligations.AttentionAndRecurrence := by
  unfold Obligations.AttentionAndRecurrence
  intro s e c r
  refine ⟨fun hop hmode hacc hx => ?_, fun hop hmode hacc hx => ?_, fun hop hmode hacc hx => ?_, fun hop hacc hx => ?_⟩
  · exact congrArg Host.Outcome.next (State.command_of_accepts (by simp [hop, hmode]) hacc hx)
  · exact congrArg Host.Outcome.next (State.command_of_accepts (by simp [hop, hmode]) hacc hx)
  · exact congrArg Host.Outcome.next (State.command_of_accepts (by simp [hop, hmode]) hacc hx)
  · exact congrArg Host.Outcome.next (State.command_of_accepts (by simp [hop]) hacc hx)

/-- Settles O8: the same rule, each row of VECTOR taking the commands of its VOP. -/
theorem vectorCommands : Obligations.VectorCommands := by
  unfold Obligations.VectorCommands
  intro s e c r
  refine ⟨fun hop hv hacc hx => ?_, fun hop hv hacc hx => ?_, fun hop hv hacc hx => ?_, fun hop hv hacc hx => ?_, fun hop hv hacc hx => ?_,
    fun hop hv hacc hx => ?_, fun hop hv hacc hx => ?_, fun hop hacc hx => ?_⟩
  case refine_8 => exact congrArg Host.Outcome.next (State.command_of_accepts (by simp [hop]) hacc hx)
  all_goals exact congrArg Host.Outcome.next (State.command_of_accepts (by simp [isVec, hop, hv]) hacc hx)

end Sys2Proof.Machine
end

section
/-!
Elements of a scratchpad (R37, R38, R81) and what MATMUL leaves there (R117 to R120): what bytes and elements read as after a write of bytes, of a row
of elements, of rows one after the other; from these the obligation MatmulResult.
-/
namespace Sys2Proof.Machine

variable {s t : State} {e e' a b : Nat}

/-! ### Bytes of a scratchpad -/

/-- The list of the scratchpads is in canonical form: what reading them back needs. -/
def State.spadWf (s : State) : Prop := mapWf hbmDflt s.spad = true

theorem State.spWrite_spadWf {bs : List Byte} (h : s.spadWf) : (s.spWrite e a bs).spadWf := putBytes_wf h

/-- What a byte of a scratchpad reads as hangs on the scratchpads alone. -/
theorem State.spByte_congr (h : t.spad = s.spad) (e a : Nat) : t.spByte e a = s.spByte e a := by
  unfold State.spByte
  rw [h]

/-- Bytes written inside a scratchpad are read back there; every other byte of every scratchpad reads as before. -/
theorem State.spByte_spWrite {bs : List Byte} (h : s.spadWf) (ha : a + bs.length ≤ spadSize) (e' b : Nat) :
    (s.spWrite e a bs).spByte e' b = if e' = e ∧ a ≤ b ∧ b < a + bs.length then bs.getD (b - a) 0 else s.spByte e' b := by
  unfold spadSize at ha
  unfold State.spByte spadSize
  by_cases hb : b < 0x3000000
  · rw [if_pos hb, if_pos hb, show spadDflt = hbmDflt from rfl, show (s.spWrite e a bs).spad = putBytes s.spad (spadKey e a) bs from rfl,
      mapGet_putBytes h]
    have hkey : (spadKey e a ≤ spadKey e' b ∧ spadKey e' b < spadKey e a + bs.length) ↔ (e' = e ∧ a ≤ b ∧ b < a + bs.length) := by
      unfold spadKey
      omega
    by_cases hin : e' = e ∧ a ≤ b ∧ b < a + bs.length
    · rw [if_pos hin, if_pos (hkey.2 hin)]
      congr 1
      unfold spadKey
      omega
    · rw [if_neg hin, if_neg (mt hkey.1 hin)]
  · rw [if_neg hb, if_neg hb, if_neg (by omega)]

/-- The bytes of a range that hold a list read as that list. -/
theorem State.spRead_eq {bs : List Byte} (h : ∀ k, k < bs.length → s.spByte e (a + k) = bs.getD k 0) : s.spRead e a bs.length = bs := by
  induction bs generalizing a with
  | nil => rfl
  | cons x r ih =>
    have h0 := h 0 (Nat.zero_lt_succ _)
    rw [List.length_cons, State.spRead, ih (fun k hk => ?_)]
    · exact congrArg (· :: r) h0
    · have hk1 := h (k + 1) (Nat.succ_lt_succ hk)
      rwa [List.getD_cons_succ, ← Nat.add_assoc, Nat.add_right_comm] at hk1

/-- A range whose bytes agree reads alike. -/
theorem State.spRead_congr {n : Nat} (h : ∀ k, k < n → t.spByte e (a + k) = s.spByte e (a + k)) : t.spRead e a n = s.spRead e a n := by
  induction n generalizing a with
  | zero => rfl
  | succ n ih =>
    rw [State.spRead, State.spRead, ih (fun k hk => ?_)]
    · exact congrArg (· :: _) (h 0 (Nat.zero_lt_succ _))
    · have hk1 := h (k + 1) (Nat.succ_lt_succ hk)
      rwa [← Nat.add_assoc, Nat.add_right_comm] at hk1

/-! ### Elements -/

/-- The bytes of a number of n bytes spell it. -/
theorem leNat_natLe (n v : Nat) : leNat (natLe n v) = v % 256 ^ n := by
  induction n generalizing v with
  | zero => simp [natLe, leNat, Nat.mod_one]
  | succ n ih =>
    rw [natLe, leNat, ih, Nat.pow_succ', Nat.mod_mul]
    simp

@[simp] theorem natLe_length (n v : Nat) : (natLe n v).length = n := by
  induction n generalizing v with
  | zero => rfl
  | succ n ih => rw [natLe, List.length_cons, ih]

theorem getD_append_low {α : Type} {l m : List α} {k : Nat} (d : α) (h : k < l.length) : (l ++ m).getD k d = l.getD k d := by
  rw [List.getD_eq_getElem?_getD, List.getD_eq_getElem?_getD, List.getElem?_append_left h]

theorem getD_append_high {α : Type} {l m : List α} {k : Nat} (d : α) (h : l.length ≤ k) : (l ++ m).getD k d = m.getD (k - l.length) d := by
  rw [List.getD_eq_getElem?_getD, List.getD_eq_getElem?_getD, List.getElem?_append_right h]

/-- Elements of w bytes each in a row: byte k of element j. -/
theorem getD_flatMap_natLe {w : Nat} {cs : List Nat} {j k : Nat} (hj : j < cs.length) (hk : k < w) :
    (cs.flatMap (natLe w)).getD (j * w + k) 0 = (natLe w (cs.getD j 0)).getD k 0 := by
  induction cs generalizing j with
  | nil => exact absurd hj (Nat.not_lt_zero j)
  | cons c r ih =>
    rw [List.flatMap_cons]
    cases j with
    | zero => rw [Nat.zero_mul, Nat.zero_add, getD_append_low _ (by simpa using hk), List.getD_cons_zero]
    | succ j =>
      have hsplit : (j + 1) * w + k = w + (j * w + k) := by rw [Nat.succ_mul]; omega
      rw [getD_append_high _ (by rw [natLe_length, hsplit]; omega), natLe_length, hsplit, Nat.add_sub_cancel_left,
        List.getD_cons_succ, ih (Nat.lt_of_succ_lt_succ hj)]

/-- Elements of four bits in a row, two to a byte: the half of element j. -/
theorem packNibbles_getD {keep : Nat} {cs : List Nat} (heven : cs.length % 2 = 0) {j : Nat} (hj : j < cs.length) :
    (if j % 2 = 0 then ((packNibbles keep cs).getD (j / 2) 0).toNat % 16 else ((packNibbles keep cs).getD (j / 2) 0).toNat / 16) =
      cs.getD j 0 % 16 := by
  fun_induction packNibbles keep cs generalizing j with
  | case1 => exact absurd hj (Nat.not_lt_zero j)
  | case2 c => simp at heven
  | case3 c d r ih =>
    match j with
    | 0 => simp
    | 1 =>
      simp
      omega
    | j + 2 =>
      have := ih (by simp at heven; omega) (j := j) (by simpa using hj)
      rw [Nat.add_mod_right, show (j + 2) / 2 = j / 2 + 1 by omega, List.getD_cons_succ, List.getD_cons_succ, List.getD_cons_succ]
      exact this

theorem packNibbles_length {keep : Nat} {cs : List Nat} (heven : cs.length % 2 = 0) : (packNibbles keep cs).length = cs.length / 2 := by
  fun_induction packNibbles keep cs with
  | case1 => rfl
  | case2 c => simp at heven
  | case3 c d r ih =>
    have := ih (by simp at heven; omega)
    simp only [List.length_cons, this]
    omega

/-- An element takes four bits or whole bytes (R37). -/
theorem fmtBits_cases (f : Nat) : fmtBits f = 4 ∨ fmtBits f ≠ 4 ∧ fmtBits f = 8 * (fmtBits f / 8) ∧ 0 < fmtBits f / 8 := by
  unfold fmtBits
  split <;> simp

/-- A row of elements as bytes. -/
def codeBytes (f keep : Nat) (cs : List Nat) : List Byte :=
  if fmtBits f = 4 then packNibbles keep cs else cs.flatMap (natLe (fmtBits f / 8))

theorem State.putCodes_eq (f : Nat) (cs : List Nat) :
    s.putCodes e f a cs = s.spWrite e a (codeBytes f ((s.spByte e (a + cs.length / 2)).toNat / 16) cs) := by
  unfold State.putCodes codeBytes
  split <;> rfl

/-- A row of elements that fills whole bytes takes the bytes of its format. -/
theorem codeBytes_length {f keep : Nat} {cs : List Nat} (heven : cs.length % 2 = 0) : (codeBytes f keep cs).length = fmtBytes f cs.length := by
  unfold codeBytes fmtBytes
  rcases fmtBits_cases f with h4 | ⟨h4, hw, -⟩
  · rw [if_pos h4, packNibbles_length heven, h4]
    omega
  · rw [if_neg h4, List.length_flatMap, hw, List.map_congr_left (fun c _ => natLe_length _ c), List.map_const', List.sum_replicate_nat,
      Nat.mul_div_cancel_left _ (by decide), Nat.mul_left_comm]
    omega

theorem State.putCodes_spadWf {f : Nat} {cs : List Nat} (h : s.spadWf) : (s.putCodes e f a cs).spadWf := by
  rw [State.putCodes_eq]
  exact State.spWrite_spadWf h

/-- A row of elements written inside a scratchpad stands there byte by byte; every other byte reads as before. -/
theorem State.spByte_putCodes {f : Nat} {cs : List Nat} (h : s.spadWf) (heven : cs.length % 2 = 0) (ha : a + fmtBytes f cs.length ≤ spadSize)
    (e' b : Nat) :
    (s.putCodes e f a cs).spByte e' b = if e' = e ∧ a ≤ b ∧ b < a + fmtBytes f cs.length then
      (codeBytes f ((s.spByte e (a + cs.length / 2)).toNat / 16) cs).getD (b - a) 0 else s.spByte e' b := by
  rw [State.putCodes_eq, State.spByte_spWrite h (by rwa [codeBytes_length heven]), codeBytes_length heven]

/-- A row of elements whose bytes agree reads alike. -/
theorem State.code_congr {f n j : Nat} (hj : j < n) (h : ∀ b, a ≤ b → b < a + fmtBytes f n → t.spByte e b = s.spByte e b) :
    t.code e f a j = s.code e f a j := by
  unfold State.code
  unfold fmtBytes at h
  rcases fmtBits_cases f with h4 | ⟨h4, hw, hpos⟩
  · rw [if_pos h4, if_pos h4, h (a + j / 2) (Nat.le_add_right _ _) (by rw [h4]; omega)]
  · rw [if_neg h4, if_neg h4]
    generalize fmtBits f / 8 = w at *
    have hrow : j * w + w ≤ n * w := by rw [← Nat.succ_mul]; exact Nat.mul_le_mul_right w hj
    have hlen : (n * fmtBits f + 7) / 8 = n * w := by rw [hw, Nat.mul_left_comm]; omega
    rw [State.spRead_congr (fun k hk => h _ (by omega) (by omega))]

/-- A row of elements that stands in a scratchpad is read element by element. -/
theorem State.code_of_bytes {f keep j : Nat} {cs : List Nat} (heven : cs.length % 2 = 0) (hj : j < cs.length)
    (h : ∀ k, k < fmtBytes f cs.length → s.spByte e (a + k) = (codeBytes f keep cs).getD k 0) :
    s.code e f a j = cs.getD j 0 % 2 ^ fmtBits f := by
  unfold State.code
  unfold fmtBytes codeBytes at h
  rcases fmtBits_cases f with h4 | ⟨h4, hw, hpos⟩
  · simp only [if_pos h4] at h ⊢
    rw [h (j / 2) (by rw [h4]; omega), h4]
    exact packNibbles_getD heven hj
  · simp only [if_neg h4] at h ⊢
    rw [hw, Nat.pow_mul, ← hw]
    generalize fmtBits f / 8 = w at *
    have hrow : j * w + w ≤ cs.length * w := by rw [← Nat.succ_mul]; exact Nat.mul_le_mul_right w hj
    have hlen : (cs.length * fmtBits f + 7) / 8 = cs.length * w := by rw [hw, Nat.mul_left_comm]; omega
    have hread : s.spRead e (a + j * w) (natLe w (cs.getD j 0)).length = natLe w (cs.getD j 0) := by
      refine State.spRead_eq (fun k hk => ?_)
      rw [natLe_length] at hk
      rw [Nat.add_assoc, h (j * w + k) (by omega), getD_flatMap_natLe hj hk]
    rw [natLe_length] at hread
    rw [hread, leNat_natLe]

/-! ### Rows of elements -/

/-- Rows of elements written one after the other, row i at o + ld × (k + i). -/
def State.putCodeRows (s : State) (e f o ld : Nat) (rows : List (List Nat)) (k : Nat) : State :=
  (rows.zipIdx k).foldl (fun s x => s.putCodes e f (o + ld * x.2) x.1) s

/-- What rows of n elements each leave that lie apart inside the scratchpad: every element reads as its code, every byte outside the rows as before. -/
theorem State.putCodeRows_spec {f o ld n : Nat} {rows : List (List Nat)} {k : Nat} (hwf : s.spadWf) (heven : n % 2 = 0) (hn : ∀ r ∈ rows, r.length = n)
    (hld : fmtBytes f n ≤ ld) (hend : ∀ i, i < rows.length → o + ld * (k + i) + fmtBytes f n ≤ spadSize) :
    (∀ i j, i < rows.length → j < n →
      (s.putCodeRows e f o ld rows k).code e f (o + ld * (k + i)) j = (rows.getD i []).getD j 0 % 2 ^ fmtBits f) ∧
    (∀ e' b, (e' = e → ∀ i, i < rows.length → b < o + ld * (k + i) ∨ o + ld * (k + i) + fmtBytes f n ≤ b) →
      (s.putCodeRows e f o ld rows k).spByte e' b = s.spByte e' b) ∧
    (s.putCodeRows e f o ld rows k).hbm = s.hbm := by
  induction rows generalizing s k with
  | nil => exact ⟨fun i j hi => absurd hi (Nat.not_lt_zero i), fun e' b _ => rfl, rfl⟩
  | cons cs rows ih =>
    have hcs : cs.length = n := hn cs List.mem_cons_self
    have hfirst : o + ld * k + fmtBytes f cs.length ≤ spadSize := hcs ▸ hend 0 (Nat.zero_lt_succ _)
    have hput := fun e' b => State.spByte_putCodes (e := e) hwf (hcs ▸ heven) hfirst e' b
    have hwf' : (s.putCodes e f (o + ld * k) cs).spadWf := State.putCodes_spadWf hwf
    have hnext : ∀ i, k + (i + 1) = k + 1 + i := fun i => by omega
    have hend' : ∀ i, i < rows.length → o + ld * (k + 1 + i) + fmtBytes f n ≤ spadSize := fun i hi =>
      hnext i ▸ hend (i + 1) (Nat.succ_lt_succ hi)
    obtain ⟨hcode, hframe, hhbm⟩ := ih hwf' (fun r hr => hn r (List.mem_cons_of_mem _ hr)) hend'
    refine ⟨fun i j hi hj => ?_, fun e' b hb => ?_, ?_⟩
    · cases i with
      | zero =>
        rw [Nat.add_zero]
        refine State.code_of_bytes (keep := (s.spByte e (o + ld * k + cs.length / 2)).toNat / 16) (hcs ▸ heven) (hcs ▸ hj) (fun b hb => ?_)
        replace hb : b < fmtBytes f cs.length := hb
        refine (hframe e _ (fun _ i _ => .inl ?_)).trans ?_
        · have : ld * (k + 1 + i) = ld * k + ld + ld * i := by rw [Nat.mul_add, Nat.mul_add, Nat.mul_one]
          rw [← hcs] at hld
          omega
        · rw [hput, if_pos ⟨rfl, by omega, by omega⟩, Nat.add_sub_cancel_left]
          rfl
      | succ i =>
        rw [hnext]
        exact hcode i j (Nat.lt_of_succ_lt_succ hi) hj
    · refine (hframe e' b (fun he i hi => ?_)).trans ?_
      · exact hnext i ▸ hb he (i + 1) (Nat.succ_lt_succ hi)
      · rw [hput, if_neg]
        rintro ⟨he, hlo, hhi⟩
        have := hb he 0 (Nat.zero_lt_succ _)
        rw [Nat.add_zero, ← hcs] at this
        omega
    · refine hhbm.trans ?_
      rw [State.putCodes_eq]
      rfl

/-! ### MATMUL -/

variable {c : Cmd} {r : List Word}

/-- The codes of row i of the output (R118, R55 to R57). -/
def State.mmRow (s : State) (e : Nat) (c : Cmd) (r : List Word) (i : Nat) : List Nat :=
  (List.range (mmN c)).map (fun j =>
    (storeElem c r (c.w 14) (if readsVec (recPost r) then s.spWord e ((c.w 15).toNat + 4 * j) else 0)
      (elemGran c.anchor c.kind (s.startOf e c (c.w 13).toNat (termCount c.kind (mmK c) c.g) (i * mmN c + j)) (s.mmGroups e c i j))).code)

/-- MATMUL writes its rows of codes one after the other. -/
theorem State.matmulBody_out :
    (s.matmulBody e c r).out
      = s.putCodeRows e (c.final r) (c.w 9).toNat (64 * c.f 12 31 16) ((List.range (mmM c)).map (s.mmRow e c r)) 0 := by
  unfold State.matmulBody State.putCodeRows State.mmRow
  simp only [List.zipIdx_map, List.foldl_map, List.map_map, List.zipIdx_map, Prod.map_fst, Prod.map_snd, Function.comp_def, id]

/-- An accepted MATMUL has whole groups of 32 columns (R117) and rows that lie apart (R115). -/
theorem State.Accepts.matmul_shape {o : Nat} (h : s.Accepts o c r (matmulPlan c r)) :
    mmN c % 32 = 0 ∧ fmtBytes (c.final r) (mmN c) ≤ 64 * c.f 12 31 16 := by
  have hplan := h.plan
  have hshape : (matmulPlan c r).shape.find? (fun x => !x.2) = none := by
    unfold State.planFail at hplan
    split at hplan
    · cases hplan
    · assumption
  rw [List.find?_eq_none] at hshape
  have hcols := hshape (11, c.f 11 31 20 == 0 && decide (32 ≤ mmN c) && mmN c % 32 == 0) (by simp [matmulPlan])
  have hrows := hshape (12, decide (fmtBytes c.aFmt (mmK c) ≤ 64 * c.f 12 15 0) && decide (fmtBytes (c.final r) (mmN c) ≤ 64 * c.f 12 31 16))
    (by simp [matmulPlan])
  simp at hcols hrows
  exact ⟨hcols.2, hrows.2⟩

/-! ### The obligation -/

/-- Settles O60: an accepted MATMUL is done with its rows written, and rows that lie apart are read back element by element. -/
theorem matmulResult : Obligations.MatmulResult := by
  unfold Obligations.MatmulResult
  intro s t e c r o ld f hcan hop hacc hclean ho hld hf hend ht
  obtain ⟨hcols, hstride⟩ := hacc.matmul_shape
  have hexec : exec (.matmul e .none) s = .next ((s.matmulBody e.val c r).ran e.val c) :=
    congrArg Host.Outcome.next (State.command_of_accepts (by simp [hop]) hacc hclean)
  obtain rfl : (s.matmulBody e.val c r).ran e.val c = t := Host.Outcome.next.inj (hexec.symm.trans ht)
  have hbyte : ∀ e' b, ((s.matmulBody e.val c r).ran e.val c).spByte e' b = (s.matmulBody e.val c r).out.spByte e' b :=
    State.spByte_congr rfl
  have hspad : s.spadWf := (State.canonical_iff.1 hcan).1.1.1.1.1.1.2
  subst ho hld hf
  obtain ⟨hcode, hframe, hhbm⟩ := State.putCodeRows_spec (e := e.val) (f := c.final r) (o := (c.w 9).toNat) (ld := 64 * c.f 12 31 16) (k := 0)
    (rows := (List.range (mmM c)).map (s.mmRow e.val c r)) (n := mmN c) hspad (by omega) (by simp [State.mmRow]) hstride (fun i hi => by
      have hi' : i ≤ mmM c - 1 := by simp at hi; omega
      have := Nat.mul_le_mul_left (64 * c.f 12 31 16) hi'
      rw [Nat.zero_add]
      rw [Nat.mul_comm (mmM c - 1)] at hend
      omega)
  rw [← State.matmulBody_out] at hcode hframe hhbm
  simp only [Nat.zero_add, List.length_map, List.length_range] at hcode hframe
  refine ⟨fun i j hi hj => ?_, fun a ha => ?_, fun e' a he => ?_, hhbm⟩
  · rw [State.code_congr (n := mmN c) hj (fun b _ _ => hbyte e.val b), hcode i j hi hj]
    simp [State.mmRow, hi, hj]
  · rw [hbyte, hframe e.val a (fun _ => ha)]
  · rw [hbyte, hframe e' a (fun h => absurd h he)]

end Sys2Proof.Machine
end

section
/-!
Porter descriptors of one dimension between places of HBM (R100 to R105): what the steps before the move leave alone, the walk of one row, the move of
its bytes; from these the obligation DescriptorMovesBytes.
-/
namespace Sys2Proof.Machine

variable {s t u : State} {p : Nat} {d : Desc} {r : Run}

/-! ### What fetching a descriptor changes -/

/-- t is s but for registers of the page of Porter engine p, accounts of tenants and free values taken. -/
structure State.PorterNotes (p : Nat) (s t : State) : Prop where
  hbm : t.hbm = s.hbm
  spad : t.spad = s.spad
  por : t.por = s.por
  fuses : t.fuses = s.fuses
  regsWf : t.regsWf
  rd : ∀ a, a / 4096 ≠ porPage p → t.rd a = s.rd a

theorem State.PorterNotes.refl (h : s.regsWf) : State.PorterNotes p s s := ⟨rfl, rfl, rfl, rfl, h, fun _ _ => rfl⟩

/-- A register of the page written. -/
theorem State.PorterNotes.wr (h : State.PorterNotes p s t) {a : Nat} (ha : a / 4096 = porPage p) (v : Word) : State.PorterNotes p s (t.wr a v) :=
  ⟨h.hbm, h.spad, h.por, h.fuses, State.wr_regsWf h.regsWf, fun b hb =>
    (State.rd_wr_ne h.regsWf v (fun e => hb (by rw [e, ha]))).trans (h.rd b hb)⟩

theorem pdReg_page (p : Nat) {off : Nat} (h : off < 4096) : pdReg p off / 4096 = porPage p := by
  unfold pdReg rga
  omega

theorem State.PorterNotes.pf (h : State.PorterNotes p s t) {off : Nat} (ho : off < 4096) (hi lo v : Nat) :
    State.PorterNotes p s (t.pf (pdReg p off) hi lo v) := h.wr (pdReg_page p ho) _

theorem State.PorterNotes.wb (h : State.PorterNotes p s t) {off : Nat} (ho : off < 4096) (i : Nat) (b : Bool) :
    State.PorterNotes p s (t.wb (pdReg p off) i b) := h.wr (pdReg_page p ho) _

theorem State.PorterNotes.wr64 (h : State.PorterNotes p s t) {off : Nat} (ho : off + 4 < 4096) (v : Nat) :
    State.PorterNotes p s (t.wr64 (pdReg p off) v) := by
  have hhigh : (pdReg p off + 4) / 4096 = porPage p := by
    unfold pdReg rga
    omega
  exact (h.wr (pdReg_page p (by omega)) _).wr hhigh _

theorem State.PorterNotes.chargeHbm (h : State.PorterNotes p s t) (tn n : Nat) : State.PorterNotes p s (t.chargeHbm tn n) := by
  obtain ⟨hhbm, hspad, hpor, hfuses, hwf, hrd⟩ := h
  unfold State.chargeHbm
  split <;> exact ⟨hhbm, hspad, hpor, hfuses, hwf, hrd⟩

theorem State.PorterNotes.take (h : State.PorterNotes p s t) : State.PorterNotes p s t.take.2 := by
  obtain ⟨hhbm, hspad, hpor, hfuses, hwf, hrd⟩ := h
  exact ⟨hhbm, hspad, hpor, hfuses, hwf, hrd⟩

/-- The region table, the Field's size and this module's number stand outside the page. -/
theorem State.PorterNotes.regCheck (h : State.PorterNotes p s t) (tn : Nat) (w : Bool) (a n : Nat) : t.regCheck tn w a n = s.regCheck tn w a n :=
  State.regCheck_congr (fun b hb => h.rd b (by rw [hb]; unfold porPage; omega)) tn w a n

theorem State.PorterNotes.fieldSize (h : State.PorterNotes p s t) (hp : p < 16) : t.fieldSize = s.fieldSize := by
  have htopo : t.rd aTopo = s.rd aTopo := h.rd _ (by unfold porPage aTopo rga; omega)
  unfold State.fieldSize State.topo State.torusX State.torusY State.rf
  rw [htopo]

theorem State.PorterNotes.porter (h : State.PorterNotes p s t) (q : Nat) : t.porter q = s.porter q := by
  rw [State.porter, h.por, State.porter]

/-! ### One row between places of HBM -/

/-- A descriptor of one dimension between places of HBM. -/
structure Desc.Flat (d : Desc) : Prop where
  dims : d.dims = 1
  src : d.srcSpace = 0
  dst : d.dstSpace = 0
  counts : d.counts = []

/-- Its walk is one row (R102, R103), backward where the destination overlaps the source from above (R104). -/
theorem Desc.Flat.walkOf (h : d.Flat) : ∃ rev0, walkOf d = some (rev0, false) := by
  unfold Sys2Proof.Machine.walkOf
  simp only [h.dims]
  split
  · exact ⟨false, rfl⟩
  · exact ⟨_, rfl⟩

theorem Desc.Flat.rowOffs (h : d.Flat) (rev1 : Bool) : rowOffs d.counts d.srcStr d.dstStr rev1 = [(0, 0)] := by
  rw [h.counts]
  rfl

/-- Where the region table permits both sides, nothing stops it. -/
theorem Desc.Flat.firstStop (h : d.Flat) {c : Cmd} {rev0 : Bool} (hsrc : s.regCheck c.owner false d.src d.size = .ok)
    (hdst : s.regCheck c.owner true d.dst d.size = .ok) : s.firstStop c d rev0 0 [(0, 0)] = none := by
  have hcheck : ∀ (w : Bool) (a : Nat), s.regCheck c.owner w a d.size = .ok → ∀ e, s.rowCheck 0 e c.owner (c.q % 4) w ((a : Int) + 0) d.size = none := by
    intro w a ha e
    have hneg : ¬((a : Int) < 0) := by omega
    simp [State.rowCheck, hneg, ha]
  simp only [State.firstStop, h.src, h.dst, hcheck false d.src hsrc, hcheck true d.dst hdst, Option.map_none]

/-- The bytes of the one row move, and the Porter goes on. -/
theorem Desc.Flat.moveDesc (h : d.Flat) {c : Cmd} {i : Nat} (q : Nat) :
    s.moveDesc q c i d [(0, 0)] = (s.hbmWrite d.dst (s.hbmRead d.src d.size)).countBytes q c.owner d d.size := by
  simp [State.moveDesc, State.putRows, State.readRows, State.writeRows, State.sideRead, State.sideWrite, h.src, h.dst]

/-- Counting the bytes moved changes registers and accounts. -/
theorem State.countBytes_hbm (q tn n : Nat) : (s.countBytes q tn d n).hbm = s.hbm := by
  unfold State.countBytes State.chargeHbm
  dsimp only
  split <;> rfl

theorem State.countBytes_spad (q tn n : Nat) : (s.countBytes q tn d n).spad = s.spad := by
  unfold State.countBytes State.chargeHbm
  dsimp only
  split <;> rfl

theorem State.countBytes_por (q tn n : Nat) : (s.countBytes q tn d n).por = s.por := by
  unfold State.countBytes State.chargeHbm
  dsimp only
  split <;> rfl

/-- A descriptor of one dimension whose checks pass moves its row and goes on (R101, R104), after steps that note it in registers and accounts. -/
theorem State.runDesc_of_flat {w : List Nat} {i addr : Nat} (hp : p < 16) (hs : s.regsWf) (hw : w = wordsAt (s.hbmRead addr 64)) (hd : d = toDesc w)
    (hok : descOk s.me s.fieldSize w d = true) (hflat : d.Flat) (hsrc : s.regCheck r.cmd.owner false d.src d.size = .ok)
    (hdst : s.regCheck r.cmd.owner true d.dst d.size = .ok) :
    ∃ u, State.PorterNotes p s u ∧ s.runDesc p r i addr .none =
      ((u.hbmWrite d.dst (u.hbmRead d.src d.size)).countBytes p r.cmd.owner d d.size).nextDesc p r d := by
  obtain ⟨rev0, hwalk⟩ := hflat.walkOf
  have h0 := (State.PorterNotes.refl (p := p) hs).pf (off := 0x40) (by decide) 20 16 d.dims
  have h1 := (h0.wb (off := 0x40) (by decide) 19 rev0).wb (off := 0x40) (by decide) 20 false
  refine ⟨_, h1.take, ?_⟩
  have hme : (s.pf (pdReg p 0x40) 20 16 d.dims).me = s.me := rfl
  have hread : (s.pf (pdReg p 0x40) 20 16 d.dims).fieldSize = s.fieldSize := h0.fieldSize hp
  have hstop := hflat.firstStop (c := r.cmd) (rev0 := rev0) ((h1.take.regCheck _ _ _ _).trans hsrc) ((h1.take.regCheck _ _ _ _).trans hdst)
  have hspace : ¬ (0 : Nat) = 2 := by decide
  unfold State.runDesc
  dsimp only
  rw [← hw, ← hd, hme, hread, hok, hwalk]
  dsimp only
  rw [hflat.rowOffs, hstop]
  simp only [hflat.dst, earlier, readUe, readsCe, Bool.not_true, Bool.false_eq_true, if_false, hflat.moveDesc, false_and, hspace]

/-! ### The obligation -/

/-- The fields of a descriptor of one dimension. -/
theorem toDesc_flat {w : List Nat} (hd : d = toDesc w) (hdims : d.dims = 1) (hsrc : d.srcSpace = 0) (hdst : d.dstSpace = 0) : d.Flat := by
  refine ⟨hdims, hsrc, hdst, ?_⟩
  subst hd
  have hn : nfld (w.getD 0 0) 2 0 = 1 := hdims
  change List.take (nfld (w.getD 0 0) 2 0 - 1) _ = []
  rw [hn]
  rfl

theorem State.hbmByte_congr {t : State} (h : t.hbm = s.hbm) (a : Nat) : t.hbmByte a = s.hbmByte a := by
  rw [State.hbmByte, h, State.hbmByte]

/-- What stands in HBM once the row has moved and the Porter has gone on (R104, R105). -/
theorem State.hbmByte_moved (h : mapWf hbmDflt u.hbm = true) (q tn n b : Nat) :
    (((u.hbmWrite d.dst (u.hbmRead d.src d.size)).countBytes q tn d n).nextDesc p r d).hbmByte b =
      if d.dst ≤ b ∧ b < d.dst + d.size then u.hbmByte (d.src + (b - d.dst)) else u.hbmByte b := by
  have hmem : (((u.hbmWrite d.dst (u.hbmRead d.src d.size)).countBytes q tn d n).nextDesc p r d).hbm =
      (u.hbmWrite d.dst (u.hbmRead d.src d.size)).hbm := State.countBytes_hbm q tn n
  rw [State.hbmByte_congr hmem, State.hbmByte_hbmWrite h, State.hbmRead_length]
  split
  · next hin => exact State.hbmRead_getD _ _ _ (by omega)
  · rfl

/-- Settles O11: the fetch and the move of the one row; the bytes written are those that stood at the source. -/
theorem descriptorMovesBytes : Obligations.DescriptorMovesBytes := by
  unfold Obligations.DescriptorMovesBytes
  intro s p r d w addr hcan hrun hdone haddr hw hd hok hdims hss hds hlist hsrc hdst
  have hcanon := State.canonical_iff.1 hcan
  obtain ⟨⟨⟨⟨⟨⟨⟨hhbm, -⟩, hregs⟩, -⟩, hpor⟩, -⟩, -⟩, -⟩ := hcanon
  have hflat := toDesc_flat hd hdims hss hds
  have h0 := ((State.PorterNotes.refl (p := p.val) hregs).pf (off := 0x40) (by decide) 15 0 (s.porter p.val).index).wr64 (off := 0x48) (by decide) addr
  have h1 := h0.chargeHbm r.cmd.owner 64
  obtain ⟨u, hu, hmove⟩ := State.runDesc_of_flat (r := r) (i := (s.porter p.val).index) p.isLt h1.regsWf (addr := addr) (w := w)
    (by rw [State.hbmRead_congr h1.hbm]; exact hw) hd (by rw [h1.fieldSize p.isLt, State.me, h1.fuses]; exact hok) hflat
    ((h1.regCheck _ _ _ _).trans hsrc) ((h1.regCheck _ _ _ _).trans hdst)
  have hfetch : exec (.porterDescriptor p .none) s = .next ((((s.pf (pdReg p.val 0x40) 15 0 (s.porter p.val).index).wr64 (pdReg p.val 0x48)
      addr).chargeHbm r.cmd.owner 64).runDesc p.val r (s.porter p.val).index addr .none) := by
    change execPorterDescriptor p .none s = _
    unfold execPorterDescriptor
    rw [hrun]
    dsimp only
    rw [hdone, ← haddr, (h0.regCheck _ _ _ _).trans hlist]
    rfl
  have hmem : u.hbm = s.hbm := hu.hbm.trans h1.hbm
  have hspad : u.spad = s.spad := hu.spad.trans h1.spad
  have hporters : u.por = s.por := hu.por.trans h1.por
  have hwf : mapWf hbmDflt u.hbm = true := by rw [hmem]; exact hhbm
  rw [hfetch, hmove]
  refine ⟨_, rfl, fun k hk => ?_, fun a ha => ?_, (State.countBytes_spad ..).trans hspad, ?_⟩
  · rw [State.hbmByte_moved hwf, if_pos (by omega), State.hbmByte_congr hmem, Nat.add_sub_cancel_left]
  · rw [State.hbmByte_moved hwf, if_neg (by omega), State.hbmByte_congr hmem]
  · have hcount : ((u.hbmWrite d.dst (u.hbmRead d.src d.size)).countBytes p.val r.cmd.owner d d.size).por = s.por :=
      (State.countBytes_por ..).trans hporters
    have hport : ((u.hbmWrite d.dst (u.hbmRead d.src d.size)).countBytes p.val r.cmd.owner d d.size).porter p.val = s.porter p.val := by
      rw [State.porter, hcount, State.porter]
    unfold State.nextDesc
    dsimp only
    rw [State.porter_setPorter (by rw [hcount]; exact hpor), if_pos rfl, hport]
    exact ⟨rfl, rfl⟩

end Sys2Proof.Machine
end

section
/-!
Rules for reading a state back after the steps that record faults and raise interrupts, in the form the rows of the pages use them.
-/
namespace Sys2Proof.Machine

variable {s t u : State}

/-! ### Addresses of registers -/

@[simp] theorem rga_inj {page a b : Nat} : rga page a = rga page b ↔ a = b := by
  unfold rga
  omega

/-- Registers at different offsets of their pages are different, whatever the pages. -/
theorem rga_ne_of_off {p q a b : Nat} (ha : a < 4096) (hb : b < 4096) (h : a ≠ b) : rga p a ≠ rga q b := by
  unfold rga
  omega

theorem rga_div (page : Nat) {off : Nat} (h : off < 4096) : rga page off / 4096 = page := by
  unfold rga
  omega

theorem rga_mod (page : Nat) {off : Nat} (h : off < 4096) : rga page off % 4096 = off := by
  unfold rga
  omega

/-! ### What differs between two states -/

theorem OnlyRegs.trans (h : OnlyRegs s t) (k : OnlyRegs t u) : OnlyRegs s u := by
  unfold OnlyRegs at *
  rw [k, h]

theorem OnlyRegs.refl (s : State) : OnlyRegs s s := rfl

theorem OnlyRegs.wr (h : OnlyRegs s t) (a : Nat) (v : Word) : OnlyRegs s (t.wr a v) := h.trans (State.wr_onlyRegs t a v)
theorem OnlyRegs.pf (h : OnlyRegs s t) (a hi lo v : Nat) : OnlyRegs s (t.pf a hi lo v) := h.wr _ _
theorem OnlyRegs.wb (h : OnlyRegs s t) (a i : Nat) (b : Bool) : OnlyRegs s (t.wb a i b) := h.wr _ _
theorem OnlyRegs.wr64 (h : OnlyRegs s t) (a v : Nat) : OnlyRegs s (t.wr64 a v) := (h.wr _ _).wr _ _

theorem OnlyRegsMsix.trans (h : OnlyRegsMsix s t) (k : OnlyRegsMsix t u) : OnlyRegsMsix s u := by
  unfold OnlyRegsMsix at *
  rw [k, h]

theorem OnlyRegsMsix.refl (s : State) : OnlyRegsMsix s s := rfl

theorem OnlyRegs.msix (h : OnlyRegs s t) : OnlyRegsMsix s t := by
  unfold OnlyRegs at h
  unfold OnlyRegsMsix
  rw [h]

theorem OnlyRegsMsix.wr (h : OnlyRegsMsix s t) (a : Nat) (v : Word) : OnlyRegsMsix s (t.wr a v) := h.trans (State.wr_onlyRegs t a v).msix
theorem OnlyRegsMsix.pf (h : OnlyRegsMsix s t) (a hi lo v : Nat) : OnlyRegsMsix s (t.pf a hi lo v) := h.wr _ _
theorem OnlyRegsMsix.wb (h : OnlyRegsMsix s t) (a i : Nat) (b : Bool) : OnlyRegsMsix s (t.wb a i b) := h.wr _ _

theorem OnlyRegsMsix.raise (h : OnlyRegsMsix s t) (page bit : Nat) : OnlyRegsMsix s (t.raise page bit) := by
  obtain ⟨x, hx⟩ := State.raise_eq (s := t) (page := page) (bit := bit)
  rw [hx]
  exact h.trans rfl

/-! ### Reading registers and fields back -/

theorem State.rf_wr_ne (h : s.regsWf) {a b hi lo : Nat} (v : Word) (hne : b ≠ a) : (s.wr a v).rf b hi lo = s.rf b hi lo := by
  unfold State.rf
  rw [State.rd_wr_ne h v hne]

theorem State.rb_wr_ne (h : s.regsWf) {a b i : Nat} (v : Word) (hne : b ≠ a) : (s.wr a v).rb b i = s.rb b i := by
  unfold State.rb
  rw [State.rd_wr_ne h v hne]

theorem State.rf_congr (h : t.regs = s.regs) (a hi lo : Nat) : t.rf a hi lo = s.rf a hi lo := by
  unfold State.rf
  rw [State.rd_congr h]

theorem State.rb_congr (h : t.regs = s.regs) (a i : Nat) : t.rb a i = s.rb a i := by
  unfold State.rb
  rw [State.rd_congr h]

/-- Raising an event touches IRQ_RAW of its page only (R455). -/
theorem State.rd_raise_ne (h : s.regsWf) {page bit a : Nat} (hne : a ≠ rga page oRaw) : (s.raise page bit).rd a = s.rd a := by
  rw [State.rd_raise h, if_neg hne]

theorem State.rf_raise_ne (h : s.regsWf) {page bit a hi lo : Nat} (hne : a ≠ rga page oRaw) : (s.raise page bit).rf a hi lo = s.rf a hi lo := by
  unfold State.rf
  rw [State.rd_raise_ne h hne]

theorem State.rb_raise_ne (h : s.regsWf) {page bit a i : Nat} (hne : a ≠ rga page oRaw) : (s.raise page bit).rb a i = s.rb a i := by
  unfold State.rb
  rw [State.rd_raise_ne h hne]

/-- A counter field that saturates stays in its register (R11). -/
theorem State.rf_incSat (h : s.regsWf) (a : Nat) {hi lo : Nat} (h1 : lo ≤ hi) (h2 : hi < 32) :
    (s.incSat a hi lo).rf a hi lo = satInc (s.rf a hi lo) (2 ^ (hi + 1 - lo) - 1) % 2 ^ (hi + 1 - lo) := by
  unfold State.incSat
  exact State.rf_pf h a h1 h2

theorem OnlyRegsMsix.incSat (h : OnlyRegsMsix s t) (a hi lo : Nat) : OnlyRegsMsix s (t.incSat a hi lo) := h.pf _ _ _ _

/-! ### Faults -/

theorem State.recordFault_onlyRegsMsix (s : State) (page code info : Nat) : OnlyRegsMsix s (s.recordFault page code info) := by
  have hfirst : OnlyRegsMsix s ((s.pf (rga page oCode) 15 0 code).wr (rga page oInfo) (w32 info)) := ((OnlyRegsMsix.refl s).pf ..).wr ..
  unfold State.recordFault
  dsimp only
  split
  · split
    · exact hfirst
    · exact hfirst.raise ..
  · exact (OnlyRegsMsix.refl s).incSat ..

theorem State.recordFault_regsWf (h : s.regsWf) (page code info : Nat) : (s.recordFault page code info).regsWf := by
  unfold State.recordFault
  dsimp only
  split
  · split
    · exact State.wr_regsWf (State.pf_regsWf h)
    · exact State.raise_regsWf (State.wr_regsWf (State.pf_regsWf h))
  · exact State.pf_regsWf h

/-- The first fault of a page fills FAULT_CODE and FAULT_INFO (R456). -/
theorem State.recordFault_first (h : s.regsWf) {page code info : Nat} (h0 : s.rf (rga page oCode) 15 0 = 0) :
    (s.recordFault page code info).rd (rga page oCode) = setFld (s.rd (rga page oCode)) 15 0 code ∧
      (s.recordFault page code info).rd (rga page oInfo) = w32 info := by
  have hw := State.pf_regsWf (a := rga page oCode) (hi := 15) (lo := 0) (v := code) h
  have hcode : ((s.pf (rga page oCode) 15 0 code).wr (rga page oInfo) (w32 info)).rd (rga page oCode) = setFld (s.rd (rga page oCode)) 15 0 code := by
    rw [State.rd_wr_ne hw _ (by simp [oCode, oInfo]), State.rd_pf h, if_pos rfl]
  have hinfo : ((s.pf (rga page oCode) 15 0 code).wr (rga page oInfo) (w32 info)).rd (rga page oInfo) = w32 info := State.rd_wr_same hw _ _
  unfold State.recordFault
  dsimp only
  rw [if_pos h0]
  split
  · exact ⟨hcode, hinfo⟩
  · rw [State.rd_raise_ne (State.wr_regsWf hw) (rga_ne_of_off (by decide) (by decide) (by decide)),
      State.rd_raise_ne (State.wr_regsWf hw) (rga_ne_of_off (by decide) (by decide) (by decide))]
    exact ⟨hcode, hinfo⟩

/-- Another fault counts in EXTRA and changes nothing else (R456). -/
theorem State.recordFault_more {page code info : Nat} (h0 : s.rf (rga page oCode) 15 0 ≠ 0) :
    s.recordFault page code info = s.incSat (rga page oCode) 31 24 := by
  unfold State.recordFault
  dsimp only
  rw [if_neg h0]

end Sys2Proof.Machine
end

section
/-!
The common header of a page (R449 to R458) and IRQ_ROUTE (R462): one rule per row; from these the obligation HeaderWrites.
-/
namespace Sys2Proof.Machine

variable {s : State} {f : Func} {page : Nat} {v : Word}

/-! ### LOCK, IRQ_EN, IRQ_PEND, IRQ_FORCE, ERRINJ -/

theorem exec_lock (hf : isVf f = false) (hw : s.mayWrite f (rga page oLock) = true) (hv : tbit v 0 = true) :
    exec (.lock f page v) s = .next (s.wb (rga page oLock) 0 true) := by
  change execLock f page v s = _
  simp [execLock, State.guarded_of_mayWrite hw, State.wrLock, hf, hv]

/-- Another request while something is pending only sends messages. -/
theorem State.requestIfPending_msix (s : State) (page : Nat) : ∃ m, (if s.irqPend page = 0 then s else s.requestIrq page) = { s with msix := m } := by
  split
  · exact ⟨s.msix, rfl⟩
  · exact State.requestIrq_msix

theorem exec_irqEnWrite (hu : usesIrq page = true) (hw : s.mayWrite f (rga page oEn) = true) :
    ∃ m, exec (.irqEnWrite f page v) s = .next { s.wr (rga page oEn) v with msix := m } := by
  obtain ⟨m, hm⟩ := State.requestIfPending_msix (s.wr (rga page oEn) v) page
  refine ⟨m, ?_⟩
  change execIrqEnWrite f page v s = _
  rw [execIrqEnWrite, State.guarded_of_mayWrite hw, ← hm]
  simp [State.wrIrqEn, hu]

theorem exec_irqPendWrite (hu : usesIrq page = true) (hw : s.mayWrite f (rga page oPend) = true) (arriving : Word) :
    ∃ m, exec (.irqPendWrite f page v arriving) s
      = .next { s.wr (rga page oRaw) ((s.rd (rga page oRaw) &&& ~~~ v) ||| arriving) with msix := m } := by
  obtain ⟨m, hm⟩ := State.requestIfPending_msix (s.wr (rga page oRaw) ((s.rd (rga page oRaw) &&& ~~~ v) ||| arriving)) page
  refine ⟨m, ?_⟩
  change execIrqPendWrite f page v arriving s = _
  rw [execIrqPendWrite, if_pos hw, ← hm]
  simp [State.wrIrqPend, hu]

/-- The management path reaches every page of the map. -/
theorem State.mayWrite_mgmt (s : State) (hu : usesIrq page = true) {off : Nat} (ho : off < 4096) : s.mayWrite .mgmt (rga page off) = true := by
  unfold usesIrq at hu
  obtain ⟨i, hi⟩ : ∃ i, pageId page = some i := by
    cases hp : pageId page with
    | none => simp [hp] at hu
    | some i => exact ⟨i, rfl⟩
  have hpage : pageId (rga page off / 4096) = some i := by rw [rga_div page ho, hi]
  rw [State.mayWrite_eq hpage]
  rfl

theorem exec_irqForce_mgmt (hu : usesIrq page = true) :
    ∃ m, exec (.irqForce .mgmt page v) s = .next { s.wr (rga page oRaw) (s.rd (rga page oRaw) ||| v) with msix := m } := by
  obtain ⟨m, hm⟩ := State.raiseBits_eq (s := s) (page := page) (m := v)
  refine ⟨m, ?_⟩
  change execIrqForce .mgmt page v s = _
  rw [execIrqForce, State.guarded_of_mayWrite (s.mayWrite_mgmt hu (by decide)), ← hm]
  simp [State.wrIrqForce, isMgmt, hu]

theorem exec_errinjWrite_mgmt (hu : usesIrq page = true) :
    ∃ g, exec (.errinjWrite .mgmt page v) s = .next { s.wr (rga page oInj) (v &&& 0x00FFFFFF) with log := g } := by
  obtain ⟨g, hg⟩ := State.logNamed_eq (s := s.wr (rga page oInj) (v &&& 0x00FFFFFF)) (page := 1) (ev := evMgmt) (cls := 4)
    (info := Config.mgmtInfo (rga page oInj) v.toNat) (t := 255)
  refine ⟨g, ?_⟩
  change execErrinjWrite .mgmt page v s = _
  rw [execErrinjWrite, State.guarded_of_mayWrite (s.mayWrite_mgmt hu (by decide)), ← hg]
  simp [State.wrErrinj, isMgmt, hu]

theorem isMgmt_eq_false (hf : f ≠ .mgmt) : isMgmt f = false := by
  cases f with
  | mgmt => exact absurd rfl hf
  | _ => rfl

theorem exec_irqForce_other (hf : f ≠ .mgmt) : exec (.irqForce f page v) s = .next s := by
  change execIrqForce f page v s = _
  simp [execIrqForce, State.guarded, State.wrIrqForce, isMgmt_eq_false hf]

theorem exec_errinjWrite_other (hf : f ≠ .mgmt) : exec (.errinjWrite f page v) s = .next s := by
  change execErrinjWrite f page v s = _
  simp [execErrinjWrite, State.guarded, State.wrErrinj, isMgmt_eq_false hf]

/-! ### FAULT_ACK -/

/-- The state after the clear of FAULT_ACK: CMD_REFUSED, FAULT_CODE and FAULT_INFO are zero (R451, R456). -/
def State.acked (s : State) (page : Nat) : State := ((s.wb (rga page oStat) 12 false).wr (rga page oCode) 0).wr (rga page oInfo) 0

theorem State.acked_onlyRegsMsix (s : State) (page : Nat) : OnlyRegsMsix s (s.acked page) := (((OnlyRegsMsix.refl s).wb ..).wr ..).wr ..

theorem State.acked_regsWf (h : s.regsWf) : (s.acked page).regsWf := State.wr_regsWf (State.wr_regsWf (State.wb_regsWf h))

theorem State.acked_code (h : s.regsWf) : (s.acked page).rd (rga page oCode) = 0 := by
  have hb := State.wb_regsWf (a := rga page oStat) (i := 12) (b := false) h
  unfold State.acked
  rw [State.rd_wr_ne (State.wr_regsWf hb) _ (by simp [oCode, oInfo]), State.rd_wr_same hb]

/-- Faults of the same cycle are recorded after the clear, the lowest code first (R456, R461; log 16). -/
theorem exec_faultAck {i : PageId} {arriving : List (Nat × Word)} (hf : isVf f = false) (hu : usesIrq page = true) (hp : pageId page = some i)
    (he : hasEnable i.block = false) (hw : s.mayWrite f (rga page oCtl) = true) (h3 : tbit v 3 = true) (h1 : tbit v 1 = false) :
    exec (.faultAck f page v arriving) s = .next ((lowFirst arriving).foldl (fun s x => s.recordFault page x.1 x.2.toNat) (s.acked page)) := by
  change execFaultAck f page v arriving s = _
  simp [execFaultAck, State.guarded_of_mayWrite hw, State.wrBlkCtl, State.ackFault, State.acked, hf, hu, hp, he, h3, h1]

/-- The first fault after the clear stands in the registers of its page. -/
theorem State.recordFault_acked (h : s.regsWf) {c : Nat} (hc : c < 65536) (info : Word) :
    ((s.acked page).recordFault page c info.toNat).rf (rga page oCode) 15 0 = c ∧
      ((s.acked page).recordFault page c info.toNat).rd (rga page oInfo) = info ∧
      ((s.acked page).recordFault page c info.toNat).rf (rga page oCode) 31 24 = 0 := by
  have h0 : (s.acked page).rf (rga page oCode) 15 0 = 0 := by
    unfold State.rf
    rw [State.acked_code h]
    rfl
  obtain ⟨hcode, hinfo⟩ := State.recordFault_first (State.acked_regsWf h) (code := c) (info := info.toNat) h0
  unfold State.rf
  rw [hcode, hinfo, State.acked_code h, fld_setFld (by decide) (by decide), fld_setFld_above (by decide) (by decide) (by decide)]
  refine ⟨Nat.mod_eq_of_lt hc, ?_, rfl⟩
  simp [w32]

/-- A second fault counts in EXTRA and leaves the first in the registers (R456). -/
theorem State.recordFault_second (h : s.regsWf) {c : Nat} (h0 : 0 < c) (hc : c < 65536) (x : Word) (d : Nat) (y : Word) :
    ∃ t, ((s.acked page).recordFault page c x.toNat).recordFault page d y.toNat = t ∧ t.rf (rga page oCode) 15 0 = c ∧ t.rd (rga page oInfo) = x ∧
      t.rf (rga page oCode) 31 24 = 1 ∧ OnlyRegsMsix s t := by
  obtain ⟨hcode, hinfo, hextra⟩ := State.recordFault_acked (page := page) h hc x
  have hwf := State.recordFault_regsWf (State.acked_regsWf (page := page) h) page c x.toNat
  refine ⟨_, State.recordFault_more (by rw [hcode]; omega), ?_, ?_, ?_, ?_⟩
  · unfold State.incSat State.rf
    rw [State.rd_pf hwf, if_pos rfl, fld_setFld_below (by decide) (by decide) (by decide) (by decide)]
    exact hcode
  · unfold State.incSat
    rw [State.rd_pf hwf, if_neg (by simp [oCode, oInfo]), hinfo]
  · rw [State.rf_incSat hwf _ (by decide) (by decide), hextra]
    rfl
  · exact ((s.acked_onlyRegsMsix page).trans (State.recordFault_onlyRegsMsix ..)).incSat ..

/-- Of two faults in either order the one of the lower code comes first. -/
theorem lowFirst_pair {c d : Nat} (x y : Word) (h : c < d) {l : List (Nat × Word)} (hl : l = [(c, x), (d, y)] ∨ l = [(d, y), (c, x)]) :
    lowFirst l = [(c, x), (d, y)] := by
  have hn : ¬ d < c := by omega
  rcases hl with rfl | rfl <;> simp [lowFirst, h, hn]

/-! ### IRQ_ROUTE -/

/-- An invalid route (R462): a vector of a virtual function outside its tenant page's own, or a tenant page routed away from the physical function. -/
theorem exec_irqRouteWrite_invalid {i : Fin 256} {p : Nat} (hp : srcPage i.val = some p) (hw : s.mayWrite f (rga 0 (0x400 + 4 * i.val)) = true)
    (hv : fld v 27 24 < 8 ∧ fld v 21 16 < 6 ∨ 8 ≤ i.val ∧ i.val ≤ 15 ∧ fld v 27 24 ≠ 15) :
    exec (.irqRouteWrite f i v) s = .next (s.wr (rga 0 0x58) (w32 (2 ^ 31 + i.val))) := by
  change execIrqRouteWrite f i v s = _
  simp only [execIrqRouteWrite, State.guarded_of_mayWrite hw, State.wrRoute, hp, if_pos hv]

/-- The row of every IRQ_ROUTE register: its fields are plain (R459). -/
theorem regRow_irqRoute (i : Fin 256) : ∃ r, regRow (rga 0 (0x400 + 4 * i.val)) = some r ∧ r.rw = 0x8F3F0000 ∧ r.rwl = 0 ∧ r.mo = 0 ∧ r.w1c = 0 := by
  have h : ∀ i : Fin 256, (regRow (rga 0 (0x400 + 4 * i.val))).map (fun r => (r.rw, r.rwl, r.mo, r.w1c)) = some (0x8F3F0000, 0, 0, 0) := by decide +kernel
  have hi := h i
  cases hr : regRow (rga 0 (0x400 + 4 * i.val)) with
  | none => simp [hr] at hi
  | some r =>
    simp only [hr, Option.map_some, Option.some.injEq, Prod.mk.injEq] at hi
    exact ⟨r, rfl, hi⟩

theorem w32_zero : w32 0 = 0#32 := rfl

/-- A register without W1C bits loses none (R13). -/
theorem and_not_noW1c (x v : Word) : x &&& ~~~(v &&& w32 0) = x := by
  rw [w32_zero, BitVec.and_zero, BitVec.not_zero, BitVec.and_allOnes]

theorem State.store_irqRoute (s : State) (f : Func) (i : Fin 256) (v : Word) :
    s.store f (rga 0 (0x400 + 4 * i.val)) v 0 = s.wr (rga 0 (0x400 + 4 * i.val))
      ((s.rd (rga 0 (0x400 + 4 * i.val)) &&& ~~~ w32 0x8F3F0000) ||| (v &&& w32 0x8F3F0000)) := by
  obtain ⟨r, hr, hrw, hrwl, hmo, hw1c⟩ := regRow_irqRoute i
  have hm : s.writable f (rga 0 (0x400 + 4 * i.val)) r = w32 0x8F3F0000 := by
    simp [State.writable, hrw, hrwl, hmo, w32]
  rw [State.store_eq_wr hr, hm, hw1c, and_not_noW1c]

theorem exec_irqRouteWrite_valid {i : Fin 256} {p : Nat} (hp : srcPage i.val = some p) (hw : s.mayWrite f (rga 0 (0x400 + 4 * i.val)) = true)
    (h1 : ¬(fld v 27 24 < 8 ∧ fld v 21 16 < 6)) (h2 : ¬(8 ≤ i.val ∧ i.val ≤ 15 ∧ fld v 27 24 ≠ 15)) :
    ∃ m, exec (.irqRouteWrite f i v) s = .next { s.wr (rga 0 (0x400 + 4 * i.val))
      ((s.rd (rga 0 (0x400 + 4 * i.val)) &&& ~~~ w32 0x8F3F0000) ||| (v &&& w32 0x8F3F0000)) with msix := m } := by
  rw [← State.store_irqRoute s f i v]
  have hsent : ∃ m, (if (s.store f (rga 0 (0x400 + 4 * i.val)) v 0).irqPend p = 0 then s.store f (rga 0 (0x400 + 4 * i.val)) v 0
      else (s.store f (rga 0 (0x400 + 4 * i.val)) v 0).sendRoute i.val) = { s.store f (rga 0 (0x400 + 4 * i.val)) v 0 with msix := m } := by
    split
    · exact ⟨_, rfl⟩
    · exact State.sendRoute_msix
  obtain ⟨m, hm⟩ := hsent
  refine ⟨m, ?_⟩
  change execIrqRouteWrite f i v s = _
  have hv : ¬((fld v 27 24 < 8 ∧ fld v 21 16 < 6) ∨ (8 ≤ i.val ∧ i.val ≤ 15 ∧ fld v 27 24 ≠ 15)) := fun h => h.elim h1 h2
  simp only [execIrqRouteWrite, State.guarded_of_mayWrite hw, State.wrRoute, hp, if_neg hv, hm]

/-! ### The obligation -/

/-- Settles O1: the rule of each row, and for FAULT_ACK what the faults of the same cycle leave. -/
theorem headerWrites : Obligations.HeaderWrites := by
  unfold Obligations.HeaderWrites
  refine ⟨fun s f page v hf hu => ⟨exec_lock hf, exec_irqEnWrite hu, fun a hw => exec_irqPendWrite hu hw a⟩,
    fun s page v hu => ⟨exec_irqForce_mgmt hu, exec_errinjWrite_mgmt hu, fun f hf => ⟨exec_irqForce_other hf, exec_errinjWrite_other hf⟩⟩, ?_,
    fun s f i p v hp hw => ⟨exec_irqRouteWrite_invalid hp hw, exec_irqRouteWrite_valid hp hw⟩⟩
  intro s f page i v hcan hf hu hp he hw h3 h1
  have hwf := State.canonical_regsWf hcan
  have hack := fun l => exec_faultAck (arriving := l) hf hu hp he hw h3 h1
  refine ⟨hack [], fun c info _ hc => ?_, fun c d x y l h0 hcd hd hl => ?_⟩
  · obtain ⟨hcode, hinfo, -⟩ := State.recordFault_acked (page := page) hwf hc info
    exact ⟨_, hack _, hcode, hinfo, (s.acked_onlyRegsMsix page).trans (State.recordFault_onlyRegsMsix ..)⟩
  · obtain ⟨t, ht, hrest⟩ := State.recordFault_second (page := page) hwf h0 (Nat.lt_trans hcd hd) x d y
    refine ⟨t, ?_, hrest⟩
    rw [hack, lowFirst_pair x y hcd hl, ← ht]
    rfl

end Sys2Proof.Machine
end

section
/-!
Resets and ENABLE through BLK_CTL (R451 to R453, R471): from these the obligation ResetWrites.
-/
namespace Sys2Proof.Machine

variable {s : State} {f : Func} {page p per : Nat} {i : PageId} {v : Word}

/-- A write of BLK_CTL with SOFT_RESET alone, on a page without ENABLE (R451). -/
theorem State.wrBlkCtl_softReset (hf : isVf f = false) (hp : pageId page = some i) (he : hasEnable i.block = false) (h3 : tbit v 3 = false)
    (h1 : tbit v 1 = true) (sda : List Bool) : s.wrBlkCtl f page v sda = (s.wb (rga page oStat) 12 false).softReset f page := by
  simp [State.wrBlkCtl, hf, hp, he, h3, h1]

theorem exec_softReset (hf : isVf f = false) (hw : s.mayWrite f (rga page oCtl) = true) (hp : pageId page = some i) (he : hasEnable i.block = false)
    (h3 : tbit v 3 = false) (h1 : tbit v 1 = true) : exec (.softReset f page v) s = .next ((s.wb (rga page oStat) 12 false).softReset f page) := by
  change execSoftReset f page v s = _
  rw [execSoftReset, State.guarded_of_mayWrite hw, State.wrBlkCtl_softReset hf hp he h3 h1]

/-! ### The cases of a unit reset (R452) -/

theorem State.softReset_tensor (hi : instPages page = some (p, per, i)) (ht : i.block.tensorSide = true) (ho : s.tensorOff = false) :
    s.softReset f page = s.unitFence page (Config.eventCode evFence) false := by
  have htop : i.block ≠ .top := fun e => by simp [e, Block.tensorSide, Block.management] at ht
  simp [State.softReset, hi, htop, ht, ho]

theorem State.softReset_control (hi : instPages page = some (p, per, i)) (ht : i.block.tensorSide = false) (htop : i.block ≠ .top)
    (hr : s.resetAllowed i.block i.inst = true) : s.softReset f page = s.controlReset p per i := by
  simp [State.softReset, hi, htop, ht, hr]

theorem State.softReset_refused (hi : instPages page = some (p, per, i)) (ht : i.block.tensorSide = false) (htop : i.block ≠ .top)
    (hr : s.resetAllowed i.block i.inst = false) : s.softReset f page = s.wb (rga page oStat) 12 true := by
  simp [State.softReset, hi, htop, ht, hr]

/-! ### The module reset (R471) -/

theorem pageId_top : ∃ i, pageId 0 = some i ∧ i.block = .top := ⟨_, rfl, rfl⟩

theorem State.softReset_top : s.softReset f 0 = s.topReset f := rfl

theorem exec_moduleReset (hf : isVf f = false) (hw : s.mayWrite f (rga 0 oCtl) = true) (h3 : tbit v 3 = false) (h1 : tbit v 1 = true) :
    exec (.moduleReset f v) s = .next ((s.wb (rga 0 oStat) 12 false).topReset f) := by
  obtain ⟨i, hp, hb⟩ := pageId_top
  change execModuleReset f v s = _
  rw [execModuleReset, State.guarded_of_mayWrite hw, State.wrBlkCtl_softReset hf hp (by rw [hb]; rfl) h3 h1, State.softReset_top]

theorem State.topReset_done (h : isMgmt f = true ∨ s.allIdle = true) : s.topReset f = s.moduleReset := by
  simp [State.topReset, h]

theorem State.topReset_refused (hf : isMgmt f = false) (ha : s.allIdle = false) : s.topReset f = s.wb (rga 0 oStat) 12 true := by
  simp [State.topReset, hf, ha]

/-! ### ENABLE of an Ethernet page (R451) -/

theorem pageId_eth (n : Fin 4) : ∃ i, pageId (0x310 + n.val) = some i ∧ i.block = .eth := by
  revert n
  decide

theorem exec_blkEnable_eth {n : Fin 4} (hf : isVf f = false) (hw : s.mayWrite f (rga (0x310 + n.val) oCtl) = true) (h3 : tbit v 3 = false) (h1 : tbit v 1 = false) (h0 : tbit v 0 = true) (sda : List Bool) :
    exec (.blkEnable f (0x310 + n.val) v sda) s
      = .next ((s.wb (rga (0x310 + n.val) oStat) 12 false).wb (rga (0x310 + n.val) oCtl) 0 true) := by
  obtain ⟨i, hp, hb⟩ := pageId_eth n
  change execBlkEnable f (0x310 + n.val) v sda s = _
  simp [execBlkEnable, State.guarded_of_mayWrite hw, State.wrBlkCtl, hf, hp, hb, hasEnable, State.setEnable, h3, h1, h0]

/-- Settles O2: SOFT_RESET by the side of its unit, the module reset by who writes it, ENABLE of an Ethernet page. -/
theorem resetWrites : Obligations.ResetWrites := by
  unfold Obligations.ResetWrites
  intro s f v hf
  refine ⟨fun page p per i hw hp hi he h3 h1 => ?_, fun hw h3 h1 => ?_, fun n _ hw _ hv sda => ?_⟩
  · rw [exec_softReset hf hw hp he h3 h1]
    exact ⟨fun ht ho => congrArg _ (State.softReset_tensor hi ht ho), fun ht htop hr => congrArg _ (State.softReset_control hi ht htop hr),
      fun ht htop hr => congrArg _ (State.softReset_refused hi ht htop hr)⟩
  · rw [exec_moduleReset hf hw h3 h1]
    exact ⟨fun h => congrArg _ (State.topReset_done h), fun hm ha => congrArg _ (State.topReset_refused hm ha)⟩
  · subst hv
    exact exec_blkEnable_eth hf hw (by decide) (by decide) (by decide) sda

end Sys2Proof.Machine
end

section
/-!
Reads that change state (R284, R352, R374): from these the obligation ReadsWithEffects.
-/
namespace Sys2Proof.Machine

variable {s : State} {f : Func}

theorem exec_tsNsRead (h : s.mayRead f (mpReg 0x100) = true) : exec (.tsNsRead f) s = .next s.readTsNs := by
  change execTsNsRead f s = _
  rw [execTsNsRead, if_pos h]

theorem exec_txtsInfoRead {port : Fin 4} (h : s.mayRead f (mpReg (0x150 + 0x20 * port.val)) = true) :
    exec (.txtsInfoRead f port) s = .next (s.readTxts port.val) := by
  change execTxtsInfoRead f port s = _
  rw [execTxtsInfoRead, if_pos h]

/-- Fields of a word given by its number. -/
theorem fld_w32 {n hi lo : Nat} (h : n < 2 ^ 32) : fld (w32 n) hi lo = n / 2 ^ lo % 2 ^ (hi + 1 - lo) := by
  unfold fld nfld w32
  rw [BitVec.toNat_ofNat, Nat.mod_eq_of_lt h]

theorem tbit_w32 {n i : Nat} (h : n < 2 ^ 32) : tbit (w32 n) i = (n / 2 ^ i % 2 == 1) := by
  unfold tbit nfld w32
  rw [BitVec.toNat_ofNat, Nat.mod_eq_of_lt h, Nat.add_sub_cancel_left, Nat.pow_one]

/-- TXTS_INFO with a stamp: VALID, the message type, the overflow count and the sequence number (R284). -/
theorem fields_txtsInfo {m ovf q : Nat} (hovf : ovf < 256) :
    tbit (w32 (2 ^ 31 + m % 16 * 2 ^ 24 + ovf * 65536 + q % 65536)) 31 = true ∧
      fld (w32 (2 ^ 31 + m % 16 * 2 ^ 24 + ovf * 65536 + q % 65536)) 27 24 = m % 16 ∧
      fld (w32 (2 ^ 31 + m % 16 * 2 ^ 24 + ovf * 65536 + q % 65536)) 15 0 = q % 65536 := by
  have hn : 2 ^ 31 + m % 16 * 2 ^ 24 + ovf * 65536 + q % 65536 < 2 ^ 32 := by omega
  rw [tbit_w32 hn, fld_w32 hn, fld_w32 hn, beq_iff_eq]
  omega

/-- The oldest stamp leaves the FIFO and shows in the registers of its port (R284). -/
theorem State.readTxts_stamp {port : Nat} {x : TxStamp} {r : List TxStamp} (h : mapGet (fun _ => []) s.mile.stamps port = x :: r) :
    (s.readTxts port).mile.stamps = mapSet (fun _ => []) s.mile.stamps port r ∧
      (s.readTxts port).rdata = w32 (2 ^ 31 + x.msg % 16 * 2 ^ 24 + s.rf (mpReg (0x150 + 0x20 * port)) 23 16 * 65536 + x.seq % 65536) ∧
      (s.canonical = true → (s.readTxts port).rd (mpReg (0x154 + 0x20 * port)) = w32 x.ns ∧
        (s.readTxts port).rd (mpReg (0x158 + 0x20 * port)) = w32 x.sec) := by
  have hregs : (s.readTxts port).regs = ((s.wr (mpReg (0x154 + 0x20 * port)) (w32 x.ns)).wr (mpReg (0x158 + 0x20 * port)) (w32 x.sec)).regs := by
    simp only [State.readTxts, h] <;> rfl
  refine ⟨by simp only [State.readTxts, h, State.wr_mile], by simp only [State.readTxts, h], fun hcan => ?_⟩
  have hwf := State.canonical_regsWf hcan
  have hns := State.wr_regsWf (a := mpReg (0x154 + 0x20 * port)) (v := w32 x.ns) hwf
  rw [State.rd_congr hregs, State.rd_congr hregs]
  exact ⟨(State.rd_wr_ne hns _ (by unfold mpReg; simp)).trans (State.rd_wr_same hwf ..), State.rd_wr_same hns ..⟩

/-- PR_OUT_LO is the low word of a pair (R352). -/
theorem exec_probeRead_low (h : s.sees f (rga 0x530 0x110) = true) :
    exec (.probeRead f false) s = .next { s with
      rdata := s.shown f (rga 0x530 0x110)
      latch := mapSet (fun _ => none) s.latch (rga 0x530 0x114) (some (s.view (rga 0x530 0x114))) } := by
  have hp : ∃ i, pageId (rga 0x530 0x110 / 4096) = some i ∧ i.block = .augment ∧ pairLow i (rga 0x530 0x110 % 4096) = true := ⟨_, rfl, rfl, by decide⟩
  obtain ⟨i, hp, hb, hl⟩ := hp
  change execProbeRead f false s = _
  unfold execProbeRead
  rw [if_neg Bool.false_ne_true, State.localRead_eq_readPair hp h (by simp [hb]) (by simp [hb]), State.readPair_low hl,
    show rga 0x530 0x110 + 4 = rga 0x530 0x114 by decide]

/-! ### The head of a CAN receive FIFO -/

theorem pageId_can (n : Fin 8) : ∃ i, pageId (cfReg n.val 0x300 / 4096) = some i ∧ i.block = .can ∧ i.inst = n.val ∧ cfReg n.val 0x300 % 4096 = 0x300 := by
  revert n
  decide

/-- RXH_ID shows the head of the FIFO and locks it (R374). -/
theorem State.localRead_rxhId {n : Fin 8} (h : s.sees f (cfReg n.val 0x300) = true) :
    s.localRead f (cfReg n.val 0x300) = { (s.canHead n.val 0x300).2.lockHead n.val with rdata := (s.canHead n.val 0x300).1 } := by
  obtain ⟨i, hp, hb, hi, ho⟩ := pageId_can n
  unfold State.localRead
  rw [hp]
  simp [h, hb, hi, ho]

/-- Settles O4: the four reads, the empty FIFO last (log 38). -/
theorem readsWithEffects : Obligations.ReadsWithEffects := by
  unfold Obligations.ReadsWithEffects
  intro s f _
  refine ⟨exec_tsNsRead, fun port x r hr hx => ?_, exec_probeRead_low, fun n r l hs hrx => ?_, fun n hs hrx => ?_⟩
  · obtain ⟨hst, hdata, hregs⟩ := State.readTxts_stamp hx
    obtain ⟨hvalid, hmsg, hseq⟩ := fields_txtsInfo (m := x.msg) (ovf := s.rf (mpReg (0x150 + 0x20 * port.val)) 23 16) (q := x.seq) fld_lt
    rw [← hdata] at hvalid hmsg hseq
    exact ⟨_, exec_txtsInfoRead hr, hst, hvalid, hmsg, hseq, hregs⟩
  · have hhead : s.canHead n.val 0x300 = ((headWords r).getD 0 0, s) := by simp [State.canHead, hrx]
    change execRxhIdRead f n s = _
    rw [execRxhIdRead, State.localRead_rxhId hs, hhead]
  · have hhead : s.canHead n.val 0x300 = (Config.freeWord s.fresh, { s with fresh := s.fresh + 1 }) := by
      simp [State.canHead, hrx, State.take]
    have hempty : ({ s with fresh := s.fresh + 1 } : State).lockHead n.val = { s with fresh := s.fresh + 1 } := by
      unfold State.lockHead
      have hrx' : (({ s with fresh := s.fresh + 1 } : State).cf n.val).rx = [] := hrx
      simp [hrx']
    change execRxhIdRead f n s = _
    rw [execRxhIdRead, State.localRead_rxhId hs, hhead, hempty]

end Sys2Proof.Machine
end

section
/-!
Register proxies (R198 to R200): from these the obligation ProxyRows.
-/
namespace Sys2Proof.Machine

variable {s : State} {a : Nat} {w : Option Word} {p : Fin 8} {vc : Fin 4} {k : Packet} {x : Proxy}

/-! ### The access -/

/-- What an access in the window to another module needs (R198, R460). -/
structure State.ProxyReady (s : State) (a : Nat) : Prop where
  aligned : a % 4 = 0
  window : inWindow a = true
  link : s.linkUp = true
  ready : s.ready = true
  other : proxyField a ≠ s.me

theorem exec_proxyAccess (f : Func) : exec (.proxyAccess f a w) s = .next (s.proxyAccess f a w) := rfl

theorem State.proxyAccess_outside (h : s.ProxyReady a) (hd : s.fieldSize ≤ proxyField a) :
    s.proxyAccess .pf a w = (s.pxErr 2 (proxyField a) a).noAccess w 0xFFFFFFFF := by
  simp [State.proxyAccess, h.aligned, h.window, h.link, h.ready, h.other, hd]

theorem State.proxyAccess_queued (h : s.ProxyReady a) (hd : proxyField a < s.fieldSize) :
    s.proxyAccess .pf a w = ({ s with field := { s.field with
        nextTag := s.field.nextTag + 1
        proxies := s.field.proxies ++ [⟨s.field.nextTag % 65536, proxyField a, s.proxyRemote a, a, w, false, 0⟩] } } : State).sendProxies := by
  simp [State.proxyAccess, h.aligned, h.window, h.link, h.ready, h.other, Nat.not_le.2 hd]

/-! ### The packets of the other module's side -/

/-- The access of an aligned PROXY_READ is a read of a physical function (R464); what this module's own host read last stands. -/
theorem exec_proxyRead (hk : s.rxFor p.val vc.val .proxyRead = some k) (ha : k.addr % 4 = 0) :
    exec (.proxyRead p vc) s = .next (({ (s.rxPop p.val vc.val).localRead .px k.addr with rdata := s.rdata } : State).answer k .proxyReadData k.addr
      (natLe 4 ((s.rxPop p.val vc.val).localRead .px k.addr).rdata.toNat)) := by
  have hdata : (s.rxPop p.val vc.val).rdata = s.rdata := rfl
  change execProxyRead p vc s = _
  simp only [execProxyRead, hk, ha, hdata, if_true]

theorem exec_proxyWrite (hk : s.rxFor p.val vc.val .proxyWrite = some k) (ha : k.addr % 4 = 0) :
    exec (.proxyWrite p vc) s
      = .next (((s.rxPop p.val vc.val).localWrite .px k.addr (w32 (leNat k.data))).answer k .proxyWriteAck k.addr []) := by
  change execProxyWrite p vc s = _
  simp only [execProxyWrite, hk, ha, if_true]

/-! ### The answers -/

theorem exec_proxyReadData (hk : s.rxFor p.val vc.val .proxyReadData = some k) (hx : (s.rxPop p.val vc.val).proxyFor k = some x) :
    exec (.proxyReadData p vc) s = .next (({ s.rxPop p.val vc.val with rdata := w32 (leNat k.data) } : State).endProxy x) := by
  change execProxyReadData p vc s = _
  simp only [execProxyReadData, hk, hx]

theorem exec_proxyWriteAcknowledgement (hk : s.rxFor p.val vc.val .proxyWriteAck = some k) (hx : (s.rxPop p.val vc.val).proxyFor k = some x) :
    exec (.proxyWriteAcknowledgement p vc) s = .next ((s.rxPop p.val vc.val).endProxy x) := by
  change execProxyWriteAcknowledgement p vc s = _
  simp only [execProxyWriteAcknowledgement, hk, hx]

theorem exec_proxyTimeout {m : Fin 64} (hx : s.field.proxies.find? (fun x => x.dest == m.val) = some x) :
    exec (.proxyTimeout m) s = .next (s.failProxy x 1) := by
  change execProxyTimeout m s = _
  simp only [execProxyTimeout, hx]

/-- Settles O5: an access by where it goes, the packets of both sides, the timeout of the oldest access (log 18). -/
theorem proxyRows : Obligations.ProxyRows := by
  unfold Obligations.ProxyRows
  intro s
  refine ⟨fun a v h4 hwin hlink hready hother => ?_, fun p vc k => exec_proxyRead, fun p vc k => exec_proxyWrite,
    fun p vc k x => exec_proxyReadData, fun p vc k x => exec_proxyWriteAcknowledgement, fun m x => exec_proxyTimeout⟩
  have h : s.ProxyReady a := ⟨h4, hwin, hlink, hready, hother⟩
  exact ⟨fun hd => congrArg _ (State.proxyAccess_outside h hd), fun hd => congrArg _ (State.proxyAccess_queued h hd)⟩

end Sys2Proof.Machine
end

section
/-!
COPY on its Porter (R98, R99) and ARRIVE, WAIT and FENCE at the head of a queue (R210 to R215, R240): from these the obligations CopyStarts and
SchedulerCommands.
-/
namespace Sys2Proof.Machine

variable {s : State} {c : Cmd}

/-! ### COPY -/

/-- The fields of a COPY that must be zero or set (R98). -/
structure Cmd.CopyForm (c : Cmd) : Prop where
  word5 : c.f 5 5 0 = 0
  word7 : c.f 7 31 20 = 0
  rest : ∀ k : Fin 8, c.w (8 + k.val) = 0
  count : c.descCount ≠ 0

theorem Cmd.CopyForm.words_zero (h : c.CopyForm) : (List.range 8).any (fun k => c.w (8 + k) != 0) = false := by
  rw [List.any_eq_false]
  intro k hk
  simpa using h.rest ⟨k, List.mem_range.1 hk⟩

theorem exec_copy_starts {p : Fin 16} (hsel : (s.porter p.val).sel = some c) (hbase : s.baseCheck c = none) (h : c.CopyForm)
    (htree : s.remoteTree c = false) :
    exec (.copy p) s = .next (((s.setPorter p.val { s.porter p.val with
      sel := none
      run := some ⟨c, s.clock.tick, 0, false⟩
      index := 0
      lastRemote := none }).wr (pdReg p.val 0x40) (w32 (c.owner * 2 ^ 24))).wr64 (pdReg p.val 0x48) c.listAddr) := by
  change execCopy p s = _
  unfold execCopy
  simp only [hsel, hbase, h.words_zero, h.word5, h.word7, h.count, htree, ne_eq, not_true_eq_false, Bool.false_eq_true, or_self, if_false]

theorem exec_copy_refused {p : Fin 16} (hsel : (s.porter p.val).sel = some c) (hbase : s.baseCheck c = none) (h5 : c.f 5 5 0 ≠ 0) :
    exec (.copy p) s
      = .next ((s.setPorter p.val { s.porter p.val with sel := none }).porterFault p.val 0x0302 (porInfo 0xFFFF c.seq) c.listAddr c) := by
  change execCopy p s = _
  unfold execCopy
  simp only [hsel, hbase, h5, ne_eq, not_false_eq_true, true_or, if_true]

/-- Settles O10: the command that passes its checks starts the list, one with a reserved bit of word 5 is refused. -/
theorem copyStarts : Obligations.CopyStarts := by
  unfold Obligations.CopyStarts
  exact fun s p c hsel hbase => ⟨fun h5 h7 hrest hcount => exec_copy_starts hsel hbase ⟨h5, h7, hrest, hcount⟩, exec_copy_refused hsel hbase⟩

/-! ### ARRIVE -/

variable {q : Fin 32} {b : BarId} {a : Arrival}

/-- ARRIVE at the head of a queue with nothing in flight is judged at its barrier (R211). -/
theorem exec_arrive (hhead : s.headReady q.val = some c) (hbase : s.baseCheck c = none) (hop : c.op = 7) (hflight : (s.queue q.val).flight = [])
    (hb : s.namedBar c = some b)
    (ha : a = (⟨b, c.part, some c.owner, some (c.f 5 31 28, c.f 5 15 0), c.seq.toNat % 1024, 0x10⟩ : Arrival)) :
    (s.judge a ≠ .denied → s.judge a ≠ .invalid → exec (.arrive q) s = .next ((s.endHead q.val c).sendArrival a).advance) ∧
      (s.judge a = .denied → exec (.arrive q) s = .next (s.tallyRefuse b 0x0705 c)) ∧
      (s.judge a = .invalid → exec (.arrive q) s = .next (s.tallyRefuse b 0x0704 c)) := by
  subst ha
  change (_ → _ → execArrive q s = _) ∧ (_ → execArrive q s = _) ∧ (_ → execArrive q s = _)
  unfold execArrive
  simp only [hhead, hbase, hop, hflight, hb, List.isEmpty_nil, Bool.not_true, Bool.false_eq_true, ne_eq, not_true_eq_false, or_self, if_false]
  refine ⟨fun h1 h2 => ?_, fun h => by rw [h], fun h => by rw [h]⟩
  cases hj : s.judge ⟨b, c.part, some c.owner, some (c.f 5 31 28, c.f 5 15 0), c.seq.toNat % 1024, 0x10⟩ with
  | denied => exact absurd hj h1
  | invalid => exact absurd hj h2
  | _ => rfl

/-! ### WAIT -/

theorem exec_wait (hhead : s.headReady q.val = some c) (hbase : s.baseCheck c = none) (hop : c.op = 8) (hb : s.namedBar c = some b) :
    exec (.wait q) s = .next (s.waitBar q.val c b) := by
  change execWait q s = _
  unfold execWait
  simp only [hhead, hbase, hop, hb, ne_eq, not_true_eq_false, if_false]

/-- A WAIT on a generation of its own barrier follows the verdict (R215). -/
theorem State.waitBar_gen (howner : s.bOwner b = c.owner) (hvalid : s.bValid b = true) (hpart : c.part ≠ 0) (hmode : s.bMode b ≠ 2) (n : Nat) :
    s.waitBar n c b = match s.genVerdict b (c.f 5 15 0) with
      | .now => (s.endWait n c).advance
      | .invalid => s.tallyRefuse b 0x0704 c
      | .later => s.register n ⟨.gen b (c.f 5 15 0), c, false, if c.f 6 15 0 = 0 then s.bCfg b 15 0 else c.f 6 15 0⟩ := by
  unfold State.waitBar
  simp only [howner, hvalid, beq_eq_false_iff_ne.2 hpart, beq_eq_false_iff_ne.2 hmode, ne_eq, not_true_eq_false, Bool.not_true,
    Bool.or_self, Bool.false_and, Bool.false_eq_true, if_false] <;> rfl

/-! ### FENCE -/

theorem fenceOk_iff : fenceOk c = true ↔ c.f 5 2 0 < 6 ∧ c.f 5 29 3 = 0 ∧ ∀ k : Fin 10, c.w (6 + k.val) = 0 := by
  simp only [fenceOk, Bool.and_eq_true, decide_eq_true_iff, beq_iff_eq, List.all_eq_true, List.mem_range, and_assoc]
  exact and_congr_right fun _ => and_congr_right fun _ => ⟨fun h k => h k.val k.isLt, fun h k hk => h ⟨k, hk⟩⟩

theorem exec_fence_placed (hhead : s.headReady q.val = some c) (hbase : s.baseCheck c = none) (hop : c.op = 0xB) (hok : fenceOk c = true)
    (hall : tbit (c.w 5) 31 = false) :
    exec (.fence q) s = .next (s.setQueue q.val { s.queue q.val with
      fence := some c
      fenceFor := []
      fetched := (s.queue q.val).fetched.drop 1
      waitMet := false }) := by
  change execFence q s = _
  unfold execFence
  simp only [hhead, hbase, hop, hok, hall, ne_eq, not_true_eq_false, Bool.not_true, Bool.false_eq_true, if_false]

theorem exec_fence_refused (hhead : s.headReady q.val = some c) (hbase : s.baseCheck c = none) (hop : c.op = 0xB) (hok : fenceOk c = false) :
    exec (.fence q) s = .next (s.refuse c 7 (tnPage c.owner, 0x0806, inkInfo c)) := by
  change execFence q s = _
  unfold execFence
  simp only [hhead, hbase, hop, hok, ne_eq, not_true_eq_false, Bool.not_false, if_false, if_true]

/-- Settles O12: ARRIVE by its barrier's judgement, WAIT by the verdict on its generation, FENCE by its words. -/
theorem schedulerCommands : Obligations.SchedulerCommands := by
  unfold Obligations.SchedulerCommands
  intro s q c hhead hbase
  refine ⟨fun b a => exec_arrive hhead hbase, fun b hop hb howner hvalid hpart hmode => ?_, fun hop h5 hz hw hall => ?_, fun hop h5 => ?_⟩
  · rw [exec_wait hhead hbase hop hb, State.waitBar_gen howner hvalid hpart hmode]
    exact ⟨fun h => by rw [h], fun h => by rw [h], fun h => by rw [h]⟩
  · exact exec_fence_placed hhead hbase hop (fenceOk_iff.2 ⟨h5, hz, hw⟩) hall
  · refine exec_fence_refused hhead hbase hop (Bool.eq_false_iff.2 fun h => ?_)
    obtain ⟨hlt, -⟩ := fenceOk_iff.1 h
    omega

end Sys2Proof.Machine
end

section
/-!
Queues of the Innkeeper (R236 to R240, R246): from these the obligation QueueProgress.
-/
namespace Sys2Proof.Machine

variable {s : State} {f : Func} {v : Word}

/-! ### The rows of a queue -/

/-- A FENCE with nothing left to wait for, no REBIND and no ARRIVE_DONE (R240). -/
theorem exec_fenceCompletion {q : Fin 32} {c : Cmd} (hfence : (s.queue q.val).fence = some c) (hflight : (s.queue q.val).flight = [])
    (hfor : (s.queue q.val).fenceFor = []) (hrebind : tbit (c.w 5) 30 = false) (harrive : c.arrive = false) :
    exec (.fenceCompletion q) s = .next ((((s.writeRecord c 0 0 7).setQueue q.val { (s.writeRecord c 0 0 7).queue q.val with
      fence := none
      fenceFor := [] }).retire q.val c.seq).deadFills c.owner |>.advance) := by
  change execFenceCompletion q s = _
  unfold execFenceCompletion
  simp only [hfence, hflight, hfor, hrebind, harrive, List.isEmpty_nil, List.any_nil, Bool.not_true, Bool.false_eq_true, or_self, if_false]

/-- The address of the descriptor with sequence number n in its queue (R236). -/
def State.descAddr (s : State) (q : Nat) (n : Word) : Nat := s.rd64 (qReg q 0) + 64 * (n.toNat % 2 ^ s.rf (qReg q 8) 12 8)

/-- A fetch of one descriptor from a region its tenant may read (R236). -/
theorem State.fetch_one {q : Nat} {n : Word} (h : s.regCheck (q / 4) false (s.descAddr q n) 64 = .ok) :
    s.fetch q .none 1 n = (s.setQueue q { s.queue q with fetched := (s.queue q).fetched ++
      [⟨q, n, (List.range 16).map (fun i => w32 (leAt (s.hbmRead (s.descAddr q n) 64) (4 * i) 4))⟩] }).wr (qReg q 0x10) (n + 1) := by
  unfold State.descAddr at h ⊢
  simp only [State.fetch, h, hbmHits, isHbmUe, Bool.false_and, Bool.false_eq_true, if_false]

theorem exec_queueFetch {q : Fin 32} (htn : s.tnState (q.val / 4) = 1) (hvalid : s.rb (qReg q.val 8) 31 = true) (hstop : s.qStopped q.val = false)
    (htail : s.rd (qReg q.val 0xC) = s.rd (qReg q.val 0x10) + 1) :
    exec (.queueFetch q .none) s = .next (s.fetch q.val .none 1 (s.rd (qReg q.val 0x10))).advance := by
  have hn : (s.rd (qReg q.val 0xC) - s.rd (qReg q.val 0x10)).toNat = 1 := by
    rw [htail, BitVec.add_comm, BitVec.add_sub_cancel]
    rfl
  change execQueueFetch q .none s = _
  unfold execQueueFetch
  simp only [htn, hvalid, hstop, hn, Bool.not_false, and_self, if_true]

/-- A tier 2 WAIT is let go, refused while ACQUIRING, or still waits, by the Field counter (R193; log 27). -/
theorem exec_launchCount {q : Fin 32} {w : WaitReg} {n : Nat} (hw : (s.queue q.val).wait = some w) (hon : w.on = .count n) :
    exec (.launchCount q) s = if s.now < n then .next s
      else if s.fcState = 0 then .next (s.refuse w.cmd 7 (tnPage w.cmd.owner, 0x0603, w.cmd.seqLow))
      else .next (s.satisfy q.val).advance := by
  change execLaunchCount q s = _
  unfold execLaunchCount
  simp only [hw, hon]

theorem exec_commandCompletion_engine {e : Fin 6} {r : Run} {u : State} (hrun : (s.engine e.val).run = some r) (hdone : r.done = true)
    (hu : u = (s.writeRecord r.cmd 0 r.astat e.val).charge r.cmd (s.clock.tick - r.start)) :
    exec (.commandCompletion (.engine e)) s = .next ((((u.setEngine e.val { u.engine e.val with run := none }).retire r.cmd.q r.cmd.seq).deadFills
      r.cmd.owner).arriveDone r.cmd (engPage e.val)).advance := by
  subst hu
  change Host.Outcome.next (s.completeEngine e.val) = _
  unfold State.completeEngine
  simp only [hrun, hdone, Bool.not_true, Bool.false_eq_true, if_false]

/-! ### The registers of a queue -/

section
variable {t : Fin 8} {q : Fin 4}

theorem queue_tenant (t : Fin 8) (q : Fin 4) : (4 * t.val + q.val) / 4 = t.val := by omega

theorem exec_qTailWrite (hw : s.mayWrite f (qReg (4 * t.val + q.val) 0xC) = true) :
    exec (.qTailWrite f t q v) s = .next (s.wrQTail (4 * t.val + q.val) v) := by
  change execQTailWrite f t q v s = _
  rw [execQTailWrite, State.guarded_of_mayWrite hw]

/-- Q_TAIL is discarded while the tenant aborts, stored where the queue has room, refused otherwise (R238). -/
theorem State.wrQTail_eq (s : State) (t : Fin 8) (q : Fin 4) (v : Word) :
    s.wrQTail (4 * t.val + q.val) v = if s.tnState t.val = 2 then s
      else if (v - s.rd (qReg (4 * t.val + q.val) 0x14)).toNat ≤ 2 ^ s.rf (qReg (4 * t.val + q.val) 8) 12 8 ∧
        (v - s.rd (qReg (4 * t.val + q.val) 0xC)).toNat < 2 ^ 31 then s.wr (qReg (4 * t.val + q.val) 0xC) v
      else s.wb (qReg (4 * t.val + q.val) 0x18) 29 true := by
  unfold State.wrQTail
  rw [queue_tenant]

theorem exec_qCfgWrite (hw : s.mayWrite f (qReg (4 * t.val + q.val) 8) = true) :
    exec (.qCfgWrite f t q v) s = .next (s.wrQCfg (4 * t.val + q.val) v) := by
  change execQCfgWrite f t q v s = _
  rw [execQCfgWrite, State.guarded_of_mayWrite hw]

/-- Q_CFG is stored while the queue is empty or its tenant is not ACTIVE, with an engine, a weight and a size that exist (R239). -/
theorem State.wrQCfg_eq (s : State) (t : Fin 8) (q : Fin 4) (v : Word) :
    s.wrQCfg (4 * t.val + q.val) v =
      if (s.rd (qReg (4 * t.val + q.val) 0xC) = s.rd (qReg (4 * t.val + q.val) 0x14) ∨ s.tnState t.val ≠ 1) ∧ fld v 26 24 < 6 ∧ fld v 23 16 ≠ 0 ∧
        6 ≤ fld v 12 8 ∧ fld v 12 8 ≤ 21 then s.store .pf (qReg (4 * t.val + q.val) 8) v 0
      else s.wb (qReg (4 * t.val + q.val) 0x18) 28 true := by
  unfold State.wrQCfg
  rw [queue_tenant]
  simp only [Bool.and_eq_true, Bool.or_eq_true, beq_iff_eq, bne_iff_ne, decide_eq_true_iff, and_assoc]

theorem exec_tnResWrite (hw : s.mayWrite f (rga (tnPage t.val) 0x4C) = true) (hf : isVf f = false) :
    exec (.tnResWrite f t v) s = .next (if s.tnFree t.val ∨ (s.shareSum t.val 23 16 (fld v 23 16) ≤ 256 ∧ s.shareSum t.val 15 8 (fld v 15 8) ≤ 256)
      then s.store f (rga (tnPage t.val) 0x4C) v 0 else s.wb (rga 0x10 0x80) 0 true) := by
  change execTnResWrite f t v s = _
  rw [execTnResWrite, State.guarded_of_mayWrite hw, State.wrTnRes, if_neg (by simp [hf])]

end

/-! ### The obligation -/

/-- Settles O13: the rows that make a queue progress, and what its registers take or refuse (log 27). -/
theorem queueProgress : Obligations.QueueProgress := by
  unfold Obligations.QueueProgress
  refine ⟨fun s => ⟨fun q c => exec_fenceCompletion, fun q htn hvalid hstop htail hreg => ?_, fun q w n hw hon => ?_,
    fun e r u => exec_commandCompletion_engine⟩, fun s f t q v => ⟨fun hw htn => ?_, fun hw htn => ?_, fun hw => ?_, fun hw hf => ?_⟩⟩
  · rw [exec_queueFetch htn hvalid hstop htail, State.fetch_one hreg]
    rfl
  · rw [exec_launchCount hw hon]
    exact ⟨fun hle hfc => by rw [if_neg (Nat.not_lt.2 hle), if_neg hfc], fun hle hfc => by rw [if_neg (Nat.not_lt.2 hle), if_pos hfc],
      fun hlt => if_pos hlt⟩
  · rw [exec_qTailWrite hw, State.wrQTail_eq, if_neg htn]
    exact ⟨fun h => congrArg _ (if_pos h), fun h => congrArg _ (if_neg fun hr => absurd hr.1 (Nat.not_le.2 h))⟩
  · rw [exec_qTailWrite hw, State.wrQTail_eq, if_pos htn]
  · rw [exec_qCfgWrite hw, State.wrQCfg_eq]
    refine ⟨fun hempty he hwt h6 h21 => congrArg _ (if_pos ⟨.inl hempty, he, hwt, h6, h21⟩), fun hwork htn => congrArg _ (if_neg ?_),
      fun he => congrArg _ (if_neg ?_)⟩
    · rintro ⟨hempty | hidle, -⟩
      · exact hwork hempty
      · exact hidle htn
    · rintro ⟨-, hlt, -⟩
      omega
  · rw [exec_tnResWrite hw hf]
    refine ⟨fun hfree => congrArg _ (if_pos (.inl (by simp [State.tnFree, hfree]))), fun hbusy hshare => congrArg _ (if_neg ?_)⟩
    rintro (hfree | ⟨hle, -⟩)
    · simp [State.tnFree, hbusy] at hfree
    · omega

end Sys2Proof.Machine
end

section
/-!
Tally barriers (R212 to R219, R229): from these the obligation TallyRows.
-/
namespace Sys2Proof.Machine

variable {s : State} {f : Func} {v : Word} {b : BarId}

/-! ### Arrivals -/

/-- One arrival counted in a cycle is the oldest on its way (R212). -/
theorem State.countArrivals_one {a : Arrival} {r : List Arrival} (hq : s.arrQ = a :: r) : s.countArrivals 1 = s.countArrival a := by
  unfold State.countArrivals
  rw [hq]
  cases hd : s.isDup a with
  | true => simp [hd]
  | false => simp [hd]

/-- An arrival that is no manifest's leaves the queue of arrivals and takes its effect (R212, R248). -/
theorem State.countArrival_head {a : Arrival} {r : List Arrival} (hq : s.arrQ = a :: r) (hseq : a.seq ≠ 0x3FF) :
    s.countArrival a = ({ s with arrQ := r } : State).arrive a := by
  unfold State.countArrival
  rw [hq]
  simp only [List.contains_cons, beq_self_eq_true, Bool.true_or, if_true, List.erase_cons_head, hseq, and_false, if_false]
  cases a.tenant <;> rfl

theorem exec_tallyArrival {a : Arrival} {r : List Arrival} (hq : s.arrQ = a :: r) (hseq : a.seq ≠ 0x3FF) :
    exec (.tallyArrival 0) s = .next (({ s with arrQ := r } : State).arrive a).advance := by
  have hne : s.arrQ.isEmpty = false := by rw [hq]; rfl
  change execTallyArrival 0 s = _
  unfold execTallyArrival
  rw [hne, if_neg Bool.false_ne_true, Nat.zero_add, State.countArrivals_one hq, State.countArrival_head hq hseq]

/-- A counted arrival opens its place; the last one releases the barrier (R212). -/
theorem State.arrive_count {a : Arrival} {j : Nat} (hj : s.judge a = .count j) :
    s.arrive a = if popcount 64 ((s.bar a.bar).open_ ||| 2 ^ j) = s.bExpect a.bar then
        (s.setBar a.bar { s.bar a.bar with
          open_ := (s.bar a.bar).open_ ||| 2 ^ j
          units := (s.bar a.bar).units ++ [a.unit] }).releaseOk a.bar
      else s.setBar a.bar { s.bar a.bar with
        open_ := (s.bar a.bar).open_ ||| 2 ^ j
        units := (s.bar a.bar).units ++ [a.unit] } := by
  unfold State.arrive
  simp only [hj]
  rfl

/-! ### Releases and timeouts -/

theorem exec_carryRelease (h : (s.bar b).due = true) : exec (.carryRelease b) s = .next (s.releaseOk b).advance := by
  change execCarryRelease b s = _
  rw [execCarryRelease, if_pos h]

/-- The open generation is released as bad, with free values for its participant and its CMDSEQ bits (R218; log 28). -/
theorem exec_barrierTimeout (hvalid : s.bValid b = true) (hmode : s.bMode b ≠ 2) (hopen : (s.bar b).open_ ≠ 0) (hdue : (s.bar b).due = false) :
    exec (.barrierTimeout b 0) s = .next (({ s with fresh := s.fresh + 1 } : State).releaseBad b 1 (Config.freeWord s.fresh).toNat
      ((Config.freeWord s.fresh).toNat / 4096)).advance := by
  have hon : (s.bValid b && s.bMode b != 2 && (s.bar b).open_ != 0 && !(s.bar b).due) = true := by
    simp [hvalid, hmode, hopen, hdue]
  change execBarrierTimeout b 0 s = _
  unfold execBarrierTimeout
  simp only [if_true, ne_eq, not_true_eq_false, if_false, hon, State.take]

/-- A wait on a generation expires (R218). -/
theorem exec_tallyTimeout {q : Fin 32} {w : WaitReg} {g : Nat} (hw : (s.queue q.val).wait = some w) (hon : w.on = .gen b g) :
    exec (.tallyTimeout q 0) s = .next ((s.writeRecord w.cmd 0x0701 0 7).tallyFault b 0x0701 w.cmd.part w.cmd.seq.toNat w.cmd.owner) := by
  change execTallyTimeout q 0 s = _
  unfold execTallyTimeout
  simp only [hw, hon, if_true, ne_eq, not_true_eq_false, if_false]

/-! ### Configuration -/

section
variable {n : Fin 256}

theorem exec_tallyConfigWrite_cfg (hw : s.mayWrite f (barCfgReg b) = true) (busy : Bool) :
    exec (.tallyConfigWrite f b false v busy) s = .next (s.tallyCfg f b false v busy) := by
  change Host.Outcome.next (s.guarded f (if false = true then barPartReg b else barCfgReg b) _) = _
  rw [if_neg Bool.false_ne_true, State.guarded_of_mayWrite hw]

theorem exec_tallyConfigWrite_part (hw : s.mayWrite f (barPartReg b) = true) (busy : Bool) :
    exec (.tallyConfigWrite f b true v busy) s = .next (s.tallyCfg f b true v busy) := by
  change Host.Outcome.next (s.guarded f (if true = true then barPartReg b else barCfgReg b) _) = _
  rw [if_pos rfl, State.guarded_of_mayWrite hw]

/-- An arrival of the same cycle makes the barrier busy (R219, R229; log 28). -/
theorem State.tallyCfg_busy (hf : vfOf f = none) (part : Bool) : s.tallyCfg f b part v true = s.tallyErr b 9 := by
  simp [State.tallyCfg, hf]

theorem State.tallyCfg_cfg (hf : vfOf f = none) (hb : s.barBusy (.central n) = false)
    (hc : cfgInvalid (v &&& 0xFFBFFFFF) (s.rd (barPartReg (.central n))) = false) :
    s.tallyCfg f (.central n) false v false = s.wr (barCfgReg (.central n)) (v &&& 0xFFBFFFFF) := by
  have hmask : w32 (fm 31 23 + fm 21 0) = 0xFFBFFFFF := by decide
  simp only [State.tallyCfg, hf, hb, hmask, hc, Bool.or_self, Bool.false_eq_true, if_false]

theorem State.tallyCfg_part (hf : vfOf f = none) (hb : s.barBusy (.central n) = false)
    (hc : cfgInvalid (s.rd (barCfgReg (.central n))) (v &&& 0xFFFF0FFF) = false) :
    s.tallyCfg f (.central n) true v false = s.wr (barPartReg (.central n)) (v &&& 0xFFFF0FFF) := by
  have hmask : w32 (fm 31 16 + fm 11 0) = 0xFFFF0FFF := by decide
  simp only [State.tallyCfg, hf, hb, hmask, hc, Bool.or_self, Bool.false_eq_true, if_false, if_true]

end

/-- Settles O14: an arrival by its judgement, the releases and timeouts, the configuration writes (log 28). -/
theorem tallyBarrierRows : Obligations.TallyRows := by
  unfold Obligations.TallyRows
  refine ⟨fun s => ⟨fun a r j hq hseq hj => ?_, fun b => exec_carryRelease, fun b => exec_barrierTimeout, fun q w b g => exec_tallyTimeout⟩,
    fun s f n v hf => ⟨fun hw hb hc => ?_, fun hw hb hc => ?_, fun hw => ?_⟩⟩
  · have hj' : ({ s with arrQ := r } : State).judge a = .count j := hj
    rw [exec_tallyArrival hq hseq, State.arrive_count hj']
    rfl
  · rw [exec_tallyConfigWrite_cfg hw, State.tallyCfg_cfg hf hb hc]
  · rw [exec_tallyConfigWrite_part hw, State.tallyCfg_part hf hb hc]
  · rw [exec_tallyConfigWrite_cfg hw, State.tallyCfg_busy hf]

end Sys2Proof.Machine
end

section
/-!
Tenants and manifests (R234, R235, R243, R248 to R253, R406): from these the obligation TenantCommands.
-/
namespace Sys2Proof.Machine

variable {s t u : State} {f : Func} {n : Fin 8} {v : Word}

/-! ### TN_CTL -/

theorem exec_enable (hw : s.mayWrite f (rga (tnPage n.val) 0x40) = true) : exec (.enable f n v) s = .next (s.wrTnCtl f n.val v) := by
  change execEnable f n v s = _
  rw [execEnable, State.guarded_of_mayWrite hw]

theorem exec_restart (hw : s.mayWrite f (rga (tnPage n.val) 0x40) = true) : exec (.restart f n v) s = .next (s.wrTnCtl f n.val v) := by
  change execRestart f n v s = _
  rw [execRestart, State.guarded_of_mayWrite hw]

theorem exec_release (hw : s.mayWrite f (rga (tnPage n.val) 0x40) = true) : exec (.release f n v) s = .next (s.wrTnCtl f n.val v) := by
  change execRelease f n v s = _
  rw [execRelease, State.guarded_of_mayWrite hw]

theorem State.wrTnCtl_enable (hf : isVf f = false) (k : Nat) : s.wrTnCtl f k 1 = s.enableTenant k := by
  have h0 : tbit (1 : Word) 0 = true := by decide
  have h1 : tbit (1 : Word) 1 = false := by decide
  have h2 : tbit (1 : Word) 2 = false := by decide
  simp only [State.wrTnCtl, hf, h0, h1, h2, Bool.not_false, Bool.and_self, Bool.false_and, Bool.false_eq_true, if_true, if_false]

theorem State.wrTnCtl_restart (k : Nat) : s.wrTnCtl f k 2 = s.restartTenant k := by
  have h0 : tbit (2 : Word) 0 = false := by decide
  have h1 : tbit (2 : Word) 1 = true := by decide
  have h2 : tbit (2 : Word) 2 = false := by decide
  simp only [State.wrTnCtl, h0, h1, h2, Bool.false_and, Bool.false_eq_true, if_true, if_false]

theorem State.wrTnCtl_release (hf : isVf f = false) (k : Nat) : s.wrTnCtl f k 4 = s.releaseTenant k := by
  have h0 : tbit (4 : Word) 0 = false := by decide
  have h1 : tbit (4 : Word) 1 = false := by decide
  have h2 : tbit (4 : Word) 2 = true := by decide
  simp only [State.wrTnCtl, hf, h0, h1, h2, Bool.not_false, Bool.and_self, Bool.false_and, Bool.false_eq_true, if_true, if_false]

/-- A FREE tenant with a resource share, whose shares fit beside the others', becomes ACTIVE (R235). -/
theorem State.enableTenant_free {k : Nat} (htn : s.tnState k = 0) (hhold : s.safeHold = false) (hdiag : s.diagRequired = false)
    (hoff : s.tensorOff = false) (hshare : fld (s.rd (rga (tnPage k) 0x4C)) 23 16 ≠ 0)
    (hbw : s.shareSum k 23 16 (fld (s.rd (rga (tnPage k) 0x4C)) 23 16) ≤ 256)
    (hlink : s.shareSum k 15 8 (fld (s.rd (rga (tnPage k) 0x4C)) 15 8) ≤ 256) :
    s.enableTenant k = (((List.range 4).foldl (fun s i => s.wb (qReg (4 * k + i) 0x18) 31 false)
      ((s.setTnState k 1).setTenant k default)).sendHeldIrqs k).advance := by
  simp only [State.enableTenant, State.tnFree, htn, hhold, hdiag, hoff, beq_eq_false_iff_ne.2 hshare, decide_eq_false (Nat.not_lt.2 hbw),
    decide_eq_false (Nat.not_lt.2 hlink), beq_self_eq_true, Bool.not_true, Bool.and_false, Bool.or_self, Bool.false_eq_true, if_false]

/-- A STOPPED tenant runs again, its manifest at step 0 (R234, R235). -/
theorem State.restartTenant_stopped {k : Nat} (htn : s.tnState k = 3) (hhold : s.safeHold = false) (hdiag : s.diagRequired = false) :
    s.restartTenant k = ((List.range 4).foldl (fun s i => s.wb (qReg (4 * k + i) 0x18) 31 false)
      ((s.setTnState k 1).setTenant k { s.tenant k with
        step := 0
        acked := 0
        slots := []
        closing := false
        merged := none })).advance := by
  simp only [State.restartTenant, htn, hhold, hdiag, ne_eq, not_true_eq_false, Bool.false_eq_true, or_self, if_false]
  rfl

/-! ### The scrub -/

/-- t has the tenants of s, and a register table as good as that of s. -/
structure State.SameTenants (s t : State) : Prop where
  tn : t.tn = s.tn
  wf : s.regsWf → t.regsWf

theorem State.SameTenants.refl (s : State) : State.SameTenants s s := ⟨rfl, id⟩

theorem State.SameTenants.trans (h : State.SameTenants s t) (k : State.SameTenants t u) : State.SameTenants s u :=
  ⟨k.tn.trans h.tn, fun hs => k.wf (h.wf hs)⟩

theorem State.SameTenants.wr (h : State.SameTenants s t) (a : Nat) (v : Word) : State.SameTenants s (t.wr a v) :=
  h.trans ⟨rfl, State.wr_regsWf⟩

/-- Steps that keep the tenants keep them however often they are taken. -/
theorem State.SameTenants.foldl {α : Type} {g : State → α → State} (hg : ∀ s x, State.SameTenants s (g s x)) (l : List α) (s : State) :
    State.SameTenants s (l.foldl g s) := by
  induction l generalizing s with
  | nil => exact .refl s
  | cons x l ih => exact (hg s x).trans (ih (g s x))

theorem State.scrubRegions_sameTenants (k : Nat) : State.SameTenants s (s.scrubRegions k) :=
  .foldl (fun u _ => (State.SameTenants.mk rfl id : State.SameTenants u (u.hbmZero _ _)).wr _ _) _ _

theorem State.zeroParts_sameTenants (k : Nat) : State.SameTenants s (s.zeroParts k) := by
  refine .foldl (fun u e => ?_) _ _
  dsimp only
  split <;> exact ⟨rfl, id⟩

theorem State.releaseTally_sameTenants (k : Nat) : State.SameTenants s (s.releaseTally k) := by
  have hclear : State.SameTenants s (s.clearTally k) := ⟨rfl, id⟩
  refine (hclear.trans (.foldl (fun u i => ?_) _ _)).trans (.foldl (fun u i => ?_) _ _)
  · split
    · exact ((State.SameTenants.refl u).wr _ _).wr _ _
    · exact .refl u
  · dsimp only
    split
    · exact ((State.SameTenants.refl u).wr _ _).wr _ _
    · exact .refl u

/-- A queue of the released tenant emptied, its wait dropped (R406). -/
theorem State.emptyQueue_sameTenants (q : Nat) :
    State.SameTenants s (((((s.wr (qReg q 0x10) (s.rd (qReg q 0xC))).wr (qReg q 0x14) (s.rd (qReg q 0xC))).haltQueue q)).setQueue q default) :=
  .trans (((State.SameTenants.refl s).wr _ _).wr _ _) (.trans (State.SameTenants.wr ⟨rfl, id⟩ _ _) ⟨rfl, id⟩)

/-- The scrub of a tenant's regions, partitions, barriers and queues (R406). -/
def State.scrubbed (s : State) (k : Nat) : State :=
  (List.range 4).foldl (fun s i =>
    let q := 4 * k + i
    ((s.wr (qReg q 0x10) (s.rd (qReg q 0xC))).wr (qReg q 0x14) (s.rd (qReg q 0xC))).haltQueue q |>.setQueue q default)
    (((s.scrubRegions k).zeroParts k).releaseTally k)

theorem State.scrubbed_sameTenants (s : State) (k : Nat) : State.SameTenants s (s.scrubbed k) :=
  ((s.scrubRegions_sameTenants k).trans (State.zeroParts_sameTenants k)).trans (State.releaseTally_sameTenants k)
    |>.trans (State.SameTenants.foldl (fun u i => u.emptyQueue_sameTenants (4 * k + i)) (List.range 4) _)

theorem exec_scrubDone (htn : s.tnState n.val = 4) (hrun : s.hasRun n.val = false) :
    exec (.scrubDone n) s = .next (((((s.scrubbed n.val).pf (rga 9 0xC0) 6 0 100).setTenant n.val
      { (s.scrubbed n.val).tenant n.val with scrubbing := false }).raise 9 1).setTnState n.val 0) := by
  change execScrubDone n s = _
  unfold execScrubDone
  rw [if_neg (by simp [htn, hrun])]
  dsimp only [State.scrubbed]

theorem State.raise_tn (page bit : Nat) : (s.raise page bit).tn = s.tn := by
  obtain ⟨x, hx⟩ := State.raise_eq (s := s) (page := page) (bit := bit)
  rw [hx]
  rfl

/-- The scrub of a released tenant without a run leaves it FREE (R406). -/
theorem exec_scrubDone_free (htn : s.tnState n.val = 4) (hrun : s.hasRun n.val = false) (hcan : s.canonical = true) :
    ∃ u, exec (.scrubDone n) s = .next u ∧ u.tnState n.val = 0 ∧ (u.tenant n.val).scrubbing = false := by
  obtain ⟨⟨-, htnWf⟩, -⟩ := State.canonical_iff.1 hcan
  obtain ⟨htnEq, hwf⟩ := (s.scrubbed_sameTenants n.val).wr (rga 9 0xC0) (setFld ((s.scrubbed n.val).rd (rga 9 0xC0)) 6 0 100)
  have hfree : ∀ u : State, u.regsWf → ∀ x : Tenant, (((u.setTenant n.val x).raise 9 1).setTnState n.val 0).tnState n.val = 0 :=
    fun u hu x => State.rf_pf (State.raise_regsWf (s := u.setTenant n.val x) hu) _ (by decide) (by decide)
  have htenant : ∀ u : State, mapWf dflt u.tn = true → ∀ x : Tenant,
      ((((u.setTenant n.val x).raise 9 1).setTnState n.val 0).tenant n.val) = x := by
    intro u hu x
    have hkeep : (((u.setTenant n.val x).raise 9 1).setTnState n.val 0).tn = (u.setTenant n.val x).tn := State.raise_tn ..
    rw [State.tenant, hkeep]
    exact (State.tenant_setTenant hu _ _ _).trans (if_pos rfl)
  refine ⟨_, exec_scrubDone htn hrun, hfree _ (hwf (State.canonical_regsWf hcan)) _, ?_⟩
  rw [htenant]
  exact (congrArg (fun m => mapWf dflt m) htnEq).trans htnWf

/-! ### Manifests -/

/-- Where a tenant's manifest may be written. -/
theorem exec_close (hw : s.mayWrite f (manReg n.val 0x1A8) = true) : exec (.close f n v) s = .next (s.wrManCtl n.val v) := by
  change execClose f n v s = _
  rw [execClose, State.guarded_of_mayWrite hw]

theorem exec_manAck (hw : s.mayWrite f (manReg n.val 0x1A8) = true) : exec (.manAck f n v) s = .next (s.wrManCtl n.val v) := by
  change execManAck f n v s = _
  rw [execManAck, State.guarded_of_mayWrite hw]

/-- CLOSE of an ACTIVE tenant with its manifest in use and no close under way closes the step now (R248). -/
theorem State.wrManCtl_close {k : Nat} (htn : s.tnState k = 1) (huse : s.rb (manReg k 0x180) 31 = true) (hopen : (s.tenant k).closing = false) :
    s.wrManCtl k 1 = s.closeStep k 1 s.nowUs := by
  have h0 : tbit (1 : Word) 0 = true := by decide
  have h1 : tbit (1 : Word) 1 = false := by decide
  simp only [State.wrManCtl, State.manTrigger, State.manTriggerAt, h0, h1, htn, huse, hopen, ne_eq, not_true_eq_false, Bool.not_true,
    Bool.false_eq_true, or_self, false_and, if_true, if_false]

/-- MAN_ACK acknowledges the oldest record (R253). -/
theorem State.wrManCtl_ack {k : Nat} (h : (s.tenant k).acked < (s.tenant k).step) :
    s.wrManCtl k 2 = s.setTenant k { s.tenant k with acked := (s.tenant k).acked + 1 } := by
  have h0 : tbit (2 : Word) 0 = false := by decide
  have h1 : tbit (2 : Word) 1 = true := by decide
  simp only [State.wrManCtl, h0, h1, h, true_and, Bool.false_eq_true, if_true, if_false]

theorem exec_mergedClose {trig time : Nat} (h : (s.tenant n.val).merged = some (trig, time)) :
    exec (.mergedClose n) s = .next ((s.setTenant n.val { s.tenant n.val with
      merged := none
      closing := false }).manTriggerAt n.val trig time) := by
  change execMergedClose n s = _
  simp only [execMergedClose, h]

/-! ### Limits and the power window -/

theorem exec_runLimit_engine {e : Fin 6} {r : Run} (h : (s.engine e.val).run = some r) :
    exec (.runLimit (.engine e)) s = .next (s.jobFault (tnPage r.cmd.owner) 0x0803 (inkInfo r.cmd) r.cmd.owner) := by
  change execRunLimit (.engine e) s = _
  simp only [execRunLimit, h]

theorem exec_runLimit_porter {p : Fin 16} {r : Run} (h : (s.porter p.val).run = some r) :
    exec (.runLimit (.porter p)) s = .next (s.jobFault (tnPage r.cmd.owner) 0x0803 (inkInfo r.cmd) r.cmd.owner) := by
  change execRunLimit (.porter p) s = _
  simp only [execRunLimit, h]

/-- The share of one tenant in a window of ticks (R250). -/
def State.sharePower (ticks : Nat) (s : State) (k : Nat) : State :=
  if s.accounts k then s.setTenant k { s.tenant k with
    power := ((s.tenant k).energy - (s.tenant k).energyAt) * 1000000 / ticks
    energyAt := (s.tenant k).energy } else s

theorem State.endWindow_eq {ticks : Nat} (h : ticks ≠ 0) :
    s.endWindow ticks = { (List.range 8).foldl (State.sharePower ticks) s with
      clock := { ((List.range 8).foldl (State.sharePower ticks) s).clock with winTick := ((List.range 8).foldl (State.sharePower ticks) s).clock.tick } } := by
  unfold State.endWindow
  rw [if_neg h]
  rfl

/-- Sharing the power of a window out to tenants changes the tenants alone. -/
theorem State.foldl_sharePower_frame (ticks : Nat) (l : List Nat) (s : State) :
    ∃ m, l.foldl (State.sharePower ticks) s = { s with tn := m } := by
  induction l generalizing s with
  | nil => exact ⟨s.tn, rfl⟩
  | cons k l ih =>
    have hstep : ∃ m, State.sharePower ticks s k = { s with tn := m } := by
      unfold State.sharePower
      split
      · exact ⟨_, rfl⟩
      · exact ⟨s.tn, rfl⟩
    obtain ⟨m, hm⟩ := hstep
    obtain ⟨m', hm'⟩ := ih (State.sharePower ticks s k)
    exact ⟨m', by rw [List.foldl_cons, hm', hm]⟩

/-- Each tenant up to k whose counters run has its share; the others stand as before. -/
theorem State.tenant_sharePower (ticks k : Nat) (h : mapWf dflt s.tn = true) :
    mapWf dflt ((List.range k).foldl (State.sharePower ticks) s).tn = true ∧
      ∀ j, ((List.range k).foldl (State.sharePower ticks) s).tenant j = if j < k ∧ s.accounts j = true then { s.tenant j with
        power := ((s.tenant j).energy - (s.tenant j).energyAt) * 1000000 / ticks
        energyAt := (s.tenant j).energy } else s.tenant j := by
  induction k with
  | zero => exact ⟨h, fun j => by simp⟩
  | succ k ih =>
    obtain ⟨hwf, hrd⟩ := ih
    obtain ⟨m, hm⟩ := State.foldl_sharePower_frame ticks (List.range k) s
    have hacc : ((List.range k).foldl (State.sharePower ticks) s).accounts k = s.accounts k := by rw [hm]; rfl
    have hk := hrd k
    rw [if_neg (by omega)] at hk
    rw [List.range_succ, List.foldl_append]
    generalize (List.range k).foldl (State.sharePower ticks) s = w at *
    change mapWf dflt (State.sharePower ticks w k).tn = true ∧ ∀ j, (State.sharePower ticks w k).tenant j = _
    unfold State.sharePower
    rw [hacc]
    split
    · next hon =>
      refine ⟨mapSet_wf hwf, fun j => ?_⟩
      rw [State.tenant_setTenant hwf, hk]
      by_cases hj : j = k
      · subst hj
        rw [if_pos rfl, if_pos ⟨by omega, hon⟩]
      · rw [if_neg hj, hrd j]
        exact ite_congr (propext (and_congr_left fun _ => by omega)) (fun _ => rfl) (fun _ => rfl)
    · next hoff =>
      refine ⟨hwf, fun j => ?_⟩
      rw [hrd j]
      refine ite_congr (propext ⟨fun hj => ⟨by omega, hj.2⟩, fun hj => ⟨?_, hj.2⟩⟩) (fun _ => rfl) (fun _ => rfl)
      have hne : j ≠ k := fun e => hoff (e ▸ hj.2)
      omega

/-- POWER_WINDOW_END (R250, R443): the module's power and the share of each tenant whose counters run. -/
theorem exec_powerWindowEnd :
    ∃ u, exec .powerWindowEnd s = .next u ∧ u.clock.winTick = s.clock.tick ∧
      (s.canonical = true → u.rf (rga 6 0x54) 9 0 = s.ost.powerMw / 1000 % 1024 ∧
        (u.tenant n.val).power = if s.accounts n.val then ((s.tenant n.val).energy - (s.tenant n.val).energyAt) / 10 else (s.tenant n.val).power) := by
  obtain ⟨m, hm⟩ := State.foldl_sharePower_frame 10000000 (List.range 8) s
  refine ⟨(s.endWindow 10000000).pf (rga 6 0x54) 9 0 (s.ost.powerMw / 1000), rfl, ?_, fun hcan => ⟨?_, ?_⟩⟩
  · rw [State.endWindow_eq (by decide), hm]
    rfl
  · have hwf := State.canonical_regsWf hcan
    refine State.rf_pf ?_ _ (by decide) (by decide)
    rw [State.endWindow_eq (by decide), hm]
    exact hwf
  · obtain ⟨⟨-, htnWf⟩, -⟩ := State.canonical_iff.1 hcan
    obtain ⟨-, hrd⟩ := State.tenant_sharePower (s := s) 10000000 8 htnWf
    have htenant : ((s.endWindow 10000000).pf (rga 6 0x54) 9 0 (s.ost.powerMw / 1000)).tenant n.val =
        ((List.range 8).foldl (State.sharePower 10000000) s).tenant n.val := by
      rw [State.endWindow_eq (by decide)]
      rfl
    rw [htenant, hrd n.val]
    by_cases hacc : s.accounts n.val = true
    · rw [if_pos ⟨n.isLt, hacc⟩, if_pos hacc]
      exact Nat.mul_div_mul_right _ 10 (by decide : 0 < 1000000)
    · rw [if_neg (fun h => hacc h.2), if_neg hacc]

/-! ### The obligation -/

/-- Settles O15: the commands of TN_CTL, the scrub, the manifest, the limits, the power window. -/
theorem tenantCommands : Obligations.TenantCommands := by
  unfold Obligations.TenantCommands
  refine ⟨fun s f n hf hw => ⟨fun htn hhold hdiag hoff hshare hbw hlink => ?_, fun htn hhold hdiag => ?_, fun htn => ?_, exec_scrubDone_free⟩,
    fun s f n => ⟨fun hw htn huse hopen => ?_, fun hw h => ?_, fun trig time => exec_mergedClose, fun e r => exec_runLimit_engine,
      fun p r => exec_runLimit_porter, exec_powerWindowEnd⟩⟩
  · rw [exec_enable hw, State.wrTnCtl_enable hf, State.enableTenant_free htn hhold hdiag hoff hshare hbw hlink]
  · rw [exec_restart hw, State.wrTnCtl_restart, State.restartTenant_stopped htn hhold hdiag]
  · rw [exec_release hw, State.wrTnCtl_release hf, State.releaseTenant, if_pos htn]
  · rw [exec_close hw, State.wrManCtl_close htn huse hopen]
  · rw [exec_manAck hw, State.wrManCtl_ack h]

end Sys2Proof.Machine
end

section
/-!
Sideband words (R177) and the aborts of a job (R201 to R205): from these the obligation AbortRows.
-/
namespace Sys2Proof.Machine

variable {s : State} {f : Func} {v : Word}

/-! ### Sideband words touch the ports alone -/

theorem State.takeSb_eq (s : State) (w : SbWord) : ∃ m, s.takeSb w = { s with field := { s.field with ports := m } } := by
  unfold State.takeSb
  split
  · exact ⟨_, rfl⟩
  · exact ⟨s.field.ports, rfl⟩

/-- Steps that touch the ports alone do so however often they are taken. -/
theorem foldl_ports {α : Type} {g : State → α → State} (hg : ∀ s x, ∃ m, g s x = { s with field := { s.field with ports := m } }) (l : List α)
    (s : State) : ∃ m, l.foldl g s = { s with field := { s.field with ports := m } } := by
  induction l generalizing s with
  | nil => exact ⟨s.field.ports, rfl⟩
  | cons x l ih =>
    obtain ⟨m, hm⟩ := hg s x
    obtain ⟨m', hm'⟩ := ih (g s x)
    exact ⟨m', by rw [List.foldl_cons, hm', hm]⟩

theorem State.flood_eq (s : State) (w : SbWord) (p : Nat) : ∃ m, s.flood w p = { s with field := { s.field with ports := m } } :=
  foldl_ports (fun _ _ => ⟨_, rfl⟩) _ _

@[simp] theorem State.takeSb_regs (w : SbWord) : (s.takeSb w).regs = s.regs := by
  obtain ⟨m, hm⟩ := s.takeSb_eq w
  rw [hm]

@[simp] theorem State.takeSb_fuses (w : SbWord) : (s.takeSb w).fuses = s.fuses := by
  obtain ⟨m, hm⟩ := s.takeSb_eq w
  rw [hm]

@[simp] theorem State.takeSb_seen (w : SbWord) : (s.takeSb w).field.seen = s.field.seen := by
  obtain ⟨m, hm⟩ := s.takeSb_eq w
  rw [hm]

@[simp] theorem State.flood_regs (w : SbWord) (p : Nat) : (s.flood w p).regs = s.regs := by
  obtain ⟨m, hm⟩ := s.flood_eq w p
  rw [hm]

@[simp] theorem State.takeSb_epoch (w : SbWord) (t : Nat) : (s.takeSb w).epoch t = s.epoch t := State.rf_congr (State.takeSb_regs w) ..
@[simp] theorem State.takeSb_tnState (w : SbWord) (t : Nat) : (s.takeSb w).tnState t = s.tnState t := State.rf_congr (State.takeSb_regs w) ..
@[simp] theorem State.takeSb_collector (w : SbWord) : (s.takeSb w).collector = s.collector := State.rf_congr (State.takeSb_regs w) ..
@[simp] theorem State.takeSb_me (w : SbWord) : (s.takeSb w).me = s.me := by rw [State.me, State.takeSb_fuses, State.me]

/-! ### The rows -/

theorem exec_abort (hw : s.mayWrite f (fdReg 0x490) = true) : exec (.abort f v) s = .next (s.wrAbtCtl f v) := by
  change execAbort f v s = _
  rw [execAbort, State.guarded_of_mayWrite hw]

/-- An ABORT of an ACTIVE tenant faults its job (R201, R205). -/
theorem State.wrAbtCtl_active (h4 : tbit v 4 = true) (ht : fld v 3 0 < 8) (htn : (s.store f (fdReg 0x490) v 0).tnState (fld v 3 0) = 1) :
    s.wrAbtCtl f v = (s.store f (fdReg 0x490) v 0).jobFault 0x300 0x0604 (fld v 3 0) (fld v 3 0) := by
  unfold State.wrAbtCtl
  exact if_pos ⟨h4, ht, .inl htn⟩

theorem State.wrAbtCtl_noAbort (h4 : tbit v 4 = false) : s.wrAbtCtl f v = s.store f (fdReg 0x490) v 0 := by
  unfold State.wrAbtCtl
  exact if_neg fun h => by simp [h4] at h

/-- The first word of a new epoch is passed on and aborts the job that runs here (R201 to R203). -/
theorem State.abortWord_first {t : Fin 8} {ep : BitVec 4} {o : Fin 64} {code : Nat} (p : Nat) (hseen : s.field.seen = []) (hep : s.epoch t.val ≠ ep.toNat)
    (htn : s.tnState t.val = 1) :
    s.abortWord p t.val ep.toNat o.val code = (({ s with field := { s.field with seen := [(t.val, o.val)] } } : State).flood
      (.abort t ep o code) p).localAbort t.val ep.toNat o.val code := by
  have hfresh : (s.epoch t.val != ep.toNat) = true := by simpa using hep
  have hword : SbWord.abort (Fin.ofNat 8 t.val) (BitVec.ofNat 4 ep.toNat) (Fin.ofNat 64 o.val) code = .abort t ep o code := by simp
  have hlive : ∀ w, ((({ s with field := { s.field with seen := [(t.val, o.val)] } } : State).flood w p).tnState t.val == 1) = true := by
    intro w
    rw [State.tnState, State.rf_congr (State.flood_regs w p), beq_iff_eq]
    exact htn
  unfold State.abortWord
  rw [hfresh, hseen, hword]
  simp only [if_true, List.filter_nil, List.nil_append, List.contains_nil, Bool.not_true, Bool.false_eq_true, false_and, or_self, if_false, hlive,
    Bool.true_or]

theorem exec_abortReceipt {p t : Fin 8} {ep : BitVec 4} {o : Fin 64} {code : Nat} :
    exec (.abortReceipt p t ep o code) s = .next ((s.takeSb (.abort t ep o code)).abortWord p.val t.val ep.toNat o.val code) := rfl

/-- ABORT_DONE is counted by the collector and goes on toward it elsewhere (R202, R204). -/
theorem exec_abortDone {t : Fin 8} {src : Fin 64} :
    exec (.abortDone t src) s = if s.collector = s.me then .next ((s.takeSb (.abortDone t src)).countDone src.val)
      else .next ((s.takeSb (.abortDone t src)).sbToward (.abortDone t src) s.collector) := by
  change execAbortDone t src s = _
  unfold execAbortDone
  simp only [State.takeSb_collector, State.takeSb_me]

/-- Settles O16: ABORT by its tenant's state, the first word of an epoch, ABORT_DONE on both sides. -/
theorem abortRows : Obligations.AbortRows := by
  unfold Obligations.AbortRows
  intro s
  refine ⟨fun f v hw h4 ht htn => ?_, fun f v hw h4 => ?_, fun p t ep o code u hu hseen hep htn => ?_, fun t src hc => ?_, fun t src hc => ?_⟩
  · rw [exec_abort hw, State.wrAbtCtl_active h4 ht htn]
  · rw [exec_abort hw, State.wrAbtCtl_noAbort h4]
  · subst hu
    rw [exec_abortReceipt, State.abortWord_first p.val (by simpa using hseen) (by simpa using hep) (by simpa using htn)]
  · rw [exec_abortDone, if_pos hc]
  · rw [exec_abortDone, if_neg hc]

end Sys2Proof.Machine
end

section
/-!
Fields of one register side by side, and the training of Faleg ports (R168 to R171, R178, R203): from these the obligation PortTraining.
-/
namespace Sys2Proof.Machine

variable {s : State}

/-! ### Fields of one register beside a written one -/

theorem State.rf_pf_below (h : s.regsWf) (a : Nat) {hi lo v k l : Nat} (h1 : lo ≤ hi) (h2 : hi < 32) (hk : k < lo) (hl : l ≤ k) :
    (s.pf a hi lo v).rf a k l = s.rf a k l := by
  unfold State.rf
  rw [State.rd_pf h, if_pos rfl, fld_setFld_below h1 h2 hk hl]

theorem State.rf_pf_above (h : s.regsWf) (a : Nat) {hi lo v k l : Nat} (h1 : lo ≤ hi) (h2 : hi < 32) (hl : hi < l) :
    (s.pf a hi lo v).rf a k l = s.rf a k l := by
  unfold State.rf
  rw [State.rd_pf h, if_pos rfl, fld_setFld_above h1 h2 hl]

theorem State.rb_pf_out (h : s.regsWf) (a : Nat) {hi lo v i : Nat} (h1 : lo ≤ hi) (h2 : hi < 32) (hi' : i < lo ∨ hi < i) :
    (s.pf a hi lo v).rb a i = s.rb a i := by
  unfold State.rb
  rw [State.rd_pf h, if_pos rfl, tbit_setFld_ne h1 h2 hi']

theorem State.rf_pf_reg_ne (h : s.regsWf) {a b hi lo v k l : Nat} (hne : b ≠ a) : (s.pf a hi lo v).rf b k l = s.rf b k l :=
  State.rf_wr_ne h _ hne

theorem State.rf_wb_out (h : s.regsWf) (a : Nat) {i k l : Nat} {x : Bool} (hi : i < 32) (hd : k < i ∨ i < l) (hl : l ≤ k) :
    (s.wb a i x).rf a k l = s.rf a k l := by
  unfold State.rf
  rw [State.rd_wb h, if_pos rfl, fld_setBit_ne hi hd hl]

/-! ### The state of a port -/

variable {p : Fin 8}

theorem State.toState_onlyRegsMsix (s : State) (p v : Nat) : OnlyRegsMsix s (s.toState p v) := by
  unfold State.toState
  split
  · exact .refl s
  · exact ((OnlyRegsMsix.refl s).pf ..).raise ..

theorem State.toState_regsWf (h : s.regsWf) (p v : Nat) : (s.toState p v).regsWf := by
  unfold State.toState
  split
  · exact h
  · exact State.raise_regsWf (State.pf_regsWf h)

/-- PORT_STATE is raised in another register than the port's status (R205, R206). -/
theorem flReg_ne_raw (p : Nat) : flReg p 0x44 ≠ rga 0x300 oRaw := rga_ne_of_off (by decide) (by decide) (by decide)

theorem State.toState_lstate (h : s.regsWf) (p : Nat) {v : Nat} (hv : v < 8) : (s.toState p v).lstate p = v := by
  unfold State.toState
  split
  · next he => exact he
  · exact (State.rf_raise_ne (State.pf_regsWf h) (flReg_ne_raw p)).trans ((State.rf_pf h _ (by decide) (by decide)).trans (Nat.mod_eq_of_lt hv))

/-- The other fields of FL_STAT stand. -/
theorem State.toState_rf (h : s.regsWf) (p v : Nat) {k l : Nat} (hl : 2 < l) : (s.toState p v).rf (flReg p 0x44) k l = s.rf (flReg p 0x44) k l := by
  unfold State.toState
  split
  · rfl
  · exact (State.rf_raise_ne (State.pf_regsWf h) (flReg_ne_raw p)).trans (State.rf_pf_above h _ (by decide) (by decide) hl)

theorem State.toState_rb (h : s.regsWf) (p v : Nat) {i : Nat} (hi : 2 < i) : (s.toState p v).rb (flReg p 0x44) i = s.rb (flReg p 0x44) i := by
  unfold State.toState
  split
  · rfl
  · exact (State.rb_raise_ne (State.pf_regsWf h) (flReg_ne_raw p)).trans (State.rb_pf_out h _ (by decide) (by decide) (.inr hi))

@[simp] theorem State.logPort_regs (ev p : Nat) : (s.logPort ev p).regs = s.regs := by
  unfold State.logPort
  obtain ⟨g, hg⟩ := State.logNamed_eq (s := s) (page := falPage p) (ev := ev) (cls := 2) (info := p) (t := 255)
  rw [hg]

/-- A port that goes DOWN with an error bit of its status set and its reason noted (R170). -/
theorem State.portDown (h : s.regsWf) (p : Nat) {bit : Nat} (hb : 2 < bit) (hb' : bit < 32) (x : Port) (ev : Nat) :
    let t := ((((s.wb (flReg p 0x44) bit true).setPort p x).toState p 0).logPort ev p)
    t.lstate p = 0 ∧ t.rb (flReg p 0x44) bit = true := by
  have hwf : ((s.wb (flReg p 0x44) bit true).setPort p x).regsWf := State.wb_regsWf (a := flReg p 0x44) (i := bit) (b := true) h
  dsimp only
  unfold State.lstate
  rw [State.rf_congr (State.logPort_regs ev p), State.rb_congr (State.logPort_regs ev p), State.toState_rb hwf p 0 hb]
  exact ⟨State.toState_lstate hwf p (by decide), State.rb_wb h _ hb'⟩

/-! ### Training -/

theorem exec_retrain {f : Func} {v : Word} (hw : s.mayWrite f (flReg p.val 0x40) = true)
    (hdir : fld v 3 1 = fld (s.ledRead (0x588 + p.val)) 3 1) (h0 : tbit v 0 = true) :
    exec (.retrain f p v) s = .next (s.portTrain p.val) := by
  change execRetrain f p v s = _
  rw [execRetrain, State.guarded_of_mayWrite hw, State.wrFlCfg, if_pos hdir, if_pos h0]

/-- A trained port: four locked lanes and the Field ID of its partner (R168). -/
def State.trained (s : State) (p partner : Nat) : State := (s.pf (flReg p 0x44) 19 16 15).pf (flReg p 0x44) 31 26 partner

theorem State.trained_regsWf (h : s.regsWf) (p partner : Nat) : (s.trained p partner).regsWf := State.pf_regsWf (State.pf_regsWf h)

theorem State.trained_fields (h : s.regsWf) (p : Nat) (partner : BitVec 6) :
    (s.trained p partner.toNat).rf (flReg p 0x44) 31 26 = partner.toNat ∧ (s.trained p partner.toNat).rf (flReg p 0x44) 19 16 = 15 := by
  have hlanes := State.pf_regsWf (a := flReg p 0x44) (hi := 19) (lo := 16) (v := 15) h
  refine ⟨(State.rf_pf hlanes _ (by decide) (by decide)).trans (Nat.mod_eq_of_lt partner.isLt), ?_⟩
  exact (State.rf_pf_below hlanes _ (by decide) (by decide) (by decide) (by decide)).trans (State.rf_pf h _ (by decide) (by decide))

/-- The direction of a port and its neighbours stand outside its status register. -/
theorem State.trained_neighbour (h : s.regsWf) (p partner q : Nat) : (s.trained p partner).neighbour ((s.trained p partner).dir q) = s.neighbour (s.dir q) := by
  have hrd : ∀ a, a % 4096 ≠ 0x44 → (s.trained p partner).rd a = s.rd a := fun a ha => by
    have hne : a ≠ flReg p 0x44 := fun e => ha (by rw [e]; exact rga_mod _ (by decide))
    exact (State.rd_wr_ne (State.pf_regsWf h) _ hne).trans (State.rd_wr_ne h _ hne)
  have htopo : (s.trained p partner).rd aTopo = s.rd aTopo := hrd _ (by decide)
  have hdir : (s.trained p partner).dir q = s.dir q := by
    unfold State.dir State.rf
    rw [hrd _ (by rw [rga_mod _ (by decide)]; decide)]
  rw [hdir]
  simp only [State.neighbour, State.neighbourOf, State.fieldSize, State.topo, State.torusX, State.torusY, State.rf, htopo] <;> rfl

theorem exec_portTrainingDone {partner : BitVec 6} (h : s.regsWf) (hl : s.lstate p.val = 1) :
    exec (.portTrainingDone p 15 partner) s = if s.neighbour (s.dir p.val) = some partner.toNat then .next ((s.trained p.val partner.toNat).toState p.val 2)
      else .next (((((s.trained p.val partner.toNat).wb (flReg p.val 0x44) 7 true).setPort p.val { s.port p.val with why := 1 }).toState p.val 0).logPort
        evWiring p.val) := by
  change execPortTrainingDone p 15 partner s = _
  rw [← State.trained_neighbour h p.val partner.toNat p.val]
  unfold execPortTrainingDone
  rw [if_neg (by simp [hl]), if_neg (by decide)]
  rfl

theorem exec_wiringRetry_waits (hl : s.lstate p.val = 0) (hw : (s.port p.val).why = 1) : exec (.wiringRetry p) s = .next (s.startTrain p.val) := by
  change execWiringRetry p s = _
  rw [execWiringRetry, if_pos ⟨hl, hw⟩]

theorem exec_wiringRetry_other (hw : (s.port p.val).why ≠ 1) : exec (.wiringRetry p) s = .next s := by
  change execWiringRetry p s = _
  rw [execWiringRetry, if_neg fun h => hw h.2]

/-! ### Authentication, lane loss, the epochs -/

theorem exec_authDone_roster {key : List Word} (hl : s.lstate p.val = 2) (hk : s.onRoster key = true) :
    exec (.authDone p key true) s = .next ((((s.newSeals p.val).toState p.val 3).sendSb (.epochs (s.rd aEpoch)) p.val).freeDelayMin.sendProxies) := by
  change execAuthDone p key true s = _
  unfold execAuthDone
  simp only [hl, hk, ne_eq, not_true_eq_false, if_false, Bool.and_self, if_true]

theorem exec_authDone_foreign {key : List Word} (hl : s.lstate p.val = 2) (hk : s.onRoster key = false) :
    exec (.authDone p key true) s
      = .next ((((s.wb (flReg p.val 0x44) 6 true).setPort p.val { s.port p.val with why := 2 }).toState p.val 0).logPort evAuthFail p.val) := by
  change execAuthDone p key true s = _
  unfold execAuthDone
  simp only [hl, hk, ne_eq, not_true_eq_false, if_false, Bool.and_false, Bool.false_eq_true]

theorem State.startTrain_regsWf (h : s.regsWf) (p : Nat) : (s.startTrain p).regsWf := by
  have hlanes := State.pf_regsWf (a := flReg p 0x44) (hi := 19) (lo := 16) (v := 0) h
  exact State.toState_regsWf (s := (s.pf (flReg p 0x44) 19 16 0).setPort p _) hlanes p _

/-- A port that is neither DOWN nor UP trains again with the lanes that are left (R171). -/
theorem exec_laneLockLoss {lanes : BitVec 4} (h0 : lanes ≠ 0) (hl : s.lstate p.val ≠ 0) (hup : s.lstate p.val ≠ 3) :
    exec (.laneLockLoss p lanes) s
      = .next ((s.startTrain p.val).pf (flReg p.val 0x44) 19 16 (s.rf (flReg p.val 0x44) 19 16 &&& (15 - lanes.toNat))) := by
  have hport : s.portUp p.val = false := by simp [State.portUp, hup]
  change execLaneLockLoss p lanes s = _
  unfold execLaneLockLoss
  rw [if_neg (fun h => h.elim h0 hl)]
  simp only [hport, Bool.false_eq_true, if_false]

/-- The end farther from the collector takes the epochs of the other (R203). -/
theorem exec_epochExchange {epochs : Word}
    (hd : s.hops (s.rf (rga (falPage p.val) 0x44) 31 26) s.collector < s.hops s.me s.collector) :
    exec (.epochExchange p epochs) s = .next ((List.range 8).foldl (fun u t =>
      if fld epochs (4 * t + 3) (4 * t) = u.epoch t then u
      else u.abortWord p.val t (fld epochs (4 * t + 3) (4 * t)) (s.rf (rga (falPage p.val) 0x44) 31 26) ((Config.freeWord s.fresh).toNat % 65536))
      (s.takeSb (.epochs epochs)).take.2) := by
  obtain ⟨m, hm⟩ := s.takeSb_eq (.epochs epochs)
  change execEpochExchange p epochs s = _
  unfold execEpochExchange
  rw [hm]
  exact if_pos (.inl hd)

/-! ### The obligation -/

/-- Settles O17: training by the neighbour found, authentication by the roster, lane loss, the epochs of the nearer end. -/
theorem portTraining : Obligations.PortTraining := by
  unfold Obligations.PortTraining
  refine ⟨fun s p => ⟨fun f v => exec_retrain, fun partner hcan hl hn => ?_, fun partner hcan hl hn => ?_, exec_wiringRetry_waits,
    exec_wiringRetry_other, fun key => exec_authDone_roster, fun key hcan hl hk => ?_, fun lanes hcan h0 hl hup => ?_⟩, fun s p epochs u hu hd => ?_⟩
  · have hwf := State.canonical_regsWf hcan
    have ht := State.trained_regsWf hwf p.val partner.toNat
    obtain ⟨hpartner, hlanes⟩ := State.trained_fields hwf p.val partner
    refine ⟨_, (exec_portTrainingDone hwf hl).trans (if_pos hn), State.toState_lstate ht _ (by decide), ?_, ?_, ?_⟩
    · rw [State.toState_rf ht _ _ (by decide), hpartner]
    · rw [State.toState_rf ht _ _ (by decide), hlanes]
    · exact (((OnlyRegsMsix.refl s).pf ..).pf ..).trans (State.toState_onlyRegsMsix ..)
  · have hwf := State.canonical_regsWf hcan
    have ht := State.trained_regsWf hwf p.val partner.toNat
    exact ⟨_, (exec_portTrainingDone hwf hl).trans (if_neg hn), State.portDown ht p.val (by decide) (by decide) _ _⟩
  · exact ⟨_, exec_authDone_foreign hl hk, State.portDown (State.canonical_regsWf hcan) p.val (by decide) (by decide) _ _⟩
  · refine ⟨_, exec_laneLockLoss h0 hl hup, (State.rf_pf (State.startTrain_regsWf (State.canonical_regsWf hcan) _) _ (by decide) (by decide)).trans ?_⟩
    exact Nat.mod_eq_of_lt (Nat.lt_of_le_of_lt Nat.and_le_left fld_lt)
  · subst hu
    exact exec_epochExchange hd

end Sys2Proof.Machine
end

section
/-!
Data and control slots of a link (R172 to R182): from these the obligation LinkSlots.
-/
namespace Sys2Proof.Machine

variable {s : State} {p : Fin 8}

/-! ### Data slots -/

/-- A slot whose CRC holds, with a flit in sequence of an open run (R172, R175). -/
theorem exec_dataSlot_held {d : DataSlot} {f : Flit} {w : State} {x : Rx} (hup : s.portUp p.val = true) (hcrc : d.crcOk = true) (hhdr : d.hdr ≠ 0)
    (hf : f = ⟨d.hdr, d.payload.take (nfld d.hdr.toNat 12 0)⟩)
    (hw : w = (s.addSat (flReg p.val 0x4C) (fecCorrected d.fec)).setPort p.val ((s.port p.val).link d.ack.toNat d.freed)) (hx : x = (w.port p.val).rxs)
    (hrun : x.runBad = false) (hseq : f.seq = x.expect) :
    exec (.dataSlot p d) s = .next (w.setRx p.val { x with
      held := x.held ++ [f]
      expect := (x.expect + 1) % 4096 }) := by
  subst hf hx hw
  change execDataSlot p d s = _
  unfold execDataSlot
  rw [hup, hcrc]
  refine (if_neg (by decide)).trans ((if_neg (by decide)).trans (if_neg ?_))
  rintro (h0 | hbad | hne)
  · exact hhdr h0
  · exact absurd hbad (Bool.eq_false_iff.1 hrun)
  · exact hne hseq

/-- A slot whose CRC fails starts a bad run, up to the replay limit (R176). -/
theorem exec_dataSlot_bad {d : DataSlot} (hup : s.portUp p.val = true) (hcrc : d.crcOk = false) (hrun : (s.port p.val).rxs.runBad = false)
    (hlim : (s.port p.val).rxs.replays < 8) :
    exec (.dataSlot p d) s = .next (((s.addSat (flReg p.val 0x4C) (fecCorrected d.fec)).addSat (flReg p.val 0x50) 1).setRx p.val
      (s.port p.val).rxs.bad) := by
  have hlimit : ¬9 ≤ (s.port p.val).rxs.bad.replays := by
    change ¬9 ≤ (s.port p.val).rxs.replays + 1
    omega
  change execDataSlot p d s = _
  unfold execDataSlot
  rw [hup, hcrc]
  exact (if_neg (by decide)).trans ((if_pos (by decide)).trans ((if_neg (Bool.eq_false_iff.1 hrun)).trans (if_neg hlimit)))

/-! ### Control slots -/

/-- The state in which a control slot finds its port: the corrected bytes counted, the run counter gone on (R179). -/
def State.ctlSlot (s : State) (p : Nat) (c : CtlSlot) : State :=
  (s.addSat (flReg p 0x4C) (fecCorrected c.fec)).setRx p (s.port p).rxs.nextRun

/-- It is still UP: FEC_CORR is another register. -/
theorem State.ctlSlot_portUp (h : s.regsWf) (c : CtlSlot) (hup : s.portUp p.val = true) (x : Port) :
    ((s.ctlSlot p.val c).setPort p.val x).portUp p.val = true := by
  have hstat : (s.addSat (flReg p.val 0x4C) (fecCorrected c.fec)).rf (flReg p.val 0x44) 2 0 = s.rf (flReg p.val 0x44) 2 0 := by
    unfold State.addSat
    exact State.rf_wr_ne h _ (by unfold flReg; simp)
  unfold State.portUp State.lstate at hup ⊢
  exact (congrArg (· == 3) hstat).trans hup

theorem exec_controlSlot_good {c : CtlSlot} (h : s.regsWf) (hup : s.portUp p.val = true) (hcrc : c.crcOk = true) (hwords : c.words = [])
    (hnak : c.nak = none) :
    exec (.controlSlot p c) s = .next (((s.ctlSlot p.val c).setPort p.val { (s.ctlSlot p.val c).port p.val with
      sbOut := ((s.ctlSlot p.val c).port p.val).sbOut.filter (fun a => !c.sbAcks.contains a.1) }).closeRun p.val c.tagOk) := by
  change execControlSlot p c s = _
  unfold execControlSlot
  rw [hup, hcrc, hwords, hnak]
  exact (if_neg (by decide)).trans ((if_neg (by decide)).trans (if_pos (State.ctlSlot_portUp h c hup _)))

theorem exec_controlSlot_lost {c : CtlSlot} {x : Rx} (hup : s.portUp p.val = true) (hcrc : c.crcOk = false)
    (hx : x = ((s.ctlSlot p.val c).port p.val).rxs) (hrun : x.runBad = false) (hlim : x.replays < 8) :
    exec (.controlSlot p c) s = .next (((s.ctlSlot p.val c).addSat (flReg p.val 0x50) 1).setRx p.val { x.bad with runBad := false }) := by
  have hport : ((s.ctlSlot p.val c).addSat (flReg p.val 0x50) 1).port p.val = (s.ctlSlot p.val c).port p.val := rfl
  change execControlSlot p c s = _
  unfold execControlSlot
  rw [hup, hcrc, ← State.ctlSlot]
  dsimp only
  rw [hport, ← hx, hrun]
  refine (if_neg (by decide)).trans ((if_pos (by decide)).trans (if_neg ?_))
  change ¬9 ≤ x.replays + 1
  omega

/-! ### The escape channel -/

/-- The head of a channel without credit goes over to escape at this hop (R182). -/
theorem exec_escWaitExpiry {vc : Fin 2} {t : TxPkt} {v : Nat} (ht : (s.port p.val).headOf vc.val = some t)
    (hv : v = if s.crossesDateline t.pkt.dest then 3 else 2) :
    exec (.escWaitExpiry p vc) s = if (s.port p.val).credit vc.val ≠ 0 then .next s else .next (s.setPort p.val { s.port p.val with
      tx := (s.port p.val).tx.erase t ++ [{ t with
        vc := v
        flits := t.flits.map (fun f => f.onward v f.hops)
        pkt := { t.pkt with vc := v } }] }) := by
  subst hv
  change execEscWaitExpiry p vc s = _
  simp only [execEscWaitExpiry, ht]

/-- Settles O18: data slots good and bad, control slots good and lost, the escape wait by the credit. -/
theorem linkSlots : Obligations.LinkSlots := by
  unfold Obligations.LinkSlots
  intro s p hcan hup
  refine ⟨fun d f w x => exec_dataSlot_held hup, fun d => exec_dataSlot_bad hup, fun c w hw => ?_, fun vc t v ht hv => ?_⟩
  · subst hw
    exact ⟨exec_controlSlot_good (State.canonical_regsWf hcan) hup, fun x => exec_controlSlot_lost hup⟩
  · rw [exec_escWaitExpiry ht hv]
    exact ⟨fun h => if_neg (Decidable.not_not.2 h), fun h => if_pos h⟩

end Sys2Proof.Machine
end

section
/-!
Packets at the head of a channel (R171, R174, R182 to R189): from these the obligation PacketRows.
-/
namespace Sys2Proof.Machine

variable {s : State} {p : Fin 8} {vc : Fin 4} {k : Packet}

/-! ### Packets for another module -/

theorem exec_packetForward_goes {q v : Nat} {r : RxPkt} {l : List RxPkt} (hk : s.rxHead p.val vc.val = some k) (hd : k.dest ≠ s.me) (hh : k.hops ≠ 0)
    (hop : isProxyOp k.op = false) (hq : s.dataPort k.dest vc.val = some q) (hv : v = s.escVc vc.val (s.dir p.val) (s.dir q) k.dest)
    (hr : (s.port p.val).rxOf vc.val = r :: l) :
    exec (.packetForward p vc) s = .next ((s.rxLeave p.val vc.val (.through q)).pushTx q
      ⟨v, if r.counted then some (p.val, vc.val) else none, r.flits.map (fun f => f.onward v (k.hops - 1)), r.whole, false, s.clock.tick, none,
        { k with
          vc := v
          hops := k.hops - 1
          data := [] }⟩) := by
  subst hv
  change execPacketForward p vc s = _
  simp only [execPacketForward, hk, hd, hh, hop, hq, if_false, Bool.false_eq_true, State.forwardPkt, hr]

/-- A request with no hop left is answered with an error (R183). -/
theorem exec_packetForward_lost (hk : s.rxHead p.val vc.val = some k) (hd : k.dest ≠ s.me) (hh : k.hops = 0) (hop : isRequest k.op = true) :
    exec (.packetForward p vc) s = .next ((s.rxLeave p.val vc.val .drop).answer k .error 0x0602 []) := by
  change execPacketForward p vc s = _
  simp only [execPacketForward, hk, hd, hh, hop, if_false, if_true]

/-! ### Packets for this module -/

theorem exec_writePacket_hbm (hk : s.rxFor p.val vc.val .write = some k) (hspace : k.space = 0)
    (hreg : (s.rxPop p.val vc.val).regCheck k.tenant true k.addr k.data.length = .ok) :
    exec (.writePacket p vc) s
      = .next ((((s.rxPop p.val vc.val).hbmWrite k.addr k.data).chargeHbm k.tenant k.data.length).answer k .writeAck k.addr []) := by
  change execWritePacket p vc s = _
  simp only [execWritePacket, hk, hspace, hreg, if_true]

theorem exec_writePacket_spad (hk : s.rxFor p.val vc.val .write = some k) (h0 : k.space ≠ 0) (h6 : k.space ≤ 6)
    (hpart : (s.rxPop p.val vc.val).inPart (k.space - 1) k.tenant k.addr k.data.length = true) :
    exec (.writePacket p vc) s = .next (((s.rxPop p.val vc.val).spWrite (k.space - 1) k.addr k.data).answer k .writeAck k.addr []) := by
  change execWritePacket p vc s = _
  simp only [execWritePacket, hk, h0, h6, hpart, if_false, and_self, if_true]

/-- An acknowledgement ends its request; without a remote arrival held back it does nothing else (R189). -/
theorem exec_writeAcknowledgement {r : Req} (hk : s.rxFor p.val vc.val .writeAck = some k) (hr : s.field.reqs.find? (fun r => r.tag == k.tag) = some r)
    (hlast : (s.porter r.pd).lastRemote = none) :
    ∃ t, exec (.writeAcknowledgement p vc) s = .next t ∧ t.field.reqs = s.field.reqs.filter (fun x => x.tag != r.tag) := by
  have hreqs : (s.rxPop p.val vc.val).field.reqs.find? (fun r => r.tag == k.tag) = some r := hr
  have hporter : ∀ fd : FieldSt, ({ s.rxPop p.val vc.val with field := fd } : State).porter r.pd = s.porter r.pd := fun _ => rfl
  refine ⟨{ s.rxPop p.val vc.val with
    field := { (s.rxPop p.val vc.val).field with reqs := (s.rxPop p.val vc.val).field.reqs.filter (fun x => x.tag != r.tag) } }, ?_, rfl⟩
  change execWriteAcknowledgement p vc s = _
  simp only [execWriteAcknowledgement, hk, hreqs, hporter, hlast]
  cases (s.porter r.pd).run <;> rfl

/-- An error response with the code of PORTER_BOUNDS fails its request (R188, R205). -/
theorem exec_errorResponse {r : Req} (hk : s.rxFor p.val vc.val .error = some k) (hr : s.field.reqs.find? (fun r => r.tag == k.tag) = some r)
    (hcode : k.addr % 65536 = 0x0303) :
    exec (.errorResponse p vc) s = .next ((s.rxPop p.val vc.val).failReq r 0x0303 (r.dest * 2 ^ 26 + r.seq.toNat % 65536)) := by
  have hreqs : (s.rxPop p.val vc.val).field.reqs.find? (fun r => r.tag == k.tag) = some r := hr
  have hinfo : errInfo k 0x0303 r.dest r.seq.toNat = r.dest * 2 ^ 26 + r.seq.toNat % 65536 := by
    unfold errInfo
    exact if_neg (by decide)
  change execErrorResponse p vc s = _
  simp only [execErrorResponse, hk, hreqs, hcode, hinfo]

theorem exec_arrivePacket (hk : s.rxFor p.val vc.val .arrive = some k) :
    exec (.arrivePacket p vc) s = .next ((s.rxPop p.val vc.val).sendArrival
      ⟨.central (Fin.ofNat 256 (nfld k.addr 31 24)), nfld k.addr 23 12, some k.tenant, none, 0x3FF, falPage p.val⟩) := by
  change execArrivePacket p vc s = _
  simp only [execArrivePacket, hk]

/-- Settles O19: forwarded and lost packets, writes to both memories, acknowledgements, errors, arrivals. -/
theorem packetRows : Obligations.PacketRows := by
  unfold Obligations.PacketRows
  exact fun s p vc k => ⟨fun q v r l => exec_packetForward_goes, exec_packetForward_lost, exec_writePacket_hbm, exec_writePacket_spad,
    fun r => exec_writeAcknowledgement, fun r => exec_errorResponse, exec_arrivePacket⟩

end Sys2Proof.Machine
end

section
/-!
The Field counter (R191, R192): from these the obligation FieldCounter.
-/
namespace Sys2Proof.Machine

variable {s : State}

/-! ### The words sent and the measured latency -/

theorem exec_timesyncSend : exec .timesyncSend s = .next (s.flood (.timesync s.clock.field) 8) := rfl

theorem exec_echoSend : exec .echoSend s = .next (s.flood (.echo false (BitVec.ofNat 64 s.clock.tick)) 8) := rfl

/-- FC_CTL stands outside every other register. -/
theorem State.master_wr_ne (h : s.regsWf) {a : Nat} (v : Word) (ha : rga 0x300 0x210 ≠ a) : (s.wr a v).master = s.master := by
  unfold State.master
  rw [State.rf_wr_ne h v ha]

/-- Away from the master an echo measures its port's latency and nothing more (R191, R196). -/
theorem exec_echo {p : Fin 8} (h : s.regsWf) (hm : s.master ≠ s.me) (n : Nat) :
    exec (.echo p n) s = .next (s.pf (rga (falPage p.val) 0x48) 15 0 (min (n / 2) 0xFFFF)) := by
  have hmaster : (s.pf (rga (falPage p.val) 0x48) 15 0 (min (n / 2) 0xFFFF)).master = s.master :=
    State.master_wr_ne h _ (rga_ne_of_off (by decide) (by decide) (by decide))
  change Host.Outcome.next (State.freeDelayMin _) = _
  unfold State.freeDelayMin
  rw [hmaster]
  exact congrArg _ (if_pos hm)

/-! ### TIMESYNC -/

/-- The steps before the machine: the offset shown, the near words in a row counted (R192). -/
def State.fcNoted (s : State) (off : Int) : State :=
  { s.pf (fdReg 0x214) 31 24 (ofS 8 (clampI (-128) 127 off)) with
    clock := { s.clock with fcRun := if decide (off.natAbs ≤ 1) then s.clock.fcRun + 1 else 0 } }

theorem State.fcNoted_acquiring (h : s.regsWf) (hm : s.master ≠ s.me) (hacq : s.rf (rga 0x300 0x214) 1 0 = 0) (off : Int) :
    (s.fcNoted off).fcState = 0 := by
  have hmaster : (s.pf (fdReg 0x214) 31 24 (ofS 8 (clampI (-128) 127 off))).master = s.master :=
    State.master_wr_ne h _ (rga_ne_of_off (by decide) (by decide) (by decide))
  unfold State.fcState
  refine (if_neg fun e => hm (hmaster.symm.trans e)).trans ?_
  exact (State.rf_pf_below h (fdReg 0x214) (by decide) (by decide) (by decide) (by decide)).trans hacq

/-- In ACQUIRING the first word steps the counter, and the machine may lock (R192). -/
theorem State.fcTrack_first (h : s.regsWf) (hm : s.master ≠ s.me) (hacq : s.rf (rga 0x300 0x214) 1 0 = 0) (hfirst : s.clock.fcFirst = true)
    (v : Nat) (off : Int) : s.fcTrack v off = if 16 ≤ (s.fcNoted off).clock.fcRun then ((s.fcNoted off).stepField v).setFc 1
      else (s.fcNoted off).stepField v := by
  have hf : (if (s.fcNoted off).clock.fcFirst then (s.fcNoted off).stepField v else (s.fcNoted off).steer) = (s.fcNoted off).stepField v := if_pos hfirst
  rw [← hf]
  unfold State.fcTrack
  exact if_pos (State.fcNoted_acquiring h hm hacq off)

theorem State.clock_fcTrack_first (h : s.regsWf) (hm : s.master ≠ s.me) (hacq : s.rf (rga 0x300 0x214) 1 0 = 0) (hfirst : s.clock.fcFirst = true)
    (v : Nat) (off : Int) : (s.fcTrack v off).clock.field = BitVec.ofNat 64 v ∧ (s.fcTrack v off).clock.fcFirst = false := by
  rw [State.fcTrack_first h hm hacq hfirst]
  split <;> exact ⟨rfl, rfl⟩

/-- A word from the port toward the master is tracked, by its value and the port's latency (R191). -/
theorem exec_timesync {p : Fin 8} {count : BitVec 64} (hm : s.master ≠ s.me) (hp : s.firstPort s.master = some p.val) :
    ∃ m off, exec (.timesync p count) s = .next (({ s with field := { s.field with ports := m } } : State).fcTrack
      ((count.toNat + s.rf (rga (falPage p.val) 0x48) 15 0) % 2 ^ 64) off) := by
  obtain ⟨m, hw⟩ := s.takeSb_eq (.timesync count)
  refine ⟨m, toS 64 ((count.toNat + s.rf (rga (falPage p.val) 0x48) 15 0) % 2 ^ 64 + 2 ^ 64 - s.now), ?_⟩
  change Host.Outcome.next (State.timesync _ p.val count) = _
  rw [hw]
  refine congrArg _ (if_neg ?_)
  rintro (he | hne)
  · exact hm he
  · exact hne hp

/-! ### Holdover and the master -/

theorem exec_fcHoldover (hm : s.master ≠ s.me) (hst : s.fcState = 1) :
    exec .fcHoldover s = .next { s.setFc 2 with clock := { s.clock with fcRun := 0 } } := by
  change execFcHoldover s = _
  rw [execFcHoldover, if_pos ⟨hm, hst⟩]

theorem State.fcState_setFc (h : s.regsWf) (hm : s.master ≠ s.me) {v : Nat} (hv : v < 4) : (s.setFc v).fcState = v := by
  have hmaster : (s.setFc v).master = s.master := State.master_wr_ne h _ (rga_ne_of_off (by decide) (by decide) (by decide))
  unfold State.fcState
  rw [hmaster]
  exact (if_neg hm).trans ((State.rf_pf h _ (by decide) (by decide)).trans (Nat.mod_eq_of_lt hv))

theorem exec_masterWrite {f : Func} {v : Word} (hw : s.mayWrite f (fdReg 0x210) = true) :
    exec (.masterWrite f v) s = .next (if s.masterOk (fld v 5 0) then s.wrRwp (fdReg 0x210) v else s.wb (fdReg 0x214) 2 true) := by
  change execMasterWrite f v s = _
  rw [execMasterWrite, State.guarded_of_mayWrite hw, State.wrMaster]

/-! ### The obligation -/

/-- Settles O20: the words sent, the latency, the first TIMESYNC, holdover, the master's distance. -/
theorem fieldCounter : Obligations.FieldCounter := by
  unfold Obligations.FieldCounter
  intro s
  refine ⟨exec_timesyncSend, exec_echoSend, fun p n hcan hm => exec_echo (State.canonical_regsWf hcan) hm n,
    fun p count hcan hm hp hacq hfirst => ?_, fun hm hst hcan => ?_, fun f v hw => ?_⟩
  · obtain ⟨m, off, ht⟩ := exec_timesync (count := count) hm hp
    have hwf := State.canonical_regsWf hcan
    obtain ⟨hfield, hdone⟩ := State.clock_fcTrack_first (s := { s with field := { s.field with ports := m } }) hwf hm hacq hfirst
      ((count.toNat + s.rf (rga (falPage p.val) 0x48) 15 0) % 2 ^ 64) off
    refine ⟨_, ht, ?_, hdone⟩
    rw [hfield, BitVec.toNat_ofNat, Nat.mod_mod]
  · exact ⟨_, exec_fcHoldover hm hst, State.fcState_setFc (State.canonical_regsWf hcan) hm (by decide), rfl⟩
  · rw [exec_masterWrite hw]
    exact ⟨fun h => congrArg _ (if_pos h), fun h => congrArg _ (if_neg (Bool.eq_false_iff.1 h))⟩

end Sys2Proof.Machine
end

section
/-!
Link barriers (R194 to R197): from these the obligation LinkBarriers.
-/
namespace Sys2Proof.Machine

variable {s : State} {k : Fin 16}

/-! ### Arrivals and releases -/

/-- An arrival of the generation that is not the last is recorded at the root (R194, R195). -/
theorem State.lbCount_recorded {k src gen : Nat} (hon : s.lbOn k = true) (hin : s.lbIn k src = true) (hgen : gen = s.lbGen k)
    (hmore : ((s.lb k).arrived ||| 2 ^ src) ≠ s.rd64 (lbMask k)) :
    s.lbCount k src gen true = s.setLb k { s.lb k with
      arrived := (s.lb k).arrived ||| 2 ^ src
      dup := (s.lb k).dup || ((s.lb k).arrived >>> src) % 2 == 1
      unlocked := (s.lb k).unlocked } := by
  have hopen : ∀ x, ¬((s.lb k).arrived ||| 2 ^ src = (s.setLb k x).rd64 (lbMask k)) := fun _ => hmore
  simp only [State.lbCount, hon, hin, hgen, Bool.not_true, Bool.false_eq_true, ne_eq, not_true_eq_false, or_self, if_false, Bool.or_false, hopen]

theorem exec_lbArrival {src : Fin 64} {gen : BitVec 16} (hm : s.master = s.me) (hon : s.lbOn k.val = true) (hin : s.lbIn k.val src.val = true)
    (hgen : gen.toNat = s.lbGen k.val) (hmore : ((s.lb k.val).arrived ||| 2 ^ src.val) ≠ s.rd64 (lbMask k.val)) :
    exec (.lbArrival k src gen true) s = .next ((s.takeSb (.lbArrival k src gen true)).setLb k.val { s.lb k.val with
      arrived := (s.lb k.val).arrived ||| 2 ^ src.val
      dup := (s.lb k.val).dup || ((s.lb k.val).arrived >>> src.val) % 2 == 1
      unlocked := (s.lb k.val).unlocked }) := by
  obtain ⟨m, ht⟩ := s.takeSb_eq (.lbArrival k src gen true)
  change execLbArrival k src gen true s = _
  unfold execLbArrival
  dsimp only
  rw [ht]
  refine (if_pos hm).trans (congrArg Host.Outcome.next ?_)
  exact State.lbCount_recorded (s := { s with field := { s.field with ports := m } }) hon hin hgen hmore

theorem exec_lbTimeout (hm : s.master = s.me) (hon : s.lbOn k.val = true) (harr : (s.lb k.val).arrived ≠ 0) :
    exec (.lbTimeout k) s = .next (s.lbRelease k.val 1) := by
  change execLbTimeout k s = _
  rw [execLbTimeout, if_pos ⟨hm, hon, harr⟩]

theorem exec_lbSelfRelease (h : s.rb (lbStat k.val) 7 = true) : exec (.lbSelfRelease k) s = .next (s.lbTake k.val (s.lbGen k.val) 1 0) := by
  change execLbSelfRelease k s = _
  rw [execLbSelfRelease, if_pos h]

/-- A release word is passed on beyond this module (R195, R197). -/
theorem exec_lbRelease {gen : BitVec 16} {status : Nat} {count : BitVec 64} (hm : s.master ≠ s.me) :
    exec (.lbRelease k gen status count) s
      = .next ((s.takeSb (.lbRelease k gen status count)).lbSend k.val gen.toNat status count.toNat) := by
  obtain ⟨m, ht⟩ := s.takeSb_eq (.lbRelease k gen status count)
  change execLbRelease k gen status count s = _
  unfold execLbRelease
  rw [ht]
  exact if_neg hm

/-! ### Firing -/

/-- The oldest held release fires once the Field counter has reached its count (R195). -/
theorem exec_lbFire_reached {f : Nat × List (Nat × Nat × Word)} {r : List (Nat × List (Nat × Nat × Word))} (hl : (s.lb k.val).fire = f :: r) (hf : f.1 ≤ s.now) :
    exec (.lbFire k) s = .next (f.2.foldl (fun s a => s.fireHeld a) (s.setLb k.val { s.lb k.val with fire := r })) := by
  change execLbFire k s = _
  simp only [execLbFire, hl, List.find?_cons, hf, decide_true, List.erase_cons_head]

theorem exec_lbFire_waiting (h : ∀ f ∈ (s.lb k.val).fire, s.now < f.1) : exec (.lbFire k) s = .next s := by
  have hnone : (s.lb k.val).fire.find? (fun f => decide (f.1 ≤ s.now)) = none := by
    rw [List.find?_eq_none]
    intro f hf
    simpa using h f hf
  change execLbFire k s = _
  simp only [execLbFire, hnone]

theorem exec_lbCfgWrite {f : Func} {v : Word} (hw : s.mayWrite f (lbCfg k.val) = true) :
    exec (.lbCfgWrite f k v) s = .next (if fld v 15 0 < s.rf (fdReg 0x400) 15 0 then s else s.store f (lbCfg k.val) v 0) := by
  change execLbCfgWrite f k v s = _
  rw [execLbCfgWrite, State.guarded_of_mayWrite hw, State.wrLbCfg]

/-- Settles O21: arrivals, releases, firing by the Field counter, LB_CFG by its delay. -/
theorem linkBarriers : Obligations.LinkBarriers := by
  unfold Obligations.LinkBarriers
  refine ⟨fun s k hm => ⟨fun src gen => exec_lbArrival hm, exec_lbTimeout hm, exec_lbSelfRelease, fun f r => exec_lbFire_reached, exec_lbFire_waiting,
    fun f v hw => ?_⟩, fun s k gen status count => exec_lbRelease⟩
  rw [exec_lbCfgWrite hw]
  exact ⟨fun h => congrArg _ (if_neg (Nat.not_lt.2 h)), fun h => congrArg _ (if_pos h)⟩

end Sys2Proof.Machine
end

section
/-!
Phase generators and the zero-crossing input (R254 to R261): from these the obligation PhaseGenerators.
-/
namespace Sys2Proof.Machine

variable {s : State} {f : Func} {v : Word} {g : Fin 4}

/-! ### A plain store -/

theorem State.store_onlyRegs (s : State) (f : Func) (a : Nat) (v hw : Word) : OnlyRegs s (s.store f a v hw) := by
  unfold State.store
  split <;> rfl

theorem State.store_regsWf (h : s.regsWf) (f : Func) (a : Nat) (v hw : Word) : (s.store f a v hw).regsWf := by
  unfold State.store
  split
  · exact h
  · exact State.wr_regsWf h

/-- A store leaves every other register alone. -/
theorem State.rd_store_ne (h : s.regsWf) (f : Func) {a b : Nat} (v hw : Word) (hne : b ≠ a) : (s.store f a v hw).rd b = s.rd b := by
  unfold State.store
  split
  · rfl
  · exact State.rd_wr_ne h _ hne

theorem State.rf_store_ne (h : s.regsWf) (f : Func) {a b hi lo : Nat} (v hw : Word) (hne : b ≠ a) : (s.store f a v hw).rf b hi lo = s.rf b hi lo := by
  unfold State.rf
  rw [State.rd_store_ne h f v hw hne]

theorem State.rb_store_ne (h : s.regsWf) (f : Func) {a b i : Nat} (v hw : Word) (hne : b ≠ a) : (s.store f a v hw).rb b i = s.rb b i := by
  unfold State.rb
  rw [State.rd_store_ne h f v hw hne]

/-! ### The registers of a generator -/

theorem pgReg_inj {g a b : Nat} : pgReg g a = pgReg g b ↔ a = b := by
  unfold pgReg rga
  omega

/-- The state of a generator stands in its PG_STAT. -/
theorem State.pgState_eq (s : State) (g : Nat) : s.pgState g = s.rf (pgReg g 0x18) 2 0 := by
  unfold State.pgState pgReg
  congr 2
  omega

theorem State.pgState_store (h : s.regsWf) (f : Func) {off : Nat} (ho : 0x18 ≠ off) (v hw : Word) : (s.store f (pgReg g.val off) v hw).pgState g.val = s.pgState g.val := by
  rw [State.pgState_eq, State.pgState_eq]
  exact State.rf_store_ne h f v hw (mt pgReg_inj.1 ho)

/-! ### Configuration -/

theorem exec_pgEnable (hw : s.mayWrite f (pgReg g.val 0) = true) : exec (.pgEnable f g v) s = .next (s.wrPgCfg f g.val v) := by
  change execPgEnable f g v s = _
  rw [execPgEnable, State.guarded_of_mayWrite hw]

/-- ENABLE starts a generator that is OFF (R255). -/
theorem State.wrPgCfg_starts (h : s.regsWf) (hv : tbit v 31 = true) (hoff : s.pgState g.val = 0) :
    s.wrPgCfg f g.val v = (s.store f (pgReg g.val 0) v 0).pgStart g.val :=
  if_pos ⟨hv, (State.pgState_store h f (by decide) v 0).trans hoff⟩

/-- Without ENABLE the generator is OFF (R255). -/
theorem State.wrPgCfg_off (hv : tbit v 31 = false) : s.wrPgCfg f g.val v = (s.store f (pgReg g.val 0) v 0).pf (pgReg g.val 0x18) 2 0 0 := by
  unfold State.wrPgCfg
  refine (if_neg fun h => ?_).trans (if_pos ?_)
  · exact absurd h.1 (Bool.eq_false_iff.1 hv)
  · rw [hv]
    rfl

/-- The running source of a generator that is on. -/
theorem State.pgSrc_running (h : s.pgState g.val ≠ 0) : s.pgSrc g.val = (s.gen g.val).src := if_neg h

/-- The rate of a whole K below the limit, without a held fraction (R261). -/
theorem toS_wholeK (h : v.toNat < 4294967) : toS 64 (v.toNat * 2 ^ 32 + (0 : Word).toNat) = ((v.toNat * 2 ^ 32 : Nat) : Int) ∧
    (-kMax ≤ ((v.toNat * 2 ^ 32 : Nat) : Int) ∧ ((v.toNat * 2 ^ 32 : Nat) : Int) ≤ kMax) := by
  have hz : (0 : Word).toNat = 0 := rfl
  have hlt : v.toNat * 2 ^ 32 < 2 ^ 63 := by omega
  have hmod : v.toNat * 2 ^ 32 % 2 ^ 64 = v.toNat * 2 ^ 32 := Nat.mod_eq_of_lt (by omega)
  refine ⟨?_, ?_, ?_⟩
  · rw [hz, Nat.add_zero]
    unfold toS
    rw [hmod]
    exact if_pos hlt
  · unfold kMax
    omega
  · unfold kMax
    omega

/-- A K written to a running generator of the free source is a change for the next timebase instant (R256, R261). -/
theorem exec_kWrite (h : s.regsWf) (hw : s.mayWrite f (pgReg g.val 4) = true) (hst : s.pgState g.val = 2) (hsrc : (s.gen g.val).src = 3)
    (hfrac : (s.gen g.val).fracHeld = some 0) (hv : v.toNat < 4294967) :
    exec (.kWrite f g v) s = .next ((((s.store f (pgReg g.val 4) v 0).wr (pgReg g.val 8) 0).setGen g.val
      { s.gen g.val with fracHeld := none }).addChange (.k g.val ((v.toNat * 2 ^ 32 : Nat) : Int))) := by
  have hon : s.pgState g.val ≠ 0 := by
    rw [hst]
    decide
  have hafter : ∀ x, (((s.store f (pgReg g.val 4) v 0).wr (pgReg g.val 8) 0).setGen g.val x).pgState g.val ≠ 0 := by
    have hstat : ((s.store f (pgReg g.val 4) v 0).wr (pgReg g.val 8) 0).rf (pgReg g.val 0x18) 2 0 = s.rf (pgReg g.val 0x18) 2 0 :=
      (State.rf_wr_ne (State.store_regsWf h f _ v 0) _ (mt pgReg_inj.1 (by decide))).trans (State.rf_store_ne h f v 0 (mt pgReg_inj.1 (by decide)))
    intro x e
    rw [State.pgState_eq] at hon e
    exact hon (hstat.symm.trans e)
  obtain ⟨hk, hlo, hhi⟩ := toS_wholeK hv
  change execKWrite f g v s = _
  rw [execKWrite, State.guarded_of_mayWrite hw]
  unfold State.wrPgParam
  simp only [hon, State.pgSrc_running hon, hsrc, hfrac, Option.getD_some, hk, hlo, hhi, hafter, ne_eq, not_true_eq_false, not_false_eq_true, and_false,
    and_self, if_false, if_true]

/-- A positive ADJ below the limit is a change for the next timebase instant (R256, R261). -/
theorem exec_pgAdj (hw : s.mayWrite f (pgReg g.val 0x10) = true) (hst : s.pgState g.val = 2) (hsrc : (s.gen g.val).src = 3) (hv : v.toNat < 2 ^ 30) :
    exec (.pgAdj f g v) s = .next { s with mile := { s.mile with changes := s.mile.changes ++ [.adj g.val v.toNat] } } := by
  have hon : s.pgState g.val ≠ 0 := by
    rw [hst]
    decide
  have ha : toS 32 v.toNat = (v.toNat : Int) := by
    unfold toS
    rw [Nat.mod_eq_of_lt (by omega)]
    exact if_pos (by omega)
  have hlim : ¬2 ^ 30 ≤ ((v.toNat : Nat) : Int).natAbs := by
    rw [Int.natAbs_natCast]
    omega
  change execPgAdj f g v s = _
  rw [execPgAdj, State.guarded_of_mayWrite hw]
  unfold State.wrPgAdj
  simp only [ha, hlim, State.pgSrc_running hon, hsrc, hst, and_self, if_false, if_true, State.addChange]

theorem exec_timebaseChange {c : Change} {r : List Change} (hc : s.mile.changes = c :: r) :
    exec .timebaseChange s = .next (({ s with mile := { s.mile with changes := r } } : State).applyChange c) := by
  change execTimebaseChange s = _
  simp only [execTimebaseChange, hc]

/-! ### The mains source -/

/-- A rising edge counts once its level has held for the hold-off (R259). -/
theorem exec_zcEdge (held : Nat) (hneg : s.rb (mpReg 0xC0) 0 = false) (hheld : s.rf (mpReg 0xC0) 31 16 ≤ held) :
    exec (.zcEdge false held) s
      = .next ((List.range 4).foldl (fun s g => if (s.gen g).src = 2 then s.zcEdge g (s.clock.tick - held) held else s) s) := by
  change execZcEdge false held s = _
  unfold execZcEdge
  refine if_neg ?_
  rw [hneg]
  rintro (h | h)
  · exact h rfl
  · omega

theorem exec_zcEdge_early {falling : Bool} {held : Nat} (hheld : held < s.rf (mpReg 0xC0) 31 16) : exec (.zcEdge falling held) s = .next s := by
  change execZcEdge falling held s = _
  rw [execZcEdge, if_pos (.inr hheld)]

theorem exec_zcTimeout (edge : Bool) :
    exec (.zcTimeout g edge) s = if (s.gen g.val).src = 2 ∧ s.pgState g.val = 2 ∧ !edge then
      .next ((s.pf (pgReg g.val 0x18) 2 0 3).incSat (mpReg 0xCC) 15 0) else .next s := rfl

theorem pgReg_ne_mpReg (g : Nat) : pgReg g 0x18 ≠ mpReg 0xCC := by
  unfold pgReg mpReg rga
  omega

/-- A missed crossing: COASTING, and one more in the saturating count (R259). -/
theorem State.zcTimeout_fields (h : s.regsWf) (g : Nat) :
    ((s.pf (pgReg g 0x18) 2 0 3).incSat (mpReg 0xCC) 15 0).pgState g = 3 ∧
      ((s.pf (pgReg g 0x18) 2 0 3).incSat (mpReg 0xCC) 15 0).rf (mpReg 0xCC) 15 0 = min (s.rf (mpReg 0xCC) 15 0 + 1) 0xFFFF := by
  have hpf := State.pf_regsWf (a := pgReg g 0x18) (hi := 2) (lo := 0) (v := 3) h
  constructor
  · rw [State.pgState_eq]
    exact (State.rf_pf_reg_ne hpf (pgReg_ne_mpReg g)).trans (State.rf_pf h _ (by decide) (by decide))
  · rw [State.rf_incSat hpf _ (by decide) (by decide), State.rf_pf_reg_ne h (pgReg_ne_mpReg g).symm]
    have hlt : s.rf (mpReg 0xCC) 15 0 < 65536 := fld_lt
    unfold satInc
    split <;> omega

theorem exec_srcLost (h : s.pgState g.val = 3) : exec (.srcLost g) s = .next (s.srcLost g.val) := by
  change execSrcLost g s = _
  rw [execSrcLost, if_pos h]

/-! ### The obligation -/

/-- Settles O22: the configuration of a generator, its queued changes, the mains source (log 32). -/
theorem phaseGenerators : Obligations.PhaseGenerators := by
  unfold Obligations.PhaseGenerators
  refine ⟨fun s f g v hcan => ⟨fun hw hv hoff => ?_, fun hw hv => ?_, fun hw hst hsrc hfrac hv => ?_, exec_pgAdj, fun c r => exec_timebaseChange⟩,
    fun s g hcan => ⟨exec_zcEdge, fun held => exec_zcEdge_early, fun hsrc hst => ?_, exec_srcLost⟩⟩
  · rw [exec_pgEnable hw, State.wrPgCfg_starts (State.canonical_regsWf hcan) hv hoff]
  · have hwf := State.store_regsWf (State.canonical_regsWf hcan) f (pgReg g.val 0) v 0
    refine ⟨_, (exec_pgEnable hw).trans (congrArg _ (State.wrPgCfg_off hv)), ?_, (State.store_onlyRegs ..).pf ..⟩
    rw [State.pgState_eq]
    exact State.rf_pf hwf _ (by decide) (by decide)
  · have hstore := State.store_onlyRegs s f (pgReg g.val 4) v 0
    refine ⟨_, exec_kWrite (State.canonical_regsWf hcan) hw hst hsrc hfrac hv, ?_, ?_⟩
    · rw [hstore]
      rfl
    · rw [hstore]
      rfl
  · obtain ⟨hcoast, hcount⟩ := State.zcTimeout_fields (State.canonical_regsWf hcan) g.val
    exact ⟨_, (exec_zcTimeout false).trans (if_pos ⟨hsrc, hst, rfl⟩), hcoast, hcount, (OnlyRegs.refl s).pf _ _ _ _ |>.pf _ _ _ _,
      (exec_zcTimeout true).trans (if_neg fun h => Bool.noConfusion h.2.2)⟩

end Sys2Proof.Machine
end

section
/-!
The PTP clock (R274 to R280): from these the obligation PtpClock.
-/
namespace Sys2Proof.Machine

variable {s t : State} {f : Func} {v : Word}

/-! ### Registers, messages and the log -/

theorem OnlyRegsMsix.log (h : OnlyRegsMsix s t) : OnlyRegsLog s t := by
  unfold OnlyRegsMsix at h
  unfold OnlyRegsLog
  rw [h]

theorem OnlyRegsLog.logNamed (h : OnlyRegsLog s t) (page ev cls info n : Nat) : OnlyRegsLog s (t.logNamed page ev cls info n) := by
  obtain ⟨g, hg⟩ := State.logNamed_eq (s := t) (page := page) (ev := ev) (cls := cls) (info := info) (t := n)
  unfold OnlyRegsLog at h ⊢
  rw [hg, h]

@[simp] theorem State.logNamed_regs (page ev cls info n : Nat) : (s.logNamed page ev cls info n).regs = s.regs := by
  obtain ⟨g, hg⟩ := State.logNamed_eq (s := s) (page := page) (ev := ev) (cls := cls) (info := info) (t := n)
  rw [hg]

theorem mpReg_inj {a b : Nat} : mpReg a = mpReg b ↔ a = b := rga_inj

/-! ### The addend -/

theorem exec_addendWrite (hw : s.mayWrite f (mpReg 0x110) = true) : exec (.addendWrite f v) s = .next (s.wrAddendHi f v) := by
  change execAddendWrite f v s = _
  rw [execAddendWrite, State.guarded_of_mayWrite hw]

/-- ADDEND_HI commits a pair in its range and discards another (R274). -/
theorem State.wrAddendHi_eq {a : Nat} (ha : a = v.toNat * 2 ^ 32 + (s.rd (mpReg 0x10C)).toNat) :
    s.wrAddendHi f v = if 4292819813 ≤ a ∧ a ≤ 4297114779 then (s.store f (mpReg 0x110) v 0).addChange (.addend a)
      else (((s.wr (mpReg 0x10C) (w32 s.lastAddend)).wb (mpReg 0x128) 2 true).raise 0x400 7).logNamed 0x400 evTimebase 6 7 255 := by
  unfold State.wrAddendHi
  rw [← ha]

/-! ### SET and STEP -/

theorem exec_set (hw : s.mayWrite f (mpReg 0x124) = true) : exec (.set f v) s = .next (s.wrTsCtl f v) := by
  change execSet f v s = _
  rw [execSet, State.guarded_of_mayWrite hw]

theorem exec_step (hw : s.mayWrite f (mpReg 0x124) = true) : exec (.step f v) s = .next (s.wrTsCtl f v) := by
  change execStep f v s = _
  rw [execStep, State.guarded_of_mayWrite hw]

/-- The time staged in TS_SET, in nanoseconds (R275). -/
def State.stagedNs (s : State) : Nat := (s.rf (mpReg 0x11C) 15 0 * 2 ^ 32 + (s.rd (mpReg 0x118)).toNat) * 1000000000 + s.rf (mpReg 0x114) 29 0

/-- SET of an unlocked clock takes the staged time (R275). -/
theorem State.wrTsCtl_set (hset : tbit v 0 = true) (hstep : tbit v 1 = false) (hforce : tbit v 2 = false) (hfree : s.rb (mpReg 0x128) 31 = true) :
    s.wrTsCtl f v = (s.wb (mpReg 0x128) 31 false).addChange (.clock (((s.stagedNs * 2 ^ 32 : Nat) : Int) - ((finePtp s.clock : Nat) : Int))) := by
  simp only [State.wrTsCtl, hset, hstep, hforce, hfree, State.stagedNs, Bool.false_and, Bool.and_false, Bool.not_true, Bool.or_self, Bool.true_or,
    Bool.false_eq_true, if_true, if_false]

/-- STEP shifts the clock within the limit and is refused beyond it (R275). -/
theorem State.wrTsCtl_step (hset : tbit v 0 = false) (hstep : tbit v 1 = true) (hforce : tbit v 2 = false) (hfree : s.rb (mpReg 0x128) 31 = false) :
    s.wrTsCtl f v = if (toS 32 (s.rd (mpReg 0x120)).toNat * 2 ^ 32).natAbs ≤ (s.rd (mpReg 0x12C)).toNat * 2 ^ 32 then
        (s.wb (mpReg 0x128) 31 false).addChange (.clock (toS 32 (s.rd (mpReg 0x120)).toNat * 2 ^ 32))
      else ((s.wb (mpReg 0x128) 1 true).raise 0x400 0).logNamed 0x400 evTimebase 6 0 255 := by
  simp only [State.wrTsCtl, hset, hstep, hforce, hfree, Bool.false_and, Bool.not_true, Bool.not_false, Bool.and_false, Bool.or_self, Bool.false_or,
    Bool.false_eq_true, if_false, decide_eq_true_iff]

/-! ### Announce and delay requests -/

/-- Another grandmaster on the slave port is noted (R276). -/
theorem exec_announce {port : Fin 4} {lo : Word} (hi : Word) (hslave : tbit (s.rd (mpReg 0x130)) 26 = true)
    (hport : fld (s.rd (mpReg 0x130)) 25 24 = port.val) (hnew : s.rd (mpReg 0x134) ≠ lo) :
    exec (.announce port lo hi) s
      = .next (((((s.wr (mpReg 0x134) lo).wr (mpReg 0x138) hi).wb (mpReg 0x128) 3 true).raise 0x400 1).logNamed 0x400 evTimebase 6 1 255) := by
  have hcond : ¬(!tbit (s.rd (mpReg 0x130)) 26 ∨ fld (s.rd (mpReg 0x130)) 25 24 ≠ port.val) := by simp [hslave, hport]
  change execAnnounce port lo hi s = _
  unfold execAnnounce
  exact (if_neg hcond).trans (if_neg fun h => hnew h.1)

theorem State.announced (h : s.regsWf) (lo hi : Word) :
    let t := ((((s.wr (mpReg 0x134) lo).wr (mpReg 0x138) hi).wb (mpReg 0x128) 3 true).raise 0x400 1).logNamed 0x400 evTimebase 6 1 255
    t.rd (mpReg 0x134) = lo ∧ t.rd (mpReg 0x138) = hi ∧ t.rb (mpReg 0x128) 3 = true ∧ OnlyRegsLog s t := by
  have hlo := State.wr_regsWf (a := mpReg 0x134) (v := lo) h
  have hhi := State.wr_regsWf (a := mpReg 0x138) (v := hi) hlo
  have hbit := State.wb_regsWf (a := mpReg 0x128) (i := 3) (b := true) hhi
  dsimp only
  refine ⟨?_, ?_, ?_, ((((OnlyRegsMsix.refl s).wr ..).wr ..).wb .. |>.raise ..).log.logNamed ..⟩
  · rw [State.rd_logNamed, State.rd_raise_ne hbit (mt mpReg_inj.1 (by decide)), State.rd_wb hhi, if_neg (mt mpReg_inj.1 (by decide)),
      State.rd_wr_ne hlo _ (mt mpReg_inj.1 (by decide)), State.rd_wr_same h]
  · rw [State.rd_logNamed, State.rd_raise_ne hbit (mt mpReg_inj.1 (by decide)), State.rd_wb hhi, if_neg (mt mpReg_inj.1 (by decide)),
      State.rd_wr_same hlo]
  · rw [State.rb_congr (State.logNamed_regs ..), State.rb_raise_ne hbit (mt mpReg_inj.1 (by decide)), State.rb_wb hhi _ (by decide)]

/-- In P2P mode a delay request is answered, and the link delay held (R280). -/
theorem exec_pdelayReq {port : Fin 4} (q : BitVec 16) (d : Word) (h1 : tbit (s.rd (mpReg 0x130)) 31 = true) (h2 : tbit (s.rd (mpReg 0x130)) 30 = true) :
    exec (.pdelayReq port q d) s = .next { s.wr (mpReg (0x14C + 0x20 * port.val)) d with
      mile := { s.mile with answers := s.mile.answers ++ [(port.val, q.toNat)] } } := by
  change execPdelayReq port q d s = _
  unfold execPdelayReq
  exact if_pos ⟨h1, h2⟩

/-- Settles O23: the addend, SET and STEP by the lock and the limit, the grandmaster, the delay request. -/
theorem ptpClock : Obligations.PtpClock := by
  unfold Obligations.PtpClock
  intro s f v hcan
  refine ⟨fun a ha hw => ?_, fun hw hfree => ?_, fun hw hfree => ?_, fun port lo hi hslave hport hnew => ?_, fun port q d => exec_pdelayReq q d⟩
  · rw [exec_addendWrite hw, State.wrAddendHi_eq ha]
    exact ⟨fun h => congrArg _ (if_pos h), fun h => congrArg _ (if_neg fun hr => absurd hr.2 (Nat.not_le.2 h))⟩
  · rw [exec_set hw, State.wrTsCtl_set (by decide) (by decide) (by decide) hfree, State.stagedNs]
  · rw [exec_step hw, State.wrTsCtl_step (by decide) (by decide) (by decide) hfree]
    exact ⟨fun h => congrArg _ (if_pos h), fun h => congrArg _ (if_neg (Nat.not_le.2 h))⟩
  · exact ⟨_, exec_announce hi hslave hport hnew, State.announced (State.canonical_regsWf hcan) lo hi⟩

end Sys2Proof.Machine
end

section
/-!
Waybill (R262 to R272) and the receivers of its event line (R263): from these the obligation WaybillEntries.
-/
namespace Sys2Proof.Machine

variable {s : State} {f : Func} {v : Word}

/-! ### Plain stores of whole fields -/

/-- Words that agree bit by bit over a field agree on the field. -/
theorem fld_eq_of_bits {w x : Word} {hi lo : Nat} (h : ∀ j, lo ≤ j → j ≤ hi → w.getLsbD j = x.getLsbD j) : fld w hi lo = fld x hi lo := by
  unfold fld nfld
  refine Nat.eq_of_testBit_eq fun i => ?_
  rw [← Nat.shiftRight_eq_div_pow, ← Nat.shiftRight_eq_div_pow, Nat.testBit_mod_two_pow, Nat.testBit_mod_two_pow, Nat.testBit_shiftRight,
    Nat.testBit_shiftRight]
  by_cases hi' : i < hi + 1 - lo
  · exact congrArg _ (h (lo + i) (by omega) (by omega))
  · simp [hi']

/-- A field whose bits are all plain takes its bits of the value stored (R13). -/
theorem State.rf_store (h : s.regsWf) (f : Func) {a hi lo : Nat} (v : Word) {r : RegRow} (hr : regRow a = some r)
    (hrw : ∀ j, lo ≤ j → j ≤ hi → j < 32 ∧ (w32 r.rw).getLsbD j = true) (hw1c : r.w1c = 0) :
    (s.store f a v 0).rf a hi lo = fld v hi lo := by
  have hrd : (s.store f a v 0).rd a = (s.rd a &&& ~~~s.writable f a r ||| v &&& s.writable f a r) &&& ~~~(v &&& w32 r.w1c) := by
    rw [State.store_eq_wr hr, State.rd_wr_same h]
  unfold State.rf
  rw [hrd, hw1c, and_not_noW1c]
  refine fld_eq_of_bits fun j hlo hhi => ?_
  obtain ⟨hj, hm⟩ := hrw j hlo hhi
  have hwrit : (s.writable f a r).getLsbD j = true := by
    unfold State.writable
    rw [BitVec.getLsbD_or, BitVec.getLsbD_or, hm, Bool.true_or, Bool.true_or]
  rw [BitVec.getLsbD_or, BitVec.getLsbD_and, BitVec.getLsbD_and, BitVec.getLsbD_not, hwrit]
  simp [hj]

/-! ### Selection and commit -/

theorem wbReg_inj {a b : Nat} : wbReg a = wbReg b ↔ a = b := rga_inj

theorem exec_wbSelWrite (hw : s.mayWrite f (wbReg 0x40) = true) : exec (.wbSelWrite f v) s = .next (s.wrWbSel f v) := by
  change execWbSelWrite f v s = _
  rw [execWbSelWrite, State.guarded_of_mayWrite hw]

/-- WB_SEL holds the entry selected. -/
theorem State.wbSel_store (h : s.regsWf) (f : Func) (v : Word) : (s.store f (wbReg 0x40) v 0).rf (wbReg 0x40) 9 0 = fld v 9 0 := by
  have hrow : ∃ r, regRow (wbReg 0x40) = some r ∧ r.rw = 1023 ∧ r.w1c = 0 := ⟨_, rfl, rfl, rfl⟩
  obtain ⟨r, hr, hrw, hw1c⟩ := hrow
  refine State.rf_store h f v hr (fun j _ hj => ?_) hw1c
  have hbits : ∀ j : Fin 10, (w32 1023).getLsbD j.val = true := by decide
  rw [hrw]
  exact ⟨by omega, hbits ⟨j, by omega⟩⟩

/-- The staging registers show an entry (R266). -/
def State.staging (s : State) (x : WbEntry) : State :=
  ((((s.wr (wbReg 0x44) x.phase).wr (wbReg 0x48) x.cfg).wr (wbReg 0x4C) x.arg).wr (wbReg 0x50) x.hyst).wr (wbReg 0x54) x.stride

theorem State.staging_fields (h : s.regsWf) (x : WbEntry) :
    (s.staging x).rd (wbReg 0x44) = x.phase ∧ (s.staging x).rd (wbReg 0x48) = x.cfg ∧ (s.staging x).rd (wbReg 0x4C) = x.arg ∧
      (s.staging x).rd (wbReg 0x50) = x.hyst ∧ (s.staging x).rd (wbReg 0x54) = x.stride ∧ (s.staging x).rd (wbReg 0x40) = s.rd (wbReg 0x40) := by
  have h1 := State.wr_regsWf (a := wbReg 0x44) (v := x.phase) h
  have h2 := State.wr_regsWf (a := wbReg 0x48) (v := x.cfg) h1
  have h3 := State.wr_regsWf (a := wbReg 0x4C) (v := x.arg) h2
  have h4 := State.wr_regsWf (a := wbReg 0x50) (v := x.hyst) h3
  simp [State.staging, State.rd_wr h4, State.rd_wr h3, State.rd_wr h2, State.rd_wr h1, State.rd_wr h, wbReg_inj]

theorem State.wrWbSel_eq (h : s.regsWf) : s.wrWbSel f v = (s.store f (wbReg 0x40) v 0).staging (s.wbEntry (fld v 9 0)) := by
  have hentry : (s.store f (wbReg 0x40) v 0).wbEntry (fld v 9 0) = s.wbEntry (fld v 9 0) := by
    rw [State.store_onlyRegs s f (wbReg 0x40) v 0]
    rfl
  unfold State.wrWbSel
  dsimp only
  rw [State.wbSel_store h, hentry]
  rfl

theorem exec_commit (hw : s.mayWrite f (wbReg 0x58) = true) : exec (.commit f 1) s = .next s.wbCommit := by
  have h0 : tbit (1 : Word) 0 = true := by decide
  change execCommit f 1 s = _
  rw [execCommit, State.guarded_of_mayWrite hw, State.wrWbCmd, if_pos h0]

/-- The entry that the staging registers spell over entry e. -/
def State.stagedEntry (s : State) (e : Nat) : WbEntry :=
  { s.wbEntry e with
    phase := s.rd (wbReg 0x44)
    cfg := s.rd (wbReg 0x48)
    arg := s.rd (wbReg 0x4C)
    hyst := s.rd (wbReg 0x50)
    stride := s.rd (wbReg 0x54) }

/-- A valid staging with another phase is installed and starts over (R266, R269). -/
theorem State.wbCommit_installed {e : Nat} {x : WbEntry} (he : e = s.rf (wbReg 0x40) 9 0) (hx : x = s.stagedEntry e) (hok : s.stagedOk x = true)
    (hphase : x.phase ≠ (s.wbEntry e).phase) : s.wbCommit = (s.setWbEntry e (x.start (s.pgMod x.gen) (s.pgPhase x.gen))).denyWaits e := by
  subst he hx
  have hnew : ((s.stagedEntry (s.rf (wbReg 0x40) 9 0)).phase == (s.wbEntry (s.rf (wbReg 0x40) 9 0)).phase) = false := beq_eq_false_iff_ne.2 hphase
  change (if !s.stagedOk (s.stagedEntry (s.rf (wbReg 0x40) 9 0)) then _ else
    State.denyWaits (s.setWbEntry _ (if ((s.stagedEntry (s.rf (wbReg 0x40) 9 0)).phase == (s.wbEntry (s.rf (wbReg 0x40) 9 0)).phase && _ && _ && _) = true
      then _ else _)) _) = _
  rw [hok, hnew]
  rfl

theorem State.wbCommit_refused {e : Nat} {x : WbEntry} (he : e = s.rf (wbReg 0x40) 9 0) (hx : x = s.stagedEntry e) (hok : s.stagedOk x = false) :
    s.wbCommit = (s.wb (wbReg 0x60) 0 true).pf (wbReg 0x60) 25 16 e := by
  subst he hx
  change (if !s.stagedOk (s.stagedEntry (s.rf (wbReg 0x40) 9 0)) then _ else _) = _
  rw [hok]
  rfl

/-! ### Waits on FIRES -/

section
variable {q : Fin 32} {e tg tm : Nat} {c : Cmd} {st : Bool}

/-- A wait with a timeout is met where FIRES shows its firing and denied where it does not (R272). -/
theorem exec_wbWaitTimeout_now (hw : (s.queue q.val).wait = some ⟨.fires e tg, c, st, tm⟩) (htm : tm ≠ 0) :
    exec (.wbWaitTimeout q false) s = if 0 ≤ toS 32 ((s.wbEntry e).fires + 2 ^ 32 - tg % 2 ^ 32) then .next (s.firesMet e)
      else .next ((s.writeRecord c 0x0901 0 7).jobFault (tnPage c.owner) 0x0901 (inkInfo c) c.owner) := by
  change execWbWaitTimeout q false s = _
  simp only [execWbWaitTimeout, hw, htm, Bool.false_eq_true, or_self, if_false]

/-- A firing of the same strobe wins (R272). -/
theorem exec_wbWaitTimeout_firing (hw : (s.queue q.val).wait = some ⟨.fires e tg, c, st, tm⟩) : exec (.wbWaitTimeout q true) s = .next s := by
  change execWbWaitTimeout q true s = _
  simp only [execWbWaitTimeout, hw, or_true, if_true]

end

/-- WAYBILL_WAIT on an entry of the queue's tenant, for a count it names (R271). -/
theorem exec_waybillWait {q : Fin 32} {c : Cmd} {x : WbEntry} (hhead : s.headReady q.val = some c) (hop : c.op = 9) (hbase : s.baseCheck c = none)
    (hx : x = s.wbEntry (c.f 5 9 0)) (hvalid : x.valid = true) (howner : x.owner = c.owner) (hnext : tbit (c.w 5) 31 = false) :
    exec (.waybillWait q) s = if 0 ≤ toS 32 (x.fires + 2 ^ 32 - (c.w 6).toNat) then .next (s.endWait q.val c).advance
      else .next (s.register q.val ⟨.fires (c.f 5 9 0) (c.w 6).toNat, c, false, c.f 7 15 0⟩) := by
  subst hx
  change execWaybillWait q s = _
  unfold execWaybillWait
  rw [hhead]
  dsimp only
  rw [hbase]
  simp only [hop, hvalid, howner, hnext, ne_eq, not_true_eq_false, if_false, Bool.not_true, bne_self_eq_false, Bool.or_self, Bool.false_eq_true]

/-! ### Issue of due actions -/

/-- One due action that passes the test is issued alone. -/
theorem State.issueDue_one {d : Due} {t : Due → Bool} (hdue : s.mile.due = [d]) (ht : t d = true) :
    s.issueDue t = (({ s with mile := { s.mile with due := [] } } : State).issue d.entry).launchDue [d] := by
  unfold State.issueDue
  rw [hdue]
  simp only [List.filter_cons, ht, if_true, List.filter_nil, Bool.not_true, Bool.false_eq_true, if_false, List.foldl_cons, List.foldl_nil]

/-- One due action that fails the test stays due. -/
theorem State.issueDue_none {d : Due} {t : Due → Bool} (hdue : s.mile.due = [d]) (ht : t d = false) : s.issueDue t = s.launchDue [] := by
  unfold State.issueDue
  rw [hdue]
  simp only [List.filter_cons, ht, Bool.false_eq_true, if_false, List.filter_nil, Bool.not_false, if_true, List.foldl_nil]
  rw [← hdue]

theorem State.launchDue_nil : s.launchDue [] = s := by
  have hnone : (List.range 4).filter (fun _ => false) = [] := by decide
  simp only [State.launchDue, List.any_nil, hnone, List.foldl_nil]

theorem exec_waybillCrossing {g : Fin 4} : exec (.waybillCrossing g) s = .next (s.issueDue (fun d => d.gen == g.val && !d.carried)) := rfl

theorem exec_wbLate : exec .wbLate s = .next (s.issueDue (fun d => d.carried && decide (d.tick ≤ s.clock.tick))) := rfl

/-! ### The event line -/

/-- The receiver of an action takes its oldest event (R263). -/
theorem State.onEvent_taken {action : Nat} {x : LineEvent} {r : List LineEvent} (h : takeEvent action s.evQ = some (x, r)) (k : State → LineEvent → State) :
    s.onEvent action k = k { s with evQ := r } x := by
  simp only [State.onEvent, h]

section
variable {x : LineEvent} {r : List LineEvent}

theorem exec_queueStart (h : takeEvent 4 s.evQ = some (x, r)) : exec .queueStart s = .next (({ s with evQ := r } : State).firesMet x.entry) :=
  congrArg Host.Outcome.next (State.onEvent_taken h _)

/-- TALLY_ARRIVE counts as an arrival where its barrier takes Waybill arrivals, and as dropped elsewhere (R209, R263). -/
theorem exec_tallyArrive {a : Arrival} (h : takeEvent 5 s.evQ = some (x, r))
    (ha : a = (⟨.central (Fin.ofNat 256 (fld x.arg 31 24)), fld x.arg 11 0, none, none, 0x3FF, 0x401⟩ : Arrival)) :
    exec .tallyArrive s = .next (if ({ s with evQ := r } : State).wbArrivalOk a then (({ s with evQ := r } : State).arrive a).advance
      else ({ s with evQ := r } : State).addSat (rga 0x20 0x48) 1) := by
  subst ha
  exact congrArg Host.Outcome.next (State.onEvent_taken h _)

theorem exec_wardenDeadline (fresh : Bool) (h : takeEvent 7 s.evQ = some (x, r)) :
    exec (.wardenDeadline fresh) s = .next (({ s with evQ := r } : State).slotCheck (fld x.arg 5 0) fresh) :=
  congrArg Host.Outcome.next (State.onEvent_taken h _)

theorem exec_engineWindow (h : takeEvent 8 s.evQ = some (x, r)) :
    exec .engineWindow s = .next (((List.range 6).filter (fun e => tbit x.arg (8 + e))).foldl
      (fun (u : State) e => u.pf (rga 0x10 (0x40 + 4 * e)) 3 0 (fld x.arg 3 0 ||| 1)) { s with evQ := r }).kick :=
  congrArg (fun t : State => Host.Outcome.next t.kick) (State.onEvent_taken h _)

theorem exec_manifestClose (h : takeEvent 9 s.evQ = some (x, r)) :
    exec .manifestClose s = .next (({ s with evQ := r } : State).manTrigger (fld x.arg 2 0) 0) :=
  congrArg Host.Outcome.next (State.onEvent_taken h _)

end

/-! ### The obligation -/

/-- Settles O24: selection and commit, the waits on FIRES, the issue of due actions, the receivers of the event line (log 33). -/
theorem waybillEntries : Obligations.WaybillEntries := by
  unfold Obligations.WaybillEntries
  refine ⟨fun s f v hcan => ⟨fun hw => ?_, fun e x hw he hx => ⟨fun hok hphase => ?_, fun hok => ?_⟩, fun q e tg c st tm hw htm => ?_,
    fun q c x hhead hop hbase hx hvalid howner hnext => ?_⟩, fun s x r => ⟨fun g e n d hd hdue => ?_, fun g e n d hd hdue => ⟨fun hn => ?_, fun hn => ?_⟩,
      fun c => rfl, exec_queueStart, fun a h ha => ?_, fun fresh => exec_wardenDeadline fresh, exec_engineWindow, exec_manifestClose⟩⟩
  · have hwf := State.canonical_regsWf hcan
    obtain ⟨hphase, hcfg, harg, hhyst, hstride, hsel⟩ := State.staging_fields (State.store_regsWf hwf f (wbReg 0x40) v 0) (s.wbEntry (fld v 9 0))
    refine ⟨_, (exec_wbSelWrite hw).trans (congrArg _ (State.wrWbSel_eq hwf)), ?_, hphase, hcfg, harg, hhyst, hstride, ?_⟩
    · unfold State.rf
      rw [hsel]
      exact State.wbSel_store hwf f v
    · exact (((((State.store_onlyRegs ..).wr ..).wr ..).wr ..).wr ..).wr ..
  · rw [exec_commit hw, State.wbCommit_installed he hx hok hphase]
  · rw [exec_commit hw, State.wbCommit_refused he hx hok]
  · rw [exec_wbWaitTimeout_now hw htm]
    exact ⟨fun h => if_neg (Int.not_le.2 h), fun h => if_pos h, exec_wbWaitTimeout_firing hw⟩
  · rw [exec_waybillWait hhead hop hbase hx hvalid howner hnext]
    exact ⟨fun h => if_pos h, fun h => if_neg (Int.not_le.2 h)⟩
  · subst hd
    exact congrArg Host.Outcome.next (State.issueDue_one hdue (by simp))
  · subst hd
    exact congrArg Host.Outcome.next (State.issueDue_one hdue (by simp [hn]))
  · subst hd
    exact congrArg Host.Outcome.next ((State.issueDue_none hdue (by simp [hn])).trans State.launchDue_nil)
  · rw [exec_tallyArrive h ha]
    exact ⟨fun h => congrArg _ (if_pos h), fun h => congrArg _ (if_neg (Bool.eq_false_iff.1 h))⟩

end Sys2Proof.Machine
end

section
/-!
Drover's control periods, its trajectory mailbox and the current decisions (R288 to R306, R317): from these the obligation ControlPeriods.
-/
namespace Sys2Proof.Machine

variable {s : State} {d : Fin 4} {a : Fin 48}

/-! ### Tables without a canonical form -/

/-- A value that is stored as a pair is read back, whatever the table; every other key reads as before. -/
theorem mapGet_mapSet_stored {α : Type} [DecidableEq α] {dv : Nat → α} {m : List (Nat × α)} {k : Nat} {v : α} (hv : v ≠ dv k) (b : Nat) :
    mapGet dv (mapSet dv m k v) b = if b = k then v else mapGet dv m b := by
  induction m with
  | nil => simp [mapSet, mapGet, hv]
  | cons p m ih =>
    obtain ⟨k', v'⟩ := p
    unfold mapSet
    simp only [hv, if_false]
    split
    · rfl
    · split
      · next hk =>
        subst hk
        simp only [mapGet]
        split <;> rfl
      · next hne =>
        simp only [mapGet, ih]
        by_cases hb : b = k'
        · subst hb
          rw [if_pos rfl, if_pos rfl, if_neg (Ne.symm hne)]
        · rw [if_neg hb, if_neg hb]

/-- Storing a value that is no default leaves pairs. -/
theorem mapSet_ne_nil {α : Type} [DecidableEq α] {dv : Nat → α} {m : List (Nat × α)} {k : Nat} {v : α} (hv : v ≠ dv k) : mapSet dv m k v ≠ [] := by
  have hget := mapGet_mapSet_stored (m := m) hv k
  rw [if_pos rfl] at hget
  intro hnil
  rw [hnil] at hget
  exact hv hget.symm

/-! ### Control periods -/

theorem State.firstUse_direct {n : Nat} {i : AxIn} (h : i.ssi = false) : s.firstUse n i = s := by
  unfold State.firstUse
  simp only [h, Bool.and_false, Bool.false_eq_true, if_false]

/-- An axis without an SSI encoder computes from its latched inputs (R290, R300). -/
theorem exec_axisCompute_direct {i : AxIn} (hi : (s.axis a.val).inp = some i) (hssi : i.ssi = false) :
    exec (.axisCompute a false) s = .next (s.computeAxis a.val i) ∧ exec (.axisCompute a true) s = .next (s.lockstep a.val) := by
  constructor
  · change execAxisCompute a false s = _
    simp only [execAxisCompute, hi, hssi, Bool.false_eq_true, false_and, if_false, State.firstUse_direct hssi]
  · change execAxisCompute a true s = _
    simp only [execAxisCompute, hi, hssi, Bool.false_eq_true, false_and, if_false, if_true]

/-- An axis on an SSI encoder waits for its transfer (R290). -/
theorem exec_axisCompute_waits {i : AxIn} (hi : (s.axis a.val).inp = some i) (hssi : i.ssi = true) (ht : (s.enc a.val).ssi.isSome = true) :
    exec (.axisCompute a false) s = .next s := by
  change execAxisCompute a false s = _
  simp only [execAxisCompute, hi, hssi, ht, and_self, if_true]

theorem exec_axisCompute_ssi {i j : AxIn} (hi : (s.axis a.val).inp = some i) (hssi : i.ssi = true) (ht : (s.enc a.val).ssi = none)
    (hj : j = { i with
      pos := s.encPos a.val
      vel := s.encVel a.val
      flags := s.rd (aEncStat a.val) }) :
    exec (.axisCompute a false) s = .next ((s.firstUse a.val j).computeAxis a.val j) := by
  subst hj
  change execAxisCompute a false s = _
  simp only [execAxisCompute, hi, hssi, ht, Option.isSome_none, Bool.false_eq_true, and_false, if_false, if_true]

/-! ### The trajectory mailbox -/

/-- The address of the buffer that a fetch of datapath d reads (R295). -/
def State.mbAddr (s : State) (d : Nat) : Nat :=
  2 ^ 13 * s.rf (dvReg d 0x84) 31 13 + 2 ^ 32 * s.rf (dvReg d 0x88) 7 0 + 8192 * (((s.rd (dvReg d 0x8C)).toNat + 1) % 2)

/-- A fetched buffer in the owner's regions: the good one becomes the active copy, the bad one is rejected (R295). -/
theorem exec_mbCommit {u : State} (hf : (s.dp d.val).fetches ≠ 0) (hu : u = s.setDp d.val { s.dp d.val with fetches := (s.dp d.val).fetches - 1 })
    (hreg : s.regCheck (s.rf (dvReg d.val 0x80) 27 24) false (s.mbAddr d.val) 6208 = .ok) :
    (∀ l, mailboxParse (s.hbmRead (s.mbAddr d.val) 6208) d.val (s.rd (dvReg d.val 0x8C)).toNat = .inr l →
      exec (.mbCommit d) s = .next (((u.setDp d.val { u.dp d.val with
        traj := l.foldl (fun m p => mapSet (fun _ => none) m p.1 (some p.2)) (u.dp d.val).traj }).wr (dvReg d.val 0x8C)
          (w32 ((s.rd (dvReg d.val 0x8C)).toNat + 1))).wardenFresh 0 d.val)) ∧
      ∀ b, mailboxParse (s.hbmRead (s.mbAddr d.val) 6208) d.val (s.rd (dvReg d.val 0x8C)).toNat = .inl b →
        exec (.mbCommit d) s = .next (u.mbReject d.val b) := by
  have hregs : u.regs = s.regs := by rw [hu]; rfl
  have hhbm : u.hbm = s.hbm := by rw [hu]; rfl
  have hcheck : u.regCheck (s.rf (dvReg d.val 0x80) 27 24) false (s.mbAddr d.val) 6208 = .ok :=
    (State.regCheck_congr (fun b _ => State.rd_congr hregs b) _ _ _ _).trans hreg
  have hread := State.hbmRead_congr hhbm (s.mbAddr d.val) 6208
  have haddr : u.mbAddr d.val = s.mbAddr d.val := by
    simp only [State.mbAddr, State.rf_congr hregs, State.rd_congr hregs]
  change (∀ l, _ → execMbCommit d s = _) ∧ ∀ b, _ → execMbCommit d s = _
  unfold execMbCommit
  dsimp only
  rw [if_neg hf, ← hu, ← State.mbAddr, haddr, State.rf_congr hregs, State.rd_congr hregs, hcheck]
  dsimp only
  rw [hread]
  exact ⟨fun l hl => by rw [hl], fun b hb => by rw [hb]⟩

/-! ### Samples of the phases -/

/-- A phase that has taken a sample is no default: the filter has bits. -/
theorem sincSample_ne_default {p q : Phase} {n : Nat} {ok : Bool} (h : sincSample p = some (q, n, ok)) (amps : Word) (valid : Bool) :
    ({ q with amps := amps, valid := valid } : Phase) ≠ default := by
  have hbits : q.bits = p.bits ∧ 16 ≤ p.bits.length := by
    unfold sincSample at h
    split at h
    · cases h
    · next hlen =>
      split at h
      · simp only [Option.some.injEq, Prod.mk.injEq] at h
        obtain ⟨rfl, -, -⟩ := h
        exact ⟨rfl, by omega⟩
      · simp only [Option.some.injEq, Prod.mk.injEq] at h
        obtain ⟨rfl, -, -⟩ := h
        exact ⟨rfl, by omega⟩
  obtain ⟨hq, hlen⟩ := hbits
  intro e
  have hnil : q.bits = [] := congrArg Phase.bits e
  rw [← hq, hnil] at hlen
  simp at hlen

/-- A sample of a phase changes the phases of its axis alone (R303). -/
theorem State.takeSample_frame (s : State) (n k : Nat) :
    (s.takeSample n k).regs = s.regs ∧ ((s.takeSample n k).axis n).ended = (s.axis n).ended := by
  unfold State.takeSample
  dsimp only
  split
  · exact ⟨rfl, rfl⟩
  · next p m ok hp =>
    refine ⟨rfl, ?_⟩
    have hset : ∀ x : Axis, x ≠ default → (s.setAxis n x).axis n = x := fun x hx => (mapGet_mapSet_stored hx n).trans (if_pos rfl)
    rw [hset]
    · rfl
    · intro e
      exact mapSet_ne_nil (sincSample_ne_default hp _ ok) (congrArg Axis.phases e)

theorem State.takeSamples_frame (n : Nat) (ks : List Nat) (s : State) :
    (ks.foldl (fun s k => s.takeSample n k) s).regs = s.regs ∧ ((ks.foldl (fun s k => s.takeSample n k) s).axis n).ended = (s.axis n).ended := by
  induction ks generalizing s with
  | nil => exact ⟨rfl, rfl⟩
  | cons k ks ih =>
    obtain ⟨hregs, hended⟩ := s.takeSample_frame n k
    obtain ⟨hregs', hended'⟩ := ih (s.takeSample n k)
    exact ⟨hregs'.trans hregs, hended'.trans hended⟩

/-- Phases without bits take no sample. -/
theorem State.takeSamples_none (n : Nat) {ks : List Nat} (h : ∀ k ∈ ks, ((s.axis n).phase k).bits = []) :
    ks.foldl (fun s k => s.takeSample n k) s = s := by
  induction ks with
  | nil => rfl
  | cons k ks ih =>
    have hstep : s.takeSample n k = s := by
      have hnone : sincSample ((s.axis n).phase k) = none := by
        unfold sincSample
        rw [h k List.mem_cons_self]
        rfl
      unfold State.takeSample
      dsimp only
      rw [hnone]
    rw [List.foldl_cons, hstep]
    exact ih fun j hj => h j (List.mem_cons_of_mem _ hj)

/-! ### Current decisions -/

/-- Whether some valid phase of an axis is over the limit (R317). -/
def State.overCurrent (s : State) (n : Nat) (lim : Word) (ks : List Nat) : Bool :=
  ks.any (fun k => let p := (s.axis n).phase k; p.valid && flt lim (fabs p.amps))

theorem State.overCurrent_eq_false {u : State} {n : Nat} {lim : Word} {ks : List Nat}
    (h : ∀ k ∈ ks, ((u.axis n).phase k).valid = true → flt lim (fabs ((u.axis n).phase k).amps) = false) : u.overCurrent n lim ks = false := by
  unfold State.overCurrent
  rw [List.any_eq_false]
  intro k hk
  have hk' := h k hk
  dsimp only
  cases hv : ((u.axis n).phase k).valid with
  | false => simp
  | true => simp [hk' hv]

/-- The decision of every phase of an axis in loop, by the samples taken (R303 to R305). -/
theorem exec_currentDecision {u : State} {ks : List Nat} (hloop : s.inLoop a.val = true) (hks : ks = activePhases (s.lawW a.val 0))
    (hu : u = ks.foldl (fun s k => s.takeSample a.val k) s) :
    exec (.currentDecision a) s = if u.overCurrent a.val (s.lawW a.val 24) ks then .next (u.currentTrip a.val 11 0x0A05)
      else if s.alMode (a.val / 4) ∨ (s.axis a.val).ended then .next u
      else .next (ks.foldl (fun t k =>
         t.setAxis a.val { (t.axis a.val).setPhase k (decide1 ((t.axis a.val).phase k) (phaseRef (s.lawW a.val) (s.rd (axReg a.val 0x48)) (s.encPos a.val) k)
             (s.rd (axReg a.val 0x58)) (s.lawW a.val 23)).1 with
           changes := (t.axis a.val).changes + b2n (decide1 ((t.axis a.val).phase k) (phaseRef (s.lawW a.val) (s.rd (axReg a.val 0x48)) (s.encPos a.val) k)
             (s.rd (axReg a.val 0x58)) (s.lawW a.val 23)).2 }) u) := by
  obtain ⟨hregs, hended⟩ := State.takeSamples_frame a.val ks s
  rw [← hu] at hregs hended
  have hpos : u.encPos a.val = s.encPos a.val := by
    unfold State.encPos
    rw [State.rd_congr hregs, State.rd_congr hregs]
  have hmode : u.alMode (a.val / 4) = s.alMode (a.val / 4) := State.rb_congr hregs ..
  change execCurrentDecision a s = _
  unfold execCurrentDecision
  dsimp only
  rw [hloop, if_neg (by decide), ← hks, ← hu, ← State.overCurrent, hmode, hended, hpos, State.rd_congr hregs, State.rd_congr hregs]

/-- Phases over the limit trip the axis (R317). -/
theorem exec_currentDecision_trip {k : Fin 3} (hloop : s.inLoop a.val = true) (hk : k.val ∈ activePhases (s.lawW a.val 0))
    (hbits : ∀ j : Fin 3, ((s.axis a.val).phase j.val).bits = []) (hvalid : ((s.axis a.val).phase k.val).valid = true)
    (hover : flt (s.lawW a.val 24) (fabs ((s.axis a.val).phase k.val).amps) = true) :
    exec (.currentDecision a) s = .next (s.currentTrip a.val 11 0x0A05) := by
  have hlt : ∀ j ∈ activePhases (s.lawW a.val 0), j < 3 := by
    intro j hj
    unfold activePhases at hj
    split at hj <;> simp at hj <;> omega
  have hsame : (activePhases (s.lawW a.val 0)).foldl (fun s k => s.takeSample a.val k) s = s :=
    State.takeSamples_none a.val fun j hj => hbits ⟨j, hlt j hj⟩
  rw [exec_currentDecision hloop rfl hsame.symm]
  refine if_pos (List.any_eq_true.2 ⟨k.val, hk, ?_⟩)
  simp [hvalid, hover]

theorem exec_currentLost (hloop : s.inLoop a.val = true) : exec (.currentLost a) s = .next (s.currentTrip a.val 12 0x0A06) := by
  change execCurrentLost a s = _
  rw [execCurrentLost, if_pos hloop]

/-- The new band stays within its bounds, and the window starts over (R306). -/
theorem exec_bandAdapt (h : s.regsWf) (hloop : s.inLoop a.val = true) (hon : tbit (s.lawW a.val 0) 24 = true) :
    ∃ t, exec (.bandAdapt a) s = .next t ∧ t.drv = (s.setAxis a.val { s.axis a.val with changes := 0 }).drv ∧
      t.rd (axReg a.val 0x58) = fclamp (fmul (s.rd (axReg a.val 0x58)) (fclamp (fdiv (t.rd (axReg a.val 0x5C)) (s.lawW a.val 22)) f32Half f32Two))
        (s.lawW a.val 20) (s.lawW a.val 21) := by
  have hset : ∀ (x : Axis) (v w : Word),
      (((s.setAxis a.val x).wr (axReg a.val 0x5C) v).wr (axReg a.val 0x58) w).rd (axReg a.val 0x58) = w ∧
        (((s.setAxis a.val x).wr (axReg a.val 0x5C) v).wr (axReg a.val 0x58) w).rd (axReg a.val 0x5C) = v := by
    intro x v w
    have haxis : (s.setAxis a.val x).regsWf := h
    have hfreq := State.wr_regsWf (a := axReg a.val 0x5C) (v := v) haxis
    have hne : axReg a.val 0x5C ≠ axReg a.val 0x58 := rga_ne_of_off (by decide) (by decide) (by decide)
    exact ⟨State.rd_wr_same hfreq .., (State.rd_wr_ne hfreq _ hne).trans (State.rd_wr_same haxis ..)⟩
  have hcond : ¬(!tbit (s.lawW a.val 0) 24 ∨ !s.inLoop a.val) := by simp [hon, hloop]
  refine ⟨_, if_neg hcond, rfl, ?_⟩
  rw [(hset _ _ _).1, (hset _ _ _).2]

/-! ### The obligation -/

/-- Settles O26: periods with and without SSI, the mailbox, the decisions by the samples, the band (log 34). -/
theorem controlPeriods : Obligations.ControlPeriods := by
  unfold Obligations.ControlPeriods
  refine ⟨fun s d => ⟨fun a i => exec_axisCompute_direct, fun a i hi hssi => ⟨exec_axisCompute_waits hi hssi, fun j => exec_axisCompute_ssi hi hssi⟩,
    fun _ => rfl, rfl, fun u a l hf hu ha hreg => ?_⟩, fun s a hcan hloop => ⟨exec_currentLost hloop, fun u ks hks hu hended hlim => ?_,
      fun k => exec_currentDecision_trip hloop, exec_bandAdapt (State.canonical_regsWf hcan) hloop⟩⟩
  · rw [← State.mbAddr] at ha
    subst ha
    obtain ⟨hgood, hbad⟩ := exec_mbCommit hf hu hreg
    exact ⟨hgood l, hbad⟩
  · rw [exec_currentDecision hloop hks hu, State.overCurrent_eq_false hlim, if_neg Bool.false_ne_true]
    exact ⟨fun hmode => if_pos (.inl hmode), fun hmode => if_neg (by simp [hmode, hended])⟩

end Sys2Proof.Machine
end

section
/-!
Axis-link frames (R312 to R316): from these the obligation AxisLinkFrames.
-/
namespace Sys2Proof.Machine

variable {s : State} {al : Fin 12}

/-- Steps that change axes alone do so however often they are taken. -/
theorem foldl_axes {α : Type} {g : State → α → State} (hg : ∀ s x, ∃ m, g s x = { s with drv := { s.drv with axes := m } }) (l : List α) (s : State) :
    ∃ m, l.foldl g s = { s with drv := { s.drv with axes := m } } := by
  induction l generalizing s with
  | nil => exact ⟨s.drv.axes, rfl⟩
  | cons x l ih =>
    obtain ⟨m, hm⟩ := hg s x
    obtain ⟨m', hm'⟩ := ih (g s x)
    exact ⟨m', by rw [List.foldl_cons, hm', hm]⟩

theorem State.feedBits_frame (g sd : Nat) (ok : Bool) : ∃ m, s.feedBits g sd ok = { s with drv := { s.drv with axes := m } } :=
  foldl_axes (fun _ _ => ⟨_, rfl⟩) _ _

/-! ### Upstream -/

/-- A receiver that is not streaming neither hunts nor completes a superframe before it rises (R313). -/
theorem upFrame_waiting (x : ALink) (n : Nat) : (upFrame x false n).hunt = false ∧ ((upFrame x false n).rise = false → (upFrame x false n).whole = false) := by
  refine ⟨rfl, fun h => ?_⟩
  change ((_ && _ && (false || (upFrame x false n).rise)) && _) = false
  rw [h]
  simp

/-- A streaming receiver does not rise, and a good frame ends its run of bad ones (R313, R317). -/
theorem upFrame_streaming (x : ALink) (n : Nat) : (upFrame x true n).rise = false ∧ ((upFrame x true n).ok = true → (upFrame x true n).next.bad = 0) := by
  refine ⟨rfl, fun h => ?_⟩
  change (if (upFrame x true n).ok then 0 else x.bad + 1) = 0
  rw [h]
  rfl

theorem exec_upstreamFrame_waiting {frame : BitVec 40} {r : UpFrame} (hon : s.rb (alReg al.val 0x40) 0 = true) (hl : s.alLink al.val = 1)
    (hr : r = upFrame (s.alink al.val) false frame.toNat) (hok : r.ok = true) (hrise : r.rise = false) :
    exec (.upstreamFrame al frame) s = .next (s.setAlink al.val r.next) := by
  obtain ⟨hhunt, hwhole⟩ := upFrame_waiting (s.alink al.val) frame.toNat
  rw [← hr] at hhunt hwhole
  have hup : (s.alLink al.val == 2) = false := by rw [hl]; rfl
  change execUpstreamFrame al frame s = _
  unfold execUpstreamFrame
  dsimp only
  rw [hon, hup, ← hr]
  simp only [hok, hhunt, hrise, hwhole hrise, Bool.not_true, Bool.false_and, Bool.or_self, Bool.false_eq_true, if_false, if_true]

theorem exec_upstreamFrame_streaming {frame : BitVec 40} {r : UpFrame} (hon : s.rb (alReg al.val 0x40) 0 = true) (hl : s.alLink al.val = 2)
    (hlim : s.rf (alReg al.val 0x40) 27 24 ≠ 0) (hr : r = upFrame (s.alink al.val) true frame.toNat) (hok : r.ok = true) (hhunt : r.hunt = false)
    (hwhole : r.whole = false) :
    exec (.upstreamFrame al frame) s = .next ((s.setAlink al.val r.next).feedBits al.val (r.body / 2 ^ 14) true) := by
  obtain ⟨hrise, hbad⟩ := upFrame_streaming (s.alink al.val) frame.toNat
  rw [← hr] at hrise hbad
  have hup : (s.alLink al.val == 2) = true := by rw [hl]; rfl
  have hfed : ∀ sd, (((s.setAlink al.val r.next).feedBits al.val sd true).rf (alReg al.val 0x40) 27 24) = s.rf (alReg al.val 0x40) 27 24 := by
    intro sd
    obtain ⟨m, hm⟩ := State.feedBits_frame (s := s.setAlink al.val r.next) al.val sd true
    rw [hm]
    rfl
  have hmore : (0 == s.rf (alReg al.val 0x40) 27 24) = false := beq_eq_false_iff_ne.2 (Ne.symm hlim)
  change execUpstreamFrame al frame s = _
  unfold execUpstreamFrame
  dsimp only
  rw [hon, hup, ← hr]
  simp only [hok, hhunt, hrise, hwhole, hbad hok, hfed, hmore, Bool.not_true, Bool.not_false, Bool.and_self, Bool.and_false, Bool.or_self,
    Bool.false_eq_true, if_false, if_true]

/-! ### Downstream -/

/-- The frame marks the start of a superframe in its last two bits (R314). -/
theorem frame_mark (body : Nat) {m : Nat} (hm : m < 4) : (BitVec.ofNat 40 (body * 4 + m)).toNat % 4 = m := by
  rw [BitVec.toNat_ofNat, Nat.mod_mod_of_dvd _ (by decide : 4 ∣ 2 ^ 40)]
  omega

/-- What a frame sent over a link leaves, in a state that differs from s in axes and free values. -/
theorem State.sentFrame {u : State} {x : ALink} {k m : Nat} (hu : u.regs = s.regs ∧ u.pins = s.pins ∧ u.drv.links = s.drv.links)
    (hwf : mapWf dflt s.drv.links = true) (hseq : x.txSeq = k) (hsent : x.sent.toNat % 4 = m) :
    ∃ t, (Host.Outcome.next (u.setAlink al.val x) : Host.Outcome State Fault Refusal) = .next t ∧ (t.alink al.val).txSeq = k ∧ t.regs = s.regs ∧
      t.pins = s.pins ∧ (t.alink al.val).sent.toNat % 4 = m := by
  obtain ⟨hregs, hpins, hlinks⟩ := hu
  have hget : (u.setAlink al.val x).alink al.val = x := (mapGet_mapSet (by rw [hlinks]; exact hwf)).trans (if_pos rfl)
  exact ⟨_, rfl, by rw [hget, hseq], hregs, hpins, by rw [hget, hsent]⟩

/-- The bridges of an Axis-link group take their states where the link drives them (R314, R322). -/
theorem State.phasesOut_frame (s : State) (ref : Bool) (g : Nat) :
    let u := if ref then s else (groupAxes g).foldl (fun s a =>
      let y := s.axis a
      s.setAxis a { y with phases := y.phases.map (fun p => (p.1, phaseOut p.2)) }) s
    u.regs = s.regs ∧ u.pins = s.pins ∧ u.drv.links = s.drv.links := by
  dsimp only
  split
  · exact ⟨rfl, rfl, rfl⟩
  · obtain ⟨m, hm⟩ := foldl_axes (g := fun (s : State) a =>
      s.setAxis a { s.axis a with phases := (s.axis a).phases.map (fun p => (p.1, phaseOut p.2)) }) (fun _ _ => ⟨_, rfl⟩) (groupAxes g) s
    rw [hm]
    exact ⟨rfl, rfl, rfl⟩

theorem exec_downstreamFrame (hon : s.rb (alReg al.val 0x40) 0 = true) (hwf : mapWf dflt s.drv.links = true) :
    ∃ t, exec (.downstreamFrame al) s = .next t ∧ (t.alink al.val).txSeq = ((s.alink al.val).txSeq + 1) % 10 ∧ t.regs = s.regs ∧ t.pins = s.pins ∧
      (t.alink al.val).sent.toNat % 4 = if (s.alink al.val).txSeq = 0 then 2 else 1 := by
  have hoff : ¬(!s.rb (alReg al.val 0x40) 0) = true := by
    rw [hon]
    decide
  have hexec : exec (.downstreamFrame al) s = execDownstreamFrame al s := rfl
  rw [hexec]
  unfold execDownstreamFrame
  rw [if_neg hoff]
  refine State.sentFrame (State.phasesOut_frame s.take.2 _ al.val) hwf rfl (frame_mark _ ?_)
  split <;> decide

/-- Settles O27: the receiver before and in the streaming state, and the frame sent (log 36). -/
theorem axisLinkFrames : Obligations.AxisLinkFrames := by
  unfold Obligations.AxisLinkFrames
  exact fun s al hon => ⟨fun frame r _ => exec_upstreamFrame_waiting hon, fun frame r => exec_upstreamFrame_streaming hon, exec_downstreamFrame hon⟩

end Sys2Proof.Machine
end

section
/-!
Encoders (R307 to R311, R317): from these the obligation Encoders.
-/
namespace Sys2Proof.Machine

variable {s : State} {n : Fin 48} {a b : Bool}

/-! ### Edges and the index -/

theorem exec_encoderEdge_a (hm : s.encMode n.val = 1) (ha : (s.enc n.val).a ≠ a) (hb : (s.enc n.val).b = b) :
    exec (.encoderEdge n a b) s = .next ((s.setEnc n.val { s.enc n.val with a := a }).countEdge n.val (a == b)) := by
  subst hb
  change execEncoderEdge n a (s.enc n.val).b s = _
  simp only [execEncoderEdge, hm, ha, ne_eq, not_true, not_false_eq_true, and_false, false_and, if_false, if_true]

theorem exec_encoderEdge_b (hm : s.encMode n.val = 1) (ha : (s.enc n.val).a = a) (hb : (s.enc n.val).b ≠ b) :
    exec (.encoderEdge n a b) s = .next ((s.setEnc n.val { s.enc n.val with b := b }).countEdge n.val (a != b)) := by
  subst ha
  change execEncoderEdge n (s.enc n.val).a b s = _
  simp only [execEncoderEdge, hm, hb, ne_eq, not_true, and_false, false_and, if_false]

theorem exec_encoderEdge_illegal (hm : s.encMode n.val = 1) (ha : (s.enc n.val).a ≠ a) (hb : (s.enc n.val).b ≠ b) :
    exec (.encoderEdge n a b) s = .next ((s.setEnc n.val { s.enc n.val with a := a, b := b }).illegalEdge n.val) := by
  change execEncoderEdge n a b s = _
  simp only [execEncoderEdge, hm, ha, hb, ne_eq, not_true, not_false_eq_true, and_self, if_false, if_true]

theorem exec_encoderIndex_first (hm : s.encMode n.val = 1) (hen : s.rb (encReg n.val 0x40) 28 = true) (hc : (s.lawW n.val 17).toNat ≠ 0)
    (hx : (s.enc n.val).index = none) :
    exec (.encoderIndex n) s
      = .next (s.setEnc n.val { s.enc n.val with index := some ((s.enc n.val).count % ((s.lawW n.val 17).toNat : Int)) }) := by
  change execEncoderIndex n s = _
  simp only [execEncoderIndex, hm, hen, hc, hx, ne_eq, not_true, Bool.not_true, Bool.false_eq_true, or_self, if_false]

/-! ### Standstill -/

theorem exec_tStopExpiry_passed (hm : s.encMode n.val = 1) :
    exec (.tStopExpiry n false) s = .next (((s.setEnc n.val { s.enc n.val with edges := [] }).wb (aEncStat n.val) 1 true).noSpeed n.val) := by
  change execTStopExpiry n false s = _
  simp only [execTStopExpiry, hm, Bool.false_eq_true, ne_eq, not_true, or_self, if_false]

theorem exec_tStopExpiry_edge : exec (.tStopExpiry n true) s = .next s := by
  change execTStopExpiry n true s = _
  exact if_pos (Or.inl rfl)

/-- The registers of an encoder that has no speed: its speed reads zero, SPEED_VALID is clear, and its other status bits stand. -/
theorem State.noSpeed_reads (h : s.regsWf) (m : Nat) :
    (s.noSpeed m).rd (encReg m 0x58) = 0 ∧ (s.noSpeed m).rb (aEncStat m) 0 = false ∧ ∀ i, i ≠ 0 → (s.noSpeed m).rb (aEncStat m) i = s.rb (aEncStat m) i := by
  have hwf : (s.wb (aEncStat m) 0 false).regsWf := State.wb_regsWf (a := aEncStat m) (i := 0) (b := false) h
  have hne : aEncStat m ≠ encReg m 0x58 := rga_ne_of_off (by decide) (by decide) (by decide)
  have hstat : ∀ i, (s.noSpeed m).rb (aEncStat m) i = (s.wb (aEncStat m) 0 false).rb (aEncStat m) i := fun i => State.rb_wr_ne hwf _ hne
  refine ⟨State.rd_wr_same hwf _ _, (hstat 0).trans (State.rb_wb h _ (by decide)), fun i hi => (hstat i).trans ?_⟩
  unfold State.rb
  rw [State.rd_wb h, if_pos rfl, tbit_setBit_ne (by decide) hi]

theorem tStopExpiry_effect (hcan : s.canonical = true) (hwf : mapWf dflt s.drv.encs = true) (hm : s.encMode n.val = 1) :
    ∃ t, exec (.tStopExpiry n false) s = .next t ∧ (t.enc n.val).edges = [] ∧ t.rb (aEncStat n.val) 1 = true ∧ t.rb (aEncStat n.val) 0 = false ∧
      t.rd (encReg n.val 0x58) = 0 ∧ exec (.tStopExpiry n true) s = .next s := by
  have hr : (s.setEnc n.val { s.enc n.val with edges := [] }).regsWf := State.canonical_regsWf hcan
  obtain ⟨hspeed, hvalid, hrest⟩ := State.noSpeed_reads (State.wb_regsWf (a := aEncStat n.val) (i := 1) (b := true) hr) n.val
  refine ⟨_, exec_tStopExpiry_passed hm, ?_, ?_, hvalid, hspeed, exec_tStopExpiry_edge⟩
  · change (mapGet dflt (mapSet dflt s.drv.encs n.val { s.enc n.val with edges := [] }) n.val).edges = []
    rw [mapGet_mapSet hwf, if_pos rfl]
  · exact (hrest 1 (by decide)).trans (State.rb_wb hr _ (by decide))

/-! ### SSI transfers -/

/-- A part of a field that is zero is zero. -/
theorem fld_part_zero {w : Word} {hi lo h l : Nat} (hz : fld w hi lo = 0) (hl : lo ≤ l) (hh : h ≤ hi) : fld w h l = 0 := by
  have h0 (x y : Nat) : fld (0 : Word) x y = 0 := by simp [fld, nfld]
  rw [← h0 h l]
  refine fld_eq_of_bits fun j hlj hjh => ?_
  have hb := Nat.testBit_mod_two_pow (w.toNat / 2 ^ lo) (hi + 1 - lo) (j - lo)
  unfold fld nfld at hz
  rw [hz, ← Nat.shiftRight_eq_div_pow, Nat.testBit_shiftRight, Nat.zero_testBit, show lo + (j - lo) = j by omega,
    decide_eq_true (show j - lo < hi + 1 - lo by omega), Bool.true_and] at hb
  exact hb.symm.trans BitVec.getLsbD_zero.symm

/-- With CFG bits 29 to 25 zero there is no parity, no Gray code and no negation (R310). -/
theorem exec_ssiTransferEnd_good {bits : Word} {t : Nat} (hssi : (s.enc n.val).ssi = some t) (hgood : (s.enc n.val).good = none)
    (hcfg : fld (s.rd (encReg n.val 0x40)) 29 25 = 0) :
    exec (.ssiTransferEnd n bits false) s = .next (s.ssiGood n.val ((bits.toNat % 2 ^ s.rf (encReg n.val 0x44) 29 24 : Nat) : Int) t) := by
  have hpar : fld (s.rd (encReg n.val 0x40)) 26 25 = 0 := fld_part_zero hcfg (by decide) (by decide)
  have hgray : tbit (s.rd (encReg n.val 0x40)) 27 = false := by rw [tbit_eq, fld_part_zero hcfg (by decide) (by decide)]; rfl
  have hneg : tbit (s.rd (encReg n.val 0x40)) 29 = false := by rw [tbit_eq, fld_part_zero hcfg (by decide) (by decide)]; rfl
  change execSsiTransferEnd n bits false s = _
  unfold execSsiTransferEnd
  simp only [hssi, hgood, hpar, hgray, hneg, Bool.not_true, Bool.false_eq_true, or_self, if_false]

theorem exec_monoTimeout_lost (hm : s.encMode n.val = 2) :
    exec (.monoTimeout n false) s = .next ((s.setEnc n.val { s.enc n.val with ssi := none }).encLost n.val) := by
  change execMonoTimeout n false s = _
  simp only [execMonoTimeout, hm, Bool.false_eq_true, ne_eq, not_true, or_self, if_false]

/-- Settles O28: an edge of one line counts by its direction and one of both is illegal; the standstill clears the speed and its valid bit; a transfer
with no option set is read as it came. -/
theorem encoders : Obligations.Encoders := by
  intro s n a b
  exact ⟨exec_encoderEdge_a, exec_encoderEdge_b, exec_encoderEdge_illegal, exec_encoderIndex_first, tStopExpiry_effect, rfl,
    fun _ _ => exec_ssiTransferEnd_good, exec_monoTimeout_lost⟩

end Sys2Proof.Machine
end

section
/-!
The camera ports (R332 to R350): from these the obligation CameraPackets.
-/
namespace Sys2Proof.Machine

variable {s : State} {c : Fin 16} {vc : BitVec 2}

/-! ### Counters and events -/

/-- A counter that counts does not read zero. -/
theorem satInc_pos (n : Nat) {k : Nat} (hk : 0 < k) : satInc n (2 ^ k - 1) % 2 ^ k ≠ 0 := by
  have h2 : 2 ≤ 2 ^ k := Nat.le_self_pow (Nat.pos_iff_ne_zero.mp hk) 2
  unfold satInc
  split
  · rw [Nat.mod_eq_of_lt (by omega)]
    omega
  · rw [Nat.mod_eq_of_lt (by omega)]
    omega

/-- Counting in a register that resets to zero leaves every other register, whatever the table. -/
theorem State.rd_incSat_ne {a b hi lo : Nat} (hr : resetReg a = 0) (h1 : lo ≤ hi) (h2 : hi < 32) (hne : b ≠ a) : (s.incSat a hi lo).rd b = s.rd b := by
  have hv : setFld (s.rd a) hi lo (satInc (s.rf a hi lo) (2 ^ (hi + 1 - lo) - 1)) ≠ resetReg a := by
    intro he
    have hf := congrArg (fun w => fld w hi lo) he
    rw [hr] at hf
    rw [fld_setFld h1 h2, show fld (0 : Word) hi lo = 0 by simp [fld, nfld]] at hf
    exact satInc_pos _ (by omega) hf
  change mapGet resetReg (mapSet resetReg s.regs a _) b = _
  rw [mapGet_mapSet_stored hv, if_neg hne]
  rfl

theorem resetReg_thErr (c : Fin 16) : resetReg (thReg c.val 0x104) = 0 := by
  revert c
  decide +kernel

theorem tbit_eq_getLsbD (w : Word) (i : Nat) : tbit w i = w.getLsbD i := by
  unfold tbit nfld BitVec.getLsbD
  rw [Nat.testBit_eq_decide_div_mod_eq, show i + 1 - i = 1 by omega, Nat.pow_one]
  rfl

theorem State.rb_raise_same (h : s.regsWf) {page bit : Nat} (hb : bit < 32) : (s.raise page bit).rb (rga page oRaw) bit = true := by
  unfold State.rb
  rw [State.rd_raise h, if_pos rfl, tbit_eq_getLsbD, BitVec.getLsbD_or, ← tbit_eq_getLsbD (w32 _), tbit_w32 (Nat.pow_lt_pow_right (by decide) hb)]
  rw [Nat.div_self (Nat.two_pow_pos bit)]
  exact Bool.or_true _

/-! ### Packet headers -/

theorem State.csiHead_own (hvc : s.rf (thReg c.val 0x60) 29 28 = vc.toNat) : s.csiHead c.val vc.toNat .clean = (true, s) := by
  simp only [State.csiHead, reduceCtorEq, if_false, hvc, if_true]

theorem State.csiHead_other (hvc : s.rf (thReg c.val 0x60) 29 28 ≠ vc.toNat) :
    s.csiHead c.val vc.toNat .clean = (false, s.incSat (thReg c.val 0x108) 31 16) := by
  simp only [State.csiHead, reduceCtorEq, if_false, hvc]

theorem State.csiHead_fixed : s.csiHead c.val vc.toNat .fixed = (s.incSat (thReg c.val 0x104) 31 24).csiHead c.val vc.toNat .clean := by
  simp only [State.csiHead, reduceCtorEq, if_false, if_true, State.thErr]

theorem State.csiHead_bad (hopen : (s.th c.val).opened = true) :
    s.csiHead c.val vc.toNat .bad = (false, s.setTh c.val { s.th c.val with corrupt := true }) := by
  simp only [State.csiHead, State.thMark, if_true, hopen]

theorem State.srcOn_countFixed : (s.incSat (thReg c.val 0x104) 31 24).srcOn c.val = s.srcOn c.val := by
  have hne : srcReg c.val 0x1C ≠ thReg c.val 0x104 := by
    unfold srcReg thReg
    rw [if_pos c.isLt]
    exact rga_ne_of_off (by decide) (by decide) (by decide)
  unfold State.srcOn State.rb
  rw [State.rd_incSat_ne (resetReg_thErr c) (by decide) (by decide) hne]

/-! ### Frame starts -/

/-- A frame opened by a frame start with no tables: what the pipeline latches (R334). -/
def State.openedFrame (s : State) (c num : Nat) : Thresher :=
  let x := s.th c
  { x.settle (x.frames + 1) with
    opened := true
    frames := x.frames + 1
    num := num
    start := s.now
    sec := s.clock.sec
    ns := s.clock.ns
    corrupt := false
    discard := false
    par := (List.range 24).map (fun i => s.rd (thReg c (0x60 + 4 * i)))
    lsc := []
    gamma := []
    roi := []
    lines := []
    embed := []
    late := x.late.filter (fun n => decide (x.frames + 1 < n + 8)) }

theorem State.frameStart_noTables {num : Nat} (hclosed : (s.th c.val).opened = false) (hlsc : s.rd64 (thReg c.val 0xA0) = 0)
    (hgam : s.rd64 (thReg c.val 0xA8) = 0) (hroi : s.rb (thReg c.val 0xB8) 31 = false) :
    s.frameStart c.val num = s.setTh c.val (s.openedFrame c.val num) := by
  simp only [State.frameStart, State.thTable, hclosed, hlsc, hgam, hroi, Bool.false_eq_true, if_false, and_self, if_true, Option.isNone_some, Bool.or_self,
    Option.getD_some, State.openedFrame]

theorem State.openedFrame_p (num : Nat) (i : Fin 24) : (s.openedFrame c.val num).p (0x60 + 4 * i.val) = s.rd (thReg c.val (0x60 + 4 * i.val)) := by
  change ((List.range 24).map (fun i => s.rd (thReg c.val (0x60 + 4 * i)))).getD ((0x60 + 4 * i.val - 0x60) / 4) 0 = _
  rw [show (0x60 + 4 * i.val - 0x60) / 4 = i.val by omega]
  simp [List.getD]

theorem State.th_setTh (hwf : mapWf dflt s.perc.ths = true) (x : Thresher) (d : Nat) : (s.setTh c.val x).th d = if d = c.val then x else s.th d :=
  mapGet_mapSet hwf

theorem frameStart_effect {num : BitVec 16} (hon : s.srcOn c.val = true) (hvc : s.rf (thReg c.val 0x60) 29 28 = vc.toNat)
    (hwf : mapWf dflt s.perc.ths = true) (hclosed : (s.th c.val).opened = false) (hlsc : s.rd64 (thReg c.val 0xA0) = 0)
    (hgam : s.rd64 (thReg c.val 0xA8) = 0) (hroi : s.rb (thReg c.val 0xB8) 31 = false) :
    ∃ t, exec (.csi2FrameStart c vc .clean num) s = .next t ∧ (t.th c.val).opened = true ∧ (t.th c.val).corrupt = false ∧ (t.th c.val).num = num.toNat ∧
      (t.th c.val).frames = (s.th c.val).frames + 1 ∧ (t.th c.val).lines = [] ∧ (t.th c.val).start = s.now ∧
      (∀ i : Fin 24, (t.th c.val).p (0x60 + 4 * i.val) = s.rd (thReg c.val (0x60 + 4 * i.val))) ∧ t = { s with perc := t.perc } := by
  have hget : (s.setTh c.val (s.openedFrame c.val num.toNat)).th c.val = s.openedFrame c.val num.toNat := (State.th_setTh hwf _ _).trans (if_pos rfl)
  refine ⟨s.setTh c.val (s.openedFrame c.val num.toNat), ?_, ?_⟩
  · change execCsi2FrameStart c vc .clean num s = _
    simp only [execCsi2FrameStart, hon, State.csiHead_own hvc, State.frameStart_noTables hclosed hlsc hgam hroi, Bool.not_true, Bool.false_eq_true, if_false,
      if_true]
  · rw [hget]
    exact ⟨rfl, rfl, rfl, rfl, rfl, rfl, State.openedFrame_p num.toNat, rfl⟩

/-! ### Lines and embedded data -/

theorem exec_csi2Line_stored {dt : BitVec 6} {codes : List Nat} (hon : s.srcOn c.val = true) (hvc : s.rf (thReg c.val 0x60) 29 28 = vc.toNat)
    (hdt : dt.toNat = (s.th c.val).dt) (hbits : (dtBits dt.toNat).isSome = true) (hopen : (s.th c.val).opened = true)
    (hkeep : (s.th c.val).discard = false) (hyuv : dt ≠ 0x1E) (h2 : dt ≠ 2) (h3 : dt ≠ 3) :
    exec (.csi2Line c vc .clean dt true false codes) s = .next (s.setTh c.val { s.th c.val with
      corrupt := (s.th c.val).corrupt || codes.length != (s.th c.val).width
      lines := (s.th c.val).lines ++ [codes] }) := by
  have hsup : ¬(dt.toNat ≠ s.csiType c.val ∨ dtBits dt.toNat = none) := by
    rw [State.csiType, if_pos hopen, ← hdt]
    rintro (hne | hnone)
    · exact hne rfl
    · rw [hnone] at hbits
      cases hbits
  have hn (k : BitVec 6) (h : dt ≠ k) : dt.toNat ≠ k.toNat := fun he => h (BitVec.eq_of_toNat_eq he)
  have hemb : ¬(dt.toNat = 2 ∨ dt.toNat = 3) := not_or.mpr ⟨hn 2 h2, hn 3 h3⟩
  have hraw : dt.toNat ≠ 0x1E := hn 0x1E hyuv
  change execCsi2Line c vc .clean dt true false codes s = _
  simp only [execCsi2Line, hon, State.csiHead_own hvc, State.thLine, if_neg hemb, if_neg hsup, if_neg hraw, hopen, hkeep, Bool.not_true, Bool.false_eq_true,
    Bool.or_self, if_false, if_true]

theorem exec_csi2Line_dropped {dt : BitVec 6} {codes : List Nat} (hon : s.srcOn c.val = true) (hvc : s.rf (thReg c.val 0x60) 29 28 ≠ vc.toNat) :
    exec (.csi2Line c vc .clean dt true false codes) s = .next (s.incSat (thReg c.val 0x108) 31 16) := by
  change execCsi2Line c vc .clean dt true false codes s = _
  simp only [execCsi2Line, hon, State.csiHead_other hvc, Bool.not_true, Bool.false_eq_true, if_false]

/-- A header its ECC corrected counts, and its packet is then one with a clean header (R333). -/
theorem exec_csi2Line_fixed {dt : BitVec 6} {codes : List Nat} (hon : s.srcOn c.val = true) :
    exec (.csi2Line c vc .fixed dt true false codes) s = exec (.csi2Line c vc .clean dt true false codes) (s.incSat (thReg c.val 0x104) 31 24) := by
  change execCsi2Line c vc .fixed dt true false codes s = execCsi2Line c vc .clean dt true false codes (s.incSat (thReg c.val 0x104) 31 24)
  simp only [execCsi2Line, State.srcOn_countFixed, hon, State.csiHead_fixed, Bool.not_true, Bool.false_eq_true, if_false]

theorem exec_csi2Line_bad {dt : BitVec 6} {codes : List Nat} (hon : s.srcOn c.val = true) (hopen : (s.th c.val).opened = true) :
    exec (.csi2Line c vc .bad dt true false codes) s = .next (s.setTh c.val { s.th c.val with corrupt := true }) := by
  change execCsi2Line c vc .bad dt true false codes s = _
  simp only [execCsi2Line, hon, State.csiHead_bad hopen, Bool.not_true, Bool.false_eq_true, if_false]

theorem exec_csi2FrameEnd_bad (hon : s.srcOn c.val = true) (hopen : (s.th c.val).opened = true) :
    exec (.csi2FrameEnd c vc .bad) s = .next (s.setTh c.val { s.th c.val with corrupt := true }) := by
  change execCsi2FrameEnd c vc .bad s = _
  simp only [execCsi2FrameEnd, hon, State.csiHead_bad hopen, Bool.not_true, Bool.false_eq_true, if_false]

theorem exec_csi2EmbeddedData_good {bytes : List Byte} (hon : s.srcOn c.val = true) (hvc : s.rf (thReg c.val 0x60) 29 28 = vc.toNat)
    (hopen : (s.th c.val).opened = true) (hkeep : (s.th c.val).discard = false) :
    exec (.csi2EmbeddedData c vc .clean true bytes) s
      = .next (s.setTh c.val { s.th c.val with embed := ((s.th c.val).embed ++ bytes).take 64 }) := by
  change execCsi2EmbeddedData c vc .clean true bytes s = _
  simp only [execCsi2EmbeddedData, hon, State.csiHead_own hvc, State.thEmbed, hopen, hkeep, Bool.not_true, Bool.false_eq_true, Bool.or_self, if_false, if_true]

theorem exec_csi2EmbeddedData_crc {bytes : List Byte} (hon : s.srcOn c.val = true) (hvc : s.rf (thReg c.val 0x60) 29 28 = vc.toNat)
    (hopen : (s.th c.val).opened = true) (hkeep : (s.th c.val).discard = false) :
    exec (.csi2EmbeddedData c vc .clean false bytes) s = .next ((s.incSat (thReg c.val 0x104) 23 16).setTh c.val { s.th c.val with
      embed := ((s.th c.val).embed ++ bytes).take 64
      corrupt := true }) := by
  change execCsi2EmbeddedData c vc .clean false bytes s = _
  simp only [execCsi2EmbeddedData, hon, State.csiHead_own hvc, State.thEmbed, State.thErr, hopen, hkeep, Bool.not_true, Bool.false_eq_true, Bool.or_self,
    if_false, if_true]

/-! ### Frame ends -/

/-- A pipeline with other smoothed means. No stage of the image reads them. -/
def Thresher.withMeans (x : Thresher) (m : Nat × Nat × Nat) : Thresher := { x with smean := some m }

section
variable (x : Thresher) (m : Nat × Nat × Nat)

theorem Thresher.withMeans_unpack : (x.withMeans m).unpack = x.unpack := rfl
theorem Thresher.withMeans_black (p : Plane) : (x.withMeans m).black p = x.black p := rfl
theorem Thresher.withMeans_defect (p : Plane) : (x.withMeans m).defect p = x.defect p := rfl
theorem Thresher.withMeans_shade (p : Plane) : (x.withMeans m).shade p = x.shade p := rfl
theorem Thresher.withMeans_balance (p : Plane) : (x.withMeans m).balance p = x.balance p := rfl

theorem Thresher.withMeans_stage5 : (x.withMeans m).stage5 = x.stage5 := by
  unfold Thresher.stage5
  rw [withMeans_unpack, withMeans_black, withMeans_defect, withMeans_shade, withMeans_balance]

theorem Thresher.withMeans_yuvAt (p : Plane) : (x.withMeans m).yuvAt p = x.yuvAt p := rfl
theorem Thresher.withMeans_greens (p : Plane) : (x.withMeans m).greens p = x.greens p := rfl
theorem Thresher.withMeans_finish (f : Nat → Nat → Nat × Nat × Nat) : (x.withMeans m).finish f = x.finish f := rfl
theorem Thresher.withMeans_demosaic (p : Plane) (i j : Nat) (g : Plane) : (x.withMeans m).demosaic p i j g = x.demosaic p i j g := rfl
theorem Thresher.withMeans_yuv : (x.withMeans m).yuv = x.yuv := rfl

theorem Thresher.withMeans_image (p : Plane) : (x.withMeans m).image p = x.image p := by
  unfold Thresher.image
  simp only [withMeans_yuv, withMeans_yuvAt, withMeans_greens, withMeans_finish, withMeans_demosaic] <;> rfl

theorem Thresher.withMeans_quads (p : Plane) : (x.withMeans m).quads p = x.quads p := rfl
theorem Thresher.withMeans_roiView (r : Rgb) : (x.withMeans m).roiView r = x.roiView r := rfl

/-- The smoothed means are no part of a sample. -/
theorem Thresher.withMeans_sample (now : Nat) : (x.withMeans m).sample now = x.sample now := by
  unfold Thresher.sample
  simp only [withMeans_yuv, withMeans_unpack, withMeans_stage5, withMeans_image, withMeans_quads, withMeans_roiView]
  rfl

end

/-- Nothing is sent while nothing is staged (R340). -/
theorem State.startSend_none (h : (s.th c.val).staged = none) : s.startSend c.val = s := by
  simp only [State.startSend, h]

/-- The means a good frame leaves (R337). -/
def State.goodMeans (s : State) (c : Nat) : Nat × Nat × Nat :=
  let x := s.th c
  let a := s.rf (thReg c 0xF0) 3 0
  let o := x.smean.getD (0, 0, 0)
  (smooth a o.1 x.means.1, smooth a o.2.1 x.means.2.1, smooth a o.2.2 x.means.2.2)

theorem State.updateMeans_good (hc : (s.th c.val).corrupt = false) (hl : (s.th c.val).lines.length = (s.th c.val).height) :
    s.updateMeans c.val = s.setTh c.val ((s.th c.val).withMeans (s.goodMeans c.val)) := by
  simp only [State.updateMeans, hc, hl, bne_self_eq_false, Bool.or_self, Bool.false_eq_true, if_false, State.goodMeans, Thresher.withMeans]

/-- A pipeline whose frame has ended. -/
def Thresher.ended (x : Thresher) : Thresher := { x with opened := false, lines := [], embed := [] }

theorem State.now_setTh (d : Nat) (x : Thresher) : (s.setTh d x).now = s.now := rfl

/-- A good frame end hands its sample on and closes the frame (R335, R348). -/
theorem State.frameEnd_good {x : Thresher} (hx : x = s.th c.val) (hopen : x.opened = true) (hst : x.staged = none) (hc : x.corrupt = false)
    (hl : x.lines.length = x.height) (hwf : mapWf dflt s.perc.ths = true) :
    s.frameEnd c.val = ((s.setTh c.val (x.withMeans (s.goodMeans c.val))).addSampleOf c.val (x.sample s.now)).setTh c.val
      (x.withMeans (s.goodMeans c.val)).ended := by
  subst hx
  have hwf1 : mapWf dflt (s.setTh c.val ((s.th c.val).withMeans (s.goodMeans c.val))).perc.ths = true := mapSet_wf hwf
  have hget := (State.th_setTh (c := c) hwf ((s.th c.val).withMeans (s.goodMeans c.val)) c.val).trans (if_pos rfl)
  have hgood : (((s.th c.val).withMeans (s.goodMeans c.val)).corrupt || ((s.th c.val).withMeans (s.goodMeans c.val)).lines.length !=
      ((s.th c.val).withMeans (s.goodMeans c.val)).height) = false := by
    change ((s.th c.val).corrupt || (s.th c.val).lines.length != (s.th c.val).height) = false
    rw [hc, hl, bne_self_eq_false, Bool.or_false]
  have hlast : ∀ u : State, u.perc.ths = mapSet dflt s.perc.ths c.val ((s.th c.val).withMeans (s.goodMeans c.val)) →
      (u.setTh c.val ((s.th c.val).withMeans (s.goodMeans c.val)).ended).startSend c.val = u.setTh c.val ((s.th c.val).withMeans (s.goodMeans c.val)).ended := by
    intro u hu
    refine State.startSend_none ?_
    rw [State.th_setTh (by rw [hu]; exact hwf1), if_pos rfl]
    exact hst
  unfold State.frameEnd
  simp only [hopen, State.updateMeans_good hc hl, hget, hgood, Thresher.withMeans_sample, Bool.not_true, Bool.false_eq_true,
    if_false, State.now_setTh]
  exact hlast ((s.setTh c.val ((s.th c.val).withMeans (s.goodMeans c.val))).addSampleOf c.val ((s.th c.val).sample s.now)) rfl

theorem frameEnd_effect {x : Thresher} (hon : s.srcOn c.val = true) (hx : x = s.th c.val) (hvc : s.rf (thReg c.val 0x60) 29 28 = vc.toNat)
    (hopen : x.opened = true) (hst : x.staged = none) (hc : x.corrupt = false) (hl : x.lines.length = x.height) (hwf : mapWf dflt s.perc.ths = true)
    (hsw : mapWf (fun _ => []) s.perc.samples = true) :
    ∃ t, exec (.csi2FrameEnd c vc .clean) s = .next t ∧ t.waiting c.val = s.waiting c.val ++ [x.sample s.now] ∧ (t.th c.val).opened = false ∧
      (∀ d, d ≠ c.val → t.th d = s.th d ∧ t.waiting d = s.waiting d) ∧ t = { s with perc := t.perc } := by
  have hwf1 : mapWf dflt (mapSet dflt s.perc.ths c.val (x.withMeans (s.goodMeans c.val))) = true := mapSet_wf hwf
  refine ⟨((s.setTh c.val (x.withMeans (s.goodMeans c.val))).addSampleOf c.val (x.sample s.now)).setTh c.val (x.withMeans (s.goodMeans c.val)).ended,
    ?_, ?_, ?_, fun d hd => ⟨?_, ?_⟩, rfl⟩
  · change execCsi2FrameEnd c vc .clean s = _
    simp only [execCsi2FrameEnd, hon, State.csiHead_own hvc, State.frameEnd_good hx hopen hst hc hl hwf, Bool.not_true, Bool.false_eq_true, if_false, if_true]
  · change mapGet _ (mapSet _ s.perc.samples c.val _) c.val = _
    rw [mapGet_mapSet hsw, if_pos rfl]
    rfl
  · change (mapGet dflt (mapSet dflt (mapSet dflt s.perc.ths c.val _) c.val (x.withMeans _).ended) c.val).opened = false
    rw [mapGet_mapSet hwf1, if_pos rfl]
    rfl
  · change mapGet dflt (mapSet dflt (mapSet dflt s.perc.ths c.val _) c.val _) d = _
    rw [mapGet_mapSet hwf1, if_neg hd, mapGet_mapSet hwf, if_neg hd]
    rfl
  · change mapGet _ (mapSet _ s.perc.samples c.val _) d = _
    rw [mapGet_mapSet hsw, if_neg hd]
    rfl

/-! ### Camera faults -/

theorem exec_frameTimeout_open (hon : s.srcOn c.val = true) (hopen : (s.th c.val).opened = true) :
    exec (.frameTimeout c false) s = .next ((s.incSat (thReg c.val 0x104) 7 0).thCorrupt c.val) := by
  change execFrameTimeout c false s = _
  simp only [execFrameTimeout, hon, hopen, State.thErr, Bool.not_true, Bool.or_self, Bool.false_eq_true, if_false]

theorem exec_frameTimeout_ended : exec (.frameTimeout c true) s = .next s := by
  change execFrameTimeout c true s = _
  rfl

theorem exec_camSilent (hon : s.srcOn c.val = true) :
    exec (.camSilent c false) s = .next ((s.raise (thPage c.val) 3).logNamed (thPage c.val) evPort 6 3 (s.srcOwner c.val)) := by
  change execCamSilent c false s = _
  simp only [execCamSilent, hon, Bool.not_true, Bool.or_self, Bool.false_eq_true, if_false]

theorem OnlyRegsLog.perc {t : State} (h : OnlyRegsLog s t) : t.perc = s.perc := by
  unfold OnlyRegsLog at h
  rw [h]

theorem camSilent_effect (hon : s.srcOn c.val = true) :
    ∃ t, exec (.camSilent c false) s = .next t ∧ (s.canonical = true → t.rb (rga (thPage c.val) oRaw) 3 = true) ∧ t.perc = s.perc ∧
      (s.canonical = true → t.srcOn c.val = true) ∧ OnlyRegsLog s t := by
  have honly : OnlyRegsLog s ((s.raise (thPage c.val) 3).logNamed (thPage c.val) evPort 6 3 (s.srcOwner c.val)) :=
    ((OnlyRegsMsix.refl s).raise (thPage c.val) 3).log.logNamed ..
  have hregs := State.logNamed_regs (s := s.raise (thPage c.val) 3) (thPage c.val) evPort 6 3 (s.srcOwner c.val)
  refine ⟨_, exec_camSilent hon, fun hcan => ?_, ?_, fun hcan => ?_, honly⟩
  · rw [State.rb_congr hregs, State.rb_raise_same (State.canonical_regsWf hcan) (by decide)]
  · exact honly.perc
  · have hne : srcReg c.val 0x1C ≠ rga (thPage c.val) oRaw := by
      unfold srcReg
      rw [if_pos c.isLt]
      exact rga_ne_of_off (by decide) (by decide) (by decide)
    unfold State.srcOn at hon ⊢
    rw [State.rb_congr hregs, State.rb_raise_ne (State.canonical_regsWf hcan) hne, hon]

/-- Settles O29: each packet through its header (own channel, other channel, corrected, uncorrectable), then what its payload does to the open frame;
the smoothed means a frame end updates are no part of the sample it hands on. -/
theorem cameraPackets : Obligations.CameraPackets := by
  refine ⟨fun s c vc hon => ⟨fun num hvc hwf hclosed hlsc hgam hroi => frameStart_effect hon hvc hwf hclosed hlsc hgam hroi,
    fun dt codes hvc hdt hbits hopen hkeep h1 h2 h3 => exec_csi2Line_stored hon hvc hdt hbits hopen hkeep h1 h2 h3,
    fun dt codes hvc => exec_csi2Line_dropped hon hvc,
    fun dt codes => ⟨exec_csi2Line_fixed hon, fun hopen => ⟨exec_csi2Line_bad hon hopen, exec_csi2FrameEnd_bad hon hopen⟩⟩,
    fun bytes hvc hopen hkeep => ⟨exec_csi2EmbeddedData_good hon hvc hopen hkeep, exec_csi2EmbeddedData_crc hon hvc hopen hkeep⟩,
    fun x hx hvc hopen hst hc hl hwf hsw => frameEnd_effect hon hx hvc hopen hst hc hl hwf hsw⟩,
    fun s c hon => ⟨fun hopen => ⟨exec_frameTimeout_open hon hopen, exec_frameTimeout_ended⟩, camSilent_effect hon, ?_⟩⟩
  change execCamSilent c true s = _
  rfl

end Sys2Proof.Machine
end

section
/-!
Sample sources and the forwarding of their samples (R334 to R351): from these the obligation SampleSources.
-/
namespace Sys2Proof.Machine

variable {s : State} {f : Func}

/-! ### Settings and regions of interest -/

theorem exec_thSet {c : Fin 16} {v : Word} (hw : s.mayWrite f (thReg c.val 0xE0) = true) : exec (.thSet f c v) s = .next (s.wrThSet c.val v) := by
  change execThSet f c v s = _
  rw [execThSet, State.guarded_of_mayWrite hw]

theorem State.wrThSet_first {c : Nat} {v : Word} (h : (s.th c).staged = none) :
    s.wrThSet c v = s.setTh c { s.th c with staged := some (fld v 15 0, fld v 31 16) } := by
  simp only [State.wrThSet, h, Option.isSome_none, Bool.false_eq_true, if_false]

theorem State.wrThSet_merged {c : Nat} {v : Word} (h : (s.th c).staged ≠ none) :
    s.wrThSet c v = (s.incSat (thReg c 0x10C) 15 0).setTh c { s.th c with staged := some (fld v 15 0, fld v 31 16) } := by
  simp only [State.wrThSet, Option.isSome_iff_ne_none.mpr h, if_true]

theorem exec_roiCommit_due {c : Fin 16} (h : (s.th c.val).roiDue ≠ 0) :
    exec (.roiCommit c) s = .next (s.setTh c.val { s.th c.val with
      roiDue := (s.th c.val).roiDue - 1
      roiSel := !(s.th c.val).roiSel }) := by
  change execRoiCommit c s = _
  simp only [execRoiCommit, h, if_false]

/-! ### Enable -/

theorem exec_srcEnable {src : Fin 96} {v : Word} (hw : s.mayWrite f (srcReg src.val 0) = true) :
    exec (.srcEnable f src v) s = .next (s.wrSrcCfg f src.val v) := by
  change execSrcEnable f src v s = _
  rw [execSrcEnable, State.guarded_of_mayWrite hw]

theorem State.unitAccess_ok {t a len : Nat} {write : Bool} (h : s.regCheck t write a len = .ok) : s.unitAccess t write a len = (true, s) := by
  simp only [State.unitAccess, h]

theorem State.unitAccess_bounds {t a len e : Nat} {write : Bool} (h : s.regCheck t write a len = .bounds e) :
    s.unitAccess t write a len = (false, s) := by
  simp only [State.unitAccess, h]

theorem State.wrSrcCfg_again {src : Nat} {v : Word} (hon : s.srcOn src = true) (hen : tbit v 31 = true) :
    s.wrSrcCfg f src v = s.wb (srcReg src 0x1C) 1 true := by
  simp only [State.wrSrcCfg, hon, hen, if_true, State.srcErr]

theorem State.wrSrcCfg_stop {src : Nat} {v : Word} (hon : s.srcOn src = true) (hen : tbit v 31 = false) :
    s.wrSrcCfg f src v = (s.store f (srcReg src 0) v 0).srcStop src := by
  simp only [State.wrSrcCfg, hon, hen, if_true, Bool.false_eq_true, if_false]

section
variable {src : Nat} {v : Word} (hoff : s.srcOn src = false) (hen : tbit v 31 = true) (haug : tbit v 30 = false) (how : fld v 27 24 < 8)
  (hlo : 2 ≤ s.slotCount src) (hhi : s.slotCount src ≤ 1024) (hsz : s.slotBytes src ≠ 0) (hfit : 4096 + s.fixedBytes src v ≤ s.slotBytes src)
include hoff hen haug how hlo hhi hsz hfit

/-- An ENABLE of a source whose slots have a valid shape turns on the check of its ring (R347). -/
theorem State.wrSrcCfg_start (hok : s.regCheck (fld v 27 24) true (s.srcRing src) (4096 + s.slotCount src * s.slotBytes src) = .ok) :
    s.wrSrcCfg f src v = (s.store f (srcReg src 0) v 0).srcStart src := by
  simp only [State.wrSrcCfg, hoff, hen, haug, how, hlo, hhi, hsz, hfit, State.unitAccess_ok hok, Bool.false_and, Bool.not_true, Bool.false_eq_true,
    ne_eq, not_false_eq_true, decide_true, and_self, Bool.and_self, Bool.or_self, if_false, if_true]

theorem State.wrSrcCfg_outside {a : Nat}
    (hb : s.regCheck (fld v 27 24) true (s.srcRing src) (4096 + s.slotCount src * s.slotBytes src) = .bounds a) :
    s.wrSrcCfg f src v = s.wb (srcReg src 0x1C) 1 true := by
  simp only [State.wrSrcCfg, hoff, hen, haug, how, hlo, hhi, hsz, hfit, State.unitAccess_bounds hb, Bool.false_and, Bool.not_true, Bool.false_eq_true,
    ne_eq, not_false_eq_true, decide_true, and_self, Bool.and_self, Bool.or_self, if_false, State.srcErr]

end

/-! ### Forwarding -/

/-- A sample with its main view alone has no view left out (R339). -/
theorem fitViews_none (fmt room : Nat) : fitViews fmt room [none, none, none, none] = ([none, none, none, none], false) := rfl

section
variable {src : Nat} {x : Sample} {main : View} {wc rc : Nat} (haug : s.rb (srcReg src 0) 30 = false)
  (hring : s.regCheck (s.srcOwner src) true (s.srcRing src) (4096 + s.slotCount src * s.slotBytes src) = .ok)
  (hviews : x.views = [some main, none, none, none, none]) (hfit : 4096 + (viewBytes x.fmt main).length ≤ s.slotBytes src)
  (hlate : (decide (src < 16) && (s.th src).late.contains x.index) = false) (hwc : wc = leNat (s.hbmRead (s.srcRing src) 8))
  (hrc : rc = leNat (s.hbmRead (s.srcRing src + 8) 8))
include haug hring hviews hfit hwc hrc

include hlate in
/-- A sample with one view that finds a free slot is written there with its head (R348, R349). -/
theorem State.forward_room (hroom : (wc + 2 ^ 64 - rc) % 2 ^ 64 < s.slotCount src) :
    s.forward src x = (s.hbmWrite (s.srcRing src + 4096 + wc % s.slotCount src * s.slotBytes src)
      (sampleHead x src (s.tenant (s.srcOwner src)).inSeq x.flags 0 x.views ++ viewBytes x.fmt main)).forwarded src (s.srcOwner src)
        x.flags (s.tenant (s.srcOwner src)).inSeq (wc % s.slotCount src)
        (s.srcRing src + 4096 + wc % s.slotCount src * s.slotBytes src) wc := by
  subst hwc hrc
  have haug' : tbit (s.rd (srcReg src 0)) 30 = false := haug
  have hsize : ¬s.slotBytes src < 4096 + (viewBytes x.fmt main).length + 0 := by omega
  have hdata : viewData x.fmt [some main, none, none, none, none] = viewBytes x.fmt main := by simp [viewData]
  simp only [State.forward, State.unitAccess_ok hring, haug', hviews, hlate, List.headD_cons, Option.getD_some, List.drop_succ_cons, List.drop_zero,
    fitViews_none, Bool.false_and, Bool.not_true, Bool.false_eq_true, if_false, List.length_nil, hsize, Nat.not_le.mpr hroom, hdata, show b2n false = 0 from rfl, Nat.zero_mul,
    Nat.or_zero, List.append_nil]

theorem State.forward_full (hfull : s.slotCount src ≤ (wc + 2 ^ 64 - rc) % 2 ^ 64) :
    s.forward src x = (s.incSat (srcReg src 0x18) 15 0).raise (srcPg src) 2 := by
  subst hwc hrc
  have haug' : tbit (s.rd (srcReg src 0)) 30 = false := haug
  have hsize : ¬s.slotBytes src < 4096 + (viewBytes x.fmt main).length + 0 := by omega
  simp only [State.forward, State.unitAccess_ok hring, haug', hviews, List.headD_cons, Option.getD_some, Bool.false_and, Bool.not_true, Bool.false_eq_true,
    if_false, List.length_nil, hsize, hfull, if_true, State.dropSample]

end

/-- The waiting list has no part in the check of a source's ring. -/
theorem State.setWaiting_ring {src : Nat} {r : List Sample} :
    (s.setWaiting src r).regCheck ((s.setWaiting src r).srcOwner src) true ((s.setWaiting src r).srcRing src)
      (4096 + (s.setWaiting src r).slotCount src * (s.setWaiting src r).slotBytes src)
      = s.regCheck (s.srcOwner src) true (s.srcRing src) (4096 + s.slotCount src * s.slotBytes src) := by
  have howner : (s.setWaiting src r).srcOwner src = s.srcOwner src := rfl
  have hring : (s.setWaiting src r).srcRing src = s.srcRing src := rfl
  have hcount : (s.setWaiting src r).slotCount src = s.slotCount src := rfl
  have hbytes : (s.setWaiting src r).slotBytes src = s.slotBytes src := rfl
  rw [howner, hring, hcount, hbytes]
  exact State.regCheck_congr (s := s) (t := s.setWaiting src r) (fun _ _ => rfl) _ _ _ _

theorem exec_sampleForward {src : Fin 96} {x : Sample} {r : List Sample} (h : s.waiting src.val = x :: r) :
    exec (.sampleForward src) s = .next ((s.setWaiting src.val r).forward src.val x) := by
  change execSampleForward src s = _
  simp only [execSampleForward, h]

/-- Settles O30: settings and ENABLE by their checks in order; the ring, the slot and the tenant of a sample are those before it leaves the waiting
list. -/
theorem sampleSources : Obligations.SampleSources := by
  intro s f
  refine ⟨fun c v hw => ⟨fun h => ?_, fun h => ?_⟩, fun c h => exec_roiCommit_due h, fun src v hw => ⟨fun hon hen => ?_, fun hon hen => ?_,
    fun hoff hen haug how hlo hhi hsz hfit => ⟨fun hok => ?_, fun a hb => ?_⟩⟩,
    fun src x r main wc rc u hq hu haug hring hviews hfit hlate hwc hrc => ⟨fun hroom => ?_, fun hfull => ?_⟩⟩
  · rw [exec_thSet hw, State.wrThSet_first h]
  · rw [exec_thSet hw, State.wrThSet_merged h]
  · rw [exec_srcEnable hw, State.wrSrcCfg_again hon hen]
  · rw [exec_srcEnable hw, State.wrSrcCfg_stop hon hen]
  · rw [exec_srcEnable hw, State.wrSrcCfg_start hoff hen haug how hlo hhi hsz hfit hok]
  · rw [exec_srcEnable hw, State.wrSrcCfg_outside hoff hen haug how hlo hhi hsz hfit hb]
  · subst hu
    rw [exec_sampleForward hq]
    exact congrArg _ (State.forward_room (s := s.setWaiting src.val r) haug (State.setWaiting_ring.trans hring) hviews hfit hlate hwc hrc hroom)
  · subst hu
    rw [exec_sampleForward hq]
    exact congrArg _ (State.forward_full (s := s.setWaiting src.val r) haug (State.setWaiting_ring.trans hring) hviews hfit hwc hrc hfull)

end Sys2Proof.Machine
end

section
/-!
Caravan's video streams and Glean (R341 to R346, R353): from these the obligation VideoStreams.
-/
namespace Sys2Proof.Machine

variable {s : State} {f : Func} {v : Fin 80} {p : RtpPacket}

/-! ### Packets of a stream -/

/-- The packet that is next is at distance zero (R342). -/
theorem toS_next (q : BitVec 16) : toS 16 (q.toNat + 65536 - q.toNat % 65536) = 0 := by
  have hq : q.toNat + 65536 - q.toNat % 65536 = 65536 := by
    have := q.isLt
    omega
  rw [hq]
  rfl

/-- A packet that is next and finds no other one held is delivered (R342). -/
theorem flushHeld_single (n k t : Nat) (x : Stream) (p : RtpPacket) (hh : x.held = [(k, t, p)]) (hn : x.next = some k) :
    flushHeld (n + 2) x = ({ x with held := [], next := some (k + 1) } : Stream).deliver t p := by
  have hrest : ∀ y : Stream, y.held = [] → flushHeld (n + 1) y = y := by
    intro y hy
    unfold flushHeld
    rw [hy]
  have hdel : (({ x with held := [], next := some (k + 1) } : Stream).deliver t p).held = [] := by
    unfold Stream.deliver
    split <;> split <;> rfl
  conv => lhs; unfold flushHeld
  rw [hh, hn]
  simp only [if_true]
  exact hrest _ hdel

theorem Stream.deliver_same {x : Stream} {t : Nat} (h : ∀ g ∈ x.got, g.2.time = p.time) (hm : p.marker = false) :
    x.deliver t p = { x with got := x.got ++ [(t, p)] } := by
  have hany : x.got.any (fun g => g.2.time != p.time) = false := by simpa using h
  simp only [Stream.deliver, hany, hm, Bool.false_eq_true, if_false]

theorem Stream.deliver_marker {x : Stream} {t : Nat} (h : ∀ g ∈ x.got, g.2.time = p.time) (hm : p.marker = true) :
    x.deliver t p = { x with ended := x.ended ++ [x.got ++ [(t, p)]], got := [] } := by
  have hany : x.got.any (fun g => g.2.time != p.time) = false := by simpa using h
  simp only [Stream.deliver, hany, hm, Bool.false_eq_true, if_false, if_true]

theorem Stream.deliver_other {x : Stream} {t : Nat} (h : ∃ g ∈ x.got, g.2.time ≠ p.time) (hm : p.marker = false) :
    x.deliver t p = { x with ended := x.ended ++ [x.got], got := [(t, p)] } := by
  have hany : x.got.any (fun g => g.2.time != p.time) = true := by simpa using h
  simp only [Stream.deliver, hany, hm, Bool.false_eq_true, if_false, if_true, List.nil_append]

section
variable {x : Stream} (hheld : (s.vs v.val).held = []) (hnext : (s.vs v.val).next = some p.seq.toNat) (hx : x = { s.vs v.val with stalled := false })
include hheld hnext hx

/-- The next packet, no other one held: the buffer has no room for it, or it is delivered (R341, R342). -/
theorem State.vsArrive_next :
    s.vsArrive v.val p = if 2 ^ 22 < x.fill + p.payload.length then (s.setVs v.val { x with spilled := x.spilled ++ [p.seq.toNat] }).vsLost v.val 1
      else s.setVs v.val (({ x with next := some (p.seq.toNat + 1) } : Stream).deliver s.now p) := by
  have hxh : x.held = [] := by rw [hx]; exact hheld
  have hxn : x.next = some p.seq.toNat := by rw [hx]; exact hnext
  have hflush := flushHeld_single 0 p.seq.toNat s.now { x with next := some p.seq.toNat, held := [(p.seq.toNat, s.now, p)] } p rfl rfl
  have hclear : ({ x with held := [], next := some (p.seq.toNat + 1) } : Stream) = { x with next := some (p.seq.toNat + 1) } := by rw [← hxh]
  have hkeep : ({ x with next := some p.seq.toNat, spilled := x.spilled ++ [p.seq.toNat] } : Stream) = { x with spilled := x.spilled ++ [p.seq.toNat] } := by
    rw [← hxn]
  unfold State.vsArrive
  extract_lets old y base d e y'
  have hy : y = x := hx.symm
  have hbase : base = p.seq.toNat := by
    change y.next.getD _ = _
    rw [hy, hxn]
    rfl
  have hd : d = 0 := by
    change toS 16 (_ + 65536 - base % 65536) = 0
    rw [hbase, toS_next]
  have he : e = p.seq.toNat := by
    change ((base : Int) + d).toNat = _
    rw [hbase, hd]
    omega
  have hy' : y' = { x with next := some p.seq.toNat, held := [(p.seq.toNat, s.now, p)] } := by
    change ({ y with next := some base, held := insHeld e s.now p y.held } : Stream) = _
    rw [hy, hbase, he, hxh]
    rfl
  have hfirst : (decide (d < 0) || y.held.any fun h => h.1 == e) = false := by
    rw [hd, hy, hxh]
    rfl
  rw [hfirst, hy', hy, hbase, he, if_neg Bool.false_ne_true, hkeep]
  refine ite_congr rfl (fun _ => rfl) (fun _ => congrArg _ (hflush.trans ?_))
  rw [← hclear]

end

theorem exec_rtpPacket_one (h : (List.range 80).filter (fun v => s.vsTakes v p) = [v.val]) : exec (.rtpPacket p) s = .next (s.vsArrive v.val p) := by
  change execRtpPacket p s = _
  rw [execRtpPacket, h]
  rfl

theorem exec_rtpPacket_none (h : ∀ v, v < 80 → s.vsTakes v p = false) : exec (.rtpPacket p) s = .next s := by
  have hnil : (List.range 80).filter (fun v => s.vsTakes v p) = [] := by
    refine List.filter_eq_nil_iff.mpr fun v hv => ?_
    rw [h v (List.mem_range.mp hv)]
    decide
  change execRtpPacket p s = _
  rw [execRtpPacket, hnil]
  rfl

theorem exec_jitterExpiry_gap {e a k : Nat} (hheld : (s.vs v.val).held = [(e, a, p)]) (hnext : (s.vs v.val).next = some k)
    (hsp : (s.vs v.val).spilled = []) (hgot : (s.vs v.val).got = []) (hm : p.marker = false) :
    exec (.jitterExpiry v) s = .next ((s.setVs v.val { s.vs v.val with
      held := []
      next := some (e + 1)
      got := [(a, p)] }).vsLost v.val (e - k)) := by
  have hflush : flushHeld 2 { s.vs v.val with next := some e, spilled := [] } = { s.vs v.val with held := [], next := some (e + 1), got := [(a, p)] } := by
    refine (flushHeld_single 0 e a { s.vs v.val with next := some e, spilled := [] } p hheld rfl).trans ?_
    rw [Stream.deliver_same (by simp [hgot]) hm, ← hsp]
    simp only [hgot, List.nil_append]
  simp only [hheld, hsp, hgot] at hflush
  change execJitterExpiry v s = _
  simp only [execJitterExpiry, hheld, hnext, hsp, hgot, List.filter_nil, List.length_nil, List.length_singleton, Nat.sub_zero, Nat.reduceAdd, hflush]

/-! ### Pictures -/

theorem takePicture_head {time : Word} {l : List (Nat × RtpPacket)} {r : List (List (Nat × RtpPacket))} (h : l.any (fun g => g.2.time == time) = true) :
    takePicture time (l :: r) = (l, r) := by
  simp only [takePicture, h, if_true]

/-- A codec with a meaning leaves nothing free (R341). -/
theorem State.pictureOk_state {n : Nat} {pic : Picture} (h : s.rf (vsReg n 0x20) 31 30 < 2) : (s.pictureOk n pic).2 = s := by
  have hcodec : s.rf (vsReg n 0x20) 31 30 = 0 ∨ s.rf (vsReg n 0x20) 31 30 = 1 := by omega
  rcases hcodec with h0 | h1
  · simp only [State.pictureOk, h0]
  · simp only [State.pictureOk, h1]

theorem State.pictureOk_h265 {n : Nat} {pic : Picture} (h : s.rf (vsReg n 0x20) 31 30 = 1) (hw : 128 ≤ pic.width) (hh : 128 ≤ pic.height)
    (hw' : pic.width ≤ 2880) (hh' : pic.height ≤ 2880) : s.pictureOk n pic = (true, s) := by
  have harea : pic.width * pic.height ≤ 8912896 := Nat.le_trans (Nat.mul_le_mul hw' hh') (by decide)
  have hw2 : pic.width ≤ 8444 := by omega
  have hh2 : pic.height ≤ 8444 := by omega
  simp only [State.pictureOk, h, hw, hh, harea, hw2, hh2, and_self, decide_true, Bool.and_self]

theorem conceal_whole {good : Option Picture} {pic : Picture} (h : pic.lost = []) : conceal good pic = pic := by
  simp only [conceal, h, List.isEmpty_nil, if_true]

theorem cuCount_conceal (good : Option Picture) (pic : Picture) : cuCount (conceal good pic) = cuCount pic := by
  unfold conceal
  split <;> rfl

theorem cuCount_whole {pic : Picture} (hl : pic.lost = []) (hp : pic.predicted = 0) : cuCount pic = 0 := by
  simp only [cuCount, hl, hp, List.length_nil]

theorem exec_pictureDecoded {pic : Picture} (hon : s.srcOn (16 + v.val) = true) : exec (.pictureDecoded v pic) s = .next (s.picture v.val pic) := by
  change execPictureDecoded v pic s = _
  simp only [execPictureDecoded, hon, if_true]

theorem State.picture_broken {pic : Picture} {l : List (Nat × RtpPacket)} {r : List (List (Nat × RtpPacket))} (hq : (s.vs v.val).ended = l :: r)
    (hl : l.any (fun g => g.2.time == pic.rtpTime) = true) (hcodec : s.rf (vsReg v.val 0x20) 31 30 < 2) (hbad : pic.syntaxBad = true)
    (hlost : pic.lost = []) (hpred : pic.predicted = 0) :
    s.picture v.val pic = (s.setVs v.val { s.vs v.val with ended := r }).corruptSample (16 + v.val) := by
  simp only [State.picture, hq, takePicture_head hl, State.pictureOk_state hcodec, hbad, conceal_whole hlost, cuCount_whole hlost hpred, Bool.true_or, if_true]

theorem State.keepPicture_all {t cu : Nat} (h : s.rf (rga 0x530 (0x40 + 16 * t)) 1 0 = 0) : s.keepPicture t cu = (true, s) := by
  simp only [State.keepPicture, h]

theorem State.outForm_planar {n : Nat} (h : s.rf (vsReg n 0x20) 29 28 = 0) : s.outForm n = (0, s) := by
  simp only [State.outForm, h, show (0 : Nat) < 3 by decide, if_true]

theorem State.outForm_perc (n : Nat) : (s.outForm n).2.perc = s.perc := by
  unfold State.outForm
  dsimp only
  split <;> rfl

section
variable {pic : Picture} (hsyn : pic.syntaxBad = false) (hcodec : s.rf (vsReg v.val 0x20) 31 30 = 1) (hw : 128 ≤ pic.width) (hh : 128 ≤ pic.height)
  (hw' : pic.width ≤ 2880) (hh' : pic.height ≤ 2880) (hkeep : s.rf (rga 0x530 (0x40 + 16 * s.srcOwner (16 + v.val))) 1 0 = 0)
include hsyn hcodec hw hh hw' hh' hkeep

/-- A whole picture of one packet becomes a sample and stands in for what later pictures miss (R343). -/
theorem State.picture_whole {g : Nat × RtpPacket} {r : List (List (Nat × RtpPacket))} (hlost : pic.lost = []) (hpred : pic.predicted = 0)
    (hout : s.rf (vsReg v.val 0x20) 29 28 = 0) (hq : (s.vs v.val).ended = [g] :: r) (hg : g.2.time = pic.rtpTime) :
    s.picture v.val pic = (s.setVs v.val { s.vs v.val with
        ended := r
        good := some pic }).addSampleOf (16 + v.val)
      { fmt := if pic.tenBit then 3 else 2
        frame := pic.order
        tStart := g.1
        tEnd := g.1
        ptpLo := pic.rtpTime.toNat
        ptpHi := 0
        exp := 0
        gain := 0
        cu := 0
        flags := 0
        index := 0
        views := [some ⟨pic.width, pic.height, 0, 0, (pic.luma ++ pic.chroma).map (fun v => if pic.tenBit then v * 64 else v)⟩, none, none, none, none]
        embed := []
        hist := []
        zones := [] } := by
  have hl : [g].any (fun g => g.2.time == pic.rtpTime) = true := by simp [hg]
  have hkeep' : ∀ x, (s.setVs v.val x).keepPicture (s.srcOwner (16 + v.val)) 0 = (true, s.setVs v.val x) := fun x => State.keepPicture_all hkeep
  have hout' : ∀ x, (s.setVs v.val x).outForm v.val = (0, s.setVs v.val x) := fun x => State.outForm_planar hout
  simp only [State.picture, hq, takePicture_head hl, State.pictureOk_h265 hcodec hw hh hw' hh', hsyn, conceal_whole hlost, cuCount_whole hlost hpred, hkeep',
    hout', picView, List.map_cons, List.map_nil, List.getLastD_cons, List.getLastD_nil, Bool.not_true, Bool.or_self, bne_self_eq_false, Bool.false_eq_true,
    if_false, if_true]
  rfl

omit hcodec hw hh hw' hh' hsyn hkeep in
theorem resetReg_vsCount (v : Fin 80) : resetReg (vsReg v.val 0x2C) = 0 := by
  revert v
  decide +kernel

omit hcodec hw hh hw' hh' hsyn hkeep in
theorem policyReg_ne_vsCount (v : Fin 80) : rga 0x530 (0x40 + 16 * s.srcOwner (16 + v.val)) ≠ vsReg v.val 0x2C := by
  have ht : s.srcOwner (16 + v.val) < 16 := fld_lt
  have hv := v.isLt
  unfold vsReg srcReg srcPg rga
  rw [if_neg (by omega), if_neg (by omega)]
  omega

/-- The pictures of a stream with missing units: they become a sample all the same, and the one that stands in stays (R343). -/
theorem State.picture_missing (hcu : cuCount pic ≠ 0) :
    ∃ (u : State) (x : Sample) (r : List (List (Nat × RtpPacket))), s.picture v.val pic = u.addSampleOf (16 + v.val) x ∧ x.cu = cuCount pic ∧
      x.flags = 1 ∧ u.perc = (s.setVs v.val { s.vs v.val with ended := r }).perc := by
  have hkeep' : ∀ y, ((s.setVs v.val y).incSat (vsReg v.val 0x2C) 31 16).keepPicture (s.srcOwner (16 + v.val)) (cuCount pic) =
      (true, (s.setVs v.val y).incSat (vsReg v.val 0x2C) 31 16) := by
    intro y
    refine State.keepPicture_all ?_
    unfold State.rf
    rw [State.rd_incSat_ne (resetReg_vsCount v) (by decide) (by decide) (policyReg_ne_vsCount v)]
    exact hkeep
  have hflag : b2n (cuCount pic != 0) = 1 := by
    rw [bne_iff_ne.mpr hcu]
    rfl
  have hcond : (cuCount pic != 0) = true := bne_iff_ne.mpr hcu
  unfold State.picture
  simp only [State.pictureOk_h265 hcodec hw hh hw' hh', hsyn, cuCount_conceal, hcu, hcond, hkeep', Bool.not_true, Bool.or_self, Bool.or_true, Bool.false_eq_true,
    if_false, if_true]
  split
  · exact ⟨_, _, _, rfl, rfl, rfl, State.outForm_perc v.val⟩
  · exact ⟨_, _, _, rfl, rfl, rfl, State.outForm_perc v.val⟩

end

theorem pictureDecoded_missing {pic : Picture} (hon : s.srcOn (16 + v.val) = true) (hsyn : pic.syntaxBad = false)
    (hcodec : s.rf (vsReg v.val 0x20) 31 30 = 1) (hw : 128 ≤ pic.width) (hh : 128 ≤ pic.height) (hw' : pic.width ≤ 2880) (hh' : pic.height ≤ 2880)
    (hkeep : s.rf (rga 0x530 (0x40 + 16 * s.srcOwner (16 + v.val))) 1 0 = 0) (hcu : cuCount pic ≠ 0) (hwf : mapWf dflt s.perc.streams = true)
    (hsw : mapWf (fun _ => []) s.perc.samples = true) :
    ∃ t x, exec (.pictureDecoded v pic) s = .next t ∧ t.waiting (16 + v.val) = s.waiting (16 + v.val) ++ [x] ∧ x.cu = cuCount pic ∧ x.flags = 1 ∧
      (t.vs v.val).good = (s.vs v.val).good := by
  obtain ⟨u, x, r, hp, hx, hfl, hu⟩ := State.picture_missing hsyn hcodec hw hh hw' hh' hkeep hcu
  have hsamples : u.perc.samples = s.perc.samples := congrArg (·.samples) hu
  have hstreams : u.perc.streams = mapSet dflt s.perc.streams v.val { s.vs v.val with ended := r } := congrArg (·.streams) hu
  refine ⟨_, x, (exec_pictureDecoded hon).trans (congrArg _ hp), ?_, hx, hfl, ?_⟩
  · change mapGet _ (mapSet _ u.perc.samples (16 + v.val) (u.waiting (16 + v.val) ++ [x])) (16 + v.val) = _
    unfold State.waiting
    rw [hsamples, mapGet_mapSet hsw, if_pos rfl]
  · change (mapGet dflt u.perc.streams v.val).good = _
    rw [hstreams, mapGet_mapSet hwf, if_pos rfl]

theorem stalled_effect (hon : s.srcOn (16 + v.val) = true) (hs : (s.vs v.val).stalled = false) :
    ∃ t, exec (.stalled v) s = .next t ∧ t.perc = (s.setVs v.val { s.vs v.val with stalled := true }).perc ∧
      (s.canonical = true → t.rb (rga (srcPg (16 + v.val)) oRaw) 3 = true) := by
  have hexec : exec (.stalled v) s = .next (((s.setVs v.val { s.vs v.val with stalled := true }).raise (srcPg (16 + v.val)) 3).logNamed (srcPg (16 + v.val)) evPort 6
      (16 + v.val) (s.srcOwner (16 + v.val))) := by
    change execStalled v s = _
    simp only [execStalled, hon, hs, Bool.not_true, Bool.or_self, Bool.false_eq_true, if_false]
    rfl
  refine ⟨_, hexec, ?_, fun hcan => ?_⟩
  · exact (((OnlyRegsMsix.refl _).raise (srcPg (16 + v.val)) 3).log.logNamed ..).perc
  · rw [State.rb_congr (State.logNamed_regs ..), State.rb_raise_same (s := s.setVs v.val _) (State.canonical_regsWf hcan) (by decide)]

/-! ### Glean -/

theorem glReg_inj {a b : Nat} : glReg a = glReg b ↔ a = b := rga_inj

theorem exec_gleanStart {w : Word} (hw : s.mayWrite f (glReg 0x68) = true) : exec (.gleanStart f w) s = .next (s.wrGlCtl f w) := by
  change execGleanStart f w s = _
  rw [execGleanStart, State.guarded_of_mayWrite hw]

theorem State.wrGlCtl_busy {w : Word} (hst : tbit w 0 = true) (hb : s.rb (glReg 0x6C) 30 = true) : s.wrGlCtl f w = s.wb (glReg 0x6C) 27 true := by
  simp only [State.wrGlCtl, hst, hb, Bool.and_self, if_true]

section
variable {w : Word} (hst : tbit w 0 = true) (hb : s.rb (glReg 0x6C) 30 = false)
  (hin : s.regCheck (fld w 7 4) false (s.rd64 (glReg 0x40)) (s.rd (glReg 0x48)).toNat = .ok)
  (hout : s.regCheck (fld w 7 4) true (s.rd64 (glReg 0x4C)) (4 * (s.rd (glReg 0x54)).toNat) = .ok)
  (hvoc : s.regCheck (fld w 7 4) false (s.rd64 (glReg 0x58)) (48 * 2 ^ s.rf (glReg 0x60) 20 16) = .ok)
include hst hb hin hout hvoc

/-- A request whose text, tokens and vocabulary lie in the tenant's regions starts with the registers as they stand (R353, R358). -/
theorem State.wrGlCtl_start {u : State} (h : s.regsWf) (hu : u = s.store f (glReg 0x68) w 0) :
    s.wrGlCtl f w = ({ u with perc := { u.perc with
      glean := some ((List.range 10).map (fun i => s.rd (glReg (0x40 + 4 * i))) ++ [w32 (fld w 7 4)]) } } : State).wb (glReg 0x6C) 30 true := by
  have hrd : ∀ off, off ≠ 0x68 → u.rd (glReg off) = s.rd (glReg off) := by
    intro off hne
    rw [hu]
    exact State.rd_store_ne h f w 0 (fun he => hne (glReg_inj.mp he))
  have hrd64 : ∀ off, off ≠ 0x68 → off + 4 ≠ 0x68 → u.rd64 (glReg off) = s.rd64 (glReg off) := by
    intro off h0 h4
    unfold State.rd64
    rw [hrd off h0, show glReg off + 4 = glReg (off + 4) from rfl, hrd (off + 4) h4]
  have hcheck : ∀ t wr a n, u.regCheck t wr a n = s.regCheck t wr a n := by
    intro t wr a n
    refine State.regCheck_congr (fun b hb9 => ?_) t wr a n
    rw [hu]
    refine State.rd_store_ne h f w 0 fun he => ?_
    rw [he] at hb9
    exact absurd hb9 (by decide)
  have hsize : u.rf (glReg 0x60) 20 16 = s.rf (glReg 0x60) 20 16 := congrArg (fld · 20 16) (hrd 0x60 (by decide))
  have hwords : (List.range 10).map (fun i => u.rd (glReg (0x40 + 4 * i))) = (List.range 10).map (fun i => s.rd (glReg (0x40 + 4 * i))) := by
    refine List.map_congr_left fun i hi => hrd _ ?_
    have := List.mem_range.mp hi
    omega
  rw [← hcheck, ← hrd64 _ (by decide) (by decide), ← hrd _ (by decide)] at hin hout
  rw [← hcheck, ← hrd64 _ (by decide) (by decide), ← hsize] at hvoc
  simp only [State.wrGlCtl, hst, hb, Bool.and_false, Bool.not_true, Bool.false_eq_true, if_false, ← hu, State.unitAccess_ok hin, State.unitAccess_ok hout,
    State.unitAccess_ok hvoc, hwords, Bool.and_self, if_true]

theorem gleanStart_effect (hcan : s.canonical = true) (hw : s.mayWrite f (glReg 0x68) = true) :
    ∃ t, exec (.gleanStart f w) s = .next t ∧ t.rb (glReg 0x6C) 30 = true ∧
      t.perc.glean = some ((List.range 10).map (fun i => s.rd (glReg (0x40 + 4 * i))) ++ [w32 (fld w 7 4)]) ∧ t.hbm = s.hbm ∧
      OnlyRegs { s with perc := t.perc } t := by
  have h := State.canonical_regsWf hcan
  have hstore := State.store_onlyRegs s f (glReg 0x68) w 0
  have hwf := State.store_regsWf h f (glReg 0x68) w 0
  have hstart := State.wrGlCtl_start hst hb hin hout hvoc h (f := f) rfl
  generalize s.store f (glReg 0x68) w 0 = u at hstart hstore hwf
  unfold OnlyRegs at hstore
  refine ⟨_, (exec_gleanStart hw).trans (congrArg _ hstart), State.rb_wb hwf _ (by decide), rfl, ?_, ?_⟩
  · rw [hstore]
    rfl
  · rw [hstore]
    rfl

end

/-- The tokens of a request in memory, the request gone (R353). -/
def State.gleanWritten (s : State) (dst : Nat) (ts : List Nat) : State :=
  let u := s.hbmWrite dst (ts.flatMap (natLe 4))
  { u with perc := { u.perc with glean := none } }

/-- The state in which a request has ended (R353). -/
def State.gleanEnded (s : State) (dst : Nat) (ts : List Nat) : State :=
  (((s.gleanWritten dst ts).wr (glReg 0x70) (w32 ts.length)).wb (glReg 0x6C) 30 false).wb (glReg 0x6C) 31 true

/-- A request that ends shows its count and DONE, and is no longer BUSY (R353). -/
theorem State.gleanEnded_reads (h : s.regsWf) (dst : Nat) (ts : List Nat) :
    (s.gleanEnded dst ts).regsWf ∧ (s.gleanEnded dst ts).rd (glReg 0x70) = w32 ts.length ∧ (s.gleanEnded dst ts).rb (glReg 0x6C) 31 = true ∧
      (s.gleanEnded dst ts).rb (glReg 0x6C) 30 = false := by
  have hne : glReg 0x70 ≠ glReg 0x6C := fun he => absurd (glReg_inj.mp he) (by decide)
  have hwf : (s.gleanWritten dst ts).regsWf := h
  unfold State.gleanEnded
  generalize s.gleanWritten dst ts = u at hwf ⊢
  have hwf1 : (u.wr (glReg 0x70) (w32 ts.length)).regsWf := State.wr_regsWf hwf
  have hwf2 : ((u.wr (glReg 0x70) (w32 ts.length)).wb (glReg 0x6C) 30 false).regsWf := State.wb_regsWf hwf1
  refine ⟨State.wb_regsWf hwf2, ?_, State.rb_wb hwf2 _ (by decide), ?_⟩
  · rw [State.rd_wb hwf2, if_neg hne, State.rd_wb hwf1, if_neg hne, State.rd_wr_same hwf]
  · unfold State.rb
    rw [State.rd_wb hwf2, if_pos rfl, tbit_setBit_ne (by decide) (by decide)]
    exact State.rb_wb hwf1 _ (by decide)

section
variable {r : List Word} {ts : List Nat} {ovf : Bool} (hr : s.perc.glean = some r)
  (htok : s.tokens ((r.getD 6 0).toNat + (r.getD 7 0).toNat * 2 ^ 32) (2 ^ nfld (r.getD 8 0).toNat 20 16) (r.getD 9 0).toNat (r.getD 2 0).toNat (r.getD 5 0).toNat
    (s.hbmRead ((r.getD 0 0).toNat + (r.getD 1 0).toNat * 2 ^ 32) (r.getD 2 0).toNat) = (ts, ovf))
include hr htok

theorem exec_gleanDone :
    exec .gleanDone s = .next (if ovf then (s.gleanEnded ((r.getD 3 0).toNat + (r.getD 4 0).toNat * 2 ^ 32) ts).wb (glReg 0x6C) 29 true
      else s.gleanEnded ((r.getD 3 0).toNat + (r.getD 4 0).toNat * 2 ^ 32) ts) := by
  change execGleanDone s = _
  simp only [execGleanDone, hr, State.hbmRead_length, htok, State.gleanEnded, State.gleanWritten]

theorem gleanDone_effect (hcan : s.canonical = true) :
    ∃ t, exec .gleanDone s = .next t ∧ t.hbm = (s.hbmWrite ((r.getD 3 0).toNat + (r.getD 4 0).toNat * 2 ^ 32) (ts.flatMap (natLe 4))).hbm ∧
      t.rd (glReg 0x70) = w32 ts.length ∧ t.rb (glReg 0x6C) 31 = true ∧ t.rb (glReg 0x6C) 30 = false ∧ (ovf = true → t.rb (glReg 0x6C) 29 = true) ∧
      t.perc = { s.perc with glean := none } := by
  have hne : glReg 0x70 ≠ glReg 0x6C := fun he => absurd (glReg_inj.mp he) (by decide)
  obtain ⟨hwf, hcount, hdone, hbusy⟩ := State.gleanEnded_reads (State.canonical_regsWf hcan) ((r.getD 3 0).toNat + (r.getD 4 0).toNat * 2 ^ 32) ts
  refine ⟨_, exec_gleanDone hr htok, ?_⟩
  cases ovf with
  | false => exact ⟨rfl, hcount, hdone, hbusy, fun h => absurd h (by decide), rfl⟩
  | true =>
    refine ⟨rfl, ?_, ?_, ?_, fun _ => State.rb_wb hwf _ (by decide), rfl⟩
    · rw [if_pos rfl, State.rd_wb hwf, if_neg hne, hcount]
    · unfold State.rb
      rw [if_pos rfl, State.rd_wb hwf, if_pos rfl, tbit_setBit_ne (by decide) (by decide)]
      exact hdone
    · unfold State.rb
      rw [if_pos rfl, State.rd_wb hwf, if_pos rfl, tbit_setBit_ne (by decide) (by decide)]
      exact hbusy

end

/-- Settles O31: a packet that is next passes the held ones by and is delivered; a picture goes through its checks in order; a request keeps the
registers it started with until its tokens are written. -/
theorem videoStreams : Obligations.VideoStreams := by
  refine ⟨fun s => ⟨fun p v x hone hheld hnext hx => ⟨fun hroom => ?_, fun hfull => ?_⟩, fun p h => exec_rtpPacket_none h,
    fun v e a p k hheld hnext hsp hgot hm => exec_jitterExpiry_gap hheld hnext hsp hgot hm,
    fun v pic l r hon hq hl hcodec hbad hlost hpred => (exec_pictureDecoded hon).trans (congrArg _ (State.picture_broken hq hl hcodec hbad hlost hpred)),
    fun v pic g r hon hsyn hcodec hw hh hw' hh' hkeep => ⟨fun hlost hpred hout hq hg => (exec_pictureDecoded hon).trans
      (congrArg _ (State.picture_whole hsyn hcodec hw hh hw' hh' hkeep hlost hpred hout hq hg)),
      fun hcu hwf hsw => pictureDecoded_missing hon hsyn hcodec hw hh hw' hh' hkeep hcu hwf hsw⟩,
    fun v hon hs => stalled_effect hon hs⟩,
    fun s f v hcan => ⟨fun hw hst => ⟨fun hb => (exec_gleanStart hw).trans (congrArg _ (State.wrGlCtl_busy hst hb)),
      fun hb hin hout hvoc => gleanStart_effect hst hb hin hout hvoc hcan hw⟩, fun r ts ovf hr htok => gleanDone_effect hr htok hcan⟩⟩
  · have hexec := (exec_rtpPacket_one hone).trans (congrArg _ ((State.vsArrive_next hheld hnext hx).trans (if_neg (Nat.not_lt.mpr hroom))))
    refine ⟨fun hsame => ⟨fun hm => ?_, fun hm => ?_⟩, fun hother hm => ?_⟩
    · exact hexec.trans (congrArg (fun y => Host.Outcome.next (s.setVs v.val y)) (Stream.deliver_same (x := { x with next := some (p.seq.toNat + 1) }) hsame hm))
    · exact hexec.trans (congrArg (fun y => Host.Outcome.next (s.setVs v.val y)) (Stream.deliver_marker (x := { x with next := some (p.seq.toNat + 1) }) hsame hm))
    · exact hexec.trans (congrArg (fun y => Host.Outcome.next (s.setVs v.val y)) (Stream.deliver_other (x := { x with next := some (p.seq.toNat + 1) }) hother hm))
  · exact (exec_rtpPacket_one hone).trans (congrArg _ ((State.vsArrive_next hheld hnext hx).trans (if_pos hfull)))

end Sys2Proof.Machine
end

section
/-!
Ethernet reception, the links and the queue registers (R359 to R367): from these the obligation EthReception.
-/
namespace Sys2Proof.Machine

variable {s : State} {port : Fin 4} {frame : List Byte}

/-! ### Frames dropped before they are classified -/

theorem exec_ethFrameReceived_fcs (hup : s.ethUp port.val = true) :
    exec (.ethFrameReceived port false frame) s = .next ((s.incSat (ethReg port.val 0x180) 31 16).raise (ethPage port.val) 4) := by
  change execEthFrameReceived port false frame s = _
  simp only [execEthFrameReceived, hup, Bool.not_true, Bool.not_false, Bool.false_eq_true, if_false, if_true, State.ethDrop]

theorem exec_ethFrameReceived_length (hup : s.ethUp port.val = true) (hlen : frame.length + 4 < 64 ∨ s.ethMax port.val < frame.length + 4) :
    exec (.ethFrameReceived port true frame) s = .next ((s.incSat (ethReg port.val 0x180) 15 0).raise (ethPage port.val) 4) := by
  change execEthFrameReceived port true frame s = _
  simp only [execEthFrameReceived, hup, Bool.not_true, Bool.false_eq_true, if_false, if_pos hlen, State.ethDrop]

section
variable (hup : s.ethUp port.val = true) (hmin : 64 ≤ frame.length + 4) (hmax : frame.length + 4 ≤ s.ethMax port.val)
include hup hmin hmax

theorem exec_ethFrameReceived_foreign (hdst : s.addrOk port.val (beAt frame 0 6) = false) :
    exec (.ethFrameReceived port true frame) s = .next ((s.incSat (ethReg port.val 0x184) 31 16).raise (ethPage port.val) 4) := by
  have hlen : ¬(frame.length + 4 < 64 ∨ s.ethMax port.val < frame.length + 4) := by omega
  change execEthFrameReceived port true frame s = _
  simp only [execEthFrameReceived, hup, Bool.not_true, Bool.not_false, Bool.false_eq_true, if_false, if_true, if_neg hlen, hdst, State.ethDrop]

theorem exec_ethFrameReceived_accepted (hdst : s.addrOk port.val (beAt frame 0 6) = true) :
    exec (.ethFrameReceived port true frame) s = .next (s.classify port.val frame) := by
  have hlen : ¬(frame.length + 4 < 64 ∨ s.ethMax port.val < frame.length + 4) := by omega
  change execEthFrameReceived port true frame s = _
  simp only [execEthFrameReceived, hup, Bool.not_true, Bool.false_eq_true, if_false, if_neg hlen, hdst]

end

/-! ### Classification and delivery -/

theorem ethType_untagged (h : beAt frame 12 2 ≠ 0x8100) : ethType frame = (beAt frame 12 2, 14) := if_neg h

theorem State.classify_macControl {p : Nat} (h : beAt frame 12 2 = 0x8808) :
    s.classify p frame = (s.incSat (ethReg p 0x18C) 31 16).raise (ethPage p) 4 := by
  have htype : (ethType frame).1 = 0x8808 := by
    rw [ethType_untagged (by rw [h]; decide), h]
  simp only [State.classify, htype, if_true, State.ethDrop]

/-- An untagged frame that is neither MAC control nor PTP nor of a stream goes to the queue of the port's default priority (R361). -/
theorem State.classify_untagged {p tci : Nat} (hctl : beAt frame 12 2 ≠ 0x8808) (htag : beAt frame 12 2 ≠ 0x8100) (hrtp : rtpOf p frame = none)
    (hptp : ptpAt frame = none) (htci : tci = s.rf (ethReg p 0x40) 20 18 * 8192 + s.rf (ethReg p 0x44) 11 0) :
    s.classify p frame = s.ethDeliver p (s.rf (ethReg p 0x48) (3 * (tci / 8192) + 2) (3 * (tci / 8192))) (s.rxStamp p) tci 0 frame := by
  have htype : (ethType frame).1 ≠ 0x8808 := by
    rw [ethType_untagged htag]
    exact hctl
  have htagged : (beAt frame 12 2 == 0x8100) = false := beq_false_of_ne htag
  have htci' : fld (s.rd (ethReg p 0x40)) 20 18 * 8192 + s.rf (ethReg p 0x44) 11 0 = tci := htci.symm
  simp only [State.classify, htype, htagged, hrtp, hptp, htci', Bool.and_false, Bool.false_and, Bool.false_eq_true, if_false,
    show b2n false = 0 from rfl]

section
variable {p r cons d : Nat} (hq : s.ethQ r = true) (hring : s.regCheck (s.ethOwner r) true (s.ethRing r) 64 = .ok)
  (hcons : cons = leNat (s.hbmRead (s.ethRing r + 8) 8)) (hd : d = s.ethRing r + 64 + 32 * (cons % s.ethSize r))
  (hdesc : s.regCheck (s.ethOwner r) true d 32 = .ok)
include hring hcons hd hdesc

theorem State.ringHead_ok : s.ringHead p r = (some (leNat (s.hbmRead (s.ethRing r) 8), cons, d), s) := by
  simp only [State.ringHead, State.unitAccess_ok hring, ← hcons, ← hd, State.unitAccess_ok hdesc, Bool.not_true, Bool.false_eq_true, if_false, if_true]

include hq in
/-- A frame that fits in the next buffer of a running queue is stored there (R362, R364). -/
theorem State.ethDeliver_stored {q stamp tci prod a : Nat} (hr : r = rxqReg p q 0) (hprod : prod = leNat (s.hbmRead (s.ethRing r) 8)) (hne : prod ≠ cons)
    (ha : a = leNat (s.hbmRead d 8)) (hfit : frame.length ≤ leNat (s.hbmRead (d + 8) 2))
    (hbuf : s.regCheck (s.ethOwner r) true a frame.length = .ok) :
    s.ethDeliver p q stamp tci 0 frame = ((s.hbmWrite a frame).hbmWrite (d + 10) (natLe 2 frame.length ++ natLe 1 0 ++ zeros 1 ++ natLe 2 tci ++
      natLe 4 (stamp / 1000000000) ++ natLe 4 (stamp % 1000000000) ++ zeros 8)).bumpRing r cons := by
  have hhead := State.ringHead_ok (p := p) hring hcons hd hdesc
  rw [← hprod] at hhead
  rw [ha] at hbuf
  rw [ha]
  simp only [State.ethDeliver, ← hr, hq, hhead, hne, Nat.not_lt.mpr hfit, State.unitAccess_ok hbuf, Bool.not_true, Bool.false_eq_true, if_false]

end

/-! ### Links -/

/-- The link status register of a port is no IRQ_RAW. -/
theorem ethReg_ne_raw (p q : Nat) : ethReg p 0x54 ≠ rga q oRaw := rga_ne_of_off (by decide) (by decide) (by decide)

/-- A link change: its bit in the link status, its event, its log entry (R366). -/
def State.linkSet (s : State) (p : Nat) (up : Bool) (e : Nat) : State :=
  ((s.wb (ethReg p 0x54) 0 up).raise (ethPage p) e).logNamed (ethPage p) evPort 2 e 255

theorem State.linkSet_effect (h : s.regsWf) (p : Nat) (up : Bool) {e : Nat} (he : e < 32) :
    (s.linkSet p up e).rb (ethReg p 0x54) 0 = up ∧ (s.linkSet p up e).rb (rga (ethPage p) oRaw) e = true ∧ OnlyRegsLog s (s.linkSet p up e) := by
  have hwf : (s.wb (ethReg p 0x54) 0 up).regsWf := State.wb_regsWf h
  refine ⟨?_, ?_, (((OnlyRegsMsix.refl s).wb ..).raise ..).log.logNamed ..⟩
  · unfold State.linkSet
    rw [State.rb_congr (State.logNamed_regs ..), State.rb_raise_ne hwf (ethReg_ne_raw p (ethPage p)), State.rb_wb h _ (by decide)]
  · unfold State.linkSet
    rw [State.rb_congr (State.logNamed_regs ..), State.rb_raise_same hwf he]

/-- A port with nothing to send loses nothing but its state (R365). -/
theorem State.ethLose_idle {p : Nat} (hh : (s.ethPort p).heads = []) (hw : (s.ethPort p).wire = none) : s.ethLose p = s.setEth p default := by
  simp only [State.ethLose, hh, hw, List.foldl_nil]

theorem linkDown_effect (hcan : s.canonical = true) (hup : s.ethUp port.val = true) (hh : (s.ethPort port.val).heads = [])
    (hw : (s.ethPort port.val).wire = none) :
    ∃ t, exec (.linkDown port) s = .next t ∧ t.rb (ethReg port.val 0x54) 0 = false ∧ t.rb (rga (ethPage port.val) oRaw) 0 = true ∧
      OnlyRegsLog { s with eth := mapSet dflt s.eth port.val default } t := by
  have hexec : exec (.linkDown port) s = .next ((s.setEth port.val default).linkSet port.val false 0) := by
    change execLinkDown port s = _
    simp only [execLinkDown, hup, Bool.not_true, Bool.false_eq_true, if_false]
    rw [State.ethLose_idle (s := s.wb (ethReg port.val 0x54) 0 false) hh hw]
    rfl
  exact ⟨_, hexec, State.linkSet_effect (s := s.setEth port.val default) (State.canonical_regsWf hcan) port.val false (by decide)⟩

theorem linkUp_effect (hcan : s.canonical = true) (hon : s.ethOn port.val = true) (hup : s.ethUp port.val = false) :
    ∃ t, exec (.linkUp port) s = .next t ∧ t.rb (ethReg port.val 0x54) 0 = true ∧ t.rb (rga (ethPage port.val) oRaw) 1 = true ∧ OnlyRegsLog s t := by
  have hexec : exec (.linkUp port) s = .next (s.linkSet port.val true 1) := by
    change execLinkUp port s = _
    simp only [execLinkUp, hon, hup, Bool.not_true, Bool.or_self, Bool.false_eq_true, if_false]
    rfl
  exact ⟨_, hexec, State.linkSet_effect (State.canonical_regsWf hcan) port.val true (by decide)⟩

theorem silent_effect (hcan : s.canonical = true) (hon : s.ethOn port.val = true) (hms : s.rf (ethReg port.val 0x58) 15 0 ≠ 0) :
    ∃ t, exec (.silent port false) s = .next t ∧ t.rb (rga (ethPage port.val) oRaw) 3 = true ∧ OnlyRegsLog s t ∧
      exec (.silent port true) s = .next s := by
  have hexec : exec (.silent port false) s = .next ((s.raise (ethPage port.val) 3).logNamed (ethPage port.val) evPort 2 3 255) := by
    change execSilent port false s = _
    simp only [execSilent, hon, beq_false_of_ne hms, Bool.not_true, Bool.or_self, Bool.false_eq_true, if_false]
  refine ⟨_, hexec, ?_, ((OnlyRegsMsix.refl s).raise ..).log.logNamed .., ?_⟩
  · rw [State.rb_congr (State.logNamed_regs ..), State.rb_raise_same (State.canonical_regsWf hcan) (by decide)]
  · change execSilent port true s = _
    rfl

/-! ### Queue registers -/

section
variable {f : Func} {tx : Bool} {q : Fin 8} {v : Word} {r : Nat} (hr : r = (if tx then txqReg port.val q.val 0 else rxqReg port.val q.val 0))
  (hw : s.mayWrite f r = true)
include hr hw

theorem exec_queueRestart : exec (.queueRestart f port tx q v) s = .next (s.wrEthQ f port.val tx q.val v) := by
  change execQueueRestart f port tx q v s = _
  rw [execQueueRestart, ← hr, State.guarded_of_mayWrite hw]

theorem exec_queueRestart_owner (ho : 8 < fld v 23 20) : exec (.queueRestart f port tx q v) s = .next s :=
  (exec_queueRestart hr hw).trans (congrArg _ (if_pos ho))

theorem exec_queueRestart_receive (ho : fld v 23 20 ≤ 8) (htx : tx = false) :
    exec (.queueRestart f port tx q v) s = .next (s.store f r (setBit v 30 false) 0) := by
  rw [exec_queueRestart hr hw]
  subst htx hr
  simp only [State.wrEthQ, Nat.not_lt.mpr ho, if_false, Bool.false_eq_true, Bool.false_and]

theorem exec_queueRestart_transmit (ho : fld v 23 20 ≤ 8) (htx : tx = true) (hrun : (s.store f r v 0).ethQ r = true) :
    exec (.queueRestart f port tx q v) s = .next (s.store f r v 0) := by
  rw [exec_queueRestart hr hw]
  subst htx hr
  rw [if_pos rfl] at hrun ⊢
  simp only [State.wrEthQ, Nat.not_lt.mpr ho, if_false, if_true, hrun, Bool.not_true, Bool.and_false, Bool.false_eq_true]

end

/-- Settles O32: a frame through the checks in their order down to the buffer of its queue; the link flags and events; a queue register by its owner
field. -/
theorem ethReception : Obligations.EthReception := by
  refine ⟨fun s port frame hup => ⟨exec_ethFrameReceived_fcs hup, exec_ethFrameReceived_length hup, fun hmin hmax =>
    ⟨exec_ethFrameReceived_foreign hup hmin hmax, fun hdst hctl => ?_, ?_⟩⟩,
    fun s port hcan => ⟨linkDown_effect hcan, linkUp_effect hcan, silent_effect hcan,
      fun f tx q v r hr hw => ⟨exec_queueRestart_owner hr hw, exec_queueRestart_receive hr hw, exec_queueRestart_transmit hr hw⟩⟩⟩
  · rw [exec_ethFrameReceived_accepted hup hmin hmax hdst, State.classify_macControl hctl]
  · intro tci r d a prod cons hdst hctl htag hrtp hptp htci hr hq hprod hcons hne hd ha hring hdesc hfit hbuf
    rw [exec_ethFrameReceived_accepted hup hmin hmax hdst, State.classify_untagged hctl htag hrtp hptp htci,
      State.ethDeliver_stored hq hring hcons hd hdesc hr hprod hne ha hfit hbuf]

end Sys2Proof.Machine
end

section
/-!
Ethernet transmission (R362 to R365, R281): from these the obligation EthTransmission.
-/
namespace Sys2Proof.Machine

variable {s : State} {port : Fin 4} {q : Fin 8}

/-! ### Polls -/

theorem foldl_fixed {α : Type} {g : State → α → State} {l : List α} (h : ∀ x ∈ l, g s x = s) : l.foldl g s = s := by
  induction l with
  | nil => rfl
  | cons x l ih =>
    rw [List.foldl_cons, h x (by simp)]
    exact ih fun y hy => h y (by simp [hy])

/-- A fold over the numbers below n in which one number alone acts. -/
theorem foldl_range_single {g : State → Nat → State} {t : State} {n k : Nat} (hk : k < n) (hbefore : ∀ j, j < k → g s j = s) (hat : g s k = t)
    (hafter : ∀ j, k < j → j < n → g t j = t) : (List.range n).foldl g s = t := by
  induction n with
  | zero => exact absurd hk (Nat.not_lt_zero k)
  | succ n ih =>
    rw [List.range_succ, List.foldl_append, List.foldl_cons, List.foldl_nil]
    rcases Nat.lt_succ_iff_lt_or_eq.mp hk with hlt | rfl
    · rw [ih hlt fun j hj hn => hafter j hj (Nat.lt_succ_of_lt hn)]
      exact hafter n hlt (Nat.lt_succ_self n)
    · rw [foldl_fixed fun j hj => hbefore j (List.mem_range.mp hj), hat]

/-- A queue that does not run fetches nothing (R362). -/
theorem State.txFetch_stopped {p k : Nat} (h : s.ethQ (txqReg p k 0) = false) : s.txFetch p k = s := by
  simp only [State.txFetch, h, Bool.not_false, Bool.true_or, if_true]

theorem State.ethOn_of_ethUp {p : Nat} (h : s.ethUp p = true) : s.ethOn p = true :=
  (Bool.and_eq_true_iff.mp h).1

/-- A poll of a port one queue of which runs, before and after its head is fetched. -/
theorem exec_queuePoll_single {t : State} (hup : s.ethUp port.val = true)
    (hothers : ∀ k, k < 8 → k ≠ q.val → s.ethQ (txqReg port.val k 0) = false) (hat : s.txFetch port.val q.val = t)
    (hafter : ∀ k, k < 8 → k ≠ q.val → t.ethQ (txqReg port.val k 0) = s.ethQ (txqReg port.val k 0)) : exec (.queuePoll port) s = .next t := by
  have hfold : (List.range 8).foldl (fun s q => s.txFetch port.val q) s = t := by
    have hq := q.isLt
    refine foldl_range_single hq (fun j hj => State.txFetch_stopped (hothers j (by omega) (by omega))) hat fun j hj hn => State.txFetch_stopped ?_
    rw [hafter j hn (by omega), hothers j hn (by omega)]
  change execQueuePoll port s = _
  rw [execQueuePoll, if_pos (State.ethOn_of_ethUp hup), hfold]

theorem State.ethHead_empty {p k : Nat} (h : (s.ethPort p).heads = []) : s.ethHead p k = none := by
  simp only [State.ethHead, h, List.find?_nil, Option.map_none]

section
variable {r d a len prod cons : Nat} (hup : s.ethUp port.val = true) (hr : r = txqReg port.val q.val 0) (hq : s.ethQ r = true)
  (hheads : (s.ethPort port.val).heads = []) (hwire : (s.ethPort port.val).wire = none) (hprod : prod = leNat (s.hbmRead (s.ethRing r) 8))
  (hcons : cons = leNat (s.hbmRead (s.ethRing r + 8) 8)) (hne : prod ≠ cons) (hd : d = s.ethRing r + 64 + 32 * (cons % s.ethSize r))
  (ha : a = leNat (s.hbmRead d 8)) (hl : len = leNat (s.hbmRead (d + 8) 2)) (hmin : 14 ≤ len) (hmax : len + 4 ≤ s.ethMax port.val)
  (hring : s.regCheck (s.ethOwner r) true (s.ethRing r) 64 = .ok) (hdesc : s.regCheck (s.ethOwner r) true d 32 = .ok)
  (hbuf : s.regCheck (s.ethOwner r) false a len = .ok) (hnolaunch : tbit (w32 (leNat (s.hbmRead (d + 10) 1))) 0 = false) (hfit : len ≤ 65536)
include hup hr hq hheads hwire hprod hcons hne hd ha hl hmin hmax hring hdesc hbuf hfit

include hnolaunch in
/-- The frame of the next descriptor becomes the head of its queue (R362). -/
theorem State.txFetch_head (htype : (ethType (s.hbmRead a len)).1 ≠ 0x8808) :
    s.txFetch port.val q.val = s.setHead port.val q.val (some ⟨d, s.hbmRead a len, none, s.rb r 30, false⟩) := by
  have hhead := State.ringHead_ok (p := port.val) hring hcons hd hdesc
  rw [← hprod] at hhead
  have hlen : ¬(len < 14 ∨ s.ethMax port.val < len + 4) := by omega
  have hroom : ¬65536 < 0 + len := by omega
  simp only [State.txFetch, ← hr, hq, State.ethHead_empty hheads, hwire, hhead, hne, ← hl, ← ha, if_neg hlen, State.unitAccess_ok hbuf, hup, hheads, List.map_nil,
    List.sum_nil, if_neg hroom, htype, hnolaunch, Option.isSome_none, Bool.not_true, Bool.or_self, Bool.false_eq_true, if_false]

/-- A MAC control frame is never sent: its descriptor is finished with one of the STATUS codes of an unsent frame (R359). -/
theorem State.txFetch_macControl (htype : (ethType (s.hbmRead a len)).1 = 0x8808) :
    s.txFetch port.val q.val = s.take.2.txFinish port.val q.val d (1 + (Config.freeWord s.take.1).toNat % 4) 0 := by
  have hhead := State.ringHead_ok (p := port.val) hring hcons hd hdesc
  rw [← hprod] at hhead
  have hlen : ¬(len < 14 ∨ s.ethMax port.val < len + 4) := by omega
  have hroom : ¬65536 < 0 + len := by omega
  simp only [State.txFetch, ← hr, hq, State.ethHead_empty hheads, hwire, hhead, hne, ← hl, ← ha, if_neg hlen, State.unitAccess_ok hbuf, hup, hheads, List.map_nil,
    List.sum_nil, if_neg hroom, htype, Option.isSome_none, Bool.not_true, Bool.or_self, Bool.false_eq_true, if_false, if_true]

end

/-! ### Finishing a descriptor -/

section
variable {p d st stamp : Nat} (hdesc : s.regCheck (s.ethOwner (txqReg p q.val 0)) true d 32 = .ok)
  (hring : s.regCheck (s.ethOwner (txqReg p q.val 0)) true (s.ethRing (txqReg p q.val 0)) 64 = .ok)
include hdesc hring

theorem State.txFinish_sent {w : State}
    (hw : w = (s.hbmWrite (d + 11) [0]).hbmWrite (d + 20) (natLe 4 (stamp / 1000000000) ++ natLe 4 (stamp % 1000000000))) :
    s.txFinish p q.val d 0 stamp = w.bumpRing (txqReg p q.val 0) (leNat (w.hbmRead (s.ethRing (txqReg p q.val 0) + 8) 8)) := by
  subst hw
  simp only [State.txFinish, State.unitAccess_ok hdesc, State.unitAccess_ok hring, Bool.and_self, Bool.not_true, Bool.false_eq_true, if_false, if_true]
  rfl

/-- A descriptor of an unsent frame: memory, the drop count of its queue and the drop event change (R362, R367). -/
theorem State.txFinish_unsent (hst : st ≠ 0) : ∃ u : State, u.regs = s.regs ∧ s.txFinish p q.val d st stamp = u.qDrop p (txqReg p q.val 0) := by
  simp only [State.txFinish, State.unitAccess_ok hdesc, State.unitAccess_ok hring, hst, Bool.and_self, Bool.not_true, Bool.false_eq_true, if_false]
  refine ⟨_, ?_, rfl⟩
  simp only [State.bumpRing, State.hbmWrite_regs]

end

/-- A drop on a queue starts and stops no queue. -/
theorem State.ethQ_qDrop (h : s.regsWf) {p k j : Nat} (hj : j < 8) :
    (s.qDrop p (txqReg p k 0)).ethQ (txqReg p j 0) = s.ethQ (txqReg p j 0) := by
  have hcount : txqReg p j 0 ≠ txqReg p k 0 + 0xC := by
    unfold txqReg ethReg rga
    omega
  have hraw : txqReg p j 0 ≠ rga (ethPage p) oRaw := by
    unfold txqReg ethReg
    exact rga_ne_of_off (by omega) (by decide) (by unfold oRaw; omega)
  have hwf : (s.addSat (txqReg p k 0 + 0xC) 1).regsWf := State.wr_regsWf h
  have hrd : (s.qDrop p (txqReg p k 0)).rd (txqReg p j 0) = s.rd (txqReg p j 0) := by
    unfold State.qDrop State.ethDrop
    rw [State.rd_raise_ne hwf hraw]
    exact State.rd_wr_ne h _ hcount
  unfold State.ethQ State.rb
  rw [hrd]

theorem queuePoll_macControl {r d a len prod cons : Nat} (hcan : s.canonical = true) (hup : s.ethUp port.val = true)
    (hothers : ∀ k, k < 8 → k ≠ q.val → s.ethQ (txqReg port.val k 0) = false) (hr : r = txqReg port.val q.val 0) (hq : s.ethQ r = true)
    (hheads : (s.ethPort port.val).heads = []) (hwire : (s.ethPort port.val).wire = none) (hprod : prod = leNat (s.hbmRead (s.ethRing r) 8))
    (hcons : cons = leNat (s.hbmRead (s.ethRing r + 8) 8)) (hne : prod ≠ cons) (hd : d = s.ethRing r + 64 + 32 * (cons % s.ethSize r))
    (ha : a = leNat (s.hbmRead d 8)) (hl : len = leNat (s.hbmRead (d + 8) 2)) (hmin : 14 ≤ len) (hmax : len + 4 ≤ s.ethMax port.val)
    (hring : s.regCheck (s.ethOwner r) true (s.ethRing r) 64 = .ok) (hdesc : s.regCheck (s.ethOwner r) true d 32 = .ok)
    (hbuf : s.regCheck (s.ethOwner r) false a len = .ok) (hfit : len ≤ 65536) (htype : (ethType (s.hbmRead a len)).1 = 0x8808) :
    ∃ t st, exec (.queuePoll port) s = .next t ∧ 1 ≤ st ∧ st ≤ 4 ∧ t = s.take.2.txFinish port.val q.val d st 0 := by
  have hat := State.txFetch_macControl hup hr hq hheads hwire hprod hcons hne hd ha hl hmin hmax hring hdesc hbuf hfit htype
  subst hr
  have hst : 1 + (Config.freeWord s.take.1).toNat % 4 ≤ 4 := by omega
  obtain ⟨u, hu, hfin⟩ := State.txFinish_unsent (s := s.take.2) (q := q) (d := d) (p := port.val) (stamp := 0) (st := 1 + (Config.freeWord s.take.1).toNat % 4)
    ((State.regCheck_congr (s := s) (t := s.take.2) (fun _ _ => rfl) ..).trans hdesc) ((State.regCheck_congr (s := s) (t := s.take.2) (fun _ _ => rfl) ..).trans hring) (by omega)
  have huwf : u.regsWf := by
    unfold State.regsWf
    rw [hu]
    exact State.canonical_regsWf hcan
  refine ⟨_, 1 + (Config.freeWord s.take.1).toNat % 4, exec_queuePoll_single hup hothers hat fun k hk _ => ?_, Nat.le_add_right 1 _, hst, rfl⟩
  rw [hfin, State.ethQ_qDrop huwf hk]
  unfold State.ethQ
  rw [State.rb_congr hu, State.rb_congr hu]
  rfl

/-! ### The choice of the next frame -/

theorem find_single (q : Fin 8) {P : Nat → Bool} (h : ∀ k, P k = (k == q.val)) : ((List.range 8).reverse).find? P = some q.val := by
  rw [show P = fun k => k == q.val from funext h]
  clear h P
  revert q
  decide

section
variable {h : EthHead} (hup : s.ethUp port.val = true) (hheads : (s.ethPort port.val).heads = [(q.val, h)]) (hwire : (s.ethPort port.val).wire = none)
  (hfwd : (s.ethPort port.val).fwd = [])
include hheads

theorem State.ethHead_single (k : Nat) : s.ethHead port.val k = if k = q.val then some h else none := by
  unfold State.ethHead
  rw [hheads]
  by_cases hk : k = q.val
  · simp [hk]
  · simp [hk, Ne.symm hk]

/-- A port's only head waits for no other (R365). -/
theorem State.blocked_single (len : Nat) : s.blocked port.val q.val len = false := by
  unfold State.blocked
  rw [hheads]
  simp

include hup hwire hfwd

/-- A port whose only head is eligible takes it: onto the wire, or out of its queue as late (R281, R365). -/
theorem State.ethChoose_single {u : State} {late : Bool} (n : Nat) (hel : s.eligible h = true) (hu : u = s.setHead port.val q.val none)
    (hlate : late = match h.launch with | some t => decide (((s.rd (mpReg (0x144 + 0x20 * port.val))).toNat : Int) < s.lateness t) | none => false) :
    s.ethChoose port.val (n + 1) = if late then
        ((((u.addSat (mpReg (0x148 + 0x20 * port.val)) 1).raise 0x400 6).logNamed 0x400 evTimebase 6 6 255).txFinish port.val q.val h.desc 1 0).ethChoose port.val n
      else u.setEth port.val { u.ethPort port.val with wire := some (some q.val, h.desc, u.txStamp port.val, wireFrame h.frame) } := by
  have hq := State.ethHead_single hheads q.val
  rw [if_pos rfl] at hq
  conv => lhs; unfold State.ethChoose
  simp only [hwire, hup, hfwd, Option.isSome_none, Bool.not_true, Bool.or_self, Bool.false_eq_true, if_false]
  rw [find_single q]
  · simp only [hq, ← hu, hlate] <;> rfl
  · intro k
    by_cases hk : k = q.val
    · subst hk
      simp only [hq, hel, State.blocked_single hheads, Bool.not_false, Bool.and_self, beq_self_eq_true]
    · simp only [State.ethHead_single hheads k, hk, if_false, beq_false_of_ne hk]

theorem exec_ethFrameBoundary_now {u : State} (hgate : h.gated = false) (hu : u = s.setHead port.val q.val none) (hl : h.launch = none) :
    exec (.ethFrameBoundary port) s
      = .next (u.setEth port.val { u.ethPort port.val with wire := some (some q.val, h.desc, u.txStamp port.val, wireFrame h.frame) }) := by
  have hel : s.eligible h = true := by simp only [State.eligible, hgate, hl, Bool.false_eq_true, if_false]
  change execEthFrameBoundary port s = _
  rw [execEthFrameBoundary, State.ethChoose_single hup hheads hwire hfwd 8 hel hu (late := false) (by rw [hl])]
  rfl

omit hup hwire hfwd in
theorem exec_launchTime_choose (hgate : h.gated = false) {t : Nat} (hl : h.launch = some t) (hdue : 0 ≤ s.lateness t) :
    exec (.launchTime port q) s = .next (s.ethChoose port.val 9) ∧ s.eligible h = true := by
  have hel : s.eligible h = true := by simp only [State.eligible, hgate, hl, hdue, decide_true, Bool.false_eq_true, if_false]
  have hq := State.ethHead_single hheads q.val
  rw [if_pos rfl] at hq
  refine ⟨?_, hel⟩
  change execLaunchTime port q s = _
  simp only [execLaunchTime, hq, hgate, hl, hel, Option.isSome_some, Bool.not_false, Bool.and_self, if_true]

theorem exec_launchTime_sent {u : State} (hgate : h.gated = false) (hu : u = s.setHead port.val q.val none) {t : Nat} (hl : h.launch = some t)
    (hdue : 0 ≤ s.lateness t) (hin : s.lateness t ≤ ((s.rd (mpReg (0x144 + 0x20 * port.val))).toNat : Int)) :
    exec (.launchTime port q) s
      = .next (u.setEth port.val { u.ethPort port.val with wire := some (some q.val, h.desc, u.txStamp port.val, wireFrame h.frame) }) := by
  obtain ⟨hexec, hel⟩ := exec_launchTime_choose hheads hgate hl hdue
  rw [hexec, State.ethChoose_single hup hheads hwire hfwd 8 hel hu (late := false) (by rw [hl]; exact (decide_eq_false (Int.not_lt.mpr hin)).symm)]
  rfl

theorem exec_launchTime_late {u : State} (hgate : h.gated = false) (hu : u = s.setHead port.val q.val none) {t : Nat} (hl : h.launch = some t)
    (hdue : 0 ≤ s.lateness t) (hout : ((s.rd (mpReg (0x144 + 0x20 * port.val))).toNat : Int) < s.lateness t) :
    exec (.launchTime port q) s
      = .next (((((u.addSat (mpReg (0x148 + 0x20 * port.val)) 1).raise 0x400 6).logNamed 0x400 evTimebase 6 6 255).txFinish port.val q.val h.desc 1
        0).ethChoose port.val 8) := by
  obtain ⟨hexec, hel⟩ := exec_launchTime_choose hheads hgate hl hdue
  rw [hexec, State.ethChoose_single hup hheads hwire hfwd 8 hel hu (late := true) (by rw [hl]; exact (decide_eq_true hout).symm)]
  rfl

end

/-- A forwarded Follow_Up goes on as it came (R280, R365). -/
theorem exec_ethFrameBoundary_forwarded {w : EthFwd} {r : List EthFwd} (hup : s.ethUp port.val = true) (hwire : (s.ethPort port.val).wire = none)
    (hfwd : (s.ethPort port.val).fwd = w :: r) (hty : ptpType w.frame ((ptpAt w.frame).getD 0) = 8) :
    exec (.ethFrameBoundary port) s = .next (s.setEth port.val { s.ethPort port.val with
      fwd := r
      wire := some (none, 0, s.txStamp port.val, wireFrame w.frame) }) := by
  have hevent : ¬((8 : Nat) = 0 ∨ (8 : Nat) = 1) := by decide
  change execEthFrameBoundary port s = _
  rw [execEthFrameBoundary]
  unfold State.ethChoose
  simp only [hwire, hup, hfwd, hty, if_neg hevent, Option.isSome_none, Bool.not_true, Bool.or_self, Bool.false_eq_true, if_false]

/-! ### The end of a frame -/

theorem wireFrame_eq (f : List Byte) : ∃ c : List Byte, c.length = 4 ∧ wireFrame f = f ++ (zeros (60 - f.length) ++ c) :=
  ⟨_, natLe_length 4 _, List.append_assoc ..⟩

theorem wireFrame_layout (f : List Byte) : (wireFrame f).length = max f.length 60 + 4 ∧ (wireFrame f).take f.length = f ∧
    (∀ i, f.length ≤ i → i < 60 → (wireFrame f)[i]? = some 0) := by
  obtain ⟨c, hc, he⟩ := wireFrame_eq f
  have hz : (zeros (60 - f.length)).length = 60 - f.length := List.length_replicate
  rw [he]
  refine ⟨?_, List.take_left' rfl, fun i hlo hhi => ?_⟩
  · rw [List.length_append, List.length_append, hz, hc]
    omega
  · rw [List.getElem?_append_right hlo, List.getElem?_append_left (by omega)]
    exact List.getElem?_replicate_of_lt (by omega)

theorem ethTxDone_effect {d stamp r : Nat} {f : List Byte} {u : State} (hwire : (s.ethPort port.val).wire = some (some q.val, d, stamp, f))
    (hptp : ptpAt f = none) (hu : u = s.setEth port.val { s.ethPort port.val with wire := none }) (hr : r = txqReg port.val q.val 0)
    (hdesc : u.regCheck (s.ethOwner r) true d 32 = .ok) (hring : u.regCheck (s.ethOwner r) true (s.ethRing r) 64 = .ok) :
    ∃ w, w = (u.hbmWrite (d + 11) [0]).hbmWrite (d + 20) (natLe 4 (stamp / 1000000000) ++ natLe 4 (stamp % 1000000000)) ∧
      exec (.ethTxDone port) s = .next ((w.bumpRing r (leNat (w.hbmRead (s.ethRing r + 8) 8))).wardenFresh 2 (port.val * 16 + q.val)) := by
  refine ⟨_, rfl, ?_⟩
  subst hr
  have howner : u.ethOwner (txqReg port.val q.val 0) = s.ethOwner (txqReg port.val q.val 0) := by rw [hu]; rfl
  have hbase : u.ethRing (txqReg port.val q.val 0) = s.ethRing (txqReg port.val q.val 0) := by rw [hu]; rfl
  rw [← howner] at hdesc hring
  rw [← hbase] at hring ⊢
  change execEthTxDone port s = _
  simp only [execEthTxDone, hwire, hptp, ← hu, State.txFinish_sent hdesc hring rfl]

/-- Settles O33: one running queue makes a poll one fetch; one head makes the choice of the next frame that head; the end of a frame writes its
descriptor and its ring. -/
theorem ethTransmission : Obligations.EthTransmission := by
  intro s port q
  refine ⟨?_, ?_, wireFrame_layout, fun w r hup hwire hfwd hty => exec_ethFrameBoundary_forwarded hup hwire hfwd hty,
    fun d stamp f u r hwire hptp hu hr hdesc hring => ethTxDone_effect hwire hptp hu hr hdesc hring⟩
  · intro r d a len prod cons hup hothers hr hq hheads hwire hprod hcons hne hd ha hl hmin hmax hring hdesc hbuf hnl hfit
    exact ⟨fun htype => exec_queuePoll_single hup hothers
        (State.txFetch_head hup hr hq hheads hwire hprod hcons hne hd ha hl hmin hmax hring hdesc hbuf hnl hfit htype) (fun _ _ _ => rfl),
      fun htype hcan => queuePoll_macControl hcan hup hothers hr hq hheads hwire hprod hcons hne hd ha hl hmin hmax hring hdesc hbuf hfit htype⟩
  · intro h u hup hheads hwire hfwd hgate hu
    exact ⟨exec_ethFrameBoundary_now hup hheads hwire hfwd hgate hu, fun t hl hdue =>
      ⟨exec_launchTime_sent hup hheads hwire hfwd hgate hu hl hdue, exec_launchTime_late hup hheads hwire hfwd hgate hu hl hdue⟩⟩

end Sys2Proof.Machine
end

section
/-!
The CAN nodes: what showing their status leaves, modes and bus events (R368 to R380); from these the obligation CanModes.
-/
namespace Sys2Proof.Machine

variable {s : State} {f : Func} {n : Fin 8} {v w : Word}

/-! ### Nodes and their registers -/

theorem cfReg_inj {m a b : Nat} : cfReg m a = cfReg m b ↔ a = b := rga_inj

/-- A register of a node is no IRQ_RAW. -/
theorem cfReg_ne_raw {m p off : Nat} (hoff : off < 4096) (h : off ≠ oRaw) : cfReg m off ≠ rga p oRaw := rga_ne_of_off hoff (by decide) h

theorem State.cf_setCf (h : mapWf canDflt s.can = true) (m : Nat) (x : CanNode) : (s.setCf m x).cf m = x := (mapGet_mapSet h).trans (if_pos rfl)

/-- A node that is shown keeps its state: the registers alone change. -/
theorem State.showCan_onlyRegs (s : State) (m : Nat) : OnlyRegs s (s.showCan m) :=
  ((((((OnlyRegs.refl s).pf ..).pf ..).pf ..).wb ..).wb ..)

theorem State.showCan_regsWf (h : s.regsWf) (m : Nat) : (s.showCan m).regsWf :=
  State.wb_regsWf (State.wb_regsWf (State.pf_regsWf (State.pf_regsWf (State.pf_regsWf h))))

@[simp] theorem State.showCan_can (s : State) (m : Nat) : (s.showCan m).can = s.can := rfl
@[simp] theorem State.cf_showCan (s : State) (m k : Nat) : (s.showCan m).cf k = s.cf k := rfl

/-- Showing a node writes CF_TXSTAT and CF_RXSTAT (R380). -/
theorem State.rd_showCan_ne (h : s.regsWf) {m a : Nat} (htx : a ≠ cfReg m 0x54) (hrx : a ≠ cfReg m 0x5C) : (s.showCan m).rd a = s.rd a := by
  have h1 := State.pf_regsWf (s := s) (a := cfReg m 0x54) (hi := 21) (lo := 16) (v := (s.cf m).fifo.length) h
  unfold State.showCan
  dsimp only
  rw [State.rd_wb (State.wb_regsWf (State.pf_regsWf (State.pf_regsWf h1))), if_neg hrx, State.rd_wb (State.pf_regsWf (State.pf_regsWf h1)), if_neg hrx,
    State.rd_pf (State.pf_regsWf h1), if_neg hrx, State.rd_pf h1, if_neg htx, State.rd_pf h, if_neg htx]

/-- The pending bits of CF_TXSTAT stand when a node is shown. -/
theorem State.rb_showCan_tx (h : s.regsWf) {m i : Nat} (hi : 7 ≤ i ∧ i < 16) : (s.showCan m).rb (cfReg m 0x54) i = s.rb (cfReg m 0x54) i := by
  have h1 := State.pf_regsWf (s := s) (a := cfReg m 0x54) (hi := 21) (lo := 16) (v := (s.cf m).fifo.length) h
  have hne : cfReg m 0x54 ≠ cfReg m 0x5C := fun he => absurd (cfReg_inj.mp he) (by decide)
  unfold State.showCan
  dsimp only
  unfold State.rb
  rw [State.rd_wb (State.wb_regsWf (State.pf_regsWf (State.pf_regsWf h1))), if_neg hne, State.rd_wb (State.pf_regsWf (State.pf_regsWf h1)), if_neg hne,
    State.rd_pf (State.pf_regsWf h1), if_neg hne, State.rd_pf h1, if_pos rfl, tbit_setFld_ne (by decide) (by decide) (.inr (by omega)), State.rd_pf h,
    if_pos rfl, tbit_setFld_ne (by decide) (by decide) (.inl (by omega))]

/-- The error state of a node as CF_ERR shows it (R377). -/
def CanNode.errState (x : CanNode) : Nat := if x.off then 2 else if 128 ≤ x.tec ∨ 128 ≤ x.rec_ then 1 else 0

/-- CF_ERR with the counters and the state of a node. -/
def State.errShown (s : State) (m : Nat) : State :=
  ((s.pf (cfReg m 0x4C) 31 24 (min (s.cf m).rec_ 255)).pf (cfReg m 0x4C) 23 16 (if (s.cf m).off then 255 else min (s.cf m).tec 255)).pf (cfReg m 0x4C) 15 14
    (s.cf m).errState

/-- CF_ERR takes the counters; an event follows when the state changes (R377, R380). -/
theorem State.showErr_eq (s : State) (m : Nat) : s.showErr m = s.errShown m ∨ ∃ st, s.showErr m
    = ((s.errShown m).raise (cfPage m) 2).logNamed (cfPage m) evPort 2 st 255 := by
  by_cases he : (s.cf m).errState = s.rf (cfReg m 0x4C) 15 14
  · exact .inl (if_pos he)
  · exact .inr ⟨_, if_neg he⟩

theorem State.errShown_regsWf (h : s.regsWf) (m : Nat) : (s.errShown m).regsWf := State.pf_regsWf (State.pf_regsWf (State.pf_regsWf h))

theorem State.showErr_onlyRegsLog (s : State) (m : Nat) : OnlyRegsLog s (s.showErr m) := by
  have hshown : OnlyRegsMsix s (s.errShown m) := (((OnlyRegsMsix.refl s).pf ..).pf ..).pf ..
  rcases State.showErr_eq s m with he | ⟨st, he⟩
  · rw [he]
    exact hshown.log
  · rw [he]
    exact (hshown.raise ..).log.logNamed ..

/-- What a reading of the registers after showErr is, IRQ_RAW of the node's page apart. -/
theorem State.rd_showErr (h : s.regsWf) {m a : Nat} (hraw : a ≠ rga (cfPage m) oRaw) : (s.showErr m).rd a = (s.errShown m).rd a := by
  rcases State.showErr_eq s m with he | ⟨st, he⟩
  · rw [he]
  · rw [he, State.rd_congr (State.logNamed_regs ..), State.rd_raise_ne (State.errShown_regsWf h m) hraw]

theorem State.showErr_regsWf (h : s.regsWf) (m : Nat) : (s.showErr m).regsWf := by
  rcases State.showErr_eq s m with he | ⟨st, he⟩
  · rw [he]
    exact State.errShown_regsWf h m
  · unfold State.regsWf
    rw [he, State.logNamed_regs]
    exact State.raise_regsWf (State.errShown_regsWf h m)

theorem State.rd_showErr_ne (h : s.regsWf) {m a : Nat} (herr : a ≠ cfReg m 0x4C) (hraw : a ≠ rga (cfPage m) oRaw) : (s.showErr m).rd a = s.rd a := by
  have h1 := State.pf_regsWf (s := s) (a := cfReg m 0x4C) (hi := 31) (lo := 24) (v := min (s.cf m).rec_ 255) h
  rw [State.rd_showErr h hraw]
  unfold State.errShown
  rw [State.rd_pf (State.pf_regsWf h1), if_neg herr, State.rd_pf h1, if_neg herr, State.rd_pf h, if_neg herr]

/-- CF_ERR after showErr: the error state, TEC and the LEC field (R377). -/
theorem State.rf_showErr (h : s.regsWf) (m : Nat) :
    (s.showErr m).rf (cfReg m 0x4C) 15 14 = (s.cf m).errState ∧
      (s.showErr m).rf (cfReg m 0x4C) 23 16 = (if (s.cf m).off then 255 else min (s.cf m).tec 255) ∧
      (s.showErr m).rf (cfReg m 0x4C) 13 11 = s.rf (cfReg m 0x4C) 13 11 := by
  have h1 := State.pf_regsWf (s := s) (a := cfReg m 0x4C) (hi := 31) (lo := 24) (v := min (s.cf m).rec_ 255) h
  have h2 := State.pf_regsWf (a := cfReg m 0x4C) (hi := 23) (lo := 16) (v := if (s.cf m).off then 255 else min (s.cf m).tec 255) h1
  have hrf : ∀ hi lo, (s.showErr m).rf (cfReg m 0x4C) hi lo = (s.errShown m).rf (cfReg m 0x4C) hi lo := fun hi lo =>
    congrArg (fld · hi lo) (State.rd_showErr h (cfReg_ne_raw (by decide) (by decide)))
  have hst : (s.cf m).errState < 4 := by
    unfold CanNode.errState
    split
    · decide
    · split <;> decide
  have htec : (if (s.cf m).off then 255 else min (s.cf m).tec 255) < 256 := by
    split
    · decide
    · omega
  rw [hrf, hrf, hrf]
  unfold State.errShown
  refine ⟨?_, ?_, ?_⟩
  · rw [State.rf_pf h2 _ (by decide) (by decide)]
    exact Nat.mod_eq_of_lt hst
  · rw [State.rf_pf_above h2 _ (by decide) (by decide) (by decide), State.rf_pf h1 _ (by decide) (by decide)]
    exact Nat.mod_eq_of_lt htec
  · rw [State.rf_pf_below h2 _ (by decide) (by decide) (by decide) (by decide), State.rf_pf_below h1 _ (by decide) (by decide) (by decide) (by decide),
      State.rf_pf_below h _ (by decide) (by decide) (by decide) (by decide)]

theorem OnlyRegsLog.frame {t : State} (h : OnlyRegsLog s t) : t.pins = s.pins ∧ t.can = s.can ∧ t.drv = s.drv ∧ t.clock = s.clock := by
  unfold OnlyRegsLog at h
  rw [h]
  exact ⟨rfl, rfl, rfl, rfl⟩

@[simp] theorem State.showErr_can (s : State) (m : Nat) : (s.showErr m).can = s.can := (State.showErr_onlyRegsLog s m).frame.2.1

theorem State.cf_congr {t : State} (h : t.can = s.can) (m : Nat) : t.cf m = s.cf m := by
  unfold State.cf
  rw [h]

/-- A frame that is lost leaves the bus, and its buffer when an abort waits for it; the rest of the node stands (R371). -/
theorem State.cfLost_eq (h : s.regsWf) (m : Nat) : (s.cfLost m = s ∧ (s.cf m).busy = none) ∨ ∃ u l, OnlyRegs s u ∧ u.regsWf ∧
    s.cfLost m = (u.setCf m { s.cf m with busy := none, aborts := l }).showCan m := by
  unfold State.cfLost
  dsimp only
  split
  · next hb => exact .inl ⟨rfl, hb⟩
  · next k hb =>
    refine .inr ⟨_, _, ?_, ?_, rfl⟩
    · split
      · exact (OnlyRegs.refl s).wb ..
      · exact .refl s
    · split
      · exact State.wb_regsWf h
      · exact h

theorem OnlyRegs.frame {t : State} (h : OnlyRegs s t) : t.pins = s.pins ∧ t.can = s.can ∧ t.drv = s.drv ∧ t.clock = s.clock := h.msix.log.frame

theorem State.cfLost_effect (h : s.regsWf) (hc : mapWf canDflt s.can = true) (m : Nat) :
    (∃ l, (s.cfLost m).cf m = { s.cf m with busy := none, aborts := l }) ∧ mapWf canDflt (s.cfLost m).can = true ∧ (s.cfLost m).regsWf := by
  rcases State.cfLost_eq h m with ⟨he, hb⟩ | ⟨u, l, hu, hwf, he⟩
  · rw [he]
    exact ⟨⟨(s.cf m).aborts, by rw [← hb]⟩, hc, h⟩
  · obtain ⟨-, hcan, -, -⟩ := hu.frame
    have hc' : mapWf canDflt u.can = true := by
      rw [hcan]
      exact hc
    rw [he]
    refine ⟨⟨l, ?_⟩, ?_, State.showCan_regsWf (s := u.setCf m _) hwf m⟩
    · rw [State.cf_showCan, State.cf_setCf hc']
    · rw [State.showCan_can]
      exact mapSet_wf hc'

/-! ### Modes -/

theorem State.store_pins (s : State) (f : Func) (a : Nat) (v w : Word) : (s.store f a v w).pins = s.pins :=
  (State.store_onlyRegs s f a v w).frame.1

/-- Dropping what is on the bus changes the node's own state and its registers. -/
@[simp] theorem State.leaveBus_pins (s : State) (m : Nat) : (s.leaveBus m).pins = s.pins :=
  (State.showCan_onlyRegs (s.setCf m { s.cf m with busy := none }) m).frame.1

theorem State.wrCfMode_timing {m : Nat} (hm : fld v 31 30 ≠ 0) (ht : s.timingOk m = false) : s.wrCfMode f m v = s.wb (cfReg m 0x40) 8 true := by
  have hbad : fld v 31 30 ≠ 0 ∧ (!s.timingOk m) = true := ⟨hm, by rw [ht]; rfl⟩
  simp only [State.wrCfMode, if_pos hbad]

theorem State.wrCfMode_pending {m : Nat} (hm : fld v 31 30 = 3) (ht : s.timingOk m = true) (hp : s.cfPending m ≠ 0) :
    s.wrCfMode f m v = s.wb (cfReg m 0x40) 9 true := by
  have hok : ¬(fld v 31 30 ≠ 0 ∧ (!s.timingOk m) = true) := by simp [ht]
  have hbusy : fld v 31 30 = 3 ∧ (s.cfPending m ≠ 0 ∨ (!(s.cf m).fifo.isEmpty) = true) := ⟨hm, .inl hp⟩
  simp only [State.wrCfMode, if_neg hok, if_pos hbusy]

/-- An accepted mode is stored, TX_MODE as it may be; outside NORMAL the node leaves the bus, and the standby pin follows (R369, R376). -/
theorem State.wrCfMode_taken {m : Nat} {on off : BitVec 8} (ht : fld v 31 30 = 0 ∨ s.timingOk m = true)
    (hs : fld v 31 30 = 3 → s.cfPending m = 0 ∧ (s.cf m).fifo = []) (hw : w = (if s.cfMode m = 0 then v else setBit v 29 (s.cfFifo m)))
    (hon : on = s.pins.canStb ||| BitVec.ofNat 8 (2 ^ m)) (hoff : off = s.pins.canStb &&& ~~~ BitVec.ofNat 8 (2 ^ m)) :
    s.wrCfMode f m v = { (if fld v 31 30 = 1 then s.store f (cfReg m 0x40) w 0 else (s.store f (cfReg m 0x40) w 0).leaveBus m) with
      pins := { s.pins with canStb := if decide (fld v 31 30 = 3) && tbit w 26 && !tbit w 25 then on else off } } := by
  have hok : ¬(fld v 31 30 ≠ 0 ∧ (!s.timingOk m) = true) := by
    rintro ⟨hm, hbad⟩
    rcases ht with h0 | h1
    · exact hm h0
    · rw [h1] at hbad
      cases hbad
  have hidle : ¬(fld v 31 30 = 3 ∧ (s.cfPending m ≠ 0 ∨ (!(s.cf m).fifo.isEmpty) = true)) := by
    rintro ⟨hm, hbusy⟩
    obtain ⟨hp, hf⟩ := hs hm
    rcases hbusy with h0 | h1
    · exact h0 hp
    · rw [hf] at h1
      cases h1
  have hpins : (if fld v 31 30 = 1 then s.store f (cfReg m 0x40) w 0 else (s.store f (cfReg m 0x40) w 0).leaveBus m).pins = s.pins := by
    by_cases h1 : fld v 31 30 = 1
    · rw [if_pos h1, State.store_pins]
    · rw [if_neg h1, State.leaveBus_pins, State.store_pins]
  unfold State.wrCfMode
  simp only [if_neg hok, if_neg hidle, ← hw, hpins, ← hon, ← hoff]

section
variable (hw : s.mayWrite f (cfReg n.val 0x40) = true)
include hw

theorem exec_canInit : exec (.canInit f n v) s = .next (s.wrCfMode f n.val v) := by
  change execCanInit f n v s = _
  rw [execCanInit, State.guarded_of_mayWrite hw]

theorem exec_canNormal : exec (.canNormal f n v) s = .next (s.wrCfMode f n.val v) := by
  change execCanNormal f n v s = _
  rw [execCanNormal, State.guarded_of_mayWrite hw]

theorem exec_canListen : exec (.canListen f n v) s = .next (s.wrCfMode f n.val v) := by
  change execCanListen f n v s = _
  rw [execCanListen, State.guarded_of_mayWrite hw]

theorem exec_canSleep : exec (.canSleep f n v) s = .next (s.wrCfMode f n.val v) := by
  change execCanSleep f n v s = _
  rw [execCanSleep, State.guarded_of_mayWrite hw]

end

/-! ### Commands of CF_CTL -/

/-- A power of two has one bit. -/
theorem tbit_pow (i : Nat) {j : Nat} (hj : j < 32) : tbit (w32 (2 ^ i)) j = decide (i = j) := by
  rw [tbit_eq_getLsbD, w32, BitVec.getLsbD_ofNat, Nat.testBit_two_pow, decide_eq_true hj, Bool.true_and]

/-- A fold over three bits none of which is set. -/
theorem foldl_bits_none {g : State → Nat → State} {o : Nat} (h : ∀ k, k < 3 → tbit v (o + k) = false) :
    (List.range 3).foldl (fun s k => if tbit v (o + k) then g s k else s) s = s :=
  foldl_fixed fun k hk => by rw [h k (List.mem_range.mp hk), if_neg Bool.false_ne_true]

/-- A fold over three bits one of which is set. -/
theorem foldl_bits_one {g : State → Nat → State} {o k : Nat} (hk : k < 3) (h : ∀ j, j < 3 → tbit v (o + j) = decide (k = j)) :
    (List.range 3).foldl (fun s k => if tbit v (o + k) then g s k else s) s = g s k := by
  refine foldl_range_single hk (fun j hj => ?_) ?_ fun j hj hj3 => ?_
  · rw [h j (by omega), if_neg (by simpa using Nat.ne_of_gt hj)]
  · rw [h k hk, if_pos (by simp)]
  · rw [h j hj3, if_neg (by simpa using Nat.ne_of_lt hj)]

/-- CF_CTL with RECOVER alone (R377). -/
theorem State.wrCfCtl_recover (m : Nat) :
    s.wrCfCtl m 8 none = if (s.cf m).off then s.setCf m { s.cf m with counting := true } else s := by
  have hbit : ∀ j, j < 32 → tbit (8 : Word) j = decide (3 = j) := fun j hj => tbit_pow 3 hj
  have hreq : ∀ k, k < 3 → tbit (8 : Word) (4 + k) = false := fun k hk => (hbit _ (by omega)).trans (decide_eq_false (by omega))
  have habort : ∀ k, k < 3 → tbit (8 : Word) (8 + k) = false := fun k hk => (hbit _ (by omega)).trans (decide_eq_false (by omega))
  simp only [State.wrCfCtl, foldl_bits_none hreq, foldl_bits_none habort, show tbit (8 : Word) 0 = false by decide, show tbit (8 : Word) 1 = false by decide,
    show tbit (8 : Word) 2 = false by decide, show tbit (8 : Word) 3 = true by decide, Bool.false_eq_true, if_false, Bool.true_and]

theorem exec_recover (hw : s.mayWrite f (cfReg n.val 0x50) = true) : exec (.recover f n 8) s = .next (s.wrCfCtl n.val 8 none) := by
  change execRecover f n 8 s = _
  rw [execRecover, State.guarded_of_mayWrite hw]

/-! ### Bus events -/

theorem canWake_effect (hcan : s.canonical = true) (hon : s.cfOn n.val = true) (hm : s.cfMode n.val = 3) (hwm : s.rb (cfReg n.val 0x40) 25 = false) :
    ∃ t, exec (.canWake n none) s = .next t ∧ t.cfMode n.val = 1 ∧ t.rb (rga (cfPage n.val) oRaw) 4 = true ∧
      t.pins.canStb = s.pins.canStb &&& ~~~ BitVec.ofNat 8 (2 ^ n.val) ∧ t.can = s.can ∧ t.drv = s.drv := by
  have h := State.canonical_regsWf hcan
  have hexec : exec (.canWake n none) s = .next ((({ s.pf (cfReg n.val 0x40) 31 30 1 with
      pins := { s.pins with canStb := s.pins.canStb &&& ~~~ BitVec.ofNat 8 (2 ^ n.val) } } : State).raise (cfPage n.val) 4).logNamed (cfPage n.val) evPort 2 4
        255) := by
    change execCanWake n none s = _
    simp only [execCanWake, hon, hm, hwm, Bool.not_true, bne_self_eq_false, Bool.or_self, Bool.false_eq_true, if_false]
    rfl
  generalize hu : ({ s.pf (cfReg n.val 0x40) 31 30 1 with
      pins := { s.pins with canStb := s.pins.canStb &&& ~~~ BitVec.ofNat 8 (2 ^ n.val) } } : State) = u at hexec
  have hregs : u.regs = (s.pf (cfReg n.val 0x40) 31 30 1).regs := by rw [← hu]
  have huwf : u.regsWf := by
    unfold State.regsWf
    rw [hregs]
    exact State.pf_regsWf h
  have hlog : OnlyRegsLog u ((u.raise (cfPage n.val) 4).logNamed (cfPage n.val) evPort 2 4 255) := ((OnlyRegsMsix.refl u).raise ..).log.logNamed ..
  obtain ⟨hpins, hcans, hdrv, -⟩ := hlog.frame
  refine ⟨_, hexec, ?_, ?_, ?_, ?_, ?_⟩
  · unfold State.cfMode
    rw [State.rf_congr (State.logNamed_regs ..), State.rf_raise_ne huwf (cfReg_ne_raw (by decide) (by decide)), State.rf_congr hregs,
      State.rf_pf h _ (by decide) (by decide)] <;> rfl
  · rw [State.rb_congr (State.logNamed_regs ..), State.rb_raise_same huwf (by decide)]
  · rw [hpins, ← hu]
  · rw [hcans, ← hu]
    rfl
  · rw [hdrv, ← hu]
    rfl

theorem busOffRecovery_effect (hcan : s.canonical = true) (hc : mapWf canDflt s.can = true) (hoff : (s.cf n.val).off = true)
    (hcnt : (s.cf n.val).counting = true) :
    ∃ t, exec (.busOffRecovery n) s = .next t ∧ (t.cf n.val).off = false ∧ (t.cf n.val).tec = 0 ∧ (t.cf n.val).rec_ = 0 ∧
      t.rf (cfReg n.val 0x4C) 15 14 = 0 ∧ t.rf (cfReg n.val 0x4C) 23 16 = 0 := by
  have hexec : exec (.busOffRecovery n) s
      = .next ((s.setCf n.val { s.cf n.val with tec := 0, rec_ := 0, off := false, counting := false }).showErr n.val) := by
    change execBusOffRecovery n s = _
    simp only [execBusOffRecovery, hoff, hcnt, Bool.and_self, if_true]
  have hcf := State.cf_setCf hc n.val { s.cf n.val with tec := 0, rec_ := 0, off := false, counting := false }
  obtain ⟨hst, htec, -⟩ := State.rf_showErr (s := s.setCf n.val { s.cf n.val with tec := 0, rec_ := 0, off := false, counting := false })
    (State.canonical_regsWf hcan) n.val
  rw [hcf] at hst htec
  refine ⟨_, hexec, ?_, ?_, ?_, hst, htec⟩
  all_goals rw [State.cf_congr (State.showErr_can ..), hcf]

theorem busDominant_effect (hcan : s.canonical = true) (hc : mapWf canDflt s.can = true) (hon : s.cfOn n.val = true) (hm : s.cfMode n.val = 1) :
    ∃ t, exec (.busDominant n) s = .next t ∧ (t.cf n.val).suspended = true ∧ t.cfSends n.val = false ∧ t.rb (rga (cfPage n.val) oRaw) 7 = true := by
  obtain ⟨-, hc', hwf⟩ := State.cfLost_effect (State.canonical_regsWf hcan) hc n.val
  have hexec : exec (.busDominant n) s = .next ((((s.cfLost n.val).setCf n.val { (s.cfLost n.val).cf n.val with suspended := true }).raise (cfPage n.val) 7).logNamed
      (cfPage n.val) evPort 2 7 255) := by
    change execBusDominant n s = _
    simp only [execBusDominant, hon, hm, Bool.not_true, Bool.false_or]
    rfl
  generalize s.cfLost n.val = u at hc' hwf hexec
  have hlog : OnlyRegsLog (u.setCf n.val { u.cf n.val with suspended := true })
      (((u.setCf n.val { u.cf n.val with suspended := true }).raise (cfPage n.val) 7).logNamed (cfPage n.val) evPort 2 7 255) :=
    ((OnlyRegsMsix.refl _).raise ..).log.logNamed ..
  have hsus := (congrArg CanNode.suspended ((State.cf_congr hlog.frame.2.1 n.val).trans (State.cf_setCf hc' n.val _)))
  refine ⟨_, hexec, hsus, ?_, ?_⟩
  · unfold State.cfSends
    rw [hsus]
    exact Bool.and_false _
  · rw [State.rb_congr (State.logNamed_regs ..), State.rb_raise_same (s := u.setCf n.val _) hwf (by decide)]

/-- Settles O34: every mode by the checks of its write; the bus events by the states they find. -/
theorem canModes : Obligations.CanModes := by
  refine ⟨fun s f n v w on off hw hv hon hoff => ⟨fun hm => ?_, fun hm ht => ?_, fun hm ht => ?_, fun hm ht hp hf => ?_, fun hm ht hp => ?_,
    fun hm ht => ⟨?_, ?_⟩⟩, fun s f n hcan hc => ⟨canWake_effect hcan, fun hw => ⟨fun h => ?_, fun h => ?_⟩, busOffRecovery_effect hcan hc,
    busDominant_effect hcan hc, rfl⟩⟩
  · rw [exec_canInit hw, State.wrCfMode_taken (.inl hm) (fun h3 => absurd (hm.symm.trans h3) (by decide)) hv hon hoff, hm]
    rfl
  · rw [exec_canNormal hw, State.wrCfMode_taken (.inr ht) (fun h3 => absurd (hm.symm.trans h3) (by decide)) hv hon hoff, hm]
    rfl
  · rw [exec_canListen hw, State.wrCfMode_taken (.inr ht) (fun h3 => absurd (hm.symm.trans h3) (by decide)) hv hon hoff, hm]
    rfl
  · rw [exec_canSleep hw, State.wrCfMode_taken (.inr ht) (fun _ => ⟨hp, hf⟩) hv hon hoff, hm]
    rfl
  · rw [exec_canSleep hw, State.wrCfMode_pending hm ht hp]
  · rw [exec_canNormal hw, State.wrCfMode_timing hm ht]
  · rw [exec_canListen hw, State.wrCfMode_timing hm ht]
  · rw [exec_recover hw, State.wrCfCtl_recover, if_pos h]
  · rw [exec_recover hw, State.wrCfCtl_recover, if_neg (Bool.not_eq_true _ ▸ h)]

end Sys2Proof.Machine
end

section
/-!
CAN buffers, arbitration and timeouts (R371 to R380).
-/
namespace Sys2Proof.Machine

variable {s : State} {f : Func} {n : Fin 8} {v : Word} {m : Nat}

/-! ### Commands of CF_CTL -/

theorem State.wrCfCtl_request (k : Fin 3) : s.wrCfCtl m (w32 (2 ^ (4 + k.val))) none = s.cfReqBuf m k.val := by
  have hbit : ∀ j, j < 32 → tbit (w32 (2 ^ (4 + k.val))) j = decide (4 + k.val = j) := fun j hj => tbit_pow _ hj
  have hlow : ∀ j, j < 4 → tbit (w32 (2 ^ (4 + k.val))) j = false := fun j hj => (hbit j (by omega)).trans (decide_eq_false (by omega))
  have hreq : ∀ j, j < 3 → tbit (w32 (2 ^ (4 + k.val))) (4 + j) = decide (k.val = j) := by
    intro j hj
    rw [hbit _ (by omega)]
    exact decide_eq_decide.mpr (by omega)
  have habort : ∀ j, j < 3 → tbit (w32 (2 ^ (4 + k.val))) (8 + j) = false := fun j hj => (hbit _ (by omega)).trans (decide_eq_false (by omega))
  simp only [State.wrCfCtl, hlow 0 (by decide), hlow 1 (by decide), hlow 2 (by decide), hlow 3 (by decide), Bool.false_and, Bool.false_eq_true, if_false,
    foldl_bits_none habort, foldl_bits_one k.isLt hreq]

theorem State.wrCfCtl_abort (k : Fin 3) : s.wrCfCtl m (w32 (2 ^ (8 + k.val))) none = s.cfAbortBuf m k.val := by
  have hbit : ∀ j, j < 32 → tbit (w32 (2 ^ (8 + k.val))) j = decide (8 + k.val = j) := fun j hj => tbit_pow _ hj
  have hlow : ∀ j, j < 4 → tbit (w32 (2 ^ (8 + k.val))) j = false := fun j hj => (hbit j (by omega)).trans (decide_eq_false (by omega))
  have hreq : ∀ j, j < 3 → tbit (w32 (2 ^ (8 + k.val))) (4 + j) = false := fun j hj => (hbit _ (by omega)).trans (decide_eq_false (by omega))
  have habort : ∀ j, j < 3 → tbit (w32 (2 ^ (8 + k.val))) (8 + j) = decide (k.val = j) := by
    intro j hj
    rw [hbit _ (by omega)]
    exact decide_eq_decide.mpr (by omega)
  simp only [State.wrCfCtl, hlow 0 (by decide), hlow 1 (by decide), hlow 2 (by decide), hlow 3 (by decide), Bool.false_and, Bool.false_eq_true, if_false,
    foldl_bits_none hreq, foldl_bits_one k.isLt habort]

section
variable {i : Nat} (hi : i < 4) (hv : v = w32 (2 ^ i))
include hi hv

/-- CF_CTL with one of its four low bits alone: POP, PUSH, FLUSH or RECOVER (R380). -/
theorem State.wrCfCtl_low : s.wrCfCtl m v none = if i = 0 then s.cfPop m else if i = 1 then s.cfPush m else if i = 2 then s.cfFlush m else
    if (s.cf m).off then s.setCf m { s.cf m with counting := true } else s := by
  have hbit : ∀ j, j < 32 → tbit v j = decide (i = j) := fun j hj => hv ▸ tbit_pow i hj
  have hreq : ∀ k, k < 3 → tbit v (4 + k) = false := fun k hk => (hbit _ (by omega)).trans (decide_eq_false (by omega))
  have habort : ∀ k, k < 3 → tbit v (8 + k) = false := fun k hk => (hbit _ (by omega)).trans (decide_eq_false (by omega))
  have hcases : i = 0 ∨ i = 1 ∨ i = 2 ∨ i = 3 := by omega
  simp only [State.wrCfCtl, foldl_bits_none hreq, foldl_bits_none habort, hbit 0 (by decide), hbit 1 (by decide), hbit 2 (by decide), hbit 3 (by decide)]
  rcases hcases with rfl | rfl | rfl | rfl <;> simp

end

section
variable (hw : s.mayWrite f (cfReg n.val 0x50) = true)
include hw

theorem exec_txbReq : exec (.txbReq f n v) s = .next (s.wrCfCtl n.val v none) := by
  change execTxbReq f n v s = _
  rw [execTxbReq, State.guarded_of_mayWrite hw]

theorem exec_txbAbort : exec (.txbAbort f n v) s = .next (s.wrCfCtl n.val v none) := by
  change execTxbAbort f n v s = _
  rw [execTxbAbort, State.guarded_of_mayWrite hw]

theorem exec_txfPush : exec (.txfPush f n 2) s = .next (s.cfPush n.val) := by
  change execTxfPush f n 2 s = _
  rw [execTxfPush, State.guarded_of_mayWrite hw, State.wrCfCtl_low (i := 1) (by decide) (by decide)]
  rfl

theorem exec_txfFlush : exec (.txfFlush f n 4) s = .next (s.cfFlush n.val) := by
  change execTxfFlush f n 4 s = _
  rw [execTxfFlush, State.guarded_of_mayWrite hw, State.wrCfCtl_low (i := 2) (by decide) (by decide)]
  rfl

theorem exec_rxPop : exec (.rxPop f n 1 none) s = .next (s.cfPop n.val) := by
  change execRxPop f n 1 none s = _
  rw [execRxPop, if_pos hw, State.wrCfCtl_low (i := 0) (by decide) (by decide)]
  rfl

theorem txbReq_request {k : Fin 3} (hf : s.cfFifo n.val = false) :
    exec (.txbReq f n (w32 (2 ^ (4 + k.val)))) s = .next (s.wb (cfReg n.val 0x54) (8 + k.val) true) := by
  rw [exec_txbReq hw, State.wrCfCtl_request, State.cfReqBuf, hf, if_neg Bool.false_ne_true]
  rfl

theorem txbAbort_free {k : Fin 3} (hf : s.cfFifo n.val = false) (hb : (s.cf n.val).busy ≠ some k.val) :
    exec (.txbAbort f n (w32 (2 ^ (8 + k.val)))) s = .next (s.wb (cfReg n.val 0x54) (8 + k.val) false) := by
  rw [exec_txbAbort hw, State.wrCfCtl_abort]
  simp only [State.cfAbortBuf, hf, hb, Bool.false_eq_true, if_false]
  rfl

theorem txbAbort_busy {k : Fin 3} (hf : s.cfFifo n.val = false) (hb : (s.cf n.val).busy = some k.val) :
    exec (.txbAbort f n (w32 (2 ^ (8 + k.val)))) s = .next (s.setCf n.val { s.cf n.val with aborts := (s.cf n.val).aborts ++ [k.val] }) := by
  rw [exec_txbAbort hw, State.wrCfCtl_abort]
  simp only [State.cfAbortBuf, hf, hb, Bool.false_eq_true, if_false, if_true]

theorem txfPush_room (hf : s.cfFifo n.val = true) (hl : (s.cf n.val).fifo.length < 32) :
    exec (.txfPush f n 2) s = .next ((s.setCf n.val { s.cf n.val with fifo := (s.cf n.val).fifo ++ [s.blockFrame n.val 0x280] }).showCan n.val) := by
  rw [exec_txfPush hw]
  simp only [State.cfPush, hf, Nat.not_le.mpr hl, Bool.not_true, Bool.false_eq_true, if_false]

theorem txfPush_full (hf : s.cfFifo n.val = true) (hl : 32 ≤ (s.cf n.val).fifo.length) :
    exec (.txfPush f n 2) s = .next (s.wb (cfReg n.val 0x54) 11 true) := by
  rw [exec_txfPush hw]
  simp only [State.cfPush, hf, hl, Bool.not_true, Bool.false_eq_true, if_false, if_true, State.busyErr]

theorem txfFlush_idle (hf : s.cfFifo n.val = true) (hb : (s.cf n.val).busy = none) :
    exec (.txfFlush f n 4) s = .next ((s.setCf n.val { s.cf n.val with fifo := [] }).showCan n.val) := by
  rw [exec_txfFlush hw]
  simp only [State.cfFlush, hf, hb, Option.isSome_none, Bool.not_true, Bool.false_eq_true, if_false]

theorem txfFlush_busy (hf : s.cfFifo n.val = true) (hb : (s.cf n.val).busy ≠ none) :
    exec (.txfFlush f n 4) s = .next ((s.setCf n.val { s.cf n.val with fifo := (s.cf n.val).fifo.take 1 }).showCan n.val) := by
  rw [exec_txfFlush hw]
  simp only [State.cfFlush, hf, Option.isSome_iff_ne_none.mpr hb, Bool.not_true, Bool.false_eq_true, if_false, if_true]

theorem rxPop_alone (hs : (s.cf n.val).shadow = none) :
    exec (.rxPop f n 1 none) s = .next ((s.setCf n.val { s.cf n.val with
      rx := (s.cf n.val).rx.drop 1
      shadow := none
      locked := false
      overMark := (s.rd (cfReg n.val 0x74)).toNat }).showCan n.val) := by
  rw [exec_rxPop hw]
  simp only [State.cfPop, hs, List.append_nil]

theorem rxPop_shadow {r : CanRx} (hs : (s.cf n.val).shadow = some r) :
    exec (.rxPop f n 1 none) s = .next ((s.setCf n.val { s.cf n.val with
      rx := (s.cf n.val).rx.drop 1 ++ [{ r with lost := decide ((s.cf n.val).overMark ≠ (s.rd (cfReg n.val 0x74)).toNat) }]
      shadow := none
      locked := false
      overMark := (s.rd (cfReg n.val 0x74)).toNat }).showCan n.val) := by
  rw [exec_rxPop hw]
  simp only [State.cfPop, hs]

end

/-! ### Arbitration -/

section
variable (hs : s.cfSends n.val = true) (hb : (s.cf n.val).busy = none)
include hs hb

theorem canArbitration_fifo (hf : s.cfFifo n.val = true) (hne : (s.cf n.val).fifo ≠ []) :
    exec (.canArbitration n) s = .next ((s.setCf n.val { s.cf n.val with
      busy := some 0
      sof := s.ptpNs }).showCan n.val) := by
  change execCanArbitration n s = _
  simp only [execCanArbitration, hs, hb, hf, List.isEmpty_eq_false_iff.mpr hne, Option.isSome_none, Bool.not_true, Bool.or_self, Bool.false_eq_true, if_false,
    if_true]

/-- One pending buffer is the winner (R371). -/
theorem canArbitration_single (k : Fin 3) (hf : s.cfFifo n.val = false) (hp : s.cfPending n.val = 2 ^ k.val) :
    exec (.canArbitration n) s = .next ((s.setCf n.val { s.cf n.val with
      busy := some k.val
      sof := s.ptpNs }).showCan n.val) := by
  change execCanArbitration n s = _
  simp only [execCanArbitration, hs, hb, hf, hp, Option.isSome_none, Bool.not_true, Bool.or_self, Bool.false_eq_true, if_false]
  match k with
  | 0 => rfl
  | 1 => rfl
  | 2 => rfl

/-- Of the two lower buffers the second one goes first only where its bits win (R371). -/
theorem canArbitration_pair {p : Bool} {a b : List Bool} (hf : s.cfFifo n.val = false) (hp : s.cfPending n.val = 3)
    (hpas : p = decide (128 ≤ (s.cf n.val).tec ∨ 128 ≤ (s.cf n.val).rec_)) (ha : a = sentBits p (s.blockFrame n.val 0x100))
    (hb' : b = sentBits p (s.blockFrame n.val 0x180)) :
    exec (.canArbitration n) s = .next ((s.setCf n.val { s.cf n.val with
      busy := some (if wins b a then 1 else 0)
      sof := s.ptpNs }).showCan n.val) := by
  change execCanArbitration n s = _
  simp only [execCanArbitration, hs, hb, hf, hp, ← hpas, Option.isSome_none, Bool.not_true, Bool.or_self, Bool.false_eq_true, if_false]
  by_cases hwin : wins b a = true
  · simp [List.range_succ, ← ha, ← hb', hwin]
  · simp [List.range_succ, ← ha, ← hb', hwin]

end

/-! ### Timeouts -/

/-- What a timeout leaves: the state it changed, with its event and its log entry. -/
def State.cfTimedOut (s : State) (m : Nat) : State := (s.raise (cfPage m) 6).logNamed (cfPage m) evPort 2 6 255

theorem State.cfTimedOut_effect (h : s.regsWf) (m : Nat) : OnlyRegsLog s (s.cfTimedOut m) ∧ (s.cfTimedOut m).rb (rga (cfPage m) oRaw) 6 = true ∧
    ∀ a i, a ≠ rga (cfPage m) oRaw → (s.cfTimedOut m).rb a i = s.rb a i := by
  refine ⟨((OnlyRegsMsix.refl s).raise ..).log.logNamed .., ?_, fun a i hne => ?_⟩
  · exact (State.rb_congr (State.logNamed_regs ..) _ _).trans (State.rb_raise_same h (by decide))
  · exact (State.rb_congr (State.logNamed_regs ..) _ _).trans (State.rb_raise_ne h hne)

theorem txTimeout_buffer {k : Fin 32} (hcan : s.canonical = true) (hc : mapWf canDflt s.can = true) (hf : s.cfFifo n.val = false) (hk : k.val < 3)
    (hp : (s.cfPending n.val >>> k.val) % 2 = 1) :
    ∃ t, exec (.txTimeout n k) s = .next t ∧ t.rb (cfReg n.val 0x54) (8 + k.val) = false ∧ (t.cf n.val).busy ≠ some k.val ∧
      t.rb (rga (cfPage n.val) oRaw) 6 = true := by
  have h := State.canonical_regsWf hcan
  have hon : ¬(3 ≤ k.val ∨ (s.cfPending n.val >>> k.val) % 2 = 0) := by omega
  have hexec : exec (.txTimeout n k) s = .next ((((s.setPending n.val k.val false).setCf n.val { s.cf n.val with
      busy := if (s.cf n.val).busy = some k.val then none else (s.cf n.val).busy
      aborts := (s.cf n.val).aborts.filter (· != k.val) }).showCan n.val).cfTimedOut n.val) := by
    change execTxTimeout n k s = _
    simp only [execTxTimeout, hf, if_neg hon, Bool.false_eq_true, if_false, State.cfTimedOut]
  have hpend : (s.setPending n.val k.val false).regsWf := State.wb_regsWf h
  have hshown := State.showCan_regsWf (s := (s.setPending n.val k.val false).setCf n.val { s.cf n.val with
      busy := if (s.cf n.val).busy = some k.val then none else (s.cf n.val).busy
      aborts := (s.cf n.val).aborts.filter (· != k.val) }) hpend n.val
  obtain ⟨hlog, hraw, hrest⟩ := State.cfTimedOut_effect hshown n.val
  refine ⟨_, hexec, ?_, ?_, hraw⟩
  · rw [hrest _ _ (cfReg_ne_raw (by decide) (by decide)), State.rb_showCan_tx (s := (s.setPending n.val k.val false).setCf n.val _) hpend (by omega)]
    exact State.rb_wb h _ (by omega)
  · rw [State.cf_congr hlog.frame.2.1, State.cf_showCan, State.cf_setCf (s := s.setPending n.val k.val false) hc]
    dsimp only
    split
    · simp
    · assumption

theorem txTimeout_fifo {k : Fin 32} (hcan : s.canonical = true) (hc : mapWf canDflt s.can = true) (hf : s.cfFifo n.val = true)
    (hk : k.val < (s.cf n.val).fifo.length) :
    ∃ t, exec (.txTimeout n k) s = .next t ∧ (t.cf n.val).fifo = (s.cf n.val).fifo.take k.val ++ (s.cf n.val).fifo.drop (k.val + 1) ∧
      t.rb (rga (cfPage n.val) oRaw) 6 = true := by
  have hexec : exec (.txTimeout n k) s = .next (((s.setCf n.val { s.cf n.val with
      fifo := (s.cf n.val).fifo.take k.val ++ (s.cf n.val).fifo.drop (k.val + 1)
      busy := if k.val = 0 then none else (s.cf n.val).busy }).showCan n.val).cfTimedOut n.val) := by
    change execTxTimeout n k s = _
    simp only [execTxTimeout, hf, if_neg (Nat.not_le.mpr hk), if_true, State.cfTimedOut]
  have hshown := State.showCan_regsWf (s := s.setCf n.val { s.cf n.val with
      fifo := (s.cf n.val).fifo.take k.val ++ (s.cf n.val).fifo.drop (k.val + 1)
      busy := if k.val = 0 then none else (s.cf n.val).busy }) (State.canonical_regsWf hcan) n.val
  obtain ⟨hlog, hraw, -⟩ := State.cfTimedOut_effect hshown n.val
  refine ⟨_, hexec, ?_, hraw⟩
  rw [State.cf_congr hlog.frame.2.1, State.cf_showCan, State.cf_setCf hc]

theorem rxTimeout_effect {k : Fin 32} (hcan : s.canonical = true) (hv : s.rb (cfReg n.val (0x400 + 16 * k.val)) 31 = true)
    (ht : s.rf (cfReg n.val (0x408 + 16 * k.val)) 15 0 ≠ 0) :
    ∃ t, exec (.rxTimeout n k) s = .next t ∧ t.rb (cfReg n.val (0x40C + 16 * k.val)) 31 = true ∧ t.rb (rga (cfPage n.val) oRaw) 5 = true ∧ OnlyRegsLog s t := by
  have h := State.canonical_regsWf hcan
  have hk := k.isLt
  have h8 : cfReg n.val (0x400 + 16 * k.val) + 8 = cfReg n.val (0x408 + 16 * k.val) := by
    unfold cfReg rga
    omega
  have hC : cfReg n.val (0x400 + 16 * k.val) + 0xC = cfReg n.val (0x40C + 16 * k.val) := by
    unfold cfReg rga
    omega
  have hexec : exec (.rxTimeout n k) s
      = .next (((s.wb (cfReg n.val (0x40C + 16 * k.val)) 31 true).raise (cfPage n.val) 5).logNamed (cfPage n.val) evPort 2 5 255) := by
    change execRxTimeout n k s = _
    simp only [execRxTimeout, h8, hC, hv, bne_iff_ne.mpr ht, Bool.and_self, if_true]
  have hwf : (s.wb (cfReg n.val (0x40C + 16 * k.val)) 31 true).regsWf := State.wb_regsWf h
  refine ⟨_, hexec, ?_, ?_, (((OnlyRegsMsix.refl s).wb ..).raise ..).log.logNamed ..⟩
  · rw [State.rb_congr (State.logNamed_regs ..), State.rb_raise_ne hwf (cfReg_ne_raw (by omega) (by unfold oRaw; omega)), State.rb_wb h _ (by decide)]
  · rw [State.rb_congr (State.logNamed_regs ..), State.rb_raise_same hwf (by decide)]

end Sys2Proof.Machine
end

section
/-!
CAN frames and errors (R370 to R379); from these and the buffers the obligation CanBuffers.
-/
namespace Sys2Proof.Machine

variable {s : State} {n : Fin 8} {m : Nat}

/-! ### Frames sent -/

/-- The state after the frame of a buffer has been sent, before an echo is stored (R371, R377). -/
def State.bufferSent (s : State) (m k : Nat) : State :=
  ((((s.setPending m k false).setCf m { s.cf m with
    busy := none
    aborts := (s.cf m).aborts.filter (· != k)
    tec := (s.cf m).tec - 1 }).showCan m).showErr m).raise (cfPage m) 1

theorem State.bufferSent_effect (h : s.regsWf) (hc : mapWf canDflt s.can = true) (m : Nat) {k : Nat} (hk : k < 3) :
    (s.bufferSent m k).cf m = { s.cf m with busy := none, aborts := (s.cf m).aborts.filter (· != k), tec := (s.cf m).tec - 1 } ∧
      mapWf canDflt (s.bufferSent m k).can = true ∧ (s.bufferSent m k).regsWf ∧
      (s.bufferSent m k).rb (cfReg m 0x54) (8 + k) = false ∧ (s.bufferSent m k).rb (rga (cfPage m) oRaw) 1 = true ∧
      (s.bufferSent m k).rb (cfReg m 0x40) 28 = s.rb (cfReg m 0x40) 28 := by
  have hpend : (s.setPending m k false).regsWf := State.wb_regsWf h
  have hset : ∀ y, ((s.setPending m k false).setCf m y).regsWf := fun _ => hpend
  unfold State.bufferSent
  generalize hy : ({ s.cf m with busy := none, aborts := (s.cf m).aborts.filter (· != k), tec := (s.cf m).tec - 1 } : CanNode) = y
  have hshown := State.showCan_regsWf (hset y) m
  have herr := State.showErr_regsWf hshown m
  have hcans : (((((s.setPending m k false).setCf m y).showCan m).showErr m).raise (cfPage m) 1).can = mapSet canDflt s.can m y :=
    (((OnlyRegsMsix.refl _).raise (cfPage m) 1).log.frame.2.1).trans (State.showErr_can _ m)
  have hrb : ∀ off i, off < 4096 → off ≠ oRaw → off ≠ 0x4C → (((((s.setPending m k false).setCf m y).showCan m).showErr m).raise (cfPage m) 1).rb (cfReg m off) i
      = (((s.setPending m k false).setCf m y).showCan m).rb (cfReg m off) i := by
    intro off i hlt hraw h4C
    rw [State.rb_raise_ne herr (cfReg_ne_raw hlt hraw)]
    unfold State.rb
    rw [State.rd_showErr_ne hshown (fun he => h4C (cfReg_inj.mp he)) (cfReg_ne_raw hlt hraw)]
  refine ⟨?_, ?_, State.raise_regsWf herr, ?_, State.rb_raise_same herr (by decide), ?_⟩
  · unfold State.cf
    rw [hcans]
    exact (mapGet_mapSet hc).trans (if_pos rfl)
  · rw [hcans]
    exact mapSet_wf hc
  · rw [hrb _ _ (by decide) (by decide) (by decide), State.rb_showCan_tx (hset y) (by omega)]
    exact State.rb_wb h _ (by omega)
  · rw [hrb _ _ (by decide) (by decide) (by decide)]
    unfold State.rb
    rw [State.rd_showCan_ne (hset y) (fun he => absurd (cfReg_inj.mp he) (by decide)) (fun he => absurd (cfReg_inj.mp he) (by decide))]
    exact congrArg (tbit · 28) (State.rd_wr_ne h _ (fun he => absurd (cfReg_inj.mp he) (by decide)))

/-- A frame stored in the receive FIFO or as its shadow changes those two of the node, and no pending bit (R374). -/
theorem State.cfStore_effect (h : s.regsWf) (hc : mapWf canDflt s.can = true) (m : Nat) (r : CanRx) :
    (∃ l sh, (s.cfStore m r).cf m = { s.cf m with rx := l, shadow := sh }) ∧
      ∀ i, 8 ≤ i ∧ i < 11 → (s.cfStore m r).rb (cfReg m 0x54) i = s.rb (cfReg m 0x54) i := by
  unfold State.cfStore
  dsimp only
  split
  · refine ⟨⟨(s.cf m).rx ++ [r], (s.cf m).shadow, ?_⟩, fun i hi => State.rb_showCan_tx (s := s.setCf m _) h (by omega)⟩
    rw [State.cf_showCan, State.cf_setCf hc]
  · have hover : ∀ u, u = (if (s.cf m).shadow.isSome then (s.addSat (cfReg m 0x74) 1).raise (cfPage m) 8 else s) →
        u.regsWf ∧ u.can = s.can ∧ ∀ i, u.rb (cfReg m 0x54) i = s.rb (cfReg m 0x54) i := by
      intro u hu
      have hadd : (s.addSat (cfReg m 0x74) 1).regsWf := State.wr_regsWf h
      rw [hu]
      split
      · refine ⟨State.raise_regsWf hadd, ((OnlyRegsMsix.refl _).raise ..).log.frame.2.1, fun i => ?_⟩
        rw [State.rb_raise_ne hadd (cfReg_ne_raw (by decide) (by decide))]
        exact State.rb_wr_ne h _ (fun he => absurd (cfReg_inj.mp he) (by decide))
      · exact ⟨h, rfl, fun _ => rfl⟩
    obtain ⟨hu, hcan, hrb⟩ := hover _ rfl
    generalize (if (s.cf m).shadow.isSome then (s.addSat (cfReg m 0x74) 1).raise (cfPage m) 8 else s) = u at hu hcan hrb ⊢
    refine ⟨⟨(s.cf m).rx, some r, ?_⟩, fun i hi => (State.rb_showCan_tx (s := u.setCf m _) hu (by omega)).trans (hrb i)⟩
    rw [State.cf_showCan, State.cf_setCf (by rw [hcan]; exact hc), State.cf_congr hcan]

/-- The filter of a frame takes a free value at most. -/
theorem State.fltOf_state (m : Nat) (f : CanFrame) : (s.fltOf m f).2.2.regs = s.regs ∧ (s.fltOf m f).2.2.can = s.can := by
  unfold State.fltOf
  split <;> exact ⟨rfl, rfl⟩

section
variable {k : Fin 3} {delay : Nat} (hcan : s.canonical = true) (hc : mapWf canDflt s.can = true) (hb : (s.cf n.val).busy = some k.val)
  (hf : s.cfFifo n.val = false)
include hb hf

omit hcan hc in
theorem State.busFrame_buffer : s.busFrame n.val = some (s.blockFrame n.val (0x100 + 0x80 * k.val)) := by
  simp only [State.busFrame, hb, hf, Bool.false_eq_true, if_false]

/-- The state a frame is finished in: with its delay measured where compensation works (R370). -/
def State.measured (s : State) (n delay : Nat) (f : CanFrame) : State := if s.tdcOn n f then s.measure n delay else s

omit hb hf in
include hc in
theorem State.measured_effect (f : CanFrame) : (s.measured n.val delay f).regs = s.regs ∧ mapWf canDflt (s.measured n.val delay f).can = true ∧
    ∃ d p, (s.measured n.val delay f).cf n.val = { s.cf n.val with delay := d, ssp := p } := by
  unfold State.measured
  split
  · exact ⟨rfl, mapSet_wf hc, _, _, State.cf_setCf hc _ _⟩
  · exact ⟨rfl, hc, (s.cf n.val).delay, (s.cf n.val).ssp, rfl⟩

include hc in
/-- A frame of a buffer that does not fail by its delay: it is sent, and stored as an echo where RX_ALL is set (R371, R373). -/
theorem exec_canFrameSent (hd : s.tdcOn n.val (s.blockFrame n.val (0x100 + 0x80 * k.val)) = false ∨ delay ≤ 160) {u t : State}
    (hu : u = s.measured n.val delay (s.blockFrame n.val (0x100 + 0x80 * k.val))) (ht : t = u.bufferSent n.val k.val) :
    (t.rb (cfReg n.val 0x40) 28 = false → exec (.canFrameSent n delay) s = .next t) ∧
      (t.rb (cfReg n.val 0x40) 28 = true → ∃ f r, exec (.canFrameSent n delay) s = .next ((t.fltOf n.val f).2.2.cfStore n.val r)) := by
  obtain ⟨hregs, -, d, p, hcf⟩ := State.measured_effect (n := n) (delay := delay) hc (s.blockFrame n.val (0x100 + 0x80 * k.val))
  have hpass : (s.tdcOn n.val (s.blockFrame n.val (0x100 + 0x80 * k.val)) && decide (160 < delay)) = false := by
    rcases hd with h0 | h0
    · rw [h0, Bool.false_and]
    · rw [decide_eq_false (Nat.not_lt.mpr h0), Bool.and_false]
  have hbu : (u.cf n.val).busy = some k.val := by rw [hu, hcf]; exact hb
  have hfu : u.cfFifo n.val = false := by
    rw [← hf, hu]
    exact State.rb_congr hregs _ _
  have hbus := State.busFrame_buffer hbu hfu
  have hstart : (if s.tdcOn n.val (s.blockFrame n.val (0x100 + 0x80 * k.val)) then s.measure n.val delay else s) = u := hu.symm
  subst ht
  unfold State.bufferSent
  refine ⟨fun h28 => ?_, fun h28 => ?_⟩
  · change execCanFrameSent n delay s = _
    simp only [execCanFrameSent, State.busFrame_buffer hb hf, hpass, hstart, hbus, hbu, hfu, h28, Bool.false_eq_true, if_false]
  · change ∃ f r, execCanFrameSent n delay s = _
    simp only [execCanFrameSent, State.busFrame_buffer hb hf, hpass, hstart, hbus, hbu, hfu, h28, Bool.false_eq_true, if_false, if_true]
    exact ⟨_, _, rfl⟩

omit hb hf in
include hc hcan in
/-- The buffer of a frame sent in the state `u` in which its delay has been measured. -/
theorem State.measured_sent {u : State} {f : CanFrame} (hu : u = s.measured n.val delay f) :
    (∃ d p, (u.bufferSent n.val k.val).cf n.val = { s.cf n.val with
      busy := none, aborts := (s.cf n.val).aborts.filter (· != k.val), tec := (s.cf n.val).tec - 1, delay := d, ssp := p } ∧
      (u.cf n.val).delay = d ∧ (u.cf n.val).ssp = p) ∧
      mapWf canDflt (u.bufferSent n.val k.val).can = true ∧ (u.bufferSent n.val k.val).regsWf ∧ (u.bufferSent n.val k.val).rb (cfReg n.val 0x54) (8 + k.val) = false ∧
      (u.bufferSent n.val k.val).rb (rga (cfPage n.val) oRaw) 1 = true ∧
      (u.bufferSent n.val k.val).rb (cfReg n.val 0x40) 28 = s.rb (cfReg n.val 0x40) 28 := by
  obtain ⟨hregs, hcans, d, p, hcf⟩ := State.measured_effect (n := n) (delay := delay) hc f
  rw [← hu] at hregs hcans hcf
  have huwf : u.regsWf := by
    unfold State.regsWf
    rw [hregs]
    exact State.canonical_regsWf hcan
  obtain ⟨hsent, hcans', hwf', hpend, hraw, hall⟩ := State.bufferSent_effect huwf hcans n.val k.isLt
  refine ⟨⟨d, p, ?_, ?_, ?_⟩, hcans', hwf', hpend, hraw, hall.trans (State.rb_congr hregs _ _)⟩
  · rw [hsent, hcf]
  · rw [hcf]
  · rw [hcf]

include hcan hc in
theorem canFrameSent_plain (hall : s.rb (cfReg n.val 0x40) 28 = false) (hd : s.rb (cfReg n.val 0x48) 13 = false ∨ delay ≤ 160) :
    ∃ t, exec (.canFrameSent n delay) s = .next t ∧ t.rb (cfReg n.val 0x54) (8 + k.val) = false ∧ (t.cf n.val).busy = none ∧
      (t.cf n.val).tec = (s.cf n.val).tec - 1 ∧ (t.cf n.val).rx = (s.cf n.val).rx ∧ (t.cf n.val).fifo = (s.cf n.val).fifo ∧
      t.rb (rga (cfPage n.val) oRaw) 1 = true := by
  have htdc : s.tdcOn n.val (s.blockFrame n.val (0x100 + 0x80 * k.val)) = false ∨ delay ≤ 160 := by
    rcases hd with h0 | h0
    · left
      simp only [State.tdcOn, h0, Bool.false_and]
    · exact .inr h0
  obtain ⟨⟨d, p, hcf, -, -⟩, -, -, hpend, hraw, h28⟩ :=
    State.measured_sent (k := k) hcan hc (u := s.measured n.val delay (s.blockFrame n.val (0x100 + 0x80 * k.val))) rfl
  refine ⟨_, (exec_canFrameSent hc hb hf htdc rfl rfl).1 (h28.trans hall), hpend, ?_, ?_, ?_, ?_, hraw⟩
  all_goals rw [hcf]

include hcan hc in
theorem canFrameSent_measured {f : CanFrame} {d : Word} (hfr : f = s.blockFrame n.val (0x100 + 0x80 * k.val)) (hfd : f.fdf = true) (hbrs : f.brs = true)
    (hd : d = s.rd (cfReg n.val 0x48)) (hen : tbit d 13 = true) (hdelay : delay ≤ 160) :
    ∃ t, exec (.canFrameSent n delay) s = .next t ∧ (t.cf n.val).delay = delay ∧ (t.cf n.val).ssp = delay + fld d 12 6 * (fld d 31 27 + 1) ∧
      t.rb (cfReg n.val 0x54) (8 + k.val) = false := by
  have hon : s.tdcOn n.val f = true := by
    unfold State.tdcOn State.rb
    rw [← hd, hen, hfd, hbrs]
    rfl
  have hmeas : s.measured n.val delay f = s.measure n.val delay := if_pos hon
  have hucf := State.cf_setCf hc n.val { s.cf n.val with delay := delay, ssp := delay + fld d 12 6 * (fld d 31 27 + 1) }
  have hu : s.measure n.val delay = s.setCf n.val { s.cf n.val with delay := delay, ssp := delay + fld d 12 6 * (fld d 31 27 + 1) } := by
    rw [hd]
    rfl
  obtain ⟨⟨d', p', hcf, hd', hp'⟩, hcans, hwf, hpend, -, -⟩ := State.measured_sent (k := k) hcan hc hmeas.symm
  rw [hu, hucf] at hd' hp'
  have hcf' : ((s.measure n.val delay).bufferSent n.val k.val).cf n.val = { s.cf n.val with
      busy := none, aborts := (s.cf n.val).aborts.filter (· != k.val), tec := (s.cf n.val).tec - 1, delay := delay,
      ssp := delay + fld d 12 6 * (fld d 31 27 + 1) } := by rw [hcf, ← hd', ← hp']
  obtain ⟨hplain, hecho⟩ := exec_canFrameSent hc hb hf (.inr hdelay) (u := s.measure n.val delay) (by rw [← hfr]; exact hmeas.symm) rfl
  cases h28 : ((s.measure n.val delay).bufferSent n.val k.val).rb (cfReg n.val 0x40) 28 with
  | false => exact ⟨_, hplain h28, by rw [hcf'], by rw [hcf'], hpend⟩
  | true =>
    obtain ⟨g, r, hexec⟩ := hecho h28
    obtain ⟨hregs, hcan'⟩ := State.fltOf_state (s := (s.measure n.val delay).bufferSent n.val k.val) n.val g
    obtain ⟨⟨l, sh, hst⟩, hkeep⟩ := State.cfStore_effect (s := (((s.measure n.val delay).bufferSent n.val k.val).fltOf n.val g).2.2)
      (by unfold State.regsWf; rw [hregs]; exact hwf) (by rw [hcan']; exact hcans) n.val r
    refine ⟨_, hexec, ?_, ?_, ?_⟩
    · rw [hst, State.cf_congr hcan', hcf']
    · rw [hst, State.cf_congr hcan', hcf']
    · rw [hkeep _ (by omega), State.rb_congr hregs]
      exact hpend

end

/-! ### Errors -/

/-- An error is counted in its own counter, and LEC holds its kind (R377). -/
theorem State.cfErrNote_effect (h : s.regsWf) (m : Nat) {lec off hi lo : Nat} (hl : lec < 8) (hoff : off ≠ 0x4C) (hoff' : off ≠ 0x54) :
    (s.cfErrNote m lec off hi lo).regsWf ∧ OnlyRegs s (s.cfErrNote m lec off hi lo) ∧ (s.cfErrNote m lec off hi lo).rf (cfReg m 0x4C) 13 11 = lec ∧
      ∀ i, (s.cfErrNote m lec off hi lo).rb (cfReg m 0x54) i = s.rb (cfReg m 0x54) i := by
  have h1 : (s.pf (cfReg m 0x4C) 13 11 lec).regsWf := State.pf_regsWf h
  refine ⟨State.pf_regsWf h1, ((OnlyRegs.refl s).pf ..).pf .., ?_, fun i => ?_⟩
  · refine (State.rf_wr_ne h1 _ (fun he => hoff (cfReg_inj.mp he).symm)).trans ((State.rf_pf h _ (by decide) (by decide)).trans ?_)
    exact Nat.mod_eq_of_lt hl
  · refine (State.rb_wr_ne h1 _ (fun he => hoff' (cfReg_inj.mp he).symm)).trans ?_
    exact State.rb_wr_ne h _ (fun he => absurd (cfReg_inj.mp he) (by decide))

theorem errField_lec (kind : CanErr) : (errField kind).1 < 8 := by
  cases kind <;> decide

theorem errField_off (kind : CanErr) : (errField kind).2.1 ≠ 0x4C ∧ (errField kind).2.1 ≠ 0x54 := by
  cases kind <;> decide

/-- A lost frame shows in CF_TXSTAT and CF_RXSTAT alone. -/
theorem State.rd_cfLost_ne (h : s.regsWf) {m a : Nat} (htx : a ≠ cfReg m 0x54) (hrx : a ≠ cfReg m 0x5C) : (s.cfLost m).rd a = s.rd a := by
  unfold State.cfLost
  dsimp only
  split
  · rfl
  · next k hb =>
    split
    · rw [State.rd_showCan_ne (s := (s.setPending m k false).setCf m _) (State.wb_regsWf h) htx hrx]
      exact State.rd_wr_ne h _ htx
    · exact State.rd_showCan_ne (s := s.setCf m _) h htx hrx

/-- A lost frame stays pending unless an abort waits for it (R371). -/
theorem State.rb_cfLost_pending (h : s.regsWf) {m k i : Nat} (hb : (s.cf m).busy = some k) (ha : k ∉ (s.cf m).aborts) (hi : 7 ≤ i ∧ i < 16) :
    (s.cfLost m).rb (cfReg m 0x54) i = s.rb (cfReg m 0x54) i := by
  have hno : (s.cf m).aborts.contains k = false := by simpa using ha
  simp only [State.cfLost, hb, hno, Bool.false_eq_true, if_false]
  exact State.rb_showCan_tx (s := s.setCf m _) h hi

/-- The counters below bus-off (R377). -/
theorem State.cfErrCount_on (h : s.regsWf) (hc : mapWf canDflt s.can = true) (m : Nat) {ta ra : Nat} (ht : (s.cf m).tec + ta ≤ 255) :
    (∃ c, (s.cfErrCount m ta ra).cf m = { s.cf m with tec := (s.cf m).tec + ta, rec_ := (s.cf m).rec_ + ra, off := false, counting := c }) ∧
      (s.cfErrCount m ta ra).rf (cfReg m 0x4C) 13 11 = s.rf (cfReg m 0x4C) 13 11 ∧
      ∀ i, (s.cfErrCount m ta ra).rb (cfReg m 0x54) i = s.rb (cfReg m 0x54) i := by
  have hoff : decide (255 < (s.cf m).tec + ta) = false := decide_eq_false (Nat.not_lt.mpr ht)
  unfold State.cfErrCount
  simp only [hoff, Bool.false_and, Bool.false_eq_true, if_false]
  have hset : ∀ y, (s.setCf m y).regsWf := fun _ => h
  refine ⟨⟨false, ?_⟩, ?_, fun i => ?_⟩
  · rw [State.cf_congr (State.showErr_can ..), State.cf_setCf hc]
  · exact (State.rf_showErr (hset _) m).2.2
  · exact congrArg (tbit · i) (State.rd_showErr_ne (hset _) (fun he => absurd (cfReg_inj.mp he) (by decide)) (cfReg_ne_raw (by decide) (by decide)))

/-- The counters above 255: bus-off, and the node leaves the bus (R377). -/
theorem State.cfErrCount_off (h : s.regsWf) (hc : mapWf canDflt s.can = true) (m : Nat) {ta ra : Nat} (ht : 255 < (s.cf m).tec + ta) :
    ((s.cfErrCount m ta ra).cf m).off = true ∧ ((s.cfErrCount m ta ra).cf m).busy = none ∧ (s.cfErrCount m ta ra).rf (cfReg m 0x4C) 15 14 = 2 ∧
      (s.cfErrCount m ta ra).rf (cfReg m 0x4C) 23 16 = 255 := by
  have hoff : decide (255 < (s.cf m).tec + ta) = true := decide_eq_true ht
  unfold State.cfErrCount
  simp only [hoff, Bool.true_and, if_true]
  generalize hy : ({ s.cf m with tec := (s.cf m).tec + ta, rec_ := (s.cf m).rec_ + ra, off := true, counting := s.rb (cfReg m 0x40) 27 } : CanNode) = y
  have hyoff : y.off = true := by rw [← hy]
  have hcf := State.cf_setCf hc m y
  obtain ⟨hst, htec, -⟩ := State.rf_showErr (s := s.setCf m y) h m
  rw [hcf] at hst htec
  have herr : ((s.setCf m y).showErr m).regsWf := State.showErr_regsWf (s := s.setCf m y) h m
  have hcans : mapWf canDflt ((s.setCf m y).showErr m).can = true := by
    rw [State.showErr_can]
    exact mapSet_wf hc
  have hleft : (((s.setCf m y).showErr m).leaveBus m).cf m = { y with busy := none } := by
    unfold State.leaveBus
    rw [State.cf_showCan, State.cf_setCf hcans, State.cf_congr (State.showErr_can ..), hcf]
  have hrf : ∀ hi lo, (((s.setCf m y).showErr m).leaveBus m).rf (cfReg m 0x4C) hi lo = ((s.setCf m y).showErr m).rf (cfReg m 0x4C) hi lo := by
    intro hi lo
    exact congrArg (fld · hi lo) (State.rd_showCan_ne (s := ((s.setCf m y).showErr m).setCf m _) herr (fun he => absurd (cfReg_inj.mp he) (by decide))
      (fun he => absurd (cfReg_inj.mp he) (by decide)))
  refine ⟨?_, ?_, ?_, ?_⟩
  · rw [hleft]
    exact hyoff
  · rw [hleft]
  · rw [hrf, hst]
    simp only [CanNode.errState, hyoff, if_true]
  · rw [hrf, htec, hyoff, if_pos rfl]

/-- A frame failed by its delay: a bit error that TEC counts by 8, and the frame stays pending (R370). -/
theorem State.tdcFail_effect (h : s.regsWf) (hc : mapWf canDflt s.can = true) {m k : Nat} (hb : (s.cf m).busy = some k) (ha : k ∉ (s.cf m).aborts)
    (hk : k < 3) (ht : (s.cf m).tec + 8 ≤ 255) :
    ((s.tdcFail m).cf m).busy = none ∧ (s.tdcFail m).rb (cfReg m 0x54) (8 + k) = s.rb (cfReg m 0x54) (8 + k) ∧
      ((s.tdcFail m).cf m).tec = (s.cf m).tec + 8 ∧ ((s.tdcFail m).rf (cfReg m 0x4C) 13 11 = 4 ∨ (s.tdcFail m).rf (cfReg m 0x4C) 13 11 = 5) := by
  have hnote : ∃ lec off hi lo, (lec = 4 ∨ lec = 5) ∧ off ≠ 0x4C ∧ off ≠ 0x54 ∧
      s.tdcFail m = ((s.take.2.cfErrNote m lec off hi lo).cfLost m).cfErrCount m 8 0 := by
    unfold State.tdcFail
    dsimp only
    split
    · exact ⟨4, 0x68, 31, 16, .inl rfl, by decide, by decide, rfl⟩
    · exact ⟨5, 0x68, 15, 0, .inr rfl, by decide, by decide, rfl⟩
  obtain ⟨lec, off, hi, lo, hlec, hoff, hoff', he⟩ := hnote
  have hl8 : lec < 8 := by omega
  obtain ⟨hwf, honly, hl, hpend⟩ := State.cfErrNote_effect (s := s.take.2) h m (hi := hi) (lo := lo) hl8 hoff hoff'
  have hcan : (s.take.2.cfErrNote m lec off hi lo).can = s.can := honly.frame.2.1
  generalize s.take.2.cfErrNote m lec off hi lo = u at hwf hl hpend hcan he
  have hcf : u.cf m = s.cf m := State.cf_congr hcan m
  have hcu : mapWf canDflt u.can = true := by
    rw [hcan]
    exact hc
  obtain ⟨⟨l, hlost⟩, hcl, hwl⟩ := State.cfLost_effect hwf hcu m
  have htec : ((u.cfLost m).cf m).tec + 8 ≤ 255 := by
    rw [hlost, hcf]
    exact ht
  obtain ⟨⟨c, hcnt⟩, hlec', hpend'⟩ := State.cfErrCount_on hwl hcl m (ra := 0) htec
  rw [he]
  refine ⟨?_, ?_, ?_, ?_⟩
  · rw [hcnt, hlost]
  · rw [hpend', State.rb_cfLost_pending hwf (by rw [hcf]; exact hb) (by rw [hcf]; exact ha) (by omega), hpend]
    rfl
  · rw [hcnt, hlost, hcf]
  · have hkeep : (u.cfLost m).rf (cfReg m 0x4C) 13 11 = lec := (congrArg (fld · 13 11) (State.rd_cfLost_ne hwf (fun he => absurd (cfReg_inj.mp he) (by decide))
      (fun he => absurd (cfReg_inj.mp he) (by decide)))).trans hl
    rw [hlec', hkeep]
    exact hlec

theorem canFrameSent_failed {k : Fin 3} {delay : Nat} {f : CanFrame} {d : Word} (hcan : s.canonical = true) (hc : mapWf canDflt s.can = true)
    (hb : (s.cf n.val).busy = some k.val) (hf : s.cfFifo n.val = false) (hfr : f = s.blockFrame n.val (0x100 + 0x80 * k.val)) (hfd : f.fdf = true)
    (hbrs : f.brs = true) (hd : d = s.rd (cfReg n.val 0x48)) (hen : tbit d 13 = true) (hdelay : 160 < delay) (ha : k.val ∉ (s.cf n.val).aborts)
    (ht : (s.cf n.val).tec + 8 ≤ 255) :
    ∃ t, exec (.canFrameSent n delay) s = .next t ∧ (t.cf n.val).busy = none ∧ t.rb (cfReg n.val 0x54) (8 + k.val) = s.rb (cfReg n.val 0x54) (8 + k.val) ∧
      (t.cf n.val).tec = (s.cf n.val).tec + 8 ∧ (t.rf (cfReg n.val 0x4C) 13 11 = 4 ∨ t.rf (cfReg n.val 0x4C) 13 11 = 5) := by
  have hon : s.tdcOn n.val (s.blockFrame n.val (0x100 + 0x80 * k.val)) = true := by
    unfold State.tdcOn State.rb
    rw [← hd, hen, ← hfr, hfd, hbrs]
    rfl
  have hexec : exec (.canFrameSent n delay) s = .next ((s.measure n.val delay).tdcFail n.val) := by
    change execCanFrameSent n delay s = _
    simp only [execCanFrameSent, State.busFrame_buffer hb hf, hon, hdelay, decide_true, Bool.and_self, if_true]
  have hcf : (s.measure n.val delay).cf n.val = { s.cf n.val with
      delay := delay, ssp := delay + fld (s.rd (cfReg n.val 0x48)) 12 6 * (fld (s.rd (cfReg n.val 0x48)) 31 27 + 1) } := State.cf_setCf hc _ _
  obtain ⟨hbusy, hpend, htec, hlec⟩ := State.tdcFail_effect (s := s.measure n.val delay) (m := n.val) (k := k.val) (State.canonical_regsWf hcan) (mapSet_wf hc)
    (by rw [hcf]; exact hb) (by rw [hcf]; exact ha) k.isLt (by rw [hcf]; exact ht)
  rw [hcf] at htec
  exact ⟨_, hexec, hbusy, hpend, htec, hlec⟩

section
variable {kind : CanErr} {ta ra : Nat} (hcan : s.canonical = true) (hc : mapWf canDflt s.can = true) (hon : s.cfOn n.val = true)
  (hm : s.cfMode n.val = 1 ∨ s.cfMode n.val = 2) (hoff : (s.cf n.val).off = false)
include hcan hc hon hm hoff

omit hcan hc in
/-- A node that is on the bus takes part in it (R377). -/
theorem State.cfTakesPart : (!s.cfOn n.val || (s.cfMode n.val != 1 && s.cfMode n.val != 2) || (s.cf n.val).off) = false := by
  rw [hon, hoff]
  rcases hm with h | h <;> rw [h] <;> rfl

theorem canError_received (ht : (s.cf n.val).tec + ta ≤ 255) :
    ∃ t, exec (.canError n kind false false ta ra) s = .next t ∧ (t.cf n.val).tec = (s.cf n.val).tec + ta ∧ (t.cf n.val).rec_ = (s.cf n.val).rec_ + ra ∧
      (t.cf n.val).off = false ∧ t.rf (cfReg n.val 0x4C) 13 11 = (errField kind).1 := by
  have hexec : exec (.canError n kind false false ta ra) s = .next ((s.cfErrNote n.val (errField kind).1 (errField kind).2.1 (errField kind).2.2.1
      (errField kind).2.2.2).cfErrCount n.val ta ra) := by
    change execCanError n kind false false ta ra s = _
    unfold execCanError
    simp only [State.cfTakesPart hon hm hoff, Bool.false_eq_true, if_false]
  obtain ⟨hwf, honly, hl, -⟩ := State.cfErrNote_effect (State.canonical_regsWf hcan) n.val (hi := (errField kind).2.2.1) (lo := (errField kind).2.2.2)
    (errField_lec kind) (errField_off kind).1 (errField_off kind).2
  have hcan' := honly.frame.2.1
  have hcf := State.cf_congr hcan' n.val
  obtain ⟨⟨c, hcnt⟩, hlec, -⟩ := State.cfErrCount_on hwf (by rw [hcan']; exact hc) n.val (ta := ta) (ra := ra) (by rw [hcf]; exact ht)
  rw [hcf] at hcnt
  exact ⟨_, hexec, by rw [hcnt], by rw [hcnt], by rw [hcnt], hlec.trans hl⟩

theorem canError_busOff (ht : 255 < (s.cf n.val).tec + ta) :
    ∃ t, exec (.canError n kind true false ta ra) s = .next t ∧ (t.cf n.val).off = true ∧ (t.cf n.val).busy = none ∧
      t.rf (cfReg n.val 0x4C) 15 14 = 2 ∧ t.rf (cfReg n.val 0x4C) 23 16 = 255 := by
  have hexec : exec (.canError n kind true false ta ra) s = .next (((s.cfErrNote n.val (errField kind).1 (errField kind).2.1 (errField kind).2.2.1
      (errField kind).2.2.2).cfLost n.val).cfErrCount n.val ta ra) := by
    change execCanError n kind true false ta ra s = _
    unfold execCanError
    simp only [State.cfTakesPart hon hm hoff, Bool.false_eq_true, and_false, if_false, if_true]
    split <;> rfl
  obtain ⟨hwf, honly, -, -⟩ := State.cfErrNote_effect (State.canonical_regsWf hcan) n.val (hi := (errField kind).2.2.1) (lo := (errField kind).2.2.2)
    (errField_lec kind) (errField_off kind).1 (errField_off kind).2
  have hcan' := honly.frame.2.1
  obtain ⟨⟨l, hlost⟩, hcl, hwl⟩ := State.cfLost_effect hwf (by rw [hcan']; exact hc) n.val
  obtain ⟨ho, hb, hst, htec⟩ := State.cfErrCount_off hwl hcl n.val (ta := ta) (ra := ra) (by rw [hlost, State.cf_congr hcan']; exact ht)
  exact ⟨_, hexec, ho, hb, hst, htec⟩

end

end Sys2Proof.Machine
end

section
/-!
CAN reception (R373, R379); with it the obligation CanBuffers.
-/
namespace Sys2Proof.Machine

variable {s u : State} {n : Fin 8} {m k : Nat} {frame : CanFrame}

/-! ### Acceptance filters -/

theorem foldl_invariant {α : Type} {g : State → α → State} {P : State → Prop} {l : List α} (hg : ∀ s, P s → ∀ x ∈ l, P (g s x)) (hs : P s) :
    P (l.foldl g s) := by
  induction l generalizing s with
  | nil => exact hs
  | cons x l ih => exact ih (fun t ht y hy => hg t ht y (by simp [hy])) (hg s hs x (by simp))

/-- A filter that matches counts, and its TIMED_OUT clears (R379). -/
def State.fltCount (s : State) (m : Nat) (f : CanFrame) (k : Nat) : State :=
  if s.fltHit m k f then (s.incSat (cfReg m (0x40C + 16 * k)) 15 0).wb (cfReg m (0x40C + 16 * k)) 31 false else s

/-- The filter counters of node m may differ, and nothing else. -/
def FilterCounts (m : Nat) (s u : State) : Prop :=
  u.regsWf ∧ OnlyRegs s u ∧ ∀ a, (∀ j, j < 32 → a ≠ cfReg m (0x40C + 16 * j)) → u.rd a = s.rd a

theorem FilterCounts.refl (h : s.regsWf) (m : Nat) : FilterCounts m s s := ⟨h, OnlyRegs.refl s, fun _ _ => rfl⟩

theorem FilterCounts.count (h : FilterCounts m s u) (hk : k < 32) (f : CanFrame) : FilterCounts m s (u.fltCount m f k) := by
  obtain ⟨hwf, honly, hrd⟩ := h
  unfold State.fltCount
  split
  · have hinc : (u.incSat (cfReg m (0x40C + 16 * k)) 15 0).regsWf := State.pf_regsWf hwf
    refine ⟨State.wb_regsWf hinc, (honly.pf ..).wb .., fun a ha => ?_⟩
    refine (State.rd_wr_ne hinc _ (ha k hk)).trans ((State.rd_wr_ne hwf _ (ha k hk)).trans (hrd a ha))
  · exact ⟨hwf, honly, hrd⟩

/-- Whether a filter matches does not depend on the counters (R373). -/
theorem FilterCounts.fltHit (h : FilterCounts m s u) (f : CanFrame) (k : Nat) : u.fltHit m k f = s.fltHit m k f := by
  obtain ⟨-, -, hrd⟩ := h
  have ha : u.rd (cfReg m (0x400 + 16 * k)) = s.rd (cfReg m (0x400 + 16 * k)) := hrd _ fun j _ he => by
    have := cfReg_inj.mp he
    omega
  have hb : u.rd (cfReg m (0x404 + 16 * k)) = s.rd (cfReg m (0x404 + 16 * k)) := hrd _ fun j _ he => by
    have := cfReg_inj.mp he
    omega
  unfold State.fltHit State.rf
  rw [ha, hb]

theorem FilterCounts.fold (h : s.regsWf) (m : Nat) (f : CanFrame) {l : List Nat} (hl : ∀ k ∈ l, k < 32) :
    FilterCounts m s (l.foldl (fun s k => s.fltCount m f k) s) :=
  foldl_invariant (P := FilterCounts m s) (fun _ ht k hk => ht.count (hl k hk) f) (.refl h m)

/-- TIMED_OUT of a filter that matches is clear after all filters have seen the frame (R379). -/
theorem timedOut_cleared (h : s.regsWf) (f : CanFrame) (hk : k < 32) (hhit : s.fltHit m k f = true) :
    ((List.range 32).foldl (fun s k => s.fltCount m f k) s).rb (cfReg m (0x40C + 16 * k)) 31 = false := by
  obtain ⟨l₁, l₂, hl⟩ := List.append_of_mem (List.mem_range.mpr hk)
  have hlt : ∀ j ∈ l₁ ++ k :: l₂, j < 32 := fun j hj => List.mem_range.mp (hl ▸ hj)
  rw [hl, List.foldl_append, List.foldl_cons]
  have hbefore := FilterCounts.fold h m f (l := l₁) fun j hj => hlt j (by simp [hj])
  generalize l₁.foldl (fun s k => s.fltCount m f k) s = t at hbefore ⊢
  have hthit := (hbefore.fltHit f k).trans hhit
  refine (foldl_invariant (P := fun t => t.regsWf ∧ t.rb (cfReg m (0x40C + 16 * k)) 31 = false) (fun t ht j hj => ?_) ?_).2
  · obtain ⟨hwf, hrb⟩ := ht
    have hinc : (t.incSat (cfReg m (0x40C + 16 * j)) 15 0).regsWf := State.pf_regsWf hwf
    unfold State.fltCount
    split
    · refine ⟨State.wb_regsWf hinc, ?_⟩
      by_cases hjk : j = k
      · subst hjk
        exact State.rb_wb hinc _ (by decide)
      · have hne : cfReg m (0x40C + 16 * k) ≠ cfReg m (0x40C + 16 * j) := fun he => hjk (by
          have := cfReg_inj.mp he
          omega)
        exact (State.rb_wr_ne hinc _ hne).trans ((State.rb_wr_ne hwf _ hne).trans hrb)
    · exact ⟨hwf, hrb⟩
  · have hinc : (t.incSat (cfReg m (0x40C + 16 * k)) 15 0).regsWf := State.pf_regsWf hbefore.1
    rw [State.fltCount, if_pos hthit]
    exact ⟨State.wb_regsWf hinc, State.rb_wb hinc _ (by decide)⟩

theorem find_congr {α : Type} {P Q : α → Bool} {l : List α} (h : ∀ x ∈ l, P x = Q x) : l.find? P = l.find? Q := by
  induction l with
  | nil => rfl
  | cons x l ih => rw [List.find?_cons, List.find?_cons, h x List.mem_cons_self, ih fun y hy => h y (List.mem_cons_of_mem x hy)]

/-- The filter that is found first matches, and is one of the 32. -/
theorem find_range {P : Nat → Bool} (h : (List.range 32).find? P = some k) : P k = true ∧ k < 32 :=
  ⟨List.find?_some h, List.mem_range.mp (List.mem_of_find?_eq_some h)⟩

/-- A frame that a filter takes, and that finds room, enters the receive FIFO with the time of its start (R373). -/
theorem State.cfFilter_taken (h : s.regsWf) (hc : mapWf canDflt s.can = true) {age : Nat}
    (hfind : (List.range 32).find? (fun k => s.fltHit m k frame) = some k) (hroom : (s.cf m).rx.length < 64) :
    (s.cfFilter m frame age).cf m = { s.cf m with
      rx := (s.cf m).rx ++ [⟨frame, false, k, false, (2 * s.ptpNs - 25 * age) / 2 / 1000000000, (2 * s.ptpNs - 25 * age) / 2 % 1000000000⟩] } ∧
      (s.cfFilter m frame age).rb (rga (cfPage m) oRaw) 0 = true ∧ (s.cfFilter m frame age).rb (cfReg m (0x40C + 16 * k)) 31 = false := by
  obtain ⟨hhit, hk⟩ := find_range hfind
  have hcounts := FilterCounts.fold h m frame (l := List.range 32) fun j hj => List.mem_range.mp hj
  have hclear := timedOut_cleared h frame hk hhit
  generalize hu : (List.range 32).foldl (fun s k => s.fltCount m frame k) s = u at hcounts hclear
  have hfind' : (List.range 32).find? (fun k => u.fltHit m k frame) = some k := by
    rw [← hfind]
    exact find_congr fun j _ => hcounts.fltHit frame j
  obtain ⟨hwf, honly, -⟩ := hcounts
  obtain ⟨-, hcan, -, hclock⟩ := honly.frame
  have hcf : u.cf m = s.cf m := State.cf_congr hcan m
  have hns : u.sofTime age = (2 * s.ptpNs - 25 * age) / 2 := by
    unfold State.sofTime State.ptpNs
    rw [hclock]
  have heq : s.cfFilter m frame age = ((u.setCf m { s.cf m with
      rx := (s.cf m).rx ++ [⟨frame, false, k, false, (2 * s.ptpNs - 25 * age) / 2 / 1000000000, (2 * s.ptpNs - 25 * age) / 2 % 1000000000⟩] }).showCan m).raise
        (cfPage m) 0 := by
    unfold State.cfFilter
    unfold State.fltCount at hu
    simp only [hu, State.fltOf, hfind', State.cfStore, hcf, hroom, hns, Bool.true_or, if_true]
  have hshown := State.showCan_regsWf (s := u.setCf m { s.cf m with
      rx := (s.cf m).rx ++ [⟨frame, false, k, false, (2 * s.ptpNs - 25 * age) / 2 / 1000000000, (2 * s.ptpNs - 25 * age) / 2 % 1000000000⟩] }) hwf m
  rw [heq]
  refine ⟨?_, State.rb_raise_same hshown (by decide), ?_⟩
  · rw [State.cf_congr ((OnlyRegsMsix.refl _).raise (cfPage m) 0).log.frame.2.1, State.cf_showCan, State.cf_setCf (by rw [hcan]; exact hc)]
  · rw [State.rb_raise_ne hshown (cfReg_ne_raw (by omega) (by unfold oRaw; omega))]
    refine (congrArg (tbit · 31) (State.rd_showCan_ne (s := u.setCf m _) hwf (fun he => ?_) (fun he => ?_))).trans hclear
    · have := cfReg_inj.mp he
      omega
    · have := cfReg_inj.mp he
      omega

/-- Showing the error counters leaves the filters. -/
theorem State.fltHit_showErr (h : s.regsWf) (m : Nat) (f : CanFrame) (hk : k < 32) : (s.showErr m).fltHit m k f = s.fltHit m k f := by
  have hrd : ∀ off, 0x400 ≤ off → off < 0x800 → (s.showErr m).rd (cfReg m off) = s.rd (cfReg m off) := by
    intro off h0 h1
    refine State.rd_showErr_ne h (fun he => ?_) (cfReg_ne_raw (by omega) (by unfold oRaw; omega))
    have := cfReg_inj.mp he
    omega
  unfold State.fltHit State.rf
  rw [hrd _ (by omega) (by omega), hrd _ (by omega) (by omega)]

theorem canFrameReceived_taken {age : Nat} (hcan : s.canonical = true) (hc : mapWf canDflt s.can = true) (hon : s.cfOn n.val = true)
    (hm : s.cfMode n.val = 1 ∨ s.cfMode n.val = 2) (hoff : (s.cf n.val).off = false) (hfd : frame.fdf = false) (hb : (s.cf n.val).busy = none)
    (hrec : (s.cf n.val).rec_ ≤ 127) (hfind : (List.range 32).find? (fun k => s.fltHit n.val k frame) = some k) (hroom : (s.cf n.val).rx.length < 64) :
    ∃ t, exec (.canFrameReceived n frame age) s = .next t ∧
      (t.cf n.val).rx = (s.cf n.val).rx ++ [⟨frame, false, k, false, (2 * s.ptpNs - 25 * age) / 2 / 1000000000, (2 * s.ptpNs - 25 * age) / 2 % 1000000000⟩] ∧
      (t.cf n.val).rec_ = (s.cf n.val).rec_ - 1 ∧ (t.cf n.val).tec = (s.cf n.val).tec ∧ t.rb (rga (cfPage n.val) oRaw) 0 = true ∧
      t.rb (cfReg n.val (0x40C + 16 * k)) 31 = false := by
  have hlost : s.cfLost n.val = s := by simp only [State.cfLost, hb]
  have hexec : exec (.canFrameReceived n frame age) s
      = .next (((s.setCf n.val { s.cf n.val with rec_ := (s.cf n.val).rec_ - 1 }).showErr n.val).cfFilter n.val frame age) := by
    change execCanFrameReceived n frame age s = _
    simp only [execCanFrameReceived, State.cfTakesPart hon hm hoff, hfd, hlost, Nat.not_lt.mpr hrec, Bool.false_and, Bool.or_self, Bool.false_eq_true, if_false]
  generalize hv : s.setCf n.val { s.cf n.val with rec_ := (s.cf n.val).rec_ - 1 } = v at hexec
  have hvwf : v.regsWf := by
    rw [← hv]
    exact State.canonical_regsWf hcan
  have hvc : mapWf canDflt v.can = true := by
    rw [← hv]
    exact mapSet_wf hc
  have hvcf : (v.showErr n.val).cf n.val = { s.cf n.val with rec_ := (s.cf n.val).rec_ - 1 } := by
    rw [State.cf_congr (State.showErr_can ..), ← hv, State.cf_setCf hc]
  have hns : (v.showErr n.val).ptpNs = s.ptpNs := by
    unfold State.ptpNs
    rw [(State.showErr_onlyRegsLog v n.val).frame.2.2.2, ← hv]
    rfl
  have hfind' : (List.range 32).find? (fun k => (v.showErr n.val).fltHit n.val k frame) = some k := by
    rw [← hfind]
    refine find_congr fun j hj => ?_
    rw [State.fltHit_showErr hvwf n.val frame (List.mem_range.mp hj), ← hv]
    rfl
  obtain ⟨hcf, hraw, hclear⟩ := State.cfFilter_taken (age := age) (State.showErr_regsWf hvwf n.val) (by rw [State.showErr_can]; exact hvc) hfind'
    (by rw [hvcf]; exact hroom)
  rw [hvcf, hns] at hcf
  exact ⟨_, hexec, by rw [hcf], by rw [hcf], by rw [hcf], hraw, hclear⟩

/-- Settles O35: commands, arbitration, frames sent and received, errors and timeouts, each by the node's own record and the registers that show it. -/
theorem canBuffers : Obligations.CanBuffers := by
  refine ⟨fun s f n hw => ⟨fun k hf => ⟨txbReq_request hw hf, txbAbort_free hw hf, txbAbort_busy hw hf⟩,
    fun hf => ⟨txfPush_room hw hf, txfPush_full hw hf, txfFlush_idle hw hf, txfFlush_busy hw hf⟩, ?_⟩, ?_⟩
  · rintro x rfl
    exact ⟨rxPop_alone hw, fun r => rxPop_shadow hw⟩
  · rintro s n x rfl hcan hc
    exact ⟨fun hs hb => ⟨canArbitration_fifo hs hb, fun k => canArbitration_single hs hb k, fun p a b => canArbitration_pair hs hb⟩,
      fun k delay hb hf hall hd => canFrameSent_plain hcan hc hb hf hall hd,
      fun k delay f d hb hf hfr hfd hbrs hd hen => ⟨fun hdelay => canFrameSent_measured hcan hc hb hf hfr hfd hbrs hd hen hdelay,
        fun hdelay ha ht => canFrameSent_failed hcan hc hb hf hfr hfd hbrs hd hen hdelay ha ht⟩,
      fun frame age k hon hm hoff hfd hb hrec hfind hroom => canFrameReceived_taken hcan hc hon hm hoff hfd hb hrec hfind hroom,
      fun kind ta ra hon hm hoff => ⟨canError_received hcan hc hon hm hoff, canError_busOff hcan hc hon hm hoff⟩,
      fun k hf hk hp => txTimeout_buffer hcan hc hf hk hp, fun k hf hk => txTimeout_fifo hcan hc hf hk, fun k hv ht => rxTimeout_effect hcan hv ht⟩

end Sys2Proof.Machine
end

section
/-!
I2C transfers, the bus clear and SMBALERT (R381 to R386, R418): from these the obligation I2cTransfers.
-/
namespace Sys2Proof.Machine

variable {s : State} {n : Fin 2} {f : Func} {m : Nat}

theorem icReg_inj {a b : Nat} : icReg m a = icReg m b ↔ a = b := rga_inj

theorem State.ic_setIc (h : mapWf dflt s.i2c = true) (m : Nat) (x : I2cPort) : (s.setIc m x).ic m = x := (mapGet_mapSet h).trans (if_pos rfl)

/-! ### The start of a transfer -/

theorem exec_i2cStart (hw : s.mayWrite f (icReg n.val 0x48) = true) : exec (.i2cStart f n 1 []) s = .next (s.icStart n.val []) := by
  change execI2cStart f n 1 [] s = _
  rw [execI2cStart, State.guarded_of_mayWrite hw]
  simp only [State.wrIcCtl, show tbit (1 : Word) 0 = true by decide, show tbit (1 : Word) 1 = false by decide, Bool.false_and, Bool.false_eq_true, if_false,
    if_true]

theorem State.icStart_fenced (hen : s.blkOn (icPage m) = true) (hf : s.icFenced m = true) : s.icStart m [] = s.icEnd m 6 := by
  simp only [State.icStart, hen, hf, Bool.not_true, Bool.false_eq_true, if_false, if_true]

theorem State.icStart_busy (hen : s.blkOn (icPage m) = true) (hf : s.icFenced m = false) (hb : s.rb (icReg m 0x4C) 30 = true) :
    s.icStart m [] = s.icEnd m 7 := by
  simp only [State.icStart, hen, hf, hb, Bool.not_true, Bool.false_eq_true, if_false, if_true]

/-- The registers that say whether a port serves are no transfer status. -/
theorem icReg_ne_ctl (m p : Nat) : rga p oCtl ≠ icReg m 0x4C := rga_ne_of_off (by decide) (by decide) (by decide)
theorem icReg_ne_stat (m p : Nat) : rga p oStat ≠ icReg m 0x4C := rga_ne_of_off (by decide) (by decide) (by decide)
theorem icReg_ne_raw (m p : Nat) : icReg m 0x4C ≠ rga p oRaw := rga_ne_of_off (by decide) (by decide) (by decide)

/-- An idle port that no sensor waits for takes the host transfer (R382). -/
theorem State.icServe_host (hrun : (s.ic m).run = none) (hf : s.icFenced m = false) (hen : s.blkOn (icPage m) = true) (hs : s.sensors m = [])
    (hw : (s.ic m).hostWaits = true) : s.icServe m = s.setIc m { s.ic m with run := some .host, hostWaits := false } := by
  simp only [State.icServe, hrun, hf, hen, hs, hw, Option.isSome_none, Bool.not_true, Bool.or_self, Bool.false_eq_true, if_false, if_true]

theorem i2cStart_effect (hcan : s.canonical = true) (hw : s.mayWrite f (icReg n.val 0x48) = true) (hen : s.blkOn (icPage n.val) = true)
    (hf : s.icFenced n.val = false) (hb : s.rb (icReg n.val 0x4C) 30 = false) (hrun : (s.ic n.val).run = none) (hs : s.sensors n.val = [])
    (hi : mapWf dflt s.i2c = true) :
    ∃ t, exec (.i2cStart f n 1 []) s = .next t ∧ (t.ic n.val).run = some .host ∧ (t.ic n.val).xfer = s.rd (icReg n.val 0x44) ∧
      t.rb (icReg n.val 0x4C) 30 = true ∧ OnlyRegs { s with i2c := t.i2c } t := by
  have h := State.canonical_regsWf hcan
  have hstart : ∃ x, x.run = none ∧ x.hostWaits = true ∧ x.xfer = s.rd (icReg n.val 0x44) ∧
      s.icStart n.val [] = ((s.setIc n.val x).wb (icReg n.val 0x4C) 30 true).icServe n.val := by
    simp only [State.icStart, hen, hf, hb, List.isEmpty_nil, Bool.true_or, Bool.not_true, Bool.false_eq_true, if_false, if_true]
    refine ⟨_, ?_, ?_, ?_, rfl⟩
    · exact hrun
    · rfl
    · rfl
  obtain ⟨x, hxr, hxw, hxf, heq⟩ := hstart
  generalize hu : (s.setIc n.val x).wb (icReg n.val 0x4C) 30 true = u at heq
  have hset : (s.setIc n.val x).regsWf := h
  have huic : u.ic n.val = x := by
    rw [← hu]
    exact State.ic_setIc hi n.val x
  have hui : mapWf dflt u.i2c = true := by
    rw [← hu]
    exact mapSet_wf hi
  have hserve : u.icServe n.val = u.setIc n.val { x with run := some .host, hostWaits := false } := by
    have hserve := State.icServe_host (s := u) (m := n.val) (by rw [huic]; exact hxr) ?_ ?_ (by rw [← hu]; exact hs) (by rw [huic]; exact hxw)
    · rw [hserve, huic]
    · rw [← hf, ← hu]
      exact State.rb_wr_ne hset _ (icReg_ne_stat n.val (icPage n.val))
    · rw [← hen, ← hu]
      exact State.rb_wr_ne hset _ (icReg_ne_ctl n.val (icPage n.val))
  refine ⟨u.setIc n.val { x with run := some .host, hostWaits := false }, ?_, ?_, ?_, ?_, ?_⟩
  · rw [exec_i2cStart hw, heq, hserve]
  · rw [State.ic_setIc hui]
  · rw [State.ic_setIc hui]
    exact hxf
  · change u.rb _ _ = true
    rw [← hu]
    exact State.rb_wb hset _ (by decide)
  · rw [← hu]
    rfl

/-! ### The end of a transfer -/

/-- The status of a host transfer that has ended (R386). -/
theorem State.icEnd_reads (h : s.regsWf) {m st : Nat} (hst : st < 8) : (s.icEnd m st).regsWf ∧ (s.icEnd m st).rf (icReg m 0x4C) 18 16 = st ∧
    (s.icEnd m st).rb (icReg m 0x4C) 31 = true ∧ (s.icEnd m st).rb (icReg m 0x4C) 30 = s.rb (icReg m 0x4C) 30 ∧
    (s.icEnd m st).rb (rga (icPage m) oRaw) 0 = true := by
  have hpf : (s.pf (icReg m 0x4C) 18 16 st).regsWf := State.pf_regsWf h
  have hwb : ((s.pf (icReg m 0x4C) 18 16 st).wb (icReg m 0x4C) 31 true).regsWf := State.wb_regsWf hpf
  unfold State.icEnd
  refine ⟨State.raise_regsWf hwb, ?_, ?_, ?_, State.rb_raise_same hwb (by decide)⟩
  · rw [State.rf_raise_ne hwb (icReg_ne_raw m _), State.rf_wb_out hpf _ (by decide) (.inl (by decide)) (by decide), State.rf_pf h _ (by decide) (by decide)]
    exact Nat.mod_eq_of_lt hst
  · rw [State.rb_raise_ne hwb (icReg_ne_raw m _), State.rb_wb hpf _ (by decide)]
  · rw [State.rb_raise_ne hwb (icReg_ne_raw m _)]
    unfold State.rb
    rw [State.rd_wb hpf, if_pos rfl, tbit_setBit_ne (by decide) (by decide)]
    exact State.rb_pf_out h _ (by decide) (by decide) (.inr (by decide))

/-- An idle port without a request serves none: it stands, or drops none (R382, R385). -/
theorem State.icServe_none (hrun : (s.ic m).run = none) (hw : (s.ic m).hostWaits = false) (hs : s.sensors m = []) :
    s.icServe m = s ∨ s.icServe m = (s.setIc m { s.ic m with run := none, hostWaits := false }).wb (icReg m 0x4C) 30 false := by
  by_cases hf : (s.icFenced m || !s.blkOn (icPage m)) = true
  · right
    simp only [State.icServe, hrun, hf, Option.isSome_none, Bool.false_eq_true, if_false, if_true, State.icDrop, hw, hs, List.foldl_nil]
    rfl
  · left
    simp only [State.icServe, hrun, hf, hs, hw, Option.isSome_none, Bool.false_eq_true, if_false]

theorem i2cTransferDone_nack (hcan : s.canonical = true) (hrun : (s.ic n.val).run = some .host) (hi : mapWf dflt s.i2c = true)
    (hw : (s.ic n.val).hostWaits = false) (hs : s.sensors n.val = []) :
    ∃ t, exec (.i2cTransferDone n [] .nackAddr) s = .next t ∧ t.rf (icReg n.val 0x4C) 18 16 = 1 ∧ t.rb (icReg n.val 0x4C) 31 = true ∧
      t.rb (icReg n.val 0x4C) 30 = false ∧ (t.ic n.val).run = none ∧ t.rb (rga (icPage n.val) oRaw) 0 = true := by
  have h := State.canonical_regsWf hcan
  have hexec : exec (.i2cTransferDone n [] .nackAddr) s
      = .next ((((s.setIc n.val { s.ic n.val with run := none, watch := false }).wb (icReg n.val 0x4C) 30 false).icEnd n.val 1).icServe n.val) := by
    change execI2cTransferDone n [] .nackAddr s = _
    simp only [execI2cTransferDone, hrun, Option.isNone_some, Bool.false_eq_true, if_false, List.isEmpty_nil, if_true, State.hostEnd]
  generalize hv : (s.setIc n.val { s.ic n.val with run := none, watch := false }).wb (icReg n.val 0x4C) 30 false = v at hexec
  have hset : ∀ x, (s.setIc n.val x).regsWf := fun _ => h
  have hvwf : v.regsWf := by
    rw [← hv]
    exact State.wb_regsWf (hset _)
  have hv30 : v.rb (icReg n.val 0x4C) 30 = false := by
    rw [← hv]
    exact State.rb_wb (hset _) _ (by decide)
  have hvic : v.ic n.val = { s.ic n.val with run := none, watch := false } := by
    rw [← hv]
    exact State.ic_setIc hi n.val _
  have hvi : mapWf dflt v.i2c = true := by
    rw [← hv]
    exact mapSet_wf hi
  have hvs : v.sensors n.val = [] := by
    rw [← hs, ← hv]
    rfl
  obtain ⟨hwf, hst, h31, h30, hraw⟩ := State.icEnd_reads hvwf (m := n.val) (st := 1) (by decide)
  have honly : OnlyRegsMsix v (v.icEnd n.val 1) := (((OnlyRegsMsix.refl v).pf ..).wb ..).raise ..
  have hi2c : (v.icEnd n.val 1).i2c = v.i2c := by
    unfold OnlyRegsMsix at honly
    rw [honly]
  have hsens : (v.icEnd n.val 1).sensors n.val = [] := by
    rw [← hvs]
    unfold OnlyRegsMsix at honly
    rw [honly]
    rfl
  generalize v.icEnd n.val 1 = u at hexec hwf hst h31 h30 hraw hi2c hsens
  have huic : u.ic n.val = { s.ic n.val with run := none, watch := false } := by
    rw [← hvic]
    unfold State.ic
    rw [hi2c]
  refine ⟨_, hexec, ?_⟩
  rcases State.icServe_none (by rw [huic]) (by rw [huic]; exact hw) hsens with he | he
  · rw [he]
    exact ⟨hst, h31, h30.trans hv30, by rw [huic], hraw⟩
  · rw [he]
    have huset : ∀ x, (u.setIc n.val x).regsWf := fun _ => hwf
    refine ⟨?_, ?_, State.rb_wb (huset _) _ (by decide), ?_, ?_⟩
    · exact (State.rf_wb_out (huset _) _ (by decide) (.inl (by decide)) (by decide)).trans hst
    · unfold State.rb
      rw [State.rd_wb (huset _), if_pos rfl, tbit_setBit_ne (by decide) (by decide)]
      exact h31
    · exact congrArg I2cPort.run (State.ic_setIc (by rw [hi2c]; exact hvi) n.val _)
    · exact (State.rb_wr_ne (huset _) _ (icReg_ne_raw n.val (icPage n.val)).symm).trans hraw

/-- A port that drops its requests runs nothing, and the other ports stand (R385). -/
theorem State.icDrop_i2c (s : State) (m : Nat) : (s.icDrop m).i2c = mapSet dflt s.i2c m { s.ic m with run := none, hostWaits := false } := by
  have hfold : ((s.sensors m).foldl (fun s c => s.setFailed c) s).i2c = s.i2c := foldl_invariant (P := fun t => t.i2c = s.i2c) (fun _ ht _ _ => ht) rfl
  unfold State.icDrop
  dsimp only
  split
  · have honly := ((((OnlyRegsMsix.refl ((((s.sensors m).foldl (fun s c => s.setFailed c) s).setIc m { s.ic m with run := none, hostWaits := false }).wb
      (icReg m 0x4C) 30 false)).pf (icReg m 0x4C) 18 16 6).wb (icReg m 0x4C) 31 true).raise (icPage m) 0)
    unfold OnlyRegsMsix at honly
    refine (congrArg State.i2c honly).trans ?_
    exact congrArg (fun l => mapSet dflt l m _) hfold
  · exact congrArg (fun l => mapSet dflt l m _) hfold

/-- A bus clear that fails fences the port, which then runs nothing (R385). -/
theorem State.icStuck_run (hi : mapWf dflt s.i2c = true) (m : Nat) : ((s.icStuck m).ic m).run = none := by
  unfold State.icStuck
  dsimp only
  generalize hv : ((((((s.wb (icReg m 0x4C) 29 true).incSat (icReg m 0x50) 15 0).wb (rga (icPage m) oStat) 9 true).setBlk (icPage m) 4).raise (icPage m) 1).logNamed
    (icPage m) evPort 6 1 255) = v
  have honly : OnlyRegsLog s v := by
    rw [← hv]
    exact ((((((OnlyRegsMsix.refl s).wb ..).incSat ..).wb ..).pf ..).raise ..).log.logNamed ..
  have hvi : mapWf dflt v.i2c = true := by
    unfold OnlyRegsLog at honly
    rw [honly]
    exact hi
  change (mapGet dflt ((v.setIc m _).icDrop m).i2c m).run = none
  have hwf : ∀ x, mapWf dflt (v.setIc m x).i2c = true := fun _ => mapSet_wf hvi
  rw [State.icDrop_i2c, mapGet_mapSet (hwf _), if_pos rfl]

theorem i2cTransferDone_stuck {r : I2cEnd} (hrun : (s.ic n.val).run = some .host) (hi : mapWf dflt s.i2c = true) :
    exec (.i2cTransferDone n [false] r) s = .next ((s.incSat (icReg n.val 0x50) 31 16).icStuck n.val) := by
  have hclear : s.busClear n.val [false] = (s.incSat (icReg n.val 0x50) 31 16).icStuck n.val := rfl
  have hnone := State.icStuck_run (s := s.incSat (icReg n.val 0x50) 31 16) hi n.val
  change execI2cTransferDone n [false] r s = _
  simp only [execI2cTransferDone, hrun, Option.isNone_some, Bool.false_eq_true, if_false, List.isEmpty_cons, hclear, hnone]

theorem exec_sclLowTimeout_host (hrun : (s.ic n.val).run = some .host) :
    exec (.sclLowTimeout n false) s = .next ((((s.setIc n.val { s.ic n.val with
      run := none
      watch := true }).wb (icReg n.val 0x4C) 30 false).icEnd n.val 4).icServe n.val) := by
  change execSclLowTimeout n false s = _
  simp only [execSclLowTimeout, hrun, Bool.false_eq_true, if_false]

theorem exec_sclLowTimeout_released (hrun : (s.ic n.val).run ≠ none) : exec (.sclLowTimeout n true) s = .next s := by
  obtain ⟨o, ho⟩ := Option.ne_none_iff_exists'.mp hrun
  change execSclLowTimeout n true s = _
  simp only [execSclLowTimeout, ho, if_true]

/-- The pages of the I2C ports have interrupt registers. -/
theorem usesIrq_icPage (n : Fin 2) : usesIrq (icPage n.val) = true := by
  revert n
  decide +kernel

theorem exec_i2cUnfence_mgmt (hf : s.icFenced n.val = true) :
    exec (.i2cUnfence .mgmt n 2 [true]) s = .next (((((s.wb (rga (icPage n.val) oStat) 9 false).setBlk (icPage n.val) 2).wb (icReg n.val 0x4C) 29 false).incSat
      (icReg n.val 0x50) 31 16).icServe n.val) := by
  have hw : s.mayWrite .mgmt (icReg n.val 0x48) = true := State.mayWrite_mgmt s (usesIrq_icPage n) (by decide)
  change execI2cUnfence .mgmt n 2 [true] s = _
  rw [execI2cUnfence, State.guarded_of_mayWrite hw]
  simp only [State.wrIcCtl, show tbit (2 : Word) 0 = false by decide, show tbit (2 : Word) 1 = true by decide, show isMgmt .mgmt = true from rfl, Bool.and_self,
    Bool.false_eq_true, if_false, if_true, State.icUnfence, hf, Bool.not_true]
  rfl

theorem exec_busStuck_watch (hw : (s.ic n.val).watch = true) : exec (.busStuck n) s = .next (s.icStuck n.val) := by
  change execBusStuck n s = _
  rw [execBusStuck, if_pos hw]

/-! ### SMBALERT -/

/-- Reading the regulators sends commands and does nothing else (R419). -/
theorem foldl_pmSend (l : List Nat) (s : State) (code data : Nat) :
    ∃ p, l.foldl (fun s k => s.pmSend k code data) s = { s with ost := { s.ost with pmbus := p } } := by
  induction l generalizing s with
  | nil => exact ⟨s.ost.pmbus, rfl⟩
  | cons k l ih =>
    have hk : ∃ p, s.pmSend k code data = { s with ost := { s.ost with pmbus := p } } := by
      unfold State.pmSend
      split
      · exact ⟨_, rfl⟩
      · exact ⟨s.ost.pmbus, rfl⟩
    obtain ⟨p, hp⟩ := hk
    obtain ⟨p', hp'⟩ := ih (s.pmSend k code data)
    exact ⟨p', by rw [List.foldl_cons, hp', hp]⟩

/-- The state in which every regulator has been asked for its status (R386). -/
def State.alerted (s : State) (any : Bool) : State :=
  (List.range 8).foldl (fun s k => s.pmSend k 0x79 0) ((s.wb (rga 0x330 0x4C) 28 any).raise 0x330 2)

theorem exec_smbalert_clear {status : List (Nat × Word)} (h : ∀ r ∈ status, r.2 = 0) : exec (.smbalert status) s = .next (s.alerted false) := by
  have hany : status.any (fun r => r.2 != 0) = false := List.any_eq_false.mpr fun r hr => by rw [h r hr]; decide
  change execSmbalert status s = _
  simp only [execSmbalert, hany]
  refine congrArg _ (foldl_fixed fun r hr => if_pos ?_)
  exact .inr (h r hr)

/-- Registers of Ostler's page stand when the regulators are asked. -/
theorem State.alerted_reads (h : s.regsWf) (any : Bool) : (s.alerted any).regsWf ∧ (∀ k, (s.alerted any).alarm k = s.alarm k) ∧
    ∀ off, off < 4096 → (s.alerted any).rd (rga 6 off) = s.rd (rga 6 off) := by
  have hwf : (s.wb (rga 0x330 0x4C) 28 any).regsWf := State.wb_regsWf h
  obtain ⟨p, hp⟩ := foldl_pmSend (List.range 8) ((s.wb (rga 0x330 0x4C) 28 any).raise 0x330 2) 0x79 0
  have honly : OnlyRegsMsix s ((s.wb (rga 0x330 0x4C) 28 any).raise 0x330 2) := ((OnlyRegsMsix.refl s).wb ..).raise ..
  unfold State.alerted
  rw [hp]
  refine ⟨State.raise_regsWf hwf, fun k => ?_, fun off hoff => ?_⟩
  · unfold OnlyRegsMsix at honly
    change mapGet (fun _ => false) ((s.wb (rga 0x330 0x4C) 28 any).raise 0x330 2).ost.alarms k = _
    rw [honly]
    rfl
  · have hne : ∀ o, o < 4096 → rga 6 off ≠ rga 0x330 o := by
      intro o ho
      unfold rga
      omega
    change ((s.wb (rga 0x330 0x4C) 28 any).raise 0x330 2).rd (rga 6 off) = _
    rw [State.rd_raise_ne hwf (hne _ (by decide))]
    exact State.rd_wr_ne h _ (hne _ (by decide))

/-- A regulator that begins to report a fault and does not feed the core: its alarm and the rail fault (R418). -/
theorem State.regulatorFault_begins {k : Nat} (h : s.regsWf) (hk : k < 8) (ha : s.alarm (60 + k) = false) (hrail : s.rf (rga 6 (0x80 + 4 * k)) 3 0 ≠ 0) :
    s.regulatorFault k true = (s.setAlarm (60 + k) true).railFault (16 + k) := by
  have hset : (s.setAlarm (60 + k) true).regsWf := h
  have hinc : ((s.setAlarm (60 + k) true).incSat (rga 7 0x14C) 31 16).regsWf := State.pf_regsWf hset
  have hne : ∀ o, o < 4096 → rga 6 (0x80 + 4 * k) ≠ rga 7 o := by
    intro o ho
    unfold rga
    omega
  have hkeep : ((s.setAlarm (60 + k) true).railFault (16 + k)).rf (rga 6 (0x80 + 4 * k)) 3 0 = s.rf (rga 6 (0x80 + 4 * k)) 3 0 := by
    unfold State.railFault
    rw [State.rf_congr (State.logNamed_regs ..), State.rf_raise_ne hinc (hne _ (by decide))]
    exact State.rf_wr_ne hset _ (hne _ (by decide))
  have hnot : (((s.setAlarm (60 + k) true).railFault (16 + k)).rf (rga 6 (0x80 + 4 * k)) 3 0 == 0) = false := by
    rw [hkeep]
    exact beq_false_of_ne hrail
  simp only [State.regulatorFault, State.onEntry, ha, hnot, Bool.not_false, Bool.and_self, Bool.and_false, Bool.false_and, Bool.false_eq_true, if_false, if_true]

theorem exec_smbalert_fault {k : Fin 8} {w : Word} (hcan : s.canonical = true) (hw : w ≠ 0) (hlist : s.rb (rga 6 (0x80 + 4 * k.val)) 31 = true)
    (hrail : s.rf (rga 6 (0x80 + 4 * k.val)) 3 0 ≠ 0) (ha : s.alarm (60 + k.val) = false) :
    exec (.smbalert [(k.val, w)]) s = .next (((s.alerted true).setAlarm (60 + k.val) true).railFault (16 + k.val)) := by
  obtain ⟨hwf, halarm, hrd⟩ := State.alerted_reads (State.canonical_regsWf hcan) true
  have hk := k.isLt
  have hkm : k.val % 8 = k.val := Nat.mod_eq_of_lt hk
  have hlist' : (s.alerted true).rb (rga 6 (0x80 + 4 * k.val)) 31 = true := (congrArg (tbit · 31) (hrd _ (by omega))).trans hlist
  have hrail' : (s.alerted true).rf (rga 6 (0x80 + 4 * k.val)) 3 0 ≠ 0 := by
    unfold State.rf
    rw [hrd _ (by omega)]
    exact hrail
  have hany : [(k.val, w)].any (fun r => r.2 != 0) = true := by simpa using hw
  have hfault := State.regulatorFault_begins hwf hk ((halarm _).trans ha) hrail'
  unfold State.alerted at hlist' hfault ⊢
  change execSmbalert [(k.val, w)] s = _
  simp only [execSmbalert, hany, List.foldl_cons, List.foldl_nil, hkm, hlist', hw, Bool.not_true, Bool.false_eq_true, or_self, if_false, hfault]

/-- Settles O36: a transfer from its START to its end, the bus clear, the fence, and the regulators' alert. -/
theorem i2cTransfers : Obligations.I2cTransfers := by
  intro s n hcan
  refine ⟨fun f hw hen => ⟨fun hf => ?_, fun hf hb => ?_, fun hf hb hrun hs hi => i2cStart_effect hcan hw hen hf hb hrun hs hi⟩,
    fun hrun hi => ⟨fun hw hs => i2cTransferDone_nack hcan hrun hi hw hs, fun r => i2cTransferDone_stuck hrun hi, exec_sclLowTimeout_host hrun⟩,
    exec_sclLowTimeout_released, exec_i2cUnfence_mgmt, exec_busStuck_watch, fun status h => exec_smbalert_clear h,
    fun k w hw hlist hrail ha => exec_smbalert_fault hcan hw hlist hrail ha⟩
  · rw [exec_i2cStart hw, State.icStart_fenced hen hf]
  · rw [exec_i2cStart hw, State.icStart_busy hen hf hb]

end Sys2Proof.Machine
end

section
/-!
Deadline slots, Warden's monitors and the start-up run (R388 to R398, R411, R412): from these the obligation DeadlineSlots.
-/
namespace Sys2Proof.Machine

variable {s t : State} {i : Fin 64} {f : Func}

/-! ### Faults, the log and canonical tables -/

theorem State.rd_recordFault_ne (h : s.regsWf) {page code info a : Nat} (hcode : a ≠ rga page oCode) (hinfo : a ≠ rga page oInfo) (hraw : a ≠ rga 0 oRaw) :
    (s.recordFault page code info).rd a = s.rd a := by
  have hpf : (s.pf (rga page oCode) 15 0 code).regsWf := State.pf_regsWf h
  have hfirst : ((s.pf (rga page oCode) 15 0 code).wr (rga page oInfo) (w32 info)).rd a = s.rd a := by
    rw [State.rd_wr_ne hpf _ hinfo]
    exact State.rd_wr_ne h _ hcode
  unfold State.recordFault
  dsimp only
  split
  · split
    · exact hfirst
    · exact (State.rd_raise_ne (State.wr_regsWf hpf) hraw).trans hfirst
  · exact State.rd_wr_ne h _ hcode

theorem OnlyRegsLog.logEvent (h : OnlyRegsLog s t) (page code cls info n : Nat) : OnlyRegsLog s (t.logEvent page code cls info n) := by
  obtain ⟨g, hg⟩ := State.logEvent_eq (s := t) (page := page) (code := code) (cls := cls) (info := info) (t := n)
  unfold OnlyRegsLog at h ⊢
  rw [hg, h]

@[simp] theorem State.logEvent_regs (s : State) (page code cls info n : Nat) : (s.logEvent page code cls info n).regs = s.regs := by
  obtain ⟨g, hg⟩ := State.logEvent_eq (s := s) (page := page) (code := code) (cls := cls) (info := info) (t := n)
  rw [hg]

theorem OnlyRegsLog.trans {u : State} (h : OnlyRegsLog s t) (k : OnlyRegsLog t u) : OnlyRegsLog s u := by
  unfold OnlyRegsLog at h k ⊢
  rw [k, h]

/-- Canonical tables stay so while the registers do and only messages and the log differ besides. -/
theorem OnlyRegsLog.canonical (h : OnlyRegsLog s t) (hwf : t.regsWf) (hcan : s.canonical = true) : t.canonical = true := by
  rw [State.canonical_iff] at hcan ⊢
  unfold OnlyRegsLog at h
  obtain ⟨⟨⟨⟨⟨⟨⟨hhbm, hspad⟩, -⟩, heng⟩, hpor⟩, hq⟩, htn⟩, hbars⟩ := hcan
  have hk : t.hbm = s.hbm ∧ t.spad = s.spad ∧ t.eng = s.eng ∧ t.por = s.por ∧ t.queues = s.queues ∧ t.tn = s.tn ∧ t.bars = s.bars := by
    rw [h]
    exact ⟨rfl, rfl, rfl, rfl, rfl, rfl, rfl⟩
  obtain ⟨e1, e2, e3, e4, e5, e6, e7⟩ := hk
  rw [e1, e2, e3, e4, e5, e6, e7]
  exact ⟨⟨⟨⟨⟨⟨⟨hhbm, hspad⟩, hwf⟩, heng⟩, hpor⟩, hq⟩, htn⟩, hbars⟩

/-! ### Slots -/

theorem exec_wdHoldExpired_fresh (h : s.rb (slotStat i.val) 2 = true) : exec (.wdHoldExpired i true) s = .next (s.slotFresh i.val) := by
  change execWdHoldExpired i true s = _
  simp only [execWdHoldExpired, h, Bool.not_true, Bool.false_eq_true, if_false, if_true]

theorem exec_wdHoldExpired_stop (h : s.rb (slotStat i.val) 2 = true) : exec (.wdHoldExpired i false) s = .next (s.slotStop i.val) := by
  change execWdHoldExpired i false s = _
  simp only [execWdHoldExpired, h, Bool.not_true, Bool.false_eq_true, if_false]

/-- A slot marked as expired: its service bits clear, its hold over, its request active (R395, R397). -/
def State.slotMarked (s : State) (i : Nat) : State :=
  (({ s with drv := { s.drv with
    seen := s.drv.seen &&& ~~~ BitVec.ofNat 64 (2 ^ i)
    clr := s.drv.clr &&& ~~~ BitVec.ofNat 64 (2 ^ i) } } : State).wb (slotStat i) 2 false).wb (slotStat i) 1 true

/-- The fault, the event and the log entry of an expired slot. -/
def State.slotNoted (s : State) (i : Nat) : State := ((s.recordFault 8 0x0D02 (s.slotGroups i * 65536 + i)).raise 8 1).logEvent 8 0x0D02 1
  (s.slotGroups i * 65536 + i) 255

/-- A slot without groups stops none (R395). -/
theorem State.slotStop_alone {i : Nat} (h : ((s.slotMarked i).slotNoted i).slotGroups i = 0) : s.slotStop i = (s.slotMarked i).slotNoted i := by
  have hnone : (List.range 12).filter (fun g => (((s.slotMarked i).slotNoted i).slotGroups i >>> g) % 2 == 1) = [] := by
    rw [h]
    decide
  unfold State.slotStop
  exact congrArg (fun l => l.foldl (fun s g => s.trigger g 1 noAxis) ((s.slotMarked i).slotNoted i)) hnone

theorem State.slotMarked_reads (h : s.regsWf) (i : Nat) : (s.slotMarked i).regsWf ∧ (s.slotMarked i).rb (slotStat i) 1 = true ∧
    (s.slotMarked i).rb (slotStat i) 2 = false ∧ (s.slotMarked i).slotGroups i = s.slotGroups i := by
  unfold State.slotMarked
  generalize hu : ({ s with drv := { s.drv with
    seen := s.drv.seen &&& ~~~ BitVec.ofNat 64 (2 ^ i)
    clr := s.drv.clr &&& ~~~ BitVec.ofNat 64 (2 ^ i) } } : State) = u
  have hregs : u.regs = s.regs := by rw [← hu]
  have hwf : u.regsWf := by
    unfold State.regsWf
    rw [hregs]
    exact h
  have hwf1 : (u.wb (slotStat i) 2 false).regsWf := State.wb_regsWf hwf
  have hne : slotCfg i ≠ slotStat i := by
    unfold slotCfg slotStat rga
    omega
  refine ⟨State.wb_regsWf hwf1, State.rb_wb hwf1 _ (by decide), ?_, ?_⟩
  · unfold State.rb
    rw [State.rd_wb hwf1, if_pos rfl, tbit_setBit_ne (by decide) (by decide)]
    exact State.rb_wb hwf _ (by decide)
  · unfold State.slotGroups
    rw [← State.rf_congr hregs]
    exact (State.rf_wr_ne hwf1 _ hne).trans (State.rf_wr_ne hwf _ hne)

theorem State.slotNoted_reads (h : s.regsWf) (i : Fin 64) : OnlyRegsLog s (s.slotNoted i.val) ∧ (s.slotNoted i.val).rb (rga 8 oRaw) 1 = true ∧
    ∀ off, 0x100 ≤ off → off < 0x600 → (s.slotNoted i.val).rd (rga 8 off) = s.rd (rga 8 off) := by
  have hwf := State.recordFault_regsWf h 8 0x0D02 (s.slotGroups i.val * 65536 + i.val)
  unfold State.slotNoted
  refine ⟨((State.recordFault_onlyRegsMsix ..).raise ..).log.logEvent .., ?_, fun off h0 h1 => ?_⟩
  · rw [State.rb_congr (State.logEvent_regs ..), State.rb_raise_same hwf (by decide)]
  · have hne : ∀ p o, o < 0x100 → rga 8 off ≠ rga p o := fun p o ho => rga_ne_of_off (by omega) (by omega) (by omega)
    rw [State.rd_congr (State.logEvent_regs ..), State.rd_raise_ne hwf (hne _ _ (by decide)),
      State.rd_recordFault_ne h (hne _ _ (by decide)) (hne _ _ (by decide)) (hne _ _ (by decide))]

/-- A bit that a mask clears. -/
theorem getLsbD_and_not_pow {w : Nat} (x : BitVec w) {i : Nat} (hi : i < w) : (x &&& ~~~ BitVec.ofNat w (2 ^ i)).getLsbD i = false := by
  rw [BitVec.getLsbD_and, BitVec.getLsbD_not, BitVec.getLsbD_ofNat, Nat.testBit_two_pow_self]
  simp [hi]

theorem getLsbD_or_pow {w : Nat} (x : BitVec w) {i : Nat} (hi : i < w) : (x ||| BitVec.ofNat w (2 ^ i)).getLsbD i = true := by
  rw [BitVec.getLsbD_or, BitVec.getLsbD_ofNat, Nat.testBit_two_pow_self]
  simp [hi]

theorem wdHoldExpired_effect (hcan : s.canonical = true) (h : s.rb (slotStat i.val) 2 = true) (hg : s.slotGroups i.val = 0) :
    ∃ t, exec (.wdHoldExpired i false) s = .next t ∧ t.rb (slotStat i.val) 1 = true ∧ t.rb (slotStat i.val) 2 = false ∧
      t.drv.seen.getLsbD i.val = false ∧ t.drv.clr.getLsbD i.val = false ∧ t.rb (rga 8 oRaw) 1 = true ∧ t.pins = s.pins := by
  have hi := i.isLt
  obtain ⟨hwf, h1, h2, hgroups⟩ := State.slotMarked_reads (State.canonical_regsWf hcan) i.val
  obtain ⟨honly, hraw, hrd⟩ := State.slotNoted_reads hwf i
  have hg' : ((s.slotMarked i.val).slotNoted i.val).slotGroups i.val = 0 :=
    (congrArg (fld · 23 12) (hrd (0x100 + 16 * i.val) (by omega) (by omega))).trans (hgroups.trans hg)
  have hstat := hrd (0x108 + 16 * i.val) (by omega) (by omega)
  obtain ⟨hpins, -, hdrv, -⟩ := honly.frame
  refine ⟨_, (exec_wdHoldExpired_stop h).trans (congrArg _ (State.slotStop_alone hg')), (congrArg (tbit · 1) hstat).trans h1,
    (congrArg (tbit · 2) hstat).trans h2, ?_, ?_, hraw, hpins⟩
  · rw [hdrv]
    exact getLsbD_and_not_pow s.drv.seen hi
  · rw [hdrv]
    exact getLsbD_and_not_pow s.drv.clr hi

theorem exec_stopClr (hw : s.mayWrite f (rga 8 (0x10C + 16 * i.val)) = true) : exec (.stopClr f i 1) s = .next (s.wrSlotCtl i.val 1) := by
  change execStopClr f i 1 s = _
  rw [execStopClr, State.guarded_of_mayWrite hw]

/-- STOP_CLR of a slot that holds without a fresh result is discarded (R397). -/
theorem State.wrSlotCtl_holding {i : Nat} {v : Word} (h0 : s.rb (slotStat i) 0 = false) (h2 : s.rb (slotStat i) 2 = true) : s.wrSlotCtl i v = s := by
  simp only [State.wrSlotCtl, h0, h2, Bool.not_false, and_self, true_or, or_true, if_true]

theorem stopClr_effect (hcan : s.canonical = true) (hw : s.mayWrite f (rga 8 (0x10C + 16 * i.val)) = true) (h0 : s.rb (slotStat i.val) 0 = true)
    (h1 : s.rb (slotStat i.val) 1 = true) (hseen : s.drv.seen.getLsbD i.val = true) :
    ∃ t, exec (.stopClr f i 1) s = .next t ∧ t.rb (slotStat i.val) 1 = false ∧ t.drv.clr.getLsbD i.val = true ∧ t.pins = s.pins := by
  have hclr := getLsbD_or_pow s.drv.clr i.isLt
  have hend : s.wrSlotCtl i.val 1 = ({ s with drv := { s.drv with clr := s.drv.clr ||| BitVec.ofNat 64 (2 ^ i.val) } } : State).wb (slotStat i.val) 1 false := by
    simp only [State.wrSlotCtl, h0, h1, show tbit (1 : Word) 0 = true by decide, Bool.not_true, Bool.false_eq_true, false_and, or_self, if_false, State.slotEnd,
      hseen, hclr, Bool.and_self, if_true]
  refine ⟨_, (exec_stopClr hw).trans (congrArg _ hend), ?_, hclr, rfl⟩
  exact State.rb_wb (s := { s with drv := { s.drv with clr := s.drv.clr ||| BitVec.ofNat 64 (2 ^ i.val) } }) (State.canonical_regsWf hcan) _ (by decide)

/-! ### Warden's checkers and the control monitor -/

/-- A lockstep fault as it is recorded, before it takes torque off (R398, R454). -/
def State.lockstepNoted (s : State) : State :=
  ((((s.wb aWdStat 27 true).setBlk 8 5).recordFault 8 0x0D03 0).raise 8 2).logEvent 8 0x0D03 1 0 255

theorem State.lockstepNoted_effect (hcan : s.canonical = true) : s.lockstepNoted.canonical = true ∧ s.lockstepNoted.rb aWdStat 27 = true ∧
    s.lockstepNoted.rf (rga 8 oStat) 2 0 = 5 ∧ OnlyRegsLog s s.lockstepNoted := by
  have h := State.canonical_regsWf hcan
  have h1 : (s.wb aWdStat 27 true).regsWf := State.wb_regsWf h
  have h2 : ((s.wb aWdStat 27 true).setBlk 8 5).regsWf := State.pf_regsWf h1
  have h3 := State.recordFault_regsWf h2 8 0x0D03 0
  have h4 := State.raise_regsWf (page := 8) (bit := 2) h3
  have hstat : aWdStat ≠ rga 8 oStat := rga_ne_of_off (by decide) (by decide) (by decide)
  have hne : ∀ off, off < 4096 → off ≠ oCode → off ≠ oInfo → off ≠ oRaw → s.lockstepNoted.rd (rga 8 off) = ((s.wb aWdStat 27 true).setBlk 8 5).rd (rga 8 off) := by
    intro off ho hc hi hr
    unfold State.lockstepNoted
    rw [State.rd_congr (State.logEvent_regs ..), State.rd_raise_ne h3 (rga_ne_of_off ho (by decide) hr),
      State.rd_recordFault_ne h2 (rga_ne_of_off ho (by decide) hc) (rga_ne_of_off ho (by decide) hi) (rga_ne_of_off ho (by decide) hr)]
  have honly : OnlyRegsLog s s.lockstepNoted :=
    ((((OnlyRegs.refl s).wb ..).pf ..).msix.log.trans ((State.recordFault_onlyRegsMsix ..).raise ..).log).logEvent ..
  have hwf : s.lockstepNoted.regsWf := by
    unfold State.regsWf State.lockstepNoted
    rw [State.logEvent_regs]
    exact h4
  refine ⟨honly.canonical hwf hcan, ?_, ?_, honly⟩
  · refine (congrArg (tbit · 27) (hne 0x44 (by decide) (by decide) (by decide) (by decide))).trans ?_
    exact (State.rb_wr_ne h1 _ hstat).trans (State.rb_wb h _ (by decide))
  · refine (congrArg (fld · 2 0) (hne oStat (by decide) (by decide) (by decide) (by decide))).trans ?_
    exact State.rf_pf h1 _ (by decide) (by decide)

/-- Every line at its safe level. -/
def State.pinsSafe (s : State) : State := { s with pins := { s.pins with stoA := 0, stoB := 0, brake := 0 } }

theorem State.updPins_of_forced (hf : s.drv.forced = true) :
    ∃ g : Nat → Nat, s.updPins = (List.range 12).foldl (fun s k => s.pf (aAlStat k) 10 8 (g k)) s.pinsSafe := by
  have hall : ∀ x : BitVec 12, ~~~ (x ||| 0xFFF) = 0 := by decide
  unfold State.updPins State.pinsSafe
  simp only [hf, if_true, hall]
  exact ⟨_, rfl⟩

theorem ne_alStat (g : Nat) {a : Nat} (h : a % 4096 ≠ 0x48) : a ≠ aAlStat g := by
  rintro rfl
  exact h (rga_mod _ (by decide))

/-- With every output forced no torque is possible; besides, the readback registers of the groups alone change (R324, R398). -/
theorem State.updPins_forced (h : s.regsWf) (hf : s.drv.forced = true) : s.updPins.noTorque = true ∧ s.updPins.drv = s.drv ∧ s.updPins.hbm = s.hbm ∧
    s.updPins.eng = s.eng ∧ ∀ a, a % 4096 ≠ 0x48 → s.updPins.rd a = s.rd a := by
  obtain ⟨g, heq⟩ := State.updPins_of_forced hf
  have hinv := foldl_invariant (l := List.range 12) (g := fun s k => s.pf (aAlStat k) 10 8 (g k)) (s := s.pinsSafe)
    (P := fun t => t.regsWf ∧ OnlyRegs s.pinsSafe t ∧ ∀ a, a % 4096 ≠ 0x48 → t.rd a = s.rd a)
    (fun t ht k _ => ⟨State.pf_regsWf ht.1, ht.2.1.pf .., fun a ha =>
      (State.rd_wr_ne ht.1 _ (ne_alStat k ha)).trans (ht.2.2 a ha)⟩) ⟨h, OnlyRegs.refl _, fun _ _ => rfl⟩
  rw [← heq] at hinv
  obtain ⟨-, honly, hrb⟩ := hinv
  unfold OnlyRegs at honly
  refine ⟨?_, ?_, ?_, ?_, hrb⟩ <;> rw [honly] <;> rfl

/-! ### The control monitor -/

theorem State.forceAll_effect (h : s.regsWf) : s.forceAll.noTorque = true ∧ s.forceAll.drv.forced = true ∧ s.forceAll.hbm = s.hbm ∧
    s.forceAll.eng = s.eng ∧ ∀ a, a % 4096 ≠ 0x48 → s.forceAll.rd a = s.rd a := by
  obtain ⟨hpins, hdrv, hhbm, heng, hrb⟩ := State.updPins_forced (s := { s with drv := { s.drv with forced := true } }) h rfl
  exact ⟨hpins, (congrArg DroverSt.forced hdrv).trans rfl, hhbm, heng, hrb⟩

/-- The control monitor (R398): no torque, its interrupt; the registers beside its page's header and the readback of the groups stand. -/
theorem State.ctrlMonitorEvent_effect (h : s.regsWf) (cause : Nat) : (s.ctrlMonitorEvent cause).noTorque = true ∧
    (s.ctrlMonitorEvent cause).drv.forced = true ∧ (s.ctrlMonitorEvent cause).hbm = s.hbm ∧ (s.ctrlMonitorEvent cause).eng = s.eng ∧
    (s.ctrlMonitorEvent cause).rb (rga 8 oRaw) 4 = true ∧
    ∀ a, a % 4096 ≠ 0x48 → a ≠ rga 8 oCode → a ≠ rga 8 oInfo → a ≠ rga 0 oRaw → a ≠ rga 8 oRaw → (s.ctrlMonitorEvent cause).rd a = s.rd a := by
  have hf := State.recordFault_regsWf h 8 0x0D05 cause
  have honly : OnlyRegsLog s (((s.recordFault 8 0x0D05 cause).raise 8 4).logEvent 8 0x0D05 1 cause 255) :=
    ((State.recordFault_onlyRegsMsix ..).raise ..).log.logEvent ..
  have hregs := State.logEvent_regs ((s.recordFault 8 0x0D05 cause).raise 8 4) 8 0x0D05 1 cause 255
  have hwf := State.raise_regsWf (page := 8) (bit := 4) hf
  have hmem : ∀ t, OnlyRegsLog s t → t.hbm = s.hbm ∧ t.eng = s.eng := fun t ht => by
    unfold OnlyRegsLog at ht
    rw [ht]
    exact ⟨rfl, rfl⟩
  obtain ⟨hhbm, heng⟩ := hmem _ honly
  obtain ⟨hpins, hdrv, hh, he, hrd⟩ := State.forceAll_effect (s := ((s.recordFault 8 0x0D05 cause).raise 8 4).logEvent 8 0x0D05 1 cause 255)
    (by unfold State.regsWf; rw [hregs]; exact hwf)
  refine ⟨hpins, hdrv, hh.trans hhbm, he.trans heng, ?_, fun a h48 hc hi h0 hr => ?_⟩
  · exact (congrArg (tbit · 4) ((hrd (rga 8 oRaw) (by decide)).trans (State.rd_congr hregs _))).trans (State.rb_raise_same hf (by decide))
  · exact (hrd a h48).trans ((State.rd_congr hregs a).trans ((State.rd_raise_ne hf hr).trans (State.rd_recordFault_ne h hc hi h0)))

theorem ctrlMonitor_effect (h : s.regsWf) (voltage : Bool) :
    ∃ t, exec (.ctrlMonitor voltage) s = .next t ∧ t.noTorque = true ∧ t.drv.forced = true ∧ t.hbm = s.hbm ∧ t.eng = s.eng ∧
      t.rb (rga 8 oRaw) 4 = true := by
  obtain ⟨hpins, hdrv, hh, he, hraw, -⟩ := State.ctrlMonitorEvent_effect h (if voltage then 2 else 1)
  exact ⟨_, rfl, hpins, hdrv, hh, he, hraw⟩

/-! ### The run on demand and the run of a start -/

theorem exec_diagRun (hw : s.mayWrite f (rga 8 0x40) = true) : exec (.diagRun f 2) s = .next (s.wrWdCtl 2) := by
  change execDiagRun f 2 s = _
  rw [execDiagRun, State.guarded_of_mayWrite hw]

theorem State.wrWdCtl_accepted (hsafe : s.allSafe = true) (hrun : s.rb aWdStat 29 = false) (htn : ∀ t, t < 8 → s.tnState t = 0 ∨ s.tnState t = 3) :
    s.wrWdCtl 2 = { s.wb aWdStat 29 true with ost := { s.ost with diagOnDemand := true } } := by
  have hall : (List.range 8).all (fun t => s.tnState t == 0 || s.tnState t == 3) = true :=
    List.all_eq_true.mpr fun t ht => by simpa using htn t (List.mem_range.mp ht)
  unfold State.wrWdCtl
  rw [hsafe, hrun, hall]
  rfl

theorem State.wrWdCtl_refused (hsafe : s.allSafe = false) : s.wrWdCtl 2 = s.wb aWdStat 28 true := by
  unfold State.wrWdCtl
  rw [hsafe]
  rfl

/-- The result of a run and its time (R392, R393). -/
def State.runShown (u : State) (m first : Word) (micros : Nat) : State :=
  (((u.wr (rga 8 0x60) m).wr (rga 8 0x64) first).incSat (rga 8 0x68) 31 16).pf (rga 8 0x68) 15 0 (min micros 0xFFFF)

theorem startupRunDone_passed {inst micros : Nat} {epochFailed : Bool} {rows : List RowFault} (hd : s.ost.diagOnDemand = false) (hs : s.stage = 2)
    (hbad : (s.startLedger epochFailed rows).badRow (s.ost.cold && epochFailed) = none) :
    exec (.startupRunDone 0 inst micros epochFailed rows) s = .next ((((({ (s.startLedger epochFailed rows).runShown 0 0 micros with
      ost := { (s.startLedger epochFailed rows).ost with lastRunPass := true, diagOnDemand := false } } : State).wb aWdStat 29 false).raise 8 3).wb aWdStat 30
        false).setStage 3) := by
  change execStartupRunDone 0 inst micros epochFailed rows s = _
  simp only [execStartupRunDone, hd, hs, Bool.not_false, Bool.true_and, ne_eq, not_true_eq_false, and_false, if_false, Bool.false_eq_true, hbad,
    Option.isSome_none]
  rfl

theorem startupRunDone_failed {inst micros : Nat} {epochFailed : Bool} {rows : List RowFault} (hd : s.ost.diagOnDemand = false) (hs : s.stage = 2)
    (hbad : (s.startLedger epochFailed rows).badRow (s.ost.cold && epochFailed) = none) :
    exec (.startupRunDone 1 inst micros epochFailed rows) s = .next (((({ (s.startLedger epochFailed rows).runShown 1 (w32 (inst % 2 ^ 24)) micros with
      ost := { (s.startLedger epochFailed rows).ost with lastRunPass := false, diagOnDemand := false } } : State).wb aWdStat 29 false).raise 8
        3).enterSafeHold 0 |>.setStage 6) := by
  have hone : (1 : BitVec 16).toNat = 1 := by decide
  have hbit : firstBit 1 = 0 := by decide
  have hfirst : ¬ (0 : Nat) = 14 := by decide
  change execStartupRunDone 1 inst micros epochFailed rows s = _
  simp only [execStartupRunDone, hd, hs, Bool.not_false, Bool.true_and, ne_eq, not_true_eq_false, and_false, if_false, Bool.false_eq_true, hbad,
    Option.isSome_none, hbit, hone, Nat.one_ne_zero, hfirst, Nat.zero_mul, Nat.zero_add]
  rfl

/-- Settles O37: an expired hold and its release, lockstep and the control monitor, and the runs of the checkers. -/
theorem deadlineSlots : Obligations.DeadlineSlots := by
  refine ⟨fun s i f hcan => ⟨fun h2 => ⟨exec_wdHoldExpired_fresh h2, fun hg => wdHoldExpired_effect hcan h2 hg⟩,
    fun hw => ⟨fun h0 h2 => ?_, fun h0 h1 hseen => stopClr_effect hcan hw h0 h1 hseen⟩, ?_,
    ctrlMonitor_effect (State.canonical_regsWf hcan)⟩, fun s f hw => ⟨fun hsafe hrun htn => ?_, fun hsafe => ?_, ?_, ?_⟩⟩
  · rw [exec_stopClr hw, State.wrSlotCtl_holding h0 h2]
  · obtain ⟨hc, h27, hblk, honly⟩ := State.lockstepNoted_effect hcan
    exact ⟨s.lockstepNoted, hc, h27, hblk, honly, rfl⟩
  · rw [exec_diagRun hw, State.wrWdCtl_accepted hsafe hrun htn]
  · rw [exec_diagRun hw, State.wrWdCtl_refused hsafe]
  · rintro inst micros epochFailed rows u hd hs rfl hbad
    exact startupRunDone_passed hd hs hbad
  · rintro inst micros epochFailed rows u hd hs rfl hbad
    exact startupRunDone_failed hd hs hbad

end Sys2Proof.Machine
end

section
/-!
Attestation (R407, R409): from these the obligation Attestation.
-/
namespace Sys2Proof.Machine

variable {s : State} {f : Func}

/-! ### ATT_START -/

theorem exec_attStart (hw : s.mayWrite f (rga 9 0x128) = true) : exec (.attStart f 1) s = .next (s.wrAttCtl 1) := by
  change execAttStart f 1 s = _
  rw [execAttStart, State.guarded_of_mayWrite hw]

theorem State.wrAttCtl_busy (h : s.rb (rga 9 0x12C) 30 = true) (v : Word) : s.wrAttCtl v = s := by
  unfold State.wrAttCtl
  rw [if_pos (Or.inr h)]

theorem exec_attStart_busy (h : s.rb (rga 9 0x12C) 30 = true) : exec (.attStart f 1) s = .next s := by
  cases hw : s.mayWrite f (rga 9 0x128) with
  | true => rw [exec_attStart hw, State.wrAttCtl_busy h]
  | false =>
    change execAttStart f 1 s = _
    rw [execAttStart, State.guarded_of_not_mayWrite hw]

/-- START while not BUSY (R409): the address is checked first, then the region. -/
theorem State.wrAttCtl_idle (h : s.rb (rga 9 0x12C) 30 = false) : s.wrAttCtl 1 =
    if s.attAddr % 64 ≠ 0 then s.wb (rga 9 0x12C) 29 true else
    match s.regCheck 8 true s.attAddr 352 with
    | .ok => s.wb (rga 9 0x12C) 30 true
    | .bounds _ => s.wb (rga 9 0x12C) 29 true
    | .conflict e => s.regionConflict 8 e := by
  have hstart : tbit 1 0 = true := by decide
  unfold State.wrAttCtl
  rw [h, hstart]
  rfl

/-! ### The report -/

@[simp] theorem zeros_length (n : Nat) : (zeros n).length = n := List.length_replicate

@[simp] theorem bslice_length (bs : List Byte) (o n : Nat) : (bslice bs o n).length = n := by
  unfold bslice
  simp only [List.length_append, zeros_length, List.length_take, List.length_drop]
  omega

theorem bslice_all {bs : List Byte} {n : Nat} (h : bs.length = n) : bslice bs 0 n = bs := by
  unfold bslice zeros
  simp [← h]

@[simp] theorem bytesOf_length (n : Nat) (l : List Byte) : (bytesOf n l).length = n := bslice_length ..

theorem getD_of_lt {α : Type} {l : List α} {k : Nat} (d : α) (h : k < l.length) : l.getD k d = l[k] := by
  rw [List.getD_eq_getElem?_getD, List.getElem?_eq_getElem h, Option.getD_some]

theorem attBody_length (s : State) : (attBody s).length = 256 := by
  have hkeys : ∀ f : Nat → Nat, ((List.range 8).flatMap (fun k => natLe 4 (f k))).length = 32 := fun f => by
    simp only [List.length_flatMap, natLe_length]
    decide
  simp only [attBody, List.length_append, List.length_cons, List.length_nil, natLe_length, zeros_length, bytesOf_length, hkeys]

/-- What HBM reads where bytes were just written, and before them nothing else. -/
theorem State.hbmRead_hbmWrite (h : mapWf hbmDflt s.hbm = true) (a n : Nat) (bs cs : List Byte) (hn : bs.length = n) :
    (s.hbmWrite a (bs ++ cs)).hbmRead a n = bs := by
  refine List.ext_getElem ((State.hbmRead_length ..).trans hn.symm) fun k h1 h2 => ?_
  have hk : k < n := by omega
  have hin : a ≤ a + k ∧ a + k < a + (bs ++ cs).length := by
    rw [List.length_append]
    omega
  have hget : (bs ++ cs).getD (a + k - a) 0 = bs[k] := by
    rw [Nat.add_sub_cancel_left, getD_append_low _ h2, getD_of_lt _ h2]
  rw [← getD_of_lt 0 h1, State.hbmRead_getD _ _ _ hk, State.hbmByte_hbmWrite h, if_pos hin, hget]

theorem State.rb_wb_other (h : s.regsWf) (a : Nat) {i j : Nat} {x : Bool} (hi : i < 32) (hij : j ≠ i) : (s.wb a i x).rb a j = s.rb a j := by
  unfold State.rb
  rw [State.rd_wb h, if_pos rfl, tbit_setBit_ne hi hij]

/-- The report in memory, and what follows it in the registers. -/
def State.attReport (s : State) (sign : List Byte) : State := s.hbmWrite s.attAddr (attBody s ++ bytesOf 96 sign)

theorem State.attReport_memory (h : mapWf hbmDflt s.hbm = true) (sign : List Byte) :
    (s.attReport sign).hbmRead s.attAddr 256 = bslice (attBody s) 0 256 ∧
    ∀ a, a < s.attAddr ∨ s.attAddr + ((attBody s).length + 96) ≤ a → (s.attReport sign).hbmByte a = s.hbmByte a := by
  refine ⟨(State.hbmRead_hbmWrite h _ _ _ _ (attBody_length s)).trans (bslice_all (attBody_length s)).symm, fun a ha => ?_⟩
  have hout : ¬ (s.attAddr ≤ a ∧ a < s.attAddr + (attBody s ++ bytesOf 96 sign).length) := by
    rw [List.length_append, bytesOf_length]
    omega
  exact (State.hbmByte_hbmWrite h _ _ _).trans (if_neg hout)

theorem OnlyRegsMsix.memory {t : State} (h : OnlyRegsMsix s t) : t.hbm = s.hbm ∧ t.spad = s.spad := by
  unfold OnlyRegsMsix at h
  rw [h]
  exact ⟨rfl, rfl⟩

/-- The end of a report (R409): BUSY falls, DONE rises. -/
def State.attEnded (s : State) : State := ((s.wb (rga 9 0x12C) 30 false).wb (rga 9 0x12C) 31 true).raise 9 2

theorem State.attEnded_reads (h : s.regsWf) : s.attEnded.rb (rga 9 0x12C) 31 = true ∧ s.attEnded.rb (rga 9 0x12C) 30 = false ∧
    s.attEnded.rb (rga 9 oRaw) 2 = true ∧ OnlyRegsMsix s s.attEnded := by
  have h1 : (s.wb (rga 9 0x12C) 30 false).regsWf := State.wb_regsWf h
  have h2 : ((s.wb (rga 9 0x12C) 30 false).wb (rga 9 0x12C) 31 true).regsWf := State.wb_regsWf h1
  have hne : rga 9 0x12C ≠ rga 9 oRaw := rga_ne_of_off (by decide) (by decide) (by decide)
  refine ⟨?_, ?_, State.rb_raise_same h2 (by decide), ((((OnlyRegs.refl s).wb ..).wb ..).msix.raise ..)⟩
  · exact (State.rb_raise_ne h2 hne).trans (State.rb_wb h1 _ (by decide))
  · exact (State.rb_raise_ne h2 hne).trans ((State.rb_wb_other h1 _ (by decide) (by decide)).trans (State.rb_wb h _ (by decide)))

theorem exec_attestationDone (h : s.rb (rga 9 0x12C) 30 = true) :
    ∃ sign, exec .attestationDone s = .next (({ s with fresh := s.fresh + 1 } : State).attReport sign).attEnded := by
  refine ⟨Config.attestSign (bytesOf 48 (Config.sha384 (attBody s))) s.fresh, ?_⟩
  change execAttestationDone s = _
  simp only [execAttestationDone, h, Bool.not_true, Bool.false_eq_true, if_false]
  rfl

theorem attestationDone_effect (hcan : s.canonical = true) (h : s.rb (rga 9 0x12C) 30 = true) :
    ∃ t, exec .attestationDone s = .next t ∧ t.rb (rga 9 0x12C) 31 = true ∧ t.rb (rga 9 0x12C) 30 = false ∧ t.rb (rga 9 oRaw) 2 = true ∧
      t.hbmRead s.attAddr 256 = bslice (attBody s) 0 256 ∧ (∀ a, a < s.attAddr ∨ s.attAddr + ((attBody s).length + 96) ≤ a → t.hbmByte a = s.hbmByte a) ∧
      t.spad = s.spad := by
  obtain ⟨⟨⟨⟨⟨⟨⟨hhbm, -⟩, hwf⟩, -⟩, -⟩, -⟩, -⟩, -⟩ := State.canonical_iff.mp hcan
  obtain ⟨sign, hexec⟩ := exec_attestationDone h
  obtain ⟨hread, hframe⟩ := State.attReport_memory (s := { s with fresh := s.fresh + 1 }) hhbm sign
  obtain ⟨h31, h30, hraw, honly⟩ := State.attEnded_reads (s := ({ s with fresh := s.fresh + 1 } : State).attReport sign) hwf
  obtain ⟨hmem, hspad⟩ := honly.memory
  exact ⟨_, hexec, h31, h30, hraw, (State.hbmRead_congr hmem _ _).trans hread,
    fun a ha => (State.hbmByte_congr hmem a).trans (hframe a ha), hspad.trans rfl⟩

/-- Settles O39: the checks of a start in their order, and the report, which reaches no byte outside itself. -/
theorem attestation : Obligations.Attestation := by
  refine fun s f hcan => ⟨fun hw hidle => ⟨fun ha => ?_, fun ha hok => ?_, fun a ha hb => ?_⟩, exec_attStart_busy, attestationDone_effect hcan⟩
  · rw [exec_attStart hw, State.wrAttCtl_idle hidle, if_pos ha]
  · rw [exec_attStart hw, State.wrAttCtl_idle hidle, if_neg (Decidable.not_not.mpr ha), hok]
  · rw [exec_attStart hw, State.wrAttCtl_idle hidle, if_neg (Decidable.not_not.mpr ha), hb]

end Sys2Proof.Machine
end

section
/-!
The management mailbox (R414 to R416, R437, R438): from these the obligation MailboxQueries.
-/
namespace Sys2Proof.Machine

variable {s u : State}

/-! ### The end of a command -/

theorem State.mailbox_of_cmd {op : Nat} (h : s.ost.cmd = some op) (k : State → State) : s.mailbox op k = .next (k s) := if_pos h

theorem State.raise_ost (s : State) (page bit : Nat) : (s.raise page bit).ost = s.ost := by
  obtain ⟨x, hx⟩ := State.raise_eq (s := s) (page := page) (bit := bit)
  rw [hx]
  rfl

/-- No command runs. -/
def State.cmdCleared (s : State) : State := { s with ost := { s.ost with cmd := none } }

theorem State.omDone_eq (s : State) (r : Nat) : s.omDone r = (((s.pf omStat 3 0 r).wb omStat 30 false).wb omStat 31 true).cmdCleared.raise 1 0 := rfl

@[simp] theorem State.omDone_cmd (s : State) (r : Nat) : (s.omDone r).ost.cmd = none := by
  rw [State.omDone_eq, State.raise_ost]
  rfl

/-- A command that has ended (R414): its RESULT, DONE, BUSY clear and the interrupt; the registers beside OM_STAT and RAW stand. -/
theorem State.omDone_reads (h : s.regsWf) (r : Nat) : (s.omDone r).rf omStat 3 0 = r % 16 ∧ (s.omDone r).rb omStat 31 = true ∧
    (s.omDone r).rb omStat 30 = false ∧ (s.omDone r).rb (rga 1 oRaw) 0 = true ∧
    ∀ a, a ≠ omStat → a ≠ rga 1 oRaw → (s.omDone r).rd a = s.rd a := by
  have h1 : (s.pf omStat 3 0 r).regsWf := State.pf_regsWf h
  have h2 : ((s.pf omStat 3 0 r).wb omStat 30 false).regsWf := State.wb_regsWf h1
  have h3 : (((s.pf omStat 3 0 r).wb omStat 30 false).wb omStat 31 true).regsWf := State.wb_regsWf h2
  have hregs : ∀ u : State, u.cmdCleared.regs = u.regs := fun _ => rfl
  have h4 : (((s.pf omStat 3 0 r).wb omStat 30 false).wb omStat 31 true).cmdCleared.regsWf := by
    unfold State.regsWf
    rw [hregs]
    exact h3
  have hrd : ∀ a, a ≠ rga 1 oRaw → (s.omDone r).rd a = (((s.pf omStat 3 0 r).wb omStat 30 false).wb omStat 31 true).rd a := fun a ha => by
    rw [State.omDone_eq, State.rd_raise_ne h4 ha]
    exact State.rd_congr (hregs _) a
  have hstat := hrd omStat (rga_ne_of_off (by decide) (by decide) (by decide))
  have hraw : (s.omDone r).rb (rga 1 oRaw) 0 = true := by
    rw [State.omDone_eq]
    exact State.rb_raise_same h4 (by decide)
  refine ⟨?_, ?_, ?_, hraw, fun a ha hr => ?_⟩
  · refine (congrArg (fld · 3 0) hstat).trans ((State.rf_wb_out h2 _ (by decide) (by decide) (by decide)).trans ?_)
    exact (State.rf_wb_out h1 _ (by decide) (by decide) (by decide)).trans (State.rf_pf h _ (by decide) (by decide))
  · exact (congrArg (tbit · 31) hstat).trans (State.rb_wb h2 _ (by decide))
  · refine (congrArg (tbit · 30) hstat).trans ((State.rb_wb_other h2 _ (by decide) (by decide)).trans ?_)
    exact State.rb_wb h1 _ (by decide)
  · exact (hrd a hr).trans ((State.rd_wr_ne h2 _ ha).trans ((State.rd_wr_ne h1 _ ha).trans (State.rd_wr_ne h _ ha)))

/-! ### Queries -/

theorem exec_getInfo (h : s.ost.cmd = some 1) : exec .getInfo s = .next
    (((((s.omResp 0 (Config.slotStates (s.slotState 0) (s.slotState 1))).omResp 1 (w32 (s.fwVersion 0))).omResp 2 (w32 (s.fwVersion 1))).omResp 3
      (s.ledVal 4)).omDone 0) := by
  change execGetInfo s = _
  rw [execGetInfo, State.mailbox_of_cmd h]

/-- Four answers stand in the response registers (R414). -/
theorem State.omResp_reads (h : s.regsWf) (v0 v1 v2 v3 : Word) :
    ((((s.omResp 0 v0).omResp 1 v1).omResp 2 v2).omResp 3 v3).regsWf ∧
    ((((s.omResp 0 v0).omResp 1 v1).omResp 2 v2).omResp 3 v3).rd (rga 1 0x64) = v1 ∧
    ((((s.omResp 0 v0).omResp 1 v1).omResp 2 v2).omResp 3 v3).rd (rga 1 0x68) = v2 ∧
    ((((s.omResp 0 v0).omResp 1 v1).omResp 2 v2).omResp 3 v3).rd (rga 1 0x6C) = v3 := by
  have h0 : (s.omResp 0 v0).regsWf := State.wr_regsWf h
  have h1 : ((s.omResp 0 v0).omResp 1 v1).regsWf := State.wr_regsWf h0
  have h2 : (((s.omResp 0 v0).omResp 1 v1).omResp 2 v2).regsWf := State.wr_regsWf h1
  have hne : ∀ {a b : Nat}, a < 4096 → b < 4096 → a ≠ b → rga 1 a ≠ rga 1 b := fun ha hb h => rga_ne_of_off ha hb h
  refine ⟨State.wr_regsWf h2, ?_, ?_, State.rd_wr_same h2 _ _⟩
  · refine (State.rd_wr_ne h2 _ (hne (by decide) (by decide) (by decide))).trans ?_
    exact (State.rd_wr_ne h1 _ (hne (by decide) (by decide) (by decide))).trans (State.rd_wr_same h0 _ _)
  · exact (State.rd_wr_ne h2 _ (hne (by decide) (by decide) (by decide))).trans (State.rd_wr_same h1 _ _)

theorem getInfo_effect (h : s.regsWf) (hc : s.ost.cmd = some 1) :
    ∃ t, exec .getInfo s = .next t ∧ t.rd (rga 1 0x64) = w32 (s.fwVersion 0) ∧ t.rd (rga 1 0x68) = w32 (s.fwVersion 1) ∧ t.rd (rga 1 0x6C) = s.ledVal 4 ∧
      t.rf omStat 3 0 = 0 ∧ t.rb omStat 31 = true ∧ t.rb omStat 30 = false ∧ t.ost.cmd = none := by
  obtain ⟨hwf, e1, e2, e3⟩ := State.omResp_reads h (Config.slotStates (s.slotState 0) (s.slotState 1)) (w32 (s.fwVersion 0)) (w32 (s.fwVersion 1)) (s.ledVal 4)
  obtain ⟨hres, hdone, hbusy, -, hkeep⟩ := State.omDone_reads hwf 0
  have hne : ∀ {off : Nat}, off < 4096 → off ≠ 0x58 → off ≠ oRaw → rga 1 off ≠ omStat ∧ rga 1 off ≠ rga 1 oRaw := fun ho hs hr =>
    ⟨rga_ne_of_off ho (by decide) hs, rga_ne_of_off ho (by decide) hr⟩
  have hrd : ∀ {off : Nat}, off < 4096 → off ≠ 0x58 → off ≠ oRaw → _ := fun ho hs hr => hkeep _ (hne ho hs hr).1 (hne ho hs hr).2
  refine ⟨_, exec_getInfo hc, (hrd (by decide) (by decide) (by decide)).trans e1, (hrd (by decide) (by decide) (by decide)).trans e2,
    (hrd (by decide) (by decide) (by decide)).trans e3, hres, hdone, hbusy, State.omDone_cmd _ _⟩

theorem exec_logRead_refused (hc : s.ost.cmd = some 2) (h : s.omArg 1 = 0 ∨ 32 < s.omArg 1) : exec .logRead s = .next (s.omDone 2) := by
  change execLogRead s = _
  rw [execLogRead, State.mailbox_of_cmd hc]
  dsimp only
  rw [if_pos h]

theorem exec_logRead (hc : s.ost.cmd = some 2) (h0 : 0 < s.omArg 1) (h32 : s.omArg 1 ≤ 32) {old : Nat} {recs : List LogRec}
    (hold : old = s.log.nextSeq - s.log.flash.length) (hrecs : recs = (s.log.flash.drop (max (s.omArg 0) old - old)).take (s.omArg 1)) :
    exec .logRead s = .next ((((s.omData (((List.range recs.length).zip recs).flatMap (fun x => logBytes x.2 (max (s.omArg 0) old + x.1)))).omResp 0
      (w32 recs.length)).omResp 1 (w32 old)).omDone 0) := by
  have hn : ¬ (s.omArg 1 = 0 ∨ 32 < s.omArg 1) := by omega
  change execLogRead s = _
  rw [execLogRead, State.mailbox_of_cmd hc, hrecs, hold]
  dsimp only
  rw [if_neg hn]

theorem exec_sensorRead (hc : s.ost.cmd = some 14) :
    ∃ bs : List Byte, bs.length ≤ 1024 ∧ exec .sensorRead s = .next ((s.omData bs).omDone 0) := by
  refine ⟨(Config.sensorImage (s.ost.samples.map (fun x => (x.1, x.2.headD 0)))).take 1024, List.length_take_le _ _, ?_⟩
  change execSensorRead s = _
  rw [execSensorRead, State.mailbox_of_cmd hc]

theorem mailboxTimeout_effect (h : s.regsWf) {op : Nat} (hc : s.ost.cmd = some op) :
    ∃ t, exec .mailboxTimeout s = .next t ∧ t.rf omStat 3 0 = 8 ∧ t.rb omStat 31 = true ∧ t.rb omStat 30 = false ∧ t.ost.cmd = none ∧
      t.rb (rga 1 oRaw) 0 = true := by
  have hexec : exec .mailboxTimeout s = .next (s.omDone 8) := by
    change execMailboxTimeout s = _
    simp only [execMailboxTimeout, hc, Option.isSome_some, if_true]
  obtain ⟨hres, hdone, hbusy, hraw, -⟩ := State.omDone_reads h 8
  exact ⟨_, hexec, hres, hdone, hbusy, State.omDone_cmd _ _, hraw⟩

/-! ### Management accesses -/

theorem exec_mgmtRead_refused (hc : s.ost.cmd = some 10) (ho : mgmtOffset (s.omArg 0) = false) : exec .mgmtRead s = .next (s.omDone 2) := by
  change execMgmtRead s = _
  rw [execMgmtRead, State.mailbox_of_cmd hc]
  simp only [ho, Bool.not_false, if_true]

theorem exec_mgmtRead (hc : s.ost.cmd = some 10) (ho : mgmtOffset (s.omArg 0) = true) (hu : u = s.localRead .mgmt (s.omArg 0)) :
    exec .mgmtRead s = .next (((({ u with rdata := s.rdata } : State).logMgmt (s.omArg 0) u.rdata).omResp 0 u.rdata).omDone 0) := by
  change execMgmtRead s = _
  rw [execMgmtRead, State.mailbox_of_cmd hc]
  simp only [ho, Bool.not_true, Bool.false_eq_true, if_false, ← hu]

theorem exec_mgmtWrite_refused (hc : s.ost.cmd = some 11) (ho : mgmtOffset (s.omArg 0) = false) : exec .mgmtWrite s = .next (s.omDone 2) := by
  change execMgmtWrite s = _
  rw [execMgmtWrite, State.mailbox_of_cmd hc]
  simp only [ho, Bool.not_false, if_true]

theorem pageId_porter : ∀ p : Fin 8, ∃ i, pageId (porPage p.val) = some i ∧ i.block = .porter := by decide

/-- The body of a Porter page is plain storage to the management path. -/
theorem State.localWrite_porter (s : State) (p : Fin 8) {off : Nat} (hlow : 0x40 ≤ off) (hoff : off < 4096) (v : Word) :
    s.localWrite .mgmt (rga (porPage p.val) off) v = s.store .mgmt (rga (porPage p.val) off) v 0 := by
  obtain ⟨i, hi, hb⟩ := pageId_porter p
  have hdiv : pageId (rga (porPage p.val) off / 4096) = some i := by rw [rga_div _ hoff, hi]
  have hw : s.mayWrite .mgmt (rga (porPage p.val) off) = true := by
    rw [State.mayWrite_eq hdiv]
    rfl
  have hbody : ¬ rga (porPage p.val) off % 4096 < 0x40 := by
    rw [rga_mod _ hoff]
    omega
  unfold State.localWrite
  rw [State.guarded_of_mayWrite hw]
  simp only [hdiv, if_neg hbody, State.wrBody, hb]

@[simp] theorem State.store_ost (s : State) (f : Func) (a : Nat) (v hw : Word) : (s.store f a v hw).ost = s.ost := by
  have h := State.store_onlyRegs s f a v hw
  unfold OnlyRegs at h
  rw [h]

@[simp] theorem State.logNamed_ost (s : State) (page ev cls info n : Nat) : (s.logNamed page ev cls info n).ost = s.ost := by
  obtain ⟨g, hg⟩ := State.logNamed_eq (s := s) (page := page) (ev := ev) (cls := cls) (info := info) (t := n)
  rw [hg]

theorem exec_mgmtWrite_porter (hc : s.ost.cmd = some 11) (p : Fin 8) {off : Nat} (hlow : 0x40 ≤ off) (hoff : off < 4096) (hal : off % 4 = 0)
    (ha : s.omArg 0 = rga (porPage p.val) off) :
    exec .mgmtWrite s = .next (((s.logMgmt (s.omArg 0) (w32 (s.omArg 1))).store .mgmt (s.omArg 0) (w32 (s.omArg 1)) 0).omDone 0) := by
  have hp := p.isLt
  have ho : mgmtOffset (s.omArg 0) = true := by
    rw [ha]
    unfold mgmtOffset rga porPage
    simp only [Bool.and_eq_true, decide_eq_true_eq]
    omega
  have hinj : ¬ s.omArg 0 % 4096 = oInj := by
    rw [ha, rga_mod _ hoff]
    unfold oInj
    omega
  have hcmd : ((s.logMgmt (s.omArg 0) (w32 (s.omArg 1))).store .mgmt (s.omArg 0) (w32 (s.omArg 1)) 0).ost.cmd = some 11 := by
    rw [State.store_ost, State.logMgmt, State.logNamed_ost, hc]
  have hwrite := State.localWrite_porter (s.logMgmt (s.omArg 0) (w32 (s.omArg 1))) p hlow hoff (w32 (s.omArg 1))
  rw [← ha] at hwrite
  change execMgmtWrite s = _
  rw [execMgmtWrite, State.mailbox_of_cmd hc]
  simp only [ho, Bool.not_true, Bool.false_eq_true, if_false, if_neg hinj, hwrite, hcmd, if_true]

/-! ### Fences -/

theorem exec_mailboxFence (hc : s.ost.cmd = some 12) {p : Nat} {i : PageId} (hp : unitPage (s.omArg 0) = some p) (hi : pageId p = some i) :
    exec .mailboxFence s = .next (if !i.block.tensorSide then s.omDone 2 else if s.blk p = 0 then s.omDone 6
      else (s.unitFence p (Config.eventCode evFence) true).omDone 0) := by
  change execMailboxFence s = _
  rw [execMailboxFence, State.mailbox_of_cmd hc]
  simp only [hp, hi]

theorem exec_unfence (hc : s.ost.cmd = some 13) {p : Nat} (hp : unitPage (s.omArg 0) = some p) :
    exec .unfence s = .next (if s.blk p = 4 then (s.liftFence p true).omDone 0 else s.omDone 6) := by
  change execUnfence s = _
  rw [execUnfence, State.mailbox_of_cmd hc]
  simp only [hp]

/-- Settles O40: the queries answer from the state, the management override reaches registers and is logged, and fences follow the unit's side. -/
theorem mailboxQueries : Obligations.MailboxQueries := by
  refine ⟨fun s hcan => ⟨getInfo_effect (State.canonical_regsWf hcan), fun hc => ⟨exec_logRead_refused hc, fun old recs h0 h32 => exec_logRead hc h0 h32⟩,
    exec_sensorRead, fun op => mailboxTimeout_effect (State.canonical_regsWf hcan)⟩, fun s => ⟨fun hc => ⟨exec_mgmtRead_refused hc, fun u => exec_mgmtRead hc⟩,
    fun hc => ⟨exec_mgmtWrite_refused hc, fun p off => exec_mgmtWrite_porter hc p⟩, fun p i hc hp hi => ⟨fun ht hb => ?_, fun ht hb => ?_, fun ht => ?_⟩,
    fun p hc hp => ⟨fun hb => ?_, fun hb => ?_⟩⟩⟩
  · rw [exec_mailboxFence hc hp hi, ht, if_neg (by decide), if_neg hb]
  · rw [exec_mailboxFence hc hp hi, ht, if_neg (by decide), if_pos hb]
  · rw [exec_mailboxFence hc hp hi, ht, if_pos (by decide)]
  · rw [exec_unfence hc hp, if_pos hb]
  · rw [exec_unfence hc hp, if_neg hb]

end Sys2Proof.Machine
end

section
/-!
Writes of the Ledger by Ostler and the firmware slots (R415, R428 to R432): from these the obligation FirmwareCommands.
-/
namespace Sys2Proof.Machine

variable {s u : State} {k : Nat}

/-! ### Writes behind an empty queue -/

theorem State.dequeue_idle (hq : s.ledger.queue = []) (hp : s.ledger.prog = none) : s.dequeue = s := by
  simp only [State.dequeue, hp, hq, Option.isSome_none, Bool.false_eq_true, if_false]

theorem State.writeDone_idle (hp : s.ledger.prog = none) : s.writeDone = s := by
  simp only [State.writeDone, hp]

theorem State.drainLedger_idle (hq : s.ledger.queue = []) (hp : s.ledger.prog = none) (n : Nat) : s.drainLedger n = s := by
  induction n with
  | zero => exact State.writeDone_idle hp
  | succ n ih => rw [State.drainLedger, State.writeDone_idle hp, State.dequeue_idle hq hp, ih]

section
variable (hq : s.ledger.queue = []) (hp : s.ledger.prog = none)
include hq hp

theorem State.ledgerNow_accepted {exempt : Bool} (h : exempt = true ∨ 200 ≤ s.holdup) (w : Nat) (v : Word) :
    s.ledgerNow w v exempt = (s.program ⟨w, v, exempt⟩, true) := by
  unfold State.ledgerNow
  rw [State.drainLedger_idle hq hp]
  exact if_pos h

theorem State.ledgerNow_refused (h : s.holdup < 200) (w : Nat) (v : Word) : s.ledgerNow w v false = (s.refuseWrite w, false) := by
  unfold State.ledgerNow
  rw [State.drainLedger_idle hq hp]
  exact if_neg (by simpa using h)

theorem State.ledgerAll_accepted (h : 200 ≤ s.holdup) (l : List (Nat × Word)) :
    s.ledgerAll l = (l.foldl (fun s x => s.program ⟨x.1, x.2, false⟩) s, true) := by
  unfold State.ledgerAll
  rw [State.drainLedger_idle hq hp]
  exact if_pos (Or.inr h)

/-! ### Erase and write -/

theorem exec_fwErase (hc : s.ost.cmd = some 3) (h3 : s.slotState s.idleSlot ≠ 3) (h : 200 ≤ s.holdup) :
    exec (.fwErase false) s = .next (((s.program ⟨1 + s.idleSlot, 0, false⟩).setSlot s.idleSlot []).omDone 0) := by
  change execFwErase false s = _
  rw [execFwErase, State.mailbox_of_cmd hc]
  simp only [h3, if_false, Bool.false_eq_true, State.ledgerNow_accepted hq hp (Or.inr h), endLedger, if_true]

theorem exec_fwErase_refused (hc : s.ost.cmd = some 3) (h3 : s.slotState s.idleSlot ≠ 3) (h : s.holdup < 200) :
    exec (.fwErase false) s = .next ((s.refuseWrite (1 + s.idleSlot)).omDone 5) := by
  change execFwErase false s = _
  rw [execFwErase, State.mailbox_of_cmd hc]
  simp only [h3, if_false, Bool.false_eq_true, State.ledgerNow_refused hq hp h, endLedger]

omit hq hp in
theorem exec_fwErase_error (hc : s.ost.cmd = some 3) (h3 : s.slotState s.idleSlot ≠ 3) : exec (.fwErase true) s = .next (s.omDone 7) := by
  change execFwErase true s = _
  rw [execFwErase, State.mailbox_of_cmd hc]
  simp only [h3, if_false, if_true]

omit hq hp in
theorem exec_fwWrite (hc : s.ost.cmd = some 4) (h3 : s.slotState s.idleSlot ≠ 3) (ho : s.omArg 0 % 256 = 0) (hn : s.omLen % 256 = 0) (h0 : 0 < s.omLen)
    (h1 : s.omLen ≤ 1024) (hend : s.omArg 0 + s.omLen ≤ 2 ^ 20) :
    exec (.fwWrite false) s = .next ((s.setSlot s.idleSlot ((List.range s.omLen).foldl (fun m i => mapSet fwDflt m (s.omArg 0 + i) (s.omByte i))
      (if s.idleSlot = 0 then s.ost.slotA else s.ost.slotB))).omDone 0) := by
  have hok : ¬ (s.omArg 0 % 256 ≠ 0 ∨ s.omLen % 256 ≠ 0 ∨ s.omLen = 0 ∨ 1024 < s.omLen ∨ 2 ^ 20 < s.omArg 0 + s.omLen) := by omega
  change execFwWrite false s = _
  rw [execFwWrite, State.mailbox_of_cmd hc]
  dsimp only
  rw [if_neg hok, if_neg h3, if_neg Bool.false_ne_true]

/-! ### Verify, activate, confirm and revert -/

theorem exec_fwVerify (hc : s.ost.cmd = some 5) (h3 : s.slotState s.idleSlot ≠ 3) (h : 200 ≤ s.holdup) (hu : u = s.program ⟨1 + s.idleSlot, 1, false⟩) :
    exec .fwVerify s = .next (if s.fwCheck s.idleSlot = 0 then
      (({ u with ost := { u.ost with verified := true } } : State).omResp 0 (w32 (u.fwVersion s.idleSlot))).omDone 0 else s.omDone (s.fwCheck s.idleSlot)) := by
  change execFwVerify s = _
  rw [execFwVerify, State.mailbox_of_cmd hc]
  dsimp only
  split
  · next hr => rw [if_pos hr, if_neg h3, State.ledgerNow_accepted hq hp (Or.inr h), endLedger, if_pos rfl, hu]
  · next hr => rw [if_neg hr]

omit hq hp in
theorem exec_fwActivate_unverified (hc : s.ost.cmd = some 6) (hv : s.ost.verified = false) : exec .fwActivate s = .next (s.omDone 6) := by
  change execFwActivate s = _
  rw [execFwActivate, State.mailbox_of_cmd hc]
  simp only [hv, Bool.not_false, or_true, if_true]

theorem exec_fwActivate (hc : s.ost.cmd = some 6) (h3 : s.slotState s.idleSlot ≠ 3) (hv : s.ost.verified = true) (h : 200 ≤ s.holdup) :
    exec .fwActivate s = .next (((s.program ⟨1 + s.idleSlot, 2, false⟩).program ⟨3, 0, false⟩).omDone 0) := by
  change execFwActivate s = _
  rw [execFwActivate, State.mailbox_of_cmd hc]
  simp only [h3, hv, Bool.not_true, Bool.false_eq_true, or_self, if_false, State.ledgerAll_accepted hq hp h, List.foldl_cons, List.foldl_nil, endLedger, if_true,
    id]

theorem exec_fwConfirm (hc : s.ost.cmd = some 7) (h2 : s.slotState s.ost.running = 2) (h3 : s.slotState (1 - s.ost.running) ≠ 3)
    (hr : s.fwRollback s.ost.running ≤ (s.ledVal 4).toNat) (h : 200 ≤ s.holdup) (hu : u = s.program ⟨1 + s.ost.running, 3, false⟩) :
    exec .fwConfirm s = .next (({ u with ost := { u.ost with trialOn := false } } : State).omDone 0) := by
  have hl : ¬ (s.ledVal 4).toNat < s.fwRollback s.ost.running := Nat.not_lt.mpr hr
  change execFwConfirm s = _
  rw [execFwConfirm, State.mailbox_of_cmd hc]
  simp only [h2, ne_eq, not_true_eq_false, if_false, h3, hl, List.append_nil, State.ledgerAll_accepted hq hp h, List.foldl_cons, List.foldl_nil, endLedger,
    if_true, ← hu]

omit hq hp in
theorem exec_fwConfirm_refused (hc : s.ost.cmd = some 7) (h2 : s.slotState s.ost.running ≠ 2) : exec .fwConfirm s = .next (s.omDone 6) := by
  change execFwConfirm s = _
  rw [execFwConfirm, State.mailbox_of_cmd hc]
  simp only [ne_eq, h2, not_false_eq_true, if_true]

theorem exec_trialTimeout (ht : s.ost.trialOn = true) (h : 200 ≤ s.holdup) (hu : u = { s with ost := { s.ost with trialOn := false } }) :
    exec .trialTimeout s = .next ((u.program ⟨1 + s.ost.running, 4, false⟩).logNamed 1 evFwRevert 5 s.ost.running 255) := by
  have hq' : u.ledger.queue = [] := by rw [hu]; exact hq
  have hp' : u.ledger.prog = none := by rw [hu]; exact hp
  have hh : 200 ≤ u.holdup := by rw [hu]; exact h
  change execTrialTimeout s = _
  simp only [execTrialTimeout, ht, Bool.not_true, Bool.false_eq_true, if_false, ← hu, State.ledgerNow_accepted hq' hp' (Or.inr hh)]

end

/-- Settles O41: each firmware command with its slot, its Ledger words and its refusals. -/
theorem firmwareCommands : Obligations.FirmwareCommands := by
  rintro s k rfl hq hp
  exact ⟨fun hc h3 => ⟨exec_fwErase hq hp hc h3, exec_fwErase_refused hq hp hc h3, exec_fwErase_error hc h3⟩, exec_fwWrite, fun u => exec_fwVerify hq hp,
    fun hc h3 => ⟨exec_fwActivate_unverified hc, exec_fwActivate hq hp hc h3⟩, fun u => exec_fwConfirm hq hp, exec_fwConfirm_refused,
    fun u => exec_trialTimeout hq hp⟩

end Sys2Proof.Machine
end

section
/-!
The Ledger: writes by mailbox, the queue, the scan, and the pages of the event log (R408, R426, R431 to R436): from these the obligation LedgerWrites.
-/
namespace Sys2Proof.Machine

variable {s : State} {x : LWrite} {c : LCopy}

/-! ### LEDGER_WRITE and ROSTER_SET -/

theorem exec_ledgerWrite_refused (hc : s.ost.cmd = some 8) (h : ledgerWritable (s.omArg 0) = false) : exec .ledgerWrite s = .next (s.omDone 2) := by
  change execLedgerWrite s = _
  rw [execLedgerWrite, State.mailbox_of_cmd hc]
  simp only [h, Bool.not_false, true_or, if_true]

/-- A word of the user's part goes to the Ledger under the masks alone. -/
theorem exec_ledgerWrite_user (hc : s.ost.cmd = some 8) (h1 : 0x900 ≤ s.omArg 0) (h2 : s.omArg 0 < 0x1000) : exec .ledgerWrite s =
    .next (endLedger (s.ledgerNow (s.omArg 0) (w32 (s.omArg 1) &&& ledgerMask (s.omArg 0)) false) id) := by
  have hw : ledgerWritable (s.omArg 0) = true := by
    unfold ledgerWritable
    simp [h1, h2]
  have hlow : ¬ s.omArg 0 < 0x400 := by omega
  have hm : ¬ s.omArg 0 = 0x592 := by omega
  have hex : (s.omArg 0 == 0x593 || s.omArg 0 == 0x594) = false := by
    rw [beq_false_of_ne (by omega), beq_false_of_ne (by omega)]
    rfl
  change execLedgerWrite s = _
  rw [execLedgerWrite, State.mailbox_of_cmd hc]
  simp only [hw, hlow, hm, hex, Bool.not_true, Bool.false_eq_true, false_and, or_self, if_false]

theorem exec_rosterSet_refused (hc : s.ost.cmd = some 9) (h : 64 ≤ s.omArg 0) : exec .rosterSet s = .next (s.omDone 2) := by
  change execRosterSet s = _
  rw [execRosterSet, State.mailbox_of_cmd hc]
  simp only [h, if_true]

theorem exec_rosterSet (hc : s.ost.cmd = some 9) (h : s.omArg 0 < 64) (hq : s.ledger.queue = []) (hp : s.ledger.prog = none) (hh : 200 ≤ s.holdup) :
    exec .rosterSet s = .next (((List.range 12).foldl (fun u i => u.program ⟨0x600 + 12 * s.omArg 0 + i,
      if i = 11 then setBit (s.rd (rga 1 0x12C)) 31 (s.omArg 1 % 2 == 1) else s.rd (rga 1 (0x100 + 4 * i)), false⟩) s).omDone 0) := by
  have hn : ¬ 64 ≤ s.omArg 0 := by omega
  change execRosterSet s = _
  rw [execRosterSet, State.mailbox_of_cmd hc]
  simp only [hn, if_false, State.ledgerAll_accepted hq hp hh, List.foldl_map, endLedger, if_true, id]

/-! ### The queue -/

/-- The oldest write has left the queue. -/
def State.popped (s : State) (r : List LWrite) : State := setLedger s { s.ledger with queue := r }

theorem State.dequeue_cons {r : List LWrite} (hp : s.ledger.prog = none) (hq : s.ledger.queue = x :: r) : s.dequeue =
    if x.exempt ∨ 200 ≤ s.holdup then setLedger s { s.ledger with queue := r, prog := some x } else (s.popped r).refuseWrite x.word := by
  unfold State.popped
  simp only [State.dequeue, hp, hq, Option.isSome_none, Bool.false_eq_true, if_false]
  rfl

theorem exec_ledgerWriteDone_failed (hp : s.ledger.prog = some x) (hx : x.exempt = true) :
    exec (.ledgerWriteDone true) s = .next ((setLedger s { s.ledger with prog := none }).wb (rga 2 0x48) 31 true) := by
  change execLedgerWriteDone true s = _
  simp only [execLedgerWriteDone, hp, hx, and_self, if_true]

theorem exec_ledgerWriteDone (hp : s.ledger.prog = some x) :
    exec (.ledgerWriteDone false) s = .next ((setLedger s { s.ledger with prog := none }).program x) := by
  change execLedgerWriteDone false s = _
  simp only [execLedgerWriteDone, hp, Bool.false_eq_true, false_and, if_false, State.writeDone]

@[simp] theorem State.logNamed_ledger (s : State) (page ev cls info n : Nat) : (s.logNamed page ev cls info n).ledger = s.ledger := by
  obtain ⟨g, hg⟩ := State.logNamed_eq (s := s) (page := page) (ev := ev) (cls := cls) (info := info) (t := n)
  rw [hg]

/-- Of the Ledger a programmed write changes the value in force and the rows (R432, R434). -/
theorem State.program_ledger (s : State) (x : LWrite) :
    ∃ rows, (s.program x).ledger = { s.ledger with rows := rows, ram := mapSet dfltW s.ledger.ram x.word x.value } := by
  have hforce : ((s.newMaster x.word x.value).force x.word x.value).ledger = { s.ledger with ram := mapSet dfltW s.ledger.ram x.word x.value } := by
    rw [State.force_ledger, State.newMaster_ledger]
  generalize hu : (s.newMaster x.word x.value).force x.word x.value = u at hforce
  have hrows : ∀ rows, (setLedger u { u.ledger with rows := rows }).ledger =
      { s.ledger with rows := rows, ram := mapSet dfltW s.ledger.ram x.word x.value } := fun rows => by
    unfold setLedger
    rw [hforce]
  unfold State.program
  rw [hu]
  extract_lets row w old wear words d v
  refine ⟨mapSet dflt u.ledger.rows row ⟨d, d⟩, ?_⟩
  split
  · rw [State.logNamed_ledger]
    exact hrows (mapSet dflt u.ledger.rows row ⟨d, d⟩)
  · exact hrows (mapSet dflt u.ledger.rows row ⟨d, d⟩)

theorem ledgerWriteDone_effect (hp : s.ledger.prog = some x) (hwf : mapWf dfltW s.ledger.ram = true) :
    ∃ t, exec (.ledgerWriteDone false) s = .next t ∧ t.ledger.prog = none ∧ t.ledger.queue = s.ledger.queue ∧ t.ledVal x.word = x.value ∧
      (∀ w, w ≠ x.word → t.ledVal w = s.ledVal w) := by
  obtain ⟨rows, hl⟩ := State.program_ledger (setLedger s { s.ledger with prog := none }) x
  have hget : ∀ w, ((setLedger s { s.ledger with prog := none }).program x).ledVal w = if w = x.word then x.value else s.ledVal w := fun w => by
    unfold State.ledVal
    rw [hl]
    exact mapGet_mapSet hwf
  refine ⟨_, exec_ledgerWriteDone hp, by rw [hl]; rfl, by rw [hl]; rfl, (hget _).trans (if_pos rfl), fun w hw => (hget w).trans (if_neg hw)⟩

/-! ### The scan -/

/-- The row of the next scan. -/
def State.scanned (s : State) : State := setLedger s { s.ledger with scan := (s.ledger.scan + 1) % 256 }

theorem exec_ledgerScan (s : State) : exec (.ledgerScan false false) s = match readRow (s.lrow s.ledger.scan) with
    | .used _ => .next s.scanned
    | .repair c => .next ((setLedger s { s.ledger with
        scan := (s.ledger.scan + 1) % 256
        rows := mapSet dflt s.ledger.rows s.ledger.scan ⟨c, c⟩ }).noteRepair s.ledger.scan)
    | .lost => .next (s.scanned.logNamed 2 evLedgerLost 5 s.ledger.scan 255) := by
  have hrow : s.scanned.lrow s.ledger.scan = s.lrow s.ledger.scan := rfl
  change execLedgerScan false false s = _
  simp only [execLedgerScan, State.spoil, Bool.not_false, Bool.and_self, if_true]
  unfold State.scanned at hrow ⊢
  rw [hrow] <;> rfl

theorem LRow.readRow_lostB (hc : c.good = true) : readRow ⟨c, { c with crcErr := 1 }⟩ = .repair c := by
  have hb : ({ c with crcErr := 1 } : LCopy).good = false := rfl
  simp only [readRow, hc, hb]

/-- Copy B of the row loses its CRC, and the scan writes the row again from copy A (R434, R436). -/
def State.scanRepaired (s : State) (c : LCopy) : State :=
  setLedger s { s.ledger with
    scan := (s.ledger.scan + 1) % 256
    rows := mapSet dflt (mapSet dflt s.ledger.rows s.ledger.scan ⟨c, { c with crcErr := 1 }⟩) s.ledger.scan ⟨c, c⟩ }

theorem exec_ledgerScan_lostB (hrow : s.lrow s.ledger.scan = ⟨c, c⟩) (hc : c.good = true) (hwf : mapWf dflt s.ledger.rows = true) :
    exec (.ledgerScan false true) s = .next ((s.scanRepaired c).noteRepair s.ledger.scan) := by
  have hrow' : s.scanned.lrow s.ledger.scan = ⟨c, c⟩ := hrow
  have hspoil : s.scanned.spoil s.ledger.scan false true =
      setLedger s { s.ledger with
        scan := (s.ledger.scan + 1) % 256
        rows := mapSet dflt s.ledger.rows s.ledger.scan ⟨c, { c with crcErr := 1 }⟩ } := by
    simp only [State.spoil, Bool.not_true, Bool.and_false, Bool.false_eq_true, if_false, hrow', if_true]
    rfl
  have hread : readRow ((setLedger s { s.ledger with
        scan := (s.ledger.scan + 1) % 256
        rows := mapSet dflt s.ledger.rows s.ledger.scan ⟨c, { c with crcErr := 1 }⟩ }).lrow s.ledger.scan) = .repair c :=
    (congrArg readRow ((mapGet_mapSet hwf).trans (if_pos rfl))).trans (LRow.readRow_lostB hc)
  change execLedgerScan false true s = _
  unfold State.scanned at hspoil
  simp only [execLedgerScan, hspoil, hread]
  rfl

/-- A noted repair shows in LED_STAT (R434, R442); the Ledger itself stands. -/
theorem State.noteRepair_effect (h : s.regsWf) (row : Nat) : (s.noteRepair row).ledger = s.ledger ∧ (s.noteRepair row).rb (rga 2 0x48) 30 = true := by
  have h1 : (s.wb (rga 2 0x48) 30 true).regsWf := State.wb_regsWf h
  have hne : rga 2 0x48 ≠ rga 2 0x50 := rga_ne_of_off (by decide) (by decide) (by decide)
  have h2 : ((s.wb (rga 2 0x48) 30 true).incSat (rga 2 0x50) 31 16).regsWf := State.pf_regsWf h1
  unfold State.noteRepair
  refine ⟨State.logNamed_ledger .., ?_⟩
  rw [State.rb_congr (State.logNamed_regs ..)]
  refine (State.rb_wr_ne h2 _ hne).trans ?_
  exact (State.rb_wr_ne h1 _ hne).trans (State.rb_wb h _ (by decide))

theorem ledgerScan_repairs (hcan : s.canonical = true) (hrow : s.lrow s.ledger.scan = ⟨c, c⟩) (hc : c.good = true)
    (hwf : mapWf dflt s.ledger.rows = true) :
    ∃ t, exec (.ledgerScan false true) s = .next t ∧ t.lrow s.ledger.scan = ⟨c, c⟩ ∧ t.ledger.scan = (s.ledger.scan + 1) % 256 ∧
      t.rb (rga 2 0x48) 30 = true := by
  obtain ⟨hl, hflag⟩ := State.noteRepair_effect (s := s.scanRepaired c) (State.canonical_regsWf hcan) s.ledger.scan
  refine ⟨_, exec_ledgerScan_lostB hrow hc hwf, ?_, by rw [hl]; rfl, hflag⟩
  unfold State.lrow
  rw [hl]
  exact (mapGet_mapSet (mapSet_wf hwf)).trans (if_pos rfl)

/-! ### Pages of the event log -/

/-- A page of one record goes to the flash, and the FIFO becomes the next page (R426). -/
theorem EventLog.written_single {g : EventLog} {x : LogRec} (hpage : g.page = [x]) (hlen : g.fifo.length ≤ 8) (hcounts : g.counts = [0, 0, 0, 0, 0, 0, 0])
    (hseq : g.nextSeq % 2048 ≠ 0) :
    g.written = { g with flash := g.flash ++ [x], nextSeq := g.nextSeq + 1, page := g.fifo, fifo := [] } := by
  have hnone : ([0, 0, 0, 0, 0, 0, 0] : List Nat).all (· == 0) = true := by decide
  unfold EventLog.written
  simp only [hpage, putLog, hseq, if_false, hcounts, hnone, if_true, List.take_of_length_le hlen, List.drop_of_length_le hlen]

theorem exec_logPageWritten {x : LogRec} (hpage : s.log.page = [x]) (hlen : s.log.fifo.length ≤ 8) (hcounts : s.log.counts = [0, 0, 0, 0, 0, 0, 0])
    (hseq : s.log.nextSeq % 2048 ≠ 0) : exec .logPageWritten s = .next { s with log := { s.log with
      flash := s.log.flash ++ [x]
      nextSeq := s.log.nextSeq + 1
      page := s.log.fifo
      fifo := [] } } := by
  change execLogPageWritten s = _
  rw [execLogPageWritten, EventLog.written_single hpage hlen hcounts hseq]

/-- Settles O42: writes into the queue and out of it, what a finished one changes, the scan's repair, and the pages of the log. -/
theorem ledgerWrites : Obligations.LedgerWrites := by
  refine fun s => ⟨fun hc => ⟨exec_ledgerWrite_refused hc, fun hq hp h1 h2 => ⟨fun hh => ?_, fun hh => ?_⟩⟩,
    fun hc => ⟨exec_rosterSet_refused hc, fun h hq hp hh => exec_rosterSet hc h hq hp hh⟩, fun x r hp hq => ⟨fun hx => ?_, fun hx hh => ?_⟩,
    fun x => exec_ledgerWriteDone_failed, fun x => ledgerWriteDone_effect, ?_, ?_⟩
  · rw [exec_ledgerWrite_user hc h1 h2, State.ledgerNow_accepted hq hp (Or.inr hh)]
    rfl
  · rw [exec_ledgerWrite_user hc h1 h2, State.ledgerNow_refused hq hp hh]
    rfl
  · change execLedgerDequeue s = _
    rw [execLedgerDequeue, State.dequeue_cons hp hq, if_pos hx]
  · have hno : ¬ (x.exempt = true ∨ 200 ≤ s.holdup) := by simp [hx, hh]
    change execLedgerDequeue s = _
    rw [execLedgerDequeue, State.dequeue_cons hp hq, if_neg hno]
    rfl
  · rintro r c rfl
    refine ⟨fun h => ?_, fun h => ?_, fun h => ?_, fun hcan hrow hgood hwf => ledgerScan_repairs hcan hrow hgood hwf⟩ <;> rw [exec_ledgerScan, h] <;> rfl
  · rintro x l hpage rfl hlen hcounts hseq
    exact exec_logPageWritten hpage hlen hcounts hseq

end Sys2Proof.Machine
end

section
/-!
Fences of units, drain stalls and state comparison (R33, R437 to R440): from these the obligation UnitFences.
-/
namespace Sys2Proof.Machine

variable {s : State} {page p per : Nat} {i : PageId}

/-! ### Lifting a fence -/

theorem State.liftFence_off (h : s.blk p = 0) (always : Bool) : s.liftFence p always = s := by
  simp only [State.liftFence, h, beq_self_eq_true, Bool.or_true, if_true]

/-- A unit with power whose fence is in force: a sticky fence stays FENCED, another one ends (R438). -/
theorem State.liftFence_active (hact : (mapGet dflt s.ost.fences p : Fence).active = true) (h0 : s.blk p ≠ 0) : s.liftFence p false =
    if (mapGet dflt s.ost.fences p : Fence).sticky then s.setBlk p 4
    else (((({ s with ost := { s.ost with fences := mapSet dflt s.ost.fences p { (mapGet dflt s.ost.fences p : Fence) with
      sticky := false
      active := false } } } : State).wb (rga p oStat) 9 false).setBlk p 2).kick) := by
  have h0' : (s.blk p == 0) = false := beq_false_of_ne h0
  simp only [State.liftFence, hact, h0', Bool.not_true, Bool.or_self, Bool.false_eq_true, if_false, Bool.not_false, Bool.and_true]

theorem exec_fenceLift (hp : instPages page = some (p, per, i)) : exec (.fenceLift page) s = .next (s.liftFence p false) := by
  change execFenceLift page s = _
  simp only [execFenceLift, hp]

/-! ### Drain stalls and state comparison -/

theorem exec_drainStall (hp : instPages page = some (p, per, i)) (ht : i.block.tensorSide = true) (cls : Fin 2) : exec (.drainStall page cls) s
    = .next (((s.recordFault p 0x0E01 (i.inst * 2 ^ 24 + i.block.code % 256 * 2 ^ 16 + cls.val)).logEvent p 0x0E01 0
      (i.inst * 2 ^ 24 + i.block.code % 256 * 2 ^ 16 + cls.val) 255).unitFence p 0x0E01 false) := by
  have hfault : s.faultFence page 0x0E01 cls.val = ((s.recordFault p 0x0E01 (fenceInfo i cls.val)).logEvent p 0x0E01 0 (fenceInfo i cls.val) 255).unitFence p
      0x0E01 false := by
    simp only [State.faultFence, hp, ht, Bool.not_true, Bool.false_eq_true, if_false]
  change execDrainStall page cls s = _
  rw [execDrainStall, hfault]
  rfl

/-- Whether the view of Ostler and that of Innkeeper differed last time. -/
def State.mismatched (s : State) (p : Nat) : Bool := mapGet (fun _ => false) s.ost.mismatch p

/-- The comparison of this strobe is kept for the next one. -/
def State.setMismatch (s : State) (p : Nat) (b : Bool) : State :=
  { s with ost := { s.ost with mismatch := mapSet (fun _ => false) s.ost.mismatch p b } }

theorem exec_stateCompare_agree (hp : instPages page = some (p, per, i)) (ht : i.block.tensorSide = true) (hb : s.blk p = 2) (hw : s.holdsWork i = false) :
    exec (.stateCompare page false false) s = .next (s.setMismatch p false) := by
  have h5 : ((2 : Nat) == 5) = false := by decide
  change execStateCompare page false false s = _
  simp only [execStateCompare, hp, ht, hb, hw, h5, Bool.not_true, Bool.false_eq_true, if_false, Bool.false_and, Bool.or_self]
  rfl

/-- A unit that reports RUNNING while its clock stands: noted once, fenced the second time (R439). -/
theorem exec_stateCompare_differ (hp : instPages page = some (p, per, i)) (ht : i.block.tensorSide = true) :
    exec (.stateCompare page true true) s = .next (if s.mismatched p then (s.setMismatch p false).faultFence p 0x0E02 (s.blk p * 8 + 3)
      else s.setMismatch p true) := by
  change execStateCompare page true true s = _
  simp only [execStateCompare, hp, ht, Bool.not_true, Bool.false_eq_true, if_false, Bool.and_true, Bool.or_true, Bool.true_or, Bool.true_and, if_true]
  unfold State.mismatched State.setMismatch
  cases mapGet (fun _ => false) s.ost.mismatch p <;> rfl

/-- Settles O43: how a fence lifts, and the two watches that fence a unit. -/
theorem unitFences : Obligations.UnitFences := by
  rintro s page p per i x hp rfl
  refine ⟨fun hact hs h0 => ?_, fun hact hs h0 => ?_, fun h0 => ?_,
    fun ht => ⟨exec_drainStall hp ht, exec_stateCompare_agree hp ht, fun hm => ?_, fun hm => ?_⟩⟩
  · rw [exec_fenceLift hp, State.liftFence_active hact h0, hs, if_neg Bool.false_ne_true]
  · rw [exec_fenceLift hp, State.liftFence_active hact h0, if_pos hs]
  · rw [exec_fenceLift hp, State.liftFence_off h0]
  · rw [exec_stateCompare_differ hp ht, State.mismatched, hm]
    rfl
  · rw [exec_stateCompare_differ hp ht, State.mismatched, hm]
    rfl

end Sys2Proof.Machine
end

section
/-!
Thermal sensors (R417, R418, R444) and the tensor-side shutdown (R420).
-/
namespace Sys2Proof.Machine

variable {s u : State} {k n : Nat}

/-! ### Bits that stay set, whatever the table -/

/-- A bit written 1 into a register that resets to zero is kept, whatever the table. -/
theorem State.rd_wb_set {a i : Nat} (hr : resetReg a = 0) (hi : i < 32) (b : Nat) :
    (s.wb a i true).rd b = if b = a then setBit (s.rd a) i true else s.rd b := by
  have hv : setBit (s.rd a) i true ≠ resetReg a := fun he => by
    have hbit := congrArg (tbit · i) he
    rw [hr, tbit_setBit hi, show tbit 0 i = false by simp [tbit, nfld]] at hbit
    exact absurd hbit (by decide)
  exact mapGet_mapSet_stored hv b

/-- Raising an interrupt, whatever the table. -/
theorem State.rd_raise_stored {page bit : Nat} (hr : resetReg (rga page oRaw) = 0) (hb : bit < 32) (a : Nat) :
    (s.raise page bit).rd a = if a = rga page oRaw then s.rd (rga page oRaw) ||| w32 (2 ^ bit) else s.rd a := by
  have hv : s.rd (rga page oRaw) ||| w32 (2 ^ bit) ≠ resetReg (rga page oRaw) := fun he => by
    have hbit := congrArg (BitVec.getLsbD · bit) he
    rw [hr, BitVec.getLsbD_or, ← tbit_eq_getLsbD (w32 _), tbit_w32 (Nat.pow_lt_pow_right (by decide) hb), Nat.div_self (Nat.two_pow_pos bit)] at hbit
    simp at hbit
  obtain ⟨x, hx⟩ := State.raise_eq (s := s) (page := page) (bit := bit)
  rw [hx]
  exact mapGet_mapSet_stored hv a

theorem State.rd_raise_other {page bit a : Nat} (hr : resetReg (rga page oRaw) = 0) (hb : bit < 32) (hne : a ≠ rga page oRaw) :
    (s.raise page bit).rd a = s.rd a := by
  rw [State.rd_raise_stored hr hb, if_neg hne]

theorem State.rb_raise_stored {page bit : Nat} (hr : resetReg (rga page oRaw) = 0) (hb : bit < 32) : (s.raise page bit).rb (rga page oRaw) bit = true := by
  unfold State.rb
  rw [State.rd_raise_stored hr hb, if_pos rfl, tbit_eq_getLsbD, BitVec.getLsbD_or, ← tbit_eq_getLsbD (w32 _),
    tbit_w32 (Nat.pow_lt_pow_right (by decide) hb), Nat.div_self (Nat.two_pow_pos bit)]
  exact Bool.or_true _

theorem resetReg_ready : resetReg aReady = 0 := by decide +kernel
theorem resetReg_raw : ∀ page ∈ [0, 7], resetReg (rga page oRaw) = 0 := by decide +kernel

/-! ### The shutdown -/

/-- The end of a shutdown: the tensor side counts as off, and that is reported (R420, R459). -/
def State.shutdownNoted (s : State) (cause : Nat) : State :=
  (((s.wb aReady 29 true).raise 0 3).raise 7 4).logNamed 1 evShutdown 3 cause 255

theorem State.shutdownNoted_off (s : State) (cause : Nat) : (s.shutdownNoted cause).tensorOff = true := by
  have hready : ∀ page ∈ [0, 7], aReady ≠ rga page oRaw := by decide
  have hrd : (s.shutdownNoted cause).rd aReady = setBit (s.rd aReady) 29 true := by
    unfold State.shutdownNoted
    rw [State.rd_congr (State.logNamed_regs ..), State.rd_raise_other (resetReg_raw 7 (by decide)) (by decide) (hready 7 (by decide)),
      State.rd_raise_other (resetReg_raw 0 (by decide)) (by decide) (hready 0 (by decide)), State.rd_wb_set resetReg_ready (by decide), if_pos rfl]
  unfold State.tensorOff State.rb
  rw [hrd, tbit_setBit (by decide)]

theorem State.tensorShutdown_eq (s : State) (cause : Nat) : s.tensorShutdown cause = s ∧ s.tensorOff = true ∨
    ∃ u : State, s.tensorShutdown cause = u.shutdownNoted cause := by
  unfold State.tensorShutdown
  split
  · exact Or.inl ⟨rfl, ‹_›⟩
  · exact Or.inr ⟨_, rfl⟩

theorem State.tensorShutdown_off (s : State) (cause : Nat) : (s.tensorShutdown cause).tensorOff = true := by
  rcases State.tensorShutdown_eq s cause with ⟨he, hoff⟩ | ⟨u, he⟩
  · rw [he, hoff]
  · rw [he, State.shutdownNoted_off]

/-! ### Conditions and their entry -/

theorem State.onEntry_holds (h : s.alarm k = true) (b : Bool) (event : State → State) : s.onEntry k b event = s.setAlarm k b := by
  simp only [State.onEntry, h, Bool.not_true, Bool.and_false, Bool.false_eq_true, if_false]

theorem State.onEntry_false (s : State) (k : Nat) (event : State → State) : s.onEntry k false event = s.setAlarm k false := by
  simp only [State.onEntry, Bool.false_and, Bool.false_eq_true, if_false]

theorem State.onEntry_begins (h : s.alarm k = false) (event : State → State) : s.onEntry k true event = event (s.setAlarm k true) := by
  simp only [State.onEntry, h, Bool.not_false, Bool.and_self, if_true]

/-! ### Sensors of the tensor side -/

/-- Whether a sensor counts as at its THROTTLE: shown so, or lost (R418). -/
def State.hot (s : State) (n : Nat) : Bool := !s.tsOk n || decide (s.throttle n ≤ s.tsTemp n)

/-- The condition of a sensor as it is now, its entry reported (R444). -/
def State.throttled (s : State) (n : Nat) : State := s.onEntry n (s.hot n) (fun s => s.raise 7 0)

theorem State.throttled_rd (h : s.regsWf) (n : Nat) {a : Nat} (hne : a ≠ rga 7 oRaw) : (s.throttled n).rd a = s.rd a := by
  unfold State.throttled State.onEntry
  dsimp only
  split
  · exact State.rd_raise_ne (s := s.setAlarm n (s.hot n)) h hne
  · rfl

theorem sensorReg_ne_raw {off : Nat} (ho : off < 4096) (h : off ≠ oRaw) : rga 7 off ≠ rga 7 oRaw := rga_ne_of_off ho (by decide) h

/-- Beyond its entry the judgement of a tensor-side sensor is the trip. -/
theorem State.judgeTensor_eq (h : s.regsWf) (hn : n < 32) :
    s.judgeTensor n = if s.tsOk n && decide (s.trip n ≤ s.tsTemp n) then (s.throttled n).tensorShutdown n else s.throttled n := by
  have hoff : 0x40 + 4 * n < 4096 ∧ 0x40 + 4 * n ≠ oRaw := by
    unfold oRaw
    omega
  have hts := State.throttled_rd h n (sensorReg_ne_raw hoff.1 hoff.2)
  have hok : (s.throttled n).tsOk n = s.tsOk n := congrArg (tbit · 31) hts
  have htemp : (s.throttled n).tsTemp n = s.tsTemp n := congrArg (fun w => toS 16 (fld w 15 0)) hts
  have htrip : (s.throttled n).trip n = s.trip n := by
    unfold State.trip State.rf
    rw [State.throttled_rd h n (sensorReg_ne_raw (by decide) (by decide)), State.throttled_rd h n (sensorReg_ne_raw (by decide) (by decide))]
  have hunfold : s.judgeTensor n = if (s.throttled n).tsOk n && decide ((s.throttled n).trip n ≤ (s.throttled n).tsTemp n) then
      (s.throttled n).tensorShutdown n else s.throttled n := rfl
  rw [hunfold, hok, htemp, htrip]

theorem State.judgeTs_tensor (h28 : n ≠ 28) (h29 : n ≠ 29) : s.judgeTs n = s.judgeTensor n := if_neg (by simp [h28, h29])

/-- A lost sensor of the tensor side counts as at its THROTTLE and never trips (R418). -/
theorem State.judgeTs_lost (h : s.regsWf) (hn : n < 32) (h28 : n ≠ 28) (h29 : n ≠ 29) (hok : s.tsOk n = false) :
    (s.alarm n = false → s.judgeTs n = (s.setAlarm n true).raise 7 0) ∧ (s.alarm n = true → s.judgeTs n = s.setAlarm n true) := by
  have hhot : s.hot n = true := by
    unfold State.hot
    rw [hok]
    rfl
  rw [State.judgeTs_tensor h28 h29, State.judgeTensor_eq h hn, hok, Bool.false_and, if_neg Bool.false_ne_true, State.throttled, hhot]
  exact ⟨fun ha => State.onEntry_begins ha _, fun ha => State.onEntry_holds ha _ _⟩

/-- A valid sample below the trip: the condition follows THROTTLE, and its entry alone is reported (R418, R444). -/
theorem State.judgeTs_valid (h : s.regsWf) (hn : n < 32) (h28 : n ≠ 28) (h29 : n ≠ 29) (hok : s.tsOk n = true) (htrip : s.tsTemp n < s.trip n) :
    (s.tsTemp n < s.throttle n → s.judgeTs n = s.setAlarm n false) ∧
    (s.throttle n ≤ s.tsTemp n → s.alarm n = false → s.judgeTs n = (s.setAlarm n true).raise 7 0) ∧
    (s.throttle n ≤ s.tsTemp n → s.alarm n = true → s.judgeTs n = s.setAlarm n true) := by
  have hno : (s.tsOk n && decide (s.trip n ≤ s.tsTemp n)) = false := by
    rw [hok, decide_eq_false (Int.not_le.mpr htrip)]
    rfl
  have hhot : s.hot n = decide (s.throttle n ≤ s.tsTemp n) := by
    unfold State.hot
    rw [hok]
    rfl
  rw [State.judgeTs_tensor h28 h29, State.judgeTensor_eq h hn, hno, if_neg Bool.false_ne_true, State.throttled, hhot]
  refine ⟨fun hc => ?_, fun hc ha => ?_, fun hc ha => ?_⟩
  · rw [decide_eq_false (Int.not_le.mpr hc), State.onEntry_false]
  · rw [decide_eq_true hc, State.onEntry_begins ha]
  · rw [decide_eq_true hc, State.onEntry_holds ha]

theorem State.judgeTs_trips (h : s.regsWf) (hn : n < 32) (h28 : n ≠ 28) (h29 : n ≠ 29) (hok : s.tsOk n = true) (htrip : s.trip n ≤ s.tsTemp n) :
    (s.judgeTs n).tensorOff = true := by
  rw [State.judgeTs_tensor h28 h29, State.judgeTensor_eq h hn, hok, decide_eq_true htrip, if_pos (by decide)]
  exact State.tensorShutdown_off _ _

end Sys2Proof.Machine
end

section
/-!
Samples of temperatures, rails, regulators and the hold-up supply (R417 to R419, R433): from these the obligation SensorSamples.
-/
namespace Sys2Proof.Machine

variable {s u : State} {n : Fin 32} {temp m : Int}

/-! ### Samples -/

theorem take_cons_ne_nil {v : Int} {l : List Int} {n : Nat} (hn : 0 < n) : (v :: l).take n ≠ [] := by
  cases n with
  | zero => omega
  | succ n => simp

theorem State.samples_addSample {n : Nat} (hn : 0 < n) (k j : Nat) (v : Int) :
    (s.addSample k n v).samples j = if j = k then (v :: s.samples k).take n else s.samples j :=
  mapGet_mapSet_stored (take_cons_ne_nil hn) j

theorem meanI_cons {v : Int} {l : List Int} {n : Nat} (hn : 0 < n) : meanI ((v :: l).take n) = ((v :: l).take n).sum / (((v :: l).take n).length : Int) := by
  have he : ((v :: l).take n).isEmpty = false := by
    rw [List.isEmpty_eq_false_iff]
    exact take_cons_ne_nil hn
  unfold meanI
  rw [he]
  rfl

/-! ### Thermal samples -/

theorem toS_ofS_short (hlo : -32768 ≤ m) (hhi : m ≤ 32767) : toS 16 (ofS 16 m) = m := by
  unfold toS ofS
  dsimp only
  split <;> omega

theorem ofS_short_lt (m : Int) : ofS 16 m < 2 ^ 16 := by
  unfold ofS
  omega

/-- A filtered value shown in its register, valid (R417). -/
def State.tsShown (s : State) (n : Nat) (m : Int) : State := s.wr (tsReg n) (w32 (2 ^ 31 + ofS 16 m))

theorem tsReg_ne (n : Fin 32) {off : Nat} (h1 : 0xC0 ≤ off) (h2 : off < 4096) : rga 7 off ≠ tsReg n.val := by
  have hn := n.isLt
  exact rga_ne_of_off h2 (by omega) (by omega)

theorem State.tsShown_reads (h : s.regsWf) (n : Fin 32) (hlo : -32768 ≤ m) (hhi : m ≤ 32767) : (s.tsShown n.val m).tsOk n.val = true ∧
    (s.tsShown n.val m).tsTemp n.val = m ∧ (s.tsShown n.val m).throttle n.val = s.throttle n.val ∧ (s.tsShown n.val m).trip n.val = s.trip n.val := by
  have hx := ofS_short_lt m
  have hrd : (s.tsShown n.val m).rd (tsReg n.val) = w32 (2 ^ 31 + ofS 16 m) := State.rd_wr_same h _ _
  have hkeep : ∀ off, 0xC0 ≤ off → off < 4096 → (s.tsShown n.val m).rd (rga 7 off) = s.rd (rga 7 off) := fun off h1 h2 =>
    State.rd_wr_ne h _ (tsReg_ne n h1 h2)
  refine ⟨?_, ?_, ?_, ?_⟩
  · unfold State.tsOk State.rb
    rw [hrd, tbit_w32 (by omega)]
    exact beq_iff_eq.mpr (by omega)
  · unfold State.tsTemp State.rf
    rw [hrd, fld_w32 (by omega)]
    have hlow : (2 ^ 31 + ofS 16 m) / 2 ^ 0 % 2 ^ (15 + 1 - 0) = ofS 16 m := by omega
    rw [hlow, toS_ofS_short hlo hhi]
  · unfold State.throttle State.rf
    rw [hkeep 0x144 (by decide) (by decide), hkeep 0x140 (by decide) (by decide)]
  · unfold State.trip State.rf
    rw [hkeep 0x144 (by decide) (by decide), hkeep 0x140 (by decide) (by decide)]

@[simp] theorem State.clearSamples_regs (s : State) (k : Nat) : (s.clearSamples k).regs = s.regs := rfl
@[simp] theorem State.clearSamples_alarm (s : State) (k j : Nat) : (s.clearSamples k).alarm j = s.alarm j := rfl

theorem State.clearSamples_regsWf (h : s.regsWf) (k : Nat) : (s.clearSamples k).regsWf := by
  unfold State.regsWf
  rw [State.clearSamples_regs]
  exact h

theorem exec_thermalSample_implausible (h : temp < -880 ∨ 2400 < temp) (hu : u = (s.wb (tsReg n.val) 31 false).clearSamples n.val) :
    exec (.thermalSample n temp) s = .next (u.judgeTs n.val) := by
  change execThermalSample n temp s = _
  simp only [execThermalSample, h, if_true, ← hu]

theorem exec_thermalSample (hlo : -880 ≤ temp) (hhi : temp ≤ 2400)
    (hm : m = ((temp :: s.samples n.val).take 8).sum / (((temp :: s.samples n.val).take 8).length : Int)) :
    exec (.thermalSample n temp) s = .next (((s.addSample n.val 8 temp).tsShown n.val m).judgeTs n.val) := by
  have hno : ¬ (temp < -880 ∨ 2400 < temp) := by omega
  change execThermalSample n temp s = _
  simp only [execThermalSample, hno, if_false, State.samples_addSample (show 0 < 8 by decide), if_true, meanI_cons (show 0 < 8 by decide), ← hm]
  rfl

theorem exec_sensorStale_thermal (hu : u = ((s.wb (tsReg n.val) 31 false).wb (tsReg n.val) 30 true).clearSamples n.val) :
    exec (.sensorStale (.thermal n) false) s = .next (u.judgeTs n.val) := by
  change execSensorStale (.thermal n) false s = _
  simp only [execSensorStale, Bool.false_eq_true, if_false, ← hu]

/-! ### The sensors of the control domain -/

theorem State.setAlarm_rd (k : Nat) (b : Bool) (a : Nat) : (s.setAlarm k b).rd a = s.rd a := rfl

/-- Above CTRL_TRIP every output is at its safe level and OVERTEMP is raised (R418). -/
theorem State.overtemp_effect (h : s.regsWf) (info : Nat) : (s.overtemp info).noTorque = true ∧ (s.overtemp info).rb (rga 7 oRaw) 1 = true ∧
    (s.overtemp info).hbm = s.hbm := by
  obtain ⟨hregs, hhbm⟩ : (s.onEntry 32 true (fun s => s.logNamed 7 evOvertemp 3 info 255)).regs = s.regs ∧
      (s.onEntry 32 true (fun s => s.logNamed 7 evOvertemp 3 info 255)).hbm = s.hbm := by
    unfold State.onEntry
    dsimp only
    split
    · obtain ⟨g, hg⟩ := State.logNamed_eq (s := s.setAlarm 32 true) (page := 7) (ev := evOvertemp) (cls := 3) (info := info) (t := 255)
      rw [hg]
      exact ⟨rfl, rfl⟩
    · exact ⟨rfl, rfl⟩
  have hwf : (s.onEntry 32 true (fun s => s.logNamed 7 evOvertemp 3 info 255)).regsWf := by
    unfold State.regsWf
    rw [hregs]
    exact h
  have hraise := (OnlyRegsMsix.refl (s.onEntry 32 true (fun s => s.logNamed 7 evOvertemp 3 info 255))).raise 7 1
  obtain ⟨hpins, -, hmem, -, hrd⟩ := State.forceAll_effect (State.raise_regsWf (page := 7) (bit := 1) hwf)
  refine ⟨hpins, ?_, hmem.trans (hraise.memory.1.trans hhbm)⟩
  exact (congrArg (tbit · 1) (hrd (rga 7 oRaw) (by decide))).trans (State.rb_raise_same hwf (by decide))

/-- A valid sample of a control-domain sensor at its trip (R418). -/
theorem State.judgeTs_control (hn : n.val = 28 ∨ n.val = 29) (hok : s.tsOk n.val = true)
    (htrip : toS 16 (s.rf (rga 7 0x148) 15 0) ≤ s.tsTemp n.val) : s.judgeTs n.val = (s.setAlarm n.val false).overtemp n.val := by
  have hany : [28, 29].any (fun k => s.tsOk k && decide (toS 16 (s.rf (rga 7 0x148) 15 0) ≤ s.tsTemp k)) = true :=
    List.any_eq_true.mpr ⟨n.val, by rcases hn with h | h <;> simp [h], by simp [hok, htrip]⟩
  unfold State.judgeTs
  rw [if_pos hn]
  unfold State.judgeCtrl
  dsimp only
  rw [hok, Bool.not_true, State.onEntry_false]
  have hany' : ([28, 29].any (fun k => (s.setAlarm n.val false).tsOk k &&
      decide (toS 16 ((s.setAlarm n.val false).rf (rga 7 0x148) 15 0) ≤ (s.setAlarm n.val false).tsTemp k)) ||
      (s.setAlarm n.val false).alarm 28 && (s.setAlarm n.val false).alarm 29) = true := by
    rw [Bool.or_eq_true]
    exact Or.inl hany
  rw [if_pos hany']

/-- A plausible sample (R417, R418): the filtered value is shown and judged. -/
theorem thermalSample_effect (hwf : s.regsWf) (hlo : -880 ≤ temp) (hhi : temp ≤ 2400)
    (hm : m = ((temp :: s.samples n.val).take 8).sum / (((temp :: s.samples n.val).take 8).length : Int)) (hmlo : -32768 ≤ m) (hmhi : m ≤ 32767) :
    (n.val ≠ 28 → n.val ≠ 29 → m < s.trip n.val →
      (m < s.throttle n.val → exec (.thermalSample n temp) s = .next (((s.addSample n.val 8 temp).tsShown n.val m).setAlarm n.val false)) ∧
      (s.throttle n.val ≤ m → s.alarm n.val = false →
        exec (.thermalSample n temp) s = .next ((((s.addSample n.val 8 temp).tsShown n.val m).setAlarm n.val true).raise 7 0)) ∧
      (s.throttle n.val ≤ m → s.alarm n.val = true →
        exec (.thermalSample n temp) s = .next (((s.addSample n.val 8 temp).tsShown n.val m).setAlarm n.val true))) ∧
    (n.val ≠ 28 → n.val ≠ 29 → s.trip n.val ≤ m → ∃ t, exec (.thermalSample n temp) s = .next t ∧ t.tensorOff = true) ∧
    (n.val = 28 ∨ n.val = 29 → toS 16 (s.rf (rga 7 0x148) 15 0) ≤ m →
      ∃ t, exec (.thermalSample n temp) s = .next t ∧ t.noTorque = true ∧ t.rb (rga 7 oRaw) 1 = true ∧ t.hbm = s.hbm) := by
  have hwf' : (s.addSample n.val 8 temp).regsWf := hwf
  obtain ⟨hok, htemp, hthr, htrip⟩ := State.tsShown_reads hwf' n hmlo hmhi
  have hwfu : ((s.addSample n.val 8 temp).tsShown n.val m).regsWf := State.wr_regsWf hwf'
  rw [exec_thermalSample hlo hhi hm]
  refine ⟨fun h28 h29 ht => ?_, fun h28 h29 ht => ⟨_, rfl, State.judgeTs_trips hwfu n.isLt h28 h29 hok ?_⟩, fun hn ht => ?_⟩
  · obtain ⟨hcold, hnew, hold⟩ := State.judgeTs_valid hwfu n.isLt h28 h29 hok (by rw [htemp, htrip]; exact ht)
    rw [htemp, hthr] at hcold hnew hold
    exact ⟨fun hc => congrArg _ (hcold hc), fun hc ha => congrArg _ (hnew hc ha), fun hc ha => congrArg _ (hold hc ha)⟩
  · rw [htemp, htrip]
    exact ht
  · have hctrl : toS 16 (((s.addSample n.val 8 temp).tsShown n.val m).rf (rga 7 0x148) 15 0) ≤ ((s.addSample n.val 8 temp).tsShown n.val m).tsTemp n.val := by
      rw [htemp]
      unfold State.rf State.tsShown
      rw [State.rd_wr_ne hwf' _ (tsReg_ne n (by decide) (by decide))]
      exact ht
    rw [State.judgeTs_control hn hok hctrl]
    obtain ⟨hpins, hraw, hhbm⟩ := State.overtemp_effect (s := ((s.addSample n.val 8 temp).tsShown n.val m).setAlarm n.val false) hwfu n.val
    exact ⟨_, rfl, hpins, hraw, hhbm⟩

/-! ### Rails -/

section
variable {r : Fin 12} {mv k : Nat} {l : List Int}

theorem State.railWithin_of_core (hn : k ≤ 2) (hlo : (s.rf (rga 6 0x4C) 23 12 - 50) * l.length ≤ l.sum.toNat)
    (hhi : l.sum.toNat ≤ (s.rf (rga 6 0x4C) 23 12 + 50) * l.length) :
    ¬ l.sum.toNat * 100 < (s.vmWindow k).1 * l.length ∧ ¬ (s.vmWindow k).2 * l.length < l.sum.toNat * 100 := by
  unfold State.vmWindow
  dsimp only
  rw [if_pos hn, Nat.mul_right_comm, Nat.mul_right_comm _ 100]
  omega

theorem State.railWithin_of_mgmt (hlo : 760 * l.length ≤ l.sum.toNat) (hhi : l.sum.toNat ≤ 840 * l.length) :
    ¬ l.sum.toNat * 100 < (s.vmWindow 5).1 * l.length ∧ ¬ (s.vmWindow 5).2 * l.length < l.sum.toNat * 100 := by
  have hw : s.vmWindow 5 = (76000, 84000) := rfl
  rw [hw]
  dsimp only
  omega

/-- A rail inside its window shows its mean, and its condition ends (R418). -/
theorem exec_railSample_within (hn : r.val ≤ 2 ∨ r.val = 5) (hu : u = s.addSample (40 + r.val) 4 (mv : Int)) (hl : l = u.samples (40 + r.val))
    (hw : ¬ l.sum.toNat * 100 < (u.vmWindow r.val).1 * l.length ∧ ¬ (u.vmWindow r.val).2 * l.length < l.sum.toNat * 100) :
    exec (.railSample r mv) s = .next ((u.wr (vmReg r.val) (w32 (2 ^ 31 + (meanI l).toNat % 65536))).setAlarm (40 + r.val) false) := by
  have h4 : ¬ r.val ≤ 2 → ¬ r.val ≤ 4 := by omega
  change execRailSample r mv s = _
  simp only [execRailSample, ← hu, ← hl, hw.1, hw.2, decide_false, b2n, Bool.false_eq_true, if_false, Nat.zero_mul, Nat.add_zero, Bool.or_self,
    State.onEntry_false, Bool.false_and]
  split
  · rfl
  · next h2 => rw [if_neg (h4 h2)]

theorem exec_railSample_control (hn : r.val = 3 ∨ r.val = 4) (hu : u = s.addSample (40 + r.val) 4 (mv : Int)) (hl : l = u.samples (40 + r.val))
    (h : 840 * l.length < l.sum.toNat) :
    exec (.railSample r mv) s = .next ((u.wr (vmReg r.val) (w32 (2 ^ 31 + 2 ^ 29 + (meanI l).toNat % 65536))).ctrlMonitorEvent 2) := by
  have hw : u.vmWindow r.val = (76000, 84000) := by
    unfold State.vmWindow
    dsimp only
    rw [if_neg (by omega), if_pos (by omega)]
  have hlow : ¬ l.sum.toNat * 100 < 76000 * l.length := by omega
  have hhigh : 84000 * l.length < l.sum.toNat * 100 := by omega
  have h2 : ¬ r.val ≤ 2 := by omega
  have h4 : r.val ≤ 4 := by omega
  change execRailSample r mv s = _
  simp only [execRailSample, ← hu, ← hl, hw, hlow, hhigh, decide_false, decide_true, b2n, Bool.false_eq_true, if_false, if_true, Nat.zero_mul, Nat.add_zero,
    Nat.one_mul, Bool.or_true, h2, h4]

theorem railSample_control_effect (h : s.regsWf) (hn : r.val = 3 ∨ r.val = 4) (hu : u = s.addSample (40 + r.val) 4 (mv : Int))
    (hl : l = u.samples (40 + r.val)) (hhigh : 840 * l.length < l.sum.toNat) :
    ∃ t, exec (.railSample r mv) s = .next t ∧ t.rd (vmReg r.val) = w32 (2 ^ 31 + 2 ^ 29 + (meanI l).toNat % 65536) ∧ t.noTorque = true ∧
      t.rb (rga 8 oRaw) 4 = true := by
  have hwf : u.regsWf := by
    rw [hu]
    exact h
  have hr := r.isLt
  obtain ⟨hpins, -, -, -, hraw, hrd⟩ := State.ctrlMonitorEvent_effect
    (s := u.wr (vmReg r.val) (w32 (2 ^ 31 + 2 ^ 29 + (meanI l).toNat % 65536))) (State.wr_regsWf hwf) 2
  have h48 : vmReg r.val % 4096 ≠ 0x48 := by
    unfold vmReg
    rw [rga_mod _ (by omega)]
    omega
  have hne : ∀ {p off : Nat}, p ≠ 7 → off < 4096 → vmReg r.val ≠ rga p off := fun hp ho => by
    unfold vmReg rga
    omega
  exact ⟨_, exec_railSample_control hn hu hl hhigh,
    (hrd _ h48 (hne (by decide) (by decide)) (hne (by decide) (by decide)) (hne (by decide) (by decide)) (hne (by decide) (by decide))).trans
      (State.rd_wr_same hwf _ _), hpins, hraw⟩

end

/-! ### Regulators -/

section
variable {g : Fin 8} {vout iout : Nat}

/-- Only PMBus commands and conditions differ from a state. -/
def OnlyPmbusAlarms (s t : State) : Prop :=
  t = { s with ost := { s.ost with pmbus := t.ost.pmbus, alarms := t.ost.alarms } }

theorem State.pmSend_only (s : State) (k code data : Nat) : OnlyPmbusAlarms s (s.pmSend k code data) := by
  unfold State.pmSend OnlyPmbusAlarms
  split <;> rfl

theorem OnlyPmbusAlarms.trans {s t u : State} (h : OnlyPmbusAlarms s t) (h' : OnlyPmbusAlarms t u) : OnlyPmbusAlarms s u := by
  unfold OnlyPmbusAlarms at h h' ⊢
  rw [h', h]

theorem State.setAlarm_only (s : State) (k : Nat) (b : Bool) : OnlyPmbusAlarms s (s.setAlarm k b) := rfl

/-- Readings without a fault end the condition; what they send does not touch a register (R418, R419). -/
theorem State.regulatorFault_none (s : State) (k : Nat) : OnlyPmbusAlarms s (s.regulatorFault k false) := by
  unfold State.regulatorFault
  dsimp only
  rw [State.onEntry_false, Bool.false_and, if_neg Bool.false_ne_true]
  split
  · exact (State.setAlarm_only ..).trans (State.pmSend_only ..)
  · exact State.setAlarm_only ..

theorem pmbusQueries_only (s : State) (k : Nat) : OnlyPmbusAlarms s ([0x79, 0x8B, 0x8C, 0x8D].foldl (fun s c => s.pmSend k c 0) s) :=
  foldl_invariant (P := OnlyPmbusAlarms s) (fun _ h _ _ => h.trans (State.pmSend_only ..)) rfl

/-- The three readings of a poll join their samples (R417). -/
def State.polled (s : State) (k vout iout : Nat) (temp : Int) : State :=
  ((s.addSample (60 + k) 4 vout).addSample (70 + k) 4 iout).addSample (80 + k) 4 temp

theorem OnlyPmbusAlarms.polled {s t : State} (h : OnlyPmbusAlarms s t) (k vout iout : Nat) (temp : Int) :
    OnlyPmbusAlarms (s.polled k vout iout temp) (t.polled k vout iout temp) := by
  unfold OnlyPmbusAlarms at h ⊢
  rw [h]
  rfl

/-- The power of the module as last computed. -/
def State.setPower (s : State) (p : Nat) : State := { s with ost := { s.ost with powerMw := p } }

/-- The registers that a poll writes (R417). -/
def State.pollShown (s : State) (k : Nat) (v : Word) (p : Nat) : State := ((s.wr (pmReg k) v).setPower p).wr (rga 6 0x58) (w32 p)

theorem State.pollShown_reads (h : s.regsWf) (g : Fin 8) (v : Word) (p : Nat) : (s.pollShown g.val v p).rd (pmReg g.val) = v ∧
    (s.pollShown g.val v p).rd (rga 6 0x58) = w32 p ∧ ∀ off, off < 4096 → off ≠ 0x58 → (s.pollShown g.val v p).rd (rga 6 off) = s.rd (rga 6 off) := by
  have hwf : ((s.wr (pmReg g.val) v).setPower p).regsWf := State.wr_regsWf (s := s) h
  have hpage : ∀ off, off < 4096 → rga 6 off ≠ pmReg g.val := fun off ho => by
    have hg := g.isLt
    unfold pmReg rga
    omega
  refine ⟨?_, State.rd_wr_same hwf _ _, fun off ho hne => ?_⟩
  · exact (State.rd_wr_ne hwf _ (hpage 0x58 (by decide)).symm).trans (State.rd_wr_same h _ _)
  · exact (State.rd_wr_ne hwf _ (rga_ne_of_off ho (by decide) hne)).trans (State.rd_wr_ne h _ (hpage off ho))

theorem State.railTarget_congr {t : State} {k : Nat} (hk : k < 8) (h : ∀ off, off < 4096 → off ≠ 0x58 → t.rd (rga 6 off) = s.rd (rga 6 off)) :
    t.railTarget k = s.railTarget k := by
  unfold State.railTarget State.rf
  rw [h (0x80 + 4 * k) (by omega) (by omega), h 0x4C (by decide) (by decide)]

theorem exec_pmbusPoll_unlisted {temp : Int} {status : BitVec 16} (h : s.rb (rga 6 (0x80 + 4 * g.val)) 31 = false) :
    exec (.pmbusPoll g vout iout temp status) s = .next s := by
  change execPmbusPoll g vout iout temp status s = _
  simp only [execPmbusPoll, h, Bool.not_false, if_true]

/-- The power of the module: that of every listed regulator (R417). -/
def State.powerSum (s : State) : Nat :=
  ((List.range 8).map (fun j =>
    if s.rb (rga 6 (0x80 + 4 * j)) 31 then (meanI (s.samples (60 + j))).toNat * (meanI (s.samples (70 + j))).toNat / 1000 else 0)).sum

/-- What a regulator's register shows: temperature and current (R417). -/
def State.pollValue (s : State) (k : Nat) : Word := w32 (ofS 7 (meanI (s.samples (80 + k))) * 2 ^ 24 + (meanI (s.samples (70 + k))).toNat % 2 ^ 24)

/-- Whether the mean of a voltage is off its commanded value (R418). -/
def offTarget (target : Nat) (l : List Int) : Bool :=
  decide (l.sum.toNat * 10 < target * 9 * l.length) || decide (target * 11 * l.length < l.sum.toNat * 10)

/-- A poll of a listed regulator: its queries, its samples, what it shows, and its condition judged (R417 to R419). -/
theorem exec_pmbusPoll (h : s.rb (rga 6 (0x80 + 4 * g.val)) 31 = true) : ∃ u p, OnlyPmbusAlarms (s.polled g.val vout iout temp) u ∧
    exec (.pmbusPoll g vout iout temp 0) s = .next ((u.pollShown g.val (u.pollValue g.val) p).regulatorFault g.val
      (offTarget ((u.pollShown g.val (u.pollValue g.val) p).railTarget g.val) (u.samples (60 + g.val)))) := by
  generalize hu : ([0x79, 0x8B, 0x8C, 0x8D].foldl (fun s c => s.pmSend g.val c 0) s).polled g.val vout iout temp = u
  refine ⟨u, (u.wr (pmReg g.val) (u.pollValue g.val)).powerSum, ?_, ?_⟩
  · rw [← hu]
    exact (pmbusQueries_only s g.val).polled g.val vout iout temp
  · unfold State.polled at hu
    change execPmbusPoll g vout iout temp 0 s = _
    simp only [execPmbusPoll, h, Bool.not_true, Bool.false_eq_true, if_false, hu]
    rfl

theorem pmbusPoll_effect {l : List Int} {i : Nat} (hwf : s.regsWf) (h : s.rb (rga 6 (0x80 + 4 * g.val)) 31 = true)
    (hu : u = s.polled g.val vout iout temp) (hl : l = u.samples (60 + g.val)) (hi : i = (meanI (u.samples (70 + g.val))).toNat)
    (hlo : s.railTarget g.val * 9 * l.length ≤ l.sum.toNat * 10) (hhi : l.sum.toNat * 10 ≤ s.railTarget g.val * 11 * l.length) :
    ∃ t, exec (.pmbusPoll g vout iout temp 0) s = .next t ∧
      t.rd (pmReg g.val) = w32 (ofS 7 (meanI (u.samples (80 + g.val))) * 2 ^ 24 + i % 2 ^ 24) ∧ t.rd (rga 6 0x58) = w32 t.ost.powerMw ∧
      OnlyRegs { s with ost := t.ost } t := by
  obtain ⟨x, p, hx, hexec⟩ := exec_pmbusPoll (vout := vout) (iout := iout) (temp := temp) h
  rw [← hu] at hx
  unfold OnlyPmbusAlarms at hx
  have hsamples : ∀ k, x.samples k = u.samples k := fun k => by
    unfold State.samples
    rw [hx]
  have hxs : x = { s with ost := x.ost } := by
    rw [hx, hu]
    rfl
  have hregs : x.regs = s.regs := by rw [hxs]
  have hxwf : x.regsWf := by
    unfold State.regsWf
    rw [hregs]
    exact hwf
  obtain ⟨hpm, hpower, hkeep⟩ := State.pollShown_reads hxwf g (x.pollValue g.val) p
  have htarget : (x.pollShown g.val (x.pollValue g.val) p).railTarget g.val = s.railTarget g.val :=
    State.railTarget_congr g.isLt fun off ho hne => (hkeep off ho hne).trans (State.rd_congr hregs _)
  have hok : offTarget (s.railTarget g.val) (x.samples (60 + g.val)) = false := by
    unfold offTarget
    rw [hsamples, ← hl, decide_eq_false (Nat.not_lt.mpr hlo), decide_eq_false (Nat.not_lt.mpr hhi)]
    rfl
  have hvalue : x.pollValue g.val = w32 (ofS 7 (meanI (u.samples (80 + g.val))) * 2 ^ 24 + i % 2 ^ 24) := by
    unfold State.pollValue
    rw [hsamples, hsamples, hi]
  rw [htarget, hok] at hexec
  have hend := State.regulatorFault_none (x.pollShown g.val (x.pollValue g.val) p) g.val
  unfold OnlyPmbusAlarms at hend
  have hrd : ∀ a, ((x.pollShown g.val (x.pollValue g.val) p).regulatorFault g.val false).rd a = (x.pollShown g.val (x.pollValue g.val) p).rd a :=
    State.rd_congr (by rw [hend])
  have hmw : ((x.pollShown g.val (x.pollValue g.val) p).regulatorFault g.val false).ost.powerMw = p := by
    rw [hend]
    rfl
  refine ⟨_, hexec, (hrd _).trans (hpm.trans hvalue), (hrd _).trans (hpower.trans (congrArg w32 hmw.symm)), ?_⟩
  unfold OnlyRegs
  rw [hend]
  have hshown : x.pollShown g.val (x.pollValue g.val) p =
      { s with regs := (x.pollShown g.val (x.pollValue g.val) p).regs, ost := (x.pollShown g.val (x.pollValue g.val) p).ost } := by
    rw [hxs]
    rfl
  rw [hshown]

end

/-! ### The hold-up supply -/

theorem State.holdup_congr {t : State} (hs : t.ost = s.ost) (hb : t.rb (rga 6 0x68) 31 = s.rb (rga 6 0x68) 31)
    (h60 : t.rd (rga 6 0x60) = s.rd (rga 6 0x60)) (h64 : t.rd (rga 6 0x64) = s.rd (rga 6 0x64)) : t.holdup = s.holdup := by
  have hof : ∀ c, t.holdupOf c = s.holdupOf c := fun c => by
    unfold State.holdupOf
    rw [h60, h64]
  unfold State.holdup
  simp only [hs, hb, hof]

/-- A code enters the minimum, and the register shows it as valid (R433). -/
def State.holdupAdded (s : State) (code : Nat) : State := (s.addSample 100 4 code).wr (rga 6 0x68) 0

theorem exec_holdupSample_full : exec (.holdupSample 4095) s = .next ((s.wr (rga 6 0x68) 0x80000000).clearSamples 100) := by
  change execHoldupSample 4095 s = _
  rw [execHoldupSample, if_pos (by decide)]

theorem exec_holdupSample {code : BitVec 12} (h : code ≠ 4095) : exec (.holdupSample code) s =
    .next ((s.holdupAdded code.toNat).wr (rga 6 0x68) (w32 (min (s.holdupAdded code.toNat).holdup 0xFFFF))) := by
  have hn : ¬ code.toNat = 4095 := fun he => h (BitVec.eq_of_toNat_eq he)
  change execHoldupSample code s = _
  rw [execHoldupSample, if_neg hn]
  rfl

theorem holdupSample_effect {code : BitVec 12} (hwf : s.regsWf) (h : code ≠ 4095) :
    ∃ t, exec (.holdupSample code) s = .next t ∧ t.rb (rga 6 0x68) 31 = false ∧ t.rd (rga 6 0x68) = w32 (min t.holdup 0xFFFF) ∧
      OnlyRegs { s with ost := t.ost } t := by
  have hwf' : (s.holdupAdded code.toNat).regsWf := State.wr_regsWf (s := s.addSample 100 4 code.toNat) hwf
  have hsame := State.rd_wr_same hwf' (rga 6 0x68) (w32 (min (s.holdupAdded code.toNat).holdup 0xFFFF))
  have hother : ∀ off, off < 4096 → off ≠ 0x68 →
      ((s.holdupAdded code.toNat).wr (rga 6 0x68) (w32 (min (s.holdupAdded code.toNat).holdup 0xFFFF))).rd (rga 6 off) =
        (s.holdupAdded code.toNat).rd (rga 6 off) := fun off ho hne => State.rd_wr_ne hwf' _ (rga_ne_of_off ho (by decide) hne)
  have hbit : ((s.holdupAdded code.toNat).wr (rga 6 0x68) (w32 (min (s.holdupAdded code.toNat).holdup 0xFFFF))).rb (rga 6 0x68) 31 = false := by
    unfold State.rb
    rw [hsame, tbit_w32 (by omega), Nat.div_eq_of_lt (by omega)]
    rfl
  have hzero : (s.holdupAdded code.toNat).rb (rga 6 0x68) 31 = false := by
    unfold State.rb State.holdupAdded
    rw [State.rd_wr_same (s := s.addSample 100 4 code.toNat) hwf]
    decide
  have hhold : ((s.holdupAdded code.toNat).wr (rga 6 0x68) (w32 (min (s.holdupAdded code.toNat).holdup 0xFFFF))).holdup =
      (s.holdupAdded code.toNat).holdup :=
    State.holdup_congr rfl (hbit.trans hzero.symm) (hother 0x60 (by decide) (by decide)) (hother 0x64 (by decide) (by decide))
  exact ⟨_, exec_holdupSample h, hbit, hsame.trans (by rw [hhold]), ((OnlyRegs.refl (s.addSample 100 4 code.toNat)).wr ..).wr ..⟩

/-- Settles O44: what each sample shows, the conditions that begin and end with it, and the inputs that are lost. -/
theorem sensorSamples : Obligations.SensorSamples := by
  intro s hcan
  have hwf := State.canonical_regsWf hcan
  refine ⟨?_, ?_, fun i => rfl, fun n => rfl, rfl, ?_, fun n mv l u m hu hl hm => ⟨fun hn hlo hhi => ?_, fun hn hhigh => ?_, fun hn hlo hhi => ?_⟩,
    fun n vout iout temp status => exec_pmbusPoll_unlisted, fun n vout iout temp u l i h hu hl hi => pmbusPoll_effect hwf h hu hl hi,
    exec_holdupSample_full, fun code => holdupSample_effect hwf⟩
  · intro n temp u htemp h28 h29 hu
    have hok : u.tsOk n.val = false := by
      rw [hu]
      exact (State.rb_congr (State.clearSamples_regs _ _) _ _).trans (State.rb_wb hwf (tsReg n.val) (by decide))
    have halarm : u.alarm n.val = s.alarm n.val := by
      rw [hu, State.clearSamples_alarm]
      rfl
    rw [exec_thermalSample_implausible htemp hu]
    obtain ⟨hnew, hold⟩ := State.judgeTs_lost (s := u) (by rw [hu]; exact State.clearSamples_regsWf (State.wb_regsWf hwf) _) n.isLt h28 h29 hok
    rw [halarm] at hnew hold
    exact ⟨fun ha => by rw [hnew ha], fun ha => by rw [hold ha]⟩
  · rintro n temp l m u hlo hhi rfl hm hmlo hmhi rfl
    exact thermalSample_effect hwf hlo hhi hm hmlo hmhi
  · intro n u h28 h29 hu
    have hwf1 : (s.wb (tsReg n.val) 31 false).regsWf := State.wb_regsWf hwf
    have hok : u.tsOk n.val = false := by
      rw [hu]
      refine (State.rb_congr (State.clearSamples_regs _ _) _ _).trans ?_
      exact (State.rb_wb_other hwf1 (tsReg n.val) (by decide) (by decide)).trans (State.rb_wb hwf (tsReg n.val) (by decide))
    have halarm : u.alarm n.val = s.alarm n.val := by
      rw [hu, State.clearSamples_alarm]
      rfl
    rw [exec_sensorStale_thermal hu]
    obtain ⟨hnew, hold⟩ := State.judgeTs_lost (s := u) (by rw [hu]; exact State.clearSamples_regsWf (State.wb_regsWf hwf1) _) n.isLt h28 h29 hok
    rw [halarm] at hnew hold
    exact ⟨fun ha => by rw [hnew ha], fun ha => by rw [hold ha]⟩
  · rw [hm]
    exact exec_railSample_within (Or.inl hn) hu hl (State.railWithin_of_core hn (by rw [hu]; exact hlo) (by rw [hu]; exact hhi))
  · rw [hm]
    exact railSample_control_effect hwf hn hu hl hhigh
  · rw [hm]
    refine exec_railSample_within (Or.inr hn) hu hl ?_
    rw [hn]
    exact State.railWithin_of_mgmt hlo hhi

end Sys2Proof.Machine
end

section
/-!
The boot timeline (R454, R466 to R468): stages, the blocks that show READY, and host release, whatever the table of registers.
-/
namespace Sys2Proof.Machine

variable {s t : State}

/-! ### Other keys of a table -/

/-- A store leaves every other key, whatever the table. -/
theorem mapGet_mapSet_other {α : Type} [DecidableEq α] {dv : Nat → α} {m : List (Nat × α)} {k b : Nat} (v : α) (hb : b ≠ k) :
    mapGet dv (mapSet dv m k v) b = mapGet dv m b := by
  induction m with
  | nil =>
    unfold mapSet
    split
    · rfl
    · simp [mapGet, hb]
  | cons p m ih =>
    obtain ⟨k', v'⟩ := p
    unfold mapSet
    split
    · split
      · rfl
      · simp [mapGet, hb]
    · split
      · next hk => subst hk; split <;> simp [mapGet, hb]
      · simp only [mapGet, ih]

theorem State.rd_wr_other {a b : Nat} (v : Word) (hne : b ≠ a) : (s.wr a v).rd b = s.rd b := mapGet_mapSet_other v hne

/-- A field written with a value other than zero into a register that resets to zero. -/
theorem State.rd_pf_stored {a hi lo v : Nat} (hr : resetReg a = 0) (h1 : lo ≤ hi) (h2 : hi < 32) (hv : v % 2 ^ (hi + 1 - lo) ≠ 0) :
    (s.pf a hi lo v).rd a = setFld (s.rd a) hi lo v := by
  have hne : setFld (s.rd a) hi lo v ≠ resetReg a := fun he => by
    have hf := congrArg (fun w => fld w hi lo) he
    rw [hr] at hf
    rw [fld_setFld h1 h2, show fld (0 : Word) hi lo = 0 by simp [fld, nfld]] at hf
    exact hv hf
  exact (mapGet_mapSet_stored hne a).trans (if_pos rfl)

/-! ### Stages -/

/-- Entering a stage shows it in TOP_READY, whose other bits stand; the time of the change takes one more register (R459, R468). -/
theorem State.setStage_reads (s : State) {n : Nat} (hn : n % 16 ≠ 0) (h16 : n < 16) : (s.setStage n).stage = n ∧
    (∀ i, 4 ≤ i → (s.setStage n).rb aReady i = s.rb aReady i) ∧
    ∀ a, a ≠ aReady → a ≠ rga 0 0x50 → (s.setStage n).rd a = s.rd a := by
  have hne : aReady ≠ rga 0 0x50 := rga_ne_of_off (by decide) (by decide) (by decide)
  unfold State.setStage
  split
  · next h => exact ⟨h, fun _ _ => rfl, fun _ _ _ => rfl⟩
  · have hrd : ((s.pf aReady 3 0 n).pf (rga 0 0x50) 15 0 (min (s.clock.tick / 1000000) 0xFFFF)).rd aReady = setFld (s.rd aReady) 3 0 n :=
      (State.rd_wr_other _ hne).trans (State.rd_pf_stored resetReg_ready (by decide) (by decide) hn)
    refine ⟨?_, fun i hi => ?_, fun a ha hb => (State.rd_wr_other _ hb).trans (State.rd_wr_other _ ha)⟩
    · unfold State.stage State.rf
      rw [hrd, fld_setFld (by decide) (by decide)]
      exact Nat.mod_eq_of_lt h16
    · unfold State.rb
      rw [hrd, tbit_setFld_ne (by decide) (by decide) (Or.inr (by omega))]

theorem State.setStage_regsWf (h : s.regsWf) (n : Nat) : (s.setStage n).regsWf := by
  unfold State.setStage
  split
  · exact h
  · exact State.pf_regsWf (State.pf_regsWf h)

theorem OnlyRegs.setStage (h : OnlyRegs s t) (n : Nat) : OnlyRegs s (t.setStage n) := by
  unfold State.setStage
  split
  · exact h
  · exact (h.pf ..).pf ..

/-! ### Blocks that show READY -/

/-- The pages whose block is among those named. -/
def readyPages (p : Block → Bool) : List Nat :=
  pageRows.flatMap (fun r => if p r.block then (List.range (r.per * r.count)).map (r.page + ·) else [])

theorem State.showReady_eq (s : State) (p : Block → Bool) : s.showReady p = (readyPages p).foldl (fun s q => s.setBlk q 2) s := by
  unfold State.showReady readyPages
  rw [List.foldl_flatMap]
  congr 1
  funext u r
  split
  · rw [List.foldl_map]
  · rfl

theorem mem_readyPages {p : Block → Bool} {r : PageRow} {page : Nat} (hr : r ∈ pageRows) (hp : p r.block = true) (h1 : r.page ≤ page)
    (h2 : page < r.page + r.per * r.count) : page ∈ readyPages p := by
  refine List.mem_flatMap.mpr ⟨r, hr, ?_⟩
  rw [if_pos hp]
  exact List.mem_map.mpr ⟨page - r.page, List.mem_range.mpr (by omega), by omega⟩

theorem State.setBlk_blk (h : s.regsWf) (q page : Nat) : (s.setBlk q 2).blk page = if page = q then 2 else s.blk page := by
  unfold State.setBlk State.blk
  split
  · next hq =>
    rw [hq]
    exact State.rf_pf h _ (by decide) (by decide)
  · next hq => exact State.rf_wr_ne h _ (fun he => hq (by unfold rga at he; omega))

/-- BLK_STAT of the pages in a list shows READY; the rest of the state and of the registers stands. -/
theorem foldl_setBlk (h : s.regsWf) (l : List Nat) : (l.foldl (fun s q => s.setBlk q 2) s).regsWf ∧ OnlyRegs s (l.foldl (fun s q => s.setBlk q 2) s) ∧
    (∀ page, page ∈ l ∨ s.blk page = 2 → (l.foldl (fun s q => s.setBlk q 2) s).blk page = 2) ∧
    ∀ a, a % 4096 ≠ oStat → (l.foldl (fun s q => s.setBlk q 2) s).rd a = s.rd a := by
  induction l generalizing s with
  | nil => exact ⟨h, OnlyRegs.refl s, fun page hp => hp.resolve_left (by simp), fun _ _ => rfl⟩
  | cons q l ih =>
    have hq : (s.setBlk q 2).regsWf := State.pf_regsWf h
    obtain ⟨hwf, honly, hblk, hrd⟩ := ih hq
    refine ⟨hwf, ((OnlyRegs.refl s).pf ..).trans honly, fun page hp => hblk page ?_, fun a ha => (hrd a ha).trans (State.rd_wr_ne h _ ?_)⟩
    · rw [State.setBlk_blk h]
      by_cases hpq : page = q
      · exact Or.inr (if_pos hpq)
      · rw [if_neg hpq]
        rcases hp with hm | hb
        · exact Or.inl ((List.mem_cons.mp hm).resolve_left hpq)
        · exact Or.inr hb
    · rintro rfl
      exact ha (rga_mod _ (by decide))

theorem State.showReady_effect (h : s.regsWf) (p : Block → Bool) : (s.showReady p).regsWf ∧ OnlyRegs s (s.showReady p) ∧
    (∀ page, page ∈ readyPages p ∨ s.blk page = 2 → (s.showReady p).blk page = 2) ∧ ∀ a, a % 4096 ≠ oStat → (s.showReady p).rd a = s.rd a := by
  rw [State.showReady_eq]
  exact foldl_setBlk h (readyPages p)

end Sys2Proof.Machine
end

section
/-!
Host release, HBM training and the resets of the PCIe functions (R468, R469, R473, R476): from these the obligation HostLink.
-/
namespace Sys2Proof.Machine

variable {s : State}

/-! ### Host release -/

/-- The registers of a release: READY in its stage, and the interrupt (R468, R469). -/
def State.readyShown (s : State) : State := (((s.setStage 5).wb aReady 31 true).raise 0 0).logNamed 1 evBoot 5 0 255

/-- What Ostler does then: the loop of R421 starts, and a TRIAL image has its wait. -/
def State.loopStarted (s : State) (trial : Bool) : State := { s with ost := { s.ost with loopOn := true, trialOn := trial } }

theorem State.release_eq (s : State) : s.release = s.readyShown.loopStarted (s.readyShown.slotState s.readyShown.ost.running == 2) := rfl

theorem State.readyShown_reads (s : State) : s.readyShown.stage = 5 ∧ s.readyShown.ready = true ∧ s.readyShown.tensorOff = s.tensorOff ∧
    s.readyShown.rb (rga 0 oRaw) 0 = true := by
  have hraw := resetReg_raw 0 (by decide)
  have hne : aReady ≠ rga 0 oRaw := rga_ne_of_off (by decide) (by decide) (by decide)
  obtain ⟨hstage, hbits, -⟩ := State.setStage_reads s (n := 5) (by decide) (by decide)
  have hrd : s.readyShown.rd aReady = setBit ((s.setStage 5).rd aReady) 31 true := by
    unfold State.readyShown
    rw [State.rd_congr (State.logNamed_regs ..), State.rd_raise_other hraw (by decide) hne, State.rd_wb_set resetReg_ready (by decide), if_pos rfl]
  refine ⟨?_, ?_, ?_, ?_⟩
  · unfold State.stage State.rf
    rw [hrd, fld_setBit_ne (by decide) (by decide) (by decide)]
    exact hstage
  · unfold State.ready State.rb
    rw [hrd, tbit_setBit (by decide)]
  · unfold State.tensorOff State.rb
    rw [hrd, tbit_setBit_ne (by decide) (by decide)]
    exact hbits 29 (by decide)
  · unfold State.readyShown
    rw [State.rb_congr (State.logNamed_regs ..)]
    exact State.rb_raise_stored hraw (by decide)

theorem State.readyShown_onlyRegsLog (s : State) : OnlyRegsLog s s.readyShown :=
  ((((OnlyRegs.refl s).setStage 5).wb ..).msix.raise ..).log.logNamed ..

theorem OnlyRegsLog.memory {t : State} (h : OnlyRegsLog s t) : t.hbm = s.hbm ∧ t.spad = s.spad ∧ t.ost = s.ost := by
  unfold OnlyRegsLog at h
  rw [h]
  exact ⟨rfl, rfl, rfl⟩

theorem State.release_effect (s : State) : s.release.stage = 5 ∧ s.release.ready = true ∧ s.release.tensorOff = s.tensorOff ∧
    s.release.rb (rga 0 oRaw) 0 = true ∧ s.release.ost.loopOn = true ∧ s.release.pins = s.pins ∧ s.release.hbm = s.hbm := by
  obtain ⟨hstage, hready, hoff, hraw⟩ := s.readyShown_reads
  have honly := s.readyShown_onlyRegsLog
  rw [State.release_eq]
  exact ⟨hstage, hready, hoff, hraw, rfl, honly.frame.1, honly.memory.1⟩

/-! ### HBM training -/

theorem exec_hbmTrainingDone_good (h : s.stage = 3) : exec (.hbmTrainingDone 0) s = .next ((s.showReady (fun b => b == .hbmc)).setStage 4).trainAll := by
  change execHbmTrainingDone 0 s = _
  rw [execHbmTrainingDone, if_neg (Decidable.not_not.mpr h), if_pos rfl]

theorem exec_hbmTrainingDone_failed {failed : BitVec 4} (h : s.stage = 3) (hf : failed ≠ 0) :
    ∃ u : State, exec (.hbmTrainingDone failed) s = .next (u.tensorShutdown 3).release := by
  refine ⟨((List.range 4).filter (fun k => failed.getLsbD k)).foldl (fun s k => s.logNamed 1 evHbmTrain 3 k 255) s, ?_⟩
  change execHbmTrainingDone failed s = _
  rw [execHbmTrainingDone, if_neg (Decidable.not_not.mpr h), if_neg hf]

theorem State.trainAll_unstable (h : s.ost.fieldIdBad = true) (hwf : s.regsWf) : s.trainAll = s.showReady (fun b => b == .faleg) := by
  obtain ⟨-, honly, -⟩ := State.showReady_effect hwf (fun b => b == .faleg)
  have hbad : (s.showReady (fun b => b == .faleg)).ost.fieldIdBad = true := by
    rw [honly.msix.log.memory.2.2]
    exact h
  unfold State.trainAll
  dsimp only
  rw [if_pos hbad]

theorem hbmTraining_good_effect (hwf : s.regsWf) (h : s.stage = 3) (hbad : s.ost.fieldIdBad = true) :
    ∃ t, exec (.hbmTrainingDone 0) s = .next t ∧ t.stage = 4 ∧ t.blk 0x210 = 2 ∧ t.hbm = s.hbm ∧ t.tensorOff = s.tensorOff := by
  obtain ⟨hwf1, honly1, hblk1, hrd1⟩ := State.showReady_effect hwf (fun b => b == .hbmc)
  obtain ⟨hstage, hbits, hkeep⟩ := State.setStage_reads (s.showReady (fun b => b == .hbmc)) (n := 4) (by decide) (by decide)
  have honly2 := honly1.setStage 4
  have hbad2 : ((s.showReady (fun b => b == .hbmc)).setStage 4).ost.fieldIdBad = true := by
    rw [honly2.msix.log.memory.2.2]
    exact hbad
  have hwf2 := State.setStage_regsWf hwf1 4
  obtain ⟨-, honly3, hblk3, hrd3⟩ := State.showReady_effect hwf2 (fun b => b == .faleg)
  have hready := hrd3 aReady (by decide)
  have hpage : ((s.showReady (fun b => b == .hbmc)).setStage 4).blk 0x210 = 2 := by
    refine (congrArg (fld · 2 0) (hkeep (rga 0x210 oStat) (by decide) (by decide))).trans (hblk1 0x210 (Or.inl ?_))
    exact mem_readyPages (r := ⟨0x210, 1, 16, .hbmc, 40⟩) (by simp [pageRows]) rfl (by decide) (by decide)
  refine ⟨_, (exec_hbmTrainingDone_good h).trans (by rw [State.trainAll_unstable hbad2 hwf2]), (congrArg (fld · 3 0) hready).trans hstage,
    hblk3 0x210 (Or.inr hpage), (honly2.trans honly3).msix.memory.1, ?_⟩
  exact (congrArg (tbit · 29) hready).trans ((hbits 29 (by decide)).trans (congrArg (tbit · 29) (hrd1 aReady (by decide))))

/-! ### The reference clock -/

theorem refclkLoss_effect (hwf : s.regsWf) (hoff : s.tensorOff = true) :
    ∃ t, exec .refclkLoss s = .next t ∧ t.noTorque = true ∧ t.rb (rga 8 oRaw) 4 = true ∧ t.hbm = s.hbm ∧ t.tensorOff = true := by
  obtain ⟨hpins, -, hhbm, -, hraw, hrd⟩ := State.ctrlMonitorEvent_effect hwf 1
  have hoff' : (s.ctrlMonitorEvent 1).tensorOff = true :=
    (congrArg (tbit · 29) (hrd aReady (by decide) (by decide) (by decide) (by decide) (by decide))).trans hoff
  have hend : (s.ctrlMonitorEvent 1).tensorShutdown 4 = s.ctrlMonitorEvent 1 := if_pos hoff'
  refine ⟨s.ctrlMonitorEvent 1, ?_, hpins, hraw, hhbm, hoff'⟩
  change execRefclkLoss s = _
  rw [execRefclkLoss, hend]

/-! ### Resets of the functions -/

theorem exec_vfFunctionLevelReset (t : Fin 8) : exec (.vfFunctionLevelReset t) s = .next (
    if s.tnState t.val = 1 ∨ s.tnState t.val = 3 then s.startRelease t.val
    else if s.tnState t.val = 2 then s.setTenant t.val { s.tenant t.val with flr := true } else s) := by
  change execVfFunctionLevelReset t s = _
  unfold execVfFunctionLevelReset
  split
  · rfl
  · split <;> rfl

/-- Settles O47: host release, the training of the HBM, and the resets from outside. -/
theorem hostLink : Obligations.HostLink := by
  intro s hcan
  have hwf := State.canonical_regsWf hcan
  refine ⟨fun h => ?_, fun h hbad => hbmTraining_good_effect hwf h hbad, fun h failed hf => ?_, rfl, rfl, rfl,
    fun t => ⟨fun h => ?_, fun h => ?_, fun h => ?_⟩, refclkLoss_effect hwf⟩
  · obtain ⟨hstage, hready, -, hraw, hloop, hpins, hhbm⟩ := s.release_effect
    refine ⟨s.release, ?_, hstage, hready, hraw, hloop, hpins, hhbm⟩
    change execHostRelease s = _
    rw [execHostRelease, if_pos h]
  · obtain ⟨u, hexec⟩ := exec_hbmTrainingDone_failed h hf
    obtain ⟨hstage, hready, hoff, -⟩ := (u.tensorShutdown 3).release_effect
    exact ⟨_, hexec, hstage, hready, hoff.trans (State.tensorShutdown_off u 3)⟩
  · rw [exec_vfFunctionLevelReset, if_pos h]
  · rw [exec_vfFunctionLevelReset, if_neg (by omega), if_pos h]
  · rw [exec_vfFunctionLevelReset, if_neg (by omega), if_neg (by omega)]

end Sys2Proof.Machine
end

section
/-!
Power-on and the firmware watchdog (R429, R466 to R468, R472, R474): from these the obligation PowerOn.
-/
namespace Sys2Proof.Machine

variable {s : State} {r : BootVerify}

/-! ### POR_N low -/

/-- After a restart every register but VCORE's and CORE_CLK's holds its reset value (R443, R472). -/
theorem State.restart_rd (s : State) (keepHbm : Bool) {a : Nat} (ha : a ≠ rga 6 0x4C) : (s.restart keepHbm).rd a = resetReg a := by
  unfold State.restart State.setFcur
  exact (State.rd_wr_other _ ha).trans (State.rd_wr_other _ ha)

/-- The state held in reset (R467, R472). -/
def State.held (s : State) : State := ({ s with pins := { s.pins with porN := false } } : State).restart false

theorem State.held_keeps (s : State) : s.held.noTorque = true ∧ s.held.pins.porN = false ∧ s.held.fuses = s.fuses ∧ s.held.log = s.log ∧
    s.held.ledger.rows = s.ledger.rows ∧ s.held.ledger.queue = [] ∧ s.held.ost.slotA = s.ost.slotA ∧ s.held.ost.slotB = s.ost.slotB ∧ s.held.spad = [] ∧
    s.held.pending = s.pending :=
  ⟨rfl, rfl, rfl, rfl, rfl, rfl, rfl, rfl, rfl, rfl⟩

theorem exec_porNAssert (h : s.ledger.prog = none) : exec .porNAssert s = .next { s.held with
    log := { flash := s.held.log.flash, nextSeq := s.held.log.nextSeq }, ost := { s.held.ost with running := 2 } } := by
  change execPorNAssert s = _
  simp only [execPorNAssert, h]
  rfl

theorem porNAssert_effect (h : s.ledger.prog = none) :
    ∃ t, exec .porNAssert s = .next t ∧ t.noTorque = true ∧ t.pins.porN = false ∧ t.fuses = s.fuses ∧ t.log.flash = s.log.flash ∧
      t.log.fifo = [] ∧ t.ledger.rows = s.ledger.rows ∧ t.ledger.queue = [] ∧ t.ost.slotA = s.ost.slotA ∧ t.ost.slotB = s.ost.slotB ∧ t.spad = [] ∧
      t.pending = s.pending ∧ (∀ a, a ≠ rga 6 0x4C → t.rd a = resetReg a) := by
  obtain ⟨hpins, hpor, hfuses, hlog, hrows, hqueue, hA, hB, hspad, hpend⟩ := s.held_keeps
  have hrd : ∀ a, a ≠ rga 6 0x4C → s.held.rd a = resetReg a := fun a ha => State.restart_rd _ false ha
  have hexec := exec_porNAssert h
  have hflash : s.held.log.flash = s.log.flash := congrArg EventLog.flash hlog
  generalize s.held = u at *
  exact ⟨_, hexec, hpins, hpor, hfuses, hflash, rfl, hrows, hqueue, hA, hB, hspad, hpend, hrd⟩

/-! ### POR_N high -/

/-- The management domain shows READY in the first stage (R454, R468). -/
theorem State.started_effect (h : s.regsWf) : ((s.showReady Block.management).setStage 1).stage = 1 ∧
    OnlyRegs s ((s.showReady Block.management).setStage 1) :=
  ⟨(State.setStage_reads _ (by decide) (by decide)).1, (State.showReady_effect h _).2.1.setStage 1⟩

/-- The levels after POR_N rises. -/
def State.porHigh (s : State) : State := { s with pins := { s.pins with porN := true } }

/-- The straps as read sixteen times alike, and as they were not (R468, R476). -/
def State.idLatched (s : State) (id : BitVec 6) : State := { s with fuses := { s.fuses with fieldId := id.toNat } }
def State.idUnstable (s : State) : State := ({ s with ost := { s.ost with fieldIdBad := true } } : State).logNamed 0 evFieldId 6 0 255

theorem exec_porNRelease_same {id : BitVec 6} {l : List (BitVec 6)} (h : s.pins.porN = false) (hl : ∀ x ∈ l, x = id) :
    exec (.porNRelease (id :: l)) s = .next ((((s.porHigh).idLatched id).showReady Block.management).setStage 1) := by
  have hall : (id :: l).all (· == id) = true := List.all_eq_true.mpr fun x hx => by
    rcases List.mem_cons.mp hx with rfl | hx
    · exact beq_self_eq_true _
    · exact beq_iff_eq.mpr (hl x hx)
  change execPorNRelease (id :: l) s = _
  simp only [execPorNRelease, h, Bool.false_eq_true, if_false, List.headD_cons, hall, if_true]
  rfl

theorem exec_porNRelease_unstable {id : BitVec 6} {l : List (BitVec 6)} (h : s.pins.porN = false) (hl : ∃ x ∈ l, x ≠ id) :
    exec (.porNRelease (id :: l)) s = .next ((s.porHigh.idUnstable.showReady Block.management).setStage 1) := by
  obtain ⟨x, hx, hne⟩ := hl
  have hall : (id :: l).all (· == id) = false := List.all_eq_false.mpr ⟨x, List.mem_cons_of_mem _ hx, by simpa using hne⟩
  change execPorNRelease (id :: l) s = _
  simp only [execPorNRelease, h, Bool.false_eq_true, if_false, List.headD_cons, hall]
  rfl

theorem OnlyRegs.kept {t : State} (h : OnlyRegs s t) : t.pins = s.pins ∧ t.fuses = s.fuses ∧ t.ost = s.ost := by
  unfold OnlyRegs at h
  rw [h]
  exact ⟨rfl, rfl, rfl⟩

theorem porNRelease_same_effect (hwf : s.regsWf) (id : BitVec 6) (l : List (BitVec 6)) (h : s.pins.porN = false) (hl : ∀ x ∈ l, x = id) :
    ∃ t, exec (.porNRelease (id :: l)) s = .next t ∧ t.fuses.fieldId = id.toNat ∧ t.pins.porN = true ∧ t.stage = 1 ∧ t.ost.fieldIdBad = s.ost.fieldIdBad := by
  obtain ⟨hstage, honly⟩ := State.started_effect (s := s.porHigh.idLatched id) hwf
  obtain ⟨hpins, hfuses, host⟩ := honly.kept
  exact ⟨_, exec_porNRelease_same h hl, congrArg Fuses.fieldId hfuses, congrArg Pins.porN hpins, hstage, congrArg Ostler.fieldIdBad host⟩

theorem State.idUnstable_keeps (s : State) : s.idUnstable.regs = s.regs ∧ s.idUnstable.fuses = s.fuses ∧ s.idUnstable.ost.fieldIdBad = true := by
  unfold State.idUnstable
  obtain ⟨g, hg⟩ := State.logNamed_eq (s := { s with ost := { s.ost with fieldIdBad := true } }) (page := 0) (ev := evFieldId) (cls := 6) (info := 0) (t := 255)
  rw [hg]
  exact ⟨rfl, rfl, rfl⟩

theorem porNRelease_unstable_effect (hwf : s.regsWf) (id : BitVec 6) (l : List (BitVec 6)) (h : s.pins.porN = false) (hl : ∃ x ∈ l, x ≠ id) :
    ∃ t, exec (.porNRelease (id :: l)) s = .next t ∧ t.ost.fieldIdBad = true ∧ t.fuses = s.fuses ∧ t.stage = 1 := by
  obtain ⟨hregs, hfuse, hbad⟩ := s.porHigh.idUnstable_keeps
  obtain ⟨hstage, honly⟩ := State.started_effect (s := s.porHigh.idUnstable) (by unfold State.regsWf; rw [hregs]; exact hwf)
  obtain ⟨-, hfuses, host⟩ := honly.kept
  exact ⟨_, exec_porNRelease_unstable h hl, (congrArg Ostler.fieldIdBad host).trans hbad, hfuses.trans hfuse, hstage⟩

/-! ### The choice of the firmware -/

/-- The ROM has chosen slot k, or none (2). -/
def State.chosen (s : State) (k : Nat) : State := { s with ost := { s.ost with running := k, firmware := true } }

theorem firmwareChosen_active (h : s.ost.firmware = false) (hpor : s.pins.porN = true) (horder : s.bootOrder = [0]) (hs : s.slotState 0 = 3)
    (hr : r.slotA = true) : exec (.firmwareChosen r) s = .next { s.chosen 0 with ost := { (s.chosen 0).ost with
      trialOn := (s.chosen 0).stage == 5 && (s.chosen 0).slotState 0 == 2 } } := by
  have hboot : s.bootTry r [] 2 = { s with ost := { s.ost with running := 0 } } := by
    have hne : s.slotState 0 ≠ 2 := by omega
    simp [State.bootTry, horder, hne, hr]
  have hslot : ¬ (0 : Nat) = 2 := by decide
  change execFirmwareChosen r s = _
  simp only [execFirmwareChosen, h, hpor, hboot, Bool.not_true, Bool.false_eq_true, or_self, if_false, hslot, false_and]
  rfl

/-- SAFE_HOLD with the ROM (R429, R468). -/
def State.romHold (s : State) : State := ((s.wb aWdStat 31 true).raise 0 1).setStage 6

/-- The PCIe controller leaves reset. -/
def State.pcieUp (s : State) : State := { s with ost := { s.ost with pcieHeld := false } }

theorem firmwareChosen_none (h : s.ost.firmware = false) (hpor : s.pins.porN = true) (hstage : s.stage = 1) (horder : s.bootOrder = []) :
    exec (.firmwareChosen r) s = .next (s.chosen 2).pcieUp.romHold := by
  have hboot : s.bootTry r [] 2 = { s with ost := { s.ost with running := 2 } } := by
    simp [State.bootTry, horder]
  have hs : (s.chosen 2).stage ≠ 5 := fun he => absurd (hstage.symm.trans he) (by decide)
  unfold State.chosen at hs ⊢
  change execFirmwareChosen r s = _
  simp only [execFirmwareChosen, h, hpor, hboot, Bool.not_true, Bool.false_eq_true, or_self, if_false, true_and]
  rw [if_pos hs]
  rfl

theorem State.romHold_effect (h : s.regsWf) : s.romHold.safeHold = true ∧ s.romHold.stage = 6 ∧ s.romHold.rb (rga 0 oRaw) 1 = true ∧ s.romHold.ost = s.ost := by
  have h1 : (s.wb aWdStat 31 true).regsWf := State.wb_regsWf h
  obtain ⟨hstage, -, hkeep⟩ := State.setStage_reads ((s.wb aWdStat 31 true).raise 0 1) (n := 6) (by decide) (by decide)
  have honly := ((((OnlyRegs.refl s).wb aWdStat 31 true).msix.raise 0 1).log).trans ((OnlyRegs.refl _).setStage 6).msix.log
  refine ⟨?_, hstage, ?_, honly.memory.2.2⟩
  · refine (congrArg (tbit · 31) (hkeep aWdStat (by decide) (by decide))).trans ?_
    exact (State.rb_raise_ne h1 (by decide)).trans (State.rb_wb h _ (by decide))
  · exact (congrArg (tbit · 1) (hkeep (rga 0 oRaw) (by decide) (by decide))).trans (State.rb_raise_same h1 (by decide))

/-! ### The rails -/

theorem State.pmRail_only (s : State) (rail code data : Nat) : OnlyPmbusAlarms s (s.pmRail rail code data) :=
  foldl_invariant (P := OnlyPmbusAlarms s) (fun _ h _ _ => h.trans (State.pmSend_only ..)) rfl

/-- The commands that switch the rails on, and the queries of VOUT_MODE (R419). -/
def State.railsOn (s : State) : State :=
  (List.range 8).foldl (fun s k => s.pmSend k 0x20 0) ([4, 3, 0, 5, 6].foldl (fun s r => s.pmRail r 0x01 0x80) s)

theorem State.railsOn_only (s : State) : OnlyPmbusAlarms s s.railsOn := by
  have hrails : OnlyPmbusAlarms s ([4, 3, 0, 5, 6].foldl (fun s r => s.pmRail r 0x01 0x80) s) :=
    foldl_invariant (P := OnlyPmbusAlarms s) (fun u h rail _ => h.trans (u.pmRail_only rail 0x01 0x80)) rfl
  exact foldl_invariant (P := OnlyPmbusAlarms s) (fun u h k _ => h.trans (u.pmSend_only k 0x20 0)) hrails

theorem OnlyPmbusAlarms.kept {t : State} (h : OnlyPmbusAlarms s t) : t.regs = s.regs ∧ t.pins = s.pins ∧ t.ost.ctrlHeld = s.ost.ctrlHeld ∧
    t.ost.pcieHeld = s.ost.pcieHeld := by
  unfold OnlyPmbusAlarms at h
  rw [h]
  exact ⟨rfl, rfl, rfl, rfl⟩

/-- The control domain and the PCIe controller leave reset. -/
def State.domainsUp (s : State) : State := { s with ost := { s.ost with ctrlHeld := false, pcieHeld := false } }

/-- The blocks of the two domains that show READY before the start-up run (R454). -/
def railBlocks (b : Block) : Bool := b.control || (b.tensorSide && b != .hbmc && b != .faleg)

/-- IC0 is enabled, its bus clear runs, and the start-up run begins (R385, R451, R468). -/
def State.runBegun (s : State) : State := ((s.wb (rga 0x330 oCtl) 0 true).incSat (rga 0x330 0x50) 31 16).setStage 2

theorem exec_tensorRailsUp (h1 : s.stage = 1) (hf : s.ost.firmware = true) (hr : s.ost.running ≠ 2) :
    exec .tensorRailsUp s = .next ((s.domainsUp.showReady railBlocks).railsOn).runBegun := by
  change execTensorRailsUp s = _
  rw [execTensorRailsUp, if_neg (by simp [h1, hf, hr])]
  rfl

theorem State.runBegun_effect (h : s.regsWf) : s.runBegun.stage = 2 ∧ s.runBegun.blkOn 0x330 = true ∧ OnlyRegs s s.runBegun ∧
    ∀ page, s.runBegun.blk page = s.blk page := by
  have hctl : (s.wb (rga 0x330 oCtl) 0 true).regsWf := State.wb_regsWf h
  obtain ⟨hstage, -, hkeep⟩ := State.setStage_reads ((s.wb (rga 0x330 oCtl) 0 true).incSat (rga 0x330 0x50) 31 16) (n := 2) (by decide) (by decide)
  refine ⟨hstage, ?_, (((OnlyRegs.refl s).wb ..).pf ..).setStage 2, fun page => ?_⟩
  · refine (congrArg (tbit · 0) (hkeep (rga 0x330 oCtl) (by decide) (by decide))).trans ?_
    exact (State.rb_wr_ne hctl _ (by decide)).trans (State.rb_wb h _ (by decide))
  · have hne : ∀ {p o : Nat}, o < 4096 → o ≠ oStat → rga page oStat ≠ rga p o := fun ho hn => rga_ne_of_off (by decide) ho (Ne.symm hn)
    refine congrArg (fld · 2 0) ((hkeep (rga page oStat) (hne (by decide) (by decide)) (hne (by decide) (by decide))).trans ?_)
    exact (State.rd_wr_ne hctl _ (hne (by decide) (by decide))).trans (State.rd_wr_ne h _ (hne (by decide) (by decide)))

theorem tensorRailsUp_effect (hwf : s.regsWf) (h1 : s.stage = 1) (hf : s.ost.firmware = true) (hr : s.ost.running ≠ 2) :
    ∃ t, exec .tensorRailsUp s = .next t ∧ t.stage = 2 ∧ t.ost.ctrlHeld = false ∧ t.ost.pcieHeld = false ∧ t.blk 0x400 = 2 ∧ t.blk 0x100 = 2 ∧
      t.blkOn 0x330 = true ∧ t.pins = s.pins := by
  obtain ⟨hwf1, honly1, hblk1, -⟩ := State.showReady_effect (s := s.domainsUp) hwf railBlocks
  obtain ⟨hregs, hpins2, hctrl2, hpcie2⟩ := (s.domainsUp.showReady railBlocks).railsOn_only.kept
  obtain ⟨hstage, hon, honly3, hblk3⟩ := State.runBegun_effect (s := (s.domainsUp.showReady railBlocks).railsOn) (by unfold State.regsWf; rw [hregs]; exact hwf1)
  obtain ⟨hpins1, -, host1⟩ := honly1.kept
  obtain ⟨hpins3, -, host3⟩ := honly3.kept
  have hblk : ∀ page, page ∈ readyPages railBlocks → ((s.domainsUp.showReady railBlocks).railsOn).runBegun.blk page = 2 := fun page hm =>
    (hblk3 page).trans ((State.rf_congr hregs _ _ _).trans (hblk1 page (Or.inl hm)))
  refine ⟨_, exec_tensorRailsUp h1 hf hr, hstage, ?_, ?_, hblk 0x400 ?_, hblk 0x100 ?_, hon, hpins3.trans (hpins2.trans hpins1)⟩
  · exact (congrArg Ostler.ctrlHeld host3).trans (hctrl2.trans (congrArg Ostler.ctrlHeld host1))
  · exact (congrArg Ostler.pcieHeld host3).trans (hpcie2.trans (congrArg Ostler.pcieHeld host1))
  · exact mem_readyPages (r := ⟨0x400, 1, 1, .milepost, 88⟩) (by simp [pageRows]) rfl (by decide) (by decide)
  · exact mem_readyPages (r := ⟨0x100, 16, 6, .sheaf, 17⟩) (by simp [pageRows]) rfl (by decide) (by decide)

/-! ### The watchdog of the firmware -/

theorem ostlerWdt_effect (h : s.ost.cmd = none) :
    ∃ t, exec .ostlerWdt s = .next t ∧ t.ost.firmware = false ∧ t.ost.verified = false ∧ t.ost.trialOn = false ∧ t.regs = s.regs ∧ t.pins = s.pins ∧
      t.drv = s.drv := by
  obtain ⟨g, hg⟩ := State.logNamed_eq (s := s) (page := 1) (ev := evOstlerWdt) (cls := 5) (info := 0) (t := 255)
  have hexec : exec .ostlerWdt s = .next { s with
      log := g, ost := { s.ost with firmware := false, verified := false, trialOn := false, rising := none } } := by
    change execOstlerWdt s = _
    simp only [execOstlerWdt, hg, h, Option.isSome_none, Bool.false_eq_true, if_false]
  exact ⟨_, hexec, rfl, rfl, rfl, rfl, rfl, rfl⟩

/-- Settles O46: what POR_N low keeps, the straps, the ROM's choice, the rails, and the restart of Ostler alone. -/
theorem powerOn : Obligations.PowerOn := by
  intro s hcan
  have hwf := State.canonical_regsWf hcan
  refine ⟨porNAssert_effect, porNRelease_same_effect hwf, porNRelease_unstable_effect hwf, fun r hf hpor hstage => ⟨fun horder hs hr => ?_, fun horder => ?_⟩,
    tensorRailsUp_effect hwf, ostlerWdt_effect⟩
  · exact ⟨_, firmwareChosen_active hf hpor horder hs hr, rfl, rfl, rfl, rfl⟩
  · obtain ⟨hsafe, hstage6, hraw, host⟩ := State.romHold_effect (s := (s.chosen 2).pcieUp) hwf
    exact ⟨_, firmwareChosen_none hf hpor hstage horder, congrArg Ostler.running host, hsafe, hstage6, congrArg Ostler.pcieHeld host, hraw⟩

end Sys2Proof.Machine
end
